-- ==== Sys2Proof/Word.lean ====
section
/-! DEFINITION. The word types of Rinvik (00_scope R13, 02_instruction_words R37, R43, 08_local_memory R189). -/

namespace Sys2Proof

/-- A 64-bit register or doubleword. -/
abbrev Word := BitVec 64

/-- A byte. -/
abbrev Byte := BitVec 8

/-- A halfword: a 16-bit instruction, or half of a 32-bit one (R33). -/
abbrev Half := BitVec 16

/-- A 32-bit instruction word (R37). -/
abbrev InstrWord := BitVec 32

/-- A doubleword with the poison tag of its 8-byte unit (R189). -/
structure PWord where
  val : Word
  poison : Bool
  deriving DecidableEq, Repr

/-- A predicate value with its poison tag (R129). -/
structure PBit where
  val : Bool
  poison : Bool
  deriving DecidableEq, Repr

namespace PWord

/-- An unpoisoned value. -/
def clean (v : Word) : PWord := ⟨v, false⟩

/-- The value zero, unpoisoned. -/
def zero : PWord := ⟨0, false⟩

/-- `Poison(0)` of R186. -/
def poison0 : PWord := ⟨0, true⟩

end PWord

end Sys2Proof
end

