-- ==== Sys2Proof/Config.lean ====
section
/-! DEFINITION. What one part fixes and the spec does not give, and the free values (logs 2, 7, 8). Nothing here has a
body: no statement can rest on a value of it. -/

namespace Sys2Proof.Config

/-- The `k`-th free byte: what a bank holds on entering scratch mode (R199). -/
opaque freeByte (k : Nat) : Byte

/-- The `k`-th free choice: the value of R166 and its STALE report. -/
opaque freeBool (k : Nat) : Bool

/-- The `k`-th free word: what a peer device's home returns when no event says it (R35, R396 on a peer page). -/
opaque freeWord (k : Nat) : Word

/-- A word of a page table on a peer device and its poison tag, by peer, address and the count of free values (R395). -/
opaque peerTable (peer addr k : Nat) : Word × Bool

/-- The fixed hash of R368: a destination's number among the paths that are open. -/
opaque pathHash (dest : Nat) : Nat

/-- The fused weights of a cluster by which its activity is multiplied, in units of 10 µW over an interval: issued instructions,
bit-products, lane operations, copy bytes and fabric flits, in this order (R404). -/
opaque weight (cluster kind : Nat) : Nat

/-- The fused trim of a core: this many times 5 mV, less 20 mV (R402). -/
opaque trim (core : Nat) : Fin 9

/-- The fused unique device secret (R422, R429). -/
opaque uds : List Byte

/-- The fused digest of the firmware public key (R422, R426). -/
opaque pkHash : List Byte

/-- The device serial of the attestation report (R429). -/
opaque serial : Word

/-- The 32 random bytes of the `k`-th signature (R429). -/
opaque signRandom (k : Nat) : List Byte

/-- What ML-DSA gives where its sampling needs more than the bounded output of its XOF, by its input (R429). -/
opaque unsampled (input : List Byte) : List Byte

/-- Whether the built-in self-test passes (R422 step 4). -/
opaque bistPasses : Bool

/-- Whether HBM training succeeds (R422 step 5). -/
opaque hbmTrains : Bool

/-- The values that HBM training stores in the spine flash (R422, R427). -/
opaque trainingValues : List Byte

/-- Where the frames of a sector's rename pool lie: physical frame number of frame `i` of sector `sec` (R316). -/
opaque renameFrame (sec i : Nat) : Nat

end Sys2Proof.Config
end

