-- ==== Sys2Proof/Syntax.lean ====
section
/-! DEFINITION. The syntax of Rinvik: operand kinds and one constructor of `Instr` per row of spec/opcode_table.json.
The rows without an encoding are the steps the device takes by itself (95_what_each_step_holds); they have no operand
fields, and `Ev` below says which agent takes the step and carries what comes from outside the device. -/

namespace Sys2Proof

/-- g0 to g15 (R39). -/
abbrev Reg := Fin 16
/-- p0 to p7 (R39). -/
abbrev PReg := Fin 8
/-- e0 to e7 (R39, R50). -/
abbrev EReg := Fin 8
/-- v0 to v15 (R147). -/
abbrev VRegN := Fin 16
/-- a0 to a7 (R253). -/
abbrev Tile := Fin 8
/-- Context number 0 to 10 (R89). -/
abbrev CtxId := Fin 11
/-- A core: 0 to 262,143 a compute core (die, sector, group, core; R4, R367); 262,144 the management core (R413);
a number above that, a port through which a peer device's accesses arrive. -/
abbrev CoreId := Nat

/-- The predicate operand q: p[idx] XOR neg (R29, R38). -/
structure Pred where
  idx : PReg
  neg : Bool
  deriving DecidableEq, Repr

/-- Memory scope (R40). -/
inductive Scope where
  | core | clu | grp | sec | die | pkg | sys
  deriving DecidableEq, Repr

/-- Order of a load: plain or .ACQ (R192). -/
inductive LOrder where
  | plain | acq
  deriving DecidableEq, Repr

/-- Order of a store: plain or .REL (R192). -/
inductive SOrder where
  | plain | rel
  deriving DecidableEq, Repr

/-- Order of a returning atomic (R205). -/
inductive AOrder where
  | plain | acq | rel | ar
  deriving DecidableEq, Repr

/-- Slot code of a branch (R41). -/
inductive Slot where
  | none | n | x
  deriving DecidableEq, Repr

/-- Conditions of PCMP and PCMPI (R129). -/
inductive PCond where
  | eq | ne | lt | le | gt | ge | ltu | leu | gtu | geu | any | noneSet
  deriving DecidableEq, Repr

/-- Functions of PLOG (R129). -/
inductive PLogFn where
  | and | or | xor | andn | orn | xnor
  deriving DecidableEq, Repr

/-- Conditions of FCMP and LCMP (R84, R221). -/
inductive FCond where
  | eq | ne | lt | le | un
  deriving DecidableEq, Repr

/-- Rounding override (R80). -/
inductive Rnd where
  | none | rne | rtz | rup | rdn
  deriving DecidableEq, Repr

/-- Format of a scalar or vector float instruction (R80). -/
inductive FFmt where
  | f32 | f16
  deriving DecidableEq, Repr

/-- Level-index format (R67). -/
inductive LFmt where
  | li16 | li32
  deriving DecidableEq, Repr

/-- FCVT conversion codes 0 to 11, destination first (R85). -/
inductive FCvt where
  | f16F32 | f32F16 | bf16F32 | f32Bf16 | f8aF32 | f8bF32 | f32F8a | f32F8b | i64F32 | u64F32 | f32I64 | f32U64
  deriving DecidableEq, Repr

/-- VCVT conversion codes 0 to 13, destination first (R245). -/
inductive VCvt where
  | f16F32 | f32F16 | bf16F32 | f32Bf16 | f8aF32 | f8bF32 | f32F8a | f32F8b | i32F32 | u32F32 | f32I32 | f32U32
  | p8aF32 | p8bF32
  deriving DecidableEq, Repr

/-- LCVT and VLCVT conversion codes 0 to 11, destination first (R222). -/
inductive LCvt where
  | li16F32 | li16F16 | li16Bf16 | li32F32 | li32F16 | li32Bf16
  | f32Li16 | f16Li16 | bf16Li16 | f32Li32 | f16Li32 | bf16Li32
  deriving DecidableEq, Repr

/-- Size code of RLD and FETCHTO (R380). -/
inductive RSize where
  | b8 | b16 | b32 | b64 | b128 | b256
  deriving DecidableEq, Repr

/-- Scales an MSCL takes: rows, columns, rows then columns (R265, R273). -/
inductive SclMode where
  | r | c | rc
  deriving DecidableEq, Repr

/-- Saturation of VADD and VSUB (R242). -/
inductive SatMode where
  | wrap | ss | su
  deriving DecidableEq, Repr

/-- Half of the product a VMUL returns (R242). -/
inductive MulMode where
  | low | h | hu
  deriving DecidableEq, Repr

/-- Integer conditions of VCMP (R246). -/
inductive VICond where
  | eq | ne | lt | le | ltu | leu
  deriving DecidableEq, Repr

/-- Conditions of VCMP in its two formats (R246). -/
inductive VCond where
  | i32 (c : VICond)
  | f32 (c : FCond)
  deriving DecidableEq, Repr

/-- VRSUM in its two formats (R246). -/
inductive RedKind where
  | f32 (r : Rnd)
  | i32
  deriving DecidableEq, Repr

/-- The four timeline counters (R295). -/
inductive TLCounter where
  | tlm | tlc | tlf | tlv
  deriving DecidableEq, Repr

/-- The guard of an engine command: slot 1 to 7, or 0 for none, and its polarity (R42, R143). -/
structure Guard where
  g : BitVec 3
  gp : Bool
  deriving DecidableEq, Repr

/-- Acknowledgement of a timed store, as a peer's home sends it (R174). -/
inductive AckResult where
  | onTime | late | dropped | held
  deriving DecidableEq, Repr

/-- What a returning or accumulating atomic computes (R205, R209). -/
inductive AtomOp where
  | add | and | or | xor | min | max | minu | maxu | swap | cas (expected : Word) (poison : Bool)
  | fadd32 | ladd32
  deriving DecidableEq, Repr

/-- Who sent an access: its logical core, peer, context, tenant; R165's tie order and R175's ORIGIN. -/
structure Origin where
  lcn : BitVec 18
  peer : BitVec 16
  ctx : CtxId
  tenant : BitVec 12
  deriving DecidableEq, Repr

/-- Whether a write that a peer sends is one of a speculative task of that peer, by the number the peer gives the task, and what
has become of the task before the write arrives (R178, R327). -/
inductive PeerHold where
  | no
  | spec (task : Nat)
  | kept
  | purged
  deriving DecidableEq, Repr

/-- An access of a peer device to a home of this one (R184, R190, R384). -/
inductive PeerReq where
  | read (n : Nat)
  | tld (t : Word)
  | tst (t : Word) (v : PWord) (drop : Bool) (hold : PeerHold)
  /-- a plain store, a write-back, a copy write or a reply write -/
  | write (n : Nat) (v : PWord) (hold : PeerHold)
  | atom (op : AtomOp) (n : Nat) (x : PWord)
  /-- an accumulation merge, or the accumulation of a speculative task -/
  | merge (op : AtomOp) (n : Nat) (x : PWord) (hold : PeerHold)
  /-- the launch of a speculative task has resolved: the task is kept, or squashed -/
  | resolve (task : Nat) (keep : Bool)
  /-- the source read of a FETCHTO: its number at the requester, bytes, recipient word and destination -/
  | fetch (num n : Nat) (rw dst : Word)
  deriving DecidableEq, Repr

/-- What a home of this device answers a peer. -/
inductive PeerAnswer where
  | value (v : PWord) (stale : Bool)
  | stored (late drop refused : Bool)
  | done
  deriving DecidableEq, Repr

/-- What a frame of a peer carries besides a packet: an access, or the reply of a FETCHTO for a core of this device. -/
inductive PeerMsg where
  | none
  | access (from_ : Origin) (pa : Nat) (timed : Bool) (req : PeerReq)
  | reply (from_ : Origin) (num : Nat) (lcn : BitVec 18) (dst : Word) (rtag : BitVec 6) (data : List PWord) (fault : Option Nat)
  deriving DecidableEq, Repr

/-- The readings of a cluster's sixteen cores at the end of a control interval (R414). -/
structure Observation where
  cluster : Nat
  coreReadings : List (BitVec 16)
  deriving DecidableEq, Repr

/-- Observations of one interval, at most one of a cluster; a cluster that is not listed reads what it did before. -/
abbrev Observations := List Observation

/-- What an event row acts on and what it brings from outside the device. The opcode table gives an event no operand
fields; the machine holds the one of the step being taken in its state. Which fields a row reads is said at its meaning.
MODEL'S OWN, DESIGN CHOICE (log 1). -/
structure Ev where
  /-- the core the step concerns -/
  core : CoreId
  /-- its context -/
  ctx : CtxId
  /-- the octet, cluster, slice, sector, link or region -/
  unit : Nat
  /-- a channel, bank, entry, slot, launch, granule or window offset within it -/
  idx : Nat
  /-- a second core: the one chosen, or the one moved to -/
  core2 : CoreId
  /-- a word written, or a first value from outside -/
  w : Word
  /-- a second value from outside -/
  w2 : Word
  /-- the doubleword a peer device's home returned -/
  pw : PWord
  /-- several doublewords from outside -/
  data : List PWord
  /-- a first answer from outside: a write access -/
  ok : Bool
  /-- a second answer from outside: a matching tag; or, at a home, that the access is a peer's -/
  ok2 : Bool
  /-- a peer home's acknowledgement -/
  ack : AckResult
  /-- sensor readings and activity of a control interval or step -/
  obs : Observations
  /-- what a frame of a peer carries besides a packet, and the IV in its header -/
  peer : PeerMsg
  iv : BitVec 96
  deriving DecidableEq, Repr

/-- An event that names nothing. -/
def Ev.none : Ev :=
  ⟨0, 0, 0, 0, 0, 0, 0, ⟨0, false⟩, [], false, false, .onTime, [], .none, 0⟩

/-- One constructor per row of spec/opcode_table.json; the rows that have operand fields stand first. -/
inductive Instr where
  /-- ADD (R125). Adds two g registers modulo 2^64 into g[d]. -/
  | add (d a b : Reg) (q : Pred)
  /-- SUB (R125). Subtracts g[b] from g[a] modulo 2^64 into g[d]. -/
  | sub (d a b : Reg) (q : Pred)
  /-- AND (R125). Bitwise AND of two g registers. -/
  | and (d a b : Reg) (q : Pred)
  /-- OR (R125). Bitwise OR of two g registers. -/
  | or (d a b : Reg) (q : Pred)
  /-- XOR (R125). Bitwise XOR of two g registers. -/
  | xor (d a b : Reg) (q : Pred)
  /-- ANDN (R125). g[a] AND NOT g[b]. -/
  | andn (d a b : Reg) (q : Pred)
  /-- SHL (R125). Shifts g[a] left by g[b][5:0]. -/
  | shl (d a b : Reg) (q : Pred)
  /-- SHR (R125). Logical right shift of g[a] by g[b][5:0]. -/
  | shr (d a b : Reg) (q : Pred)
  /-- SAR (R125). Arithmetic right shift of g[a] by g[b][5:0]. -/
  | sar (d a b : Reg) (q : Pred)
  /-- MIN (R125). Signed minimum of two g registers. -/
  | min (d a b : Reg) (q : Pred)
  /-- MAX (R125). Signed maximum of two g registers. -/
  | max (d a b : Reg) (q : Pred)
  /-- MINU (R125). Unsigned minimum of two g registers. -/
  | minu (d a b : Reg) (q : Pred)
  /-- MAXU (R125). Unsigned maximum of two g registers. -/
  | maxu (d a b : Reg) (q : Pred)
  /-- SEL (R125). Selects g[a] or g[b] by the predicate in its q field; always executes. -/
  | sel (d a b : Reg) (q : Pred)
  /-- CLZ (R125). Counts leading zero bits of g[a]. -/
  | clz (d a : Reg) (q : Pred)
  /-- CTZ (R125). Counts trailing zero bits of g[a]. -/
  | ctz (d a : Reg) (q : Pred)
  /-- POPC (R125). Counts one bits of g[a]. -/
  | popc (d a : Reg) (q : Pred)
  /-- ADDI (R126). Adds a sign-extended 10-bit immediate to g[a]. -/
  | addi (d a : Reg) (imm : BitVec 10) (q : Pred)
  /-- ANDI (R126). ANDs g[a] with a sign-extended 10-bit immediate. -/
  | andi (d a : Reg) (imm : BitVec 10) (q : Pred)
  /-- ORI (R126). ORs g[a] with a sign-extended 10-bit immediate. -/
  | ori (d a : Reg) (imm : BitVec 10) (q : Pred)
  /-- XORI (R126). XORs g[a] with a sign-extended 10-bit immediate. -/
  | xori (d a : Reg) (imm : BitVec 10) (q : Pred)
  /-- SHLI (R127). Shifts g[a] left by an immediate. -/
  | shli (d a : Reg) (sh : BitVec 6)
  /-- SHRI (R127). Logical right shift of g[a] by an immediate. -/
  | shri (d a : Reg) (sh : BitVec 6)
  /-- SARI (R127). Arithmetic right shift of g[a] by an immediate. -/
  | sari (d a : Reg) (sh : BitVec 6)
  /-- BFX (R127). Extracts a bit field of g[a], sign-extended. -/
  | bfx (d a : Reg) (lsb wm1 : BitVec 6)
  /-- BFXU (R127). Extracts a bit field of g[a], zero-extended. -/
  | bfxu (d a : Reg) (lsb wm1 : BitVec 6)
  /-- BFI (R127). Inserts the low W bits of g[a] into a field of g[d]. -/
  | bfi (d a : Reg) (lsb wm1 : BitVec 6)
  /-- MOVHI (R128). Sets g[d] to the sign-extended immediate shifted left by 10. -/
  | movhi (d : Reg) (imm : BitVec 17)
  /-- LEA (R128). Sets g[d] to the LEA's address plus a byte displacement. -/
  | lea (d : Reg) (imm : BitVec 17)
  /-- PCMP (R129). Compares two g registers into a predicate. -/
  | pcmp (d : PReg) (a b : Reg) (c : PCond) (q : Pred)
  /-- PCMPI (R129). Compares g[a] with a 4-bit immediate into a predicate. -/
  | pcmpi (d : PReg) (a : Reg) (imm : BitVec 4) (c : PCond) (q : Pred)
  /-- PLOG (R129). Combines two predicates by a logic function. -/
  | plog (d a b : PReg) (f : PLogFn) (q : Pred)
  /-- PMOV_PP (R129). Copies a predicate into a predicate. -/
  | pmovPp (d a : PReg) (q : Pred)
  /-- PMOV_PG (R129). Sets a predicate to whether g[a] is nonzero. -/
  | pmovPg (d : PReg) (a : Reg) (q : Pred)
  /-- PMOV_GP (R129). Writes a predicate zero-extended into g[d]. -/
  | pmovGp (d : Reg) (a : PReg) (q : Pred)
  /-- MUL (R130). Low 64 bits of the product of two g registers. -/
  | mul (d a b : Reg) (q : Pred)
  /-- MULH (R130). High 64 bits of the signed product. -/
  | mulh (d a b : Reg) (q : Pred)
  /-- MULHU (R130). High 64 bits of the unsigned product. -/
  | mulhu (d a b : Reg) (q : Pred)
  /-- DIV (R130). Signed division on the shared divide unit. -/
  | div (d a b : Reg) (q : Pred)
  /-- DIVU (R130). Unsigned division on the shared divide unit. -/
  | divu (d a b : Reg) (q : Pred)
  /-- MOD (R130). Signed remainder on the shared divide unit. -/
  | mod (d a b : Reg) (q : Pred)
  /-- MODU (R130). Unsigned remainder on the shared divide unit. -/
  | modu (d a b : Reg) (q : Pred)
  /-- LDB (R193). Loads a sign-extended byte, split-phase. -/
  | ldb (d base : Reg) (sc : Scope) (o : LOrder) (imm : BitVec 11)
  /-- LDBU (R193). Loads a zero-extended byte, split-phase. -/
  | ldbu (d base : Reg) (sc : Scope) (o : LOrder) (imm : BitVec 11)
  /-- LDH (R193). Loads a sign-extended halfword. -/
  | ldh (d base : Reg) (sc : Scope) (o : LOrder) (imm : BitVec 11)
  /-- LDHU (R193). Loads a zero-extended halfword. -/
  | ldhu (d base : Reg) (sc : Scope) (o : LOrder) (imm : BitVec 11)
  /-- LDW (R193). Loads a sign-extended word. -/
  | ldw (d base : Reg) (sc : Scope) (o : LOrder) (imm : BitVec 11)
  /-- LDWU (R193). Loads a zero-extended word. -/
  | ldwu (d base : Reg) (sc : Scope) (o : LOrder) (imm : BitVec 11)
  /-- LDD (R193). Loads a doubleword. -/
  | ldd (d base : Reg) (sc : Scope) (o : LOrder) (imm : BitVec 11)
  /-- STB (R193). Stores a byte, with optional release. -/
  | stb (src base : Reg) (sc : Scope) (o : SOrder) (imm : BitVec 12)
  /-- STH (R193). Stores a halfword. -/
  | sth (src base : Reg) (sc : Scope) (o : SOrder) (imm : BitVec 12)
  /-- STW (R193). Stores a word. -/
  | stw (src base : Reg) (sc : Scope) (o : SOrder) (imm : BitVec 12)
  /-- STD (R193). Stores a doubleword. -/
  | std (src base : Reg) (sc : Scope) (o : SOrder) (imm : BitVec 12)
  /-- TLD (R170). Reads a word as of a named instant at its home. -/
  | tld (d base : Reg) (sc : Scope) (o : LOrder) (e : EReg) (isAbs : Bool)
  /-- TST (R169). Sends a store to its home to be applied at a named instant. -/
  | tst (src base : Reg) (sc : Scope) (o : SOrder) (e : EReg) (isAbs : Bool)
  /-- AMO_ADD (R206). Atomic add at the home, returning the old value. -/
  | amoAdd (d base : Reg) (sc : Scope) (o : AOrder) (src : Reg) (w32 : Bool)
  /-- AMO_AND (R206). Atomic AND at the home. -/
  | amoAnd (d base : Reg) (sc : Scope) (o : AOrder) (src : Reg) (w32 : Bool)
  /-- AMO_OR (R206). Atomic OR at the home. -/
  | amoOr (d base : Reg) (sc : Scope) (o : AOrder) (src : Reg) (w32 : Bool)
  /-- AMO_XOR (R206). Atomic XOR at the home. -/
  | amoXor (d base : Reg) (sc : Scope) (o : AOrder) (src : Reg) (w32 : Bool)
  /-- AMO_MIN (R206). Atomic signed minimum at the home. -/
  | amoMin (d base : Reg) (sc : Scope) (o : AOrder) (src : Reg) (w32 : Bool)
  /-- AMO_MAX (R206). Atomic signed maximum at the home. -/
  | amoMax (d base : Reg) (sc : Scope) (o : AOrder) (src : Reg) (w32 : Bool)
  /-- AMO_MINU (R206). Atomic unsigned minimum at the home. -/
  | amoMinu (d base : Reg) (sc : Scope) (o : AOrder) (src : Reg) (w32 : Bool)
  /-- AMO_MAXU (R206). Atomic unsigned maximum at the home. -/
  | amoMaxu (d base : Reg) (sc : Scope) (o : AOrder) (src : Reg) (w32 : Bool)
  /-- AMO_SWAP (R206). Atomic swap at the home. -/
  | amoSwap (d base : Reg) (sc : Scope) (o : AOrder) (src : Reg) (w32 : Bool)
  /-- CAS (R206). Atomic compare-and-swap at the home. -/
  | cas (d base : Reg) (sc : Scope) (o : AOrder) (src : Reg) (w32 : Bool)
  /-- ACC_ADD (R210). Accumulating add into the cluster buffer or a port word. -/
  | accAdd (base : Reg) (sc : Scope) (o : SOrder) (src : Reg) (w32 : Bool)
  /-- ACC_MIN (R210). Accumulating signed minimum. -/
  | accMin (base : Reg) (sc : Scope) (o : SOrder) (src : Reg) (w32 : Bool)
  /-- ACC_MAX (R210). Accumulating signed maximum. -/
  | accMax (base : Reg) (sc : Scope) (o : SOrder) (src : Reg) (w32 : Bool)
  /-- ACC_OR (R210). Accumulating OR. -/
  | accOr (base : Reg) (sc : Scope) (o : SOrder) (src : Reg) (w32 : Bool)
  /-- ACC_FADD32 (R210). Accumulating F32 add, rounded to nearest-even. -/
  | accFadd32 (base : Reg) (sc : Scope) (o : SOrder) (src : Reg)
  /-- ACC_LADD32 (R210). Accumulating LI32 add. -/
  | accLadd32 (base : Reg) (sc : Scope) (o : SOrder) (src : Reg)
  /-- XSET (R53). Loads an e register from a sign-extended 15-bit immediate. -/
  | xset (e : EReg) (imm : BitVec 15)
  /-- XSET_SH (R53). Shifts an e register left 15 and appends an immediate. -/
  | xsetSh (e : EReg) (imm : BitVec 15)
  /-- XLD (R54). Loads an e register from memory as an LDD. -/
  | xld (e : EReg) (a : Reg) (imm : BitVec 15)
  /-- XST (R55). Stores an e register to memory as an STD. -/
  | xst (e : EReg) (a : Reg) (imm : BitVec 15)
  /-- XMOV_EG (R56). Copies a g register into an e register. -/
  | xmovEg (e : EReg) (a : Reg)
  /-- XMOV_GE (R56). Copies an e register into a g register. -/
  | xmovGe (d : Reg) (e : EReg)
  /-- BANKMODE (R198). Changes or queries a cluster bank's mode, draining it. -/
  | bankmode (d a b : Reg) (q : Pred)
  /-- LINEWB (R202). Writes back the dirty bytes of a cache line. -/
  | linewb (a : Reg) (q : Pred)
  /-- LINEINV (R202). Writes back and invalidates a cache line. -/
  | lineinv (a : Reg) (q : Pred)
  /-- PIN (R203). Fills and pins a cache line. -/
  | pin (d a : Reg) (q : Pred)
  /-- UNPIN (R202). Clears a cache line's pin bit. -/
  | unpin (a : Reg) (q : Pred)
  /-- BC (R132). Conditional branch on a predicate with two delay slots. -/
  | bc (p : PReg) (neg : Bool) (sl : Slot) (hint : Bool) (disp : BitVec 18)
  /-- B (R133). Unconditional branch. -/
  | b (sl : Slot) (disp : BitVec 22)
  /-- CALL (R133). Unconditional branch writing the link to g15. -/
  | call (sl : Slot) (disp : BitVec 22)
  /-- JMP (R134). Jumps to the address in g[a]. -/
  | jmp (a : Reg) (sl : Slot) (q : Pred)
  /-- CALLI (R134). Jumps to g[a] writing the link to g15. -/
  | calli (a : Reg) (sl : Slot) (q : Pred)
  /-- RET (R134). Jumps to the address in g15. -/
  | ret (sl : Slot) (q : Pred)
  /-- LOOP (R138). Starts a hardware loop level with a count from a register. -/
  | loop (g : Reg) (reneg : Bool) (e : BitVec 11)
  /-- LOOPI (R138). Starts a hardware loop level with an immediate count. -/
  | loopi (cm1 : BitVec 10) (reneg : Bool) (e : BitVec 11)
  /-- LBRK (R140). Leaves the innermost active loop level when the predicate holds. -/
  | lbrk (p : PReg) (neg : Bool) (sl : Slot)
  /-- HINT (R124). HINT.ALIGN holds the context until the masked cores arrive or the bound passes. -/
  | hint (mask : BitVec 16) (w : BitVec 4)
  /-- START (R92). Creates a helper context at a target address. -/
  | start (d : Reg) (imm : BitVec 17)
  /-- JOIN (R93). Waits for a helper to end and reaps it. -/
  | join (d : Reg)
  /-- SLEEP (R95). Makes the context WAITING for a number of core cycles. -/
  | sleep (d : Reg)
  /-- WAITEV (R96). Waits for masked events latched in EVPEND and clears them. -/
  | waitev (d : Reg) (mask : BitVec 6)
  /-- TRAP (R105). Raises a software trap with a code. -/
  | trap (code : BitVec 8)
  /-- MFS (R100). Reads a special register into g[d]. -/
  | mfs (d : Reg) (sr : BitVec 12)
  /-- MTS (R100). Writes g[d] to a special register. -/
  | mts (d : Reg) (sr : BitVec 12)
  /-- CTXSAVE (R115). Writes the 288-byte record of a stopped context to memory. -/
  | ctxsave (d : Reg) (n : BitVec 4)
  /-- CTXLOAD (R115). Loads a context from a 288-byte record, optionally running it. -/
  | ctxload (d : Reg) (run : Bool) (n : BitVec 4)
  /-- CLAIM (R153). Gives back held pool registers and claims a new count. -/
  | claim (d a : Reg) (q : Pred)
  /-- GIVE (R154). Gives back the context's pooled registers. -/
  | give (q : Pred)
  /-- PQUERY (R155). Reads POOLST for a named context. -/
  | pquery (d a : Reg) (q : Pred)
  /-- TNOW (R162). Reads the time base, relative to TBASE or absolute. -/
  | tnow (d : Reg) (isAbs : Bool)
  /-- TWAITU (R162). Waits until the core's time base reaches an instant. -/
  | twaitu (e : EReg) (isAbs : Bool)
  /-- PKO (R376). Opens a packet to a destination word. -/
  | pko (a : Reg) (e : EReg) (w : Bool)
  /-- PKA (R376). Appends flits from the injection queue to the open packet. -/
  | pka (a : Reg) (nm1 : BitVec 3)
  /-- RXPOP (R379). Waits for and removes the oldest received packet, or a fault record with .F. -/
  | rxpop (d : Reg) (f : Bool)
  /-- RXPEEK (R379). Returns the oldest packet header or fault record without removing it. -/
  | rxpeek (d : Reg) (f : Bool)
  /-- RLD (R383). Queues a split-phase remote read into local store or scratch. -/
  | rld (d a : Reg) (e : EReg) (g : Guard) (sz : RSize)
  /-- FETCHTO (R384). Queues a read whose reply goes to one or more recipients. -/
  | fetchto (d a : Reg) (e : EReg) (g : Guard) (sz : RSize)
  /-- DROPWIN (R385). Opens, changes or closes a drop window. -/
  | dropwin (d a : Reg) (e : EReg) (k : Fin 4)
  /-- TWANY (R296). Waits until any masked tag is ready. -/
  | twany (d a : Reg)
  /-- TWALL (R296). Waits until all masked tags are ready. -/
  | twall (d a : Reg)
  /-- TFFR (R296). Returns the first ready masked tag without waiting. -/
  | tffr (d a : Reg)
  /-- TCLR (R296). Clears masked bits of TAGS and TAGERR. -/
  | tclr (a : Reg)
  /-- TLWAIT (R299). Waits until a timeline counter reaches n and acquires. -/
  | tlwait (a : Reg) (c : TLCounter)
  /-- TLREAD (R299). Reads a timeline counter's CNT or ISSUED. -/
  | tlread (d : Reg) (iss : Bool) (c : TLCounter)
  /-- GSET (R144). Resolves a guard slot from a predicate. -/
  | gset (a : PReg) (g : BitVec 3) (neg : Bool)
  /-- GCLR (R145). Frees a guard slot with no pending commands. -/
  | gclr (d : Reg) (g : BitVec 3)
  /-- MLDA (R267). Offers a job that loads an A operand register from scratch. -/
  | mlda (d a : Reg) (e : EReg) (g : Guard) (k : Bool)
  /-- MLDB (R267). Offers a job that loads a B operand register from scratch. -/
  | mldb (d a : Reg) (e : EReg) (g : Guard) (k : Bool)
  /-- MMAC (R268). Offers a job that accumulates A×B into a tile. -/
  | mmac (d : Reg) (t : Tile) (x : Option EReg) (kb ka : Bool) (g : Guard)
  /-- MMUL (R268). Offers a job that resets a tile and accumulates A×B. -/
  | mmul (d : Reg) (t : Tile) (x : Option EReg) (kb ka : Bool) (g : Guard)
  /-- MMR (R270). Offers a collective accumulate-and-rotate job on the group torus. -/
  | mmr (d : Reg) (t : Tile) (x : Option EReg) (kb ka : Bool) (g : Guard)
  /-- MZERO (R268). Offers a job that zeroes a tile. -/
  | mzero (d : Reg) (t : Tile) (x : Option EReg) (g : Guard)
  /-- MCFG_OWN (R271). Offers a job taking ownership of engine resources. -/
  | mcfgOwn (d a : Reg) (g : Guard)
  /-- MCFG_FREE (R271). Offers a job freeing owned engine resources. -/
  | mcfgFree (d a : Reg) (g : Guard)
  /-- MCFG_QUERY (R271). Offers a job reporting owned engine resources. -/
  | mcfgQuery (d : Reg) (g : Guard)
  /-- MRDA (R272). Offers a job reading an accumulator row into v registers. -/
  | mrda (d : Reg) (t : Tile) (e : EReg) (g : Guard) (raw : Bool)
  /-- MSCL (R273). Offers a job scaling a tile by received scale blocks. -/
  | mscl (d : Reg) (t : Tile) (x : Option EReg) (m : SclMode) (g : Guard)
  /-- MJPOLL (R274). Reads a job's status word. -/
  | mjpoll (d a : Reg)
  /-- MJWAIT (R274). Waits until a job has finished or expired. -/
  | mjwait (a : Reg)
  /-- VCLAIM (R237). Releases the lane grant and claims 4, 8 or 16 lanes. -/
  | vclaim (d a : Reg) (q : Pred)
  /-- VREL (R238). Releases the context's lane grant. -/
  | vrel (q : Pred)
  /-- VLEN (R239). Sets VL to min(count, GRANT). -/
  | vlen (d a : Reg) (q : Pred)
  /-- VADD (R242). Element-wise integer add, wrapping or saturating. -/
  | vadd (d a b : VRegN) (m : SatMode) (q : Pred)
  /-- VSUB (R242). Element-wise integer subtract. -/
  | vsub (d a b : VRegN) (m : SatMode) (q : Pred)
  /-- VMUL (R242). Element-wise integer multiply, low or high half. -/
  | vmul (d a b : VRegN) (m : MulMode) (q : Pred)
  /-- VMIN (R242). Element-wise integer minimum. -/
  | vmin (d a b : VRegN) (u : Bool) (q : Pred)
  /-- VMAX (R242). Element-wise integer maximum. -/
  | vmax (d a b : VRegN) (u : Bool) (q : Pred)
  /-- VAND (R242). Element-wise AND. -/
  | vand (d a b : VRegN) (q : Pred)
  /-- VOR (R242). Element-wise OR. -/
  | vor (d a b : VRegN) (q : Pred)
  /-- VXOR (R242). Element-wise XOR. -/
  | vxor (d a b : VRegN) (q : Pred)
  /-- VSHL (R242). Element-wise left shift. -/
  | vshl (d a b : VRegN) (q : Pred)
  /-- VSHR (R242). Element-wise arithmetic or logical right shift. -/
  | vshr (d a b : VRegN) (u : Bool) (q : Pred)
  /-- VFADD (R243). Element-wise float add. -/
  | vfadd (d a b : VRegN) (f : FFmt) (r : Rnd) (q : Pred)
  /-- VFSUB (R243). Element-wise float subtract. -/
  | vfsub (d a b : VRegN) (f : FFmt) (r : Rnd) (q : Pred)
  /-- VFMUL (R243). Element-wise float multiply. -/
  | vfmul (d a b : VRegN) (f : FFmt) (r : Rnd) (q : Pred)
  /-- VFMA (R243). Element-wise fused multiply-add into v[d]. -/
  | vfma (d a b : VRegN) (f : FFmt) (r : Rnd) (q : Pred)
  /-- VFMAX (R243). Element-wise float maximum. -/
  | vfmax (d a b : VRegN) (f : FFmt) (q : Pred)
  /-- VFMIN (R243). Element-wise float minimum. -/
  | vfmin (d a b : VRegN) (f : FFmt) (q : Pred)
  /-- VFABS (R243). Element-wise absolute value. -/
  | vfabs (d a : VRegN) (f : FFmt) (q : Pred)
  /-- VFNEG (R243). Element-wise negation. -/
  | vfneg (d a : VRegN) (f : FFmt) (q : Pred)
  /-- VEXP (R244). Element-wise e^x of F32 elements. -/
  | vexp (d a : VRegN) (q : Pred)
  /-- VLOG (R244). Element-wise natural log. -/
  | vlog (d a : VRegN) (q : Pred)
  /-- VRCP (R244). Element-wise reciprocal. -/
  | vrcp (d a : VRegN) (q : Pred)
  /-- VRSQ (R244). Element-wise reciprocal square root. -/
  | vrsq (d a : VRegN) (q : Pred)
  /-- VSIG (R244). Element-wise sigmoid. -/
  | vsig (d a : VRegN) (q : Pred)
  /-- VTANH (R244). Element-wise tanh. -/
  | vtanh (d a : VRegN) (q : Pred)
  /-- VLD (R249). Loads VL contiguous 4-byte elements. -/
  | vld (d : VRegN) (base : Reg) (sc : Scope) (o : LOrder) (imm : BitVec 9)
  /-- VST (R249). Stores VL contiguous 4-byte elements. -/
  | vst (src : VRegN) (base : Reg) (sc : Scope) (o : SOrder) (imm : BitVec 9)
  /-- VLDS (R249). Loads VL elements at a register stride. -/
  | vlds (d : VRegN) (base : Reg) (sc : Scope) (o : LOrder) (gs : Reg)
  /-- VSTS (R249). Stores VL elements at a register stride. -/
  | vsts (src : VRegN) (base : Reg) (sc : Scope) (o : SOrder) (gs : Reg)
  /-- VGATH (R249). Gathers VL elements by an index vector. -/
  | vgath (d : VRegN) (base : Reg) (sc : Scope) (o : LOrder) (x : VRegN)
  /-- VSCAT (R249). Scatters VL elements by an index vector. -/
  | vscat (src : VRegN) (base : Reg) (sc : Scope) (o : SOrder) (x : VRegN)
  /-- VCMP (R246). Element-wise compare producing all-ones masks. -/
  | vcmp (d a b : VRegN) (c : VCond) (q : Pred)
  /-- VSEL (R246). Selects elements of v[a] or v[b] by v[d]. -/
  | vsel (d a b : VRegN) (q : Pred)
  /-- VPERM (R246). Permutes elements of v[a] by indices in v[b]. -/
  | vperm (d a b : VRegN) (q : Pred)
  /-- VBCAST (R246). Broadcasts g[a][31:0] to every element. -/
  | vbcast (d : VRegN) (a : Reg) (q : Pred)
  /-- VBCAST_E (R246). Broadcasts element k of v[a]. -/
  | vbcastE (d a : VRegN) (k : Fin 16) (q : Pred)
  /-- VSLIDE_UP (R246). Slides elements up by g[b]. -/
  | vslideUp (d a : VRegN) (b : Reg) (q : Pred)
  /-- VSLIDE_DN (R246). Slides elements down by g[b]. -/
  | vslideDn (d a : VRegN) (b : Reg) (q : Pred)
  /-- VRSUM (R247). Pairwise-tree sum of elements below VL. -/
  | vrsum (d a : VRegN) (k : RedKind) (q : Pred)
  /-- VRMAX (R247). Pairwise-tree maximum of elements below VL. -/
  | vrmax (d a : VRegN) (i32 : Bool) (q : Pred)
  /-- VCVT (R245). Element-wise format conversion, including packed 8-bit. -/
  | vcvt (d a : VRegN) (r : Rnd) (c : VCvt) (q : Pred)
  /-- VLADD (R227). Element-wise level-index add. -/
  | vladd (d a b : VRegN) (f : LFmt) (q : Pred)
  /-- VLMUL (R227). Element-wise level-index multiply. -/
  | vlmul (d a b : VRegN) (f : LFmt) (q : Pred)
  /-- VLCVT (R227). Element-wise level-index conversion. -/
  | vlcvt (d a : VRegN) (c : LCvt) (q : Pred)
  /-- FADD (R82). Scalar float add. -/
  | fadd (d a b : Reg) (f : FFmt) (r : Rnd) (q : Pred)
  /-- FSUB (R82). Scalar float subtract. -/
  | fsub (d a b : Reg) (f : FFmt) (r : Rnd) (q : Pred)
  /-- FMUL (R82). Scalar float multiply. -/
  | fmul (d a b : Reg) (f : FFmt) (r : Rnd) (q : Pred)
  /-- FFMA (R82). Scalar fused multiply-add. -/
  | ffma (d a b : Reg) (f : FFmt) (r : Rnd) (q : Pred)
  /-- FDIV (R82). Scalar float divide on the shared divide unit. -/
  | fdiv (d a b : Reg) (f : FFmt) (r : Rnd) (q : Pred)
  /-- FSQRT (R82). Scalar float square root on the shared divide unit. -/
  | fsqrt (d a : Reg) (f : FFmt) (r : Rnd) (q : Pred)
  /-- FMIN (R83). Scalar float minimum. -/
  | fmin (d a b : Reg) (f : FFmt) (q : Pred)
  /-- FMAX (R83). Scalar float maximum. -/
  | fmax (d a b : Reg) (f : FFmt) (q : Pred)
  /-- FCMP (R84). Scalar float compare into a predicate. -/
  | fcmp (d : PReg) (a b : Reg) (f : FFmt) (c : FCond) (q : Pred)
  /-- FCVT (R85). Scalar float or integer format conversion. -/
  | fcvt (d a : Reg) (r : Rnd) (c : FCvt) (q : Pred)
  /-- FCLASS (R86). Writes a one-hot class mask of a float. -/
  | fclass (d a : Reg) (f : FFmt) (q : Pred)
  /-- LADD (R220). Scalar level-index add on the recurrence unit. -/
  | ladd (d a b : Reg) (f : LFmt) (q : Pred)
  /-- LSUB (R220). Scalar level-index subtract. -/
  | lsub (d a b : Reg) (f : LFmt) (q : Pred)
  /-- LMUL (R220). Scalar level-index multiply. -/
  | lmul (d a b : Reg) (f : LFmt) (q : Pred)
  /-- LDIV (R220). Scalar level-index divide. -/
  | ldiv (d a b : Reg) (f : LFmt) (q : Pred)
  /-- LCMP (R221). Level-index compare into a predicate. -/
  | lcmp (d : PReg) (a b : Reg) (f : LFmt) (c : FCond) (q : Pred)
  /-- LCVT (R223). Converts between level-index and float formats. -/
  | lcvt (d a : Reg) (r : Rnd) (c : LCvt) (q : Pred)
  /-- LCLASS (R224). Writes the class word of a level-index code. -/
  | lclass (d a : Reg) (f : LFmt) (q : Pred)
  /-- LAUNCH (R320). Releases at .SYS and submits a launch record to the sector intake. -/
  | launch (d a : Reg) (q : Pred)
  /-- SPAWN (R320). Enters one task of the spawner's launch from a descriptor. -/
  | spawn (d a : Reg) (q : Pred)
  /-- TEDGE (R321). Adds a dependence edge between two tasks of the sector. -/
  | tedge (a b : Reg) (q : Pred)
  /-- TINFO (R322). Reads an item describing the executing task. -/
  | tinfo (d : Reg) (item : BitVec 4) (q : Pred)
  /-- BOOST (R410). Requests a boost lease from a free cluster slot. -/
  | boost (d a : Reg) (q : Pred)
  /-- BREL (R410). Releases the task's boost lease. -/
  | brel (q : Pred)
  /-- ADD_S (R48). 16-bit ADD d, d, s. -/
  | addS (d s : Reg)
  /-- SUB_S (R48). 16-bit SUB d, d, s. -/
  | subS (d s : Reg)
  /-- AND_S (R48). 16-bit AND d, d, s. -/
  | andS (d s : Reg)
  /-- OR_S (R48). 16-bit OR d, d, s. -/
  | orS (d s : Reg)
  /-- XOR_S (R48). 16-bit XOR d, d, s. -/
  | xorS (d s : Reg)
  /-- ANDN_S (R48). 16-bit ANDN d, d, s. -/
  | andnS (d s : Reg)
  /-- SHL_S (R48). 16-bit SHL d, d, s. -/
  | shlS (d s : Reg)
  /-- SHR_S (R48). 16-bit SHR d, d, s. -/
  | shrS (d s : Reg)
  /-- SAR_S (R48). 16-bit SAR d, d, s. -/
  | sarS (d s : Reg)
  /-- MIN_S (R48). 16-bit MIN d, d, s. -/
  | minS (d s : Reg)
  /-- MAX_S (R48). 16-bit MAX d, d, s. -/
  | maxS (d s : Reg)
  /-- MUL_S (R48). 16-bit MUL d, d, s. -/
  | mulS (d s : Reg)
  /-- MINU_S (R48). 16-bit MINU d, d, s. -/
  | minuS (d s : Reg)
  /-- MAXU_S (R48). 16-bit MAXU d, d, s. -/
  | maxuS (d s : Reg)
  /-- CLZ_S (R48). 16-bit CLZ d, s. -/
  | clzS (d s : Reg)
  /-- CTZ_S (R48). 16-bit CTZ d, s. -/
  | ctzS (d s : Reg)
  /-- POPC_S (R48). 16-bit POPC d, s. -/
  | popcS (d s : Reg)
  /-- JMP_S (R48). 16-bit JMP s. -/
  | jmpS (s : Reg)
  /-- CALLI_S (R48). 16-bit CALLI s. -/
  | calliS (s : Reg)
  /-- LDW_S (R48). 16-bit LDW d, [s+4k]. -/
  | ldwS (d s : Reg) (k : BitVec 2)
  /-- LDWU_S (R48). 16-bit LDWU d, [s+4k]. -/
  | ldwuS (d s : Reg) (k : BitVec 2)
  /-- LDD_S (R48). 16-bit LDD d, [s+8k]. -/
  | lddS (d s : Reg) (k : BitVec 2)
  /-- STW_S (R48). 16-bit STW [s+4k], d. -/
  | stwS (d s : Reg) (k : BitVec 2)
  /-- STD_S (R48). 16-bit STD [s+8k], d. -/
  | stdS (d s : Reg) (k : BitVec 2)
  /-- TNOW_S (R48). 16-bit TNOW d, relative. -/
  | tnowS (d : Reg)
  /-- MJWAIT_S (R48). 16-bit MJWAIT s. -/
  | mjwaitS (s : Reg)
  /-- JOIN_S (R48). 16-bit JOIN s. -/
  | joinS (s : Reg)
  /-- XMOV_S (R48). 16-bit XMOV e, g. -/
  | xmovS (e : EReg) (s : Reg)
  /-- TLWAIT_S (R48). 16-bit TLWAIT c, s. -/
  | tlwaitS (s : Reg) (c : TLCounter)
  /-- ADDI_S (R48). 16-bit ADDI d, d, imm6. -/
  | addiS (d : Reg) (imm : BitVec 6)
  /-- ANDI_S (R48). 16-bit ANDI d, d, imm6. -/
  | andiS (d : Reg) (imm : BitVec 6)
  /-- ORI_S (R48). 16-bit ORI d, d, imm6. -/
  | oriS (d : Reg) (imm : BitVec 6)
  /-- XORI_S (R48). 16-bit XORI d, d, imm6. -/
  | xoriS (d : Reg) (imm : BitVec 6)
  /-- SHLI_S (R48). 16-bit SHLI d, d, imm6. -/
  | shliS (d : Reg) (imm : BitVec 6)
  /-- SHRI_S (R48). 16-bit SHRI d, d, imm6. -/
  | shriS (d : Reg) (imm : BitVec 6)
  /-- SARI_S (R48). 16-bit SARI d, d, imm6. -/
  | sariS (d : Reg) (imm : BitVec 6)
  /-- B_S (R48). 16-bit B with a 10-bit displacement. -/
  | bS (disp : BitVec 10)
  /-- CALL_S (R48). 16-bit CALL with a 10-bit displacement. -/
  | callS (disp : BitVec 10)
  /-- AFLUSH (R212). Merges every buffer entry naming the core and waits until applied. -/
  | aflush
  /-- NOP (R124). Has no effect. -/
  | nop
  /-- EXIT (R94). Ends the executing context, retiring the task in context 0. -/
  | exit
  /-- YIELD (R95). Makes the context ineligible until each other READY context issues. -/
  | yield
  /-- RETT (R105). Restores the fetch triple from XPC0 to XPC2 and the previous mode. -/
  | rett
  /-- HALT (R116). Stops management-core fetch until an enabled interrupt is pending. -/
  | halt
  /-- PKS (R376). Moves the open packet to the send buffer. -/
  | pks
  /-- RET_S (R48). 16-bit RET. -/
  | retS
  /-- NOP_S (R48). 16-bit NOP. -/
  | nopS
  /-- EXIT_S (R48). 16-bit EXIT. -/
  | exitS
  /-- YIELD_S (R48). 16-bit YIELD. -/
  | yieldS
  /-- GIVE_S (R48). 16-bit GIVE. -/
  | giveS
  /-- VREL_S (R48). 16-bit VREL. -/
  | vrelS
  /-- FUSED_SOFTMAX (R251). Four matching vector instructions issue and retire as one fused operation. -/
  | fusedSoftmax
  /-- INTERRUPT_TAKE (R104). An enabled pending interrupt is taken at a user-mode boundary of a context. -/
  | interruptTake
  /-- MGMT_INTERRUPT_TAKE (R416). The management core enters machine mode on an enabled pending interrupt. -/
  | mgmtInterruptTake
  /-- ALARM_REACHED (R104). The time base reaches ALARM and IPEND.ALARM is set. -/
  | alarmReached
  /-- CONTEXT_STOP (R109). A pre-emption stop is taken at a context's boundary and its registers saved. -/
  | contextStop
  /-- DISPLACEMENT (R112). The task engine takes a core, spilling the task to its spill page. -/
  | displacement
  /-- RESUME (R114). A displaced task is restored on a core of its group. -/
  | resume
  /-- THERMAL_MIGRATION (R118). A task on a core past its thermal limit moves to an idle core of its group. -/
  | thermalMigration
  /-- SLEEP_EXPIRE (R95). A SLEEP count elapses and the context becomes READY. -/
  | sleepExpire
  /-- JOIN_COMPLETE (R93). A waited-for helper ends and JOIN reaps it. -/
  | joinComplete
  /-- WAITEV_WAKE (R96). A masked EVPEND bit becomes set and WAITEV retires. -/
  | waitevWake
  /-- TWAITU_WAKE (R162). The core's time base reaches the TWAITU instant. -/
  | twaituWake
  /-- TLWAIT_WAKE (R299). A timeline counter reaches n and TLWAIT retires with acquire. -/
  | tlwaitWake
  /-- MJWAIT_WAKE (R274). The waited job finishes and MJWAIT retires. -/
  | mjwaitWake
  /-- TWANY_WAKE (R296). A masked tag becomes ready and TWANY retires. -/
  | twanyWake
  /-- TWALL_WAKE (R296). All masked tags become ready and TWALL retires. -/
  | twallWake
  /-- FIFO_WAIT_COMPLETE (R201). A waiting FIFO push or pull finds room or entries and retires. -/
  | fifoWaitComplete
  /-- HINT_ALIGN_RELEASE (R124). A HINT.ALIGN hold ends when the masked cores arrive or the bound passes. -/
  | hintAlignRelease
  /-- POOL_GRANT (R150). The register pool grants the claim at the head of its queue. -/
  | poolGrant
  /-- LANE_GRANT (R230). The octet grants lanes to the claim at the head of its queue. -/
  | laneGrant
  /-- AFLUSH_COMPLETE (R212). Every merge AFLUSH started is applied and AFLUSH retires. -/
  | aflushComplete
  /-- BANK_DRAIN_COMPLETE (R199). A bank's drain ends and its new mode takes effect. -/
  | bankDrainComplete
  /-- LOAD_REPLY_LAND (R193). A split-phase load or atomic reply lands in its destination register. -/
  | loadReplyLand
  /-- TLD_SERVE (R167). A home serves a timed read as of its instant, waiting for the tick to close. -/
  | tldServe
  /-- TIMED_STORE_ARRIVE (R164). A timed store reaches its home and is queued, applied late, dropped or refused. -/
  | timedStoreArrive
  /-- TIMED_STORE_ACK (R174). A timed store's acknowledgement reaches its context and updates TSTAT. -/
  | timedStoreAck
  /-- STORE_RETRY (R176). A refused write is offered again every 32 router cycles. -/
  | storeRetry
  /-- PLAIN_STORE_ARRIVE (R165). A plain store reaches its home and is applied on arrival. -/
  | plainStoreArrive
  /-- WRITEBACK_ARRIVE (R194). Dirty bytes written back reach their home and are applied. -/
  | writebackArrive
  /-- ATOMIC_AT_HOME (R206). A returning atomic is performed indivisibly at its home. -/
  | atomicAtHome
  /-- MERGE_ARRIVE (R211). An accumulation merge is combined into the home word. -/
  | mergeArrive
  /-- HOME_TICK_APPLY (R165). At tick h a home applies the named stores for h in LCN order. -/
  | homeTickApply
  /-- SHADOW_ENTRY_DISCARD (R166). A shadow entry 256 ticks old is discarded. -/
  | shadowEntryDiscard
  /-- TICK (R159). The time base advances by one tick. -/
  | tick
  /-- MATRIX_JOB_START (R261). The engine starts the next ready job round-robin by core. -/
  | matrixJobStart
  /-- MATRIX_JOB_FINISH (R263). A job finishes, sets status, TLM, EVPEND.JOB and its tag. -/
  | matrixJobFinish
  /-- COPY_START (R279). A store to START captures a template and takes TLC numbers. -/
  | copyStart
  /-- COPY_RESUME (R292). A supervisor START store with RESUME continues a frozen copy. -/
  | copyResume
  /-- COPY_ABORT (R292). A supervisor START store with ABORT ends a frozen copy. -/
  | copyAbort
  /-- COPY_QUEUE_HEAD (R282). A start reaches its channel's head, is checked and runs or ends BADTPL. -/
  | copyQueueHead
  /-- COPY_ITERATION_RELEASE (R285). A looping copy's release word permits the next iteration. -/
  | copyIterationRelease
  /-- COPY_DELIVERED (R288). A copy's last write is accepted and its tag is set. -/
  | copyDelivered
  /-- COPY_COMPLETE (R288). Every write of a copy is performed and its TLC number completes. -/
  | copyComplete
  /-- COPY_FREEZE (R291). A copy access faults and the channel freezes. -/
  | copyFreeze
  /-- FORWARDED_TAG (R286). A forwarded tag-setting completion reaches the recipient core. -/
  | forwardedTag
  /-- HELD_ACCESS_RELEASE (R290). An access held by the watermark is performed once WMARK passes it. -/
  | heldAccessRelease
  /-- FIFO_PUSH (R201). A store to a FIFO bank's push window pushes entries. -/
  | fifoPush
  /-- FIFO_PULL (R201). A load from a FIFO bank's pull window pulls entries. -/
  | fifoPull
  /-- VECTOR_MEMORY_COMPLETE (R298). Every element of a vector access is performed and its TLV number completes. -/
  | vectorMemoryComplete
  /-- PACKET_SEND (R376). A packet leaves the core's send buffer onto the fabric. -/
  | packetSend
  /-- PACKET_ARRIVE (R378). A packet is delivered to a receive queue or drop window, or discarded. -/
  | packetArrive
  /-- PACKET_RETRY (R374). A refused packet is offered again every 32 router cycles. -/
  | packetRetry
  /-- RLD_REPLY (R383). An RLD's source is read and written to its destination with its tag. -/
  | rldReply
  /-- FETCHTO_SOURCE_READ (R384). The owner's home reads a FETCHTO source and sends it to each recipient. -/
  | fetchtoSourceRead
  /-- FETCHTO_REPLY_ARRIVE (R384). A FETCHTO reply is checked against drop windows and written at a recipient. -/
  | fetchtoReplyArrive
  /-- FETCHTO_ACK (R384). All recipients have answered; ATAG set and the TLF number completes. -/
  | fetchtoAck
  /-- LAUNCH_ACCEPT (R304). A launch is accepted from the intake, fixing TBASE and reading the shape word. -/
  | launchAccept
  /-- TASK_ENTER_TABLE (R315). A task enters a dependence table and is compared with tasks in flight. -/
  | taskEnterTable
  /-- RENAME_COMMIT (R316). A renamed page's new frame is committed to the page table. -/
  | renameCommit
  /-- CORE_CHOICE (R312). The engine reserves a free core for a queue head and starts its footprint fetch. -/
  | coreChoice
  /-- FOOTPRINT_LANDED (R183). A footprint fetch lands, or returns STALE and is re-released. -/
  | footprintLanded
  /-- TASK_DISPATCH (R311). The ready head of highest effective priority is dispatched to its core. -/
  | taskDispatch
  /-- TASK_RETIRE_COMPLETE (R318). A retired task's write-backs and release complete and its slot is freed. -/
  | taskRetireComplete
  /-- TASK_FAILURE_COMPLETE (R106). A failed task's stores and release complete and it counts as retired. -/
  | taskFailureComplete
  /-- LAUNCH_RESOLVE (R325). The shape report arrives and the speculative launch resolves with its true count. -/
  | launchResolve
  /-- DEADLINE_PASS (R328). The resolve deadline tick closes before resolution. -/
  | deadlinePass
  /-- SHAPE_EXPIRE (R329). A launch unresolved 65,536 ticks past its deadline fails with NOSHAPE. -/
  | shapeExpire
  /-- CONTROL_INTERVAL_END (R405). At each 10 µs boundary estimates are taken and caps and points set. -/
  | controlIntervalEnd
  /-- BRAKE_STEP_END (R407). At each 1 µs step the projected draw may raise the brake level. -/
  | brakeStepEnd
  /-- LINK_TRAINING_COMPLETE (R390). Link training ends, roles are set and the link enters RUN. -/
  | linkTrainingComplete
  /-- LINK_FRAME_SEND (R391). A link sends one encrypted frame, holding when its counter is exhausted. -/
  | linkFrameSend
  /-- LINK_FRAME_RECEIVE (R391). A received frame's IV and tag are checked and it is accepted or discarded. -/
  | linkFrameReceive
  /-- LINK_ACK_RECEIVE (R392). The far end acknowledges packets, which the spine then drops. -/
  | linkAckReceive
  /-- LINK_HOLD_TIMEOUT (R390). A link in HOLD for 1 ms without a key enters DOWN. -/
  | linkHoldTimeout
  /-- KEYGO (R390). A write to KEYGO installs the link key and restarts the counters. -/
  | keygo
  /-- TLBINV (R397). A write invalidates a tenant's entries in every cluster TLB. -/
  | tlbinv
  /-- PLIM_WRITE (R407). A write sets PLIM, raised to 1,040 W at least. -/
  | plimWrite
  /-- EVQ_POP (R421). A load of EVQ removes and returns the oldest event word. -/
  | evqPop
  /-- ROLLBACK_WRITE (R428). A write burns rollback fuses up to a permitted value. -/
  | rollbackWrite
  /-- PEERNO_WRITE (R370). A write sets the device's own peer number when no task is in flight. -/
  | peernoWrite
  /-- LCSTATE_WRITE (R431). A write moves the life-cycle state forward for the next start. -/
  | lcstateWrite
  /-- FCMD_READ (R427). Flash command 1 reads 64 bytes into FDATA. -/
  | fcmdRead
  /-- FCMD_PROGRAM (R427). Flash command 2 programs FDATA at FADDR. -/
  | fcmdProgram
  /-- FCMD_ERASE (R427). Flash command 3 erases a 64 KiB sector. -/
  | fcmdErase
  /-- FLASH_COMMAND_COMPLETE (R427). A flash command ends and BUSY clears. -/
  | flashCommandComplete
  /-- FORMAT_REGION_ENABLE (R399). A write of EN := 1 enables a format region and reads its codebook, or is refused. -/
  | formatRegionEnable
  /-- HUSKCLR (R175). A write resets a slice's Husk log NEXT and TOTAL. -/
  | huskclr
  /-- THROTTLE_WRITE (R408). A write sets a cluster's issue-cycle allowance from the next frame. -/
  | throttleWrite
  /-- ALERTQ_POP (R415). An MFS of ALERTQ removes and returns the oldest alert. -/
  | alertqPop
  /-- DOORBELL (R417). A host write sets MIPEND.HOST. -/
  | doorbell
  /-- RELOAD (R426). A host write in RECOVERY names an image and verification runs again. -/
  | reload
  /-- HEVQ_POP (R421). A host load of HEVQ removes and returns the oldest event word. -/
  | hevqPop
  /-- LPORT_SUBMIT (R418). A host write to a launch port submits a record of the bound tenant. -/
  | lportSubmit
  /-- AGO (R429). A host write starts forming a signed attestation report. -/
  | ago
  /-- REPORT_COMPLETE (R429). The security engine finishes REPORT and sets ASTAT ready. -/
  | reportComplete
  /-- HMEM_ACCESS (R420). A host access through HMEM reaches device physical memory untranslated. -/
  | hmemAccess
  /-- REGISTER_WRITE (R413). A write to a window register with no behaviour of its own stores the value. -/
  | registerWrite
  /-- COLD_START (R422). Power-on runs the full start sequence. -/
  | coldStart
  /-- WARM_START (R422). A reset requested through the spine runs the warm start sequence. -/
  | warmStart
  /-- BACKGROUND_WIPE_GRANULE (R424). The background wipe zeroes an unwiped HBM granule. -/
  | backgroundWipeGranule
  /-- DIVIDE_UNIT_COMPLETE (R88). The shared divide and square-root unit finishes an FDIV, FSQRT, DIV, DIVU, MOD or MODU, writes the result and frees the unit for the next waiting context. -/
  | divideUnitComplete
  /-- RECURRENCE_UNIT_COMPLETE (R218). The scalar recurrence unit finishes a level-index operation after its level-dependent latency, writes the result and starts the next waiting context's operation. -/
  | recurrenceUnitComplete
  /-- MIGRATION_SWITCH (R118). The move of a migrating task's state over the cluster network ends, the LCN table entry is switched and held packets and replies are delivered to the new core. -/
  | migrationSwitch
  /-- LINK_RETRAIN (R390). The management core retrains an up-link in DOWN, putting it back into TRAIN. -/
  | linkRetrain
  deriving DecidableEq, Repr

end Sys2Proof
end

