-- ==== Sys2Proof/WellFormed.lean ====
section
/-! DEFINITION. Which terms of `Instr` are instructions: the operand restrictions that the operand types do not
already carry. An encoding that breaks one of them is illegal (02_instruction_words R46). -/

namespace Sys2Proof

/-- R42: gp is zero whenever g is zero. -/
def Guard.wf (g : Guard) : Bool := g.g != 0 || !g.gp

/-- R127: L + W at most 64. -/
def fieldFits (lsb wm1 : BitVec 6) : Bool := decide (lsb.toNat + wm1.toNat + 1 ≤ 64)

/-- R138: E is at least 3, so that the body holds an instruction. -/
def loopEndFits (e : BitVec 11) : Bool := decide (3 ≤ e.toNat)

/-- R222: whether the destination of a conversion is level-index, in which case b is zero. -/
def LCvt.toLevel : LCvt → Bool
  | .li16F32 | .li16F16 | .li16Bf16 | .li32F32 | .li32F16 | .li32Bf16 => true
  | .f32Li16 | .f16Li16 | .bf16Li16 | .f32Li32 | .f16Li32 | .bf16Li32 => false

/-- Units of the device (R4, R8, R389, R398). -/
def numOctets : Nat := 32768
def numClusters : Nat := 16384
def numSectors : Nat := 128
def numSlices : Nat := 512
def numRegions : Nat := 512
def numLinks : Nat := 36

/-- The restrictions of R46 that an operand's type does not carry. -/
def Instr.wf : Instr → Bool
  | .bfx _ _ l w | .bfxu _ _ l w | .bfi _ _ l w => fieldFits l w
  | .loop _ _ e | .loopi _ _ e => loopEndFits e
  | .waitev _ m => m != 0
  | .gset _ g _ | .gclr _ g => g != 0
  | .rld _ _ _ g _ | .fetchto _ _ _ g _ | .mlda _ _ _ g _ | .mldb _ _ _ g _ => g.wf
  | .mmac _ _ _ _ _ g | .mmul _ _ _ _ _ g | .mmr _ _ _ _ _ g | .mzero _ _ _ g => g.wf
  | .mcfgOwn _ _ g | .mcfgFree _ _ g | .mcfgQuery _ g | .mrda _ _ _ g _ | .mscl _ _ _ _ g => g.wf
  | .pko a _ w => w || a == 0
  | .tinfo _ i _ => i != 15
  | .lcvt _ _ r c _ => !c.toLevel || r == .none
  | _ => true

/-- A term that is an instruction. -/
abbrev Instr.WellFormed (i : Instr) : Prop := i.wf = true

end Sys2Proof
end

