-- ==== Sys2Proof/Decode.lean ====
section
/-! DEFINITION. Decoding and encoding of Rinvik instructions, after 02_instruction_words R33 to R48 and the encoding
tables of the chapters. Decoding is total: an encoding that R46 calls illegal gives `none`. -/

namespace Sys2Proof

/-! ### Fields of the 32-bit formats (R37, R40 to R42) -/

def fOp (w : InstrWord) : BitVec 6 := w.extractLsb' 25 6
def fD (w : InstrWord) : BitVec 4 := w.extractLsb' 21 4
def fA (w : InstrWord) : BitVec 4 := w.extractLsb' 17 4
def fB (w : InstrWord) : BitVec 4 := w.extractLsb' 13 4
def fFn (w : InstrWord) : BitVec 8 := w.extractLsb' 5 8
def fQ (w : InstrWord) : BitVec 5 := w.extractLsb' 0 5
def fI17 (w : InstrWord) : BitVec 17 := w.extractLsb' 0 17
def fI10 (w : InstrWord) : BitVec 10 := w.extractLsb' 7 10
def fSel (w : InstrWord) : BitVec 2 := w.extractLsb' 5 2
def fScope (w : InstrWord) : BitVec 3 := w.extractLsb' 14 3
def fOrder (w : InstrWord) : BitVec 2 := w.extractLsb' 12 2
def fI12 (w : InstrWord) : BitVec 12 := w.extractLsb' 0 12
def fE (w : InstrWord) : BitVec 3 := w.extractLsb' 14 3
def fG (w : InstrWord) : BitVec 3 := w.extractLsb' 11 3
def fFnE (w : InstrWord) : BitVec 8 := w.extractLsb' 3 8
def fGp (w : InstrWord) : BitVec 1 := w.extractLsb' 2 1
def fZ (w : InstrWord) : BitVec 2 := w.extractLsb' 0 2
def fBP (w : InstrWord) : BitVec 3 := w.extractLsb' 22 3
def fBNeg (w : InstrWord) : BitVec 1 := w.extractLsb' 21 1
def fBForm (w : InstrWord) : BitVec 3 := w.extractLsb' 18 3
def fDisp18 (w : InstrWord) : BitVec 18 := w.extractLsb' 0 18
def fJForm (w : InstrWord) : BitVec 3 := w.extractLsb' 22 3
def fDisp22 (w : InstrWord) : BitVec 22 := w.extractLsb' 0 22

/-! ### The 32-bit formats put together (R37) -/

def wA (op : BitVec 6) (d a b : BitVec 4) (fn : BitVec 8) (q : BitVec 5) : InstrWord := 1#1 ++ op ++ d ++ a ++ b ++ fn ++ q
def wI (op : BitVec 6) (d a : BitVec 4) (imm : BitVec 17) : InstrWord := 1#1 ++ op ++ d ++ a ++ imm
def wIQ (op : BitVec 6) (d a : BitVec 4) (imm : BitVec 10) (sel : BitVec 2) (q : BitVec 5) : InstrWord :=
  1#1 ++ op ++ d ++ a ++ imm ++ sel ++ q
def wM (op : BitVec 6) (d base : BitVec 4) (sc : BitVec 3) (o : BitVec 2) (imm : BitVec 12) : InstrWord :=
  1#1 ++ op ++ d ++ base ++ sc ++ o ++ imm
def wE (op : BitVec 6) (d a : BitVec 4) (e g : BitVec 3) (fn : BitVec 8) (gp : BitVec 1) : InstrWord :=
  1#1 ++ op ++ d ++ a ++ e ++ g ++ fn ++ gp ++ 0#2
def wB (op : BitVec 6) (p : BitVec 3) (neg : BitVec 1) (form : BitVec 3) (disp : BitVec 18) : InstrWord :=
  1#1 ++ op ++ p ++ neg ++ form ++ disp
def wJ (op : BitVec 6) (form : BitVec 3) (disp : BitVec 22) : InstrWord := 1#1 ++ op ++ form ++ disp

/-! ### The 16-bit formats (R43) -/

def hOp (h : Half) : BitVec 5 := h.extractLsb' 10 5
def hD (h : Half) : BitVec 4 := h.extractLsb' 6 4
def hS (h : Half) : BitVec 4 := h.extractLsb' 2 4
def hK (h : Half) : BitVec 2 := h.extractLsb' 0 2
def hI6 (h : Half) : BitVec 6 := h.extractLsb' 0 6
def hDisp (h : Half) : BitVec 10 := h.extractLsb' 0 10
def hR (op : BitVec 5) (d s : BitVec 4) (k : BitVec 2) : Half := 0#1 ++ op ++ d ++ s ++ k
def hI (op : BitVec 5) (d : BitVec 4) (imm : BitVec 6) : Half := 0#1 ++ op ++ d ++ imm
def hJ (op : BitVec 5) (disp : BitVec 10) : Half := 0#1 ++ op ++ disp

/-! ### Operand kinds -/

/-- The bits of a g or v register number, and of an index of 4 bits. -/
def Reg.bits (r : Reg) : BitVec 4 := BitVec.ofFin r
/-- The number a 4-bit register field holds. -/
def Reg.ofBits (x : BitVec 4) : Reg := x.toFin
/-- A p, e or a register in a 4-bit field: the top bit is zero (R39). -/
def PReg.bits (r : PReg) : BitVec 3 := BitVec.ofFin r
def PReg.bits4 (r : PReg) : BitVec 4 := 0#1 ++ PReg.bits r
def PReg.ofBits4 (x : BitVec 4) : Option PReg := if x.extractLsb' 3 1 = 0#1 then some (x.extractLsb' 0 3).toFin else none
def PReg.ofBits (x : BitVec 3) : PReg := x.toFin
/-- A 2-bit number. -/
def k2 (k : Fin 4) : BitVec 2 := BitVec.ofFin k
def bit1 (b : Bool) : BitVec 1 := BitVec.ofBool b
def isOne (x : BitVec 1) : Bool := x == 1#1

/-- q: index, negate, and a zero bit (R38). -/
def Pred.bits (q : Pred) : BitVec 5 := PReg.bits q.idx ++ bit1 q.neg ++ 0#1
def Pred.ofBits (x : BitVec 5) : Option Pred :=
  if x.extractLsb' 0 1 = 0#1 then some ⟨PReg.ofBits (x.extractLsb' 2 3), isOne (x.extractLsb' 1 1)⟩ else none

/-- R40; the value 7 is illegal. -/
def Scope.bits : Scope → BitVec 3
  | .core => 0#3
  | .clu => 1#3
  | .grp => 2#3
  | .sec => 3#3
  | .die => 4#3
  | .pkg => 5#3
  | .sys => 6#3
def Scope.ofBits (x : BitVec 3) : Option Scope :=
  match x.toNat with
  | 0 => some .core
  | 1 => some .clu
  | 2 => some .grp
  | 3 => some .sec
  | 4 => some .die
  | 5 => some .pkg
  | 6 => some .sys
  | _ => .none

/-- R192. -/
def LOrder.bits : LOrder → BitVec 2
  | .plain => 0#2
  | .acq => 1#2
def LOrder.ofBits (x : BitVec 2) : Option LOrder :=
  match x.toNat with
  | 0 => some .plain
  | 1 => some .acq
  | _ => .none

/-- R192. -/
def SOrder.bits : SOrder → BitVec 2
  | .plain => 0#2
  | .rel => 2#2
def SOrder.ofBits (x : BitVec 2) : Option SOrder :=
  match x.toNat with
  | 0 => some .plain
  | 2 => some .rel
  | _ => .none

/-- R40, R205. -/
def AOrder.bits : AOrder → BitVec 2
  | .plain => 0#2
  | .acq => 1#2
  | .rel => 2#2
  | .ar => 3#2
def AOrder.ofBits (x : BitVec 2) : Option AOrder :=
  match x.toNat with
  | 0 => some .plain
  | 1 => some .acq
  | 2 => some .rel
  | 3 => some .ar
  | _ => .none

/-- R41; 3 is illegal. -/
def Slot.bits : Slot → BitVec 2
  | .none => 0#2
  | .n => 1#2
  | .x => 2#2
def Slot.ofBits (x : BitVec 2) : Option Slot :=
  match x.toNat with
  | 0 => some .none
  | 1 => some .n
  | 2 => some .x
  | _ => .none

/-- R129. -/
def PCond.bits : PCond → BitVec 6
  | .eq => 0#6
  | .ne => 1#6
  | .lt => 2#6
  | .le => 3#6
  | .gt => 4#6
  | .ge => 5#6
  | .ltu => 6#6
  | .leu => 7#6
  | .gtu => 8#6
  | .geu => 9#6
  | .any => 10#6
  | .noneSet => 11#6
def PCond.ofBits (x : BitVec 6) : Option PCond :=
  match x.toNat with
  | 0 => some .eq
  | 1 => some .ne
  | 2 => some .lt
  | 3 => some .le
  | 4 => some .gt
  | 5 => some .ge
  | 6 => some .ltu
  | 7 => some .leu
  | 8 => some .gtu
  | 9 => some .geu
  | 10 => some .any
  | 11 => some .noneSet
  | _ => .none

/-- R129. -/
def PLogFn.bits : PLogFn → BitVec 6
  | .and => 0#6
  | .or => 1#6
  | .xor => 2#6
  | .andn => 3#6
  | .orn => 4#6
  | .xnor => 5#6
def PLogFn.ofBits (x : BitVec 6) : Option PLogFn :=
  match x.toNat with
  | 0 => some .and
  | 1 => some .or
  | 2 => some .xor
  | 3 => some .andn
  | 4 => some .orn
  | 5 => some .xnor
  | _ => .none

/-- R84, R221. -/
def FCond.bits : FCond → BitVec 3
  | .eq => 0#3
  | .ne => 1#3
  | .lt => 2#3
  | .le => 3#3
  | .un => 4#3
def FCond.ofBits (x : BitVec 3) : Option FCond :=
  match x.toNat with
  | 0 => some .eq
  | 1 => some .ne
  | 2 => some .lt
  | 3 => some .le
  | 4 => some .un
  | _ => .none

/-- R80. -/
def Rnd.bits : Rnd → BitVec 3
  | .none => 0#3
  | .rne => 1#3
  | .rtz => 2#3
  | .rup => 3#3
  | .rdn => 4#3
def Rnd.ofBits (x : BitVec 3) : Option Rnd :=
  match x.toNat with
  | 0 => some .none
  | 1 => some .rne
  | 2 => some .rtz
  | 3 => some .rup
  | 4 => some .rdn
  | _ => .none

/-- R80. -/
def FFmt.bits : FFmt → BitVec 1
  | .f32 => 0#1
  | .f16 => 1#1
def FFmt.ofBits (x : BitVec 1) : Option FFmt :=
  match x.toNat with
  | 0 => some .f32
  | 1 => some .f16
  | _ => .none

/-- R219. -/
def LFmt.bits : LFmt → BitVec 1
  | .li16 => 0#1
  | .li32 => 1#1
def LFmt.ofBits (x : BitVec 1) : Option LFmt :=
  match x.toNat with
  | 0 => some .li16
  | 1 => some .li32
  | _ => .none

/-- R85. -/
def FCvt.bits : FCvt → BitVec 4
  | .f16F32 => 0#4
  | .f32F16 => 1#4
  | .bf16F32 => 2#4
  | .f32Bf16 => 3#4
  | .f8aF32 => 4#4
  | .f8bF32 => 5#4
  | .f32F8a => 6#4
  | .f32F8b => 7#4
  | .i64F32 => 8#4
  | .u64F32 => 9#4
  | .f32I64 => 10#4
  | .f32U64 => 11#4
def FCvt.ofBits (x : BitVec 4) : Option FCvt :=
  match x.toNat with
  | 0 => some .f16F32
  | 1 => some .f32F16
  | 2 => some .bf16F32
  | 3 => some .f32Bf16
  | 4 => some .f8aF32
  | 5 => some .f8bF32
  | 6 => some .f32F8a
  | 7 => some .f32F8b
  | 8 => some .i64F32
  | 9 => some .u64F32
  | 10 => some .f32I64
  | 11 => some .f32U64
  | _ => .none

/-- R245. -/
def VCvt.bits : VCvt → BitVec 4
  | .f16F32 => 0#4
  | .f32F16 => 1#4
  | .bf16F32 => 2#4
  | .f32Bf16 => 3#4
  | .f8aF32 => 4#4
  | .f8bF32 => 5#4
  | .f32F8a => 6#4
  | .f32F8b => 7#4
  | .i32F32 => 8#4
  | .u32F32 => 9#4
  | .f32I32 => 10#4
  | .f32U32 => 11#4
  | .p8aF32 => 12#4
  | .p8bF32 => 13#4
def VCvt.ofBits (x : BitVec 4) : Option VCvt :=
  match x.toNat with
  | 0 => some .f16F32
  | 1 => some .f32F16
  | 2 => some .bf16F32
  | 3 => some .f32Bf16
  | 4 => some .f8aF32
  | 5 => some .f8bF32
  | 6 => some .f32F8a
  | 7 => some .f32F8b
  | 8 => some .i32F32
  | 9 => some .u32F32
  | 10 => some .f32I32
  | 11 => some .f32U32
  | 12 => some .p8aF32
  | 13 => some .p8bF32
  | _ => .none

/-- R222. -/
def LCvt.bits : LCvt → BitVec 4
  | .li16F32 => 0#4
  | .li16F16 => 1#4
  | .li16Bf16 => 2#4
  | .li32F32 => 3#4
  | .li32F16 => 4#4
  | .li32Bf16 => 5#4
  | .f32Li16 => 6#4
  | .f16Li16 => 7#4
  | .bf16Li16 => 8#4
  | .f32Li32 => 9#4
  | .f16Li32 => 10#4
  | .bf16Li32 => 11#4
def LCvt.ofBits (x : BitVec 4) : Option LCvt :=
  match x.toNat with
  | 0 => some .li16F32
  | 1 => some .li16F16
  | 2 => some .li16Bf16
  | 3 => some .li32F32
  | 4 => some .li32F16
  | 5 => some .li32Bf16
  | 6 => some .f32Li16
  | 7 => some .f16Li16
  | 8 => some .bf16Li16
  | 9 => some .f32Li32
  | 10 => some .f16Li32
  | 11 => some .bf16Li32
  | _ => .none

/-- R380. -/
def RSize.bits : RSize → BitVec 4
  | .b8 => 0#4
  | .b16 => 1#4
  | .b32 => 2#4
  | .b64 => 3#4
  | .b128 => 4#4
  | .b256 => 5#4
def RSize.ofBits (x : BitVec 4) : Option RSize :=
  match x.toNat with
  | 0 => some .b8
  | 1 => some .b16
  | 2 => some .b32
  | 3 => some .b64
  | 4 => some .b128
  | 5 => some .b256
  | _ => .none

/-- R265; 0 is illegal. -/
def SclMode.bits : SclMode → BitVec 2
  | .r => 1#2
  | .c => 2#2
  | .rc => 3#2
def SclMode.ofBits (x : BitVec 2) : Option SclMode :=
  match x.toNat with
  | 1 => some .r
  | 2 => some .c
  | 3 => some .rc
  | _ => .none

/-- R242. -/
def SatMode.bits : SatMode → BitVec 2
  | .wrap => 0#2
  | .ss => 1#2
  | .su => 2#2
def SatMode.ofBits (x : BitVec 2) : Option SatMode :=
  match x.toNat with
  | 0 => some .wrap
  | 1 => some .ss
  | 2 => some .su
  | _ => .none

/-- R242. -/
def MulMode.bits : MulMode → BitVec 2
  | .low => 0#2
  | .h => 1#2
  | .hu => 2#2
def MulMode.ofBits (x : BitVec 2) : Option MulMode :=
  match x.toNat with
  | 0 => some .low
  | 1 => some .h
  | 2 => some .hu
  | _ => .none

/-- R246. -/
def VICond.bits : VICond → BitVec 3
  | .eq => 0#3
  | .ne => 1#3
  | .lt => 2#3
  | .le => 3#3
  | .ltu => 4#3
  | .leu => 5#3
def VICond.ofBits (x : BitVec 3) : Option VICond :=
  match x.toNat with
  | 0 => some .eq
  | 1 => some .ne
  | 2 => some .lt
  | 3 => some .le
  | 4 => some .ltu
  | 5 => some .leu
  | _ => .none

/-- R295. -/
def TLCounter.bits : TLCounter → BitVec 2
  | .tlm => 0#2
  | .tlc => 1#2
  | .tlf => 2#2
  | .tlv => 3#2
def TLCounter.ofBits (x : BitVec 2) : Option TLCounter :=
  match x.toNat with
  | 0 => some .tlm
  | 1 => some .tlc
  | 2 => some .tlf
  | 3 => some .tlv
  | _ => .none

/-- Format bit and condition of VCMP (R246). -/
def VCond.bits : VCond → BitVec 4
  | .i32 c => 0#1 ++ c.bits
  | .f32 c => 1#1 ++ c.bits
def VCond.ofBits (x : BitVec 4) : Option VCond :=
  if x.extractLsb' 3 1 = 0#1 then (VICond.ofBits (x.extractLsb' 0 3)).map .i32
  else (FCond.ofBits (x.extractLsb' 0 3)).map .f32

/-- Format bit and override of VRSUM: no override with .I32 (R246). -/
def RedKind.bits : RedKind → BitVec 4
  | .f32 r => 0#1 ++ r.bits
  | .i32 => 1#1 ++ 0#3
def RedKind.ofBits (x : BitVec 4) : Option RedKind :=
  if x.extractLsb' 3 1 = 0#1 then (Rnd.ofBits (x.extractLsb' 0 3)).map .f32
  else if x.extractLsb' 0 3 = 0#3 then some .i32 else none

/-- A rounding override in a 4-bit b field (R85). -/
def Rnd.bits4 (r : Rnd) : BitVec 4 := 0#1 ++ r.bits
def Rnd.ofBits4 (x : BitVec 4) : Option Rnd := if x.extractLsb' 3 1 = 0#1 then Rnd.ofBits (x.extractLsb' 0 3) else .none

/-- The e field and the E modifier of a job with an optional descriptor: e is zero without E (R265). -/
def eoBits : Option EReg → BitVec 3
  | some e => PReg.bits e
  | none => 0#3
def eoFlag (x : Option EReg) : BitVec 1 := bit1 x.isSome
def eoOf (flag : BitVec 1) (e : BitVec 3) : Option (Option EReg) :=
  if flag = 1#1 then some (some (PReg.ofBits e)) else if e = 0#3 then some none else none

/-- The guard fields (R42). -/
def Guard.ofBits (g : BitVec 3) (gp : BitVec 1) : Option Guard :=
  let x : Guard := ⟨g, isOne gp⟩
  if x.wf then some x else none

/-- Keep a decoded instruction only when it is well formed (R46). -/
def keepWf (i : Instr) : Option Instr := if i.wf then some i else none

/-- `k` when a must-be-zero condition holds (R46). -/
def need (c : Bool) (k : Option Instr) : Option Instr := if c then k else none

/-! ### Shapes shared by many instructions -/

def d3 (k : Reg → Reg → Reg → Pred → Instr) (w : InstrWord) : Option Instr := do
  let q ← Pred.ofBits (fQ w)
  some (k (Reg.ofBits (fD w)) (Reg.ofBits (fA w)) (Reg.ofBits (fB w)) q)
def d2 (k : Reg → Reg → Pred → Instr) (w : InstrWord) : Option Instr := do
  let q ← Pred.ofBits (fQ w)
  need (fB w == 0) (some (k (Reg.ofBits (fD w)) (Reg.ofBits (fA w)) q))
def dA1 (k : Reg → Pred → Instr) (w : InstrWord) : Option Instr := do
  let q ← Pred.ofBits (fQ w)
  need (fB w == 0 && fD w == 0) (some (k (Reg.ofBits (fA w)) q))
def d0 (k : Pred → Instr) (w : InstrWord) : Option Instr := do
  let q ← Pred.ofBits (fQ w)
  need (fB w == 0 && fD w == 0 && fA w == 0) (some (k q))
def dIQ (k : Reg → Reg → BitVec 10 → Pred → Instr) (w : InstrWord) : Option Instr := do
  let q ← Pred.ofBits (fQ w)
  some (k (Reg.ofBits (fD w)) (Reg.ofBits (fA w)) (fI10 w) q)
def dLoad (k : Reg → Reg → Scope → LOrder → BitVec 11 → Instr) (w : InstrWord) : Option Instr := do
  let sc ← Scope.ofBits (fScope w)
  let o ← LOrder.ofBits (fOrder w)
  some (k (Reg.ofBits (fD w)) (Reg.ofBits (fA w)) sc o (w.extractLsb' 1 11))
def dStore (k : Reg → Reg → Scope → SOrder → BitVec 12 → Instr) (w : InstrWord) : Option Instr := do
  let sc ← Scope.ofBits (fScope w)
  let o ← SOrder.ofBits (fOrder w)
  some (k (Reg.ofBits (fD w)) (Reg.ofBits (fA w)) sc o (fI12 w))
def dAmo (k : Reg → Reg → Scope → AOrder → Reg → Bool → Instr) (w : InstrWord) : Option Instr := do
  let sc ← Scope.ofBits (fScope w)
  let o ← AOrder.ofBits (fOrder w)
  need (w.extractLsb' 0 3 == 0#3)
    (some (k (Reg.ofBits (fD w)) (Reg.ofBits (fA w)) sc o (Reg.ofBits (w.extractLsb' 8 4)) (isOne (w.extractLsb' 3 1))))
def dAcc (k : Reg → Scope → SOrder → Reg → Bool → Option Instr) (w : InstrWord) : Option Instr := do
  let sc ← Scope.ofBits (fScope w)
  let o ← SOrder.ofBits (fOrder w)
  need (w.extractLsb' 0 3 == 0#3 && fD w == 0)
    (k (Reg.ofBits (fA w)) sc o (Reg.ofBits (w.extractLsb' 8 4)) (isOne (w.extractLsb' 3 1)))
/-- ACC of a 32-bit number format: an encoding with imm12[3] = 0 is illegal (R209). -/
def acc32 (k : Reg → Scope → SOrder → Reg → Instr) (b : Reg) (sc : Scope) (o : SOrder) (s : Reg) (w32 : Bool) : Option Instr :=
  if w32 then some (k b sc o s) else none
def dF (k : Reg → Reg → Reg → FFmt → Rnd → Pred → Instr) (w : InstrWord) : Option Instr := do
  let q ← Pred.ofBits (fQ w)
  let f ← FFmt.ofBits (w.extractLsb' 8 1)
  let r ← Rnd.ofBits (w.extractLsb' 5 3)
  some (k (Reg.ofBits (fD w)) (Reg.ofBits (fA w)) (Reg.ofBits (fB w)) f r q)
/-- A float form without an override: fn[7:5] is zero (R80). -/
def dF0 (k : Reg → Reg → Reg → FFmt → Pred → Instr) (w : InstrWord) : Option Instr := do
  let q ← Pred.ofBits (fQ w)
  let f ← FFmt.ofBits (w.extractLsb' 8 1)
  need (w.extractLsb' 5 3 == 0#3) (some (k (Reg.ofBits (fD w)) (Reg.ofBits (fA w)) (Reg.ofBits (fB w)) f q))
def dF1 (k : Reg → Reg → FFmt → Pred → Instr) (w : InstrWord) : Option Instr := do
  let q ← Pred.ofBits (fQ w)
  let f ← FFmt.ofBits (w.extractLsb' 8 1)
  need (w.extractLsb' 5 3 == 0#3 && fB w == 0) (some (k (Reg.ofBits (fD w)) (Reg.ofBits (fA w)) f q))
def dL (k : Reg → Reg → Reg → LFmt → Pred → Instr) (w : InstrWord) : Option Instr := do
  let q ← Pred.ofBits (fQ w)
  let f ← LFmt.ofBits (w.extractLsb' 8 1)
  need (w.extractLsb' 5 3 == 0#3) (some (k (Reg.ofBits (fD w)) (Reg.ofBits (fA w)) (Reg.ofBits (fB w)) f q))
/-- fn[8:5] is zero (R236, R319, R409). -/
def low4 (w : InstrWord) : Bool := w.extractLsb' 5 4 == 0#4
def dV2 (k : VRegN → VRegN → Pred → Instr) (w : InstrWord) : Option Instr := need (low4 w) (d2 k w)
def dV3 (k : VRegN → VRegN → VRegN → Pred → Instr) (w : InstrWord) : Option Instr := need (low4 w) (d3 k w)
/-- d, a, b with a mode in fn[8:7] and fn[6:5] zero (R242). -/
def dVM {α : Type} (of : BitVec 2 → Option α) (k : VRegN → VRegN → VRegN → α → Pred → Instr) (w : InstrWord) : Option Instr := do
  let q ← Pred.ofBits (fQ w)
  let m ← of (w.extractLsb' 7 2)
  need (w.extractLsb' 5 2 == 0#2) (some (k (Reg.ofBits (fD w)) (Reg.ofBits (fA w)) (Reg.ofBits (fB w)) m q))
/-- A one-bit mode in fn[8:7]: 0 or 1 (R242). -/
def uMode (x : BitVec 2) : Option Bool := if x.extractLsb' 1 1 = 0#1 then some (isOne (x.extractLsb' 0 1)) else none

/-- A W-E instruction without guard (R42): g, gp and z zero. -/
def noGuard (w : InstrWord) : Bool := fG w == 0 && fGp w == 0 && fZ w == 0

/-! ### The major opcode map (R47) -/

def dec00 (w : InstrWord) : Option Instr :=
  match (fFn w).toNat with
  | 0x00 => d3 .add w | 0x01 => d3 .sub w | 0x02 => d3 .and w | 0x03 => d3 .or w | 0x04 => d3 .xor w
  | 0x05 => d3 .andn w | 0x06 => d3 .shl w | 0x07 => d3 .shr w | 0x08 => d3 .sar w | 0x09 => d3 .min w
  | 0x0A => d3 .max w | 0x0B => d3 .minu w | 0x0C => d3 .maxu w | 0x0D => d3 .sel w
  | 0x0E => d2 .clz w | 0x0F => d2 .ctz w | 0x10 => d2 .popc w
  | _ => none

def dec01 (w : InstrWord) : Option Instr :=
  match (fSel w).toNat with
  | 0 => dIQ .addi w | 1 => dIQ .andi w | 2 => dIQ .ori w | _ => dIQ .xori w

/-- SHLI, SHRI, SARI: the width field and imm17[1:0] are zero (R127). -/
def dShift (k : Reg → Reg → BitVec 6 → Instr) (w : InstrWord) : Option Instr :=
  need (w.extractLsb' 0 8 == 0#8) (some (k (Reg.ofBits (fD w)) (Reg.ofBits (fA w)) (w.extractLsb' 8 6)))
def dField (k : Reg → Reg → BitVec 6 → BitVec 6 → Instr) (w : InstrWord) : Option Instr :=
  need (w.extractLsb' 0 2 == 0#2) (keepWf (k (Reg.ofBits (fD w)) (Reg.ofBits (fA w)) (w.extractLsb' 8 6) (w.extractLsb' 2 6)))
def dec02 (w : InstrWord) : Option Instr :=
  match (w.extractLsb' 14 3).toNat with
  | 0 => dShift .shli w | 1 => dShift .shri w | 2 => dShift .sari w
  | 3 => dField .bfx w | 4 => dField .bfxu w | 5 => dField .bfi w
  | _ => none

def dec03 (w : InstrWord) : Option Instr :=
  match (fA w).toNat with
  | 0 => some (.movhi (Reg.ofBits (fD w)) (fI17 w))
  | 1 => some (.lea (Reg.ofBits (fD w)) (fI17 w))
  | _ => none

def decPcmp (w : InstrWord) : Option Instr := do
  let q ← Pred.ofBits (fQ w)
  let d ← PReg.ofBits4 (fD w)
  let c ← PCond.ofBits (w.extractLsb' 5 6)
  some (.pcmp d (Reg.ofBits (fA w)) (Reg.ofBits (fB w)) c q)
def decPcmpi (w : InstrWord) : Option Instr := do
  let q ← Pred.ofBits (fQ w)
  let d ← PReg.ofBits4 (fD w)
  let c ← PCond.ofBits (w.extractLsb' 5 6)
  some (.pcmpi d (Reg.ofBits (fA w)) (fB w) c q)
def decPlog (w : InstrWord) : Option Instr := do
  let q ← Pred.ofBits (fQ w)
  let d ← PReg.ofBits4 (fD w)
  let a ← PReg.ofBits4 (fA w)
  let b ← PReg.ofBits4 (fB w)
  let f ← PLogFn.ofBits (w.extractLsb' 5 6)
  some (.plog d a b f q)
def decPmovPP (w : InstrWord) : Option Instr := do
  let q ← Pred.ofBits (fQ w)
  let d ← PReg.ofBits4 (fD w)
  let a ← PReg.ofBits4 (fA w)
  need (fB w == 0) (some (.pmovPp d a q))
def decPmovPG (w : InstrWord) : Option Instr := do
  let q ← Pred.ofBits (fQ w)
  let d ← PReg.ofBits4 (fD w)
  need (fB w == 0) (some (.pmovPg d (Reg.ofBits (fA w)) q))
def decPmovGP (w : InstrWord) : Option Instr := do
  let q ← Pred.ofBits (fQ w)
  let a ← PReg.ofBits4 (fA w)
  need (fB w == 0) (some (.pmovGp (Reg.ofBits (fD w)) a q))
def dec04 (w : InstrWord) : Option Instr :=
  match (w.extractLsb' 11 2).toNat with
  | 0 => decPcmp w
  | 1 => decPcmpi w
  | 2 => decPlog w
  | _ =>
    match (w.extractLsb' 5 6).toNat with
    | 0 => decPmovPP w
    | 1 => decPmovPG w
    | 2 => decPmovGP w
    | _ => none

def dec05 (w : InstrWord) : Option Instr :=
  match (fFn w).toNat with
  | 0x00 => d3 .mul w | 0x01 => d3 .mulh w | 0x02 => d3 .mulhu w | 0x03 => d3 .div w | 0x04 => d3 .divu w
  | 0x05 => d3 .mod w | 0x06 => d3 .modu w
  | _ => none

/-- imm12[0], the extension bit of a load (R40). -/
def uBit (w : InstrWord) : Bool := isOne (w.extractLsb' 0 1)

def dec10 (w : InstrWord) : Option Instr := do
  let sc ← Scope.ofBits (fScope w)
  if w.extractLsb' 0 7 = 0#7 then
    if w.extractLsb' 11 1 = 0#1 then do
      let o ← LOrder.ofBits (fOrder w)
      some (.tld (Reg.ofBits (fD w)) (Reg.ofBits (fA w)) sc o (PReg.ofBits (w.extractLsb' 8 3)) (isOne (w.extractLsb' 7 1)))
    else do
      let o ← SOrder.ofBits (fOrder w)
      some (.tst (Reg.ofBits (fD w)) (Reg.ofBits (fA w)) sc o (PReg.ofBits (w.extractLsb' 8 3)) (isOne (w.extractLsb' 7 1)))
  else none

def dec11 (w : InstrWord) : Option Instr :=
  match (w.extractLsb' 4 4).toNat with
  | 0 => dAmo .amoAdd w | 1 => dAmo .amoAnd w | 2 => dAmo .amoOr w | 3 => dAmo .amoXor w | 4 => dAmo .amoMin w
  | 5 => dAmo .amoMax w | 6 => dAmo .amoMinu w | 7 => dAmo .amoMaxu w | 8 => dAmo .amoSwap w | 9 => dAmo .cas w
  | _ => none

def dec12 (w : InstrWord) : Option Instr :=
  match (w.extractLsb' 4 4).toNat with
  | 0 => dAcc (fun b sc o s x => some (.accAdd b sc o s x)) w
  | 1 => dAcc (fun b sc o s x => some (.accMin b sc o s x)) w
  | 2 => dAcc (fun b sc o s x => some (.accMax b sc o s x)) w
  | 3 => dAcc (fun b sc o s x => some (.accOr b sc o s x)) w
  | 4 => dAcc (acc32 .accFadd32) w
  | 5 => dAcc (acc32 .accLadd32) w
  | 6 => if w = 0xA4000060#32 then some .aflush else none
  | _ => none

def dec13 (w : InstrWord) : Option Instr :=
  match (w.extractLsb' 15 2).toNat with
  | 0 => do
    let e ← PReg.ofBits4 (fD w)
    need (w.extractLsb' 17 3 == 0#3)
      (if w.extractLsb' 20 1 = 0#1 then some (.xset e (w.extractLsb' 0 15)) else some (.xsetSh e (w.extractLsb' 0 15)))
  | 1 => do
    let e ← PReg.ofBits4 (fD w)
    some (.xld e (Reg.ofBits (fA w)) (w.extractLsb' 0 15))
  | 2 => do
    let e ← PReg.ofBits4 (fD w)
    some (.xst e (Reg.ofBits (fA w)) (w.extractLsb' 0 15))
  | _ =>
    if w.extractLsb' 0 15 = 0#15 then do
      let e ← PReg.ofBits4 (fD w)
      some (.xmovEg e (Reg.ofBits (fA w)))
    else if w.extractLsb' 0 15 = 1#15 then do
      let e ← PReg.ofBits4 (fA w)
      some (.xmovGe (Reg.ofBits (fD w)) e)
    else none

def dec14 (w : InstrWord) : Option Instr :=
  match (fFn w).toNat with
  | 0 => d3 .bankmode w | 1 => dA1 .linewb w | 2 => dA1 .lineinv w | 3 => d2 .pin w | 4 => dA1 .unpin w
  | _ => none

def dec18 (w : InstrWord) : Option Instr := do
  let sl ← Slot.ofBits (w.extractLsb' 19 2)
  some (.bc (PReg.ofBits (fBP w)) (isOne (fBNeg w)) sl (isOne (w.extractLsb' 18 1)) (fDisp18 w))

def dec19 (w : InstrWord) : Option Instr := do
  let sl ← Slot.ofBits (w.extractLsb' 23 2)
  if w.extractLsb' 22 1 = 0#1 then some (.b sl (fDisp22 w)) else some (.call sl (fDisp22 w))

def dec1A (w : InstrWord) : Option Instr := do
  let q ← Pred.ofBits (fQ w)
  let sl ← Slot.ofBits (w.extractLsb' 8 2)
  need (w.extractLsb' 5 3 == 0#3 && fD w == 0 && fB w == 0)
    (match (w.extractLsb' 10 3).toNat with
     | 0 => some (.jmp (Reg.ofBits (fA w)) sl q)
     | 1 => some (.calli (Reg.ofBits (fA w)) sl q)
     | 2 => need (fA w == 0) (some (.ret sl q))
     | _ => none)

def dec1B (w : InstrWord) : Option Instr :=
  match (fJForm w).toNat with
  | 0 => need (w.extractLsb' 12 6 == 0#6)
      (keepWf (.loop (Reg.ofBits (w.extractLsb' 18 4)) (isOne (w.extractLsb' 11 1)) (w.extractLsb' 0 11)))
  | 1 => keepWf (.loopi (w.extractLsb' 12 10) (isOne (w.extractLsb' 11 1)) (w.extractLsb' 0 11))
  | 2 => do
    let sl ← Slot.ofBits (w.extractLsb' 16 2)
    need (w.extractLsb' 0 16 == 0#16) (some (.lbrk (PReg.ofBits (w.extractLsb' 19 3)) (isOne (w.extractLsb' 18 1)) sl))
  | 3 => need (w.extractLsb' 20 2 == 0#2) (some (.hint (w.extractLsb' 4 16) (w.extractLsb' 0 4)))
  | 4 => need (fDisp22 w == 0) (some .nop)
  | _ => none

def dec1C (w : InstrWord) : Option Instr :=
  match (fA w).toNat with
  | 0 => some (.start (Reg.ofBits (fD w)) (fI17 w))
  | 1 => need (fI17 w == 0) (some (.join (Reg.ofBits (fD w))))
  | 2 => need (fI17 w == 0 && fD w == 0) (some .exit)
  | 3 => need (fI17 w == 0 && fD w == 0) (some .yield)
  | 4 => need (fI17 w == 0) (some (.sleep (Reg.ofBits (fD w))))
  | 5 => need (w.extractLsb' 6 11 == 0#11) (keepWf (.waitev (Reg.ofBits (fD w)) (w.extractLsb' 0 6)))
  | _ => none

def dec1D (w : InstrWord) : Option Instr :=
  match (fA w).toNat with
  | 0 => need (w.extractLsb' 8 9 == 0#9 && fD w == 0) (some (.trap (w.extractLsb' 0 8)))
  | 1 => need (fI17 w == 0 && fD w == 0) (some .rett)
  | 2 => need (w.extractLsb' 12 5 == 0#5) (some (.mfs (Reg.ofBits (fD w)) (w.extractLsb' 0 12)))
  | 3 => need (w.extractLsb' 12 5 == 0#5) (some (.mts (Reg.ofBits (fD w)) (w.extractLsb' 0 12)))
  | 4 => need (w.extractLsb' 4 13 == 0#13) (some (.ctxsave (Reg.ofBits (fD w)) (w.extractLsb' 0 4)))
  | 5 => need (w.extractLsb' 5 12 == 0#12)
      (some (.ctxload (Reg.ofBits (fD w)) (isOne (w.extractLsb' 4 1)) (w.extractLsb' 0 4)))
  | 6 => need (fI17 w == 0 && fD w == 0) (some .halt)
  | _ => none

def dec1E (w : InstrWord) : Option Instr :=
  match (fFn w).toNat with
  | 0 => d2 .claim w | 1 => d0 .give w | 2 => d2 .pquery w | _ => none

/-- fn[10:7], the selector of W-E (R47). -/
def fSelE (w : InstrWord) : Nat := (w.extractLsb' 7 4).toNat

def dec1F (w : InstrWord) : Option Instr :=
  need (noGuard w && w.extractLsb' 4 3 == 0#3 && fA w == 0)
    (match fSelE w with
     | 0 => need (fE w == 0) (some (.tnow (Reg.ofBits (fD w)) (isOne (w.extractLsb' 3 1))))
     | 1 => need (fD w == 0) (some (.twaitu (PReg.ofBits (fE w)) (isOne (w.extractLsb' 3 1))))
     | _ => none)

def dec20 (w : InstrWord) : Option Instr :=
  need (noGuard w)
    (match fSelE w with
     | 0 => need (fD w == 0 && w.extractLsb' 4 3 == 0#3)
         (keepWf (.pko (Reg.ofBits (fA w)) (PReg.ofBits (fE w)) (isOne (w.extractLsb' 3 1))))
     | 1 => need (fD w == 0 && fE w == 0 && w.extractLsb' 6 1 == 0#1) (some (.pka (Reg.ofBits (fA w)) (w.extractLsb' 3 3)))
     | 2 => need (fD w == 0 && fE w == 0 && fA w == 0 && w.extractLsb' 3 4 == 0#4) (some .pks)
     | 3 => need (fE w == 0 && fA w == 0 && w.extractLsb' 4 3 == 0#3)
         (some (.rxpop (Reg.ofBits (fD w)) (isOne (w.extractLsb' 3 1))))
     | 4 => need (fE w == 0 && fA w == 0 && w.extractLsb' 4 3 == 0#3)
         (some (.rxpeek (Reg.ofBits (fD w)) (isOne (w.extractLsb' 3 1))))
     | _ => none)

def dRemote (k : Reg → Reg → EReg → Guard → RSize → Instr) (w : InstrWord) : Option Instr := do
  let g ← Guard.ofBits (fG w) (fGp w)
  let sz ← RSize.ofBits (w.extractLsb' 3 4)
  some (k (Reg.ofBits (fD w)) (Reg.ofBits (fA w)) (PReg.ofBits (fE w)) g sz)
def dec21 (w : InstrWord) : Option Instr :=
  need (fZ w == 0)
    (match fSelE w with
     | 0 => dRemote .rld w
     | 1 => dRemote .fetchto w
     | 2 => need (noGuard w && w.extractLsb' 5 2 == 0#2)
         (some (.dropwin (Reg.ofBits (fD w)) (Reg.ofBits (fA w)) (PReg.ofBits (fE w)) (w.extractLsb' 3 2).toFin))
     | _ => none)

def dec22 (w : InstrWord) : Option Instr :=
  need (noGuard w && fE w == 0)
    (match fSelE w with
     | 0 => need (w.extractLsb' 3 4 == 0#4) (some (.twany (Reg.ofBits (fD w)) (Reg.ofBits (fA w))))
     | 1 => need (w.extractLsb' 3 4 == 0#4) (some (.twall (Reg.ofBits (fD w)) (Reg.ofBits (fA w))))
     | 2 => need (w.extractLsb' 3 4 == 0#4) (some (.tffr (Reg.ofBits (fD w)) (Reg.ofBits (fA w))))
     | 3 => need (w.extractLsb' 3 4 == 0#4 && fD w == 0) (some (.tclr (Reg.ofBits (fA w))))
     | 4 => need (w.extractLsb' 5 2 == 0#2 && fD w == 0)
         ((TLCounter.ofBits (w.extractLsb' 3 2)).map fun c => .tlwait (Reg.ofBits (fA w)) c)
     | 5 => need (w.extractLsb' 6 1 == 0#1 && fA w == 0)
         ((TLCounter.ofBits (w.extractLsb' 3 2)).map fun c => .tlread (Reg.ofBits (fD w)) (isOne (w.extractLsb' 5 1)) c)
     | _ => none)

def dec23 (w : InstrWord) : Option Instr :=
  need (fZ w == 0 && fE w == 0 && w.extractLsb' 3 4 == 0#4)
    (match fSelE w with
     | 0 => need (fD w == 0) ((PReg.ofBits4 (fA w)).bind fun a => keepWf (.gset a (fG w) (isOne (fGp w))))
     | 1 => need (fA w == 0 && fGp w == 0) (keepWf (.gclr (Reg.ofBits (fD w)) (fG w)))
     | _ => none)

def dLoadTile (k : Reg → Reg → EReg → Guard → Bool → Instr) (w : InstrWord) : Option Instr := do
  let g ← Guard.ofBits (fG w) (fGp w)
  need (w.extractLsb' 4 3 == 0#3)
    (some (k (Reg.ofBits (fD w)) (Reg.ofBits (fA w)) (PReg.ofBits (fE w)) g (isOne (w.extractLsb' 3 1))))
def dMul (k : Reg → Tile → Option EReg → Bool → Bool → Guard → Instr) (w : InstrWord) : Option Instr := do
  let g ← Guard.ofBits (fG w) (fGp w)
  let t ← PReg.ofBits4 (fA w)
  let x ← eoOf (w.extractLsb' 5 1) (fE w)
  need (w.extractLsb' 6 1 == 0#1)
    (some (k (Reg.ofBits (fD w)) t x (isOne (w.extractLsb' 4 1)) (isOne (w.extractLsb' 3 1)) g))
def decMzero (w : InstrWord) : Option Instr := do
  let g ← Guard.ofBits (fG w) (fGp w)
  let t ← PReg.ofBits4 (fA w)
  let x ← eoOf (w.extractLsb' 5 1) (fE w)
  need (w.extractLsb' 6 1 == 0#1 && w.extractLsb' 3 2 == 0#2) (some (.mzero (Reg.ofBits (fD w)) t x g))
def decMcfg (w : InstrWord) : Option Instr := do
  let g ← Guard.ofBits (fG w) (fGp w)
  need (w.extractLsb' 5 2 == 0#2 && fE w == 0)
    (match (w.extractLsb' 3 2).toNat with
     | 0 => some (.mcfgOwn (Reg.ofBits (fD w)) (Reg.ofBits (fA w)) g)
     | 1 => some (.mcfgFree (Reg.ofBits (fD w)) (Reg.ofBits (fA w)) g)
     | 2 => need (fA w == 0) (some (.mcfgQuery (Reg.ofBits (fD w)) g))
     | _ => none)
def dec24 (w : InstrWord) : Option Instr :=
  need (fZ w == 0)
    (match fSelE w with
     | 0 => dLoadTile .mlda w | 1 => dLoadTile .mldb w
     | 2 => dMul .mmac w | 3 => dMul .mmul w | 4 => dMul .mmr w
     | 5 => decMzero w | 6 => decMcfg w
     | _ => none)

def decMrda (w : InstrWord) : Option Instr := do
  let g ← Guard.ofBits (fG w) (fGp w)
  let t ← PReg.ofBits4 (fA w)
  need (w.extractLsb' 4 3 == 0#3) (some (.mrda (Reg.ofBits (fD w)) t (PReg.ofBits (fE w)) g (isOne (w.extractLsb' 3 1))))
def decMscl (w : InstrWord) : Option Instr := do
  let g ← Guard.ofBits (fG w) (fGp w)
  let t ← PReg.ofBits4 (fA w)
  let x ← eoOf (w.extractLsb' 5 1) (fE w)
  let m ← SclMode.ofBits (w.extractLsb' 3 2)
  need (w.extractLsb' 6 1 == 0#1) (some (.mscl (Reg.ofBits (fD w)) t x m g))
def dec25 (w : InstrWord) : Option Instr :=
  need (fZ w == 0)
    (match fSelE w with
     | 0 => decMrda w
     | 1 => decMscl w
     | 2 => need (noGuard w && fE w == 0 && w.extractLsb' 3 4 == 0#4) (some (.mjpoll (Reg.ofBits (fD w)) (Reg.ofBits (fA w))))
     | 3 => need (noGuard w && fE w == 0 && w.extractLsb' 3 4 == 0#4 && fD w == 0) (some (.mjwait (Reg.ofBits (fA w))))
     | _ => none)

/-- fn[12:9], the selector of most W-A majors (R47). -/
def fSel4 (w : InstrWord) : Nat := (w.extractLsb' 9 4).toNat

def dec26 (w : InstrWord) : Option Instr :=
  need (low4 w)
    (match fSel4 w with
     | 0 => d2 .vclaim w | 1 => d0 .vrel w | 2 => d2 .vlen w | _ => none)

def dec28 (w : InstrWord) : Option Instr :=
  match fSel4 w with
  | 0 => dVM SatMode.ofBits .vadd w | 1 => dVM SatMode.ofBits .vsub w | 2 => dVM MulMode.ofBits .vmul w
  | 3 => dVM uMode .vmin w | 4 => dVM uMode .vmax w
  | 5 => dV3 .vand w | 6 => dV3 .vor w | 7 => dV3 .vxor w | 8 => dV3 .vshl w
  | 9 => dVM uMode .vshr w
  | _ => none

def dec29 (w : InstrWord) : Option Instr :=
  match fSel4 w with
  | 0 => dF .vfadd w | 1 => dF .vfsub w | 2 => dF .vfmul w | 3 => dF .vfma w
  | 4 => dF0 .vfmax w | 5 => dF0 .vfmin w | 6 => dF1 .vfabs w | 7 => dF1 .vfneg w
  | _ => none

def dec2A (w : InstrWord) : Option Instr :=
  match fSel4 w with
  | 0 => dV2 .vexp w | 1 => dV2 .vlog w | 2 => dV2 .vrcp w | 3 => dV2 .vrsq w | 4 => dV2 .vsig w | 5 => dV2 .vtanh w
  | _ => none

def dVLoad {α : Type} (of : BitVec 9 → Option α) (k : VRegN → Reg → Scope → LOrder → α → Instr) (w : InstrWord) : Option Instr := do
  let sc ← Scope.ofBits (fScope w)
  let o ← LOrder.ofBits (fOrder w)
  let x ← of (w.extractLsb' 0 9)
  some (k (Reg.ofBits (fD w)) (Reg.ofBits (fA w)) sc o x)
def dVStore {α : Type} (of : BitVec 9 → Option α) (k : VRegN → Reg → Scope → SOrder → α → Instr) (w : InstrWord) : Option Instr := do
  let sc ← Scope.ofBits (fScope w)
  let o ← SOrder.ofBits (fOrder w)
  let x ← of (w.extractLsb' 0 9)
  some (k (Reg.ofBits (fD w)) (Reg.ofBits (fA w)) sc o x)
/-- imm12[8:5] names a register, and imm12[4:0] is zero (R248). -/
def vIdx (x : BitVec 9) : Option Reg := if x.extractLsb' 0 5 = 0#5 then some (Reg.ofBits (x.extractLsb' 5 4)) else none
def dec2B (w : InstrWord) : Option Instr :=
  match (w.extractLsb' 9 3).toNat with
  | 0 => dVLoad some .vld w | 1 => dVStore some .vst w
  | 2 => dVLoad vIdx .vlds w | 3 => dVStore vIdx .vsts w
  | 4 => dVLoad vIdx .vgath w | 5 => dVStore vIdx .vscat w
  | _ => none

/-- d, a, b with a kind in fn[8:5]. -/
def dVK {α : Type} (of : BitVec 4 → Option α) (k : VRegN → VRegN → BitVec 4 → α → Pred → Option Instr) (w : InstrWord) : Option Instr := do
  let q ← Pred.ofBits (fQ w)
  let x ← of (w.extractLsb' 5 4)
  k (Reg.ofBits (fD w)) (Reg.ofBits (fA w)) (fB w) x q
/-- fn[8] with fn[7:5] zero. -/
def topBit (x : BitVec 4) : Option Bool := if x.extractLsb' 0 3 = 0#3 then some (isOne (x.extractLsb' 3 1)) else none

def dec2C (w : InstrWord) : Option Instr :=
  match fSel4 w with
  | 0 => dVK VCond.ofBits (fun d a b c q => some (.vcmp d a (Reg.ofBits b) c q)) w
  | 1 => dV3 .vsel w
  | 2 => dV3 .vperm w
  | 3 => dVK topBit (fun d a b x q =>
      if x then some (.vbcastE d a (Reg.ofBits b) q) else need (b == 0) (some (.vbcast d a q))) w
  | 4 => dVK topBit (fun d a b x q =>
      if x then some (.vslideDn d a (Reg.ofBits b) q) else some (.vslideUp d a (Reg.ofBits b) q)) w
  | 5 => dVK RedKind.ofBits (fun d a b k q => need (b == 0) (some (.vrsum d a k q))) w
  | 6 => dVK topBit (fun d a b x q => need (b == 0) (some (.vrmax d a x q))) w
  | _ => none

def dec2D (w : InstrWord) : Option Instr :=
  match fSel4 w with
  | 0 => dVK VCvt.ofBits (fun d a b c q => (Rnd.ofBits4 b).map fun r => .vcvt d a r c q) w
  | _ => none

def dec2E (w : InstrWord) : Option Instr :=
  match fSel4 w with
  | 0 => dL .vladd w | 1 => dL .vlmul w
  | 2 => dVK LCvt.ofBits (fun d a b c q => need (b == 0) (some (.vlcvt d a c q))) w
  | _ => none

def decFsqrt (w : InstrWord) : Option Instr := do
  let q ← Pred.ofBits (fQ w)
  let f ← FFmt.ofBits (w.extractLsb' 8 1)
  let r ← Rnd.ofBits (w.extractLsb' 5 3)
  need (fB w == 0) (some (.fsqrt (Reg.ofBits (fD w)) (Reg.ofBits (fA w)) f r q))
def decFcmp (w : InstrWord) : Option Instr := do
  let q ← Pred.ofBits (fQ w)
  let d ← PReg.ofBits4 (fD w)
  let f ← FFmt.ofBits (w.extractLsb' 8 1)
  let c ← FCond.ofBits (w.extractLsb' 5 3)
  some (.fcmp d (Reg.ofBits (fA w)) (Reg.ofBits (fB w)) f c q)
def dec30 (w : InstrWord) : Option Instr :=
  match fSel4 w with
  | 0 => dF .fadd w | 1 => dF .fsub w | 2 => dF .fmul w | 3 => dF .ffma w | 4 => dF .fdiv w
  | 5 => decFsqrt w | 6 => dF0 .fmin w | 7 => dF0 .fmax w | 8 => decFcmp w
  | 9 => dVK FCvt.ofBits (fun d a b c q => (Rnd.ofBits4 b).map fun r => .fcvt d a r c q) w
  | 10 => dF1 .fclass w
  | _ => none

def decLcmp (w : InstrWord) : Option Instr := do
  let q ← Pred.ofBits (fQ w)
  let d ← PReg.ofBits4 (fD w)
  let f ← LFmt.ofBits (w.extractLsb' 8 1)
  let c ← FCond.ofBits (w.extractLsb' 5 3)
  some (.lcmp d (Reg.ofBits (fA w)) (Reg.ofBits (fB w)) f c q)
def decLclass (w : InstrWord) : Option Instr := do
  let q ← Pred.ofBits (fQ w)
  let f ← LFmt.ofBits (w.extractLsb' 8 1)
  need (w.extractLsb' 5 3 == 0#3 && fB w == 0) (some (.lclass (Reg.ofBits (fD w)) (Reg.ofBits (fA w)) f q))
def dec31 (w : InstrWord) : Option Instr :=
  match fSel4 w with
  | 0 => dL .ladd w | 1 => dL .lsub w | 2 => dL .lmul w | 3 => dL .ldiv w | 4 => decLcmp w
  | 5 => dVK LCvt.ofBits (fun d a b c q => (Rnd.ofBits4 b).bind fun r => keepWf (.lcvt d a r c q)) w
  | 6 => decLclass w
  | _ => none

def decTinfo (w : InstrWord) : Option Instr := do
  let q ← Pred.ofBits (fQ w)
  need (fA w == 0) (keepWf (.tinfo (Reg.ofBits (fD w)) (fB w) q))
def decTedge (w : InstrWord) : Option Instr := do
  let q ← Pred.ofBits (fQ w)
  need (fD w == 0) (some (.tedge (Reg.ofBits (fA w)) (Reg.ofBits (fB w)) q))
def dec34 (w : InstrWord) : Option Instr :=
  need (low4 w)
    (match fSel4 w with
     | 0 => d2 .launch w | 1 => d2 .spawn w | 2 => decTedge w | 3 => decTinfo w | _ => none)

def dec35 (w : InstrWord) : Option Instr :=
  need (low4 w)
    (match fSel4 w with
     | 0 => d2 .boost w | 1 => d0 .brel w | _ => none)

/-- A 32-bit word (R47): an unassigned major or selector gives `none`. -/
def decode32 (w : InstrWord) : Option Instr :=
  need (w.extractLsb' 31 1 == 1#1)
    (match (fOp w).toNat with
     | 0x00 => dec00 w | 0x01 => dec01 w | 0x02 => dec02 w | 0x03 => dec03 w | 0x04 => dec04 w | 0x05 => dec05 w
     | 0x08 => if uBit w then dLoad .ldbu w else dLoad .ldb w
     | 0x09 => if uBit w then dLoad .ldhu w else dLoad .ldh w
     | 0x0A => if uBit w then dLoad .ldwu w else dLoad .ldw w
     | 0x0B => if uBit w then none else dLoad .ldd w
     | 0x0C => dStore .stb w | 0x0D => dStore .sth w | 0x0E => dStore .stw w | 0x0F => dStore .std w
     | 0x10 => dec10 w | 0x11 => dec11 w | 0x12 => dec12 w | 0x13 => dec13 w | 0x14 => dec14 w
     | 0x18 => dec18 w | 0x19 => dec19 w | 0x1A => dec1A w | 0x1B => dec1B w | 0x1C => dec1C w | 0x1D => dec1D w
     | 0x1E => dec1E w | 0x1F => dec1F w | 0x20 => dec20 w | 0x21 => dec21 w | 0x22 => dec22 w | 0x23 => dec23 w
     | 0x24 => dec24 w | 0x25 => dec25 w | 0x26 => dec26 w | 0x28 => dec28 w | 0x29 => dec29 w | 0x2A => dec2A w
     | 0x2B => dec2B w | 0x2C => dec2C w | 0x2D => dec2D w | 0x2E => dec2E w | 0x30 => dec30 w | 0x31 => dec31 w
     | 0x34 => dec34 w | 0x35 => dec35 w
     | _ => none)

/-! ### The short-form map (R48) -/

def dS (k : Reg → Reg → Instr) (h : Half) : Option Instr := some (k (Reg.ofBits (hD h)) (Reg.ofBits (hS h)))
def dS1 (k : Reg → Instr) (h : Half) : Option Instr := need (hD h == 0) (some (k (Reg.ofBits (hS h))))
def dS0 (i : Instr) (h : Half) : Option Instr := need (hD h == 0 && hS h == 0) (some i)
def dSK (k : Reg → Reg → BitVec 2 → Instr) (h : Half) : Option Instr :=
  some (k (Reg.ofBits (hD h)) (Reg.ofBits (hS h)) (hK h))
def dSI (k : Reg → BitVec 6 → Instr) (h : Half) : Option Instr := some (k (Reg.ofBits (hD h)) (hI6 h))

def decode16 (h : Half) : Option Instr :=
  need (h.extractLsb' 15 1 == 0#1)
    (match (hOp h).toNat with
     | 0x01 => (match (hK h).toNat with | 0 => dS .addS h | 1 => dS .subS h | 2 => dS .andS h | _ => dS .orS h)
     | 0x02 => (match (hK h).toNat with | 0 => dS .xorS h | 1 => dS .andnS h | 2 => dS .shlS h | _ => dS .shrS h)
     | 0x03 => (match (hK h).toNat with | 0 => dS .sarS h | 1 => dS .minS h | 2 => dS .maxS h | _ => dS .mulS h)
     | 0x04 => (match (hK h).toNat with | 0 => dS .minuS h | 1 => dS .maxuS h | 2 => dS .clzS h | _ => dS .ctzS h)
     | 0x05 => (match (hK h).toNat with | 0 => dS .popcS h | 1 => dS1 .jmpS h | 2 => dS1 .calliS h | _ => dS0 .retS h)
     | 0x06 => dSK .ldwS h | 0x07 => dSK .ldwuS h | 0x08 => dSK .lddS h | 0x09 => dSK .stwS h | 0x0A => dSK .stdS h
     | 0x0B => (match (hK h).toNat with | 0 => dS0 .nopS h | 1 => dS0 .exitS h | 2 => dS0 .yieldS h | _ => dS0 .giveS h)
     | 0x0C => (match (hK h).toNat with
       | 0 => need (hS h == 0) (some (.tnowS (Reg.ofBits (hD h))))
       | 1 => dS1 .mjwaitS h | 2 => dS1 .joinS h | _ => dS0 .vrelS h)
     | 0x0D => need (hK h == 0) ((PReg.ofBits4 (hD h)).map fun e => .xmovS e (Reg.ofBits (hS h)))
     | 0x0E => need (hD h == 0) ((TLCounter.ofBits (hK h)).map fun c => .tlwaitS (Reg.ofBits (hS h)) c)
     | 0x10 => dSI .addiS h | 0x11 => dSI .andiS h | 0x12 => dSI .oriS h | 0x13 => dSI .xoriS h
     | 0x14 => dSI .shliS h | 0x15 => dSI .shriS h | 0x16 => dSI .sariS h
     | 0x18 => some (.bS (hDisp h)) | 0x19 => some (.callS (hDisp h))
     | _ => none)

/-! ### The encoder -/

/-- What an instruction is made of: a halfword, a word, or nothing for a step without an encoding. -/
inductive Encoded where
  | half (h : Half)
  | word (w : InstrWord)
  | event
  deriving DecidableEq, Repr

/-- The encoding of an instruction, from the formats and the opcode maps (R37 to R48). -/
def encode : Instr → Encoded
  | .add d a b q => .word (wA 0x00 (Reg.bits d) (Reg.bits a) (Reg.bits b) 0x00 q.bits)
  | .sub d a b q => .word (wA 0x00 (Reg.bits d) (Reg.bits a) (Reg.bits b) 0x01 q.bits)
  | .and d a b q => .word (wA 0x00 (Reg.bits d) (Reg.bits a) (Reg.bits b) 0x02 q.bits)
  | .or d a b q => .word (wA 0x00 (Reg.bits d) (Reg.bits a) (Reg.bits b) 0x03 q.bits)
  | .xor d a b q => .word (wA 0x00 (Reg.bits d) (Reg.bits a) (Reg.bits b) 0x04 q.bits)
  | .andn d a b q => .word (wA 0x00 (Reg.bits d) (Reg.bits a) (Reg.bits b) 0x05 q.bits)
  | .shl d a b q => .word (wA 0x00 (Reg.bits d) (Reg.bits a) (Reg.bits b) 0x06 q.bits)
  | .shr d a b q => .word (wA 0x00 (Reg.bits d) (Reg.bits a) (Reg.bits b) 0x07 q.bits)
  | .sar d a b q => .word (wA 0x00 (Reg.bits d) (Reg.bits a) (Reg.bits b) 0x08 q.bits)
  | .min d a b q => .word (wA 0x00 (Reg.bits d) (Reg.bits a) (Reg.bits b) 0x09 q.bits)
  | .max d a b q => .word (wA 0x00 (Reg.bits d) (Reg.bits a) (Reg.bits b) 0x0A q.bits)
  | .minu d a b q => .word (wA 0x00 (Reg.bits d) (Reg.bits a) (Reg.bits b) 0x0B q.bits)
  | .maxu d a b q => .word (wA 0x00 (Reg.bits d) (Reg.bits a) (Reg.bits b) 0x0C q.bits)
  | .sel d a b q => .word (wA 0x00 (Reg.bits d) (Reg.bits a) (Reg.bits b) 0x0D q.bits)
  | .clz d a q => .word (wA 0x00 (Reg.bits d) (Reg.bits a) 0 0x0E q.bits)
  | .ctz d a q => .word (wA 0x00 (Reg.bits d) (Reg.bits a) 0 0x0F q.bits)
  | .popc d a q => .word (wA 0x00 (Reg.bits d) (Reg.bits a) 0 0x10 q.bits)
  | .addi d a imm q => .word (wIQ 0x01 (Reg.bits d) (Reg.bits a) imm 0 q.bits)
  | .andi d a imm q => .word (wIQ 0x01 (Reg.bits d) (Reg.bits a) imm 1 q.bits)
  | .ori d a imm q => .word (wIQ 0x01 (Reg.bits d) (Reg.bits a) imm 2 q.bits)
  | .xori d a imm q => .word (wIQ 0x01 (Reg.bits d) (Reg.bits a) imm 3 q.bits)
  | .shli d a sh => .word (wI 0x02 (Reg.bits d) (Reg.bits a) (0#3 ++ sh ++ 0#6 ++ 0#2))
  | .shri d a sh => .word (wI 0x02 (Reg.bits d) (Reg.bits a) (1#3 ++ sh ++ 0#6 ++ 0#2))
  | .sari d a sh => .word (wI 0x02 (Reg.bits d) (Reg.bits a) (2#3 ++ sh ++ 0#6 ++ 0#2))
  | .bfx d a l w => .word (wI 0x02 (Reg.bits d) (Reg.bits a) (3#3 ++ l ++ w ++ 0#2))
  | .bfxu d a l w => .word (wI 0x02 (Reg.bits d) (Reg.bits a) (4#3 ++ l ++ w ++ 0#2))
  | .bfi d a l w => .word (wI 0x02 (Reg.bits d) (Reg.bits a) (5#3 ++ l ++ w ++ 0#2))
  | .movhi d imm => .word (wI 0x03 (Reg.bits d) 0 imm)
  | .lea d imm => .word (wI 0x03 (Reg.bits d) 1 imm)
  | .pcmp d a b c q => .word (wA 0x04 (PReg.bits4 d) (Reg.bits a) (Reg.bits b) (0#2 ++ c.bits) q.bits)
  | .pcmpi d a imm c q => .word (wA 0x04 (PReg.bits4 d) (Reg.bits a) imm (1#2 ++ c.bits) q.bits)
  | .plog d a b f q => .word (wA 0x04 (PReg.bits4 d) (PReg.bits4 a) (PReg.bits4 b) (2#2 ++ f.bits) q.bits)
  | .pmovPp d a q => .word (wA 0x04 (PReg.bits4 d) (PReg.bits4 a) 0 (3#2 ++ 0#6) q.bits)
  | .pmovPg d a q => .word (wA 0x04 (PReg.bits4 d) (Reg.bits a) 0 (3#2 ++ 1#6) q.bits)
  | .pmovGp d a q => .word (wA 0x04 (Reg.bits d) (PReg.bits4 a) 0 (3#2 ++ 2#6) q.bits)
  | .mul d a b q => .word (wA 0x05 (Reg.bits d) (Reg.bits a) (Reg.bits b) 0x00 q.bits)
  | .mulh d a b q => .word (wA 0x05 (Reg.bits d) (Reg.bits a) (Reg.bits b) 0x01 q.bits)
  | .mulhu d a b q => .word (wA 0x05 (Reg.bits d) (Reg.bits a) (Reg.bits b) 0x02 q.bits)
  | .div d a b q => .word (wA 0x05 (Reg.bits d) (Reg.bits a) (Reg.bits b) 0x03 q.bits)
  | .divu d a b q => .word (wA 0x05 (Reg.bits d) (Reg.bits a) (Reg.bits b) 0x04 q.bits)
  | .mod d a b q => .word (wA 0x05 (Reg.bits d) (Reg.bits a) (Reg.bits b) 0x05 q.bits)
  | .modu d a b q => .word (wA 0x05 (Reg.bits d) (Reg.bits a) (Reg.bits b) 0x06 q.bits)
  | .ldb d b sc o imm => .word (wM 0x08 (Reg.bits d) (Reg.bits b) sc.bits o.bits (imm ++ 0#1))
  | .ldbu d b sc o imm => .word (wM 0x08 (Reg.bits d) (Reg.bits b) sc.bits o.bits (imm ++ 1#1))
  | .ldh d b sc o imm => .word (wM 0x09 (Reg.bits d) (Reg.bits b) sc.bits o.bits (imm ++ 0#1))
  | .ldhu d b sc o imm => .word (wM 0x09 (Reg.bits d) (Reg.bits b) sc.bits o.bits (imm ++ 1#1))
  | .ldw d b sc o imm => .word (wM 0x0A (Reg.bits d) (Reg.bits b) sc.bits o.bits (imm ++ 0#1))
  | .ldwu d b sc o imm => .word (wM 0x0A (Reg.bits d) (Reg.bits b) sc.bits o.bits (imm ++ 1#1))
  | .ldd d b sc o imm => .word (wM 0x0B (Reg.bits d) (Reg.bits b) sc.bits o.bits (imm ++ 0#1))
  | .stb s b sc o imm => .word (wM 0x0C (Reg.bits s) (Reg.bits b) sc.bits o.bits imm)
  | .sth s b sc o imm => .word (wM 0x0D (Reg.bits s) (Reg.bits b) sc.bits o.bits imm)
  | .stw s b sc o imm => .word (wM 0x0E (Reg.bits s) (Reg.bits b) sc.bits o.bits imm)
  | .std s b sc o imm => .word (wM 0x0F (Reg.bits s) (Reg.bits b) sc.bits o.bits imm)
  | .tld d b sc o e x => .word (wM 0x10 (Reg.bits d) (Reg.bits b) sc.bits o.bits (0#1 ++ (PReg.bits e) ++ bit1 x ++ 0#7))
  | .tst s b sc o e x => .word (wM 0x10 (Reg.bits s) (Reg.bits b) sc.bits o.bits (1#1 ++ (PReg.bits e) ++ bit1 x ++ 0#7))
  | .amoAdd d b sc o s x => .word (wM 0x11 (Reg.bits d) (Reg.bits b) sc.bits o.bits ((Reg.bits s) ++ 0#4 ++ bit1 x ++ 0#3))
  | .amoAnd d b sc o s x => .word (wM 0x11 (Reg.bits d) (Reg.bits b) sc.bits o.bits ((Reg.bits s) ++ 1#4 ++ bit1 x ++ 0#3))
  | .amoOr d b sc o s x => .word (wM 0x11 (Reg.bits d) (Reg.bits b) sc.bits o.bits ((Reg.bits s) ++ 2#4 ++ bit1 x ++ 0#3))
  | .amoXor d b sc o s x => .word (wM 0x11 (Reg.bits d) (Reg.bits b) sc.bits o.bits ((Reg.bits s) ++ 3#4 ++ bit1 x ++ 0#3))
  | .amoMin d b sc o s x => .word (wM 0x11 (Reg.bits d) (Reg.bits b) sc.bits o.bits ((Reg.bits s) ++ 4#4 ++ bit1 x ++ 0#3))
  | .amoMax d b sc o s x => .word (wM 0x11 (Reg.bits d) (Reg.bits b) sc.bits o.bits ((Reg.bits s) ++ 5#4 ++ bit1 x ++ 0#3))
  | .amoMinu d b sc o s x => .word (wM 0x11 (Reg.bits d) (Reg.bits b) sc.bits o.bits ((Reg.bits s) ++ 6#4 ++ bit1 x ++ 0#3))
  | .amoMaxu d b sc o s x => .word (wM 0x11 (Reg.bits d) (Reg.bits b) sc.bits o.bits ((Reg.bits s) ++ 7#4 ++ bit1 x ++ 0#3))
  | .amoSwap d b sc o s x => .word (wM 0x11 (Reg.bits d) (Reg.bits b) sc.bits o.bits ((Reg.bits s) ++ 8#4 ++ bit1 x ++ 0#3))
  | .cas d b sc o s x => .word (wM 0x11 (Reg.bits d) (Reg.bits b) sc.bits o.bits ((Reg.bits s) ++ 9#4 ++ bit1 x ++ 0#3))
  | .accAdd b sc o s x => .word (wM 0x12 0 (Reg.bits b) sc.bits o.bits ((Reg.bits s) ++ 0#4 ++ bit1 x ++ 0#3))
  | .accMin b sc o s x => .word (wM 0x12 0 (Reg.bits b) sc.bits o.bits ((Reg.bits s) ++ 1#4 ++ bit1 x ++ 0#3))
  | .accMax b sc o s x => .word (wM 0x12 0 (Reg.bits b) sc.bits o.bits ((Reg.bits s) ++ 2#4 ++ bit1 x ++ 0#3))
  | .accOr b sc o s x => .word (wM 0x12 0 (Reg.bits b) sc.bits o.bits ((Reg.bits s) ++ 3#4 ++ bit1 x ++ 0#3))
  | .accFadd32 b sc o s => .word (wM 0x12 0 (Reg.bits b) sc.bits o.bits ((Reg.bits s) ++ 4#4 ++ 1#1 ++ 0#3))
  | .accLadd32 b sc o s => .word (wM 0x12 0 (Reg.bits b) sc.bits o.bits ((Reg.bits s) ++ 5#4 ++ 1#1 ++ 0#3))
  | .aflush => .word (0xA4000060#32)
  | .xset e imm => .word (wI 0x13 (PReg.bits4 e) 0 (0#2 ++ imm))
  | .xsetSh e imm => .word (wI 0x13 (PReg.bits4 e) 8 (0#2 ++ imm))
  | .xld e a imm => .word (wI 0x13 (PReg.bits4 e) (Reg.bits a) (1#2 ++ imm))
  | .xst e a imm => .word (wI 0x13 (PReg.bits4 e) (Reg.bits a) (2#2 ++ imm))
  | .xmovEg e a => .word (wI 0x13 (PReg.bits4 e) (Reg.bits a) (3#2 ++ 0#15))
  | .xmovGe d e => .word (wI 0x13 (Reg.bits d) (PReg.bits4 e) (3#2 ++ 1#15))
  | .bankmode d a b q => .word (wA 0x14 (Reg.bits d) (Reg.bits a) (Reg.bits b) 0 q.bits)
  | .linewb a q => .word (wA 0x14 0 (Reg.bits a) 0 1 q.bits)
  | .lineinv a q => .word (wA 0x14 0 (Reg.bits a) 0 2 q.bits)
  | .pin d a q => .word (wA 0x14 (Reg.bits d) (Reg.bits a) 0 3 q.bits)
  | .unpin a q => .word (wA 0x14 0 (Reg.bits a) 0 4 q.bits)
  | .bc p n s h d => .word (wB 0x18 (PReg.bits p) (bit1 n) (s.bits ++ bit1 h) d)
  | .b s d => .word (wJ 0x19 (s.bits ++ 0#1) d)
  | .call s d => .word (wJ 0x19 (s.bits ++ 1#1) d)
  | .jmp a s q => .word (wA 0x1A 0 (Reg.bits a) 0 (0#3 ++ s.bits ++ 0#3) q.bits)
  | .calli a s q => .word (wA 0x1A 0 (Reg.bits a) 0 (1#3 ++ s.bits ++ 0#3) q.bits)
  | .ret s q => .word (wA 0x1A 0 0 0 (2#3 ++ s.bits ++ 0#3) q.bits)
  | .loop g r e => .word (wJ 0x1B 0 ((Reg.bits g) ++ 0#6 ++ bit1 r ++ e))
  | .loopi c r e => .word (wJ 0x1B 1 (c ++ bit1 r ++ e))
  | .lbrk p n s => .word (wJ 0x1B 2 ((PReg.bits p) ++ bit1 n ++ s.bits ++ 0#16))
  | .hint m w => .word (wJ 0x1B 3 (0#2 ++ m ++ w))
  | .nop => .word (wJ 0x1B 4 0)
  | .start d imm => .word (wI 0x1C (Reg.bits d) 0 imm)
  | .join d => .word (wI 0x1C (Reg.bits d) 1 0)
  | .exit => .word (wI 0x1C 0 2 0)
  | .yield => .word (wI 0x1C 0 3 0)
  | .sleep d => .word (wI 0x1C (Reg.bits d) 4 0)
  | .waitev d m => .word (wI 0x1C (Reg.bits d) 5 (0#11 ++ m))
  | .trap c => .word (wI 0x1D 0 0 (0#9 ++ c))
  | .rett => .word (wI 0x1D 0 1 0)
  | .mfs d n => .word (wI 0x1D (Reg.bits d) 2 (0#5 ++ n))
  | .mts d n => .word (wI 0x1D (Reg.bits d) 3 (0#5 ++ n))
  | .ctxsave d n => .word (wI 0x1D (Reg.bits d) 4 (0#13 ++ n))
  | .ctxload d r n => .word (wI 0x1D (Reg.bits d) 5 (0#12 ++ bit1 r ++ n))
  | .halt => .word (wI 0x1D 0 6 0)
  | .claim d a q => .word (wA 0x1E (Reg.bits d) (Reg.bits a) 0 0 q.bits)
  | .give q => .word (wA 0x1E 0 0 0 1 q.bits)
  | .pquery d a q => .word (wA 0x1E (Reg.bits d) (Reg.bits a) 0 2 q.bits)
  | .tnow d x => .word (wE 0x1F (Reg.bits d) 0 0 0 (0#4 ++ 0#3 ++ bit1 x) 0)
  | .twaitu e x => .word (wE 0x1F 0 0 (PReg.bits e) 0 (1#4 ++ 0#3 ++ bit1 x) 0)
  | .pko a e w => .word (wE 0x20 0 (Reg.bits a) (PReg.bits e) 0 (0#4 ++ 0#3 ++ bit1 w) 0)
  | .pka a n => .word (wE 0x20 0 (Reg.bits a) 0 0 (1#4 ++ 0#1 ++ n) 0)
  | .pks => .word (wE 0x20 0 0 0 0 (2#4 ++ 0#4) 0)
  | .rxpop d f => .word (wE 0x20 (Reg.bits d) 0 0 0 (3#4 ++ 0#3 ++ bit1 f) 0)
  | .rxpeek d f => .word (wE 0x20 (Reg.bits d) 0 0 0 (4#4 ++ 0#3 ++ bit1 f) 0)
  | .rld d a e g s => .word (wE 0x21 (Reg.bits d) (Reg.bits a) (PReg.bits e) g.g (0#4 ++ s.bits) (bit1 g.gp))
  | .fetchto d a e g s => .word (wE 0x21 (Reg.bits d) (Reg.bits a) (PReg.bits e) g.g (1#4 ++ s.bits) (bit1 g.gp))
  | .dropwin d a e k => .word (wE 0x21 (Reg.bits d) (Reg.bits a) (PReg.bits e) 0 (2#4 ++ 0#2 ++ k2 k) 0)
  | .twany d a => .word (wE 0x22 (Reg.bits d) (Reg.bits a) 0 0 (0#4 ++ 0#4) 0)
  | .twall d a => .word (wE 0x22 (Reg.bits d) (Reg.bits a) 0 0 (1#4 ++ 0#4) 0)
  | .tffr d a => .word (wE 0x22 (Reg.bits d) (Reg.bits a) 0 0 (2#4 ++ 0#4) 0)
  | .tclr a => .word (wE 0x22 0 (Reg.bits a) 0 0 (3#4 ++ 0#4) 0)
  | .tlwait a c => .word (wE 0x22 0 (Reg.bits a) 0 0 (4#4 ++ 0#2 ++ c.bits) 0)
  | .tlread d i c => .word (wE 0x22 (Reg.bits d) 0 0 0 (5#4 ++ 0#1 ++ bit1 i ++ c.bits) 0)
  | .gset a g n => .word (wE 0x23 0 (PReg.bits4 a) 0 g 0 (bit1 n))
  | .gclr d g => .word (wE 0x23 (Reg.bits d) 0 0 g (1#4 ++ 0#4) 0)
  | .mlda d a e g k => .word (wE 0x24 (Reg.bits d) (Reg.bits a) (PReg.bits e) g.g (0#4 ++ 0#3 ++ bit1 k) (bit1 g.gp))
  | .mldb d a e g k => .word (wE 0x24 (Reg.bits d) (Reg.bits a) (PReg.bits e) g.g (1#4 ++ 0#3 ++ bit1 k) (bit1 g.gp))
  | .mmac d t x kb ka g => .word (wE 0x24 (Reg.bits d) (PReg.bits4 t) (eoBits x) g.g (2#4 ++ 0#1 ++ eoFlag x ++ bit1 kb ++ bit1 ka) (bit1 g.gp))
  | .mmul d t x kb ka g => .word (wE 0x24 (Reg.bits d) (PReg.bits4 t) (eoBits x) g.g (3#4 ++ 0#1 ++ eoFlag x ++ bit1 kb ++ bit1 ka) (bit1 g.gp))
  | .mmr d t x kb ka g => .word (wE 0x24 (Reg.bits d) (PReg.bits4 t) (eoBits x) g.g (4#4 ++ 0#1 ++ eoFlag x ++ bit1 kb ++ bit1 ka) (bit1 g.gp))
  | .mzero d t x g => .word (wE 0x24 (Reg.bits d) (PReg.bits4 t) (eoBits x) g.g (5#4 ++ 0#1 ++ eoFlag x ++ 0#2) (bit1 g.gp))
  | .mcfgOwn d a g => .word (wE 0x24 (Reg.bits d) (Reg.bits a) 0 g.g (6#4 ++ 0#4) (bit1 g.gp))
  | .mcfgFree d a g => .word (wE 0x24 (Reg.bits d) (Reg.bits a) 0 g.g (6#4 ++ 1#4) (bit1 g.gp))
  | .mcfgQuery d g => .word (wE 0x24 (Reg.bits d) 0 0 g.g (6#4 ++ 2#4) (bit1 g.gp))
  | .mrda d t e g r => .word (wE 0x25 (Reg.bits d) (PReg.bits4 t) (PReg.bits e) g.g (0#4 ++ 0#3 ++ bit1 r) (bit1 g.gp))
  | .mscl d t x m g => .word (wE 0x25 (Reg.bits d) (PReg.bits4 t) (eoBits x) g.g (1#4 ++ 0#1 ++ eoFlag x ++ m.bits) (bit1 g.gp))
  | .mjpoll d a => .word (wE 0x25 (Reg.bits d) (Reg.bits a) 0 0 (2#4 ++ 0#4) 0)
  | .mjwait a => .word (wE 0x25 0 (Reg.bits a) 0 0 (3#4 ++ 0#4) 0)
  | .vclaim d a q => .word (wA 0x26 (Reg.bits d) (Reg.bits a) 0 (0#4 ++ 0#4) q.bits)
  | .vrel q => .word (wA 0x26 0 0 0 (1#4 ++ 0#4) q.bits)
  | .vlen d a q => .word (wA 0x26 (Reg.bits d) (Reg.bits a) 0 (2#4 ++ 0#4) q.bits)
  | .vadd d a b m q => .word (wA 0x28 (Reg.bits d) (Reg.bits a) (Reg.bits b) (0#4 ++ m.bits ++ 0#2) q.bits)
  | .vsub d a b m q => .word (wA 0x28 (Reg.bits d) (Reg.bits a) (Reg.bits b) (1#4 ++ m.bits ++ 0#2) q.bits)
  | .vmul d a b m q => .word (wA 0x28 (Reg.bits d) (Reg.bits a) (Reg.bits b) (2#4 ++ m.bits ++ 0#2) q.bits)
  | .vmin d a b u q => .word (wA 0x28 (Reg.bits d) (Reg.bits a) (Reg.bits b) (3#4 ++ 0#1 ++ bit1 u ++ 0#2) q.bits)
  | .vmax d a b u q => .word (wA 0x28 (Reg.bits d) (Reg.bits a) (Reg.bits b) (4#4 ++ 0#1 ++ bit1 u ++ 0#2) q.bits)
  | .vand d a b q => .word (wA 0x28 (Reg.bits d) (Reg.bits a) (Reg.bits b) (5#4 ++ 0#4) q.bits)
  | .vor d a b q => .word (wA 0x28 (Reg.bits d) (Reg.bits a) (Reg.bits b) (6#4 ++ 0#4) q.bits)
  | .vxor d a b q => .word (wA 0x28 (Reg.bits d) (Reg.bits a) (Reg.bits b) (7#4 ++ 0#4) q.bits)
  | .vshl d a b q => .word (wA 0x28 (Reg.bits d) (Reg.bits a) (Reg.bits b) (8#4 ++ 0#4) q.bits)
  | .vshr d a b u q => .word (wA 0x28 (Reg.bits d) (Reg.bits a) (Reg.bits b) (9#4 ++ 0#1 ++ bit1 u ++ 0#2) q.bits)
  | .vfadd d a b f r q => .word (wA 0x29 (Reg.bits d) (Reg.bits a) (Reg.bits b) (0#4 ++ f.bits ++ r.bits) q.bits)
  | .vfsub d a b f r q => .word (wA 0x29 (Reg.bits d) (Reg.bits a) (Reg.bits b) (1#4 ++ f.bits ++ r.bits) q.bits)
  | .vfmul d a b f r q => .word (wA 0x29 (Reg.bits d) (Reg.bits a) (Reg.bits b) (2#4 ++ f.bits ++ r.bits) q.bits)
  | .vfma d a b f r q => .word (wA 0x29 (Reg.bits d) (Reg.bits a) (Reg.bits b) (3#4 ++ f.bits ++ r.bits) q.bits)
  | .vfmax d a b f q => .word (wA 0x29 (Reg.bits d) (Reg.bits a) (Reg.bits b) (4#4 ++ f.bits ++ 0#3) q.bits)
  | .vfmin d a b f q => .word (wA 0x29 (Reg.bits d) (Reg.bits a) (Reg.bits b) (5#4 ++ f.bits ++ 0#3) q.bits)
  | .vfabs d a f q => .word (wA 0x29 (Reg.bits d) (Reg.bits a) 0 (6#4 ++ f.bits ++ 0#3) q.bits)
  | .vfneg d a f q => .word (wA 0x29 (Reg.bits d) (Reg.bits a) 0 (7#4 ++ f.bits ++ 0#3) q.bits)
  | .vexp d a q => .word (wA 0x2A (Reg.bits d) (Reg.bits a) 0 (0#4 ++ 0#4) q.bits)
  | .vlog d a q => .word (wA 0x2A (Reg.bits d) (Reg.bits a) 0 (1#4 ++ 0#4) q.bits)
  | .vrcp d a q => .word (wA 0x2A (Reg.bits d) (Reg.bits a) 0 (2#4 ++ 0#4) q.bits)
  | .vrsq d a q => .word (wA 0x2A (Reg.bits d) (Reg.bits a) 0 (3#4 ++ 0#4) q.bits)
  | .vsig d a q => .word (wA 0x2A (Reg.bits d) (Reg.bits a) 0 (4#4 ++ 0#4) q.bits)
  | .vtanh d a q => .word (wA 0x2A (Reg.bits d) (Reg.bits a) 0 (5#4 ++ 0#4) q.bits)
  | .vld d b sc o i => .word (wM 0x2B (Reg.bits d) (Reg.bits b) sc.bits o.bits (0#3 ++ i))
  | .vst s b sc o i => .word (wM 0x2B (Reg.bits s) (Reg.bits b) sc.bits o.bits (1#3 ++ i))
  | .vlds d b sc o x => .word (wM 0x2B (Reg.bits d) (Reg.bits b) sc.bits o.bits (2#3 ++ (Reg.bits x) ++ 0#5))
  | .vsts d b sc o x => .word (wM 0x2B (Reg.bits d) (Reg.bits b) sc.bits o.bits (3#3 ++ (Reg.bits x) ++ 0#5))
  | .vgath d b sc o x => .word (wM 0x2B (Reg.bits d) (Reg.bits b) sc.bits o.bits (4#3 ++ (Reg.bits x) ++ 0#5))
  | .vscat d b sc o x => .word (wM 0x2B (Reg.bits d) (Reg.bits b) sc.bits o.bits (5#3 ++ (Reg.bits x) ++ 0#5))
  | .vcmp d a b c q => .word (wA 0x2C (Reg.bits d) (Reg.bits a) (Reg.bits b) (0#4 ++ c.bits) q.bits)
  | .vsel d a b q => .word (wA 0x2C (Reg.bits d) (Reg.bits a) (Reg.bits b) (1#4 ++ 0#4) q.bits)
  | .vperm d a b q => .word (wA 0x2C (Reg.bits d) (Reg.bits a) (Reg.bits b) (2#4 ++ 0#4) q.bits)
  | .vbcast d a q => .word (wA 0x2C (Reg.bits d) (Reg.bits a) 0 (3#4 ++ 0#4) q.bits)
  | .vbcastE d a k q => .word (wA 0x2C (Reg.bits d) (Reg.bits a) (Reg.bits k) (3#4 ++ 8#4) q.bits)
  | .vslideUp d a b q => .word (wA 0x2C (Reg.bits d) (Reg.bits a) (Reg.bits b) (4#4 ++ 0#4) q.bits)
  | .vslideDn d a b q => .word (wA 0x2C (Reg.bits d) (Reg.bits a) (Reg.bits b) (4#4 ++ 8#4) q.bits)
  | .vrsum d a k q => .word (wA 0x2C (Reg.bits d) (Reg.bits a) 0 (5#4 ++ k.bits) q.bits)
  | .vrmax d a i q => .word (wA 0x2C (Reg.bits d) (Reg.bits a) 0 (6#4 ++ bit1 i ++ 0#3) q.bits)
  | .vcvt d a r c q => .word (wA 0x2D (Reg.bits d) (Reg.bits a) r.bits4 (0#4 ++ c.bits) q.bits)
  | .vladd d a b f q => .word (wA 0x2E (Reg.bits d) (Reg.bits a) (Reg.bits b) (0#4 ++ f.bits ++ 0#3) q.bits)
  | .vlmul d a b f q => .word (wA 0x2E (Reg.bits d) (Reg.bits a) (Reg.bits b) (1#4 ++ f.bits ++ 0#3) q.bits)
  | .vlcvt d a c q => .word (wA 0x2E (Reg.bits d) (Reg.bits a) 0 (2#4 ++ c.bits) q.bits)
  | .fadd d a b f r q => .word (wA 0x30 (Reg.bits d) (Reg.bits a) (Reg.bits b) (0#4 ++ f.bits ++ r.bits) q.bits)
  | .fsub d a b f r q => .word (wA 0x30 (Reg.bits d) (Reg.bits a) (Reg.bits b) (1#4 ++ f.bits ++ r.bits) q.bits)
  | .fmul d a b f r q => .word (wA 0x30 (Reg.bits d) (Reg.bits a) (Reg.bits b) (2#4 ++ f.bits ++ r.bits) q.bits)
  | .ffma d a b f r q => .word (wA 0x30 (Reg.bits d) (Reg.bits a) (Reg.bits b) (3#4 ++ f.bits ++ r.bits) q.bits)
  | .fdiv d a b f r q => .word (wA 0x30 (Reg.bits d) (Reg.bits a) (Reg.bits b) (4#4 ++ f.bits ++ r.bits) q.bits)
  | .fsqrt d a f r q => .word (wA 0x30 (Reg.bits d) (Reg.bits a) 0 (5#4 ++ f.bits ++ r.bits) q.bits)
  | .fmin d a b f q => .word (wA 0x30 (Reg.bits d) (Reg.bits a) (Reg.bits b) (6#4 ++ f.bits ++ 0#3) q.bits)
  | .fmax d a b f q => .word (wA 0x30 (Reg.bits d) (Reg.bits a) (Reg.bits b) (7#4 ++ f.bits ++ 0#3) q.bits)
  | .fcmp d a b f c q => .word (wA 0x30 (PReg.bits4 d) (Reg.bits a) (Reg.bits b) (8#4 ++ f.bits ++ c.bits) q.bits)
  | .fcvt d a r c q => .word (wA 0x30 (Reg.bits d) (Reg.bits a) r.bits4 (9#4 ++ c.bits) q.bits)
  | .fclass d a f q => .word (wA 0x30 (Reg.bits d) (Reg.bits a) 0 (10#4 ++ f.bits ++ 0#3) q.bits)
  | .ladd d a b f q => .word (wA 0x31 (Reg.bits d) (Reg.bits a) (Reg.bits b) (0#4 ++ f.bits ++ 0#3) q.bits)
  | .lsub d a b f q => .word (wA 0x31 (Reg.bits d) (Reg.bits a) (Reg.bits b) (1#4 ++ f.bits ++ 0#3) q.bits)
  | .lmul d a b f q => .word (wA 0x31 (Reg.bits d) (Reg.bits a) (Reg.bits b) (2#4 ++ f.bits ++ 0#3) q.bits)
  | .ldiv d a b f q => .word (wA 0x31 (Reg.bits d) (Reg.bits a) (Reg.bits b) (3#4 ++ f.bits ++ 0#3) q.bits)
  | .lcmp d a b f c q => .word (wA 0x31 (PReg.bits4 d) (Reg.bits a) (Reg.bits b) (4#4 ++ f.bits ++ c.bits) q.bits)
  | .lcvt d a r c q => .word (wA 0x31 (Reg.bits d) (Reg.bits a) r.bits4 (5#4 ++ c.bits) q.bits)
  | .lclass d a f q => .word (wA 0x31 (Reg.bits d) (Reg.bits a) 0 (6#4 ++ f.bits ++ 0#3) q.bits)
  | .launch d a q => .word (wA 0x34 (Reg.bits d) (Reg.bits a) 0 (0#4 ++ 0#4) q.bits)
  | .spawn d a q => .word (wA 0x34 (Reg.bits d) (Reg.bits a) 0 (1#4 ++ 0#4) q.bits)
  | .tedge a b q => .word (wA 0x34 0 (Reg.bits a) (Reg.bits b) (2#4 ++ 0#4) q.bits)
  | .tinfo d i q => .word (wA 0x34 (Reg.bits d) 0 i (3#4 ++ 0#4) q.bits)
  | .boost d a q => .word (wA 0x35 (Reg.bits d) (Reg.bits a) 0 (0#4 ++ 0#4) q.bits)
  | .brel q => .word (wA 0x35 0 0 0 (1#4 ++ 0#4) q.bits)
  | .addS d s => .half (hR 1 (Reg.bits d) (Reg.bits s) 0)
  | .subS d s => .half (hR 1 (Reg.bits d) (Reg.bits s) 1)
  | .andS d s => .half (hR 1 (Reg.bits d) (Reg.bits s) 2)
  | .orS d s => .half (hR 1 (Reg.bits d) (Reg.bits s) 3)
  | .xorS d s => .half (hR 2 (Reg.bits d) (Reg.bits s) 0)
  | .andnS d s => .half (hR 2 (Reg.bits d) (Reg.bits s) 1)
  | .shlS d s => .half (hR 2 (Reg.bits d) (Reg.bits s) 2)
  | .shrS d s => .half (hR 2 (Reg.bits d) (Reg.bits s) 3)
  | .sarS d s => .half (hR 3 (Reg.bits d) (Reg.bits s) 0)
  | .minS d s => .half (hR 3 (Reg.bits d) (Reg.bits s) 1)
  | .maxS d s => .half (hR 3 (Reg.bits d) (Reg.bits s) 2)
  | .mulS d s => .half (hR 3 (Reg.bits d) (Reg.bits s) 3)
  | .minuS d s => .half (hR 4 (Reg.bits d) (Reg.bits s) 0)
  | .maxuS d s => .half (hR 4 (Reg.bits d) (Reg.bits s) 1)
  | .clzS d s => .half (hR 4 (Reg.bits d) (Reg.bits s) 2)
  | .ctzS d s => .half (hR 4 (Reg.bits d) (Reg.bits s) 3)
  | .popcS d s => .half (hR 5 (Reg.bits d) (Reg.bits s) 0)
  | .jmpS s => .half (hR 5 0 (Reg.bits s) 1)
  | .calliS s => .half (hR 5 0 (Reg.bits s) 2)
  | .retS => .half (hR 5 0 0 3)
  | .ldwS d s k => .half (hR 6 (Reg.bits d) (Reg.bits s) k)
  | .ldwuS d s k => .half (hR 7 (Reg.bits d) (Reg.bits s) k)
  | .lddS d s k => .half (hR 8 (Reg.bits d) (Reg.bits s) k)
  | .stwS d s k => .half (hR 9 (Reg.bits d) (Reg.bits s) k)
  | .stdS d s k => .half (hR 10 (Reg.bits d) (Reg.bits s) k)
  | .nopS => .half (hR 11 0 0 0)
  | .exitS => .half (hR 11 0 0 1)
  | .yieldS => .half (hR 11 0 0 2)
  | .giveS => .half (hR 11 0 0 3)
  | .tnowS d => .half (hR 12 (Reg.bits d) 0 0)
  | .mjwaitS s => .half (hR 12 0 (Reg.bits s) 1)
  | .joinS s => .half (hR 12 0 (Reg.bits s) 2)
  | .vrelS => .half (hR 12 0 0 3)
  | .xmovS e s => .half (hR 13 (PReg.bits4 e) (Reg.bits s) 0)
  | .tlwaitS s c => .half (hR 14 0 (Reg.bits s) c.bits)
  | .addiS d i => .half (hI 16 (Reg.bits d) i)
  | .andiS d i => .half (hI 17 (Reg.bits d) i)
  | .oriS d i => .half (hI 18 (Reg.bits d) i)
  | .xoriS d i => .half (hI 19 (Reg.bits d) i)
  | .shliS d i => .half (hI 20 (Reg.bits d) i)
  | .shriS d i => .half (hI 21 (Reg.bits d) i)
  | .sariS d i => .half (hI 22 (Reg.bits d) i)
  | .bS d => .half (hJ 24 d)
  | .callS d => .half (hJ 25 d)
  | .fusedSoftmax => .event
  | .interruptTake => .event
  | .mgmtInterruptTake => .event
  | .alarmReached => .event
  | .contextStop => .event
  | .displacement => .event
  | .resume => .event
  | .thermalMigration => .event
  | .sleepExpire => .event
  | .joinComplete => .event
  | .waitevWake => .event
  | .twaituWake => .event
  | .tlwaitWake => .event
  | .mjwaitWake => .event
  | .twanyWake => .event
  | .twallWake => .event
  | .fifoWaitComplete => .event
  | .hintAlignRelease => .event
  | .poolGrant => .event
  | .laneGrant => .event
  | .aflushComplete => .event
  | .bankDrainComplete => .event
  | .loadReplyLand => .event
  | .tldServe => .event
  | .timedStoreArrive => .event
  | .timedStoreAck => .event
  | .storeRetry => .event
  | .plainStoreArrive => .event
  | .writebackArrive => .event
  | .atomicAtHome => .event
  | .mergeArrive => .event
  | .homeTickApply => .event
  | .shadowEntryDiscard => .event
  | .tick => .event
  | .matrixJobStart => .event
  | .matrixJobFinish => .event
  | .copyStart => .event
  | .copyResume => .event
  | .copyAbort => .event
  | .copyQueueHead => .event
  | .copyIterationRelease => .event
  | .copyDelivered => .event
  | .copyComplete => .event
  | .copyFreeze => .event
  | .forwardedTag => .event
  | .heldAccessRelease => .event
  | .fifoPush => .event
  | .fifoPull => .event
  | .vectorMemoryComplete => .event
  | .packetSend => .event
  | .packetArrive => .event
  | .packetRetry => .event
  | .rldReply => .event
  | .fetchtoSourceRead => .event
  | .fetchtoReplyArrive => .event
  | .fetchtoAck => .event
  | .launchAccept => .event
  | .taskEnterTable => .event
  | .renameCommit => .event
  | .coreChoice => .event
  | .footprintLanded => .event
  | .taskDispatch => .event
  | .taskRetireComplete => .event
  | .taskFailureComplete => .event
  | .launchResolve => .event
  | .deadlinePass => .event
  | .shapeExpire => .event
  | .controlIntervalEnd => .event
  | .brakeStepEnd => .event
  | .linkTrainingComplete => .event
  | .linkFrameSend => .event
  | .linkFrameReceive => .event
  | .linkAckReceive => .event
  | .linkHoldTimeout => .event
  | .keygo => .event
  | .tlbinv => .event
  | .plimWrite => .event
  | .evqPop => .event
  | .rollbackWrite => .event
  | .peernoWrite => .event
  | .lcstateWrite => .event
  | .fcmdRead => .event
  | .fcmdProgram => .event
  | .fcmdErase => .event
  | .flashCommandComplete => .event
  | .formatRegionEnable => .event
  | .huskclr => .event
  | .throttleWrite => .event
  | .alertqPop => .event
  | .doorbell => .event
  | .reload => .event
  | .hevqPop => .event
  | .lportSubmit => .event
  | .ago => .event
  | .reportComplete => .event
  | .hmemAccess => .event
  | .registerWrite => .event
  | .coldStart => .event
  | .warmStart => .event
  | .backgroundWipeGranule => .event
  | .divideUnitComplete => .event
  | .recurrenceUnitComplete => .event
  | .migrationSwitch => .event
  | .linkRetrain => .event

/-- The bytes of an encoding, low address first: each halfword little-endian, the high half of a word first (R33). -/
def Encoded.bytes : Encoded → List Byte
  | .half h => [h.extractLsb' 0 8, h.extractLsb' 8 8]
  | .word w => [w.extractLsb' 16 8, w.extractLsb' 24 8, w.extractLsb' 0 8, w.extractLsb' 8 8]
  | .event => []

/-- Two bytes as a halfword, little-endian. -/
def halfOf (lo hi : Byte) : Half := hi ++ lo

/-- Decode the first instruction of a byte sequence and give the bytes that follow it; `none` for an illegal encoding,
or when the bytes end inside the instruction (R33, R46). -/
def decodeBytes : List Byte → Option (Instr × List Byte)
  | b0 :: b1 :: rest =>
    let h := halfOf b0 b1
    if h.extractLsb' 15 1 = 0#1 then (decode16 h).map (·, rest)
    else match rest with
      | b2 :: b3 :: rest' => (decode32 (h ++ halfOf b2 b3)).map (·, rest')
      | _ => none
  | _ => none

/-- The length in bytes of the instruction that a first halfword begins (R33). -/
def lengthOf (h : Half) : Nat := if h.extractLsb' 15 1 = 0#1 then 2 else 4

/-- The length in bytes of an encoded instruction; 0 for a step without an encoding. -/
def Instr.length (i : Instr) : Nat := (encode i).bytes.length

/-- TVAL of a trap that reports the instruction itself: the word, or the halfword zero-extended (R45, R98). -/
def Instr.tval (i : Instr) : Word :=
  match encode i with
  | .half h => h.setWidth 64
  | .word w => w.setWidth 64
  | .event => 0

/-- The instruction whose bits the opcode table numbers as `w`: a row of at most 16 bits is one halfword, a longer row
one 32-bit word, laid out as the device stores it. -/
def tableBytes (nbits w : Nat) : List Byte :=
  if nbits ≤ 16 then (Encoded.half (BitVec.ofNat 16 w)).bytes else (Encoded.word (BitVec.ofNat 32 w)).bytes

/-- The instruction that decoding reads from the table word `w`. -/
def decodeTableWord (nbits w : Nat) : Option Instr := (decodeBytes (tableBytes nbits w)).map (·.1)

end Sys2Proof
end

