-- ==== Sys2Proof/Machine/State.lean ====
section
/-! DEFINITION. The state of the Siltex K8: one structure per unit, sparse tables of units, and the state after reset.
A unit that a table does not list is as at reset. Reset values the spec does not give are named in log 3. -/

namespace Sys2Proof.Machine

/-- Units by number, rising; a number not listed is at its reset value. -/
abbrev Table (α : Type) := List (Nat × α)

/-- Bytes by address, strictly rising, none of them zero, and the numbers of the 8-byte units whose poison tag is set,
strictly rising (R189). A byte not listed is zero and a unit not listed is clean (R423, R424). -/
structure Memory where
  bytes : List Host.Cell
  poison : List Nat
  deriving DecidableEq, Repr

/-- Memory that lists nothing. -/
def Memory.empty : Memory := ⟨[], []⟩

/-! ### Contexts (04, 05, 06, 10) -/

/-- R89. -/
inductive CtxState where
  | free | ready | waiting | stopped | ended
  deriving DecidableEq, Repr

/-- A register that a split-phase result is still to reach (R120, R193). -/
inductive RegName where
  | g (r : Reg)
  | e (r : EReg)
  | v (r : VRegN)
  deriving DecidableEq, Repr

/-- A pooled vector register: 64 bytes and a poison tag for each 8 bytes (R147, R189). -/
structure VReg where
  data : BitVec 512
  poison : BitVec 8
  deriving DecidableEq, Repr

/-- The packet a context is building (R376): destination word, window address with .W, payload doublewords, the address
of its PKO, and the instructions issued since (R377). -/
structure OpenPacket where
  dest : Word
  window : Option Word
  flits : List PWord
  pko : Word
  issued : Nat
  deriving DecidableEq, Repr

/-- LCk, LSk, LEk (R137). -/
structure Loop where
  lc : Word
  ls : Word
  le : Word
  deriving DecidableEq, Repr

/-- Vector lanes of a context: grant G, request Q, SHRINK and VL (R229, R232, R233), and the G that a stop for a move has
released (R235). -/
structure Lanes where
  g : Nat
  q : Nat
  shrink : Bool
  vl : Nat
  kept : Nat
  deriving DecidableEq, Repr

/-- The mode and trap registers of a context (R101 to R103). -/
structure TrapRegs where
  priv : BitVec 2
  ppriv : BitVec 2
  pkab : Bool
  tcause : Word
  tval : Word
  xpc0 : Word
  xpc1 : Word
  xpc2 : Word
  deriving DecidableEq, Repr

/-- One issue context. -/
structure Ctx where
  st : CtxState
  /-- the instruction a WAITING (or so stopped) context is inside -/
  wait : Option Instr
  /-- contexts a YIELD still waits for (R95) -/
  yield : List CtxId
  /-- MODEL'S OWN, for R95: the tick before which the sleep of a context cannot have lasted its cycles -/
  due : Word
  pc : Word
  /-- `none`: unresolved (R131) -/
  npc : Option Word
  nnpc : Option Word
  /-- delay slots still to run (R131, R135) -/
  slots : Nat
  /-- MODEL'S OWN, for R131: seq(pc), once the first halfword at `pc` has been fetched for issue -/
  fetched : Option Word
  g : Vector PWord 16
  p : Vector PBit 8
  e : Vector PWord 8
  /-- registers whose result has not landed, with the number of the operation that brings it -/
  pend : List (RegName × Nat)
  nmode : Word
  nflags : Word
  tr : TrapRegs
  ien : Word
  ipend : Word
  alarm : Word
  evpend : Word
  tstat : Word
  loops : Vector Loop 3
  /-- pooled registers held (R147) -/
  count : Nat
  v : Vector VReg 16
  lanes : Lanes
  packet : Option OpenPacket
  /-- MODEL'S OWN, for R181: which user of the context number this is -/
  gen : Nat
  /-- MODEL'S OWN, for R112: its save slot does not hold it, since CTXLOAD left it STOPPED -/
  unsaved : Bool
  deriving DecidableEq, Repr

/-- A task: its sector, its table slot, and the order in which it entered that table, which no other task shares. -/
structure TaskRef where
  sec : Nat
  slot : Nat
  order : Nat
  deriving DecidableEq, Repr

/-! ### Cores -/

/-- Storage places an access can reach (R185 to R190, R367, R413). A place is storage, not an address (R290). -/
inductive Place where
  /-- a local store: physical core and offset -/
  | ls (core : CoreId) (off : Nat)
  /-- the issuing core's injection window -/
  | inj (core : CoreId) (off : Nat)
  /-- its receive window -/
  | rx (core : CoreId) (off : Nat)
  /-- a cluster bank byte in scratch or FIFO mode: cluster and offset in the 64 KiB -/
  | sram (cl : Nat) (off : Nat)
  /-- a copy aperture: channel and offset -/
  | aperture (ch : Nat) (off : Nat)
  /-- the peer local-store window: logical core and offset -/
  | peerLs (lcn : Nat) (off : Nat)
  /-- a physical byte of this device, with the timed flag of the page it was reached by -/
  | phys (pa : Nat) (timed : Bool)
  /-- a physical byte of a peer device -/
  | peer (num : Nat) (pa : Nat)
  /-- the management window -/
  | mwin (off : Nat)
  deriving DecidableEq, Repr

/-- How a load treats what it finds. -/
inductive LoadKind where
  | plain
  /-- a TLD as of an absolute instant of its home -/
  | timed (t : Word)
  /-- such a TLD that has reached its home and waits for the tick to close (R167) -/
  | timedWait (t : Word)
  /-- a returning atomic and its operand -/
  | atom (op : AtomOp) (x : PWord)
  deriving DecidableEq, Repr

/-- A load, timed load or returning atomic still outstanding (R195). -/
structure LoadEntry where
  id : Nat
  ctx : CtxId
  dst : RegName
  place : Place
  n : Nat
  signed : Bool
  acq : Option Scope
  kind : LoadKind
  /-- the value once it is fixed at the home -/
  reply : Option PWord
  stale : Bool
  deriving DecidableEq, Repr

/-- What an access says about history: a timed page, a page without the flag, or no page at all (R166). -/
inductive Hist where
  | timed | untimed | noPage
  deriving DecidableEq, Repr

/-- What a port entry does when it is performed. -/
inductive PortKind where
  | plain
  /-- a timed store: absolute instant of its home -/
  | timed (t : Word)
  /-- an accumulation sent to the home because its task is speculative (R210) -/
  | acc (op : AtomOp)
  /-- a copy start waiting for room in its channel's queue (R279): channel, template index, captured image, PSRC, PDST,
  mode, first TLC number -/
  | start (ch : Fin 8) (tidx : BitVec 6) (image : List Word) (psrc pdst : Word) (sup : Bool) (num : Nat)
  deriving DecidableEq, Repr

/-- One entry of a core's store port (R195). -/
structure PortEntry where
  id : Nat
  ctx : CtxId
  place : Place
  n : Nat
  val : PWord
  kind : PortKind
  /-- refused by a full queue in this tick, and kept (R176) -/
  refused : Option Word
  /-- it has been refused before: its acknowledgement reports RETRY (R174) -/
  retried : Bool
  /-- the TLV number it belongs to -/
  tlv : Option Nat
  /-- the task that issued it while speculative (R178), and the user of the context number (R181) -/
  held : Option TaskRef
  gen : Nat
  deriving DecidableEq, Repr

/-- One vector memory instruction whose TLV number is not complete (R298): element places (`none`: Poison(0)). -/
structure VecEntry where
  id : Nat
  num : Nat
  ctx : CtxId
  load : Bool
  reg : VRegN
  places : List (Option Place)
  /-- elements of a load already read -/
  got : List (Option PWord)
  acq : Option Scope
  deriving DecidableEq, Repr

/-- An operation in the divide or recurrence unit, with the result it will write (R88, R218). -/
structure UnitOp where
  ctx : CtxId
  dst : RegName
  id : Nat
  val : PWord
  flags : Word
  deriving DecidableEq, Repr

/-- R142. -/
inductive GuardState where
  | unresolved | isTrue | isFalse | free
  deriving DecidableEq, Repr

/-- CNT, ISSUED and the numbers completed out of order (R298). -/
structure Timeline where
  cnt : Word
  issued : Word
  ahead : List Nat
  deriving DecidableEq, Repr

/-- R385. -/
structure DropWin where
  base : Word
  size : Nat
  tenant : BitVec 12
  deriving DecidableEq, Repr

/-- A packet held in the receive queue (R373): sender, first slot, payload doublewords (two a flit). -/
structure RxPacket where
  srcPeer : BitVec 16
  srcLcn : BitVec 18
  slot : Nat
  data : List PWord
  deriving DecidableEq, Repr

/-- A packet in the send buffer (R376), with its sender's logical core and tenant. -/
structure SendPacket where
  lcn : BitVec 18
  tenant : BitVec 12
  dest : Word
  window : Option Word
  data : List PWord
  /-- the task that sent it -/
  task : Option TaskRef
  deriving DecidableEq, Repr

/-- A command of the remote request queue (R381): FETCHTO or RLD, its operands, its recipient word, its TLF number, and its
place in the order of the core's accesses (R360). -/
structure RemoteCmd where
  id : Nat
  task : Option TaskRef
  fetchto : Bool
  ctx : CtxId
  dst : Word
  src : Word
  rw : Word
  n : Nat
  guard : Guard
  num : Nat
  sup : Bool
  deriving DecidableEq, Repr

/-- A FETCHTO whose recipients have not all answered (R384): the number its messages carry, its TLF number, ATAG, source and
destination, answers still to come, and whether any has failed. -/
structure FetchOut where
  id : Nat
  num : Nat
  atag : Nat
  src : Word
  dst : Word
  left : Nat
  failed : Bool
  deriving DecidableEq, Repr

/-- One entry of a core's job status ring (R260): the number and the status word without JOBNO (R264). -/
structure JobStat where
  no : BitVec 16
  status : Word
  done : Bool
  deriving DecidableEq, Repr

/-- A HINT.ALIGN hold: its context, address, mask, and the positions that have arrived since it began (R124). -/
structure AlignHold where
  ctx : CtxId
  addr : Word
  mask : BitVec 16
  arrived : BitVec 16
  deriving DecidableEq, Repr

/-- Why a core's contexts are being stopped (R106, R109, R110, R118). -/
inductive StopReq where
  | displace
  | migrate (dst : CoreId)
  | fail (cause : Word) (value : Word)
  deriving DecidableEq, Repr

/-- What a core takes from its task at dispatch (R90, R161, R179, R318). -/
structure Binding where
  task : Option TaskRef
  tenant : BitVec 12
  drop : Bool
  scope : Scope
  tvec : Word
  tbase : Word
  deriving DecidableEq, Repr

/-- The receive queue: packets held, oldest first, and the next slot of the ring (R373). -/
structure RxQueue where
  held : List RxPacket
  next : Nat
  deriving DecidableEq, Repr

/-- MODEL'S OWN, for R404: what a core has done since the control interval began: instructions issued, bit-products and lane
operations, bytes copied, and flits put on the fabric. -/
structure Activity where
  issued : Nat
  products : Nat
  laneOps : Nat
  copied : Nat
  flits : Nat
  deriving DecidableEq, Repr

/-- Engines and ports of a core that are still at work. -/
structure CoreWork where
  loads : List LoadEntry
  port : List PortEntry
  vecs : List VecEntry
  div : Option UnitOp
  divQ : List CtxId
  rcr : Option UnitOp
  rcrQ : List CtxId
  send : List SendPacket
  rq : List RemoteCmd
  fetches : List FetchOut
  aligns : List AlignHold
  deriving DecidableEq, Repr

/-- One core: 262,144 compute cores and the management core. -/
structure Core where
  /-- the logical core number mapped to this core (R117) -/
  lcn : BitVec 18
  bind : Binding
  /-- the context that issued last (R120) -/
  last : CtxId
  ctxs : Vector Ctx 11
  ls : Memory
  inj : Memory
  rx : RxQueue
  /-- least FREE since dispatch, and the claims that wait (R150, R156) -/
  low : Nat
  poolQ : List (CtxId × Nat)
  tags : Word
  tagerr : Word
  tlm : Timeline
  tlc : Timeline
  tlf : Timeline
  tlv : Timeline
  guards : Vector GuardState 8
  drops : Vector (Option DropWin) 4
  faults : List Word
  work : CoreWork
  jobs : List JobStat
  psrc : Vector Word 8
  pdst : Vector Word 8
  lease : Word
  /-- the point it runs at, and the point it asked for when that was set (R405, R406) -/
  point : Nat
  ask : Nat
  coret : BitVec 16
  act : Activity
  stop : Option StopReq
  /-- its copy of the time base leads by a tick (R160) -/
  lead : Bool
  deriving DecidableEq, Repr

/-! ### Octets (10, 11, 12) -/

/-- A claim in the lane queue (R230). -/
structure LaneClaim where
  core : CoreId
  ctx : CtxId
  q : Nat
  /-- the width held before a displacement; 0 for a VCLAIM (R235) -/
  saved : Nat
  deriving DecidableEq, Repr

/-- One row of an accumulator tile (R253): 32 significands T, exponent XT, poison and saturation. -/
structure TileRow where
  t : List Int
  xt : Int
  poison : Bool
  sat : Bool
  deriving DecidableEq, Repr

/-- An accumulator tile: owner position, and its 32 rows. -/
structure AccTile where
  owner : Option Nat
  rows : List TileRow
  deriving DecidableEq, Repr

/-- An operand register (R253): owner, PREC, SGN, FLT, planes of 32 words, exponents, poison and EMPTY. -/
structure OpReg where
  owner : Option Nat
  prec : Nat
  sgn : Bool
  flt : Bool
  planes : List (List (BitVec 32))
  exps : List Int
  poison : BitVec 32
  empty : Bool
  deriving DecidableEq, Repr

/-- A job in an octet's queue (R259): the command, its copied operands, number, issuer and guard. -/
structure Job where
  cmd : Instr
  arg : Word
  dsc : Word
  no : BitVec 16
  num : Nat
  core : CoreId
  ctx : CtxId
  guard : Guard
  /-- removed from the books of its task (R275): it sets no tag and no TLM -/
  orphan : Bool
  /-- an MMR that has sent its tiles: its status so far -/
  status : Word
  /-- what it has taken in so far: source units of a load as it read them, receive slots of an MSCL -/
  snap : List (Option PWord)
  /-- MODEL'S OWN, for R262: elements of an MRDA that have landed, one bit each -/
  early : Word
  deriving DecidableEq, Repr

/-- A collective step (R270): which binding of its group it counts from, and its number. -/
structure MmrStep where
  bind : Nat
  n : Nat
  deriving DecidableEq, Repr

/-- A tile that the rotation torus brings (R270): the step it belongs to, whether it is an A tile, and the tile. -/
structure TorusTile where
  step : MmrStep
  isA : Bool
  tile : OpReg
  deriving DecidableEq, Repr

/-- A copy start as captured (R279). -/
structure CopyStart where
  id : Nat
  core : CoreId
  ctx : CtxId
  task : Option TaskRef
  tenant : BitVec 12
  sup : Bool
  tidx : BitVec 6
  image : List Word
  psrc : Word
  pdst : Word
  num : Nat
  deriving DecidableEq, Repr

/-- STATE of a channel (R293). -/
inductive ChanState where
  | idle | running | frozen | waitRelease
  deriving DecidableEq, Repr

/-- One write of a copy on its way to its home (R288). -/
structure CopyWrite where
  num : Nat
  place : Place
  addr : Nat
  n : Nat
  val : PWord
  refused : Option Word
  deriving DecidableEq, Repr

/-- One copy channel (R276, R277, R293). -/
structure Chan where
  state : ChanState
  cur : Option CopyStart
  /-- the next element of the iteration, and the iteration -/
  elem : Nat
  iter : Nat
  /-- row pointers of a walk, once read (R284) -/
  walk : Nat × Nat
  /-- writes not yet performed at their homes, oldest first; delivered numbers not yet complete -/
  writes : List CopyWrite
  delivered : List Nat
  queue : List CopyStart
  /-- bits 15:8 of STATUS, and the template of the current or last copy -/
  flags : BitVec 8
  tidx : BitVec 6
  owner : Nat
  wmark : Word
  dlo : Word
  dhi : Word
  faddr : Word
  csrcnt : Word
  deriving DecidableEq, Repr

/-- One octet. -/
structure Octet where
  laneQ : List LaneClaim
  tiles : Vector AccTile 8
  /-- ma0, ma1, mb0, mb1 -/
  ops : Vector OpReg 4
  queue : List Job
  running : Option Job
  next : BitVec 16
  lastPos : Nat
  /-- the step the next MMR takes, and the one the running MMR has taken; `bind` counts how often the group has been bound -/
  mmrNext : MmrStep
  mmrNow : MmrStep
  torus : List TorusTile
  templates : Table (List Word)
  chans : Vector Chan 8
  deriving DecidableEq, Repr

/-! ### Clusters (08, 15, 16) -/

/-- R196. -/
inductive BankMode where
  | cache | scratch | fifo
  deriving DecidableEq, Repr

/-- An access that waits on a FIFO bank: its context, whether it pushes, and its entries (R201). -/
structure FifoWait where
  core : CoreId
  ctx : CtxId
  push : Bool
  k : Nat
  deriving DecidableEq, Repr

/-- A FIFO-mode bank (R201): entries oldest first, HIGH, and the accesses that wait, in the order they began to. -/
structure Fifo where
  ents : List PWord
  high : Nat
  waiters : List FifoWait
  deriving DecidableEq, Repr

/-- A line of the cluster cache (R200): physical line number (and peer), validity and dirtiness of each byte, data,
poison by unit, writer mask, the position that pinned it, and the timed flag of the page. -/
structure Line where
  peer : Nat
  line : Nat
  valid : BitVec 64
  dirty : BitVec 64
  data : BitVec 512
  poison : BitVec 8
  writers : BitVec 16
  pin : Option Nat
  timed : Bool
  /-- MODEL'S OWN, for R345: positions whose own write reached the home after this line was filled -/
  behind : BitVec 16
  /-- MODEL'S OWN, for R36: when bytes of it were last dirtied, in the numbering of `seq` -/
  stored : Nat
  deriving DecidableEq, Repr

/-- Dirty bytes on their way to their home (R194). -/
structure WriteBack where
  id : Nat
  line : Line
  deriving DecidableEq, Repr

/-- An entry of the accumulation buffer (R210); the same shape travels as a merge (R211). -/
structure AccEntry where
  id : Nat
  place : Place
  op : AtomOp
  n : Nat
  val : PWord
  mask : BitVec 16
  deriving DecidableEq, Repr

/-- A leaf held in a cluster TLB (R395, R397): tenant whose space it maps, page base and size, and the leaf. -/
structure TlbEntry where
  space : BitVec 12
  vbase : Nat
  size : Nat
  frame : Nat
  timed : Bool
  r : Bool
  w : Bool
  x : Bool
  owner : BitVec 12
  peer : BitVec 16
  deriving DecidableEq, Repr

/-- The registers of a cluster power block that hold what is written or observed (R414), and the caps (R405). -/
structure Power where
  throttle : Nat
  sensReading : BitVec 16
  sensPos : Nat
  alert : Word
  tlimCap : BitVec 16
  tlimMig : BitVec 16
  bslots : Nat
  pest : Word
  applied : Nat
  cause : Nat
  curCap : Option Nat
  thermCap : Option Nat
  lkt : List Word
  tpts : Word
  deriving DecidableEq, Repr

/-- One cluster. -/
structure Cluster where
  modes : Vector BankMode 16
  sram : Memory
  /-- MODEL'S OWN, for R199: banks in scratch mode, with the number of the first free value that stands for what the
  bank held, and the offsets written since -/
  wild : Table (Nat × List Nat)
  fifos : Table Fifo
  /-- lines held, most recently used first -/
  lines : List Line
  wbs : List WriteBack
  acc : List AccEntry
  merges : List AccEntry
  /-- most recently used first -/
  tlb : List TlbEntry
  /-- when the instruction cache was last invalidated, in the numbering of `seq` (R36) -/
  icacheAt : Nat
  /-- launches that hold the cluster: sector and launch key -/
  launches : List (Nat × Nat)
  power : Power
  deriving DecidableEq, Repr

/-! ### Home slices (07) -/

/-- An entry of a timed write queue (R164): a store waiting for its instant, or a held write of a speculative task. -/
structure TqEntry where
  id : Nat
  pa : Nat
  hist : Hist
  n : Nat
  val : PWord
  /-- `none`: a plain write, applied on release -/
  instant : Option Word
  acc : Option AtomOp
  held : Option TaskRef
  arrived : Word
  /-- bytes of the unit written over since the entry took its place in its task's own view (R347), by tick -/
  covered : List (Word × Nat)
  origin : Origin
  drop : Bool
  deriving DecidableEq, Repr

/-- An entry of the shadow store (R166). -/
structure ShadowEntry where
  unit : Nat
  tick : Word
  old : PWord
  deriving DecidableEq, Repr

/-- MODEL'S OWN, for R36: a value that a unit of HBM held before it changed, with the number `seq` stood at. -/
structure OldUnit where
  unit : Nat
  at_ : Nat
  old : PWord
  deriving DecidableEq, Repr

/-- A shape word that an accepted speculative launch waits for (R324): its unit, the launch's sector and key, and the tick
and value of the first application that left VALID set. -/
structure Watch where
  unit : Nat
  home : Nat
  key : Nat
  seen : Option (Word × PWord)
  deriving DecidableEq, Repr

/-- One home slice. -/
structure Slice where
  tq : List TqEntry
  /-- oldest first -/
  shadow : List ShadowEntry
  /-- MODEL'S OWN, for R167: the last tick of a change to a unit that no shadow entry holds, by a page with the timed
  flag clear or by a discarded entry -/
  lost : Table Word
  /-- MODEL'S OWN, for R166: pre-images of changes by accesses that name no page -/
  ghost : List ShadowEntry
  /-- the tick whose named stores have been applied (R165), `none` before the first -/
  applied : Option Word
  husk : Table (List Word)
  huskNext : Nat
  huskTotal : BitVec 32
  watch : List Watch
  /-- MODEL'S OWN, for R36: earlier values of units, latest first -/
  olds : List OldUnit
  deriving DecidableEq, Repr

/-! ### Sectors, groups and launches (13) -/

/-- Where a task of the dependence table stands. -/
inductive TaskPhase where
  /-- in its queue, without a core -/
  | queued
  /-- its core is reserved and its footprint is being fetched -/
  | fetching (core : CoreId)
  /-- the fetch waits at its homes for the tick of the release instant to close (R167, R182) -/
  | awaiting (core : CoreId)
  /-- its footprint has landed -/
  | landed (core : CoreId)
  | running (core : CoreId)
  /-- displaced to its spill page -/
  | displaced
  /-- its EXIT retired and its retire is not yet complete -/
  | retiring (core : CoreId)
  | failing (core : CoreId) (cause value : Word)
  /-- retired or failed while speculative: it keeps its slot until its launch resolves -/
  | retired
  | failed
  deriving DecidableEq, Repr

/-- A 4 KiB frame: one of the sector's rename pool, or any other by its number (R316). -/
inductive Frame where
  | pool (i : Nat)
  | other (n : Nat)
  deriving DecidableEq, Repr

/-- A renamed page of a table (R316): virtual page and tenant, its new frame, the frame before it, and the writer. -/
structure Rename where
  vpage : Nat
  tenant : BitVec 12
  new : Frame
  old : Frame
  writer : Nat
  /-- the writer's retire is complete -/
  done : Bool
  deriving DecidableEq, Repr

/-- A task of a dependence table (R308 to R316). `home` is the sector whose engine accepted its launch. -/
structure Task where
  gen : BitVec 6
  home : Nat
  launch : Nat
  desc : List Word
  phase : TaskPhase
  spec : Bool
  tail : Bool
  spawned : Bool
  queue : Nat
  /-- slots of tasks it follows -/
  preds : List Nat
  /-- the order in which tasks entered the table -/
  order : Nat
  release : Option Word
  /-- the tick after the latest retire of a predecessor (R182) -/
  after : Option Word
  /-- since when it has been the head of its queue -/
  waited : Word
  rereleases : Nat
  /-- the unresolved speculative launches it follows (R326): sector and key -/
  mask : List (Nat × Nat)
  /-- placement: least number and count of the cores it may run on; of a spawned task, its spawner's core and 0 (R320) -/
  lo : Nat
  count : Nat
  /-- acknowledgements kept while it is displaced (R181): context and its user, late, dropped, retried -/
  acks : List (CtxId × Nat × Bool × Bool × Bool)
  parent : Option Nat
  /-- what a displaced task's core held (R112); the spill page says what it has on resume, where its layout is given -/
  parked : Option Core
  /-- matrix jobs withdrawn from the octet's queue (R112), oldest first -/
  withdrawn : List Job
  /-- of a displaced task, the time base its core held when it left (R160) -/
  left : Word
  /-- TVEC at dispatch: of a spawned task, its spawner's (R320) -/
  tvec : Word
  deriving DecidableEq, Repr

/-- An accepted launch (R304, R333). -/
structure Launch where
  num : BitVec 16
  tenant : BitVec 12
  addr : Word
  rec_ : List Word
  base : List Word
  tbase : Word
  spec : Bool
  predicted : Nat
  trueCount : Nat
  /-- the next LINEAR that may enter, and the indices of the predicted level that enter in this pass: the first pass, and
  the tail that follows it (R325) -/
  nextLin : Nat
  low : Nat
  high : Nat
  tail : Bool
  /-- domains held by instances: level, instance, domain (R306) -/
  places : List (Nat × Nat × Nat)
  /-- domains whose instances are over, in the order they became free, and domains taken so far, latest first: level, domain -/
  freed : List (Nat × Nat)
  taken : List (Nat × Nat)
  deadline : Bool
  shapebad : Bool
  noshape : Bool
  ended : Bool
  retired : Nat
  squashed : Nat
  rereleases : Nat
  failed : Nat
  firstCause : Word
  firstVal : Word
  firstLin : Nat
  /-- the stage table, and the cores the governor has moved: stage, and tick of the move (R331, R332) -/
  stages : List Word
  moves : Table (Nat × Word)
  deriving DecidableEq, Repr

/-- A launch that awaits acceptance in the intake (R320): record address, tenant, number, and the host slot of a host
submission. Its record is copied on acceptance (R304). One in a core's window, where the engine cannot read it later, is held
here with its base descriptor (log 12). -/
structure Intake where
  addr : Word
  tenant : BitVec 12
  num : BitVec 16
  slot : Option (Fin 16)
  held : Option (List Word × List Word)
  deriving DecidableEq, Repr

/-- An entry of the Sprout table (R323): key and up to four true counts, latest first. -/
structure SproutEntry where
  key : Nat
  counts : List Nat
  deriving DecidableEq, Repr

/-- One sector's task engine. -/
structure Sector where
  tasks : Table Task
  /-- generation each slot will take next -/
  gens : Table (BitVec 6)
  /-- queue contents in order of entry, by queue number -/
  queues : Table (List Nat)
  intake : List Intake
  launches : Table Launch
  nextNum : BitVec 16
  nextKey : Nat
  nextOrder : Nat
  sprout : List SproutEntry
  spill : Word
  freeFrames : List Frame
  /-- renamed pages not yet committed, oldest first -/
  renames : List Rename
  deriving DecidableEq, Repr

/-- The reservation of a group (R306). -/
structure Group where
  /-- launch (sector, key) the group is reserved for -/
  whole : Option (Nat × Nat)
  deriving DecidableEq, Repr

/-! ### Fabric messages in flight (15, 12, 07) -/

/-- A message on its way. -/
inductive Msg where
  /-- a packet: sender, destination word, window, payload, tenant, the tick in which it was refused -/
  | packet (srcPeer : BitVec 16) (srcLcn : BitVec 18) (tenant : BitVec 12) (dest : Word) (window : Option Word)
      (data : List PWord) (refused : Option Word)
  /-- a forwarded tag-setting completion: recipient, tag, error, and the task it is for (R286) -/
  | tag (lcn : BitVec 18) (tag : BitVec 6) (err : Bool) (task : Option TaskRef)
  /-- a FETCHTO reply: the requester's device (0: this one), the requester (as `lcnOf` names it), its command, tenant, the
  recipient's device and core, destination, tag, data or a source fault -/
  | reply (dev : BitVec 16) (req : Nat) (num : Nat) (tenant : BitVec 12) (peer : BitVec 16) (lcn : BitVec 18) (dst : Word)
      (rtag : BitVec 6) (data : List PWord) (fault : Option Nat)
  /-- an answer of a recipient: the recipient, the requester's device, the requester, its command, failure kind -/
  | ack (from_ : BitVec 18) (dev : BitVec 16) (req : Nat) (num : Nat) (fail : Option Nat)
  /-- an acknowledgement of a timed store: issuer (its logical core, or the management core's number), its context and that
  context's user, late, dropped, retried -/
  | tstAck (task : Option TaskRef) (who : Nat) (ctx : CtxId) (gen : Nat) (late drop retry : Bool)
  /-- a peer's access on its way to a home of this device (R184, R190); a TLD that has reached it waits for its tick (R167) -/
  | access (from_ : Origin) (pa : Nat) (timed : Bool) (req : PeerReq) (waits : Bool)
  /-- the answer of a home of this device to a peer -/
  | answer (back : Origin) (a : PeerAnswer)
  deriving DecidableEq, Repr

/-! ### Chestnut: spine, links, flash, host window, management core (15, 16) -/

/-- Link states (R390). -/
inductive LinkState where
  | train | run | hold | down
  deriving DecidableEq, Repr

/-- One up-link (R389 to R392). -/
structure Link where
  state : LinkState
  key : List Word
  /-- bits 94:0 of both directions' counters -/
  txCtr : Nat
  rxCtr : Nat
  rekey : Bool
  prim : Bool
  badFrames : Nat
  holdSince : Word
  /-- packets sent and not acknowledged, by number -/
  unacked : List Nat
  deriving DecidableEq, Repr

/-- A format region (R398, R399). -/
structure Region where
  vbase : Word
  vsize : Word
  sbase : Word
  slimit : Word
  cb : Word
  ctl : Word
  holes : Word
  refused : Bool
  werr : Bool
  pcount : BitVec 32
  codebook : List Half
  deriving DecidableEq, Repr

/-- The flash block and the spine flash (R427): a byte of the image slot that is not listed is all ones. -/
structure Flash where
  cells : List Host.Cell
  faddr : Word
  fdata : Memory
  busy : Option (BitVec 2)
  err : Bool
  /-- FADDR and FDATA as the running command took them when it was issued -/
  runAddr : Word
  runData : Memory
  /-- bytes 0x000_0000 to 0x00F_FFFF, which only Chestnut reads and writes: the stored HBM training values (R422, R427) -/
  training : Option (List Byte)
  deriving DecidableEq, Repr

/-- The spine block (R413, R425, R428, R431) and power control of Chestnut (R405, R407). -/
structure Spine where
  stage : BitVec 4
  err : BitVec 4
  hbmw : Bool
  boots : BitVec 16
  lc : BitVec 8
  lcNext : BitVec 8
  lcPend : Bool
  rollback : Nat
  ign : Bool
  peerno : BitVec 16
  plim : Nat
  brake : Nat
  braked : BitVec 32
  /-- steps ended since reset, and the reports added up at the last of them that did not end an interval (R407) -/
  steps : Nat
  used : Nat
  evq : List Word
  hevq : List Word
  slots : Vector (BitVec 12) 16
  peers : Table (Word × Word)
  tenants : Table (Word × BitVec 8)
  /-- version and digest of the running image -/
  version : Word
  fwDigest : List Word
  deriving DecidableEq, Repr

/-- The management core's own registers (R415). -/
structure Mgmt where
  mie : Bool
  mpp : BitVec 2
  mcause : Word
  mtval : Word
  mvec : Word
  mxpc0 : Word
  mxpc1 : Word
  mxpc2 : Word
  mien : Word
  host : Bool
  alerts : List Word
  alertDropped : Bool
  halted : Bool
  /-- fetch stopped by a fault with MIE = 0 -/
  dead : Bool
  deriving DecidableEq, Repr

/-- The host window (R417 to R421, R429). -/
structure HostWindow where
  hmemsel : Word
  hevctl : Word
  hevaddr : Word
  /-- accepted launches, last number, last refused, by host slot -/
  lports : Vector (BitVec 32 × BitVec 16 × Bool) 16
  nonce : List Byte
  report : List Byte
  ready : Bool
  forming : Bool
  /-- the last word the host read, and the words written to host memory: address and value -/
  lastRead : Word
  writes : List (Word × Word)
  deriving DecidableEq, Repr

/-! ### The machine -/

/-- What the agenda names: a core's issue cycle, or a step the device takes by itself (95_what_each_step_holds). -/
inductive Turn where
  | issue (core : CoreId)
  | event (i : Instr) (ev : Ev)
  deriving DecidableEq, Repr

/-- The core and context an instruction belongs to. -/
structure Cur where
  core : CoreId
  ctx : CtxId
  deriving DecidableEq, Repr

/-- The state of the device. `agenda`, `turn`, `cur`, `ev`, `held`, `fresh` and `seq` are the MODEL'S OWN (logs 1, 2). -/
structure State where
  agenda : List Turn
  turn : CoreId
  cur : Cur
  ev : Ev
  /-- the instruction last tried was held and did not issue (R195) -/
  held : Bool
  /-- counts the free values taken -/
  fresh : Nat
  /-- numbers accesses and messages -/
  seq : Nat
  time : Word
  hbm : Memory
  /-- a background wipe is under way, and the granules wiped (R424) -/
  wiping : Bool
  wiped : List Nat
  fabric : List (Nat × Msg)
  /-- messages that a group router holds for a task that migrates, in the order in which they reached it (R119) -/
  routed : List Nat
  cores : Table Core
  octets : Table Octet
  clusters : Table Cluster
  groups : Table Group
  sectors : Table Sector
  slices : Table Slice
  regions : Table Region
  links : Table Link
  spine : Spine
  mgmt : Mgmt
  flash : Flash
  host : HostWindow
  deriving DecidableEq, Repr

/-! ### The state after reset -/

/-- The number of the management core (log 1). -/
def mgmtCore : CoreId := 262144

def TrapRegs.reset : TrapRegs := ⟨0, 0, false, 0, 0, 0, 0, 0⟩
def Lanes.reset : Lanes := ⟨0, 0, false, 0, 0⟩
def VReg.zero : VReg := ⟨0, 0⟩

/-- A context at reset: FREE (R89); NMODE 8 (R69, R71). -/
def Ctx.reset : Ctx :=
  ⟨.free, none, [], 0, 0, none, none, 0, none, Vector.replicate 16 PWord.zero, Vector.replicate 8 ⟨false, false⟩,
    Vector.replicate 8 PWord.zero, [], 8, 0, TrapRegs.reset, 0, 0, 0, 0, 0, Vector.replicate 3 ⟨0, 0, 0⟩, 0,
    Vector.replicate 16 VReg.zero, Lanes.reset, none, 0, false⟩

def Timeline.reset : Timeline := ⟨0, 0, []⟩
def Binding.reset : Binding := ⟨none, 0, false, .core, 0, 0⟩
def Activity.reset : Activity := ⟨0, 0, 0, 0, 0⟩
def CoreWork.reset : CoreWork := ⟨[], [], [], none, [], none, [], [], [], [], []⟩

/-- Core `c` at reset (R423); its logical number is its own (log 3). -/
def Core.reset (c : CoreId) : Core :=
  ⟨BitVec.ofNat 18 c, Binding.reset, 10, Vector.replicate 11 Ctx.reset, Memory.empty, Memory.empty, ⟨[], 0⟩, 32, [], 0, 0,
    Timeline.reset, Timeline.reset, Timeline.reset, Timeline.reset, Vector.replicate 8 .free, Vector.replicate 4 none,
    [], CoreWork.reset, [], Vector.replicate 8 0, Vector.replicate 8 0, 0, 2, 2, 0, Activity.reset, none, false⟩

def TileRow.reset : TileRow := ⟨List.replicate 32 0, -512, false, false⟩
/-- R254: T = 0, XT = -512, poison and saturation clear. -/
def AccTile.reset : AccTile := ⟨none, List.replicate 32 TileRow.reset⟩
def OpReg.reset : OpReg := ⟨none, 0, false, false, [], List.replicate 32 0, 0, true⟩
def Chan.reset : Chan := ⟨.idle, none, 0, 0, (0, 0), [], [], [], 0, 0, 0, 0, 0, 0, 0, 0⟩

/-- An octet at reset: NEXT is 1 (R260), and the first search starts at position 0. -/
def Octet.reset : Octet :=
  ⟨[], Vector.replicate 8 AccTile.reset, Vector.replicate 4 OpReg.reset, [], none, 1, 7, ⟨0, 0⟩, ⟨0, 0⟩, [], [],
    Vector.replicate 8 Chan.reset⟩

/-- R408, R414: THROTTLE 8, TLIM 105 °C and 100 °C in sixteenths, BSLOTS 4; log 3 for the rest. -/
def Power.reset : Power :=
  ⟨8, 0, 0, 0, 1680, 1600, 4, 0, 2, 0, none, none, List.replicate 8 0, 0⟩
def Cluster.reset : Cluster :=
  ⟨Vector.replicate 16 .cache, Memory.empty, [], [], [], [], [], [], [], 0, [], Power.reset⟩
def Slice.reset : Slice := ⟨[], [], [], [], none, [], 0, 0, [], []⟩
/-- The sector's rename pool holds 4,096 free frames (R316). -/
def Sector.reset : Sector := ⟨[], [], [], [], [], 0, 0, 0, [], 0, (List.range 4096).map Frame.pool, []⟩
def Group.reset : Group := ⟨none⟩
def Link.reset : Link := ⟨.train, [0, 0, 0, 0], 0, 0, false, false, 0, 0, []⟩
def Region.reset : Region := ⟨0, 0, 0, 0, 0, 0, 0, false, false, 0, []⟩
def Flash.reset : Flash := ⟨[], 0, Memory.empty, none, false, 0, Memory.empty, none⟩

/-- PLIM is 2,600 W, in units of 10 µW (R405). -/
def Spine.reset : Spine :=
  ⟨0, 0, false, 0, 0, 0, false, 0, false, 0, 260000000, 0, 0, 0, 0, [], [], Vector.replicate 16 0, [], [], 0, []⟩
def Mgmt.reset : Mgmt := ⟨false, 0, 0, 0, 0, 0, 0, 0, 0, false, [], false, false, false⟩
def HostWindow.reset : HostWindow :=
  ⟨0, 0, 0, Vector.replicate 16 (0, 0, false), List.replicate 32 0, [], false, false, 0, []⟩

/-- The device right after reset, before the start sequence of R422 has run. -/
def State.reset : State :=
  { agenda := [], turn := mgmtCore, cur := ⟨mgmtCore, 0⟩, ev := Ev.none, held := false, fresh := 0, seq := 0, time := 0,
    hbm := Memory.empty, wiping := false, wiped := [], fabric := [], routed := [], cores := [], octets := [], clusters := [],
    groups := [], sectors := [], slices := [], regions := [], links := [], spine := Spine.reset, mgmt := Mgmt.reset,
    flash := Flash.reset, host := HostWindow.reset }

/-! ### How a step can stop -/

/-- Faults of the machine. The spec gives every fault a next state (a trap, a poisoned value, a status bit, a refused
command), so the machine raises none. -/
inductive Fault
  deriving DecidableEq, Repr

/-- Refusals: the machine takes no step. All are safe: nothing is claimed of a state that is not reached. -/
inductive Refusal where
  /-- raised by the dispatcher's arm of an instruction without a meaning; safe -/
  | notModelled (mnemonic : String)
  /-- raised by an event whose rule does not allow it in this state: the device does not take that step there; safe -/
  | eventDisabled
  deriving DecidableEq, Repr

end Sys2Proof.Machine
end

