-- ==== Sys2Proof/Machine/Ops.lean ====
section
/-! DEFINITION. Named operations over tables, memory, registers and units. -/

namespace Sys2Proof.Machine

/-- The outcome of a step of this machine. -/
abbrev Res := Host.Outcome State Fault Refusal

/-! ### Tables -/

/-- The entry of unit `k`, if it is listed. -/
def Table.find {α : Type} : Table α → Nat → Option α
  | [], _ => none
  | (i, a) :: r, k => if i = k then some a else Table.find r k

/-- Set the entry of unit `k`, in order of number. -/
def Table.put {α : Type} : Table α → Nat → α → Table α
  | [], k, a => [(k, a)]
  | (i, b) :: r, k, a =>
    if k < i then (k, a) :: (i, b) :: r else if i = k then (k, a) :: r else (i, b) :: Table.put r k a

/-- Remove the entry of unit `k`. -/
def Table.drop {α : Type} (t : Table α) (k : Nat) : Table α := t.filter fun e => e.1 != k

/-! ### Memory (R13, R189) -/

/-- The byte at `a`; an address not listed holds zero. -/
def cellGet : List Host.Cell → Nat → Byte
  | [], _ => 0
  | (i, b) :: r, a => if i = a then b else cellGet r a

/-- Set the byte at `a`, keeping addresses rising and no zero listed. -/
def cellSet : List Host.Cell → Nat → Byte → List Host.Cell
  | [], a, b => if b = 0 then [] else [(a, b)]
  | (i, c) :: r, a, b =>
    if a < i then (if b = 0 then (i, c) :: r else (a, b) :: (i, c) :: r)
    else if a = i then (if b = 0 then r else (i, b) :: r)
    else (i, c) :: cellSet r a b

/-- A member of a rising list of numbers. -/
def natHas : List Nat → Nat → Bool
  | [], _ => false
  | i :: r, a => i == a || natHas r a

/-- Insert a number into a rising list. -/
def natAdd : List Nat → Nat → List Nat
  | [], a => [a]
  | i :: r, a => if a < i then a :: i :: r else if a = i then i :: r else i :: natAdd r a

/-- Remove a number from a rising list. -/
def natDel : List Nat → Nat → List Nat
  | [], _ => []
  | i :: r, a => if a = i then r else i :: natDel r a

/-- Addresses strictly rising from `lo`, none zero-valued. -/
def cellsWf : Nat → List Host.Cell → Bool
  | _, [] => true
  | lo, (a, b) :: r => decide (lo ≤ a) && b != 0 && cellsWf (a + 1) r

/-- Numbers strictly rising from `lo`. -/
def natsWf : Nat → List Nat → Bool
  | _, [] => true
  | lo, a :: r => decide (lo ≤ a) && natsWf (a + 1) r

/-- The canonical form of a memory. -/
def Memory.wf (m : Memory) : Bool := cellsWf 0 m.bytes && natsWf 0 m.poison

/-- One byte. -/
def Memory.byte (m : Memory) (a : Nat) : Byte := cellGet m.bytes a

/-- Whether the 8-byte unit of address `a` is poisoned. -/
def Memory.bad (m : Memory) (a : Nat) : Bool := natHas m.poison (a / 8)

/-- `n` bytes from address `a`, little-endian, as a number. -/
def Memory.readNat (m : Memory) (a : Nat) : Nat → Nat
  | 0 => 0
  | n + 1 => (m.byte a).toNat + 256 * m.readNat (a + 1) n

/-- `n` bytes at `a` with the poison tag of their unit (R189); `n` is at most 8 and the access lies in one unit. -/
def Memory.read (m : Memory) (a n : Nat) : PWord := ⟨BitVec.ofNat 64 (m.readNat a n), m.bad a⟩

/-- Set one byte. -/
def Memory.setByte (m : Memory) (a : Nat) (b : Byte) : Memory := { m with bytes := cellSet m.bytes a b }

/-- Store the low `n` bytes of a number from `a` upward. -/
def Memory.writeNat (m : Memory) (a v : Nat) : Nat → Memory
  | 0 => m
  | n + 1 => (m.setByte a (BitVec.ofNat 8 v)).writeNat (a + 1) (v / 256) n

/-- Set or clear the poison tag of the unit of `a`. -/
def Memory.taint (m : Memory) (a : Nat) (p : Bool) : Memory :=
  { m with poison := if p then natAdd m.poison (a / 8) else natDel m.poison (a / 8) }

/-- R189: a store of `n` bytes in one unit. Poisoned data poisons the unit; only 8 unpoisoned bytes clear it. -/
def Memory.write (m : Memory) (a n : Nat) (v : PWord) : Memory :=
  let m' := m.writeNat a v.val.toNat n
  if v.poison then m'.taint a true else if n = 8 then m'.taint a false else m'

/-- The reserved bits of a local store read as zero: SAVEMAP bits 63:11 and the last 16 bytes (R111, R30). -/
def Memory.clearRes (m : Memory) : Memory :=
  let m1 := (List.range 22).foldl (fun (m : Memory) i => m.setByte (0x1FEA + i) 0) (m.setByte 0x1FE9 (m.byte 0x1FE9 &&& 7))
  (m1.taint 0x1FF0 false).taint 0x1FF8 false
/-- A store to a local store: what it says of reserved bits is ignored (R111). -/
def lsWrite (m : Memory) (off n : Nat) (v : PWord) : Memory :=
  if off + n ≤ 0x1FE8 then m.write off n v else (m.write off n v).clearRes

/-! ### Units of the device -/

def clusterOf (c : CoreId) : Nat := c / 16
def octetOf (c : CoreId) : Nat := c / 8
def groupOf (c : CoreId) : Nat := c / 128
def sectorOf (c : CoreId) : Nat := c / 2048
/-- Position of a core in its cluster, and in its octet (R124, R276). -/
def posOf (c : CoreId) : Nat := c % 16
def octPos (c : CoreId) : Nat := c % 8

def State.core (s : State) (c : CoreId) : Core := (Table.find s.cores c).getD (Core.reset c)
def State.setCore (s : State) (c : CoreId) (k : Core) : State := { s with cores := Table.put s.cores c k }
def State.modCore (s : State) (c : CoreId) (f : Core → Core) : State := s.setCore c (f (s.core c))
def State.octet (s : State) (o : Nat) : Octet := (Table.find s.octets o).getD Octet.reset
def State.setOctet (s : State) (o : Nat) (k : Octet) : State := { s with octets := Table.put s.octets o k }
def State.cluster (s : State) (k : Nat) : Cluster := (Table.find s.clusters k).getD Cluster.reset
def State.setCluster (s : State) (k : Nat) (x : Cluster) : State := { s with clusters := Table.put s.clusters k x }
def State.group (s : State) (k : Nat) : Group := (Table.find s.groups k).getD Group.reset
def State.setGroup (s : State) (k : Nat) (x : Group) : State := { s with groups := Table.put s.groups k x }
def State.sector (s : State) (k : Nat) : Sector := (Table.find s.sectors k).getD Sector.reset
def State.setSector (s : State) (k : Nat) (x : Sector) : State := { s with sectors := Table.put s.sectors k x }
def State.slice (s : State) (k : Nat) : Slice := (Table.find s.slices k).getD Slice.reset
def State.setSlice (s : State) (k : Nat) (x : Slice) : State := { s with slices := Table.put s.slices k x }
def State.region (s : State) (k : Nat) : Region := (Table.find s.regions k).getD Region.reset
def State.setRegion (s : State) (k : Nat) (x : Region) : State := { s with regions := Table.put s.regions k x }
def State.link (s : State) (k : Nat) : Link := (Table.find s.links k).getD Link.reset
def State.setLink (s : State) (k : Nat) (x : Link) : State := { s with links := Table.put s.links k x }

/-- The core and context of the instruction being run. -/
def State.myCore (s : State) : Core := s.core s.cur.core
def Core.ctx (k : Core) (n : CtxId) : Ctx := k.ctxs[n]
def Core.setCtx (k : Core) (n : CtxId) (x : Ctx) : Core := { k with ctxs := k.ctxs.set n x }
def State.ctx (s : State) (c : CoreId) (n : CtxId) : Ctx := (s.core c).ctx n
def State.setCtx (s : State) (c : CoreId) (n : CtxId) (x : Ctx) : State := s.setCore c ((s.core c).setCtx n x)
def State.modCtx (s : State) (c : CoreId) (n : CtxId) (f : Ctx → Ctx) : State := s.setCtx c n (f (s.ctx c n))
def State.me (s : State) : Ctx := s.ctx s.cur.core s.cur.ctx
def State.setMe (s : State) (x : Ctx) : State := s.setCtx s.cur.core s.cur.ctx x
def State.modMe (s : State) (f : Ctx → Ctx) : State := s.setMe (f s.me)
def State.modMyCore (s : State) (f : Core → Core) : State := s.modCore s.cur.core f
def State.myCluster (s : State) : Cluster := s.cluster (clusterOf s.cur.core)
def State.setMyCluster (s : State) (x : Cluster) : State := s.setCluster (clusterOf s.cur.core) x
def State.myOctet (s : State) : Octet := s.octet (octetOf s.cur.core)
def State.setMyOctet (s : State) (x : Octet) : State := s.setOctet (octetOf s.cur.core) x

/-- The mode of bank `b` (R196). -/
def Cluster.mode (k : Cluster) (b : Nat) : BankMode := (k.modes[b]?).getD .cache
def Cluster.setMode (k : Cluster) (b : Nat) (m : BankMode) : Cluster := { k with modes := k.modes.setIfInBounds b m }

/-- Whether the brake stands at a level or above it (R407): from 2 the octet engines start nothing, at 3 clocks pause. -/
def State.braked (s : State) (n : Nat) : Bool := decide (n ≤ s.spine.brake)

/-- Whether a launch binds a group: it has reserved the group whole, or it binds every cluster of it (R266, R306). That a
reserved group counts before its clusters are placed in is DEDUCED (log 76): R306 says of WHOLEGRP that this is what MMR requires. -/
def State.bindsGroup (s : State) (home key g : Nat) : Bool :=
  (s.group g).whole == some (home, key) || (List.range 8).all fun i => (s.cluster (8 * g + i)).launches.contains (home, key)

/-- Whether some up-link is in RUN; while none is, what goes to a peer waits in the spine (R392). -/
def State.peerUp (s : State) : Bool := (List.range 36).any fun i => (s.link i).state == .run

/-- A write of LCSTATE: a value above NEXT and at most 3 burns its fuse, any other is ignored (R431). -/
def Spine.burn (p : Spine) (v : Word) : Spine :=
  let n := v.extractLsb' 0 8
  if p.lcNext < n && n ≤ 3 then { p with lcNext := n, lcPend := true } else p

/-- Count what a core does (R404). -/
def Core.counts (k : Core) (f : Activity → Activity) : Core := { k with act := f k.act }

/-- Whether the instruction runs on the management core. -/
def State.onMgmt (s : State) : Bool := s.cur.core == mgmtCore

/-- A live context is READY, WAITING or STOPPED (R101). -/
def Ctx.live (x : Ctx) : Bool :=
  match x.st with
  | .ready | .waiting | .stopped => true
  | .free | .ended => false

/-- The contexts of a core. -/
def allCtx : List CtxId := List.finRange 11

/-- Change every live context of a core. -/
def Core.modLive (k : Core) (f : Ctx → Ctx) : Core :=
  allCtx.foldl (fun k n => if (k.ctx n).live then k.setCtx n (f (k.ctx n)) else k) k

/-- The `k`-th free value is taken once (log 2). -/
def State.nextFresh (s : State) : State := { s with fresh := s.fresh + 1 }
def State.nextSeq (s : State) : State := { s with seq := s.seq + 1 }

/-! ### Registers (R28, R39, R50) -/

/-- g0 reads as zero (R28). -/
def Ctx.getG (x : Ctx) (r : Reg) : PWord := if r = 0 then PWord.zero else x.g[r]
/-- p0 reads as true (R28). -/
def Ctx.getP (x : Ctx) (r : PReg) : PBit := if r = 0 then ⟨true, false⟩ else x.p[r]
def Ctx.getE (x : Ctx) (r : EReg) : PWord := x.e[r]
/-- A register written by a later instruction no longer waits for an earlier result. -/
def Ctx.unpend (x : Ctx) (r : RegName) : Ctx := { x with pend := x.pend.filter fun q => q.1 != r }
/-- Write g[r]; a write to g0 is discarded. -/
def Ctx.setG (x : Ctx) (r : Reg) (v : PWord) : Ctx :=
  if r = 0 then x else { (x.unpend (.g r)) with g := x.g.set r v }
def Ctx.setP (x : Ctx) (r : PReg) (v : PBit) : Ctx := if r = 0 then x else { x with p := x.p.set r v }
def Ctx.setE (x : Ctx) (r : EReg) (v : PWord) : Ctx := { (x.unpend (.e r)) with e := x.e.set r v }
def Ctx.setReg (x : Ctx) (r : RegName) (v : PWord) : Ctx :=
  match r with
  | .g r => x.setG r v
  | .e r => x.setE r v
  | .v _ => x

def State.gReg (s : State) (r : Reg) : PWord := s.me.getG r
def State.pReg (s : State) (r : PReg) : PBit := s.me.getP r
def State.eReg (s : State) (r : EReg) : PWord := s.me.getE r
def State.setG (s : State) (r : Reg) (v : PWord) : State := s.modMe (·.setG r v)
def State.setP (s : State) (r : PReg) (v : PBit) : State := s.modMe (·.setP r v)
def State.setE (s : State) (r : EReg) (v : PWord) : State := s.modMe (·.setE r v)
/-- Write an unpoisoned word to g[r]. -/
def State.putG (s : State) (r : Reg) (v : Word) : State := s.setG r ⟨v, false⟩
/-- A result still to land: later readers of `r` wait for operation `id` (R193). -/
def Ctx.await (x : Ctx) (r : RegName) (id : Nat) : Ctx :=
  if r = .g 0 then x else { (x.unpend r) with pend := (r, id) :: (x.unpend r).pend }
/-- Land a result: it is written only if no later instruction has written the register. -/
def Ctx.land (x : Ctx) (r : RegName) (id : Nat) (v : PWord) : Ctx :=
  if x.pend.any (· == (r, id)) then (x.unpend r).setReg r v else x

/-- Supervisor, user or machine mode of the executing context. -/
def State.priv (s : State) : BitVec 2 := s.me.tr.priv
def State.isUser (s : State) : Bool := s.priv == 0

/-! ### Device time (R159 to R161) -/

/-- The copy of the time base that core `c` holds. -/
def State.now (s : State) (c : CoreId) : Word := if (s.core c).lead then s.time + 1 else s.time
def State.myNow (s : State) : Word := s.now s.cur.core
/-- signed((a - b)[63:0]) (R161). -/
def ahead (a b : Word) : Int := (a - b).toInt
/-- Whether a tick lies after another. -/
def laterThan (a b : Word) : Bool := decide (0 < ahead a b)
/-- Inst(e, abs): an absolute instant (R29, R161). -/
def State.instant (s : State) (v : Word) (isAbs : Bool) : Word := if isAbs then v else v + s.myCore.bind.tbase

/-! ### Events, tags and timeline counters (R97, R294, R298) -/

/-- Set bits of EVPEND. -/
def Ctx.latch (x : Ctx) (bits : Word) : Ctx := { x with evpend := x.evpend ||| bits }
def evHexit : Word := 1
def evRxq : Word := 2
def evTag : Word := 4
def evJob : Word := 8
def evCopy : Word := 16
def evFifo : Word := 32
/-- Latch an event in every live context of a core. -/
def Core.latchAll (k : Core) (bits : Word) : Core := k.modLive (·.latch bits)

def bitAt (i : Nat) : Word := 1#64 <<< i

/-- Set a tag: EVPEND.TAG only when the bit was clear (R288, R294). -/
def Core.setTag (k : Core) (i : Nat) : Core :=
  if k.tags.getLsbD i then k else ({ k with tags := k.tags ||| bitAt i }).latchAll evTag
/-- Set a tag's fault bit; a gained bit sets IPEND.TAGF of every live context (R104, R294). -/
def Core.setTagErr (k : Core) (i : Nat) : Core :=
  if k.tagerr.getLsbD i then k
  else ({ k with tagerr := k.tagerr ||| bitAt i }).modLive fun x => { x with ipend := x.ipend ||| 2 }

/-- CNT moves over the numbers that are complete in order. -/
def Timeline.settle (t : Timeline) : Nat → Timeline
  | 0 => t
  | k + 1 =>
    if natHas t.ahead (t.cnt.toNat + 1) then
      Timeline.settle { t with cnt := t.cnt + 1, ahead := natDel t.ahead (t.cnt.toNat + 1) } k
    else t
/-- Complete operation `n` (R298). -/
def Timeline.complete (t : Timeline) (n : Nat) : Timeline :=
  Timeline.settle { t with ahead := natAdd t.ahead n } (t.ahead.length + 1)
/-- The number the next operation takes. -/
def Timeline.nextNum (t : Timeline) : Nat := t.issued.toNat + 1
def Timeline.issue (t : Timeline) (k : Nat) : Timeline := { t with issued := t.issued + BitVec.ofNat 64 k }

/-- Complete numbers of TLC: each completion sets EVPEND.COPY (R288), also one that does not yet move CNT; DEDUCED (log 71),
since R97 speaks of an advance of TLC. -/
def Core.completeTlc (k : Core) (ns : List Nat) : Core :=
  let k' := { k with tlc := ns.foldl Timeline.complete k.tlc }
  if ns.isEmpty then k' else k'.latchAll evCopy

/-! ### The logical core map (R117) -/

/-- Whether core `c` is the one that logical number `l` names. -/
def State.maps (s : State) (l : Nat) (c : CoreId) : Bool := (s.core c).lcn.toNat == l
/-- The physical core of a logical number: a listed core that carries it, else the core of that number. -/
def State.physOf (s : State) (l : Nat) : CoreId :=
  match s.cores.find? fun e => e.1 < mgmtCore && e.2.lcn.toNat == l with
  | some e => e.1
  | none => l
/-- The number by which replies find a core: its logical number, or the management core's own. -/
def State.lcnOf (s : State) (c : CoreId) : Nat := if c == mgmtCore then mgmtCore else (s.core c).lcn.toNat

/-- Core `c` takes logical number `l`; the core that had it takes the one `c` had. -/
def State.remap (s : State) (l : BitVec 18) (c : CoreId) : State :=
  let old := s.physOf l.toNat
  let mine := (s.core c).lcn
  (s.modCore old fun k => { k with lcn := mine }).modCore c fun k => { k with lcn := l }

/-- Whether a displaced task keeps a logical number. -/
def State.lcnKept (s : State) (l : BitVec 18) : Bool :=
  s.sectors.any fun e => e.2.tasks.any fun t => t.2.phase == .displaced && t.2.parked.any fun k => k.lcn == l

/-! ### Tasks (R314) -/

/-- The task of a reference, while it is in its table. -/
def State.taskAt (s : State) (t : TaskRef) : Option Task :=
  match Table.find (s.sector t.sec).tasks t.slot with
  | some k => if k.order = t.order then some k else none
  | none => none
/-- Change a task of a table. -/
def State.modTask (s : State) (t : TaskRef) (f : Task → Task) : State :=
  match s.taskAt t with
  | some k => let q := s.sector t.sec; s.setSector t.sec { q with tasks := Table.put q.tasks t.slot (f k) }
  | none => s

/-! ### Events to the management core and the host (R421) -/

/-- Queue an event word; a full queue marks its newest word. -/
def pushEvent (q : List Word) (w : Word) : List Word :=
  if q.length < 256 then q ++ [w]
  else match q.getLast? with
    | some x => q.dropLast ++ [x ||| bitAt 62]
    | none => q

/-- An event word (R421). -/
def eventWord (kind : BitVec 3) (tenant : BitVec 12) (lnum : BitVec 16) (sec : BitVec 7) (int : Bool) (code : BitVec 5)
    (id : BitVec 18) : Word :=
  1#1 ++ 0#1 ++ kind ++ tenant ++ lnum ++ sec ++ BitVec.ofBool int ++ code ++ id

/-- Post to the host's queue, and notify it when the queue was empty and HEVCTL.EN is set. -/
def State.postHost (s : State) (w : Word) : State :=
  let q := pushEvent s.spine.hevq w
  let s' := { s with spine := { s.spine with hevq := q } }
  if s.spine.hevq.isEmpty && s.host.hevctl.getLsbD 0 then
    { s' with host := { s.host with writes := s.host.writes ++ [(s.host.hevaddr &&& ~~~7#64, BitVec.ofNat 64 q.length)] } }
  else s'
/-- Post to the management core's queue. -/
def State.postMgmt (s : State) (w : Word) : State := { s with spine := { s.spine with evq := pushEvent s.spine.evq w } }

end Sys2Proof.Machine
end

