-- ==== Sys2Proof/Machine/Translate.lean ====
section
/-! DEFINITION. What a home returns for a physical unit, the page walk, the cluster TLB, and where an address leads:
08 R185 to R188, 15 R369 to R371, R393 to R401, 16 R413, R424. -/

namespace Sys2Proof.Machine

/-! ### Physical memory of this device (R393, R400, R401, R424) -/

/-- HBM lies below 2^39, view space from 2^39 to 2^40; everything else is a hole (R393). -/
def isHbm (pa : Nat) : Bool := decide (pa < 2 ^ 39)
def isView (pa : Nat) : Bool := decide (2 ^ 39 ≤ pa) && decide (pa < 2 ^ 40)
def isHole (pa : Nat) : Bool := decide (2 ^ 40 ≤ pa)

/-- The die of a physical address (R393) and the number of its home slice, 64 a die (R394). -/
def dieOfPa (pa : Nat) : Nat := pa / 2 ^ 36 % 8
def sliceOfPa (pa : Nat) : Nat := dieOfPa pa * 64 + Nat.xor (pa / 2 ^ 8 % 64) (pa / 2 ^ 14 % 64)

/-- An unwiped granule reads as zero while a background wipe is under way (R424). -/
def State.wipedAway (s : State) (pa : Nat) : Bool := s.wiping && !natHas s.wiped (pa / 256)

/-- `n` bytes of HBM in one unit. -/
def State.hbmRead (s : State) (pa n : Nat) : PWord := if s.wipedAway pa then PWord.zero else s.hbm.read pa n

/-- Zero the granule of an address, byte by byte, and clear its poison. -/
def zeroGranule (m : Memory) (pa : Nat) : Memory :=
  let lo := pa / 256 * 256
  ⟨m.bytes.filter fun c => !(decide (lo ≤ c.1) && decide (c.1 < lo + 256)),
   m.poison.filter fun u => !(decide (lo / 8 ≤ u) && decide (u < lo / 8 + 32))⟩

/-- Granule `g` is wiped; with the last of the package the wipe is over and BOOTST.HBMW set (R424). -/
def State.wipeGranule (s : State) (g : Nat) : State :=
  let w := natAdd s.wiped g
  let s1 := { s with hbm := zeroGranule s.hbm (256 * g), wiped := w }
  if w.length = 2 ^ 31 then { s1 with wiping := false, wiped := [], spine := { s1.spine with hbmw := true } } else s1

/-- A write to HBM: an unwiped granule is first zeroed and marked wiped (R424). -/
def State.hbmWrite (s : State) (pa n : Nat) (v : PWord) : State :=
  if s.wipedAway pa then let s1 := s.wipeGranule (pa / 256); { s1 with hbm := s1.hbm.write pa n v }
  else { s with hbm := s.hbm.write pa n v }

/-- R398. -/
def Region.enabled (r : Region) : Bool := r.ctl.getLsbD 63
def Region.isC6 (r : Region) : Bool := r.ctl.extractLsb' 61 2 == 1
def Region.chunk (r : Region) : Nat := 2 ^ (12 + (r.ctl.extractLsb' 0 5).toNat)

/-- The enabled region whose view window holds a view address. -/
def State.viewRegion (s : State) (pa : Nat) : Option (Nat × Region) :=
  s.regions.find? fun e => e.2.enabled && decide (e.1 / 64 = dieOfPa pa) && decide (e.2.vbase.toNat ≤ pa) &&
    decide (pa < e.2.vbase.toNat + e.2.vsize.toNat)

/-- The highest byte of the code of element `k`, and the code's position: first byte and first bit (R400). -/
def codeAt (r : Region) (k : Nat) : Nat × Nat × Nat :=
  let sb := r.sbase.toNat
  if r.isC6 then
    let g := sb + 3 * (k / 4)
    (g + Nat.min (k % 4) 2, g + 6 * (k % 4) / 8, 6 * (k % 4) % 8)
  else (sb + k / 2, sb + k / 2, 4 * (k % 2))

/-- A code is present when its highest byte lies below SLIMIT in a populated chunk below 64 (R400). -/
def codePresent (r : Region) (k : Nat) : Bool :=
  let top := (codeAt r k).1
  let ch := (top - r.sbase.toNat) / r.chunk
  decide (top < r.slimit.toNat) && decide (ch < 64) && !r.holes.getLsbD ch

/-- The codebook entry of element `k` (R65, R400). Poison of the bytes that hold its code, or of the codebook image as it was read, does
not reach the element (DESIGN CHOICE, log 75: no rule says that it does). -/
def State.codeValue (s : State) (r : Region) (k : Nat) : Half :=
  let (_, b, sh) := codeAt r k
  let raw := (s.hbmRead b 1).val.toNat + 256 * (s.hbmRead (b + 1) 1).val.toNat
  let code := raw / 2 ^ sh % (if r.isC6 then 64 else 16)
  r.codebook.getD code 0

/-- A view unit: decoded when its four codes are present, otherwise poisoned (R400). -/
def State.viewUnit (s : State) (pa : Nat) : PWord :=
  match s.viewRegion pa with
  | none => PWord.poison0
  | some (_, r) =>
    let k := (pa / 8 * 8 - r.vbase.toNat) / 2
    if codePresent r k && codePresent r (k + 1) && codePresent r (k + 2) && codePresent r (k + 3) then
      PWord.clean (s.codeValue r (k + 3) ++ s.codeValue r (k + 2) ++ s.codeValue r (k + 1) ++ s.codeValue r k)
    else PWord.poison0

/-- The 8-byte unit of a physical address as its home holds it. -/
def State.homeUnit (s : State) (pa : Nat) : PWord :=
  if isHbm pa then s.hbmRead (pa / 8 * 8) 8 else if isView pa then s.viewUnit pa else PWord.poison0

/-- `n` bytes within one unit of a value. -/
def subUnit (u : PWord) (off n : Nat) : PWord :=
  ⟨BitVec.ofNat 64 (u.val.toNat / 2 ^ (8 * off) % 2 ^ (8 * n)), u.poison⟩

/-- `n` bytes within one unit, as the home holds them. -/
def State.homeRead (s : State) (pa n : Nat) : PWord := subUnit (s.homeUnit pa) (pa % 8) n

/-- PCOUNT counts each view unit returned poisoned (R398, R400). -/
def State.countView (s : State) (pa : Nat) : State :=
  if isView pa && (s.viewUnit pa).poison then
    match s.viewRegion pa with
    | some (i, r) => s.setRegion i { r with pcount := if r.pcount == BitVec.allOnes 32 then r.pcount else r.pcount + 1 }
    | none => s
  else s

/-- A write that reaches view space is discarded and sets WERR of its region (R401). -/
def State.viewWrite (s : State) (pa : Nat) : State :=
  match s.viewRegion pa with
  | some (i, r) => s.setRegion i { r with werr := true }
  | none => s

/-- Write `n` bytes within one unit at the home, without history. -/
def State.homeWrite (s : State) (pa n : Nat) (v : PWord) : State :=
  if isHbm pa then s.hbmWrite pa n v else s.viewWrite pa

/-! ### Peers and tenants (R369, R371, R413) -/

/-- The partition of a tenant, and the root of its space. -/
def State.part (s : State) (t : BitVec 12) : BitVec 8 := ((Table.find s.spine.tenants t.toNat).getD (0, 0)).2
def State.root (s : State) (t : BitVec 12) : Word := ((Table.find s.spine.tenants t.toNat).getD (0, 0)).1
def State.peerWord (s : State) (p : BitVec 16) : Word := ((Table.find s.spine.peers p.toNat).getD (0, 0)).1
def State.peerOffset (s : State) (p : BitVec 16) : Word := ((Table.find s.spine.peers p.toNat).getD (0, 0)).2
/-- 0 and the device's own number mean this device (R369). -/
def State.isSelf (s : State) (p : BitVec 16) : Bool := p == 0 || p == s.spine.peerno
/-- A peer lies in the tenant's partition (R369); with no number of its own the device reaches no peer (R370). -/
def State.inPartition (s : State) (t : BitVec 12) (p : BitVec 16) : Bool :=
  let w := s.peerWord p
  s.spine.peerno != 0 && w.getLsbD 63 && w.getLsbD 62 && w.extractLsb' 54 8 == s.part t

/-! ### The page walk (R395, R396) -/

/-- Bytes a SIZE code maps, and the shift of the level where such a leaf stands. -/
def leafSize : Nat → Option (Nat × Nat)
  | 0 => some (2 ^ 12, 12)
  | 1 => some (2 ^ 16, 12)
  | 2 => some (2 ^ 21, 21)
  | 3 => some (2 ^ 25, 21)
  | 4 => some (2 ^ 30, 30)
  | _ => none

/-- The leaf an entry gives at the level of `shift`, or `none` for a translation fault (R396). -/
def leafOf (space : BitVec 12) (va shift : Nat) (w0 w1 : Word) : Option TlbEntry :=
  match leafSize (w0.extractLsb' 9 3).toNat with
  | none => none
  | some (size, sh) =>
    let frame := (w0.extractLsb' 12 44).toNat * 4096
    let aligned := size ≤ 2 ^ 16 || size == 2 ^ 25 || frame % size == 0
    if sh == shift && aligned && !isHole frame then
      some ⟨space, va / size * size, size, frame / size * size, w0.getLsbD 8, w0.getLsbD 4, w0.getLsbD 5, w0.getLsbD 6,
        w1.extractLsb' 16 12, w1.extractLsb' 0 16⟩
    else none

/-- A table word at a home of some device; a peer's home returns a free value (log 2). -/
def State.tableWord (s : State) (p : BitVec 16) (pa : Nat) : PWord :=
  if s.isSelf p then s.homeUnit pa
  else let (w, bad) := Config.peerTable p.toNat pa s.fresh; ⟨w, bad⟩

/-- What a next-table entry on a peer outside the tenant's partition gives: an entry of that peer, so that the access takes
the fate of R371. -/
def TlbEntry.fenced (space : BitVec 12) (va : Nat) (p : BitVec 16) : TlbEntry :=
  ⟨space, va / 4096 * 4096, 4096, 0, false, true, true, true, space, p⟩

/-- A walk from the table at `base` of device `p` through the levels left, reading at homes. -/
def State.walkFrom (s : State) (space : BitVec 12) (va : Nat) : BitVec 16 → Nat → List Nat → Option TlbEntry
  | _, _, [] => none
  | p, base, shift :: rest =>
    let at_ := base + 16 * (va / 2 ^ shift % 512)
    let w0 := s.tableWord p at_
    let w1 := s.tableWord p (at_ + 8)
    let q := w1.val.extractLsb' 0 16
    let res := w0.val.extractLsb' 56 8 != 0 || w0.val.getLsbD 7 || w0.val.extractLsb' 2 2 != 0 ||
      w1.val.extractLsb' 28 36 != 0
    let frame := (w0.val.extractLsb' 12 44).toNat * 4096
    if isHole at_ || w0.poison || w1.poison || res then none
    else match (w0.val.extractLsb' 0 2).toNat with
      | 1 =>
        if rest.isEmpty || frame % 8192 != 0 || isHole frame then none
        else if s.isSelf q || s.inPartition space q then State.walkFrom s space va q frame rest
        else some (TlbEntry.fenced space va q)
      | 2 => leafOf space va shift w0.val w1.val
      | _ => none

/-- The table that the entry at an address names, if the walk goes on to it (R395, R396). -/
def State.nextTable (s : State) (space : BitVec 12) (p : BitVec 16) (at_ : Nat) : Option (BitVec 16 × Nat) :=
  let w0 := s.tableWord p at_
  let w1 := s.tableWord p (at_ + 8)
  let q := w1.val.extractLsb' 0 16
  let frame := (w0.val.extractLsb' 12 44).toNat * 4096
  if w0.poison || w1.poison || w0.val.extractLsb' 0 2 != 1 || frame % 8192 != 0 || isHole frame ||
      !(s.isSelf q || s.inPartition space q) then none
  else some (q, frame)

/-- The words of this device's memory that a walk reads. -/
def State.walkReads (s : State) (space : BitVec 12) (va : Nat) : BitVec 16 → Nat → List Nat → List Nat
  | _, _, [] => []
  | p, base, shift :: rest =>
    let at_ := base + 16 * (va / 2 ^ shift % 512)
    (if s.isSelf p then [at_, at_ + 8] else []) ++
      (match s.nextTable space p at_ with
       | some (q, frame) => State.walkReads s space va q frame rest
       | none => [])

/-- The leaf that maps `va` for a tenant, by walking its tables (R395). -/
def State.walk (s : State) (t : BitVec 12) (va : Nat) : Option TlbEntry :=
  if s.root t == 0 then none else s.walkFrom t va 0 (s.root t).toNat [39, 30, 21, 12]

def TlbEntry.hit (e : TlbEntry) (t : BitVec 12) (va : Nat) : Bool :=
  e.space == t && decide (e.vbase ≤ va) && decide (va < e.vbase + e.size)

/-- The leaf for an address as a cluster sees it: its TLB, then a walk (R397). -/
def State.leaf (s : State) (cl : Nat) (t : BitVec 12) (va : Nat) : Option TlbEntry :=
  match (s.cluster cl).tlb.find? (·.hit t va) with
  | some e => some e
  | none => s.walk t va

/-- A 4 KiB frame's number. -/
def Frame.number (sec : Nat) : Frame → Nat
  | .pool i => Config.renameFrame sec i
  | .other n => n

/-- The frame that the renames of a table give its task of some order for a page: that of the latest writer which is the task
itself or an earlier one, whether or not the task declares the page (R316). -/
def Sector.frameFor (q : Sector) (t : BitVec 12) (order page : Nat) : Option Frame :=
  (q.renames.reverse.find? fun r => r.vpage == page && r.tenant == t && decide (r.writer ≤ order)).map (·.new)

/-- The frame that renaming gives the task of a core for a page (R316). -/
def State.renamed (s : State) (c : CoreId) (va : Nat) : Option Nat :=
  match (s.core c).bind.task with
  | none => none
  | some t =>
    match s.taskAt t with
    | none => none
    | some k => ((s.sector t.sec).frameFor (s.core c).bind.tenant k.order (va / 4096)).map (·.number t.sec)

/-- The leaf for an address as a core's task sees it: a renamed page has its new frame (R316). -/
def State.leafOn (s : State) (c : CoreId) (t : BitVec 12) (va : Nat) : Option TlbEntry :=
  match s.leaf (clusterOf c) t va with
  | none => none
  | some e =>
    match (if (s.core c).bind.tenant == t then s.renamed c va else none) with
    | none => some e
    | some f => some { e with vbase := va / 4096 * 4096, size := 4096, frame := f * 4096 }

/-- Make a leaf the most recently used of a TLB of 128 entries (R397). -/
def State.touchTlb (s : State) (cl : Nat) (e : TlbEntry) : State :=
  let k := s.cluster cl
  s.setCluster cl { k with tlb := (e :: k.tlb.filter (· != e)).take 128 }

/-! ### Where an address leads (R185 to R187) -/

/-- What an access does: a returning atomic reads and writes (R206), an accumulation writes (R210). -/
inductive Acc where
  | load | store | atomic | accum
  deriving DecidableEq, Repr

/-- An atomic of either kind. -/
def Acc.isAtomic : Acc → Bool
  | .load | .store => false
  | .atomic | .accum => true

/-- Where an access leads, or its fate (R186, R371). -/
inductive Reach where
  | place (p : Place)
  | transFault
  | rightsFault
  | peerFault (p : BitVec 16)
  deriving DecidableEq, Repr

/-- How an access presents itself: kind, bytes, whether it is an element of a vector access, and its mode. -/
structure AccessKind where
  acc : Acc
  n : Nat
  vec : Bool
  user : Bool
  deriving DecidableEq, Repr

/-- Right of a leaf for an access. -/
def TlbEntry.allows (e : TlbEntry) (a : Acc) : Bool :=
  match a with
  | .load => e.r
  | .store | .accum => e.w
  | .atomic => e.r && e.w

/-- The place a leaf gives an address, under the owner and peer checks (R396, R371). -/
def State.leafReach (s : State) (t : BitVec 12) (a : Acc) (e : TlbEntry) (va : Nat) : Reach :=
  if e.owner != t || !e.allows a then .rightsFault
  else
    let pa := e.frame + (va - e.vbase)
    if s.isSelf e.peer then .place (.phys pa e.timed)
    else if s.inPartition t e.peer then .place (.peer e.peer.toNat pa) else .peerFault e.peer

/-- Copy-aperture registers an 8-byte scalar access may name (R277). -/
def apertureOk (k : AccessKind) (off : Nat) : Bool :=
  !k.vec && k.n == 8 &&
    (match k.acc with
     | .load => natHas [0, 8, 16, 256, 264, 272, 280, 288, 296] off
     | .store => natHas [0, 8, 16] off
     | .atomic | .accum => false)

/-- FIFO windows (R201): a push, a pull or a read of FIFOST. -/
def fifoOk (k : AccessKind) (off : Nat) : Bool :=
  match k.acc with
  | .load => (decide (0x400 ≤ off) && decide (off < 0x800) && (k.vec || k.n == 8)) || (off == 0x800 && k.n == 8 && !k.vec)
  | .store => decide (off < 0x400) && (k.vec || k.n == 8)
  | .atomic | .accum => false

/-- Assigned offsets of the management window (R413). -/
def mwinAssigned (off : Nat) : Bool :=
  natHas [0x0, 0x8, 0x10, 0x18, 0x20, 0x28, 0x30, 0x38] off ||
  (decide (0x100 ≤ off) && decide (off < 0x180)) ||
  (decide (0x100000 ≤ off) && decide (off < 0x200000)) ||
  (decide (0x200000 ≤ off) && decide (off < 0x220000) && natHas [0, 8] (off % 32)) ||
  (decide (0x300000 ≤ off) && decide (off < 0x300000 + 36 * 256) && natHas [0, 8, 16, 24, 32, 40] (off % 256)) ||
  natHas [0x400000, 0x400008, 0x400010] off || (decide (0x400040 ≤ off) && decide (off < 0x400080)) ||
  (decide (0x100000000 ≤ off) && decide (off < 0x180000000) &&
    (let o := off % 0x10000000
     (decide (o < 0x400000) && (let q := o % 0x10000; decide (q < 0x2000) || q == 0x2000 || q == 0x2008)) ||
     (decide (0x400000 ≤ o) && decide (o < 0x401000)) ||
     (decide (0x410000 ≤ o) && decide (o < 0x420000) && o % 0x1000 == 0))) ||
  (decide (0x200000000 ≤ off) && decide (off < 0x204000000) &&
    (let q := off % 0x1000
     natHas [0, 8, 16, 24, 32, 40, 48] q || (decide (0x40 ≤ q) && decide (q < 0x88)) ||
     (decide (0x100 ≤ q) && decide (q < 0x180))))

/-- Where an address leads on the management core (R413). -/
def mgmtReach (k : AccessKind) (machine : Bool) (va : Nat) : Reach :=
  if va < 0xFF0000000000 then (if isHole va then .transFault else .place (.phys va false))
  else if 0xFFFFFFFFE000 ≤ va && va < 0x1000000000000 then
    (if k.user && 0xFFFFFFFFF800 ≤ va then .rightsFault else .place (.ls mgmtCore (va - 0xFFFFFFFFE000)))
  else if 0xFFC000000000 ≤ va && va < 0xFFC204000000 && mwinAssigned ((va - 0xFFC000000000) / 8 * 8) then
    (if machine && k.n == 8 && !k.vec && !k.acc.isAtomic then .place (.mwin (va - 0xFFC000000000)) else .rightsFault)
  else .transFault

/-- Where an address of the fixed region leads on core `c` (R185, R186). -/
def State.windowReach (s : State) (c : CoreId) (t : BitVec 12) (k : AccessKind) (va : Nat) : Reach :=
  if 0xFFFFFFFFE000 ≤ va then
    (if k.user && 0xFFFFFFFFF800 ≤ va then .rightsFault else .place (.ls c (va - 0xFFFFFFFFE000)))
  else if 0xFFFFFFFFD000 ≤ va && va < 0xFFFFFFFFD200 then
    (if k.vec || k.acc.isAtomic then .rightsFault else .place (.inj c (va - 0xFFFFFFFFD000)))
  else if 0xFFFFFFFFC000 ≤ va && va < 0xFFFFFFFFC400 then
    (if k.vec || k.acc != .load then .rightsFault else .place (.rx c (va - 0xFFFFFFFFC000)))
  else if 0xFFFFFFF00000 ≤ va && va < 0xFFFFFFF10000 then
    let off := va - 0xFFFFFFF00000
    (match (s.cluster (clusterOf c)).mode (off / 0x1000) with
     | .cache => .rightsFault
     | .scratch => .place (.sram (clusterOf c) off)
     | .fifo => if fifoOk k (off % 0x1000) then .place (.sram (clusterOf c) off) else .rightsFault)
  else if 0xFFFFFFE00000 ≤ va && va < 0xFFFFFFE08000 then
    let off := va - 0xFFFFFFE00000
    (if apertureOk k (off % 0x1000) then .place (.aperture (off / 0x1000) (off % 0x1000)) else .rightsFault)
  else if va < 0xFF0080000000 then
    let l := (va - 0xFF0000000000) / 0x2000
    let off := va % 0x2000
    let d := s.core (s.physOf l)
    if 0x1800 ≤ off || d.bind.task.isNone || d.bind.tenant != t then .rightsFault else .place (.peerLs l off)
  else .transFault

/-- Where an address leads for an access of core `c` on behalf of tenant `t` (R185 to R187, R371, R413). -/
def State.reachT (s : State) (c : CoreId) (t : BitVec 12) (k : AccessKind) (va : Word) : Reach :=
  let a := va.toNat
  if 2 ^ 48 ≤ a then .transFault
  else if c == mgmtCore then mgmtReach k false a
  else if 0xFF0000000000 ≤ a then s.windowReach c t k a
  else match s.leafOn c t a with
    | none => .transFault
    | some e => s.leafReach t k.acc e a

/-- Where an address leads for the executing context. -/
def State.reach (s : State) (a : Acc) (n : Nat) (va : Word) : Reach :=
  if s.onMgmt && va.toNat < 2 ^ 48 then mgmtReach ⟨a, n, false, s.isUser⟩ (s.priv == 3) va.toNat
  else s.reachT s.cur.core s.myCore.bind.tenant ⟨a, n, false, s.isUser⟩ va

/-- A walk for tenant `t` has read view units: those returned poisoned are counted (R400). -/
def State.countWalk (s : State) (t : BitVec 12) (a : Nat) : State :=
  if s.root t == 0 then s else (s.walkReads t a 0 (s.root t).toNat [39, 30, 21, 12]).foldl State.countView s

/-- The walk of an access on behalf of tenant `t`, if it makes one. -/
def State.walked (s : State) (c : CoreId) (t : BitVec 12) (va : Word) : State :=
  let a := va.toNat
  if c == mgmtCore || 0xFF0000000000 ≤ a || (s.cluster (clusterOf c)).tlb.any (·.hit t a) then s else s.countWalk t a

/-- Note the use of the leaf of a translated address (R397), or the walk that finds none. -/
def State.touch (s : State) (c : CoreId) (t : BitVec 12) (va : Word) : State :=
  if va.toNat < 0xFF0000000000 && c != mgmtCore then
    match s.leaf (clusterOf c) t va.toNat with
    | some e => s.touchTlb (clusterOf c) e
    | none => s.walked c t va
  else s

/-- Note the use of the pages of `n` bytes (R397). -/
def State.touchRange (s : State) (c : CoreId) (t : BitVec 12) (va : Word) (n : Nat) : State :=
  (List.range ((va.toNat + n - 1) / 4096 + 1 - va.toNat / 4096)).foldl (fun s i => s.touch c t (va + BitVec.ofNat 64 (4096 * i))) s

/-! ### Fetch (R34 to R36, R413) -/

/-- Bytes `off` to `off + n - 1` of a unit as a mask. -/
def byteMask (off n : Nat) : Nat := (2 ^ n - 1) * 2 ^ off

/-- Bytes of `v` in the mask, the others from `u`; poison as R189 gives. -/
def mergeBytes (u v : PWord) (mask : Nat) : PWord :=
  let m : Word := (List.range 8).foldl (fun a i => if Nat.testBit mask i then a ||| (0xFF#64 <<< (8 * i)) else a) 0
  ⟨(u.val &&& ~~~m) ||| (v.val &&& m), if mask = 0 then u.poison else v.poison || (mask != 255 && u.poison)⟩

/-- Whether a line is the one of a number on a device. -/
def Line.isFor (l : Line) (peer line : Nat) : Bool := l.peer == peer && l.line == line

/-- Unit `u` of a line. -/
def Line.unit (l : Line) (u : Nat) : PWord := ⟨l.data.extractLsb' (64 * u) 64, l.poison.getLsbD u⟩
/-- The dirty bytes of unit `u` of a line. -/
def Line.unitDirty (l : Line) (u : Nat) : Nat := (l.dirty.extractLsb' (8 * u) 8).toNat


/-- Where the halfword at an address is fetched from: a physical byte, a local-store byte of the management core, a
peer's memory; `none` for a fetch fault. A peer outside the tenant's partition is never asked (R371); DEDUCED (log 71): the
fetch then faults. -/
def State.fetchPlace (s : State) (c : CoreId) (va : Word) : Option Place :=
  let a := va.toNat
  if 2 ^ 48 ≤ a then none
  else if c == mgmtCore then
    match mgmtReach ⟨.load, 2, false, false⟩ false a with
    | .place (.mwin _) => none
    | .place p => some p
    | _ => none
  else if 0xFF0000000000 ≤ a then none
  else match s.leafOn c (s.core c).bind.tenant a with
    | none => none
    | some e =>
      if e.x && e.owner == (s.core c).bind.tenant then
        let pa := e.frame + (a - e.vbase)
        if s.isSelf e.peer then some (.phys pa e.timed)
        else if s.inPartition (s.core c).bind.tenant e.peer then some (.peer e.peer.toNat pa) else none
      else none

/-- The halfword a place holds, with its poison tag. -/
def State.fetchHalf (s : State) (p : Place) : Half × Bool :=
  match p with
  | .phys pa _ => let u := s.homeRead pa 2; (u.val.setWidth 16, u.poison)
  | .ls c off => let u := (s.core c).ls.read off 2; (u.val.setWidth 16, u.poison)
  | _ => ((Config.freeWord s.fresh).setWidth 16, false)

/-- The halfword of a unit, `none` when it is poisoned. -/
def halfOf (u : PWord) (off : Nat) : Option Half := let h := subUnit u off 2; if h.poison then none else some (h.val.setWidth 16)

/-- The halfwords that fetch may see at a place, the latest first: a cluster's instruction cache is not kept coherent, so every
value the halfword has had since the cache was last invalidated is one of them (R36). The latest is the value with the bytes that
the cluster's own stores have dirtied and not yet written back; the home's stays possible while one of those is later than the
invalidation. `none` is a poisoned halfword. -/
def State.halves (s : State) (c : CoreId) (p : Place) : List (Option Half) :=
  let (h, bad) := s.fetchHalf p
  let now := if bad then none else some h
  match p with
  | .phys pa _ =>
    if c == mgmtCore then [now]
    else
      let cl := s.cluster (clusterOf c)
      let u := pa / 8 % 8
      let dirty := (cl.wbs.map (·.line) ++ cl.lines).filter fun l =>
        l.isFor 0 (pa / 64) && Nat.land (l.unitDirty u) (byteMask (pa % 8) 2) != 0
      let own := halfOf (dirty.foldl (fun v l => mergeBytes v (l.unit u) (l.unitDirty u)) (s.homeUnit pa)) (pa % 8)
      let latest := if dirty.isEmpty then [now] else if dirty.any fun l => decide (cl.icacheAt ≤ l.stored) then [own, now] else [own]
      let olds := ((s.slice (sliceOfPa pa)).olds.filter fun o => o.unit == pa / 8 && decide (cl.icacheAt ≤ o.at_)).map fun o =>
        halfOf o.old (pa % 8)
      (latest ++ olds).eraseDups
  | _ => [now]

/-- The halfword at an address as fetch sees it, without effect: a free value says which, where there are several; `none` for
a fetch fault. -/
def State.peekHalf (s : State) (c : CoreId) (va : Word) : Option Half :=
  match s.fetchPlace c va with
  | none => none
  | some p =>
    match s.halves c p with
    | [h] => h
    | hs => hs.getD ((Config.freeWord s.fresh).toNat % hs.length) none

/-- Fetch a halfword (R35, R36). A view unit that comes back poisoned is counted (R400). -/
def State.fetch (s : State) (c : CoreId) (va : Word) : State × Option Half :=
  match s.fetchPlace c va with
  | none => (s.walked c (s.core c).bind.tenant va, none)
  | some p =>
    let s0 := s.touch c (s.core c).bind.tenant va
    let s1 := match p with | .phys pa _ => s0.countView pa | _ => s0
    let free := (match p with | .peer _ _ => true | _ => false) || (s.halves c p).length != 1
    (if free then s1.nextFresh else s1, s.peekHalf c va)

/-- seq(x): the address after the instruction at `x`, when its first halfword can be fetched (R131). -/
def State.seqOf (s : State) (c : CoreId) (x : Word) : Option Word :=
  (s.peekHalf c x).map fun h => x + BitVec.ofNat 64 (lengthOf h)

end Sys2Proof.Machine
end

