-- ==== Sys2Proof/Machine/Control.lean ====
section
/-! DEFINITION. The fetch triple, retire, hardware loops, lane and pool grants, taking a trap and returning from one:
04 R98 to R108, 05 R131 to R140, 06 R150, 10 R229 to R231, 16 R416. -/

namespace Sys2Proof.Machine

/-! ### Trap causes (R102) -/

def cIllegal : Word := 0x01
def cMisFetch : Word := 0x02
def cFetch : Word := 0x03
def cPriv : Word := 0x04
def cMisalign : Word := 0x05
def cTrans : Word := 0x06
def cRights : Word := 0x07
def cPoison : Word := 0x08
def cPoisonStored : Word := 0x09
def cPoisonCtl : Word := 0x0A
def cPoisonExit : Word := 0x0B
def cCtxRule : Word := 0x0C
def cSoft : Word := 0x0D
def cHorizon : Word := 0x0E
def cPacket : Word := 0x0F
def cPeer : Word := 0x10
def cGuard : Word := 0x11
def cPool : Word := 0x12
def cEngine : Word := 0x13
def cLane : Word := 0x14
def cLaunch : Word := 0x15
/-- INT of TCAUSE with an interrupt's number. -/
def cInt (i : Nat) : Word := bitAt 63 ||| BitVec.ofNat 64 i

/-! ### The fetch triple (R131) -/

/-- seq(pc) of a context: by the halfword that was fetched for issue, else as fetch finds it. -/
def State.after (s : State) (c : CoreId) (x : Ctx) : Option Word := x.fetched.or (s.seqOf c x.pc)

/-- The triple with its unresolved entries resolved where the halfwords can be fetched. -/
def State.triple (s : State) (c : CoreId) (n : CtxId) : Word × Option Word × Option Word :=
  let x := s.ctx c n
  let npc := x.npc.or (s.after c x)
  (x.pc, npc, x.nnpc.or (npc.bind (s.seqOf c)))

/-- The triple as it is saved: an unresolved entry is the value before it with bit 0 set. -/
def State.savedTriple (s : State) (c : CoreId) (n : CtxId) : Word × Word × Word :=
  let (pc, npc, nnpc) := s.triple c n
  let x1 := npc.getD (pc ||| 1)
  (pc, x1, nnpc.getD (x1 ||| 1))

/-- A saved entry as RETT, resume and CTXLOAD read it. -/
def unmark (v : Word) : Option Word := if v.getLsbD 0 then none else some v

/-- The triple sequential from an address. -/
def Ctx.goto (x : Ctx) (a : Word) : Ctx := { x with pc := a, npc := none, nnpc := none, slots := 0, fetched := none }

/-- A triple read back from three saved words; a fetch address has bit 0 clear. R34 gives a trap to RETT alone when that bit of the
saved pc is set; at CTXLOAD and resume the model drops it (DESIGN CHOICE, log 75). -/
def Ctx.restore (x : Ctx) (x0 x1 x2 : Word) : Ctx :=
  { x with pc := x0 &&& ~~~1#64, npc := unmark x1, nnpc := unmark x2, slots := 0, fetched := none }

/-- The outcome of a retiring instruction. -/
inductive Flow where
  | seq
  | notTaken
  | skip (pc npc nnpc : Option Word)
  | taken (target : Word)
  | takenX (target : Word)
  deriving DecidableEq, Repr

/-- The advance of R131 before any loop-back. `skip` is a branch not taken under .N; after any other branch whose slots are not
annulled, taken or not, the next two instructions are its delay slots. -/
def State.move (s : State) (c : CoreId) (n : CtxId) (f : Flow) : Ctx :=
  let x := s.ctx c n
  let npc := (x.npc.or (s.after c x)).getD x.pc
  match f with
  | .seq => { x with pc := npc, npc := x.nnpc, nnpc := none, slots := x.slots - 1, fetched := none }
  | .notTaken => { x with pc := npc, npc := x.nnpc, nnpc := none, slots := 2, fetched := none }
  | .taken t => { x with pc := npc, npc := x.nnpc, nnpc := some t, slots := 2, fetched := none }
  | .takenX t => x.goto t
  | .skip a b d => { x with pc := a.getD x.pc, npc := b, nnpc := d, slots := 0, fetched := none }

/-! ### Hardware loops (R139) -/

/-- Whether the triple stands at the end address of a level, sequential; `next` is the address after the instruction that retires. -/
def State.atLoopEnd (s : State) (c : CoreId) (next : Option Word) (x : Ctx) (e : Word) : Bool :=
  next == some e && x.pc == e && (x.npc.isNone || x.npc == s.seqOf c e) &&
    (x.nnpc.isNone || x.nnpc == (s.seqOf c e).bind (s.seqOf c))

/-- Test one level: the context after it, whether to stop, whether a renegotiation point was met. -/
def State.loopLevel (s : State) (c : CoreId) (next : Option Word) (x : Ctx) (k : Fin 3) : Ctx × Bool × Bool :=
  let l := x.loops[k]
  let e := l.le &&& ~~~1#64
  if l.lc != 0 && l.ls.getLsbD 0 == x.tr.priv.getLsbD 0 && s.atLoopEnd c next x e then
    if l.lc.toNat > 1 then
      (({ x with loops := x.loops.set k { l with lc := l.lc - 1 } }).goto (l.ls &&& ~~~1#64), true, k == 0 && l.le.getLsbD 0)
    else ({ x with loops := x.loops.set k { l with lc := 0 } }, false, false)
  else (x, false, false)

/-- The loop-back, from the innermost level outward. -/
def State.loopBack (s : State) (c : CoreId) (next : Option Word) (x : Ctx) : Ctx × Bool :=
  if x.loops[0].lc == 0 && x.loops[1].lc == 0 && x.loops[2].lc == 0 then (x, false) else
  let (x2, stop2, r2) := s.loopLevel c next x 2
  if stop2 then (x2, r2) else
  let (x1, stop1, r1) := s.loopLevel c next x2 1
  if stop1 then (x1, r1) else
  let (x0, _, r0) := s.loopLevel c next x1 0
  (x0, r0)

/-- The advance and the loop-back of one context; whether a renegotiation point was met. -/
def State.advance (s : State) (c : CoreId) (n : CtxId) (f : Flow) : State × Bool :=
  let x := s.move c n f
  let (x', r) :=
    match f with
    | .taken _ | .takenX _ => (x, false)
    | _ => s.loopBack c (s.after c (s.ctx c n)) x
  (s.setCtx c n { x' with st := if x'.st == .stopped then .stopped else .ready, wait := none }, r)

/-! ### Vector lanes (R229 to R231) -/

/-- Lanes held by the contexts of a core. -/
def Core.lanesHeld (k : Core) : Nat := (allCtx.map fun n => (k.ctx n).lanes.g).sum
/-- Free lanes of an octet. -/
def State.laneFree (s : State) (o : Nat) : Nat :=
  32 - ((List.range 8).map fun i => (s.core (8 * o + i)).lanesHeld).sum

/-- Width(r, F) of R229. -/
def laneWidth (r f : Nat) : Nat := if 16 ≤ r && 16 ≤ f then 16 else if 8 ≤ r && 8 ≤ f then 8 else if 4 ≤ r && 4 ≤ f then 4 else 0

/-- Grant the claim of a waiting context. A VCLAIM then retires; a context that waits to resume keeps its VL (R235). -/
def State.giveLanes (s : State) (q : LaneClaim) : State × Bool :=
  let g := laneWidth q.q (s.laneFree (octetOf q.core))
  let x := s.ctx q.core q.ctx
  match x.wait with
  | some (.vclaim d _ _) =>
    (s.setCtx q.core q.ctx (({ x with lanes := ⟨g, q.q, false, g, 0⟩ }).setG d ⟨BitVec.ofNat 64 g, false⟩)).advance q.core q.ctx .seq
  | _ =>
    (s.setCtx q.core q.ctx { x with lanes := ⟨g, q.q, x.lanes.shrink || decide (g < q.saved), x.lanes.vl, 0⟩, st := .ready, wait := none }, false)

/-- The rule of R231 at a loop-back, without the grants that follow. -/
def State.renegotiate (s : State) (c : CoreId) (n : CtxId) : State :=
  let x := s.ctx c n
  let l := x.lanes
  let o := octetOf c
  let g :=
    if !(s.octet o).laneQ.isEmpty && decide (l.g > 4) then l.g / 2
    else if (s.octet o).laneQ.isEmpty && decide (l.g < l.q) && decide (l.g ≤ s.laneFree o) then 2 * l.g
    else l.g
  s.setCtx c n { x with lanes := { l with g := g, shrink := l.shrink || decide (g < l.g), vl := g } }

/-- Grant the heads of the lane queue while lanes are free (R230). -/
def State.settleLanes : Nat → State → Nat → State
  | 0, s, _ => s
  | k + 1, s, o =>
    match (s.octet o).laneQ with
    | [] => s
    | q :: rest =>
      if 4 ≤ s.laneFree o then
        let (s1, r) := (s.setOctet o { s.octet o with laneQ := rest }).giveLanes q
        State.settleLanes k (if r then s1.renegotiate q.core q.ctx else s1) o
      else s

/-- Release a context's lanes and grant the queue (R238). -/
def State.releaseLanes (s : State) (c : CoreId) (n : CtxId) : State :=
  (s.modCtx c n fun x => { x with lanes := Lanes.reset }).settleLanes 88 (octetOf c)

/-! ### Retire -/

/-- Retire the instruction of a context with an outcome (R131, R139). -/
def State.retireAt (s : State) (c : CoreId) (n : CtxId) (f : Flow) : State :=
  let (s', r) := s.advance c n f
  if r then (s'.renegotiate c n).settleLanes 88 (octetOf c) else s'

/-- Retire the executing instruction, which is not a branch. -/
def State.retire (s : State) : State := s.retireAt s.cur.core s.cur.ctx .seq

/-! ### The register pool (R147 to R150) -/

/-- Registers neither bound nor reserved. -/
def Core.poolFree (k : Core) : Nat := 32 - (allCtx.map fun n => (k.ctx n).count).sum

/-- Bind `m` registers to a context: zero, unpoisoned (R148). -/
def Ctx.bindPool (x : Ctx) (m : Nat) : Ctx := { x with count := m, v := Vector.replicate 16 VReg.zero }

/-- LOW keeps the least value of FREE (R156). -/
def Core.noteLow (k : Core) : Core := { k with low := Nat.min k.low k.poolFree }

/-- Grant the claims at the head of the pool queue while they fit; a granted CLAIM retires (R150, R153). A claim keeps its place while
its context is STOPPED (R157), and a grant that reaches it there is made: the CLAIM retires and the context stays STOPPED (DEDUCED,
log 17). -/
def State.settlePool : Nat → State → CoreId → State
  | 0, s, _ => s
  | k + 1, s, c =>
    match (s.core c).poolQ with
    | [] => s
    | (n, m) :: rest =>
      if m ≤ (s.core c).poolFree then
        let s1 := s.modCore c fun k => ({ k with poolQ := rest }).setCtx n ((k.ctx n).bindPool m)
        State.settlePool k ((s1.modCore c Core.noteLow).retireAt c n .seq) c
      else s

/-- Give back a context's registers and grant the queue (R153, R154). -/
def State.givePool (s : State) (c : CoreId) (n : CtxId) : State :=
  (s.modCtx c n fun x => x.bindPool 0).settlePool 11 c

/-- R149: the first register of a list that lies outside the bound names. -/
def Ctx.unbound (x : Ctx) (rs : List VRegN) : Option VRegN := rs.find? fun r => !decide (r.val < Nat.min x.count 16)

/-! ### What a task gives up at once when it ends or fails (R157, R235, R275) -/

/-- Engine resources of a core position: freed, contents discarded; queued jobs removed; a running job is orphaned. -/
def Octet.freeEngine (o : Octet) (c : CoreId) : Octet :=
  { o with
    tiles := o.tiles.map fun t => if t.owner == some (octPos c) then AccTile.reset else t
    ops := o.ops.map fun r => if r.owner == some (octPos c) then OpReg.reset else r
    queue := o.queue.filter fun j => j.core != c
    running := o.running.map fun j => if j.core == c then { j with orphan := true } else j }

/-- A context without its pooled registers and its lanes. -/
def Ctx.giveUp (x : Ctx) : Ctx := { x.bindPool 0 with lanes := Lanes.reset }

/-- The task of a core gives up the pool, the lanes, the claims that wait for either, and the engine's resources; lanes go to the
claims that wait. -/
def State.giveUp (s : State) (c : CoreId) : State :=
  let s1 := s.modCore c fun k => { k with ctxs := k.ctxs.map Ctx.giveUp, poolQ := [] }
  if c == mgmtCore then s1
  else
    let o := s1.octet (octetOf c)
    (s1.setOctet (octetOf c) { o.freeEngine c with laneQ := o.laneQ.filter fun q => q.core != c }).settleLanes 88 (octetOf c)

/-! ### Failure of a task (R106, R421) -/

/-- The launch number of a task's launch. -/
def State.launchNum (s : State) (t : TaskRef) : BitVec 16 :=
  match s.taskAt t with
  | some k => ((Table.find (s.sector k.home).launches k.launch).map (·.num)).getD 0
  | none => 0

/-- A task number: generation and slot (R314). -/
def State.taskNum (s : State) (t : TaskRef) : BitVec 16 :=
  match s.taskAt t with
  | some k => k.gen ++ BitVec.ofNat 10 t.slot
  | none => BitVec.ofNat 16 t.slot

/-- The event of a failed task (kind 1, R421). -/
def State.postFailure (s : State) (t : TaskRef) (tenant : BitVec 12) (cause : Word) : State :=
  let w := eventWord 1 tenant (s.launchNum t) (BitVec.ofNat 7 t.sec) (cause.getLsbD 63) (cause.extractLsb' 0 5)
    (0#2 ++ s.taskNum t)
  (s.postMgmt w).postHost w

/-- Stop every context of a core at its boundary, discarding open packets. -/
def Core.stopAll (k : Core) : Core := k.modLive fun x => { x with st := .stopped, packet := none }

/-- Whether a port entry waits there for the resolution of its task's launch: it is no home access (R327). -/
def PortEntry.waitsResolve (e : PortEntry) : Bool :=
  match e.place with
  | .phys .. | .peer .. | .ls .. => false
  | _ => true

/-- What waits in a core's ports for the resolution of a speculative launch and is discarded when the task fails: all but
stores and copy starts (R106). An accumulation on its way to a home slice goes on and is held there (R210, R327). -/
def CoreWork.discardWaits (w : CoreWork) (t : TaskRef) : CoreWork :=
  { w with
    loads := w.loads.filter fun e => match e.kind with | .atom .. => e.reply.isSome | _ => true
    port := w.port.filter fun e => match e.kind with | .acc _ => !e.waitsResolve | _ => true
    send := w.send.filter fun p => p.task != some t
    rq := w.rq.filter fun r => r.task != some t }

/-- A core's contexts leave the FIFO banks they wait at (R201, R327). -/
def State.leaveFifoBanks (s : State) (c : CoreId) (mine : CtxId → Bool) : State :=
  let k := s.cluster (clusterOf c)
  if k.fifos.any fun e => e.2.waiters.any fun w => w.core == c && mine w.ctx then
    s.setCluster (clusterOf c) { k with fifos := k.fifos.map fun e =>
      (e.1, { e.2 with waiters := e.2.waiters.filter fun w => !(w.core == c && mine w.ctx) }) }
  else s

/-- Escalate (R106): every context stops and leaves what it waits at, the lease is returned (R412), pool, lanes, claims, engine
resources and queued remote commands go at once (R157, R235, R275, R388), and the task is handed to the task engine. -/
def State.escalate (s : State) (c : CoreId) (cause value : Word) : State :=
  let k := s.core c
  let k1 := match k.bind.task with
    | some t => (match s.taskAt t with
      | some tk => if tk.spec then { k with work := k.work.discardWaits t } else k
      | none => k)
    | none => k
  let s1 := (s.setCore c { k1.stopAll with stop := some (.fail cause value), lease := 0 }).leaveFifoBanks c fun _ => true
  let s2 := s1.giveUp c
  match k.bind.task with
  | none => s2
  | some t => (s2.modCore c fun k => { k with work := { k.work with rq := k.work.rq.filter fun r => r.task != some t } }).modTask t
      fun tk => { tk with phase := .failing c cause value }

/-! ### Taking a trap (R103, R416) -/

/-- Entry into machine mode on the management core (R416). Fetch goes to the even address below an odd MVEC (DESIGN CHOICE, log 75). -/
def State.machineEntry (s : State) (n : CtxId) (cause value : Word) : State :=
  let x := s.ctx mgmtCore n
  let (x0, x1, x2) := s.savedTriple mgmtCore n
  let s1 := { s with mgmt := { s.mgmt with mxpc0 := x0, mxpc1 := x1, mxpc2 := x2, mcause := cause, mtval := value,
                                           mpp := x.tr.priv, mie := false } }
  let y := { x with st := .ready, wait := none, packet := none, tr := { x.tr with priv := 3 } }
  s1.setCtx mgmtCore n (y.goto (s.mgmt.mvec &&& ~~~1#64))

/-- A fault on the management core: with MIE = 0 fetch stops and BOOTST.ERR reads 7 (R416). -/
def State.machineFault (s : State) (n : CtxId) (cause value : Word) : State :=
  if s.mgmt.mie then s.machineEntry n cause value
  else { s with mgmt := { s.mgmt with dead := true }, spine := { s.spine with err := 7 } }

/-- The trap registers after entry (R103). -/
def TrapRegs.enter (r : TrapRegs) (cause value x0 x1 x2 : Word) (open_ : Bool) : TrapRegs :=
  { r with priv := 1, ppriv := r.priv, pkab := open_, tcause := cause, tval := value, xpc0 := x0, xpc1 := x1, xpc2 := x2 }

/-- Trap entry (R103), shared by every trap and interrupt: the saved triple is the context's own. Bit 0 of TVEC is dropped, since a
fetch address is even (DESIGN CHOICE, log 69). -/
def State.takeTrap (s : State) (c : CoreId) (n : CtxId) (cause value : Word) : State :=
  if c == mgmtCore then s.machineFault n cause value
  else
    let x := s.ctx c n
    let tvec := (s.core c).bind.tvec
    if x.tr.priv != 0 || tvec == 0 then s.escalate c cause value
    else
      let (x0, x1, x2) := s.savedTriple c n
      let tr := x.tr.enter cause value x0 x1 x2 x.packet.isSome
      s.setCtx c n (({ x with st := .ready, wait := none, packet := none, tr := tr }).goto (tvec &&& ~~~1#64))

/-- The executing instruction traps and does not retire. -/
def trap (cause value : Word) (s : State) : Res := .next (s.takeTrap s.cur.core s.cur.ctx cause value)

/-- The executing instruction retires and then traps (poison stored, R103). -/
def trapAfter (cause value : Word) (s : State) : Res := trap cause value s.retire

/-- Retire as the outcome of a meaning. -/
def done (s : State) : Res := .next s.retire

/-- The illegal-instruction trap of an instruction (R45). -/
def illegal (i : Instr) (s : State) : Res := trap cIllegal i.tval s

/-! ### The issue slot (R95, R120) -/

/-- Note that a context has issued (R95, R120), and count it (R404). -/
def Core.noteIssue (k : Core) (n : CtxId) : Core :=
  allCtx.foldl (fun k m =>
    if (k.ctx m).yield.isEmpty then k
    else k.setCtx m { k.ctx m with yield := (k.ctx m).yield.filter (· != n) }) { k.counts fun a => { a with issued := a.issued + 1 } with last := n }

/-! ### Waiting and holding (R89, R377) -/

/-- The context becomes WAITING inside an instruction; with an open packet it traps instead (R377). -/
def waitIn (i : Instr) (s : State) : Res :=
  match s.me.packet with
  | some p => trap cPacket p.pko s
  | none => .next (s.modMe fun x => { x with st := .waiting, wait := some i })

/-- The context waits for a busy unit: its instruction does not issue before the unit is free (R88, R120, R218), so the slot goes to
another context. With an open packet it traps (R377). -/
def waitForUnit (i : Instr) (s : State) : Res :=
  match waitIn i s with
  | .next t => .next (if s.me.packet.isSome then t else { t with held := true })
  | r => r

/-- The context is held: its instruction does not issue (R195, R381). -/
def hold (s : State) : Res := .next { s with held := true }

/-- Whether the clock of a core pauses: at brake level 3 that of every compute core does (R407). -/
def State.paused (s : State) (c : CoreId) : Bool := s.braked 3 && c != mgmtCore

/-- Run the instruction a WAITING context is inside, when `ok`; otherwise, and while the core's clock pauses, the step is not
enabled. -/
def wake (s : State) (c : CoreId) (n : CtxId) (ok : Bool) (run : State → Res) : Res :=
  if (s.ctx c n).st == .waiting && ok && !s.paused c then run ({ s with cur := ⟨c, n⟩ }.modCtx c n fun x => { x with st := .ready, wait := none })
  else .refused .eventDisabled

/-- A step of the device happens only where its rule allows it. -/
def guardEvent (ok : Bool) (k : Res) : Res := if ok then k else .refused .eventDisabled

/-! ### Predicates (R38, R107) -/

/-- Run under q: a poisoned predicate traps, a false one retires without effect. -/
def pred (q : Pred) (s : State) (k : Res) : Res :=
  let p := s.pReg q.idx
  if p.poison then trap cPoisonCtl (BitVec.ofNat 64 q.idx) s
  else if p.val != q.neg then k else done s

/-- A poisoned operand of a control kind traps with its number (R107). -/
def needClean (v : PWord) (num : Nat) (s : State) (k : Res) : Res :=
  if v.poison then trap cPoisonCtl (BitVec.ofNat 64 num) s else k

/-- A poisoned e register traps with its index (R52). -/
def needE (r : EReg) (s : State) (k : Word → Res) : Res :=
  let v := s.eReg r
  if v.poison then trap cPoison (BitVec.ofNat 64 r) s else k v.val

end Sys2Proof.Machine
end

