-- ==== Sys2Proof/Machine/Flags.lean ====
section
/-! DEFINITION. Number formats, rounding and the NFLAGS that numeric instructions set: 03 R57 to R87. A value is exact
until it is rounded once. -/

namespace Sys2Proof

/-- Binary float formats (R58). -/
inductive BFmt where
  | f32 | f16 | bf16 | f8a | f8b
  deriving DecidableEq, Repr

/-- The format of a scalar or vector float instruction (R80). -/
def FFmt.bin : FFmt → BFmt
  | .f32 => .f32
  | .f16 => .f16

/-- Fraction width, exponent width and bias. -/
def BFmt.frac : BFmt → Nat
  | .f32 => 23 | .f16 => 10 | .bf16 => 7 | .f8a => 3 | .f8b => 2
def BFmt.expw : BFmt → Nat
  | .f32 => 8 | .f16 => 5 | .bf16 => 8 | .f8a => 4 | .f8b => 5
def BFmt.bias : BFmt → Nat
  | .f32 => 127 | .f16 => 15 | .bf16 => 127 | .f8a => 7 | .f8b => 15
def BFmt.width (f : BFmt) : Nat := 1 + f.expw + f.frac

/-- The canonical NaN (R60). -/
def BFmt.nan : BFmt → Nat
  | .f32 => 0x7FC00000 | .f16 => 0x7E00 | .bf16 => 0x7FC0 | .f8a => 0x7F | .f8b => 0x7E

end Sys2Proof

namespace Sys2Proof.Machine

/-! ### NFLAGS (R70) -/

def fNX : Word := 1
def fUF : Word := 2
def fOF : Word := 4
def fDZ : Word := 8
def fNV : Word := 16
def fLX : Word := 32
def fLC : Word := 64
def fLN : Word := 128
/-- A flag when a condition holds. -/
def flagIf (c : Bool) (f : Word) : Word := if c then f else 0

/-! ### Formats (R58, R59) -/

/-- An exact value read from a code: NaN (signalling or not), an infinity, or (-1)^s × m × 2^e. -/
inductive FVal where
  | nan (signalling : Bool)
  | inf (s : Bool)
  | fin (s : Bool) (m : Nat) (e : Int)
  deriving DecidableEq, Repr

/-- Val(code, format) (R58, R59). -/
def fval (f : BFmt) (code : Nat) : FVal :=
  let fr := code % 2 ^ f.frac
  let ex := code / 2 ^ f.frac % 2 ^ f.expw
  let s := code / 2 ^ (f.frac + f.expw) % 2 == 1
  let top := 2 ^ f.expw - 1
  if f == .f8a then
    if ex == top && fr == 7 then .nan false
    else if ex == 0 then .fin s fr (1 - f.bias - f.frac) else .fin s (2 ^ f.frac + fr) ((ex : Int) - f.bias - f.frac)
  else if ex == top then
    if fr == 0 then .inf s else .nan (f != .f8b && decide (fr < 2 ^ (f.frac - 1)))
  else if ex == 0 then .fin s fr (1 - f.bias - f.frac)
  else .fin s (2 ^ f.frac + fr) ((ex : Int) - f.bias - f.frac)

/-! ### Rounding (R61, R73) -/

/-- The rounding modes of NMODE.RM. -/
inductive RM where
  | rne | rtz | rup | rdn
  deriving DecidableEq, Repr

/-- The mode in force: an override, else NMODE.RM (R73, R82). -/
def modeOf (r : Rnd) (nmode : Word) : RM :=
  match r with
  | .rne => .rne
  | .rtz => .rtz
  | .rup => .rup
  | .rdn => .rdn
  | .none => match (nmode.extractLsb' 0 2).toNat with
    | 0 => .rne
    | 1 => .rtz
    | 2 => .rup
    | _ => .rdn

/-- Bits of a number; 0 for 0. -/
def bitLen (m : Nat) : Nat := if m = 0 then 0 else Nat.log2 m + 1

/-- Whether a magnitude between two neighbours goes to the upper one: below half, at half or above, with the lower
neighbour odd or not. -/
def roundUp (md : RM) (s : Bool) (odd : Bool) (cmp : Ordering) (inexact : Bool) : Bool :=
  match md with
  | .rne => cmp == .gt || (cmp == .eq && odd)
  | .rtz => false
  | .rup => inexact && !s
  | .rdn => inexact && s

/-- Round the magnitude (m + δ)·2^e, with 0 < δ < 1 when `sticky`, to a multiple of 2^t: the multiple, and whether the
value differs. A sticky m must have bits to spare below 2^t. -/
def roundAt (md : RM) (s : Bool) (m : Nat) (e : Int) (sticky : Bool) (t : Int) : Nat × Bool :=
  if t ≤ e then (m * 2 ^ (e - t).toNat, sticky)
  else
    let sh := (t - e).toNat
    let q := m / 2 ^ sh
    let r := m % 2 ^ sh
    let half := 2 ^ (sh - 1)
    let cmp := if r < half then Ordering.lt else if r == half && !sticky then .eq else .gt
    let inexact := r != 0 || sticky
    (if roundUp md s (q % 2 == 1) cmp inexact then q + 1 else q, inexact)

/-- Round an exact magnitude into a format: code and flags. `satF8A` is NMODE.SAT. Overflow into F8A and F8B is R74's,
into the others IEEE 754's. -/
def roundF (f : BFmt) (md : RM) (satF8A : Bool) (s : Bool) (m : Nat) (e : Int) (sticky : Bool) : Nat × Word :=
  let p := f.frac + 1
  let emin : Int := 1 - f.bias - f.frac
  let sign := if s then 2 ^ (f.frac + f.expw) else 0
  if m = 0 && !sticky then (sign, 0)
  else
    let t0 : Int := e + bitLen m - p
    let t := if t0 < emin then emin else t0
    let (q, inexact) := roundAt md s m e sticky t
    let (q0, _) := roundAt md s m e sticky t0
    -- below the smallest normal after rounding with unbounded exponent (R61)
    let tiny := decide (q0 * 2 ^ (t0 - emin).toNat < 2 ^ f.frac * 2 ^ (emin - t0).toNat)
    let (q, t) := if q = 2 ^ p then (2 ^ (p - 1), t + 1) else (q, t)
    let mag := if q < 2 ^ f.frac then q else (t - emin + 1).toNat * 2 ^ f.frac + (q - 2 ^ f.frac)
    let limit := if f == .f8a then 0x7F else (2 ^ f.expw - 1) * 2 ^ f.frac
    if limit ≤ mag then
      let away := match md with | .rne => true | .rtz => false | .rup => !s | .rdn => s
      let code :=
        if f == .f8a then (if away && !satF8A then 0x7F else 0x7E + sign)
        else if away then limit + sign else limit - 1 + sign
      (code, fOF ||| fNX)
    else (mag + sign, flagIf inexact fNX ||| flagIf (inexact && tiny) fUF)

/-- Round a rational (-1)^s × n/d × 2^e, with d > 0. -/
def roundRat (f : BFmt) (md : RM) (satF8A : Bool) (s : Bool) (n d : Nat) (e : Int) : Nat × Word :=
  let sh := bitLen d + 64
  let m := n * 2 ^ sh / d
  roundF f md satF8A s m (e - sh) (m * d != n * 2 ^ sh)

/-! ### Arithmetic with the IEEE 754 special cases (R82) -/

def FVal.isNan : FVal → Bool
  | .nan _ => true
  | _ => false
def FVal.sig : FVal → Bool
  | .nan b => b
  | _ => false
def FVal.neg : FVal → FVal
  | .nan b => .nan b
  | .inf s => .inf (!s)
  | .fin s m e => .fin (!s) m e

/-- A NaN result with NV when an operand is signalling. -/
def nanOf (f : BFmt) (sig : Bool) : Nat × Word := (f.nan, flagIf sig fNV)
def invalid (f : BFmt) : Nat × Word := (f.nan, fNV)
def infCode (f : BFmt) (s : Bool) : Nat := (2 ^ f.expw - 1) * 2 ^ f.frac + (if s then 2 ^ (f.frac + f.expw) else 0)
def zeroCode (f : BFmt) (s : Bool) : Nat := if s then 2 ^ (f.frac + f.expw) else 0

/-- Signed value of m·2^e at the exponent `e0 ≤ e`. -/
def scaleTo (s : Bool) (m : Nat) (e e0 : Int) : Int :=
  let v : Int := (m * 2 ^ (e - e0).toNat : Nat)
  if s then -v else v

/-- Round an exact sum of two finite values; an exact zero of opposite signs is +0, or -0 under RDN. -/
def addFin (f : BFmt) (md : RM) (s1 : Bool) (m1 : Nat) (e1 : Int) (s2 : Bool) (m2 : Nat) (e2 : Int) : Nat × Word :=
  let e0 := if e1 ≤ e2 then e1 else e2
  let v := scaleTo s1 m1 e1 e0 + scaleTo s2 m2 e2 e0
  if v = 0 then (zeroCode f (if s1 == s2 then s1 else md == .rdn), 0)
  else roundF f md true (decide (v < 0)) v.natAbs e0 false

/-- FADD of exact values. -/
def faddV (f : BFmt) (md : RM) (x y : FVal) : Nat × Word :=
  match x, y with
  | .nan a, y => nanOf f (a || y.sig)
  | x, .nan b => nanOf f (x.sig || b)
  | .inf a, .inf b => if a == b then (infCode f a, 0) else invalid f
  | .inf a, _ => (infCode f a, 0)
  | _, .inf b => (infCode f b, 0)
  | .fin s1 m1 e1, .fin s2 m2 e2 => addFin f md s1 m1 e1 s2 m2 e2

/-- FMUL of exact values. -/
def fmulV (f : BFmt) (md : RM) (x y : FVal) : Nat × Word :=
  match x, y with
  | .nan a, y => nanOf f (a || y.sig)
  | x, .nan b => nanOf f (x.sig || b)
  | .inf a, .inf b => (infCode f (a != b), 0)
  | .inf a, .fin b m _ => if m = 0 then invalid f else (infCode f (a != b), 0)
  | .fin a m _, .inf b => if m = 0 then invalid f else (infCode f (a != b), 0)
  | .fin s1 m1 e1, .fin s2 m2 e2 => roundF f md true (s1 != s2) (m1 * m2) (e1 + e2) false

/-- The exact product, with 0 × ∞ as `none`. -/
def prodV (x y : FVal) : Option FVal :=
  match x, y with
  | .nan a, y => some (.nan (a || y.sig))
  | x, .nan b => some (.nan (x.sig || b))
  | .inf a, .inf b => some (.inf (a != b))
  | .inf a, .fin b m _ => if m = 0 then none else some (.inf (a != b))
  | .fin a m _, .inf b => if m = 0 then none else some (.inf (a != b))
  | .fin s1 m1 e1, .fin s2 m2 e2 => some (.fin (s1 != s2) (m1 * m2) (e1 + e2))

/-- FFMA: one rounding of the exact x × y + z; 0 × ∞ is invalid whatever the addend. -/
def ffmaV (f : BFmt) (md : RM) (x y z : FVal) : Nat × Word :=
  match prodV x y with
  | none => invalid f
  | some p => faddV f md p z

/-- FDIV of exact values. -/
def fdivV (f : BFmt) (md : RM) (x y : FVal) : Nat × Word :=
  match x, y with
  | .nan a, y => nanOf f (a || y.sig)
  | x, .nan b => nanOf f (x.sig || b)
  | .inf _, .inf _ => invalid f
  | .inf a, .fin b _ _ => (infCode f (a != b), 0)
  | .fin a _ _, .inf b => (zeroCode f (a != b), 0)
  | .fin s1 m1 e1, .fin s2 m2 e2 =>
    if m2 = 0 then (if m1 = 0 then invalid f else (infCode f (s1 != s2), fDZ))
    else if m1 = 0 then (zeroCode f (s1 != s2), 0)
    else roundRat f md true (s1 != s2) m1 m2 (e1 - e2)

/-- Integer square root by bits, from the top: structural on the number of bits. -/
def isqrtAux (n : Nat) : Nat → Nat → Nat
  | 0, r => r
  | k + 1, r => isqrtAux n k (if (r + 2 ^ k) * (r + 2 ^ k) ≤ n then r + 2 ^ k else r)
def isqrt (n : Nat) : Nat := isqrtAux n (bitLen n / 2 + 1) 0

/-- The square root of m·2^e as a number with bits to spare: m', e', sticky. -/
def sqrtMag (m : Nat) (e : Int) : Nat × Int × Bool :=
  let sh : Nat := 128 + (if e % 2 = 0 then 0 else 1)
  let n := m * 2 ^ sh
  let r := isqrt n
  (r, (e - sh) / 2, r * r != n)

/-- FSQRT of an exact value; the root of -0 is -0. -/
def fsqrtV (f : BFmt) (md : RM) (x : FVal) : Nat × Word :=
  match x with
  | .nan a => nanOf f a
  | .inf s => if s then invalid f else (infCode f false, 0)
  | .fin s m e =>
    if m = 0 then (zeroCode f s, 0)
    else if s then invalid f
    else let (r, e', st) := sqrtMag m e; roundF f md true false r e' st

/-! ### Comparison (R83, R84) -/

/-- Order of two values that are not NaN, with -0 below +0 when `signedZero`. -/
def cmpV (signedZero : Bool) (x y : FVal) : Ordering :=
  match x, y with
  | .inf a, .inf b => if a == b then .eq else if a then .lt else .gt
  | .inf a, _ => if a then .lt else .gt
  | _, .inf b => if b then .gt else .lt
  | .fin s1 m1 e1, .fin s2 m2 e2 =>
    let e0 := if e1 ≤ e2 then e1 else e2
    let a := scaleTo s1 m1 e1 e0
    let b := scaleTo s2 m2 e2 e0
    if a < b then .lt else if b < a then .gt
    else if signedZero && m1 = 0 && s1 && !s2 then .lt
    else if signedZero && m1 = 0 && !s1 && s2 then .gt else .eq
  | _, _ => .eq

/-- FMIN and FMAX (R83) on codes. -/
def fminmax (f : BFmt) (isMax : Bool) (cx cy : Nat) : Nat × Word :=
  let x := fval f cx
  let y := fval f cy
  let fl := flagIf (x.sig || y.sig) fNV
  if x.isNan && y.isNan then (f.nan, fl)
  else if x.isNan then (cy, fl)
  else if y.isNan then (cx, fl)
  else
    let c := cmpV true x y
    (if isMax then (if c == .lt then cy else cx) else (if c == .gt then cy else cx), fl)

/-- FCMP (R84): the condition and NV. -/
def fcmpV (c : FCond) (x y : FVal) : Bool × Word :=
  let nan := x.isNan || y.isNan
  let quiet := flagIf (x.sig || y.sig) fNV
  let o := cmpV false x y
  match c with
  | .eq => (!nan && o == .eq, quiet)
  | .ne => (nan || o != .eq, quiet)
  | .lt => (!nan && o == .lt, flagIf nan fNV)
  | .le => (!nan && o != .gt, flagIf nan fNV)
  | .un => (nan, quiet)

/-- FCLASS (R86). -/
def fclassV (f : BFmt) (x : FVal) : Word :=
  match x with
  | .nan true => bitOf 8
  | .nan false => bitOf 9
  | .inf s => bitOf (if s then 0 else 7)
  | .fin s m _ =>
    if m = 0 then bitOf (if s then 3 else 4)
    else if m < 2 ^ f.frac then bitOf (if s then 2 else 5) else bitOf (if s then 1 else 6)
where
  /-- One bit of a word. -/
  bitOf (i : Nat) : Word := 1#64 <<< i

/-! ### Conversion (R74, R75, R85) -/

/-- Float to float. An infinity or NaN of R74 into F8A and F8B; a signalling NaN sets NV. -/
def fcvtFF (src dst : BFmt) (md : RM) (satF8A : Bool) (code : Nat) : Nat × Word :=
  match fval src code with
  | .nan sg => (dst.nan, flagIf sg fNV)
  | .inf s =>
    if dst == .f8a then (if satF8A then 0x7E + (if s then 0x80 else 0) else 0x7F, fOF) else (infCode dst s, 0)
  | .fin s m e => roundF dst md satF8A s m e false

/-- Float to a signed or unsigned integer of `n` bits (R75). -/
def fcvtFI (src : BFmt) (n : Nat) (signed : Bool) (md : RM) (code : Nat) : Int × Word :=
  let hi : Int := if signed then 2 ^ (n - 1) - 1 else 2 ^ n - 1
  let lo : Int := if signed then -(2 ^ (n - 1)) else 0
  match fval src code with
  | .nan _ => (0, fNV)
  | .inf s => (if s then lo else hi, fNV)
  | .fin s m e =>
    let (q, inexact) := roundAt md s m e false 0
    let v : Int := if s then -(q : Int) else q
    if v < lo then (lo, fNV) else if hi < v then (hi, fNV) else (v, flagIf inexact fNX)

/-- An integer to a float (R75). -/
def fcvtIF (dst : BFmt) (md : RM) (v : Int) : Nat × Word := roundF dst md true (decide (v < 0)) v.natAbs 0 false

end Sys2Proof.Machine
end

