-- ==== Sys2Proof/Machine/Real.lean ====
section
/-! DEFINITION. Bounds of logarithms and exponentials in fixed point: a number x at precision P stands for x / 2^P.
They serve the results that a rule asks to be correctly rounded (09 R213, 10 R244): a bound on each side is rounded, and
when both give one code that code is the rounded exact value. -/

namespace Sys2Proof.Machine

/-- A lower and an upper bound, at a precision known from the context. -/
structure Iv where
  lo : Int
  hi : Int
  deriving DecidableEq, Repr

/-- Least sum of the odd powers z^(2k+1)/(2k+1), terms cut down: `p` is the current power. -/
def atanhSum (P z2 : Nat) : Nat → Nat → Nat → Nat → Nat
  | 0, _, _, acc => acc
  | n + 1, k, p, acc => atanhSum P z2 n (k + 2) (p * z2 / 2 ^ P) (acc + p / k)

/-- Terms that bring the atanh series of an argument up to 1/3 below one unit. -/
def atanhTerms (P : Nat) : Nat := P / 3 + 3

/-- Bounds of ln m for m in [1, 2]. -/
def lnUnit (P m : Nat) : Nat × Nat :=
  let z := (m - 2 ^ P) * 2 ^ P / (m + 2 ^ P)
  let s := 2 * atanhSum P (z * z / 2 ^ P) (atanhTerms P) 1 z 0
  (s, s + 8 * atanhTerms P + 16)

/-- Bounds of ln 2. -/
def ln2 (P : Nat) : Nat × Nat := lnUnit P (2 ^ (P + 1))

/-- Bounds of ln x, x > 0. -/
def lnBounds (P x : Nat) : Iv :=
  let n := bitLen x - 1
  let (a, b) := ln2 P
  if P ≤ n then
    let e := n - P
    let (l, h) := lnUnit P (x / 2 ^ e)
    ⟨(l + e * a : Nat), (h + 1 + e * b : Nat)⟩
  else
    let e := P - n
    let (l, h) := lnUnit P (x * 2 ^ e)
    ⟨(l : Int) - (e * b : Nat), (h : Int) - (e * a : Nat)⟩

/-- Bounds of ln over an interval with a positive lower bound. -/
def Iv.ln (P : Nat) (x : Iv) : Iv := ⟨(lnBounds P x.lo.toNat).lo, (lnBounds P x.hi.toNat).hi⟩

/-- Least sum of r^k/k!, terms cut down. -/
def expSum (P r : Nat) : Nat → Nat → Nat → Nat → Nat
  | 0, _, _, acc => acc
  | n + 1, k, t, acc => expSum P r n (k + 1) (t * r / 2 ^ P / k) (acc + t)

def expTerms (P : Nat) : Nat := P / 4 + 16

/-- Bounds of e^x for x ≥ 0 as bounds m of the fraction at precision P and a power of two: e^x is within m × 2^n. -/
def expParts (P x : Nat) : Nat × Nat × Nat :=
  let (a, b) := ln2 P
  let n := x / b
  let lo := expSum P (x - n * b) (expTerms P) 1 (2 ^ P) 0
  let hi := expSum P (x - n * a) (expTerms P) 1 (2 ^ P) 0 + 4 * expTerms P + 8
  (lo, hi, n)

def expLo (P x : Nat) : Nat := let (l, _, n) := expParts P x; l * 2 ^ n
def expHi (P x : Nat) : Nat := let (_, h, n) := expParts P x; h * 2 ^ n

/-- Bounds of e^x over an interval of nonnegative numbers. -/
def Iv.exp (P : Nat) (x : Iv) : Iv := ⟨(expLo P x.lo.toNat : Nat), (expHi P x.hi.toNat : Nat)⟩

/-- Bounds of e^(-x) over an interval of nonnegative numbers; beyond 2^P in size the bounds are 0 and one unit. -/
def Iv.expNeg (P : Nat) (x : Iv) : Iv :=
  if (P * 2 ^ P : Nat) < x.lo then ⟨0, 1⟩
  else
    let lo := 2 ^ (2 * P) / expHi P (if (2 * P * 2 ^ P : Nat) < x.hi then 2 * P * 2 ^ P else x.hi.toNat)
    ⟨if (2 * P * 2 ^ P : Nat) < x.hi then 0 else (lo : Nat), (2 ^ (2 * P) / expLo P x.lo.toNat + 1 : Nat)⟩

def Iv.add (x y : Iv) : Iv := ⟨x.lo + y.lo, x.hi + y.hi⟩
def Iv.neg (x : Iv) : Iv := ⟨-x.hi, -x.lo⟩
def Iv.sub (x y : Iv) : Iv := x.add y.neg
/-- Bounds of the absolute value. -/
def Iv.abs (x : Iv) : Iv :=
  if 0 ≤ x.lo then x else if x.hi ≤ 0 then x.neg
  else ⟨0, if -x.lo ≤ x.hi then x.hi else -x.lo⟩
/-- Bounds of the quotient of nonnegative numbers by positive ones. -/
def Iv.div (P : Nat) (x y : Iv) : Iv :=
  ⟨(x.lo.toNat * 2 ^ P / y.hi.toNat : Nat), (x.hi.toNat * 2 ^ P / y.lo.toNat + 1 : Nat)⟩
def Iv.exact (x : Int) : Iv := ⟨x, x⟩

/-- The precisions tried in turn. -/
def precisions : List Nat := [128, 256, 512, 1024, 2048]

/-- The first answer that a precision decides; the last precision's lower bound otherwise. -/
def decideAt {α : Type} (f : Nat → Option α) (last : α) : List Nat → α
  | [] => last
  | p :: r => match f p with
    | some a => a
    | none => decideAt f last r

/-- Round (-1)^s × x × 2^e into a float format, where x lies strictly between the bounds at precision P and is no
representable value: the code and flags when both bounds agree. -/
def roundIv (f : BFmt) (md : RM) (sat s : Bool) (P : Nat) (x : Iv) (e : Int) : Option (Nat × Word) :=
  let a := roundF f md sat s x.lo.toNat (e - P) true
  let b := roundF f md sat s (x.hi.toNat - 1) (e - P) true
  if 0 < x.lo && a == b then some a else none

/-! ### Special functions on F32 codes (10 R244) -/

/-- The functions of major 0x2A. -/
inductive SpecialFn where
  | exp | log | rcp | rsq | sig | tanh
  deriving DecidableEq, Repr

/-- Precisions at which every F32 value is exact. -/
def widePrecisions : List Nat := precisions.map (· + 256)

/-- m × 2^e at precision P, for m × 2^(e + P) whole. -/
def fixedOf (P m : Nat) (e : Int) : Nat := m * 2 ^ (e + P).toNat

/-- e^(±|x|), x = m × 2^e nonzero. -/
def expMag (neg : Bool) (m : Nat) (e : Int) : Nat × Word :=
  if 1000 < m * 2 ^ e.toNat / 2 ^ (-e).toNat then roundF .f32 .rne true false 1 (if neg then -4096 else 4096) true
  else decideAt (fun P =>
    let v := Iv.exp P (Iv.exact (fixedOf P m e : Nat))
    roundIv .f32 .rne true false P (if neg then Iv.div P (Iv.exact (2 ^ P : Nat)) v else v) 0) (0, 0) widePrecisions

/-- ln of m × 2^e, neither 0 nor 1. -/
def logMag (m : Nat) (e : Int) : Nat × Word :=
  decideAt (fun P =>
    let (a, b) := ln2 P
    let k : Iv := if 0 ≤ e then ⟨e * a, e * b⟩ else ⟨e * b, e * a⟩
    let v := (lnBounds P (m * 2 ^ P)).add k
    if 0 < v.lo then roundIv .f32 .rne true false P v 0
    else if v.hi < 0 then roundIv .f32 .rne true true P v.neg 0 else none) (0, 0) widePrecisions

/-- 1/(1 + e^(-x)) for nonzero x of a sign. -/
def sigMag (s : Bool) (m : Nat) (e : Int) : Nat × Word :=
  if 200 < m * 2 ^ e.toNat / 2 ^ (-e).toNat then
    (if s then roundF .f32 .rne true false 1 (-4096) true else roundF .f32 .rne true false (2 ^ 200 - 1) (-200) true)
  else decideAt (fun P =>
    let v := Iv.exp P (Iv.exact (fixedOf P m e : Nat))
    let one := Iv.exact (2 ^ P : Nat)
    roundIv .f32 .rne true false P (Iv.div P (if s then one else v) (v.add one)) 0) (0, 0) widePrecisions

/-- tanh of a nonzero x. -/
def tanhMag (s : Bool) (m : Nat) (e : Int) : Nat × Word :=
  if 100 < m * 2 ^ e.toNat / 2 ^ (-e).toNat then roundF .f32 .rne true s (2 ^ 200 - 1) (-200) true
  else decideAt (fun P =>
    let v := Iv.exp P (Iv.exact (fixedOf P (2 * m) e : Nat))
    let one := Iv.exact (2 ^ P : Nat)
    roundIv .f32 .rne true s P (Iv.div P (v.sub one) (v.add one)) 0) (0, 0) widePrecisions

/-- 1/√(m × 2^e), m nonzero. -/
def rsqMag (m : Nat) (e : Int) : Nat × Word :=
  let m1 := if e % 2 = 0 then m else 2 * m
  let h := e / 2
  let z := isqrt m1
  if z * z = m1 then roundRat .f32 .rne true false 1 z (-h)
  else roundF .f32 .rne true false (isqrt (2 ^ 320 / m1)) (-160 - h) true

/-- A special function of an F32 code (R244). -/
def specialV (fn : SpecialFn) (code : Nat) : Nat × Word :=
  match fval .f32 code with
  | .nan sg => nanOf .f32 sg
  | .inf s =>
    match fn with
    | .exp => (if s then 0 else infCode .f32 false, 0)
    | .log => if s then invalid .f32 else (infCode .f32 false, 0)
    | .rcp => (zeroCode .f32 s, 0)
    | .rsq => if s then invalid .f32 else (0, 0)
    | .sig => (if s then 0 else 0x3F800000, 0)
    | .tanh => (0x3F800000 + zeroCode .f32 s, 0)
  | .fin s m e =>
    if m = 0 then
      match fn with
      | .exp => (0x3F800000, 0)
      | .log => (infCode .f32 true, fDZ)
      | .rcp | .rsq => (infCode .f32 s, fDZ)
      | .sig => (0x3F000000, 0)
      | .tanh => (zeroCode .f32 s, 0)
    else
      match fn with
      | .exp => expMag s m e
      | .log => if s then invalid .f32 else if code = 0x3F800000 then (0, 0) else logMag m e
      | .rcp => roundRat .f32 .rne true s 1 m (-e)
      | .rsq => if s then invalid .f32 else rsqMag m e
      | .sig => sigMag s m e
      | .tanh => tanhMag s m e

end Sys2Proof.Machine
end

