-- ==== Sys2Proof/Machine/LevelIndex.lean ====
section
/-! DEFINITION. Level-index numbers: codes, rounding in t, arithmetic, comparison, conversion and classes
(03 R67, R68; 09 R213 to R225). -/

namespace Sys2Proof

/-- Fraction width of a format (R67). -/
def LFmt.frac : LFmt → Nat
  | .li16 => 11
  | .li32 => 27
def LFmt.width (f : LFmt) : Nat := f.frac + 5
/-- NaR, the scale of t, and the largest t of a format (R67, R68). -/
def LFmt.nar (f : LFmt) : Nat := 2 ^ (f.frac + 3)
def LFmt.one (f : LFmt) : Nat := 2 ^ f.frac
def LFmt.top (f : LFmt) : Nat := 2 ^ (f.frac + 3) - 1

/-- Formats of a conversion code (R222). -/
def LCvt.level : LCvt → LFmt
  | .li16F32 | .li16F16 | .li16Bf16 | .f32Li16 | .f16Li16 | .bf16Li16 => .li16
  | .li32F32 | .li32F16 | .li32Bf16 | .f32Li32 | .f16Li32 | .bf16Li32 => .li32
def LCvt.float : LCvt → BFmt
  | .li16F32 | .li32F32 | .f32Li16 | .f32Li32 => .f32
  | .li16F16 | .li32F16 | .f16Li16 | .f16Li32 => .f16
  | .li16Bf16 | .li32Bf16 | .bf16Li16 | .bf16Li32 => .bf16

end Sys2Proof

namespace Sys2Proof.Machine

/-- A code as read: sign, q, and t × 2^w (R67). -/
structure LNum where
  s : Bool
  q : Bool
  t : Nat
  deriving DecidableEq, Repr

def lread (f : LFmt) (code : Nat) : LNum :=
  ⟨code / 2 ^ (f.frac + 4) % 2 == 1, code / 2 ^ (f.frac + 3) % 2 == 1, code % 2 ^ (f.frac + 3)⟩
def lcode (f : LFmt) (s q : Bool) (t : Nat) : Nat :=
  (if s then 2 ^ (f.frac + 4) else 0) + (if q then 2 ^ (f.frac + 3) else 0) + t

/-- R68. -/
def LNum.isZero (x : LNum) : Bool := !x.q && x.t == 0
def LNum.isNar (f : LFmt) (x : LNum) : Bool := x.q && decide (x.t < f.one)
def LNum.isOne (f : LFmt) (x : LNum) : Bool := x.t == f.one
/-- A code with l = 0 that is read as the fraction t. -/
def LNum.isFrac (f : LFmt) (x : LNum) : Bool := !x.q && x.t != 0 && decide (x.t < f.one)
/-- The level field. -/
def LNum.level (f : LFmt) (x : LNum) : Nat := x.t / f.one

/-- A result before its LX is known: code and flags. -/
abbrev LRes := Nat × Word

/-- The code of a magnitude with a given q and rounded k (R213). -/
def lmake (f : LFmt) (s q : Bool) (k : Nat) : Nat := lcode f s (q && k != f.one) k

/-- Bounds of φ(t) for t × 2^w (R67). -/
def phiIter (P : Nat) : Nat → Iv → Iv
  | 0, x => x
  | n + 1, x => phiIter P n (x.exp P)
def phiIv (f : LFmt) (P t : Nat) : Iv :=
  phiIter P (t / f.one) (Iv.exact (t % f.one * 2 ^ (P - f.frac) : Nat))

/-- ψ(a) is a below 1 and 1 + ψ(ln a) above: the inverse of φ on nonnegative numbers. -/
def psiLo (P : Nat) : Nat → Int → Int
  | 0, x => x
  | n + 1, x => if x < (2 ^ P : Nat) then x else (2 ^ P : Nat) + psiLo P n (lnBounds P x.toNat).lo
def psiHi (P : Nat) : Nat → Int → Int
  | 0, x => x
  | n + 1, x => if x < (2 ^ P : Nat) then x else (2 ^ P : Nat) + psiHi P n (lnBounds P x.toNat).hi
def Iv.psi (P : Nat) (x : Iv) : Iv := ⟨psiLo P 8 x.lo, psiHi P 8 x.hi⟩

/-- u × 2^w to the nearest integer, ties to even (R213). -/
def roundK (f : LFmt) (P : Nat) (u : Int) : Nat := (roundAt .rne false u.toNat (-(P : Int) + f.frac) false 0).1

/-- Round an inexact u between bounds (R213): code and flags when the bounds agree. -/
def roundLevel (f : LFmt) (s q : Bool) (P : Nat) (u : Iv) : Option LRes :=
  let lim : Int := (f.top * 2 ^ (P - f.frac) : Nat)
  if lim < u.lo then some (lcode f s q f.top, fNX ||| fLC)
  else if lim < u.hi then none
  else if roundK f P u.lo == roundK f P u.hi then some (lmake f s q (roundK f P u.lo), fNX) else none

/-- LRound of (-1)^s × e^γ, γ between bounds (R213). -/
def roundLog (f : LFmt) (s : Bool) (P : Nat) (γ : Iv) : Option LRes :=
  roundLevel f s (decide (γ.hi ≤ 0)) P ((γ.abs.psi P).add (Iv.exact (2 ^ P : Nat)))

/-- A magnitude whose logarithm is too large for fixed point: t - 1 at or above 4.25. -/
def LNum.big (f : LFmt) (x : LNum) : Bool := decide (21 * f.one ≤ 4 * x.t)

/-- Bounds of ln|x| of a number that is not big, zero or NaR. -/
def LNum.logIv (f : LFmt) (P : Nat) (x : LNum) : Iv :=
  if x.t < f.one then lnBounds P (x.t * 2 ^ (P - f.frac))
  else let a := phiIv f P (x.t - f.one); if x.q then a.neg else a

/-- The result next to a big magnitude: that magnitude's code, clamped when the exact u lies above the largest t. -/
def nearBig (f : LFmt) (s : Bool) (x : LNum) (up : Bool) : LRes :=
  (lcode f s x.q x.t, if up && x.t == f.top then fNX ||| fLC else fNX)

/-- ln(1 + e^(-δ)) or ln(1 - e^(-δ)) for δ ≥ 0; `none` when the bounds do not keep 1 - e^(-δ) above zero. -/
def logOnePlus (P : Nat) (same : Bool) (δ : Iv) : Option Iv :=
  let e := (⟨if δ.lo < 0 then 0 else δ.lo, if δ.hi < 0 then 0 else δ.hi⟩ : Iv).expNeg P
  let one : Int := (2 ^ P : Nat)
  if same then some (Iv.ln P ⟨one + e.lo, one + e.hi⟩)
  else if e.hi < one then some (Iv.ln P ⟨one - e.hi, one - e.lo⟩) else none

/-- A sum's logarithm from the larger addend's and the distance to the smaller's. -/
def logSum (P : Nat) (same : Bool) (a δ : Iv) : Option Iv := (logOnePlus P same δ).map a.add

/-- LRound of one number (R213): a canonical code is exact; a fraction code is not. -/
def lcanon (f : LFmt) (x : LNum) : LRes :=
  if x.isFrac f then decideAt (fun P => roundLog f x.s P (x.logIv f P)) (0, 0) precisions
  else (lmake f x.s x.q x.t, 0)

/-- Whether |x| > |y| of big magnitudes. -/
def bigAbove (x y : LNum) : Bool :=
  if x.q == y.q then (if x.q then decide (x.t < y.t) else decide (y.t < x.t)) else y.q

/-- x + y for operands that are neither zero nor NaR and whose sum is not zero (R220). -/
def laddFin (f : LFmt) (x y : LNum) : LRes :=
  let same := x.s == y.s
  let far := fun (d o : LNum) =>
    if d.big f then nearBig f d.s d (if d.q then !(d.s == o.s) else d.s == o.s)
    else decideAt (fun P => (logSum P (d.s == o.s) (d.logIv f P) ⟨(P * 2 ^ (P + 1) : Nat), (P * 2 ^ (P + 1) : Nat)⟩).bind
      (roundLog f d.s P)) (lcanon f d) precisions
  if x.big f && y.big f then (if bigAbove y x then far y x else far x y)
  else if x.big f then (if x.q then far y x else far x y)
  else if y.big f then (if y.q then far x y else far y x)
  else if x.t ≤ f.one && y.t ≤ f.one && (scaleTo x.s x.t 0 0 + scaleTo y.s y.t 0 0).natAbs = f.one then
    (lcode f (if x.t ≤ y.t then y.s else x.s) false f.one, 0)
  else
    decideAt (fun P =>
      let a := x.logIv f P
      let b := y.logIv f P
      let d := a.sub b
      if 0 ≤ d.lo then (logSum P same a d).bind (roundLog f x.s P)
      else if d.hi ≤ 0 then (logSum P same b d.neg).bind (roundLog f y.s P)
      else if same then (logSum P same a d.abs).bind (roundLog f x.s P) else none) (lcanon f x) precisions

/-- The logarithm |ln x| as a number of its own: φ(t - 1), or ln of a fraction code. -/
def LNum.absLogIv (f : LFmt) (P : Nat) (x : LNum) : Iv := (x.logIv f P).abs

/-- ln|ln x|. -/
def LNum.logLogIv (f : LFmt) (P : Nat) (x : LNum) : Iv :=
  if 2 * f.one ≤ x.t then phiIv f P (x.t - 2 * f.one) else Iv.ln P (x.absLogIv f P)

/-- Whether ln|x| is negative. -/
def LNum.below (f : LFmt) (x : LNum) : Bool := x.q || decide (x.t < f.one)

/-- x × y for operands that are neither zero nor NaR (R220), with the sign given; a divisor comes with its q inverted and
`inv` set when it is a fraction code, whose logarithm then counts negated. -/
def lmulFin (f : LFmt) (s : Bool) (x y : LNum) (inv : Bool) : LRes :=
  let by_ := y.below f != (inv && y.t < f.one)
  let bx := x.below f
  let ly := fun P => if inv && y.t < f.one then (y.logIv f P).neg else y.logIv f P
  let mid := fun (v : LNum) => decide (f.one ≤ v.t) && decide (v.t ≤ 2 * f.one)
  let sg := fun (v : LNum) => scaleTo v.q (v.t - f.one) 0 0
  if x.isOne f then
    (if inv && y.t < f.one then decideAt (fun P => roundLog f s P (ly P)) (0, 0) precisions
     else lcanon f ⟨s, y.q, y.t⟩)
  else if y.isOne f then lcanon f ⟨s, x.q, x.t⟩
  else if x.t == y.t && bx != by_ then (lcode f s false f.one, 0)
  else if mid x && mid y && (sg x + sg y).natAbs ≤ f.one then
    (lmake f s (decide (sg x + sg y < 0)) (f.one + (sg x + sg y).natAbs), 0)
  else if !x.big f && !y.big f then
    decideAt (fun P => roundLog f s P ((x.logIv f P).add (ly P))) (0, 0) precisions
  else
    let xTop := decide (y.t ≤ x.t)
    let d := if xTop then x else y
    let o := if xTop then y else x
    let bd := if xTop then bx else by_
    let same := bx == by_
    if 25 * f.one ≤ 4 * d.t then nearBig f s ⟨s, bd, d.t⟩ same
    else
      decideAt (fun P =>
        let a := d.logLogIv f P
        (logSum P same a (a.sub (o.logLogIv f P))).bind fun g =>
          if g.lo < 0 then none else roundLevel f s bd P ((g.psi P).add (Iv.exact (2 ^ (P + 1) : Nat)))) (0, 0) precisions

/-- LX (R216): the result's level differs from the greatest level of the operands as read. -/
def withLx (f : LFmt) (l : Nat) (r : LRes) : LRes :=
  (r.1, r.2 ||| flagIf ((lread f r.1).level f != l) fLX)

/-- LADD on codes (R215, R220). -/
def laddV (f : LFmt) (cx cy : Nat) : LRes :=
  let x := lread f cx
  let y := lread f cy
  let l := Nat.max (x.level f) (y.level f)
  if x.isNar f || y.isNar f then (f.nar, fLN)
  else if x.isZero && y.isZero then (0, flagIf (l != 0) fLX)
  else if x.isZero then withLx f l (lcanon f y)
  else if y.isZero then withLx f l (lcanon f x)
  else if x.s != y.s && x.t == y.t && (x.q == y.q || x.isOne f) then (0, flagIf (l != 0) fLX)
  else withLx f l (laddFin f x y)

/-- LSUB: LADD with the sign of y inverted (R220). -/
def lsubV (f : LFmt) (cx cy : Nat) : LRes := laddV f cx (Nat.xor (cy % 2 ^ f.width) (2 ^ (f.frac + 4)))

/-- LMUL on codes (R215, R220). -/
def lmulV (f : LFmt) (cx cy : Nat) : LRes :=
  let x := lread f cx
  let y := lread f cy
  let l := Nat.max (x.level f) (y.level f)
  if x.isNar f || y.isNar f then (f.nar, fLN)
  else if x.isZero || y.isZero then (0, flagIf (l != 0) fLX)
  else withLx f l (lmulFin f (x.s != y.s) x y false)

/-- LDIV on codes (R215, R220). -/
def ldivV (f : LFmt) (cx cy : Nat) : LRes :=
  let x := lread f cx
  let y := lread f cy
  let l := Nat.max (x.level f) (y.level f)
  if x.isNar f || y.isNar f then (f.nar, fLN)
  else if y.isZero then (f.nar, if x.isZero then fNV else fDZ)
  else if x.isZero then (0, flagIf (l != 0) fLX)
  else withLx f l (lmulFin f (x.s != y.s) x ⟨y.s, if y.t < f.one then y.q else !y.q, y.t⟩ true)

/-- Order of |x| and |y|, neither NaR nor zero. -/
def lcmpMag (f : LFmt) (x y : LNum) : Ordering :=
  if x.isOne f && y.isOne f then .eq
  else if !x.isFrac f && !y.isFrac f then
    let kx := if x.q then -(x.t : Int) else x.t - 2 * f.one
    let ky := if y.q then -(y.t : Int) else y.t - 2 * f.one
    if kx < ky then .lt else if ky < kx then .gt else .eq
  else if x.isFrac f && y.isFrac f then (if x.t < y.t then .lt else if y.t < x.t then .gt else .eq)
  else
    let r := if x.isFrac f then x else y
    let o := if x.isFrac f then y else x
    let lt := if !o.q || o.isOne f then true else if o.big f then false
      else decideAt (fun P => let d := (r.logIv f P).sub (o.logIv f P);
        if 0 ≤ d.lo then some false else if d.hi ≤ 0 then some true else none) true precisions
    if x.isFrac f then (if lt then .lt else .gt) else (if lt then .gt else .lt)

/-- Order of exact values, neither NaR; both zeros are equal (R221). -/
def lcmpVal (f : LFmt) (x y : LNum) : Ordering :=
  if x.isZero && y.isZero then .eq
  else if x.isZero then (if y.s then .gt else .lt)
  else if y.isZero then (if x.s then .lt else .gt)
  else if x.s != y.s then (if x.s then .lt else .gt)
  else let o := lcmpMag f x y; if x.s then o.swap else o

/-- LCMP (R221): the condition and LN. -/
def lcmpV (f : LFmt) (c : FCond) (cx cy : Nat) : Bool × Word :=
  let x := lread f cx
  let y := lread f cy
  let n := x.isNar f || y.isNar f
  let o := lcmpVal f x y
  let r := match c with
    | .eq => !n && o == .eq
    | .ne => n || o != .eq
    | .lt => !n && o == .lt
    | .le => !n && o != .gt
    | .un => n
  (r, flagIf n fLN)

/-- A float into a level-index code (R223). -/
def floatToLevel (src : BFmt) (f : LFmt) (code : Nat) : LRes :=
  match fval src code with
  | .nan sg => (f.nar, flagIf sg fNV)
  | .inf s => (lcode f s false f.top, fLC ||| fNX)
  | .fin s m e =>
    if m = 0 then (0, 0)
    else if scaleTo false m e (if e < 0 then e else 0) = scaleTo false 1 0 (if e < 0 then e else 0) then (lcode f s false f.one, 0)
    else decideAt (fun P =>
      let (a, b) := ln2 P
      let l := lnBounds P (m * 2 ^ P)
      let k : Iv := if 0 ≤ e then ⟨e * a, e * b⟩ else ⟨e * b, e * a⟩
      roundLog f s P (l.add k)) (0, 0) precisions

/-- A level-index code into a float (R223). -/
def levelToFloat (f : LFmt) (dst : BFmt) (md : RM) (code : Nat) : Nat × Word :=
  let x := lread f code
  if x.isNar f then (dst.nan, fLN)
  else if x.isZero then (0, 0)
  else if x.t ≤ f.one then roundF dst md true x.s x.t (-(f.frac : Int)) false
  else if x.big f then roundF dst md true x.s 1 (if x.q then -4096 else 4096) true
  else decideAt (fun P =>
    let a := phiIv f P (x.t - f.one)
    if (200 * 2 ^ P : Nat) < a.lo then some (roundF dst md true x.s 1 (if x.q then -4096 else 4096) true)
    else
      let v := Iv.exp P a
      roundIv dst md true x.s P (if x.q then Iv.div P ⟨(2 ^ P : Nat), (2 ^ P : Nat)⟩ v else v) 0) (0, 0)
    (precisions.map (· + 512))

/-- LCLASS (R224). -/
def lclassV (f : LFmt) (code : Nat) : Nat :=
  let x := lread f code
  let odd := (!x.q && decide (x.t < f.one) && (x.t != 0 || x.s)) ||
    (x.q && decide (x.t < f.one) && (x.t != 0 || x.s)) || (x.q && x.isOne f)
  let cls :=
    if x.isNar f then 1
    else if x.isZero then 8
    else
      let lt := (x.q && !x.isOne f) || decide (x.t < f.one)
      if x.s then (if lt then 4 else 2) else (if lt then 16 else 32)
  cls + (if x.t == f.top then 64 else 0) + (if odd then 128 else 0) + 65536 * x.level f + (if x.q then 524288 else 0)

/-- LCVT on codes (R223). -/
def lcvtV (c : LCvt) (md : RM) (code : Nat) : Nat × Word :=
  if c.toLevel then floatToLevel c.float c.level code else levelToFloat c.level c.float md code

/-- The combine of ACC.LADD32 and of ACC.FADD32, without flags (R79, R209, R214). -/
def combineL (x y : BitVec 32) : BitVec 32 := BitVec.ofNat 32 (laddV .li32 x.toNat y.toNat).1
def combineF (x y : BitVec 32) : BitVec 32 := BitVec.ofNat 32 (faddV .f32 .rne (fval .f32 x.toNat) (fval .f32 y.toNat)).1

end Sys2Proof.Machine
end

