-- ==== Sys2Proof/Machine/Home.lean ====
section
/-! DEFINITION. What a home slice does: applying writes with their history, named stores, reads as of an instant, the
Husk log; and atomics as a home or port performs them: 07 R163 to R178, 08 R205 to R211. -/

namespace Sys2Proof.Machine

/-! ### Atomic operations (R205, R209) -/

/-- Sign-extend the low `n` bytes. -/
def sextN (n : Nat) (v : Word) : Word :=
  match n with
  | 1 => (v.setWidth 8).signExtend 64
  | 2 => (v.setWidth 16).signExtend 64
  | 4 => (v.setWidth 32).signExtend 64
  | _ => v
/-- Zero-extend the low `n` bytes. -/
def zextN (n : Nat) (v : Word) : Word :=
  match n with
  | 1 => (v.setWidth 8).setWidth 64
  | 2 => (v.setWidth 16).setWidth 64
  | 4 => (v.setWidth 32).setWidth 64
  | _ => v

/-- The new word of an atomic of `n` bytes. -/
def atomNew (op : AtomOp) (n : Nat) (old x : Word) : Word :=
  let o := zextN n old
  let y := zextN n x
  let so := sextN n old
  let sy := sextN n x
  match op with
  | .add => zextN n (o + y)
  | .and => o &&& y
  | .or => o ||| y
  | .xor => o ^^^ y
  | .min => if so.toInt ≤ sy.toInt then o else y
  | .max => if so.toInt ≥ sy.toInt then o else y
  | .minu => if o.toNat ≤ y.toNat then o else y
  | .maxu => if o.toNat ≥ y.toNat then o else y
  | .swap => y
  | .cas e _ => if o == zextN n e then y else o
  | .fadd32 => (combineF (o.setWidth 32) (y.setWidth 32)).setWidth 64
  | .ladd32 => (combineL (o.setWidth 32) (y.setWidth 32)).setWidth 64

/-- With poison: a poisoned old word or operand poisons the new word (R206, R211). A poisoned expected value of a CAS
leaves the comparison, and so the new word, poisoned (R28). -/
def atomNewP (op : AtomOp) (n : Nat) (old x : PWord) : PWord :=
  let bad := match op with | .cas _ p => p | _ => false
  ⟨atomNew op n old.val x.val, old.poison || x.poison || bad⟩

/-- The returned value, extended as R205 says. -/
def atomResult (op : AtomOp) (n : Nat) (old : Word) : Word :=
  match op with
  | .minu | .maxu => zextN n old
  | _ => sextN n old

/-- Insert by a strict order. -/
def insertBy {α : Type} (lt : α → α → Bool) (a : α) : List α → List α
  | [] => [a]
  | b :: r => if lt a b then a :: b :: r else b :: insertBy lt a r

def sortBy {α : Type} (lt : α → α → Bool) (l : List α) : List α := l.foldr (insertBy lt) []

/-! ### History (R166, R167) -/

/-- A unit changed in tick `t` and no shadow entry holds that change: the latest such tick counts. -/
def Slice.forget (k : Slice) (unit : Nat) (t : Word) : Slice :=
  match Table.find k.lost unit with
  | some x => if laterThan x t then k else { k with lost := Table.put k.lost unit t }
  | none => { k with lost := Table.put k.lost unit t }

/-- Record that a unit has changed in this tick, before the first change of the tick only. -/
def Slice.record (k : Slice) (h : Hist) (unit : Nat) (t : Word) (old : PWord) : Slice :=
  match h with
  | .untimed => k.forget unit t
  | .noPage =>
    if k.ghost.any fun e => e.unit == unit && e.tick == t then k else { k with ghost := k.ghost ++ [⟨unit, t, old⟩] }
  | .timed =>
    if k.shadow.any fun e => e.unit == unit && e.tick == t then k
    else match k.shadow with
      | o :: rest =>
        if k.shadow.length < 8192 then { k with shadow := k.shadow ++ [⟨unit, t, old⟩] }
        else Slice.forget { k with shadow := rest ++ [⟨unit, t, old⟩] } o.unit o.tick
      | [] => { k with shadow := [⟨unit, t, old⟩] }

/-- Keep the value a unit loses, for fetch (R36). -/
def Slice.keepOld (k : Slice) (unit seq : Nat) (old : PWord) : Slice := { k with olds := OldUnit.mk unit seq old :: k.olds }

/-- The tick at which a held entry takes its place in its task's own view: its arrival, or its instant if later (R347). -/
def TqEntry.placed (e : TqEntry) : Word :=
  match e.instant with
  | some t => if laterThan t e.arrived then t else e.arrived
  | none => e.arrived

/-- The tie order inside a tick: logical core, peer, context, then program order (R165). -/
def TqEntry.before (a b : TqEntry) : Bool :=
  let ka := [a.origin.lcn.toNat, a.origin.peer.toNat, a.origin.ctx.val, a.id]
  let kb := [b.origin.lcn.toNat, b.origin.peer.toNat, b.origin.ctx.val, b.id]
  decide (ka < kb)

/-- Whether an entry takes its place by its instant, in step 1 of R165. -/
def TqEntry.named (e : TqEntry) : Bool := e.instant == some e.placed

/-- Whether entry `a` takes its place before entry `b` where their ticks and the steps of R165 tell them apart. -/
def TqEntry.placedBefore (a b : TqEntry) : Bool :=
  if a.placed == b.placed then a.named && (!b.named || a.before b) else laterThan b.placed a.placed

/-- Whether a write of tick `t` stands above a held entry in its task's view: `by_` is the write when a named store, which
acts in step 1 of its tick (R165, R347). -/
def TqEntry.below (e : TqEntry) (t : Word) (by_ : Option TqEntry) : Bool :=
  if e.placed == t then (match by_ with | some f => e.named && e.before f | none => true) else laterThan t e.placed

/-- Whether a write refused in some tick is offered again now: every 4 ticks (R176). -/
def State.offeredAgain (s : State) (t : Option Word) : Bool :=
  match t with
  | none => false
  | some t => decide (0 < ahead s.time t) && (s.time - t).toNat % 4 == 0

/-- A write of bytes of a unit covers the held entries that stand before it in their tasks' views (R347). -/
def Slice.cover (k : Slice) (pa n : Nat) (t : Word) (by_ : Option TqEntry) : Slice :=
  if k.tq.any (fun e => e.held.isSome && e.pa / 8 == pa / 8) then
    { k with tq := k.tq.map fun e =>
        if e.held.isSome && e.pa / 8 == pa / 8 && e.below t by_ then
          { e with covered := (t, byteMask (pa % 8) n) :: e.covered }
        else e }
  else k

/-- VALID of a shape word (R324). -/
def shapeValid (v : PWord) : Bool := v.val.getLsbD 63

/-- The home of a shape word notes the first application that leaves VALID set (R324). -/
def Slice.notice (k : Slice) (unit : Nat) (t : Word) (v : PWord) : Slice :=
  if shapeValid v && k.watch.any (fun w => w.unit == unit && w.seen.isNone) then
    { k with watch := k.watch.map fun w => if w.unit == unit && w.seen.isNone then { w with seen := some (t, v) } else w }
  else k

/-- Write `n` bytes of one unit at its home, keeping history (R165, R166, R401); `by_` is the entry of a named store. -/
def State.homeApplyBy (s : State) (by_ : Option TqEntry) (pa n : Nat) (v : PWord) (h : Hist) : State :=
  let old := s.homeUnit pa
  let s1 := s.homeWrite pa n v
  if isHbm pa then
    let k := s1.slice (sliceOfPa pa)
    let k1 := if s1.homeUnit pa != old then (k.record h (pa / 8) s.time old).keepOld (pa / 8) s.seq old else k
    let k2 := (k1.cover pa n s.time by_).notice (pa / 8) s.time (s1.homeUnit pa)
    if k2 == k then s1 else s1.setSlice (sliceOfPa pa) k2
  else s1

/-- An operation of step 2 of R165 writes `n` bytes of one unit at its home. -/
def State.homeApply (s : State) (pa n : Nat) (v : PWord) (h : Hist) : State := s.homeApplyBy none pa n v h

/-- Write the bytes of one unit that a mask names. -/
def State.homeApplyMask (s : State) (unit mask : Nat) (v : PWord) (h : Hist) : State :=
  if mask = 0 then s else s.homeApply (8 * unit) 8 (mergeBytes (s.homeUnit (8 * unit)) v mask) h

/-- The oldest entry of a unit later than `t`: what the unit held as of `t`. -/
def asOf (es : List ShadowEntry) (unit : Nat) (t : Word) (cur : PWord) : PWord :=
  match es.foldl (fun (b : Option ShadowEntry) e =>
      if e.unit == unit && laterThan e.tick t then
        (match b with
         | none => some e
         | some x => if laterThan x.tick e.tick then some e else some x)
      else b) none with
  | some e => e.old
  | none => cur

/-- A task's own held stores laid over a unit as of tick `t`, in the order of their places (R347); of two that this order does
not tell apart the one that arrived first comes first. Accumulations are not placed in the view, nor stores to view addresses, which
never enter it (R401). -/
def Slice.ownView (k : Slice) (own : Option TaskRef) (unit : Nat) (t : Word) (u : PWord) : PWord :=
  match own with
  | none => u
  | some _ =>
    if !isHbm (8 * unit) then u else
    (sortBy TqEntry.placedBefore
      (k.tq.filter fun e => e.held == own && e.acc.isNone && e.pa / 8 == unit && !laterThan e.placed t).reverse).foldl
      (fun u e =>
        let gone := e.covered.foldl (fun m o => if laterThan o.1 t then m else Nat.lor m o.2) 0
        let keep := (List.range 8).foldl (fun m i =>
          if Nat.testBit (byteMask (e.pa % 8) e.n) i && !Nat.testBit gone i then m + 2 ^ i else m) 0
        let sh := BitVec.shiftLeft e.val.val (8 * (e.pa % 8))
        mergeBytes u (PWord.mk sh e.val.poison) keep) u

/-- A line that a cluster holds lacks a write that position `pos` has seen at the home: no later access of that position is served
from it (R345). Others may be (R351). -/
def State.markBehind (s : State) (cl pos pa : Nat) : State :=
  let k := s.cluster cl
  if k.lines.any fun l => l.isFor 0 (pa / 64) then
    s.setCluster cl { k with lines := k.lines.map fun l => if l.isFor 0 (pa / 64) then { l with behind := l.behind ||| (1#16 <<< pos) } else l }
  else s

/-- The line that the writer of an entry may still hold lacks that write. -/
def State.writerBehind (s : State) (e : TqEntry) : State :=
  if e.origin.peer == s.spine.peerno && e.hist != .noPage then
    let c := s.physOf e.origin.lcn.toNat
    s.markBehind (clusterOf c) (posOf c) e.pa
  else s

/-- Apply an entry now. -/
def State.applyEntry (s0 : State) (e : TqEntry) : State :=
  let s := s0.writerBehind e
  let by_ := if e.instant == some s.time && e.held.isNone then some e else none
  match e.acc with
  | none => s.homeApplyBy by_ e.pa e.n e.val e.hist
  | some op => s.homeApplyBy by_ e.pa e.n (atomNewP op e.n (s.homeRead e.pa e.n) e.val) e.hist

/-- Entries of a slice whose instant is this tick and which are not held. -/
def Slice.due (k : Slice) (now : Word) : List TqEntry :=
  sortBy TqEntry.before (k.tq.filter fun e => e.held.isNone && e.instant == some now)

/-- Step 1 of R165 for one slice: the named stores of this tick, in order. -/
def State.applyDue (s : State) (sl : Nat) : State :=
  let k := s.slice sl
  let s1 := (k.due s.time).foldl (fun s e => s.applyEntry e) s
  let k1 := s1.slice sl
  s1.setSlice sl { k1 with tq := k1.tq.filter fun e => !(e.held.isNone && e.instant == some s.time), applied := some s.time }

/-- Step 1 precedes every operation that acts at its arrival in the same tick (R165). -/
def State.settleHome (s : State) (pa : Nat) : State :=
  if isHbm pa && (s.slice (sliceOfPa pa)).applied != some s.time then s.applyDue (sliceOfPa pa) else s

/-- ReadAsOf for an instant that has closed (R167), served after the named stores of this tick: the value, whether STALE is
reported, and the state after. -/
def State.readAsOf (s0 : State) (pa : Nat) (timed : Bool) (t : Word) : PWord × Bool × State :=
  let s := s0.settleHome pa
  let k := s.slice (sliceOfPa pa)
  let cur := s.homeUnit pa
  let u := pa / 8
  if !timed || !isHbm pa || decide (256 < ahead s.time t) ||
      (match Table.find k.lost u with | some x => laterThan x t | none => false) then
    (cur, true, s)
  else if k.ghost.any fun e => e.unit == u && laterThan e.tick t then
    let v := if Config.freeBool s.fresh then asOf (k.shadow ++ k.ghost) u t cur else asOf k.shadow u t cur
    (v, Config.freeBool (s.fresh + 1), s.nextFresh.nextFresh)
  else (asOf k.shadow u t cur, false, s)

/-! ### Named stores (R164, R165, R173 to R175) -/

/-- ORIGIN of a Husk entry (R175). -/
def originWord (o : Origin) (held dropped : Bool) : Word :=
  0#16 ++ BitVec.ofBool held ++ BitVec.ofBool dropped ++ o.tenant ++ o.peer ++ o.lcn

/-- Append to the Husk log (R175). -/
def Slice.logHusk (k : Slice) (pa : Nat) (t arrival : Word) (o : Word) : Slice :=
  { k with husk := Table.put k.husk k.huskNext [BitVec.ofNat 64 (pa / 8 * 8), t, arrival, o],
           huskNext := (k.huskNext + 1) % 256,
           huskTotal := if k.huskTotal == BitVec.allOnes 32 then k.huskTotal else k.huskTotal + 1 }

/-- An operation of step 2: a plain write that arrives at its home (R165). -/
def State.arriveWrite (s : State) (pa n : Nat) (v : PWord) (h : Hist) : State :=
  (s.settleHome pa).homeApply pa n v h

/-- An atomic or merge that arrives at its home: the old value and the state after (R206, R211). One that leaves the word
unchanged writes nothing, but what reaches a view address sets WERR whatever it holds (R401). -/
def State.arriveAtom (s : State) (pa n : Nat) (op : AtomOp) (x : PWord) (h : Hist) : PWord × State :=
  let s1 := s.settleHome pa
  let old := s1.homeRead pa n
  let new := atomNewP op n old x
  (old, if isHbm pa && new == ⟨zextN n old.val, old.poison⟩ then s1 else s1.homeApply pa n new h)

/-- Room in a slice's queue: 3,840 entries for held writes, 4,096 in all (R177). -/
def Slice.refuses (k : Slice) (held : Bool) : Bool :=
  if held then decide (3840 ≤ (k.tq.filter fun e => e.held.isSome).length) || decide (4096 ≤ k.tq.length)
  else decide (4096 ≤ k.tq.length)

/-- What came of a timed store at its home. -/
inductive Arrival where
  | refused | notYet | onTime | late | dropped
  deriving DecidableEq, Repr

/-- A late store that makes a shape word valid, as `old` had it not yet, is reported in the tick it arrives in (R451; DEDUCED,
log 71: R324 says the tick after or later). -/
def Slice.hasten (k old : Slice) (now : Word) : Slice :=
  { k with watch := k.watch.map fun w =>
      if old.watch.any fun o => o.home == w.home && o.key == w.key && o.seen.isNone then
        { w with seen := w.seen.map fun e => (now - 1, e.2) }
      else w }

/-- A timed store or a held write reaches its home (R164, R173, R175, R176, R178). A store that names this tick after the
tick's named stores have been applied is not on its way yet: it arrives in a later tick. -/
def State.arriveTimed (s : State) (e : TqEntry) (t : Word) : Arrival × State :=
  let sl := sliceOfPa e.pa
  let k := s.slice sl
  if k.refuses e.held.isSome then (.refused, s)
  else if e.instant.isSome && t == s.time && k.applied == some s.time then (.notYet, s)
  else if e.held.isSome then
    let s1 := if e.instant.isSome && t == s.time then s else s.settleHome e.pa
    (.onTime, s1.setSlice sl { s1.slice sl with tq := (s1.slice sl).tq ++ [e] })
  else if laterThan s.time t then
    let s1 := if e.drop then s else s.arriveWrite e.pa e.n e.val e.hist
    let k1 := (s1.slice sl).hasten k s.time
    (if e.drop then .dropped else .late, s1.setSlice sl (k1.logHusk e.pa t s.time (originWord e.origin false e.drop)))
  else (.onTime, s.setSlice sl { k with tq := k.tq ++ [e] })

/-- A held write is released at its home (R178). -/
def State.releaseHeld (s : State) (e : TqEntry) : State :=
  let sl := sliceOfPa e.pa
  let k := s.slice sl
  let s0 := s.setSlice sl { k with tq := k.tq.filter (· != e) }
  match e.instant with
  | none => (s0.settleHome e.pa).applyEntry e
  | some t =>
    if laterThan t s.time then
      s0.setSlice sl { (s0.slice sl) with tq := (s0.slice sl).tq ++ [{ e with held := none }] }
    else
      let s1 := if e.drop then s0 else (s0.settleHome e.pa).applyEntry e
      s1.setSlice sl ((s1.slice sl).logHusk e.pa t e.arrived (originWord e.origin true e.drop))

/-- A write that its task sent while speculative and that arrives once the task is kept: it is acknowledged as on time and
released at once (R178). -/
def State.arriveKept (s : State) (e : TqEntry) : Arrival × State :=
  if (s.slice (sliceOfPa e.pa)).refuses false then (.refused, s) else (.onTime, s.releaseHeld e)

/-- Every slice a machine lists. -/
def State.sliceNums (s : State) : List Nat := s.slices.map (·.1)

end Sys2Proof.Machine
end

