-- ==== Sys2Proof/Machine/Operands.lean ====
section
/-! DEFINITION. Operand forms shared by the meanings: register and immediate forms under a predicate (05 R125 to R129),
the two units that are not pipelined (03 R88, 09 R218), the flags of a context, branch outcomes (05 R131), and the
registers whose values an instruction waits for (05 R120, 08 R193). -/

namespace Sys2Proof.Machine

/-- A value computed from two operands is poisoned when either is (R28). -/
def PWord.map2 (f : Word → Word → Word) (x y : PWord) : PWord := ⟨f x.val y.val, x.poison || y.poison⟩
def PWord.map1 (f : Word → Word) (x : PWord) : PWord := ⟨f x.val, x.poison⟩

/-- g[d] := f(g[a], g[b]) under q. -/
def alu3 (f : Word → Word → Word) (d a b : Reg) (q : Pred) (s : State) : Res :=
  pred q s (done (s.setG d (PWord.map2 f (s.gReg a) (s.gReg b))))
/-- g[d] := f(g[a]) under q. -/
def alu2 (f : Word → Word) (d a : Reg) (q : Pred) (s : State) : Res :=
  pred q s (done (s.setG d (PWord.map1 f (s.gReg a))))
/-- g[d] := f(g[a], imm) under q. -/
def aluImm (f : Word → Word → Word) (d a : Reg) (imm : Word) (q : Pred) (s : State) : Res :=
  alu2 (f · imm) d a q s
/-- g[d] := f(g[a]), without a predicate. -/
def unary (f : Word → Word) (d a : Reg) (s : State) : Res := done (s.setG d (PWord.map1 f (s.gReg a)))
/-- The predicate p0, which a short form uses (R48). -/
def always : Pred := ⟨0, false⟩

/-- The integer functions of R125. -/
def shl6 (x y : Word) : Word := x <<< (y.toNat % 64)
def shr6 (x y : Word) : Word := x >>> (y.toNat % 64)
def sar6 (x y : Word) : Word := x.sshiftRight (y.toNat % 64)
def minS (x y : Word) : Word := if x.sle y then x else y
def maxS (x y : Word) : Word := if y.sle x then x else y
def minU (x y : Word) : Word := if x ≤ y then x else y
def maxU (x y : Word) : Word := if y ≤ x then x else y
def clz64 (x : Word) : Word := BitVec.ofNat 64 (64 - bitLen x.toNat)
def ctzFrom (x : Word) : Nat → Nat → Nat
  | 0, i => i
  | n + 1, i => if x.getLsbD i then i else ctzFrom x n (i + 1)
def ctz64 (x : Word) : Word := BitVec.ofNat 64 (ctzFrom x 64 0)
def popcFrom (x : Word) : Nat → Nat
  | 0 => 0
  | n + 1 => (if x.getLsbD n then 1 else 0) + popcFrom x n
def popc64 (x : Word) : Word := BitVec.ofNat 64 (popcFrom x 64)
/-- Bits L + W - 1 down to L. -/
def fieldOf (x : Word) (l w : Nat) : Nat := x.toNat / 2 ^ l % 2 ^ w

/-- The conditions of R129. -/
def condHolds (c : PCond) (x y : Word) : Bool :=
  match c with
  | .eq => x == y
  | .ne => x != y
  | .lt => x.slt y
  | .le => x.sle y
  | .gt => y.slt x
  | .ge => y.sle x
  | .ltu => x.ult y
  | .leu => x.ule y
  | .gtu => y.ult x
  | .geu => y.ule x
  | .any => x &&& y != 0
  | .noneSet => x &&& y == 0
/-- Whether PCMPI sign-extends its immediate (R129). -/
def condSigned (c : PCond) : Bool :=
  match c with
  | .eq | .ne | .lt | .le | .gt | .ge => true
  | .ltu | .leu | .gtu | .geu | .any | .noneSet => false
/-- The predicate functions of R129. -/
def plogApply (f : PLogFn) (a b : Bool) : Bool :=
  match f with
  | .and => a && b
  | .or => a || b
  | .xor => a != b
  | .andn => a && !b
  | .orn => a || !b
  | .xnor => a == b

/-- The products and quotients of R130. -/
def mulHigh (x y : Word) : Word := BitVec.ofInt 64 (x.toInt * y.toInt / 2 ^ 64)
def mulHighU (x y : Word) : Word := BitVec.ofNat 64 (x.toNat * y.toNat / 2 ^ 64)
def divS (x y : Word) : Word := if y = 0 then BitVec.allOnes 64 else BitVec.ofInt 64 (x.toInt.tdiv y.toInt)
def divU (x y : Word) : Word := if y = 0 then BitVec.allOnes 64 else BitVec.ofNat 64 (x.toNat / y.toNat)
def modS (x y : Word) : Word := if y = 0 then x else BitVec.ofInt 64 (x.toInt.tmod y.toInt)
def modU (x y : Word) : Word := if y = 0 then x else BitVec.ofNat 64 (x.toNat % y.toNat)

/-! ### Flags (R72) -/

/-- OR flags into NFLAGS of the executing context. -/
def State.addFlags (s : State) (fl : Word) : State := s.modMe fun x => { x with nflags := x.nflags ||| fl }

/-! ### The divide unit and the recurrence unit (R88, R218) -/

/-- Join a queue, once. -/
def joinQueue (q : List CtxId) (n : CtxId) : List CtxId := if q.contains n then q else q ++ [n]

/-- Start an operation in the divide unit; a context that finds it busy, or others waiting, waits its turn. -/
def onDivide (i : Instr) (d : Reg) (v : PWord) (fl : Word) (s : State) : Res :=
  let w := s.myCore.work
  if w.div.isNone && w.divQ.isEmpty then
    let s1 := (s.modMyCore fun k => { k with work := { k.work with div := some ⟨s.cur.ctx, .g d, s.seq, v, fl⟩ } }).nextSeq
    done (s1.modMe (·.await (.g d) s.seq))
  else waitForUnit i (if s.me.packet.isSome then s else
    s.modMyCore fun k => { k with work := { k.work with divQ := joinQueue k.work.divQ s.cur.ctx } })

/-- Start an operation in the recurrence unit, or wait for it. -/
def onRecurrence (i : Instr) (d : Reg) (v : PWord) (fl : Word) (s : State) : Res :=
  let w := s.myCore.work
  if w.rcr.isNone && w.rcrQ.isEmpty then
    let s1 := (s.modMyCore fun k => { k with work := { k.work with rcr := some ⟨s.cur.ctx, .g d, s.seq, v, fl⟩ } }).nextSeq
    done (s1.modMe (·.await (.g d) s.seq))
  else waitForUnit i (if s.me.packet.isSome then s else
    s.modMyCore fun k => { k with work := { k.work with rcrQ := joinQueue k.work.rcrQ s.cur.ctx } })

/-- Write the result of a unit's operation and its flags. -/
def State.landUnit (s : State) (c : CoreId) (o : UnitOp) : State :=
  s.modCtx c o.ctx fun x => let y := x.land o.dst o.id o.val; { y with nflags := y.nflags ||| o.flags }

/-- Whether flags of the context are still on their way (R72). -/
def State.flagsOut (s : State) : Bool :=
  let w := s.myCore.work
  let mine := fun (o : Option UnitOp) => match o with | some u => u.ctx == s.cur.ctx | none => false
  mine w.div || mine w.rcr

/-! ### Branch outcomes (R131) -/

/-- The instruction after a run of bytes that the executing instruction needs, or a fetch fault with the address of the
halfword that cannot be fetched. -/
def withAfterSlots (s : State) (k : Word → Res) : Res :=
  let (_, npc, nnpc) := s.triple s.cur.core s.cur.ctx
  match npc with
  | none => trap cFetch s.me.pc s
  | some n1 =>
    match nnpc with
    | none => trap cFetch n1 s
    | some n2 =>
      match s.seqOf s.cur.core n2 with
      | none => trap cFetch n2 s
      | some a => k a

/-- Retire as a branch that is not taken. -/
def branchNot (sl : Slot) (s : State) : Res :=
  match sl with
  | .n => withAfterSlots s fun a => .next (s.retireAt s.cur.core s.cur.ctx (.skip (some a) none none))
  | .none | .x => .next (s.retireAt s.cur.core s.cur.ctx .notTaken)

/-- Retire as a taken branch. -/
def branchTo (sl : Slot) (t : Word) (s : State) : Res :=
  match sl with
  | .x => .next (s.retireAt s.cur.core s.cur.ctx (.takenX t))
  | .none | .n => .next (s.retireAt s.cur.core s.cur.ctx (.taken t))

/-- The link of CALL and CALLI (R133, R134): npc under .X, otherwise the instruction after the second slot. -/
def withLink (sl : Slot) (s : State) (k : Word → Res) : Res :=
  match sl with
  | .x =>
    (match (s.triple s.cur.core s.cur.ctx).2.1 with
     | none => trap cFetch s.me.pc s
     | some n1 => k n1)
  | .none | .n => withAfterSlots s k

/-- The target of B, CALL and BC: halfwords from the branch's own address. -/
def State.target (s : State) (n : Nat) (disp : BitVec n) : Word := s.me.pc + (disp.signExtend 64 <<< 1)

/-! ### Source registers (R120) -/

/-- Whether the instruction's result registers or sources wait for a value still to land. -/
def Ctx.waitsFor (x : Ctx) (rs : List RegName) : Bool := rs.any fun r => x.pend.any fun p => p.1 == r

/-- An operand that may be left out. -/
def optE : Option EReg → List RegName
  | some e => [.e e]
  | none => []

/-- The registers an instruction reads, whose values it waits for (R120, R193). A v register that keeps some of its
elements counts as read. -/
def sources : Instr → List RegName
  | .add _ a b _ | .sub _ a b _ | .and _ a b _ | .or _ a b _ | .xor _ a b _ | .andn _ a b _ | .shl _ a b _
  | .shr _ a b _ | .sar _ a b _ | .min _ a b _ | .max _ a b _ | .minu _ a b _ | .maxu _ a b _ | .sel _ a b _
  | .pcmp _ a b _ _ | .mul _ a b _ | .mulh _ a b _ | .mulhu _ a b _ | .div _ a b _ | .divu _ a b _ | .mod _ a b _
  | .modu _ a b _ | .bankmode _ a b _ | .fadd _ a b _ _ _ | .fsub _ a b _ _ _ | .fmul _ a b _ _ _
  | .fdiv _ a b _ _ _ | .fmin _ a b _ _ | .fmax _ a b _ _ | .fcmp _ a b _ _ _ | .ladd _ a b _ _ | .lsub _ a b _ _
  | .lmul _ a b _ _ | .ldiv _ a b _ _ | .lcmp _ a b _ _ _ | .tedge a b _ => [.g a, .g b]
  | .clz _ a _ | .ctz _ a _ | .popc _ a _ | .addi _ a _ _ | .andi _ a _ _ | .ori _ a _ _ | .xori _ a _ _
  | .shli _ a _ | .shri _ a _ | .sari _ a _ | .bfx _ a _ _ | .bfxu _ a _ _ | .pcmpi _ a _ _ _ | .pmovPg _ a _
  | .xld _ a _ | .xmovEg _ a | .linewb a _ | .lineinv a _ | .pin _ a _ | .unpin a _ | .jmp a _ _ | .calli a _ _
  | .claim _ a _ | .pquery _ a _ | .pka a _ | .twany _ a | .twall _ a | .tffr _ a | .tclr a | .tlwait a _
  | .mcfgOwn _ a _ | .mcfgFree _ a _ | .mjpoll _ a | .mjwait a | .vclaim _ a _ | .vlen _ a _ | .fsqrt _ a _ _ _
  | .fcvt _ a _ _ _ | .fclass _ a _ _ | .lcvt _ a _ _ _ | .lclass _ a _ _ | .launch _ a _ | .spawn _ a _
  | .boost _ a _ => [.g a]
  | .bfi d a _ _ => [.g d, .g a]
  | .movhi _ _ | .lea _ _ | .plog _ _ _ _ _ | .pmovPp _ _ _ | .pmovGp _ _ _ | .xset _ _ | .bc _ _ _ _ _ | .b _ _
  | .call _ _ | .loopi _ _ _ | .lbrk _ _ _ | .hint _ _ | .trap _ | .mfs _ _ | .give _
  | .tnow _ _ | .rxpop _ _ | .rxpeek _ _ | .tlread _ _ _ | .gset _ _ _ | .gclr _ _ | .mcfgQuery _ _ | .vrel _
  | .tinfo _ _ _ | .brel _ | .tnowS _ | .bS _ | .callS _ | .aflush | .nop | .exit | .yield | .rett | .halt | .pks
  | .nopS | .exitS | .yieldS | .giveS | .vrelS | .fusedSoftmax | .interruptTake | .mgmtInterruptTake | .alarmReached
  | .contextStop | .displacement | .resume | .thermalMigration | .sleepExpire | .joinComplete | .waitevWake
  | .twaituWake | .tlwaitWake | .mjwaitWake | .twanyWake | .twallWake | .fifoWaitComplete | .hintAlignRelease
  | .poolGrant | .laneGrant | .aflushComplete | .bankDrainComplete | .loadReplyLand | .tldServe | .timedStoreArrive
  | .timedStoreAck | .storeRetry | .plainStoreArrive | .writebackArrive | .atomicAtHome | .mergeArrive
  | .homeTickApply | .shadowEntryDiscard | .tick | .matrixJobStart | .matrixJobFinish | .copyStart | .copyResume
  | .copyAbort | .copyQueueHead | .copyIterationRelease | .copyDelivered | .copyComplete | .copyFreeze
  | .forwardedTag | .heldAccessRelease | .fifoPush | .fifoPull | .vectorMemoryComplete | .packetSend | .packetArrive
  | .packetRetry | .rldReply | .fetchtoSourceRead | .fetchtoReplyArrive | .fetchtoAck | .launchAccept
  | .taskEnterTable | .renameCommit | .coreChoice | .footprintLanded | .taskDispatch | .taskRetireComplete
  | .taskFailureComplete | .launchResolve | .deadlinePass | .shapeExpire | .controlIntervalEnd | .brakeStepEnd
  | .linkTrainingComplete | .linkFrameSend | .linkFrameReceive | .linkAckReceive | .linkHoldTimeout | .keygo
  | .tlbinv | .plimWrite | .evqPop | .rollbackWrite | .peernoWrite | .lcstateWrite | .fcmdRead | .fcmdProgram
  | .fcmdErase | .flashCommandComplete | .formatRegionEnable | .huskclr | .throttleWrite | .alertqPop | .doorbell
  | .reload | .hevqPop | .lportSubmit | .ago | .reportComplete | .hmemAccess | .registerWrite | .coldStart
  | .warmStart | .backgroundWipeGranule | .divideUnitComplete | .recurrenceUnitComplete | .migrationSwitch
  | .linkRetrain => []
  | .ldb _ base _ _ _ | .ldbu _ base _ _ _ | .ldh _ base _ _ _ | .ldhu _ base _ _ _ | .ldw _ base _ _ _
  | .ldwu _ base _ _ _ | .ldd _ base _ _ _ => [.g base]
  | .stb src base _ _ _ | .sth src base _ _ _ | .stw src base _ _ _ | .std src base _ _ _ => [.g src, .g base]
  | .tld _ base _ _ e _ => [.g base, .e e]
  | .tst src base _ _ e _ => [.g src, .g base, .e e]
  | .amoAdd _ base _ _ src _ | .amoAnd _ base _ _ src _ | .amoOr _ base _ _ src _ | .amoXor _ base _ _ src _
  | .amoMin _ base _ _ src _ | .amoMax _ base _ _ src _ | .amoMinu _ base _ _ src _ | .amoMaxu _ base _ _ src _
  | .amoSwap _ base _ _ src _ | .accAdd base _ _ src _ | .accMin base _ _ src _ | .accMax base _ _ src _
  | .accOr base _ _ src _ | .accFadd32 base _ _ src | .accLadd32 base _ _ src => [.g base, .g src]
  | .cas d base _ _ src _ => [.g d, .g base, .g src]
  | .xsetSh e _ | .xmovGe _ e | .twaitu e _ | .mrda _ _ e _ _ => [.e e]
  | .xst e a _ => [.e e, .g a]
  | .ret _ _ | .retS => [.g 15]
  | .loop g _ _ => [.g g]
  | .start d _ | .waitev d _ | .join d | .sleep d | .mts d _ | .ctxsave d _ | .ctxload d _ _ | .addiS d _ | .andiS d _ | .oriS d _ | .xoriS d _
  | .shliS d _ | .shriS d _ | .sariS d _ => [.g d]
  | .pko a e _ | .dropwin _ a e _ | .mlda _ a e _ _ | .mldb _ a e _ _ => [.g a, .e e]
  | .rld d a e _ _ | .fetchto d a e _ _ => [.g d, .g a, .e e]
  | .mmac _ _ x _ _ _ | .mmul _ _ x _ _ _ | .mmr _ _ x _ _ _ | .mzero _ _ x _ | .mscl _ _ x _ _ => optE x
  | .vadd d a b _ _ | .vsub d a b _ _ | .vmul d a b _ _ | .vmin d a b _ _ | .vmax d a b _ _ | .vand d a b _
  | .vor d a b _ | .vxor d a b _ | .vshl d a b _ | .vshr d a b _ _ | .vfadd d a b _ _ _ | .vfsub d a b _ _ _
  | .vfmul d a b _ _ _ | .vfma d a b _ _ _ | .vfmax d a b _ _ | .vfmin d a b _ _ | .vcmp d a b _ _ | .vsel d a b _
  | .vperm d a b _ | .vladd d a b _ _ | .vlmul d a b _ _ => [.v d, .v a, .v b]
  | .vfabs d a _ _ | .vfneg d a _ _ | .vexp d a _ | .vlog d a _ | .vrcp d a _ | .vrsq d a _ | .vsig d a _
  | .vtanh d a _ | .vbcastE d a _ _ | .vrsum d a _ _ | .vrmax d a _ _ | .vcvt d a _ _ _ | .vlcvt d a _ _ =>
    [.v d, .v a]
  | .vld d base _ _ _ => [.v d, .g base]
  | .vst src base _ _ _ => [.v src, .g base]
  | .vlds d base _ _ gs => [.v d, .g base, .g gs]
  | .vsts src base _ _ gs => [.v src, .g base, .g gs]
  | .vgath d base _ _ x => [.v d, .g base, .v x]
  | .vscat src base _ _ x => [.v src, .g base, .v x]
  | .vbcast d a _ => [.v d, .g a]
  | .vslideUp d a b _ | .vslideDn d a b _ => [.v d, .v a, .g b]
  | .ffma d a b _ _ _ => [.g d, .g a, .g b]
  | .addS d s | .subS d s | .andS d s | .orS d s | .xorS d s | .andnS d s | .shlS d s | .shrS d s | .sarS d s
  | .minS d s | .maxS d s | .mulS d s | .minuS d s | .maxuS d s | .stwS d s _ | .stdS d s _ => [.g d, .g s]
  | .clzS _ s | .ctzS _ s | .popcS _ s | .jmpS s | .calliS s | .ldwS _ s _ | .ldwuS _ s _ | .lddS _ s _ | .mjwaitS s
  | .joinS s | .xmovS _ s | .tlwaitS s _ => [.g s]

end Sys2Proof.Machine
end

