-- ==== Sys2Proof/Machine/Branch.lean ====
section
/-! DEFINITION. Branches, hardware loops, HINT and NOP: 05 R124, R131 to R141. -/

namespace Sys2Proof.Machine

/-- BC (R132): no prefix; a poisoned predicate traps before retire (R107). The hint changes timing only (R136). -/
def execBc (p : PReg) (neg : Bool) (sl : Slot) (_hint : Bool) (disp : BitVec 18) (s : State) : Res :=
  let v := s.pReg p
  if v.poison then trap cPoisonCtl (BitVec.ofNat 64 p) s
  else if v.val != neg then branchTo sl (s.target 18 disp) s else branchNot sl s

/-- B (R133). -/
def execB (sl : Slot) (disp : BitVec 22) (s : State) : Res := branchTo sl (s.target 22 disp) s

/-- A call: the link to g15, then a taken branch (R133). -/
def callTo (sl : Slot) (t : Word) (s : State) : Res := withLink sl s fun link => branchTo sl t (s.putG 15 link)

/-- CALL (R133). -/
def execCall (sl : Slot) (disp : BitVec 22) (s : State) : Res := callTo sl (s.target 22 disp) s

/-- Short form of B (R48). -/
def execBS (disp : BitVec 10) (s : State) : Res := branchTo .none (s.target 10 disp) s

/-- Short form of CALL (R48). -/
def execCallS (disp : BitVec 10) (s : State) : Res := callTo .none (s.target 10 disp) s

/-- A jump to a register (R134): its poison and its alignment are checked when the branch is taken. -/
def jumpVia (r : Reg) (sl : Slot) (q : Pred) (link : Bool) (s : State) : Res :=
  let p := s.pReg q.idx
  if p.poison then trap cPoisonCtl (BitVec.ofNat 64 q.idx) s
  else if p.val == q.neg then branchNot sl s
  else
    let t := s.gReg r
    needClean t r s
      (if t.val.getLsbD 0 then trap cMisFetch t.val s
       else if link then callTo sl t.val s else branchTo sl t.val s)

/-- JMP (R134). -/
def execJmp (a : Reg) (sl : Slot) (q : Pred) (s : State) : Res := jumpVia a sl q false s
/-- CALLI (R134): the target is read before the link is written. -/
def execCalli (a : Reg) (sl : Slot) (q : Pred) (s : State) : Res := jumpVia a sl q true s
/-- RET (R134): jumps to g15. -/
def execRet (sl : Slot) (q : Pred) (s : State) : Res := jumpVia 15 sl q false s
/-- Short form of JMP (R48). -/
def execJmpS (r : Reg) (s : State) : Res := jumpVia r .none always false s
/-- Short form of CALLI (R48). -/
def execCalliS (r : Reg) (s : State) : Res := jumpVia r .none always true s
/-- Short form of RET (R48). -/
def execRetS (s : State) : Res := jumpVia 15 .none always false s

/-! ### Loops (R137 to R140) -/

/-- The level a LOOP takes: 0 when none is active, else the one above the highest active (R138). -/
def Ctx.nextLevel (x : Ctx) : Nat :=
  if x.loops[2].lc != 0 then 3 else if x.loops[1].lc != 0 then 2 else if x.loops[0].lc != 0 then 1 else 0

/-- Whether the instruction issues as a delay slot: a branch is pending or the triple is not sequential (R135). -/
def State.inSlot (s : State) (i : Instr) : Bool :=
  let x := s.me
  let next := x.pc + BitVec.ofNat 64 i.length
  x.slots != 0 || x.npc.getD next != next ||
    (match x.nnpc with
     | some b => s.seqOf s.cur.core next != some b
     | none => false)

/-- LOOP and LOOPI: `n` is the count once it is known (R138). -/
def startLoop (i : Instr) (n : PWord) (src : Nat) (reneg : Bool) (e : BitVec 11) (s : State) : Res :=
  let x := s.me
  let k := x.nextLevel
  if s.inSlot i || k == 3 then illegal i s
  else needClean n src s
    (let endaddr := x.pc + (e.setWidth 64 <<< 1)
     if n.val = 0 then .next (s.retireAt s.cur.core s.cur.ctx (.takenX endaddr))
     else
       let cnt : Word := if n.val.toNat < 2 ^ 32 then n.val else 0xFFFFFFFF
       let l : Loop := ⟨cnt, (x.pc + 4) ||| (if x.tr.priv.getLsbD 0 then 1 else 0), endaddr ||| (if reneg then 1 else 0)⟩
       done (s.setMe { x with loops := x.loops.setIfInBounds k l }))

/-- LOOP (R138): the count is the least of g and 2^32 - 1. -/
def execLoop (g : Reg) (reneg : Bool) (e : BitVec 11) (s : State) : Res :=
  startLoop (.loop g reneg e) (s.gReg g) g reneg e s
/-- LOOPI (R138). -/
def execLoopi (cm1 : BitVec 10) (reneg : Bool) (e : BitVec 11) (s : State) : Res :=
  startLoop (.loopi cm1 reneg e) ⟨cm1.setWidth 64 + 1, false⟩ 0 reneg e s

/-- The innermost active level of the executing mode (R140). -/
def Ctx.innermost (x : Ctx) : Option (Fin 3) :=
  [2, 1, 0].find? fun k : Fin 3 => x.loops[k].lc != 0 && x.loops[k].ls.getLsbD 0 == x.tr.priv.getLsbD 0

/-- LBRK (R140). -/
def execLbrk (p : PReg) (neg : Bool) (sl : Slot) (s : State) : Res :=
  let v := s.pReg p
  if v.poison then trap cPoisonCtl (BitVec.ofNat 64 p) s
  else if v.val == neg then branchNot sl s
  else match s.me.innermost with
    | none => illegal (.lbrk p neg sl) s
    | some k =>
      let l := s.me.loops[k]
      branchTo sl (l.le &&& ~~~1#64) (s.modMe fun x => { x with loops := x.loops.set k { l with lc := 0 } })

/-! ### HINT and NOP (R124) -/

/-- NOP (R124). -/
def execNop (s : State) : Res := done s
/-- Short form of NOP (R48). -/
def execNopS (s : State) : Res := done s

end Sys2Proof.Machine
end

