-- ==== Sys2Proof/Machine/Template.lean ====
section
/-! DEFINITION. Copy templates as captured, the elements a copy moves, and the accesses its watermark holds:
12 R280, R281, R284, R285, R289, R290. -/

namespace Sys2Proof.Machine

namespace CopyStart

def word (c : CopyStart) (i : Nat) : Word := c.image.getD i 0
/-- A field of a template word. -/
def field (c : CopyStart) (i lo n : Nat) : Nat := (c.word i).toNat / 2 ^ lo % 2 ^ n
def size (c : CopyStart) : Nat := 2 ^ c.field 2 16 2
def ndim (c : CopyStart) : Nat := c.field 2 12 4
def mode (c : CopyStart) : Nat := c.field 2 18 2
def looping (c : CopyStart) : Bool := (c.word 2).getLsbD 20
def scopeNo (c : CopyStart) : Nat := c.field 2 21 3
def tagen (c : CopyStart) : Bool := (c.word 2).getLsbD 6
def tag (c : CopyStart) : Nat := c.field 2 0 6
def isWalk (c : CopyStart) : Bool := c.mode == 1
def cmode (c : CopyStart) : Nat := if c.isWalk then 0 else c.field 3 10 2
def prec (c : CopyStart) : Nat := c.field 3 4 4 + 1
def sgn (c : CopyStart) : Bool := (c.word 3).getLsbD 3
def srcFmt (c : CopyStart) : Nat := c.field 3 0 3
/-- F32, F16 and BF16 sources carry exponents (R283). -/
def isFloat (c : CopyStart) : Bool := decide (4 ≤ c.srcFmt)
def iters (c : CopyStart) : Nat := if c.looping then c.field 5 0 16 + 1 else 1
def stages (c : CopyStart) : Nat := c.field 5 16 2 + 1
def dstage (c : CopyStart) : Nat := c.field 5 32 32
def src (c : CopyStart) : Word := c.word 0 + c.psrc
def dst (c : CopyStart) : Word := c.word 1 + c.pdst
def count (c : CopyStart) (k : Nat) : Nat := c.field (9 + 2 * k) 48 16 + 1
def sstride (c : CopyStart) (k : Nat) : Word := c.word (8 + 2 * k)
def dstride (c : CopyStart) (k : Nat) : Word := ((c.word (9 + 2 * k)).setWidth 48).signExtend 64
def counts (c : CopyStart) : List Nat := (List.range c.ndim).map c.count
/-- Elements of one iteration of a strided copy. -/
def total (c : CopyStart) : Nat := c.counts.foldl (· * ·) 1

end CopyStart

/-- The indices of element `k`, the first varying fastest (R281). -/
def digits : List Nat → Nat → List Nat
  | [], _ => []
  | c :: r, k => (k % c) :: digits r (k / c)

/-- Sum over the dimensions of index times stride. -/
def strideSum (f : Nat → Word) : Nat → List Nat → Word
  | _, [] => 0
  | k, i :: r => BitVec.ofNat 64 i * f k + strideSum f (k + 1) r

/-- One element move: source, destination and bytes. -/
structure CopyStep where
  src : Word
  dst : Word
  n : Nat
  deriving DecidableEq, Repr

/-- Bytes a converted tile takes: 128 a plane, and 32 exponents for float sources (R255, R283). -/
def CopyStart.tileBytes (c : CopyStart) : Nat := 128 * c.prec + (if c.isFloat then 32 else 0)

/-- Steps of one iteration: units written by a conversion, index and value entries of a walk, or elements. -/
def Chan.stepCount (h : Chan) (c : CopyStart) : Nat :=
  if c.cmode != 0 then c.tileBytes / 8 else if c.isWalk then 2 * (h.walk.2 - h.walk.1) else c.total

/-- Step `k` of iteration `j` (R281, R284, R285); the source of a conversion's step is not used. -/
def Chan.step (h : Chan) (c : CopyStart) (j k : Nat) : CopyStep :=
  if c.cmode != 0 then ⟨c.src, c.dst + BitVec.ofNat 64 (8 * k), 8⟩
  else if c.isWalk then
    let n := h.walk.2 - h.walk.1
    if k < n then ⟨c.word 5 + BitVec.ofNat 64 (4 * (h.walk.1 + k)), c.word 6 + BitVec.ofNat 64 (4 * k), 4⟩
    else
      let i := k - n
      ⟨c.src + BitVec.ofNat 64 (c.size * (h.walk.1 + i)), c.dst + BitVec.ofNat 64 (c.size * i), c.size⟩
  else
    let ix := digits c.counts k
    ⟨c.src + (if c.looping then BitVec.ofNat 64 j * c.word 4 else 0) + strideSum c.sstride 0 ix,
     c.dst + (if c.looping then BitVec.ofNat 64 (j % c.stages * c.dstage) else 0) + strideSum c.dstride 0 ix, c.size⟩

/-- Steps of an iteration that have been taken: a walk's first is the read of its row pointers. -/
def Chan.taken (h : Chan) (cs : CopyStart) : Nat := if cs.isWalk then h.elem - 1 else h.elem
/-- Whether every step of the iteration has been taken. -/
def Chan.allTaken (h : Chan) (cs : CopyStart) : Bool :=
  if cs.isWalk then decide (h.stepCount cs < h.elem) else decide (h.stepCount cs ≤ h.elem)

/-- The number of the current iteration. -/
def Chan.number (h : Chan) (cs : CopyStart) : Nat := cs.num + h.iter

/-- Whether the current iteration has been delivered. -/
def Chan.isDelivered (h : Chan) (cs : CopyStart) : Bool := h.delivered.contains (h.number cs)

/-- The first step whose destination the watermark covers (R284). -/
def Chan.firstMarked (h : Chan) (c : CopyStart) : Nat := if c.isWalk then h.walk.2 - h.walk.1 else 0

/-- Destinations the watermark covers, as address and bytes. -/
def Chan.dests (h : Chan) (c : CopyStart) (j : Nat) : List (Nat × Nat) :=
  (List.range (h.stepCount c)).drop (h.firstMarked c) |>.map fun k => let t := h.step c j k; (t.dst.toNat, t.n)

/-- The storage an access reaches: kind, unit and offset (R290). -/
def State.storage (s : State) (p : Place) : Nat × Nat × Nat :=
  match p with
  | .ls c off => (0, c, off)
  | .peerLs l off => (0, s.physOf l, off)
  | .sram cl off => if (s.cluster cl).mode (off / 4096) == .fifo then (1, cl, off / 4096 * 4096) else (1, cl, off)
  | .phys pa _ => (2, 0, pa)
  | .peer n pa => (3, n, pa)
  | .inj c off => (4, c, off)
  | .rx c off => (5, c, off)
  | .aperture ch off => (6, ch, off)
  | .mwin off => (7, 0, off)

/-- Whether `n` bytes of one place and `m` of another have a byte in common. -/
def State.overlap (s : State) (p : Place) (n : Nat) (q : Place) (m : Nat) : Bool :=
  let (a, b, x) := s.storage p
  let (c, d, y) := s.storage q
  a == c && b == d && decide (x < y + m) && decide (y < x + n)

/-- The storage that a destination byte of a copy names, whatever its rights (R290). -/
def State.destPlace (s : State) (c : CopyStart) (va : Word) : Option Place :=
  if va.toNat < 0xFF0000000000 then
    (s.leafOn c.core c.tenant va.toNat).map fun e =>
      let pa := e.frame + (va.toNat - e.vbase)
      if s.isSelf e.peer then .phys pa e.timed else .peer e.peer.toNat pa
  else match s.reachT c.core c.tenant ⟨.store, 8, false, false⟩ va with
    | .place q => some q
    | _ => none

/-- Whether an access shares a byte with a destination byte of a channel's iteration above its watermark (R290). -/
def State.aboveMark (s : State) (h : Chan) (c : CopyStart) (p : Place) (n : Nat) : Bool :=
  let lo := (h.wmark + 1).toNat
  (h.dests c h.iter).any fun (a, m) =>
    (List.range m).any fun b =>
      decide (lo ≤ a + b) && decide (a + b ≤ h.dhi.toNat) &&
        (match s.destPlace c (BitVec.ofNat 64 (a + b)) with
         | some q => s.overlap p n q 1
         | none => false)

/-- What the copies of an octet do to an access of one of its cores. -/
inductive Mark where
  | free | held | frozen
  deriving DecidableEq, Repr

/-- R290: held while a channel runs, until the iteration is delivered; poisoned when it is frozen. DEDUCED (log 71): R290 says
such an access may be held up to the watermark, and R288, R297 and R446 allow the old value once a copy is delivered. -/
def State.mark (s : State) (c : CoreId) (p : Place) (n : Nat) : Mark :=
  if c == mgmtCore then .free
  else
    let chs := (s.octet (octetOf c)).chans.toList
    let hit := fun (st : ChanState) => chs.any fun h =>
      match h.cur with
      | some cs => h.state == st && !h.isDelivered cs && s.aboveMark h cs p n
      | none => false
    if hit .running then .held else if hit .frozen then .frozen else .free

end Sys2Proof.Machine
end

