-- ==== Sys2Proof/Machine/Cache.lean ====
section
/-! DEFINITION. The cluster cache, write-backs, the accumulation buffer, and the release and acquire actions:
08 R194, R200, R202 to R204, R210 to R212; 14 R339, R347. -/

namespace Sys2Proof.Machine

/-! ### Reads at homes -/

/-- What a peer device's home returns: a free value (log 2). -/
def State.peerRead (s : State) : PWord × State :=
  (⟨Config.freeWord s.fresh, Config.freeBool s.fresh⟩, s.nextFresh)

/-- The unit of a physical address as its home serves it now: the named stores of this tick come first (R165). -/
def State.serveUnit (s : State) (pa : Nat) : PWord × State :=
  let s1 := (s.settleHome pa).countView pa
  (s1.homeUnit pa, s1)

/-- The held stores of a speculative task laid over a served unit (R347). -/
def State.serveOwn (s : State) (own : Option TaskRef) (pa : Nat) : PWord × State :=
  let (u, s1) := s.serveUnit pa
  ((s1.slice (sliceOfPa pa)).ownView own (pa / 8) s1.time u, s1)

/-- A read of a physical or peer unit at its home. -/
def State.serveAt (s : State) (peer pa : Nat) : PWord × State := if peer = 0 then s.serveUnit pa else s.peerRead

/-! ### Lines (R200) -/

/-- The line number of a physical address. -/
def lineOf (pa : Nat) : Nat := pa / 64

/-- The valid bytes of unit `u` of a line. -/
def Line.unitValid (l : Line) (u : Nat) : Nat := (l.valid.extractLsb' (8 * u) 8).toNat

/-- The 64 data bits of a unit replaced. -/
def setUnit512 (x : BitVec 512) (u : Nat) (v : Word) : BitVec 512 :=
  (x &&& ~~~((BitVec.allOnes 64).setWidth 512 <<< (64 * u))) ||| (v.setWidth 512 <<< (64 * u))
/-- One bit of eight set or cleared. -/
def setBit8 (x : BitVec 8) (u : Nat) (b : Bool) : BitVec 8 :=
  if b then x ||| (1#8 <<< u) else x &&& ~~~(1#8 <<< u)

def Line.setUnit (l : Line) (u : Nat) (v : PWord) : Line :=
  { l with data := setUnit512 l.data u v.val, poison := setBit8 l.poison u v.poison }

/-- Bring the bytes of a unit that are not valid from a value read at the home. -/
def Line.fillUnit (l : Line) (u : Nat) (v : PWord) : Line :=
  let need := 255 - l.unitValid u
  if need = 0 then l
  else
    let bad := (l.unit u).poison || (v.poison && l.unitDirty u != 255)
    { l.setUnit u ⟨(mergeBytes (l.unit u) v need).val, bad⟩ with valid := l.valid ||| ((0xFF#64) <<< (8 * u)) }

/-- Store `n` bytes at an offset of a line from a core position, when `seq` stands at `at_`. The timed flag of the line, with which its
dirty bytes are written back, is that of the page of its last store (DESIGN CHOICE, log 75: R166 speaks of the flag of a write's page and
not of a line that pages with different flags have dirtied). -/
def Line.store (l : Line) (off n : Nat) (v : PWord) (pos : Nat) (timed : Bool) (at_ : Nat) : Line :=
  let u := off / 8
  let m := byteMask (off % 8) n
  let sh := PWord.mk (BitVec.shiftLeft v.val (8 * (off % 8))) v.poison
  let bits : BitVec 64 := BitVec.ofNat 64 m <<< (8 * u)
  { l.setUnit u (mergeBytes (l.unit u) sh m) with
    valid := l.valid ||| bits, dirty := l.dirty ||| bits, writers := l.writers ||| (1#16 <<< pos), timed := timed,
    stored := at_ }

/-- Ways of the cluster cache: the banks in cache mode. -/
def Cluster.ways (k : Cluster) : Nat := (k.modes.toList.filter (· == .cache)).length
def Cluster.findLine (k : Cluster) (peer line : Nat) : Option Line := k.lines.find? (·.isFor peer line)
/-- Put a line at the front: most recently used. -/
def Cluster.putLine (k : Cluster) (l : Line) : Cluster :=
  { k with lines := l :: k.lines.filter fun x => !x.isFor l.peer l.line }
def Cluster.dropLine (k : Cluster) (peer line : Nat) : Cluster :=
  { k with lines := k.lines.filter fun x => !x.isFor peer line }

/-! ### Write-backs (R194, R342) -/

/-- Send a line's dirty bytes on their way home. -/
def State.sendBack (s : State) (cl : Nat) (l : Line) : State :=
  if l.dirty = 0 then s
  else
    let k := s.cluster cl
    (s.setCluster cl { k with wbs := k.wbs ++ [⟨s.seq, l⟩] }).nextSeq

/-- Apply the dirty bytes of a line at their home (R165 step 2). -/
def State.applyLine (s : State) (l : Line) : State :=
  if l.peer != 0 then s
  else
    let s0 := s.settleHome (64 * l.line)
    (List.range 8).foldl (fun s u =>
      s.homeApplyMask (8 * l.line + u) (l.unitDirty u) (l.unit u) (if l.timed then .timed else .untimed)) s0

/-- Apply every write-back of one line that is on its way from a cluster, oldest first. -/
def State.landBacks (s : State) (cl peer line : Nat) : State :=
  let k := s.cluster cl
  let (mine, rest) := k.wbs.partition fun w => w.line.isFor peer line
  if mine.isEmpty then s else mine.foldl (fun s w => s.applyLine w.line) (s.setCluster cl { k with wbs := rest })

/-- Write back and invalidate the cluster's copy of a line (R169, R170, R206, R211): its dirty bytes set out. -/
def State.flushLine (s : State) (cl peer line : Nat) : State :=
  match (s.cluster cl).findLine peer line with
  | none => s
  | some l => (s.setCluster cl ((s.cluster cl).dropLine peer line)).sendBack cl l

/-- The cluster's dirty bytes of a line reach the home before an access of the cluster acts there (R340). -/
def State.settleLine (s : State) (cl peer line : Nat) : State := (s.flushLine cl peer line).landBacks cl peer line

/-- The dirty bytes of a line are applied at their home, and the line stays valid and clean (R202, R298). -/
def State.cleanLine (s : State) (cl peer line : Nat) : State :=
  let s1 := s.landBacks cl peer line
  match (s1.cluster cl).findLine peer line with
  | none => s1
  | some x =>
    let s2 := s1.applyLine x
    let k := s2.cluster cl
    s2.setCluster cl { k with lines := k.lines.map fun y => if y.isFor peer line then { y with dirty := 0, writers := 0 } else y }

/-- A line that lacks a write its reader has seen is not served to that position again: it is read anew at the home (R345). -/
def State.catchUp (s : State) (cl pos line : Nat) : State :=
  if (s.cluster cl).lines.any fun l => l.isFor 0 line && l.behind.getLsbD pos then s.settleLine cl 0 line else s

/-- Room for a new line of a set: the set's least recently used unpinned line gives way; `none` when all are pinned. -/
def State.makeRoom (s : State) (cl line : Nat) : Option State :=
  let k := s.cluster cl
  let set := k.lines.filter fun l => l.line % 64 == line % 64
  if set.length < k.ways then some s
  else match (set.reverse.find? fun l => l.pin.isNone) with
    | none => none
    | some v => some ((s.setCluster cl (k.dropLine v.peer v.line)).sendBack cl v)

/-- Read what a line still lacks at its home. -/
def State.fillLine (s : State) (l : Line) : Line × State :=
  (List.range 8).foldl (fun (acc : Line × State) u =>
    let (l, s) := acc
    if l.unitValid u = 255 then (l, s)
    else
      let (v, s1) := s.serveAt l.peer (64 * l.line + 8 * u)
      (l.fillUnit u v, s1)) (l, s)

/-- The cluster's own write-backs of a line land before the line is filled again: it never reads behind them (R345). -/
def State.freshLine (s : State) (cl peer line : Nat) (timed : Bool) : Line × State :=
  (⟨peer, line, 0, 0, 0, 0, 0, none, timed, 0, 0⟩, s.landBacks cl peer line)

/-- A load through the cluster cache: `n` bytes of one unit (R194). -/
def State.cacheLoad (s : State) (cl peer pa n : Nat) (timed : Bool) : PWord × State :=
  let ln := lineOf pa
  let direct := fun (s : State) => let (u, s1) := (s.landBacks cl peer ln).serveAt peer pa; (subUnit u (pa % 8) n, s1)
  if (s.cluster cl).ways = 0 then direct s
  else
    let serve := fun (l : Line) (s : State) =>
      let need := byteMask (pa % 8) n
      let (l1, s1) := if Nat.land (l.unitValid (pa / 8 % 8)) need = need then (l, s) else s.fillLine l
      (subUnit (l1.unit (pa / 8 % 8)) (pa % 8) n, s1.setCluster cl ((s1.cluster cl).putLine l1))
    match (s.cluster cl).findLine peer ln with
    | some l => serve l (s.landBacks cl peer ln)
    | none =>
      match s.makeRoom cl ln with
      | none => direct s
      | some s1 => let (l, s2) := s1.freshLine cl peer ln timed; serve l s2

/-- A store through the cluster cache: `n` bytes of one unit from core position `pos` (R194, R200). -/
def State.cacheStore (s : State) (cl pos peer pa n : Nat) (v : PWord) (timed : Bool) : State :=
  let ln := lineOf pa
  let direct := fun (s : State) =>
    let s1 := s.landBacks cl peer ln
    if peer = 0 then s1.arriveWrite pa n v (if timed then .timed else .untimed) else s1
  if (s.cluster cl).ways = 0 then direct s
  else
    let put := fun (l : Line) (s : State) =>
      s.setCluster cl ((s.cluster cl).putLine (l.store (pa % 64) n v pos timed s.seq))
    match (s.cluster cl).findLine peer ln with
    | some l => put l s
    | none =>
      match s.makeRoom cl ln with
      | none => direct s
      | some s1 => put ⟨peer, ln, 0, 0, 0, 0, 0, none, timed, 0, 0⟩ s1

/-! ### The accumulation buffer (R210, R211) -/

/-- The peer and line of a place that a cache can hold. -/
def Place.cacheLine : Place → Option (Nat × Nat)
  | .phys pa _ => some (0, lineOf pa)
  | .peer n pa => some (n, lineOf pa)
  | _ => none

/-- Start the merge of an entry: the cluster's copy of its line is written back first (R211). -/
def State.startMerge (s : State) (cl : Nat) (e : AccEntry) : State :=
  let s1 := match e.place.cacheLine with
    | some (p, l) => s.flushLine cl p l
    | none => s
  let k := s1.cluster cl
  s1.setCluster cl { k with acc := k.acc.filter (·.id != e.id), merges := k.merges ++ [e] }

/-- Apply a merge at its home, indivisibly (R211). -/
def State.applyMerge (s : State) (cl : Nat) (e : AccEntry) : State :=
  let k := s.cluster cl
  let s1 := s.setCluster cl { k with merges := k.merges.filter (·.id != e.id) }
  let s2 := match e.place.cacheLine with
    | some (p, l) => s1.settleLine cl p l
    | none => s1
  match e.place with
  | .phys pa timed => (s2.arriveAtom pa e.n e.op e.val (if timed then .timed else .untimed)).2
  | _ => s2

/-- Add a contribution to the buffer (R210). The timed flag that a merge carries is that of the page of its first contribution (DESIGN
CHOICE, log 75). -/
def State.contribute (s : State) (cl pos : Nat) (p : Place) (op : AtomOp) (n : Nat) (x : PWord) : State :=
  let bit : BitVec 16 := 1#16 <<< pos
  let here := fun (e : AccEntry) => (match e.place, p with
    | .phys a _, .phys b _ => a == b
    | .peer i a, .peer j b => i == j && a == b
    | _, _ => false)
  let s1 := match (s.cluster cl).acc.find? here with
    | some e => if e.op == op && e.n == n then s else s.startMerge cl e
    | none => s
  match (s1.cluster cl).acc.find? here with
  | some e =>
    let k := s1.cluster cl
    let e1 := { e with val := atomNewP op n e.val x, mask := e.mask ||| bit }
    s1.setCluster cl { k with acc := k.acc.map fun f => if f.id == e.id then e1 else f }
  | none =>
    let s2 := if 32 ≤ (s1.cluster cl).acc.length then
        (match (s1.cluster cl).acc with
         | e :: _ => s1.startMerge cl e
         | [] => s1)
      else s1
    let k := s2.cluster cl
    (s2.setCluster cl { k with acc := k.acc ++ [⟨s2.seq, p, op, n, ⟨zextN n x.val, x.poison⟩, bit⟩] }).nextSeq

/-- Merge every entry whose mask names a core position (R200, R212). -/
def State.mergeMine (s : State) (cl pos : Nat) : State :=
  ((s.cluster cl).acc.filter fun e => e.mask.getLsbD pos).foldl (fun s e => s.startMerge cl e) s
/-- Merges of a core position still on their way. -/
def State.mergesOut (s : State) (cl pos : Nat) : Bool := (s.cluster cl).merges.any fun e => e.mask.getLsbD pos

/-! ### Release and acquire (R200, R339) -/

/-- Whether a scope is wider than .CLU. -/
def wide (sc : Scope) : Bool :=
  match sc with
  | .core | .clu => false
  | .grp | .sec | .die | .pkg | .sys => true

/-- Write back every dirty line whose writer mask names a core position; its mask is cleared. -/
def State.cleanMine (s : State) (cl pos : Nat) : State :=
  let (mine, _) := (s.cluster cl).lines.partition fun l => l.dirty != 0 && l.writers.getLsbD pos
  mine.foldl (fun s l =>
    let k := s.cluster cl
    (s.setCluster cl { k with lines := k.lines.map fun x => if x.isFor l.peer l.line then { x with dirty := 0, writers := 0 } else x }).sendBack cl l) s
/-- Write-backs of a core position still on their way. -/
def State.backsOut (s : State) (cl pos : Nat) : Bool := (s.cluster cl).wbs.any fun w => w.line.writers.getLsbD pos

/-- The release actions of core `c` at a scope: what has set out, and whether all of it has been applied. -/
def State.releaseActs (s : State) (c : CoreId) (sc : Scope) : State × Bool :=
  if c == mgmtCore then (s, true)
  else
    let cl := clusterOf c
    let s1 := (if wide sc then s.cleanMine cl (posOf c) else s).mergeMine cl (posOf c)
    (s1, (!wide sc || !s1.backsOut cl (posOf c)) && !s1.mergesOut cl (posOf c))

/-- A line's clean bytes are invalidated, and with them the poison of every unit that holds no dirty byte (R200). -/
def Line.dropClean (l : Line) : Line :=
  { l with valid := l.dirty
           poison := (List.range 8).foldl (fun p u => if l.unitDirty u = 0 then setBit8 p u false else p) l.poison }

/-- Invalidate clean lines and the clean bytes of dirty lines; an invalidated line's pin is dropped (R200, R203). -/
def State.acquireActs (s : State) (c : CoreId) (sc : Scope) : State :=
  if c == mgmtCore || !wide sc then s
  else
    let cl := clusterOf c
    let k := s.cluster cl
    s.setCluster cl { k with lines := (k.lines.filter fun l => l.dirty != 0).map Line.dropClean }

/-- Drop every pin a core position set (R204). -/
def State.dropPins (s : State) (c : CoreId) : State :=
  let k := s.cluster (clusterOf c)
  s.setCluster (clusterOf c)
    { k with lines := k.lines.map fun l => if l.pin == some (posOf c) then { l with pin := none } else l }

/-! ### Access order of one context (R345) -/

/-- Whether the core's task is speculative, and its reference if it is (R327). -/
def State.specTask (s : State) (c : CoreId) : Option TaskRef :=
  match (s.core c).bind.task with
  | none => none
  | some t =>
    match s.taskAt t with
    | some k => if k.spec then some t else none
    | none => none

/-! ### What waits for an up-link (R392) -/

/-- Whether what reaches a place waits in the spine because no up-link is in RUN. -/
def State.linkWaits (s : State) (p : Place) : Bool :=
  match p with
  | .peer .. => !s.peerUp
  | _ => false

/-- Whether a load of core `c` waits for an up-link: the cluster's own copy does not hold its bytes. -/
def State.loadWaits (s : State) (c : CoreId) (p : Place) (n : Nat) : Bool :=
  s.linkWaits p && (match p with
    | .peer num pa =>
      let k := s.cluster (clusterOf c)
      let need := byteMask (pa % 8) n
      (s.specTask c).isSome || k.ways == 0 || k.wbs.any (fun w => w.line.isFor num (lineOf pa)) ||
        (match k.findLine num (lineOf pa) with | some l => Nat.land (l.unitValid (pa / 8 % 8)) need != need | none => true)
    | _ => false)

/-- Whether a store of core `c` waits for an up-link: the cluster's cache does not take it. -/
def State.storeWaits (s : State) (c : CoreId) (p : Place) : Bool :=
  s.linkWaits p && (match p with
    | .peer num pa =>
      let k := s.cluster (clusterOf c)
      (s.specTask c).isSome || k.ways == 0 ||
        ((k.findLine num (lineOf pa)).isNone && (s.makeRoom (clusterOf c) (lineOf pa)).isNone)
    | _ => false)

/-- Two places in one 8-byte unit. -/
def State.sameUnit (s : State) (p q : Place) : Bool :=
  let (a, b, x) := s.storage p
  let (c, d, y) := s.storage q
  a == c && b == d && x / 8 == y / 8

def Place.isLs : Place → Bool
  | .ls _ _ => true
  | _ => false

/-- The places of a remote read's source in the view of a core's task, or the kind of its fault (R383, R384, R386). -/
def State.sourcePlaces (s : State) (c : CoreId) (r : RemoteCmd) : Nat ⊕ List Place :=
  let ps := (List.range (r.n / 8)).map fun i =>
    s.reachT c (s.core c).bind.tenant ⟨.load, 8, true, !r.sup⟩ (r.src + BitVec.ofNat 64 (8 * i))
  match ps.find? fun p => match p with | .place _ => false | _ => true with
  | some .transFault => .inl 1
  | some _ => .inl 2
  | none => .inr (ps.filterMap fun p => match p with | .place p => some p | _ => none)

/-- Whether the source of a remote read that has not been served holds the unit of a place. -/
def State.readsUnit (s : State) (c : CoreId) (r : RemoteCmd) (p : Place) : Bool :=
  match s.sourcePlaces c r with
  | .inr qs => qs.any fun q => s.sameUnit p q
  | .inl _ => false

/-- Whether an access of context `n` with number `id` to a place must wait for an earlier one of the core: one of its own
context to the same unit (R345), the source read of an RLD or a FETCHTO among them (R360), one of the core to its local
store if it is one itself (R349), or a copy start (R279) when it stores. -/
def State.mustWait (s : State) (c : CoreId) (n : CtxId) (id : Nat) (p : Place) (stores : Bool) : Bool :=
  let w := (s.core c).work
  let clash := fun (m : CtxId) (q : Place) => (m == n && s.sameUnit p q) || (p.isLs && q.isLs)
  w.loads.any (fun e => decide (e.id < id) && e.reply.isNone && clash e.ctx e.place) ||
  w.port.any (fun e => decide (e.id < id) &&
    (clash e.ctx e.place || (match e.kind with | .start .. => stores || p.isLs | _ => false))) ||
  w.vecs.any (fun e => decide (e.id < id) && e.load && (e.places.zip e.got).any fun (q, g) =>
    match q with
    | some q => g.isNone && clash e.ctx q
    | none => false) ||
  w.rq.any (fun r => decide (r.id < id) && r.ctx == n && s.readsUnit c r p)

/-- Whether a context has an acquire that has not been performed (R339). -/
def State.acquiring (s : State) (c : CoreId) (n : CtxId) : Bool :=
  let w := (s.core c).work
  w.loads.any (fun e => e.ctx == n && e.acq.isSome) || w.vecs.any (fun e => e.ctx == n && e.acq.isSome)

/-- Whether every earlier access of a context has been performed (R339), the source reads of its remote commands among them
(R360). A timed store counts once its home has accepted it (R337). -/
def State.allPerformed (s : State) (c : CoreId) (n : CtxId) : Bool :=
  let w := (s.core c).work
  !(w.loads.any (fun e => e.ctx == n && e.reply.isNone) || w.port.any (fun e => e.ctx == n) ||
    w.vecs.any (fun e => e.ctx == n && e.load && e.got.any Option.isNone) || w.rq.any (fun r => r.ctx == n))

/-- Release(S) before an access of the executing context: held until all of it is performed. -/
def withRelease (sc : Option Scope) (s : State) (k : State → Res) : Res :=
  match sc with
  | none => k s
  | some sc =>
    if !s.allPerformed s.cur.core s.cur.ctx then hold s
    else
      let (s1, ok) := s.releaseActs s.cur.core sc
      if ok then k s1 else hold s1

/-- Acquire(S) of the executing context. -/
def State.acquired (s : State) (sc : Option Scope) : State :=
  match sc with
  | none => s
  | some sc => s.acquireActs s.cur.core sc

end Sys2Proof.Machine
end

