-- ==== Sys2Proof/Machine/Access.lean ====
section
/-! DEFINITION. How a load or store of a core is issued and performed: the load list, the store port, the windows, FIFO
banks and the copy apertures: 08 R185 to R201, 12 R277 to R279, R290, R293, 13 R327, 15 R372, R373. -/

namespace Sys2Proof.Machine

/-! ### Windows that a core reads by itself -/

/-- A read of the receive window: a byte of no packet held is Poison(0) (R373). -/
def RxQueue.read (q : RxQueue) (off n : Nat) : PWord :=
  let u := off / 8
  match q.held.find? fun p => decide ((u + 128 - 8 * p.slot) % 128 < p.data.length) with
  | some p => subUnit (p.data.getD ((u + 128 - 8 * p.slot) % 128) PWord.poison0) (off % 8) n
  | none => PWord.poison0

/-- STATE of a channel as STATUS reports it (R293). -/
def ChanState.code : ChanState → Nat
  | .idle => 0
  | .running => 1
  | .frozen => 2
  | .waitRelease => 3

/-- STATUS (R293). -/
def Chan.status (h : Chan) : Word :=
  BitVec.ofNat 64 (h.owner % 8 * 2 ^ 40 + h.queue.length % 8 * 2 ^ 32 + h.tidx.toNat * 2 ^ 26 + h.iter % 1024 * 2 ^ 16 +
    h.flags.toNat * 2 ^ 8 + h.state.code)

/-- A load of an aperture register by a core (R277). -/
def State.apertureRead (s : State) (c : CoreId) (ch : Fin 8) (off : Nat) : Word :=
  let h := (s.octet (octetOf c)).chans[ch]
  let k := s.core c
  match off with
  | 0x008 => k.psrc[ch]
  | 0x010 => k.pdst[ch]
  | 0x100 => h.status
  | 0x108 => h.wmark
  | 0x110 => h.dlo
  | 0x118 => h.dhi
  | 0x120 => h.faddr
  | 0x128 => h.csrcnt
  | _ => 0

/-- A channel number of an aperture place. -/
def chanNo (n : Nat) : Fin 8 := ⟨n % 8, Nat.mod_lt _ (by decide)⟩

/-! ### Scratch banks (R199) -/

/-- A byte of a bank: a byte not written since the bank entered scratch mode is a free value. -/
def Cluster.sramByte (k : Cluster) (off : Nat) : Byte :=
  match Table.find k.wild (off / 4096) with
  | some (base, written) => if natHas written off then k.sram.byte off else Config.freeByte (base + off % 4096)
  | none => k.sram.byte off

/-- `n` bytes of a bank, little-endian. -/
def Cluster.sramNat (k : Cluster) (off : Nat) : Nat → Nat
  | 0 => 0
  | n + 1 => (k.sramByte off).toNat + 256 * k.sramNat (off + 1) n

/-- `n` bytes of a bank within one unit. -/
def Cluster.sramRead (k : Cluster) (off n : Nat) : PWord := ⟨BitVec.ofNat 64 (k.sramNat off n), k.sram.bad off⟩

/-- Store `n` bytes of one unit to a bank. -/
def Cluster.sramWrite (k : Cluster) (off n : Nat) (v : PWord) : Cluster :=
  { k with
    sram := k.sram.write off n v
    wild := match Table.find k.wild (off / 4096) with
      | some (base, written) =>
        Table.put k.wild (off / 4096) (base, (List.range n).foldl (fun w i => natAdd w (off + i)) written)
      | none => k.wild }

/-- Take every byte and poison tag of a bank out of its storage. -/
def clearBank (m : Memory) (b : Nat) : Memory :=
  ⟨m.bytes.filter fun c => c.1 / 4096 != b, m.poison.filter fun u => u / 512 != b⟩

/-- The switch of a bank once it is drained (R199): a bank that enters scratch mode holds free values. -/
def State.switchBank (s : State) (cl b : Nat) (m : BankMode) : State :=
  let k := s.cluster cl
  let base := { k.setMode b m with sram := clearBank k.sram b, wild := Table.drop k.wild b, fifos := Table.drop k.fifos b }
  match m with
  | .scratch => { s.setCluster cl { base with wild := Table.put base.wild b (s.fresh, []) } with fresh := s.fresh + 4096 }
  | .cache | .fifo => s.setCluster cl base

/-- Every dirty line written back and applied, and every line invalidated (R199 step 1). -/
def State.emptyCache (s : State) (cl : Nat) : State :=
  let s1 := (s.cluster cl).wbs.foldl (fun s w => s.applyLine w.line) s
  let s2 := ((s1.cluster cl).lines.filter fun l => l.dirty != 0).foldl (fun s l => s.applyLine l) s1
  s2.setCluster cl { s2.cluster cl with lines := [], wbs := [] }

/-! ### Serving an access where its word is kept -/

/-- `n` bytes at a place as a load of core `c` finds them (R194, R347). -/
def State.serve (s : State) (c : CoreId) (p : Place) (n : Nat) : PWord × State :=
  match p with
  | .ls k off => ((s.core k).ls.read off n, s)
  | .inj k off => ((s.core k).inj.read off n, s)
  | .rx k off => ((s.core k).rx.read off n, s)
  | .sram cl off => ((s.cluster cl).sramRead off n, s)
  | .aperture ch off => (⟨s.apertureRead c (chanNo ch) off, false⟩, s)
  | .peerLs l off => ((s.core (s.physOf l)).ls.read off n, s)
  | .phys pa timed =>
    if c == mgmtCore then let (u, s1) := s.serveUnit pa; (subUnit u (pa % 8) n, s1)
    else match s.specTask c with
      | some t => let (u, s1) := s.serveOwn (some t) pa; (subUnit u (pa % 8) n, s1)
      | none => (s.catchUp (clusterOf c) (posOf c) (lineOf pa)).cacheLoad (clusterOf c) 0 pa n timed
  | .peer num pa =>
    if (s.specTask c).isSome then let (u, s1) := s.peerRead; (subUnit u (pa % 8) n, s1)
    else s.cacheLoad (clusterOf c) num pa n false
  | .mwin _ => (PWord.zero, s)

/-- The origin of a write of a core's context (R165, R175). -/
def State.originOf (s : State) (c : CoreId) (n : CtxId) : Origin :=
  ⟨(s.core c).lcn, s.spine.peerno, n, (s.core c).bind.tenant⟩

/-- A write of a speculative task as its home holds it (R164, R327). -/
def State.heldEntry (s : State) (c : CoreId) (n : CtxId) (id pa bytes : Nat) (timed : Bool) (v : PWord)
    (instant : Option Word) (acc : Option AtomOp) (held : Option TaskRef) : TqEntry :=
  ⟨id, pa, if c == mgmtCore then .noPage else if timed then .timed else .untimed, bytes, v, instant, acc, held, s.time, [],
    s.originOf c n, (s.core c).bind.drop⟩

/-- Write at a port: a local store or a scratch bank. -/
def State.portWrite (s : State) (p : Place) (n : Nat) (v : PWord) : State :=
  match p with
  | .ls k off => s.modCore k fun x => { x with ls := lsWrite x.ls off n v }
  | .inj k off => s.modCore k fun x => { x with inj := x.inj.write off n v }
  | .peerLs l off => s.modCore (s.physOf l) fun x => { x with ls := lsWrite x.ls off n v }
  | .sram cl off => s.setCluster cl ((s.cluster cl).sramWrite off n v)
  | _ => s

/-- A plain store of core `c` reaches the place where it is performed; `none` when it is refused or must wait
(R176, R177, R194, R327, R392). A speculative task's store to a view address is held like any other: it is discarded on release (R401). One that its task sent while speculative (`held`) goes to its home also once the task is kept
(R178). -/
def State.performStore (s : State) (c : CoreId) (n : CtxId) (id : Nat) (p : Place) (bytes : Nat) (v : PWord)
    (held : Option TaskRef) : Option State :=
  match p with
  | .ls .. | .inj .. => some (s.portWrite p bytes v)
  | .peerLs .. | .sram .. => if (s.specTask c).isSome then none else some (s.portWrite p bytes v)
  | .phys pa timed =>
    if c == mgmtCore then some (s.arriveWrite pa bytes v .noPage)
    else match s.specTask c with
      | some t =>
        (match s.arriveTimed (s.heldEntry c n id pa bytes timed v none none (some t)) 0 with
         | (.refused, _) => none
         | (_, s1) => some s1)
      | none =>
        if held.isSome then
          some ((s.settleLine (clusterOf c) 0 (lineOf pa)).arriveWrite pa bytes v (if timed then .timed else .untimed))
        else some (s.cacheStore (clusterOf c) (posOf c) 0 pa bytes v timed)
  | .peer num pa =>
    if s.storeWaits c p then none
    else if (s.specTask c).isSome then some s else some (s.cacheStore (clusterOf c) (posOf c) num pa bytes v false)
  | .rx .. | .aperture .. | .mwin _ => some s

/-! ### Room for accesses (R195) -/

/-- Loads outstanding: scalar loads and atomics, vector loads, and RLD requests. -/
def Core.loadsOut (k : Core) : Nat :=
  k.work.loads.length + (k.work.vecs.filter (·.load)).length + (k.work.rq.filter fun r => !r.fetchto).length

/-- Stores in the port; a vector store counts once. -/
def Core.portUsed (k : Core) : Nat :=
  (k.work.port.filter fun e => e.tlv.isNone).length + ((k.work.port.filterMap (·.tlv)).eraseDups).length

/-- Banks of a cluster that drain, with the core whose BANKMODE drains them (R198). -/
def State.drains (s : State) (cl : Nat) : List (CoreId × Nat) :=
  (s.cores.filter fun e => clusterOf e.1 == cl && e.1 != mgmtCore).flatMap fun (c, k) =>
    allCtx.filterMap fun n =>
      let x := k.ctx n
      match x.st, x.wait with
      | .waiting, some (.bankmode _ a _ _) => some (c, (x.getG a).val.toNat % 16)
      | _, _ => none

/-- Whether an access of a core must wait for a bank that another core drains (R198). -/
def State.bankBusy (s : State) (c : CoreId) (p : Place) : Bool :=
  match p with
  | .sram cl off => (s.drains cl).any fun d => d.1 != c && d.2 == off / 4096
  | .phys .. | .peer .. =>
    c != mgmtCore && (s.cluster (clusterOf c)).ways != 0 && (s.drains (clusterOf c)).any fun d => d.1 != c
  | _ => false

/-- An access of the executing context to a place: it is held behind an acquire (R339) and a draining bank (R198). -/
def mayAccess (p : Place) (s : State) (k : Res) : Res :=
  if s.acquiring s.cur.core s.cur.ctx || s.bankBusy s.cur.core p then hold s else k

/-! ### FIFO banks (R201) -/

def State.fifo (s : State) (cl b : Nat) : Fifo := (Table.find (s.cluster cl).fifos b).getD ⟨[], 0, []⟩
def State.setFifo (s : State) (cl b : Nat) (f : Fifo) : State :=
  let k := s.cluster cl
  s.setCluster cl { k with fifos := Table.put k.fifos b f }

/-- Latch an event in the live contexts of a cluster's cores. -/
def State.latchCluster (s : State) (cl : Nat) (bits : Word) : State :=
  { s with cores := s.cores.map fun (c, k) => if clusterOf c == cl && c != mgmtCore then (c, k.latchAll bits) else (c, k) }

/-- Push entries: each change of occupancy sets EVPEND.FIFO. -/
def State.push (s : State) (cl b : Nat) (es : List PWord) : State :=
  let f := s.fifo cl b
  let ents := f.ents ++ es
  (s.setFifo cl b { f with ents := ents, high := Nat.max f.high ents.length }).latchCluster cl evFifo
/-- Pull entries, oldest first. -/
def State.pull (s : State) (cl b k : Nat) : List PWord × State :=
  let f := s.fifo cl b
  (f.ents.take k, (s.setFifo cl b { f with ents := f.ents.drop k }).latchCluster cl evFifo)

/-- Whether a push or pull of `k` entries fits. -/
def Fifo.fits (f : Fifo) (push : Bool) (k : Nat) : Bool :=
  if push then decide (f.ents.length + k ≤ 512) else decide (k ≤ f.ents.length)

/-- FIFOST. -/
def Fifo.st (f : Fifo) : Word :=
  BitVec.ofNat 64 (f.high * 2 ^ 32 + (512 - f.ents.length) * 2 ^ 16 + f.ents.length)

/-- Whether a place lies in a bank that is in FIFO mode, and its bank. -/
def State.fifoBank (s : State) (p : Place) : Option (Nat × Nat × Nat) :=
  match p with
  | .sram cl off => if (s.cluster cl).mode (off / 4096) == .fifo then some (cl, off / 4096, off % 4096) else none
  | _ => none

/-- A push or pull of the executing context: done when it fits, else the context waits at the bank (R201). The spec orders
only accesses that wait; DESIGN CHOICE (log 69): a newcomer that fits goes ahead of them. -/
def onFifo (i : Instr) (push : Bool) (k cl b : Nat) (s : State) (run : State → Res) : Res :=
  let f := s.fifo cl b
  if f.fits push k && (s.specTask s.cur.core).isNone then
    run (s.setFifo cl b { f with waiters := f.waiters.filter fun w => !(w.core == s.cur.core && w.ctx == s.cur.ctx) })
  else
    let w : FifoWait := ⟨s.cur.core, s.cur.ctx, push, k⟩
    waitIn i (if s.me.packet.isSome || f.waiters.contains w then s
              else s.setFifo cl b { f with waiters := f.waiters ++ [w] })

/-! ### Loads (R193) -/

/-- The loaded value in its register. -/
def extLoad (n : Nat) (signed : Bool) (v : PWord) : PWord :=
  ⟨if signed then sextN n v.val else zextN n v.val, v.poison⟩

/-- A place that the executing core reaches without leaving it. -/
def State.isOwn (s : State) (p : Place) : Bool :=
  match p with
  | .ls k _ | .inj k _ | .rx k _ => k == s.cur.core
  | .aperture .. => true
  | _ => false

/-- The value lands, and an acquire acts (R193). -/
def State.landNow (s : State) (dst : RegName) (v : PWord) (acq : Option Scope) : State :=
  (s.modMe (·.setReg dst v)).acquired acq

/-- Add an entry to the executing core's loads; its register waits for it. -/
def State.addLoad (s : State) (dst : RegName) (p : Place) (n : Nat) (signed : Bool) (acq : Option Scope)
    (kind : LoadKind) : State :=
  let e : LoadEntry := ⟨s.seq, s.cur.ctx, dst, p, n, signed, acq, kind, none, false⟩
  ((s.modMyCore fun k => { k with work := { k.work with loads := k.work.loads ++ [e] } }).modMe
    (·.await dst s.seq)).nextSeq

/-- A plain load of a place. -/
def loadPlace (i : Instr) (dst : RegName) (p : Place) (n : Nat) (signed : Bool) (acq : Option Scope) (s : State) : Res :=
  mayAccess p s
    (if 16 ≤ s.myCore.loadsOut then hold s
     else
       let m := s.mark s.cur.core p n
       match s.fifoBank p with
       | some (cl, b, off) =>
         if m == .frozen then done (s.landNow dst PWord.poison0 acq)
         else if m == .held || s.mustWait s.cur.core s.cur.ctx s.seq p false then hold s
         else if off == 0x800 then done (s.landNow dst ⟨(s.fifo cl b).st, false⟩ acq)
         else onFifo i false 1 cl b s fun s =>
           let (es, s1) := s.pull cl b 1
           done (s1.landNow dst (es.getD 0 PWord.poison0) acq)
       | none =>
         if s.isOwn p && m != .held && !s.mustWait s.cur.core s.cur.ctx s.seq p false then
           let v := if m == .frozen then PWord.poison0 else extLoad n signed (s.serve s.cur.core p n).1
           done (s.landNow dst v acq)
         else done (s.addLoad dst p n signed acq .plain))

/-- A load of `n` bytes into a register (R186, R193): a fate of R186 gives Poison(0). -/
def loadAt (i : Instr) (dst : RegName) (b : PWord) (addr : Word) (n : Nat) (signed : Bool) (acq : Option Scope)
    (s : State) : Res :=
  if b.poison then done (s.modMe (·.setReg dst PWord.poison0))
  else if addr.toNat % n != 0 then trap cMisalign addr s
  else match s.reach .load n addr with
    | .place p => loadPlace i dst p n signed acq (s.touch s.cur.core s.myCore.bind.tenant addr)
    | _ => if s.acquiring s.cur.core s.cur.ctx then hold s
           else done ((s.walked s.cur.core s.myCore.bind.tenant addr).landNow dst PWord.poison0 acq)

/-! ### Stores (R193) -/

/-- Retire a store: poisoned data is reported after retire (R107). -/
def doneStored (v : PWord) (addr : Word) (s : State) : Res :=
  if v.poison then trapAfter cPoisonStored addr s else done s

/-- Add an entry to the executing core's store port. -/
def State.toPort (s : State) (p : Place) (n : Nat) (v : PWord) (kind : PortKind) : State :=
  let e : PortEntry := ⟨s.seq, s.cur.ctx, p, n, v, kind, none, false, none, s.specTask s.cur.core, s.me.gen⟩
  (s.modMyCore fun k => { k with work := { k.work with port := k.work.port ++ [e] } }).nextSeq

/-- The template entry of the executing core's copy unit (R280). -/
def Octet.template (o : Octet) (i : Nat) : List Word := (Table.find o.templates i).getD (List.replicate 36 0)

/-- The address of a channel's START. -/
def startAddr (ch : Nat) : Word := BitVec.ofNat 64 (0xFFFFFFE00000 + ch * 0x1000)

/-- A store to START (R278, R279, R292). -/
def storeStart (ch : Fin 8) (v : PWord) (addr : Word) (s : State) : Res :=
  let w := v.val
  let h := s.myOctet.chans[ch]
  let special := w.getLsbD 7 || w.getLsbD 8
  let mine := match h.cur with
    | some cs => h.state == .frozen && cs.core == s.cur.core && cs.task == s.myCore.bind.task
    | none => false
  if w.extractLsb' 9 55 != 0 then trap cRights addr s
  else if special && (s.isUser || w.extractLsb' 0 7 != 0 || (w.getLsbD 7 && w.getLsbD 8) || !mine) then trap cRights addr s
  else if special then doneStored v addr (s.toPort (.aperture ch 0) 8 v .plain)
  else
    let tidx := w.extractLsb' 0 6
    let image := s.myOctet.template tidx.toNat
    let psrc := if w.getLsbD 6 then s.myCore.psrc[ch] else 0
    let pdst := if w.getLsbD 6 then s.myCore.pdst[ch] else 0
    let cs : CopyStart :=
      ⟨s.seq, s.cur.core, s.cur.ctx, s.myCore.bind.task, s.myCore.bind.tenant, !s.isUser, tidx, image, psrc, pdst, 0⟩
    let num := s.myCore.tlc.nextNum
    let s1 := s.modMyCore fun k => { k with tlc := k.tlc.issue cs.iters }
    doneStored v addr (s1.toPort (.aperture ch 0) 8 v (.start ch tidx image psrc pdst (!s.isUser) num))

/-- A store to an aperture register (R277). -/
def storeAperture (ch : Fin 8) (off : Nat) (v : PWord) (addr : Word) (s : State) : Res :=
  match off with
  | 0 => storeStart ch v addr s
  | 8 => doneStored v addr (s.modMyCore fun k => { k with psrc := k.psrc.set ch v.val })
  | _ => doneStored v addr (s.modMyCore fun k => { k with pdst := k.pdst.set ch v.val })

/-- A plain store to a place, once its release is performed. One to LCSTATE burns its fuse before it retires (R431). -/
def storePlace (i : Instr) (p : Place) (n : Nat) (v : PWord) (addr : Word) (s : State) : Res :=
  if 16 ≤ s.myCore.portUsed then hold s
  else match p with
    | .aperture ch off => storeAperture (chanNo ch) off v addr s
    | .inj _ _ => doneStored v addr (s.portWrite p n v)
    | .mwin 8 =>
      if s.mustWait s.cur.core s.cur.ctx s.seq p true then hold s
      else doneStored v addr { s with spine := s.spine.burn v.val }
    | .ls _ _ =>
      if s.mark s.cur.core p n == .held || s.mustWait s.cur.core s.cur.ctx s.seq p true then
        doneStored v addr (s.toPort p n v .plain)
      else doneStored v addr (s.portWrite p n v)
    | _ =>
      match s.fifoBank p with
      | some (cl, b, _) =>
        if s.mark s.cur.core p n == .held || s.mustWait s.cur.core s.cur.ctx s.seq p true then hold s
        else onFifo i true 1 cl b s fun s => doneStored v addr (s.push cl b [v])
      | none => doneStored v addr (s.toPort p n v .plain)

/-- The trap of a store or atomic that cannot be performed (R186, R371). -/
def storeFate (r : Reach) (addr : Word) (s : State) (k : Place → Res) : Res :=
  match r with
  | .place p => k p
  | .transFault => trap cTrans addr (s.walked s.cur.core s.myCore.bind.tenant addr)
  | .rightsFault => trap cRights addr s
  | .peerFault n => trap cPeer (n.setWidth 64) s

/-- A store of the low `n` bytes of a value (R193). -/
def storeAt (i : Instr) (b : PWord) (base : Nat) (addr : Word) (n : Nat) (v : PWord) (rel : Option Scope) (s : State) :
    Res :=
  needClean b base s
    (if addr.toNat % n != 0 then trap cMisalign addr s
     else storeFate (s.reach .store n addr) addr s fun p =>
       mayAccess p s (withRelease rel (s.touch s.cur.core s.myCore.bind.tenant addr) fun s => storePlace i p n v addr s))

/-! ### Entries on their way -/

/-- Replace the entry of a number, or remove it. -/
def Core.setLoad (k : Core) (id : Nat) (f : LoadEntry → Option LoadEntry) : Core :=
  { k with work := { k.work with loads := k.work.loads.filterMap fun e => if e.id == id then f e else some e } }
def Core.setPort (k : Core) (id : Nat) (f : PortEntry → Option PortEntry) : Core :=
  { k with work := { k.work with port := k.work.port.filterMap fun e => if e.id == id then f e else some e } }
def Core.loadOf (k : Core) (id : Nat) : Option LoadEntry := k.work.loads.find? (·.id == id)
def Core.portOf (k : Core) (id : Nat) : Option PortEntry := k.work.port.find? (·.id == id)

/-- A fixed value lands in its register (R193); a stale timed load sets TSTAT.STALE (R170), and an acquire acts. -/
def State.landLoad (s : State) (c : CoreId) (e : LoadEntry) (v : PWord) : State :=
  let s1 := (s.modCore c fun k => k.setLoad e.id fun _ => none).modCtx c e.ctx fun x =>
    let y := x.land e.dst e.id v
    if e.stale then { y with tstat := y.tstat ||| 2 } else y
  match e.acq with
  | some sc => s1.acquireActs c sc
  | none => s1

/-- Serve a plain load and land its value (R193, R290): enabled when nothing before it stands in its way. -/
def landPlain (c : CoreId) (e : LoadEntry) (s : State) : Res :=
  match s.mark c e.place e.n with
  | .held => .refused .eventDisabled
  | .frozen => .next (s.landLoad c e PWord.poison0)
  | .free =>
    if s.loadWaits c e.place e.n then .refused .eventDisabled else
    let (v, s1) := s.serve c e.place e.n
    .next (s1.landLoad c e (extLoad e.n e.signed v))

/-- The home slice of a place: the device (0: this one) and the slice. -/
def Place.home : Place → Option (Nat × Nat)
  | .phys pa _ => some (0, sliceOfPa pa)
  | .peer num pa => some (num, sliceOfPa pa)
  | _ => none

/-- Whether a store of context `n` with a number below `id` stands refused at the home slice of a place (R176). -/
def State.refusedAt (s : State) (c : CoreId) (n : CtxId) (id : Nat) (p : Place) : Bool :=
  p.home.isSome && (s.core c).work.port.any fun f =>
    f.refused.isSome && f.ctx == n && decide (f.id < id) && f.place.home == p.home

/-- No later store of one context goes to a home slice before one that stands refused there (R176). -/
def State.behindRefused (s : State) (c : CoreId) (e : PortEntry) : Bool := s.refusedAt c e.ctx e.id e.place

/-- A plain store of the port is performed (R191, R194); a home that refuses it leaves it in the port (R176). -/
def performPort (c : CoreId) (e : PortEntry) (s : State) : Res :=
  if s.mark c e.place e.n == .held || s.behindRefused c e then .refused .eventDisabled
  else match s.performStore c e.ctx e.id e.place e.n e.val e.held with
    | some s1 => .next (s1.modCore c fun k => k.setPort e.id fun _ => none)
    | none =>
      match e.place with
      | .phys .. => .next (s.modCore c fun k => k.setPort e.id fun e => some { e with refused := some s.time })
      | _ => .refused .eventDisabled

end Sys2Proof.Machine
end

