-- ==== Sys2Proof/Machine/Memory.lean ====
section
/-! DEFINITION. The memory instructions: loads and stores, extension registers, timed access, atomics, accumulation,
banks and line maintenance: 02 R53 to R56, 07 R163 to R170, 08 R192 to R212. -/

namespace Sys2Proof.Machine

/-! ### Plain loads and stores (R192, R193) -/
/-- The scope of an ordered load, and of an ordered store. -/
def LOrder.scope (o : LOrder) (sc : Scope) : Option Scope := match o with | .plain => none | .acq => some sc
def SOrder.scope (o : SOrder) (sc : Scope) : Option Scope := match o with | .plain => none | .rel => some sc
/-- [gB + imm] with a signed count of n bytes (R24). -/
def offAddr (s : State) (base : Reg) (n : Nat) (w : Nat) (imm : BitVec w) : Word :=
  (s.gReg base).val + BitVec.ofNat 64 n * imm.signExtend 64
/-- LDB (R193). -/
def execLdb (d base : Reg) (sc : Scope) (o : LOrder) (imm : BitVec 11) (s : State) : Res :=
  loadAt (.ldb d base sc o imm) (.g d) (s.gReg base) (offAddr s base 1 11 imm) 1 true (LOrder.scope o sc) s
/-- LDBU (R193). -/
def execLdbu (d base : Reg) (sc : Scope) (o : LOrder) (imm : BitVec 11) (s : State) : Res :=
  loadAt (.ldbu d base sc o imm) (.g d) (s.gReg base) (offAddr s base 1 11 imm) 1 false (LOrder.scope o sc) s
/-- LDH (R193). -/
def execLdh (d base : Reg) (sc : Scope) (o : LOrder) (imm : BitVec 11) (s : State) : Res :=
  loadAt (.ldh d base sc o imm) (.g d) (s.gReg base) (offAddr s base 2 11 imm) 2 true (LOrder.scope o sc) s
/-- LDHU (R193). -/
def execLdhu (d base : Reg) (sc : Scope) (o : LOrder) (imm : BitVec 11) (s : State) : Res :=
  loadAt (.ldhu d base sc o imm) (.g d) (s.gReg base) (offAddr s base 2 11 imm) 2 false (LOrder.scope o sc) s
/-- LDW (R193). -/
def execLdw (d base : Reg) (sc : Scope) (o : LOrder) (imm : BitVec 11) (s : State) : Res :=
  loadAt (.ldw d base sc o imm) (.g d) (s.gReg base) (offAddr s base 4 11 imm) 4 true (LOrder.scope o sc) s
/-- LDWU (R193). -/
def execLdwu (d base : Reg) (sc : Scope) (o : LOrder) (imm : BitVec 11) (s : State) : Res :=
  loadAt (.ldwu d base sc o imm) (.g d) (s.gReg base) (offAddr s base 4 11 imm) 4 false (LOrder.scope o sc) s
/-- LDD (R193). -/
def execLdd (d base : Reg) (sc : Scope) (o : LOrder) (imm : BitVec 11) (s : State) : Res :=
  loadAt (.ldd d base sc o imm) (.g d) (s.gReg base) (offAddr s base 8 11 imm) 8 false (LOrder.scope o sc) s
/-- STB (R193). -/
def execStb (src base : Reg) (sc : Scope) (o : SOrder) (imm : BitVec 12) (s : State) : Res :=
  storeAt (.stb src base sc o imm) (s.gReg base) base (offAddr s base 1 12 imm) 1 (s.gReg src) (SOrder.scope o sc) s
/-- STH (R193). -/
def execSth (src base : Reg) (sc : Scope) (o : SOrder) (imm : BitVec 12) (s : State) : Res :=
  storeAt (.sth src base sc o imm) (s.gReg base) base (offAddr s base 2 12 imm) 2 (s.gReg src) (SOrder.scope o sc) s
/-- STW (R193). -/
def execStw (src base : Reg) (sc : Scope) (o : SOrder) (imm : BitVec 12) (s : State) : Res :=
  storeAt (.stw src base sc o imm) (s.gReg base) base (offAddr s base 4 12 imm) 4 (s.gReg src) (SOrder.scope o sc) s
/-- STD (R193). -/
def execStd (src base : Reg) (sc : Scope) (o : SOrder) (imm : BitVec 12) (s : State) : Res :=
  storeAt (.std src base sc o imm) (s.gReg base) base (offAddr s base 8 12 imm) 8 (s.gReg src) (SOrder.scope o sc) s
/-- Short form of LDW d, [b+4k] (R48). -/
def execLdwS (d b : Reg) (k : BitVec 2) (s : State) : Res :=
  loadAt (.ldwS d b k) (.g d) (s.gReg b) ((s.gReg b).val + BitVec.ofNat 64 4 * k.setWidth 64) 4 true none s
/-- Short form of LDWU d, [b+4k] (R48). -/
def execLdwuS (d b : Reg) (k : BitVec 2) (s : State) : Res :=
  loadAt (.ldwuS d b k) (.g d) (s.gReg b) ((s.gReg b).val + BitVec.ofNat 64 4 * k.setWidth 64) 4 false none s
/-- Short form of LDD d, [b+8k] (R48). -/
def execLddS (d b : Reg) (k : BitVec 2) (s : State) : Res :=
  loadAt (.lddS d b k) (.g d) (s.gReg b) ((s.gReg b).val + BitVec.ofNat 64 8 * k.setWidth 64) 8 false none s
/-- Short form of STW [b+4k], src (R48). -/
def execStwS (src b : Reg) (k : BitVec 2) (s : State) : Res :=
  storeAt (.stwS src b k) (s.gReg b) b ((s.gReg b).val + BitVec.ofNat 64 4 * k.setWidth 64) 4 (s.gReg src) none s
/-- Short form of STD [b+8k], src (R48). -/
def execStdS (src b : Reg) (k : BitVec 2) (s : State) : Res :=
  storeAt (.stdS src b k) (s.gReg b) b ((s.gReg b).val + BitVec.ofNat 64 8 * k.setWidth 64) 8 (s.gReg src) none s
/-! ### Extension registers (R53 to R56) -/
/-- XSET (R53). -/
def execXset (e : EReg) (imm : BitVec 15) (s : State) : Res :=
  done (s.setE e ⟨imm.signExtend 64, false⟩)
/-- XSET.SH (R53): poison is kept. -/
def execXsetSh (e : EReg) (imm : BitVec 15) (s : State) : Res :=
  done (s.setE e ⟨((s.eReg e).val <<< 15) ||| imm.setWidth 64, (s.eReg e).poison⟩)
/-- XLD (R54): an LDD into an e register. -/
def execXld (e : EReg) (a : Reg) (imm : BitVec 15) (s : State) : Res :=
  loadAt (.xld e a imm) (.e e) (s.gReg a) (offAddr s a 8 15 imm) 8 false none s
/-- XST (R55): an STD of an e register. -/
def execXst (e : EReg) (a : Reg) (imm : BitVec 15) (s : State) : Res :=
  storeAt (.xst e a imm) (s.gReg a) a (offAddr s a 8 15 imm) 8 (s.eReg e) none s
/-- XMOV e, g (R56): poison is copied. -/
def execXmovEg (e : EReg) (a : Reg) (s : State) : Res :=
  done (s.setE e (s.gReg a))
/-- XMOV g, e (R56). -/
def execXmovGe (d : Reg) (e : EReg) (s : State) : Res :=
  done (s.setG d (s.eReg e))
/-- Short form of XMOV e, g (R48). -/
def execXmovS (e : EReg) (a : Reg) (s : State) : Res :=
  done (s.setE e (s.gReg a))
/-! ### Timed access (R163, R169, R170) -/

/-- The horizon of R169: 65,536 ticks from the issuing core's copy of the time base. -/
def State.beyond (s : State) (t : Word) : Bool := decide (65536 < ahead t s.myNow)

/-- An instant in the time base of the home that keeps a place (R184). -/
def State.homeInstant (s : State) (p : Place) (t : Word) : Word :=
  match p with
  | .peer num _ => t + s.peerOffset (BitVec.ofNat 16 num)
  | _ => t

/-- Write back and invalidate the issuing cluster's copy of a line (R169, R170, R206). -/
def State.flushPlace (s : State) (p : Place) : State :=
  match p.cacheLine with
  | some (peer, line) => s.flushLine (clusterOf s.cur.core) peer line
  | none => s

/-- TST (R169). -/
def execTst (src base : Reg) (sc : Scope) (o : SOrder) (e : EReg) (isAbs : Bool) (s : State) : Res :=
  needE e s fun ev =>
    let t := s.instant ev isAbs
    let b := s.gReg base
    let addr := b.val
    needClean b base s
      (if addr.toNat % 8 != 0 then trap cMisalign addr s
       else if s.beyond t then trap cHorizon t s
       else storeFate (s.reach .store 8 addr) addr s fun p =>
         match p.cacheLine with
         | none => trap cRights addr s
         | some _ =>
           mayAccess p s (withRelease (SOrder.scope o sc) ((s.touch s.cur.core s.myCore.bind.tenant addr).flushPlace p) fun s =>
             if 16 ≤ s.myCore.portUsed then hold s
             else doneStored (s.gReg src) addr (s.toPort p 8 (s.gReg src) (.timed (s.homeInstant p t)))))

/-- TLD (R170): served by the home, never by a cache. -/
def execTld (d base : Reg) (sc : Scope) (o : LOrder) (e : EReg) (isAbs : Bool) (s : State) : Res :=
  needE e s fun ev =>
    let t := s.instant ev isAbs
    let b := s.gReg base
    let addr := b.val
    if b.poison then done (s.setG d PWord.poison0)
    else if addr.toNat % 8 != 0 then trap cMisalign addr s
    else if s.beyond t then trap cHorizon t s
    else
      let bad := done ((s.touch s.cur.core s.myCore.bind.tenant addr).setG d PWord.poison0)
      match s.reach .load 8 addr with
      | .place p =>
        (match p.cacheLine with
         | none => bad
         | some _ =>
           mayAccess p s
             (if 16 ≤ s.myCore.loadsOut then hold s
              else done (((s.touch s.cur.core s.myCore.bind.tenant addr).flushPlace p).addLoad (.g d) p 8 false
                (LOrder.scope o sc) (.timed (s.homeInstant p t)))))
      | _ => bad

/-! ### Returning atomics (R205, R206) -/

def AOrder.rel (o : AOrder) (sc : Scope) : Option Scope :=
  match o with
  | .plain | .acq => none
  | .rel | .ar => some sc
def AOrder.acq (o : AOrder) (sc : Scope) : Option Scope :=
  match o with
  | .plain | .rel => none
  | .acq | .ar => some sc

/-- The value that a returning atomic gives its register. -/
def atomReply (op : AtomOp) (n : Nat) (old x : PWord) : PWord := ⟨atomResult op n old.val, old.poison || x.poison⟩

/-- An atomic at a port: the old word, and the state after. -/
def State.atomPort (s : State) (c : CoreId) (p : Place) (n : Nat) (op : AtomOp) (x : PWord) : PWord × State :=
  let old := (s.serve c p n).1
  let new := atomNewP op n old x
  (old, if new == old then s else s.portWrite p n new)

/-- A returning atomic (R206). Poison of x is reported after retire; that of a CAS's expected value is not, and poisons the word it
writes (DESIGN CHOICE, log 75: R107 speaks of a store's data, and R206 of x alone). -/
def atomAt (op : AtomOp) (d base src : Reg) (sc : Scope) (o : AOrder) (w32 : Bool) (s : State) : Res :=
  let n := if w32 then 4 else 8
  let b := s.gReg base
  let addr := b.val
  let x := s.gReg src
  needClean b base s
    (if addr.toNat % n != 0 then trap cMisalign addr s
     else storeFate (s.reach .atomic n addr) addr s fun p =>
       mayAccess p s (withRelease (AOrder.rel o sc) (s.touch s.cur.core s.myCore.bind.tenant addr) fun s =>
         if 16 ≤ s.myCore.loadsOut then hold s
         else
           let m := s.mark s.cur.core p n
           if s.isOwn p && m != .held && !s.mustWait s.cur.core s.cur.ctx s.seq p true then
             let (old, s1) := s.atomPort s.cur.core p n op x
             let v := if m == .frozen then PWord.poison0 else atomReply op n old x
             doneStored x addr ((if m == .frozen then s else s1).landNow (.g d) v (AOrder.acq o sc))
           else
             doneStored x addr ((s.flushPlace p).addLoad (.g d) p n false (AOrder.acq o sc) (.atom op x))))

/-- AMO.ADD (R205). -/
def execAmoAdd (d base : Reg) (sc : Scope) (o : AOrder) (src : Reg) (w32 : Bool) (s : State) : Res :=
  atomAt .add d base src sc o w32 s
/-- AMO.AND (R205). -/
def execAmoAnd (d base : Reg) (sc : Scope) (o : AOrder) (src : Reg) (w32 : Bool) (s : State) : Res :=
  atomAt .and d base src sc o w32 s
/-- AMO.OR (R205). -/
def execAmoOr (d base : Reg) (sc : Scope) (o : AOrder) (src : Reg) (w32 : Bool) (s : State) : Res :=
  atomAt .or d base src sc o w32 s
/-- AMO.XOR (R205). -/
def execAmoXor (d base : Reg) (sc : Scope) (o : AOrder) (src : Reg) (w32 : Bool) (s : State) : Res :=
  atomAt .xor d base src sc o w32 s
/-- AMO.MIN (R205). -/
def execAmoMin (d base : Reg) (sc : Scope) (o : AOrder) (src : Reg) (w32 : Bool) (s : State) : Res :=
  atomAt .min d base src sc o w32 s
/-- AMO.MAX (R205). -/
def execAmoMax (d base : Reg) (sc : Scope) (o : AOrder) (src : Reg) (w32 : Bool) (s : State) : Res :=
  atomAt .max d base src sc o w32 s
/-- AMO.MINU (R205). -/
def execAmoMinu (d base : Reg) (sc : Scope) (o : AOrder) (src : Reg) (w32 : Bool) (s : State) : Res :=
  atomAt .minu d base src sc o w32 s
/-- AMO.MAXU (R205). -/
def execAmoMaxu (d base : Reg) (sc : Scope) (o : AOrder) (src : Reg) (w32 : Bool) (s : State) : Res :=
  atomAt .maxu d base src sc o w32 s
/-- AMO.SWAP (R205). -/
def execAmoSwap (d base : Reg) (sc : Scope) (o : AOrder) (src : Reg) (w32 : Bool) (s : State) : Res :=
  atomAt .swap d base src sc o w32 s
/-- CAS (R205): the expected value is read from g[d] at issue. -/
def execCas (d base : Reg) (sc : Scope) (o : AOrder) (src : Reg) (w32 : Bool) (s : State) : Res :=
  atomAt (.cas (s.gReg d).val (s.gReg d).poison) d base src sc o w32 s
/-! ### Accumulating atomics (R209, R210) -/

/-- An accumulation reaches the place that keeps it: a port, the cluster buffer, or the home of a speculative task's
write (R210). `none` when it must wait or is refused. -/
def State.accumulate (s : State) (c : CoreId) (n : CtxId) (id : Nat) (p : Place) (bytes : Nat) (op : AtomOp)
    (x : PWord) : Option State :=
  match p with
  | .ls .. => some (s.atomPort c p bytes op x).2
  | .peerLs .. | .sram .. => if (s.specTask c).isSome then none else some (s.atomPort c p bytes op x).2
  | .phys pa timed =>
    if c == mgmtCore then some (s.arriveAtom pa bytes op x .noPage).2
    else (match s.specTask c with
      | some t =>
        (match s.arriveTimed (s.heldEntry c n id pa bytes timed x none (some op) (some t)) 0 with
         | (.refused, _) => none
         | (_, s1) => some s1)
      | none => some (s.contribute (clusterOf c) (posOf c) p op bytes x))
  | .peer .. =>
    if (s.specTask c).isSome && s.linkWaits p then none
    else if c == mgmtCore || (s.specTask c).isSome then some s else some (s.contribute (clusterOf c) (posOf c) p op bytes x)
  | .inj .. | .rx .. | .aperture .. | .mwin _ => some s

/-- Whether a word's home is the core's own local store or a scratch bank of its cluster. -/
def Place.atPort : Place → Bool
  | .ls .. | .sram .. => true
  | _ => false

/-- An accumulating atomic (R210): it acts at once when nothing stands before it. One of the own local store or of a scratch
bank is performed when it retires (R364), so it is held until then; any other waits in the port. A speculative task's
contribution to a scratch bank waits for the resolution there (R327). -/
def accAt (op : AtomOp) (base src : Reg) (sc : Scope) (o : SOrder) (w32 : Bool) (s : State) : Res :=
  let n := if w32 then 4 else 8
  let b := s.gReg base
  let addr := b.val
  let x := s.gReg src
  needClean b base s
    (if addr.toNat % n != 0 then trap cMisalign addr s
     else storeFate (s.reach .accum n addr) addr s fun p =>
       mayAccess p s (withRelease (SOrder.scope o sc) (s.touch s.cur.core s.myCore.bind.tenant addr) fun s =>
         if 16 ≤ s.myCore.portUsed then hold s
         else
           let free := s.mark s.cur.core p n != .held && !s.mustWait s.cur.core s.cur.ctx s.seq p true
           let now := s.isOwn p || ((p.cacheLine.isSome || p.atPort) && (s.specTask s.cur.core).isNone)
           if now && p.atPort && !free then hold s
           else match (if now && free then s.accumulate s.cur.core s.cur.ctx s.seq p n op x else none) with
           | some s1 => doneStored x addr s1.nextSeq
           | none => doneStored x addr (s.toPort p n x (.acc op))))

/-- ACC.ADD (R210). -/
def execAccAdd (base : Reg) (sc : Scope) (o : SOrder) (src : Reg) (w32 : Bool) (s : State) : Res :=
  accAt .add base src sc o w32 s
/-- ACC.MIN (R210). -/
def execAccMin (base : Reg) (sc : Scope) (o : SOrder) (src : Reg) (w32 : Bool) (s : State) : Res :=
  accAt .min base src sc o w32 s
/-- ACC.MAX (R210). -/
def execAccMax (base : Reg) (sc : Scope) (o : SOrder) (src : Reg) (w32 : Bool) (s : State) : Res :=
  accAt .max base src sc o w32 s
/-- ACC.OR (R210). -/
def execAccOr (base : Reg) (sc : Scope) (o : SOrder) (src : Reg) (w32 : Bool) (s : State) : Res :=
  accAt .or base src sc o w32 s
/-- ACC.FADD32 (R210). -/
def execAccFadd32 (base : Reg) (sc : Scope) (o : SOrder) (src : Reg) (s : State) : Res :=
  accAt .fadd32 base src sc o true s
/-- ACC.LADD32 (R210). -/
def execAccLadd32 (base : Reg) (sc : Scope) (o : SOrder) (src : Reg) (s : State) : Res :=
  accAt .ladd32 base src sc o true s
/-- AFLUSH (R212): WAITING until every merge it started has been applied. -/
def execAflush (s : State) : Res :=
  if s.onMgmt then done s
  else if s.myCore.work.port.any fun e => e.ctx == s.cur.ctx && (match e.kind with | .acc _ => true | _ => false) then hold s
  else
    let cl := clusterOf s.cur.core
    let pos := posOf s.cur.core
    if (s.cluster cl).acc.any (fun e => e.mask.getLsbD pos) || s.mergesOut cl pos then
      waitIn .aflush (if s.me.packet.isSome then s else s.mergeMine cl pos)
    else done s

/-! ### Line maintenance (R202, R203) -/

/-- The peer and line that line maintenance acts on: a valid leaf of the task's tenant, and R for PIN. -/
def State.lineFor (s : State) (a : Word) (needR : Bool) : Option (Nat × Nat × Bool) :=
  if s.onMgmt || 0xFF0000000000 ≤ a.toNat || s.myCluster.ways = 0 then none
  else
    let t := s.myCore.bind.tenant
    match s.leafOn s.cur.core t a.toNat with
    | none => none
    | some e =>
      let pa := e.frame + (a.toNat - e.vbase)
      if e.owner != t || (needR && !e.r) then none
      else if s.isSelf e.peer then some (0, lineOf pa, e.timed)
      else if s.inPartition t e.peer then some (e.peer.toNat, lineOf pa, false) else none

/-- Line maintenance under its predicate: accesses of the context to the line, and a drain, come first. -/
def onLine (a : Reg) (q : Pred) (needR : Bool) (s : State) (none_ : Res) (k : Nat → Nat → Bool → State → Res) : Res :=
  pred q s (needClean (s.gReg a) a s
    (match s.lineFor (s.gReg a).val needR with
     | none => none_
     | some (p, l, timed) =>
       if s.bankBusy s.cur.core (.phys (64 * l) timed) || (p != 0 && !s.peerUp) ||
           s.myCore.work.port.any (fun e => e.ctx == s.cur.ctx && e.place.cacheLine == some (p, l)) then hold s
       else k p l timed (s.touch s.cur.core s.myCore.bind.tenant (s.gReg a).val)))

/-- LINEWB (R202): the dirty bytes are applied at the home; the line stays valid and clean. -/
def execLinewb (a : Reg) (q : Pred) (s : State) : Res :=
  onLine a q false s (done s) fun p l _ s => done (s.cleanLine (clusterOf s.cur.core) p l)

/-- LINEINV (R202). -/
def execLineinv (a : Reg) (q : Pred) (s : State) : Res :=
  onLine a q false s (done s) fun p l _ s => done (s.settleLine (clusterOf s.cur.core) p l)

/-- PIN (R202, R203). -/
def execPin (d a : Reg) (q : Pred) (s : State) : Res :=
  onLine a q true s (done (s.putG d 0)) fun p l timed s =>
    let cl := clusterOf s.cur.core
    let pos := posOf s.cur.core
    let pinned := fun (k : Cluster) => (k.lines.filter fun x => x.line % 64 == l % 64 && x.pin.isSome).length
    let pinIt := fun (x : Line) (s : State) => done ((s.setMyCluster (s.myCluster.putLine { x with pin := some pos })).putG d 1)
    match s.myCluster.findLine p l with
    | some x =>
      if x.pin.isSome then done (s.putG d 1)
      else if s.myCluster.ways ≤ pinned s.myCluster + 1 then done (s.putG d 0)
      else pinIt x s
    | none =>
      if s.myCluster.ways ≤ pinned s.myCluster + 1 then done (s.putG d 0)
      else match s.makeRoom cl l with
        | none => done (s.putG d 0)
        | some s1 =>
          let (x, s2) := s1.freshLine cl p l timed
          let (y, s3) := s2.fillLine x
          pinIt y s3

/-- UNPIN (R202): whichever core set the pin. -/
def execUnpin (a : Reg) (q : Pred) (s : State) : Res :=
  onLine a q false s (done s) fun p l _ s =>
    let k := s.myCluster
    done (s.setMyCluster { k with lines := k.lines.map fun x => if x.isFor p l then { x with pin := none } else x })

end Sys2Proof.Machine
end

