-- ==== Sys2Proof/Machine/Contexts.lean ====
section
/-! DEFINITION. Context instructions, HINT.ALIGN, and the register pool: 04 R89 to R97, 05 R124, 06 R147 to R158. -/

namespace Sys2Proof.Machine

/-! ### What a task gives back when it ends (R157, R235, R275, R412) -/

/-- A context with nothing left of its task. -/
def Ctx.freed (x : Ctx) : Ctx :=
  { x with st := .free, wait := none, yield := [], packet := none, pend := [], count := 0, lanes := Lanes.reset }

/-- The end of a task on a core: its contexts, its status ring, its guard slots and its lease go, with all that it gives up. -/
def State.endTask (s : State) (c : CoreId) : State :=
  (s.modCore c fun k =>
    { k with ctxs := k.ctxs.map Ctx.freed, jobs := [], lease := 0, guards := Vector.replicate 8 .free }).giveUp c

/-! ### START, JOIN, EXIT (R92 to R94) -/

/-- A helper as START makes it (R92). The rule gives no value to TCAUSE, TVAL, XPC0 to XPC2, PPRIV and PKAB: they stay as the former
user of the number left them (DESIGN CHOICE, log 69). -/
def Ctx.helper (n : CtxId) (arg : PWord) (nmode pc : Word) (old : Ctx) : Ctx :=
  { Ctx.reset with st := .ready, pc := pc, nmode := nmode, gen := old.gen + 1,
                   g := (Ctx.reset.g.set 1 ⟨BitVec.ofNat 64 n, false⟩).set 2 arg, tr := { old.tr with priv := 0 } }

/-- START (R92). -/
def execStart (d : Reg) (imm : BitVec 17) (s : State) : Res :=
  if s.cur.ctx != 0 then trap cCtxRule 1 s
  else match (allCtx.drop 1).find? fun n => (s.myCore.ctx n).st == .free with
    | none => done (s.putG d 0)
    | some n =>
      let arg := s.gReg d
      needClean arg d s
        (done ((s.modMyCore fun k =>
          k.setCtx n (Ctx.helper n arg s.me.nmode (s.target 17 imm) (k.ctx n))).putG d (BitVec.ofNat 64 n)))

/-- TSTAT of a reaped helper joins that of context 0 (R181). -/
def joinTstat (a b : Word) : Word :=
  let n := Nat.min 0xFFFF ((a.extractLsb' 32 16).toNat + (b.extractLsb' 32 16).toNat)
  ((a ||| b) &&& 0xF) ||| BitVec.ofNat 64 (n * 2 ^ 32)

/-- Reap an ENDED helper (R93). -/
def State.reap (s : State) (n : CtxId) : State :=
  let h := s.myCore.ctx n
  (s.modMyCore fun k => k.setCtx n { h with st := .free }).modMe fun x =>
    { x with nflags := x.nflags ||| h.nflags, tstat := joinTstat x.tstat h.tstat }

/-- JOIN in either size (R93). -/
def joinVia (i : Instr) (r : Reg) (s : State) : Res :=
  if s.cur.ctx != 0 then trap cCtxRule 2 s
  else
    let v := s.gReg r
    needClean v r s
      (if v.val = 0 || 10 < v.val.toNat then trap cCtxRule 3 s
       else
         let n : CtxId := Fin.ofNat 11 v.val.toNat
         match (s.myCore.ctx n).st with
         | .free => done s
         | .ended => done (s.reap n)
         | .ready | .waiting | .stopped => waitIn i s)

/-- JOIN (R93). -/
def execJoin (d : Reg) (s : State) : Res := joinVia (.join d) d s
/-- Short form of JOIN (R48). -/
def execJoinS (r : Reg) (s : State) : Res := joinVia (.joinS r) r s

/-- The mask of EXIT's third check (R94). -/
def Ctx.poisonMask (x : Ctx) : Word :=
  let bits := fun (f : Nat → Bool) (lo n base : Nat) => (List.range n).foldl (fun (a : Word) i =>
    if f (lo + i) then a ||| bitAt (base + i) else a) 0
  bits (fun i => ((x.g.toList.getD i PWord.zero)).poison) 1 15 1 ||| bits (fun i => ((x.e.toList.getD i PWord.zero)).poison) 0 8 16 |||
    bits (fun i => ((x.p.toList.getD i ⟨false, false⟩)).poison) 1 7 24 |||
    (if (x.v.toList.take (Nat.min x.count 16)).any fun r => r.poison != 0 then bitAt 31 else 0)

/-- Jobs of a context that are accepted and write its pooled registers (R153). -/
def State.poolJobs (s : State) (c : CoreId) (n : CtxId) : Bool :=
  let mine := fun (j : Job) => j.core == c && j.ctx == n && (match j.cmd with | .mrda .. => true | _ => false)
  let o := s.octet (octetOf c)
  c != mgmtCore && (o.queue.any mine || (match o.running with | some j => mine j | none => false))

/-- Vector loads of a context that are still to write its pooled registers. -/
def State.poolLoads (s : State) (c : CoreId) (n : CtxId) : Bool :=
  (s.core c).work.vecs.any fun e => e.ctx == n && e.load

/-- Vector stores of a context that are not complete: not yet performed at their homes (R153, R298). -/
def State.poolStores (s : State) (c : CoreId) (n : CtxId) : Bool :=
  (s.core c).work.vecs.any fun e => e.ctx == n && !e.load

/-- Whether the divide unit or the recurrence unit works on an instruction of a context: its result and its flags are still
to be written (R71, R218). -/
def Core.inUnits (k : Core) (n : CtxId) : Bool :=
  (match k.work.div with | some o => o.ctx == n | none => false) || (match k.work.rcr with | some o => o.ctx == n | none => false)

/-- EXIT in either size (R94): the checks in order, then the end of a helper or of the task (R318). -/
def exitVia (s : State) : Res :=
  let x := s.me
  let helpers := (allCtx.drop 1).any fun n => (s.myCore.ctx n).live
  if x.packet.isSome then trap cCtxRule 5 s
  else if s.cur.ctx == 0 && helpers then trap cCtxRule 4 s
  else if !x.pend.isEmpty || s.myCore.inUnits s.cur.ctx || s.poolLoads s.cur.core s.cur.ctx ||
      (s.cur.ctx != 0 && (s.poolJobs s.cur.core s.cur.ctx || s.poolStores s.cur.core s.cur.ctx)) then hold s
  else if x.poisonMask != 0 then trap cPoisonExit x.poisonMask s
  else if s.cur.ctx != 0 then
    let s1 := (s.retire.givePool s.cur.core s.cur.ctx)
    let s2 := if s.onMgmt then s1 else s1.releaseLanes s.cur.core s.cur.ctx
    .next ((s2.modMe fun x => { x with st := .ended }).modMyCore fun k => k.setCtx 0 ((k.ctx 0).latch evHexit))
  else
    let s0 := (allCtx.drop 1).foldl (fun s n => if (s.myCore.ctx n).st == .ended then s.reap n else s) s
    let s1 := s0.retire.endTask s.cur.core
    .next (match s.myCore.bind.task with
      | some t => s1.modTask t fun k => { k with phase := .retiring s.cur.core }
      | none => s1)

/-- EXIT (R94). -/
def execExit (s : State) : Res := exitVia s
/-- Short form of EXIT (R48). -/
def execExitS (s : State) : Res := exitVia s

/-! ### YIELD, SLEEP, WAITEV (R95, R96) -/

/-- YIELD in either size: the other READY contexts issue first (R95). -/
def yieldVia (s : State) : Res :=
  let others := allCtx.filter fun n => n != s.cur.ctx && (s.myCore.ctx n).st == .ready
  done (s.modMe fun x => { x with yield := others })

/-- YIELD (R95). -/
def execYield (s : State) : Res := yieldVia s
/-- Short form of YIELD (R48). -/
def execYieldS (s : State) : Res := yieldVia s

/-- Cycles in ten ticks at each operating point (R6, R402). -/
def pointRate (p : Nat) : Nat := [108, 100, 88, 80, 72, 64, 56, 48].getD p 48

/-- Whole ticks that the cycles of a SLEEP last at the core's point (R95). No rule gives the clock of the management core. -/
def State.sleepTicks (s : State) (v : Word) : Word :=
  if s.onMgmt then 0 else BitVec.ofNat 64 (10 * Nat.min v.toNat 1048575 / pointRate s.myCore.point)

/-- SLEEP (R95): of zero cycles it acts as YIELD. -/
def execSleep (d : Reg) (s : State) : Res :=
  let v := s.gReg d
  needClean v d s
    (if v.val = 0 then yieldVia s
     else if s.me.packet.isSome then waitIn (.sleep d) s
     else waitIn (.sleep d) (s.modMe fun x => { x with due := s.time + s.sleepTicks v.val }))

/-- WAITEV (R96). -/
def execWaitev (d : Reg) (mask : BitVec 6) (s : State) : Res :=
  needClean (s.gReg d) d s
    (let m := s.me.evpend &&& mask.setWidth 64
     if m = 0 then waitIn (.waitev d mask) s
     else done ((s.modMe fun x => { x with evpend := x.evpend &&& ~~~m }).putG d m))

/-! ### HINT.ALIGN (R124) -/

/-- Cores of a cluster that a mask names, other than one position. -/
def alignNeeds (mask : BitVec 16) (pos : Nat) : BitVec 16 := mask &&& ~~~(1#16 <<< pos)

/-- HINT (R124): the context is held until the other cores of the mask arrive, or the bound passes. -/
def execHint (mask : BitVec 16) (w : BitVec 4) (s : State) : Res :=
  let c := s.cur.core
  let pos := posOf c
  let a := s.me.pc
  let mates := s.cores.filter fun e => e.1 != c && clusterOf e.1 == clusterOf c && (e.1 == mgmtCore) == (c == mgmtCore)
  let here : BitVec 16 := mates.foldl (fun m e =>
    if e.2.work.aligns.any fun h => h.addr == a then m ||| (1#16 <<< posOf e.1) else m) 0
  let s1 := mates.foldl (fun s e => s.modCore e.1 fun k => { k with work := { k.work with aligns := k.work.aligns.map fun h =>
    if h.addr == a then { h with arrived := h.arrived ||| (1#16 <<< pos) } else h } }) s
  if w = 0 || alignNeeds mask pos &&& ~~~here = 0 then done s1
  else
    let s2 := s1.modMyCore fun k => { k with work := { k.work with aligns := k.work.aligns ++ [⟨s.cur.ctx, a, mask, here⟩] } }
    .next (s2.modMe fun x => { x with st := .waiting, wait := some (.hint mask w) })

/-! ### The register pool (R147 to R158) -/

/-- Whether earlier uses of the pooled registers of the executing context are still to complete (R153). -/
def State.poolBusy (s : State) : Bool :=
  s.poolJobs s.cur.core s.cur.ctx || s.poolLoads s.cur.core s.cur.ctx || s.poolStores s.cur.core s.cur.ctx

/-- Give back and retire: GIVE, and CLAIM of zero. -/
def giveVia (i : Instr) (s : State) : Res :=
  if s.me.count = 0 then done s
  else if s.poolBusy then waitIn i s
  else done (s.givePool s.cur.core s.cur.ctx)

/-- CLAIM (R153). -/
def execClaim (d a : Reg) (q : Pred) (s : State) : Res :=
  pred q s
    (let v := s.gReg a
     needClean v a s
       (let n := v.val.toNat
        if 32 < n then trap cPool v.val s
        else if s.poolBusy then waitIn (.claim d a q) s
        else
          let old := s.me.count
          let s1 := ((s.givePool s.cur.core s.cur.ctx).putG d (BitVec.ofNat 64 old))
          if n = 0 then done s1
          else if s1.myCore.poolQ.isEmpty && n ≤ s1.myCore.poolFree then
            done ((s1.modMe fun x => x.bindPool n).modMyCore Core.noteLow)
          else if s.me.packet.isSome then waitIn (.claim d a q) s
          else waitIn (.claim d a q) (s1.modMyCore fun k => { k with poolQ := k.poolQ ++ [(s.cur.ctx, n)] })))

/-- GIVE (R154). -/
def execGive (q : Pred) (s : State) : Res := pred q s (giveVia (.give q) s)
/-- Short form of GIVE (R48). -/
def execGiveS (s : State) : Res := giveVia .giveS s

/-- POOLST with HELD of a context (R156). -/
def Core.poolst (k : Core) (held : Nat) : Word :=
  let blocked := k.poolQ.foldl (fun (a : Word) e => a ||| bitAt (45 + e.1.val)) 0
  let head := match k.poolQ with | [] => 15 | e :: _ => e.1.val
  blocked ||| BitVec.ofNat 64
    (head * 2 ^ 36 + k.poolQ.length * 2 ^ 32 + held * 2 ^ 16 + k.low * 2 ^ 8 + k.poolFree)

/-- Count held by context number `n`, 0 above 10 (R155). -/
def Core.heldBy (k : Core) (n : Nat) : Nat := if n ≤ 10 then (k.ctx (Fin.ofNat 11 n)).count else 0

/-- PQUERY (R155). -/
def execPquery (d a : Reg) (q : Pred) (s : State) : Res :=
  pred q s (needClean (s.gReg a) a s
    (done (s.putG d (s.myCore.poolst (s.myCore.heldBy ((s.gReg a).val.toNat % 16))))))

end Sys2Proof.Machine
end

