-- ==== Sys2Proof/Machine/System.lean ====
section
/-! DEFINITION. Special registers, TRAP, RETT, HALT, CTXSAVE and CTXLOAD: 04 R98 to R105, R113, R115, R116,
16 R415, R416. -/

namespace Sys2Proof.Machine

/-! ### Modes (R98) -/

/-- A mode restored from a register: PRIV 2 never occurs, and machine mode exists on the management core only. A value
that names no mode of the core leaves the mode open: a free value among its modes. -/
def legalPriv (mgmt : Bool) (v : BitVec 2) (k : Nat) : BitVec 2 :=
  if v = 0 || v = 1 || (mgmt && v = 3) then v
  else
    let w := (Config.freeWord k).extractLsb' 0 2
    if w = 0 || w = 1 then w else if mgmt then 3 else 1

/-- TRAP (R105): it does not retire; in supervisor mode it escalates (R106). -/
def execTrap (code : BitVec 8) (s : State) : Res := trap cSoft (code.setWidth 64) s

/-- The triple of a return: bit 0 of the first word is a misaligned fetch (R34). -/
def returnTo (x0 x1 x2 : Word) (priv : BitVec 2) (s : State) (k : State → State) : Res :=
  if x0.getLsbD 0 then trap cMisFetch x0 s
  else
    let p := legalPriv s.onMgmt priv s.fresh
    .next (k ((s.modMe fun x =>
      { (x.restore x0 x1 x2) with st := .ready, wait := none, tr := { x.tr with priv := p } }).nextFresh))

/-- RETT (R105, R416). -/
def execRett (s : State) : Res :=
  if s.isUser then trap cPriv (Instr.tval .rett) s
  else if s.onMgmt && s.priv == 3 then
    returnTo s.mgmt.mxpc0 s.mgmt.mxpc1 s.mgmt.mxpc2 s.mgmt.mpp s fun s => { s with mgmt := { s.mgmt with mie := true } }
  else returnTo s.me.tr.xpc0 s.me.tr.xpc1 s.me.tr.xpc2 s.me.tr.ppriv s id

/-- HALT (R116): on a compute core an illegal instruction. On the management core it halts in every mode; the rule speaks of machine
mode only (DESIGN CHOICE, log 69). -/
def execHalt (s : State) : Res :=
  if s.onMgmt then .next { s.retire with mgmt := { s.mgmt with halted := true } } else illegal .halt s

/-! ### Special registers (R99, R101) -/

/-- Whether a context's alarm instant has been reached (R104). -/
def State.alarmOn (s : State) (c : CoreId) (x : Ctx) : Bool := x.alarm != 0 && decide (0 ≤ ahead (s.now c) x.alarm)

/-- IPEND as it reads (R104). -/
def State.ipendOf (s : State) (c : CoreId) (n : CtxId) : Word :=
  let x := s.ctx c n
  x.ipend ||| (if s.alarmOn c x then 1 else 0)

/-- CTXST (R101). -/
def State.ctxst (s : State) (c : CoreId) (n : CtxId) : Word :=
  let k := s.core c
  let bits := fun (lo : Nat) (f : Ctx → Bool) => allCtx.foldl (fun (a : Word) m => if f (k.ctx m) then a ||| bitAt (lo + m.val) else a) 0
  let t := (k.ctx n).tr
  bits 29 (fun x => x.st == .ended) ||| bits 18 Ctx.live ||| (if t.pkab then bitAt 15 else 0) |||
    (t.ppriv.setWidth 64 <<< 12) ||| (t.priv.setWidth 64 <<< 10) ||| BitVec.ofNat 64 n

/-- VLGRANT (R233). -/
def State.vlgrant (s : State) (c : CoreId) (n : CtxId) : Word :=
  let l := (s.ctx c n).lanes
  let w := if c == mgmtCore then 0 else (s.octet (octetOf c)).laneQ.length
  BitVec.ofNat 64 (w * 2 ^ 32 + (if l.shrink then 2 ^ 16 else 0) + l.q * 2 ^ 8 + l.g)

/-- MIPEND (R415). -/
def State.mipend (s : State) (x : Ctx) : Word :=
  (if s.mgmt.alerts.isEmpty then 0 else 1) ||| (if s.links.any (·.2.rekey) then 2 else 0) |||
    (if s.spine.evq.isEmpty then 0 else 4) ||| (if s.mgmt.host then 8 else 0) ||| (if s.alarmOn mgmtCore x then 16 else 0)

/-- Remove and return the oldest alert (R415). -/
def State.popAlert (s : State) : Word × State :=
  match s.mgmt.alerts with
  | [] => (0, s)
  | a :: r =>
    (if s.mgmt.alertDropped then a ||| bitAt 61 else a, { s with mgmt := { s.mgmt with alerts := r, alertDropped := false } })

/-- Whether a timed store of the executing context is unacknowledged, or a TLD of it has not returned (R172). -/
def State.timedOut (s : State) : Bool :=
  let k := s.myCore
  k.work.port.any (fun e => e.ctx == s.cur.ctx && e.gen == s.me.gen && (match e.kind with | .timed _ => true | _ => false)) ||
  k.work.loads.any (fun e => e.ctx == s.cur.ctx && (match e.kind with | .timed _ | .timedWait _ => true | _ => false)) ||
  s.fabric.any fun m => match m.2 with
    | .tstAck t l n g _ _ _ => t == k.bind.task && l == s.lcnOf s.cur.core && n == s.cur.ctx && g == s.me.gen
    | _ => false

/-- How a mode may use a special register. -/
inductive SrAccess where
  | absent | ro | rw | priv
  deriving DecidableEq, Repr

/-- Access of R99 and R415: `mgmt` on the management core, `p` the mode. -/
def srAccess (mgmt : Bool) (p : BitVec 2) (n : Nat) : SrAccess :=
  if natHas [0x000, 0x008, 0x009, 0x00A, 0x00B, 0x00C, 0x00D, 0x00E, 0x012] n then .ro
  else if natHas [0x001, 0x006, 0x007, 0x00F, 0x011, 0x016, 0x017, 0x018, 0x019, 0x01A, 0x01B, 0x01C, 0x01D, 0x01E] n then .rw
  else if natHas [0x002, 0x003, 0x004, 0x005, 0x010, 0x013, 0x014, 0x015] n then (if p = 0 then .ro else .rw)
  else if mgmt && decide (0x100 ≤ n) && decide (n ≤ 0x109) then (if p = 3 then (if n = 0x109 then .ro else .rw) else .priv)
  else .absent

/-- A special register of every core. -/
def State.readSr (s : State) (n : Nat) : Word :=
  let k := s.myCore
  let x := s.me
  match n with
  | 0x000 => k.bind.tbase
  | 0x001 => x.tstat
  | 0x002 => s.ctxst s.cur.core s.cur.ctx
  | 0x003 => x.tr.tcause
  | 0x004 => x.tr.tval
  | 0x005 => k.bind.tvec
  | 0x006 => x.nmode
  | 0x007 => x.nflags
  | 0x008 => BitVec.ofNat 64 x.lanes.vl
  | 0x009 => s.vlgrant s.cur.core s.cur.ctx
  | 0x00A => k.poolst x.count
  | 0x00B => k.lcn.setWidth 64
  | 0x00C => s.spine.peerno.setWidth 64
  | 0x00D => BitVec.ofNat 64 s.myCluster.power.throttle
  | 0x00E => k.lease
  | 0x00F => x.ien
  | 0x010 => s.ipendOf s.cur.core s.cur.ctx
  | 0x011 => x.alarm
  | 0x012 => x.evpend
  | 0x013 => x.tr.xpc0
  | 0x014 => x.tr.xpc1
  | 0x015 => x.tr.xpc2
  | 0x016 => x.loops[0].lc
  | 0x017 => x.loops[1].lc
  | 0x018 => x.loops[2].lc
  | 0x019 => x.loops[0].ls
  | 0x01A => x.loops[1].ls
  | 0x01B => x.loops[2].ls
  | 0x01C => x.loops[0].le
  | 0x01D => x.loops[1].le
  | 0x01E => x.loops[2].le
  | 0x100 => (s.mgmt.mpp.setWidth 64 <<< 2) ||| (if s.mgmt.mie then 1 else 0)
  | 0x101 => s.mgmt.mcause
  | 0x102 => s.mgmt.mtval
  | 0x103 => s.mgmt.mvec
  | 0x104 => s.mgmt.mxpc0
  | 0x105 => s.mgmt.mxpc1
  | 0x106 => s.mgmt.mxpc2
  | 0x107 => s.mgmt.mien
  | 0x108 => s.mipend x
  | _ => 0

/-- A read with its effect: ALERTQ pops (R415). -/
def State.takeSr (s : State) (n : Nat) : Word × State := if n = 0x109 then s.popAlert else (s.readSr n, s)

/-- MFS (R99, R100): TSTAT and NFLAGS wait (R72, R172). -/
def execMfs (d : Reg) (sr : BitVec 12) (s : State) : Res :=
  let n := sr.toNat
  match srAccess s.onMgmt s.priv n with
  | .absent => illegal (.mfs d sr) s
  | .priv => trap cPriv (sr.setWidth 64) s
  | .ro | .rw =>
    if (n = 0x001 && s.timedOut) || (n = 0x007 && s.flagsOut) then hold s
    else let (v, s1) := s.takeSr n; done (s1.putG d v)

/-- Fields that a write to a special register of a context keeps. -/
def causeMask : Word := 0x80000000000000FF
def addrMask : Word := 0xFFFFFFFFFFFF

/-- A write of a context's register. -/
def Ctx.writeSr (x : Ctx) (n : Nat) (v : Word) : Ctx :=
  let tr := x.tr
  let lp := fun (k : Fin 3) (f : Loop → Loop) => { x with loops := x.loops.set k (f x.loops[k]) }
  match n with
  | 0x001 => { x with tstat := v &&& 0x0000FFFF0000000F }
  | 0x002 => { x with tr := { tr with pkab := v.getLsbD 15, ppriv := v.extractLsb' 12 2 } }
  | 0x003 => { x with tr := { tr with tcause := v &&& causeMask } }
  | 0x004 => { x with tr := { tr with tval := v } }
  | 0x006 => { x with nmode := v &&& 0xB }
  | 0x007 => { x with nflags := v &&& 0xFF }
  | 0x00F => { x with ien := v &&& 7 }
  | 0x010 => { x with ipend := x.ipend &&& ~~~(v &&& 6) }
  | 0x011 => { x with alarm := v, ipend := x.ipend &&& ~~~1#64 }
  | 0x013 => { x with tr := { tr with xpc0 := v } }
  | 0x014 => { x with tr := { tr with xpc1 := v } }
  | 0x015 => { x with tr := { tr with xpc2 := v } }
  | 0x016 => lp 0 fun l => { l with lc := v &&& 0xFFFFFFFF }
  | 0x017 => lp 1 fun l => { l with lc := v &&& 0xFFFFFFFF }
  | 0x018 => lp 2 fun l => { l with lc := v &&& 0xFFFFFFFF }
  | 0x019 => lp 0 fun l => { l with ls := v &&& addrMask }
  | 0x01A => lp 1 fun l => { l with ls := v &&& addrMask }
  | 0x01B => lp 2 fun l => { l with ls := v &&& addrMask }
  | 0x01C => lp 0 fun l => { l with le := v &&& addrMask }
  | 0x01D => lp 1 fun l => { l with le := v &&& addrMask }
  | 0x01E => lp 2 fun l => { l with le := v &&& addrMask }
  | _ => x

/-- A write of a management register (R415). -/
def Mgmt.writeSr (m : Mgmt) (n : Nat) (v : Word) : Mgmt :=
  match n with
  | 0x100 => { m with mie := v.getLsbD 0, mpp := v.extractLsb' 2 2 }
  | 0x101 => { m with mcause := v &&& causeMask }
  | 0x102 => { m with mtval := v }
  | 0x103 => { m with mvec := v }
  | 0x104 => { m with mxpc0 := v }
  | 0x105 => { m with mxpc1 := v }
  | 0x106 => { m with mxpc2 := v }
  | 0x107 => { m with mien := v &&& 0x1F }
  | 0x108 => { m with host := m.host && !v.getLsbD 3 }
  | _ => m

/-- A write of a special register; TVEC has task scope. -/
def State.writeSr (s : State) (n : Nat) (v : Word) : State :=
  if n = 0x005 then s.modMyCore fun k => { k with bind := { k.bind with tvec := v } }
  else if 0x100 ≤ n then { s with mgmt := s.mgmt.writeSr n v }
  else s.modMe (·.writeSr n v)

/-- MTS (R99, R100): earlier flags and acknowledgements come first. The loop-back at the retire of an MTS of a loop register still
tests the old values (R139). -/
def execMts (d : Reg) (sr : BitVec 12) (s : State) : Res :=
  let n := sr.toNat
  match srAccess s.onMgmt s.priv n with
  | .absent => illegal (.mts d sr) s
  | .priv | .ro => trap cPriv (sr.setWidth 64) s
  | .rw =>
    let v := s.gReg d
    if v.poison then trap cPoison (BitVec.ofNat 64 d) s
    else if n = 0x007 && s.flagsOut then hold s
    else if 0x016 ≤ n && n ≤ 0x01E then .next (s.retire.writeSr n v.val)
    else done (s.writeSr n v.val)

/-! ### The record of a context (R111, R113, R115) -/

/-- The 184-byte slot image: g1 to g15 and e0 to e7. -/
def Ctx.slotImage (x : Ctx) : List PWord := x.g.toList.drop 1 ++ x.e.toList

/-- MISC of a control record (R113). -/
def Ctx.misc (x : Ctx) : Word :=
  let ps := (List.range 7).foldl (fun (a : Word) i => if ((x.p.toList.getD (i + 1) ⟨false, false⟩)).val then a ||| bitAt i else a) 0
  ps ||| (x.tr.priv.setWidth 64 <<< 8) ||| (x.tr.ppriv.setWidth 64 <<< 10) ||| ((x.nmode &&& 0xF) <<< 16) |||
    ((x.nflags &&& 0xFF) <<< 20) ||| ((x.ien &&& 7) <<< 28) ||| ((x.ipend &&& 7) <<< 32) ||| ((x.evpend &&& 0x3F) <<< 36) |||
    (if x.tr.pkab then bitAt 42 else 0)

/-- The first 104 bytes of a control record: the stop triple, the loops, MISC, TCAUSE, TVAL and ALARM. -/
def State.control13 (s : State) (c : CoreId) (n : CtxId) : List Word :=
  let x := { s.ctx c n with ipend := s.ipendOf c n }
  let (a, b, d) := s.savedTriple c n
  let lp := fun (l : Loop) => [(l.ls &&& addrMask) ||| (l.lc <<< 48), (l.le &&& addrMask) ||| ((l.lc >>> 16) <<< 48)]
  [a, b, d] ++ lp x.loops[0] ++ lp x.loops[1] ++ lp x.loops[2] ++ [x.misc, x.tr.tcause, x.tr.tval, x.alarm]

/-- A loop level read back. -/
def loopOf (a b : Word) : Loop := ⟨(a >>> 48) ||| ((b >>> 48) <<< 16), a &&& addrMask, b &&& addrMask⟩

/-- The 288-byte record (R115). -/
def State.ctxRecord (s : State) (c : CoreId) (n : CtxId) : List PWord :=
  (s.ctx c n).slotImage ++ (s.control13 c n).map PWord.clean

/-- A control record read back into a context: everything but g, e and the pool. IPEND is taken as the record has it: an ALARM bit that
it holds stays set until ALARM is written, whatever ALARM holds (DESIGN CHOICE, log 69). -/
def Ctx.loadControl (x : Ctx) (mgmt : Bool) (k : Nat) (w : List Word) : Ctx :=
  let at_ := fun i => w.getD i 0
  let m := at_ 9
  { (x.restore (at_ 0) (at_ 1) (at_ 2)) with
    loops := ((x.loops.set 0 (loopOf (at_ 3) (at_ 4))).set 1 (loopOf (at_ 5) (at_ 6))).set 2 (loopOf (at_ 7) (at_ 8))
    p := (((((((x.p.set 1 ⟨m.getLsbD 0, false⟩).set 2 ⟨m.getLsbD 1, false⟩).set 3 ⟨m.getLsbD 2, false⟩).set 4
      ⟨m.getLsbD 3, false⟩).set 5 ⟨m.getLsbD 4, false⟩).set 6 ⟨m.getLsbD 5, false⟩).set 7 ⟨m.getLsbD 6, false⟩)
    nmode := (m >>> 16) &&& 0xB
    nflags := (m >>> 20) &&& 0xFF
    ien := (m >>> 28) &&& 7
    ipend := (m >>> 32) &&& 7
    evpend := (m >>> 36) &&& 0x3F
    alarm := at_ 12
    tr := { x.tr with priv := legalPriv mgmt (m.extractLsb' 8 2) k, ppriv := m.extractLsb' 10 2, pkab := m.getLsbD 42,
                      tcause := at_ 10 &&& causeMask, tval := at_ 11 } }

/-- A slot image read back. -/
def Ctx.loadSlot (x : Ctx) (w : List PWord) : Ctx :=
  { x with g := ((List.finRange 16).drop 1).foldl (fun g (i : Fin 16) => g.set i (w.getD (i.val - 1) PWord.zero)) x.g
           e := (List.finRange 8).foldl (fun e (i : Fin 8) => e.set i (w.getD (15 + i.val) PWord.zero)) x.e }

/-- The checks that CTXSAVE and CTXLOAD share (R98, R115). A poisoned g[d] traps in both with cause poison control; for CTXLOAD no rule
says so (DESIGN CHOICE, log 69). -/
def withRecord (i : Instr) (d : Reg) (n : BitVec 4) (okSt : CtxState → Bool) (s : State) (k : CtxId → Word → Res) : Res :=
  if s.isUser then trap cPriv i.tval s
  else if 10 < n.toNat then trap cCtxRule 7 s
  else
    let m : CtxId := Fin.ofNat 11 n.toNat
    let v := s.gReg d
    if m = s.cur.ctx || !okSt (s.myCore.ctx m).st then trap cCtxRule 6 s
    else needClean v d s (if v.val.extractLsb' 0 6 != 0 then trap cMisalign v.val s else k m v.val)

/-- The places of a record's 36 words, or the trap of the first word that cannot be reached. -/
def withPlaces (a : Acc) (s : State) : Nat → Word → (List Place → Res) → Res
  | 0, _, k => k []
  | n + 1, addr, k => storeFate (s.reach a 8 addr) addr s fun p => withPlaces a s n (addr + 8) fun ps => k (p :: ps)

/-- Whether an earlier access, a copy or a drain stands before an access to one of some places. -/
def State.blocked (s : State) (ps : List Place) (stores : Bool) : Bool :=
  s.acquiring s.cur.core s.cur.ctx || ps.any fun p =>
    s.bankBusy s.cur.core p || s.mark s.cur.core p 8 == .held || s.mustWait s.cur.core s.cur.ctx s.seq p stores ||
      (!stores && s.loadWaits s.cur.core p 8)

/-- One word of a record stored as an STD of scope .CORE; `none` when a FIFO bank has no room. A word that its home refuses, that
follows one to that home that stands refused, or that must wait at a port, stays in the store port like any store (R176); that the
port may then hold more than its sixteen entries is a DESIGN CHOICE (log 75): R115 does not say how a record passes the port. -/
def State.storeWord (s : State) (p : Place) (v : PWord) : Option State :=
  match s.fifoBank p with
  | some (cl, b, _) => if (s.fifo cl b).fits true 1 && (s.specTask s.cur.core).isNone then some (s.push cl b [v]) else none
  | none =>
    match p with
    | .aperture ch off =>
      if off = 8 then some (s.modMyCore fun k => { k with psrc := k.psrc.set (chanNo ch) v.val })
      else some (s.modMyCore fun k => { k with pdst := k.pdst.set (chanNo ch) v.val })
    | .mwin 8 => some { s with spine := s.spine.burn v.val }
    | .mwin _ => some (s.toPort p 8 v .plain)
    | _ =>
      if s.refusedAt s.cur.core s.cur.ctx s.seq p then some (s.toPort p 8 v .plain)
      else match s.performStore s.cur.core s.cur.ctx s.seq p 8 v none with
        | some s1 => some s1
        | none => some ((s.toPort p 8 v .plain).modMyCore fun k => k.setPort s.seq fun e =>
            some { e with refused := match p with | .phys .. => some s.time | _ => none })

/-- The words of a record stored in order. -/
def State.storeWords (s : State) : List (Place × PWord) → Option State
  | [] => some s
  | (p, v) :: r => (s.storeWord p v).bind fun s1 => State.storeWords s1.nextSeq r

/-- CTXSAVE (R115): poison is kept with the words; R107 does not name it among the reported stores. -/
def execCtxsave (d : Reg) (n : BitVec 4) (s : State) : Res :=
  withRecord (.ctxsave d n) d n (· == .stopped) s fun m addr =>
    withPlaces .store s 36 addr fun ps =>
      if 16 ≤ s.myCore.portUsed || s.blocked ps true then hold s
      else match s.storeWords (ps.zip (s.ctxRecord s.cur.core m)) with
        | none => hold s
        | some s1 => done s1

/-- The words of a record loaded in order; one that lies above the mark of a frozen channel is Poison(0), as for an LDD (R290). -/
def State.loadWords (s : State) : List Place → List PWord × State
  | [] => ([], s)
  | p :: r =>
    let (v, s1) := if s.mark s.cur.core p 8 == .frozen then (PWord.poison0, s) else match s.fifoBank p with
      | some (cl, b, off) => if off == 0x800 then (⟨(s.fifo cl b).st, false⟩, s)
          else let (es, s1) := s.pull cl b 1; (es.getD 0 PWord.poison0, s1)
      | none => s.serve s.cur.core p 8
    let (vs, s2) := State.loadWords s1 r
    (v :: vs, s2)

/-- A context as CTXLOAD makes it: no pooled registers, no grant, no claim (R115, R157, R235). A poisoned word of the control record
gives its value and its tag is dropped: the registers it fills have none (DESIGN CHOICE, log 69). -/
def Ctx.loaded (x : Ctx) (mgmt : Bool) (k : Nat) (w : List PWord) (run : Bool) : Ctx :=
  let y := (x.loadSlot w).loadControl mgmt k ((w.drop 23).map (·.val))
  { y with st := if run then .ready else .stopped, unsaved := !run, wait := none, yield := [], pend := [], packet := none, count := 0,
           v := Vector.replicate 16 VReg.zero, lanes := Lanes.reset }

/-- CTXLOAD (R115). -/
def execCtxload (d : Reg) (run : Bool) (n : BitVec 4) (s : State) : Res :=
  withRecord (.ctxload d run n) d n (fun t => t == .stopped || t == .free) s fun m addr =>
    withPlaces .load s 36 addr fun ps =>
      if s.blocked ps false then hold s
      else
        let (ws, s1) := s.loadWords ps
        let c := s.cur.core
        let s2 := s1.modMyCore fun k => { (k.setCtx m ((k.ctx m).loaded (c == mgmtCore) s1.fresh ws run)) with
          poolQ := k.poolQ.filter fun q => q.1 != m }
        let s3 := (s2.nextFresh.settlePool 11 c)
        let s4 := if c == mgmtCore then s3 else
          let o := s3.octet (octetOf c)
          (s3.setOctet (octetOf c) { o with laneQ := o.laneQ.filter fun q => !(q.core == c && q.ctx == m) }).settleLanes 88 (octetOf c)
        done s4

end Sys2Proof.Machine
end

