-- ==== Sys2Proof/Machine/Fabric.lean ====
section
/-! DEFINITION. Device time, tags and timelines, guard slots, packets and remote reads as a core issues them:
07 R162, 12 R294 to R299, 05 R142 to R145, 15 R372 to R387. -/

namespace Sys2Proof.Machine

/-! ### Time (R162) -/

/-- TNOW in either size. -/
def tnowVia (d : Reg) (isAbs : Bool) (s : State) : Res :=
  done (s.putG d (if isAbs then s.myNow else s.myNow - s.myCore.bind.tbase))

/-- TNOW (R162). -/
def execTnow (d : Reg) (isAbs : Bool) (s : State) : Res := tnowVia d isAbs s
/-- Short form of TNOW (R48). -/
def execTnowS (d : Reg) (s : State) : Res := tnowVia d false s

/-- TWAITU (R162). -/
def execTwaitu (e : EReg) (isAbs : Bool) (s : State) : Res :=
  needE e s fun v => if 0 ≤ ahead s.myNow (s.instant v isAbs) then done s else waitIn (.twaitu e isAbs) s

/-! ### Tags (R295, R296) -/

/-- Ready bits. -/
def Core.readyTags (k : Core) : Word := k.tags ||| k.tagerr

/-- TWANY (R296). -/
def execTwany (d a : Reg) (s : State) : Res :=
  let m := s.gReg a
  needClean m a s
    (let r := s.myCore.readyTags &&& m.val
     if r != 0 || m.val = 0 then done (s.putG d r) else waitIn (.twany d a) s)

/-- TWALL (R296). -/
def execTwall (d a : Reg) (s : State) : Res :=
  let m := s.gReg a
  needClean m a s
    (if s.myCore.readyTags &&& m.val = m.val then done (s.putG d (s.myCore.tagerr &&& m.val)) else waitIn (.twall d a) s)

/-- TFFR (R296). -/
def execTffr (d a : Reg) (s : State) : Res :=
  let m := s.gReg a
  needClean m a s
    (let x := s.myCore.readyTags &&& m.val
     let i := ctzFrom x 64 0
     done (s.putG d (if x = 0 then 64 else BitVec.ofNat 64 (i + (if s.myCore.tagerr.getLsbD i then 128 else 0)))))

/-- TCLR (R296). -/
def execTclr (a : Reg) (s : State) : Res :=
  let m := s.gReg a
  needClean m a s
    (done (s.modMyCore fun k => { k with tags := k.tags &&& ~~~m.val, tagerr := k.tagerr &&& ~~~m.val }))

/-! ### Timeline counters (R298, R299) -/

def Core.timeline (k : Core) (c : TLCounter) : Timeline :=
  match c with
  | .tlm => k.tlm
  | .tlc => k.tlc
  | .tlf => k.tlf
  | .tlv => k.tlv

/-- TLWAIT in either size (R299): what it waits for has been performed when it retires, so its acquire adds nothing. -/
def tlwaitVia (i : Instr) (r : Reg) (c : TLCounter) (s : State) : Res :=
  let n := s.gReg r
  needClean n r s (if n.val ≤ (s.myCore.timeline c).cnt then done s else waitIn i s)

/-- TLWAIT (R299). -/
def execTlwait (a : Reg) (c : TLCounter) (s : State) : Res := tlwaitVia (.tlwait a c) a c s
/-- Short form of TLWAIT (R48). -/
def execTlwaitS (r : Reg) (c : TLCounter) (s : State) : Res := tlwaitVia (.tlwaitS r c) r c s

/-- TLREAD (R299). -/
def execTlread (d : Reg) (iss : Bool) (c : TLCounter) (s : State) : Res :=
  let t := s.myCore.timeline c
  done (s.putG d (if iss then t.issued else t.cnt))

/-! ### Guard slots (R142 to R145) -/

/-- The index of a guard slot. -/
def slotNo (g : BitVec 3) : Fin 8 := ⟨g.toNat, g.isLt⟩
def Core.guard (k : Core) (g : BitVec 3) : GuardState := k.guards[slotNo g]
def Core.setGuard (k : Core) (g : BitVec 3) (v : GuardState) : Core := { k with guards := k.guards.set (slotNo g) v }

/-- A command enters its queue: a free slot becomes unresolved (R143). -/
def Core.useGuard (k : Core) (g : Guard) : Core :=
  if g.g != 0 && k.guard g.g == .free then k.setGuard g.g .unresolved else k

/-- What a guard says to a command at its queue head (R143). -/
inductive Verdict where
  | start | discard | wait
  deriving DecidableEq, Repr

/-- The verdict of a core's guard slot on a command. -/
def Core.verdict (k : Core) (g : Guard) : Verdict :=
  if g.g = 0 then .start
  else match k.guard g.g with
    | .unresolved | .free => .wait
    | .isTrue => if g.gp then .discard else .start
    | .isFalse => if g.gp then .start else .discard

/-- Commands of a core pending on a slot (R143). -/
def State.pendingOn (s : State) (c : CoreId) (g : BitVec 3) : Nat :=
  (if c == mgmtCore then 0 else ((s.octet (octetOf c)).queue.filter fun j => j.core == c && j.guard.g == g).length) +
    ((s.core c).work.rq.filter fun r => r.guard.g == g).length

def GuardState.code : GuardState → Nat
  | .unresolved => 0
  | .isTrue => 1
  | .isFalse => 2
  | .free => 3

/-- GSET (R144). -/
def execGset (a : PReg) (g : BitVec 3) (neg : Bool) (s : State) : Res :=
  let v := s.pReg a
  if v.poison then trap cPoisonCtl (BitVec.ofNat 64 a) s
  else match s.myCore.guard g with
    | .isTrue | .isFalse => trap cGuard (g.setWidth 64) s
    | .unresolved | .free => done (s.modMyCore fun k => k.setGuard g (if v.val != neg then .isTrue else .isFalse))

/-- GCLR (R145). -/
def execGclr (d : Reg) (g : BitVec 3) (s : State) : Res :=
  if s.pendingOn s.cur.core g != 0 then trap cGuard (g.setWidth 64) s
  else
    let old := s.myCore.guard g
    done ((s.modMyCore fun k => k.setGuard g .free).putG d (BitVec.ofNat 64 old.code))

/-! ### Packets (R375 to R379) -/

/-- A peer number the executing tenant may send to (R371). -/
def State.peerOk (s : State) (p : BitVec 16) : Bool := s.isSelf p || s.inPartition s.myCore.bind.tenant p

/-- PKO (R376). -/
def execPko (a : Reg) (e : EReg) (w : Bool) (s : State) : Res :=
  needClean (s.gReg a) a s
    (needE e s fun dw =>
      match s.me.packet with
      | some p => trap cPacket p.pko s
      | none =>
        if dw.extractLsb' 7 23 != 0 || (!w && dw.extractLsb' 0 7 != 0) then trap cEngine 3 s
        else
          let peer := dw.extractLsb' 48 16
          if !s.peerOk peer then trap cPeer (peer.setWidth 64) s
          else
            let win := (s.gReg a).val
            if w && win.extractLsb' 0 4 != 0 then trap cMisalign win s
            else done (s.modMe fun x => { x with packet := some ⟨dw, if w then some win else none, [], x.pc, 0⟩ }))

/-- The doublewords of the injection window from an offset; the management core has no window (R413). -/
def State.injWords (s : State) (off n : Nat) : List PWord :=
  (List.range n).map fun i => if s.onMgmt then PWord.poison0 else s.myCore.inj.read (off + 8 * i) 8

/-- PKA (R376). -/
def execPka (a : Reg) (nm1 : BitVec 3) (s : State) : Res :=
  let x := s.gReg a
  needClean x a s
    (match s.me.packet with
     | none => trap cPacket 0 s
     | some p =>
       let n := nm1.toNat + 1
       let v := x.val.toNat
       if x.val.extractLsb' 0 4 != 0 || v < 0xFFFFFFFFD000 || 0xFFFFFFFFD200 < v + 16 * n then trap cRights x.val s
       else if 16 < p.flits.length + 2 * n then trap cPacket p.pko s
       else done (s.modMe fun y => { y with packet := some { p with flits := p.flits ++ s.injWords (v - 0xFFFFFFFFD000) (2 * n) } }))

/-- PKS (R376): with the send buffer full the packet stays open. -/
def execPks (s : State) : Res :=
  match s.me.packet with
  | none => trap cPacket 0 s
  | some p =>
    if p.flits.isEmpty then trap cPacket p.pko s
    else if 8 ≤ s.myCore.work.send.length then done (s.setP 1 ⟨false, false⟩)
    else
      let k := s.myCore
      let out : SendPacket := ⟨k.lcn, k.bind.tenant, p.dest, p.window, p.flits, k.bind.task⟩
      let s1 := s.modMyCore fun k => { k with work := { k.work with send := k.work.send ++ [out] } }
      done ((s1.modMe fun x => { x with packet := none }).setP 1 ⟨true, false⟩)

/-- The header of a packet held (R373). -/
def RxPacket.header (p : RxPacket) : Word :=
  bitAt 63 ||| (p.srcPeer.setWidth 64 <<< 42) ||| (p.srcLcn.setWidth 64 <<< 22) |||
    BitVec.ofNat 64 (p.slot % 16 * 256 + p.data.length / 2)

/-- The oldest fault record (R387). -/
def Core.faultHead (k : Core) : Word := k.faults.head?.getD 0

/-- RXPOP (R379). -/
def execRxpop (d : Reg) (f : Bool) (s : State) : Res :=
  if f then done ((s.modMyCore fun k => { k with faults := k.faults.drop 1 }).putG d s.myCore.faultHead)
  else match s.myCore.rx.held with
    | [] => waitIn (.rxpop d f) s
    | p :: r => done ((s.modMyCore fun k => { k with rx := { k.rx with held := r } }).putG d p.header)

/-- RXPEEK (R379). -/
def execRxpeek (d : Reg) (f : Bool) (s : State) : Res :=
  done (s.putG d (if f then s.myCore.faultHead else
    match s.myCore.rx.held with
    | [] => 0
    | p :: _ => p.header))

/-! ### Remote reads and drop windows (R380 to R385) -/

def rsizeBytes : RSize → Nat
  | .b8 => 8
  | .b16 => 16
  | .b32 => 32
  | .b64 => 64
  | .b128 => 128
  | .b256 => 256

/-- Fields of the recipient word (R380). -/
def rwPeer (w : Word) : BitVec 16 := w.extractLsb' 48 16
def rwLcn (w : Word) : BitVec 18 := w.extractLsb' 30 18
def rwMc (w : Word) : Bool := w.getLsbD 29
def rwRtag (w : Word) : Nat := (w.extractLsb' 23 6).toNat
def rwAtag (w : Word) : Nat := (w.extractLsb' 17 6).toNat
def rwMask (w : Word) : BitVec 16 := w.extractLsb' 0 16

/-- Whether a recipient word keeps its table (R380, R382). -/
def rwOk (fetchto : Bool) (w : Word) : Bool :=
  if fetchto then
    !w.getLsbD 16 && (if rwMc w then (rwLcn w).extractLsb' 0 4 == 0 && rwMask w != 0 else rwMask w == 0)
  else w &&& ~~~(0x3F#64 <<< 23) == 0

/-- An RLD's destination lies in the issuer's local store below its save slots, or in one scratch bank (R382). -/
def State.rldDest (s : State) (d : Word) (n : Nat) : Option Place :=
  let a := d.toNat
  if 0xFFFFFFFFE000 ≤ a && a + n ≤ 0xFFFFFFFFF800 then some (.ls s.cur.core (a - 0xFFFFFFFFE000))
  else if !s.onMgmt && 0xFFFFFFF00000 ≤ a && a + n ≤ 0xFFFFFFF10000 then
    let off := a - 0xFFFFFFF00000
    if off / 4096 == (off + n - 1) / 4096 && s.myCluster.mode (off / 4096) == .scratch then
      some (.sram (clusterOf s.cur.core) off) else none
  else none

/-- RLD and FETCHTO enter the remote request queue (R381, R382), as reads behind an acquire (R339, R360). -/
def remote (fetchto : Bool) (d a : Reg) (e : EReg) (g : Guard) (sz : RSize) (s : State) : Res :=
  let src := s.gReg a
  let dst := s.gReg d
  let n := rsizeBytes sz
  needClean src a s (needClean dst d s (needE e s fun rw =>
    if !rwOk fetchto rw then trap cEngine 3 s
    else if src.val.toNat % n != 0 then trap cMisalign src.val s
    else if dst.val.toNat % n != 0 then trap cMisalign dst.val s
    else if !fetchto && (s.rldDest dst.val n).isNone then trap cRights dst.val s
    else if fetchto && !s.peerOk (rwPeer rw) then trap cPeer ((rwPeer rw).setWidth 64) s
    else match s.reach .load 8 src.val with
      | .peerFault p => trap cPeer (p.setWidth 64) s
      | _ =>
        if 16 ≤ s.myCore.work.rq.length || (!fetchto && 16 ≤ s.myCore.loadsOut) || s.acquiring s.cur.core s.cur.ctx then hold s
        else
          let cmd : RemoteCmd :=
            ⟨s.seq, s.myCore.bind.task, fetchto, s.cur.ctx, dst.val, src.val, rw, n, g, s.myCore.tlf.nextNum, !s.isUser⟩
          done (s.modMyCore fun k =>
            { (k.useGuard g) with tlf := k.tlf.issue 1, work := { k.work with rq := k.work.rq ++ [cmd] } }).nextSeq))

/-- RLD (R383). -/
def execRld (d a : Reg) (e : EReg) (g : Guard) (sz : RSize) (s : State) : Res := remote false d a e g sz s
/-- FETCHTO (R384). -/
def execFetchto (d a : Reg) (e : EReg) (g : Guard) (sz : RSize) (s : State) : Res := remote true d a e g sz s

/-- DROPWIN (R385). -/
def execDropwin (d a : Reg) (e : EReg) (k : Fin 4) (s : State) : Res :=
  let b := s.gReg a
  needClean b a s (needE e s fun w =>
    if b.val.extractLsb' 0 6 != 0 || w.extractLsb' 0 6 != 0 || w.extractLsb' 32 20 != 0 then trap cEngine 3 s
    else
      let size := (w.extractLsb' 0 32).toNat
      let old := match s.myCore.drops[k] with | some o => o.size | none => 0
      let new : Option DropWin := if size = 0 then none else some ⟨b.val, size, w.extractLsb' 52 12⟩
      done ((s.modMyCore fun c => { c with drops := c.drops.set k new }).putG d (BitVec.ofNat 64 old)))

end Sys2Proof.Machine
end

