-- ==== Sys2Proof/Machine/Banks.lean ====
section
/-! DEFINITION. What reaches a FIFO bank from elsewhere, and changing the mode of a bank: 08 R198 to R201; with the checks of writes that
arrive over the fabric: 15 R378, R383 to R386. -/

namespace Sys2Proof.Machine

/-! ### Writes from the fabric (R378, R383 to R386) -/

/-- The places of `n` bytes at a recipient, as user-mode writes, or the kind of the failed check (R385, R386). -/
def State.landing (s : State) (c : CoreId) (tenant : BitVec 12) (x : Word) (n : Nat) : Nat ⊕ List Place :=
  let k := s.core c
  let open_ := k.drops.toList.any fun d => match d with
    | some w => w.tenant == tenant && decide (w.base.toNat ≤ x.toNat) && decide (x.toNat + n ≤ w.base.toNat + w.size)
    | none => false
  if !open_ then .inl 3
  else
    let ps := (List.range (n / 8)).map fun i => s.reachT c k.bind.tenant ⟨.store, 8, true, true⟩ (x + BitVec.ofNat 64 (8 * i))
    let qs := ps.filterMap fun r => match r with | .place p => some p | _ => none
    if qs.length = ps.length then .inr qs else .inl 4

/-- Places that lie in a FIFO bank, as a count for the bank of one of them (R201). -/
def State.inBank (s : State) (ps : List Place) (cl b : Nat) : Nat :=
  (ps.filter fun p => (s.fifoBank p).any fun q => q.1 == cl && q.2.1 == b).length
/-- Whether the accesses to some places can all be performed now: pushes to, or pulls from, the FIFO banks among them fit (R201), and
none waits for an up-link (R392). -/
def State.banksFit (s : State) (push : Bool) (ps : List Place) : Bool :=
  ps.all fun p => !s.linkWaits p && (match s.fifoBank p with
    | some (cl, b, _) => (s.fifo cl b).fits push (s.inBank ps cl b)
    | none => true)

/-- The places of an RLD's destination. -/
def rldPlaces (c : CoreId) (dst : Word) (n : Nat) : List Place :=
  (List.range (n / 8)).map fun i =>
    let a := dst.toNat + 8 * i
    if 0xFFFFFFFFE000 ≤ a then .ls c (a - 0xFFFFFFFFE000) else .sram (clusterOf c) (a - 0xFFFFFFF00000)

/-- Whether the task of a logical core migrates (R119). -/
def State.migrating (s : State) (l : BitVec 18) : Bool :=
  match (s.core (s.physOf l.toNat)).stop with | some (.migrate _) => true | _ => false

/-- Whether the core of a logical number runs a task of a tenant (R378, R386). -/
def State.runsTenant (s : State) (l : BitVec 18) (t : BitVec 12) : Bool :=
  let k := s.core (s.physOf l.toNat)
  k.bind.task.isSome && k.bind.tenant == t

/-! ### Banks (R198, R199) -/

/-- Whether a task is speculative, if it is still in its table. -/
def State.isSpec (s : State) (t : Option TaskRef) : Bool := match t.bind s.taskAt with | some k => k.spec | none => false

def BankMode.code : BankMode → Nat
  | .cache => 0
  | .scratch => 1
  | .fifo => 2
def bankModeOf (w : Word) : BankMode := if w = 0 then .cache else if w = 1 then .scratch else .fifo

/-- Accesses on their way that reach a bank: they are performed before it switches. -/
def State.bankInUse (s : State) (cl b : Nat) : Bool :=
  let here := fun (p : Place) => match p with | .sram c off => c == cl && off / 4096 == b | _ => false
  s.cores.any fun (_, k) =>
    k.work.loads.any (fun e => e.reply.isNone && here e.place) || k.work.port.any (fun e => here e.place) ||
    k.work.vecs.any fun v => v.load && (v.places.zip v.got).any fun (q, g) =>
      (match q with | some p => g.isNone && here p | none => false)

/-- Whether dirty bytes of a cluster's cache wait in the spine for an up-link (R392): until they are applied the drain goes on. -/
def State.backsWait (s : State) (cl : Nat) : Bool :=
  !s.peerUp && ((s.cluster cl).lines.any (fun l => l.peer != 0 && l.dirty != 0) || (s.cluster cl).wbs.any fun w => w.line.peer != 0)

/-- Whether the drain of a bank goes on (R199). -/
def State.drainWaits (s : State) (cl b : Nat) : Bool := s.bankInUse cl b || ((s.cluster cl).mode b == .cache && s.backsWait cl)

/-- The drain and the switch of a bank (R199). -/
def State.drainBank (s : State) (cl b : Nat) (m : BankMode) : State :=
  (if (s.cluster cl).mode b == .cache then s.emptyCache cl else s).switchBank cl b m

/-- Whether a channel's next element waits for an entry or for room of a FIFO bank (R201), or for the launch of its speculative task,
which may not pull before (R327). -/
def State.copyWaits (s : State) (cl b : Nat) : Bool :=
  [2 * cl, 2 * cl + 1].any fun o => (s.octet o).chans.toList.any fun h =>
    match h.cur with
    | none => false
    | some cs =>
      let t := h.step cs h.iter (h.taken cs)
      let at_ := fun (a : Acc) (va : Word) (n : Nat) =>
        match s.reachT cs.core cs.tenant ⟨a, n, true, !cs.sup⟩ va with
        | .place p => (s.fifoBank p).any fun q => q.1 == cl && q.2.1 == b
        | _ => false
      h.state == .running && !h.allTaken cs && cs.cmode == 0 && !(cs.isWalk && h.elem == 0) && t.n == 8 &&
        ((at_ .load t.src t.n && (s.isSpec cs.task || !(s.fifo cl b).fits false 1)) || (at_ .store t.dst t.n && !(s.fifo cl b).fits true 1))

/-- Whether a remote read of a core of the cluster waits for entries of a FIFO bank (R201, R384), or for the launch of its speculative
task (R327). -/
def State.remoteWaits (s : State) (cl b : Nat) : Bool :=
  s.cores.any fun (c, k) => clusterOf c == cl && c != mgmtCore && k.work.rq.any fun r =>
    match s.sourcePlaces c r with
    | .inr ps =>
      let n := (ps.filter fun p => (s.fifoBank p).any fun q => q.1 == cl && q.2.1 == b).length
      n != 0 && ((s.specTask c).isSome || !(s.fifo cl b).fits false n)
    | .inl _ => false

/-- Whether some pushes to a FIFO bank wait for room (R201). -/
def State.noRoom (s : State) (ps : List Place) (cl b : Nat) : Bool :=
  s.inBank ps cl b != 0 && !(s.fifo cl b).fits true (s.inBank ps cl b)

/-- Whether a packet or a reply that has reached its recipient waits for room of a FIFO bank (R378, R384). -/
def State.arrivalWaits (s : State) (cl b : Nat) : Bool :=
  let at_ := fun (l : BitVec 18) (tenant : BitVec 12) (x : Word) (n : Nat) =>
    !s.lcnKept l && !s.migrating l && s.runsTenant l tenant && (match s.landing (s.physOf l.toNat) tenant x n with
      | .inr ps => s.noRoom ps cl b
      | .inl _ => false)
  s.fabric.any fun m => match m.2 with
    | .packet _ _ tenant dest (some w) data _ => s.isSelf (rwPeer dest) && at_ (rwLcn dest) tenant w (8 * data.length)
    | .reply _ _ _ tenant peer l dst _ data _ => s.isSelf peer && at_ l tenant dst (8 * data.length)
    | _ => false

/-- Whether the write of a remote read of the cluster waits for room of a FIFO bank, or for the launch of its speculative task
(R201, R327, R383). -/
def State.rldWaits (s : State) (cl b : Nat) : Bool :=
  s.cores.any fun (c, k) => clusterOf c == cl && c != mgmtCore && k.work.rq.any fun r =>
    !r.fetchto && k.verdict r.guard == .start &&
      (let ps := rldPlaces c r.dst r.n
       s.noRoom ps cl b || ((s.specTask c).isSome && s.inBank ps cl b != 0))

/-- Whether any access waits on a FIFO bank (R198): of a context, a copy, a remote read, or a write that comes over the fabric. -/
def State.fifoWaits (s : State) (cl b : Nat) : Bool :=
  !(s.fifo cl b).waiters.isEmpty || s.copyWaits cl b || s.remoteWaits cl b || s.arrivalWaits cl b || s.rldWaits cl b

/-- BANKMODE (R198). The management core has no cluster (R413); DESIGN CHOICE (log 59): each of its banks reads as in cache
mode, and a change of its mode is a rights fault. -/
def execBankmode (d a b : Reg) (q : Pred) (s : State) : Res :=
  pred q s
    (let x := s.gReg a
     let y := s.gReg b
     let cl := clusterOf s.cur.core
     let k := s.cluster cl
     let bk := x.val.toNat % 16
     let old := k.mode bk
     let base := BitVec.ofNat 64 (0xFFFFFFF00000 + bk * 0x1000)
     if x.poison || y.poison then trap cPoisonCtl (BitVec.ofNat 64 (if x.poison then a else b)) s
     else if s.onMgmt then (if 2 < y.val.toNat || y.val = 0 then done (s.putG d 0) else trap cRights base s)
     else if (s.drains cl).any fun w => w.1 != s.cur.core && w.2 == bk then hold s
     else if 2 < y.val.toNat || y.val.toNat == old.code then done (s.putG d (BitVec.ofNat 64 old.code))
     else if old == .cache && k.lines.any (fun l => l.pin.isSome) then trap cRights base s
     else if old == .fifo && s.fifoWaits cl bk then trap cRights base s
     else if s.drainWaits cl bk then waitIn (.bankmode d a b q) s
     else done ((s.drainBank cl bk (bankModeOf y.val)).putG d (BitVec.ofNat 64 old.code)))

end Sys2Proof.Machine
end

