-- ==== Sys2Proof/Machine/Mwin.lean ====
section
/-! DEFINITION. The management window as the management core reads it: 16 R413, R414, R425, R427, R428, R431, R407; 07 R175;
13 R334; 15 R369, R370, R391, R398. -/

namespace Sys2Proof.Machine

/-! ### The spine flash (R427) -/

/-- A flash byte: an erased byte reads as all ones. -/
def flashGet : List Host.Cell → Nat → Byte
  | [], _ => 0xFF
  | (i, b) :: r, a => if i = a then b else flashGet r a

/-- Set a flash byte, keeping addresses rising and no erased byte listed. -/
def flashSet : List Host.Cell → Nat → Byte → List Host.Cell
  | [], a, b => if b = 0xFF then [] else [(a, b)]
  | (i, c) :: r, a, b =>
    if a < i then (if b = 0xFF then (i, c) :: r else (a, b) :: (i, c) :: r)
    else if a = i then (if b = 0xFF then r else (i, b) :: r)
    else (i, c) :: flashSet r a b

/-! ### Words of the window -/

/-- BOOTST (R425). -/
def State.bootst (s : State) : Word :=
  (s.spine.lc.setWidth 64 <<< 32) ||| (s.spine.boots.setWidth 64 <<< 16) ||| (if s.spine.hbmw then bitAt 8 else 0) |||
    (s.spine.err.setWidth 64 <<< 4) ||| s.spine.stage.setWidth 64

/-- LCSTATE (R431). -/
def Spine.lcstate (p : Spine) : Word :=
  (if p.lcPend then bitAt 16 else 0) ||| (p.lcNext.setWidth 64 <<< 8) ||| p.lc.setWidth 64

/-- PLIM is held in units of 10 µW and read in W (R407). -/
def Spine.plimWatts (p : Spine) : Word := BitVec.ofNat 64 (p.plim / 100000)

/-- LSTAT (R391, R413). -/
def Link.lstat (l : Link) : Word :=
  (match l.state with | .train => 0 | .run => 1 | .hold => 2 | .down => 3) ||| (if l.rekey then 4 else 0) |||
    (if l.prim then 8 else 0)

/-- STAT of a format region (R398). -/
def Region.stat (r : Region) : Word :=
  (if r.refused then bitAt 63 else 0) ||| (if r.werr then bitAt 62 else 0) ||| r.pcount.setWidth 64

/-- A cap as CAPST shows it: 0xF for none. -/
def capCode (c : Option Nat) : Nat := c.getD 15

/-- A word of a cluster power block (R414). Every cluster reads its sensors once in each interval that has ended. -/
def State.powerWord (s : State) (cl off : Nat) : Word :=
  let p := (s.cluster cl).power
  if off = 0 then BitVec.ofNat 64 p.throttle
  else if off = 0x08 then BitVec.ofNat 64 (s.spine.steps / 10 % 2 ^ 32 * 2 ^ 32) ||| BitVec.ofNat 64 (p.sensPos % 16 * 2 ^ 16) ||| p.sensReading.setWidth 64
  else if off = 0x10 then p.alert
  else if off = 0x18 then (p.tlimMig.setWidth 64 <<< 16) ||| p.tlimCap.setWidth 64
  else if off = 0x20 then BitVec.ofNat 64 p.bslots
  else if off = 0x28 then p.pest
  else if off = 0x30 then
    BitVec.ofNat 64 (capCode p.thermCap * 2 ^ 12 + capCode p.curCap * 2 ^ 8 + p.cause * 2 ^ 4 + p.applied)
  else if off < 0x80 then p.lkt.getD ((off - 0x40) / 8) 0
  else if off = 0x80 then p.tpts
  else ((s.core (16 * cl + (off - 0x100) / 8)).coret).setWidth 64

/-- A word of a slice status block (R175). -/
def Slice.statusWord (k : Slice) (off : Nat) : Word :=
  if off < 0x2000 then ((Table.find k.husk (off / 32)).getD []).getD (off / 8 % 4) 0
  else if off = 0x2000 then (k.huskTotal.setWidth 64 <<< 32) ||| BitVec.ofNat 64 k.huskNext
  else 0

/-- A word of a format region block (R398). -/
def Region.word (r : Region) (off : Nat) : Word :=
  match off with
  | 0x00 => r.vbase
  | 0x08 => r.vsize
  | 0x10 => r.sbase
  | 0x18 => r.slimit
  | 0x20 => r.cb
  | 0x28 => r.ctl
  | 0x30 => r.holes
  | _ => r.stat

/-- A word of a die area: slices, format regions, sectors. -/
def State.dieWord (s : State) (die off : Nat) : Word :=
  if off < 0x400000 then (s.slice (64 * die + off / 0x10000)).statusWord (off % 0x10000)
  else if off < 0x410000 then (s.region (64 * die + (off - 0x400000) / 64)).word (off % 64)
  else (s.sector (16 * die + (off - 0x410000) / 0x1000)).spill

/-- A word of the flash block (R427). -/
def Flash.word (f : Flash) (off : Nat) : Word :=
  if off = 0 then f.faddr
  else if off = 8 then 0
  else if off = 0x10 then (if f.busy.isSome then 1 else 0) ||| (if f.err then 2 else 0)
  else (f.fdata.read (off - 0x40) 8).val

/-- A word of the spine block (R413). -/
def State.spineWord (s : State) (off : Nat) : Word :=
  match off with
  | 0x00 => s.bootst
  | 0x08 => s.spine.lcstate
  | 0x18 => s.spine.plimWatts
  | 0x20 => s.spine.evq.head?.getD 0
  | 0x28 => (if s.spine.ign then bitAt 8 else 0) ||| BitVec.ofNat 64 s.spine.rollback
  | 0x30 => s.spine.peerno.setWidth 64
  | 0x38 => (s.spine.braked.setWidth 64 <<< 32) ||| BitVec.ofNat 64 s.spine.brake
  | _ => if 0x100 ≤ off then (s.spine.slots.toList.getD ((off - 0x100) / 8) 0).setWidth 64 else 0

/-- A word of the management window; a write-only register reads as zero (R30). -/
def State.mwinWord (s : State) (off : Nat) : Word :=
  if off < 0x100000 then s.spineWord off
  else if off < 0x200000 then
    let e := (Table.find s.spine.peers ((off - 0x100000) / 16)).getD (0, 0)
    if off % 16 = 0 then e.1 else e.2
  else if off < 0x300000 then
    let e := (Table.find s.spine.tenants ((off - 0x200000) / 32)).getD (0, 0)
    if off % 32 = 0 then e.1 else e.2.setWidth 64
  else if off < 0x400000 then (if off % 256 = 0x28 then (s.link ((off - 0x300000) / 256)).lstat else 0)
  else if off < 0x100000000 then s.flash.word (off - 0x400000)
  else if off < 0x200000000 then s.dieWord ((off - 0x100000000) / 0x10000000) (off % 0x10000000)
  else s.powerWord ((off - 0x200000000) / 0x1000) (off % 0x1000)

/-- A load of a word, with its effect: EVQ gives up its oldest event (R421). -/
def State.mwinRead (s : State) (off : Nat) : Word × State :=
  (s.mwinWord off, if off = 0x20 then { s with spine := { s.spine with evq := s.spine.evq.drop 1 } } else s)

end Sys2Proof.Machine
end

