-- ==== Sys2Proof/Machine/Tasks.lean ====
section
/-! DEFINITION. Launch records, task descriptors, entering a dependence table, and LAUNCH, SPAWN, TEDGE and TINFO:
13 R302 to R323, R326. -/

namespace Sys2Proof.Machine

/-! ### The launch record (R302, R303) -/

/-- A field of word `i` of a record or descriptor. -/
def recField (r : List Word) (i lo n : Nat) : Nat := (r.getD i 0).toNat / 2 ^ lo % 2 ^ n
def recBit (r : List Word) (i b : Nat) : Bool := (r.getD i 0).getLsbD b

def recLevels (r : List Word) : Nat := recField r 14 45 3 + 1
/-- The count of a level, or its ceiling (R303). -/
def recCount (r : List Word) (k : Nat) : Nat := recField r (9 + k / 4) (16 * (k % 4)) 16 + 1
def recDomain (r : List Word) (k : Nat) : Nat := recField r 11 (8 * k) 3
def recScope (r : List Word) (k : Nat) : Nat := recField r 11 (8 * k + 3) 3
def recPen (r : List Word) : Bool := recBit r 13 5
def recPlevel (r : List Word) : Nat := recField r 13 2 3
def recPmiss (r : List Word) : Nat := recField r 13 6 16
def recPolicy (r : List Word) : Nat := recField r 13 0 2
def recShape (r : List Word) : Word := r.getD 12 0
def recCtla (r : List Word) : Word := r.getD 15 0
def recBankany (r : List Word) : Bool := recBit r 14 54
def recStaged (r : List Word) : Bool := recBit r 14 53
def recBabs (r : List Word) : Bool := recBit r 14 52
def recRename (r : List Word) : Bool := recBit r 14 51
def recWholegrp (r : List Word) : Bool := recBit r 14 50
def recQsel (r : List Word) : Nat := recField r 14 48 2
def recBank (r : List Word) (b : Nat) : Nat := recField r 14 (8 + 2 * b) 2
def recDrop (r : List Word) : Bool := recBit r 14 0
/-- Counts of the levels, outermost first. -/
def recCounts (r : List Word) : List Nat := (List.range (recLevels r)).map (recCount r)
/-- Tasks at the ceiling. -/
def recTotal (r : List Word) : Nat := (recCounts r).foldl (· * ·) 1
/-- LINEARs that one index of level `k` spans (R309). -/
def recStride (r : List Word) (k : Nat) : Nat := ((recCounts r).drop (k + 1)).foldl (· * ·) 1
/-- The index at level `k` of LINEAR `j`. -/
def recIndex (r : List Word) (k j : Nat) : Nat := j / recStride r k % recCount r k

/-- A scope by its code (R40). -/
def scopeOf (n : Nat) : Scope :=
  match n with
  | 0 => .core
  | 1 => .clu
  | 2 => .grp
  | 3 => .sec
  | 4 => .die
  | 5 => .pkg
  | _ => .sys

/-- The scope of the task level (R318). -/
def recTaskScope (r : List Word) : Scope := scopeOf (recScope r (recLevels r - 1))

/-! ### Task descriptors (R308, R309) -/

def descLinear (w : List Word) : Nat := recField w 5 40 24
def descReloff (w : List Word) : Word := ((w.getD 5 0).extractLsb' 16 24).signExtend 64
def descBarrier (w : List Word) : Bool := recBit w 5 12
def descNwrite (w : List Word) : Nat := recField w 5 9 3
def descNread (w : List Word) : Nat := recField w 5 6 3
def descStage (w : List Word) : Nat := recField w 5 2 4
def descPrio (w : List Word) : Nat := recField w 5 0 2

/-- Range `k`: first address and bytes (R308). -/
def descRange (w : List Word) (k : Nat) : Nat × Nat :=
  let f := fun lo n => recField w (6 + k / 4) (16 * (k % 4) + lo) n
  (((w.getD (1 + f 14 2) 0 &&& ~~~255#64) + BitVec.ofNat 64 (256 * f 8 6)).toNat, 256 * (f 0 8 + 1))
def descReads (w : List Word) : List (Nat × Nat) := (List.range (descNread w)).map (descRange w)
def descWrites (w : List Word) : List (Nat × Nat) := (List.range (descNwrite w)).map fun k => descRange w (4 + k)

/-- A descriptor that R309 calls invalid. -/
def descBad (w : List Word) : Bool :=
  recField w 5 13 3 != 0 || decide (4 < descNread w) || decide (4 < descNwrite w) || recBit w 0 0 ||
    recField w 0 48 16 != 0 || decide (6144 < ((descReads w).map (·.2)).sum)

/-- The descriptor of LINEAR `j` (R309). -/
def descOf (r base : List Word) (j : Nat) : List Word :=
  let arg := fun k => base.getD (1 + k) 0 + BitVec.ofNat 64 j * r.getD (2 + k) 0
  [base.getD 0 0, arg 0, arg 1, arg 2, arg 3,
    (base.getD 5 0 &&& 0xFFFFFFFFFF#64) ||| BitVec.ofNat 64 (j % 2 ^ 24 * 2 ^ 40), base.getD 6 0, base.getD 7 0]

/-- Two ranges share a 256-byte granule. -/
def meets (a b : Nat × Nat) : Bool := decide (a.1 < b.1 + b.2) && decide (b.1 < a.1 + a.2)
/-- Some range of one list shares a granule with some range of another. -/
def anyMeets (xs ys : List (Nat × Nat)) : Bool := xs.any fun a => ys.any fun b => meets a b

/-- First local-store address above a task's footprint (R317). -/
def descFootEnd (w : List Word) : Word := BitVec.ofNat 64 (0xFFFFFFFFE000 + ((descReads w).map (·.2)).sum)

/-! ### What the task engine reads and writes -/

/-- The leaf of a tenant's address for the task engine, under the owner and peer checks. -/
def State.engineLeaf (s : State) (t : BitVec 12) (va : Word) : Option TlbEntry :=
  if 0xFF0000000000 ≤ va.toNat then none
  else match s.walk t va.toNat with
    | none => none
    | some e => if e.owner == t && (s.isSelf e.peer || s.inPartition t e.peer) then some e else none

/-- The walk of the engine that finds no leaf (R400). -/
def State.engineWalk (s : State) (t : BitVec 12) (va : Word) : State :=
  if 0xFF0000000000 ≤ va.toNat then s else s.countWalk t va.toNat

/-- The engine's plain read of a doubleword in a tenant's space; `none` when it cannot be read. -/
def State.engineRead (s : State) (t : BitVec 12) (va : Word) : Option PWord × State :=
  match s.engineLeaf t va with
  | none => (none, s.engineWalk t va)
  | some e =>
    if !e.r then (none, s)
    else if s.isSelf e.peer then
      let (u, s1) := s.serveUnit (e.frame + (va.toNat - e.vbase))
      (some u, s1)
    else let (u, s1) := s.peerRead; (some u, s1)

/-- Several doublewords. -/
def State.engineReads (s : State) (t : BitVec 12) (va : Word) : Nat → List (Option PWord) × State
  | 0 => ([], s)
  | n + 1 =>
    let (v, s1) := s.engineRead t va
    let (vs, s2) := State.engineReads s1 t (va + 8) n
    (v :: vs, s2)

/-- The engine's plain .SYS store of a doubleword: one that faults is dropped (R333). -/
def State.engineWrite (s : State) (t : BitVec 12) (va v : Word) : State :=
  match s.engineLeaf t va with
  | none => s.engineWalk t va
  | some e =>
    if e.w && s.isSelf e.peer then
      s.arriveWrite (e.frame + (va.toNat - e.vbase)) 8 ⟨v, false⟩ (if e.timed then .timed else .untimed)
    else s

/-- Whether a page grants the engine both rights (R305). -/
def State.controlOk (s : State) (t : BitVec 12) (va : Word) : Bool :=
  match s.engineLeaf t va with
  | some e => e.r && e.w
  | none => false

/-- A record or base descriptor that R305 calls invalid by its words alone, which hold no poison. -/
def formBad (r base : List Word) : Bool :=
  let n := recLevels r
  let map := (List.range 8).any fun k => recField r 11 (8 * k + 6) 2 != 0 || recDomain r k == 7 || recScope r k == 7
  let banks := (List.range 16).any fun b => recBank r b == 3
  let widens := (List.range (n - 1)).any fun k => decide (recDomain r k < recDomain r (k + 1))
  let shape := recPen r && (recShape r == 0 || recField r 12 0 3 != 0 || decide (n ≤ recPlevel r) ||
    decide (recCount r (recPlevel r) < recPmiss r + 1))
  map || banks || widens || shape || recField r 13 22 10 != 0 || recField r 14 55 9 != 0 || recField r 14 1 7 != 0 ||
    recField r 0 0 6 != 0 || recField r 8 0 5 != 0 || recField r 15 0 6 != 0 || recDomain r (n - 1) != 0 ||
    decide (2 ^ 24 < recTotal r) || descBad base

/-- Whether the system domain or the scope SYS reaches beyond a tenant's partition: another device is populated and enabled
outside it (R305, R338; DEDUCED, log 25). -/
def State.partitionBad (s : State) (t : BitVec 12) (r : List Word) : Bool :=
  (List.range (recLevels r)).any (fun k => recDomain r k == 6 || recScope r k == 6) &&
    s.spine.peers.any fun e =>
      let p : BitVec 16 := BitVec.ofNat 16 e.1
      e.2.1.getLsbD 63 && e.2.1.getLsbD 62 && !s.isSelf p && !s.inPartition t p

/-- A record that R305 calls invalid as it is submitted. -/
def State.recordBad (s : State) (t : BitVec 12) (r base : List Word) : Bool :=
  let shape := recPen r && (match s.engineLeaf t (recShape r) with | some e => !e.r || !e.timed | none => true)
  let ctl := recCtla r != 0 &&
    !((List.range (if recStaged r then 3 else 1)).all fun i => s.controlOk t (recCtla r + BitVec.ofNat 64 (64 * i)))
  formBad r base || s.partitionBad t r || shape || ctl

/-! ### Launches and tasks in flight -/

/-- The launch of a key that a sector's engine accepted. -/
def State.launchAt (s : State) (home key : Nat) : Option Launch := Table.find (s.sector home).launches key
def State.modLaunch (s : State) (home key : Nat) (f : Launch → Launch) : State :=
  match s.launchAt home key with
  | some l => let q := s.sector home; s.setSector home { q with launches := Table.put q.launches key (f l) }
  | none => s
/-- The launch of a task. -/
def State.launchOf (s : State) (k : Task) : Option Launch := s.launchAt k.home k.launch
def State.tenantOf (s : State) (k : Task) : BitVec 12 := ((s.launchOf k).map (·.tenant)).getD 0
def State.recOf (s : State) (k : Task) : List Word := ((s.launchOf k).map (·.rec_)).getD []

/-- Slots of a table that hold no task (R314). -/
def Sector.freeSlots (q : Sector) : List Nat := (List.range 1024).filter fun i => (Table.find q.tasks i).isNone

/-- The shape word of an unresolved launch that writes in some ranges would produce, among launches of a mask (R326). -/
def State.producerOf (s : State) (t : BitVec 12) (ws : List (Nat × Nat)) (mask : List (Nat × Nat)) : Option Word :=
  mask.findSome? fun m =>
    match s.launchAt m.1 m.2 with
    | some l =>
      if l.spec && l.tenant == t && ws.any fun w => meets w ((recShape l.rec_).toNat, 8) then some (recShape l.rec_) else none
    | none => none

/-- Union of masks. -/
def maskJoin (a b : List (Nat × Nat)) : List (Nat × Nat) := a ++ b.filter fun x => !a.contains x

/-- What a task of a table does to a task that enters with given ranges: whether it precedes it (R315). -/
def ordersAfter (o : List Word) (reads writes : List (Nat × Nat)) : Bool :=
  anyMeets reads (descWrites o) || anyMeets writes (descReads o) || anyMeets writes (descWrites o)

/-! ### Renaming (R316) -/

/-- Page numbers a range touches. -/
def pagesOf (w : Nat × Nat) : List Nat := (List.range ((w.1 + w.2 - 1) / 4096 + 1 - w.1 / 4096)).map (w.1 / 4096 + ·)

/-- The frame a table's latest rename of a page gives it. -/
def Sector.frameOf (q : Sector) (t : BitVec 12) (page : Nat) : Option Frame :=
  (q.renames.reverse.find? fun r => r.vpage == page && r.tenant == t).map (·.new)

/-- Whether a write range can be renamed: whole pages, each mapped by a 4 KiB leaf of this device. -/
def State.canRename (s : State) (t : BitVec 12) (w : Nat × Nat) : Bool :=
  w.1 % 4096 == 0 && w.2 % 4096 == 0 && (pagesOf w).all fun p =>
      match s.walk t (4096 * p) with
      | some e => e.size == 4096 && s.isSelf e.peer
      | none => false

/-- Fill a frame with zeros. -/
def State.zeroFrame (s : State) (n : Nat) : State :=
  (List.range 512).foldl (fun s i => s.homeApply (4096 * n + 8 * i) 8 PWord.zero .untimed) s

/-- Give the pages of a range new frames from the pool, zeroed, for the writer of a table order. -/
def State.renameRange (s : State) (sec : Nat) (t : BitVec 12) (writer : Nat) (w : Nat × Nat) : State :=
  (pagesOf w).foldl (fun s p =>
    let q := s.sector sec
    match q.freeFrames with
    | [] => s
    | f :: rest =>
      let old := (q.frameOf t p).getD (.other (((s.walk t (4096 * p)).map (·.frame / 4096)).getD 0))
      (s.setSector sec { q with freeFrames := rest, renames := q.renames ++ [⟨p, t, f, old, writer, false⟩] }).zeroFrame
        (f.number sec)) s

/-! ### Entering a table (R310, R314, R315, R326) -/

/-- The later of two instants. -/
def laterOf (a b : Word) : Word := if laterThan a b then a else b

/-- The release instant once the last predecessor has retired (R182). -/
def State.fixRelease (s : State) (k : Task) : Task :=
  let base := ((s.launchOf k).map (·.tbase)).getD 0 + descReloff k.desc
  { k with release := some (match k.after with | none => base | some t => laterOf base t) }

/-- Whether a write range meets a range of an earlier task, by its descriptor. -/
def clashes (w : Nat × Nat) (o : List Word) : Bool := anyMeets [w] (descReads o) || anyMeets [w] (descWrites o)

/-- Write ranges of a task that enters behind tasks with some descriptors: those that order it, and those that renaming takes
out of the order, chosen in turn while `n` frames last (R315, R316). -/
def State.splitWrites (s : State) (t : BitVec 12) (rename : Bool) (older : List (List Word)) :
    Nat → List (Nat × Nat) → List (Nat × Nat) × List (Nat × Nat)
  | _, [] => ([], [])
  | n, w :: rest =>
    let m := (pagesOf w).length
    if rename && older.any (clashes w) && m ≤ n && s.canRename t w then
      let (ws, rs) := State.splitWrites s t rename older (n - m) rest
      (ws, w :: rs)
    else
      let (ws, rs) := State.splitWrites s t rename older n rest
      (w :: ws, rs)

/-- The write ranges of a task, split as it would enter a sector's table now. -/
def State.writesIn (s : State) (sec : Nat) (k : Task) : List (Nat × Nat) × List (Nat × Nat) :=
  let q := s.sector sec
  s.splitWrites (s.tenantOf k) (recRename (s.recOf k)) (q.tasks.map (·.2.desc)) q.freeFrames.length (descWrites k.desc)

/-- A task before it has a slot: of launch (home, key), with its descriptor, placement and TVEC. -/
def freshTask (home key : Nat) (desc : List Word) (spec tail spawned : Bool) (queue lo count : Nat) (parent : Option Nat)
    (tvec : Word) : Task :=
  ⟨0, home, key, desc, .queued, spec, tail, spawned, queue, [], 0, none, none, 0, 0, [], lo, count, [], parent, none, [], 0, tvec⟩

/-- The tasks of a table that a task with some ranges follows, by slot (R315): tasks in flight, whatever their tenant. -/
def State.followed (s : State) (sec : Nat) (reads writes : List (Nat × Nat)) : List (Nat × Task) :=
  (s.sector sec).tasks.filter fun e => ordersAfter e.2.desc reads writes

/-- The mask a task has in a table: of what it follows, and its own launch while that is speculative (R326). -/
def State.maskIn (s : State) (sec : Nat) (k : Task) (writes : List (Nat × Nat)) : List (Nat × Nat) :=
  (s.followed sec (descReads k.desc) writes).foldl
    (fun m e => maskJoin m e.2.mask) (if k.spec then [(k.home, k.launch)] else [])

/-- The shape word for which R326 refuses a task that would enter a sector's table now: renamed ranges make no edge. -/
def State.refusedShape (s : State) (sec : Nat) (k : Task) : Option Word :=
  s.producerOf (s.tenantOf k) (descWrites k.desc) (s.maskIn sec k (s.writesIn sec k).1)

/-- Enter a task in a table with a free slot. Which free slot it takes is a free value. -/
def State.enterTable (s : State) (sec : Nat) (k : Task) : TaskRef × State :=
  let q0 := s.sector sec
  let slots := q0.freeSlots
  let slot := slots.getD ((Config.freeWord s.fresh).toNat % slots.length) 0
  let t := s.tenantOf k
  let order := q0.nextOrder
  let (writes, renamed) := s.writesIn sec k
  let s1 := renamed.foldl (fun s w => s.renameRange sec t order w) s
  let preds := (s.followed sec (descReads k.desc) writes).map (·.1)
  let q1 := s1.sector sec
  let queue := (Table.find q1.queues k.queue).getD []
  let k1 := { k with gen := (Table.find q1.gens slot).getD 0, preds := preds, order := order,
                     mask := s.maskIn sec k writes, waited := s.time }
  let k2 := if preds.isEmpty then s1.fixRelease k1 else k1
  (⟨sec, slot, order⟩, (s1.setSector sec
    { q1 with tasks := Table.put q1.tasks slot k2, gens := Table.put q1.gens slot (k2.gen + 1), nextOrder := order + 1,
              queues := Table.put q1.queues k.queue (queue ++ [slot]) }).nextFresh)

/-! ### Which LINEAR enters next (R309, R325) -/

/-- The level whose indices a pass bounds, and the greatest number of its indices. -/
def recWindow (r : List Word) : Nat := if recPen r then recPlevel r else 0

/-- The first LINEAR from `j` whose index at level `k` lies in the pass. -/
def nextIn (r : List Word) (low high j : Nat) : Nat :=
  let k := recWindow r
  let st := recStride r k
  let i := recIndex r k j
  if i < low then j / st * st + (low - i) * st
  else if i < high then j
  else (j / (st * recCount r k) + 1) * (st * recCount r k) + low * st

/-- The next LINEAR to enter, if any is left in this pass. -/
def Launch.next (l : Launch) : Option Nat :=
  let j := nextIn l.rec_ l.low l.high l.nextLin
  if l.low < l.high && j < recTotal l.rec_ then some j else none

/-- The pass of a tail begins when the first pass is done (R325). -/
def Launch.turnTail (l : Launch) : Launch :=
  if l.next.isNone && l.tail && l.low == 0 then
    { l with low := l.predicted, high := l.trueCount, nextLin := 0 }
  else l

/-! ### Shape words and predictions (R304, R323, R324) -/

/-- The Sprout entry of a launch is found or taken, and becomes the most recently used (R323). -/
def sproutTake (t : List SproutEntry) (key : Nat) : List SproutEntry :=
  match t.find? (·.key == key) with
  | some e => e :: t.filter (·.key != key)
  | none =>
    if t.length < 64 then ⟨key, []⟩ :: t
    else match t.reverse.find? (·.counts.isEmpty) with
      | some e => ⟨key, []⟩ :: t.filter (·.key != e.key)
      | none => ⟨key, []⟩ :: t.take 63

/-- Push a true count (R323). -/
def sproutPush (t : List SproutEntry) (key n : Nat) : List SproutEntry :=
  match t.find? (·.key == key) with
  | some e => { e with counts := (n :: e.counts).take 4 } :: t.filter (·.key != key)
  | none => t

/-- The prediction of a policy, clamped to 1 through the ceiling. -/
def predict (r : List Word) (counts : List Nat) : Nat :=
  let ceil := recCount r (recPlevel r)
  let miss := recPmiss r + 1
  let raw : Int := match recPolicy r, counts with
    | 0, a :: _ => a
    | 1, a :: t => Int.ofNat ((a :: t).foldl Nat.max 0)
    | 2, a :: b :: _ => 2 * (a : Int) - b
    | 2, [a] => a
    | _, _ => miss
  Nat.max 1 (Nat.min ceil raw.toNat)

/-- The key of a launch record. -/
def sproutKey (addr : Word) : Nat := addr.toNat % 2 ^ 48

/-- COUNT of a shape word. -/
def shapeCount (v : PWord) : Nat := v.val.toNat % 2 ^ 17
/-- A shape word that cannot be a count: poisoned, with a RES bit, or above the ceiling. -/
def shapeBadFor (r : List Word) (v : PWord) : Bool :=
  v.poison || v.val.extractLsb' 17 46 != 0 || decide (recCount r (recPlevel r) < shapeCount v)

/-- A launch as accepted with its record and base descriptor, before its shape is known. -/
def Intake.launch (e : Intake) (r base : List Word) (now : Word) : Launch :=
  { num := e.num, tenant := e.tenant, addr := e.addr, rec_ := r, base := base,
    tbase := if recBabs r then r.getD 6 0 else now + r.getD 6 0,
    spec := false, predicted := 0, trueCount := 0, nextLin := 0, low := 0, high := recCount r (recWindow r),
    tail := false, places := [], freed := [], taken := [], deadline := false, shapebad := false, noshape := false, ended := false, retired := 0,
    squashed := 0, rereleases := 0, failed := 0, firstCause := 0, firstVal := 0, firstLin := 0, stages := [], moves := [] }

/-- The launch with its shape word looked at, and the Sprout table after (R323, R324). -/
def Launch.shaped (l : Launch) (v : Option PWord) (t : List SproutEntry) : Launch × List SproutEntry :=
  if !recPen l.rec_ then (l, t)
  else
    let key := sproutKey l.addr
    let t1 := sproutTake t key
    match v with
    | none => ({ l with shapebad := true, high := 0 }, t1)
    | some v =>
      if v.poison then ({ l with shapebad := true, high := 0 }, t1)
      else if shapeValid v then
        (if shapeBadFor l.rec_ v then ({ l with shapebad := true, high := 0, trueCount := shapeCount v }, t1)
         else ({ l with high := shapeCount v, trueCount := shapeCount v, predicted := shapeCount v }, sproutPush t1 key (shapeCount v)))
      else
        let p := predict l.rec_ (((t1.find? (·.key == key)).map (·.counts)).getD [])
        ({ l with spec := true, high := p, predicted := p }, t1)

/-! ### LAUNCH (R320) -/

/-- The words of the base descriptor as the launching core reads them. -/
def State.readPlaces (s : State) (addr : Word) : Nat → List PWord × State
  | 0 => ([], s)
  | n + 1 =>
    let (v, s1) := match s.reach .load 8 addr with
      | .place p => s.serve s.cur.core p 8
      | _ => (PWord.poison0, s)
    let (vs, s2) := State.readPlaces s1 (addr + 8) n
    (v :: vs, s2)

/-- The LINEARs of a launch that enter first, at most `n` (R309). -/
def Launch.entering (l : Launch) : Nat → List Nat
  | 0 => []
  | n + 1 => match l.next with
    | none => []
    | some j => j :: Launch.entering { l with nextLin := j + 1 } n

/-- Whether one of some tasks of a launch, entering the sector's table one after another behind tasks with known masks and
with `n` frames left, would be a shape producer that depends on the launch it must resolve (R326). -/
def State.anyRefused (s : State) (l : Launch) : Nat → List (List Word × List (Nat × Nat)) → List Nat → Bool
  | _, _, [] => false
  | n, older, j :: js =>
    let w := descOf l.rec_ l.base j
    let (ws, rs) := s.splitWrites l.tenant (recRename l.rec_) (older.map (·.1)) n (descWrites w)
    let own := l.spec && (descWrites w).any fun x => meets x ((recShape l.rec_).toNat, 8)
    let mask := (older.filter fun e => ordersAfter e.1 (descReads w) ws).foldl (fun m e => maskJoin m e.2) []
    own || (s.producerOf l.tenant (descWrites w) mask).isSome ||
      State.anyRefused s l (n - (rs.flatMap pagesOf).length) (older ++ [(w, mask)]) js

/-- The check of R326 on a submission (R320): of the tasks that would enter now, as many as there are free slots; a task
that waits for a slot is checked as it enters (log 66). -/
def State.launchRefused (s : State) (sec : Nat) (t : BitVec 12) (addr : Word) (r base : List Word) : Bool :=
  let q := s.sector sec
  let v := if recPen r then (s.engineRead t (recShape r)).1 else none
  let l := (((Intake.mk addr t 0 none none).launch r base s.time).shaped v q.sprout).1
  s.anyRefused l q.freeFrames.length (q.tasks.map fun e => (e.2.desc, e.2.mask)) (l.entering q.freeSlots.length)

/-- p1 after a task instruction. -/
def State.setP1 (s : State) (b : Bool) : State := s.setP 1 ⟨b, false⟩

/-- Whether an address lies outside the pages of a tenant: in a core's windows. -/
def inWindow (x : Word) : Bool := decide (0xFF0000000000 ≤ x.toNat)

/-- LAUNCH once its record is read. -/
def launchRead (d : Reg) (x : Word) (rs : List PWord) (s0 s : State) : Res :=
  let r := rs.map (·.val)
  let (bs, s1) := s.readPlaces (r.getD 0 0) 8
  let base := bs.map (·.val)
  let t := s.myCore.bind.tenant
  let sec := sectorOf s.cur.core
  if rs.any (·.poison) || bs.any (·.poison) || s1.recordBad t r base || s1.launchRefused sec t x r base then
    trap cLaunch x s0
  else
    let q := s1.sector sec
    let e : Intake := ⟨x, t, q.nextNum, none, if inWindow x || inWindow (r.getD 0 0) then some (r, base) else none⟩
    done (((s1.setSector sec { q with intake := q.intake ++ [e], nextNum := q.nextNum + 1 }).putG d
      (q.nextNum.setWidth 64)).setP1 true)

/-- LAUNCH (R320). The management core belongs to no sector: no intake takes its launch (log 59). -/
def execLaunch (d a : Reg) (q : Pred) (s : State) : Res :=
  pred q s (let v := s.gReg a
    needClean v a s
      (if v.val.extractLsb' 0 7 != 0 then trap cMisalign v.val s
       else if (s.specTask s.cur.core).isSome then waitIn (.launch d a q) s
       else withRelease (some .sys) s fun s =>
         if s.onMgmt || 8 ≤ (s.sector (sectorOf s.cur.core)).intake.length then done (s.setP1 false)
         else withPlaces .load s 16 v.val fun ps =>
           if s.blocked ps false then hold s
           else let (rs, s1) := s.loadWords ps; launchRead d v.val rs s s1))

/-! ### SPAWN (R320) -/

/-- SPAWN once its descriptor is read. The child has the spawner's TVEC of now. -/
def spawnRead (d : Reg) (x : Word) (tr : TaskRef) (k : Task) (ws : List PWord) (s0 s : State) : Res :=
  let w := ws.map (·.val)
  let child := freshTask k.home k.launch w k.spec false true (4 * descPrio w + k.queue % 4) s.cur.core 0 (some tr.slot) s.myCore.bind.tvec
  if ws.any (·.poison) || descBad w || (s.refusedShape tr.sec child).isSome then trap cLaunch x s0
  else
    let (t, s1) := s.enterTable tr.sec child
    done ((s1.putG d ((s1.taskNum t).setWidth 64)).setP1 true)

/-- SPAWN (R320). A core that runs no task has no launch to spawn under: it is refused as without a slot (log 30). -/
def execSpawn (d a : Reg) (q : Pred) (s : State) : Res :=
  pred q s (let v := s.gReg a
    needClean v a s
      (if v.val.extractLsb' 0 6 != 0 then trap cMisalign v.val s
       else withRelease (some .sys) s fun s =>
         match s.myCore.bind.task with
         | none => done (s.setP1 false)
         | some t =>
           match s.taskAt t with
           | none => done (s.setP1 false)
           | some k =>
             if (s.sector t.sec).freeSlots.isEmpty then done (s.setP1 false)
             else withPlaces .load s 8 v.val fun ps =>
               if s.blocked ps false then hold s
               else let (ws, s1) := s.loadWords ps; spawnRead d v.val t k ws s s1))

/-! ### TEDGE (R321) -/

/-- The task of a task number in a sector, with its slot. -/
def State.byNumber (s : State) (sec : Nat) (n : BitVec 16) : Option (Nat × Task) :=
  let slot := (n.extractLsb' 0 10).toNat
  match Table.find (s.sector sec).tasks slot with
  | some k => if k.gen == n.extractLsb' 10 6 then some (slot, k) else none
  | none => none

/-- Not yet dispatched. -/
def TaskPhase.waits : TaskPhase → Bool
  | .queued | .fetching _ | .awaiting _ | .landed _ => true
  | .running _ | .displaced | .retiring _ | .failing .. | .retired | .failed => false

/-- A task whose release is open again keeps its reserved core and fetches again (R312). -/
def TaskPhase.refetch : TaskPhase → TaskPhase
  | .landed c | .awaiting c => .fetching c
  | p => p

/-- Slots of the tasks of a table that follow one of some slots, the slots themselves included; entries in order of entry. -/
def Sector.followers (q : Sector) (slots : List Nat) : List Nat :=
  (sortBy (fun a b => decide (a.2.order < b.2.order)) q.tasks).foldl
    (fun m e => if e.2.preds.any m.contains && !m.contains e.1 then m ++ [e.1] else m) slots

/-- Give some tasks of a table more of a mask. -/
def Sector.spread (q : Sector) (slots : List Nat) (m : List (Nat × Nat)) : Sector :=
  { q with tasks := q.tasks.map fun e => if slots.contains e.1 then (e.1, { e.2 with mask := maskJoin e.2.mask m }) else e }

/-- Add the edge from a slot to another (R321): `none` when R326 refuses it. An edge to a task that waited for none unfixes
its release until the predecessor retires (R182). -/
def State.addEdge (s : State) (sec x y : Nat) (kx ky : Task) : Option State :=
  let q := s.sector sec
  let after := q.followers [y]
  if after.any fun i =>
      match Table.find q.tasks i with
      | some k => (s.producerOf (s.tenantOf k) (descWrites k.desc) kx.mask).isSome
      | none => false
  then none
  else
    let ky' := { ky with preds := if ky.preds.contains x then ky.preds else ky.preds ++ [x], release := none, phase := ky.phase.refetch }
    some (s.setSector sec ({ q with tasks := Table.put q.tasks y ky' }.spread after kx.mask))

/-- TEDGE (R321). The management core's number names no sector, so it finds no task in flight. -/
def execTedge (a b : Reg) (q : Pred) (s : State) : Res :=
  pred q s (let va := s.gReg a
    let vb := s.gReg b
    needClean va a s (needClean vb b s
      (let sec := sectorOf s.cur.core
       match s.byNumber sec (vb.val.setWidth 16) with
       | none => done (s.setP1 false)
       | some (y, ky) =>
         if !ky.phase.waits then done (s.setP1 false)
         else match s.byNumber sec (va.val.setWidth 16) with
           | none => done (s.setP1 true)
           | some (x, kx) =>
             if ky.order ≤ kx.order then done (s.setP1 false)
             else match s.addEdge sec x y kx ky with
               | none => trap cLaunch vb.val s
               | some s1 => done (s1.setP1 true))))

/-! ### TINFO (R322) -/

/-- The count of the innermost level as TINFO reads it. -/
def Launch.innerCount (l : Launch) : Nat :=
  let k := recLevels l.rec_ - 1
  if recPen l.rec_ && recPlevel l.rec_ == k then (if l.spec then l.predicted else l.trueCount) else recCount l.rec_ k

/-- An item of TINFO. -/
def tinfoItem (t : TaskRef) (k : Task) (l : Launch) (item : Nat) : Word :=
  let lin := descLinear k.desc
  let n := recLevels l.rec_
  if item < 8 then
    BitVec.ofNat 64 (if k.spawned then (if item = 0 then lin else 0) else if item < n then recIndex l.rec_ (n - 1 - item) lin else 0)
  else match item with
    | 8 => BitVec.ofNat 64 l.innerCount
    | 9 => BitVec.ofNat 64 lin
    | 10 => (k.release.getD 0) - l.tbase
    | 11 => BitVec.ofNat 64 (k.gen.toNat * 1024 + t.slot)
    | 12 => BitVec.ofNat 64 ((if k.spec then 1 else 0) + (if k.tail then 2 else 0) + k.rereleases * 2 ^ 32)
    | 13 => descFootEnd k.desc
    | _ => BitVec.ofNat 64 (descStage k.desc)

/-- TINFO (R322). A core that runs no task reads 0 (log 30). -/
def execTinfo (d : Reg) (item : BitVec 4) (q : Pred) (s : State) : Res :=
  pred q s
    (match s.myCore.bind.task with
     | none => done (s.putG d 0)
     | some t =>
       match s.taskAt t with
       | none => done (s.putG d 0)
       | some k =>
         match s.launchOf k with
         | none => done (s.putG d 0)
         | some l => done (s.putG d (tinfoItem t k l item.toNat)))

end Sys2Proof.Machine
end

