-- ==== Sys2Proof/Machine/Launches.lean ====
section
/-! DEFINITION. The task engine: accepting launches, placing and entering tasks, choosing cores, footprints, dispatch:
13 R304 to R317, R324, R331; 07 R182, R183; 08 R196, R197. -/

namespace Sys2Proof.Machine

/-! ### The launch control block (R333) -/

/-- STATE of the status block. -/
def Launch.stateWord (l : Launch) : Word :=
  let code := if !l.ended then 0 else if 0 < l.failed || l.shapebad || l.noshape then 2 else 1
  let b := fun (x : Bool) (i : Nat) => if x then 2 ^ i else 0
  BitVec.ofNat 64 (l.trueCount * 2 ^ 32 + b l.noshape 6 + b l.shapebad 5 + b l.tail 4 + b l.deadline 3 + b l.spec 2 + code)

/-- Write the status block of a launch, STATE last. -/
def State.writeStatus (s : State) (home key : Nat) : State :=
  match s.launchAt home key with
  | none => s
  | some l =>
    if recCtla l.rec_ = 0 then s
    else
      let put := fun (s : State) (e : Nat × Word) => s.engineWrite l.tenant (recCtla l.rec_ + BitVec.ofNat 64 e.1) e.2
      [(0x08, BitVec.ofNat 64 l.retired), (0x10, BitVec.ofNat 64 l.squashed), (0x18, BitVec.ofNat 64 l.rereleases),
       (0x20, BitVec.ofNat 64 l.failed), (0x28, l.firstCause), (0x30, l.firstVal), (0x38, BitVec.ofNat 64 l.firstLin),
       (0x00, l.stateWord)].foldl put s

/-! ### The stage governor (R331, R332) -/

def stageEn (w : Word) : Bool := w.getLsbD 31
def stageRing (w : Word) : Nat := (w.extractLsb' 24 4).toNat
def stageHigh (w : Word) : Nat := (w.extractLsb' 12 10).toNat
def stageLow (w : Word) : Nat := (w.extractLsb' 0 10).toNat
/-- Enabled stages, in stage order. -/
def Launch.enabled (l : Launch) : List Nat := (List.range 16).filter fun i => stageEn (l.stages.getD i 0)

/-- The stage of a core: where the governor moved it, else round-robin by core number over the enabled stages. -/
def Launch.stageOf (l : Launch) (c : CoreId) : Option Nat :=
  match Table.find l.moves c with
  | some m => some m.1
  | none => match l.enabled with
    | [] => none
    | e :: es => some ((e :: es).getD (c % 128 % (e :: es).length) 0)

/-- Clusters a launch holds. -/
def State.clustersOf (s : State) (home key : Nat) : List Nat :=
  (s.clusters.filter fun e => e.2.launches.contains (home, key)).map (·.1)
/-- Cores of a launch. -/
def State.coresOf (s : State) (home key : Nat) : List CoreId :=
  (s.clustersOf home key).flatMap fun cl => (List.range 16).map (16 * cl + ·)

/-- Write the stage counts (R333). -/
def State.writeStages (s : State) (home key : Nat) : State :=
  match s.launchAt home key with
  | none => s
  | some l =>
    if recCtla l.rec_ = 0 || !recStaged l.rec_ then s
    else
      let cs := s.coresOf home key
      let n := fun i => (cs.filter fun c => l.stageOf c == some i).length
      (List.range 8).foldl (fun s i =>
        s.engineWrite l.tenant (recCtla l.rec_ + BitVec.ofNat 64 (0x80 + 8 * i))
          (BitVec.ofNat 64 (n (2 * i + 1) * 2 ^ 32 + n (2 * i)))) s

/-- Occupancy of a stage's ring in a core's cluster: OCC of R201. -/
def State.ringOcc (s : State) (c : CoreId) (w : Word) : Nat :=
  let b := stageRing w
  if (s.cluster (clusterOf c)).mode b == .fifo then (s.fifo (clusterOf c) b).ents.length else 0

/-- The governor tests the stage of a core whose task retires (R332). -/
def State.moveStage (s : State) (home key : Nat) (c : CoreId) : State :=
  match s.launchAt home key with
  | none => s
  | some l =>
    match l.stageOf c with
    | none => s
    | some st =>
      let recent := match Table.find l.moves c with
        | some m => decide (ahead s.time m.2 < 64)
        | none => false
      let mates := (s.coresOf home key).filter fun d => groupOf d == groupOf c && l.stageOf d == some st
      if !recStaged l.rec_ || recent || mates.length < 2 || stageLow (l.stages.getD st 0) < s.ringOcc c (l.stages.getD st 0) then s
      else match l.enabled.find? fun t => t != st && decide (stageHigh (l.stages.getD t 0) ≤ s.ringOcc c (l.stages.getD t 0)) with
        | none => s
        | some t =>
          (s.modLaunch home key fun l => { l with moves := Table.put l.moves c (t, s.time) }).writeStages home key

/-! ### Binding clusters and groups (R36, R196, R197, R306, R19) -/

/-- The mode a bank map names (R303). -/
def bankOf (n : Nat) : BankMode := match n with | 0 => .cache | 1 => .scratch | _ => .fifo

/-- Whether a launch may use a cluster (R197). -/
def State.mayBind (s : State) (home key : Nat) (l : Launch) (cl : Nat) : Bool :=
  let k := s.cluster cl
  k.launches.isEmpty || k.launches.contains (home, key) || recBankany l.rec_ ||
    (List.range 16).all fun b => k.mode b == bankOf (recBank l.rec_ b)

/-- An image of 36 words read by the engine; a word that cannot be read, or is poisoned, is a free value (log 31). -/
def State.readImage (s : State) (t : BitVec 12) (va : Word) : List Word × State :=
  let (ws, s1) := s.engineReads t va 36
  (ws.zipIdx.map fun e => match e.1 with
    | some v => if v.poison then Config.freeWord (s1.fresh + e.2) else v.val
    | none => Config.freeWord (s1.fresh + e.2), { s1 with fresh := s1.fresh + 36 })

/-- Install the templates of TPLMASK in the octets of a cluster (R19). -/
def State.installTemplates (s : State) (l : Launch) (cl : Nat) : State :=
  let marks := (List.range 64).filter fun i => recBit l.rec_ 7 i
  (marks.zipIdx).foldl (fun s e =>
    let (img, s1) := s.readImage l.tenant (l.rec_.getD 8 0 + BitVec.ofNat 64 (288 * e.2))
    [2 * cl, 2 * cl + 1].foldl (fun s o => let k := s.octet o; s.setOctet o { k with templates := Table.put k.templates e.1 img }) s1) s

/-- A group that a launch binds begins its count of collective steps anew (R270). A running MMR keeps the step it has taken, and
the tiles of it that have arrived. -/
def Octet.rebound (o : Octet) : Octet :=
  { o with mmrNext := ⟨o.mmrNext.bind + 1, 0⟩, torus := o.torus.filter fun q => o.running.isSome && q.step == o.mmrNow }
def State.resetTorus (s : State) (g : Nat) : State :=
  (List.range 16).foldl (fun s i => s.setOctet (16 * g + i) (s.octet (16 * g + i)).rebound) s

/-- Bind a cluster to a launch (R306). The launch binds the group once it holds all of it (R266); other launches that only take in
clusters of the group leave its collective steps alone (DEDUCED, log 76). -/
def State.bindCluster (s : State) (home key : Nat) (l : Launch) (cl : Nat) : State :=
  let k := s.cluster cl
  if k.launches.contains (home, key) then s
  else
    let s1 := if k.launches.isEmpty && !recBankany l.rec_ then
        (List.range 16).foldl (fun s b =>
          let m := bankOf (recBank l.rec_ b)
          if (s.cluster cl).mode b == m then s else s.drainBank cl b m) s
      else s
    let s2 := s1.installTemplates l cl
    let k2 := s2.cluster cl
    let s3 := (s2.setCluster cl { k2 with icacheAt := s2.seq + 1, launches := k2.launches ++ [(home, key)] }).nextSeq
    let s4 := if recWholegrp l.rec_ then s3.setGroup (cl / 8) ⟨some (home, key)⟩ else s3
    (if !s.bindsGroup home key (cl / 8) && s4.bindsGroup home key (cl / 8) then s4.resetTorus (cl / 8) else s4).writeStages home key

/-- The last launch to hold a cluster releases it, and its banks return to cache mode (R196). -/
def State.releaseCluster (s : State) (home key cl : Nat) : State :=
  let k := s.cluster cl
  let rest := k.launches.filter (· != (home, key))
  let s1 := s.setCluster cl { k with launches := rest }
  if rest.isEmpty then
    (List.range 16).foldl (fun s b => if (s.cluster cl).mode b == .cache then s else s.drainBank cl b .cache) s1
  else s1

/-- A launch gives up its clusters and groups. -/
def State.releaseClusters (s : State) (home key : Nat) : State :=
  let s1 := (s.clustersOf home key).foldl (fun s cl => s.releaseCluster home key cl) s
  { s1 with groups := s1.groups.map fun e => if e.2.whole == some (home, key) then (e.1, ⟨none⟩) else e }

/-- The core a task holds or has reserved. -/
def TaskPhase.core : TaskPhase → Option CoreId
  | .fetching c | .awaiting c | .landed c | .running c | .retiring c | .failing c _ _ => some c
  | .queued | .displaced | .retired | .failed => none

/-- The tasks of every table, with their references. -/
def State.allTasks (s : State) : List (TaskRef × Task) :=
  s.sectors.flatMap fun e => e.2.tasks.map fun t => (⟨e.1, t.1, t.2.order⟩, t.2)
/-- The tasks of a launch in the tables. -/
def State.tasksOf (s : State) (home key : Nat) : List (TaskRef × Task) :=
  s.allTasks.filter fun e => e.2.home == home && e.2.launch == key

/-- A core that no task runs on, has reserved, or is moving to (R312). -/
def State.coreFree (s : State) (c : CoreId) : Bool :=
  decide (c < mgmtCore) && (s.core c).bind.task.isNone &&
    !((s.sector (sectorOf c)).tasks.any fun e => e.2.phase.core == some c) &&
    !s.cores.any fun e => e.2.stop == some (.migrate c)

/-! ### Logical core numbers (R117) -/

/-- The logical number a task takes on core `c`: the core's own, unless a displaced task keeps that; then one of a free core of
the group (DESIGN CHOICE, log 72: which one); `none` when there is none. -/
def State.lcnFor (s : State) (c : CoreId) : Option (BitVec 18) :=
  let own := (s.core c).lcn
  if !s.lcnKept own then some own
  else ((((List.range 128).map (128 * groupOf c + ·)).filter s.coreFree).map fun d => (s.core d).lcn).find? fun l => !s.lcnKept l

/-- Whether a group is open to a launch: not reserved for another, and with WHOLEGRP free of others (R306). -/
def State.groupOpen (s : State) (home key : Nat) (l : Launch) (g : Nat) : Bool :=
  match (s.group g).whole with
  | some w => w == (home, key)
  | none =>
    !recWholegrp l.rec_ || !s.allTasks.any fun e =>
      !(e.2.home == home && e.2.launch == key) && (match e.2.phase.core with | some c => groupOf c == g | none => false)

/-! ### Domains held (R306) -/

/-- Whether an instance of level `k` still holds its domain: a task of it is still to enter in this pass, or is not done. -/
def State.placeLive (s : State) (home key : Nat) (l : Launch) (k inst : Nat) : Bool :=
  let st := recStride l.rec_ k
  (match l.next with
    | some j => decide (nextIn l.rec_ l.low l.high (Nat.max j (inst * st)) < (inst + 1) * st)
    | none => false) ||
    (s.tasksOf home key).any fun e => !e.2.spawned && descLinear e.2.desc / st == inst && e.2.phase != .retired && e.2.phase != .failed

/-- The launch with the domains of instances that are over noted as free, in the order they became so. -/
def State.settled (s : State) (home key : Nat) (l : Launch) : Launch :=
  let gone := l.places.filter fun p => !s.placeLive home key l p.1 p.2.1
  { l with places := l.places.filter fun p => s.placeLive home key l p.1 p.2.1
           freed := l.freed ++ gone.map fun p => (p.1, p.2.2) }

/-! ### The end of a launch (R333) -/

/-- Look at a launch when a task of it is done: domains may have become free, and one that has nothing left ends: its status
says so, and it gives up clusters and groups. -/
def State.endLaunch (s0 : State) (home key : Nat) : State :=
  let s := s0.modLaunch home key fun l => s0.settled home key l
  match s.launchAt home key with
  | none => s
  | some l =>
    if l.ended || l.spec || l.turnTail.next.isSome || !(s.tasksOf home key).isEmpty then s
    else
      let s1 := (s.modLaunch home key fun l => { l with ended := true }).writeStatus home key
      let s2 := s1.releaseClusters home key
      let q := s2.sector home
      s2.setSector home { q with launches := Table.drop q.launches key }

/-! ### Acceptance (R304, R320, R324) -/

/-- Unresolved speculative launches of a sector. -/
def Sector.openLaunches (q : Sector) : Nat := (q.launches.filter (·.2.spec)).length

/-- The home of a shape word begins to watch it for the engine. -/
def State.watchShape (s : State) (home key : Nat) (l : Launch) : State :=
  if !l.spec then s
  else match s.engineLeaf l.tenant (recShape l.rec_) with
    | none => s.engineWalk l.tenant (recShape l.rec_)
    | some e =>
      if s.isSelf e.peer then
        let pa := e.frame + ((recShape l.rec_).toNat - e.vbase)
        let k := s.slice (sliceOfPa pa)
        s.setSlice (sliceOfPa pa) { k with watch := k.watch ++ [⟨pa / 8, home, key, none⟩] }
      else s

/-- The stage table as the engine reads it on acceptance: a word that cannot be read names no stage (R331). -/
def State.readStages (s : State) (l : Launch) : List Word × State :=
  if !recStaged l.rec_ || recCtla l.rec_ = 0 then ([], s)
  else
    let (ws, s1) := s.engineReads l.tenant (recCtla l.rec_ + 0x40) 8
    (ws.flatMap fun w => match w with
      | some v => if v.poison then [0, 0] else [(v.val.setWidth 32).setWidth 64, v.val >>> 32]
      | none => [0, 0], s1)

/-- A host submission counts at its port on acceptance (R418). -/
def State.countPort (s : State) (e : Intake) : State :=
  match e.slot with
  | none => s
  | some i =>
    let p := s.host.lports[i]
    { s with host := { s.host with lports := s.host.lports.set i (p.1 + 1, e.num, p.2.2) } }

/-- A launch record and its base descriptor, as a tenant's space holds them; `none` when a word cannot be read or is poisoned
(R305). -/
def State.engineRecord (s : State) (t : BitVec 12) (addr : Word) : Option (List Word × List Word) × State :=
  let (rs, s1) := s.engineReads t addr 16
  let r := rs.map fun w => (w.getD PWord.poison0).val
  let (bs, s2) := s1.engineReads t (r.getD 0 0) 8
  let bad := fun (w : Option PWord) => match w with | some v => v.poison | none => true
  (if rs.any bad || bs.any bad then none else some (r, bs.map fun w => (w.getD PWord.poison0).val), s2)

/-- Mark whether the last submission of a port was refused. -/
def State.portRefused (s : State) (i : Fin 16) (b : Bool) : State :=
  let p := s.host.lports[i]
  { s with host := { s.host with lports := s.host.lports.set i (p.1, p.2.1, b) } }

/-- LAUNCH_ACCEPT (R304, R320, R324): the head of a sector's intake (`unit`). Its record is copied now; one whose words have
become invalid since its submission is refused whole (log 12). A shape word that can no longer be read fails the launch with
SHAPEBAD (R324), and a control block that can no longer be written loses its stores (R333). -/
def execLaunchAccept (s : State) : Res :=
  let sec := s.ev.unit
  let q := s.sector sec
  match q.intake with
  | [] => .refused .eventDisabled
  | e :: rest =>
    let drop := fun (s : State) =>
      let s1 := s.setSector sec { s.sector sec with intake := rest }
      Host.Outcome.next (match e.slot with | some i => s1.portRefused i true | none => s1)
    match (match e.held with | some p => (some p, s) | none => s.engineRecord e.tenant e.addr) with
    | (none, s0) => drop s0
    | (some (r, base), s0) =>
      if formBad r base then drop s0
      else
        let l0 := e.launch r base s.time
        let (v, s1) := if recPen r then s0.engineRead e.tenant (recShape r) else (none, s0)
        let (l1, sp) := l0.shaped v q.sprout
        guardEvent (!recPen r || decide (q.openLaunches < 16))
          (let (st, s2) := s1.readStages l1
           let l2 := { l1 with stages := st }
           let key := q.nextKey
           let q2 := s2.sector sec
           let s3 := s2.setSector sec { q2 with intake := rest, nextKey := key + 1, sprout := sp,
                                                launches := Table.put q2.launches key l2 }
           .next ((((((s3.watchShape sec key l2).countPort e).writeStatus sec key).writeStages sec key).endLaunch sec key)))

/-! ### Placement and entry (R306, R315, R326) -/

/-- Cores of an instance of a domain. -/
def domSize (d : Nat) : Nat :=
  match d with
  | 0 => 1
  | 1 => 16
  | 2 => 128
  | 3 => 2048
  | 4 => 32768
  | _ => 262144

/-- The sector with the most free slots of some range, the lowest on a tie (R306). -/
def State.bestSector (s : State) (lo n : Nat) : Nat :=
  (List.range n).foldl (fun b i =>
    if (s.sector b).freeSlots.length < (s.sector (lo + i)).freeSlots.length then lo + i else b) lo

/-- Levels of a launch above the task level, whose domains are bound as instances enter. -/
def Launch.outer (l : Launch) : List Nat := List.range (recLevels l.rec_ - 1)

/-- The narrowest outer level bound to a sector or wider. -/
def Launch.sectorLevel (l : Launch) : Option Nat := (l.outer.filter fun k => decide (3 ≤ recDomain l.rec_ k)).getLast?

/-- Whether a core's sector may hold the instances of LINEAR `j` that enter now (R306). -/
def State.sectorOk (s : State) (home : Nat) (l : Launch) (j : Nat) (c : CoreId) : Bool :=
  match l.sectorLevel with
  | none => sectorOf c == home
  | some k =>
    if recDomain l.rec_ k = 3 then true
    else
      let sz := domSize (recDomain l.rec_ k)
      let held := k + 1 < recLevels l.rec_ - 1 && l.places.any fun p => p.1 == k + 1 && p.2.1 == j / recStride l.rec_ (k + 1)
      held || sectorOf c == s.bestSector (c / sz * sz / 2048) (sz / 2048)

/-- Whether a launch may use a domain of some kind: a cluster as R197 allows, a group as WHOLEGRP does. -/
def State.domainOpen (s : State) (home key : Nat) (l : Launch) (kind dom : Nat) : Bool :=
  let c := dom * domSize kind
  (2 < kind || s.groupOpen home key l (groupOf c)) && (1 < kind || s.mayBind home key l (clusterOf c))

/-- The domains of level `k` within the parent's domain that holds core `c`: the first, and how many (R306). -/
def Launch.domains (l : Launch) (k : Nat) (c : CoreId) : Nat × Nat :=
  let kind := recDomain l.rec_ k
  let up := if k = 0 then domSize 5 else domSize (recDomain l.rec_ (k - 1))
  let n := if kind < 3 then Nat.min up 2048 else up
  (c / n * n / domSize kind, n / domSize kind)

/-- Tasks that hold or have reserved a core of a domain: its load (DESIGN CHOICE, log 73). -/
def State.domainLoad (s : State) (kind dom : Nat) : Nat :=
  (s.allTasks.filter fun e => match e.2.phase.core with | some d => d / domSize kind == dom | none => false).length

/-- The domain that the next instance of level `k` takes in the parent's domain that holds core `c` (R306): round-robin from
the least loaded over domains not yet taken, and then the first that has become free; `none` while there is none. -/
def State.nextDomain (s : State) (home key : Nat) (l : Launch) (k : Nat) (c : CoreId) : Option Nat :=
  let kind := recDomain l.rec_ k
  let (lo, n) := l.domains k c
  let mine := (l.taken.filter fun p => p.1 == k && decide (lo ≤ p.2) && decide (p.2 < lo + n)).map (·.2)
  let fresh := ((List.range n).map (lo + ·)).filter fun d => !mine.contains d && s.domainOpen home key l kind d
  match fresh, mine with
  | [], _ => ((l.freed.filter fun p => p.1 == k && decide (lo ≤ p.2) && decide (p.2 < lo + n)).map (·.2)).find?
      fun d => s.domainOpen home key l kind d
  | f :: fs, [] => some (fs.foldl (fun b d => if s.domainLoad kind d < s.domainLoad kind b then d else b) f)
  | f :: fs, last :: _ => some (((f :: fs).find? fun d => decide (last < d)).getD f)

/-- Whether the domains that hold core `c` are those for the instances of LINEAR `j`. -/
def State.placeOk (s : State) (home key : Nat) (l : Launch) (j : Nat) (c : CoreId) : Bool :=
  s.sectorOk home l j c && l.outer.all fun k =>
    let inst := j / recStride l.rec_ k
    let dom := c / domSize (recDomain l.rec_ k)
    match l.places.find? fun p => p.1 == k && p.2.1 == inst with
    | some p => p.2.2 == dom
    | none => s.nextDomain home key l k c == some dom

/-- A core of each place where LINEAR `j` may enter next: the first of its domain, in each sector that may hold it. -/
def State.entryCores (s : State) (home key : Nat) (l : Launch) (j : Nat) : List CoreId :=
  l.outer.foldl (fun cs k => cs.filterMap fun c =>
      let kind := recDomain l.rec_ k
      let dom := match l.places.find? fun p => p.1 == k && p.2.1 == j / recStride l.rec_ k with
        | some p => some p.2.2
        | none => s.nextDomain home key l k c
      match dom with
      | none => none
      | some d => if kind < 3 then some (d * domSize kind) else if c / domSize kind = d then some c else none)
    (((List.range 128).map (2048 * ·)).filter (s.sectorOk home l j))

/-- The launch once LINEAR `j` has entered at core `c`: instances that had no domain hold theirs. -/
def Launch.takePlaces (l : Launch) (j : Nat) (c : CoreId) : Launch :=
  l.outer.foldl (fun l k =>
    let inst := j / recStride l.rec_ k
    let dom := c / domSize (recDomain l.rec_ k)
    if l.places.any fun p => p.1 == k && p.2.1 == inst then l
    else { l with places := l.places ++ [(k, inst, dom)], freed := l.freed.filter (· != (k, dom))
                  taken := (k, dom) :: l.taken.filter (· != (k, dom)) }) l

/-- The cores a task may run on: the innermost outer domain, within its sector. -/
def Launch.span (l : Launch) (c : CoreId) : Nat × Nat :=
  let n := match l.outer.getLast? with
    | some k => Nat.min 2048 (domSize (recDomain l.rec_ k))
    | none => 2048
  (c / n * n, n)

/-- A task refused as it enters fails without being dispatched (R326). -/
def State.refuseTask (s : State) (sec home key : Nat) (l : Launch) (desc : List Word) (shape : Word) : State :=
  let s1 := s.modLaunch home key fun l =>
    let f := { l with failed := l.failed + 1 }
    if l.failed = 0 then { f with firstCause := cLaunch, firstVal := shape, firstLin := descLinear desc } else f
  let w := eventWord 1 l.tenant l.num (BitVec.ofNat 7 sec) false (cLaunch.extractLsb' 0 5) 0
  (((s1.postMgmt w).postHost w).writeStatus home key)

/-- TASK_ENTER_TABLE (R315): the next task of launch `idx` of sector `unit`, placed in the domains of `core`. -/
def execTaskEnterTable (s : State) : Res :=
  let home := s.ev.unit
  let key := s.ev.idx
  let c := s.ev.core
  match s.launchAt home key with
  | none => .refused .eventDisabled
  | some l0 =>
    let l := (s.settled home key l0).turnTail
    match l.next with
    | none => .refused .eventDisabled
    | some j =>
      let sec := sectorOf c
      let (lo, n) := l.span c
      let narrow := decide (n ≤ 16)
      guardEvent (!l.ended && decide (c < mgmtCore) && !(s.sector sec).freeSlots.isEmpty && s.placeOk home key l j c &&
          (!narrow || (s.mayBind home key l (clusterOf c) && s.groupOpen home key l (groupOf c))))
        (let s0 := s.modLaunch home key fun _ => { (l.takePlaces j c) with nextLin := j + 1 }
         let s1 := if narrow then s0.bindCluster home key l (clusterOf c) else s0
         let desc := descOf l.rec_ l.base j
         let late := l.tail && l.low != 0
         let k := freshTask home key desc (l.spec && !late) late false (4 * descPrio desc + recQsel l.rec_) lo n none
           (l.rec_.getD 1 0)
         .next (match s1.refusedShape sec k with
           | some shape => (s1.refuseTask sec home key l desc shape).endLaunch home key
           | none => (s1.enterTable sec k).2))

/-! ### Cores and footprints (R312, R317, R182, R183) -/

/-- Cores that the head of a queue may take (R306, R312, R320). -/
def State.coreFits (s : State) (k : Task) (l : Launch) (c : CoreId) : Bool :=
  let near := fun (d : CoreId) => s.coreFree d && s.mayBind k.home k.launch l (clusterOf d) && s.groupOpen k.home k.launch l (groupOf d) &&
    (!recStaged l.rec_ || l.stageOf d == some (descStage k.desc))
  near c &&
    (if k.spawned then
      clusterOf c == clusterOf k.lo ||
        (groupOf c == groupOf k.lo && !(List.range 16).any fun i => near (16 * clusterOf k.lo + i))
     else decide (k.lo ≤ c) && decide (c < k.lo + k.count))

/-- The task at the head of a queue. -/
def Sector.head (q : Sector) (queue : Nat) : Option (Nat × Task) :=
  match (Table.find q.queues queue).getD [] with
  | [] => none
  | i :: _ => (Table.find q.tasks i).map fun k => (i, k)

def State.putTask (s : State) (sec slot : Nat) (k : Task) : State :=
  let q := s.sector sec
  s.setSector sec { q with tasks := Table.put q.tasks slot k }

/-- Effective priority of a head (R311). -/
def Task.effective (k : Task) (now : Word) : Nat := Nat.min 3 (descPrio k.desc + (now - k.waited).toNat / 4096)

/-- Whether a head is served before another: higher effective priority, then earlier entry (R311). -/
def Task.outranks (a b : Task) (now : Word) : Bool :=
  decide (b.effective now < a.effective now) || (a.effective now == b.effective now && decide (a.order < b.order))

/-- Whether the engine chooses a core for a head (R312). -/
def Task.choosable (k : Task) : Bool := k.phase == .queued && k.preds.isEmpty && k.release.isSome

/-- Whether a head that is served before another could take the same core. -/
def State.outbid (s : State) (sec : Nat) (k : Task) (c : CoreId) : Bool :=
  (List.range 16).any fun i =>
    match (s.sector sec).head i with
    | some (_, h) => h.choosable && h.outranks k s.time && (match s.launchOf h with | some l => s.coreFits h l c | none => false)
    | none => false

/-- CORE_CHOICE (R312): the head of queue `idx` of sector `unit` reserves `core`, whose logical number no displaced task keeps
(R117); heads that want one core are served in the order of R311. -/
def execCoreChoice (s : State) : Res :=
  let sec := s.ev.unit
  let c := s.ev.core
  match (s.sector sec).head s.ev.idx with
  | none => .refused .eventDisabled
  | some (slot, k) =>
    match s.launchOf k, s.lcnFor c with
    | some l, some n =>
      guardEvent (k.choosable && sectorOf c == sec && s.coreFits k l c && !s.outbid sec k c)
        (.next (((s.remap n c).bindCluster k.home k.launch l (clusterOf c)).putTask sec slot { k with phase := .fetching c }))
    | _, _ => .refused .eventDisabled

/-- One doubleword of a footprint as of the release instant (R167, R182): a word that cannot be read lands as Poison(0). A read
that reached its home no later than tick `r` is answered as `r` closes, with no STALE. -/
def State.footWord (s : State) (sec : Nat) (k : Task) (t : BitVec 12) (cl : Nat) (r : Word) (va : Nat) : PWord × Bool × State :=
  match s.engineLeaf t (BitVec.ofNat 64 va) with
  | none => (PWord.poison0, false, s.engineWalk t (BitVec.ofNat 64 va))
  | some e =>
    if !e.r then (PWord.poison0, false, s)
    else
      let frame := match (s.sector sec).frameFor t k.order (va / 4096) with
        | some f => 4096 * f.number sec + va % 4096
        | none => e.frame + (va - e.vbase)
      if s.isSelf e.peer then
        let s1 := s.settleLine cl 0 (lineOf frame)
        if r == s.time then let (u, s2) := s1.serveUnit frame; (u, false, s2) else
        let (v, stale, s2) := s1.readAsOf frame e.timed r
        if isHbm frame then (v, stale, s2) else let (u, s3) := s2.serveUnit frame; (u, true, s3)
      else let (u, s1) := s.peerRead; (u, Config.freeBool s1.fresh, s1.nextFresh)

/-- The doublewords of a range, in order: offsets of the local store, values, and whether any was STALE. -/
def State.footRange (s : State) (sec : Nat) (k : Task) (t : BitVec 12) (cl : Nat) (r : Word) (va off : Nat) :
    Nat → Memory → Bool → Memory × Bool × State
  | 0, m, b => (m, b, s)
  | n + 1, m, b =>
    let (v, stale, s1) := s.footWord sec k t cl r va
    State.footRange s1 sec k t cl r (va + 8) (off + 8) n (m.write off 8 v) (b || stale)

/-- The whole footprint, laid from the bottom of the local store (R317). -/
def State.footprint (s : State) (sec : Nat) (k : Task) (t : BitVec 12) (cl : Nat) (r : Word) :
    List (Nat × Nat) → Nat → Memory → Bool → Memory × Bool × State
  | [], _, m, b => (m, b, s)
  | (va, n) :: rest, off, m, b =>
    let (m1, b1, s1) := s.footRange sec k t cl r va off (n / 8) m b
    State.footprint s1 sec k t cl r rest (off + n) m1 b1

/-- The footprint of the task in a slot as of `r`: what lies in its core's local store, whether any part is STALE, and the state
after. -/
def State.fetchFoot (s : State) (sec : Nat) (k : Task) (c : CoreId) (r : Word) : Memory × Bool × State :=
  s.footprint sec k (s.tenantOf k) (clusterOf c) r (descReads k.desc) 0 Memory.empty false

/-- A footprint has landed without STALE: the task keeps its core. -/
def State.landFoot (s : State) (sec slot : Nat) (k : Task) (c : CoreId) (m : Memory) : State :=
  (s.modCore c fun x => { x with ls := m }).putTask sec slot { k with phase := .landed c }

/-- Fetches that wait for this tick are answered as it closes (R167, R182). -/
def State.closeFoots (s : State) : State :=
  s.allTasks.foldl (fun s e =>
    match e.2.phase with
    | .awaiting c =>
      if e.2.release == some s.time then
        let (m, _, s1) := s.fetchFoot e.1.sec e.2 c s.time
        s1.landFoot e.1.sec e.1.slot e.2 c m
      else s
    | _ => s) s

/-- FOOTPRINT_LANDED (R182, R183): the task in slot `idx` of sector `unit`; with `ok` its reads reach their homes, where they wait
for the release instant to close. -/
def execFootprintLanded (s : State) : Res :=
  let sec := s.ev.unit
  match Table.find (s.sector sec).tasks s.ev.idx with
  | none => .refused .eventDisabled
  | some k =>
    match k.phase, k.release with
    | .fetching c, some r =>
      let none_ := (descReads k.desc).isEmpty
      if s.ev.ok then guardEvent (!none_ && !laterThan s.time r) (.next (s.putTask sec s.ev.idx { k with phase := .awaiting c }))
      else guardEvent (none_ || laterThan s.time r)
        (let (m, stale, s1) := s.fetchFoot sec k c r
         if stale then
           let s2 := s1.putTask sec s.ev.idx { k with release := some s1.time, rereleases := k.rereleases + 1 }
           .next ((s2.modLaunch k.home k.launch fun l => { l with rereleases := l.rereleases + 1 }).writeStatus k.home k.launch)
         else .next (s1.landFoot sec s.ev.idx k c m))
    | _, _ => .refused .eventDisabled

/-! ### Dispatch (R90, R310, R311, R313, R355) -/

/-- DEADLINE of a record: signed ticks after TBASE (R303). -/
def Launch.deadlineTick (l : Launch) : Word := l.tbase + ((l.rec_.getD 13 0).extractLsb' 32 32).signExtend 64

/-- Whether the head of a queue is ready: its footprint has landed and no barrier holds it back (R312, R313, R328). -/
def State.headReady (s : State) (sec queue : Nat) : Option (Nat × Task × CoreId) :=
  let q := s.sector sec
  match q.head queue with
  | none => none
  | some (slot, k) =>
    let older := q.tasks.filter fun e => e.2.queue == k.queue && decide (e.2.order < k.order) &&
      e.2.phase != .retired && e.2.phase != .failed
    let barred := (descBarrier k.desc && !older.isEmpty) || older.any fun e => descBarrier e.2.desc
    let late := match s.launchOf k with
      | some l => k.spec && decide (0 < ahead s.time l.deadlineTick)
      | none => false
    match k.phase with
    | .landed c => if barred || late || !k.preds.isEmpty then none else some (slot, k, c)
    | _ => none

/-- The ready head of highest effective priority; ties go to the head that entered the table first. -/
def State.bestHead (s : State) (sec : Nat) : Option (Nat × Task × CoreId) :=
  (List.range 16).foldl (fun (b : Option (Nat × Task × CoreId)) i =>
    match s.headReady sec i, b with
    | none, _ => b
    | some h, none => some h
    | some h, some x => if h.2.1.outranks x.2.1 s.time then some h else b) none

/-- A core as it is when a task is dispatched: what is the core's own stays; its injection window holds zero (R372). -/
def Core.forTask (k : Core) (c : CoreId) (b : Binding) : Core :=
  { Core.reset c with lcn := k.lcn, bind := b, last := k.last, ls := k.ls, point := k.point, ask := k.ask, coret := k.coret,
                      act := k.act, lead := k.lead, work := { CoreWork.reset with send := k.work.send } }

/-- Context 0 at dispatch (R90). -/
def Ctx.control (w : List Word) : Ctx :=
  let g := ([1, 2, 3, 4] : List Nat).foldl (fun (g : Vector PWord 16) i => g.setIfInBounds i ⟨w.getD i 0, false⟩) Ctx.reset.g
  { Ctx.reset.goto (w.getD 0 0) with st := .ready, g := g }

/-- The head of a queue leaves it; the next head begins to wait. -/
def State.popQueue (s : State) (sec queue slot : Nat) : State :=
  let q := s.sector sec
  let l := (Table.find q.queues queue).getD []
  let rest := l.filter (· != slot)
  let s1 := s.setSector sec { q with queues := Table.put q.queues queue rest }
  match l, rest with
  | a :: _, b :: _ =>
    if a == slot then
      match Table.find q.tasks b with
      | some k => s1.putTask sec b { k with waited := s.time }
      | none => s1
    else s1
  | _, _ => s1

/-- Put a task on its core: its binding, context 0, and the acquire at the scope of its level (R90, R355). -/
def State.dispatchOn (s : State) (sec slot : Nat) (k : Task) (c : CoreId) : State :=
  match s.launchOf k with
  | none => s
  | some l =>
    let b : Binding := ⟨some ⟨sec, slot, k.order⟩, l.tenant, recDrop l.rec_, recTaskScope l.rec_, k.tvec, l.tbase⟩
    let s1 := (s.popQueue sec k.queue slot).putTask sec slot { k with phase := .running c }
    (s1.modCore c fun x => (x.forTask c b).setCtx 0 (Ctx.control k.desc)).acquireActs c (recTaskScope l.rec_)

/-- TASK_DISPATCH (R311): the best ready head of sector `unit`. -/
def execTaskDispatch (s : State) : Res :=
  match s.bestHead s.ev.unit with
  | none => .refused .eventDisabled
  | some (slot, k, c) => .next (s.dispatchOn s.ev.unit slot k c)

end Sys2Proof.Machine
end

