-- ==== Sys2Proof/Machine/Settle.lean ====
section
/-! DEFINITION. How tasks leave: retire, failure, squash, the resolution of a speculative launch, and the commit of renamed
pages: 13 R315, R316, R318, R324 to R333; 04 R106; 07 R178. -/

namespace Sys2Proof.Machine

/-! ### The release that ends a task (R318, R106) -/

/-- Whether a line of a cluster holds a byte of a task's write ranges. -/
def State.lineInRanges (s : State) (c : CoreId) (t : BitVec 12) (ws : List (Nat × Nat)) (l : Line) : Bool :=
  ws.any fun w => (List.range (w.2 / 64)).any fun i =>
    match s.leafOn c t (w.1 + 64 * i) with
    | some e =>
      let pa := e.frame + (w.1 + 64 * i - e.vbase)
      l.line == lineOf pa && l.peer == (if s.isSelf e.peer then 0 else e.peer.toNat)
    | none => false

/-- Dirty lines of a core that the end of its task writes back: all for a scope wider than .CLU, else those of its write
ranges. -/
def State.endLines (s : State) (c : CoreId) (t : BitVec 12) (sc : Scope) (ws : List (Nat × Nat)) : List Line :=
  (s.cluster (clusterOf c)).lines.filter fun l =>
    l.dirty != 0 && l.writers.getLsbD (posOf c) && (wide sc || s.lineInRanges c t ws l)

/-- Send the dirty bytes of a line home; the line stays, clean. -/
def State.sendClean (s : State) (cl : Nat) (l : Line) : State :=
  let k := s.cluster cl
  (s.setCluster cl { k with lines := k.lines.map fun x => if x.isFor l.peer l.line then { x with dirty := 0, writers := 0 } else x }).sendBack cl l

/-- Release at the scope of a task's level on behalf of its core: what is still to set out sets out; `k` follows once all of
it has been applied at its home. -/
def endRelease (c : CoreId) (t : BitVec 12) (sc : Scope) (ws : List (Nat × Nat)) (s : State) (k : State → Res) : Res :=
  let cl := clusterOf c
  let ls := s.endLines c t sc ws
  let acc := (s.cluster cl).acc.any fun e => e.mask.getLsbD (posOf c)
  if !ls.isEmpty || acc then .next ((ls.foldl (fun s l => s.sendClean cl l) s).mergeMine cl (posOf c))
  else guardEvent (!s.backsOut cl (posOf c) && !s.mergesOut cl (posOf c)) (k s)

/-! ### Leaving a table (R314, R315, R182) -/

/-- A predecessor no longer holds a task back: `after` is the tick after its retire, absent when the edge is dropped. -/
def State.dropEdge (s : State) (k : Task) (slot : Nat) (after : Option Word) : Task :=
  if k.preds.contains slot then
    let k1 := { k with preds := k.preds.filter (· != slot)
                       after := match k.after, after with
                         | some a, some b => some (laterOf a b)
                         | a, none => a
                         | none, b => b }
    if k1.preds.isEmpty && k1.release.isNone then s.fixRelease k1 else k1
  else k

/-- Take a task out of its table and its queue; its successors lose the edge. -/
def State.leaveTable (s : State) (t : TaskRef) (after : Option Word) : State :=
  match s.taskAt t with
  | none => s
  | some k =>
    let s1 := s.popQueue t.sec k.queue t.slot
    let q := s1.sector t.sec
    s1.setSector t.sec { q with tasks := (Table.drop q.tasks t.slot).map fun e => (e.1, s.dropEdge e.2 t.slot after) }

/-- A core without its task: everything of the task is gone but packets it has sent; its local store keeps its bytes until
the next dispatch. -/
def State.vacate (s : State) (c : CoreId) : State := s.modCore c fun k => k.forTask c Binding.reset

/-! ### Renamed pages (R316) -/

/-- The renames of a retired writer may be committed. -/
def State.renamesDone (s : State) (t : TaskRef) : State :=
  let q := s.sector t.sec
  s.setSector t.sec { q with renames := q.renames.map fun r => if r.writer == t.order then { r with done := true } else r }

/-- The frames of a writer that is squashed or fails return to the pool; its pages keep the frames before them. -/
def State.renamesUndone (s : State) (t : TaskRef) : State :=
  let q := s.sector t.sec
  (q.renames.filter (·.writer == t.order)).foldl (fun s r =>
    let q := s.sector t.sec
    s.setSector t.sec
      { q with freeFrames := q.freeFrames ++ [r.new]
               renames := (q.renames.filter (· != r)).map fun x =>
                 if x.vpage == r.vpage && x.tenant == r.tenant && x.old == r.new then { x with old := r.old } else x }) s

/-- The physical address of the table entry that maps an address, by the walk of R395. -/
def State.entryFrom (s : State) (va : Nat) : Nat → List Nat → Option Nat
  | _, [] => none
  | base, shift :: rest =>
    let at_ := base + 16 * (va / 2 ^ shift % 512)
    let w0 := s.homeUnit at_
    match (w0.val.extractLsb' 0 2).toNat with
    | 1 => State.entryFrom s va ((w0.val.extractLsb' 12 44).toNat * 4096) rest
    | 2 => some at_
    | _ => none

/-- RENAME_COMMIT (R316): rename `idx` of sector `unit`, when its writer has retired and no earlier task uses the old frame. -/
def execRenameCommit (s : State) : Res :=
  let sec := s.ev.unit
  let q := s.sector sec
  match q.renames[s.ev.idx]? with
  | none => .refused .eventDisabled
  | some r =>
    let uses := q.tasks.any fun e => decide (e.2.order < r.writer) && s.tenantOf e.2 == r.tenant &&
      (descReads e.2.desc ++ descWrites e.2.desc).any fun w => (pagesOf w).contains r.vpage
    let first := (q.renames.find? fun x => x.vpage == r.vpage && x.tenant == r.tenant) == some r
    guardEvent (r.done && !uses && first)
      (let old := r.old.number sec
       let s1 := match s.entryFrom (4096 * r.vpage) (s.root r.tenant).toNat [39, 30, 21, 12] with
         | some at_ =>
           let w := (s.homeUnit at_).val
           s.arriveWrite at_ 8 ⟨(w &&& ~~~(0xFFFFFFFFFFF#64 <<< 12)) ||| (BitVec.ofNat 64 (r.new.number sec % 2 ^ 44) <<< 12), false⟩ .noPage
         | none => s
       let s2 := { s1 with clusters := s1.clusters.map fun (e : Nat × Cluster) => (e.1,
         { e.2 with tlb := e.2.tlb.filter fun x => !x.hit r.tenant (4096 * r.vpage)
                    lines := e.2.lines.filter fun l => !(l.peer == 0 && l.line / 64 == old) }) }
       let q2 := s2.sector sec
       .next (s2.setSector sec { q2 with renames := q2.renames.filter (· != r), freeFrames := q2.freeFrames ++ [r.old] }))

/-! ### Retire (R318) -/

/-- Nothing of a core's accesses is still to be performed. -/
def Core.settled (k : Core) : Bool :=
  k.work.loads.isEmpty && k.work.port.isEmpty && k.work.vecs.isEmpty && !k.work.rq.any fun r => k.verdict r.guard != .wait

/-- TASK_RETIRE_COMPLETE (R318): the task that has exited on `core`. -/
def execTaskRetireComplete (s : State) : Res :=
  let c := s.ev.core
  let b := (s.core c).bind
  match b.task with
  | none => .refused .eventDisabled
  | some t =>
    match s.taskAt t with
    | none => .refused .eventDisabled
    | some k =>
      guardEvent (k.phase == .retiring c && (s.core c).settled)
        (endRelease c b.tenant b.scope (descWrites k.desc) s fun s =>
          let s1 := ((s.dropPins c).vacate c).moveStage k.home k.launch c
          let s2 := if k.spec then s1.modTask t fun k => { k with phase := .retired }
            else ((s1.renamesDone t).leaveTable t (some (s.time + 1))).modLaunch k.home k.launch fun l => { l with retired := l.retired + 1 }
          .next ((s2.writeStatus k.home k.launch).endLaunch k.home k.launch))

/-! ### Copies of a task (R301) -/

/-- Whether a copy belongs to a task. -/
def CopyStart.of (cs : CopyStart) (t : TaskRef) : Bool := cs.task == some t

/-- A channel without the copies of a task: its current copy ends with no tag and no number, and its queued starts go. -/
def Chan.forget (h : Chan) (t : TaskRef) : Chan :=
  let h1 := { h with queue := h.queue.filter fun cs => !cs.of t }
  match h.cur with
  | some cs =>
    if cs.of t then { h1 with cur := none, state := .idle, writes := [], delivered := [], faddr := 0
                              flags := if h.state == .frozen || h.state == .waitRelease then h.flags ||| 64 else h.flags }
    else h1
  | none => h1

/-- End the copies of a task in its core's octet. -/
def State.forgetCopies (s : State) (c : CoreId) (t : TaskRef) : State :=
  let o := s.octet (octetOf c)
  s.setOctet (octetOf c) { o with chans := o.chans.map fun h => h.forget t }

/-- Writes of a task's copies that are on their way. -/
def State.copyWritesOf (s : State) (c : CoreId) (t : TaskRef) : Bool :=
  (s.octet (octetOf c)).chans.toList.any fun h =>
    match h.cur with
    | some cs => cs.of t && !h.writes.isEmpty
    | none => false

/-! ### Failure (R106) -/

/-- What a task that fails or is squashed gives up on its core (R106, R146, R157, R235, R275, R301, R388, R412). -/
def State.reclaimCore (s : State) (c : CoreId) (t : TaskRef) : State :=
  (((s.endTask c).forgetCopies c t).dropPins c).vacate c

/-- Count the failure of a task, and record the first (R333). -/
def Launch.countFailure (l : Launch) (cause value : Word) (lin : Nat) : Launch :=
  let f := { l with failed := l.failed + 1 }
  if l.failed = 0 then { f with firstCause := cause, firstVal := value, firstLin := lin % 2 ^ 24 } else f

/-- The stores of a failed task on its core have been performed; those to scratch and the peer window wait for the launch. -/
def State.failSettled (s : State) (c : CoreId) (t : TaskRef) : Bool :=
  let k := s.core c
  k.work.port.isEmpty && !k.work.vecs.any (fun e => !e.load) && !s.copyWritesOf c t

/-- TASK_FAILURE_COMPLETE (R106): the task that has failed on `core`. -/
def execTaskFailureComplete (s : State) : Res :=
  let c := s.ev.core
  let b := (s.core c).bind
  match b.task with
  | none => .refused .eventDisabled
  | some t =>
    match s.taskAt t with
    | none => .refused .eventDisabled
    | some k =>
      match k.phase with
      | .failing d cause value =>
        guardEvent (d == c && s.failSettled c t)
          (endRelease c b.tenant b.scope (descWrites k.desc) s fun s =>
            let s1 := (s.postFailure t b.tenant cause).reclaimCore c t
            let s2 := (s1.renamesUndone t).modLaunch k.home k.launch fun l => l.countFailure cause value (descLinear k.desc)
            let s3 := if k.spec then s2.modTask t fun k => { k with phase := .failed } else s2.leaveTable t (some (s.time + 1))
            .next ((s3.writeStatus k.home k.launch).endLaunch k.home k.launch))
      | _ => .refused .eventDisabled

/-! ### Squash (R330) -/

/-- Purge the held writes of a task at every home; a purged write is never logged (R178). -/
def State.purgeHeld (s : State) (t : TaskRef) : State :=
  { s with slices := s.slices.map fun e => (e.1, { e.2 with tq := e.2.tq.filter fun q => q.held != some t }) }

/-- Packets of a task that no core has sent yet are discarded (R327). -/
def State.purgeSends (s : State) (t : TaskRef) : State :=
  { s with cores := s.cores.map fun e => (e.1, { e.2 with work := { e.2.work with send := e.2.work.send.filter fun p => p.task != some t } }) }

/-- The owner that an octet's resources of a displaced task carry: no core position. -/
def awayOwner (t : TaskRef) : Nat := 8 + 1024 * t.sec + t.slot

/-- An octet without what a displaced task has left in it: tiles and operand registers (R114). -/
def Octet.forgetAway (o : Octet) (t : TaskRef) : Octet :=
  { o with tiles := o.tiles.map fun x => if x.owner == some (awayOwner t) then AccTile.reset else x
           ops := o.ops.map fun x => if x.owner == some (awayOwner t) then OpReg.reset else x }

/-- End the copies of a task in every octet: also those of one that has left its core (R301). -/
def State.forgetEverywhere (s : State) (t : TaskRef) : State :=
  { s with octets := s.octets.map fun e => (e.1, { e.2 with chans := e.2.chans.map fun h => h.forget t }) }

/-- Squash one task (R330): what it waits with is discarded, its unsent packets too (R327); packets of other tasks stay. -/
def State.squash (s : State) (t : TaskRef) : State :=
  match s.taskAt t with
  | none => s
  | some k =>
    let drop := fun (c : CoreId) (s : State) =>
      ((s.modCore c fun x => { x with work := { CoreWork.reset with send := x.work.send } }).leaveFifoBanks
        c fun _ => true).reclaimCore c t
    let s1 := match k.phase with
      | .running c | .retiring c => drop c s
      | .failing c cause _ => drop c (s.postFailure t (s.core c).bind.tenant cause)
      | .displaced => { s with octets := s.octets.map fun (e : Nat × Octet) => (e.1, e.2.forgetAway t) }
      | _ => s
    let s2 := ((((s1.forgetEverywhere t).purgeSends t).purgeHeld t).renamesUndone t).leaveTable t none
    s2.modLaunch k.home k.launch fun l => { l with squashed := l.squashed + 1 }

/-- Of the tasks of a launch, those a condition on their LINEAR names, and their spawned descendants (R320, R325). -/
def surplusOf (ts : List (TaskRef × Task)) (bad : Nat → Bool) : List TaskRef :=
  (sortBy (fun (a b : TaskRef × Task) => decide (a.1.sec < b.1.sec) || (a.1.sec == b.1.sec && decide (a.2.order < b.2.order))) ts).foldl
    (fun acc e =>
      let hit := if e.2.spawned then
          (match e.2.parent with
           | some p => acc.any fun r => r.sec == e.1.sec && r.slot == p
           | none => false)
        else bad (descLinear e.2.desc)
      if hit then acc ++ [e.1] else acc) []

/-! ### Resolution (R325, R327, R178) -/

/-- No task follows a launch any more that has resolved. -/
def State.clearMasks (s : State) (home key : Nat) : State :=
  { s with sectors := s.sectors.map fun e => (e.1,
      { e.2 with tasks := e.2.tasks.map fun t => (t.1, { t.2 with mask := t.2.mask.filter (· != (home, key)) }) }) }

/-- Homes stop watching for a launch's shape word. -/
def State.unwatch (s : State) (home key : Nat) : State :=
  { s with slices := s.slices.map fun e => (e.1,
      { e.2 with watch := e.2.watch.filter fun w => !(w.home == home && w.key == key) }) }

/-- Release what homes hold of a kept task, in the order it arrived at each (R178). -/
def State.releaseTask (s : State) (t : TaskRef) : State :=
  s.sliceNums.foldl (fun s sl => ((s.slice sl).tq.filter fun e => e.held == some t).foldl (fun s e => s.releaseHeld e) s) s

/-- The contexts of a core that wait in LAUNCH issue it again. -/
def Core.wakeLaunch (k : Core) : Core :=
  k.modLive fun x => match x.st, x.wait with
    | .waiting, some (.launch ..) => { x with st := .ready, wait := none }
    | _, _ => x

/-- A kept task ceases to be speculative; one that has ended leaves its table (R315, R325). -/
def State.keepTask (s : State) (t : TaskRef) (k : Task) : State :=
  let s1 := (s.modTask t fun k => { k with spec := false }).releaseTask t
  match k.phase with
  | .retired => ((s1.renamesDone t).leaveTable t (some (s.time + 1))).modLaunch k.home k.launch fun l => { l with retired := l.retired + 1 }
  | .failed => s1.leaveTable t (some (s.time + 1))
  | .running c | .retiring c => s1.modCore c Core.wakeLaunch
  | _ => s1

/-- Every task of a launch squashed: the launch fails (R325, R329). -/
def State.failLaunch (s : State) (home key : Nat) (f : Launch → Launch) : State :=
  let s1 := (s.modLaunch home key fun l => { (f l) with spec := false, tail := false, nextLin := recTotal l.rec_ }).unwatch home key
  let s2 := ((s1.tasksOf home key).foldl (fun s e => s.squash e.1) s1).clearMasks home key
  s2.endLaunch home key

/-- Resolve a launch with the value of its shape word. -/
def State.resolve (s : State) (home key : Nat) (l : Launch) (v : PWord) : State :=
  let n := shapeCount v
  if shapeBadFor l.rec_ v then s.failLaunch home key fun l => { l with shapebad := true, trueCount := n }
  else
    let q := s.sector home
    let s0 := (s.setSector home { q with sprout := sproutPush q.sprout (sproutKey l.addr) n }).unwatch home key
    let gone := surplusOf (s0.tasksOf home key) fun j => decide (n ≤ recIndex l.rec_ (recWindow l.rec_) j)
    let s1 := (gone.foldl (fun s t => s.squash t) s0).modLaunch home key fun l =>
      { l with spec := false, trueCount := n, high := Nat.min l.high n, tail := decide (l.predicted < n) }
    let s2 := ((s1.tasksOf home key).foldl (fun s e => s.keepTask e.1 e.2) s1).clearMasks home key
    (s2.writeStatus home key).endLaunch home key

/-- The report of a shape word's home: the value of the first application that left VALID set, from tick `t + 1` on. A
word homed on a peer device is reported from outside (`w`). -/
def State.shapeReport (s : State) (home key : Nat) : Option PWord :=
  match s.slices.findSome? fun e => e.2.watch.find? fun w => w.home == home && w.key == key with
  | none => if s.ev.w.getLsbD 63 then some ⟨s.ev.w, false⟩ else none
  | some w =>
    match w.seen with
    | some (t, v) => if laterThan s.time t then some v else none
    | none => none

/-- LAUNCH_RESOLVE (R325): launch `idx` of sector `unit`. Once its deadline has passed, DEADLINE_PASS comes first (R328). -/
def execLaunchResolve (s : State) : Res :=
  match s.launchAt s.ev.unit s.ev.idx with
  | none => .refused .eventDisabled
  | some l =>
    match s.shapeReport s.ev.unit s.ev.idx with
    | none => .refused .eventDisabled
    | some v =>
      guardEvent (l.spec && !laterThan s.time (l.deadlineTick + 65536) && (l.deadline || !laterThan s.time l.deadlineTick))
        (.next (s.resolve s.ev.unit s.ev.idx l v))

/-- The event of a launch (kinds 2 and 3, R421). -/
def State.postLaunch (s : State) (kind : BitVec 3) (home : Nat) (l : Launch) : State :=
  let w := eventWord kind l.tenant l.num (BitVec.ofNat 7 home) false 0 0
  (s.postMgmt w).postHost w

/-- DEADLINE_PASS (R328): launch `idx` of sector `unit`, once the tick TBASE + DEADLINE has closed. -/
def execDeadlinePass (s : State) : Res :=
  let home := s.ev.unit
  let key := s.ev.idx
  match s.launchAt home key with
  | none => .refused .eventDisabled
  | some l =>
    guardEvent (l.spec && !l.deadline && laterThan s.time l.deadlineTick)
      (.next (((s.modLaunch home key fun l => { l with deadline := true }).postLaunch 2 home l).writeStatus home key))

/-- SHAPE_EXPIRE (R329): launch `idx` of sector `unit`, once its deadline has passed (R328) and the tick TBASE + DEADLINE + 65,536 has
closed. -/
def execShapeExpire (s : State) : Res :=
  let home := s.ev.unit
  let key := s.ev.idx
  match s.launchAt home key with
  | none => .refused .eventDisabled
  | some l =>
    guardEvent (l.spec && l.deadline && laterThan s.time (l.deadlineTick + 65536))
      (.next ((s.postLaunch 3 home l).failLaunch home key fun l => { l with noshape := true }))

end Sys2Proof.Machine
end

