-- ==== Sys2Proof/Machine/Scalar.lean ====
section
/-! DEFINITION. Scalar float and scalar level-index instructions: 03 R80 to R88, 09 R218 to R225. -/

namespace Sys2Proof.Machine

/-! ### Shared forms -/

/-- A source in a format of `w` bits: the low bits of a register (R81, R214). -/
def lowBits (w : Nat) (v : PWord) : Nat := v.val.toNat % 2 ^ w

/-- NMODE.SAT (R69). -/
def satOf (nmode : Word) : Bool := nmode.getLsbD 3

/-- The value an instruction writes and the flags it sets: with a poisoned source, the poisoned `bad` and no flag
(R87, R225). -/
def resultOf (poison : Bool) (bad : Nat) (r : Nat × Word) : PWord × Word :=
  if poison then (⟨BitVec.ofNat 64 bad, true⟩, 0) else (⟨BitVec.ofNat 64 r.1, false⟩, r.2)

/-- Write a numeric result to g[d] and OR its flags (R72, R81). -/
def putNum (d : Reg) (r : PWord × Word) (s : State) : Res := done ((s.setG d r.1).addFlags r.2)

/-- Write a comparison to p[d] and OR its flags; a poisoned source gives a poisoned false (R84, R87). -/
def putCmp (d : PReg) (poison : Bool) (r : Bool × Word) (s : State) : Res :=
  if poison then done (s.setP d ⟨false, true⟩) else done ((s.setP d ⟨r.1, false⟩).addFlags r.2)

/-! ### Scalar float (R82 to R86) -/

/-- The operation `op` on two float registers. -/
def float2 (op : BFmt → RM → FVal → FVal → Nat × Word) (a b : Reg) (f : FFmt) (r : Rnd) (s : State) : PWord × Word :=
  let x := s.gReg a
  let y := s.gReg b
  let t := f.bin
  resultOf (x.poison || y.poison) t.nan (op t (modeOf r s.me.nmode) (fval t (lowBits t.width x)) (fval t (lowBits t.width y)))

def fsubV (f : BFmt) (md : RM) (x y : FVal) : Nat × Word := faddV f md x y.neg

/-- FADD (R82). -/
def execFadd (d a b : Reg) (f : FFmt) (r : Rnd) (q : Pred) (s : State) : Res :=
  pred q s (putNum d (float2 faddV a b f r s) s)
/-- FSUB (R82). -/
def execFsub (d a b : Reg) (f : FFmt) (r : Rnd) (q : Pred) (s : State) : Res :=
  pred q s (putNum d (float2 fsubV a b f r s) s)
/-- FMUL (R82). -/
def execFmul (d a b : Reg) (f : FFmt) (r : Rnd) (q : Pred) (s : State) : Res :=
  pred q s (putNum d (float2 fmulV a b f r s) s)
/-- FFMA (R82): the addend is g[d]. -/
def execFfma (d a b : Reg) (f : FFmt) (r : Rnd) (q : Pred) (s : State) : Res :=
  pred q s
    (let z := s.gReg d
     let t := f.bin
     let op := fun t md x y => ffmaV t md x y (fval t (lowBits t.width z))
     putNum d (if z.poison then resultOf true t.nan (0, 0) else float2 op a b f r s) s)
/-- FDIV (R82, R88). -/
def execFdiv (d a b : Reg) (f : FFmt) (r : Rnd) (q : Pred) (s : State) : Res :=
  pred q s (let (v, fl) := float2 fdivV a b f r s; onDivide (.fdiv d a b f r q) d v fl s)
/-- FSQRT (R82, R88). -/
def execFsqrt (d a : Reg) (f : FFmt) (r : Rnd) (q : Pred) (s : State) : Res :=
  pred q s
    (let x := s.gReg a
     let t := f.bin
     let (v, fl) := resultOf x.poison t.nan (fsqrtV t (modeOf r s.me.nmode) (fval t (lowBits t.width x)))
     onDivide (.fsqrt d a f r q) d v fl s)

/-- FMIN and FMAX (R83). -/
def minmax (isMax : Bool) (d a b : Reg) (f : FFmt) (s : State) : Res :=
  let x := s.gReg a
  let y := s.gReg b
  let t := f.bin
  putNum d (resultOf (x.poison || y.poison) t.nan (fminmax t isMax (lowBits t.width x) (lowBits t.width y))) s
/-- FMIN (R83). -/
def execFmin (d a b : Reg) (f : FFmt) (q : Pred) (s : State) : Res := pred q s (minmax false d a b f s)
/-- FMAX (R83). -/
def execFmax (d a b : Reg) (f : FFmt) (q : Pred) (s : State) : Res := pred q s (minmax true d a b f s)

/-- FCMP (R84). -/
def execFcmp (d : PReg) (a b : Reg) (f : FFmt) (c : FCond) (q : Pred) (s : State) : Res :=
  pred q s
    (let x := s.gReg a
     let y := s.gReg b
     let t := f.bin
     putCmp d (x.poison || y.poison) (fcmpV c (fval t (lowBits t.width x)) (fval t (lowBits t.width y))) s)

/-- The result of a conversion on the 64 bits of a register, and the value a poisoned source leaves (R85, R87). -/
def fcvtV (c : FCvt) (md : RM) (sat : Bool) (x : Word) : (Nat × Word) × Nat :=
  let lo := fun w => x.toNat % 2 ^ w
  let int := fun (r : Int × Word) => ((BitVec.ofInt 64 r.1).toNat, r.2)
  match c with
  | .f16F32 => (fcvtFF .f32 .f16 md sat (lo 32), BFmt.nan .f16)
  | .f32F16 => (fcvtFF .f16 .f32 md sat (lo 16), BFmt.nan .f32)
  | .bf16F32 => (fcvtFF .f32 .bf16 md sat (lo 32), BFmt.nan .bf16)
  | .f32Bf16 => (fcvtFF .bf16 .f32 md sat (lo 16), BFmt.nan .f32)
  | .f8aF32 => (fcvtFF .f32 .f8a md sat (lo 32), BFmt.nan .f8a)
  | .f8bF32 => (fcvtFF .f32 .f8b md sat (lo 32), BFmt.nan .f8b)
  | .f32F8a => (fcvtFF .f8a .f32 md sat (lo 8), BFmt.nan .f32)
  | .f32F8b => (fcvtFF .f8b .f32 md sat (lo 8), BFmt.nan .f32)
  | .i64F32 => (int (fcvtFI .f32 64 true md (lo 32)), 0)
  | .u64F32 => (int (fcvtFI .f32 64 false md (lo 32)), 0)
  | .f32I64 => (fcvtIF .f32 md x.toInt, BFmt.nan .f32)
  | .f32U64 => (fcvtIF .f32 md x.toNat, BFmt.nan .f32)

/-- FCVT (R85). -/
def execFcvt (d a : Reg) (r : Rnd) (c : FCvt) (q : Pred) (s : State) : Res :=
  pred q s
    (let x := s.gReg a
     let (v, bad) := fcvtV c (modeOf r s.me.nmode) (satOf s.me.nmode) x.val
     putNum d (resultOf x.poison bad v) s)

/-- FCLASS (R86). -/
def execFclass (d a : Reg) (f : FFmt) (q : Pred) (s : State) : Res :=
  pred q s
    (let x := s.gReg a
     putNum d (resultOf x.poison 0 ((fclassV f.bin (fval f.bin (lowBits f.bin.width x))).toNat, 0)) s)

/-! ### Scalar level-index (R218 to R225) -/

/-- A level-index operation on two registers, in the recurrence unit. -/
def level2 (i : Instr) (op : LFmt → Nat → Nat → Nat × Word) (d a b : Reg) (f : LFmt) (s : State) : Res :=
  let x := s.gReg a
  let y := s.gReg b
  let (v, fl) := resultOf (x.poison || y.poison) f.nar (op f (lowBits f.width x) (lowBits f.width y))
  onRecurrence i d v fl s

/-- LADD (R220). -/
def execLadd (d a b : Reg) (f : LFmt) (q : Pred) (s : State) : Res := pred q s (level2 (.ladd d a b f q) laddV d a b f s)
/-- LSUB (R220). -/
def execLsub (d a b : Reg) (f : LFmt) (q : Pred) (s : State) : Res := pred q s (level2 (.lsub d a b f q) lsubV d a b f s)
/-- LMUL (R220). -/
def execLmul (d a b : Reg) (f : LFmt) (q : Pred) (s : State) : Res := pred q s (level2 (.lmul d a b f q) lmulV d a b f s)
/-- LDIV (R220). -/
def execLdiv (d a b : Reg) (f : LFmt) (q : Pred) (s : State) : Res := pred q s (level2 (.ldiv d a b f q) ldivV d a b f s)

/-- LCMP (R221). -/
def execLcmp (d : PReg) (a b : Reg) (f : LFmt) (c : FCond) (q : Pred) (s : State) : Res :=
  pred q s
    (let x := s.gReg a
     let y := s.gReg b
     putCmp d (x.poison || y.poison) (lcmpV f c (lowBits f.width x) (lowBits f.width y)) s)

/-- What a poisoned source of LCVT leaves (R225). -/
def lcvtBad (c : LCvt) : Nat := if c.toLevel then c.level.nar else c.float.nan
/-- The width of the source of LCVT. -/
def lcvtWidth (c : LCvt) : Nat := if c.toLevel then c.float.width else c.level.width

/-- LCVT (R222, R223). -/
def execLcvt (d a : Reg) (r : Rnd) (c : LCvt) (q : Pred) (s : State) : Res :=
  pred q s
    (let x := s.gReg a
     let (v, fl) := resultOf x.poison (lcvtBad c) (lcvtV c (modeOf r s.me.nmode) (lowBits (lcvtWidth c) x))
     onRecurrence (.lcvt d a r c q) d v fl s)

/-- LCLASS (R224). -/
def execLclass (d a : Reg) (f : LFmt) (q : Pred) (s : State) : Res :=
  pred q s (let x := s.gReg a; putNum d (resultOf x.poison 0 (lclassV f (lowBits f.width x), 0)) s)

end Sys2Proof.Machine
end

