-- ==== Sys2Proof/Machine/Vector.lean ====
section
/-! DEFINITION. Vector lanes, element instructions, conversions, reductions and the fused softmax: 10 R229 to R247, R251,
R252, 09 R226, R227. -/

namespace Sys2Proof.Machine

/-! ### Elements of a v register (R189, R240) -/

/-- Element `i`. -/
def VReg.elem (v : VReg) (i : Nat) : BitVec 32 := v.data.extractLsb' (32 * i) 32
/-- Whether the unit that holds element `i` is poisoned. -/
def VReg.bad (v : VReg) (i : Nat) : Bool := v.poison.getLsbD (i / 2)

/-- A result element: its bits, its poison, and its flags. -/
structure Elem where
  val : BitVec 32
  poison : Bool
  flags : Word
  deriving DecidableEq, Repr

/-- A clean element without flags. -/
def Elem.of (v : BitVec 32) : Elem := ⟨v, false, 0⟩

/-- Bits of a list of elements, the first lowest. -/
def packElems : List (BitVec 32) → Nat
  | [] => 0
  | x :: r => x.toNat + 2 ^ 32 * packElems r

/-- Write elements 0, 1, ... of a register; the others keep their values. A unit is poisoned when an element written
into it is, or when it was and one of its elements is not written (R240). -/
def VReg.put (v : VReg) (es : List Elem) : VReg :=
  let bit := fun u => (List.range 2).any (fun k => ((es[2 * u + k]?).map (·.poison)).getD false) ||
    (v.poison.getLsbD u && decide (es.length < 2 * u + 2))
  ⟨BitVec.ofNat 512 (packElems ((List.range 16).map fun i => ((es[i]?).map (·.val)).getD (v.elem i))),
   (List.range 8).foldl (fun p u => setBit8 p u (bit u)) 0⟩

def Ctx.setV (x : Ctx) (r : VRegN) (v : VReg) : Ctx := { (x.unpend (.v r)) with v := x.v.set r v }
def State.vReg (s : State) (r : VRegN) : VReg := s.me.v[r]
/-- VL of the executing context. -/
def State.vl (s : State) : Nat := s.me.lanes.vl

/-- Write the elements below VL, OR their flags, and retire. -/
def putElems (d : VRegN) (es : List Elem) (s : State) : Res :=
  done ((s.modMe fun x => x.setV d (x.v[d].put es)).addFlags (es.foldl (fun f e => f ||| e.flags) 0))

/-! ### The frame of R240 -/

/-- The first fault of an instruction that needs lanes: no grant, or a v register outside the bound names (R234), of
several the destination before the sources (DESIGN CHOICE, log 75). -/
def Ctx.laneFault (x : Ctx) (rs : List VRegN) : Option Word :=
  if x.lanes.g = 0 then some 1 else (x.unbound rs).map fun r => 0x100 + BitVec.ofNat 64 r

/-- Run an instruction that needs lanes and names v registers. -/
def onLanes (rs : List VRegN) (s : State) (k : Res) : Res :=
  match s.me.laneFault rs with
  | some v => trap cLane v s
  | none => k

/-- An element result, or the poisoned `bad` when a source element is poisoned. -/
def elemOf (poison : Bool) (bad : Nat) (r : Nat × Word) : Elem :=
  if poison then ⟨BitVec.ofNat 32 bad, true, 0⟩ else ⟨BitVec.ofNat 32 r.1, false, r.2⟩

/-- Element by element on two registers. -/
def map2 (bad : Nat) (f : Nat → Nat → Nat × Word) (x y : VReg) (vl : Nat) : List Elem :=
  (List.range vl).map fun i => elemOf (x.bad i || y.bad i) bad (f (x.elem i).toNat (y.elem i).toNat)
/-- Element by element on one register. -/
def map1 (bad : Nat) (f : Nat → Nat × Word) (x : VReg) (vl : Nat) : List Elem :=
  (List.range vl).map fun i => elemOf (x.bad i) bad (f (x.elem i).toNat)

def vop2 (bad : Nat) (f : Nat → Nat → Nat × Word) (d a b : VRegN) (q : Pred) (s : State) : Res :=
  pred q s (onLanes [d, a, b] s (putElems d (map2 bad f (s.vReg a) (s.vReg b) s.vl) s))
def vop1 (bad : Nat) (f : Nat → Nat × Word) (d a : VRegN) (q : Pred) (s : State) : Res :=
  pred q s (onLanes [d, a] s (putElems d (map1 bad f (s.vReg a) s.vl) s))

/-! ### VCLAIM, VREL, VLEN (R236 to R239) -/

/-- VCLAIM (R237). The management core belongs to no octet: a claim of 0 ends there, any other waits for lanes that never
come (log 59). -/
def execVclaim (d a : Reg) (q : Pred) (s : State) : Res :=
  pred q s
    (let v := s.gReg a
     needClean v a s
       (let r := v.val.toNat
        if !natHas [0, 4, 8, 16] r then trap cLane 2 s
        else if s.poolLoads s.cur.core s.cur.ctx then waitIn (.vclaim d a q) s
        else
          (let s1 := s.releaseLanes s.cur.core s.cur.ctx
           let o := octetOf s.cur.core
           if r = 0 then done (s1.putG d 0)
           else if s.onMgmt then waitIn (.vclaim d a q) (if s.me.packet.isSome then s else s1)
           else if (s1.octet o).laneQ.isEmpty && 4 ≤ s1.laneFree o then
             let g := laneWidth r (s1.laneFree o)
             done ((s1.modMe fun x => { x with lanes := ⟨g, r, false, g, 0⟩ }).putG d (BitVec.ofNat 64 g))
           else if s.me.packet.isSome then waitIn (.vclaim d a q) s
           else
             let k := s1.octet o
             waitIn (.vclaim d a q) (s1.setOctet o { k with laneQ := k.laneQ ++ [⟨s.cur.core, s.cur.ctx, r, 0⟩] }))))

/-- VREL in either size (R238). -/
def vrelVia (i : Instr) (s : State) : Res :=
  if s.me.lanes.g = 0 then done s
  else if s.poolLoads s.cur.core s.cur.ctx then waitIn i s
  else done (s.releaseLanes s.cur.core s.cur.ctx)

/-- VREL (R238). -/
def execVrel (q : Pred) (s : State) : Res := pred q s (vrelVia (.vrel q) s)
/-- Short form of VREL (R48). -/
def execVrelS (s : State) : Res := vrelVia .vrelS s

/-- VLEN (R239). Of a poisoned operand and no grant, poison is reported (DESIGN CHOICE, log 69: the rule gives no order). -/
def execVlen (d a : Reg) (q : Pred) (s : State) : Res :=
  pred q s
    (let v := s.gReg a
     needClean v a s
       (if s.me.lanes.g = 0 then trap cLane 1 s
        else
          let n := Nat.min v.val.toNat s.me.lanes.g
          done ((s.modMe fun x => { x with lanes := { x.lanes with vl := n } }).putG d (BitVec.ofNat 64 n))))

/-! ### Integer elements (R242) -/

/-- A 32-bit code as a signed number. -/
def s32 (x : Nat) : Int := (BitVec.ofNat 32 x).toInt
/-- A number modulo 2^32. -/
def wrap32 (x : Int) : Nat := (BitVec.ofInt 32 x).toNat
/-- Clamp to the signed or unsigned 32-bit range. -/
def clamp32 (lo hi x : Int) : Nat := wrap32 (if x < lo then lo else if hi < x then hi else x)
/-- An element result without flags. -/
def plainElem (f : Nat → Nat → Nat) (x y : Nat) : Nat × Word := (f x y, 0)

def satElem (op : Int → Int → Int) (m : SatMode) (x y : Nat) : Nat :=
  match m with
  | .wrap => wrap32 (op x y)
  | .ss => clamp32 (-2 ^ 31) (2 ^ 31 - 1) (op (s32 x) (s32 y))
  | .su => clamp32 0 (2 ^ 32 - 1) (op x y)
def mulElem (m : MulMode) (x y : Nat) : Nat :=
  match m with
  | .low => x * y % 2 ^ 32
  | .h => wrap32 (s32 x * s32 y / 2 ^ 32)
  | .hu => x * y / 2 ^ 32
def minElem (u : Bool) (x y : Nat) : Nat := if (if u then decide (x ≤ y) else decide (s32 x ≤ s32 y)) then x else y
def maxElem (u : Bool) (x y : Nat) : Nat := if (if u then decide (y ≤ x) else decide (s32 y ≤ s32 x)) then x else y
def shrElem (u : Bool) (x y : Nat) : Nat := if u then x / 2 ^ (y % 32) else wrap32 (s32 x / 2 ^ (y % 32))

/-- VADD (R242). -/
def execVadd (d a b : VRegN) (m : SatMode) (q : Pred) (s : State) : Res := vop2 0 (plainElem (satElem (· + ·) m)) d a b q s
/-- VSUB (R242). -/
def execVsub (d a b : VRegN) (m : SatMode) (q : Pred) (s : State) : Res := vop2 0 (plainElem (satElem (· - ·) m)) d a b q s
/-- VMUL (R242). -/
def execVmul (d a b : VRegN) (m : MulMode) (q : Pred) (s : State) : Res := vop2 0 (plainElem (mulElem m)) d a b q s
/-- VMIN (R242). -/
def execVmin (d a b : VRegN) (u : Bool) (q : Pred) (s : State) : Res := vop2 0 (plainElem (minElem u)) d a b q s
/-- VMAX (R242). -/
def execVmax (d a b : VRegN) (u : Bool) (q : Pred) (s : State) : Res := vop2 0 (plainElem (maxElem u)) d a b q s
/-- VAND (R242). -/
def execVand (d a b : VRegN) (q : Pred) (s : State) : Res := vop2 0 (plainElem Nat.land) d a b q s
/-- VOR (R242). -/
def execVor (d a b : VRegN) (q : Pred) (s : State) : Res := vop2 0 (plainElem Nat.lor) d a b q s
/-- VXOR (R242). -/
def execVxor (d a b : VRegN) (q : Pred) (s : State) : Res := vop2 0 (plainElem Nat.xor) d a b q s
/-- VSHL (R242). -/
def execVshl (d a b : VRegN) (q : Pred) (s : State) : Res :=
  vop2 0 (plainElem fun x y => x * 2 ^ (y % 32) % 2 ^ 32) d a b q s
/-- VSHR (R242). -/
def execVshr (d a b : VRegN) (u : Bool) (q : Pred) (s : State) : Res := vop2 0 (plainElem (shrElem u)) d a b q s

/-! ### Float elements (R243) -/

/-- A float operation on the low bits of two elements. -/
def floatElem (op : BFmt → RM → FVal → FVal → Nat × Word) (f : FFmt) (md : RM) (x y : Nat) : Nat × Word :=
  let t := f.bin
  op t md (fval t (x % 2 ^ t.width)) (fval t (y % 2 ^ t.width))
/-- The rounding mode of a vector instruction. -/
def State.vmode (s : State) (r : Rnd) : RM := modeOf r s.me.nmode

/-- VFADD (R243). -/
def execVfadd (d a b : VRegN) (f : FFmt) (r : Rnd) (q : Pred) (s : State) : Res :=
  vop2 f.bin.nan (floatElem faddV f (s.vmode r)) d a b q s
/-- VFSUB (R243). -/
def execVfsub (d a b : VRegN) (f : FFmt) (r : Rnd) (q : Pred) (s : State) : Res :=
  vop2 f.bin.nan (floatElem fsubV f (s.vmode r)) d a b q s
/-- VFMUL (R243). -/
def execVfmul (d a b : VRegN) (f : FFmt) (r : Rnd) (q : Pred) (s : State) : Res :=
  vop2 f.bin.nan (floatElem fmulV f (s.vmode r)) d a b q s

/-- The elements of VFMA: the addend is the element of v[d]. -/
def fmaElems (f : FFmt) (md : RM) (x y z : VReg) (vl : Nat) : List Elem :=
  let t := f.bin
  (List.range vl).map fun i =>
    elemOf (x.bad i || y.bad i || z.bad i) t.nan
      (floatElem (fun t md x y => ffmaV t md x y (fval t ((z.elem i).toNat % 2 ^ t.width))) f md (x.elem i).toNat (y.elem i).toNat)
/-- VFMA (R243). -/
def execVfma (d a b : VRegN) (f : FFmt) (r : Rnd) (q : Pred) (s : State) : Res :=
  pred q s (onLanes [d, a, b] s (putElems d (fmaElems f (s.vmode r) (s.vReg a) (s.vReg b) (s.vReg d) s.vl) s))

/-- FMAX or FMIN on the low bits of two elements (R83). -/
def minmaxElem (isMax : Bool) (f : FFmt) (x y : Nat) : Nat × Word :=
  fminmax f.bin isMax (x % 2 ^ f.bin.width) (y % 2 ^ f.bin.width)
/-- VFMAX (R243). -/
def execVfmax (d a b : VRegN) (f : FFmt) (q : Pred) (s : State) : Res := vop2 f.bin.nan (minmaxElem true f) d a b q s
/-- VFMIN (R243). -/
def execVfmin (d a b : VRegN) (f : FFmt) (q : Pred) (s : State) : Res := vop2 f.bin.nan (minmaxElem false f) d a b q s

/-- Change the sign of an element that is no NaN. -/
def signElem (neg : Bool) (f : FFmt) (x : Nat) : Nat × Word :=
  let t := f.bin
  let c := x % 2 ^ t.width
  match fval t c with
  | .nan sg => nanOf t sg
  | .inf _ | .fin _ _ _ => (if neg then Nat.xor c (2 ^ (t.width - 1)) else c % 2 ^ (t.width - 1), 0)
/-- VFABS (R243). -/
def execVfabs (d a : VRegN) (f : FFmt) (q : Pred) (s : State) : Res := vop1 f.bin.nan (signElem false f) d a q s
/-- VFNEG (R243). -/
def execVfneg (d a : VRegN) (f : FFmt) (q : Pred) (s : State) : Res := vop1 f.bin.nan (signElem true f) d a q s

/-! ### Special functions (R244) -/

/-- VEXP (R244). -/
def execVexp (d a : VRegN) (q : Pred) (s : State) : Res := vop1 (BFmt.nan .f32) (specialV .exp) d a q s
/-- VLOG (R244). -/
def execVlog (d a : VRegN) (q : Pred) (s : State) : Res := vop1 (BFmt.nan .f32) (specialV .log) d a q s
/-- VRCP (R244). -/
def execVrcp (d a : VRegN) (q : Pred) (s : State) : Res := vop1 (BFmt.nan .f32) (specialV .rcp) d a q s
/-- VRSQ (R244). -/
def execVrsq (d a : VRegN) (q : Pred) (s : State) : Res := vop1 (BFmt.nan .f32) (specialV .rsq) d a q s
/-- VSIG (R244). -/
def execVsig (d a : VRegN) (q : Pred) (s : State) : Res := vop1 (BFmt.nan .f32) (specialV .sig) d a q s
/-- VTANH (R244). -/
def execVtanh (d a : VRegN) (q : Pred) (s : State) : Res := vop1 (BFmt.nan .f32) (specialV .tanh) d a q s

/-! ### Conversions (R245, R227) -/

/-- The formats of a VCVT that writes one element for each source element: its result, and what poison leaves. -/
def vcvtV (c : VCvt) (md : RM) (sat : Bool) (x : Nat) : (Nat × Word) × Nat :=
  let int := fun (r : Int × Word) => (wrap32 r.1, r.2)
  match c with
  | .f16F32 => (fcvtFF .f32 .f16 md sat x, BFmt.nan .f16)
  | .f32F16 => (fcvtFF .f16 .f32 md sat (x % 2 ^ 16), BFmt.nan .f32)
  | .bf16F32 => (fcvtFF .f32 .bf16 md sat x, BFmt.nan .bf16)
  | .f32Bf16 => (fcvtFF .bf16 .f32 md sat (x % 2 ^ 16), BFmt.nan .f32)
  | .f8aF32 | .p8aF32 => (fcvtFF .f32 .f8a md sat x, BFmt.nan .f8a)
  | .f8bF32 | .p8bF32 => (fcvtFF .f32 .f8b md sat x, BFmt.nan .f8b)
  | .f32F8a => (fcvtFF .f8a .f32 md sat (x % 2 ^ 8), BFmt.nan .f32)
  | .f32F8b => (fcvtFF .f8b .f32 md sat (x % 2 ^ 8), BFmt.nan .f32)
  | .i32F32 => (int (fcvtFI .f32 32 true md x), 0)
  | .u32F32 => (int (fcvtFI .f32 32 false md x), 0)
  | .f32I32 => (fcvtIF .f32 md (s32 x), BFmt.nan .f32)
  | .f32U32 => (fcvtIF .f32 md x, BFmt.nan .f32)

/-- Whether a conversion packs four results into an element. -/
def VCvt.packed : VCvt → Bool
  | .p8aF32 | .p8bF32 => true
  | .f16F32 | .f32F16 | .bf16F32 | .f32Bf16 | .f8aF32 | .f8bF32 | .f32F8a | .f32F8b | .i32F32 | .u32F32 | .f32I32
  | .f32U32 => false

/-- Four conversions packed into one element; bytes at and above VL are zero. -/
def packFour (es : List Elem) (j : Nat) : Elem :=
  let e := fun k => (es[4 * j + k]?).getD (Elem.of 0)
  ⟨BitVec.ofNat 32 ((e 0).val.toNat + 2 ^ 8 * (e 1).val.toNat + 2 ^ 16 * (e 2).val.toNat + 2 ^ 24 * (e 3).val.toNat),
   (e 0).poison || (e 1).poison || (e 2).poison || (e 3).poison,
   (e 0).flags ||| (e 1).flags ||| (e 2).flags ||| (e 3).flags⟩

/-- The elements a VCVT writes. -/
def vcvtElems (c : VCvt) (md : RM) (sat : Bool) (x : VReg) (vl : Nat) : List Elem :=
  let es := map1 (vcvtV c md sat 0).2 (fun x => (vcvtV c md sat x).1) x vl
  if VCvt.packed c then (List.range ((vl + 3) / 4)).map (packFour es) else es

/-- VCVT (R245). -/
def execVcvt (d a : VRegN) (r : Rnd) (c : VCvt) (q : Pred) (s : State) : Res :=
  pred q s (onLanes [d, a] s (putElems d (vcvtElems c (s.vmode r) (satOf s.me.nmode) (s.vReg a) s.vl) s))

/-- A level-index operation on the low bits of two elements (R227). -/
def levelElem (op : LFmt → Nat → Nat → Nat × Word) (f : LFmt) (x y : Nat) : Nat × Word :=
  op f (x % 2 ^ f.width) (y % 2 ^ f.width)
/-- VLADD (R227). -/
def execVladd (d a b : VRegN) (f : LFmt) (q : Pred) (s : State) : Res := vop2 f.nar (levelElem laddV f) d a b q s
/-- VLMUL (R227). -/
def execVlmul (d a b : VRegN) (f : LFmt) (q : Pred) (s : State) : Res := vop2 f.nar (levelElem lmulV f) d a b q s
/-- VLCVT (R227): a float destination is rounded under NMODE.RM. -/
def execVlcvt (d a : VRegN) (c : LCvt) (q : Pred) (s : State) : Res :=
  vop1 (lcvtBad c) (fun x => lcvtV c (s.vmode .none) (x % 2 ^ lcvtWidth c)) d a q s

/-! ### Compare and permute (R246) -/

/-- A vector condition and its flags. -/
def vcondV (c : VCond) (x y : Nat) : Bool × Word :=
  match c with
  | .i32 c => ((match c with
    | .eq => x == y
    | .ne => x != y
    | .lt => decide (s32 x < s32 y)
    | .le => decide (s32 x ≤ s32 y)
    | .ltu => decide (x < y)
    | .leu => decide (x ≤ y)), 0)
  | .f32 c => fcmpV c (fval .f32 x) (fval .f32 y)
/-- VCMP (R246). -/
def execVcmp (d a b : VRegN) (c : VCond) (q : Pred) (s : State) : Res :=
  vop2 0 (fun x y => let r := vcondV c x y; (if r.1 then 2 ^ 32 - 1 else 0, r.2)) d a b q s

/-- The elements of VSEL. -/
def selElems (m x y : VReg) (vl : Nat) : List Elem :=
  (List.range vl).map fun i =>
    elemOf (m.bad i || x.bad i || y.bad i) 0 ((if m.elem i != 0 then x.elem i else y.elem i).toNat, 0)
/-- VSEL (R246). -/
def execVsel (d a b : VRegN) (q : Pred) (s : State) : Res :=
  pred q s (onLanes [d, a, b] s (putElems d (selElems (s.vReg d) (s.vReg a) (s.vReg b) s.vl) s))

/-- The elements of VPERM. -/
def permElems (x y : VReg) (vl : Nat) : List Elem :=
  (List.range vl).map fun i =>
    let j := (y.elem i).toNat % 16
    elemOf (y.bad i || x.bad j) 0 ((x.elem j).toNat, 0)
/-- VPERM (R246). -/
def execVperm (d a b : VRegN) (q : Pred) (s : State) : Res :=
  pred q s (onLanes [d, a, b] s (putElems d (permElems (s.vReg a) (s.vReg b) s.vl) s))

/-- VBCAST (R246). -/
def execVbcast (d : VRegN) (a : Reg) (q : Pred) (s : State) : Res :=
  pred q s (onLanes [d] s
    (let v := s.gReg a
     putElems d (List.replicate s.vl (elemOf v.poison 0 (v.val.toNat % 2 ^ 32, 0))) s))
/-- VBCAST_E (R246). -/
def execVbcastE (d a : VRegN) (k : Fin 16) (q : Pred) (s : State) : Res :=
  pred q s (onLanes [d, a] s
    (let x := s.vReg a
     putElems d (List.replicate s.vl (elemOf (x.bad k) 0 ((x.elem k).toNat, 0))) s))

/-- The elements of VSLIDE: a poisoned count poisons every element. -/
def slideElems (up : Bool) (x : VReg) (n : PWord) (vl : Nat) : List Elem :=
  let k := n.val.toNat
  (List.range vl).map fun i =>
    if n.poison then elemOf true 0 (0, 0)
    else if up then (if k ≤ i then elemOf (x.bad (i - k)) 0 ((x.elem (i - k)).toNat, 0) else Elem.of 0)
    else if i + k < vl then elemOf (x.bad (i + k)) 0 ((x.elem (i + k)).toNat, 0) else Elem.of 0
/-- VSLIDE_UP (R246). -/
def execVslideUp (d a : VRegN) (b : Reg) (q : Pred) (s : State) : Res :=
  pred q s (onLanes [d, a] s (putElems d (slideElems true (s.vReg a) (s.gReg b) s.vl) s))
/-- VSLIDE_DN (R246). -/
def execVslideDn (d a : VRegN) (b : Reg) (q : Pred) (s : State) : Res :=
  pred q s (onLanes [d, a] s (putElems d (slideElems false (s.vReg a) (s.gReg b) s.vl) s))

/-! ### Reductions (R77, R247) -/

/-- S(i, 2^k) of the pairwise tree: an absent argument leaves the other unchanged. -/
def pairTree (op : Elem → Elem → Elem) (es : List Elem) : Nat → Nat → Option Elem
  | 0, i => es[i]?
  | k + 1, i =>
    match pairTree op es k i, pairTree op es k (i + 2 ^ k) with
    | some x, some y => some (op x y)
    | some x, none => some x
    | none, y => y

/-- One node: its flags join those of its arguments; a poisoned argument poisons it. -/
def nodeOf (bad : Nat) (f : Nat → Nat → Nat × Word) (x y : Elem) : Elem :=
  let e := elemOf (x.poison || y.poison) bad (f x.val.toNat y.val.toNat)
  { e with flags := e.flags ||| x.flags ||| y.flags }

/-- The reduction of the elements below VL, in every element below VL; its flags count once. -/
def reduceElems (bad : Nat) (f : Nat → Nat → Nat × Word) (x : VReg) (vl : Nat) : List Elem :=
  let es := map1 bad (fun x => (x, 0)) x vl
  match pairTree (nodeOf bad f) es 4 0 with
  | some e => List.replicate vl e
  | none => []

/-- VRSUM's operation. -/
def sumOp (k : RedKind) (nmode : Word) (x y : Nat) : Nat × Word :=
  match k with
  | .f32 r => floatElem faddV .f32 (modeOf r nmode) x y
  | .i32 => ((x + y) % 2 ^ 32, 0)
def sumBad (k : RedKind) : Nat :=
  match k with
  | .f32 _ => BFmt.nan .f32
  | .i32 => 0
/-- VRSUM (R247). -/
def execVrsum (d a : VRegN) (k : RedKind) (q : Pred) (s : State) : Res :=
  pred q s (onLanes [d, a] s (putElems d (reduceElems (sumBad k) (sumOp k s.me.nmode) (s.vReg a) s.vl) s))
/-- VRMAX (R247). -/
def execVrmax (d a : VRegN) (i32 : Bool) (q : Pred) (s : State) : Res :=
  pred q s (onLanes [d, a] s
    (putElems d (if i32 then reduceElems 0 (plainElem (maxElem false)) (s.vReg a) s.vl
      else reduceElems (BFmt.nan .f32) (minmaxElem true .f32) (s.vReg a) s.vl) s))

/-! ### The fused softmax (R251, R252) -/

/-- The registers of a fused softmax. -/
structure Softmax where
  vm : VRegN
  vx : VRegN
  vt : VRegN
  vs : VRegN
  deriving DecidableEq, Repr

/-- The word at an address, as fetch sees it without effect. -/
def State.peekWord (s : State) (c : CoreId) (pc : Word) : Option InstrWord :=
  match s.peekHalf c pc, s.peekHalf c (pc + 2) with
  | some h, some l => if lengthOf h = 4 then some (h ++ l) else none
  | _, _ => none

/-- The instruction word at an address. -/
def State.peekInstr (s : State) (c : CoreId) (pc : Word) : Option Instr := (s.peekWord c pc).bind decode32

/-- A loop-back would fall after the instruction at an address of 4 bytes. -/
def Ctx.loopsAt (x : Ctx) (pc : Word) : Bool :=
  x.loops.toList.any fun l =>
    decide (1 < l.lc.toNat) && l.ls.getLsbD 0 == x.tr.priv.getLsbD 0 && (l.le &&& ~~~1#64) == pc + 4

/-- The first three instructions of R251 at the pc of a context; the fourth's vs is still open. -/
def State.softmaxAt (s : State) (c : CoreId) (n : CtxId) : Option Softmax :=
  let x := s.ctx c n
  let q0 : Pred := ⟨0, false⟩
  if x.slots != 0 || x.loopsAt x.pc || x.loopsAt (x.pc + 4) || x.loopsAt (x.pc + 8) then none
  else match s.peekInstr c x.pc, s.peekInstr c (x.pc + 4), s.peekInstr c (x.pc + 8) with
    | some (.vrmax vm vx false p1), some (.vfsub vt vx' vm' .f32 .none p2), some (.vexp vt1 vt2 p3) =>
      if p1 == q0 && p2 == q0 && p3 == q0 && vx' == vx && vm' == vm && vt1 == vt && vt2 == vt && vm != vx then
        some ⟨vm, vx, vt, 0⟩
      else none
    | _, _, _ => none

/-- The four in sequence, as one retire. -/
def fuse (m : Softmax) (s : State) : Res :=
  match execVrmax m.vm m.vx false always s with
  | .next s1 =>
    (match execVfsub m.vt m.vx m.vm .f32 .none always s1 with
     | .next s2 =>
       (match execVexp m.vt m.vt always s2 with
        | .next s3 => execVrsum m.vs m.vt (.f32 .none) always s3
        | r => r)
     | r => r)
  | r => r

/-- The address of the halfword of a 4-byte instruction that cannot be fetched. -/
def State.wordFault (s : State) (c : CoreId) (pc : Word) : Option Word :=
  match s.peekHalf c pc with
  | none => some pc
  | some h => if lengthOf h = 4 && (s.peekHalf c (pc + 2)).isNone then some (pc + 2) else none

/-- The first trap of the instructions of a sequence, by the v registers each names, `k` of them issued before: the limit of an
open packet (R377), then the lane rule. -/
def Ctx.seqTrap (x : Ctx) : Nat → List (List VRegN) → Option (Word × Word)
  | _, [] => none
  | k, rs :: rest =>
    match (x.packet.filter fun p => decide (64 ≤ p.issued + k)), x.laneFault rs with
    | some p, _ => some (cPacket, p.pko)
    | none, some v => some (cLane, v)
    | none, none => Ctx.seqTrap x (k + 1) rest

/-- Four more instructions issued while a packet is open (R377). -/
def Ctx.countFour (x : Ctx) : Ctx := { x with packet := x.packet.map fun p => { p with issued := p.issued + 4 } }

/-- What stands at the pc of a context: four instructions that fuse (R251), or three of them and an address of the fourth that
cannot be fetched (R252). -/
def State.softmaxFour (s : State) (c : CoreId) (n : CtxId) : Option (Word ⊕ Softmax) :=
  let x := s.ctx c n
  let straight := (x.npc.isNone || x.npc == some (x.pc + 4)) && (x.nnpc.isNone || x.nnpc == some (x.pc + 8))
  match (if straight then s.softmaxAt c n else none) with
  | none => none
  | some m =>
    match s.wordFault c (x.pc + 12), s.peekInstr c (x.pc + 12) with
    | some a, _ => some (.inl a)
    | none, some (.vrsum vs vt (.f32 .none) p) => if vt == m.vt && p == always then some (.inr { m with vs := vs }) else none
    | none, _ => none

/-- Whether a register of the four is still to land: they issue in one cycle, so the first of them waits too (R251). -/
def Softmax.waits (m : Softmax) (x : Ctx) : Bool := x.waitsFor [.v m.vm, .v m.vx, .v m.vt, .v m.vs]

/-- FUSED_SOFTMAX (R251): at the pc of the context that the step names. A trap of any of the four is the first's, with
no effect of any (R252); a fetch fault of the fourth is reported before any other (DESIGN CHOICE, log 69). -/
def execFusedSoftmax (s : State) : Res :=
  let c := s.ev.core
  let n := s.ev.ctx
  let x := s.ctx c n
  let s := { s with cur := ⟨c, n⟩ }
  match s.softmaxFour c n with
  | none => .refused .eventDisabled
  | some q =>
    guardEvent (x.st == .ready)
      (match q with
       | .inl a => trap cFetch a s
       | .inr m =>
         guardEvent (!m.waits x)
           (match x.seqTrap 0 [[m.vm, m.vx], [m.vt, m.vx, m.vm], [m.vt, m.vt], [m.vs, m.vt]] with
            | some (cause, v) => trap cause v s
            | none => fuse m (if x.packet.isSome then s.setMe x.countFour else s)))

end Sys2Proof.Machine
end

