-- ==== Sys2Proof/Machine/VectorMemory.lean ====
section
/-! DEFINITION. Vector memory instructions: 10 R248 to R250, 08 R188, R201, 12 R298. -/

namespace Sys2Proof.Machine

/-! ### Element addresses (R248) -/

/-- One element of an access: its address, `none` for a poisoned address, with the register number that is to blame. -/
abbrev ElemAddr := Option Word

/-- The window of the address map in which an address lies: 0 for translated space, `none` for a hole (R185). -/
def windowOf (a : Nat) : Option Nat :=
  if a < 0xFF0000000000 then some 0
  else if 0xFFFFFFFFE000 ≤ a && a < 2 ^ 48 then some 1
  else if 0xFFFFFFFFD000 ≤ a && a < 0xFFFFFFFFD200 then some 2
  else if 0xFFFFFFFFC000 ≤ a && a < 0xFFFFFFFFC400 then some 3
  else if 0xFFFFFFF00000 ≤ a && a < 0xFFFFFFF10000 then some 4
  else if 0xFFFFFFE00000 ≤ a && a < 0xFFFFFFE08000 then some 5
  else if 0xFF0000000000 ≤ a && a < 0xFF0080000000 then some 6
  else none

/-- The addresses that are clean. -/
def cleanAddrs (as : List ElemAddr) : List Word := as.filterMap id

/-- The lowest of some addresses. -/
def lowest : List Word → Word
  | [] => 0
  | [a] => a
  | a :: r => let b := lowest r; if b < a then b else a

/-- Steps 2 and 3 of R249: the trap of an access as a whole, if any. -/
def wholeFault (as : List ElemAddr) : Option (Word × Word) :=
  let live := cleanAddrs as
  match live.find? fun a => a.toNat % 4 != 0 with
  | some a => some (cMisalign, a)
  | none =>
    match live with
    | [] => none
    | a :: _ =>
      let w := windowOf a.toNat
      if w.isSome && live.all fun b => windowOf b.toNat == w then none else some (cTrans, lowest live)

/-- Where an element leads (R186). -/
def State.reachV (s : State) (a : Acc) (va : Word) : Reach :=
  s.reachT s.cur.core s.myCore.bind.tenant ⟨a, 4, true, s.isUser⟩ va

/-- The places of a load's elements: `none` gives Poison(0). With `whole`, a fault in translated space poisons all. -/
def State.loadPlaces (s : State) (whole : Bool) (as : List ElemAddr) : List (Option Place) :=
  let ps := as.map fun a => a.bind fun a => match s.reachV .load a with | .place p => some p | _ => none
  let translated := as.any fun a => (a.map fun a => decide (a.toNat < 0xFF0000000000)).getD false
  if whole && translated && ps.any Option.isNone then ps.map fun _ => none else ps

/-- The places of a store's elements, or the first element's fate as a trap (R249). -/
def State.storePlaces (s : State) : List Word → (Option (Word × Word)) ⊕ List Place
  | [] => .inr []
  | a :: r =>
    match s.reachV .store a with
    | .place p => (match s.storePlaces r with | .inr ps => .inr (p :: ps) | e => e)
    | .transFault => .inl (some (cTrans, a))
    | .rightsFault => .inl (some (cRights, a))
    | .peerFault n => .inl (some (cPeer, n.setWidth 64))

/-- Note the use of every page, in the order of their last elements (R397). -/
def State.touchAll (s : State) (as : List ElemAddr) : State :=
  (((cleanAddrs as).map fun (a : Word) => a >>> 12).reverse.eraseDups.reverse).foldl
    (fun s a => s.touch s.cur.core s.myCore.bind.tenant ((a : Word) <<< 12)) s

/-- A push or pull of a FIFO bank: every element in the push or the pull window of one bank, from an 8-byte address, an
even number of them (R201, R250). -/
def State.ringOf (s : State) (push : Bool) (as : List ElemAddr) : Option (Nat × Nat) :=
  match as with
  | some a :: _ =>
    let off := a.toNat - 0xFFFFFFF00000
    let lo := if push then 0 else 0x400
    let n := 4 * as.length
    if 0xFFFFFFF00000 ≤ a.toNat && off < 0x10000 && s.myCluster.mode (off / 4096) == .fifo && off % 8 = 0 &&
        as.length % 2 = 0 && lo ≤ off % 4096 && off % 4096 + n ≤ lo + 0x400 then
      some (clusterOf s.cur.core, off / 4096)
    else none
  | _ => none

/-- An element of a FIFO bank that is no push or pull takes the fate of R186. -/
def State.notRing (s : State) (p : Option Place) : Option Place := p.bind fun p => if (s.fifoBank p).isSome then none else some p

/-! ### Timeline counter TLV (R298) -/

/-- The next number of TLV is taken. -/
def Core.takeTlv (k : Core) : Core := { k with tlv := k.tlv.issue 1 }
def Core.doneTlv (k : Core) (n : Nat) : Core := { k with tlv := k.tlv.complete n }
/-- A vector access that is complete when it issues. -/
def State.tlvNow (s : State) : State := s.modMyCore fun k => k.takeTlv.doneTlv k.tlv.nextNum

/-! ### Loads -/

/-- The elements of a load. -/
def loadedElems (got : List (Option PWord)) : List Elem :=
  got.map fun v => match v with
    | some v => ⟨v.val.setWidth 32, v.poison, 0⟩
    | none => ⟨0, true, 0⟩

/-- Pulled entries as elements, two for each entry (R250). -/
def ringElems (es : List PWord) : List Elem :=
  es.flatMap fun e => [⟨e.val.setWidth 32, e.poison, 0⟩, ⟨e.val.extractLsb' 32 32, e.poison, 0⟩]

/-- Write a load's elements, complete its number, and act on its acquire. -/
def loadDone (d : VRegN) (es : List Elem) (acq : Option Scope) (s : State) : Res :=
  putElems d es (s.tlvNow.acquired acq)

/-- A vector load of some places (R250): at once from the own local store, otherwise element by element as replies
arrive. -/
def loadElems (i : Instr) (d : VRegN) (places : List (Option Place)) (ring : Option (Nat × Nat)) (acq : Option Scope)
    (s : State) : Res :=
  let ps := places.filterMap id
  let c := s.cur.core
  let waits := ps.any fun p => s.mark c p 4 == .held || s.mustWait c s.cur.ctx s.seq p false
  if s.acquiring c s.cur.ctx || ps.any (s.bankBusy c) || 16 ≤ s.myCore.loadsOut then hold s
  else match ring with
    | some (cl, b) =>
      if waits then hold s
      else onFifo i false (places.length / 2) cl b s fun s =>
        let (es, s1) := s.pull cl b (places.length / 2)
        loadDone d (ringElems es) acq s1
    | none =>
      if ps.all s.isOwn && !waits then
        loadDone d (loadedElems (places.map fun p => p.bind fun p =>
          if s.mark c p 4 == .frozen then none else some (s.serve c p 4).1)) acq s
      else
        let e : VecEntry := ⟨s.seq, s.myCore.tlv.nextNum, s.cur.ctx, true, d, places,
          places.map fun p => if p.isNone then some PWord.poison0 else none, acq⟩
        done (((s.modMyCore fun k => { k.takeTlv with work := { k.work with vecs := k.work.vecs ++ [e] } }).modMe
          (·.await (.v d) s.seq)).nextSeq)

/-- A vector load (R249): `whole` for VLD and VLDS; `rs` the v registers named. -/
def vload (i : Instr) (d : VRegN) (rs : List VRegN) (whole contig : Bool) (as : List ElemAddr) (acq : Option Scope)
    (s : State) : Res :=
  onLanes rs s
    (if s.vl = 0 then done s
     else match wholeFault as with
       | some (c, v) => trap c v s
       | none =>
         let ring := if contig then s.ringOf false as else none
         let ps := s.loadPlaces whole as
         loadElems i d (if ring.isSome then ps else ps.map s.notRing) ring acq (s.touchAll as))

/-! ### Stores -/

/-- The elements of a store become entries of the port, under the number of the access. -/
def State.portElems (s : State) (num : Nat) : List (Place × Elem) → State
  | [] => s
  | (p, e) :: r =>
    let x : PortEntry := ⟨s.seq, s.cur.ctx, p, 4, ⟨e.val.setWidth 64, e.poison⟩, .plain, none, false, some num,
      s.specTask s.cur.core, s.me.gen⟩
    State.portElems ((s.modMyCore fun k => { k with work := { k.work with port := k.work.port ++ [x] } }).nextSeq) num r

/-- Stored elements at once, in ascending order. -/
def State.writeElems (s : State) : List (Place × Elem) → State
  | [] => s
  | (p, e) :: r => State.writeElems (s.portWrite p 4 ⟨e.val.setWidth 64, e.poison⟩) r

/-- Entries of a push: two elements each. -/
def pushEntries : List Elem → List PWord
  | x :: y :: r => ⟨y.val ++ x.val, x.poison || y.poison⟩ :: pushEntries r
  | _ => []

/-- Retire a vector store: a poisoned element is reported after retire, the lowest first (R107, R250). -/
def storeDone (as : List Word) (es : List Elem) (s : State) : Res :=
  match (as.zip es).find? fun q => q.2.poison with
  | some (a, _) => trapAfter cPoisonStored a s
  | none => done s

/-- A vector store of some places (R250). -/
def storeElems (i : Instr) (as : List Word) (places : List Place) (es : List Elem) (ring : Option (Nat × Nat)) (s : State) :
    Res :=
  let c := s.cur.core
  let waits := places.any fun p => s.mark c p 4 == .held || s.mustWait c s.cur.ctx s.seq p true
  if 16 ≤ s.myCore.portUsed then hold s
  else match ring with
    | some (cl, b) =>
      if waits then hold s
      else onFifo i true (es.length / 2) cl b s fun s => storeDone as es ((s.push cl b (pushEntries es)).tlvNow)
    | none =>
      if places.all Place.isLs && !waits then storeDone as es ((s.writeElems (places.zip es)).tlvNow)
      else
        let num := s.myCore.tlv.nextNum
        let e : VecEntry := ⟨s.seq, num, s.cur.ctx, false, 0, places.map some, [], none⟩
        storeDone as es (((s.modMyCore fun k =>
          { k.takeTlv with work := { k.work with vecs := k.work.vecs ++ [e] } }).nextSeq).portElems num (places.zip es))

/-- The elements of a register below VL. -/
def State.elems (s : State) (r : VRegN) : List Elem :=
  let x := s.vReg r
  (List.range s.vl).map fun i => ⟨x.elem i, x.bad i, 0⟩

/-- A vector store (R249). -/
def vstore (i : Instr) (src : VRegN) (rs : List VRegN) (contig : Bool) (bad : Option Nat) (as : List Word)
    (rel : Option Scope) (s : State) : Res :=
  onLanes rs s
    (if s.vl = 0 then done s
     else match bad with
       | some r => trap cPoisonCtl (BitVec.ofNat 64 r) s
       | none =>
         match wholeFault (as.map some) with
         | some (c, v) => trap c v s
         | none =>
           let ring := if contig then s.ringOf true (as.map some) else none
           match s.storePlaces as with
           | .inl f => (match f with | some (c, v) => trap c v (s.touchAll (as.map some)) | none => done s)
           | .inr ps =>
             match (if ring.isSome then none else (as.zip ps).find? fun q => (s.fifoBank q.2).isSome) with
             | some (a, _) => trap cRights a s
             | none =>
               if s.acquiring s.cur.core s.cur.ctx || ps.any (s.bankBusy s.cur.core) then hold s
               else withRelease rel (s.touchAll (as.map some)) fun s => storeElems i as ps (s.elems src) ring s)

/-! ### The six instructions (R248) -/

/-- Addresses of VLD and VST. -/
def State.unitAddrs (s : State) (base : Reg) (imm : BitVec 9) : List Word :=
  (List.range s.vl).map fun i => (s.gReg base).val + (imm.signExtend 64 <<< 6) + BitVec.ofNat 64 (4 * i)
/-- Addresses of VLDS and VSTS. -/
def State.strideAddrs (s : State) (base gs : Reg) : List Word :=
  (List.range s.vl).map fun i => (s.gReg base).val + BitVec.ofNat 64 i * (s.gReg gs).val
/-- Addresses of VGATH and VSCAT. -/
def State.indexAddrs (s : State) (base : Reg) (x : VRegN) : List Word :=
  (List.range s.vl).map fun i => (s.gReg base).val + (((s.vReg x).elem i).signExtend 64 <<< 2)

/-- Addresses of a load whose base or stride may be poisoned. -/
def loadAddrs (poison : Bool) (as : List Word) : List ElemAddr := if poison then as.map fun _ => none else as.map some
/-- The number of the first poisoned register. -/
def firstBad (rs : List (Reg × PWord)) : Option Nat := (rs.find? fun r => r.2.poison).map fun r => r.1.val

/-- VLD (R248). -/
def execVld (d : VRegN) (base : Reg) (sc : Scope) (o : LOrder) (imm : BitVec 9) (s : State) : Res :=
  vload (.vld d base sc o imm) d [d] true true (loadAddrs (s.gReg base).poison (s.unitAddrs base imm)) (LOrder.scope o sc) s
/-- VST (R248). -/
def execVst (src : VRegN) (base : Reg) (sc : Scope) (o : SOrder) (imm : BitVec 9) (s : State) : Res :=
  vstore (.vst src base sc o imm) src [src] true (firstBad [(base, s.gReg base)]) (s.unitAddrs base imm) (SOrder.scope o sc) s
/-- VLDS (R248). -/
def execVlds (d : VRegN) (base : Reg) (sc : Scope) (o : LOrder) (gs : Reg) (s : State) : Res :=
  vload (.vlds d base sc o gs) d [d] true false
    (loadAddrs ((s.gReg base).poison || (s.gReg gs).poison) (s.strideAddrs base gs)) (LOrder.scope o sc) s
/-- VSTS (R248). -/
def execVsts (src : VRegN) (base : Reg) (sc : Scope) (o : SOrder) (gs : Reg) (s : State) : Res :=
  vstore (.vsts src base sc o gs) src [src] false (firstBad [(base, s.gReg base), (gs, s.gReg gs)]) (s.strideAddrs base gs)
    (SOrder.scope o sc) s
/-- VGATH (R248): a poisoned index poisons its element. -/
def execVgath (d : VRegN) (base : Reg) (sc : Scope) (o : LOrder) (x : VRegN) (s : State) : Res :=
  let as := (s.indexAddrs base x).zipIdx.map fun (a, i) => if (s.gReg base).poison || (s.vReg x).bad i then none else some a
  vload (.vgath d base sc o x) d [d, x] false false as (LOrder.scope o sc) s
/-- VSCAT (R248): a poisoned index traps. -/
def execVscat (src : VRegN) (base : Reg) (sc : Scope) (o : SOrder) (x : VRegN) (s : State) : Res :=
  let idx := (List.range s.vl).any fun i => (s.vReg x).bad i
  let bad := (firstBad [(base, s.gReg base)]).or (if idx then some x.val else none)
  vstore (.vscat src base sc o x) src [src, x] false bad (s.indexAddrs base x) (SOrder.scope o sc) s

end Sys2Proof.Machine
end

