-- ==== Sys2Proof/Machine/MemEvents.lean ====
section
/-! DEFINITION. Accesses on their way: what happens at homes, banks and ports, and how replies land: 07 R159 to R178,
08 R193 to R211, 12 R289, R290, R298. -/

namespace Sys2Proof.Machine

/-! ### Time (R159, R160, R165 to R167) -/

/-- HOME_TICK_APPLY (R165): the named stores of this tick at slice `unit`, before anything else of the tick acts there. -/
def execHomeTickApply (s : State) : Res :=
  guardEvent ((s.slice s.ev.unit).applied != some s.time) (.next (s.applyDue s.ev.unit))

/-- Every home's named stores of this tick. -/
def State.applyAll (s : State) : State :=
  s.sliceNums.foldl (fun s sl => if (s.slice sl).applied != some s.time then s.applyDue sl else s) s

/-- The value of a place as of a tick that closes, with the held stores of the reader's task (R167, R347). A line that the reader's
cluster filled meanwhile is not served to the reader again (R345). -/
def State.closeRead (s : State) (c : CoreId) (p : Place) : PWord × State :=
  match p with
  | .phys pa _ => (if c == mgmtCore then s else s.markBehind (clusterOf c) (posOf c) pa).serveOwn (s.specTask c) pa
  | _ => s.peerRead

/-- A message taken off the fabric. -/
def State.takeMsg (s : State) (id : Nat) : State :=
  { s with fabric := s.fabric.filter fun m => m.1 != id, routed := s.routed.filter (· != id) }
def State.msg (s : State) (id : Nat) : Option Msg := (s.fabric.find? fun m => m.1 == id).map (·.2)

/-- A home of this device answers a peer's access, message `id`. -/
def State.answerPeer (s : State) (id : Nat) (o : Origin) (a : PeerAnswer) : State :=
  let s1 := s.takeMsg id
  { s1 with fabric := s1.fabric ++ [(s1.seq, Msg.answer o a)] }.nextSeq

/-- Peers' timed loads that wait for this tick are answered with its last values (R167, R184). -/
def State.closePeers (s : State) : State :=
  s.fabric.foldl (fun s m =>
    match m.2 with
    | .access o pa _ (.tld t) true =>
      if t == s.time then let (v, s1) := s.serveUnit pa; s1.answerPeer m.1 o (.value v false) else s
    | _ => s) s

/-- Reads that wait for this tick are answered with its last values (R167). -/
def State.closeTick (s : State) : State :=
  (s.cores.foldl (fun s e =>
    (e.2.work.loads.filter fun l => l.reply.isNone && l.kind == .timedWait s.time).foldl (fun s l =>
      let (v, s1) := s.closeRead e.1 l.place
      s1.modCore e.1 fun k => k.setLoad l.id fun l => some { l with reply := some v }) s) s).closePeers.closeFoots

/-- TICK (R159): `ok` names a core whose copy of the time base moves on ahead of the homes' (R160); otherwise the tick
closes for all. -/
def execTick (s : State) : Res :=
  if s.ev.ok then
    guardEvent (!(s.core s.ev.core).lead) (.next (s.modCore s.ev.core fun k => { k with lead := true }))
  else
    let s1 := s.applyAll.closeTick
    .next { s1 with time := s1.time + 1, cores := s1.cores.map fun e => (e.1, { e.2 with lead := false }) }

/-- SHADOW_ENTRY_DISCARD (R166): what slice `unit` keeps of changes 256 ticks ago or earlier. -/
def execShadowEntryDiscard (s : State) : Res :=
  let k := s.slice s.ev.unit
  let old := fun (t : Word) => decide (256 ≤ ahead s.time t)
  guardEvent (k.shadow.any (fun e => old e.tick) || k.ghost.any fun e => old e.tick)
    (.next (s.setSlice s.ev.unit { k with shadow := k.shadow.filter fun e => !old e.tick
                                          ghost := k.ghost.filter fun e => !old e.tick
                                          lost := k.lost.filter fun e => !old e.2 }))

/-! ### Accesses of peers (R184, R190, R345, R359) -/

/-- Whether an earlier access of a peer's context to the same unit has not been performed. -/
def State.behindPeer (s : State) (id : Nat) (o : Origin) (pa : Nat) : Bool :=
  s.fabric.any fun m => decide (m.1 < id) && (match m.2 with
    | .access o1 pa1 _ _ false => o1 == o && pa1 / 8 == pa / 8
    | _ => false)

/-- Message `idx`, a peer's access that reaches its home: its sender, address, timed flag and request. -/
def onPeer (s : State) (k : Origin → Nat → Hist → PeerReq → Res) : Res :=
  match s.msg s.ev.idx with
  | some (.access o pa timed r false) =>
    guardEvent (!isHole pa && !s.behindPeer s.ev.idx o pa) (k o pa (if timed then .timed else .untimed) r)
  | _ => .refused .eventDisabled

/-- A peer's plain read (R190). -/
def peerRead (s : State) : Res := onPeer s fun o pa _ r =>
  match r with
  | .read n => let (u, s1) := s.serveUnit pa; .next (s1.answerPeer s.ev.idx o (.value (subUnit u (pa % 8) n) false))
  | _ => .refused .eventDisabled

/-- A speculative task of a peer, by the peer's number and its own: no sector of this device has such a number. -/
def peerTask (o : Origin) (task : Nat) : TaskRef := ⟨128 + o.peer.toNat, task, 0⟩

/-- A write of a peer's speculative task, or of one whose fate the peer knows by now, reaches its home: it is held, released on
arrival, or purged (R178, R327). -/
def State.arriveHeld (s : State) (e : TqEntry) (hold : PeerHold) : Arrival × State :=
  match hold with
  | .no => (.notYet, s)
  | .spec t => s.arriveTimed { e with held := some (peerTask e.origin t) } (e.instant.getD 0)
  | .kept => s.arriveKept e
  | .purged => (.onTime, s)

/-- The answer to a write that a home holds: on time, or refused (R176, R178). -/
def State.answerHeld (s : State) (id : Nat) (o : Origin) (r : Arrival × State) : Res :=
  match r.1 with
  | .notYet => .refused .eventDisabled
  | .refused => .next (s.answerPeer id o (.stored false false true))
  | _ => .next (r.2.answerPeer id o (.stored false false false))

/-- A peer's plain store, write-back, copy write or reply write (R165 step 2); one of a speculative task is held (R327). -/
def peerWrite (s : State) : Res := onPeer s fun o pa h r =>
  match r with
  | .write n v .no => .next ((s.arriveWrite pa n v h).answerPeer s.ev.idx o .done)
  | .write n v hold => s.answerHeld s.ev.idx o (s.arriveHeld ⟨s.ev.idx, pa, h, n, v, none, none, none, s.time, [], o, false⟩ hold)
  | _ => .refused .eventDisabled

/-- A peer's returning atomic (R206). -/
def peerAtom (s : State) : Res := onPeer s fun o pa h r =>
  match r with
  | .atom op n x =>
    let (old, s1) := s.arriveAtom pa n op x h
    .next (s1.answerPeer s.ev.idx o (.value ⟨old.val, old.poison || x.poison⟩ false))
  | _ => .refused .eventDisabled

/-- A peer's accumulation merge (R211), or an accumulation of a speculative task, which is held (R210). -/
def peerMerge (s : State) : Res := onPeer s fun o pa h r =>
  match r with
  | .merge op n x .no => .next ((s.arriveAtom pa n op x h).2.answerPeer s.ev.idx o .done)
  | .merge op n x hold =>
    s.answerHeld s.ev.idx o (s.arriveHeld ⟨s.ev.idx, pa, h, n, x, none, some op, none, s.time, [], o, false⟩ hold)
  | _ => .refused .eventDisabled

/-- A peer's timed load: its instant is one of this home's time base (R184). -/
def peerTld (s : State) : Res := onPeer s fun o pa h r =>
  match r with
  | .tld t =>
    if laterThan s.time t then
      let (u, stale, s1) := s.readAsOf pa (h == .timed) t
      .next ((s1.countView pa).answerPeer s.ev.idx o (.value u stale))
    else .next { s with fabric := s.fabric.map fun m => if m.1 == s.ev.idx then
      (m.1, match m.2 with
        | .access o pa f r _ => Msg.access o pa f r true
        | x => x) else m }
  | _ => .refused .eventDisabled

/-! ### Loads (R193, R249, R290) -/

/-- Whether an earlier element of a vector load that shares the unit of element `i`, or lies in the local store like it, has
not been read (R345, R349, R365). -/
def State.behindElem (s : State) (e : VecEntry) (i : Nat) (p : Place) : Bool :=
  (List.range i).any fun j => (e.got.getD j none).isNone && (match e.places.getD j none with
    | some q => s.sameUnit p q || (p.isLs && q.isLs)
    | none => false)

/-- Read element `i` of a vector load, when nothing stands before it; `none` when something does. -/
def State.vecRead (s : State) (c : CoreId) (e : VecEntry) (i : Nat) : Option (VecEntry × State) :=
  match e.places.getD i none, (e.got.getD i none).isSome with
  | some p, false =>
    let m := s.mark c p 4
    if m == .held || s.mustWait c e.ctx e.id p false || s.behindElem e i p || (m == .free && s.loadWaits c p 4) then none
    else
      let (v, s1) := if m == .frozen then (PWord.poison0, s) else s.serve c p 4
      some ({ e with got := e.got.set i (some v) }, s1)
  | _, _ => some (e, s)

/-- Replace the vector entry of a number, or remove it. -/
def Core.setVec (k : Core) (id : Nat) (f : VecEntry → Option VecEntry) : Core :=
  { k with work := { k.work with vecs := k.work.vecs.filterMap fun e => if e.id == id then f e else some e } }
def Core.vecOf (k : Core) (id : Nat) : Option VecEntry := k.work.vecs.find? (·.id == id)

/-- Land a load of the core, or serve it where its word is kept. -/
def landAny (c : CoreId) (e : LoadEntry) (s : State) : Res :=
  match e.reply with
  | some v =>
    match e.kind, s.mark c e.place e.n with
    | .timedWait _, .held | .timed _, .held => .refused .eventDisabled
    | .timedWait _, .frozen | .timed _, .frozen => .next (s.landLoad c { e with stale := false } PWord.poison0)
    | _, _ => .next (s.landLoad c e v)
  | none =>
    guardEvent (e.kind == .plain && !s.mustWait c e.ctx e.id e.place false)
      (match e.place with
       | .mwin off => if off = 0x20 then .refused .eventDisabled else .next (s.landLoad c e ⟨s.mwinWord off, false⟩)
       | _ => landPlain c e s)

/-- LOAD_REPLY_LAND (R193): load `idx` of `core`; with `ok` one element, numbered `w`, of its vector load `idx` (R250); with
`ok2` message `idx`, a peer's read, is served. -/
def execLoadReplyLand (s : State) : Res :=
  let c := s.ev.core
  if s.ev.ok2 then peerRead s
  else if s.ev.ok then
    match (s.core c).vecOf s.ev.idx with
    | none => .refused .eventDisabled
    | some e =>
      match s.vecRead c e s.ev.w.toNat with
      | none => .refused .eventDisabled
      | some (e1, s1) =>
        guardEvent (e.load && e1 != e) (.next (s1.modCore c fun k => k.setVec e.id fun _ => some e1))
  else match (s.core c).loadOf s.ev.idx with
    | none => .refused .eventDisabled
    | some e => landAny c e s

/-- Read every element that is still to be read; `none` when one must wait. -/
def State.vecReadAll (s : State) (c : CoreId) (e : VecEntry) : List Nat → Option (VecEntry × State)
  | [] => some (e, s)
  | i :: r => (s.vecRead c e i).bind fun x => State.vecReadAll x.2 c x.1 r

/-- A vector load's elements reach its register, if no later instruction has written it. -/
def Ctx.landV (x : Ctx) (e : VecEntry) : Ctx :=
  if x.pend.any (· == (.v e.reg, e.id)) then x.setV e.reg (x.v[e.reg].put (loadedElems e.got)) else x

/-- The dirty bytes that a vector store of core `c` left in the cluster cache reach their homes: only then is every element
performed there (R298). -/
def State.performVec (s : State) (c : CoreId) (e : VecEntry) : State :=
  e.places.foldl (fun s p => match p.bind Place.cacheLine with
    | some (peer, line) => s.cleanLine (clusterOf c) peer line
    | none => s) s

/-- VECTOR_MEMORY_COMPLETE (R250, R298): vector access `idx` of `core`. -/
def execVectorMemoryComplete (s : State) : Res :=
  let c := s.ev.core
  match (s.core c).vecOf s.ev.idx with
  | none => .refused .eventDisabled
  | some e =>
    if e.load then
      match s.vecReadAll c e (List.range e.places.length) with
      | none => .refused .eventDisabled
      | some (e1, s1) =>
        let s2 := s1.modCore c fun k => ((k.setVec e.id fun _ => none).setCtx e.ctx ((k.ctx e.ctx).landV e1)).doneTlv e.num
        .next (match e.acq with | some sc => s2.acquireActs c sc | none => s2)
    else
      guardEvent (!((s.core c).work.port.any fun p => p.tlv == some e.num) && !e.places.any fun p => p.any s.linkWaits)
        (.next ((if c == mgmtCore then s else s.performVec c e).modCore c fun k => (k.setVec e.id fun _ => none).doneTlv e.num))

/-! ### Timed loads (R167, R170) -/

/-- A timed load reaches its home: its value, or that it waits for its tick to close. -/
def serveTimed (c : CoreId) (e : LoadEntry) (t : Word) (s : State) : Res :=
  let reply := fun (v : PWord) (stale : Bool) (s : State) =>
    Host.Outcome.next (s.modCore c fun k => k.setLoad e.id fun e => some { e with reply := some v, stale := stale })
  match s.mark c e.place e.n with
  | .held => .refused .eventDisabled
  | .frozen => reply PWord.poison0 false s
  | .free =>
    match e.place with
    | .phys pa timed =>
      let s0 := if c == mgmtCore then s else s.settleLine (clusterOf c) 0 (lineOf pa)
      if laterThan s0.time t then
        let (u, stale, s1) := s0.readAsOf pa timed t
        let k := s1.slice (sliceOfPa pa)
        reply (k.ownView (s1.specTask c) (pa / 8) (if stale then s1.time else t) u) stale (s1.countView pa)
      else .next (s0.modCore c fun k => k.setLoad e.id fun e => some { e with kind := .timedWait t })
    | p =>
      if s.linkWaits p then .refused .eventDisabled
      else let (v, s1) := s.peerRead; reply v (Config.freeBool s1.fresh) s1.nextFresh

/-- TLD_SERVE (R167): timed load `idx` of `core`; with `ok2` message `idx`, a peer's (R184). -/
def execTldServe (s : State) : Res :=
  let c := s.ev.core
  if s.ev.ok2 then peerTld s
  else match (s.core c).loadOf s.ev.idx with
  | none => .refused .eventDisabled
  | some e =>
    match e.kind with
    | .timed t => guardEvent (e.reply.isNone && !s.mustWait c e.ctx e.id e.place false) (serveTimed c e t s)
    | _ => .refused .eventDisabled

/-! ### Timed stores (R164, R173 to R178) -/

/-- The home's acknowledgement of a timed store sets out. -/
def State.sendAck (s : State) (c : CoreId) (e : PortEntry) (late drop : Bool) : State :=
  { s with fabric := s.fabric ++ [(s.seq, Msg.tstAck (s.core c).bind.task (s.lcnOf c) e.ctx e.gen late drop e.retried)] }.nextSeq

/-- A timed store to a view address is discarded and sets WERR (R401); late, it is logged and reported like any other. -/
def State.arriveView (s : State) (pa : Nat) (o : Origin) (drop : Bool) (t : Word) : Arrival × State :=
  let s1 := s.viewWrite pa
  if laterThan s.time t then
    (if drop then .dropped else .late,
     s1.setSlice (sliceOfPa pa) ((s1.slice (sliceOfPa pa)).logHusk pa t s.time (originWord o false drop)))
  else (.onTime, s1)

/-- A timed store of the port reaches its home; one that its task sent while speculative is held, also at a view address, where it is
discarded on release (R401), and one that is kept by then is released at once (R178). -/
def arriveStore (c : CoreId) (e : PortEntry) (t : Word) (s : State) : Res :=
  let refuse := fun (s : State) =>
    Host.Outcome.next (s.modCore c fun k => k.setPort e.id fun e => some { e with refused := some s.time, retried := true })
  let gone := fun (late drop : Bool) (s : State) =>
    Host.Outcome.next ((s.sendAck c e late drop).modCore c fun k => k.setPort e.id fun _ => none)
  match e.place with
  | .phys pa timed =>
    let s0 := if c == mgmtCore then s else s.settleLine (clusterOf c) 0 (lineOf pa)
    let entry := s0.heldEntry c e.ctx e.id pa 8 timed e.val (some t) none (s0.specTask c)
    (match (if e.held.isSome && (s0.specTask c).isNone then s0.arriveKept entry
            else if entry.held.isNone && !isHbm pa then s0.arriveView pa entry.origin entry.drop t
            else s0.arriveTimed entry t) with
      | (.refused, s1) => refuse s1
      | (.notYet, _) => .refused .eventDisabled
      | (.onTime, s1) => gone false false s1
      | (.late, s1) => gone true false s1
      | (.dropped, s1) => gone true true s1)
  | p =>
    if s.linkWaits p then .refused .eventDisabled else
    match s.ev.ack with
    | .onTime => gone false false s
    | .late => gone true false s
    | .dropped => gone true true s
    | .held => refuse s

/-- A timed store that may reach its home now, offered for the first time or again. -/
def offerStore (c : CoreId) (e : PortEntry) (s : State) : Res :=
  match e.kind with
  | .timed t =>
    if s.mustWait c e.ctx e.id e.place true || s.mark c e.place e.n == .held || s.behindRefused c e then .refused .eventDisabled
    else arriveStore c e t s
  | _ => .refused .eventDisabled

/-- What a peer's write becomes once the launch of its speculative task has resolved while the write was on its way (R178). -/
def resolvedReq (r : PeerReq) (task : Nat) (fate : PeerHold) : PeerReq :=
  match r with
  | .tst t v drop (.spec k) => if k = task then .tst t v drop fate else r
  | .write n v (.spec k) => if k = task then .write n v fate else r
  | .merge op n x (.spec k) => if k = task then .merge op n x fate else r
  | _ => r

/-- The launch of a peer's speculative task resolves: what homes of this device hold of the task is released or purged, and what is
still on its way is settled so on arrival (R178). -/
def State.resolvePeer (s : State) (o : Origin) (task : Nat) (keep : Bool) : State :=
  let s1 := if keep then s.releaseTask (peerTask o task) else s.purgeHeld (peerTask o task)
  { s1 with fabric := s1.fabric.map fun m => (m.1, match m.2 with
      | .access o1 pa f r w => .access o1 pa f (if o1.peer == o.peer then resolvedReq r task (if keep then .kept else .purged) else r) w
      | x => x) }

/-- A peer's timed store at its home: the instant it brings is one of this home's time base (R184); refused, it stays with
its sender, which offers it again (R176). One of a speculative task is held (R178), and with it comes word of the resolution. -/
def peerTst (s : State) : Res := onPeer s fun o pa h r =>
  match r with
  | .tst t v drop hold =>
    let entry : TqEntry := ⟨s.ev.idx, pa, h, 8, v, some t, none, none, s.time, [], o, drop⟩
    (match hold with
     | .no =>
       (match (if isHbm pa then s.arriveTimed entry t else s.arriveView pa o drop t) with
        | (.notYet, _) => .refused .eventDisabled
        | (a, s1) => .next (s1.answerPeer s.ev.idx o (.stored (a == .late || a == .dropped) (a == .dropped) (a == .refused))))
     | _ => s.answerHeld s.ev.idx o (s.arriveHeld entry hold))
  | .resolve task keep => .next ((s.resolvePeer o task keep).answerPeer s.ev.idx o .done)
  | _ => .refused .eventDisabled

/-- TIMED_STORE_ARRIVE (R164): entry `idx` of the port of `core`, to which a peer's home answers with `ack`; with `ok2`
message `idx`, a peer's timed store (R184). -/
def execTimedStoreArrive (s : State) : Res :=
  let c := s.ev.core
  if s.ev.ok2 then peerTst s
  else match (s.core c).portOf s.ev.idx with
  | none => .refused .eventDisabled
  | some e => guardEvent e.refused.isNone (offerStore c e s)

/-- An acknowledgement reaches a context (R174). -/
def Ctx.acked (x : Ctx) (late drop retry : Bool) : Ctx :=
  let n := Nat.min 0xFFFF ((x.tstat.extractLsb' 32 16).toNat + 1)
  let t := x.tstat ||| (if late then 1 else 0) ||| (if drop then 4 else 0) ||| (if retry then 8 else 0)
  if late then { x with tstat := (t &&& 0xF) ||| BitVec.ofNat 64 (n * 2 ^ 32), ipend := x.ipend ||| 4 } else { x with tstat := t }

/-- The context that takes an acknowledgement of context `n` when `gen` used it: context 0 for a helper that has ended, also
when its number has a new user (R181). -/
def Core.ackCtx (k : Core) (n : CtxId) (gen : Nat) : CtxId := if (k.ctx n).live && (k.ctx n).gen == gen then n else 0

/-- Deliver an acknowledgement to its task: on its core, or to the task engine while it is displaced (R119, R181). -/
def State.deliverAck (s : State) (t : Option TaskRef) (who : Nat) (n : CtxId) (gen : Nat) (late drop retry : Bool) : State :=
  let c := s.physOf who
  if (s.core c).bind.task == t then
    s.modCore c fun k => let m := k.ackCtx n gen; k.setCtx m ((k.ctx m).acked late drop retry)
  else match t with
    | none => s
    | some r => s.modTask r fun k => if k.phase == .displaced then { k with acks := k.acks ++ [(n, gen, late, drop, retry)] } else k

/-- TIMED_STORE_ACK (R174): message `idx`. -/
def execTimedStoreAck (s : State) : Res :=
  match s.msg s.ev.idx with
  | some (.tstAck t who n gen late drop retry) => .next ((s.takeMsg s.ev.idx).deliverAck t who n gen late drop retry)
  | _ => .refused .eventDisabled

/-! ### Plain stores, accumulations, write-backs, atomics and merges (R165, R194, R206, R210, R211) -/

/-- A plain store or accumulation of the port reaches the place that keeps its word. -/
def offerPlain (c : CoreId) (e : PortEntry) (s : State) : Res :=
  if s.mustWait c e.ctx e.id e.place true then .refused .eventDisabled
  else match e.kind, e.place with
    | _, .mwin _ | _, .aperture .. => .refused .eventDisabled
    | .plain, _ => performPort c e s
    | .acc op, _ =>
      if s.mark c e.place e.n == .held || s.behindRefused c e then .refused .eventDisabled
      else (match s.accumulate c e.ctx e.id e.place e.n op e.val with
        | some s1 => .next (s1.modCore c fun k => k.setPort e.id fun _ => none)
        | none =>
          match e.place with
          | .phys .. => .next (s.modCore c fun k => k.setPort e.id fun e => some { e with refused := some s.time })
          | _ => .refused .eventDisabled)
    | _, _ => .refused .eventDisabled

/-- PLAIN_STORE_ARRIVE (R165): entry `idx` of the port of `core`; with `ok2` message `idx`, a peer's write. -/
def execPlainStoreArrive (s : State) : Res :=
  let c := s.ev.core
  if s.ev.ok2 then peerWrite s
  else match (s.core c).portOf s.ev.idx with
  | none => .refused .eventDisabled
  | some e => guardEvent e.refused.isNone (offerPlain c e s)

/-- WRITEBACK_ARRIVE (R194): write-back `idx` of cluster `unit`, the oldest of its line. -/
def execWritebackArrive (s : State) : Res :=
  let k := s.cluster s.ev.unit
  match k.wbs.find? (·.id == s.ev.idx) with
  | none => .refused .eventDisabled
  | some w =>
    guardEvent (!(k.wbs.any fun x => decide (x.id < w.id) && x.line.isFor w.line.peer w.line.line) && (w.line.peer == 0 || s.peerUp))
      (.next ((s.setCluster s.ev.unit { k with wbs := k.wbs.filter (·.id != w.id) }).applyLine w.line))

/-- A returning atomic at the place that keeps its word: the old value and the state after. A peer's home is outside. -/
def State.atomPlace (s : State) (c : CoreId) (p : Place) (n : Nat) (op : AtomOp) (x : PWord) : PWord × State :=
  match p with
  | .phys pa timed =>
    if c == mgmtCore then s.arriveAtom pa n op x .noPage
    else (s.settleLine (clusterOf c) 0 (lineOf pa)).arriveAtom pa n op x (if timed then .timed else .untimed)
  | .peer num pa =>
    let (u, s1) := (s.settleLine (clusterOf c) num (lineOf pa)).peerRead
    (subUnit u (pa % 8) n, s1)
  | _ => s.atomPort c p n op x

/-- Whether an atomic waits for its task's launch to resolve: only one of the own local store does not (R327). -/
def State.atomWaits (s : State) (c : CoreId) (p : Place) : Bool :=
  (s.specTask c).isSome && (match p with | .ls .. => false | _ => true)

/-- ATOMIC_AT_HOME (R206): returning atomic `idx` of `core`; with `ok2` message `idx`, a peer's. -/
def execAtomicAtHome (s : State) : Res :=
  let c := s.ev.core
  if s.ev.ok2 then peerAtom s
  else match (s.core c).loadOf s.ev.idx with
  | none => .refused .eventDisabled
  | some e =>
    match e.kind with
    | .atom op x =>
      let m := s.mark c e.place e.n
      guardEvent (e.reply.isNone && !s.mustWait c e.ctx e.id e.place true && !s.atomWaits c e.place && m != .held &&
          !(m == .free && s.linkWaits e.place))
        (let (old, s1) := if m == .frozen then (PWord.poison0, s) else s.atomPlace c e.place e.n op x
         let v := if m == .frozen then PWord.poison0 else atomReply op e.n old x
         .next (s1.modCore c fun k => k.setLoad e.id fun e => some { e with reply := some v }))
    | _ => .refused .eventDisabled

/-- MERGE_ARRIVE (R211): merge `idx` of cluster `unit`; merges of one place are combined in the order they set out. With
`ok2`, message `idx`, a peer's merge. -/
def execMergeArrive (s : State) : Res :=
  let k := s.cluster s.ev.unit
  if s.ev.ok2 then peerMerge s
  else match k.merges.find? (·.id == s.ev.idx) with
  | none => .refused .eventDisabled
  | some e =>
    guardEvent ((k.merges.find? fun x => x.place == e.place).map (·.id) == some e.id && !s.linkWaits e.place) (.next (s.applyMerge s.ev.unit e))

/-- HELD_ACCESS_RELEASE (R290): access `idx` of `core`, which no copy of the octet holds any more. -/
def execHeldAccessRelease (s : State) : Res :=
  let c := s.ev.core
  match (s.core c).loadOf s.ev.idx, (s.core c).portOf s.ev.idx with
  | some e, _ => landAny c e s
  | none, some e => guardEvent e.refused.isNone (match e.kind with | .timed _ => offerStore c e s | _ => offerPlain c e s)
  | none, none => .refused .eventDisabled

/-! ### FIFO banks (R201) -/

/-- Run a push or pull again. -/
def runFifo (i : Instr) (s : State) : Res :=
  match i with
  | .std x b sc o m => execStd x b sc o m s
  | .stdS x b k => execStdS x b k s
  | .xst e a m => execXst e a m s
  | .vst x b sc o m => execVst x b sc o m s
  | .ldd d b sc o m => execLdd d b sc o m s
  | .lddS d b k => execLddS d b k s
  | .xld e a m => execXld e a m s
  | .vld d b sc o m => execVld d b sc o m s
  | _ => .refused .eventDisabled

/-- The access that waits longest, among those a condition names and whose tasks may act, retires when it fits. -/
def serveFifo (ok : FifoWait → Bool) (s : State) : Res :=
  let cl := s.ev.unit
  let f := s.fifo cl s.ev.idx
  match f.waiters.find? fun w => ok w && (s.specTask w.core).isNone with
  | none => .refused .eventDisabled
  | some w =>
    match (s.ctx w.core w.ctx).wait with
    | none => .refused .eventDisabled
    | some i =>
      match wake s w.core w.ctx (f.fits w.push w.k) (runFifo i) with
      | .next t => if t.held then .refused .eventDisabled else .next t
      | r => r

/-- FIFO_PUSH (R201): the longest-waiting push of bank `idx` of cluster `unit`. -/
def execFifoPush (s : State) : Res := serveFifo (·.push) s
/-- FIFO_PULL (R201). -/
def execFifoPull (s : State) : Res := serveFifo (!·.push) s
/-- FIFO_WAIT_COMPLETE (R201): a waiting access of either direction, `ok` for a push. -/
def execFifoWaitComplete (s : State) : Res := serveFifo (fun w => w.push == s.ev.ok) s

end Sys2Proof.Machine
end

