-- ==== Sys2Proof/Machine/Copies.lean ====
section
/-! DEFINITION. Copy channels at work: 12 R276 to R293; 07 R176; 14 R362. -/

namespace Sys2Proof.Machine

/-! ### Channels -/

def State.chan (s : State) (o : Nat) (i : Fin 8) : Chan := (s.octet o).chans[i]
def State.setChan (s : State) (o : Nat) (i : Fin 8) (h : Chan) : State :=
  s.setOctet o { s.octet o with chans := (s.octet o).chans.set i h }

/-- The task of a copy while it is speculative, wherever it is by now: also once it has retired or has been displaced (R279, R327). -/
def State.copySpec (s : State) (cs : CopyStart) : Option TaskRef := if s.isSpec cs.task then cs.task else none

/-- The least of some addresses. -/
def leastOf : List Nat → Option Nat
  | [] => none
  | a :: r => match leastOf r with | none => some a | some b => some (Nat.min a b)

/-- DLO and DHI of an iteration, and WMARK before its first byte (R289). -/
def Chan.openMarks (h : Chan) (cs : CopyStart) : Chan :=
  let ds := h.dests cs h.iter
  let lo := (leastOf (ds.map (·.1))).getD cs.dst.toNat
  let hi := ds.foldl (fun m d => Nat.max m (d.1 + d.2 - 1)) (lo - 1)
  { h with dlo := BitVec.ofNat 64 lo, dhi := BitVec.ofNat 64 hi, wmark := BitVec.ofNat 64 lo - 1 }

/-- WMARK after a step or a write (R289). -/
def Chan.settleMark (h : Chan) (cs : CopyStart) : Chan :=
  let todo := ((List.range (h.stepCount cs)).drop (Nat.max (h.firstMarked cs) (h.taken cs))).map fun k =>
    (h.step cs h.iter k).dst.toNat
  let out := (h.writes.filter fun w => w.num == h.number cs && decide (h.dlo.toNat ≤ w.addr)).map (·.addr)
  { h with wmark := match leastOf (todo ++ out) with
      | some a => BitVec.ofNat 64 a - 1
      | none => h.dhi }

/-! ### Starting (R276, R278, R279, R282, R283) -/

/-- Whether an address lies in the scratch or the peer window. -/
def sharedAddr (a : Nat) : Bool :=
  (decide (0xFFFFFFF00000 ≤ a) && decide (a < 0xFFFFFFF10000)) || (decide (0xFF0000000000 ≤ a) && decide (a < 0xFF0080000000))

/-- Whether a copy writes a scratch bank or the peer window. -/
def CopyStart.hitsShared (cs : CopyStart) : Bool :=
  if cs.cmode != 0 then true
  else if cs.isWalk then sharedAddr cs.dst.toNat || sharedAddr (cs.word 6).toNat
  else (List.range cs.iters).any fun j => (List.range cs.total).any fun k => sharedAddr (Chan.reset.step cs j k).dst.toNat

/-- The start that a port entry holds. -/
def State.startOf (s : State) (c : CoreId) (e : PortEntry) : Option (Fin 8 × CopyStart) :=
  match e.kind with
  | .start ch tidx image psrc pdst sup num =>
    let k := s.core c
    some (ch, ⟨e.id, c, e.ctx, k.bind.task, k.bind.tenant, sup, tidx, image, psrc, pdst, num⟩)
  | _ => none

/-- COPY_START (R279): entry `idx` of the port of `core` enters its channel's queue. -/
def execCopyStart (s : State) : Res :=
  let c := s.ev.core
  match (s.core c).portOf s.ev.idx with
  | none => .refused .eventDisabled
  | some e =>
    match s.startOf c e with
    | none => .refused .eventDisabled
    | some (ch, cs) =>
      let h := s.chan (octetOf c) ch
      let first := !(s.core c).work.port.any fun f => decide (f.id < e.id) && (match f.kind with | .start .. => true | _ => false)
      guardEvent (decide (h.queue.length < 4) && first && !((s.specTask c).isSome && cs.hitsShared))
        (.next ((s.modCore c fun k => k.setPort e.id fun _ => none).setChan (octetOf c) ch { h with queue := h.queue ++ [cs] }))

/-- Bits of a template word that must be zero. -/
def ctrlRes : Word := 0xFFFFFFFFFF000F80
def convRes : Word := 0xFFFFFFFFFFFFF300
def loopRes : Word := 0x00000000FFFC0000
def fwdRes : Word := 0x7FFFFFFFFF000000

/-- A multiple of a number of bytes. -/
def multOf (a : Word) (n : Nat) : Bool := a.toNat % n == 0

/-- Whether bytes lie in banks of the starting core's cluster that are in scratch mode. -/
def State.inScratch (s : State) (c : CoreId) (a n : Nat) : Bool :=
  decide (0xFFFFFFF00000 ≤ a) && decide (a + n ≤ 0xFFFFFFF10000) && decide (0 < n) &&
    (List.range ((a + n - 1 - 0xFFFFFFF00000) / 4096 + 1 - (a - 0xFFFFFFF00000) / 4096)).all fun i =>
      (s.cluster (clusterOf c)).mode ((a - 0xFFFFFFF00000) / 4096 + i) == .scratch

/-- The conditions of R283. -/
def State.convBad (s : State) (cs : CopyStart) : Bool :=
  cs.ndim != 2 || cs.count 0 != 32 || cs.count 1 != 32 || cs.dstride 0 != 0 || cs.dstride 1 != 0 || !multOf cs.dst 128 ||
    !s.inScratch cs.core cs.dst.toNat cs.tileBytes ||
    cs.size != (match cs.srcFmt with | 0 | 1 => 1 | 2 | 3 | 5 | 6 => 2 | _ => 4) || (cs.isFloat && !cs.sgn)

/-- Whether a template is invalid (R282). -/
def State.templateBad (s : State) (cs : CopyStart) : Bool :=
  let w := cs.word
  let dims := List.range cs.ndim
  let conv := w 3 &&& convRes != 0 || cs.field 3 10 2 == 3 || cs.srcFmt == 7 || (cs.looping && cs.cmode != 0) ||
    (cs.cmode != 0 && s.convBad cs)
  let rel := cs.looping && (!multOf (w 6) 8 ||
    !(s.inScratch cs.core (w 6).toNat (8 * cs.stages) ||
      (decide (0xFFFFFFFFE000 ≤ (w 6).toNat) && decide ((w 6).toNat + 8 * cs.stages ≤ 0x1000000000000))))
  w 2 &&& ctrlRes != 0 || cs.scopeNo == 7 || decide (2 ≤ cs.mode) || (cs.mode == 0 && (cs.ndim == 0 || decide (14 < cs.ndim))) ||
    (cs.isWalk && (cs.ndim != 0 || cs.looping || (List.range 28).any fun i => w (8 + i) != 0)) || (!cs.isWalk && conv) ||
    (!cs.isWalk && w 5 &&& loopRes != 0) || w 7 &&& fwdRes != 0 || !multOf cs.src cs.size || !multOf cs.dst cs.size ||
    (dims.any fun k => !multOf (cs.sstride k) cs.size || !multOf (cs.dstride k) cs.size) || rel

/-! ### Tags and numbers (R286, R288, R291) -/

/-- The forwarded tag of a delivery or freeze sets out, when the core it names runs a task of the copy's tenant (R286). -/
def State.forward (s : State) (cs : CopyStart) (err : Bool) : State :=
  let f := cs.word 7
  let l := f.extractLsb' 0 18
  let k := s.core (s.physOf l.toNat)
  if f.getLsbD 63 && k.bind.task.isSome && k.bind.tenant == cs.tenant then
    { s with fabric := s.fabric ++ [(s.seq, Msg.tag l (f.extractLsb' 18 6) err k.bind.task)] }.nextSeq
  else s

/-- Whether a copy may take no step: the brake holds it (R407), its task has failed and it stops at the next element, or its
task is displaced and it stays as it is (R301). -/
def State.copyStopped (s : State) (cs : CopyStart) : Bool :=
  s.braked 2 || (match (s.core cs.core).stop with
   | some (.fail ..) => (s.core cs.core).bind.task == cs.task
   | _ => false) ||
  (match cs.task.bind s.taskAt with
   | some k => k.phase == .displaced
   | none => false)

/-- Change the core of a copy while it still runs the copy's task. -/
def State.onStarter (s : State) (cs : CopyStart) (f : Core → Core) : State :=
  if (s.core cs.core).bind.task == cs.task then s.modCore cs.core f else s

/-- The tag of a copy, when its template has one. -/
def State.copyTag (s : State) (cs : CopyStart) (ok err : Bool) : State :=
  if cs.tagen then s.onStarter cs fun k =>
    let k1 := if ok then k.setTag cs.tag else k
    if err then k1.setTagErr cs.tag else k1
  else s

/-- Freeze a channel (R291). -/
def State.freeze (s : State) (o : Nat) (i : Fin 8) (cs : CopyStart) (addr : Word) (write : Bool) (kind : BitVec 8) : State :=
  let h := s.chan o i
  let h1 := { h with state := .frozen, faddr := addr, flags := (h.flags &&& 0xF8) ||| kind ||| (if write then 4 else 0) }
  ((s.setChan o i h1).copyTag cs false true).forward cs true

/-! ### Moving elements (R281, R283, R284, R287) -/

/-- What became of a step of a copy. -/
inductive Moved where
  | ok (s : State)
  | fault (addr : Word) (write : Bool) (kind : BitVec 8)
  /-- it must wait: a write before it is refused, or a FIFO bank is full or empty -/
  | wait

/-- FKIND of a fate (R293). -/
def fateKind : Reach → BitVec 8
  | .transFault => 1
  | _ => 2

/-- Perform one write of a copy at its home; `none` when the home refuses it (R176). The starting cluster's copy of the line is
gone before it acts (R287), so no load refills it from before the write. -/
def State.performWrite (s : State) (cs : CopyStart) (w : CopyWrite) : Option State :=
  match w.place with
  | .phys pa timed =>
    let s0 := s.settleLine (clusterOf cs.core) 0 (lineOf pa)
    match s.copySpec cs with
    | some t =>
      let e := s0.heldEntry cs.core cs.ctx s0.seq pa w.n timed w.val none none (some t)
      (match s0.arriveTimed { e with origin := { e.origin with tenant := cs.tenant } } 0 with
       | (.refused, _) => none
       | (_, s1) => some s1.nextSeq)
    | none => some (s0.arriveWrite pa w.n w.val (if timed then .timed else .untimed))
  | .peer num pa => some (s.settleLine (clusterOf cs.core) num (lineOf pa))
  | _ => some s

/-- The watermark moves on, but not while the channel is frozen (R291). -/
def Chan.remark (h : Chan) (cs : CopyStart) : Chan := if h.state == .frozen then h else h.settleMark cs

/-- Perform writes of a channel in order, up to a number; a refused write stays, and those behind it, until it is offered
again (R176), and so does one that waits for an up-link (R392). -/
def State.performWrites (s : State) (o : Nat) (i : Fin 8) (cs : CopyStart) : Nat → State
  | 0 => s
  | n + 1 =>
    let h := s.chan o i
    match h.writes with
    | [] => s
    | w :: r =>
      if (w.refused.isSome && !s.offeredAgain w.refused) || s.linkWaits w.place then s
      else match s.performWrite cs w with
        | none => s.setChan o i { h with writes := { w with refused := some s.time } :: r }
        | some s1 => State.performWrites (s1.setChan o i (({ h with writes := r }).remark cs)) o i cs n

/-- Read `n` bytes for a copy where they are kept (R287); the leaf counts as used (R397). A speculative task's copy pulls from no
FIFO bank (R201, R327). -/
def State.copyRead (s0 : State) (cs : CopyStart) (va : Word) (n : Nat) : (PWord × State) ⊕ Moved :=
  let s := s0.touch cs.core cs.tenant va
  match s.reachT cs.core cs.tenant ⟨.load, n, true, !cs.sup⟩ va with
  | .place p =>
    match s.fifoBank p, p with
    | some (cl, b, _), _ =>
      if n != 8 then .inr (.fault va false 2)
      else if (s.copySpec cs).isNone && (s.fifo cl b).fits false 1 then let (es, s1) := s.pull cl b 1; .inl (es.getD 0 PWord.poison0, s1)
      else .inr .wait
    | none, .phys pa _ => let (u, s1) := s.serveOwn (s.copySpec cs) pa; .inl (subUnit u (pa % 8) n, s1)
    | none, .peer _ pa => if !s.peerUp then .inr .wait else let (u, s1) := s.peerRead; .inl (subUnit u (pa % 8) n, s1)
    | none, _ => .inl (s.serve cs.core p n)
  | r => .inr (.fault va false (fateKind r))

/-- A read after the copy's own writes to the same units: they decide also the poison of bytes beside theirs (R189, R281). -/
def State.copyReadAfter (s : State) (o : Nat) (i : Fin 8) (cs : CopyStart) (va : Word) (n : Nat) : (PWord × State) ⊕ Moved :=
  let clash := fun (s : State) =>
    match s.reachT cs.core cs.tenant ⟨.load, n, true, !cs.sup⟩ va with
    | .place p => (s.chan o i).writes.any fun w => s.sameUnit p w.place
    | _ => false
  if clash s then
    let s1 := s.performWrites o i cs (s.chan o i).writes.length
    if clash s1 then .inr .wait else s1.copyRead cs va n
  else s.copyRead cs va n

/-- Write `n` bytes for a copy: at once at a port, else on its way to its home (R287, R288). They count as copied (R404). -/
def State.copyWrite (s0 : State) (o : Nat) (i : Fin 8) (cs : CopyStart) (va : Word) (n : Nat) (v : PWord) : Moved :=
  let s := (s0.touch cs.core cs.tenant va).modCore cs.core fun k => k.counts fun a => { a with copied := a.copied + n }
  match s.reachT cs.core cs.tenant ⟨.store, n, true, !cs.sup⟩ va with
  | .place p =>
    match s.fifoBank p, p.cacheLine with
    | some (cl, b, _), _ =>
      if n != 8 then .fault va true 2 else if (s.fifo cl b).fits true 1 then .ok (s.push cl b [v]) else .wait
    | none, some (peer, line) =>
      let s1 := s.flushLine (clusterOf cs.core) peer line
      let h := s1.chan o i
      .ok ((s1.setChan o i { h with writes := h.writes ++ [⟨h.number cs, p, va.toNat, n, v, none⟩] }).nextSeq)
    | none, none => .ok (s.portWrite p n v)
  | r => .fault va true (fateKind r)

/-- One element of a strided copy or of a walk. -/
def State.moveElem (s : State) (o : Nat) (i : Fin 8) (cs : CopyStart) (t : CopyStep) : Moved :=
  match s.copyReadAfter o i cs t.src t.n with
  | .inr m => m
  | .inl (v, s1) =>
    match s1.copyWrite o i cs t.dst t.n v with
    | .ok s2 => let h := s2.chan o i; .ok (if v.poison then s2.setChan o i { h with flags := h.flags ||| 8 } else s2)
    | m => m

/-- One element; every column index of a walk has been written before the first value (R284). -/
def State.moveStep (s : State) (o : Nat) (i : Fin 8) (cs : CopyStart) (t : CopyStep) : Moved :=
  let h := s.chan o i
  if cs.isWalk && h.taken cs == h.firstMarked cs && !h.writes.isEmpty then
    let s1 := s.performWrites o i cs h.writes.length
    if (s1.chan o i).writes.isEmpty then s1.moveElem o i cs t else .wait
  else s.moveElem o i cs t

/-- The row pointers of a walk (R284). -/
def State.moveRows (s : State) (o : Nat) (i : Fin 8) (cs : CopyStart) : Moved :=
  let rowptr := cs.word 4
  let row0 := cs.field 3 0 32
  let nrows := cs.field 3 32 32
  match s.copyRead cs (rowptr + BitVec.ofNat 64 (4 * row0)) 4 with
  | .inr m => m
  | .inl (a, s1) =>
    match s1.copyRead cs (rowptr + BitVec.ofNat 64 (4 * (row0 + nrows))) 4 with
    | .inr m => m
    | .inl (b, s2) =>
      if b.val.toNat < a.val.toNat then .fault rowptr false 2
      else .ok (s2.setChan o i (({ s2.chan o i with walk := (a.val.toNat, b.val.toNat) }).openMarks cs))

/-! ### Plane conversion (R283) -/

/-- A source element: poisoned, not finite, or sign, significand and exponent. -/
def CopyStart.value (cs : CopyStart) (v : PWord) : Option (Bool × Nat × Int) :=
  let int := fun (x : Int) => some (decide (x < 0), x.natAbs, (0 : Int))
  let flt := fun (f : BFmt) => match fval f v.val.toNat with | .fin s m e => some (s, m, e) | _ => none
  if v.poison then none
  else match cs.srcFmt with
    | 0 => int (sextN 1 v.val).toInt
    | 1 => int (zextN 1 v.val).toNat
    | 2 => int (sextN 2 v.val).toInt
    | 3 => int (zextN 2 v.val).toNat
    | 4 => flt .f32
    | 5 => flt .f16
    | _ => flt .bf16

/-- The significand of an element under a block exponent, before clamping, and whether a part is lost. -/
def sigAt (x : Bool × Nat × Int) (e : Int) : Int × Bool :=
  let (q, lost) := roundAt .rne x.1 x.2.1 x.2.2 false e
  (if x.1 then -(q : Int) else q, lost)

/-- One block: poisoned or not, exponent, significands, SAT and NX. -/
structure Block where
  poison : Bool
  exp : Int
  sigs : List Int
  sat : Bool
  nx : Bool

/-- The block exponent: the least from -128 to 127 under which every element fits (R283). -/
def blockExp (lo hi : Int) (xs : List (Bool × Nat × Int)) : Int :=
  match (List.range 256).find? fun (k : Nat) => xs.all fun x => let s := (sigAt x ((k : Int) - 128)).1; decide (lo ≤ s) && decide (s ≤ hi) with
  | some k => (k : Int) - 128
  | none => 127

def CopyStart.block (cs : CopyStart) (vs : List PWord) : Block :=
  let xs := vs.map cs.value
  if xs.any Option.isNone then ⟨true, 0, List.replicate 32 0, false, false⟩
  else
    let ys := xs.filterMap fun y => y
    let lo : Int := if cs.sgn then -(2 ^ (cs.prec - 1)) else 0
    let hi : Int := if cs.sgn then 2 ^ (cs.prec - 1) - 1 else 2 ^ cs.prec - 1
    let e := if cs.isFloat then blockExp lo hi ys else 0
    let qs := ys.map fun y => sigAt y e
    ⟨false, e, qs.map fun q => max lo (min hi q.1), qs.any fun q => decide (q.1 < lo) || decide (hi < q.1), qs.any (·.2)⟩

/-- Word `b` of plane `j`: bit `t` is bit `j` of element `t` of the block. -/
def Block.planeWord (b : Block) (j : Nat) : Nat :=
  b.sigs.zipIdx.foldl (fun (a : Nat) e => a + (e.1 / 2 ^ j % 2).toNat * 2 ^ e.2) 0

/-- Unit `u` of a converted tile (R255). -/
def tileUnit (bs : List Block) (p u : Nat) : PWord :=
  let blk := fun (i : Nat) => bs.getD i ⟨false, 0, [], false, false⟩
  if u < 16 * p then
    let x := blk (2 * (u % 16))
    let y := blk (2 * (u % 16) + 1)
    ⟨BitVec.ofNat 64 (x.planeWord (u / 16) + y.planeWord (u / 16) * 2 ^ 32), x.poison || y.poison⟩
  else
    let k := u - 16 * p
    let xs := (List.range 8).map fun i => blk (8 * k + i)
    ⟨BitVec.ofNat 64 (xs.foldr (fun x a => (x.exp % 256).toNat + 256 * a) 0), xs.any (·.poison)⟩

/-- The 32 elements of block `b`, as far as they can be read. -/
def State.readBlock (s : State) (o : Nat) (i : Fin 8) (cs : CopyStart) (b : Nat) : List Nat → List PWord → (List PWord × State) ⊕ Moved
  | [], vs => .inl (vs, s)
  | t :: r, vs =>
    let (x, y) := if cs.cmode == 1 then (t, b) else (b, t)
    let va := cs.src + BitVec.ofNat 64 x * cs.sstride 0 + BitVec.ofNat 64 y * cs.sstride 1
    match s.copyReadAfter o i cs va cs.size with
    | .inr m => .inr m
    | .inl (v, s1) => State.readBlock s1 o i cs b r (vs ++ [v])

/-- Blocks in order. -/
def State.readBlocks (s : State) (o : Nat) (i : Fin 8) (cs : CopyStart) : List Nat → List Block → (List Block × State) ⊕ Moved
  | [], bs => .inl (bs, s)
  | b :: r, bs =>
    match s.readBlock o i cs b (List.range 32) [] with
    | .inr m => .inr m
    | .inl (vs, s1) => State.readBlocks s1 o i cs r (bs ++ [cs.block vs])

/-- Write the units of a tile. -/
def State.writeTile (s : State) (o : Nat) (i : Fin 8) (cs : CopyStart) (bs : List Block) : List Nat → Moved
  | [] => .ok s
  | u :: r =>
    match s.copyWrite o i cs (cs.dst + BitVec.ofNat 64 (8 * u)) 8 (tileUnit bs cs.prec u) with
    | .ok s1 => State.writeTile s1 o i cs bs r
    | m => m

/-- A conversion as a whole. -/
def State.moveTile (s : State) (o : Nat) (i : Fin 8) (cs : CopyStart) : Moved :=
  match s.readBlocks o i cs (List.range 32) [] with
  | .inr m => m
  | .inl (bs, s1) =>
    match s1.writeTile o i cs bs (List.range (cs.tileBytes / 8)) with
    | .ok s2 =>
      let h := s2.chan o i
      let f : BitVec 8 := (if bs.any (·.sat) then 32 else 0) ||| (if bs.any (·.nx) then 16 else 0) ||| (if bs.any (·.poison) then 8 else 0)
      .ok (s2.setChan o i { h with flags := h.flags ||| f, elem := cs.tileBytes / 8 - 1 })
    | m => m

/-! ### The course of a copy -/

/-- Take the next step of a channel. -/
def State.copyStep (s : State) (o : Nat) (i : Fin 8) (cs : CopyStart) : Moved :=
  let h := s.chan o i
  let r := if cs.cmode != 0 then s.moveTile o i cs
    else if cs.isWalk && h.elem == 0 then s.moveRows o i cs
    else s.moveStep o i cs (h.step cs h.iter (h.taken cs))
  match r with
  | .ok s1 => let h1 := s1.chan o i; .ok (s1.setChan o i (({ h1 with elem := h1.elem + 1 }).settleMark cs))
  | m => m

/-- Steps until all are taken, one faults or must wait, or `n` are done. -/
def State.copySteps (s : State) (o : Nat) (i : Fin 8) (cs : CopyStart) : Nat → State
  | 0 => s
  | n + 1 =>
    if (s.chan o i).allTaken cs then s
    else match s.copyStep o i cs with
      | .ok s1 => State.copySteps s1 o i cs n
      | _ => s

/-- The release word of a stage (R285). -/
def State.releaseWord (s : State) (cs : CopyStart) (stage : Nat) : Word :=
  match s.reachT cs.core cs.tenant ⟨.load, 8, true, !cs.sup⟩ (cs.word 6 + BitVec.ofNat 64 (8 * stage)) with
  | .place (.ls c off) => ((s.core c).ls.read off 8).val
  | .place (.sram cl off) => ((s.cluster cl).sramRead off 8).val
  | _ => 0

/-- Whether iteration `j` may start (R285). -/
def State.stageFree (s : State) (cs : CopyStart) (j : Nat) : Bool :=
  decide (j < cs.stages) || decide (j / cs.stages ≤ (s.releaseWord cs (j % cs.stages)).toNat)

/-- Open iteration `j`. -/
def Chan.openIter (h : Chan) (cs : CopyStart) (j : Nat) : Chan :=
  let h1 := { h with iter := j, elem := 0, walk := (0, 0), state := .running }
  h1.openMarks cs

/-- What follows a delivery: the next iteration, a wait for its release word, or the end of the copy's moves. -/
def State.nextIter (s : State) (o : Nat) (i : Fin 8) (cs : CopyStart) : State :=
  let h := s.chan o i
  if h.iter + 1 < cs.iters then
    s.setChan o i (if s.stageFree cs (h.iter + 1) then h.openIter cs (h.iter + 1) else { h with state := .waitRelease })
  else s

/-- Numbers whose writes have all been performed complete, but none of a frozen channel or of a copy that is stopped (R288,
R291, R301); a walk that completes sets CSRCNT (R284). -/
def State.completeNums (s : State) (o : Nat) (i : Fin 8) (cs : CopyStart) : State :=
  let h := s.chan o i
  if h.state == .frozen || s.copyStopped cs then s
  else
    let (open_, ready) := h.delivered.partition fun n => h.writes.any fun w => w.num == n
    let last := ready.contains (cs.num + cs.iters - 1) && open_.isEmpty
    let h1 := { h with delivered := open_ ++ (if h.iter + 1 < cs.iters then ready.filter (· == h.number cs) else []) }
    let h2 := if last then
        { h1 with cur := none, state := .idle, delivered := []
                  csrcnt := if cs.isWalk then BitVec.ofNat 64 (h.walk.2 - h.walk.1) else h.csrcnt }
      else h1
    (s.setChan o i h2).onStarter cs fun k => k.completeTlc (ready.filter fun n => decide (k.tlc.cnt.toNat < n) && !natHas k.tlc.ahead n)

/-- The current iteration is delivered (R286, R288); one that has no write on its way to a home is complete with that. -/
def State.deliver (s : State) (o : Nat) (i : Fin 8) (cs : CopyStart) : State :=
  let h := s.chan o i
  let h1 := { h with delivered := h.delivered ++ [h.number cs] }
  ((((s.setChan o i h1).copyTag cs true false).forward cs false).nextIter o i cs).completeNums o i cs

/-- COPY_DELIVERED (R281, R288): channel `idx` of octet `unit` takes `w` steps, all that are left when `w` is 0; it is
delivered when the last has been taken. -/
def execCopyDelivered (s : State) : Res :=
  let o := s.ev.unit
  let i := chanNo s.ev.idx
  let h := s.chan o i
  match h.cur with
  | none => .refused .eventDisabled
  | some cs =>
    guardEvent (h.state == .running && !h.isDelivered cs && !s.copyStopped cs)
      (let n := if s.ev.w = 0 then h.stepCount cs + 2 ^ 34 else s.ev.w.toNat
       let s1 := s.copySteps o i cs n
       if (s1.chan o i).allTaken cs then .next (s1.deliver o i cs)
       else if (s1.chan o i).elem == h.elem then .refused .eventDisabled else .next s1)

/-- COPY_FREEZE (R291): the next step of channel `idx` of octet `unit` faults. -/
def execCopyFreeze (s : State) : Res :=
  let o := s.ev.unit
  let i := chanNo s.ev.idx
  let h := s.chan o i
  match h.cur with
  | none => .refused .eventDisabled
  | some cs =>
    if h.state == .running && !h.allTaken cs && !s.copyStopped cs then
      match s.copyStep o i cs with
      | .fault a w k => .next ((s.touch cs.core cs.tenant a).freeze o i cs a w k)
      | _ => .refused .eventDisabled
    else .refused .eventDisabled

/-- COPY_COMPLETE (R288): `w` writes of channel `idx` of octet `unit`, all when `w` is 0, are performed at their homes, and
numbers complete. -/
def execCopyComplete (s : State) : Res :=
  let o := s.ev.unit
  let i := chanNo s.ev.idx
  let h := s.chan o i
  match h.cur with
  | none => .refused .eventDisabled
  | some cs =>
    let held := match h.writes with | w :: _ => w.refused.isSome | [] => h.delivered.isEmpty || h.state == .frozen
    guardEvent (!held)
      (let s1 := s.performWrites o i cs (if s.ev.w = 0 then h.writes.length else s.ev.w.toNat)
       let s2 := s1.completeNums o i cs
       guardEvent (s2 != s) (.next s2))

/-- COPY_ITERATION_RELEASE (R285): channel `idx` of octet `unit`. -/
def execCopyIterationRelease (s : State) : Res :=
  let o := s.ev.unit
  let i := chanNo s.ev.idx
  let h := s.chan o i
  match h.cur with
  | none => .refused .eventDisabled
  | some cs => guardEvent (h.state == .waitRelease && !s.copyStopped cs && s.stageFree cs (h.iter + 1)) (.next (s.setChan o i (h.openIter cs (h.iter + 1))))

/-- An invalid start ends at once (R282). -/
def State.badTemplate (s : State) (o : Nat) (i : Fin 8) (cs : CopyStart) (h : Chan) : State :=
  let s1 := (s.setChan o i { h with flags := 0x80, tidx := cs.tidx, owner := octPos cs.core }).copyTag cs true true
  s1.onStarter cs fun k => k.completeTlc ((List.range cs.iters).map (cs.num + ·))

/-- COPY_QUEUE_HEAD (R276, R282, R287, R362): the start at the head of channel `idx` of octet `unit` is checked, and runs
once its release is performed and every earlier store of its core has left the port. -/
def execCopyQueueHead (s : State) : Res :=
  let o := s.ev.unit
  let i := chanNo s.ev.idx
  let h := s.chan o i
  match h.cur, h.queue with
  | none, cs :: rest =>
    let h0 := { h with queue := rest, iter := 0, elem := 0, walk := (0, 0), faddr := 0 }
    if s.templateBad cs then .next (s.badTemplate o i cs h0)
    else
      let c := cs.core
      let busy := s.copyStopped cs || (s.core c).work.port.any (fun e => decide (e.id < cs.id)) ||
        (s.core c).work.rq.any (fun r => r.ctx == cs.ctx && decide (r.id < cs.id)) ||
        (s.core c).work.loads.any (fun e => e.ctx == cs.ctx && decide (e.id < cs.id) && e.reply.isNone) ||
        (s.core c).work.vecs.any (fun e => e.ctx == cs.ctx && decide (e.id < cs.id) && e.load && e.got.any Option.isNone)
      let (s1, _) := (s.cleanMine (clusterOf c) (posOf c)).releaseActs c (scopeOfCopy cs)
      let ready := !s1.backsOut (clusterOf c) (posOf c) && !s1.mergesOut (clusterOf c) (posOf c)
      if busy then .refused .eventDisabled
      else if ready then
        let h1 := { h0 with cur := some cs, state := .running, flags := 0, tidx := cs.tidx, owner := octPos c
                            writes := [], delivered := [] }
        .next (s1.setChan o i (h1.openMarks cs))
      else guardEvent (s1 != s) (.next s1)
  | _, _ => .refused .eventDisabled
where
  scopeOfCopy (cs : CopyStart) : Scope :=
    match cs.scopeNo with
    | 0 => .core
    | 1 => .clu
    | 2 => .grp
    | 3 => .sec
    | 4 => .die
    | 5 => .pkg
    | _ => .sys

/-! ### RESUME and ABORT (R292) -/

/-- Entry `idx` of the port of `core`, a store of a start word with one of two bits, and its channel. -/
def onStartWord (bit : Nat) (s : State) (k : PortEntry → Fin 8 → Res) : Res :=
  match (s.core s.ev.core).portOf s.ev.idx with
  | none => .refused .eventDisabled
  | some e =>
    match e.kind, e.place with
    | .plain, .aperture ch 0 =>
      guardEvent (e.val.val.getLsbD bit && !s.mustWait s.ev.core e.ctx e.id e.place true) (k e (chanNo ch))
    | _, _ => .refused .eventDisabled

/-- COPY_RESUME (R292); a store that finds the copy no longer frozen does nothing. -/
def execCopyResume (s : State) : Res :=
  let c := s.ev.core
  onStartWord 7 s fun e i =>
    let s1 := s.modCore c fun k => k.setPort e.id fun _ => none
    let h := s1.chan (octetOf c) i
    .next (if h.state == .frozen then
             let h1 := { h with state := .running, faddr := 0 }
             s1.setChan (octetOf c) i (match h.cur with | some cs => h1.settleMark cs | none => h1)
           else s1)

/-- Writes that an abort leaves to be performed (R292): all but those of the current iteration to bytes above the watermark. A walk
that has not begun its values has only column indices on their way, which the watermark does not cover (R284). -/
def Chan.keptWrites (h : Chan) (cs : CopyStart) : List CopyWrite :=
  if cs.isWalk && decide (h.taken cs ≤ h.firstMarked cs) then h.writes else h.writes.filter fun w => w.num != h.number cs

/-- COPY_ABORT (R292): the copy is delivered and complete at once, so what it has still to write elsewhere is written first. -/
def execCopyAbort (s : State) : Res :=
  let c := s.ev.core
  onStartWord 8 s fun e i =>
    let s1 := s.modCore c fun k => k.setPort e.id fun _ => none
    let h := s1.chan (octetOf c) i
    match h.cur, h.state with
    | some cs, .frozen =>
      let kept := h.keptWrites cs
      let s0 := (s1.setChan (octetOf c) i { h with writes := kept }).performWrites (octetOf c) i cs kept.length
      let h0 := s0.chan (octetOf c) i
      let h1 := { h0 with cur := none, state := .idle, delivered := [], faddr := 0, flags := h0.flags ||| 0x40 }
      let s2 := ((s0.setChan (octetOf c) i h1).copyTag cs true false).forward cs false
      guardEvent h0.writes.isEmpty <| .next (s2.onStarter cs fun k => k.completeTlc (((List.range cs.iters).map (cs.num + ·)).filter fun n =>
        decide (k.tlc.cnt.toNat < n) && !natHas k.tlc.ahead n))
    | _, _ => .next s1

/-! ### Writes offered again (R176) -/

/-- STORE_RETRY (R176): entry `idx` of the port of `core`; with `ok`, the first write of channel `idx` of octet `unit`. -/
def execStoreRetry (s : State) : Res :=
  if s.ev.ok then
    let o := s.ev.unit
    let i := chanNo s.ev.idx
    let h := s.chan o i
    match h.cur, h.writes with
    | some cs, w :: _ =>
      guardEvent (s.offeredAgain w.refused)
        (let s1 := s.performWrites o i cs 1
         .next (if (s1.chan o i).writes.length < h.writes.length then s1.completeNums o i cs else s1))
    | _, _ => .refused .eventDisabled
  else
    let c := s.ev.core
    match (s.core c).portOf s.ev.idx with
    | none => .refused .eventDisabled
    | some e =>
      guardEvent (s.offeredAgain e.refused)
        (let s1 := s.modCore c fun k => k.setPort e.id fun e => some { e with refused := none }
         let e1 := { e with refused := none }
         match e.kind with
         | .timed _ => offerStore c e1 s1
         | _ => offerPlain c e1 s1)

end Sys2Proof.Machine
end

