-- ==== Sys2Proof/Machine/Mgmt.lean ====
section
/-! DEFINITION. What the management core does through its window: 16 R407, R408, R413 to R415, R421, R427, R428, R430,
R431; 15 R369, R370, R390, R397 to R399; 07 R175. -/

namespace Sys2Proof.Machine

/-! ### Stores to the window -/

/-- Store `idx` of the management core's port, when it names a register and value that a row is for; `run` is what the
register does. -/
def mwinStore (s : State) (ok : Nat → Word → Bool) (run : Nat → Word → State → State) : Res :=
  match (s.core mgmtCore).portOf s.ev.idx with
  | none => .refused .eventDisabled
  | some e =>
    match e.place with
    | .mwin off =>
      guardEvent (ok off e.val.val && !s.mustWait mgmtCore e.ctx e.id e.place true)
        (.next (run off e.val.val (s.modCore mgmtCore fun k => k.setPort e.id fun _ => none)))
    | _ => .refused .eventDisabled

/-- What a register's own row is for; every other register stores its value, or ignores the store. -/
inductive MwinRow where
  | keygo | tlbinv | plim | rollback | peerno | lcstate | fcmd | regionEnable | huskclr | throttle | plain
  deriving DecidableEq, Repr

/-- The row of a store to an offset. -/
def mwinRow (off : Nat) (v : Word) : MwinRow :=
  if off = 0x08 then .lcstate
  else if off = 0x10 then .tlbinv
  else if off = 0x18 then .plim
  else if off = 0x28 then .rollback
  else if off = 0x30 then .peerno
  else if 0x300000 ≤ off && off < 0x400000 && off % 256 = 0x20 then .keygo
  else if off = 0x400008 then .fcmd
  else if 0x100000000 ≤ off && off < 0x200000000 then
    let o := off % 0x10000000
    if o < 0x400000 && o % 0x10000 = 0x2008 then .huskclr
    else if 0x400000 ≤ o && o < 0x410000 && o % 64 = 0x28 && v.getLsbD 63 then .regionEnable
    else .plain
  else if 0x200000000 ≤ off && off % 0x1000 = 0 then .throttle
  else .plain

/-- A store whose row is `r`. -/
def rowStore (r : MwinRow) (s : State) (run : Nat → Word → State → State) : Res :=
  mwinStore s (fun off v => mwinRow off v == r) run

/-- KEYGO (R390): the key takes effect at the frame boundary between steps; both counters restart. A link that holds runs
again, and REKEY is met. -/
def execKeygo (s : State) : Res :=
  rowStore .keygo s fun off _ s =>
    let j := (off - 0x300000) / 256
    let l := s.link j
    s.setLink j { l with txCtr := 0, rxCtr := 0, rekey := false,
                         state := match l.state with | .hold => .run | t => t }

/-- TLBINV (R397, R413). -/
def execTlbinv (s : State) : Res :=
  rowStore .tlbinv s fun _ v s =>
    { s with clusters := s.clusters.map fun (e : Nat × Cluster) => (e.1,
        { e.2 with tlb := e.2.tlb.filter fun x => x.space.setWidth 64 != v }) }

/-- PLIM_WRITE (R407): in W, at least 1,040. -/
def execPlimWrite (s : State) : Res :=
  rowStore .plim s fun _ v s => { s with spine := { s.spine with plim := 100000 * Nat.max 1040 v.toNat } }

/-- EVQ_POP (R421): load `idx` of the management core. -/
def execEvqPop (s : State) : Res :=
  match (s.core mgmtCore).loadOf s.ev.idx with
  | none => .refused .eventDisabled
  | some e =>
    guardEvent (e.place == .mwin 0x20 && e.kind == .plain && !s.mustWait mgmtCore e.ctx e.id e.place false)
      (let (v, s1) := s.mwinRead 0x20
       .next (s1.landLoad mgmtCore e ⟨v, false⟩))

/-- ROLLBACK_WRITE (R428). -/
def execRollbackWrite (s : State) : Res :=
  rowStore .rollback s fun _ v s =>
    let n := (v.extractLsb' 0 8).toNat
    let p := s.spine
    if p.rollback < n && n ≤ 128 && n ≤ p.version.toNat then { s with spine := { p with rollback := n, ign := false } }
    else { s with spine := { p with ign := true } }

/-- Whether a task of any launch is in a dependence table of the device. -/
def State.anyTask (s : State) : Bool := s.sectors.any fun e => !e.2.tasks.isEmpty

/-- PEERNO_WRITE (R370). -/
def execPeernoWrite (s : State) : Res :=
  rowStore .peerno s fun _ v s =>
    if s.anyTask then s else { s with spine := { s.spine with peerno := v.extractLsb' 0 16 } }

/-- LCSTATE_WRITE (R430, R431). -/
def execLcstateWrite (s : State) : Res :=
  rowStore .lcstate s fun _ v s => { s with spine := s.spine.burn v }

/-! ### Flash commands (R427) -/

/-- Whether an address lies in the image slot. -/
def flashOk (a : Word) : Bool := 0x100000 ≤ a.toNat && a.toNat < 0x4000000

/-- Issue a command, with FADDR and FDATA as they stand: a store to them while BUSY changes nothing of it. -/
def Flash.command (f : Flash) (n : BitVec 2) : Flash :=
  if f.busy.isSome then { f with err := true }
  else if flashOk f.faddr then { f with busy := some n, err := false, runAddr := f.faddr, runData := f.fdata }
  else { f with err := true }

/-- A store of a command number. -/
def flashRow (n : BitVec 2) (s : State) : Res :=
  mwinStore s (fun off v => mwinRow off v == .fcmd && v == n.setWidth 64) fun _ _ s => { s with flash := s.flash.command n }

/-- FCMD_READ (R427). -/
def execFcmdRead (s : State) : Res := flashRow 1 s
/-- FCMD_PROGRAM (R427). -/
def execFcmdProgram (s : State) : Res := flashRow 2 s
/-- FCMD_ERASE (R427). -/
def execFcmdErase (s : State) : Res := flashRow 3 s

/-- What a command does to the flash. -/
def Flash.perform (f : Flash) (n : BitVec 2) : Flash :=
  let a := f.runAddr.toNat
  match n with
  | 1 => { f with fdata := (List.range 64).foldl (fun m i => m.setByte i (flashGet f.cells (a + i))) Memory.empty }
  | 2 => { f with cells := (List.range 64).foldl (fun c i => flashSet c (a + i) (flashGet c (a + i) &&& f.runData.byte i)) f.cells }
  | _ => { f with cells := f.cells.filter fun c => c.1 / 65536 != a / 65536 }

/-- FLASH_COMMAND_COMPLETE (R427). -/
def execFlashCommandComplete (s : State) : Res :=
  match s.flash.busy with
  | none => .refused .eventDisabled
  | some n => .next { s with flash := { s.flash.perform n with busy := none } }

/-! ### Format regions (R398, R399) -/

/-- Fields of CTL that hold a value. -/
def ctlMask : Word := 0xE00000000000001F

/-- Whether a region of a die may be enabled with a value of CTL. -/
def State.regionOk (s : State) (i : Nat) (v : Word) : Bool :=
  let r := s.region i
  let die := i / 64
  let vlo := 2 ^ 39 + die * 2 ^ 36
  let slo := die * 2 ^ 36
  let c6 := v.extractLsb' 61 2 == 1
  let others := s.regions.any fun e => e.1 != i && e.1 / 64 == die && e.2.enabled &&
    decide (r.vbase.toNat < e.2.vbase.toNat + e.2.vsize.toNat) && decide (e.2.vbase.toNat < r.vbase.toNat + r.vsize.toNat)
  decide (v.extractLsb' 61 2 ≤ 1) && decide (v.extractLsb' 0 5 ≤ 18) && r.vbase.toNat % 4096 == 0 && r.vsize.toNat % 4096 == 0 &&
    r.sbase.toNat % 8 == 0 && r.cb.toNat % (if c6 then 128 else 32) == 0 && isHbm r.cb.toNat &&
    decide (vlo ≤ r.vbase.toNat) && decide (r.vbase.toNat + r.vsize.toNat ≤ vlo + 2 ^ 36) &&
    decide (slo ≤ r.sbase.toNat) && decide (r.sbase.toNat ≤ r.slimit.toNat) && decide (r.slimit.toNat ≤ slo + 2 ^ 36) && !others

/-- The codebook entries at an address (R62). -/
def State.codebookAt (s : State) (a n : Nat) : List Half := (List.range n).map fun i => (s.homeRead (a + 2 * i) 2).val.setWidth 16

/-- FORMAT_REGION_ENABLE (R399). -/
def execFormatRegionEnable (s : State) : Res :=
  rowStore .regionEnable s fun off v s =>
    let o := off - 0x100000000
    let i := 64 * (o / 0x10000000) + (o % 0x10000000 - 0x400000) / 64
    let r := s.region i
    if s.regionOk i v then
      s.setRegion i { r with ctl := v &&& ctlMask, pcount := 0,
                             codebook := s.codebookAt r.cb.toNat (if v.extractLsb' 61 2 == 1 then 64 else 16) }
    else s.setRegion i { r with ctl := v &&& ctlMask &&& ~~~bitAt 63, refused := true }

/-! ### Other registers -/

/-- HUSKCLR (R175). -/
def execHuskclr (s : State) : Res :=
  rowStore .huskclr s fun off v s =>
    let o := off - 0x100000000
    let i := 64 * (o / 0x10000000) + o % 0x10000000 / 0x10000
    if v.getLsbD 0 then s.setSlice i { s.slice i with huskNext := 0, huskTotal := 0 } else s

/-- Change a cluster's power block. -/
def State.modPower (s : State) (cl : Nat) (f : Power → Power) : State :=
  let k := s.cluster cl
  s.setCluster cl { k with power := f k.power }

/-- THROTTLE_WRITE (R408). -/
def execThrottleWrite (s : State) : Res :=
  rowStore .throttle s fun off v s =>
    let n := (v.extractLsb' 0 4).toNat
    if n = 0 || 8 < n then s else s.modPower ((off - 0x200000000) / 0x1000) fun p => { p with throttle := n }

/-- A store to a power block register without behaviour of its own (R414). -/
def Power.store (p : Power) (off : Nat) (v : Word) : Power :=
  if off = 0x10 then { p with alert := v &&& 0x80000000FFFFFFFF }
  else if off = 0x18 then { p with tlimCap := v.extractLsb' 0 16, tlimMig := v.extractLsb' 16 16 }
  else if off = 0x20 then (if 16 < (v.extractLsb' 0 5).toNat then p else { p with bslots := (v.extractLsb' 0 5).toNat })
  else if 0x40 ≤ off && off < 0x80 then { p with lkt := p.lkt.set ((off - 0x40) / 8) v }
  else if off = 0x80 then { p with tpts := v }
  else p

/-- A store to a region register without behaviour of its own (R398). -/
def Region.store (r : Region) (off : Nat) (v : Word) : Region :=
  match off with
  | 0x00 => { r with vbase := v }
  | 0x08 => { r with vsize := v }
  | 0x10 => { r with sbase := v }
  | 0x18 => { r with slimit := v }
  | 0x20 => { r with cb := v }
  | 0x28 => { r with ctl := v &&& ctlMask }
  | 0x30 => { r with holes := v }
  | _ => { r with refused := r.refused && !v.getLsbD 63, werr := r.werr && !v.getLsbD 62 }

/-- A store to a die area. -/
def State.dieStore (s : State) (die off : Nat) (v : Word) : State :=
  if off < 0x400000 then s
  else if off < 0x410000 then
    let i := 64 * die + (off - 0x400000) / 64
    s.setRegion i ((s.region i).store (off % 64) v)
  else
    let i := 16 * die + (off - 0x410000) / 0x1000
    s.setSector i { s.sector i with spill := v }

/-- Fields of word 0 of a peer-table entry that hold a value (R369). -/
def peerMask : Word := 0xFFC0000000000000

/-- Store a register of the window that has no row of its own; a read-only register ignores it. -/
def State.plainStore (s : State) (off : Nat) (v : Word) : State :=
  if off < 0x100000 then
    (if 0x100 ≤ off then
      { s with spine := { s.spine with slots := s.spine.slots.setIfInBounds ((off - 0x100) / 8) (v.extractLsb' 0 12) } }
     else s)
  else if off < 0x200000 then
    let p := (off - 0x100000) / 16
    let e := (Table.find s.spine.peers p).getD (0, 0)
    { s with spine := { s.spine with peers := Table.put s.spine.peers p (if off % 16 = 0 then (v &&& peerMask, e.2) else (e.1, v)) } }
  else if off < 0x300000 then
    let n := (off - 0x200000) / 32
    let e := (Table.find s.spine.tenants n).getD (0, 0)
    let e1 := if off % 32 = 0 then (v, e.2) else (e.1, v.extractLsb' 0 8)
    { s with spine := { s.spine with tenants := Table.put s.spine.tenants n e1 } }
  else if off < 0x400000 then
    let j := (off - 0x300000) / 256
    let l := s.link j
    if off % 256 < 0x20 then s.setLink j { l with key := l.key.set (off % 256 / 8) v } else s
  else if off < 0x100000000 then
    (if off = 0x400000 then { s with flash := { s.flash with faddr := v &&& ~~~63#64 } }
     else if 0x400040 ≤ off then
      { s with flash := { s.flash with fdata := s.flash.fdata.write (off - 0x400040) 8 ⟨v, false⟩ } }
     else s)
  else if off < 0x200000000 then s.dieStore ((off - 0x100000000) / 0x10000000) (off % 0x10000000) v
  else s.modPower ((off - 0x200000000) / 0x1000) (·.store (off % 0x1000) v)

/-- A store to a register of the window without behaviour of its own (R413), an unknown flash command among them. -/
def windowWrite (s : State) : Res :=
  mwinStore s (fun off v => mwinRow off v == .plain || (mwinRow off v == .fcmd && (v == 0 || 3 < v.toNat))) fun off v s =>
    if mwinRow off v == .plain then s.plainStore off v else s

/-! ### Alerts (R415) -/

/-- ALERTQ_POP (R415): context `ctx` of the management core stands at an MFS of ALERTQ and performs it. -/
def execAlertqPop (s : State) : Res :=
  let n := s.ev.ctx
  let x := s.ctx mgmtCore n
  match s.peekHalf mgmtCore x.pc, s.peekHalf mgmtCore (x.pc + 2) with
  | some h, some l =>
    match decode32 (h ++ l) with
    | some (.mfs d sr) =>
      guardEvent (sr == 0x109 && x.st == .ready && x.tr.priv == 3 && x.packet.isNone && !s.mgmt.halted && !s.mgmt.dead)
        (execMfs d sr { s with cur := ⟨mgmtCore, n⟩ })
    | _ => .refused .eventDisabled
  | _, _ => .refused .eventDisabled

end Sys2Proof.Machine
end

