-- ==== Sys2Proof/Machine/Digest.lean ====
section
/-! DEFINITION. SHAKE256, which firmware images, keys and reports are hashed with: 00 R11, 16 R426, R429. The spec names the
function; its steps are those of FIPS 202 (log 7). -/

namespace Sys2Proof.Machine

/-- The 25 lanes of the permutation: lane x of plane y stands at 5y + x. -/
abbrev KeccakState := List Word

def KeccakState.lane (a : KeccakState) (x y : Nat) : Word := a.getD (5 * (y % 5) + x % 5) 0
/-- KeccakState from a function of x and y. -/
def KeccakState.of (f : Nat → Nat → Word) : KeccakState := (List.range 25).map fun i => f (i % 5) (i / 5)

/-- How far ρ turns each lane. -/
def rhoOffsets : List Nat := [0, 1, 62, 28, 27, 36, 44, 6, 55, 20, 3, 10, 43, 25, 39, 41, 45, 15, 21, 8, 18, 2, 61, 56, 14]

/-- What ι adds in each of the 24 rounds. -/
def roundConstants : List Word :=
  [0x1, 0x8082, 0x800000000000808A, 0x8000000080008000, 0x808B, 0x80000001, 0x8000000080008081, 0x8000000000008009, 0x8A, 0x88,
   0x80008009, 0x8000000A] ++
  [0x8000808B, 0x800000000000008B, 0x8000000000008089, 0x8000000000008003, 0x8000000000008002, 0x8000000000000080, 0x800A,
   0x800000008000000A, 0x8000000080008081, 0x8000000000008080, 0x80000001, 0x8000000080008008]

/-- θ: each lane takes the parities of two columns. -/
def theta (a : KeccakState) : KeccakState :=
  let c := (List.range 5).map fun x => (List.range 5).foldl (fun w y => w ^^^ a.lane x y) 0
  KeccakState.of fun x y => a.lane x y ^^^ c.getD ((x + 4) % 5) 0 ^^^ (c.getD ((x + 1) % 5) 0).rotateLeft 1
/-- ρ and π: lanes turn and change places. -/
def rhoPi (a : KeccakState) : KeccakState := KeccakState.of fun x y => (a.lane (x + 3 * y) x).rotateLeft (rhoOffsets.getD (5 * (x % 5) + (x + 3 * y) % 5) 0)
/-- χ. -/
def chi (a : KeccakState) : KeccakState := KeccakState.of fun x y => a.lane x y ^^^ (~~~(a.lane (x + 1) y) &&& a.lane (x + 2) y)
/-- One round, ending with ι. -/
def keccakRound (a : KeccakState) (rc : Word) : KeccakState :=
  match chi (rhoPi (theta a)) with
  | [] => []
  | l :: r => (l ^^^ rc) :: r
def keccak (a : KeccakState) : KeccakState := roundConstants.foldl keccakRound a

/-- The bytes of the lanes, and the lanes of a block of bytes. -/
def KeccakState.bytes (a : KeccakState) : List Byte := a.flatMap fun w => (List.range 8).map fun i => w.extractLsb' (8 * i) 8
def lanesOf (b : List Byte) : KeccakState :=
  (List.range 25).map fun i => BitVec.ofNat 64 (((b.drop (8 * i)).take 8).foldr (fun d n => d.toNat + 256 * n) 0)

/-- The message with the suffix of SHAKE and the padding to whole blocks. -/
def shakePad (rate : Nat) (msg : List Byte) : List Byte :=
  let gap := rate - msg.length % rate
  msg ++ if gap = 1 then [0x9F] else [0x1F] ++ List.replicate (gap - 2) 0 ++ [0x80]

/-- Take the blocks of a padded message in, one after another. -/
def absorb (rate : Nat) (b : List Byte) : KeccakState :=
  (List.range (b.length / rate)).foldl (fun a i => keccak (List.zipWith (· ^^^ ·) a (lanesOf ((b.drop (rate * i)).take rate))))
    (List.replicate 25 0)

/-- Blocks of output. -/
def squeeze (rate : Nat) : Nat → KeccakState → List Byte
  | 0, _ => []
  | n + 1, a => a.bytes.take rate ++ squeeze rate n (keccak a)

/-- SHAKE with a rate of `rate` bytes and an output of `n` bytes. -/
def shake (rate : Nat) (msg : List Byte) (n : Nat) : List Byte := (squeeze rate (n / rate + 1) (absorb rate (shakePad rate msg))).take n

/-- SHAKE256 with an output of `n` bytes (R11, R426). -/
def shake256 (msg : List Byte) (n : Nat) : List Byte := shake 136 msg n
/-- SHAKE128, which ML-DSA samples its matrix with. -/
def shake128 (msg : List Byte) (n : Nat) : List Byte := shake 168 msg n

end Sys2Proof.Machine
end

