-- ==== Sys2Proof/Machine/Signature.lean ====
section
/-! DEFINITION. ML-DSA-65, which signs firmware images and attestation reports: 00 R11, 16 R426, R429. The spec names the
scheme and the sizes of its keys and signatures; its steps are those of FIPS 204 (log 7). -/

namespace Sys2Proof.Machine

/-! ### Parameters and arithmetic modulo q -/

def dsaQ : Nat := 8380417
/-- γ₁ and γ₂: the ranges of the mask and of the low bits. -/
def dsaGamma1 : Nat := 524288
def dsaGamma2 : Nat := 261888
/-- τ · η: how far the secret can move a response. -/
def dsaBeta : Nat := 196
/-- ω: the most hints of a signature. -/
def dsaOmega : Nat := 55
/-- Rows and columns of the matrix. -/
def dsaK : Nat := 6
def dsaL : Nat := 5

/-- A polynomial: 256 coefficients modulo q, the constant one first. -/
abbrev Poly := List Nat

def Poly.add (a b : Poly) : Poly := List.zipWith (fun x y => (x + y) % dsaQ) a b
def Poly.sub (a b : Poly) : Poly := List.zipWith (fun x y => (x + dsaQ - y) % dsaQ) a b
def Poly.mul (a b : Poly) : Poly := List.zipWith (fun x y => x * y % dsaQ) a b
def Poly.zero : Poly := List.replicate 256 0

/-- The residue of least magnitude, above -m/2. -/
def centred (x m : Nat) : Int := let r := x % m; if 2 * r ≤ m then r else (r : Int) - m
/-- The residue of an integer. -/
def residue (x : Int) : Nat := (x % dsaQ).toNat
/-- The largest magnitude of a coefficient. -/
def Poly.norm (a : Poly) : Nat := a.foldl (fun n x => max n (centred x dsaQ).natAbs) 0

/-! ### The number-theoretic transform -/

/-- Powers of ζ = 1753, whose order is 512. -/
def zetaPowers : List Nat := (List.range 512).map fun k => 1753 ^ k % dsaQ
/-- The exponent of the `i`-th root: 2·BitRev₈(i) + 1. -/
def rootExp (i : Nat) : Nat := 2 * (List.range 8).foldl (fun n k => n + i / 2 ^ k % 2 * 2 ^ (7 - k)) 0 + 1

/-- The values of a polynomial at the roots. -/
def Poly.ntt (a : Poly) : Poly :=
  (List.range 256).map fun i => let z := zetaPowers.getD (rootExp i) 0; a.foldr (fun x v => (x + v * z) % dsaQ) 0
/-- The polynomial of its values at the roots; 8347681 is 1/256. -/
def Poly.ofNtt (a : Poly) : Poly :=
  let es := (List.range 256).map rootExp
  (List.range 256).map fun j =>
    8347681 * (List.zipWith (fun v e => v * zetaPowers.getD ((512 - e) * j % 512) 0) a es).foldl (· + ·) 0 % dsaQ

/-- A row of the matrix times a vector, all transformed. -/
def dotRow (row v : List Poly) : Poly := (List.zipWith Poly.mul row v).foldl Poly.add Poly.zero
/-- The matrix, transformed, times a vector. -/
def timesMatrix (m v : List (List Nat)) : List Poly :=
  let w := v.map Poly.ntt
  (List.range dsaK).map fun r => (dotRow ((m.drop (dsaL * r)).take dsaL) w).ofNtt

/-! ### Packing -/

/-- Values of `b` bits each as bytes, least significant first. -/
def packBits (b : Nat) (vs : List Nat) : List Byte :=
  let n := vs.foldr (fun v n => v % 2 ^ b + 2 ^ b * n) 0
  (List.range (vs.length * b / 8)).map fun i => BitVec.ofNat 8 (n / 256 ^ i)
def unpackBits (b : Nat) (bs : List Byte) : List Nat :=
  let n := bs.foldr (fun d n => d.toNat + 256 * n) 0
  (List.range (bs.length * 8 / b)).map fun i => n / 2 ^ (b * i) % 2 ^ b
/-- Coefficients between 1 - b and b, as b less each. -/
def packSigned (b bits : Nat) (a : Poly) : List Byte := packBits bits (a.map fun x => ((b : Int) - centred x dsaQ).toNat)
def unpackSigned (b bits : Nat) (bs : List Byte) : Poly := (unpackBits bits bs).map fun (v : Nat) => residue ((b : Int) - v)

/-! ### Rounding and hints -/

/-- Power2Round: r = r₁·2¹³ + r₀. -/
def lowPart (x : Nat) : Int := centred x 8192
def highPart (x : Nat) : Nat := (((x : Int) - lowPart x) / 8192).toNat

/-- Decompose: high and low bits for 2γ₂. -/
def decompose (x : Nat) : Nat × Int :=
  let r := centred x (2 * dsaGamma2)
  if (x : Int) - r = dsaQ - 1 then (0, r - 1) else ((((x : Int) - r) / (2 * dsaGamma2)).toNat, r)
def highBits (x : Nat) : Nat := (decompose x).1
/-- Whether adding `z` to `r` changes the high bits. -/
def makeHint (z r : Nat) : Bool := highBits r != highBits ((r + z) % dsaQ)
def useHint (h : Bool) (r : Nat) : Nat :=
  match decompose r with
  | (r1, r0) => if !h then r1 else if 0 < r0 then (r1 + 1) % 16 else (r1 + 15) % 16

/-- The hints of a signature: their places row by row, then how many end with each row. -/
def packHints (h : List (List Bool)) : List Byte :=
  let places := h.map fun row => (row.zipIdx.filter (·.1)).map (·.2)
  let flat := places.flatten
  let ends := (List.range h.length).map fun i => ((places.take (i + 1)).map List.length).foldl (· + ·) 0
  ((flat ++ List.replicate (dsaOmega - flat.length) 0) ++ ends).map fun n => BitVec.ofNat 8 n
/-- Whether numbers rise strictly. -/
def rising : List Nat → Bool
  | a :: b :: r => decide (a < b) && rising (b :: r)
  | _ => true
/-- The hints that bytes hold; `none` where they are malformed. -/
def unpackHints (bs : List Byte) : Option (List (List Bool)) :=
  let y := bs.map (·.toNat)
  let ends := y.drop dsaOmega
  let starts := 0 :: ends
  let rows := (List.range dsaK).map fun i => (y.drop (starts.getD i 0)).take (ends.getD i 0 - starts.getD i 0)
  let ordered := (List.range dsaK).all fun i => decide (starts.getD i 0 ≤ ends.getD i 0) && decide (ends.getD i 0 ≤ dsaOmega)
  if ordered && rows.all rising && ((y.take dsaOmega).drop (ends.getD (dsaK - 1) 0)).all (· == 0) then
    some (rows.map fun row => (List.range 256).map fun j => row.contains j)
  else none

/-! ### Sampling (each `none` where the bounded output of the XOF does not suffice) -/

/-- The first 256 of a list. -/
def first256 (l : List Nat) : Option Poly := if l.length < 256 then none else some (l.take 256)

/-- An entry of the matrix, transformed: coefficients of 23 bits below q. -/
def rejNtt (rho : List Byte) (r c : Nat) : Option Poly :=
  let b := (shake128 (rho ++ [BitVec.ofNat 8 c, BitVec.ofNat 8 r]) 1008).map (·.toNat)
  first256 (((List.range 336).map fun i => b.getD (3 * i) 0 + 256 * b.getD (3 * i + 1) 0 + 65536 * (b.getD (3 * i + 2) 0 % 128)).filter (· < dsaQ))
/-- A secret polynomial: coefficients from -4 to 4. -/
def rejBounded (seed : List Byte) (r : Nat) : Option Poly :=
  let b := shake256 (seed ++ [BitVec.ofNat 8 r, BitVec.ofNat 8 (r / 256)]) 544
  let nibbles : List Nat := b.flatMap fun d => [d.toNat % 16, d.toNat / 16]
  first256 ((nibbles.filter (· < 9)).map fun (v : Nat) => residue (4 - (v : Int)))
/-- The whole matrix, row after row. -/
def expandA (rho : List Byte) : Option (List Poly) := (List.range (dsaK * dsaL)).mapM fun i => rejNtt rho (i / dsaL) (i % dsaL)
/-- The mask of one attempt. -/
def expandMask (seed : List Byte) (kappa : Nat) : List Poly :=
  (List.range dsaL).map fun r =>
    let n := kappa + r
    unpackSigned dsaGamma1 20 (shake256 (seed ++ [BitVec.ofNat 8 n, BitVec.ofNat 8 (n / 256)]) 640)

/-- Place the 49 signs of the challenge: `i` is the next place, and bytes above it are passed over. -/
def placeSigns (signs : Nat) : List Nat → Nat → Poly → Option Poly
  | [], i, c => if i = 256 then some c else none
  | j :: r, i, c =>
    if i = 256 then some c
    else if i < j then placeSigns signs r i c
    else placeSigns signs r (i + 1)
      (((c.set i (c.getD j 0))).set j (if signs / 2 ^ (i + 49 - 256) % 2 = 1 then dsaQ - 1 else 1))
/-- The challenge polynomial. -/
def sampleInBall (seed : List Byte) : Option Poly :=
  let b := (shake256 seed 272).map (·.toNat)
  placeSigns ((b.take 8).foldr (fun d n => d + 256 * n) 0) (b.drop 8) 207 Poly.zero

/-! ### Keys, signatures and their verification -/

/-- A key pair before it is encoded. -/
structure DsaKey where
  rho : List Byte
  key : List Byte
  a : List Poly
  s1 : List Poly
  s2 : List Poly
  t : List Poly

/-- Key generation from a seed of 32 bytes. -/
def dsaKeygen (seed : List Byte) : Option DsaKey := do
  let h := shake256 (seed ++ [6, 5]) 128
  let rho := h.take 32
  let inner := (h.drop 32).take 64
  let a ← expandA rho
  let s1 ← (List.range dsaL).mapM fun r => rejBounded inner r
  let s2 ← (List.range dsaK).mapM fun r => rejBounded inner (dsaL + r)
  return ⟨rho, h.drop 96, a, s1, s2, List.zipWith Poly.add (timesMatrix a s1) s2⟩

/-- The public key as bytes. -/
def DsaKey.public (k : DsaKey) : List Byte := k.rho ++ (k.t.flatMap fun p => packBits 10 (p.map highPart))

/-- What is signed of a message: an empty context, the message, bound to the key. -/
def dsaMu (pk msg : List Byte) : List Byte := shake256 (shake256 pk 64 ++ [0, 0] ++ msg) 64

/-- The challenge of an attempt. -/
def dsaChallenge (mu : List Byte) (w1 : List (List Nat)) : List Byte := shake256 (mu ++ w1.flatMap (packBits 4)) 48

/-- One attempt to sign: `some none` where it must be repeated. -/
def signOnce (k : DsaKey) (mu seed : List Byte) (kappa : Nat) : Option (Option (List Byte)) := do
  let y := expandMask seed kappa
  let w := timesMatrix k.a y
  let ch := dsaChallenge mu (w.map (·.map highBits))
  let c ← (sampleInBall ch).map Poly.ntt
  let by_ := fun (v : List Poly) => v.map fun p => (Poly.mul c p.ntt).ofNtt
  let z := List.zipWith Poly.add y (by_ k.s1)
  let r := List.zipWith Poly.sub w (by_ k.s2)
  let t0 := by_ (k.t.map (·.map fun x => residue (lowPart x)))
  let h := List.zipWith (fun r t => List.zipWith (fun x y => makeHint ((dsaQ - y) % dsaQ) ((x + y) % dsaQ)) r t) r t0
  let small := z.all (fun p => decide (p.norm < dsaGamma1 - dsaBeta)) &&
    r.all (fun p => p.all fun x => decide ((decompose x).2.natAbs < dsaGamma2 - dsaBeta)) &&
    t0.all (fun p => decide (p.norm < dsaGamma2)) && decide ((h.flatten.filter id).length ≤ dsaOmega)
  return if small then some (ch ++ z.flatMap (packSigned dsaGamma1 20) ++ packHints h) else none

/-- Attempts until one succeeds. -/
def signLoop (k : DsaKey) (mu seed : List Byte) : Nat → Nat → Option (List Byte)
  | 0, _ => none
  | fuel + 1, kappa =>
    match signOnce k mu seed kappa with
    | none => none
    | some (some sig) => some sig
    | some none => signLoop k mu seed fuel (kappa + dsaL)

/-- ML-DSA-65 key generation: the public key of a seed (R429). -/
def mldsaPublic (seed : List Byte) : List Byte := ((dsaKeygen seed).map DsaKey.public).getD (Config.unsampled seed)

/-- ML-DSA-65 signing: the key's seed, 32 random bytes and the message (R429). -/
def mldsaSign (seed rnd msg : List Byte) : List Byte :=
  (do
    let k ← dsaKeygen seed
    let mu := dsaMu k.public msg
    signLoop k mu (shake256 (k.key ++ rnd ++ mu) 64) 814 0).getD (Config.unsampled (seed ++ rnd ++ msg))

/-- ML-DSA-65 verification: public key, message, signature (R11, R426). -/
def mldsaVerify (pk msg sig : List Byte) : Bool :=
  (do
    let ch := sig.take 48
    let z := (List.range dsaL).map fun i => unpackSigned dsaGamma1 20 ((sig.drop (48 + 640 * i)).take 640)
    let h ← unpackHints (sig.drop (48 + 640 * dsaL))
    let a ← expandA (pk.take 32)
    let c ← (sampleInBall ch).map Poly.ntt
    let t1 := (List.range dsaK).map fun i => (unpackBits 10 ((pk.drop (32 + 320 * i)).take 320)).map fun v => v * 8192 % dsaQ
    let w := List.zipWith Poly.sub (timesMatrix a z) (t1.map fun (p : Poly) => (Poly.mul c p.ntt).ofNtt)
    let w1 := List.zipWith (fun p b => List.zipWith (fun x y => useHint y x) p b) w h
    return pk.length == 1952 && sig.length == 3309 && z.all (fun p => decide (p.norm < dsaGamma1 - dsaBeta)) &&
      dsaChallenge (dsaMu pk msg) w1 == ch).getD false

end Sys2Proof.Machine
end

