-- ==== Sys2Proof/Machine/HostPort.lean ====
section
/-! DEFINITION. The host window: 16 R417 to R421, R429. -/

namespace Sys2Proof.Machine

/-! ### Bytes -/

/-- `n` bytes of a number, little-endian. -/
def leBytes (v : Nat) : Nat → List Byte
  | 0 => []
  | n + 1 => BitVec.ofNat 8 v :: leBytes (v / 256) n

/-- A number from little-endian bytes. -/
def ofLe : List Byte → Nat
  | [] => 0
  | b :: r => b.toNat + 256 * ofLe r

/-! ### Reads and writes of the window (R417) -/

/-- Host accesses are performed at homes (R419). -/
def hmemBase (sel : Word) : Nat :=
  let g := (sel.extractLsb' 0 4).toNat
  if g < 8 then g * 2 ^ 36 else 2 ^ 39 + (g - 8) * 2 ^ 36

/-- A word of the report (R429). -/
def HostWindow.reportWord (h : HostWindow) (off : Nat) : Word := BitVec.ofNat 64 (ofLe ((h.report.drop off).take 8))

/-- A read of a launch port (R418). -/
def HostWindow.lport (h : HostWindow) (i : Nat) : Word :=
  let p := h.lports.toList.getD i (0, 0, false)
  (if p.2.2 then bitAt 63 else 0) ||| (p.2.1.setWidth 64 <<< 32) ||| p.1.setWidth 64

/-- A register of the host window; HEVQ shows its oldest word. -/
def State.hostWord (s : State) (off : Nat) : Word :=
  if off = 0 then s.bootst
  else if off = 0x18 then s.host.hmemsel
  else if off = 0x20 then s.spine.hevq.head?.getD 0
  else if off = 0x28 then s.host.hevctl
  else if off = 0x30 then s.host.hevaddr
  else if 0x100 ≤ off && off < 0x180 then s.host.lport ((off - 0x100) / 8)
  else if off = 0x1028 then (if s.host.ready then BitVec.ofNat 64 (5381 * 2 ^ 16 + 1) else 0)
  else if 0x2000 ≤ off && off < 0x4000 then s.host.reportWord (off - 0x2000)
  else 0

/-- What the host has read. -/
def State.hostRead (s : State) (v : Word) : State := { s with host := { s.host with lastRead := v } }

/-- HMEM_ACCESS (R420): the host reads window offset `w`, or with `ok` writes `w2` there. A read elsewhere in the window
returns its register. -/
def execHmemAccess (s : State) : Res :=
  let off := s.ev.w.toNat
  if off % 8 != 0 then .refused .eventDisabled
  else if 0x100000000 ≤ off && off < 0x1100000000 then
    let pa := hmemBase s.host.hmemsel + (off - 0x100000000)
    if s.ev.ok then .next (s.arriveWrite pa 8 ⟨s.ev.w2, false⟩ .noPage)
    else let (v, s1) := s.serveUnit pa; .next (s1.hostRead v.val)
  else guardEvent (!s.ev.ok && off != 0x20 && decide (off < 0x4000)) (.next (s.hostRead (s.hostWord off)))

/-- HEVQ_POP (R421). -/
def execHevqPop (s : State) : Res :=
  .next { s.hostRead (s.hostWord 0x20) with spine := { s.spine with hevq := s.spine.hevq.drop 1 } }

/-- DOORBELL (R417). -/
def execDoorbell (s : State) : Res := .next { s with mgmt := { s.mgmt with host := true } }

/-- A host write to a register without behaviour of its own. -/
def State.hostStore (s : State) (off : Nat) (v : Word) : State :=
  if off = 0x18 then { s with host := { s.host with hmemsel := v &&& 0xF } }
  else if off = 0x28 then { s with host := { s.host with hevctl := v &&& 1 } }
  else if off = 0x30 then { s with host := { s.host with hevaddr := v } }
  else if 0x1000 ≤ off && off < 0x1020 && !s.host.forming then
    let o := off - 0x1000
    { s with host := { s.host with nonce := s.host.nonce.take o ++ leBytes v.toNat 8 ++ s.host.nonce.drop (o + 8) } }
  else s

/-- Whether an offset has a row of its own for host writes. -/
def hostRow (off : Nat) : Bool :=
  off = 0x08 || off = 0x10 || off = 0x1020 || (0x100 ≤ off && off < 0x180) || 0x100000000 ≤ off

/-- REGISTER_WRITE (R413, R417): a store to a window register without behaviour of its own; with `ok` the host writes `w2`
at offset `w` of its window. -/
def execRegisterWrite (s : State) : Res :=
  if s.ev.ok then guardEvent (s.ev.w.toNat % 8 == 0 && !hostRow s.ev.w.toNat) (.next (s.hostStore s.ev.w.toNat s.ev.w2))
  else windowWrite s

/-! ### Launch ports (R418) -/

/-- LPORT_SUBMIT (R418): the host writes `w` to port `idx`; the spine sends it to sector `unit`. A slot with no tenant
bound ignores it, and a full intake holds it back. -/
def execLportSubmit (s : State) : Res :=
  let i : Fin 16 := Fin.ofNat 16 s.ev.idx
  let t := s.spine.slots[i]
  let sec := s.ev.unit
  let q := s.sector sec
  if t = 0 then .next s
  else guardEvent (decide (sec < 128) && decide (q.intake.length < 8))
    (let x := s.ev.w
     match (if x.extractLsb' 0 7 != 0 then (none, s) else s.engineRecord t x) with
     | (none, s1) => .next (s1.portRefused i true)
     | (some (r, base), s1) =>
       if s1.recordBad t r base || s1.launchRefused sec t x r base then .next (s1.portRefused i true)
       else
         let q1 := s1.sector sec
         let e : Intake := ⟨x, t, q1.nextNum, some i, none⟩
         .next ((s1.setSector sec { q1 with intake := q1.intake ++ [e], nextNum := q1.nextNum + 1 }).portRefused i false))

/-! ### Attestation (R429) -/

/-- AGO (R429): ignored while a report is being formed. -/
def execAgo (s : State) : Res :=
  .next (if s.host.forming then s else { s with host := { s.host with forming := true, ready := false } })

/-- The attestation seed of an image and life-cycle state. -/
def attestSeed (digest : List Byte) (lc : BitVec 8) : List Byte := shake256 (Config.uds ++ digest ++ [lc]) 32

/-- The digest of the running image as bytes. -/
def Spine.digest (p : Spine) : List Byte := p.fwDigest.flatMap fun w => leBytes w.toNat 8

/-- The signed part of a report. -/
def State.reportBody (s : State) : List Byte :=
  s.host.nonce ++ leBytes Config.serial.toNat 8 ++ leBytes s.spine.version.toNat 8 ++ s.spine.digest ++ leBytes s.bootst.toNat 8 ++
    mldsaPublic (attestSeed s.spine.digest s.spine.lc)

/-- REPORT_COMPLETE (R429): the report, signed with random bytes that nothing constrains. -/
def execReportComplete (s : State) : Res :=
  guardEvent s.host.forming
    (let b := s.reportBody
     let sig := mldsaSign (attestSeed s.spine.digest s.spine.lc) (Config.signRandom s.fresh) b
     .next { s with host := { s.host with report := b ++ sig, ready := true, forming := false }, fresh := s.fresh + 1 })

end Sys2Proof.Machine
end

