-- ==== Sys2Proof/Machine/Integer.lean ====
section
/-! DEFINITION. The integer instructions and their short forms: 05 R125 to R130, 02 R48. -/

namespace Sys2Proof.Machine

/-- ADD (R125). -/
def execAdd (d a b : Reg) (q : Pred) (s : State) : Res := alu3 (· + ·) d a b q s
/-- SUB (R125). -/
def execSub (d a b : Reg) (q : Pred) (s : State) : Res := alu3 (· - ·) d a b q s
/-- AND (R125). -/
def execAnd (d a b : Reg) (q : Pred) (s : State) : Res := alu3 (· &&& ·) d a b q s
/-- OR (R125). -/
def execOr (d a b : Reg) (q : Pred) (s : State) : Res := alu3 (· ||| ·) d a b q s
/-- XOR (R125). -/
def execXor (d a b : Reg) (q : Pred) (s : State) : Res := alu3 (· ^^^ ·) d a b q s
/-- ANDN (R125). -/
def execAndn (d a b : Reg) (q : Pred) (s : State) : Res := alu3 (fun x y => x &&& ~~~y) d a b q s
/-- SHL (R125). -/
def execShl (d a b : Reg) (q : Pred) (s : State) : Res := alu3 shl6 d a b q s
/-- SHR (R125). -/
def execShr (d a b : Reg) (q : Pred) (s : State) : Res := alu3 shr6 d a b q s
/-- SAR (R125). -/
def execSar (d a b : Reg) (q : Pred) (s : State) : Res := alu3 sar6 d a b q s
/-- MIN (R125). -/
def execMin (d a b : Reg) (q : Pred) (s : State) : Res := alu3 minS d a b q s
/-- MAX (R125). -/
def execMax (d a b : Reg) (q : Pred) (s : State) : Res := alu3 maxS d a b q s
/-- MINU (R125). -/
def execMinu (d a b : Reg) (q : Pred) (s : State) : Res := alu3 minU d a b q s
/-- MAXU (R125). -/
def execMaxu (d a b : Reg) (q : Pred) (s : State) : Res := alu3 maxU d a b q s
/-- SEL (R125): always executes; the predicate and both sources count for poison (R28). -/
def execSel (d a b : Reg) (q : Pred) (s : State) : Res :=
  let p := s.pReg q.idx
  let x := s.gReg a
  let y := s.gReg b
  done (s.setG d ⟨if p.val != q.neg then x.val else y.val, p.poison || x.poison || y.poison⟩)
/-- CLZ (R125). -/
def execClz (d a : Reg) (q : Pred) (s : State) : Res := alu2 clz64 d a q s
/-- CTZ (R125). -/
def execCtz (d a : Reg) (q : Pred) (s : State) : Res := alu2 ctz64 d a q s
/-- POPC (R125). -/
def execPopc (d a : Reg) (q : Pred) (s : State) : Res := alu2 popc64 d a q s
/-- ADDI (R126). -/
def execAddi (d a : Reg) (imm : BitVec 10) (q : Pred) (s : State) : Res := 
  aluImm (· + ·) d a (imm.signExtend 64) q s
/-- ANDI (R126). -/
def execAndi (d a : Reg) (imm : BitVec 10) (q : Pred) (s : State) : Res := 
  aluImm (· &&& ·) d a (imm.signExtend 64) q s
/-- ORI (R126). -/
def execOri (d a : Reg) (imm : BitVec 10) (q : Pred) (s : State) : Res := 
  aluImm (· ||| ·) d a (imm.signExtend 64) q s
/-- XORI (R126). -/
def execXori (d a : Reg) (imm : BitVec 10) (q : Pred) (s : State) : Res := 
  aluImm (· ^^^ ·) d a (imm.signExtend 64) q s
/-- SHLI (R127). -/
def execShli (d a : Reg) (sh : BitVec 6) (s : State) : Res := unary (· <<< sh.toNat) d a s
/-- SHRI (R127). -/
def execShri (d a : Reg) (sh : BitVec 6) (s : State) : Res := unary (· >>> sh.toNat) d a s
/-- SARI (R127). -/
def execSari (d a : Reg) (sh : BitVec 6) (s : State) : Res := unary (·.sshiftRight sh.toNat) d a s
/-- BFX (R127): a field of W = wm1 + 1 bits at L, sign-extended. -/
def execBfx (d a : Reg) (lsb wm1 : BitVec 6) (s : State) : Res :=
  let w := wm1.toNat + 1
  unary (fun x => ((BitVec.ofNat w (fieldOf x lsb.toNat w)).signExtend 64)) d a s
/-- BFXU (R127): zero-extended. -/
def execBfxu (d a : Reg) (lsb wm1 : BitVec 6) (s : State) : Res :=
  unary (fun x => BitVec.ofNat 64 (fieldOf x lsb.toNat (wm1.toNat + 1))) d a s
/-- The field of W bits at L of `x` replaced by the low bits of `y`. -/
def insertField (x y : Word) (l w : Nat) : Word :=
  let m : Word := (BitVec.allOnes 64 >>> (64 - w)) <<< l
  (x &&& ~~~m) ||| ((y <<< l) &&& m)
/-- BFI (R127): g[d] is the third source. -/
def execBfi (d a : Reg) (lsb wm1 : BitVec 6) (s : State) : Res :=
  done (s.setG d (PWord.map2 (fun x y => insertField x y lsb.toNat (wm1.toNat + 1)) (s.gReg d) (s.gReg a)))
/-- MOVHI (R128). -/
def execMovhi (d : Reg) (imm : BitVec 17) (s : State) : Res := done (s.putG d (imm.signExtend 64 <<< 10))
/-- LEA (R128): a byte displacement from the LEA. -/
def execLea (d : Reg) (imm : BitVec 17) (s : State) : Res := done (s.putG d (s.me.pc + imm.signExtend 64))
/-- PCMP (R129). -/
def execPcmp (d : PReg) (a b : Reg) (c : PCond) (q : Pred) (s : State) : Res :=
  pred q s (done (s.setP d ⟨condHolds c (s.gReg a).val (s.gReg b).val, (s.gReg a).poison || (s.gReg b).poison⟩))
/-- PCMPI (R129): the immediate is sign-extended for the signed conditions and zero-extended for the others. -/
def execPcmpi (d : PReg) (a : Reg) (imm : BitVec 4) (c : PCond) (q : Pred) (s : State) : Res :=
  let y : Word := if condSigned c then imm.signExtend 64 else imm.setWidth 64
  pred q s (done (s.setP d ⟨condHolds c (s.gReg a).val y, (s.gReg a).poison⟩))
/-- PLOG (R129). -/
def execPlog (d a b : PReg) (f : PLogFn) (q : Pred) (s : State) : Res :=
  pred q s (done (s.setP d ⟨plogApply f (s.pReg a).val (s.pReg b).val, (s.pReg a).poison || (s.pReg b).poison⟩))
/-- PMOV pd, pa (R129). -/
def execPmovPp (d a : PReg) (q : Pred) (s : State) : Res := pred q s (done (s.setP d (s.pReg a)))
/-- PMOV pd, ga (R129). -/
def execPmovPg (d : PReg) (a : Reg) (q : Pred) (s : State) : Res :=
  pred q s (done (s.setP d ⟨(s.gReg a).val != 0, (s.gReg a).poison⟩))
/-- PMOV gd, pa (R129). -/
def execPmovGp (d : Reg) (a : PReg) (q : Pred) (s : State) : Res :=
  pred q s (done (s.setG d ⟨if (s.pReg a).val then 1 else 0, (s.pReg a).poison⟩))
/-- MUL (R130). -/
def execMul (d a b : Reg) (q : Pred) (s : State) : Res := alu3 (· * ·) d a b q s
/-- MULH (R130). -/
def execMulh (d a b : Reg) (q : Pred) (s : State) : Res := alu3 mulHigh d a b q s
/-- MULHU (R130). -/
def execMulhu (d a b : Reg) (q : Pred) (s : State) : Res := alu3 mulHighU d a b q s
/-- DIV (R130), on the divide unit (R88, R122). -/
def execDiv (d a b : Reg) (q : Pred) (s : State) : Res := 
  pred q s (onDivide (.div d a b q) d (PWord.map2 divS (s.gReg a) (s.gReg b)) 0 s)
/-- DIVU (R130), on the divide unit (R88, R122). -/
def execDivu (d a b : Reg) (q : Pred) (s : State) : Res := 
  pred q s (onDivide (.divu d a b q) d (PWord.map2 divU (s.gReg a) (s.gReg b)) 0 s)
/-- MOD (R130), on the divide unit (R88, R122). -/
def execMod (d a b : Reg) (q : Pred) (s : State) : Res := 
  pred q s (onDivide (.mod d a b q) d (PWord.map2 modS (s.gReg a) (s.gReg b)) 0 s)
/-- MODU (R130), on the divide unit (R88, R122). -/
def execModu (d a b : Reg) (q : Pred) (s : State) : Res := 
  pred q s (onDivide (.modu d a b q) d (PWord.map2 modU (s.gReg a) (s.gReg b)) 0 s)
/-! ### Short forms (R48) -/
/-- Short form of ADD d, d, r (R48). -/
def execAddS (d r : Reg) (s : State) : Res := alu3 (· + ·) d d r always s
/-- Short form of SUB d, d, r (R48). -/
def execSubS (d r : Reg) (s : State) : Res := alu3 (· - ·) d d r always s
/-- Short form of AND d, d, r (R48). -/
def execAndS (d r : Reg) (s : State) : Res := alu3 (· &&& ·) d d r always s
/-- Short form of OR d, d, r (R48). -/
def execOrS (d r : Reg) (s : State) : Res := alu3 (· ||| ·) d d r always s
/-- Short form of XOR d, d, r (R48). -/
def execXorS (d r : Reg) (s : State) : Res := alu3 (· ^^^ ·) d d r always s
/-- Short form of ANDN d, d, r (R48). -/
def execAndnS (d r : Reg) (s : State) : Res := alu3 (fun x y => x &&& ~~~y) d d r always s
/-- Short form of SHL d, d, r (R48). -/
def execShlS (d r : Reg) (s : State) : Res := alu3 shl6 d d r always s
/-- Short form of SHR d, d, r (R48). -/
def execShrS (d r : Reg) (s : State) : Res := alu3 shr6 d d r always s
/-- Short form of SAR d, d, r (R48). -/
def execSarS (d r : Reg) (s : State) : Res := alu3 sar6 d d r always s
/-- Short form of MIN d, d, r (R48). -/
def execMinS (d r : Reg) (s : State) : Res := alu3 minS d d r always s
/-- Short form of MAX d, d, r (R48). -/
def execMaxS (d r : Reg) (s : State) : Res := alu3 maxS d d r always s
/-- Short form of MINU d, d, r (R48). -/
def execMinuS (d r : Reg) (s : State) : Res := alu3 minU d d r always s
/-- Short form of MAXU d, d, r (R48). -/
def execMaxuS (d r : Reg) (s : State) : Res := alu3 maxU d d r always s
/-- Short form of MUL d, d, r (R48). -/
def execMulS (d r : Reg) (s : State) : Res := alu3 (· * ·) d d r always s
/-- Short form of CLZ d, r (R48). -/
def execClzS (d r : Reg) (s : State) : Res := alu2 clz64 d r always s
/-- Short form of CTZ d, r (R48). -/
def execCtzS (d r : Reg) (s : State) : Res := alu2 ctz64 d r always s
/-- Short form of POPC d, r (R48). -/
def execPopcS (d r : Reg) (s : State) : Res := alu2 popc64 d r always s
/-- Short form of ADDI d, d, imm (R48, R126). -/
def execAddiS (d : Reg) (imm : BitVec 6) (s : State) : Res := aluImm (· + ·) d d (imm.signExtend 64) always s
/-- Short form of ANDI d, d, imm (R48, R126). -/
def execAndiS (d : Reg) (imm : BitVec 6) (s : State) : Res := aluImm (· &&& ·) d d (imm.signExtend 64) always s
/-- Short form of ORI d, d, imm (R48, R126). -/
def execOriS (d : Reg) (imm : BitVec 6) (s : State) : Res := aluImm (· ||| ·) d d (imm.signExtend 64) always s
/-- Short form of XORI d, d, imm (R48, R126). -/
def execXoriS (d : Reg) (imm : BitVec 6) (s : State) : Res := aluImm (· ^^^ ·) d d (imm.signExtend 64) always s
/-- Short form of SHLI d, d, L (R48). -/
def execShliS (d : Reg) (sh : BitVec 6) (s : State) : Res := unary (· <<< sh.toNat) d d s
/-- Short form of SHRI d, d, L (R48). -/
def execShriS (d : Reg) (sh : BitVec 6) (s : State) : Res := unary (· >>> sh.toNat) d d s
/-- Short form of SARI d, d, L (R48). -/
def execSariS (d : Reg) (sh : BitVec 6) (s : State) : Res := unary (·.sshiftRight sh.toNat) d d s

end Sys2Proof.Machine
end

