-- ==== Sys2Proof/Machine/Lease.lean ====
section
/-! DEFINITION. Boost leases: 16 R409 to R412. -/

namespace Sys2Proof.Machine

def leaseActive : Word := bitAt 63
def leaseCancel : Word := bitAt 62
def leaseExpired : Word := bitAt 61
def leaseDefer : Word := bitAt 60
/-- REMAIN (R411). -/
def leaseRemain (l : Word) : Nat := (l.extractLsb' 0 16).toNat
/-- Whether a core's task holds a slot. -/
def Core.leased (k : Core) : Bool := k.lease.getLsbD 63

/-- Boost slots of a cluster that are taken. -/
def State.slotsTaken (s : State) (cl : Nat) : Nat :=
  ((List.range 16).filter fun i => (s.core (16 * cl + i)).leased).length
/-- Whether a cluster has a free slot; the management core belongs to no cluster (R413). -/
def State.slotFree (s : State) (c : CoreId) : Bool :=
  c != mgmtCore && decide (s.slotsTaken (clusterOf c) < (s.cluster (clusterOf c)).power.bslots)

/-- Put a lease back when a slot is free, else cancel it (R412). -/
def State.moveLease (s : State) (c : CoreId) (l : Word) : Word :=
  if !l.getLsbD 63 then l
  else if s.slotFree c then l else (l &&& ~~~leaseActive &&& ~~~(0xFFFF : Word)) ||| leaseCancel

/-- BOOST (R410). -/
def execBoost (d a : Reg) (q : Pred) (s : State) : Res :=
  pred q s
    (let v := s.gReg a
     needClean v a s
       (let s1 := s.modMyCore fun k => { k with lease := 0 }
        let n := Nat.min v.val.toNat 10000
        if n = 0 then done (s1.putG d 0)
        else if s1.slotFree s.cur.core then
          let m := BitVec.ofNat 64 (10 * ((n + 9) / 10))
          done ((s1.modMyCore fun k => { k with lease := leaseActive ||| m }).putG d m)
        else done (s1.putG d 0)))

/-- BREL (R410). -/
def execBrel (q : Pred) (s : State) : Res := pred q s (done (s.modMyCore fun k => { k with lease := 0 }))

end Sys2Proof.Machine
end

