-- ==== Sys2Proof/Machine/Links.lean ====
section
/-! DEFINITION. The up-links: 15 R389 to R392. Encryption changes no state that a rule names; what a received frame holds,
and whether its IV and its tag match, comes with the step. -/

namespace Sys2Proof.Machine

/-- The last value of a direction's counter, which leaves one (R390). -/
def lastCount : Nat := 2 ^ 95 - 1

/-- The management core starts, in RUN, once step 9 has ended: no up-link is still to be trained (R422 steps 9 and 10). -/
def State.runWhenTrained (s : State) : State :=
  if s.spine.stage == 9 && (List.range 36).all fun i => (s.link i).state != .train then
    ({ s with spine := { s.spine with stage := 0xF } }).modCtx mgmtCore 0 fun x => { x with st := .ready }
  else s

/-- LINK_TRAINING_COMPLETE (R390, R391): link `unit`, in step 9 of a start (R422) or in RUN; `w` is this end's nonce and `w2`
the far end's. Equal nonces restart training. -/
def execLinkTrainingComplete (s : State) : Res :=
  let l := s.link s.ev.unit
  guardEvent (decide (s.ev.unit < 36) && l.state == .train && (s.spine.stage == 9 || s.spine.stage == 0xF))
    (.next (if s.ev.w == s.ev.w2 then s
            else (s.setLink s.ev.unit { l with state := .run, prim := decide (s.ev.w2 < s.ev.w), badFrames := 0 }).runWhenTrained))

/-- A message that is sent again over another link is no longer kept for the one before (R392). -/
def State.resent (s : State) (id : Nat) : State :=
  { s with links := s.links.map fun (e : Nat × Link) => (e.1, { e.2 with unacked := e.2.unacked.filter (· != id) }) }

/-- A link enters HOLD or DOWN: what it has sent without an acknowledgement is to be sent again, over links in RUN (R392). -/
def Link.leaveRun (l : Link) (st : LinkState) : Link := { l with state := st, unacked := [] }

/-- A link that has no counter value left to use, and no new key, holds (R390). -/
def Link.checkCount (l : Link) (now : Word) : Link :=
  if l.txCtr == lastCount || l.rxCtr == lastCount then { l.leaveRun .hold with rekey := true, holdSince := now } else l

/-- Where a message for another device goes: the device, the place in it, and the source on this device; `none` for one that
stays here. -/
def State.outward (s : State) : Msg → Option (BitVec 16 × Nat × Nat)
  | .packet _ l _ d _ _ _ => if s.isSelf (rwPeer d) then none else some (rwPeer d, (rwLcn d).toNat, l.toNat)
  | .reply _ req _ _ p l _ _ _ _ => if s.isSelf p then none else some (p, l.toNat, req)
  | .ack l d req _ _ => if s.isSelf d then none else some (d, req, l.toNat)
  | .answer o _ => some (o.peer, o.lcn.toNat, mgmtCore)
  | .tag .. | .tstAck .. | .access .. => none

/-- The up-links in RUN. -/
def State.openLinks (s : State) : List Nat := (List.range 36).filter fun i => (s.link i).state == .run

/-- The up-link of a destination: the fixed hash of R368 among the links in RUN (R392). -/
def State.linkFor (s : State) (p : BitVec 16) (l : Nat) : Option Nat :=
  s.openLinks[Config.pathHash (p.toNat * 2 ^ 19 + l) % s.openLinks.length]?

/-- Messages of one source to one destination leave in the order they were sent (R368, R392): none before message `id` is
still to be sent over link `u`. -/
def State.linkFirst (s : State) (u id : Nat) (way : BitVec 16 × Nat × Nat) : Bool :=
  !s.fabric.any fun m => decide (m.1 < id) && s.outward m.2 == some way && !(s.link u).unacked.contains m.1

/-- Bit 95 of a direction's IV: 0 where the primary end sends (R391). -/
def ivOf (fromPrim : Bool) (ctr : Nat) : BitVec 96 := BitVec.ofNat 96 ((if fromPrim then 0 else 2 ^ 95) + ctr)
/-- The IV of the next frame a link sends, and of the next it receives. -/
def Link.txIv (l : Link) : BitVec 96 := ivOf l.prim l.txCtr
def Link.rxIv (l : Link) : BitVec 96 := ivOf (!l.prim) l.rxCtr
/-- The frame header, which is the additional authenticated data: IV, flits less 1, link number, zeros (R391). -/
def frameHeader (iv : BitVec 96) (n link : Nat) : List Byte :=
  (List.range 12).map (fun i => BitVec.ofNat 8 (iv.toNat / 256 ^ i)) ++ [BitVec.ofNat 8 (n - 1), BitVec.ofNat 8 link, 0, 0]

/-- LINK_FRAME_SEND (R389, R391, R392): link `unit` sends a frame of `w` data flits with message `idx`, which goes to a peer,
under the header `frameHeader` of its IV; a message that has not been acknowledged may be sent again, also where the hash has come to
name another link. -/
def execLinkFrameSend (s : State) : Res :=
  let l := s.link s.ev.unit
  let n := s.ev.w.toNat
  match (s.msg s.ev.idx).bind s.outward with
  | none => .refused .eventDisabled
  | some way =>
    guardEvent (decide (s.ev.unit < 36) && l.state == .run && decide (1 ≤ n) && decide (n ≤ 32) && decide (l.txCtr + n ≤ lastCount) &&
        s.linkFor way.1 way.2.1 == some s.ev.unit && s.linkFirst s.ev.unit s.ev.idx way)
      (let s1 := s.resent s.ev.idx
       let l1 := s1.link s.ev.unit
       let l1 := { l1 with txCtr := l.txCtr + n, unacked := l1.unacked ++ [s.ev.idx] }
       .next (s1.setLink s.ev.unit (l1.checkCount s.time)))

/-- A packet that a frame from a peer brings: source word and destination word as R375 lays them out. -/
def framePacket (src dst : Word) (win : Option Word) (data : List PWord) : Msg :=
  .packet (rwPeer src) (rwLcn src) (src.extractLsb' 0 12) dst win data none

/-- What a frame brings from a peer besides packets: an access to a home of this device, or a FETCHTO reply. -/
def msgOfPeer : PeerMsg → Option Msg
  | .none => none
  | .access o pa timed r => some (.access o pa timed r false)
  | .reply o num l dst rtag data fault => some (.reply o.peer o.lcn.toNat num o.tenant 0 l dst rtag data fault)

/-- LINK_FRAME_RECEIVE (R391): link `unit` receives a frame of `idx` data flits whose header holds `iv`, which the receiver
checks against its own count, which advances by the flits of every frame (that it does so also for a frame whose IV it does not
expect is DEDUCED, log 76); `ok2` says whether its GCM tag matches. `data`, unless empty, is a packet's payload, `w` its
source word with the sender's tenant in bits 11:0, `w2` its destination word, and `pw`, when tagged, its window address;
`peer` is what else it carries. -/
def execLinkFrameReceive (s : State) : Res :=
  let l := s.link s.ev.unit
  let n := s.ev.idx
  guardEvent (decide (s.ev.unit < 36) && l.state == .run && decide (1 ≤ n) && decide (n ≤ 32))
    (if s.ev.iv == l.rxIv && s.ev.ok2 && l.rxCtr + n ≤ lastCount then
       let l1 := { l with rxCtr := l.rxCtr + n, badFrames := 0 }
       let s1 := s.setLink s.ev.unit (l1.checkCount s.time)
       let win := if s.ev.pw.poison then some s.ev.pw.val else none
       let ms := (if s.ev.data.isEmpty then [] else [framePacket s.ev.w s.ev.w2 win s.ev.data]) ++ (msgOfPeer s.ev.peer).toList
       .next (ms.foldl (fun s m => { s with fabric := s.fabric ++ [(s.seq, m)] }.nextSeq) s1)
     else
       let l1 := { l with rxCtr := Nat.min lastCount (l.rxCtr + n), badFrames := l.badFrames + 1 }
       .next (s.setLink s.ev.unit (if 16 ≤ l1.badFrames then { l1.leaveRun .down with rekey := true } else l1.checkCount s.time)))

/-- LINK_ACK_RECEIVE (R392): the far end of link `unit` acknowledges packet `idx`, which the spine then drops. -/
def execLinkAckReceive (s : State) : Res :=
  let l := s.link s.ev.unit
  guardEvent (l.unacked.contains s.ev.idx)
    (.next { s.setLink s.ev.unit { l with unacked := l.unacked.filter (· != s.ev.idx) } with
             fabric := s.fabric.filter fun m => m.1 != s.ev.idx })

/-- LINK_HOLD_TIMEOUT (R390): link `unit` has held for 1 ms, which is 125,000 ticks. -/
def execLinkHoldTimeout (s : State) : Res :=
  let l := s.link s.ev.unit
  guardEvent (l.state == .hold && decide (125000 ≤ ahead s.time l.holdSince)) (.next (s.setLink s.ev.unit { l with state := .down }))

/-- LINK_RETRAIN (R390): the management core retrains link `unit`. -/
def execLinkRetrain (s : State) : Res :=
  let l := s.link s.ev.unit
  guardEvent (l.state == .down) (.next (s.setLink s.ev.unit { l with state := .train }))

end Sys2Proof.Machine
end

