-- ==== Sys2Proof/Machine/Engine.lean ====
section
/-! DEFINITION. The matrix engine: operand tiles, accumulation, scales, the rotation torus, and what a job does: 11 R253 to
R273. -/

namespace Sys2Proof.Machine

/-! ### Status bits (R264) -/

def jBadScale : Word := bitAt 15
def jNotOwn : Word := bitAt 14
def jPoison : Word := bitAt 13
def jEmpty : Word := bitAt 12
def jSat : Word := bitAt 11
def jOF : Word := bitAt 10
def jUF : Word := bitAt 9
def jNX : Word := bitAt 8
def jDiscarded : Word := bitAt 3
/-- A fault of the status: BADSCALE, NOTOWN, POISON or EMPTY (R263). -/
def jFault (st : Word) : Bool := st &&& (jBadScale ||| jNotOwn ||| jPoison ||| jEmpty) != 0

/-! ### Arithmetic (R257) -/

/-- RS(v, s): v / 2^s to the nearest integer, ties to even, and whether a nonzero part was discarded. -/
def roundShift (v : Int) (sh : Nat) : Int × Bool :=
  let d : Int := 2 ^ sh
  let q := v / d
  let r := v % d
  (if d < 2 * r || (2 * r = d && q % 2 != 0) then q + 1 else q, r != 0)

def accHi : Int := 2 ^ 47 - 1
def accLo : Int := -2 ^ 47
/-- Clamp to 48 bits, and whether that changed it. -/
def clamp48 (v : Int) : Int × Bool := if accHi < v then (accHi, true) else if v < accLo then (accLo, true) else (v, false)

/-- The weight of plane `j` of `p` (R255). -/
def planeWeight (sgn : Bool) (p j : Nat) : Int := if sgn && j + 1 == p then -(2 ^ j) else 2 ^ j

/-- Row `i` of an operand register: the weight and the word of each plane. -/
def OpReg.row (r : OpReg) (i : Nat) : List (Int × BitVec 32) :=
  r.planes.zipIdx.map fun (ws, j) => (planeWeight r.sgn r.planes.length j, ws.getD i 0)

/-- The exact block sum of a row and a column. -/
def dotRows (a b : List (Int × BitVec 32)) : Int :=
  (a.map fun (wa, x) => (b.map fun (wb, y) => wa * wb * (popcFrom ((x &&& y).setWidth 64) 32 : Nat)).sum).sum

/-- The greatest of some integers; 0 of none. -/
def maxInt : List Int → Int
  | [] => 0
  | [x] => x
  | x :: r => let m := maxInt r; if m < x then x else m

/-- One row of R257: the row, whether it saturated, whether a rounding discarded something. -/
def accRow (row : TileRow) (x : Int) (ds : List (Int × Nat)) (bad : Bool) : TileRow × Bool × Bool :=
  let up := decide (row.xt < x)
  let sh := (x - row.xt).toNat
  let c := (row.xt - x).toNat
  let old := if up then row.t.map fun v => roundShift v sh else row.t.map fun v => (v, false)
  let sums := (old.zip ds).map fun ((t, n1), (d, k)) =>
    let (r, n2) := roundShift d (k + c)
    let (v, st) := clamp48 (t + r)
    (v, st, n1 || n2)
  let sat := sums.any fun q => q.2.1
  (⟨sums.map (·.1), if up then x else row.xt, row.poison || bad, row.sat || sat⟩, sat, sums.any fun q => q.2.2)

/-- Accumulate an A register and a B register into a tile: the tile and its status (R257). POISON: an operand or a row that
was read is poisoned (R263). -/
def accumulateTile (t : AccTile) (a b : OpReg) : AccTile × Word :=
  let mx := maxInt b.exps
  let cols := (List.range 32).map fun j => (b.row j, (mx - b.exps.getD j 0).toNat)
  let bBad := b.poison != 0
  let rows := t.rows.zipIdx.map fun (row, i) =>
    let ar := a.row i
    accRow row (a.exps.getD i 0 + mx) (cols.map fun (c, k) => (dotRows ar c, k)) (a.poison.getLsbD i || bBad)
  ({ t with rows := rows.map (·.1) },
   flagIf (rows.any fun r => r.2.1) jSat ||| flagIf (rows.any fun r => r.2.2) jNX |||
     flagIf (rows.any fun r => r.1.poison) jPoison)

/-! ### Operand tiles (R255, R267) -/

/-- Fields of a load descriptor (R256). -/
def dscFlt (d : Word) : Bool := d.getLsbD 13
def dscSgn (d : Word) : Bool := d.getLsbD 12
def dscPrec (d : Word) : Nat := (d.extractLsb' 8 4).toNat + 1
/-- Units of a tile: 16 for each plane, and 4 of exponents. -/
def dscUnits (d : Word) : Nat := 16 * dscPrec d + (if dscFlt d then 4 else 0)

/-- The units of a tile in cluster SRAM; a bank not in scratch mode reads as poisoned (R266). -/
def State.tileUnits (s : State) (cl off n : Nat) : List PWord :=
  let k := s.cluster cl
  (List.range n).map fun u =>
    if k.mode ((off + 8 * u) / 4096) == .scratch then k.sramRead (off + 8 * u) 8 else PWord.poison0

/-- Both 32-bit words of a unit. -/
def unitWords (u : PWord) : List (BitVec 32) := [u.val.extractLsb' 0 32, u.val.extractLsb' 32 32]
/-- The eight signed exponents of a unit. -/
def unitExps (u : PWord) : List Int := (List.range 8).map fun b => (u.val.extractLsb' (8 * b) 8).toInt

/-- An operand register loaded from the units of its tile. -/
def loadTile (owner : Option Nat) (d : Word) (us : List PWord) : OpReg :=
  let p := dscPrec d
  let planes := (List.range p).map fun j => ((us.drop (16 * j)).take 16).flatMap unitWords
  let ex := us.drop (16 * p)
  let bad := fun i => (List.range p).any (fun j => (us.getD (16 * j + i / 2) PWord.zero).poison) ||
    (dscFlt d && (ex.getD (i / 8) PWord.zero).poison)
  ⟨owner, p - 1, dscSgn d, dscFlt d, planes, if dscFlt d then ex.flatMap unitExps else List.replicate 32 0,
   (List.range 32).foldl (fun (a : BitVec 32) i => if bad i then a ||| (1#32 <<< i) else a) 0, false⟩

/-! ### Resources (R254, R271) -/

/-- The registers a multiply names. -/
def maIdx (k : Bool) : Fin 4 := if k then 1 else 0
def mbIdx (k : Bool) : Fin 4 := if k then 3 else 2

/-- The owner of resource `r` in the order of R266: tiles 0 to 7, then ma0, ma1, mb0, mb1. -/
def Octet.ownerOf (o : Octet) (r : Nat) : Option Nat :=
  if h : r < 8 then o.tiles[r].owner else if h : r - 8 < 4 then o.ops[r - 8].owner else none
/-- Reset a resource and give it an owner. -/
def Octet.giveRes (o : Octet) (r : Nat) (w : Option Nat) : Octet :=
  if h : r < 8 then { o with tiles := o.tiles.set r { AccTile.reset with owner := w } }
  else if h : r - 8 < 4 then { o with ops := o.ops.set (r - 8) { OpReg.reset with owner := w } } else o

/-- The resources of a mask. -/
def maskRes (m : Word) : List Nat := (List.range 12).filter fun r => m.getLsbD r
/-- MASK of the status: what a position owns, in bits 47:36. -/
def Octet.ownMask (o : Octet) (pos : Nat) : Word :=
  (List.range 12).foldl (fun (a : Word) r => if o.ownerOf r == some pos then a ||| bitAt (36 + r) else a) 0

/-- MCFG.OWN: all or nothing. -/
def Octet.own (o : Octet) (pos : Nat) (m : Word) : Octet × Word :=
  if (maskRes m).all fun r => (o.ownerOf r).isNone || o.ownerOf r == some pos then
    let o1 := (maskRes m).foldl (fun o r => if (o.ownerOf r).isNone then o.giveRes r (some pos) else o) o
    (o1, o1.ownMask pos)
  else (o, jNotOwn ||| o.ownMask pos)
/-- MCFG.FREE. -/
def Octet.unown (o : Octet) (pos : Nat) (m : Word) : Octet × Word :=
  let o1 := (maskRes m).foldl (fun o r => if o.ownerOf r == some pos then o.giveRes r none else o) o
  (o1, o1.ownMask pos)

/-! ### Multiplies (R263, R268, R270) -/

/-- The checks of R263 on a tile and two registers. -/
def Octet.macFault (o : Octet) (pos : Nat) (t : Tile) (a b : Fin 4) : Word :=
  flagIf (o.tiles[t].owner != some pos || o.ops[a].owner != some pos || o.ops[b].owner != some pos) jNotOwn |||
    flagIf (o.ops[a].empty || o.ops[b].empty) jEmpty

/-- MMAC, MMUL and the accumulation of MMR. -/
def Octet.mac (o : Octet) (pos : Nat) (fresh : Bool) (t : Tile) (a b : Fin 4) : Octet × Word :=
  let f := o.macFault pos t a b
  if f != 0 then (o, f)
  else
    let t0 := if fresh then { AccTile.reset with owner := o.tiles[t].owner } else o.tiles[t]
    let (t1, st) := accumulateTile t0 o.ops[a] o.ops[b]
    ({ o with tiles := o.tiles.set t t1 }, st)

/-- Neighbours of an octet in its group's torus (R269). -/
def westOf (o : Nat) : Nat := o / 16 * 16 + (o % 16 / 4 * 4 + (o % 4 + 3) % 4)
def northOf (o : Nat) : Nat := o / 16 * 16 + ((o % 16 / 4 + 3) % 4 * 4 + o % 4)

/-- Send a tile into the torus. -/
def State.sendTile (s : State) (o : Nat) (step : MmrStep) (isA : Bool) (r : OpReg) : State :=
  let k := s.octet o
  s.setOctet o { k with torus := k.torus ++ [⟨step, isA, r⟩] }

/-- MMR starts: it takes its step, accumulates and sends; with NOTOWN or EMPTY it sends tiles marked EMPTY (R270). -/
def State.startMmr (s : State) (o : Nat) (j : Job) (t : Tile) (a b : Fin 4) : State :=
  let k := s.octet o
  let (k1, st) := k.mac (octPos j.core) false t a b
  let bad := k.macFault (octPos j.core) t a b != 0
  let out := fun (r : OpReg) => if bad then { OpReg.reset with owner := none } else { r with owner := none }
  let s1 := s.setOctet o { k1 with running := some { j with status := st }, mmrNow := k.mmrNext, mmrNext := ⟨k.mmrNext.bind, k.mmrNext.n + 1⟩ }
  (s1.sendTile (westOf o) k.mmrNext true (out k.ops[a])).sendTile (northOf o) k.mmrNext false (out k.ops[b])

/-- The tile of a step that has arrived. -/
def Octet.arrived (o : Octet) (step : MmrStep) (isA : Bool) : Option OpReg :=
  (o.torus.find? fun q => q.step == step && q.isA == isA).map (·.tile)

/-- MMR finishes with both tiles in; one that faulted discards them. -/
def Octet.endMmr (o : Octet) (pos : Nat) (st : Word) (a b : Fin 4) : Option Octet :=
  let n := o.mmrNow
  match o.arrived n true, o.arrived n false with
  | some ta, some tb =>
    let o1 := { o with torus := o.torus.filter fun q => q.step != n }
    if st &&& (jNotOwn ||| jEmpty) != 0 || o.ops[a].owner != some pos || o.ops[b].owner != some pos then some o1
    else some { o1 with ops := (o1.ops.set a { ta with owner := some pos }).set b { tb with owner := some pos } }
  | _, _ => none

/-! ### Reading rows (R272) -/

/-- The 32 elements MRDA writes, 16 to each of two registers, and its status. -/
def readRow (row : TileRow) (raw half : Bool) : List Elem × Word :=
  let pz := flagIf row.poison jPoison
  if raw then
    let ts := (row.t.drop (if half then 16 else 0)).take 16
    let x : BitVec 16 := BitVec.ofInt 16 row.xt
    (ts.map (fun t => ⟨BitVec.ofInt 32 t, row.poison, 0⟩) ++
      ts.map (fun t => ⟨x ++ (BitVec.ofInt 48 t).extractLsb' 32 16, row.poison, 0⟩), pz)
  else
    let rs := row.t.map fun t => roundF .f32 .rne true (decide (t < 0)) t.natAbs row.xt false
    let fl := rs.foldl (fun (f : Word) r => f ||| r.2) 0
    (rs.map (fun r => ⟨BitVec.ofNat 32 r.1, row.poison, 0⟩),
     pz ||| flagIf (fl &&& fNX != 0) jNX ||| flagIf (fl &&& fOF != 0) jOF ||| flagIf (fl &&& fUF != 0) jUF)

/-- Fields of a read descriptor (R256). -/
def dscV (d : Word) : Nat := (d.extractLsb' 16 4).toNat
def dscHalf (d : Word) : Bool := d.getLsbD 15
def dscRow (d : Word) : Nat := (d.extractLsb' 8 5).toNat

/-- Elements of a register landed where `here` says so. A unit whose elements are all accounted for takes their poison
alone. -/
def VReg.landElems (v : VReg) (es : List Elem) (here whole : Nat → Bool) : VReg :=
  let el := fun i => es.getD i (Elem.of 0)
  let at_ := fun u => here (2 * u) || here (2 * u + 1)
  ⟨BitVec.ofNat 512 (packElems ((List.range 16).map fun i => if here i then (el i).val else v.elem i)),
   (List.range 8).foldl (fun p u => setBit8 p u
     (if at_ u then (el (2 * u)).poison || (el (2 * u + 1)).poison || (v.poison.getLsbD u && !whole u)
      else v.poison.getLsbD u)) 0⟩

/-- Land some of MRDA's 32 elements in the registers it writes, as far as its context still holds them; `past`: those that
have landed by then. -/
def State.landRow (s : State) (j : Job) (es : List Elem) (here past : Nat → Bool) : State :=
  s.modCtx j.core j.ctx fun x =>
    [0, 1].foldl (fun x r =>
      let n := dscV j.dsc + r
      if h : n < 16 then
        if n < x.count then
          { x with v := x.v.set n (x.v[n].landElems ((es.drop (16 * r)).take 16) (fun i => here (16 * r + i))
              (fun u => past (16 * r + 2 * u) && past (16 * r + 2 * u + 1))) }
        else x
      else x) x

/-! ### Scales (R273) -/

/-- Slots of the receive queue that hold data. -/
def RxQueue.slotsHeld (q : RxQueue) : Nat := (q.held.map fun p => (p.data.length + 7) / 8).sum

/-- Remove the oldest slot: its 64 bytes, those of no packet poisoned. -/
def RxQueue.takeSlot (q : RxQueue) : List PWord × RxQueue :=
  match q.held with
  | [] => (List.replicate 8 PWord.poison0, q)
  | p :: r =>
    let d := p.data.take 8
    (d ++ List.replicate (8 - d.length) PWord.poison0,
     { q with held := if p.data.length ≤ 8 then r else { p with slot := (p.slot + 1) % 16, data := p.data.drop 8 } :: r })

/-- Slots an MSCL takes. -/
def SclMode.slots : SclMode → Nat
  | .r | .c => 1
  | .rc => 2

/-- The 32 BF16 scales of a slot. -/
def slotScales (us : List PWord) : List FVal :=
  us.flatMap fun u => (List.range 4).map fun k => fval .bf16 (u.val.extractLsb' (16 * k) 16).toNat
def finite (v : FVal) : Bool :=
  match v with
  | .fin _ _ _ => true
  | .nan _ | .inf _ => false

/-- A signed dyadic number. -/
abbrev Dyadic := Int × Int
def fvalDyadic : FVal → Dyadic
  | .fin s m e => (if s then -(m : Int) else m, e)
  | .nan _ | .inf _ => (0, 0)

/-- RS of a dyadic number divided by 2^x. -/
def dyadicAt (v : Dyadic) (x : Int) : Int × Bool :=
  if x ≤ v.2 then (v.1 * 2 ^ (v.2 - x).toNat, false) else roundShift v.1 (x - v.2).toNat

/-- The least exponent at which a nonzero dyadic number fits 48 bits. -/
def leastExp (v : Dyadic) : Int :=
  let x0 : Int := v.2 + bitLen v.1.natAbs - 48
  if !(clamp48 (dyadicAt v x0).1).2 then x0
  else if !(clamp48 (dyadicAt v (x0 + 1)).1).2 then x0 + 1 else x0 + 2

/-- One scaled row: the row, whether it saturated, whether a rounding discarded something. -/
def scaleRow (row : TileRow) (r : Dyadic) (cs : List Dyadic) (bad : Bool) : TileRow × Bool × Bool :=
  let vs : List Dyadic := (row.t.zip cs).map fun (t, c) => (t * r.1 * c.1, row.xt + r.2 + c.2)
  let big := (vs.filter fun v => v.1 != 0).map leastExp
  let p := row.poison || bad
  if big.isEmpty then (⟨List.replicate 32 0, -512, p, row.sat⟩, false, false)
  else
    let x := maxInt big
    let sat := decide (511 < x)
    let x1 := if 511 < x then 511 else if x < -512 then -512 else x
    let qs := vs.map fun v => dyadicAt v x1
    (⟨qs.map fun q => (clamp48 q.1).1, x1, p, row.sat || sat⟩, sat, qs.any (·.2))

/-- Whether some scale of the slots taken is NaN or infinite. -/
def badScales (us : List PWord) : Bool := !(slotScales us).all finite

/-- MSCL on a tile with the slots it has taken. Scales of which one is NaN or infinite set BADSCALE alone, also when a unit of them
is poisoned (DESIGN CHOICE, log 75: R263 gives each fault its bit, R273 ends at BADSCALE). -/
def scaleTile (t : AccTile) (m : SclMode) (us : List PWord) : AccTile × Word :=
  let one : List Dyadic := List.replicate 32 (1, 0)
  let none8 : List PWord := []
  let (ru, cu) := match m with
    | .r => (us, none8)
    | .c => (none8, us)
    | .rc => (us.take 8, us.drop 8)
  if badScales us then (t, jBadScale)
  else
    let rs := if ru.isEmpty then one else (slotScales ru).map fvalDyadic
    let cs := if cu.isEmpty then one else (slotScales cu).map fvalDyadic
    let cBad := cu.any (·.poison)
    let rows := t.rows.zipIdx.map fun (row, i) =>
      scaleRow row (rs.getD i (1, 0)) cs (cBad || (ru.getD (i / 4) PWord.zero).poison)
    ({ t with rows := rows.map (·.1) },
     flagIf (rows.any fun r => r.2.1) jSat ||| flagIf (rows.any fun r => r.2.2) jNX |||
       flagIf (rows.any fun r => r.1.poison) jPoison)

/-! ### The books of a job (R259, R260, R263) -/

/-- Entries of an octet's queue that are occupied. -/
def Octet.occupied (o : Octet) : Nat := o.queue.length + (if o.running.isSome then 1 else 0)

/-- NEXT after a number is taken: 0 is skipped. -/
def nextJobNo (n : BitVec 16) : BitVec 16 := if n + 1 = 0 then 1 else n + 1

/-- Remove the oldest finished job of a status ring. -/
def dropOldest : List JobStat → List JobStat
  | [] => []
  | j :: r => if j.done then r else j :: dropOldest r
/-- An accepted job takes an entry of its core's ring of 16. -/
def ringAdd (q : List JobStat) (n : BitVec 16) : List JobStat :=
  (if q.length < 16 then q else dropOldest q) ++ [⟨n, 0, false⟩]

/-- A job leaves the books of its core: status, TLM, EVPEND.JOB and its tag (R263). -/
def Core.jobDone (k : Core) (j : Job) (st : Word) : Core :=
  let k1 := ({ k with
    jobs := k.jobs.map fun (q : JobStat) => if q.no == j.no && !q.done then ⟨q.no, st, true⟩ else q
    tlm := k.tlm.complete j.num }).latchAll evJob
  let tag := (j.dsc.extractLsb' 0 6).toNat
  if !j.dsc.getLsbD 6 then k1 else if jFault st then k1.setTagErr tag else k1.setTag tag

/-- The engine is rid of its running job. -/
def State.engineDone (s : State) (o : Nat) (k : Octet) (j : Job) (st : Word) : State :=
  let s1 := s.setOctet o { k with running := none }
  if j.orphan then s1 else s1.modCore j.core fun c => c.jobDone j st

/-- What holds a job at its core's queue head (R143, R261): its guard, or receive slots that an MSCL lacks. -/
def State.headVerdict (s : State) (j : Job) : Verdict :=
  match (s.core j.core).verdict j.guard with
  | .start =>
    (match j.cmd with
     | .mscl _ _ _ m _ => if (s.core j.core).rx.slotsHeld < SclMode.slots m then .wait else .start
     | _ => .start)
  | v => v

/-- The oldest queued job of each core, in search order from the position after the last one served (R261). -/
def Octet.heads (o : Octet) (n : Nat) : List Job :=
  (List.range 8).filterMap fun i => o.queue.find? fun j => j.core == 8 * n + (o.lastPos + 1 + i) % 8

/-- The units that a load reads: offset of the first in the cluster's SRAM, and how many. -/
def Job.source (j : Job) : Option (Nat × Nat) :=
  match j.cmd with
  | .mlda _ _ _ _ _ | .mldb _ _ _ _ _ => some (j.arg.toNat - 0xFFFFFFF00000, dscUnits j.dsc)
  | _ => none

/-- Bit-products of a multiply (R404): 32 × 32 × 32 products of elements, each of every plane of A with every plane of B; one that
faults makes none. -/
def Octet.products (o : Octet) (pos : Nat) (t : Tile) (a b : Fin 4) : Nat :=
  if o.macFault pos t a b != 0 then 0 else 32768 * ((o.ops[a].prec + 1) * (o.ops[b].prec + 1))
/-- Count the bit-products of a job that starts. -/
def State.countProducts (s : State) (o : Nat) (j : Job) : State :=
  let count := fun (t : Tile) (kb ka : Bool) => s.modCore j.core fun c => c.counts fun a =>
    { a with products := a.products + (s.octet o).products (octPos j.core) t (maIdx ka) (mbIdx kb) }
  match j.cmd with
  | .mmac _ t _ kb ka _ | .mmul _ t _ kb ka _ | .mmr _ t _ kb ka _ => count t kb ka
  | _ => s

/-- Start a job: what it takes in at its start. An MSCL takes its slots before any check, so also when its core does not own its
tile (DESIGN CHOICE, log 75: R273 removes them before the run, R263 gives a job with NOTOWN no other effect). -/
def State.startJob (s : State) (o : Nat) (j : Job) : State :=
  let k := s.octet o
  let q := { k with queue := k.queue.filter fun x => x.no != j.no || x.core != j.core, lastPos := octPos j.core }
  let s0 := (s.setOctet o { q with running := some j }).countProducts o j
  match j.cmd with
  | .mmr _ t _ kb ka _ => s0.startMmr o j t (maIdx ka) (mbIdx kb)
  | .mscl _ _ _ m _ =>
    let (u1, r1) := (s.core j.core).rx.takeSlot
    let (u2, r2) := if m == .rc then r1.takeSlot else ([], r1)
    let q1 : Octet := { q with running := some { j with snap := (u1 ++ u2).map some } }
    (s0.setOctet o q1).modCore j.core fun c => { c with rx := r2 }
  | _ => s0

/-- The running job goes on by one unit (R262): a load reads unit `i` of its tile, an MRDA writes element `i`; `none` when that
has been done or is not the job's. -/
def State.jobUnit (s : State) (o : Nat) (j : Job) (i : Nat) : Option State :=
  let k := s.octet o
  match j.source, j.cmd with
  | some (off, n), _ =>
    if i < n && (j.snap.getD i none).isNone then
      let u := (s.tileUnits (clusterOf j.core) (off + 8 * i) 1).head?
      let snap := (j.snap ++ List.replicate (n - j.snap.length) none).set i u
      some (s.setOctet o { k with running := some { j with snap := snap } })
    else none
  | none, .mrda _ t _ _ raw =>
    if i < 32 && !j.early.getLsbD i && !j.orphan && k.tiles[t].owner == some (octPos j.core) then
      let es := (readRow ((k.tiles[t].rows).getD (dscRow j.dsc) TileRow.reset) raw (dscHalf j.dsc)).1
      let s1 := s.setOctet o { k with running := some { j with early := j.early ||| bitAt i } }
      some (s1.landRow j es (fun x => x == i) fun x => x == i || j.early.getLsbD x)
    else none
  | none, _ => none

/-- Finish the running job, with the units it has not read yet as they stand now (R262); `none` while an MMR waits for its
partners. -/
def State.finishJob (s : State) (o : Nat) (j : Job) : Option State :=
  let k := s.octet o
  let pos := octPos j.core
  let load := fun (r : Fin 4) =>
    if k.ops[r].owner != some pos then some (s.engineDone o k j jNotOwn)
    else
      let now := s.tileUnits (clusterOf j.core) (j.arg.toNat - 0xFFFFFFF00000) (dscUnits j.dsc)
      let us := now.zipIdx.map fun (u, i) => (j.snap.getD i none).getD u
      let t := loadTile k.ops[r].owner j.dsc us
      some (s.engineDone o { k with ops := k.ops.set r t } j (flagIf (t.poison != 0) jPoison))
  let done := fun (q : Octet × Word) => some (s.engineDone o q.1 j q.2)
  match j.cmd with
  | .mlda _ _ _ _ n => load (maIdx n)
  | .mldb _ _ _ _ n => load (mbIdx n)
  | .mmac _ t _ kb ka _ => done (k.mac pos false t (maIdx ka) (mbIdx kb))
  | .mmul _ t _ kb ka _ => done (k.mac pos true t (maIdx ka) (mbIdx kb))
  | .mmr _ _ _ kb ka _ => (k.endMmr pos j.status (maIdx ka) (mbIdx kb)).map fun k => s.engineDone o k j j.status
  | .mzero _ t _ _ =>
    if k.tiles[t].owner != some pos then done (k, jNotOwn)
    else done ({ k with tiles := k.tiles.set t { AccTile.reset with owner := some pos } }, 0)
  | .mcfgOwn _ _ _ => done (if j.orphan then (k, 0) else k.own pos j.arg)
  | .mcfgFree _ _ _ => done (k.unown pos j.arg)
  | .mscl _ t _ m _ =>
    let us := j.snap.map fun u => u.getD PWord.poison0
    if k.tiles[t].owner != some pos then done (k, jNotOwn ||| flagIf (badScales us) jBadScale)
    else let (t1, st) := scaleTile k.tiles[t] m us; done ({ k with tiles := k.tiles.set t t1 }, st)
  | .mrda _ t _ _ raw =>
    if k.tiles[t].owner != some pos then done (k, jNotOwn)
    else
      let (es, st) := readRow ((k.tiles[t].rows).getD (dscRow j.dsc) TileRow.reset) raw (dscHalf j.dsc)
      let s1 := if j.orphan then s else s.landRow j es (fun i => !j.early.getLsbD i) fun _ => true
      some (s1.engineDone o k j st)
  | _ => done (k, k.ownMask pos)

end Sys2Proof.Machine
end

