-- ==== Sys2Proof/Machine/Matrix.lean ====
section
/-! DEFINITION. Matrix instructions: offering a job, and reading or awaiting its status: 11 R259 to R261, R264 to R274. -/

namespace Sys2Proof.Machine

/-! ### Enqueue checks (R266) -/

/-- The first failed check of a list, in the table's order. -/
def firstFail : List (Bool × Word) → Option Word
  | [] => none
  | (c, v) :: r => if c then some v else firstFail r

/-- RES bits of a load, job and read descriptor (R256). -/
def loadRes (d : Word) : Bool := d.extractLsb' 14 50 != 0 || d.getLsbD 7
def jobRes (d : Word) : Bool := d.extractLsb' 7 57 != 0
def readRes (raw : Bool) (d : Word) : Bool :=
  d.extractLsb' 20 44 != 0 || d.extractLsb' 13 2 != 0 || d.getLsbD 7 || (!raw && dscHalf d)

/-- Whether every byte of a tile lies in cluster SRAM, in banks in scratch mode. -/
def State.tileOk (s : State) (a : Word) (d : Word) : Bool :=
  let n := 8 * dscUnits d
  decide (0xFFFFFFF00000 ≤ a.toNat) && decide (a.toNat + n ≤ 0xFFFFFFF10000) &&
    (let lo := (a.toNat - 0xFFFFFFF00000) / 4096
     let hi := (a.toNat + n - 1 - 0xFFFFFFF00000) / 4096
     s.myCluster.mode lo == .scratch && s.myCluster.mode hi == .scratch)

/-- Whether the launch of a core's task binds all 16 octets of its group (R266). -/
def State.wholeGroup (s : State) (c : CoreId) : Bool :=
  match (s.core c).bind.task with
  | none => false
  | some t =>
    match s.taskAt t with
    | none => false
    | some k => s.bindsGroup k.home k.launch (groupOf c)

/-! ### Offering a job (R259) -/

/-- Offer a command: a failed check traps, a full queue refuses it, otherwise it is numbered and enters. The management core
has no matrix engine: its commands find no room (log 59). -/
def offerJob (i : Instr) (d : Reg) (g : Guard) (arg dsc : Word) (checks : List (Bool × Word)) (s : State) : Res :=
  match firstFail checks with
  | some v => trap cEngine v s
  | none =>
    let o := s.myOctet
    if s.onMgmt || 16 ≤ o.occupied then done (s.setP 1 ⟨false, false⟩)
    else
      let k := s.myCore
      let j : Job := ⟨i, arg, dsc, o.next, k.tlm.nextNum, s.cur.core, s.cur.ctx, g, false, 0, [], 0⟩
      let s1 := (s.setMyOctet { o with queue := o.queue ++ [j], next := nextJobNo o.next }).modMyCore fun k =>
        { (k.useGuard g) with tlm := k.tlm.issue 1, jobs := ringAdd k.jobs o.next }
      done ((s1.putG d (o.next.setWidth 64)).setP 1 ⟨true, false⟩)

/-- The descriptor of an optional e operand; poison traps (R52). -/
def withDsc (x : Option EReg) (s : State) (k : Word → Res) : Res :=
  match x with
  | none => k 0
  | some e => needE e s k

/-- MLDA and MLDB. -/
def loadJob (i : Instr) (d a : Reg) (e : EReg) (g : Guard) (s : State) : Res :=
  needClean (s.gReg a) a s (needE e s fun dsc =>
    let v := (s.gReg a).val
    offerJob i d g v dsc [(v.extractLsb' 0 7 != 0, 1), (!s.tileOk v dsc, 2), (loadRes dsc, 3)] s)
/-- A job with a job descriptor. -/
def tileJob (i : Instr) (d : Reg) (x : Option EReg) (g : Guard) (more : List (Bool × Word)) (s : State) : Res :=
  withDsc x s fun dsc => offerJob i d g 0 dsc ((jobRes dsc, 3) :: more) s
/-- MCFG with a mask. -/
def maskJob (i : Instr) (d a : Reg) (g : Guard) (s : State) : Res :=
  needClean (s.gReg a) a s
    (let v := (s.gReg a).val
     offerJob i d g v 0 [(v.extractLsb' 12 52 != 0, 6)] s)

/-- MLDA (R267). -/
def execMlda (d a : Reg) (e : EReg) (g : Guard) (k : Bool) (s : State) : Res := loadJob (.mlda d a e g k) d a e g s
/-- MLDB (R267). -/
def execMldb (d a : Reg) (e : EReg) (g : Guard) (k : Bool) (s : State) : Res := loadJob (.mldb d a e g k) d a e g s
/-- MMAC (R268). -/
def execMmac (d : Reg) (t : Tile) (x : Option EReg) (kb ka : Bool) (g : Guard) (s : State) : Res :=
  tileJob (.mmac d t x kb ka g) d x g [] s
/-- MMUL (R268). -/
def execMmul (d : Reg) (t : Tile) (x : Option EReg) (kb ka : Bool) (g : Guard) (s : State) : Res :=
  tileJob (.mmul d t x kb ka g) d x g [] s
/-- MMR (R270). -/
def execMmr (d : Reg) (t : Tile) (x : Option EReg) (kb ka : Bool) (g : Guard) (s : State) : Res :=
  tileJob (.mmr d t x kb ka g) d x g [(!s.wholeGroup s.cur.core, 5)] s
/-- MZERO (R268). -/
def execMzero (d : Reg) (t : Tile) (x : Option EReg) (g : Guard) (s : State) : Res :=
  tileJob (.mzero d t x g) d x g [] s
/-- MCFG_OWN (R271). -/
def execMcfgOwn (d a : Reg) (g : Guard) (s : State) : Res := maskJob (.mcfgOwn d a g) d a g s
/-- MCFG_FREE (R271). -/
def execMcfgFree (d a : Reg) (g : Guard) (s : State) : Res := maskJob (.mcfgFree d a g) d a g s
/-- MCFG_QUERY (R271). -/
def execMcfgQuery (d : Reg) (g : Guard) (s : State) : Res :=
  offerJob (.mcfgQuery d g) d g 0 0 [] s
/-- MRDA (R272): the registers it writes must be bound when it enters the queue (R149). -/
def execMrda (d : Reg) (t : Tile) (e : EReg) (g : Guard) (raw : Bool) (s : State) : Res :=
  needE e s fun dsc =>
    let v := dscV dsc
    let checks := [(readRes raw dsc, (3 : Word)), (v == 15 || (!raw && v % 2 == 1), 4)]
    match firstFail checks with
    | some w => trap cEngine w s
    | none =>
      match s.me.unbound [Fin.ofNat 16 v, Fin.ofNat 16 (v + 1)] with
      | some r => trap cLane (0x100 + BitVec.ofNat 64 r) s
      | none => offerJob (.mrda d t e g raw) d g 0 dsc [] s
/-- MSCL (R273). -/
def execMscl (d : Reg) (t : Tile) (x : Option EReg) (m : SclMode) (g : Guard) (s : State) : Res :=
  tileJob (.mscl d t x m g) d x g [] s

/-! ### Status (R260, R264, R274) -/

/-- STATE of a job that has not finished: running, held at its core's queue head, or queued. -/
def State.jobState (s : State) (c : CoreId) (n : BitVec 16) : Nat :=
  let o := s.octet (octetOf c)
  match o.running with
  | some j => if j.core == c && j.no == n then 2 else queued o
  | none => queued o
where
  /-- Held at the head, or queued behind it. -/
  queued (o : Octet) : Nat :=
    match o.queue.find? (·.core == c) with
    | some j => if j.no == n && s.headVerdict j == .wait then 1 else 0
    | none => 0

/-- The entry of a number that is read (R260): of two with the same number, the pending one, else the newest. -/
def Core.jobEntry (k : Core) (n : BitVec 16) : Option JobStat :=
  match k.jobs.find? fun q => q.no == n && !q.done with
  | some q => some q
  | none => k.jobs.reverse.find? (·.no == n)

/-- The status word of a number (R264). -/
def State.jobStatus (s : State) (c : CoreId) (n : BitVec 16) : Word :=
  let no : Word := n.setWidth 64 <<< 48
  match (s.core c).jobEntry n with
  | none => no ||| bitAt 4 ||| 3
  | some q => if q.done then no ||| q.status ||| 3 else no ||| BitVec.ofNat 64 (s.jobState c n)

/-- Whether MJWAIT has nothing to wait for: finished, expired, or 0. -/
def Core.jobOver (k : Core) (n : BitVec 16) : Bool :=
  n == 0 || (match k.jobEntry n with | some q => q.done | none => true)

/-- MJPOLL (R274). -/
def execMjpoll (d a : Reg) (s : State) : Res :=
  let v := s.gReg a
  needClean v a s (done (s.putG d (s.jobStatus s.cur.core (v.val.extractLsb' 0 16))))

/-- MJWAIT in either size (R274). -/
def mjwaitVia (i : Instr) (a : Reg) (s : State) : Res :=
  let v := s.gReg a
  needClean v a s (if s.myCore.jobOver (v.val.extractLsb' 0 16) then done s else waitIn i s)
/-- MJWAIT (R274). -/
def execMjwait (a : Reg) (s : State) : Res := mjwaitVia (.mjwait a) a s
/-- Short form of MJWAIT (R48). -/
def execMjwaitS (r : Reg) (s : State) : Res := mjwaitVia (.mjwaitS r) r s

end Sys2Proof.Machine
end

