-- ==== Sys2Proof/Machine/Packets.lean ====
section
/-! DEFINITION. Packets, remote reads and their answers on the fabric: 15 R368, R371 to R388. -/

namespace Sys2Proof.Machine

/-! ### Faults and windows (R385 to R387) -/

/-- A fault record (R387). -/
def faultWord (recipient : Bool) (kind tag : Nat) (addr : Word) : Word :=
  bitAt 63 ||| (if recipient then bitAt 60 else 0) ||| BitVec.ofNat 64 (kind % 8 * 2 ^ 57 + tag % 64 * 2 ^ 51) ||| (addr &&& addrMask)

/-- Add a record; a full queue marks its newest (R387). -/
def Core.addFault (k : Core) (w : Word) : Core :=
  if k.faults.length < 8 then { k with faults := k.faults ++ [w] }
  else match k.faults.getLast? with
    | some x => { k with faults := k.faults.dropLast ++ [x ||| bitAt 62] }
    | none => k

/-- A fault of a tag's operation at a core: TAGERR and a record. -/
def Core.remoteFault (k : Core) (recipient : Bool) (kind tag : Nat) (addr : Word) : Core :=
  (k.setTagErr tag).addFault (faultWord recipient kind tag addr)

/-- Note the use of the pages of a write that a window of its recipient admits (R397). -/
def State.landed (s : State) (c : CoreId) (tenant : BitVec 12) (x : Word) (n : Nat) : State :=
  match s.landing c tenant x n with
  | .inl 3 => s
  | _ => s.touchRange c (s.core c).bind.tenant x n

/-- A unit of a reply is performed where its word is kept: at a port, or at its home (R360). -/
def State.landUnitAt (s : State) (p : Place) (v : PWord) : State :=
  match s.fifoBank p, p with
  | some (cl, b, _), _ => s.push cl b [v]
  | none, .phys pa timed => s.arriveWrite pa 8 v (if timed then .timed else .untimed)
  | none, _ => s.portWrite p 8 v
/-- Units in order. -/
def State.landUnits (s : State) : List (Place × PWord) → State
  | [] => s
  | (p, v) :: r => State.landUnits (s.landUnitAt p v) r

/-! ### Routers (R119, R368, R374) -/

/-- The tick in which a packet was refused, or none. -/
def State.setRefused (s : State) (id : Nat) (t : Option Word) : State :=
  { s with fabric := s.fabric.map fun m => if m.1 == id then
      (m.1, match m.2 with
        | .packet a b c d e f _ => Msg.packet a b c d e f t
        | x => x) else m }

/-- Whether a message is addressed to a logical core of this device. -/
def Msg.goesTo (m : Msg) (l : BitVec 18) : Bool :=
  match m with
  | .packet _ _ _ d _ _ _ => rwLcn d == l
  | .reply _ _ _ _ _ l1 _ _ _ _ => l1 == l
  | .tag l1 _ _ _ => l1 == l
  | .ack .. | .tstAck .. | .access .. | .answer .. => false

/-- Message `id` has reached the router of a logical core's group. While the task of that core migrates the router takes the message
in, and what it has taken in goes on to the core in order of arrival, ahead of what comes later (R119). -/
def State.atRouter (s : State) (id : Nat) (l : BitVec 18) (deliver : Res) : Res :=
  if s.migrating l then
    guardEvent (!s.routed.contains id) (.next { s.setRefused id none with routed := s.routed ++ [id] })
  else match s.routed.find? fun i => (s.msg i).any fun m => m.goesTo l with
    | some i => guardEvent (i == id) deliver
    | none => deliver

/-- The core that sends a message as its own, and the core it goes to, each with its device (R368). -/
def State.route (s : State) (m : Msg) : Option ((BitVec 16 × Nat) × (BitVec 16 × Nat)) :=
  let dev := fun (p : BitVec 16) => if s.isSelf p then 0 else p
  match m with
  | .packet p l _ d _ _ _ => some ((p, l.toNat), (dev (rwPeer d), (rwLcn d).toNat))
  | .ack l p req _ _ => some ((0, l.toNat), (dev p, req))
  | _ => none

/-- Whether message `id` is next among those of its sender to its destination, which arrive in the order they were sent (R368): a
refused packet holds back later packets and nothing else (R374). -/
def State.inOrder (s : State) (id : Nat) (m : Msg) : Bool :=
  !s.fabric.any fun e => decide (e.1 < id) && s.route e.2 == s.route m && !s.routed.contains e.1 && (match m, e.2 with
    | .ack .., .packet _ _ _ _ _ _ refused => refused.isNone
    | _, _ => true)

/-! ### Forwarded tags (R286) -/

/-- FORWARDED_TAG (R286): message `idx`, for the task that the named core ran at the delivery or freeze; it follows that task
(R119), waits while it is away, and is dropped once it has ended. -/
def execForwardedTag (s : State) : Res :=
  match s.msg s.ev.idx with
  | some (.tag l t err task) =>
    let s1 := s.takeMsg s.ev.idx
    let c := s1.physOf l.toNat
    if (s.core c).bind.task == task then
      s.atRouter s.ev.idx l (.next (s1.modCore c fun k => if err then k.setTagErr t.toNat else k.setTag t.toNat))
    else guardEvent (match task.bind s.taskAt with | some k => k.phase != .displaced | none => true) (.next s1)
  | _ => .refused .eventDisabled

/-! ### Packets (R368, R374, R376, R378) -/

/-- 16-byte flits of data. -/
def flitsOf (data : List PWord) : Nat := (data.length + 1) / 2
/-- Count flits that a core puts on the fabric, the payload of packets and the data of its replies (R404; DESIGN CHOICE, log 75: no rule
gives the flits of other messages). -/
def State.countFlits (s : State) (c : CoreId) (n : Nat) : State := s.modCore c fun k => k.counts fun a => { a with flits := a.flits + n }

/-- PACKET_SEND (R376): the oldest packet of the send buffer of `core` but those of speculative tasks, which wait there for the
resolution of their launch (R327). -/
def execPacketSend (s : State) : Res :=
  let c := s.ev.core
  let q := (s.core c).work.send
  match q.find? fun p => !s.isSpec p.task with
  | none => .refused .eventDisabled
  | some p =>
    .next { (s.modCore c fun k => { k with work := { k.work with send := q.erase p } }).countFlits c (flitsOf p.data) with
      fabric := s.fabric ++ [(s.seq, Msg.packet 0 p.lcn p.tenant p.dest p.window p.data none)] }.nextSeq

/-- Slots that a packet takes (R373). -/
def slotsOf (data : List PWord) : Nat := if data.length ≤ 8 then 1 else 2
/-- Slots taken of a receive queue. -/
def RxQueue.used (q : RxQueue) : Nat := (q.held.map fun p => slotsOf p.data).sum

/-- A packet enters a receive queue. -/
def RxQueue.add (q : RxQueue) (peer : BitVec 16) (lcn : BitVec 18) (data : List PWord) : RxQueue :=
  { q with held := q.held ++ [⟨peer, lcn, q.next, data⟩], next := (q.next + slotsOf data) % 16 }

/-- A refused packet stays in its sender's router (R374). -/
def State.refusePacket (s : State) (id : Nat) : State :=
  { s.setRefused id (some s.time) with routed := s.routed.filter (· != id) }

/-- The event of a discarded packet (kind 4, R421). -/
def State.postDiscard (s : State) (l : BitVec 18) (tenant : BitVec 12) : State :=
  s.postMgmt (eventWord 4 tenant 0 (BitVec.ofNat 7 (sectorOf (s.physOf l.toNat))) false 0 l)

/-- A packet with a window is written at its recipient (R378). -/
def State.windowPacket (s0 : State) (c : CoreId) (tenant : BitVec 12) (dest win : Word) (data : List PWord) : State :=
  let s := s0.landed c tenant win (8 * data.length)
  let tag := (dest.extractLsb' 0 6).toNat
  let tagen := dest.getLsbD 6
  match s.landing c tenant win (8 * data.length) with
  | .inr ps => (s.landUnits (ps.zip data)).modCore c fun k => if tagen then k.setTag tag else k
  | .inl kind => s.modCore c fun k => (if tagen then k.setTagErr tag else k).addFault (faultWord true kind tag win)

/-- A packet ends the waits of RXPOP (R379): each issues again, and one that finds no packet left waits again. -/
def Core.wakeRxpop (k : Core) : Core :=
  allCtx.foldl (fun k n =>
    let x := k.ctx n
    match x.st, x.wait with
    | .waiting, some (.rxpop _ false) => k.setCtx n { x with st := .ready, wait := none }
    | _, _ => k) k

/-- The packet of a message reaches its recipient's router. -/
def deliverPacket (id : Nat) (peer : BitVec 16) (lcn : BitVec 18) (tenant : BitVec 12) (dest : Word) (win : Option Word)
    (data : List PWord) (s : State) : Res :=
  let l := rwLcn dest
  let c := s.physOf l.toNat
  if s.lcnKept l then .next (s.refusePacket id)
  else if !s.runsTenant l tenant then .next ((s.takeMsg id).postDiscard l tenant)
  else match win with
    | some w =>
      guardEvent (match s.landing c tenant w (8 * data.length) with | .inr ps => s.banksFit true ps | .inl _ => true)
        (.next ((s.takeMsg id).windowPacket c tenant dest w data))
    | none =>
      if 16 < (s.core c).rx.used + slotsOf data then .next (s.refusePacket id)
      else .next ((s.takeMsg id).modCore c fun k => (({ k with rx := k.rx.add peer lcn data }).latchAll evRxq).wakeRxpop)

/-- Message `idx`, a packet for this device whose turn it is. -/
def onPacket (s : State) (k : Option Word → Res → Res) : Res :=
  match s.msg s.ev.idx with
  | some (.packet peer lcn tenant dest win data refused) =>
    guardEvent (s.isSelf (rwPeer dest) && (s.msg s.ev.idx).any (s.inOrder s.ev.idx))
      (k refused (s.atRouter s.ev.idx (rwLcn dest) (deliverPacket s.ev.idx peer lcn tenant dest win data s)))
  | _ => .refused .eventDisabled

/-- PACKET_ARRIVE (R378). -/
def execPacketArrive (s : State) : Res := onPacket s fun refused r => guardEvent refused.isNone r
/-- PACKET_RETRY (R374). -/
def execPacketRetry (s : State) : Res := onPacket s fun refused r => guardEvent (s.offeredAgain refused) r

/-! ### The remote request queue (R143, R381 to R384) -/

/-- The remote command with TLF number `idx` of `core`, when no earlier command stands before it at its guard, or, a FETCHTO
of a speculative task, for the resolution of its launch (R143, R384). -/
def onRemote (fetchto : Bool) (s : State) (k : RemoteCmd → Res) : Res :=
  let c := s.ev.core
  let q := (s.core c).work.rq
  match q.find? fun r => r.num == s.ev.idx with
  | none => .refused .eventDisabled
  | some r =>
    let waits := q.any fun x => decide (x.num ≤ r.num) && ((s.core c).verdict x.guard == .wait ||
      (x.fetchto && (s.core c).verdict x.guard == .start && s.isSpec x.task))
    let behind := q.any fun x => decide (x.num < r.num) && x.fetchto && fetchto
    guardEvent (r.fetchto == fetchto && !waits && !behind) (k r)

/-- A remote command leaves the queue. -/
def Core.dropRemote (k : Core) (num : Nat) : Core :=
  { k with work := { k.work with rq := k.work.rq.filter fun r => r.num != num } }
/-- A TLF number completes. -/
def Core.completeTlf (k : Core) (num : Nat) : Core := { k with tlf := k.tlf.complete num }

/-- A discarded command sets its tag and completes (R381). -/
def State.discardRemote (s : State) (c : CoreId) (r : RemoteCmd) : State :=
  s.modCore c fun k => ((k.dropRemote r.num).setTag (if r.fetchto then rwAtag r.rw else rwRtag r.rw)).completeTlf r.num

/-- The units of a source, read where they are kept (R336, R383, R384): its dirty bytes in the reader's cluster come first. -/
def State.sourceUnits (s : State) (c : CoreId) (own : Option TaskRef) : List Place → List PWord → List PWord × State
  | [], vs => (vs, s)
  | p :: r, vs =>
    let (v, s1) := match p with
      | .phys pa _ =>
        if c == mgmtCore then s.serveUnit pa else (s.settleLine (clusterOf c) 0 (lineOf pa)).serveOwn own pa
      | .peer num pa => (s.settleLine (clusterOf c) num (lineOf pa)).peerRead
      | _ =>
        match s.fifoBank p with
        | some (cl, b, _) => let (es, s1) := s.pull cl b 1; (es.getD 0 PWord.poison0, s1)
        | none => s.serve c p 8
    State.sourceUnits s1 c own r (vs ++ [v])

/-- Whether the read of a source may be served: no access stands before it (R345, R360), and the FIFO banks it pulls from
hold enough (R201), which a speculative task may not pull from (R327). -/
def State.sourceReady (s : State) (c : CoreId) (r : RemoteCmd) (qs : List Place) : Bool :=
  !(qs.any fun q => s.mustWait c r.ctx r.id q false) && s.banksFit false qs &&
    !((s.specTask c).isSome && qs.any fun q => (s.fifoBank q).isSome)

/-- RLD_REPLY (R383): command `idx` of `core`. -/
def execRldReply (s : State) : Res :=
  let c := s.ev.core
  onRemote false s fun r =>
    if (s.core c).verdict r.guard == .discard then .next (s.discardRemote c r)
    else
      let ps := rldPlaces c r.dst r.n
      let shared := ps.any fun p => !p.isLs
      guardEvent (!((s.specTask c).isSome && shared) && s.banksFit true ps)
        (match s.sourcePlaces c r with
         | .inl kind =>
           let s1 := (s.touchRange c (s.core c).bind.tenant r.src r.n).landUnits (ps.map fun p => (p, PWord.poison0))
           .next (s1.modCore c fun k => ((k.dropRemote r.num).remoteFault false kind (rwRtag r.rw) r.src).completeTlf r.num)
         | .inr qs =>
           guardEvent (s.sourceReady c r qs)
             (let (vs, s1) := (s.touchRange c (s.core c).bind.tenant r.src r.n).sourceUnits c (s.specTask c) qs []
              .next ((s1.landUnits (ps.zip vs)).modCore c fun k =>
                ((k.dropRemote r.num).setTag (rwRtag r.rw)).completeTlf r.num)))

/-- The recipients of a FETCHTO (R380). -/
def recipients (rw : Word) : List (BitVec 18) :=
  if rwMc rw then (List.range 16).filterMap fun i => if (rwMask rw).getLsbD i then some (rwLcn rw + BitVec.ofNat 18 i) else none
  else [rwLcn rw]

/-- The replies of a source read to its recipients: `dev`, `req` and `num` name the requester, `peer` the recipients' device. -/
def State.sendReplies (s : State) (dev : BitVec 16) (req num : Nat) (tenant : BitVec 12) (peer : BitVec 16)
    (who : List (BitVec 18)) (dst : Word) (rtag : Nat) (data : List PWord) (fault : Option Nat) : State :=
  { s with
    fabric := s.fabric ++ who.zipIdx.map fun (l, i) =>
      (s.seq + i, Msg.reply dev req num tenant peer l dst (BitVec.ofNat 6 rtag) data fault)
    seq := s.seq + who.length }

/-- The source read of a peer's FETCHTO whose source lies in this device's memory (R384): the recipient's device is named as
the requester sees it. -/
def peerFetch (s : State) : Res := onPeer s fun o pa _ r =>
  match r with
  | .fetch num n rw dst =>
    let qs : List Place := (List.range (n / 8)).map fun i => .phys (pa + 8 * i) false
    let (vs, s1) := (s.takeMsg s.ev.idx).sourceUnits mgmtCore none qs []
    let peer := if rwPeer rw == 0 then o.peer else if s.isSelf (rwPeer rw) then 0 else rwPeer rw
    .next (s1.sendReplies o.peer o.lcn.toNat num o.tenant peer (recipients rw) dst (rwRtag rw) vs none)
  | _ => .refused .eventDisabled

/-- FETCHTO_SOURCE_READ (R384): command `idx` of `core`; with `ok2` message `idx`, a peer's FETCHTO. Replies to recipients on
a peer device leave by an up-link, and their answers come from outside. -/
def execFetchtoSourceRead (s : State) : Res :=
  let c := s.ev.core
  if s.ev.ok2 then peerFetch s
  else onRemote true s fun r =>
    if (s.core c).verdict r.guard == .discard then .next (s.discardRemote c r)
    else
      let who := recipients r.rw
      let peer := if s.isSelf (rwPeer r.rw) then 0 else rwPeer r.rw
      let send := fun (data : List PWord) (fault : Option Nat) (s1 : State) =>
        let out : FetchOut := ⟨s1.seq, r.num, rwAtag r.rw, r.src, r.dst, who.length, fault.isSome⟩
        let s2 := s1.modCore c fun k =>
          let k1 := k.dropRemote r.num
          let k2 := { k1 with work := { k1.work with fetches := k1.work.fetches ++ [out] } }
          match fault with
          | some kind => k2.addFault (faultWord false kind out.atag r.src)
          | none => k2
        Host.Outcome.next ((s2.nextSeq.countFlits c (who.length * flitsOf data)).sendReplies 0 (s1.lcnOf c) out.id (s1.core c).bind.tenant peer who r.dst (rwRtag r.rw) data fault)
      match s.sourcePlaces c r with
      | .inl kind => send (List.replicate (r.n / 8) PWord.poison0) (some kind) (s.touchRange c (s.core c).bind.tenant r.src r.n)
      | .inr qs =>
        guardEvent (s.sourceReady c r qs)
          (let (vs, s1) := (s.touchRange c (s.core c).bind.tenant r.src r.n).sourceUnits c none qs []
           send vs none s1)

/-- Recipient `l` answers: requester's device, requester, command. -/
def State.answer (s : State) (l : BitVec 18) (dev : BitVec 16) (req num : Nat) (fail : Option Nat) : State :=
  { s with fabric := s.fabric ++ [(s.seq, Msg.ack l dev req num fail)] }.nextSeq

/-- FETCHTO_REPLY_ARRIVE (R384 to R386): message `idx`, from this device's source or a peer's; while its recipient's task is displaced
it is refused and stays with its sender (R388), and it waits while a FIFO bank it pushes to is full (R201). -/
def execFetchtoReplyArrive (s : State) : Res :=
  match s.msg s.ev.idx with
  | some (.reply dev req num tenant peer l dst rtag data fault) =>
    let c := s.physOf l.toNat
    let s0 := s.takeMsg s.ev.idx
    if !s.isSelf peer || s.lcnKept l then .refused .eventDisabled
    else s.atRouter s.ev.idx l
      (if !s.runsTenant l tenant then .next (s0.answer l dev req num (some 5))
       else
         let s1 := s0.landed c tenant dst (8 * data.length)
         match s.landing c tenant dst (8 * data.length) with
         | .inl kind => .next ((s1.modCore c fun k => k.remoteFault true kind rtag.toNat dst).answer l dev req num (some kind))
         | .inr ps =>
           guardEvent (s.banksFit true ps)
             (.next (((s1.landUnits (ps.zip data)).modCore c fun k => match fault with
               | some kind => k.remoteFault true kind rtag.toNat dst
               | none => k.setTag rtag.toNat).answer l dev req num none)))
  | _ => .refused .eventDisabled

/-- An answer reaches the requester (R384, R386). -/
def Core.answered (k : Core) (o : FetchOut) (fail : Option Nat) : Core :=
  let k1 := match fail with
    | some kind => k.addFault (faultWord false kind o.atag (if kind == 5 then o.src else o.dst))
    | none => k
  let o1 := { o with left := o.left - 1, failed := o.failed || fail.isSome }
  if o1.left = 0 then
    let k2 := { k1 with work := { k1.work with fetches := k1.work.fetches.filter fun x => x.id != o.id } }
    (if o1.failed then k2.setTagErr o.atag else k2.setTag o.atag).completeTlf o.num
  else { k1 with work := { k1.work with fetches := k1.work.fetches.map fun x => if x.id == o.id then o1 else x } }

/-- Messages of a FETCHTO still on this device. -/
def State.stillHere (s : State) (id : Nat) : Nat :=
  (s.fabric.filter fun m => match m.2 with
    | .reply d _ n _ p _ _ _ _ _ => s.isSelf d && s.isSelf p && n == id
    | .ack _ d _ n _ => s.isSelf d && n == id
    | _ => false).length

/-- FETCHTO_ACK (R384): message `idx`; with `ok` the answer, failing with kind `w` unless that is 0, of a recipient of
command `idx` of `core` on a peer device. -/
def execFetchtoAck (s : State) : Res :=
  if s.ev.ok then
    match (s.core s.ev.core).work.fetches.find? fun o => o.id == s.ev.idx with
    | none => .refused .eventDisabled
    | some o =>
      guardEvent (decide (s.stillHere o.id < o.left) && s.peerUp)
        (.next (s.modCore s.ev.core fun k => k.answered o (if s.ev.w = 0 then none else some (3 + s.ev.w.toNat % 3))))
  else match s.msg s.ev.idx with
    | some (.ack l dev req num fail) =>
      let c := s.physOf req
      let s1 := s.takeMsg s.ev.idx
      guardEvent (s.isSelf dev && s.inOrder s.ev.idx (.ack l dev req num fail))
        (.next (match (s.core c).work.fetches.find? fun o => o.id == num with
          | some o => s1.modCore c fun k => k.answered o fail
          | none => s1))
    | _ => .refused .eventDisabled

end Sys2Proof.Machine
end

