-- ==== Sys2Proof/Machine/Moves.lean ====
section
/-! DEFINITION. Matrix jobs starting and finishing; displacement, resume and migration of a task: 04 R108 to R119, 06 R157,
07 R181, 08 R204, R211, 10 R235, 11 R261 to R263, R270, R275, 12 R301, 15 R388, 16 R412. -/

namespace Sys2Proof.Machine

/-! ### Matrix jobs (R143, R261, R263) -/

/-- The status of a discarded job: of an MCFG also what its core owns, which the job leaves as it was (R264; DESIGN
CHOICE, log 75: the table speaks of what is owned after the job). -/
def Octet.discarded (o : Octet) (j : Job) : Word :=
  match j.cmd with
  | .mcfgOwn .. | .mcfgFree .. | .mcfgQuery .. => jDiscarded ||| o.ownMask (octPos j.core)
  | _ => jDiscarded

/-- MATRIX_JOB_START (R261): octet `unit` discards the first discardable head, else starts the first ready one when its
engine is idle and no brake holds it (R407). -/
def execMatrixJobStart (s : State) : Res :=
  let n := s.ev.unit
  let o := s.octet n
  let heads := o.heads n
  match heads.find? fun j => s.headVerdict j == .discard with
  | some j =>
    guardEvent (!s.braked 3)
      (.next ((s.setOctet n { o with queue := o.queue.filter fun x => x.no != j.no || x.core != j.core }).modCore j.core fun k =>
        k.jobDone j (o.discarded j)))
  | none =>
    match o.running, heads.find? fun j => s.headVerdict j == .start with
    | none, some j => guardEvent (!s.braked 2) (.next (s.startJob n j))
    | _, _ => .refused .eventDisabled

/-- MATRIX_JOB_FINISH (R262, R263): the running job of octet `unit`. It finishes, or with `ok` takes in or writes its unit
`idx` alone on the way there. -/
def execMatrixJobFinish (s : State) : Res :=
  match (if s.braked 3 then none else (s.octet s.ev.unit).running) with
  | none => .refused .eventDisabled
  | some j =>
    match (if s.ev.ok then s.jobUnit s.ev.unit j s.ev.idx else s.finishJob s.ev.unit j) with
    | none => .refused .eventDisabled
    | some t => .next t

/-! ### When a core may be taken (R112, R270) -/

/-- The task of a core that runs, and its slot. -/
def State.runningTask (s : State) (c : CoreId) : Option (TaskRef × Task) :=
  match (s.core c).bind.task with
  | none => none
  | some t =>
    match s.taskAt t with
    | some k => if k.phase == .running c then some (t, k) else none
    | none => none

def Job.isMmr (j : Job) : Bool := match j.cmd with | .mmr .. => true | _ => false

/-- Whether a group has an MMR accepted and not finished (R270). -/
def State.mmrInGroup (s : State) (g : Nat) : Bool :=
  (List.range 16).any fun i =>
    let o := s.octet (16 * g + i)
    o.queue.any Job.isMmr || (match o.running with | some j => j.isMmr | none => false)

/-- Matrix jobs of a core that its octet holds behind an unresolved guard, or an MSCL that waits for slots: all of its queued
ones, or none (R112, R275). -/
def State.heldJobs (s : State) (c : CoreId) : List Job :=
  let q := (s.octet (octetOf c)).queue.filter fun j => j.core == c
  match q with
  | [] => []
  | j :: _ => if s.headVerdict j == .wait then q else []

/-- Copies of a task in an octet that stay in their channels: frozen, or waiting for a release word (R301). -/
def Chan.stays (h : Chan) (t : TaskRef) : Bool :=
  match h.cur with
  | some cs => cs.of t && (h.state == .frozen || h.state == .waitRelease)
  | none => false
def State.copiesStay (s : State) (c : CoreId) (t : TaskRef) : Bool := (s.octet (octetOf c)).chans.toList.any fun h => h.stays t

/-- Whether a channel still has work of a task to finish. -/
def Chan.works (h : Chan) (t : TaskRef) : Bool :=
  !h.stays t && ((match h.cur with | some cs => cs.of t | none => false) || h.queue.any fun cs => cs.of t)

/-- Every wait of R112 step 2: contexts stopped, jobs, copies, replies and remote commands settled. -/
def State.movable (s : State) (c : CoreId) (t : TaskRef) : Bool :=
  let k := s.core c
  let w := k.work
  let o := s.octet (octetOf c)
  allCtx.all (fun n => !(k.ctx n).live || ((k.ctx n).st == .stopped && !(k.ctx n).unsaved)) && w.loads.isEmpty && w.port.isEmpty && w.vecs.isEmpty &&
    w.div.isNone && w.rcr.isNone && w.send.all (fun p => p.task != some t) && w.fetches.isEmpty &&
    (match w.rq with | [] => true | r :: _ => k.verdict r.guard == .wait) &&
    (match o.running with | some j => j.core != c | none => true) &&
    (s.heldJobs c).length == (o.queue.filter fun j => j.core == c).length && !o.chans.toList.any fun h => h.works t

/-- Whether an owner has a tile or an operand register of an octet: both count (R254). -/
def Octet.owns (o : Octet) (w : Nat) : Bool := o.tiles.toList.any (fun x => x.owner == some w) || o.ops.toList.any fun x => x.owner == some w

/-- Whether a task must stay in its octet (R114, R118, R301). -/
def State.octetBound (s : State) (c : CoreId) (t : TaskRef) : Bool :=
  (s.octet (octetOf c)).owns (octPos c) || !(s.heldJobs c).isEmpty || s.copiesStay c t

/-! ### The spill page (R113, R181, R235, R301, R388) -/

/-- Change the owner of an octet's resources. -/
def Octet.reown (o : Octet) (a b : Nat) : Octet :=
  { o with tiles := o.tiles.map fun x => if x.owner == some a then { x with owner := some b } else x
           ops := o.ops.map fun x => if x.owner == some a then { x with owner := some b } else x }

/-- Pooled registers of a core in spill order: by context, within a context by name. -/
def Core.pooled (k : Core) : List VReg := allCtx.flatMap fun n => (k.ctx n).v.toList.take (k.ctx n).count
/-- The index of the first entry of a context. -/
def Core.poolIndex (k : Core) (n : CtxId) : Nat :=
  ((allCtx.filter fun m => m.val < n.val).map fun m => Nat.min 16 (k.ctx m).count).sum

/-- BIND of a control record (R113, R235). -/
def Core.bindWord (k : Core) (n : CtxId) : Word :=
  let x := k.ctx n
  let l := x.lanes
  BitVec.ofNat 64 (l.kept * 2 ^ 32 + l.q * 2 ^ 24 + l.vl * 2 ^ 16 + k.poolIndex n % 32 * 2 ^ 8 + x.count) |||
    (if l.shrink then bitAt 40 else 0)

/-- Guard slot states, two bits each: slot N in bits 2N+1:2N (DESIGN CHOICE, log 49: R113 gives the size and no place). -/
def Core.guardWord (k : Core) : Word := k.guards.toList.zipIdx.foldl (fun (a : Word) e => a ||| BitVec.ofNat 64 (e.1.code * 4 ^ e.2)) 0

/-- The core record: 12 words. -/
def State.coreRecord (s : State) (c : CoreId) (held : Nat) : List Word :=
  let k := s.core c
  [k.tags, k.tagerr, k.tlm.cnt, k.tlc.cnt, k.tlf.cnt, k.tlv.cnt, (s.ctxst c 0 >>> 18) &&& 0x3FFFFF, k.guardWord,
   k.lease, k.lcn.setWidth 64, BitVec.ofNat 64 held, 0]

/-- A drop window as two words. -/
def dropWords (d : Option DropWin) : List Word :=
  match d with
  | none => [0, 0]
  | some w => [w.base, (w.tenant.setWidth 64 <<< 52) ||| BitVec.ofNat 64 w.size]

/-- Units of a spill page: offset and value. The images of held commands, and the receive ring's head and lengths, have no
layout of their own: free values. -/
def State.spillUnits (s : State) (c : CoreId) (held : Nat) : List (Nat × PWord) :=
  let k := s.core c
  let units := fun (base : Nat) (ws : List PWord) => ws.zipIdx.map fun e => (base + 8 * e.2, e.1)
  let words := fun (base : Nat) (ws : List Word) => units base (ws.map PWord.clean)
  units 0 ((List.range 1024).map fun i => k.ls.read (8 * i) 8) ++
  units 0x2000 (k.pooled.flatMap fun v => (List.range 8).map fun i => ⟨v.data.extractLsb' (64 * i) 64, v.poison.getLsbD i⟩) ++
  allCtx.flatMap (fun n => words (0x2800 + 112 * n.val) (s.control13 c n ++ [k.bindWord n])) ++
  words 0x2D00 (s.coreRecord c held) ++
  words 0x2D60 ((List.range (4 * Nat.min held 16)).map fun i => Config.freeWord (s.fresh + i)) ++
  words 0x2F60 (allCtx.map fun n => (k.ctx n).tstat) ++
  words 0x2FB8 [k.tlm.issued, k.tlc.issued, k.tlf.issued, k.tlv.issued] ++
  words 0x2FD8 ((List.finRange 8).flatMap fun i => [k.psrc[i], k.pdst[i]]) ++
  words 0x3060 (k.drops.toList.flatMap dropWords) ++
  words 0x30A0 ((List.range 8).map fun i => k.faults.getD i 0) ++
  words 0x30E0 ((List.range 4).map fun i => Config.freeWord (s.fresh + 64 + i)) ++
  units 0x3100 ((List.range 64).map fun i => k.inj.read (8 * i) 8) ++
  units 0x3300 ((List.range 128).map fun i => k.rx.read (8 * i) 8)

/-- The spill page of a task (R334). -/
def State.spillPage (s : State) (t : TaskRef) : Nat := (s.sector t.sec).spill.toNat + 16384 * t.slot

/-- Write a spill page at its home. -/
def State.writeSpill (s : State) (t : TaskRef) (c : CoreId) (held : Nat) : State :=
  let page := s.spillPage t
  let s1 := (s.spillUnits c held).foldl (fun (s : State) (e : Nat × PWord) => s.arriveWrite (page + e.1) 8 e.2 .noPage) s
  { s1 with fresh := s.fresh + 68 }

/-- A context read back: control record, slot image, lanes, pooled registers and TSTAT; reserved bits read zero (R30). -/
def State.readCtx (s : State) (page : Nat) (n : CtxId) (x : Ctx) : Ctx :=
  let rd := fun (off : Nat) => s.homeUnit (page + off)
  let ctl := (List.range 13).map fun i => (rd (0x2800 + 112 * n.val + 8 * i)).val
  let b := (rd (0x2800 + 112 * n.val + 104)).val
  let f := fun (lo w : Nat) => (b.toNat / 2 ^ lo) % 2 ^ w
  let y := if x.live then (x.loadSlot ((List.range 23).map fun i => rd (0x1800 + 184 * n.val + 8 * i))).loadControl false s.fresh ctl else x
  let vreg := fun (i : Nat) =>
    let us := (List.range 8).map fun j => rd (0x2000 + 64 * (f 8 5 + i) + 8 * j)
    VReg.mk (BitVec.ofNat 512 (us.foldr (fun u a => u.val.toNat + 2 ^ 64 * a) 0))
      (us.zipIdx.foldl (fun p e => setBit8 p e.2 e.1.poison) 0)
  { y with
    count := f 0 6
    v := Vector.ofFn fun i => if i.val < f 0 6 then vreg i.val else VReg.zero
    lanes := ⟨0, f 24 5, b.getLsbD 40, f 16 5, f 32 5⟩
    tstat := (rd (0x2F60 + 8 * n.val)).val &&& 0x0000FFFF0000000F }

/-- A guard slot state by its code. -/
def guardOfCode (n : Nat) : GuardState :=
  match n with
  | 0 => .unresolved
  | 1 => .isTrue
  | 2 => .isFalse
  | _ => .free

/-- Drop window `i` of a page. -/
def State.readDrop (s : State) (page i : Nat) : Option DropWin :=
  let b := (s.homeUnit (page + 0x3060 + 16 * i)).val
  let w := (s.homeUnit (page + 0x3068 + 16 * i)).val
  let n := (w.extractLsb' 0 32).toNat
  if n = 0 then none else some ⟨b, n, w.extractLsb' 52 12⟩

/-- Units of a page as a memory. -/
def State.readMem (s : State) (at_ n : Nat) : Memory :=
  (List.range n).foldl (fun m i => m.write (8 * i) 8 (s.homeUnit (at_ + 8 * i))) Memory.empty

/-- The receive queue read back: the payload lies in the ring's image (R373, R388); senders and order have no layout. -/
def State.readRx (s : State) (page : Nat) (q : RxQueue) : RxQueue :=
  { q with held := q.held.map fun p =>
      { p with data := p.data.zipIdx.map fun e => s.homeUnit (page + 0x3300 + (64 * p.slot + 8 * e.2) % 1024) } }

/-- A core read back from a spill page, reserved bits as zero (R30); what has no layout of its own is as it was. -/
def State.readSpill (s : State) (t : TaskRef) (k : Core) : Core :=
  let page := s.spillPage t
  let w := fun (off : Nat) => (s.homeUnit (page + off)).val
  let line := fun (x : Timeline) (i : Nat) => { x with cnt := w (0x2D10 + 8 * i), issued := w (0x2FB8 + 8 * i) }
  { k with
    ctxs := Vector.ofFn fun n => s.readCtx page n (k.ctx n)
    ls := (s.readMem page 1024).clearRes
    inj := s.readMem (page + 0x3100) 64
    rx := s.readRx page k.rx
    tags := w 0x2D00
    tagerr := w 0x2D08
    tlm := line k.tlm 0
    tlc := line k.tlc 1
    tlf := line k.tlf 2
    tlv := line k.tlv 3
    guards := Vector.ofFn fun i => guardOfCode ((w 0x2D38).toNat / 4 ^ i.val % 4)
    lease := w 0x2D40 &&& 0xF00000000000FFFF
    psrc := Vector.ofFn fun i => w (0x2FD8 + 16 * i.val)
    pdst := Vector.ofFn fun i => w (0x2FE0 + 16 * i.val)
    drops := Vector.ofFn fun i => s.readDrop page i.val
    faults := ((List.range 8).map fun i => w (0x30A0 + 8 * i) &&& 0xFFF8FFFFFFFFFFFF).filter fun v => v.getLsbD 63 }

/-! ### Displacement (R112) -/

/-- Take held jobs out of an octet's queue. -/
def State.withdraw (s : State) (c : CoreId) : State :=
  let o := s.octet (octetOf c)
  s.setOctet (octetOf c) { o with queue := o.queue.filter fun j => j.core != c }

/-- The task of a core leaves it for its spill page. Of its status ring only the entries of withdrawn jobs come back (R275). -/
def State.displace (s : State) (c : CoreId) (t : TaskRef) : State :=
  let jobs := s.heldJobs c
  let rq := (s.core c).work.rq
  let k := { s.core c with stop := none }
  let s1 := ((s.writeSpill t c (jobs.length + rq.length)).withdraw c).dropPins c
  let o := s1.octet (octetOf c)
  let s2 := (s1.setOctet (octetOf c) (o.reown (octPos c) (awayOwner t))).vacate c
  s2.modTask t fun x => { x with phase := .displaced, withdrawn := jobs, left := s.now c
                                 parked := some { k with jobs := k.jobs.filter fun q => !q.done } }

/-- DISPLACEMENT (R112): the task engine begins to take `core`, and takes it once its waits are over. An MMR in the group defers
both (R270). -/
def execDisplacement (s : State) : Res :=
  let c := s.ev.core
  match s.runningTask c with
  | none => .refused .eventDisabled
  | some (t, k) =>
    match (s.core c).stop with
    | none =>
      guardEvent (!s.mmrInGroup (groupOf c)) (.next (s.modCore c fun x => { x with stop := some .displace }))
    | some .displace =>
      guardEvent (s.movable c t && !s.mmrInGroup (groupOf c))
        (endRelease c (s.core c).bind.tenant .sys (descWrites k.desc) s fun s => .next (s.displace c t))
    | _ => .refused .eventDisabled

/-! ### Taking a task up again (R114, R117, R118) -/

/-- A live context as the move leaves it: its lanes are still to be granted, or it is READY (R114, R235). -/
def Ctx.resumed (x : Ctx) : Ctx :=
  let y := { x with wait := none, yield := [], pend := [], packet := none, evpend := x.evpend ||| 0x3E }
  if x.lanes.kept = 0 then { y with st := .ready } else { y with st := .waiting }

/-- Claims for the lanes that a move has released, ahead of every waiting claim (R235). -/
def Core.moveClaims (k : Core) (c : CoreId) : List LaneClaim :=
  allCtx.filterMap fun n =>
    let x := k.ctx n
    if x.live && 0 < x.lanes.kept then some ⟨c, n, x.lanes.q, x.lanes.kept⟩ else none

/-- Copies of a task continue from another core of their octet (R301). -/
def Chan.follow (h : Chan) (t : TaskRef) (c : CoreId) : Chan :=
  let move := fun (cs : CopyStart) => if cs.of t then { cs with core := c } else cs
  match h.cur with
  | some cs => if cs.of t then { h with cur := some (move cs), owner := octPos c, queue := h.queue.map move }
    else { h with queue := h.queue.map move }
  | none => { h with queue := h.queue.map move }

/-- A task goes on on core `c` with the state of `k`; its octet's resources change owner from `own`. What the core's router has
still to send of other tasks stays (R376), and what the core has done in the interval (R404). Its waiting claims for pooled registers
are gone, also where a begun migration ends on the core it began on (DESIGN CHOICE, log 75: R157 speaks of displacement and migration).
A context that waits for its lanes stands at the head of the lane queue (DESIGN
CHOICE, log 69). -/
def State.takeUp (s : State) (t : TaskRef) (c : CoreId) (k : Core) (jobs : List Job) (own : Nat) : State :=
  let here := s.core c
  let k1 := k.modLive Ctx.resumed
  let k2 := { k1 with lcn := here.lcn, act := here.act, last := here.last, point := here.point, ask := here.ask, coret := here.coret, lead := here.lead, stop := none
                      work := { k1.work with send := here.work.send }, poolQ := [], lease := s.moveLease c k.lease, ls := k.ls.write 0x1FE8 8 PWord.zero }
  let s1 := s.setCore c k2.noteLow
  let o := s1.octet (octetOf c)
  let o1 := (o.reown own (octPos c))
  let s2 := s1.setOctet (octetOf c)
    { o1 with queue := jobs.map (fun j => { j with core := c }) ++ o1.queue
              laneQ := k2.moveClaims c ++ o1.laneQ
              chans := o1.chans.map fun h => h.follow t c }
  (s2.settleLanes 88 (octetOf c)).modTask t fun x => { x with phase := .running c, parked := none, withdrawn := [], acks := [] }

/-- The octet in which a displaced task must go on, if its resources bind it to one (R114). -/
def State.boundOctet (s : State) (t : TaskRef) (jobs : List Job) : Option Nat :=
  match jobs with
  | j :: _ => some (octetOf j.core)
  | [] => (s.octets.find? fun e => e.2.owns (awayOwner t) || e.2.chans.toList.any fun h => h.stays t).map (·.1)

/-- RESUME (R114): the displaced task in slot `idx` of sector `unit` goes on on `core`, whose time base is not behind the one it
left (R160), once its octet's queue has room for the jobs that were withdrawn (R253). -/
def execResume (s : State) : Res :=
  let c := s.ev.core
  let sec := s.ev.unit
  match Table.find (s.sector sec).tasks s.ev.idx with
  | none => .refused .eventDisabled
  | some k =>
    match k.phase, k.parked with
    | .displaced, some old =>
      let t : TaskRef := ⟨sec, s.ev.idx, k.order⟩
      let octetOk := match s.boundOctet t k.withdrawn with | some o => octetOf c == o | none => true
      guardEvent (s.coreFree c && octetOk && decide (k.withdrawn.length + (s.octet (octetOf c)).occupied ≤ 16) && groupOf c == groupOf (old.lcn.toNat) &&
          decide (0 ≤ ahead (s.now c) k.left))
        (let s1 := s.remap old.lcn c
         let s2 := s1.takeUp t c (s1.readSpill t old) k.withdrawn (awayOwner t)
         let s3 := k.acks.foldl (fun (s : State) a => s.modCore c fun x =>
           let m := x.ackCtx a.1 a.2.1
           x.setCtx m ((x.ctx m).acked a.2.2.1 a.2.2.2.1 a.2.2.2.2)) s2
         .next (s3.nextFresh.acquireActs c .sys))
    | _, _ => .refused .eventDisabled

/-! ### Thermal migration (R118, R119) -/

/-- Whether a core is past its thermal limit (R118, R414). -/
def State.pastLimit (s : State) (c : CoreId) : Bool :=
  decide ((s.cluster (clusterOf c)).power.tlimMig.toInt ≤ (s.core c).coret.toInt)

/-- THERMAL_MIGRATION (R118): the task of `core` begins to move to the idle core `core2`. -/
def execThermalMigration (s : State) : Res :=
  let c := s.ev.core
  let d := s.ev.core2
  match s.runningTask c with
  | none => .refused .eventDisabled
  | some (t, _) =>
    guardEvent ((s.core c).stop.isNone && s.pastLimit c && s.coreFree d && !s.pastLimit d && groupOf c == groupOf d && c != d &&
        !s.mmrInGroup (groupOf c) && (!s.octetBound c t || octetOf c == octetOf d))
      (.next (s.modCore c fun k => { k with stop := some (.migrate d) }))

/-- The state of a task moves from core `c` to core `d`; into another octet it takes no tile or register. -/
def State.moveTask (s : State) (c d : CoreId) (t : TaskRef) : State :=
  let jobs := s.heldJobs c
  let k := s.core c
  let s1 := (((s.withdraw c).dropPins c).vacate c).remap k.lcn d
  s1.takeUp t d k jobs (if octetOf c == octetOf d then octPos c else awayOwner t)

/-- Where a move ends: a task bound to its octet since the move began goes on where it is, and its core's caps apply
(DEDUCED, log 71: R118 says so of a task for which no idle core qualifies). -/
def State.moveEnd (s : State) (c d : CoreId) (t : TaskRef) : CoreId :=
  if s.octetBound c t && octetOf c != octetOf d then c else d

/-- MIGRATION_SWITCH (R118): the task of `core`, once its waits are over and the new core's time base has caught up. -/
def execMigrationSwitch (s : State) : Res :=
  let c := s.ev.core
  match s.runningTask c, (s.core c).stop with
  | some (t, k), some (.migrate d) =>
    let e := s.moveEnd c d t
    guardEvent (s.movable c t && decide (0 ≤ ahead (s.now e) (s.now c)))
      (endRelease c (s.core c).bind.tenant .sys (descWrites k.desc) s fun s => .next ((s.moveTask c e t).acquireActs e .sys))
  | _, _ => .refused .eventDisabled

end Sys2Proof.Machine
end

