-- ==== Sys2Proof/Machine/Power.lean ====
section
/-! DEFINITION. Control intervals and brakes: 16 R402 to R412, R414, R415. Readings are observed: they come with the
step (log 29). -/

namespace Sys2Proof.Machine

/-- The tick at which the next step of 125 ticks ends (R407); every tenth step ends an interval (R404). -/
def State.nextStep (s : State) : Nat := 125 * (s.spine.steps + 1)

/-- A cap one operating point lower than a point applied, and one point higher than it was (R405). -/
def capDown (applied : Nat) : Option Nat := some (Nat.min 7 (applied + 1))
def capUp (c : Option Nat) : Option Nat := match c with | some (n + 1) => some n | _ => none

/-! ### Voltages and estimates (R402, R404) -/

/-- The voltage of an operating point before trim, in mV. -/
def pointVolt (p : Nat) : Nat := [850, 800, 750, 700, 660, 620, 580, 550].getD p 550
/-- The voltage of a core, in mV: its point's, with its trim, within the regulator's range (R402). -/
def State.coreVolt (s : State) (c : CoreId) : Nat :=
  Nat.max 550 (Nat.min 850 (pointVolt (s.core c).point + 5 * (Config.trim c).val - 20))
/-- Sixteen times the mean voltage of a cluster's cores. -/
def State.volts (s : State) (cl : Nat) : Nat := ((List.range 16).map fun i => s.coreVolt (16 * cl + i)).sum

/-- Entry of the leakage table: temperature point `i`, voltage column `j`. -/
def Power.lktAt (p : Power) (i j : Nat) : Nat := ((p.lkt.getD i 0).extractLsb' (16 * j) 16).toNat
/-- Temperature point `i`, in sixteenths of a degree. -/
def Power.tempAt (p : Power) (i : Nat) : Int := 16 * ((p.tpts.extractLsb' (8 * i) 8).toNat : Int)

/-- Where a value lies among rising points: the point below it, its distance from that point and the distance between the two
neighbours; outside the outermost points it lies at the end point. -/
def between (at_ : Nat → Int) (n : Nat) (v : Int) : Nat × Nat × Nat :=
  match ((List.range n).filter fun i => decide (at_ i ≤ v)).getLast? with
  | none => (0, 0, 1)
  | some i => if i + 1 < n then (i, (v - at_ i).toNat, (at_ (i + 1) - at_ i).toNat) else (i, 0, 1)

/-- Leakage at a reading and at sixteen times a mean voltage: linear in both, truncated (R404). -/
def Power.leakage (p : Power) (reading : BitVec 16) (volts : Nat) : Nat :=
  let (i, dt, nt) := between p.tempAt 8 reading.toInt
  let (j, dv, nv) := between (fun j => 16 * (550 + 100 * (j : Int))) 4 volts
  let row := fun j => p.lktAt i j * (nt - dt) + p.lktAt (i + 1) j * dt
  (row j * (nv - dv) + row (j + 1) * dv) / (nt * nv)

/-- Leakage of a cluster. -/
def State.leaks (s : State) (cl : Nat) : Nat :=
  let p := (s.cluster cl).power
  p.leakage p.sensReading (s.volts cl)

/-- What the cores of a cluster have done since the interval began. -/
def State.activity (s : State) (cl : Nat) (f : Activity → Nat) : Nat := ((List.range 16).map fun i => f (s.core (16 * cl + i)).act).sum

/-- The dynamic part of a cluster's estimate: its activity multiplied by the fused weights (R404). -/
def State.dynamic (s : State) (cl : Nat) : Nat :=
  Config.weight cl 0 * s.activity cl (·.issued) + Config.weight cl 1 * s.activity cl (·.products) +
    Config.weight cl 2 * s.activity cl (·.laneOps) + Config.weight cl 3 * s.activity cl (·.copied) +
    Config.weight cl 4 * s.activity cl (·.flits)

/-- The estimate of a cluster: leakage and its dynamic part. -/
def State.estimate (s : State) (cl : Nat) : Nat := s.leaks cl + s.dynamic cl

/-- Clusters that may have an estimate other than 0, or leases and points that change: those not as at reset. -/
def State.liveClusters (s : State) : List Nat :=
  ((s.clusters.map (·.1)) ++ (s.cores.filterMap fun e => if e.1 == mgmtCore then none else some (clusterOf e.1))).eraseDups

/-- At most one observation of a cluster, and none of a cluster the package lacks. -/
def obsOk (obs : Observations) : Bool :=
  obs.all (fun o => decide (o.cluster < 16384)) && decide (obs.map (·.cluster)).Nodup

/-! ### Brakes (R407) -/

/-- The brake after a step: reports `sum` for the steps so far, `draw` of the step just ended, `left` steps to come. -/
def Spine.brakeAfter (p : Spine) (sum draw left : Nat) : Spine :=
  if 10 * p.plim < sum + left * draw then
    { p with brake := Nat.min 3 (p.brake + 1)
             braked := if p.brake = 0 && p.braked != BitVec.allOnes 32 then p.braked + 1 else p.braked }
  else p

/-- The clusters' reports for the steps of the interval so far, added up, in tenths of the unit of an estimate: leakage over so many of
the ten steps, and the activity so far, which the weights relate to the whole interval. -/
def State.reports (s : State) : Nat :=
  (s.liveClusters.map fun cl => (s.spine.steps % 10 + 1) * s.leaks cl + 10 * s.dynamic cl).sum

/-- The step just ended, and its brake. Its draw is what it added to the reports. -/
def State.endStep (s : State) : State :=
  let sum := s.reports
  let p := s.spine.brakeAfter sum (sum - s.spine.used) (9 - s.spine.steps % 10)
  { s with spine := { p with steps := p.steps + 1, used := if s.spine.steps % 10 = 9 then 0 else sum } }

/-- BRAKE_STEP_END (R407): a step that does not end an interval. -/
def execBrakeStepEnd (s : State) : Res :=
  guardEvent (s.spine.steps % 10 != 9 && s.nextStep ≤ s.time.toNat) (.next s.endStep)

/-! ### Readings, alerts and caps (R405, R406, R414, R415) -/

/-- Signed order of readings. -/
def hotter (a b : BitVec 16) : Bool := decide (b.toInt ≤ a.toInt)

/-- The hottest of a cluster's core readings and its position, the lowest on a tie (DESIGN CHOICE, log 29). -/
def State.hottest (s : State) (cl : Nat) : BitVec 16 × Nat :=
  (List.range 16).foldl (fun (b : BitVec 16 × Nat) i =>
    let r := (s.core (16 * cl + i)).coret
    if hotter b.1 r then b else (r, i)) ((s.core (16 * cl)).coret, 0)

/-- The alert of a boundary, if a threshold has been crossed since the last one (R414). -/
def Power.alertOf (old new : Power) (cl : Nat) : Option Word :=
  let hi := new.alert.extractLsb' 0 16
  let lo := new.alert.extractLsb' 16 16
  let word := fun (up : Bool) => bitAt 63 ||| (if up then bitAt 62 else 0) ||| (new.sensReading.setWidth 64 <<< 30) ||| BitVec.ofNat 64 cl
  if !new.alert.getLsbD 63 then none
  else if hotter new.sensReading hi && !hotter old.sensReading hi then some (word true)
  else if hotter lo new.sensReading && !hotter lo old.sensReading then some (word false)
  else none

/-- Queue an alert; one that finds the queue full is dropped (R415). -/
def Mgmt.queueAlert (m : Mgmt) (a : Word) : Mgmt :=
  if m.alerts.length < 256 then { m with alerts := m.alerts ++ [a] } else { m with alertDropped := true }

/-- The fastest point that a core of a cluster applied (R405). -/
def State.appliedPoint (s : State) (cl : Nat) : Nat :=
  (List.range 16).foldl (fun m i => Nat.min m (s.core (16 * cl + i)).point) 7

/-- Why the hottest core of a cluster ran at its point in the interval just ended, for which it had asked for `ask` (R406). -/
def Power.causeOf (p : Power) (k : Core) : Nat :=
  if k.point ≤ k.ask then 0
  else if p.curCap == some k.point then 1
  else if p.thermCap == some k.point then 2 else 0

/-- The caps of the next interval (R405): `sum` is the package's estimate. -/
def Power.nextCaps (p : Power) (plim sum : Nat) : Power :=
  let limit := p.tlimCap.toInt
  { p with
    curCap := if plim < sum then capDown p.applied else if 10 * sum < 9 * plim then capUp p.curCap else p.curCap
    thermCap := if limit ≤ p.sensReading.toInt then capDown p.applied
      else if p.sensReading.toInt < limit - 48 then capUp p.thermCap else p.thermCap }

/-- A lease at an interval boundary, for a core that asked for one point and ran at another: deferred when a cap kept it from
point 0 (R406, R410). -/
def leaseTick (l : Word) (ask point : Nat) : Word :=
  if !l.getLsbD 63 || ask != 0 then l
  else if point != 0 then l ||| leaseDefer
  else
    let r := leaseRemain l - 10
    let l1 := (l &&& ~~~(0xFFFF : Word)) ||| BitVec.ofNat 64 r
    if r = 0 then (l1 &&& ~~~leaseActive) ||| leaseExpired else l1

/-- The point a core asks for (R405). -/
def Core.request (k : Core) : Nat := if k.leased then 0 else 2
/-- A core's point under the caps (R405, R406). -/
def Power.pointOf (p : Power) (ask : Nat) : Nat := Nat.max ask (Nat.max (p.curCap.getD 0) (p.thermCap.getD 0))

/-- A core at an interval boundary: its lease, then what it asks for and its point for the next interval. -/
def Core.boundary (k : Core) (p : Power) : Core :=
  let k1 := { k with lease := leaseTick k.lease k.ask k.point }
  { k1 with ask := k1.request, point := p.pointOf k1.request }

/-- When a core's point changes, what is left of a sleep passes at the new rate (R95, R403). -/
def Ctx.resleep (x : Ctx) (now : Word) (old new : Nat) : Ctx :=
  match x.wait with
  | some (.sleep _) =>
    if old != new && laterThan x.due now then
      { x with due := now + BitVec.ofNat 64 ((x.due - now).toNat * pointRate old / pointRate new) }
    else x
  | _ => x
def Core.resleep (k : Core) (now : Word) (old : Nat) : Core := { k with ctxs := k.ctxs.map (·.resleep now old k.point) }

/-- The package's estimate of the interval just ended. -/
def State.packageSum (s : State) : Nat := (s.clusters.map fun e => (e.2.power.pest.extractLsb' 0 32).toNat).sum

/-- Take in the readings of a cluster's cores: its hottest, and an alert (R414). -/
def State.observe (s : State) (o : Observation) : State :=
  let old := (s.cluster o.cluster).power
  let s1 := (o.coreReadings.take 16).zipIdx.foldl (fun (s : State) (e : BitVec 16 × Nat) =>
    s.modCore (16 * o.cluster + e.2) fun k => { k with coret := e.1 }) s
  let (r, i) := s1.hottest o.cluster
  let new := { old with sensReading := r, sensPos := i }
  let s2 := s1.modPower o.cluster fun _ => new
  match old.alertOf new o.cluster with
  | some a => { s2 with mgmt := s2.mgmt.queueAlert a }
  | none => s2

/-- The estimate of a cluster for the interval just ended goes to its PEST (R404). -/
def State.writePest (s : State) (cl : Nat) : State :=
  s.modPower cl fun p => { p with pest := BitVec.ofNat 64 (s.dynamic cl % 2 ^ 32 * 2 ^ 32 + s.estimate cl % 2 ^ 32) }

/-- One cluster at a boundary: what it applied and why, its caps, and its cores' leases and points. -/
def State.boundary (s : State) (sum : Nat) (cl : Nat) : State :=
  let p0 := (s.cluster cl).power
  let p1 := { p0 with applied := s.appliedPoint cl, cause := p0.causeOf (s.core (16 * cl + p0.sensPos % 16)) }
  let p2 := p1.nextCaps s.spine.plim sum
  (List.range 16).foldl (fun s i => s.modCore (16 * cl + i) fun k => (k.boundary p2).resleep s.time k.point) (s.modPower cl fun _ => p2)

/-- Clusters that a boundary can change: every one when the current limit is exceeded, else those not as at reset. -/
def State.boundaryClusters (s : State) (sum : Nat) : List Nat :=
  if s.spine.plim < sum then List.range 16384 else s.liveClusters

/-- The next interval counts anew what cores do (R404). -/
def State.clearActivity (s : State) : State := { s with cores := s.cores.map fun e => (e.1, { e.2 with act := Activity.reset }) }

/-- CONTROL_INTERVAL_END (R404 to R407): `obs` brings the readings of the interval just ended, whose last step ends with it. -/
def execControlIntervalEnd (s : State) : Res :=
  guardEvent (s.spine.steps % 10 == 9 && s.nextStep ≤ s.time.toNat && obsOk s.ev.obs)
    (let s1 := (s.ev.obs.foldl State.observe s).endStep
     let s2 := s1.liveClusters.foldl (fun s cl => s.writePest cl) s1
     let sum := s2.packageSum
     let s3 := ((s2.boundaryClusters sum).foldl (fun s cl => s.boundary sum cl) s2).clearActivity
     .next { s3 with spine := { s3.spine with brake := 0 } })

end Sys2Proof.Machine
end

