-- ==== Sys2Proof/Machine/Start.lean ====
section
/-! DEFINITION. Start-up, firmware verification and the background wipe: 16 R422 to R430. -/

namespace Sys2Proof.Machine

/-! ### Firmware images (R426, R427) -/

/-- An image as it is read: byte by byte, and the bytes there is room for. -/
structure Image where
  byte : Nat → Byte
  room : Nat

def Image.bytes (m : Image) (off n : Nat) : List Byte := (List.range n).map fun i => m.byte (off + i)
/-- A header word. -/
def Image.word (m : Image) (off : Nat) : Nat := ofLe (m.bytes off 8)
def Image.version (m : Image) : Nat := m.word 0x08
def Image.len (m : Image) : Nat := m.word 0x10
def Image.load (m : Image) : Nat := m.word 0x18
def Image.entry (m : Image) : Nat := m.word 0x20
/-- The signed bytes: header and body. -/
def Image.signed (m : Image) : List Byte := m.bytes 0 (64 + m.len)
def Image.key (m : Image) : List Byte := m.bytes (64 + m.len) 1952
def Image.sig (m : Image) : List Byte := m.bytes (64 + m.len + 1952) 3309

/-- The image in the slot of the spine flash. -/
def State.flashImage (s : State) : Image := ⟨fun i => flashGet s.flash.cells (0x100000 + i), 0x3F00000⟩
/-- The image that RELOAD names, in HBM. -/
def State.hbmImage (s : State) (a : Nat) : Image := ⟨fun i => (s.hbmRead (a + i) 1).val.setWidth 8, 2 ^ 39 - a⟩

/-- Whether the load address has room for the body: the management core's local store, or HBM. -/
def Image.loadOk (m : Image) : Bool :=
  decide (m.load + m.len ≤ 2 ^ 39) || (decide (0xFFFFFFFFE000 ≤ m.load) && decide (m.load + m.len ≤ 0x1000000000000))

/-- The first failed check, as BOOTST.ERR codes it; 0 when the image is accepted. -/
def Image.verdict (m : Image) (rollback : Nat) : BitVec 4 :=
  if m.word 0 != 0x385845544C49534E || m.bytes 0x28 24 != List.replicate 24 0 || m.len % 64 != 0 ||
      m.room < 64 + m.len + 1952 + 3309 || !m.loadOk || m.len ≤ m.entry then 3
  else if shake256 m.key 32 != Config.pkHash then 4
  else if !mldsaVerify m.key m.signed m.sig then 5
  else if m.version < rollback then 6 else 0

/-- Copy bytes to an address of the management core. -/
def State.loadByte (s : State) (a : Nat) (b : Byte) : State :=
  if a < 2 ^ 39 then s.hbmWrite a 1 ⟨b.setWidth 64, false⟩
  else s.modCore mgmtCore fun k => { k with ls := lsWrite k.ls (a - 0xFFFFFFFFE000) 1 ⟨b.setWidth 64, false⟩ }
/-- The body goes to its load address before the image is verified (R427). -/
def State.loadBody (s : State) (m : Image) : State :=
  if m.loadOk && decide (64 + m.len + 1952 + 3309 ≤ m.room) && m.len % 64 == 0 && m.word 0 == 0x385845544C49534E then
    (List.range m.len).foldl (fun s i => s.loadByte (m.load + i) (m.byte (64 + i))) s
  else s

/-- A digest as words. -/
def digestWords (b : List Byte) : List Word := (List.range 8).map fun i => BitVec.ofNat 64 (ofLe ((b.drop (8 * i)).take 8))

/-- Stop the start, or go on to step 9 with the management core at the image entry, bit 0 clear (R34), in machine mode (R413); it
runs once the up-links are trained (R422 steps 9 and 10). -/
def State.startImage (s : State) (m : Image) : State :=
  let s1 := s.loadBody m
  match m.verdict s1.spine.rollback with
  | 0 =>
    let entry := BitVec.ofNat 64 (m.load + m.entry)
    let p := { s1.spine with stage := 9, err := 0, version := BitVec.ofNat 64 m.version
                             fwDigest := digestWords (shake256 m.signed 64) }
    let s2 := { s1 with spine := p, host := { s1.host with report := [], ready := false, forming := false } }
    (s2.modCtx mgmtCore 0 fun _ => { (Ctx.reset.goto (entry &&& ~~~1#64)) with tr := { TrapRegs.reset with priv := 3 } }).runWhenTrained
  | e => { s1 with spine := { s1.spine with stage := 0xE, err := e } }

/-! ### Starts (R422 to R425, R430) -/

/-- What a reset leaves: fuses, flash and, hidden by the wipe, HBM; the life-cycle state moves to the one burned. -/
def State.afterReset (s : State) : State :=
  let p := s.spine
  let changed := p.lcNext != p.lc
  { State.reset with
    fresh := s.fresh
    seq := s.seq
    hbm := s.hbm
    flash := { Flash.reset with cells := s.flash.cells, training := s.flash.training }
    host := { HostWindow.reset with lastRead := s.host.lastRead, writes := s.host.writes }
    spine := { Spine.reset with
      lc := p.lcNext
      lcNext := p.lcNext
      rollback := p.rollback
      boots := if changed then 1 else if p.boots == BitVec.allOnes 16 then p.boots else p.boots + 1 } }

/-- Wipe HBM before step 7. -/
def State.wipeAll (s : State) : State :=
  { s with hbm := Memory.empty, wiping := false, wiped := [], spine := { s.spine with hbmw := true } }

/-- Stop a start at a step with an error. -/
def State.stopStart (s : State) (step err : BitVec 4) : State := { s with spine := { s.spine with stage := step, err := err } }

/-- Steps 7 to 10; a decommissioned device wipes HBM and stops (R430). -/
def State.finishStart (s : State) : State :=
  if s.spine.lc == 3 then s.wipeAll.stopStart 0xE 0 else s.startImage s.flashImage

/-- HBM training, whose values Chestnut stores in the spine flash (R422 step 5, R427). -/
def State.trainHbm (s : State) : State := { s with flash := { s.flash with training := some Config.trainingValues } }

/-- COLD_START (R422): power-on. -/
def execColdStart (s : State) : Res :=
  let s1 := s.afterReset
  let dark := { s1 with hbm := Memory.empty }
  .next (if !Config.bistPasses then dark.stopStart 4 1
         else if !Config.hbmTrains then dark.stopStart 5 2
         else s1.trainHbm.wipeAll.finishStart)

/-- WARM_START (R422): a reset requested through the spine; `ok` says whether the stored training values pass their check. -/
def execWarmStart (s : State) : Res :=
  let s1 := s.afterReset
  let changed := s.spine.lcNext != s.spine.lc
  let s2 := if changed then s1.wipeAll else { s1 with wiping := true, wiped := [] }
  .next (if s1.flash.training.isSome && s.ev.ok then s2.finishStart
         else if !Config.hbmTrains then s2.stopStart 5 2
         else s2.trainHbm.finishStart)

/-- RELOAD (R426, R430): the host names an image at `w`; used only in RECOVERY, and refused by a decommissioned device. -/
def execReload (s : State) : Res :=
  .next (if s.spine.stage == 0xE && s.spine.lc != 3 then s.startImage (s.hbmImage s.ev.w.toNat) else s)

/-- BACKGROUND_WIPE_GRANULE (R424): granule `w`. -/
def execBackgroundWipeGranule (s : State) : Res :=
  let g := s.ev.w.toNat
  guardEvent (s.wiping && decide (g < 2 ^ 31) && !natHas s.wiped g)
    (.next (s.wipeGranule g))

end Sys2Proof.Machine
end

