-- ==== Sys2Proof/Machine/Wakes.lean ====
section
/-! DEFINITION. Stops and interrupts at a context's boundary, and the events that end a wait: 04 R88 to R97, R104, R108 to
R111, R116; 05 R124; 06 R150; 07 R162; 08 R199, R212; 10 R230; 11 R274; 12 R296, R299; 16 R416. -/

namespace Sys2Proof.Machine

/-! ### Interrupts (R104, R416) -/

/-- The lowest set bit of a mask below `n`. -/
def lowBit (m : Word) (n : Nat) : Option Nat := (List.range n).find? fun i => m.getLsbD i

/-- TVAL of an interrupt (R102). -/
def State.intValue (s : State) (c : CoreId) (n : CtxId) (i : Nat) : Word :=
  match i with
  | 0 => (s.ctx c n).alarm
  | 1 => (s.core c).tagerr
  | _ => ((s.ctx c n).tstat.extractLsb' 32 16).setWidth 64

/-- A context of a stopping core that may issue no more: not one in supervisor mode, not one inside a packet (R109, R110). -/
def Core.mustStop (k : Core) (n : CtxId) : Bool :=
  k.stop.isSome && (k.ctx n).tr.priv == 0 && (k.ctx n).packet.isNone

/-- INTERRUPT_TAKE (R104): context `ctx` of `core`, whose clock runs, for the lowest pending bit that is enabled. R108 step 4 speaks of the order in which
the arbiter latched the bits; where the two differ the model follows R104 (DEDUCED, log 70). -/
def execInterruptTake (s : State) : Res :=
  let c := s.ev.core
  let n := s.ev.ctx
  let x := s.ctx c n
  match lowBit (x.ien &&& s.ipendOf c n) 3 with
  | none => .refused .eventDisabled
  | some i =>
    guardEvent (!s.paused c && c != mgmtCore && x.st == .ready && x.tr.priv == 0 && x.packet.isNone && !(s.core c).mustStop n)
      (.next (s.takeTrap c n (cInt i) (s.intValue c n i)))

/-- MGMT_INTERRUPT_TAKE (R416): context `ctx` of the management core; it ends a HALT (R116). -/
def execMgmtInterruptTake (s : State) : Res :=
  let n := s.ev.ctx
  let x := s.ctx mgmtCore n
  match lowBit (s.mgmt.mien &&& s.mipend x) 5 with
  | none => .refused .eventDisabled
  | some i =>
    guardEvent (x.st == .ready && x.packet.isNone && s.mgmt.mie && !s.mgmt.dead)
      (.next ({ s with mgmt := { s.mgmt with halted := false } }.machineEntry n (cInt i) 0))

/-- ALARM_REACHED (R104): IPEND.ALARM of context `ctx` of `core` is set. -/
def execAlarmReached (s : State) : Res :=
  let x := s.ctx s.ev.core s.ev.ctx
  guardEvent (s.alarmOn s.ev.core x && !x.ipend.getLsbD 0) (.next (s.setCtx s.ev.core s.ev.ctx { x with ipend := x.ipend ||| 1 }))

/-! ### Stops (R108 to R111) -/

/-- Save a stopped context's registers in its slot of the local store, with poison, and set its SAVEMAP bit (R111). -/
def Core.saveSlot (k : Core) (n : CtxId) : Core :=
  let m := ((k.ctx n).slotImage.zipIdx).foldl (fun (m : Memory) e => m.write (0x1800 + 184 * n.val + 8 * e.2) 8 e.1) k.ls
  let map := (m.read 0x1FE8 8).val ||| bitAt n.val
  { (k.setCtx n { k.ctx n with unsaved := false }) with ls := lsWrite m 0x1FE8 8 ⟨map, false⟩ }

/-- A context leaves the queues of the units it waits for; its instruction issues again after resume (R108). -/
def Core.leaveUnits (k : Core) (n : CtxId) : Core :=
  { k with work := { k.work with divQ := k.work.divQ.filter (· != n), rcrQ := k.work.rcrQ.filter (· != n),
                                 aligns := k.work.aligns.filter fun h => h.ctx != n } }

/-- A HINT or SLEEP that a stop reaches is over (R95, R124). -/
def State.endSleep (s : State) (c : CoreId) (n : CtxId) : State :=
  match (s.ctx c n).st, (s.ctx c n).wait with
  | .waiting, some (.sleep _) => s.retireAt c n .seq
  | .waiting, some (.hint ..) => s.retireAt c n .seq
  | _, _ => s

/-- Lanes are released at a stop for a move, with what is needed to take them back; a claim leaves the queue (R235). -/
def State.stopLanes (s : State) (c : CoreId) (n : CtxId) : State :=
  let x := s.ctx c n
  let o := s.octet (octetOf c)
  let s1 := (s.setCtx c n { x with lanes := { x.lanes with g := 0, kept := x.lanes.g } }).setOctet (octetOf c)
    { o with laneQ := o.laneQ.filter fun q => !(q.core == c && q.ctx == n) }
  s1.settleLanes 88 (octetOf c)

/-- A context that waits only for its lanes after a resume keeps what it had before (R235). -/
def State.stopOne (s : State) (c : CoreId) (n : CtxId) : State :=
  let s1 := s.endSleep c n
  let resuming := match (s1.octet (octetOf c)).laneQ.find? fun q => q.core == c && q.ctx == n with
    | some q => if 0 < q.saved then some q else none
    | none => none
  let s2 := s1.stopLanes c n
  let s3 := s2.modCore c fun k => (k.setCtx n { k.ctx n with st := .stopped, wait := none, yield := [] }).leaveUnits n
  let s4 := match resuming with
    | some q => s3.modCtx c n fun x => { x with lanes := { x.lanes with q := q.q, kept := q.saved } }
    | none => s3
  (s4.modCore c fun k => k.saveSlot n).leaveFifoBanks c (· == n)

/-- CONTEXT_STOP (R109, R110): context `ctx` of `core`, once every result it is owed has been written. One that CTXLOAD left STOPPED
stops too: its slot is written (R112). -/
def execContextStop (s : State) : Res :=
  let c := s.ev.core
  let n := s.ev.ctx
  let x := s.ctx c n
  if x.st == .stopped then
    guardEvent (c != mgmtCore && (s.core c).stop.isSome && x.unsaved) (.next (s.modCore c fun k => k.saveSlot n))
  else
    guardEvent (!s.paused c && (c != mgmtCore && (x.st == .ready || x.st == .waiting) && (s.core c).mustStop n && x.pend.isEmpty && !(s.core c).inUnits n))
      (.next (s.stopOne c n))

/-! ### Waits that end -/

/-- The context that the event names, waiting inside an instruction that `run` recognises. -/
def wakeEvent (s : State) (run : Instr → Option (Bool × (State → Res))) : Res :=
  match (s.ctx s.ev.core s.ev.ctx).wait with
  | none => .refused .eventDisabled
  | some i =>
    match run i with
    | none => .refused .eventDisabled
    | some (ok, k) => wake s s.ev.core s.ev.ctx ok k

/-- The value that a waiting context reads. -/
def State.waitG (s : State) (r : Reg) : Word := ((s.ctx s.ev.core s.ev.ctx).getG r).val

/-- SLEEP_EXPIRE (R95): not before the cycles have passed; brakes and pauses of the core's clock make it later (log 10). -/
def execSleepExpire (s : State) : Res :=
  wakeEvent s fun i => match i with
    | .sleep _ => some (!laterThan (s.ctx s.ev.core s.ev.ctx).due s.time, done)
    | _ => none

/-- Whether a helper has ended. -/
def State.ended (s : State) (v : Word) : Bool :=
  let t := ((s.core s.ev.core).ctx (Fin.ofNat 11 v.toNat)).st
  t == .ended || t == .free

/-- JOIN_COMPLETE (R93). -/
def execJoinComplete (s : State) : Res :=
  wakeEvent s fun i => match i with
    | .join r => some (s.ended (s.waitG r), joinVia (.join r) r)
    | .joinS r => some (s.ended (s.waitG r), joinVia (.joinS r) r)
    | _ => none

/-- WAITEV_WAKE (R96). -/
def execWaitevWake (s : State) : Res :=
  wakeEvent s fun i => match i with
    | .waitev d mask => some ((s.ctx s.ev.core s.ev.ctx).evpend &&& mask.setWidth 64 != 0, execWaitev d mask)
    | _ => none

/-- TWAITU_WAKE (R162). -/
def execTwaituWake (s : State) : Res :=
  wakeEvent s fun i => match i with
    | .twaitu e isAbs =>
      let k := s.core s.ev.core
      let t := (k.ctx s.ev.ctx).getE e
      some (decide (0 ≤ ahead (s.now s.ev.core) (if isAbs then t.val else t.val + k.bind.tbase)), execTwaitu e isAbs)
    | _ => none

/-- TLWAIT_WAKE (R299). -/
def execTlwaitWake (s : State) : Res :=
  wakeEvent s fun i => match i with
    | .tlwait a c => some (decide (s.waitG a ≤ ((s.core s.ev.core).timeline c).cnt), tlwaitVia (.tlwait a c) a c)
    | .tlwaitS a c => some (decide (s.waitG a ≤ ((s.core s.ev.core).timeline c).cnt), tlwaitVia (.tlwaitS a c) a c)
    | _ => none

/-- MJWAIT_WAKE (R274). -/
def execMjwaitWake (s : State) : Res :=
  wakeEvent s fun i => match i with
    | .mjwait a => some ((s.core s.ev.core).jobOver ((s.waitG a).extractLsb' 0 16), mjwaitVia (.mjwait a) a)
    | .mjwaitS a => some ((s.core s.ev.core).jobOver ((s.waitG a).extractLsb' 0 16), mjwaitVia (.mjwaitS a) a)
    | _ => none

/-- TWANY_WAKE (R296). -/
def execTwanyWake (s : State) : Res :=
  wakeEvent s fun i => match i with
    | .twany d a => some ((s.core s.ev.core).readyTags &&& s.waitG a != 0, execTwany d a)
    | _ => none

/-- TWALL_WAKE (R296). -/
def execTwallWake (s : State) : Res :=
  wakeEvent s fun i => match i with
    | .twall d a => some ((s.core s.ev.core).readyTags &&& s.waitG a == s.waitG a, execTwall d a)
    | _ => none

/-- HINT_ALIGN_RELEASE (R124): the masked cores have arrived, or the bound has passed, which may be at any time. -/
def execHintAlignRelease (s : State) : Res :=
  wakeEvent s fun i => match i with
    | .hint .. => some (true, fun s =>
        done (s.modMyCore fun k => { k with work := { k.work with aligns := k.work.aligns.filter fun h => h.ctx != s.cur.ctx } }))
    | _ => none

/-! ### Grants (R150, R230) -/

/-- Whether earlier uses of a context's pooled registers are still to complete. -/
def State.poolHeld (s : State) : Bool :=
  s.poolJobs s.ev.core s.ev.ctx || s.poolLoads s.ev.core s.ev.ctx || s.poolStores s.ev.core s.ev.ctx

/-- POOL_GRANT (R150): the claim at the head of the queue of `core` fits, or the CLAIM or GIVE of `ctx` no longer waits for
its registers' earlier uses. -/
def execPoolGrant (s : State) : Res :=
  let c := s.ev.core
  let k := s.core c
  match k.poolQ with
  | (_, m) :: _ =>
    if m ≤ k.poolFree then guardEvent (!s.paused c) (.next (s.settlePool 11 c)) else rerun
  | [] => rerun
where
  /-- Run a CLAIM or GIVE that is not in the queue again. -/
  rerun : Res :=
    let queued := (s.core s.ev.core).poolQ.any fun q => q.1 == s.ev.ctx
    wakeEvent s fun i => match i with
      | .claim d a q => some (!queued && !s.poolHeld, execClaim d a q)
      | .give q => some (!s.poolHeld, execGive q)
      | .giveS => some (!s.poolHeld, execGiveS)
      | _ => none

/-- LANE_GRANT (R230): the claim at the head of octet `unit` is granted, or the VCLAIM or VREL of `ctx` of `core` no longer
waits for its registers' earlier uses. -/
def execLaneGrant (s : State) : Res :=
  let o := s.ev.unit
  if !(s.octet o).laneQ.isEmpty && 4 ≤ s.laneFree o then guardEvent (!s.braked 3) (.next (s.settleLanes 88 o)) else rerun
where
  /-- Run a VCLAIM or VREL that is not in the queue again. -/
  rerun : Res :=
    let c := s.ev.core
    let queued := (s.octet (octetOf c)).laneQ.any fun q => q.core == c && q.ctx == s.ev.ctx
    let free := !s.poolLoads c s.ev.ctx
    wakeEvent s fun i => match i with
      | .vclaim d a q => some (!queued && free && c != mgmtCore, execVclaim d a q)
      | .vrel q => some (free, execVrel q)
      | .vrelS => some (free, execVrelS)
      | _ => none

/-- AFLUSH_COMPLETE (R212). -/
def execAflushComplete (s : State) : Res :=
  let c := s.ev.core
  wakeEvent s fun i => match i with
    | .aflush => some (!s.mergesOut (clusterOf c) (posOf c), done)
    | _ => none

/-- BANK_DRAIN_COMPLETE (R199). -/
def execBankDrainComplete (s : State) : Res :=
  wakeEvent s fun i => match i with
    | .bankmode d a b q =>
      some (!s.drainWaits (clusterOf s.ev.core) ((s.waitG a).toNat % 16), execBankmode d a b q)
    | _ => none

/-! ### The divide unit and the recurrence unit (R88, R218) -/

/-- Run again an instruction that waited for the divide unit. -/
def runDivide (i : Instr) (s : State) : Res :=
  match i with
  | .div d a b q => execDiv d a b q s
  | .divu d a b q => execDivu d a b q s
  | .mod d a b q => execMod d a b q s
  | .modu d a b q => execModu d a b q s
  | .fdiv d a b f r q => execFdiv d a b f r q s
  | .fsqrt d a f r q => execFsqrt d a f r q s
  | _ => .next s

/-- Run again an instruction that waited for the recurrence unit. -/
def runRecurrence (i : Instr) (s : State) : Res :=
  match i with
  | .ladd d a b f q => execLadd d a b f q s
  | .lsub d a b f q => execLsub d a b f q s
  | .lmul d a b f q => execLmul d a b f q s
  | .ldiv d a b f q => execLdiv d a b f q s
  | .lcvt d a r c q => execLcvt d a r c q s
  | _ => .next s

/-- The instruction of the first context of a queue that may still issue (R109) goes to the freed unit: it issues now (R120). -/
def nextInUnit (c : CoreId) (run : Instr → State → Res) (put : List CtxId → CoreWork → CoreWork) : List CtxId → State → Res
  | [], s => .next s
  | n :: rest, s =>
    let setQ := fun (l : List CtxId) (s : State) => s.modCore c fun k => { k with work := put l k.work }
    match (s.ctx c n).st, (s.ctx c n).wait, (s.core c).mustStop n with
    | .waiting, some i, false =>
      (match wake (setQ [] s) c n true (run i) with
       | .next t => .next (setQ rest (t.modCore c (·.noteIssue n)))
       | r => r)
    | _, _, _ => nextInUnit c run put rest (setQ rest s)

/-- DIVIDE_UNIT_COMPLETE (R88): the unit of `core`. -/
def execDivideUnitComplete (s : State) : Res :=
  let c := s.ev.core
  let w := (s.core c).work
  match w.div with
  | none => .refused .eventDisabled
  | some o => guardEvent (!s.paused c) (nextInUnit c runDivide (fun l w => { w with divQ := l }) w.divQ
      ((s.landUnit c o).modCore c fun k => { k with work := { k.work with div := none } }))

/-- RECURRENCE_UNIT_COMPLETE (R218): the unit of `core`. -/
def execRecurrenceUnitComplete (s : State) : Res :=
  let c := s.ev.core
  let w := (s.core c).work
  match w.rcr with
  | none => .refused .eventDisabled
  | some o => guardEvent (!s.paused c) (nextInUnit c runRecurrence (fun l w => { w with rcrQ := l }) w.rcrQ
      ((s.landUnit c o).modCore c fun k => { k with work := { k.work with rcr := none } }))

end Sys2Proof.Machine
end

