-- ==== Sys2Proof/Machine/Dispatch.lean ====
section
/-! DEFINITION. One arm per constructor: the meaning of each instruction and of each step the device takes by itself. -/

namespace Sys2Proof.Machine

def exec (i : Instr) (s : State) : Host.Outcome State Fault Refusal :=
  match i with
  | .add d a b q => Sys2Proof.Machine.execAdd d a b q s
  | .sub d a b q => Sys2Proof.Machine.execSub d a b q s
  | .and d a b q => Sys2Proof.Machine.execAnd d a b q s
  | .or d a b q => Sys2Proof.Machine.execOr d a b q s
  | .xor d a b q => Sys2Proof.Machine.execXor d a b q s
  | .andn d a b q => Sys2Proof.Machine.execAndn d a b q s
  | .shl d a b q => Sys2Proof.Machine.execShl d a b q s
  | .shr d a b q => Sys2Proof.Machine.execShr d a b q s
  | .sar d a b q => Sys2Proof.Machine.execSar d a b q s
  | .min d a b q => Sys2Proof.Machine.execMin d a b q s
  | .max d a b q => Sys2Proof.Machine.execMax d a b q s
  | .minu d a b q => Sys2Proof.Machine.execMinu d a b q s
  | .maxu d a b q => Sys2Proof.Machine.execMaxu d a b q s
  | .sel d a b q => Sys2Proof.Machine.execSel d a b q s
  | .clz d a q => Sys2Proof.Machine.execClz d a q s
  | .ctz d a q => Sys2Proof.Machine.execCtz d a q s
  | .popc d a q => Sys2Proof.Machine.execPopc d a q s
  | .addi d a imm q => Sys2Proof.Machine.execAddi d a imm q s
  | .andi d a imm q => Sys2Proof.Machine.execAndi d a imm q s
  | .ori d a imm q => Sys2Proof.Machine.execOri d a imm q s
  | .xori d a imm q => Sys2Proof.Machine.execXori d a imm q s
  | .shli d a sh => Sys2Proof.Machine.execShli d a sh s
  | .shri d a sh => Sys2Proof.Machine.execShri d a sh s
  | .sari d a sh => Sys2Proof.Machine.execSari d a sh s
  | .bfx d a lsb wm1 => Sys2Proof.Machine.execBfx d a lsb wm1 s
  | .bfxu d a lsb wm1 => Sys2Proof.Machine.execBfxu d a lsb wm1 s
  | .bfi d a lsb wm1 => Sys2Proof.Machine.execBfi d a lsb wm1 s
  | .movhi d imm => Sys2Proof.Machine.execMovhi d imm s
  | .lea d imm => Sys2Proof.Machine.execLea d imm s
  | .pcmp d a b c q => Sys2Proof.Machine.execPcmp d a b c q s
  | .pcmpi d a imm c q => Sys2Proof.Machine.execPcmpi d a imm c q s
  | .plog d a b f q => Sys2Proof.Machine.execPlog d a b f q s
  | .pmovPp d a q => Sys2Proof.Machine.execPmovPp d a q s
  | .pmovPg d a q => Sys2Proof.Machine.execPmovPg d a q s
  | .pmovGp d a q => Sys2Proof.Machine.execPmovGp d a q s
  | .mul d a b q => Sys2Proof.Machine.execMul d a b q s
  | .mulh d a b q => Sys2Proof.Machine.execMulh d a b q s
  | .mulhu d a b q => Sys2Proof.Machine.execMulhu d a b q s
  | .div d a b q => Sys2Proof.Machine.execDiv d a b q s
  | .divu d a b q => Sys2Proof.Machine.execDivu d a b q s
  | .mod d a b q => Sys2Proof.Machine.execMod d a b q s
  | .modu d a b q => Sys2Proof.Machine.execModu d a b q s
  | .ldb d base sc o imm => Sys2Proof.Machine.execLdb d base sc o imm s
  | .ldbu d base sc o imm => Sys2Proof.Machine.execLdbu d base sc o imm s
  | .ldh d base sc o imm => Sys2Proof.Machine.execLdh d base sc o imm s
  | .ldhu d base sc o imm => Sys2Proof.Machine.execLdhu d base sc o imm s
  | .ldw d base sc o imm => Sys2Proof.Machine.execLdw d base sc o imm s
  | .ldwu d base sc o imm => Sys2Proof.Machine.execLdwu d base sc o imm s
  | .ldd d base sc o imm => Sys2Proof.Machine.execLdd d base sc o imm s
  | .stb src base sc o imm => Sys2Proof.Machine.execStb src base sc o imm s
  | .sth src base sc o imm => Sys2Proof.Machine.execSth src base sc o imm s
  | .stw src base sc o imm => Sys2Proof.Machine.execStw src base sc o imm s
  | .std src base sc o imm => Sys2Proof.Machine.execStd src base sc o imm s
  | .tld d base sc o e isAbs => Sys2Proof.Machine.execTld d base sc o e isAbs s
  | .tst src base sc o e isAbs => Sys2Proof.Machine.execTst src base sc o e isAbs s
  | .amoAdd d base sc o src w32 => Sys2Proof.Machine.execAmoAdd d base sc o src w32 s
  | .amoAnd d base sc o src w32 => Sys2Proof.Machine.execAmoAnd d base sc o src w32 s
  | .amoOr d base sc o src w32 => Sys2Proof.Machine.execAmoOr d base sc o src w32 s
  | .amoXor d base sc o src w32 => Sys2Proof.Machine.execAmoXor d base sc o src w32 s
  | .amoMin d base sc o src w32 => Sys2Proof.Machine.execAmoMin d base sc o src w32 s
  | .amoMax d base sc o src w32 => Sys2Proof.Machine.execAmoMax d base sc o src w32 s
  | .amoMinu d base sc o src w32 => Sys2Proof.Machine.execAmoMinu d base sc o src w32 s
  | .amoMaxu d base sc o src w32 => Sys2Proof.Machine.execAmoMaxu d base sc o src w32 s
  | .amoSwap d base sc o src w32 => Sys2Proof.Machine.execAmoSwap d base sc o src w32 s
  | .cas d base sc o src w32 => Sys2Proof.Machine.execCas d base sc o src w32 s
  | .accAdd base sc o src w32 => Sys2Proof.Machine.execAccAdd base sc o src w32 s
  | .accMin base sc o src w32 => Sys2Proof.Machine.execAccMin base sc o src w32 s
  | .accMax base sc o src w32 => Sys2Proof.Machine.execAccMax base sc o src w32 s
  | .accOr base sc o src w32 => Sys2Proof.Machine.execAccOr base sc o src w32 s
  | .accFadd32 base sc o src => Sys2Proof.Machine.execAccFadd32 base sc o src s
  | .accLadd32 base sc o src => Sys2Proof.Machine.execAccLadd32 base sc o src s
  | .xset e imm => Sys2Proof.Machine.execXset e imm s
  | .xsetSh e imm => Sys2Proof.Machine.execXsetSh e imm s
  | .xld e a imm => Sys2Proof.Machine.execXld e a imm s
  | .xst e a imm => Sys2Proof.Machine.execXst e a imm s
  | .xmovEg e a => Sys2Proof.Machine.execXmovEg e a s
  | .xmovGe d e => Sys2Proof.Machine.execXmovGe d e s
  | .bankmode d a b q => Sys2Proof.Machine.execBankmode d a b q s
  | .linewb a q => Sys2Proof.Machine.execLinewb a q s
  | .lineinv a q => Sys2Proof.Machine.execLineinv a q s
  | .pin d a q => Sys2Proof.Machine.execPin d a q s
  | .unpin a q => Sys2Proof.Machine.execUnpin a q s
  | .bc p neg sl hint disp => Sys2Proof.Machine.execBc p neg sl hint disp s
  | .b sl disp => Sys2Proof.Machine.execB sl disp s
  | .call sl disp => Sys2Proof.Machine.execCall sl disp s
  | .jmp a sl q => Sys2Proof.Machine.execJmp a sl q s
  | .calli a sl q => Sys2Proof.Machine.execCalli a sl q s
  | .ret sl q => Sys2Proof.Machine.execRet sl q s
  | .loop g reneg e => Sys2Proof.Machine.execLoop g reneg e s
  | .loopi cm1 reneg e => Sys2Proof.Machine.execLoopi cm1 reneg e s
  | .lbrk p neg sl => Sys2Proof.Machine.execLbrk p neg sl s
  | .hint mask w => Sys2Proof.Machine.execHint mask w s
  | .start d imm => Sys2Proof.Machine.execStart d imm s
  | .join d => Sys2Proof.Machine.execJoin d s
  | .sleep d => Sys2Proof.Machine.execSleep d s
  | .waitev d mask => Sys2Proof.Machine.execWaitev d mask s
  | .trap code => Sys2Proof.Machine.execTrap code s
  | .mfs d sr => Sys2Proof.Machine.execMfs d sr s
  | .mts d sr => Sys2Proof.Machine.execMts d sr s
  | .ctxsave d n => Sys2Proof.Machine.execCtxsave d n s
  | .ctxload d run n => Sys2Proof.Machine.execCtxload d run n s
  | .claim d a q => Sys2Proof.Machine.execClaim d a q s
  | .give q => Sys2Proof.Machine.execGive q s
  | .pquery d a q => Sys2Proof.Machine.execPquery d a q s
  | .tnow d isAbs => Sys2Proof.Machine.execTnow d isAbs s
  | .twaitu e isAbs => Sys2Proof.Machine.execTwaitu e isAbs s
  | .pko a e w => Sys2Proof.Machine.execPko a e w s
  | .pka a nm1 => Sys2Proof.Machine.execPka a nm1 s
  | .rxpop d f => Sys2Proof.Machine.execRxpop d f s
  | .rxpeek d f => Sys2Proof.Machine.execRxpeek d f s
  | .rld d a e g sz => Sys2Proof.Machine.execRld d a e g sz s
  | .fetchto d a e g sz => Sys2Proof.Machine.execFetchto d a e g sz s
  | .dropwin d a e k => Sys2Proof.Machine.execDropwin d a e k s
  | .twany d a => Sys2Proof.Machine.execTwany d a s
  | .twall d a => Sys2Proof.Machine.execTwall d a s
  | .tffr d a => Sys2Proof.Machine.execTffr d a s
  | .tclr a => Sys2Proof.Machine.execTclr a s
  | .tlwait a c => Sys2Proof.Machine.execTlwait a c s
  | .tlread d iss c => Sys2Proof.Machine.execTlread d iss c s
  | .gset a g neg => Sys2Proof.Machine.execGset a g neg s
  | .gclr d g => Sys2Proof.Machine.execGclr d g s
  | .mlda d a e g k => Sys2Proof.Machine.execMlda d a e g k s
  | .mldb d a e g k => Sys2Proof.Machine.execMldb d a e g k s
  | .mmac d t x kb ka g => Sys2Proof.Machine.execMmac d t x kb ka g s
  | .mmul d t x kb ka g => Sys2Proof.Machine.execMmul d t x kb ka g s
  | .mmr d t x kb ka g => Sys2Proof.Machine.execMmr d t x kb ka g s
  | .mzero d t x g => Sys2Proof.Machine.execMzero d t x g s
  | .mcfgOwn d a g => Sys2Proof.Machine.execMcfgOwn d a g s
  | .mcfgFree d a g => Sys2Proof.Machine.execMcfgFree d a g s
  | .mcfgQuery d g => Sys2Proof.Machine.execMcfgQuery d g s
  | .mrda d t e g raw => Sys2Proof.Machine.execMrda d t e g raw s
  | .mscl d t x m g => Sys2Proof.Machine.execMscl d t x m g s
  | .mjpoll d a => Sys2Proof.Machine.execMjpoll d a s
  | .mjwait a => Sys2Proof.Machine.execMjwait a s
  | .vclaim d a q => Sys2Proof.Machine.execVclaim d a q s
  | .vrel q => Sys2Proof.Machine.execVrel q s
  | .vlen d a q => Sys2Proof.Machine.execVlen d a q s
  | .vadd d a b m q => Sys2Proof.Machine.execVadd d a b m q s
  | .vsub d a b m q => Sys2Proof.Machine.execVsub d a b m q s
  | .vmul d a b m q => Sys2Proof.Machine.execVmul d a b m q s
  | .vmin d a b u q => Sys2Proof.Machine.execVmin d a b u q s
  | .vmax d a b u q => Sys2Proof.Machine.execVmax d a b u q s
  | .vand d a b q => Sys2Proof.Machine.execVand d a b q s
  | .vor d a b q => Sys2Proof.Machine.execVor d a b q s
  | .vxor d a b q => Sys2Proof.Machine.execVxor d a b q s
  | .vshl d a b q => Sys2Proof.Machine.execVshl d a b q s
  | .vshr d a b u q => Sys2Proof.Machine.execVshr d a b u q s
  | .vfadd d a b f r q => Sys2Proof.Machine.execVfadd d a b f r q s
  | .vfsub d a b f r q => Sys2Proof.Machine.execVfsub d a b f r q s
  | .vfmul d a b f r q => Sys2Proof.Machine.execVfmul d a b f r q s
  | .vfma d a b f r q => Sys2Proof.Machine.execVfma d a b f r q s
  | .vfmax d a b f q => Sys2Proof.Machine.execVfmax d a b f q s
  | .vfmin d a b f q => Sys2Proof.Machine.execVfmin d a b f q s
  | .vfabs d a f q => Sys2Proof.Machine.execVfabs d a f q s
  | .vfneg d a f q => Sys2Proof.Machine.execVfneg d a f q s
  | .vexp d a q => Sys2Proof.Machine.execVexp d a q s
  | .vlog d a q => Sys2Proof.Machine.execVlog d a q s
  | .vrcp d a q => Sys2Proof.Machine.execVrcp d a q s
  | .vrsq d a q => Sys2Proof.Machine.execVrsq d a q s
  | .vsig d a q => Sys2Proof.Machine.execVsig d a q s
  | .vtanh d a q => Sys2Proof.Machine.execVtanh d a q s
  | .vld d base sc o imm => Sys2Proof.Machine.execVld d base sc o imm s
  | .vst src base sc o imm => Sys2Proof.Machine.execVst src base sc o imm s
  | .vlds d base sc o gs => Sys2Proof.Machine.execVlds d base sc o gs s
  | .vsts src base sc o gs => Sys2Proof.Machine.execVsts src base sc o gs s
  | .vgath d base sc o x => Sys2Proof.Machine.execVgath d base sc o x s
  | .vscat src base sc o x => Sys2Proof.Machine.execVscat src base sc o x s
  | .vcmp d a b c q => Sys2Proof.Machine.execVcmp d a b c q s
  | .vsel d a b q => Sys2Proof.Machine.execVsel d a b q s
  | .vperm d a b q => Sys2Proof.Machine.execVperm d a b q s
  | .vbcast d a q => Sys2Proof.Machine.execVbcast d a q s
  | .vbcastE d a k q => Sys2Proof.Machine.execVbcastE d a k q s
  | .vslideUp d a b q => Sys2Proof.Machine.execVslideUp d a b q s
  | .vslideDn d a b q => Sys2Proof.Machine.execVslideDn d a b q s
  | .vrsum d a k q => Sys2Proof.Machine.execVrsum d a k q s
  | .vrmax d a i32 q => Sys2Proof.Machine.execVrmax d a i32 q s
  | .vcvt d a r c q => Sys2Proof.Machine.execVcvt d a r c q s
  | .vladd d a b f q => Sys2Proof.Machine.execVladd d a b f q s
  | .vlmul d a b f q => Sys2Proof.Machine.execVlmul d a b f q s
  | .vlcvt d a c q => Sys2Proof.Machine.execVlcvt d a c q s
  | .fadd d a b f r q => Sys2Proof.Machine.execFadd d a b f r q s
  | .fsub d a b f r q => Sys2Proof.Machine.execFsub d a b f r q s
  | .fmul d a b f r q => Sys2Proof.Machine.execFmul d a b f r q s
  | .ffma d a b f r q => Sys2Proof.Machine.execFfma d a b f r q s
  | .fdiv d a b f r q => Sys2Proof.Machine.execFdiv d a b f r q s
  | .fsqrt d a f r q => Sys2Proof.Machine.execFsqrt d a f r q s
  | .fmin d a b f q => Sys2Proof.Machine.execFmin d a b f q s
  | .fmax d a b f q => Sys2Proof.Machine.execFmax d a b f q s
  | .fcmp d a b f c q => Sys2Proof.Machine.execFcmp d a b f c q s
  | .fcvt d a r c q => Sys2Proof.Machine.execFcvt d a r c q s
  | .fclass d a f q => Sys2Proof.Machine.execFclass d a f q s
  | .ladd d a b f q => Sys2Proof.Machine.execLadd d a b f q s
  | .lsub d a b f q => Sys2Proof.Machine.execLsub d a b f q s
  | .lmul d a b f q => Sys2Proof.Machine.execLmul d a b f q s
  | .ldiv d a b f q => Sys2Proof.Machine.execLdiv d a b f q s
  | .lcmp d a b f c q => Sys2Proof.Machine.execLcmp d a b f c q s
  | .lcvt d a r c q => Sys2Proof.Machine.execLcvt d a r c q s
  | .lclass d a f q => Sys2Proof.Machine.execLclass d a f q s
  | .launch d a q => Sys2Proof.Machine.execLaunch d a q s
  | .spawn d a q => Sys2Proof.Machine.execSpawn d a q s
  | .tedge a b q => Sys2Proof.Machine.execTedge a b q s
  | .tinfo d item q => Sys2Proof.Machine.execTinfo d item q s
  | .boost d a q => Sys2Proof.Machine.execBoost d a q s
  | .brel q => Sys2Proof.Machine.execBrel q s
  | .addS d r => Sys2Proof.Machine.execAddS d r s
  | .subS d r => Sys2Proof.Machine.execSubS d r s
  | .andS d r => Sys2Proof.Machine.execAndS d r s
  | .orS d r => Sys2Proof.Machine.execOrS d r s
  | .xorS d r => Sys2Proof.Machine.execXorS d r s
  | .andnS d r => Sys2Proof.Machine.execAndnS d r s
  | .shlS d r => Sys2Proof.Machine.execShlS d r s
  | .shrS d r => Sys2Proof.Machine.execShrS d r s
  | .sarS d r => Sys2Proof.Machine.execSarS d r s
  | .minS d r => Sys2Proof.Machine.execMinS d r s
  | .maxS d r => Sys2Proof.Machine.execMaxS d r s
  | .mulS d r => Sys2Proof.Machine.execMulS d r s
  | .minuS d r => Sys2Proof.Machine.execMinuS d r s
  | .maxuS d r => Sys2Proof.Machine.execMaxuS d r s
  | .clzS d r => Sys2Proof.Machine.execClzS d r s
  | .ctzS d r => Sys2Proof.Machine.execCtzS d r s
  | .popcS d r => Sys2Proof.Machine.execPopcS d r s
  | .jmpS r => Sys2Proof.Machine.execJmpS r s
  | .calliS r => Sys2Proof.Machine.execCalliS r s
  | .ldwS d r k => Sys2Proof.Machine.execLdwS d r k s
  | .ldwuS d r k => Sys2Proof.Machine.execLdwuS d r k s
  | .lddS d r k => Sys2Proof.Machine.execLddS d r k s
  | .stwS d r k => Sys2Proof.Machine.execStwS d r k s
  | .stdS d r k => Sys2Proof.Machine.execStdS d r k s
  | .tnowS d => Sys2Proof.Machine.execTnowS d s
  | .mjwaitS r => Sys2Proof.Machine.execMjwaitS r s
  | .joinS r => Sys2Proof.Machine.execJoinS r s
  | .xmovS e r => Sys2Proof.Machine.execXmovS e r s
  | .tlwaitS r c => Sys2Proof.Machine.execTlwaitS r c s
  | .addiS d imm => Sys2Proof.Machine.execAddiS d imm s
  | .andiS d imm => Sys2Proof.Machine.execAndiS d imm s
  | .oriS d imm => Sys2Proof.Machine.execOriS d imm s
  | .xoriS d imm => Sys2Proof.Machine.execXoriS d imm s
  | .shliS d imm => Sys2Proof.Machine.execShliS d imm s
  | .shriS d imm => Sys2Proof.Machine.execShriS d imm s
  | .sariS d imm => Sys2Proof.Machine.execSariS d imm s
  | .bS disp => Sys2Proof.Machine.execBS disp s
  | .callS disp => Sys2Proof.Machine.execCallS disp s
  | .aflush => Sys2Proof.Machine.execAflush s
  | .nop => Sys2Proof.Machine.execNop s
  | .exit => Sys2Proof.Machine.execExit s
  | .yield => Sys2Proof.Machine.execYield s
  | .rett => Sys2Proof.Machine.execRett s
  | .halt => Sys2Proof.Machine.execHalt s
  | .pks => Sys2Proof.Machine.execPks s
  | .retS => Sys2Proof.Machine.execRetS s
  | .nopS => Sys2Proof.Machine.execNopS s
  | .exitS => Sys2Proof.Machine.execExitS s
  | .yieldS => Sys2Proof.Machine.execYieldS s
  | .giveS => Sys2Proof.Machine.execGiveS s
  | .vrelS => Sys2Proof.Machine.execVrelS s
  | .fusedSoftmax => Sys2Proof.Machine.execFusedSoftmax s
  | .interruptTake => Sys2Proof.Machine.execInterruptTake s
  | .mgmtInterruptTake => Sys2Proof.Machine.execMgmtInterruptTake s
  | .alarmReached => Sys2Proof.Machine.execAlarmReached s
  | .contextStop => Sys2Proof.Machine.execContextStop s
  | .displacement => Sys2Proof.Machine.execDisplacement s
  | .resume => Sys2Proof.Machine.execResume s
  | .thermalMigration => Sys2Proof.Machine.execThermalMigration s
  | .sleepExpire => Sys2Proof.Machine.execSleepExpire s
  | .joinComplete => Sys2Proof.Machine.execJoinComplete s
  | .waitevWake => Sys2Proof.Machine.execWaitevWake s
  | .twaituWake => Sys2Proof.Machine.execTwaituWake s
  | .tlwaitWake => Sys2Proof.Machine.execTlwaitWake s
  | .mjwaitWake => Sys2Proof.Machine.execMjwaitWake s
  | .twanyWake => Sys2Proof.Machine.execTwanyWake s
  | .twallWake => Sys2Proof.Machine.execTwallWake s
  | .fifoWaitComplete => Sys2Proof.Machine.execFifoWaitComplete s
  | .hintAlignRelease => Sys2Proof.Machine.execHintAlignRelease s
  | .poolGrant => Sys2Proof.Machine.execPoolGrant s
  | .laneGrant => Sys2Proof.Machine.execLaneGrant s
  | .aflushComplete => Sys2Proof.Machine.execAflushComplete s
  | .bankDrainComplete => Sys2Proof.Machine.execBankDrainComplete s
  | .loadReplyLand => Sys2Proof.Machine.execLoadReplyLand s
  | .tldServe => Sys2Proof.Machine.execTldServe s
  | .timedStoreArrive => Sys2Proof.Machine.execTimedStoreArrive s
  | .timedStoreAck => Sys2Proof.Machine.execTimedStoreAck s
  | .storeRetry => Sys2Proof.Machine.execStoreRetry s
  | .plainStoreArrive => Sys2Proof.Machine.execPlainStoreArrive s
  | .writebackArrive => Sys2Proof.Machine.execWritebackArrive s
  | .atomicAtHome => Sys2Proof.Machine.execAtomicAtHome s
  | .mergeArrive => Sys2Proof.Machine.execMergeArrive s
  | .homeTickApply => Sys2Proof.Machine.execHomeTickApply s
  | .shadowEntryDiscard => Sys2Proof.Machine.execShadowEntryDiscard s
  | .tick => Sys2Proof.Machine.execTick s
  | .matrixJobStart => Sys2Proof.Machine.execMatrixJobStart s
  | .matrixJobFinish => Sys2Proof.Machine.execMatrixJobFinish s
  | .copyStart => Sys2Proof.Machine.execCopyStart s
  | .copyResume => Sys2Proof.Machine.execCopyResume s
  | .copyAbort => Sys2Proof.Machine.execCopyAbort s
  | .copyQueueHead => Sys2Proof.Machine.execCopyQueueHead s
  | .copyIterationRelease => Sys2Proof.Machine.execCopyIterationRelease s
  | .copyDelivered => Sys2Proof.Machine.execCopyDelivered s
  | .copyComplete => Sys2Proof.Machine.execCopyComplete s
  | .copyFreeze => Sys2Proof.Machine.execCopyFreeze s
  | .forwardedTag => Sys2Proof.Machine.execForwardedTag s
  | .heldAccessRelease => Sys2Proof.Machine.execHeldAccessRelease s
  | .fifoPush => Sys2Proof.Machine.execFifoPush s
  | .fifoPull => Sys2Proof.Machine.execFifoPull s
  | .vectorMemoryComplete => Sys2Proof.Machine.execVectorMemoryComplete s
  | .packetSend => Sys2Proof.Machine.execPacketSend s
  | .packetArrive => Sys2Proof.Machine.execPacketArrive s
  | .packetRetry => Sys2Proof.Machine.execPacketRetry s
  | .rldReply => Sys2Proof.Machine.execRldReply s
  | .fetchtoSourceRead => Sys2Proof.Machine.execFetchtoSourceRead s
  | .fetchtoReplyArrive => Sys2Proof.Machine.execFetchtoReplyArrive s
  | .fetchtoAck => Sys2Proof.Machine.execFetchtoAck s
  | .launchAccept => Sys2Proof.Machine.execLaunchAccept s
  | .taskEnterTable => Sys2Proof.Machine.execTaskEnterTable s
  | .renameCommit => Sys2Proof.Machine.execRenameCommit s
  | .coreChoice => Sys2Proof.Machine.execCoreChoice s
  | .footprintLanded => Sys2Proof.Machine.execFootprintLanded s
  | .taskDispatch => Sys2Proof.Machine.execTaskDispatch s
  | .taskRetireComplete => Sys2Proof.Machine.execTaskRetireComplete s
  | .taskFailureComplete => Sys2Proof.Machine.execTaskFailureComplete s
  | .launchResolve => Sys2Proof.Machine.execLaunchResolve s
  | .deadlinePass => Sys2Proof.Machine.execDeadlinePass s
  | .shapeExpire => Sys2Proof.Machine.execShapeExpire s
  | .controlIntervalEnd => Sys2Proof.Machine.execControlIntervalEnd s
  | .brakeStepEnd => Sys2Proof.Machine.execBrakeStepEnd s
  | .linkTrainingComplete => Sys2Proof.Machine.execLinkTrainingComplete s
  | .linkFrameSend => Sys2Proof.Machine.execLinkFrameSend s
  | .linkFrameReceive => Sys2Proof.Machine.execLinkFrameReceive s
  | .linkAckReceive => Sys2Proof.Machine.execLinkAckReceive s
  | .linkHoldTimeout => Sys2Proof.Machine.execLinkHoldTimeout s
  | .keygo => Sys2Proof.Machine.execKeygo s
  | .tlbinv => Sys2Proof.Machine.execTlbinv s
  | .plimWrite => Sys2Proof.Machine.execPlimWrite s
  | .evqPop => Sys2Proof.Machine.execEvqPop s
  | .rollbackWrite => Sys2Proof.Machine.execRollbackWrite s
  | .peernoWrite => Sys2Proof.Machine.execPeernoWrite s
  | .lcstateWrite => Sys2Proof.Machine.execLcstateWrite s
  | .fcmdRead => Sys2Proof.Machine.execFcmdRead s
  | .fcmdProgram => Sys2Proof.Machine.execFcmdProgram s
  | .fcmdErase => Sys2Proof.Machine.execFcmdErase s
  | .flashCommandComplete => Sys2Proof.Machine.execFlashCommandComplete s
  | .formatRegionEnable => Sys2Proof.Machine.execFormatRegionEnable s
  | .huskclr => Sys2Proof.Machine.execHuskclr s
  | .throttleWrite => Sys2Proof.Machine.execThrottleWrite s
  | .alertqPop => Sys2Proof.Machine.execAlertqPop s
  | .doorbell => Sys2Proof.Machine.execDoorbell s
  | .reload => Sys2Proof.Machine.execReload s
  | .hevqPop => Sys2Proof.Machine.execHevqPop s
  | .lportSubmit => Sys2Proof.Machine.execLportSubmit s
  | .ago => Sys2Proof.Machine.execAgo s
  | .reportComplete => Sys2Proof.Machine.execReportComplete s
  | .hmemAccess => Sys2Proof.Machine.execHmemAccess s
  | .registerWrite => Sys2Proof.Machine.execRegisterWrite s
  | .coldStart => Sys2Proof.Machine.execColdStart s
  | .warmStart => Sys2Proof.Machine.execWarmStart s
  | .backgroundWipeGranule => Sys2Proof.Machine.execBackgroundWipeGranule s
  | .divideUnitComplete => Sys2Proof.Machine.execDivideUnitComplete s
  | .recurrenceUnitComplete => Sys2Proof.Machine.execRecurrenceUnitComplete s
  | .migrationSwitch => Sys2Proof.Machine.execMigrationSwitch s
  | .linkRetrain => Sys2Proof.Machine.execLinkRetrain s

end Sys2Proof.Machine
end

