-- ==== Sys2Proof/Machine/Issue.lean ====
section
/-! DEFINITION. The issue slot of a core, and what the device does next: 05 R120, R121, 02 R33 to R36, 04 R104, R108 to
R110, 15 R377, 16 R416. -/

namespace Sys2Proof.Machine

/-! ### Fetching an instruction (R33 to R35) -/

/-- What fetch finds at an address. -/
inductive Fetched where
  | fault (at_ : Word)
  | half (h : Half)
  | word (w : InstrWord)
  deriving DecidableEq, Repr

/-- Fetch the instruction at an address: its first halfword says how long it is (R33). -/
def State.fetchInstr (s : State) (c : CoreId) (pc : Word) : State × Fetched :=
  match s.fetch c pc with
  | (s1, none) => (s1, .fault pc)
  | (s1, some h) =>
    if lengthOf h = 2 then (s1, .half h)
    else match s1.fetch c (pc + 2) with
      | (s2, none) => (s2, .fault (pc + 2))
      | (s2, some l) => (s2, .word (h ++ l))

/-- The context knows the length of the instruction at its pc once the first halfword has been fetched (R131). -/
def State.noteFetch (s : State) (f : Fetched) : State :=
  let known := fun (n : Word) => s.modMe fun x => { x with fetched := some (x.pc + n) }
  match f with
  | .fault a => if a == s.me.pc then s else known 4
  | .half _ => known 2
  | .word _ => known 4

/-- Whether an instruction lies on a page of a peer that no up-link reaches: it has not been fetched (R120, R392). -/
def State.fetchWaits (s : State) (c : CoreId) (pc : Word) : Bool :=
  let far := fun (a : Word) => match s.fetchPlace c a with | some (.peer ..) => true | _ => false
  !s.peerUp && (far pc || (far (pc + 2) && (match s.peekHalf c pc with | some h => lengthOf h == 4 | none => false)))

/-- The instruction that fetched bits decode to (R46). -/
def Fetched.instr : Fetched → Option Instr
  | .fault _ => none
  | .half h => decode16 h
  | .word w => decode32 w

/-- TVAL of a trap on what was fetched (R35, R45). -/
def Fetched.tval : Fetched → Word
  | .fault a => a
  | .half h => h.setWidth 64
  | .word w => w.setWidth 64

/-! ### One issue slot (R120) -/

/-- READY, and every context that a YIELD waits for has issued or left READY (R95). -/
def Core.eligible (k : Core) (n : CtxId) : Bool :=
  (k.ctx n).st == .ready && !(k.ctx n).yield.any fun m => (k.ctx m).st == .ready

/-- The search order of R120: from the context after the one that last issued. -/
def issueOrder (last : CtxId) : List CtxId := (List.range 11).map fun k => Fin.ofNat 11 (last.val + 1 + k)

/-- Whether the management core fetches nothing: halted, or stopped by a fault (R116, R416). -/
def State.noFetch (s : State) (c : CoreId) : Bool := c == mgmtCore && (s.mgmt.halted || s.mgmt.dead)

/-- Count an instruction against the open packet; `none` when it is the 65th (R377). -/
def Ctx.countIssue (x : Ctx) (i : Instr) : Option Ctx :=
  match x.packet with
  | none => some x
  | some p =>
    match i with
    | .pks => some x
    | _ => if 64 ≤ p.issued then none else some { x with packet := some { p with issued := p.issued + 1 } }

/-- Lane operations: the instructions that need lanes (R247). -/
def laneOp (i : Instr) : Bool :=
  match i with
  | .vadd .. | .vsub .. | .vmul .. | .vmin .. | .vmax .. | .vand .. | .vor .. | .vxor .. | .vshl .. | .vshr .. | .vfadd ..
  | .vfsub .. | .vfmul .. | .vfma .. | .vfmax .. | .vfmin .. | .vfabs .. | .vfneg .. | .vexp .. | .vlog .. | .vrcp .. | .vrsq ..
  | .vsig .. | .vtanh .. | .vld .. | .vst .. | .vlds .. | .vsts .. | .vgath .. | .vscat .. | .vcmp .. | .vsel .. | .vperm ..
  | .vbcast .. | .vbcastE .. | .vslideUp .. | .vslideDn .. | .vrsum .. | .vrmax .. | .vcvt .. | .vladd .. | .vlmul ..
  | .vlcvt .. | .fusedSoftmax => true
  | _ => false

/-- Whether the brake keeps an instruction from issuing (R407): at level 2 a lane operation. -/
def State.brakeHolds (s : State) (i : Instr) : Bool := s.braked 2 && laneOp i

/-- Count the elements of a lane operation of the current context, VL of them (R404; DESIGN CHOICE, log 75: the rule does not say
what one lane operation is). -/
def State.laneWork (s : State) (i : Instr) : State :=
  if laneOp i then s.modMyCore fun k => k.counts fun a => { a with laneOps := a.laneOps + s.me.lanes.vl } else s

/-- Issue a decoded instruction. `none`: the context is not eligible, because a source register is still to land
(R120, R193), the brake holds it (R407), or its instruction is held (R195): an instruction that is held has not issued and does
not count (R377). The 65th instruction of a packet takes the packet-hold trap whatever else it would do: also when its predicate is
false (R23), and before its own illegal-instruction, privilege and operand traps, but not before that of a word that does not
decode, since only what decodes would issue (DESIGN CHOICE, log 75: R377 gives its trap no place in the order of R45). -/
def issueInstr (i : Instr) (s : State) : State × Option Res :=
  if s.me.waitsFor (sources i) || s.brakeHolds i then (s, none)
  else
    let x := (s.me.countIssue i).getD s.me
    match exec i { s.setMe x with held := false } with
    | .next t =>
      if t.held then ({ t with held := false }.modMe fun y => { y with packet := s.me.packet }, none)
      else if (s.me.countIssue i).isNone then
        (s, some (match s.me.packet with | some p => trap cPacket p.pko s | none => .next t))
      else (s, some (.next (t.laneWork i)))
    | r => (s, some r)

/-- A stop or an interrupt that reaches a context at its boundary, the stop first (R104, R108, R416). -/
def atBoundary (s : State) : Option Res :=
  match exec .contextStop s with
  | .next t => some (.next t)
  | _ =>
    match exec (if s.onMgmt then .mgmtInterruptTake else .interruptTake) s with
    | .next t => some (.next t)
    | _ => none

/-- Whether four instructions that fuse are held together (R251, R407). -/
def State.fusedHeld (s : State) : Bool :=
  match s.softmaxFour s.cur.core s.cur.ctx with
  | some (.inr m) => m.waits s.me || s.brakeHolds .fusedSoftmax
  | _ => false

/-- Issue the instruction at the pc of the current context, or the four of a fused softmax (R251). -/
def issueHere (s : State) : State × Option Res :=
  if s.fusedHeld || s.fetchWaits s.cur.core s.me.pc then (s, none)
  else match exec .fusedSoftmax s with
  | .next t => (s, some (.next (t.laneWork .fusedSoftmax)))
  | _ =>
    match s.fetchInstr s.cur.core s.me.pc with
    | (s0, f) =>
      let s1 := s0.noteFetch f
      match f.instr with
      | some i => issueInstr i s1
      | none =>
        match f with
        | .fault a => (s1, some (trap cFetch a s1))
        | _ => (s1, some (trap cIllegal f.tval s1))

/-- The state with a context's turn to issue. -/
def State.turnOf (s : State) (c : CoreId) (n : CtxId) : State :=
  { s with cur := ⟨c, n⟩, ev := { Ev.none with core := c, ctx := n } }

/-- Offer the slot in order to the contexts that may issue; a context that must stop issues no more (R109). -/
def offerAll (c : CoreId) : List CtxId → State → Res
  | [], s => .next s
  | n :: rest, s =>
    if (s.core c).eligible n then
      match atBoundary (s.turnOf c n) with
      | some r => r
      | none =>
        if (s.core c).mustStop n then offerAll c rest s
        else match issueHere (s.turnOf c n) with
          | (_, some (.next t)) => .next (t.modCore c (·.noteIssue n))
          | (_, some r) => r
          | (s', none) => offerAll c rest s'
    else offerAll c rest s

/-- An issue cycle of a core. A halted management core waits for an interrupt (R116); at brake level 3 the clocks of the compute
cores pause (R407). -/
def issue (c : CoreId) (s : State) : Res :=
  if s.paused c then .next s
  else if s.noFetch c then (atBoundary (s.turnOf c (s.core c).last)).getD (.next s)
  else offerAll c (issueOrder (s.core c).last) s

/-! ### What comes next -/

/-- Run a turn: an issue cycle, or a step the device takes by itself. -/
def runTurn (t : Turn) (s : State) : Res :=
  match t with
  | .issue c => issue c s
  | .event i ev => exec i { s with ev := ev, cur := ⟨ev.core, ev.ctx⟩ }

/-- The first turn of a list whose rule allows it. -/
def firstEnabled (s : State) : List Turn → Option Res
  | [] => none
  | t :: rest =>
    match runTurn t s with
    | .next s' => some (.next s')
    | _ => firstEnabled s rest

/-- The cores that run in turn: the management core and every core with a live context. -/
def State.running (s : State) : List CoreId :=
  (s.cores.filter fun e => allCtx.any fun n => (e.2.ctx n).live).map (·.1)

/-- The first running core after `c`, if any. -/
def nextCore (cs : List CoreId) (c : CoreId) : Option CoreId := cs.find? fun d => c < d

/-- What a store to a window may do on the management core (R413, R415). -/
def windowRows : List Instr :=
  [.registerWrite, .lcstateWrite, .tlbinv, .plimWrite, .rollbackWrite, .peernoWrite, .keygo, .fcmdRead, .fcmdProgram, .fcmdErase,
   .formatRegionEnable, .huskclr, .throttleWrite]

/-- Turns for the accesses of the management core to its window (R413, R421). -/
def Core.windowTurns (c : CoreId) (k : Core) : List Turn :=
  if c == mgmtCore then
    let at_ := fun (n : Nat) => { Ev.none with core := c, idx := n }
    (k.work.loads.map fun e => Turn.event .evqPop (at_ e.id)) ++
      k.work.port.flatMap fun e => windowRows.map fun i => Turn.event i (at_ e.id)
  else []

/-- Turns for one core: ends of waits, stops, accesses on their way, units, and the end or move of its task. -/
def Core.turns (c : CoreId) (k : Core) : List Turn :=
  let at_ : Ev := { Ev.none with core := c }
  let each := fun (ids : List Nat) (is : List Instr) => ids.flatMap fun j => is.map fun i => Turn.event i { at_ with idx := j }
  let contexts := allCtx.flatMap fun n =>
    if (k.ctx n).st == .waiting then
      ([.contextStop, .alarmReached, .sleepExpire, .joinComplete, .waitevWake, .twaituWake, .tlwaitWake, .mjwaitWake, .twanyWake,
        .twallWake, .hintAlignRelease, .poolGrant, .aflushComplete, .bankDrainComplete] : List Instr).map (fun i =>
          Turn.event i { at_ with ctx := n }) ++ [.event .laneGrant { at_ with ctx := n, unit := octetOf c }]
    else if (k.ctx n).live then
      [.event .alarmReached { at_ with ctx := n }] ++ (if (k.ctx n).unsaved && k.stop.isSome then [.event .contextStop { at_ with ctx := n }] else [])
    else []
  let w := k.work
  contexts ++ each (w.loads.map (·.id)) [.tldServe, .atomicAtHome, .loadReplyLand] ++
    each (w.port.map (·.id)) [.plainStoreArrive, .timedStoreArrive, .storeRetry, .copyStart, .copyResume, .copyAbort] ++
    k.windowTurns c ++ each (w.vecs.map (·.id)) [.vectorMemoryComplete] ++
    each (w.rq.map (·.num)) [.fetchtoSourceRead, .rldReply] ++
    (if w.send.isEmpty then [] else [.event .packetSend at_]) ++
    (if w.div.isSome then [.event .divideUnitComplete at_] else []) ++
    (if w.rcr.isSome then [.event .recurrenceUnitComplete at_] else []) ++
    (match k.stop with
     | some .displace => [.event .displacement at_]
     | some (.migrate _) => [.event .migrationSwitch at_]
     | _ => []) ++
    (if k.bind.task.isSome then [.event .taskRetireComplete at_, .event .taskFailureComplete at_] else [])

/-- Turns for one octet: its matrix engine and its copy channels, whose writes are performed before more is moved. -/
def octetTurns (n : Nat) : List Turn :=
  let at_ : Ev := { Ev.none with unit := n }
  [.event .matrixJobStart at_, .event .matrixJobFinish at_] ++ (List.range 8).flatMap fun i =>
    [.event .storeRetry { at_ with idx := i, ok := true }] ++
      ([.copyComplete, .copyQueueHead, .copyDelivered, .copyFreeze, .copyIterationRelease] : List Instr).map fun e =>
        Turn.event e { at_ with idx := i }

/-- Turns for one cluster: write-backs, merges and FIFO banks. -/
def Cluster.turns (n : Nat) (k : Cluster) : List Turn :=
  let at_ : Ev := { Ev.none with unit := n }
  k.wbs.map (fun w => Turn.event .writebackArrive { at_ with idx := w.id }) ++
    k.merges.map (fun m => Turn.event .mergeArrive { at_ with idx := m.id }) ++
    k.fifos.flatMap fun f => [.event .fifoPush { at_ with idx := f.1 }, .event .fifoPull { at_ with idx := f.1 }]

/-- Turns for one sector's task engine. -/
def State.sectorTurns (s : State) (n : Nat) (q : Sector) : List Turn :=
  let at_ : Ev := { Ev.none with unit := n }
  let cores := (List.range 2048).map fun i => 2048 * n + i
  q.tasks.flatMap (fun t => ([.footprintLanded] : List Instr).map (fun i => Turn.event i { at_ with idx := t.1 }) ++
      (if t.2.phase == .displaced then cores.map fun c => .event .resume { at_ with idx := t.1, core := c } else [])) ++
    [.event .taskDispatch at_] ++
    (List.range q.renames.length).map (fun i => Turn.event .renameCommit { at_ with idx := i }) ++
    q.launches.flatMap (fun l => ([.launchResolve, .deadlinePass, .shapeExpire] : List Instr).map fun i =>
      Turn.event i { at_ with idx := l.1 }) ++
    (if q.intake.isEmpty then [] else [.event .launchAccept at_]) ++
    (q.queues.flatMap fun e => match q.head e.1 with
      | some (_, k) => if k.choosable then cores.map fun c => .event .coreChoice { at_ with idx := e.1, core := c } else []
      | none => []) ++
    q.launches.flatMap fun l =>
      let m := (s.settled n l.1 l.2).turnTail
      match m.next with
      | some j => (s.entryCores n l.1 m j).map fun c => .event .taskEnterTable { at_ with idx := l.1, core := c }
      | none => []

/-- What serves an access of a peer at a home of this device, each by the kind of access (R184, R371). -/
def peerRows : List Instr :=
  [.loadReplyLand, .tldServe, .plainStoreArrive, .timedStoreArrive, .atomicAtHome, .mergeArrive, .fetchtoSourceRead]

/-- Turns for messages on the fabric. -/
def Msg.turn (id : Nat) (m : Msg) : List Turn :=
  let at_ : Ev := { Ev.none with idx := id }
  match m with
  | .packet .. => [.event .packetArrive at_, .event .packetRetry at_]
  | .tag .. => [.event .forwardedTag at_]
  | .reply .. => [.event .fetchtoReplyArrive at_]
  | .ack .. => [.event .fetchtoAck at_]
  | .tstAck .. => [.event .timedStoreAck at_]
  | .access .. => peerRows.map fun i => .event i { at_ with ok2 := true }
  | .answer .. => []

/-- The first number from `n` on that a rising list does not hold. -/
def firstGap : Nat → List Nat → Nat
  | n, [] => n
  | n, a :: r => if a = n then firstGap (n + 1) r else if a < n then firstGap n r else n

/-- Turns for the device as a whole. -/
def State.deviceTurns (s : State) : List Turn :=
  [.event .brakeStepEnd Ev.none, .event .controlIntervalEnd Ev.none] ++
    (if s.flash.busy.isSome then [.event .flashCommandComplete Ev.none] else []) ++
    (if s.host.forming then [.event .reportComplete Ev.none] else []) ++
    (if s.wiping then [.event .backgroundWipeGranule { Ev.none with w := BitVec.ofNat 64 (firstGap 0 s.wiped) }] else []) ++
    s.links.map fun e => .event .linkHoldTimeout { Ev.none with unit := e.1 }

/-- The steps that the device may take by itself in this state, as candidates: one is taken only if its own rule allows it.
What comes from outside (the host, the links' far ends, peer devices, a choice to move a task) is not among them (log 1). -/
def State.waitingTurns (s : State) : List Turn :=
  (s.sliceNums.map fun n => Turn.event .homeTickApply { Ev.none with unit := n }) ++ s.deviceTurns ++
    s.fabric.flatMap (fun m => m.2.turn m.1) ++
    s.cores.flatMap (fun e => e.2.turns e.1) ++
    s.octets.flatMap (fun e => octetTurns e.1) ++
    s.clusters.flatMap (fun e => e.2.turns e.1) ++
    s.sectors.flatMap fun e => s.sectorTurns e.1 e.2

/-- A core's turn, then the next core's; the time base moves on when all have had theirs (log 1). -/
def cycle (s : State) : Res :=
  match nextCore s.running s.turn with
  | some c => issue s.turn { s with turn := c }
  | none =>
    match s.running with
    | c :: _ => issue s.turn { s with turn := c, agenda := s.agenda ++ [.event .tick Ev.none] }
    | [] => runTurn (.event .tick Ev.none) s

/-- What the device does when the agenda names nothing: the start sequence (R422), then a step that its rules allow, then
an issue cycle. -/
def nextAuto (s : State) : Res :=
  if s.spine.stage == 0 then runTurn (.event .coldStart Ev.none) s
  else (firstEnabled s s.waitingTurns).getD (cycle s)

/-! ### Placing an instruction -/

/-- The leaf that maps the first page of tenant 0 to the first page of HBM. -/
def firstPage : TlbEntry := ⟨0, 0, 4096, 0, false, true, true, true, 0, 0⟩

/-- Core 0 at the first bytes of HBM, mapped, its context 0 READY there, and its turn next. -/
def State.placeAtFetch (s : State) (bs : List Byte) : State :=
  let s1 := bs.zipIdx.foldl (fun s b => s.hbmWrite b.2 1 ⟨b.1.setWidth 64, false⟩) s
  let s2 := { s1 with hbm := s1.hbm.taint 0 false }
  let k := s2.cluster 0
  let s3 := (s2.setCluster 0 { k with icacheAt := s2.seq + 1, tlb := [firstPage] }).nextSeq
  let s4 := s3.modCore 0 fun k => { k with stop := none, bind := { k.bind with tenant := 0 }, last := 10 }
  { s4.modCtx 0 0 fun x => { (x.goto 0) with st := .ready, yield := [] } with agenda := [.issue 0] }

end Sys2Proof.Machine
end

