-- ==== Sys2Proof/Machine/Step.lean ====
section
/-! DEFINITION. The step of the device, and how the host places an instruction. -/

namespace Sys2Proof.Machine

/-- One step: the turn that stands first in the agenda, else the one the device comes to by itself (log 1). -/
def step (s : State) : Host.Outcome State Fault Refusal :=
  match s.agenda with
  | t :: rest => runTurn t { s with agenda := rest }
  | [] => nextAuto s

/-- The state with the instruction `w` of the opcode table placed where core 0 fetches next, that core's turn first. -/
def State.withFetchWord (s : State) (nbits w : Nat) : State := s.placeAtFetch (tableBytes nbits w)

end Sys2Proof.Machine
end

