-- ==== Sys2Proof/Safety.lean ====
section
/-! DEFINITION. What a safe run keeps: memories in canonical form, g0 and p0 as the spec hard-wires them, modes that
exist, fetch addresses that are halfword-aligned (13 R13, 01 R28, 04 R98, 02 R34). -/

namespace Sys2Proof.Machine

/-- Flash bytes are listed at strictly rising addresses from `lo`, none of them all ones (R427). -/
def flashWf : Nat → List Host.Cell → Bool
  | _, [] => true
  | lo, (a, b) :: r => decide (lo ≤ a) && b != 0xFF && flashWf (a + 1) r

/-- Every memory of the device is in canonical form. -/
def State.memoriesWf (s : State) : Bool :=
  s.hbm.wf && s.cores.all (fun e => e.2.ls.wf && e.2.inj.wf) && s.clusters.all (fun e => e.2.sram.wf) &&
    flashWf 0 s.flash.cells && s.flash.fdata.wf && s.flash.runData.wf

/-- The mode of every context of a core exists there: PRIV 2 never occurs, machine mode only on the management core. -/
def Core.modesLegal (k : Core) (mgmt : Bool) : Bool :=
  allCtx.all fun n => let p := (k.ctx n).tr.priv; p != 2 && (mgmt || p != 3)

/-- The modes of every core are legal. -/
def State.modesLegal (s : State) : Bool := s.cores.all fun e => e.2.modesLegal (e.1 == mgmtCore)

end Sys2Proof.Machine
end

