-- ==== Sys2Proof/Certificates/Slice0/Obligations.lean ====
section
/-! DEFINITION. The statements for the provers. A value that a rule of the spec gives is written here from the rule's own
table, apart from the model's definition of it. -/

open Sys2Proof Sys2Proof.Machine

/-! ### Values of the integer instructions, from the tables of R125 to R130 -/

namespace Sys2Proof.Spec

/-- A result of two operands: poisoned when either is (R28). -/
def two (x y : PWord) (f : Word → Word → Word) : PWord := ⟨f x.val y.val, x.poison || y.poison⟩
/-- A result of one operand. -/
def one (x : PWord) (f : Word → Word) : PWord := ⟨f x.val, x.poison⟩

/-- The register that an integer instruction writes and its value: 05 R125 to R130, and 02 R48 for the 16-bit forms. -/
def intResult (i : Instr) (s : State) : Option (Reg × PWord) :=
  let g := s.gReg
  let add := fun x y : Word => BitVec.ofNat 64 (x.toNat + y.toNat)
  let sub := fun x y : Word => BitVec.ofInt 64 (x.toInt - y.toInt)
  let shl := fun x y : Word => BitVec.ofNat 64 (x.toNat * 2 ^ (y.toNat % 64))
  let shr := fun x y : Word => BitVec.ofNat 64 (x.toNat / 2 ^ (y.toNat % 64))
  let sar := fun x y : Word => BitVec.ofInt 64 (x.toInt / 2 ^ (y.toNat % 64))
  let min := fun x y : Word => if x.toInt ≤ y.toInt then x else y
  let max := fun x y : Word => if x.toInt ≥ y.toInt then x else y
  let minu := fun x y : Word => if x.toNat ≤ y.toNat then x else y
  let maxu := fun x y : Word => if x.toNat ≥ y.toNat then x else y
  let mul := fun x y : Word => BitVec.ofNat 64 (x.toNat * y.toNat)
  let clz := fun x : Word => BitVec.ofNat 64 ((List.range 64).findIdx fun k => x.getLsbD (63 - k))
  let ctz := fun x : Word => BitVec.ofNat 64 ((List.range 64).findIdx fun k => x.getLsbD k)
  let popc := fun x : Word => BitVec.ofNat 64 ((List.range 64).countP fun k => x.getLsbD k)
  match i with
  | .add d a b _ => some (d, two (g a) (g b) add)
  | .sub d a b _ => some (d, two (g a) (g b) sub)
  | .and d a b _ => some (d, two (g a) (g b) (· &&& ·))
  | .or d a b _ => some (d, two (g a) (g b) (· ||| ·))
  | .xor d a b _ => some (d, two (g a) (g b) (· ^^^ ·))
  | .andn d a b _ => some (d, two (g a) (g b) fun x y => x &&& ~~~y)
  | .shl d a b _ => some (d, two (g a) (g b) shl)
  | .shr d a b _ => some (d, two (g a) (g b) shr)
  | .sar d a b _ => some (d, two (g a) (g b) sar)
  | .min d a b _ => some (d, two (g a) (g b) min)
  | .max d a b _ => some (d, two (g a) (g b) max)
  | .minu d a b _ => some (d, two (g a) (g b) minu)
  | .maxu d a b _ => some (d, two (g a) (g b) maxu)
  | .sel d a b q =>
    let p := s.pReg q.idx
    some (d, ⟨if (p.val ^^ q.neg) then (g a).val else (g b).val, p.poison || (g a).poison || (g b).poison⟩)
  | .clz d a _ => some (d, one (g a) clz)
  | .ctz d a _ => some (d, one (g a) ctz)
  | .popc d a _ => some (d, one (g a) popc)
  | .addi d a imm _ => some (d, one (g a) fun x => BitVec.ofInt 64 (x.toInt + imm.toInt))
  | .andi d a imm _ => some (d, one (g a) (· &&& BitVec.ofInt 64 imm.toInt))
  | .ori d a imm _ => some (d, one (g a) (· ||| BitVec.ofInt 64 imm.toInt))
  | .xori d a imm _ => some (d, one (g a) (· ^^^ BitVec.ofInt 64 imm.toInt))
  | .shli d a l => some (d, one (g a) fun x => BitVec.ofNat 64 (x.toNat * 2 ^ l.toNat))
  | .shri d a l => some (d, one (g a) fun x => BitVec.ofNat 64 (x.toNat / 2 ^ l.toNat))
  | .sari d a l => some (d, one (g a) fun x => BitVec.ofInt 64 (x.toInt / 2 ^ l.toNat))
  | .bfx d a l w => some (d, one (g a) fun x => (x.extractLsb' l.toNat (w.toNat + 1)).signExtend 64)
  | .bfxu d a l w => some (d, one (g a) fun x => (x.extractLsb' l.toNat (w.toNat + 1)).setWidth 64)
  | .bfi d a l w =>
    some (d, two (g d) (g a) fun x y => BitVec.ofFnLE fun k : Fin 64 =>
      if l.toNat ≤ k.val ∧ k.val ≤ l.toNat + w.toNat then y.getLsbD (k.val - l.toNat) else x.getLsbD k.val)
  | .movhi d imm => some (d, ⟨BitVec.ofInt 64 (imm.toInt * 2 ^ 10), false⟩)
  | .lea d imm => some (d, ⟨BitVec.ofInt 64 (s.me.pc.toInt + imm.toInt), false⟩)
  | .pmovGp d a _ => some (d, ⟨if (s.pReg a).val then 1 else 0, (s.pReg a).poison⟩)
  | .mul d a b _ => some (d, two (g a) (g b) mul)
  | .mulh d a b _ => some (d, two (g a) (g b) fun x y => BitVec.ofInt 64 (x.toInt * y.toInt / 2 ^ 64))
  | .mulhu d a b _ => some (d, two (g a) (g b) fun x y => BitVec.ofNat 64 (x.toNat * y.toNat / 2 ^ 64))
  | .addS d r => some (d, two (g d) (g r) add)
  | .subS d r => some (d, two (g d) (g r) sub)
  | .andS d r => some (d, two (g d) (g r) (· &&& ·))
  | .orS d r => some (d, two (g d) (g r) (· ||| ·))
  | .xorS d r => some (d, two (g d) (g r) (· ^^^ ·))
  | .andnS d r => some (d, two (g d) (g r) fun x y => x &&& ~~~y)
  | .shlS d r => some (d, two (g d) (g r) shl)
  | .shrS d r => some (d, two (g d) (g r) shr)
  | .sarS d r => some (d, two (g d) (g r) sar)
  | .minS d r => some (d, two (g d) (g r) min)
  | .maxS d r => some (d, two (g d) (g r) max)
  | .minuS d r => some (d, two (g d) (g r) minu)
  | .maxuS d r => some (d, two (g d) (g r) maxu)
  | .mulS d r => some (d, two (g d) (g r) mul)
  | .clzS d r => some (d, one (g r) clz)
  | .ctzS d r => some (d, one (g r) ctz)
  | .popcS d r => some (d, one (g r) popc)
  | .addiS d imm => some (d, one (g d) fun x => BitVec.ofInt 64 (x.toInt + imm.toInt))
  | .andiS d imm => some (d, one (g d) (· &&& BitVec.ofInt 64 imm.toInt))
  | .oriS d imm => some (d, one (g d) (· ||| BitVec.ofInt 64 imm.toInt))
  | .xoriS d imm => some (d, one (g d) (· ^^^ BitVec.ofInt 64 imm.toInt))
  | .shliS d l => some (d, one (g d) fun x => BitVec.ofNat 64 (x.toNat * 2 ^ l.toNat))
  | .shriS d l => some (d, one (g d) fun x => BitVec.ofNat 64 (x.toNat / 2 ^ l.toNat))
  | .sariS d l => some (d, one (g d) fun x => BitVec.ofInt 64 (x.toInt / 2 ^ l.toNat))
  | _ => none

/-- The predicate that an instruction runs under (R38), when its format carries one. SEL reads its predicate as an
operand. -/
def predOf : Instr → Option Pred
  | .add _ _ _ q | .sub _ _ _ q | .and _ _ _ q | .or _ _ _ q | .xor _ _ _ q | .andn _ _ _ q | .shl _ _ _ q | .shr _ _ _ q
  | .sar _ _ _ q | .min _ _ _ q | .max _ _ _ q | .minu _ _ _ q | .maxu _ _ _ q | .clz _ _ q | .ctz _ _ q | .popc _ _ q
  | .addi _ _ _ q | .andi _ _ _ q | .ori _ _ _ q | .xori _ _ _ q | .pcmp _ _ _ _ q | .pcmpi _ _ _ _ q | .plog _ _ _ _ q
  | .pmovPp _ _ q | .pmovPg _ _ q | .pmovGp _ _ q | .mul _ _ _ q | .mulh _ _ _ q | .mulhu _ _ _ q | .div _ _ _ q
  | .divu _ _ _ q | .mod _ _ _ q | .modu _ _ _ q | .linewb _ q | .lineinv _ q | .pin _ _ q | .unpin _ q
  | .claim _ _ q | .give q | .pquery _ _ q | .vclaim _ _ q | .vrel q | .vlen _ _ q
  | .vadd _ _ _ _ q | .vsub _ _ _ _ q | .vmul _ _ _ _ q | .vmin _ _ _ _ q | .vmax _ _ _ _ q | .vand _ _ _ q | .vor _ _ _ q
  | .vxor _ _ _ q | .vshl _ _ _ q | .vshr _ _ _ _ q | .vfadd _ _ _ _ _ q | .vfsub _ _ _ _ _ q | .vfmul _ _ _ _ _ q
  | .vfma _ _ _ _ _ q | .vfmax _ _ _ _ q | .vfmin _ _ _ _ q | .vfabs _ _ _ q | .vfneg _ _ _ q | .vexp _ _ q | .vlog _ _ q
  | .vrcp _ _ q | .vrsq _ _ q | .vsig _ _ q | .vtanh _ _ q | .vcmp _ _ _ _ q | .vsel _ _ _ q | .vperm _ _ _ q
  | .vbcast _ _ q | .vbcastE _ _ _ q | .vslideUp _ _ _ q | .vslideDn _ _ _ q | .vrsum _ _ _ q | .vrmax _ _ _ q
  | .vcvt _ _ _ _ q | .vladd _ _ _ _ q | .vlmul _ _ _ _ q | .vlcvt _ _ _ q
  | .fadd _ _ _ _ _ q | .fsub _ _ _ _ _ q | .fmul _ _ _ _ _ q | .ffma _ _ _ _ _ q | .fdiv _ _ _ _ _ q | .fsqrt _ _ _ _ q
  | .fmin _ _ _ _ q | .fmax _ _ _ _ q | .fcmp _ _ _ _ _ q | .fcvt _ _ _ _ q | .fclass _ _ _ q
  | .ladd _ _ _ _ q | .lsub _ _ _ _ q | .lmul _ _ _ _ q | .ldiv _ _ _ _ q | .lcmp _ _ _ _ _ q | .lcvt _ _ _ _ q
  | .lclass _ _ _ q | .boost _ _ q | .brel q => some q
  | .bankmode _ _ _ q | .launch _ _ q | .spawn _ _ q | .tedge _ _ q | .tinfo _ _ q => some q
  | _ => none

/-- An instruction's predicate is unpoisoned and true, or it has none. -/
def runs (i : Instr) (s : State) : Prop :=
  ∀ q, predOf i = some q → (s.pReg q.idx).poison = false ∧ ((s.pReg q.idx).val ^^ q.neg) = true

/-- Conditions of PCMP and PCMPI (R129). -/
def holds (c : PCond) (x y : Word) : Prop :=
  match c with
  | .eq => x = y
  | .ne => x ≠ y
  | .lt => x.toInt < y.toInt
  | .le => x.toInt ≤ y.toInt
  | .gt => x.toInt > y.toInt
  | .ge => x.toInt ≥ y.toInt
  | .ltu => x.toNat < y.toNat
  | .leu => x.toNat ≤ y.toNat
  | .gtu => x.toNat > y.toNat
  | .geu => x.toNat ≥ y.toNat
  | .any => x &&& y ≠ 0
  | .noneSet => x &&& y = 0

/-- Functions of PLOG (R129). -/
def plog (f : PLogFn) (a b : Bool) : Bool :=
  match f with
  | .and => a && b
  | .or => a || b
  | .xor => a ^^ b
  | .andn => a && !b
  | .orn => a || !b
  | .xnor => !(a ^^ b)

/-- The predicate that an instruction of R129 writes, whether it is true, and its poison. -/
def predResult (i : Instr) (s : State) : Option (PReg × Prop × Bool) :=
  let g := s.gReg
  match i with
  | .pcmp d a b c _ => some (d, holds c (g a).val (g b).val, (g a).poison || (g b).poison)
  | .pcmpi d a imm c _ =>
    some (d, holds c (g a).val
      (match c with
       | .eq | .ne | .lt | .le | .gt | .ge => BitVec.ofInt 64 imm.toInt
       | .ltu | .leu | .gtu | .geu | .any | .noneSet => BitVec.ofNat 64 imm.toNat), (g a).poison)
  | .plog d a b f _ => some (d, plog f (s.pReg a).val (s.pReg b).val = true, (s.pReg a).poison || (s.pReg b).poison)
  | .pmovPp d a _ => some (d, (s.pReg a).val = true, (s.pReg a).poison)
  | .pmovPg d a _ => some (d, (g a).val ≠ 0, (g a).poison)
  | _ => none

end Sys2Proof.Spec

/-- R125 to R128, R130 and R48: every integer instruction that writes a g register and is no division writes the value of
its table, poisoned when an operand is, and retires; a write to g0 is discarded (setG). -/
def Obligations.IntegerResults : Prop :=
  ∀ (i : Instr) (s : State) (d : Reg) (v : PWord),
    Spec.intResult i s = some (d, v) → i.WellFormed → Spec.runs i s → exec i s = .next (s.setG d v).retire

/-- R129: PCMP, PCMPI, PLOG and PMOV to a predicate write the condition of the table, poisoned when an operand is, and
retire; a write to p0 is discarded (setP). -/
def Obligations.PredicateResults : Prop :=
  ∀ (i : Instr) (s : State) (d : PReg) (c : Prop) (v bad : Bool),
    Spec.predResult i s = some (d, c, bad) → (v = true ↔ c) → Spec.runs i s → exec i s = .next (s.setP d ⟨v, bad⟩).retire

/-- R38: an instruction whose predicate is unpoisoned and false retires with no other effect, on every core. -/
def Sys2Proof.Spec.falsePredicateRetires : Prop :=
  ∀ (i : Instr) (s : State) (q : Pred),
    Spec.predOf i = some q → (s.pReg q.idx).poison = false → ((s.pReg q.idx).val ^^ q.neg) = false →
      exec i s = .next s.retire

/-- R107: an instruction whose predicate is poisoned traps with cause poison control and the predicate's index. -/
def Sys2Proof.Spec.poisonedPredicateTraps : Prop :=
  ∀ (i : Instr) (s : State) (q : Pred),
    Spec.predOf i = some q → (s.pReg q.idx).poison = true →
      exec i s = .next (s.takeTrap s.cur.core s.cur.ctx 0x0A (BitVec.ofNat 64 q.idx.val))

/-- The writes that the three statements above speak of: g0 and p0 keep their values, any other register takes the value
and every other register of the context keeps its own (R28). -/
def Sys2Proof.Spec.hardwiredRegisters : Prop :=
  ∀ (s : State) (d r : Reg) (v : PWord) (p q : PReg) (b : PBit),
    (s.setG d v).gReg r = (if r = 0 then ⟨0, false⟩ else if r = d then v else s.gReg r) ∧
    (s.setP p b).pReg q = (if q = 0 then ⟨true, false⟩ else if q = p then b else s.pReg q) ∧
    (s.setG d v).pReg q = s.pReg q ∧ (s.setP p b).gReg r = s.gReg r

/-- A false predicate leaves an instruction without effect; a poisoned one traps. Each part says its rules. -/
def Obligations.PredicatesGate : Prop :=
  Spec.falsePredicateRetires ∧ Spec.poisonedPredicateTraps

/-! ### Division, floats and level-index numbers (03 R81 to R88, 05 R130, 09 R218 to R225) -/

namespace Sys2Proof.Spec

/-- A division of R130: its register and its result. -/
def divResult (i : Instr) (s : State) : Option (Reg × PWord) :=
  let g := s.gReg
  let div := fun x y : Word => if y.toInt = 0 then BitVec.ofInt 64 (-1) else BitVec.ofInt 64 (x.toInt.tdiv y.toInt)
  let divu := fun x y : Word => if y.toNat = 0 then BitVec.ofInt 64 (-1) else BitVec.ofNat 64 (x.toNat / y.toNat)
  let mod := fun x y : Word => if y.toInt = 0 then x else BitVec.ofInt 64 (x.toInt.tmod y.toInt)
  let modu := fun x y : Word => if y.toNat = 0 then x else BitVec.ofNat 64 (x.toNat % y.toNat)
  match i with
  | .div d a b _ => some (d, two (g a) (g b) div)
  | .divu d a b _ => some (d, two (g a) (g b) divu)
  | .mod d a b _ => some (d, two (g a) (g b) mod)
  | .modu d a b _ => some (d, two (g a) (g b) modu)
  | _ => none

/-- The divide unit of the executing core takes an operation whose result goes to g[d]: later readers of g[d] wait. -/
def divideStarts (s : State) (d : Reg) (v : PWord) (flags : Word) : State :=
  ((s.modMyCore fun k => { k with work := { k.work with div := some ⟨s.cur.ctx, .g d, s.seq, v, flags⟩ } }).nextSeq).modMe
    fun x => x.await (.g d) s.seq
/-- The recurrence unit takes one. -/
def recurrenceStarts (s : State) (d : Reg) (v : PWord) (flags : Word) : State :=
  ((s.modMyCore fun k => { k with work := { k.work with rcr := some ⟨s.cur.ctx, .g d, s.seq, v, flags⟩ } }).nextSeq).modMe
    fun x => x.await (.g d) s.seq

/-- Canonical NaNs (R60) and NaR (R224). -/
def nan : FFmt → Nat
  | .f32 => 0x7FC00000
  | .f16 => 0x7E00
def nar : LFmt → Nat
  | .li16 => 0x4000
  | .li32 => 0x40000000

/-- What a poisoned source of a conversion leaves (R87). -/
def cvtNan : FCvt → Nat
  | .f16F32 => 0x7E00
  | .f32F16 | .f32Bf16 | .f32F8a | .f32F8b | .f32I64 | .f32U64 => 0x7FC00000
  | .bf16F32 => 0x7FC0
  | .f8aF32 => 0x7F
  | .f8bF32 => 0x7E
  | .i64F32 | .u64F32 => 0
def lcvtNan : LCvt → Nat
  | .li16F32 | .li16F16 | .li16Bf16 => 0x4000
  | .li32F32 | .li32F16 | .li32Bf16 => 0x40000000
  | .f32Li16 | .f32Li32 => 0x7FC00000
  | .f16Li16 | .f16Li32 => 0x7E00
  | .bf16Li16 | .bf16Li32 => 0x7FC0

/-- A scalar instruction whose numeric result goes to g[d] in the pipeline: d, its sources, and the code that a poisoned
source leaves. -/
def numForm : Instr → Option (Reg × List Reg × Nat)
  | .fadd d a b f _ _ | .fsub d a b f _ _ | .fmul d a b f _ _ => some (d, [a, b], nan f)
  | .ffma d a b f _ _ => some (d, [a, b, d], nan f)
  | .fmin d a b f _ | .fmax d a b f _ => some (d, [a, b], nan f)
  | .fcvt d a _ c _ => some (d, [a], cvtNan c)
  | .fclass d a _ _ => some (d, [a], 0)
  | .lclass d a _ _ => some (d, [a], 0)
  | _ => none
/-- The same of the divide unit and of the recurrence unit. -/
def divForm : Instr → Option (Reg × List Reg × Nat)
  | .fdiv d a b f _ _ => some (d, [a, b], nan f)
  | .fsqrt d a f _ _ => some (d, [a], nan f)
  | _ => none
def rcrForm : Instr → Option (Reg × List Reg × Nat)
  | .ladd d a b f _ | .lsub d a b f _ | .lmul d a b f _ | .ldiv d a b f _ => some (d, [a, b], nar f)
  | .lcvt d a _ c _ => some (d, [a], lcvtNan c)
  | _ => none
/-- A scalar comparison of numbers: its predicate and its sources. -/
def cmpForm : Instr → Option (PReg × List Reg)
  | .fcmp d a b _ _ _ | .lcmp d a b _ _ _ => some (d, [a, b])
  | _ => none

/-! Values of float codes, in units of 2^-149, which measure every format exactly (R58, R59). -/

/-- Fraction width, exponent width and bias (R58). -/
def fields : BFmt → Nat × Nat × Nat
  | .f32 => (23, 8, 127)
  | .f16 => (10, 5, 15)
  | .bf16 => (7, 8, 127)
  | .f8a => (3, 4, 7)
  | .f8b => (2, 5, 15)
/-- What a float code stands for: a NaN, signalling or quiet, an infinity of a sign, or a sign and a number of units. -/
inductive FloatNum where
  | nan (signalling : Bool)
  | inf (neg : Bool)
  | fin (neg : Bool) (units : Int)
  deriving DecidableEq, Repr
/-- The low bits of `c` as a code of a format. -/
def num (f : BFmt) (c : Nat) : FloatNum :=
  let (m, n, b) := fields f
  let r := c % 2 ^ m
  let x := c / 2 ^ m % 2 ^ n
  let neg := c / 2 ^ (m + n) % 2 = 1
  let mag : Int := ((if x = 0 then r * 2 ^ (150 - b - m) else (2 ^ m + r) * 2 ^ (149 + x - b - m) : Nat) : Int)
  if x = 2 ^ n - 1 ∧ f = .f8a ∧ r = 7 then .nan false
  else if x = 2 ^ n - 1 ∧ f ≠ .f8a then (if r = 0 then .inf neg else .nan (decide (f ≠ .f8b ∧ r < 2 ^ (m - 1))))
  else .fin neg (if neg then -mag else mag)
/-- The first code above those of a format, the code of an infinity, and canonical NaNs (R59, R60). -/
def codes (f : BFmt) : Nat := let (m, n, _) := fields f; 2 ^ (1 + m + n)
def infinity (f : BFmt) (neg : Bool) : Nat := let (m, n, _) := fields f; (2 ^ n - 1) * 2 ^ m + (if neg then 2 ^ (m + n) else 0)
def nanOf : BFmt → Nat
  | .f32 => 0x7FC00000
  | .f16 => 0x7E00
  | .bf16 => 0x7FC0
  | .f8a => 0x7F
  | .f8b => 0x7E
/-- `c` is the code of `z` units; a zero has the given sign. -/
def codeOf (f : BFmt) (zeroNeg : Bool) (z : Int) (c : Nat) : Prop :=
  c < codes f ∧ num f c = .fin (if z = 0 then zeroNeg else decide (z < 0)) z
/-- A NaN operand gives the canonical NaN, and NV when it is signalling (R60). -/
def nanCase (f : BFmt) (ns : List FloatNum) (c : Nat) (fl : Word) : Prop :=
  (FloatNum.nan true ∈ ns ∧ c = nanOf f ∧ fl = 16) ∨ (FloatNum.nan true ∉ ns ∧ FloatNum.nan false ∈ ns ∧ c = nanOf f ∧ fl = 0)

/-- The rounded operations of R82. -/
inductive FloatOp where
  | add | sub | mul | fma | div | sqrt
  deriving DecidableEq, Repr
/-- The operands an operation reads. -/
def operands (op : FloatOp) (x y w : FloatNum) : List FloatNum :=
  match op with
  | .add | .sub | .mul | .div => [x, y]
  | .fma => [x, y, w]
  | .sqrt => [x]
/-- `z` is the exact result of finite operands, in units. -/
def exactly (op : FloatOp) (x y w z : Int) : Prop :=
  match op with
  | .add => z = x + y
  | .sub => z = x - y
  | .mul => z * 2 ^ 149 = x * y
  | .fma => z * 2 ^ 149 = x * y + w * 2 ^ 149
  | .div => y ≠ 0 ∧ z * y = x * 2 ^ 149
  | .sqrt => 0 ≤ z ∧ z * z = x * 2 ^ 149
/-- The sign of a zero result from the signs of the operands; a zero sum of opposite signs is -0 under RDN only. -/
def zeroSign (op : FloatOp) (rdn a b w : Bool) : Bool :=
  match op with
  | .add => if a = b then a else rdn
  | .sub => if a = !b then a else rdn
  | .mul | .div => a != b
  | .fma => if (a != b) = w then w else rdn
  | .sqrt => a
/-- An infinity or a zero. -/
def isInf : FloatNum → Bool
  | .inf _ => true
  | .nan _ | .fin _ _ => false
def isZero : FloatNum → Bool
  | .fin _ u => u = 0
  | .nan _ | .inf _ => false
/-- 0 × ∞. -/
def zeroTimesInf (x y : FloatNum) : Prop := (isInf x ∧ isZero y) ∨ (isZero x ∧ isInf y)
/-- The invalid operations of R82, on operands of which none is a NaN but for the addend of 0 × ∞. -/
def invalidOp (op : FloatOp) (x y w : FloatNum) : Prop :=
  match op with
  | .add => ∃ a, x = .inf a ∧ y = .inf !a
  | .sub => ∃ a, x = .inf a ∧ y = .inf a
  | .mul => zeroTimesInf x y
  | .fma => zeroTimesInf x y ∨ (∃ a b, x = .inf a ∧ y = .inf b ∧ w = .inf !(a != b)) ∨
      (∃ a b u, ((x = .inf a ∧ y = .fin b u) ∨ (x = .fin b u ∧ y = .inf a)) ∧ u ≠ 0 ∧ w = .inf !(a != b))
  | .div => (isZero x ∧ isZero y) ∨ (isInf x ∧ isInf y)
  | .sqrt => x = .inf true ∨ ∃ u, x = .fin true u ∧ u ≠ 0
/-- R82: the exact result of finite operands, when it is a value of the format, in every rounding mode and with no flag; and the
special cases of the rule. -/
def floatCase (op : FloatOp) (f : BFmt) (rdn : Bool) (cx cy cw c : Nat) (fl : Word) : Prop :=
  let x := num f cx
  let y := num f cy
  let w := num f cw
  (∃ a b d u v t z, x = .fin a u ∧ (y = .fin b v ∨ op = .sqrt) ∧ (w = .fin d t ∨ op ≠ .fma) ∧ exactly op u v t z ∧
      codeOf f (zeroSign op rdn a b d) z c ∧ fl = 0) ∨
    (¬ (op = .fma ∧ zeroTimesInf x y) ∧ nanCase f (operands op x y w) c fl) ∨
    (invalidOp op x y w ∧ c = nanOf f ∧ fl = 16) ∨
    (op = .div ∧ ∃ a b u, x = .fin a u ∧ u ≠ 0 ∧ y = .fin b 0 ∧ c = infinity f (a != b) ∧ fl = 8)

/-- The order of codes that are no NaN, -0 below +0 (R83): sign and magnitude. -/
def key (f : BFmt) (c : Nat) : Int :=
  let top := codes f / 2
  if c % (2 * top) < top then ((c % top : Nat) : Int) else -((c % top : Nat) : Int) - 1
/-- R83: the lesser or the greater of two codes. -/
def minmaxCase (isMax : Bool) (f : BFmt) (cx cy c : Nat) (fl : Word) : Prop :=
  let isNan := fun (n : FloatNum) => n = .nan true ∨ n = .nan false
  let x := cx % codes f
  let y := cy % codes f
  fl = (if num f x = .nan true ∨ num f y = .nan true then 16 else 0) ∧
    c = if isNan (num f x) then (if isNan (num f y) then nanOf f else y) else if isNan (num f y) then x
      else if (if isMax then key f y ≤ key f x else key f x ≤ key f y) then x else y
/-- R84: a comparison and its flag. -/
def compared (k : FCond) (f : BFmt) (cx cy : Nat) : Bool × Word :=
  let x := num f cx
  let y := num f cy
  let nan := x = .nan true ∨ x = .nan false ∨ y = .nan true ∨ y = .nan false
  let at0 := fun (c : Nat) => if key f c = -1 then 0 else key f c
  let signalling := if x = .nan true ∨ y = .nan true then (16 : Word) else 0
  let any := if nan then (16 : Word) else 0
  match k with
  | .eq => (decide (¬ nan ∧ at0 cx = at0 cy), signalling)
  | .ne => (decide (nan ∨ at0 cx ≠ at0 cy), signalling)
  | .lt => (decide (¬ nan ∧ at0 cx < at0 cy), any)
  | .le => (decide (¬ nan ∧ at0 cx ≤ at0 cy), any)
  | .un => (decide nan, signalling)

/-- R74, R85: a float into a float: an exact value, a NaN, an infinity. -/
def convertCase (src dst : BFmt) (sat : Bool) (cx c : Nat) (fl : Word) : Prop :=
  (∃ a u, num src cx = .fin a u ∧ codeOf dst a u c ∧ fl = 0) ∨ nanCase dst [num src cx] c fl ∨
    ∃ a, num src cx = .inf a ∧
      if dst = .f8a then c = (if sat then 0x7E + (if a then 0x80 else 0) else 0x7F) ∧ fl = 4 else c = infinity dst a ∧ fl = 0
/-- R75: a float into an integer of `w` bits: an exact value, a NaN, a value out of range. -/
def toIntCase (signed : Bool) (w cx c : Nat) (fl : Word) : Prop :=
  let lo : Int := if signed then -2 ^ (w - 1) else 0
  let hi : Int := if signed then 2 ^ (w - 1) - 1 else 2 ^ w - 1
  let is := fun (z : Int) => c < 2 ^ w ∧ ((c : Int) - z) % 2 ^ w = 0
  let x := num .f32 cx
  (∃ a u z, x = .fin a u ∧ u = z * 2 ^ 149 ∧ lo ≤ z ∧ z ≤ hi ∧ is z ∧ fl = 0) ∨
    ((∃ b, x = .nan b) ∧ c = 0 ∧ fl = 16) ∨
    ((x = .inf true ∨ ∃ a u, x = .fin a u ∧ u ≤ (lo - 1) * 2 ^ 149) ∧ is lo ∧ fl = 16) ∨
    ((x = .inf false ∨ ∃ a u, x = .fin a u ∧ (hi + 1) * 2 ^ 149 ≤ u) ∧ is hi ∧ fl = 16)
/-- R75: an integer into F32, when it is a value of the format. -/
def fromIntCase (v : Int) (c : Nat) (fl : Word) : Prop := codeOf .f32 false (v * 2 ^ 149) c ∧ fl = 0
/-- FCVT (R85). -/
def fcvtCase (k : FCvt) (sat : Bool) (x c : Nat) (fl : Word) : Prop :=
  match k with
  | .f16F32 => convertCase .f32 .f16 sat x c fl
  | .f32F16 => convertCase .f16 .f32 sat x c fl
  | .bf16F32 => convertCase .f32 .bf16 sat x c fl
  | .f32Bf16 => convertCase .bf16 .f32 sat x c fl
  | .f8aF32 => convertCase .f32 .f8a sat x c fl
  | .f8bF32 => convertCase .f32 .f8b sat x c fl
  | .f32F8a => convertCase .f8a .f32 sat x c fl
  | .f32F8b => convertCase .f8b .f32 sat x c fl
  | .i64F32 => toIntCase true 64 x c fl
  | .u64F32 => toIntCase false 64 x c fl
  | .f32I64 => fromIntCase (BitVec.ofNat 64 x).toInt c fl
  | .f32U64 => fromIntCase x c fl
/-- VCVT of one element (R245); the packed conversions make a byte each. -/
def vcvtCase (k : VCvt) (sat : Bool) (x c : Nat) (fl : Word) : Prop :=
  match k with
  | .f16F32 => convertCase .f32 .f16 sat x c fl
  | .f32F16 => convertCase .f16 .f32 sat x c fl
  | .bf16F32 => convertCase .f32 .bf16 sat x c fl
  | .f32Bf16 => convertCase .bf16 .f32 sat x c fl
  | .f8aF32 | .p8aF32 => convertCase .f32 .f8a sat x c fl
  | .f8bF32 | .p8bF32 => convertCase .f32 .f8b sat x c fl
  | .f32F8a => convertCase .f8a .f32 sat x c fl
  | .f32F8b => convertCase .f8b .f32 sat x c fl
  | .i32F32 => toIntCase true 32 x c fl
  | .u32F32 => toIntCase false 32 x c fl
  | .f32I32 => fromIntCase (BitVec.ofNat 32 x).toInt c fl
  | .f32U32 => fromIntCase x c fl

/-! Level-index codes (R67, R68), of fraction width `w`. -/

def lfrac : LFmt → Nat
  | .li16 => 11
  | .li32 => 27
/-- Sign, q and t × 2^w of the low bits of a code. -/
def lfields (f : LFmt) (c : Nat) : Bool × Bool × Nat :=
  let w := lfrac f
  (decide (c / 2 ^ (w + 4) % 2 = 1), decide (c / 2 ^ (w + 3) % 2 = 1), c % 2 ^ (w + 3))
/-- The code of a sign, q and t × 2^w; a magnitude of 1 has q = 0. -/
def lmade (f : LFmt) (neg q : Bool) (t : Nat) : Nat :=
  let w := lfrac f
  (if neg then 2 ^ (w + 4) else 0) + (if q ∧ t ≠ 2 ^ w then 2 ^ (w + 3) else 0) + t
/-- NaR, a zero, and a number of a level above 0. -/
def lIsNar (f : LFmt) (c : Nat) : Prop := (lfields f c).2.1 = true ∧ (lfields f c).2.2 < 2 ^ lfrac f
def lIsZero (f : LFmt) (c : Nat) : Prop := (lfields f c).2.1 = false ∧ (lfields f c).2.2 = 0
def lIsNum (f : LFmt) (c : Nat) : Prop := 2 ^ lfrac f ≤ (lfields f c).2.2
/-- R215, R216, R220: the special cases, and the results that are exact: x + 0, x - 0, 0 - x, x - x, x × 1, x / 1, 1 / x, x / x and
x times its reciprocal. LX is set where the level changes. -/
def levelCase (op : FloatOp) (f : LFmt) (cx cy c : Nat) (fl : Word) : Prop :=
  let one := 2 ^ lfrac f
  let (a, p, t) := lfields f cx
  let (b0, q, u) := lfields f cy
  let b := if op = .sub then !b0 else b0
  let nx := lIsNum f cx
  let ny := lIsNum f cy
  let lx : Word := if t / one = 1 then 0 else 32
  let mul := op = .mul ∨ op = .div
  -- the magnitude that multiplies: a divisor's reciprocal
  let r := if op = .div then !q else q
  ((op = .add ∨ op = .sub ∨ mul) ∧ (lIsNar f cx ∨ lIsNar f cy) ∧ c = lmade f false true 0 ∧ fl = 128) ∨
    ((op = .add ∨ op = .sub) ∧
      ((lIsZero f cx ∧ lIsZero f cy ∧ c = 0 ∧ fl = 0) ∨ (nx ∧ lIsZero f cy ∧ c = lmade f a p t ∧ fl = 0) ∨
        (lIsZero f cx ∧ ny ∧ c = lmade f b q u ∧ fl = 0) ∨ (nx ∧ t = u ∧ (p = q ∨ t = one) ∧ a = !b ∧ c = 0 ∧ fl = 32))) ∨
    (mul ∧ lIsZero f cx ∧ ny ∧ c = 0 ∧ fl = 32) ∨
    (op = .mul ∧ lIsZero f cy ∧ ((lIsZero f cx ∧ fl = 0) ∨ (nx ∧ fl = 32)) ∧ c = 0) ∨
    (op = .div ∧ lIsZero f cy ∧ c = lmade f false true 0 ∧ ((lIsZero f cx ∧ fl = 16) ∨ (nx ∧ fl = 8))) ∨
    (mul ∧ nx ∧ ny ∧
      ((t = one ∧ c = lmade f (a != b) r u ∧ fl = 0) ∨ (u = one ∧ c = lmade f (a != b) p t ∧ fl = 0) ∨
        (t = u ∧ p = !r ∧ c = lmade f (a != b) false one ∧ fl = lx)))
/-- The position of a code among those that are no NaR and no fraction of level 0: it rises with the value (R221). -/
def lkey (f : LFmt) (c : Nat) : Int :=
  let w := lfrac f
  let (a, q, t) := lfields f c
  let m : Int := if t = 0 then 0 else if q then 2 ^ (w + 3) - t else 6 * 2 ^ w + t
  if a then -m else m
/-- R221: a comparison and its flag. -/
def lcompared (k : FCond) (f : LFmt) (cx cy : Nat) : Bool × Word :=
  let nar := (lfields f cx).2.1 = true ∧ (lfields f cx).2.2 < 2 ^ lfrac f ∨ (lfields f cy).2.1 = true ∧ (lfields f cy).2.2 < 2 ^ lfrac f
  let x := lkey f cx
  let y := lkey f cy
  (match k with
    | .eq => decide (¬ nar ∧ x = y)
    | .ne => decide (nar ∨ x ≠ y)
    | .lt => decide (¬ nar ∧ x < y)
    | .le => decide (¬ nar ∧ x ≤ y)
    | .un => decide nar, if nar then 128 else 0)
/-- R223: zeros, magnitude 1, infinities and NaNs into level-index. -/
def toLevelCase (src : BFmt) (f : LFmt) (cx c : Nat) (fl : Word) : Prop :=
  let w := lfrac f
  match num src cx with
  | .nan b => c = lmade f false true 0 ∧ fl = if b then 16 else 0
  | .inf a => c = lmade f a false (2 ^ (w + 3) - 1) ∧ fl = 65
  | .fin a u => (u = 0 ∧ c = 0 ∧ fl = 0) ∨ (u.natAbs = 2 ^ 149 ∧ c = lmade f a false (2 ^ w) ∧ fl = 0)
/-- R223: zeros, magnitude 1 and NaR into a float. -/
def fromLevelCase (f : LFmt) (dst : BFmt) (cx c : Nat) (fl : Word) : Prop :=
  (lIsZero f cx ∧ c = 0 ∧ fl = 0) ∨ (lIsNar f cx ∧ c = nanOf dst ∧ fl = 128) ∨
    ((lfields f cx).2.2 = 2 ^ lfrac f ∧ codeOf dst false (if (lfields f cx).1 then -2 ^ 149 else 2 ^ 149) c ∧ fl = 0)
/-- LCVT and VLCVT (R222). -/
def lcvtCase (k : LCvt) (x c : Nat) (fl : Word) : Prop :=
  match k with
  | .li16F32 => toLevelCase .f32 .li16 x c fl
  | .li16F16 => toLevelCase .f16 .li16 x c fl
  | .li16Bf16 => toLevelCase .bf16 .li16 x c fl
  | .li32F32 => toLevelCase .f32 .li32 x c fl
  | .li32F16 => toLevelCase .f16 .li32 x c fl
  | .li32Bf16 => toLevelCase .bf16 .li32 x c fl
  | .f32Li16 => fromLevelCase .li16 .f32 x c fl
  | .f16Li16 => fromLevelCase .li16 .f16 x c fl
  | .bf16Li16 => fromLevelCase .li16 .bf16 x c fl
  | .f32Li32 => fromLevelCase .li32 .f32 x c fl
  | .f16Li32 => fromLevelCase .li32 .f16 x c fl
  | .bf16Li32 => fromLevelCase .li32 .bf16 x c fl
/-- LCLASS (R224): bits 18:16 are l, bit 19 is q, bit 7 a code never produced, bit 6 an end of the range. -/
def lclassOf (f : LFmt) (c : Nat) : Nat :=
  let w := lfrac f
  let (a, q, t) := lfields f c
  let (l, r) := (t / 2 ^ w, t % 2 ^ w)
  let kind := if q ∧ l = 0 then 0 else if t = 0 then 3 else if l = 0 ∨ (q ∧ t ≠ 2 ^ w) then (if a then 2 else 4) else if a then 1 else 5
  let odd := (l = 0 ∧ r ≠ 0) ∨ (l = 0 ∧ a) ∨ (q ∧ t = 2 ^ w)
  2 ^ kind + (if t = 2 ^ (w + 3) - 1 then 64 else 0) + (if odd then 128 else 0) + 2 ^ 16 * l + (if q then 2 ^ 19 else 0)

/-- R244: the special functions: their table, and the results that are exact. -/
def specialCase (i : Instr) (cx c : Nat) (fl : Word) : Prop :=
  let x := num .f32 cx
  let f1 := 0x3F800000
  let inf := infinity .f32
  let zero := fun (a : Bool) => if a then 0x80000000 else (0 : Nat)
  let is := fun (n v : Nat) (g : Word) => n = v ∧ fl = g
  nanCase .f32 [x] c fl ∨
    match i with
    | .vexp _ _ _ => (x = .inf false ∧ is c (inf false) 0) ∨ (x = .inf true ∧ is c 0 0) ∨ (isZero x ∧ is c f1 0)
    | .vlog _ _ _ => ((x = .inf true ∨ ∃ u, x = .fin true u ∧ u ≠ 0) ∧ is c (nanOf .f32) 16) ∨ (isZero x ∧ is c (inf true) 8) ∨
        (x = .fin false (2 ^ 149) ∧ is c 0 0) ∨ (x = .inf false ∧ is c (inf false) 0)
    | .vrcp _ _ _ => ∃ a, (x = .fin a 0 ∧ is c (inf a) 8) ∨ (x = .inf a ∧ is c (zero a) 0) ∨
        (∃ u z, x = .fin a u ∧ u ≠ 0 ∧ z * u = 2 ^ 298 ∧ codeOf .f32 false z c ∧ fl = 0)
    | .vrsq _ _ _ => ((x = .inf true ∨ ∃ u, x = .fin true u ∧ u ≠ 0) ∧ is c (nanOf .f32) 16) ∨
        (∃ a, x = .fin a 0 ∧ is c (inf a) 8) ∨ (x = .inf false ∧ is c 0 0) ∨
        (∃ u z, x = .fin false u ∧ 0 < z ∧ z * z * u = 2 ^ 447 ∧ codeOf .f32 false z c ∧ fl = 0)
    | .vsig _ _ _ => (x = .inf false ∧ is c f1 0) ∨ (x = .inf true ∧ is c 0 0) ∨ (isZero x ∧ is c 0x3F000000 0)
    | .vtanh _ _ _ => ∃ a, (x = .inf a ∧ is c (f1 + zero a) 0) ∨ (x = .fin a 0 ∧ is c (zero a) 0)
    | _ => False

/-- The code and the flags that the rules give an instruction, or an element of one, on the codes of its sources, in the cases
that have an exact result or stand in a table: `rm` is NMODE.RM, `sat` NMODE.SAT. -/
def valueCase (i : Instr) (rm : Nat) (sat : Bool) (x y w c : Nat) (fl : Word) : Prop :=
  let rdn := fun (r : Rnd) => r == .rdn || (r == .none && rm == 3)
  match i with
  | .fadd _ _ _ f r _ => floatCase .add f.bin (rdn r) x y w c fl
  | .vfadd _ _ _ f r _ => floatCase .add f.bin (rdn r) x y w c fl
  | .fsub _ _ _ f r _ => floatCase .sub f.bin (rdn r) x y w c fl
  | .vfsub _ _ _ f r _ => floatCase .sub f.bin (rdn r) x y w c fl
  | .fmul _ _ _ f r _ => floatCase .mul f.bin (rdn r) x y w c fl
  | .vfmul _ _ _ f r _ => floatCase .mul f.bin (rdn r) x y w c fl
  | .ffma _ _ _ f r _ => floatCase .fma f.bin (rdn r) x y w c fl
  | .vfma _ _ _ f r _ => floatCase .fma f.bin (rdn r) x y w c fl
  | .fdiv _ _ _ f r _ => floatCase .div f.bin (rdn r) x y w c fl
  | .fsqrt _ _ f r _ => floatCase .sqrt f.bin (rdn r) x y w c fl
  | .fmin _ _ _ f _ => minmaxCase false f.bin x y c fl
  | .vfmin _ _ _ f _ => minmaxCase false f.bin x y c fl
  | .fmax _ _ _ f _ => minmaxCase true f.bin x y c fl
  | .vfmax _ _ _ f _ => minmaxCase true f.bin x y c fl
  | .vfabs _ _ f _ => nanCase f.bin [num f.bin x] c fl ∨
      (num f.bin x ≠ .nan true ∧ num f.bin x ≠ .nan false ∧ c = x % (codes f.bin / 2) ∧ fl = 0)
  | .vfneg _ _ f _ => nanCase f.bin [num f.bin x] c fl ∨
      (num f.bin x ≠ .nan true ∧ num f.bin x ≠ .nan false ∧ c = (x + codes f.bin / 2) % codes f.bin ∧ fl = 0)
  | .fcvt _ _ _ k _ => fcvtCase k sat x c fl
  | .vcvt _ _ _ k _ => vcvtCase k sat x c fl
  | .vcmp _ _ _ (.f32 k) _ => c = (if (compared k .f32 x y).1 then 2 ^ 32 - 1 else 0) ∧ fl = (compared k .f32 x y).2
  | .vcmp _ _ _ (.i32 k) _ =>
      let (a, b) := ((BitVec.ofNat 32 x).toInt, (BitVec.ofNat 32 y).toInt)
      let holds := match k with
        | .eq => a = b
        | .ne => a ≠ b
        | .lt => a < b
        | .le => a ≤ b
        | .ltu => x < y
        | .leu => x ≤ y
      (holds ∧ c = 2 ^ 32 - 1 ∨ ¬ holds ∧ c = 0) ∧ fl = 0
  | .vexp _ _ _ | .vlog _ _ _ | .vrcp _ _ _ | .vrsq _ _ _ | .vsig _ _ _ | .vtanh _ _ _ => specialCase i x c fl
  | .ladd _ _ _ f _ => levelCase .add f x y c fl
  | .vladd _ _ _ f _ => levelCase .add f x y c fl
  | .lsub _ _ _ f _ => levelCase .sub f x y c fl
  | .lmul _ _ _ f _ => levelCase .mul f x y c fl
  | .vlmul _ _ _ f _ => levelCase .mul f x y c fl
  | .ldiv _ _ _ f _ => levelCase .div f x y c fl
  | .lcvt _ _ _ k _ => lcvtCase k x c fl
  | .vlcvt _ _ k _ => lcvtCase k x c fl
  | .lclass _ _ f _ => c = lclassOf f x ∧ fl = 0
  | _ => False

/-- A numeric result of `i`: under R87 and R225 poisoned just when a source is, and then the given code, with no flag; else the
code and the flags of the instruction's rule where `valueCase` gives them. -/
def numeric (i : Instr) (s : State) (rs : List Reg) (bad : Nat) (v : PWord) (flags : Word) : Prop :=
  let src := fun (k : Nat) => ((rs[k]?).map fun r => (s.gReg r).val.toNat).getD 0
  v.poison = rs.any (fun r => (s.gReg r).poison) ∧ (v.poison = true → v.val = BitVec.ofNat 64 bad ∧ flags = 0) ∧
    (v.poison = false → ∀ c fl, valueCase i (s.me.nmode.toNat % 4) (s.me.nmode.getLsbD 3) (src 0) (src 1) (src 2) c fl →
      v.val = BitVec.ofNat 64 c ∧ flags = fl)

end Sys2Proof.Spec

/-- R130 and R88: with the divide unit free, DIV, DIVU, MOD and MODU retire and the unit holds the quotient or remainder
of the table. -/
def Sys2Proof.Spec.divisionsStart : Prop :=
  ∀ (i : Instr) (s : State) (d : Reg) (v : PWord),
    Spec.divResult i s = some (d, v) → Spec.runs i s → s.myCore.work.div = none → s.myCore.work.divQ = [] →
      exec i s = .next (Spec.divideStarts s d v 0).retire

/-- R82 and R87: FADD, FSUB, FMUL, FFMA, FMIN, FMAX, FCVT, FCLASS and LCLASS write g[d], OR their flags into NFLAGS and
retire. A poisoned source gives the canonical NaN of the result format, or 0, poisoned, and no flag. Else a result that is exact,
and each special case of the rules, has the value and the flags that R82, R83, R85 and R224 give. -/
def Sys2Proof.Spec.floatsComplete : Prop :=
  ∀ (i : Instr) (s : State) (d : Reg) (rs : List Reg) (bad : Nat),
    Spec.numForm i = some (d, rs, bad) → Spec.runs i s →
      ∃ v flags, exec i s = .next ((s.setG d v).modMe fun x => { x with nflags := x.nflags ||| flags }).retire ∧
        Spec.numeric i s rs bad v flags

/-- R82, R87 and R88: with the divide unit free, FDIV and FSQRT retire, and the unit holds their result, which has its value and
flags by R82 where it is exact or a special case. -/
def Sys2Proof.Spec.floatDivisionsStart : Prop :=
  ∀ (i : Instr) (s : State) (d : Reg) (rs : List Reg) (bad : Nat),
    Spec.divForm i = some (d, rs, bad) → Spec.runs i s → s.myCore.work.div = none → s.myCore.work.divQ = [] →
      ∃ v flags, exec i s = .next (Spec.divideStarts s d v flags).retire ∧ Spec.numeric i s rs bad v flags

/-- R218, R220, R222 and R225: with the recurrence unit free, LADD, LSUB, LMUL, LDIV and LCVT retire, and the unit holds
their result; a poisoned source leaves NaR or the canonical NaN, poisoned. The cases of R215, and results that are exact, have
their codes and flags (R216, R223). -/
def Sys2Proof.Spec.levelIndexStart : Prop :=
  ∀ (i : Instr) (s : State) (d : Reg) (rs : List Reg) (bad : Nat),
    Spec.rcrForm i = some (d, rs, bad) → Spec.runs i s → s.myCore.work.rcr = none → s.myCore.work.rcrQ = [] →
      ∃ v flags, exec i s = .next (Spec.recurrenceStarts s d v flags).retire ∧ Spec.numeric i s rs bad v flags

/-- R84, R87 and R221: FCMP and LCMP write a predicate and retire; a poisoned source gives false, poisoned, and no flag. Else they
write the condition on the values, and set NV or LN as their tables say; codes of level 0 that are neither zero nor NaR are left
out. -/
def Sys2Proof.Spec.comparisonsComplete : Prop :=
  ∀ (i : Instr) (s : State) (d : PReg) (rs : List Reg),
    Spec.cmpForm i = some (d, rs) → Spec.runs i s →
      if rs.any (fun r => (s.gReg r).poison) then exec i s = .next (s.setP d ⟨false, true⟩).retire
      else ∃ v flags, exec i s = .next ((s.setP d ⟨v, false⟩).modMe fun x => { x with nflags := x.nflags ||| flags }).retire ∧
        let src := fun (k : Nat) => ((rs[k]?).map fun r => (s.gReg r).val.toNat).getD 0
        match i with
        | .fcmp _ _ _ f k _ => (v, flags) = Spec.compared k f.bin (src 0) (src 1)
        | .lcmp _ _ _ f k _ =>
          (∀ j, j < 2 → Spec.lIsNar f (src j) ∨ Spec.lIsZero f (src j) ∨ Spec.lIsNum f (src j)) →
            (v, flags) = Spec.lcompared k f (src 0) (src 1)
        | _ => True

/-- R86: FCLASS of an unpoisoned source writes one bit: the class of the F32 code in g[a][31:0] or the F16 code in g[a][15:0]. It
changes no flag. -/
def Sys2Proof.Spec.fclassOneHot : Prop :=
  ∀ (s : State) (d a : Reg) (f : FFmt) (q : Pred), Spec.runs (.fclass d a f q) s → (s.gReg a).poison = false →
    let (top, inf, quiet, normal) : Nat × Nat × Nat × Nat :=
      match f with
      | .f32 => (2 ^ 31, 0x7F800000, 0x7FC00000, 0x800000)
      | .f16 => (2 ^ 15, 0x7C00, 0x7E00, 0x400)
    let c := (s.gReg a).val.toNat % (2 * top)
    let sign := decide (top ≤ c)
    let m := c % top
    let k : Nat :=
      if inf < m then (if m < quiet then 8 else 9)
      else if m = inf then (if sign then 0 else 7)
      else if m = 0 then (if sign then 3 else 4)
      else if m < normal then (if sign then 2 else 5)
      else if sign then 1 else 6
    exec (.fclass d a f q) s = .next ((s.setG d ⟨BitVec.ofNat 64 (2 ^ k), false⟩).modMe fun x => { x with nflags := x.nflags ||| 0 }).retire

/-- R82: FADD of two clean F32 numbers of one sign whose exact sum is an F32 value writes that value, in every rounding mode, with
no flag. -/
def Sys2Proof.Spec.faddExact : Prop :=
  ∀ (s : State) (d a b : Reg) (r : Rnd) (q : Pred) (neg : Bool) (x y : Int) (c : Nat),
    Spec.runs (.fadd d a b .f32 r q) s → (s.gReg a).poison = false → (s.gReg b).poison = false →
    Spec.num .f32 (s.gReg a).val.toNat = .fin neg x → Spec.num .f32 (s.gReg b).val.toNat = .fin neg y →
    c < 2 ^ 32 → Spec.num .f32 c = .fin neg (x + y) →
      exec (.fadd d a b .f32 r q) s =
        .next ((s.setG d ⟨BitVec.ofNat 64 c, false⟩).modMe fun k => { k with nflags := k.nflags ||| 0 }).retire

/-- R88 and R218: DIVIDE_UNIT_COMPLETE and RECURRENCE_UNIT_COMPLETE free their unit and give its result to the register
that still waits for it, and OR its flags into its context's NFLAGS, unless a brake of level 3 pauses the core (R407). -/
def Sys2Proof.Spec.unitsComplete : Prop :=
  ∀ (s : State) (o : UnitOp), let c := s.ev.core
    (s.spine.brake < 3 ∨ c = mgmtCore) →
    ((s.core c).work.div = some o → (s.core c).work.divQ = [] → ∃ t, exec .divideUnitComplete s = .next t ∧
      (t.core c).work.div = none ∧ (t.ctx c o.ctx).nflags = (s.ctx c o.ctx).nflags ||| o.flags ∧
      ∀ d : Reg, o.dst = .g d → d ≠ 0 → ((.g d, o.id) ∈ (s.ctx c o.ctx).pend) → (t.ctx c o.ctx).getG d = o.val) ∧
    ((s.core c).work.rcr = some o → (s.core c).work.rcrQ = [] → ∃ t, exec .recurrenceUnitComplete s = .next t ∧
      (t.core c).work.rcr = none ∧ (t.ctx c o.ctx).nflags = (s.ctx c o.ctx).nflags ||| o.flags ∧
      ∀ d : Reg, o.dst = .g d → d ≠ 0 → ((.g d, o.id) ∈ (s.ctx c o.ctx).pend) → (t.ctx c o.ctx).getG d = o.val)

/-- Scalar floats and comparisons write their destination, with the value and flags of their rule where it is exact or a special case, and retire; poison follows R87. Each part says its rules. -/
def Obligations.FloatResults : Prop :=
  Spec.floatsComplete ∧ Spec.comparisonsComplete

/-- Values of FCLASS, and of FADD of two F32 numbers of one sign with an exact sum. Each part says its rules. -/
def Obligations.FloatValues : Prop :=
  Spec.fclassOneHot ∧ Spec.faddExact

/-- The divide unit and the recurrence unit take their instructions and give their results, exact ones and special cases by value. Each part says its rules. -/
def Obligations.UnitsWork : Prop :=
  Spec.divisionsStart ∧ Spec.floatDivisionsStart ∧ Spec.levelIndexStart ∧ Spec.unitsComplete

/-! ### Branches, loops and what only advances the pc (05 R122 to R141) -/

namespace Sys2Proof.Spec

/-- The fetch triple of the executing context: pc, npc and nnpc (R131). -/
def triple (s : State) : Word × Option Word × Option Word := s.triple s.cur.core s.cur.ctx
/-- seq(x) as the executing core fetches (R131). -/
def seq (s : State) (x : Word) : Option Word := s.seqOf s.cur.core x
/-- No hardware loop of the executing context is active. -/
def noLoop (s : State) : Prop := s.me.loops[0].lc = 0 ∧ s.me.loops[1].lc = 0 ∧ s.me.loops[2].lc = 0

/-- The registers of the executing context that neither a branch nor a retire writes. -/
def sameRegs (s t : State) : Prop :=
  t.cur = s.cur ∧ t.me.g = s.me.g ∧ t.me.p = s.me.p ∧ t.me.e = s.me.e ∧ t.me.v = s.me.v ∧ t.me.nmode = s.me.nmode ∧
    t.me.nflags = s.me.nflags ∧ t.me.tr = s.me.tr ∧ t.me.ien = s.me.ien ∧ t.me.ipend = s.me.ipend ∧ t.me.alarm = s.me.alarm ∧
    t.me.evpend = s.me.evpend ∧ t.me.tstat = s.me.tstat ∧ t.me.count = s.me.count ∧ t.me.packet = s.me.packet

/-- A branch that is taken: its slot form and its target (R132 to R134, R48). -/
def branchTaken (i : Instr) (s : State) : Option (Slot × Word) :=
  let on := fun (q : Pred) => !(s.pReg q.idx).poison && ((s.pReg q.idx).val ^^ q.neg)
  let rel := fun (d : Int) => BitVec.ofInt 64 (s.me.pc.toInt + 2 * d)
  let at_ := fun (r : Reg) => !(s.gReg r).poison && !(s.gReg r).val.getLsbD 0
  match i with
  | .b sl d => some (sl, rel d.toInt)
  | .bS d => some (.none, rel d.toInt)
  | .bc p neg sl _ d => if on ⟨p, neg⟩ then some (sl, rel d.toInt) else none
  | .jmp a sl q => if on q && at_ a then some (sl, (s.gReg a).val) else none
  | .ret sl q => if on q && at_ 15 then some (sl, (s.gReg 15).val) else none
  | .jmpS r => if at_ r then some (.none, (s.gReg r).val) else none
  | .retS => if at_ 15 then some (.none, (s.gReg 15).val) else none
  | _ => none

/-- A call: its slot form and its target (R133, R134, R48). -/
def callTaken (i : Instr) (s : State) : Option (Slot × Word) :=
  let on := fun (q : Pred) => !(s.pReg q.idx).poison && ((s.pReg q.idx).val ^^ q.neg)
  let rel := fun (d : Int) => BitVec.ofInt 64 (s.me.pc.toInt + 2 * d)
  let at_ := fun (r : Reg) => !(s.gReg r).poison && !(s.gReg r).val.getLsbD 0
  match i with
  | .call sl d => some (sl, rel d.toInt)
  | .callS d => some (.none, rel d.toInt)
  | .calli a sl q => if on q && at_ a then some (sl, (s.gReg a).val) else none
  | .calliS r => if at_ r then some (.none, (s.gReg r).val) else none
  | _ => none

/-- A conditional branch that is not taken: its slot form. -/
def branchNotTaken (i : Instr) (s : State) : Option Slot :=
  let off := fun (q : Pred) => !(s.pReg q.idx).poison && !((s.pReg q.idx).val ^^ q.neg)
  match i with
  | .bc p neg sl _ _ => if off ⟨p, neg⟩ then some sl else none
  | .jmp _ sl q | .calli _ sl q | .ret sl q => if off q then some sl else none
  | .lbrk p neg sl => if off ⟨p, neg⟩ then some sl else none
  | _ => none

/-- The level a LOOP takes (R138). -/
def level (x : Ctx) : Nat := if x.loops[1].lc ≠ 0 then 2 else if x.loops[0].lc ≠ 0 then 1 else 0

/-- The executing instruction is alone in its cluster: no other core of it is listed. -/
def alone (s : State) : Prop := ∀ e ∈ s.cores, e.1 = s.cur.core ∨ clusterOf e.1 ≠ clusterOf s.cur.core

end Sys2Proof.Spec

/-- R131: an instruction that is not a taken branch retires to (npc, nnpc, seq(nnpc)), with no loop active. -/
def Obligations.RetireAdvances : Prop :=
  ∀ (s : State) (p a b : Word), Spec.noLoop s → Spec.triple s = (p, some a, some b) →
    Spec.triple s.retire = (a, some b, Spec.seq s b) ∧ Spec.sameRegs s s.retire

/-- R132 to R134 and R48: B, BC whose predicate holds, JMP and RET to a clean even address, and their short forms, taken:
after two delay slots, or at once under .X, the target is the pc. No register is written. -/
def Sys2Proof.Spec.branchesTaken : Prop :=
  ∀ (i : Instr) (s : State) (sl : Slot) (g p a b : Word),
    Spec.branchTaken i s = some (sl, g) → Spec.triple s = (p, some a, some b) →
      ∃ t, exec i s = .next t ∧ Spec.sameRegs s t ∧
        match sl with
        | .none | .n => Spec.triple t = (a, some b, some g)
        | .x => Spec.triple t = (g, Spec.seq s g, (Spec.seq s g).bind (Spec.seq s))

/-- R133, R134 and R48: CALL, CALLI and their short forms branch in the same way and write to g15 the address of the
instruction after the two slots, or of the next one under .X. -/
def Sys2Proof.Spec.callsLink : Prop :=
  ∀ (i : Instr) (s : State) (sl : Slot) (g p a b e : Word),
    Spec.callTaken i s = some (sl, g) → Spec.triple s = (p, some a, some b) → Spec.seq s b = some e →
      ∃ t, exec i s = .next t ∧
        (∀ r : Reg, r ≠ 15 → t.gReg r = s.gReg r) ∧ t.me.p = s.me.p ∧ t.me.e = s.me.e ∧
        match sl with
        | .none | .n => Spec.triple t = (a, some b, some g) ∧ t.gReg 15 = ⟨e, false⟩
        | .x => Spec.triple t = (g, Spec.seq s g, (Spec.seq s g).bind (Spec.seq s)) ∧ t.gReg 15 = ⟨a, false⟩

/-- R132, R134, R140: a conditional branch whose predicate is clean and false retires as other instructions do; under .N it
skips the two slots. No register is written. -/
def Sys2Proof.Spec.branchesNotTaken : Prop :=
  ∀ (i : Instr) (s : State) (sl : Slot) (p a b e : Word),
    Spec.branchNotTaken i s = some sl → Spec.noLoop s → Spec.triple s = (p, some a, some b) → Spec.seq s b = some e →
      ∃ t, exec i s = .next t ∧ Spec.sameRegs s t ∧
        match sl with
        | .none | .x => Spec.triple t = (a, some b, some e)
        | .n => Spec.triple t = (e, Spec.seq s e, (Spec.seq s e).bind (Spec.seq s))

/-- R132 and R107: BC of a poisoned predicate traps with cause poison control and the predicate's index. -/
def Sys2Proof.Spec.bcPoisoned : Prop :=
  ∀ (s : State) (p : PReg) (neg : Bool) (sl : Slot) (h : Bool) (d : BitVec 18), (s.pReg p).poison = true →
    exec (.bc p neg sl h d) s = .next (s.takeTrap s.cur.core s.cur.ctx 0x0A (BitVec.ofNat 64 p.val))

/-- A jump to a register, or a call of one: the register and the predicate it runs under; RET jumps to g15, and a short form runs
under p0 (R134, R48). -/
def Sys2Proof.Spec.jumpsVia (i : Instr) (r : Reg) (q : Pred) : Prop :=
  (∃ sl, i = .jmp r sl q ∨ i = .calli r sl q ∨ (i = .ret sl q ∧ r = 15)) ∨
    ((i = .jmpS r ∨ i = .calliS r ∨ (i = .retS ∧ r = 15)) ∧ q = ⟨0, false⟩)

/-- R34, R134 and R107: where JMP, CALLI and RET, in both sizes, trap: with a poisoned predicate, with cause poison control and its
index; taken to a poisoned target, with the same cause and the register's number; taken to a clean target whose bit 0 is set, with
cause misaligned fetch and the target. -/
def Sys2Proof.Spec.badTargetsTrap : Prop :=
  ∀ (i : Instr) (s : State) (r : Reg) (q : Pred), Spec.jumpsVia i r q →
    let p := s.pReg q.idx
    let traps := fun (cause value : Word) => exec i s = .next (s.takeTrap s.cur.core s.cur.ctx cause value)
    (p.poison = true → traps 0x0A (BitVec.ofNat 64 q.idx.val)) ∧
    (p.poison = false → (p.val ^^ q.neg) = true →
      ((s.gReg r).poison = true → traps 0x0A (BitVec.ofNat 64 r.val)) ∧
      ((s.gReg r).poison = false → (s.gReg r).val.getLsbD 0 = true → traps 0x02 (s.gReg r).val))

/-- R138: outside a delay slot, with a level free and a clean count that is not zero, LOOP and LOOPI set the count (at most
2^32 - 1), the start and the end of the lowest free level, and retire; with a count of zero, LOOP jumps to the end. -/
def Sys2Proof.Spec.loopsStart : Prop :=
  ∀ (i : Instr) (s : State) (n : Nat) (r : Bool) (e : BitVec 11),
    ((∃ g, i = .loop g r e ∧ (s.gReg g).poison = false ∧ n = (s.gReg g).val.toNat) ∨
      ∃ m : BitVec 10, i = .loopi m r e ∧ n = m.toNat + 1) →
    s.me.slots = 0 → s.me.npc = none → s.me.nnpc = none → s.me.loops[2].lc = 0 →
      let endOf := BitVec.ofNat 64 (s.me.pc.toNat + 2 * e.toNat)
      if n = 0 then ∃ t, exec i s = .next t ∧ Spec.triple t = (endOf, Spec.seq s endOf, (Spec.seq s endOf).bind (Spec.seq s)) ∧
        Spec.sameRegs s t ∧ t.me.loops = s.me.loops
      else
        let l : Loop := ⟨BitVec.ofNat 64 (min n (2 ^ 32 - 1)), (s.me.pc + 4) ||| (if s.priv.getLsbD 0 then 1 else 0),
          endOf ||| (if r then 1 else 0)⟩
        exec i s = .next (s.setMe { s.me with loops := s.me.loops.setIfInBounds (Spec.level s.me) l }).retire

/-- R138, R45: a LOOP that finds all three levels active is an illegal instruction. -/
def Sys2Proof.Spec.fourthLoopIllegal : Prop :=
  ∀ (s : State) (g : Reg) (r : Bool) (e : BitVec 11), s.me.loops[2].lc ≠ 0 →
    exec (.loop g r e) s = .next (s.takeTrap s.cur.core s.cur.ctx 0x01 (Instr.tval (.loop g r e)))

/-- R139: an instruction before the end of the innermost active loop retires; the triple would stand at the end, sequential:
with more than one iteration left the count goes down by one and the loop starts again, otherwise the count becomes zero and
the loop is left. The loop is level 0 of the executing mode, and no other is active. -/
def Sys2Proof.Spec.loopBack : Prop :=
  ∀ (s : State) (p a b n : Word),
    s.me.loops[1].lc = 0 → s.me.loops[2].lc = 0 → s.me.loops[0].lc = n → n ≠ 0 →
    s.me.npc = none → s.me.nnpc = none → Spec.triple s = (p, some a, some b) →
    s.me.loops[0].le &&& ~~~1#64 = a → s.me.loops[0].le.getLsbD 0 = false →
    s.me.loops[0].ls.getLsbD 0 = s.priv.getLsbD 0 →
      let start := s.me.loops[0].ls &&& ~~~1#64
      if 1 < n.toNat then
        s.retire.me.loops[0].lc = n - 1 ∧ Spec.triple s.retire = (start, Spec.seq s start, (Spec.seq s start).bind (Spec.seq s))
      else s.retire.me.loops[0].lc = 0 ∧ Spec.triple s.retire = (a, some b, Spec.seq s b)

/-- R140: LBRK whose predicate holds leaves the innermost active loop of the mode: its count becomes zero and the branch goes
to its end. -/
def Sys2Proof.Spec.lbrkLeaves : Prop :=
  ∀ (s : State) (q : PReg) (neg : Bool) (sl : Slot) (p a b : Word),
    (s.pReg q).poison = false → ((s.pReg q).val ^^ neg) = true →
    s.me.loops[0].lc ≠ 0 → s.me.loops[1].lc = 0 → s.me.loops[2].lc = 0 → s.me.loops[0].ls.getLsbD 0 = s.priv.getLsbD 0 →
    Spec.triple s = (p, some a, some b) →
      ∃ t, exec (.lbrk q neg sl) s = .next t ∧ Spec.sameRegs s t ∧ t.me.loops[0].lc = 0 ∧
        let g := s.me.loops[0].le &&& ~~~1#64
        match sl with
        | .none | .n => Spec.triple t = (a, some b, some g)
        | .x => Spec.triple t = (g, Spec.seq s g, (Spec.seq s g).bind (Spec.seq s))

/-- R95 and R124: NOP only retires, in both sizes, and so does a HINT of bound 0 of a core alone in its cluster; YIELD
retires and lets every other READY context of the core issue first. -/
def Obligations.NothingElse : Prop :=
  ∀ (s : State) (mask : BitVec 16),
    exec .nop s = .next s.retire ∧ exec .nopS s = .next s.retire ∧
    (Spec.alone s → exec (.hint mask 0) s = .next s.retire) ∧
    (∀ i, i = .yield ∨ i = .yieldS → ∃ ns, exec i s = .next (s.setMe { s.me with yield := ns }).retire ∧
      ∀ n, n ∈ ns ↔ n ≠ s.cur.ctx ∧ (s.myCore.ctx n).st = .ready)

/-- Branches, calls and returns, taken and not taken, in every slot form, and where they trap. Each part says its rules. -/
def Obligations.Branches : Prop :=
  Spec.branchesTaken ∧ Spec.callsLink ∧ Spec.branchesNotTaken ∧ Spec.bcPoisoned ∧ Spec.badTargetsTrap

/-- LOOP and LOOPI start a level, its end loops back, LBRK leaves it, a fourth level is illegal. Each part says its rules. -/
def Obligations.Loops : Prop :=
  Spec.loopsStart ∧ Spec.fourthLoopIllegal ∧ Spec.loopBack ∧ Spec.lbrkLeaves

/-! ### Traps, special registers, contexts and the register pool (04, 06, 16 R415, R416) -/

namespace Sys2Proof.Spec

/-- A saved entry of the triple: an unresolved one is the address before it with bit 0 set (R131). -/
def saved (before : Word) (x : Option Word) : Word := x.getD (before ||| 1)

/-- The whole ticks that core cycles fill at an operating point: 10.8 cycles a tick at the fastest, 8.8 at nominal (R6, R402). -/
def cycleTicks (point n : Nat) : Nat :=
  let tenths := [108, 100, 88, 80, 72, 64, 56]
  10 * n / tenths.getD point 48
/-- The registers of a context that trap entry does not change (R103). -/
def keeps (x y : Ctx) : Prop :=
  y.g = x.g ∧ y.p = x.p ∧ y.e = x.e ∧ y.v = x.v ∧ y.count = x.count ∧ y.lanes = x.lanes ∧ y.loops = x.loops ∧
    y.nmode = x.nmode ∧ y.nflags = x.nflags ∧ y.ien = x.ien ∧ y.ipend = x.ipend ∧ y.alarm = x.alarm ∧ y.evpend = x.evpend ∧
    y.tstat = x.tstat

/-- Nothing of the executing core is on its way or in its units, no copy of its octet runs, no bank of its cluster drains, and
its engine holds no job. -/
def quiet (s : State) : Prop :=
  s.myCore.work.div = none ∧ s.myCore.work.divQ = [] ∧ s.myCore.work.rcr = none ∧ s.myCore.work.rcrQ = [] ∧
    s.myCore.work.loads = [] ∧ s.myCore.work.port = [] ∧ s.myCore.work.vecs = [] ∧ s.myCore.work.rq = [] ∧
    (∀ h : Fin 8, s.myOctet.chans[h].cur = none) ∧ s.myOctet.queue = [] ∧ s.myOctet.running = none ∧
    (∀ e ∈ s.cores, ∀ (n : CtxId) (d a b : Reg) (q : Pred), (e.2.ctx n).wait ≠ some (.bankmode d a b q))
/-- No claim waits for lanes, nor for pooled registers of the executing core. -/
def noClaims (s : State) : Prop := (∀ o, (s.octet o).laneQ = []) ∧ s.myCore.poolQ = []

/-- A special register that every context of a core may read, with the value it stands for (R99); those computed from
several fields are not among them. -/
def special (s : State) : Nat → Option Word
  | 0x000 => some s.myCore.bind.tbase
  | 0x001 => some s.me.tstat
  | 0x003 => some s.me.tr.tcause
  | 0x004 => some s.me.tr.tval
  | 0x005 => some s.myCore.bind.tvec
  | 0x006 => some s.me.nmode
  | 0x007 => some s.me.nflags
  | 0x008 => some (BitVec.ofNat 64 s.me.lanes.vl)
  | 0x00B => some (BitVec.ofNat 64 s.myCore.lcn.toNat)
  | 0x00C => some (BitVec.ofNat 64 s.spine.peerno.toNat)
  | 0x00D => some (BitVec.ofNat 64 s.myCluster.power.throttle)
  | 0x00E => some s.myCore.lease
  | 0x00F => some s.me.ien
  | 0x010 => some (s.me.ipend ||| (if s.me.alarm ≠ 0 ∧ 0 ≤ (s.myNow - s.me.alarm).toInt then 1 else 0))
  | 0x011 => some s.me.alarm
  | 0x012 => some s.me.evpend
  | 0x013 => some s.me.tr.xpc0
  | 0x014 => some s.me.tr.xpc1
  | 0x015 => some s.me.tr.xpc2
  | 0x016 => some s.me.loops[0].lc
  | 0x017 => some s.me.loops[1].lc
  | 0x018 => some s.me.loops[2].lc
  | 0x019 => some s.me.loops[0].ls
  | 0x01A => some s.me.loops[1].ls
  | 0x01B => some s.me.loops[2].ls
  | 0x01C => some s.me.loops[0].le
  | 0x01D => some s.me.loops[1].le
  | 0x01E => some s.me.loops[2].le
  | _ => none

/-- A management register, readable in machine mode (R415). -/
def mgmtSpecial (s : State) : Nat → Option Word
  | 0x101 => some s.mgmt.mcause
  | 0x102 => some s.mgmt.mtval
  | 0x103 => some s.mgmt.mvec
  | 0x104 => some s.mgmt.mxpc0
  | 0x105 => some s.mgmt.mxpc1
  | 0x106 => some s.mgmt.mxpc2
  | 0x107 => some s.mgmt.mien
  | _ => none

/-- A context after a write of a special register of it: the register, whether user mode may write it, the context. A field
that is read-only or reserved keeps its value, or reads as zero (R69 to R71, R99 to R104, R137, R181). -/
def written (x : Ctx) (v : Word) : Nat → Option (Bool × Ctx)
  | 0x001 => some (true, { x with tstat := v &&& 0x0000FFFF0000000F })
  | 0x002 => some (false, { x with tr := { x.tr with pkab := v.getLsbD 15, ppriv := v.extractLsb' 12 2 } })
  | 0x003 => some (false, { x with tr := { x.tr with tcause := v &&& 0x80000000000000FF } })
  | 0x004 => some (false, { x with tr := { x.tr with tval := v } })
  | 0x006 => some (true, { x with nmode := v &&& 0xB })
  | 0x007 => some (true, { x with nflags := v &&& 0xFF })
  | 0x00F => some (true, { x with ien := v &&& 7 })
  | 0x010 => some (false, { x with ipend := x.ipend &&& ~~~(v &&& 6) })
  | 0x011 => some (true, { x with alarm := v, ipend := x.ipend &&& ~~~1#64 })
  | 0x013 => some (false, { x with tr := { x.tr with xpc0 := v } })
  | 0x014 => some (false, { x with tr := { x.tr with xpc1 := v } })
  | 0x015 => some (false, { x with tr := { x.tr with xpc2 := v } })
  | 0x016 => some (true, { x with loops := x.loops.set 0 { x.loops[0] with lc := v &&& 0xFFFFFFFF } })
  | 0x017 => some (true, { x with loops := x.loops.set 1 { x.loops[1] with lc := v &&& 0xFFFFFFFF } })
  | 0x018 => some (true, { x with loops := x.loops.set 2 { x.loops[2] with lc := v &&& 0xFFFFFFFF } })
  | 0x019 => some (true, { x with loops := x.loops.set 0 { x.loops[0] with ls := v &&& 0xFFFFFFFFFFFF } })
  | 0x01A => some (true, { x with loops := x.loops.set 1 { x.loops[1] with ls := v &&& 0xFFFFFFFFFFFF } })
  | 0x01B => some (true, { x with loops := x.loops.set 2 { x.loops[2] with ls := v &&& 0xFFFFFFFFFFFF } })
  | 0x01C => some (true, { x with loops := x.loops.set 0 { x.loops[0] with le := v &&& 0xFFFFFFFFFFFF } })
  | 0x01D => some (true, { x with loops := x.loops.set 1 { x.loops[1] with le := v &&& 0xFFFFFFFFFFFF } })
  | 0x01E => some (true, { x with loops := x.loops.set 2 { x.loops[2] with le := v &&& 0xFFFFFFFFFFFF } })
  | _ => none

/-- Registers that user mode may only read (R99). -/
def userReadOnly : List Nat :=
  [0x000, 0x002, 0x003, 0x004, 0x005, 0x008, 0x009, 0x00A, 0x00B, 0x00C, 0x00D, 0x00E, 0x010, 0x012, 0x013, 0x014, 0x015]

/-- MISC of a control record (R113): p1 to p7, PRIV, PPRIV, NMODE, NFLAGS, IEN, IPEND, EVPEND and PKAB, with IPEND as a read finds
it (R104). -/
def miscWord (now : Word) (x : Ctx) : Word :=
  let ipend := x.ipend ||| (if x.alarm ≠ 0 ∧ 0 ≤ (now - x.alarm).toInt then 1 else 0)
  BitVec.ofNat 64 (((List.range 7).map fun i => if (x.p.toList.getD (i + 1) ⟨false, false⟩).val then 2 ^ i else 0).sum +
    2 ^ 8 * x.tr.priv.toNat + 2 ^ 10 * x.tr.ppriv.toNat + 2 ^ 16 * (x.nmode.toNat % 16) + 2 ^ 20 * (x.nflags.toNat % 256) +
    2 ^ 28 * (x.ien.toNat % 8) + 2 ^ 32 * (ipend.toNat % 8) + 2 ^ 36 * (x.evpend.toNat % 64) + (if x.tr.pkab then 2 ^ 42 else 0))

/-- The 36 words of a context's record: g1 to g15, e0 to e7, the stop triple, the loops, MISC, TCAUSE, TVAL and ALARM (R111, R113,
R115). -/
def recordWord (s : State) (c : CoreId) (n : CtxId) (i : Nat) : PWord :=
  let x := s.ctx c n
  let (p, a, b) := s.triple c n
  let x1 := saved p a
  if i < 15 then x.g.toList.getD (i + 1) PWord.zero
  else if i < 23 then x.e.toList.getD (i - 15) PWord.zero
  else ⟨([p, x1, saved x1 b] ++
    x.loops.toList.flatMap (fun l => [BitVec.ofNat 64 (l.ls.toNat % 2 ^ 48 + l.lc.toNat % 2 ^ 16 * 2 ^ 48),
      BitVec.ofNat 64 (l.le.toNat % 2 ^ 48 + l.lc.toNat / 2 ^ 16 % 2 ^ 16 * 2 ^ 48)]) ++
    [miscWord (s.now c) x, x.tr.tcause, x.tr.tval, x.alarm]).getD (i - 23) 0, false⟩

/-- Bytes of a local-store window from its address. -/
def lsBase : Nat := 0xFFFFFFFFE000

end Sys2Proof.Spec

/-- R103: a trap of a user-mode context of a compute core whose task has a trap vector: XPC0 to XPC2, PPRIV, PRIV, TCAUSE,
TVAL and PKAB are written, an open packet is dropped, fetch goes to TVEC, and nothing else of the machine changes. That fetch goes to
the even address below an odd TVEC is the model's choice (log 69). -/
def Sys2Proof.Spec.trapEntry : Prop :=
  ∀ (s : State) (c : CoreId) (n : CtxId) (cause value p : Word) (a b : Option Word),
    c ≠ mgmtCore → (s.ctx c n).tr.priv = 0 → (s.core c).bind.tvec ≠ 0 → s.triple c n = (p, a, b) →
      ∃ y, s.takeTrap c n cause value = s.setCtx c n y ∧ Spec.keeps (s.ctx c n) y ∧
        y.tr = ⟨1, 0, (s.ctx c n).packet.isSome, cause, value, p, Spec.saved p a, Spec.saved (Spec.saved p a) b⟩ ∧
        y.packet = none ∧ y.st = .ready ∧ y.pc = (s.core c).bind.tvec &&& ~~~1#64 ∧ y.npc = none ∧ y.nnpc = none

/-- R103, R106, R157, R235 and R412: a trap in supervisor mode, or of a task without a trap vector, stops every live context of the
core, drops their packets, frees at once every pooled register and lane of the task and removes its waiting claims, returns the core's
lease and hands the task to the task engine with the cause and the value. -/
def Sys2Proof.Spec.trapEscalates : Prop :=
  ∀ (s : State) (c : CoreId) (n : CtxId) (cause value : Word),
    c ≠ mgmtCore → ((s.ctx c n).tr.priv ≠ 0 ∨ (s.core c).bind.tvec = 0) →
      let t := s.takeTrap c n cause value
      let gone := fun (x : Ctx) => { x with count := 0, v := Vector.replicate 16 ⟨0, 0⟩, lanes := ⟨0, 0, false, 0, 0⟩ }
      (t.core c).stop = some (.fail cause value) ∧ (t.core c).lease = 0 ∧ t.hbm = s.hbm ∧ (t.core c).ls = (s.core c).ls ∧
      (∀ m, (s.ctx c m).live = true → (t.ctx c m).st = .stopped ∧ (t.ctx c m).packet = none ∧
        Spec.keeps (gone (s.ctx c m)) (t.ctx c m)) ∧
      (∀ m, (s.ctx c m).live = false → t.ctx c m = gone (s.ctx c m)) ∧ (t.core c).poolQ = [] ∧
      (∀ q ∈ (t.octet (octetOf c)).laneQ, q.core ≠ c) ∧
      ∀ r tk, (s.core c).bind.task = some r → s.taskAt r = some tk → t.taskAt r = some { tk with phase := .failing c cause value }

/-- R416: a fault of the management core enters machine mode when MIE is set; otherwise fetch stops and BOOTST.ERR is 7. That fetch
goes to the even address below an odd MVEC is the model's choice (log 75). -/
def Sys2Proof.Spec.machineEntry : Prop :=
  ∀ (s : State) (n : CtxId) (cause value p : Word) (a b : Option Word), s.triple mgmtCore n = (p, a, b) →
    let t := s.takeTrap mgmtCore n cause value
    if s.mgmt.mie then
      t.mgmt = { s.mgmt with mxpc0 := p, mxpc1 := Spec.saved p a, mxpc2 := Spec.saved (Spec.saved p a) b, mcause := cause,
                             mtval := value, mpp := (s.ctx mgmtCore n).tr.priv, mie := false } ∧
      (t.ctx mgmtCore n).tr = { (s.ctx mgmtCore n).tr with priv := 3 } ∧
      (t.ctx mgmtCore n).pc = s.mgmt.mvec &&& ~~~1#64 ∧ Spec.keeps (s.ctx mgmtCore n) (t.ctx mgmtCore n)
    else t.mgmt.dead = true ∧ t.spine.err = 7 ∧ t.cores = s.cores

/-- R105: TRAP traps with cause software trap and its code, and does not retire. -/
def Sys2Proof.Spec.trapInstruction : Prop :=
  ∀ (s : State) (code : BitVec 8),
    exec (.trap code) s = .next (s.takeTrap s.cur.core s.cur.ctx 0x0D (BitVec.ofNat 64 code.toNat))

/-- R105: RETT in supervisor mode restores the triple from XPC0 to XPC2, with bit 0 of XPC1 and XPC2 as the mark of an
unresolved entry, and the mode from PPRIV; nothing else of the context changes. In machine mode it restores MXPC0 to MXPC2,
the mode of MPPRIV, and sets MIE (R416). -/
def Sys2Proof.Spec.returnFromTrap : Prop :=
  ∀ (s : State),
    (s.priv = 1 → s.me.tr.xpc0.getLsbD 0 = false → (s.me.tr.ppriv = 0 ∨ s.me.tr.ppriv = 1) →
      ∃ t, exec .rett s = .next t ∧ Spec.keeps s.me t.me ∧ t.me.tr = { s.me.tr with priv := s.me.tr.ppriv } ∧
        t.me.pc = s.me.tr.xpc0 ∧ t.me.npc = (if s.me.tr.xpc1.getLsbD 0 then none else some s.me.tr.xpc1) ∧
        t.me.nnpc = (if s.me.tr.xpc2.getLsbD 0 then none else some s.me.tr.xpc2) ∧ t.mgmt = s.mgmt) ∧
    (s.cur.core = mgmtCore → s.priv = 3 → s.mgmt.mxpc0.getLsbD 0 = false → s.mgmt.mpp ≠ 2 →
      ∃ t, exec .rett s = .next t ∧ Spec.keeps s.me t.me ∧ t.me.tr = { s.me.tr with priv := s.mgmt.mpp } ∧
        t.me.pc = s.mgmt.mxpc0 ∧ t.mgmt = { s.mgmt with mie := true })

/-- R98: RETT, CTXSAVE and CTXLOAD in user mode trap with cause privilege and the instruction word. -/
def Sys2Proof.Spec.privilegedInUserMode : Prop :=
  ∀ (i : Instr) (s : State),
    (i = .rett ∨ (∃ d n, i = .ctxsave d n) ∨ (∃ d r n, i = .ctxload d r n)) → s.priv = 0 →
      exec i s = .next (s.takeTrap s.cur.core s.cur.ctx 0x04 i.tval)

/-- R99 and R100: MFS writes the special register's value to g[d] and retires: of TSTAT when no timed access of the context
is out, of NFLAGS when neither unit works for it (R72, R172); a management register in machine mode. -/
def Sys2Proof.Spec.mfsReads : Prop :=
  ∀ (s : State) (d : Reg) (sr : BitVec 12) (v : Word),
    (Spec.special s sr.toNat = some v → (sr = 0x001 → s.timedOut = false) → (sr = 0x007 → s.flagsOut = false) →
      exec (.mfs d sr) s = .next (s.setG d ⟨v, false⟩).retire) ∧
    (Spec.mgmtSpecial s sr.toNat = some v → s.cur.core = mgmtCore → s.priv = 3 →
      exec (.mfs d sr) s = .next (s.setG d ⟨v, false⟩).retire)

/-- R101: CTXST holds the context's number, modes and PKAB, and a bit of LIVE and of ENDED for each context. -/
def Sys2Proof.Spec.ctxstReads : Prop :=
  ∀ (s : State) (d : Reg), ∃ v, exec (.mfs d 0x002) s = .next (s.setG d ⟨v, false⟩).retire ∧
    v.extractLsb' 0 4 = BitVec.ofNat 4 s.cur.ctx.val ∧ v.extractLsb' 10 2 = s.me.tr.priv ∧
    v.extractLsb' 12 2 = s.me.tr.ppriv ∧ v.getLsbD 15 = s.me.tr.pkab ∧
    ∀ n : CtxId, (v.getLsbD (18 + n.val) = true ↔ (s.myCore.ctx n).st = .ready ∨ (s.myCore.ctx n).st = .waiting ∨
        (s.myCore.ctx n).st = .stopped) ∧
      (v.getLsbD (29 + n.val) = true ↔ (s.myCore.ctx n).st = .ended)

/-- R99, R100 and R415: MFS of the registers that are computed from several fields: VLGRANT (R233), POOLST (R156), and on the
management core in machine mode MSTAT and MIPEND, whose reserved bits read as zero. -/
def Sys2Proof.Spec.computedRegistersRead : Prop :=
  ∀ (s : State) (d : Reg),
    (∃ v : Word, exec (.mfs d 0x009) s = .next (s.setG d ⟨v, false⟩).retire ∧
      let l := s.me.lanes
      let w := if s.cur.core = mgmtCore then 0 else (s.octet (octetOf s.cur.core)).laneQ.length
      (l.g ≤ 16 → l.q ≤ 16 → w ≤ 88 → v.toNat = l.g + 2 ^ 8 * l.q + (if l.shrink then 2 ^ 16 else 0) + 2 ^ 32 * w)) ∧
    ((∀ m, (s.myCore.ctx m).count ≤ 32) → s.myCore.low ≤ 32 → s.myCore.poolQ.length ≤ 11 →
      let k := s.myCore
      exec (.mfs d 0x00A) s = .next (s.setG d ⟨BitVec.ofNat 64 (k.poolFree + 2 ^ 8 * k.low + 2 ^ 16 * s.me.count +
        2 ^ 32 * k.poolQ.length + 2 ^ 36 * (match k.poolQ with | [] => 15 | e :: _ => e.1.val) +
        2 ^ 45 * ((List.range 11).map fun m => if k.poolQ.any (fun e => e.1.val == m) then 2 ^ m else 0).sum), false⟩).retire) ∧
    (s.cur.core = mgmtCore → s.priv = 3 →
      exec (.mfs d 0x100) s = .next (s.setG d ⟨BitVec.ofNat 64 ((if s.mgmt.mie then 1 else 0) + 4 * s.mgmt.mpp.toNat), false⟩).retire ∧
      ∃ v : Word, exec (.mfs d 0x108) s = .next (s.setG d ⟨v, false⟩).retire ∧ v.toNat < 32 ∧
        (v.getLsbD 0 = true ↔ s.mgmt.alerts ≠ []) ∧ (v.getLsbD 1 = true ↔ ∃ e ∈ s.links, e.2.rekey = true) ∧
        (v.getLsbD 2 = true ↔ s.spine.evq ≠ []) ∧ v.getLsbD 3 = s.mgmt.host ∧
        (v.getLsbD 4 = true ↔ s.me.alarm ≠ 0 ∧ 0 ≤ (s.myNow - s.me.alarm).toInt))

/-- R415: MTS on the management core in machine mode writes the management register's writable fields and retires; a one written to
bit 3 of MIPEND clears it. -/
def Sys2Proof.Spec.mgmtRegistersWritten : Prop :=
  ∀ (s : State) (d : Reg), s.cur.core = mgmtCore → s.priv = 3 → (s.gReg d).poison = false →
    let v := (s.gReg d).val
    let m := s.mgmt
    let writes := fun (sr : BitVec 12) (n : Mgmt) => exec (.mts d sr) s = .next (State.retire { s with mgmt := n })
    writes 0x100 { m with mie := v.getLsbD 0, mpp := v.extractLsb' 2 2 } ∧
    writes 0x101 { m with mcause := v &&& 0x80000000000000FF } ∧ writes 0x102 { m with mtval := v } ∧
    writes 0x103 { m with mvec := v } ∧ writes 0x104 { m with mxpc0 := v } ∧ writes 0x105 { m with mxpc1 := v } ∧
    writes 0x106 { m with mxpc2 := v } ∧ writes 0x107 { m with mien := v &&& 0x1F } ∧
    writes 0x108 { m with host := if v.getLsbD 3 then false else m.host }

/-- R99 and R100: MTS of a clean g[d] to a register that the mode may write stores its writable fields and retires; a loop
register takes its new value once the loop-back at that retire has been tested (R139). TVEC belongs to the task. -/
def Sys2Proof.Spec.mtsWrites : Prop :=
  ∀ (s : State) (d : Reg) (sr : BitVec 12) (u : Bool) (y : Ctx), (s.gReg d).poison = false →
    (Spec.written s.me (s.gReg d).val sr.toNat = some (u, y) → (u = true ∨ s.priv ≠ 0) → (sr = 0x007 → s.flagsOut = false) →
      sr.toNat < 0x016 ∨ 0x01E < sr.toNat → exec (.mts d sr) s = .next (s.setMe y).retire) ∧
    (Spec.written s.retire.me (s.gReg d).val sr.toNat = some (u, y) → 0x016 ≤ sr.toNat → sr.toNat ≤ 0x01E →
      exec (.mts d sr) s = .next (s.retire.setMe y)) ∧
    (s.priv ≠ 0 → exec (.mts d 0x005) s =
      .next (s.modMyCore fun k => { k with bind := { k.bind with tvec := (s.gReg d).val } }).retire)

/-- R99: an MTS to a register that is read-only in user mode traps there with cause privilege and its number; a poisoned
g[d] traps with cause poison consumption and d (R100). -/
def Sys2Proof.Spec.mtsTraps : Prop :=
  ∀ (s : State) (d : Reg) (sr : BitVec 12),
    (s.priv = 0 → sr.toNat ∈ Spec.userReadOnly →
      exec (.mts d sr) s = .next (s.takeTrap s.cur.core s.cur.ctx 0x04 (BitVec.ofNat 64 sr.toNat))) ∧
    (s.priv ≠ 0 → (s.gReg d).poison = true → sr.toNat ∉ [0x000, 0x008, 0x009, 0x00A, 0x00B, 0x00C, 0x00D, 0x00E, 0x012] →
      sr.toNat < 0x1F → exec (.mts d sr) s = .next (s.takeTrap s.cur.core s.cur.ctx 0x08 (BitVec.ofNat 64 d.val)))

/-- R99: on a compute core, MFS and MTS of a number above 0x1E raise the illegal-instruction trap. -/
def Sys2Proof.Spec.absentRegisterIllegal : Prop :=
  ∀ (s : State) (d : Reg) (sr : BitVec 12), s.cur.core ≠ mgmtCore → 0x1F ≤ sr.toNat →
    exec (.mfs d sr) s = .next (s.takeTrap s.cur.core s.cur.ctx 0x01 (Instr.tval (.mfs d sr))) ∧
    exec (.mts d sr) s = .next (s.takeTrap s.cur.core s.cur.ctx 0x01 (Instr.tval (.mts d sr)))

/-- R116: HALT on the management core in machine mode stops fetch; on a compute core it is an illegal instruction. That it stops fetch
in the other modes of the management core too is the model's choice (log 69). -/
def Sys2Proof.Spec.haltStops : Prop :=
  ∀ (s : State),
    (s.cur.core = mgmtCore → exec .halt s = .next { s.retire with mgmt := { s.mgmt with halted := true } }) ∧
    (s.cur.core ≠ mgmtCore → exec .halt s = .next (s.takeTrap s.cur.core s.cur.ctx 0x01 (Instr.tval .halt)))

/-- R92: START in context 0 makes the lowest FREE context a READY helper at its label with its number and argument, and
writes the number to g[d]; with no context FREE it writes 0. In another context it traps. -/
def Sys2Proof.Spec.startMakesHelper : Prop :=
  ∀ (s : State) (d : Reg) (imm : BitVec 17),
    (∀ n : CtxId, s.cur.ctx = 0 → (s.gReg d).poison = false → n ≠ 0 → (s.myCore.ctx n).st = .free →
      (∀ m : CtxId, m ≠ 0 → m < n → (s.myCore.ctx m).st ≠ .free) →
      ∃ h : Ctx, exec (.start d imm) s = .next ((s.modMyCore fun k => k.setCtx n h).setG d ⟨BitVec.ofNat 64 n.val, false⟩).retire ∧
        h.st = .ready ∧ h.pc = BitVec.ofInt 64 (s.me.pc.toInt + 2 * imm.toInt) ∧ h.npc = none ∧ h.nnpc = none ∧
        h.getG 1 = ⟨BitVec.ofNat 64 n.val, false⟩ ∧ h.getG 2 = s.gReg d ∧ (∀ r : Reg, 3 ≤ r.val → h.getG r = ⟨0, false⟩) ∧
        (∀ r : EReg, h.getE r = ⟨0, false⟩) ∧ (∀ r : PReg, r ≠ 0 → h.getP r = ⟨false, false⟩) ∧ h.nmode = s.me.nmode ∧
        h.nflags = 0 ∧ h.tr.priv = 0 ∧ h.ien = 0 ∧ h.ipend = 0 ∧ h.alarm = 0 ∧ h.evpend = 0 ∧
        h.loops = Vector.replicate 3 ⟨0, 0, 0⟩ ∧ h.count = 0) ∧
    (s.cur.ctx = 0 → (∀ m : CtxId, m ≠ 0 → (s.myCore.ctx m).st ≠ .free) →
      exec (.start d imm) s = .next (s.setG d ⟨0, false⟩).retire) ∧
    (s.cur.ctx ≠ 0 → exec (.start d imm) s = .next (s.takeTrap s.cur.core s.cur.ctx 0x0C 1))

/-- R93: JOIN, in both sizes, of a helper that has ENDED ORs its NFLAGS into the context's own, frees it and retires; of a
FREE one it only retires; of a live one it waits. -/
def Sys2Proof.Spec.joinReaps : Prop :=
  ∀ (i : Instr) (s : State) (r : Reg) (n : CtxId),
    (i = .join r ∨ i = .joinS r) → s.cur.ctx = 0 → n ≠ 0 → s.gReg r = ⟨BitVec.ofNat 64 n.val, false⟩ →
      ((s.myCore.ctx n).st = .free → exec i s = .next s.retire) ∧
      ((s.myCore.ctx n).st = .ended → Spec.noClaims s → ∃ t, exec i s = .next t ∧ (t.myCore.ctx n).st = .free ∧
        t.me.nflags = s.me.nflags ||| (s.myCore.ctx n).nflags ∧ t.me.g = s.me.g ∧ t.me.p = s.me.p ∧ t.me.e = s.me.e) ∧
      ((s.myCore.ctx n).live = true → s.me.packet = none →
        exec i s = .next (s.setMe { s.me with st := .waiting, wait := some i }))

/-- R94: EXIT, in both sizes, of a helper with nothing poisoned and nothing out gives back its registers and lanes, ends it
and sets EVPEND.HEXIT of context 0. -/
def Sys2Proof.Spec.helperExits : Prop :=
  ∀ (i : Instr) (s : State), (i = .exit ∨ i = .exitS) → s.cur.core ≠ mgmtCore → s.cur.ctx ≠ 0 → s.me.packet = none →
    s.me.pend = [] → Spec.quiet s → Spec.noClaims s →
    (∀ r : Reg, r ≠ 0 → (s.gReg r).poison = false) → (∀ r : EReg, (s.eReg r).poison = false) →
    (∀ r : PReg, r ≠ 0 → (s.pReg r).poison = false) → (∀ r : Fin 16, r.val < s.me.count → s.me.v[r].poison = 0) →
      ∃ t, exec i s = .next t ∧ t.me.st = .ended ∧ t.me.count = 0 ∧ t.me.lanes = ⟨0, 0, false, 0, 0⟩ ∧
        (t.myCore.ctx 0).evpend = (s.myCore.ctx 0).evpend ||| 1 ∧ t.hbm = s.hbm

/-- R94: EXIT, in both sizes, of context 0 without live helpers and with nothing poisoned frees every context of the core,
their registers and lanes, and the task retires. -/
def Sys2Proof.Spec.taskExits : Prop :=
  ∀ (i : Instr) (s : State) (ref : TaskRef) (tk : Task), (i = .exit ∨ i = .exitS) → s.cur.core ≠ mgmtCore → s.cur.ctx = 0 →
    s.me.packet = none → s.me.pend = [] → Spec.quiet s → Spec.noClaims s →
    (∀ n : CtxId, n ≠ 0 → (s.myCore.ctx n).live = false) →
    (∀ r : Reg, r ≠ 0 → (s.gReg r).poison = false) → (∀ r : EReg, (s.eReg r).poison = false) →
    (∀ r : PReg, r ≠ 0 → (s.pReg r).poison = false) → (∀ r : Fin 16, r.val < s.me.count → s.me.v[r].poison = 0) →
    s.myCore.bind.task = some ref → s.taskAt ref = some tk →
      ∃ t, exec i s = .next t ∧ (∀ n, (t.ctx s.cur.core n).st = .free ∧ (t.ctx s.cur.core n).count = 0) ∧
        t.taskAt ref = some { tk with phase := .retiring s.cur.core } ∧ t.hbm = s.hbm

/-- R94: EXIT between PKO and PKS traps with reason 5; of context 0 with a live helper, with reason 4. -/
def Sys2Proof.Spec.exitTraps : Prop :=
  ∀ (i : Instr) (s : State), (i = .exit ∨ i = .exitS) →
    (s.me.packet ≠ none → exec i s = .next (s.takeTrap s.cur.core s.cur.ctx 0x0C 5)) ∧
    (s.me.packet = none → s.cur.ctx = 0 → (∃ n : CtxId, n ≠ 0 ∧ (s.myCore.ctx n).live = true) →
      exec i s = .next (s.takeTrap s.cur.core s.cur.ctx 0x0C 4))

/-- R95 and R96: SLEEP of zero cycles yields; of more it waits for at most 1,048,575 cycles of the core's own clock, here in the whole
ticks that they fill at its operating point (log 10, the model's choice). WAITEV with a latched event of its mask writes the events to
g[d], clears them and retires. -/
def Sys2Proof.Spec.sleepAndWaitev : Prop :=
  ∀ (s : State) (d : Reg) (mask : BitVec 6), (s.gReg d).poison = false →
    ((s.gReg d).val = 0 → ∃ ns, exec (.sleep d) s = .next (s.setMe { s.me with yield := ns }).retire) ∧
    ((s.gReg d).val ≠ 0 → s.me.packet = none →
      let n := min (s.gReg d).val.toNat 1048575
      let ticks := if s.cur.core = mgmtCore then 0 else Spec.cycleTicks s.myCore.point n
      exec (.sleep d) s = .next (s.setMe { s.me with st := .waiting, wait := some (.sleep d), due := s.time + BitVec.ofNat 64 ticks })) ∧
    (let m := s.me.evpend &&& BitVec.ofNat 64 mask.toNat
     m ≠ 0 → exec (.waitev d mask) s =
       .next ((s.setMe { s.me with evpend := s.me.evpend &&& ~~~m }).setG d ⟨m, false⟩).retire)

/-- R153: CLAIM of a count above 0 that fits, with no claim waiting and no use of its registers out, gives back what the
context holds, binds that many registers, zero and clean, writes the count given back to g[d] and retires. -/
def Sys2Proof.Spec.claimBinds : Prop :=
  ∀ (s : State) (d a : Reg) (q : Pred) (n : Nat), Spec.runs (.claim d a q) s → Spec.quiet s → Spec.noClaims s →
    s.gReg a = ⟨BitVec.ofNat 64 n, false⟩ → 1 ≤ n → n ≤ 32 →
    n ≤ (s.myCore.setCtx s.cur.ctx { s.me with count := 0 }).poolFree →
      ∃ t, exec (.claim d a q) s = .next t ∧ t.me.count = n ∧ t.me.v = Vector.replicate 16 ⟨0, 0⟩ ∧
        t.me.g = (s.setG d ⟨BitVec.ofNat 64 s.me.count, false⟩).me.g ∧ t.me.p = s.me.p ∧ t.me.e = s.me.e ∧ t.hbm = s.hbm

/-- R153: a CLAIM above 32 traps with cause pool claim too large and the count. -/
def Sys2Proof.Spec.claimTooLarge : Prop :=
  ∀ (s : State) (d a : Reg) (q : Pred), Spec.runs (.claim d a q) s → (s.gReg a).poison = false → 32 < (s.gReg a).val.toNat →
    exec (.claim d a q) s = .next (s.takeTrap s.cur.core s.cur.ctx 0x12 (s.gReg a).val)

/-- R154: GIVE, in both sizes, has the effect of CLAIM with n = 0, but for its write of g[d]; it waits as CLAIM does for the pending
uses of the context's registers, and "GIVE by a context that holds nothing retires at once with no effect". -/
def Obligations.GiveReturns : Prop :=
  ∀ (i : Instr) (s : State), (i = .giveS ∨ ∃ q, i = .give q ∧ Spec.runs i s) →
    (s.me.count = 0 → exec i s = .next s.retire) ∧
    (s.me.count ≠ 0 → s.poolBusy = false →
      ∃ u : State, exec i s = .next u.retire ∧
        ∀ (d a : Reg) (q : Pred), Spec.runs (.claim d a q) s → s.gReg a = ⟨0, false⟩ →
          exec (.claim d a q) s = .next (u.setG d ⟨BitVec.ofNat 64 s.me.count, false⟩).retire) ∧
    (s.me.count ≠ 0 → s.poolBusy = true → s.me.packet = none →
      exec i s = .next (s.setMe { s.me with st := .waiting, wait := some i }) ∧
        ∀ (d a : Reg) (q : Pred), Spec.runs (.claim d a q) s → s.gReg a = ⟨0, false⟩ →
          exec (.claim d a q) s = .next (s.setMe { s.me with st := .waiting, wait := some (.claim d a q) })) ∧
    (s.me.count ≠ 0 → Spec.quiet s → s.myCore.poolQ = [] →
      exec i s = .next (s.setMe { s.me with count := 0, v := Vector.replicate 16 ⟨0, 0⟩ }).retire)

/-- R155 and R156: PQUERY writes POOLST, with HELD of the named context. -/
def Sys2Proof.Spec.poolQuery : Prop :=
  ∀ (s : State) (d a : Reg) (q : Pred), Spec.runs (.pquery d a q) s → (s.gReg a).poison = false →
    (∀ m, (s.myCore.ctx m).count ≤ 32) → s.myCore.low ≤ 32 → s.myCore.poolQ.length ≤ 11 →
      let k := s.myCore
      let n := (s.gReg a).val.toNat % 16
      let v : Word := BitVec.ofNat 64 (k.poolFree + 2 ^ 8 * k.low +
        2 ^ 16 * (if h : n < 11 then (k.ctx ⟨n, h⟩).count else 0) + 2 ^ 32 * k.poolQ.length +
        2 ^ 36 * (match k.poolQ with | [] => 15 | e :: _ => e.1.val) +
        2 ^ 45 * ((List.range 11).map fun m => if k.poolQ.any (fun e => e.1.val == m) then 2 ^ m else 0).sum)
      exec (.pquery d a q) s = .next (s.setG d ⟨v, false⟩).retire

/-- R113 and R115: CTXSAVE in supervisor mode of a STOPPED context to the core's own local store writes its record there, all of its 36
words, and retires; no byte outside the record changes. -/
def Sys2Proof.Spec.ctxsaveStores : Prop :=
  ∀ (s : State) (d : Reg) (n : BitVec 4) (m : CtxId) (off : Nat), s.priv = 1 → Spec.quiet s → m.val = n.toNat → m ≠ s.cur.ctx →
    (s.myCore.ctx m).st = .stopped → s.myCore.ls.wf = true → s.gReg d = ⟨BitVec.ofNat 64 (Spec.lsBase + off), false⟩ → off % 64 = 0 → off + 288 ≤ 8192 →
      ∃ t, exec (.ctxsave d n) s = .next t ∧
        (∀ i, i < 36 → (t.core s.cur.core).ls.read (off + 8 * i) 8 = Spec.recordWord s s.cur.core m i) ∧
        (∀ a, a < off ∨ off + 288 ≤ a → (t.core s.cur.core).ls.byte a = (s.core s.cur.core).ls.byte a) ∧
        (∀ c, c ≠ s.cur.core → (t.core c).ls = (s.core c).ls) ∧ t.hbm = s.hbm ∧ t.me.g = s.me.g ∧ t.me.e = s.me.e

/-- R115: CTXLOAD in supervisor mode of a record in the core's own local store into a STOPPED or FREE context: its g and e
registers and its triple are those of the record, it holds no pooled register, and it is READY under .RUN, else STOPPED. That words 23
to 25 are taken by value also when they are poisoned (log 69), and that bit 0 of word 23, a fetch address, is dropped (log 75), is the
model's choice. -/
def Sys2Proof.Spec.ctxloadLoads : Prop :=
  ∀ (s : State) (d : Reg) (run : Bool) (n : BitVec 4) (m : CtxId) (off : Nat), s.priv = 1 → Spec.quiet s → Spec.noClaims s →
    m.val = n.toNat → m ≠ s.cur.ctx → ((s.myCore.ctx m).st = .stopped ∨ (s.myCore.ctx m).st = .free) →
    s.gReg d = ⟨BitVec.ofNat 64 (Spec.lsBase + off), false⟩ → off % 64 = 0 → off + 288 ≤ 8192 →
      let w := fun i => s.myCore.ls.read (off + 8 * i) 8
      ∃ t, exec (.ctxload d run n) s = .next t ∧
        (∀ r : Reg, r ≠ 0 → (t.ctx s.cur.core m).getG r = w (r.val - 1)) ∧
        (∀ r : EReg, (t.ctx s.cur.core m).getE r = w (15 + r.val)) ∧
        (t.ctx s.cur.core m).pc = (w 23).val &&& ~~~1#64 ∧
        (t.ctx s.cur.core m).npc = (if (w 24).val.getLsbD 0 then none else some (w 24).val) ∧
        (t.ctx s.cur.core m).nnpc = (if (w 25).val.getLsbD 0 then none else some (w 25).val) ∧
        (t.ctx s.cur.core m).count = 0 ∧ (t.ctx s.cur.core m).st = (if run then .ready else .stopped) ∧
        (∀ c, (t.core c).ls = (s.core c).ls) ∧ t.hbm = s.hbm

/-- What taking a trap saves, changes and where it goes, on compute cores and on the management core. Each part says its rules. -/
def Obligations.TrapsEnter : Prop :=
  Spec.trapEntry ∧ Spec.trapEscalates ∧ Spec.machineEntry

/-- TRAP, RETT and the privilege trap. Each part says its rules. -/
def Obligations.TrapsReturn : Prop :=
  Spec.trapInstruction ∧ Spec.returnFromTrap ∧ Spec.privilegedInUserMode

/-- MFS and MTS of every special register. Each part says its rules. -/
def Obligations.SpecialRegisters : Prop :=
  Spec.mfsReads ∧ Spec.ctxstReads ∧ Spec.computedRegistersRead ∧ Spec.mgmtRegistersWritten ∧ Spec.mtsWrites ∧ Spec.mtsTraps ∧ Spec.absentRegisterIllegal

/-- EXIT of a helper and of context 0, and where it traps. Each part says its rules. -/
def Obligations.Exits : Prop :=
  Spec.helperExits ∧ Spec.taskExits ∧ Spec.exitTraps

/-- HALT, START, JOIN, SLEEP and WAITEV. Each part says its rules. -/
def Obligations.HelpersAndWaits : Prop :=
  Spec.haltStops ∧ Spec.startMakesHelper ∧ Spec.joinReaps ∧ Spec.sleepAndWaitev

/-- CLAIM and PQUERY. Each part says its rules. -/
def Obligations.PoolClaims : Prop :=
  Spec.claimBinds ∧ Spec.claimTooLarge ∧ Spec.poolQuery

/-- CTXSAVE writes the record of a context, CTXLOAD reads one. Each part says its rules. -/
def Obligations.ContextRecords : Prop :=
  Spec.ctxsaveStores ∧ Spec.ctxloadLoads

/-! ### Memory: the local store, extension registers, timed access, atomics, banks and lines (02 R53 to R56, 07, 08) -/

namespace Sys2Proof.Spec

/-- `n` bytes of a memory from `a`, little-endian (R189, R193). -/
def bytes (m : Memory) (a n : Nat) : Nat := ((List.range n).map fun i => (m.byte (a + i)).toNat * 256 ^ i).sum

/-- An address of the executing core's own local store that its mode may use, aligned for `n` bytes: its offset (R185 to
R188). -/
def ownLs (s : State) (addr : Word) (n off : Nat) : Prop :=
  addr = BitVec.ofNat 64 (lsBase + off) ∧ off % n = 0 ∧ off + n ≤ 8192 ∧ (s.priv = 0 → off + n ≤ 6144)

/-- The cluster of the executing core caches and accumulates nothing. -/
def emptyCluster (s : State) : Prop :=
  s.myCluster.acc = [] ∧ s.myCluster.merges = [] ∧ s.myCluster.lines = [] ∧ s.myCluster.wbs = []

/-- A scalar load: its register, base, displacement in bytes, width, whether it sign-extends, order and scope (R54, R192, R48). -/
structure LoadForm where
  dst : RegName
  base : Reg
  disp : Int
  n : Nat
  signed : Bool
  acq : Option Scope

def scopeOf (o : LOrder) (sc : Scope) : Option Scope := match o with | .plain => none | .acq => some sc
def relOf (o : SOrder) (sc : Scope) : Option Scope := match o with | .plain => none | .rel => some sc

def loadForm : Instr → Option LoadForm
  | .ldb d b sc o imm => some ⟨.g d, b, imm.toInt, 1, true, scopeOf o sc⟩
  | .ldbu d b sc o imm => some ⟨.g d, b, imm.toInt, 1, false, scopeOf o sc⟩
  | .ldh d b sc o imm => some ⟨.g d, b, 2 * imm.toInt, 2, true, scopeOf o sc⟩
  | .ldhu d b sc o imm => some ⟨.g d, b, 2 * imm.toInt, 2, false, scopeOf o sc⟩
  | .ldw d b sc o imm => some ⟨.g d, b, 4 * imm.toInt, 4, true, scopeOf o sc⟩
  | .ldwu d b sc o imm => some ⟨.g d, b, 4 * imm.toInt, 4, false, scopeOf o sc⟩
  | .ldd d b sc o imm => some ⟨.g d, b, 8 * imm.toInt, 8, false, scopeOf o sc⟩
  | .ldwS d b k => some ⟨.g d, b, 4 * k.toNat, 4, true, none⟩
  | .ldwuS d b k => some ⟨.g d, b, 4 * k.toNat, 4, false, none⟩
  | .lddS d b k => some ⟨.g d, b, 8 * k.toNat, 8, false, none⟩
  | .xld e a imm => some ⟨.e e, a, 8 * imm.toInt, 8, false, none⟩
  | _ => none

/-- A scalar store: its value, base, displacement, width and release (R55, R192, R48). -/
structure StoreForm where
  val : PWord
  base : Reg
  disp : Int
  n : Nat
  rel : Option Scope

def storeForm (i : Instr) (s : State) : Option StoreForm :=
  match i with
  | .stb r b sc o imm => some ⟨s.gReg r, b, imm.toInt, 1, relOf o sc⟩
  | .sth r b sc o imm => some ⟨s.gReg r, b, 2 * imm.toInt, 2, relOf o sc⟩
  | .stw r b sc o imm => some ⟨s.gReg r, b, 4 * imm.toInt, 4, relOf o sc⟩
  | .std r b sc o imm => some ⟨s.gReg r, b, 8 * imm.toInt, 8, relOf o sc⟩
  | .stwS r b k => some ⟨s.gReg r, b, 4 * k.toNat, 4, none⟩
  | .stdS r b k => some ⟨s.gReg r, b, 8 * k.toNat, 8, none⟩
  | .xst e a imm => some ⟨s.eReg e, a, 8 * imm.toInt, 8, none⟩
  | _ => none

/-- Base plus displacement. -/
def address (s : State) (base : Reg) (disp : Int) : Word := BitVec.ofInt 64 ((s.gReg base).val.toInt + disp)

/-- `x` of `n` bytes, sign-extended or zero-extended. -/
def extended (n : Nat) (signed : Bool) (x : Nat) : Word :=
  if signed ∧ 2 ^ (8 * n - 1) ≤ x then BitVec.ofInt 64 (x - 2 ^ (8 * n)) else BitVec.ofNat 64 x

/-- A returning atomic: destination, base, operand register, release and acquire, width, and the new word that it makes of the
old word and the operand, each of n bytes (R205). -/
structure AmoForm where
  d : Reg
  base : Reg
  src : Reg
  rel : Bool
  acq : Bool
  n : Nat
  signed : Bool
  new : Nat → Nat → Nat

/-- The integer that `n` bytes stand for as signed. -/
def signedOf (n x : Nat) : Int := if 2 ^ (8 * n - 1) ≤ x then x - 2 ^ (8 * n) else x

def amoForm (i : Instr) (s : State) : Option AmoForm :=
  let rel := fun (o : AOrder) => match o with | .plain | .acq => false | .rel | .ar => true
  let acq := fun (o : AOrder) => match o with | .plain | .rel => false | .acq | .ar => true
  let w := fun (b : Bool) => if b then 4 else 8
  match i with
  | .amoAdd d b _ o r w32 => some ⟨d, b, r, rel o, acq o, w w32, true, fun x y => (x + y) % 2 ^ (8 * w w32)⟩
  | .amoAnd d b _ o r w32 => some ⟨d, b, r, rel o, acq o, w w32, true, fun x y => Nat.land x y⟩
  | .amoOr d b _ o r w32 => some ⟨d, b, r, rel o, acq o, w w32, true, fun x y => Nat.lor x y⟩
  | .amoXor d b _ o r w32 => some ⟨d, b, r, rel o, acq o, w w32, true, fun x y => Nat.xor x y⟩
  | .amoMin d b _ o r w32 => some ⟨d, b, r, rel o, acq o, w w32, true, fun x y => if signedOf (w w32) x ≤ signedOf (w w32) y then x else y⟩
  | .amoMax d b _ o r w32 => some ⟨d, b, r, rel o, acq o, w w32, true, fun x y => if signedOf (w w32) x ≤ signedOf (w w32) y then y else x⟩
  | .amoMinu d b _ o r w32 => some ⟨d, b, r, rel o, acq o, w w32, false, fun x y => min x y⟩
  | .amoMaxu d b _ o r w32 => some ⟨d, b, r, rel o, acq o, w w32, false, fun x y => max x y⟩
  | .amoSwap d b _ o r w32 => some ⟨d, b, r, rel o, acq o, w w32, true, fun _ y => y⟩
  | .cas d b _ o r w32 =>
    some ⟨d, b, r, rel o, acq o, w w32, true, fun x y => if x = (s.gReg d).val.toNat % 2 ^ (8 * w w32) then y else x⟩
  | _ => none

/-- An accumulating atomic: base, operand register, release, width, and its combination (R209). -/
structure AccForm where
  base : Reg
  src : Reg
  rel : Bool
  n : Nat
  new : Nat → Nat → Nat

def accForm (i : Instr) : Option AccForm :=
  let rel := fun (o : SOrder) => match o with | .plain => false | .rel => true
  let w := fun (b : Bool) => if b then 4 else 8
  match i with
  | .accAdd b _ o r w32 => some ⟨b, r, rel o, w w32, fun x y => (x + y) % 2 ^ (8 * w w32)⟩
  | .accMin b _ o r w32 => some ⟨b, r, rel o, w w32, fun x y => if signedOf (w w32) x ≤ signedOf (w w32) y then x else y⟩
  | .accMax b _ o r w32 => some ⟨b, r, rel o, w w32, fun x y => if signedOf (w w32) x ≤ signedOf (w w32) y then y else x⟩
  | .accOr b _ o r w32 => some ⟨b, r, rel o, w w32, fun x y => Nat.lor x y⟩
  | .accFadd32 b _ o r => some ⟨b, r, rel o, 4, fun x y => (combineF (BitVec.ofNat 32 x) (BitVec.ofNat 32 y)).toNat⟩
  | .accLadd32 b _ o r => some ⟨b, r, rel o, 4, fun x y => (combineL (BitVec.ofNat 32 x) (BitVec.ofNat 32 y)).toNat⟩
  | _ => none

/-- A memory after `n` bytes of number `x` are stored at `off`, where the unit's poison becomes `bad`: the stored bytes,
every other byte, and the poison of every unit. -/
def stored (old new : Memory) (off n x : Nat) (bad : Bool) : Prop :=
  (∀ j, j < n → new.byte (off + j) = BitVec.ofNat 8 (x / 256 ^ j)) ∧
  (∀ a, a < off ∨ off + n ≤ a → new.byte a = old.byte a) ∧
  ∀ a, new.bad a = if a / 8 = off / 8 then bad else old.bad a

/-- What byte `a` of a local store keeps of `b`: SAVEMAP bits 63:11 and the last 16 bytes are reserved and read as zero (R111, R30). -/
def lsKeeps (a : Nat) (b : Byte) : Byte := if a = 0x1FE9 then b &&& 7 else if 0x1FEA ≤ a ∧ a < 0x2000 then 0 else b

/-- The same of a local store, whose reserved bits no store sets: one that reaches SAVEMAP or the bytes above it leaves them all
zero. -/
def lsStored (old new : Memory) (off n x : Nat) (bad : Bool) : Prop :=
  let keep := fun (a : Nat) (b : Byte) => if off + n ≤ 0x1FE8 then b else lsKeeps a b
  (∀ j, j < n → new.byte (off + j) = keep (off + j) (BitVec.ofNat 8 (x / 256 ^ j))) ∧
  (∀ a, a < off ∨ off + n ≤ a → new.byte a = keep a (old.byte a)) ∧
  ∀ a, new.bad a = if 0x1FE8 < off + n ∧ 0x1FF0 / 8 ≤ a / 8 ∧ a / 8 < 0x2000 / 8 then false
    else if a / 8 = off / 8 then bad else old.bad a

/-- Everything that an access to the own local store leaves alone: other cores' local stores, the memory of the device and
the other registers of the context. -/
def elsewhere (s t : State) : Prop :=
  (∀ c, c ≠ s.cur.core → (t.core c).ls = (s.core c).ls) ∧ t.hbm = s.hbm ∧ t.clusters = s.clusters ∧ t.me.p = s.me.p ∧
    t.me.e = s.me.e ∧ t.me.v = s.me.v ∧ t.me.nflags = s.me.nflags ∧ t.me.tr = s.me.tr

end Sys2Proof.Spec

/-- R193 and R54: a load, in every width and size and into a g or e register, of an aligned address of the core's own local
store writes the bytes there, little-endian and extended, with the poison of their unit, acts as its acquire says, and
retires. -/
def Sys2Proof.Spec.loadsOwnStore : Prop :=
  ∀ (i : Instr) (s : State) (f : Spec.LoadForm) (off : Nat),
    Spec.loadForm i = some f → (s.gReg f.base).poison = false → Spec.ownLs s (Spec.address s f.base f.disp) f.n off →
    Spec.quiet s →
      exec i s = .next ((s.modMe (·.setReg f.dst
        ⟨Spec.extended f.n f.signed (Spec.bytes s.myCore.ls off f.n), s.myCore.ls.bad off⟩)).acquired f.acq).retire

/-- R193, R107 and R188: "if IsPoison(g[base]) then g[d] := Poison(0); done", and a clean address that is not a multiple of
the width traps with cause misaligned access and the address. -/
def Sys2Proof.Spec.loadBadAddress : Prop :=
  ∀ (i : Instr) (s : State) (f : Spec.LoadForm), Spec.loadForm i = some f →
    ((s.gReg f.base).poison = true → exec i s = .next (s.modMe (·.setReg f.dst ⟨0, true⟩)).retire) ∧
    ((s.gReg f.base).poison = false → (Spec.address s f.base f.disp).toNat % f.n ≠ 0 →
      exec i s = .next (s.takeTrap s.cur.core s.cur.ctx 0x05 (Spec.address s f.base f.disp)))

/-- R186: a load that cannot be performed gives its register Poison(0) and retires; a store traps with cause translation
fault for a hole and rights fault where the mode or the kind of access is not allowed. A page walk on the way counts the view units that
it got poisoned (R400), and changes nothing else. -/
def Sys2Proof.Spec.fatesOfAccesses : Prop :=
  ∀ (i : Instr) (s : State) (addr : Word) (n : Nat), addr.toNat % n = 0 → s.myCore.work.loads = [] → s.myCore.work.vecs = [] →
    let w := s.walked s.cur.core s.myCore.bind.tenant addr
    w = { s with regions := w.regions } ∧
    (∀ f, Spec.loadForm i = some f → f.n = n → (s.gReg f.base).poison = false → Spec.address s f.base f.disp = addr →
      (s.reach .load n addr = .transFault ∨ s.reach .load n addr = .rightsFault) →
        exec i s = .next ((w.modMe (·.setReg f.dst ⟨0, true⟩)).acquired f.acq).retire) ∧
    (∀ f, Spec.storeForm i s = some f → f.n = n → (s.gReg f.base).poison = false → Spec.address s f.base f.disp = addr →
      (s.reach .store n addr = .transFault → exec i s = .next (w.takeTrap s.cur.core s.cur.ctx 0x06 addr)) ∧
      (s.reach .store n addr = .rightsFault → exec i s = .next (s.takeTrap s.cur.core s.cur.ctx 0x07 addr)))

/-- R185 and R187: an address of 2^48 or more, or an unmapped one below the windows, reaches nothing; a user-mode access to
the top 2 KiB of the local store is a rights fault. -/
def Sys2Proof.Spec.addressMap : Prop :=
  ∀ (s : State) (a : Acc) (n : Nat) (addr : Word), s.cur.core < mgmtCore →
    (2 ^ 48 ≤ addr.toNat → s.reach a n addr = .transFault) ∧
    (addr.toNat < 0xFF0000000000 → s.leafOn s.cur.core s.myCore.bind.tenant addr.toNat = none → s.reach a n addr = .transFault) ∧
    (∀ off, addr = BitVec.ofNat 64 (Spec.lsBase + off) → off < 8192 →
      s.reach a n addr = if s.priv = 0 ∧ 6144 ≤ off then .rightsFault else .place (.ls s.cur.core off))

/-- R193, R55, R107, R189 and R111: a store, in every width and size, to an aligned address of the core's own local store puts the
low bytes of its register there, little-endian, with the poison rule of R189, changes nothing else, and retires; poisoned
data traps after it has retired. Under .REL nothing of the cluster is left to release. -/
def Sys2Proof.Spec.storesOwnStore : Prop :=
  ∀ (i : Instr) (s : State) (f : Spec.StoreForm) (off : Nat),
    Spec.storeForm i s = some f → (s.gReg f.base).poison = false → Spec.ownLs s (Spec.address s f.base f.disp) f.n off →
    Spec.quiet s → s.myCore.ls.wf = true → (f.rel = none ∨ Spec.emptyCluster s) →
      ∃ m, Spec.lsStored s.myCore.ls m off f.n f.val.val.toNat (f.val.poison || (f.n != 8 && s.myCore.ls.bad off)) ∧
        let t := (s.modMyCore fun k => { k with ls := m }).retire
        exec i s = .next (if f.val.poison then t.takeTrap s.cur.core s.cur.ctx 0x09 (Spec.address s f.base f.disp) else t)

/-- R193 and R107: a store of a poisoned address traps with cause poison control and the base register's number; a misaligned
one with cause misaligned access and the address. -/
def Sys2Proof.Spec.storeBadAddress : Prop :=
  ∀ (i : Instr) (s : State) (f : Spec.StoreForm), Spec.storeForm i s = some f →
    ((s.gReg f.base).poison = true → exec i s = .next (s.takeTrap s.cur.core s.cur.ctx 0x0A (BitVec.ofNat 64 f.base.val))) ∧
    ((s.gReg f.base).poison = false → (Spec.address s f.base f.disp).toNat % f.n ≠ 0 →
      exec i s = .next (s.takeTrap s.cur.core s.cur.ctx 0x05 (Spec.address s f.base f.disp)))

/-- R53 and R56: XSET, XSET.SH and XMOV write their register and retire; poison is kept or copied. -/
def Sys2Proof.Spec.extensionRegisters : Prop :=
  ∀ (s : State) (e : EReg) (r : Reg) (imm : BitVec 15),
    exec (.xset e imm) s = .next (s.setE e ⟨BitVec.ofInt 64 imm.toInt, false⟩).retire ∧
    exec (.xsetSh e imm) s =
      .next (s.setE e ⟨BitVec.ofNat 64 ((s.eReg e).val.toNat * 2 ^ 15 + imm.toNat), (s.eReg e).poison⟩).retire ∧
    exec (.xmovEg e r) s = .next (s.setE e (s.gReg r)).retire ∧ exec (.xmovS e r) s = .next (s.setE e (s.gReg r)).retire ∧
    exec (.xmovGe r e) s = .next (s.setG r (s.eReg e)).retire

/-- R205 and R206: AMO and CAS of a clean operand at an aligned address of the core's own local store write the new word of
the table there and the old word, extended, to g[d], and retire. -/
def Sys2Proof.Spec.atomicsOwnStore : Prop :=
  ∀ (i : Instr) (s : State) (f : Spec.AmoForm) (off : Nat),
    Spec.amoForm i s = some f → (s.gReg f.base).poison = false → (s.gReg f.src).poison = false → (s.gReg f.d).poison = false →
    Spec.ownLs s (s.gReg f.base).val f.n off → Spec.quiet s → s.myCore.ls.wf = true → Spec.emptyCluster s →
      let old := Spec.bytes s.myCore.ls off f.n
      let bad := s.myCore.ls.bad off
      ∃ t, exec i s = .next t ∧
        Spec.lsStored s.myCore.ls t.myCore.ls off f.n (f.new old ((s.gReg f.src).val.toNat % 2 ^ (8 * f.n))) bad ∧
        (∀ r, t.gReg r = (s.setG f.d ⟨Spec.extended f.n (f.signed && f.n == 4) old, bad⟩).gReg r) ∧
        (∀ c, c ≠ s.cur.core → (t.core c).ls = (s.core c).ls) ∧ t.hbm = s.hbm ∧ t.me.p = s.me.p ∧ t.me.e = s.me.e

/-- R209 and R210: ACC of a clean operand at an aligned address of the core's own local store combines the word there with
its operand, and retires. It writes no register. -/
def Sys2Proof.Spec.accumulateOwnStore : Prop :=
  ∀ (i : Instr) (s : State) (f : Spec.AccForm) (off : Nat),
    Spec.accForm i = some f → (s.gReg f.base).poison = false → (s.gReg f.src).poison = false →
    Spec.ownLs s (s.gReg f.base).val f.n off → Spec.quiet s → s.myCore.ls.wf = true → (f.rel = false ∨ Spec.emptyCluster s) →
      ∃ t, exec i s = .next t ∧ Spec.elsewhere s t ∧ (∀ r, t.gReg r = s.gReg r) ∧
        Spec.lsStored s.myCore.ls t.myCore.ls off f.n
          (f.new (Spec.bytes s.myCore.ls off f.n) ((s.gReg f.src).val.toNat % 2 ^ (8 * f.n))) (s.myCore.ls.bad off)

/-- R209, R210 and R212: ACC to a word of HBM goes to the cluster's accumulation buffer: with the buffer empty, it holds one
entry with the operand and the contributor, and no memory changes. AFLUSH with nothing of its core in the buffer retires. -/
def Sys2Proof.Spec.accumulateToBuffer : Prop :=
  ∀ (s : State) (base src : Reg) (sc : Scope) (pa : Nat) (timed : Bool), s.cur.core < mgmtCore → Spec.quiet s →
    Spec.emptyCluster s →
    ((s.gReg base).poison = false → (s.gReg src).poison = false → (s.gReg base).val.toNat % 8 = 0 →
      s.reach .accum 8 (s.gReg base).val = .place (.phys pa timed) → s.specTask s.cur.core = none →
        ∃ t, exec (.accAdd base sc .plain src false) s = .next t ∧ t.hbm = s.hbm ∧ (∀ r, t.gReg r = s.gReg r) ∧
          ∃ e, t.myCluster.acc = [e] ∧ e.place = .phys pa timed ∧ e.op = .add ∧ e.n = 8 ∧ e.val = s.gReg src ∧
            e.mask = BitVec.ofNat 16 (2 ^ (s.cur.core % 16))) ∧
    exec .aflush s = .next s.retire

/-- R169 and R170: TST and TLD of a word of HBM within the horizon leave for its home, by the store port and the load list,
with the instant of e[n], relative to TBASE unless .ABS; TLD's register waits for the reply. -/
def Sys2Proof.Spec.timedAccessesLeave : Prop :=
  ∀ (s : State) (r base : Reg) (sc : Scope) (e : EReg) (isAbs : Bool) (pa : Nat) (timed : Bool),
    Spec.quiet s → (s.eReg e).poison = false → (s.gReg base).poison = false → (s.gReg base).val.toNat % 8 = 0 →
    let at_ := if isAbs then (s.eReg e).val else (s.eReg e).val + s.myCore.bind.tbase
    (at_ - s.myNow).toInt ≤ 65536 →
      (s.reach .store 8 (s.gReg base).val = .place (.phys pa timed) → (s.gReg r).poison = false →
        ∃ t, exec (.tst r base sc .plain e isAbs) s = .next t ∧ t.hbm = s.hbm ∧ (∀ x, t.gReg x = s.gReg x) ∧
          ∃ p, t.myCore.work.port = [p] ∧ p.place = .phys pa timed ∧ p.n = 8 ∧ p.val = s.gReg r ∧ p.kind = .timed at_ ∧
            p.ctx = s.cur.ctx) ∧
      (s.reach .load 8 (s.gReg base).val = .place (.phys pa timed) →
        ∃ t, exec (.tld r base sc .plain e isAbs) s = .next t ∧ t.hbm = s.hbm ∧ (∀ x, t.gReg x = s.gReg x) ∧
          ∃ l, t.myCore.work.loads = [l] ∧ l.place = .phys pa timed ∧ l.n = 8 ∧ l.dst = .g r ∧ l.kind = .timed at_ ∧
            l.ctx = s.cur.ctx ∧ (r ≠ 0 → (RegName.g r, l.id) ∈ t.me.pend))

/-- R169 and R170: an instant more than 65,536 ticks ahead of the time base is a horizon fault of TST and of TLD. -/
def Sys2Proof.Spec.horizonFault : Prop :=
  ∀ (s : State) (r base : Reg) (sc : Scope) (e : EReg), (s.eReg e).poison = false → (s.gReg base).poison = false →
    (s.gReg base).val.toNat % 8 = 0 → 65536 < ((s.eReg e).val - s.myNow).toInt →
      exec (.tst r base sc .plain e true) s = .next (s.takeTrap s.cur.core s.cur.ctx 0x0E (s.eReg e).val) ∧
      exec (.tld r base sc .plain e true) s = .next (s.takeTrap s.cur.core s.cur.ctx 0x0E (s.eReg e).val)

/-- R196, R198 and R199: BANKMODE of clean registers, with no other core draining the bank, answers the old mode in g[d]: it
changes nothing for a value above 2 or the same mode; otherwise, with no line pinned and nothing on its way to the bank, the
bank takes the new mode. A FIFO bank at which an access waits is a rights fault. -/
def Sys2Proof.Spec.bankmodeSwitches : Prop :=
  ∀ (s : State) (d a b : Reg) (q : Pred), s.cur.core < mgmtCore → Spec.runs (.bankmode d a b q) s → Spec.quiet s →
    (s.gReg a).poison = false → (s.gReg b).poison = false →
    let bk := (s.gReg a).val.toNat % 16
    let cl := clusterOf s.cur.core
    let old := (s.cluster cl).mode bk
    let code : Nat := match old with | .cache => 0 | .scratch => 1 | .fifo => 2
    let new := (s.gReg b).val.toNat
    ((2 < new ∨ new = code) → exec (.bankmode d a b q) s = .next (s.setG d ⟨BitVec.ofNat 64 code, false⟩).retire) ∧
    (new ≤ 2 → new ≠ code → old = .fifo → (s.fifo cl bk).waiters ≠ [] →
      exec (.bankmode d a b q) s = .next (s.takeTrap s.cur.core s.cur.ctx 0x07 (BitVec.ofNat 64 (0xFFFFFFF00000 + bk * 0x1000)))) ∧
    (new ≤ 2 → new ≠ code → (s.cluster cl).lines = [] → (s.cluster cl).wbs = [] → (s.fifo cl bk).waiters = [] →
      (∀ h : Fin 8, (s.octet (2 * cl)).chans[h].cur = none ∧ (s.octet (2 * cl + 1)).chans[h].cur = none) →
      (∀ e ∈ s.cores, e.2.work.rq = []) → s.bankInUse cl bk = false → (old = .fifo → s.fabric = []) →
        ∃ t, exec (.bankmode d a b q) s = .next t ∧
          (t.cluster cl).mode bk = (match new with | 0 => BankMode.cache | 1 => .scratch | _ => .fifo) ∧
          (∀ o, o ≠ bk → (t.cluster cl).mode o = (s.cluster cl).mode o) ∧ t.hbm = s.hbm ∧
          t.me.g = (s.setG d ⟨BitVec.ofNat 64 code, false⟩).me.g)

/-- BANKMODE on the management core, which has no bank: each reads as a bank in cache mode, and a change of its mode is a rights
fault. The model's choice (log 59). -/
def Sys2Proof.Spec.bankmodeOnManagement : Prop :=
  ∀ (s : State) (d a b : Reg) (q : Pred), s.cur.core = mgmtCore → Spec.runs (.bankmode d a b q) s → (s.gReg a).poison = false →
    (s.gReg b).poison = false →
    let new := (s.gReg b).val.toNat
    ((new = 0 ∨ 2 < new) → exec (.bankmode d a b q) s = .next (s.setG d ⟨0, false⟩).retire) ∧
    (new = 1 ∨ new = 2 → exec (.bankmode d a b q) s = .next (s.takeTrap s.cur.core s.cur.ctx 0x07
      (BitVec.ofNat 64 (0xFFFFFFF00000 + (s.gReg a).val.toNat % 16 * 0x1000))))

/-- R202 and R203: for an address that cannot be cached LINEWB, LINEINV and UNPIN only retire, and PIN writes 0. -/
def Sys2Proof.Spec.linesNotCached : Prop :=
  ∀ (s : State) (d a : Reg) (q : Pred), (s.gReg a).poison = false → (∀ r, s.lineFor (s.gReg a).val r = none) →
    (Spec.runs (.linewb a q) s → exec (.linewb a q) s = .next s.retire ∧ exec (.lineinv a q) s = .next s.retire ∧
      exec (.unpin a q) s = .next s.retire ∧ exec (.pin d a q) s = .next (s.setG d ⟨0, false⟩).retire)

/-- R202 and R203, for a line that the cluster holds: after LINEWB it is clean, after LINEINV it is gone, after UNPIN it has no
pin; PIN pins it and writes 1 unless that would leave its set without an unpinned way, and then it writes 0. -/
def Sys2Proof.Spec.linesMaintained : Prop :=
  ∀ (s : State) (d a : Reg) (q : Pred) (l : Nat) (timed : Bool) (x : Line), s.cur.core < mgmtCore → Spec.quiet s →
    (s.gReg a).poison = false → Spec.runs (.linewb a q) s →
    (∀ r, s.lineFor (s.gReg a).val r = some (0, l, timed)) → s.myCluster.findLine 0 l = some x →
      (∃ t, exec (.linewb a q) s = .next t ∧ t.me.g = s.me.g ∧ ∀ y ∈ t.myCluster.lines, y.isFor 0 l = true → y.dirty = 0) ∧
      (∃ t, exec (.lineinv a q) s = .next t ∧ t.me.g = s.me.g ∧ ∀ y ∈ t.myCluster.lines, y.isFor 0 l = false) ∧
      (∃ t, exec (.unpin a q) s = .next t ∧ t.me.g = s.me.g ∧ ∀ y ∈ t.myCluster.lines, y.isFor 0 l = true → y.pin = none) ∧
      (let room := x.pin.isSome ∨
          (s.myCluster.lines.filter fun y => y.line % 64 == l % 64 && y.pin.isSome).length + 1 < s.myCluster.ways
       ∃ t, exec (.pin d a q) s = .next t ∧
         (room → t.me.g = (s.setG d ⟨1, false⟩).me.g ∧ ∃ y, t.myCluster.findLine 0 l = some y ∧ y.pin.isSome = true) ∧
         (¬ room → t.me.g = (s.setG d ⟨0, false⟩).me.g ∧ t.myCluster.lines = s.myCluster.lines))

/-- Loads and stores of every width in the own local store. Each part says its rules. -/
def Obligations.OwnStoreAccesses : Prop :=
  Spec.loadsOwnStore ∧ Spec.storesOwnStore

/-- Where addresses lead, and what becomes of an access that may not be made. Each part says its rules. -/
def Obligations.AddressesAndFates : Prop :=
  Spec.loadBadAddress ∧ Spec.fatesOfAccesses ∧ Spec.addressMap ∧ Spec.storeBadAddress

/-- g0 and p0 are hard-wired; XSET, XSET.SH and XMOV write the extension registers. Each part says its rules. -/
def Obligations.RegisterFiles : Prop :=
  Spec.hardwiredRegisters ∧ Spec.extensionRegisters

/-- Atomics and accumulations. Each part says its rules. -/
def Obligations.Atomics : Prop :=
  Spec.atomicsOwnStore ∧ Spec.accumulateOwnStore ∧ Spec.accumulateToBuffer

/-- TST and TLD leave for their home, and trap beyond the horizon. Each part says its rules. -/
def Obligations.TimedAccesses : Prop :=
  Spec.timedAccessesLeave ∧ Spec.horizonFault

/-- BANKMODE and the line instructions. Each part says its rules. -/
def Obligations.BanksAndLines : Prop :=
  Spec.bankmodeSwitches ∧ Spec.bankmodeOnManagement ∧ Spec.linesNotCached ∧ Spec.linesMaintained

/-! ### Time, tags, timelines, guards, packets, remote reads, leases, matrix jobs (05, 07, 11, 12, 15, 16) -/

namespace Sys2Proof.Spec

/-- Tags that are ready: set in TAGS or in TAGERR (R294). -/
def ready (s : State) : Word := s.myCore.tags ||| s.myCore.tagerr

/-- A timeline counter of the executing core (R298). -/
def counter (s : State) (c : TLCounter) : Timeline :=
  match c with
  | .tlm => s.myCore.tlm
  | .tlc => s.myCore.tlc
  | .tlf => s.myCore.tlf
  | .tlv => s.myCore.tlv

/-- Guard slot N of the executing core (R142). -/
def guardSlot (s : State) (n : BitVec 3) : GuardState := s.myCore.guards[n.toFin]

/-- A core after a command under a guard has entered a queue: a free slot becomes unresolved (R143). -/
def guarded (k : Core) (g : Guard) : Core :=
  if g.g ≠ 0 ∧ k.guards[g.g.toFin] = .free then { k with guards := k.guards.set g.g.toFin .unresolved } else k

/-- Header of a packet held (R373). -/
def header (p : RxPacket) : Word :=
  BitVec.ofNat 64 (2 ^ 63 + 2 ^ 42 * p.srcPeer.toNat + 2 ^ 22 * p.srcLcn.toNat + 2 ^ 8 * (p.slot % 16) + p.data.length / 2)

/-- A matrix job of R259: its number's register, its guard, the word copied from g[a] and the one copied from e[e] that it takes
with it. -/
structure JobForm where
  d : Reg
  guard : Guard
  arg : Word
  dsc : Word

/-- The operands that a job reads are clean, and what it takes with it (R259, R266 to R273). -/
def jobForm (i : Instr) (s : State) : Option JobForm :=
  let e := fun (x : Option EReg) => match x with | none => 0 | some r => (s.eReg r).val
  let clean := fun (x : Option EReg) => match x with | none => true | some r => !(s.eReg r).poison
  match i with
  | .mlda d a r g _ | .mldb d a r g _ =>
    if !(s.gReg a).poison && !(s.eReg r).poison then some ⟨d, g, (s.gReg a).val, (s.eReg r).val⟩ else none
  | .mmac d _ x _ _ g | .mmul d _ x _ _ g | .mmr d _ x _ _ g | .mzero d _ x g | .mscl d _ x _ g =>
    if clean x then some ⟨d, g, 0, e x⟩ else none
  | .mcfgOwn d a g | .mcfgFree d a g => if !(s.gReg a).poison then some ⟨d, g, (s.gReg a).val, 0⟩ else none
  | .mcfgQuery d g => some ⟨d, g, 0, 0⟩
  | .mrda d _ r g _ => if !(s.eReg r).poison then some ⟨d, g, 0, (s.eReg r).val⟩ else none
  | _ => none

/-- The enqueue checks of R266 that a job meets. -/
def jobChecks (i : Instr) (s : State) (f : JobForm) : Prop :=
  match i with
  | .mlda .. | .mldb .. => f.arg.toNat % 128 = 0 ∧ s.tileOk f.arg f.dsc = true ∧ f.dsc.toNat < 2 ^ 14 ∧ f.dsc.getLsbD 7 = false
  | .mmr .. => f.dsc.toNat < 2 ^ 7 ∧ s.wholeGroup s.cur.core = true
  | .mmac .. | .mmul .. | .mzero .. | .mscl .. => f.dsc.toNat < 2 ^ 7
  | .mcfgOwn .. | .mcfgFree .. => f.arg.toNat < 2 ^ 12
  | .mrda _ _ _ _ raw =>
    readRes raw f.dsc = false ∧ dscV f.dsc < 15 ∧ (raw = false → dscV f.dsc % 2 = 0) ∧ dscV f.dsc + 2 ≤ min s.me.count 16
  | _ => True

end Sys2Proof.Spec

/-- R160 to R162: TNOW writes the core's copy of the time base, less TBASE unless .ABS; its short form is TNOW. TWAITU of an
instant that has been reached only retires. -/
def Sys2Proof.Spec.timeReads : Prop :=
  ∀ (s : State) (d : Reg) (e : EReg) (isAbs : Bool),
    exec (.tnow d isAbs) s = .next (s.setG d ⟨if isAbs then s.myNow else s.myNow - s.myCore.bind.tbase, false⟩).retire ∧
    exec (.tnowS d) s = .next (s.setG d ⟨s.myNow - s.myCore.bind.tbase, false⟩).retire ∧
    ((s.eReg e).poison = false →
      0 ≤ (s.myNow - (if isAbs then (s.eReg e).val else (s.eReg e).val + s.myCore.bind.tbase)).toInt →
        exec (.twaitu e isAbs) s = .next s.retire)

/-- R294 and R296: TWANY and TWALL whose condition holds, TFFR and TCLR of a clean mask. -/
def Sys2Proof.Spec.tagInstructions : Prop :=
  ∀ (s : State) (d a : Reg), (s.gReg a).poison = false →
    let m := (s.gReg a).val
    let r := Spec.ready s &&& m
    ((r ≠ 0 ∨ m = 0) → exec (.twany d a) s = .next (s.setG d ⟨r, false⟩).retire) ∧
    (r = m → exec (.twall d a) s = .next (s.setG d ⟨s.myCore.tagerr &&& m, false⟩).retire) ∧
    (r = 0 → exec (.tffr d a) s = .next (s.setG d ⟨64, false⟩).retire) ∧
    (∀ k : Fin 64, r.getLsbD k = true → (∀ j : Fin 64, j < k → r.getLsbD j = false) →
      exec (.tffr d a) s =
        .next (s.setG d ⟨BitVec.ofNat 64 (k.val + if s.myCore.tagerr.getLsbD k then 128 else 0), false⟩).retire) ∧
    exec (.tclr a) s = .next (s.modMyCore fun k => { k with tags := k.tags &&& ~~~m, tagerr := k.tagerr &&& ~~~m }).retire

/-- R296 and R299: TWANY, TWALL and TLWAIT whose condition does not hold wait, with the register unwritten. -/
def Sys2Proof.Spec.tagWaits : Prop :=
  ∀ (s : State) (d a : Reg) (c : TLCounter), (s.gReg a).poison = false → s.me.packet = none →
    let m := (s.gReg a).val
    let waits := fun (i : Instr) => exec i s = .next (s.setMe { s.me with st := .waiting, wait := some i })
    (Spec.ready s &&& m = 0 → m ≠ 0 → waits (.twany d a)) ∧ (Spec.ready s &&& m ≠ m → waits (.twall d a)) ∧
    ((Spec.counter s c).cnt.toNat < m.toNat → waits (.tlwait a c) ∧ waits (.tlwaitS a c))

/-- R298 and R299: TLREAD writes CNT, or ISSUED; TLWAIT, in both sizes, of a count that has been reached retires. -/
def Sys2Proof.Spec.timelineInstructions : Prop :=
  ∀ (s : State) (d a : Reg) (iss : Bool) (c : TLCounter),
    exec (.tlread d iss c) s = .next (s.setG d ⟨if iss then (Spec.counter s c).issued else (Spec.counter s c).cnt, false⟩).retire ∧
    ((s.gReg a).poison = false → (s.gReg a).val.toNat ≤ (Spec.counter s c).cnt.toNat →
      exec (.tlwait a c) s = .next s.retire ∧ exec (.tlwaitS a c) s = .next s.retire)

/-- R144: GSET of a slot that is free or unresolved sets it to p[a] XOR gp; a resolved slot traps with cause guard misuse and
its number, and a poisoned predicate with cause poison control. -/
def Sys2Proof.Spec.gsetResolves : Prop :=
  ∀ (s : State) (a : PReg) (n : BitVec 3) (neg : Bool),
    ((s.pReg a).poison = true →
      exec (.gset a n neg) s = .next (s.takeTrap s.cur.core s.cur.ctx 0x0A (BitVec.ofNat 64 a.val))) ∧
    ((s.pReg a).poison = false → (Spec.guardSlot s n = .isTrue ∨ Spec.guardSlot s n = .isFalse) →
      exec (.gset a n neg) s = .next (s.takeTrap s.cur.core s.cur.ctx 0x11 (BitVec.ofNat 64 n.toNat))) ∧
    ((s.pReg a).poison = false → (Spec.guardSlot s n = .free ∨ Spec.guardSlot s n = .unresolved) →
      let v : GuardState := if (s.pReg a).val ^^ neg then .isTrue else .isFalse
      exec (.gset a n neg) s = .next (s.modMyCore fun k => { k with guards := k.guards.set n.toFin v }).retire)

/-- R145: GCLR with no command pending on the slot writes its state to g[d] and frees it; with one pending it traps. -/
def Sys2Proof.Spec.gclrFrees : Prop :=
  ∀ (s : State) (d : Reg) (n : BitVec 3),
    (s.pendingOn s.cur.core n = 0 → exec (.gclr d n) s =
      .next ((s.modMyCore fun k => { k with guards := k.guards.set n.toFin .free }).setG d
        ⟨match Spec.guardSlot s n with | .unresolved => 0 | .isTrue => 1 | .isFalse => 2 | .free => 3, false⟩).retire) ∧
    (s.pendingOn s.cur.core n ≠ 0 → exec (.gclr d n) s =
      .next (s.takeTrap s.cur.core s.cur.ctx 0x11 (BitVec.ofNat 64 n.toNat)))

/-- R376: PKO of clean operands, with no packet open and a peer the tenant may send to, opens a packet; PKA appends 1 to 8 flits
from the injection window; PKS sends a packet of at least one flit and sets p1, or clears it with the send buffer full. -/
def Sys2Proof.Spec.packetsBuilt : Prop :=
  ∀ (s : State) (a : Reg) (e : EReg) (w : Bool) (nm1 : BitVec 3) (p : OpenPacket), s.cur.core < mgmtCore →
    (s.me.packet = none → (s.gReg a).poison = false → (s.eReg e).poison = false →
      (s.eReg e).val.toNat / 2 ^ 7 % 2 ^ 23 = 0 → (w = false → (s.eReg e).val.toNat % 2 ^ 7 = 0) →
      s.peerOk ((s.eReg e).val.extractLsb' 48 16) = true → (w = true → (s.gReg a).val.toNat % 16 = 0) →
        let open_ : OpenPacket := ⟨(s.eReg e).val, if w then some (s.gReg a).val else none, [], s.me.pc, 0⟩
        exec (.pko a e w) s = .next (s.setMe { s.me with packet := some open_ }).retire) ∧
    (∀ off, s.me.packet = some p → s.gReg a = ⟨BitVec.ofNat 64 (0xFFFFFFFFD000 + off), false⟩ → off % 16 = 0 →
      off + 16 * (nm1.toNat + 1) ≤ 512 → p.flits.length + 2 * (nm1.toNat + 1) ≤ 16 →
        let new := (List.range (2 * (nm1.toNat + 1))).map fun k => s.myCore.inj.read (off + 8 * k) 8
        exec (.pka a nm1) s = .next (s.setMe { s.me with packet := some { p with flits := p.flits ++ new } }).retire) ∧
    (s.me.packet = some p → p.flits ≠ [] →
      (s.myCore.work.send.length < 8 → ∃ t, exec .pks s = .next t ∧ t.me.packet = none ∧ t.pReg 1 = ⟨true, false⟩ ∧
        t.myCore.work.send = s.myCore.work.send ++ [⟨s.myCore.lcn, s.myCore.bind.tenant, p.dest, p.window, p.flits, s.myCore.bind.task⟩]) ∧
      (8 ≤ s.myCore.work.send.length → exec .pks s = .next (s.setP 1 ⟨false, false⟩).retire))

/-- R376: PKO with a packet open, PKA and PKS with none, a PKA past 8 flits and a PKS of none trap with cause packet hold and the
address of the PKO, or 0. -/
def Sys2Proof.Spec.packetHoldTraps : Prop :=
  ∀ (s : State) (a : Reg) (e : EReg) (w : Bool) (nm1 : BitVec 3), (s.gReg a).poison = false → (s.eReg e).poison = false →
    (∀ p, s.me.packet = some p → exec (.pko a e w) s = .next (s.takeTrap s.cur.core s.cur.ctx 0x0F p.pko) ∧
      (∀ off, (s.gReg a).val = BitVec.ofNat 64 (0xFFFFFFFFD000 + off) → off % 16 = 0 → off + 16 * (nm1.toNat + 1) ≤ 512 →
        16 < p.flits.length + 2 * (nm1.toNat + 1) → exec (.pka a nm1) s = .next (s.takeTrap s.cur.core s.cur.ctx 0x0F p.pko)) ∧
      (p.flits = [] → exec .pks s = .next (s.takeTrap s.cur.core s.cur.ctx 0x0F p.pko))) ∧
    (s.me.packet = none → exec (.pka a nm1) s = .next (s.takeTrap s.cur.core s.cur.ctx 0x0F 0) ∧
      exec .pks s = .next (s.takeTrap s.cur.core s.cur.ctx 0x0F 0))

/-- The instructions that may enter the WAITING state (R377). -/
def Sys2Proof.Spec.mayWait (i : Instr) : Bool :=
  match i with
  | .join _ | .joinS _ | .waitev _ _ | .sleep _ | .claim _ _ _ | .tlwait _ _ | .tlwaitS _ _ | .mjwait _ | .mjwaitS _ | .twany _ _
  | .twall _ _ | .twaitu _ _ | .rxpop _ _ | .aflush | .div _ _ _ _ | .divu _ _ _ _ | .mod _ _ _ _ | .modu _ _ _ _
  | .fdiv _ _ _ _ _ _ | .fsqrt _ _ _ _ _ | .ladd _ _ _ _ _ | .lsub _ _ _ _ _ | .lmul _ _ _ _ _ | .ldiv _ _ _ _ _
  | .lcvt _ _ _ _ _ => true
  | _ => false

/-- R377: with a packet open, an instruction that would enter the WAITING state without it traps with cause packet hold and the
address of the PKO; and so does the 65th instruction that would issue, while each before it counts. That this trap comes first, also
where the 65th instruction has a false predicate or would take another trap, is the model's choice (log 75). What issues counts its lane
operations (R404). -/
def Sys2Proof.Spec.packetHoldLimits : Prop :=
  ∀ (i : Instr) (s t : State) (p : OpenPacket), s.me.packet = some p →
    (Spec.mayWait i = true → s.me.st = .ready → exec i (s.setMe { s.me with packet := none }) = .next t → t.me.st = .waiting →
      exec i s = .next (s.takeTrap s.cur.core s.cur.ctx 0x0F p.pko)) ∧
    (i ≠ .pks → s.me.waitsFor (sources i) = false → s.spine.brake < 2 →
      (p.issued = 64 → exec i { s.setMe s.me with held := false } = .next t → t.held = false →
        issueInstr i s = (s, some (.next (s.takeTrap s.cur.core s.cur.ctx 0x0F p.pko)))) ∧
      (p.issued < 64 → exec i { s.setMe { s.me with packet := some { p with issued := p.issued + 1 } } with held := false } = .next t →
        t.held = false → issueInstr i s = (s, some (.next (t.laneWork i)))))

/-- R373, R379 and R387: RXPEEK writes the header of the oldest packet held, or 0; RXPOP writes it and removes the packet, or waits
for one; with .F they do so with the oldest fault record. -/
def Sys2Proof.Spec.receiveQueueRead : Prop :=
  ∀ (s : State) (d : Reg) (p : RxPacket) (r : List RxPacket), p.data.length ≤ 16 →
    (s.myCore.rx.held = p :: r →
      exec (.rxpeek d false) s = .next (s.setG d ⟨Spec.header p, false⟩).retire ∧
      exec (.rxpop d false) s =
        .next ((s.modMyCore fun k => { k with rx := { k.rx with held := r } }).setG d ⟨Spec.header p, false⟩).retire) ∧
    (s.myCore.rx.held = [] → exec (.rxpeek d false) s = .next (s.setG d ⟨0, false⟩).retire ∧
      (s.me.packet = none → exec (.rxpop d false) s = .next (s.setMe { s.me with st := .waiting, wait := some (.rxpop d false) }))) ∧
    exec (.rxpeek d true) s = .next (s.setG d ⟨s.myCore.faults.headD 0, false⟩).retire ∧
    exec (.rxpop d true) s =
      .next ((s.modMyCore fun k => { k with faults := k.faults.tail }).setG d ⟨s.myCore.faults.headD 0, false⟩).retire

/-- R380 to R384: with clean, aligned operands, a legal recipient word, room in the remote request queue and no acquire of the
context on its way (R360), RLD to the core's local store and FETCHTO enter the queue with the next number of TLF. -/
def Sys2Proof.Spec.remoteCommandsEnter : Prop :=
  ∀ (s : State) (d a : Reg) (e : EReg) (g : Guard) (sz : RSize) (fetchto : Bool),
    let n : Nat := match sz with | .b8 => 8 | .b16 => 16 | .b32 => 32 | .b64 => 64 | .b128 => 128 | .b256 => 256
    let rw := (s.eReg e).val
    let i : Instr := if fetchto then .fetchto d a e g sz else .rld d a e g sz
    (s.gReg a).poison = false → (s.gReg d).poison = false → (s.eReg e).poison = false → rwOk fetchto rw = true →
    (s.gReg a).val.toNat % n = 0 → (s.gReg d).val.toNat % n = 0 →
    (if fetchto then s.peerOk (rw.extractLsb' 48 16) = true
      else Spec.lsBase ≤ (s.gReg d).val.toNat ∧ (s.gReg d).val.toNat + n ≤ Spec.lsBase + 6144) →
    (∀ p, s.reach .load 8 (s.gReg a).val ≠ .peerFault p) → s.myCore.work.rq.length < 16 → s.myCore.loadsOut < 16 →
      (∀ l ∈ s.myCore.work.loads, l.ctx = s.cur.ctx → l.acq = none) → (∀ l ∈ s.myCore.work.vecs, l.ctx = s.cur.ctx → l.acq = none) →
      let k := s.myCore
      let cmd : RemoteCmd := ⟨s.seq, s.myCore.bind.task, fetchto, s.cur.ctx, (s.gReg d).val, (s.gReg a).val, rw, n, g, k.tlf.issued.toNat + 1, s.priv != 0⟩
      let tlf : Timeline := { k.tlf with issued := k.tlf.issued + 1 }
      exec i s = .next ((s.setCore s.cur.core
        { Spec.guarded k g with tlf := tlf, work := { k.work with rq := k.work.rq ++ [cmd] } }).nextSeq).retire

/-- R385: DROPWIN of a clean base and window word, both of multiples of 64 and without reserved bits, writes the old size of the
window to g[d] and opens it, or closes it with a size of 0. -/
def Sys2Proof.Spec.dropWindowSet : Prop :=
  ∀ (s : State) (d a : Reg) (e : EReg) (k : Fin 4), (s.gReg a).poison = false → (s.eReg e).poison = false →
    (s.gReg a).val.toNat % 64 = 0 → (s.eReg e).val.toNat % 64 = 0 → (s.eReg e).val.toNat / 2 ^ 32 % 2 ^ 20 = 0 →
      let w := (s.eReg e).val
      let size := w.toNat % 2 ^ 32
      let old : Nat := match s.myCore.drops[k] with | some o => o.size | none => 0
      let new : Option DropWin := if size = 0 then none else some ⟨(s.gReg a).val, size, w.extractLsb' 52 12⟩
      exec (.dropwin d a e k) s =
        .next ((s.modMyCore fun c => { c with drops := c.drops.set k new }).setG d ⟨BitVec.ofNat 64 old, false⟩).retire

/-- R410 and R411: BOOST of a clean count releases the old lease and takes a free slot for the count, at most 10,000 and rounded
up to a multiple of 10, or answers 0 with none free; BREL clears LEASE. -/
def Sys2Proof.Spec.leasesTaken : Prop :=
  ∀ (s : State) (d a : Reg) (q : Pred), s.cur.core < mgmtCore → Spec.runs (.boost d a q) s →
    exec (.brel q) s = .next (s.modMyCore fun k => { k with lease := 0 }).retire ∧
    ((s.gReg a).poison = false →
      let n := min (s.gReg a).val.toNat 10000
      let up := (n + 9) / 10 * 10
      let others := ((List.range 16).filter fun i =>
        16 * (s.cur.core / 16) + i != s.cur.core && (s.core (16 * (s.cur.core / 16) + i)).lease.getLsbD 63).length
      ∃ t, exec (.boost d a q) s = .next t ∧
        if n ≠ 0 ∧ others < (s.cluster (s.cur.core / 16)).power.bslots then
          t.myCore.lease = BitVec.ofNat 64 (2 ^ 63 + up) ∧ t.me.g = (s.setG d ⟨BitVec.ofNat 64 up, false⟩).me.g
        else t.myCore.lease = 0 ∧ t.me.g = (s.setG d ⟨0, false⟩).me.g)

/-- R143, R259, R266 and R298: a matrix job whose operands are clean and that passes its enqueue checks enters a job queue with a
free entry under the octet's next number, which g[d] takes; p1 becomes true, the guard slot is used, and TLM counts it. With
all 16 entries occupied only p1 changes. -/
def Sys2Proof.Spec.matrixJobsEnter : Prop :=
  ∀ (i : Instr) (s : State) (f : Spec.JobForm), s.cur.core < mgmtCore → Spec.jobForm i s = some f → Spec.jobChecks i s f →
    let occupied := s.myOctet.queue.length + (if s.myOctet.running.isSome then 1 else 0)
    (occupied < 16 → ∃ t j, exec i s = .next t ∧ t.myOctet.queue = s.myOctet.queue ++ [j] ∧ j.cmd = i ∧ j.arg = f.arg ∧
      j.dsc = f.dsc ∧ j.no = s.myOctet.next ∧ j.core = s.cur.core ∧ j.ctx = s.cur.ctx ∧ j.guard = f.guard ∧
      t.myOctet.next = (if s.myOctet.next = 0xFFFF then 1 else s.myOctet.next + 1) ∧
      t.me.g = (s.setG f.d ⟨BitVec.ofNat 64 s.myOctet.next.toNat, false⟩).me.g ∧ t.pReg 1 = ⟨true, false⟩ ∧
      t.myCore.tlm.issued = s.myCore.tlm.issued + 1 ∧ t.myCore.guards = (Spec.guarded s.myCore f.guard).guards ∧
      t.hbm = s.hbm) ∧
    (16 ≤ occupied → exec i s = .next (s.setP 1 ⟨false, false⟩).retire)

/-- R264 and R274: MJPOLL writes a word whose bits 63:48 are the number looked up; for a number that the ring does not hold it
reads EXPIRED and finished. MJWAIT, in both sizes, of a finished job, of an expired number or of 0 retires. -/
def Sys2Proof.Spec.jobStatusRead : Prop :=
  ∀ (s : State) (d a : Reg), (s.gReg a).poison = false →
    let n := (s.gReg a).val.extractLsb' 0 16
    (∃ v, exec (.mjpoll d a) s = .next (s.setG d ⟨v, false⟩).retire ∧
      ((∀ j ∈ s.myCore.jobs, j.no ≠ n) → v = BitVec.ofNat 64 (2 ^ 48 * n.toNat + 2 ^ 4 + 3))) ∧
    ((n = 0 ∨ (∀ j ∈ s.myCore.jobs, j.no = n → j.done = true)) →
      exec (.mjwait a) s = .next s.retire ∧ exec (.mjwaitS a) s = .next s.retire)

/-- Device time, tags, timeline counters and guard slots. Each part says its rules. -/
def Obligations.TimeTagsGuards : Prop :=
  Spec.timeReads ∧ Spec.tagInstructions ∧ Spec.tagWaits ∧ Spec.timelineInstructions ∧ Spec.gsetResolves ∧ Spec.gclrFrees

/-- PKO, PKA and PKS build packets; a packet too long, held too long, or held where an instruction waits, traps. Each part says its rules. -/
def Obligations.PacketsMade : Prop :=
  Spec.packetsBuilt ∧ Spec.packetHoldTraps ∧ Spec.packetHoldLimits

/-- RXPOP, RXPEEK, RLD, FETCHTO and DROPWIN. Each part says its rules. -/
def Obligations.FabricCommands : Prop :=
  Spec.receiveQueueRead ∧ Spec.remoteCommandsEnter ∧ Spec.dropWindowSet

/-! ### Vector lanes, vector arithmetic and vector memory (10, 09 R227) -/

namespace Sys2Proof.Spec

/-- Element `k` of a v register, and whether its 8-byte unit is poisoned (R189, R240). -/
def el (v : VReg) (k : Nat) : BitVec 32 := v.data.extractLsb' (32 * k) 32
def tainted (v : VReg) (k : Nat) : Bool := v.poison.getLsbD (k / 2)

/-- The lanes of a context allow a vector instruction that names these registers (R149, R234). -/
def lanesFor (s : State) (rs : List VRegN) : Prop := s.me.lanes.g ≠ 0 ∧ ∀ r ∈ rs, r.val < min s.me.count 16

/-- A vector instruction on registers: its destination, and the v registers it names (R242 to R247, R227). -/
def vecForm : Instr → Option (VRegN × List VRegN)
  | .vadd d a b _ _ | .vsub d a b _ _ | .vmul d a b _ _ | .vmin d a b _ _ | .vmax d a b _ _ | .vand d a b _ | .vor d a b _
  | .vxor d a b _ | .vshl d a b _ | .vshr d a b _ _ | .vfadd d a b _ _ _ | .vfsub d a b _ _ _ | .vfmul d a b _ _ _
  | .vfma d a b _ _ _ | .vfmax d a b _ _ | .vfmin d a b _ _ | .vcmp d a b _ _ | .vsel d a b _ | .vperm d a b _
  | .vladd d a b _ _ | .vlmul d a b _ _ => some (d, [d, a, b])
  | .vfabs d a _ _ | .vfneg d a _ _ | .vexp d a _ | .vlog d a _ | .vrcp d a _ | .vrsq d a _ | .vsig d a _ | .vtanh d a _
  | .vbcastE d a _ _ | .vslideUp d a _ _ | .vslideDn d a _ _ | .vrsum d a _ _ | .vrmax d a _ _ | .vcvt d a _ _ _
  | .vlcvt d a _ _ => some (d, [d, a])
  | .vbcast d _ _ => some (d, [d])
  | _ => none

/-- The source registers of an element operation, in the order of its rule: the addend of VFMA last. -/
def elemSources (i : Instr) (rs : List VRegN) : List VRegN :=
  match i with
  | .vfma d a b _ _ _ => [a, b, d]
  | _ => rs.tail
/-- The conversions that pack four results into an element (R245). -/
def packs : Instr → Bool
  | .vcvt _ _ _ k _ => k == .p8aF32 || k == .p8bF32
  | _ => false

/-- A 32-bit number as signed. -/
def sg (x : BitVec 32) : Int := x.toInt
/-- The nearest number of a range. -/
def clampTo (lo hi x : Int) : Int := if x < lo then lo else if hi < x then hi else x

/-- The element that an integer vector instruction makes of two elements (R242). -/
def vecInt : Instr → Option (VRegN × VRegN × VRegN × (BitVec 32 → BitVec 32 → BitVec 32))
  | .vadd d a b m _ => some (d, a, b, fun x y =>
    match m with
    | .wrap => BitVec.ofNat 32 (x.toNat + y.toNat)
    | .ss => BitVec.ofInt 32 (clampTo (-2147483648) 2147483647 (x.toInt + y.toInt))
    | .su => BitVec.ofInt 32 (clampTo 0 4294967295 ((x.toNat : Int) + y.toNat)))
  | .vsub d a b m _ => some (d, a, b, fun x y =>
    match m with
    | .wrap => BitVec.ofInt 32 ((x.toNat : Int) - y.toNat)
    | .ss => BitVec.ofInt 32 (clampTo (-2147483648) 2147483647 (x.toInt - y.toInt))
    | .su => BitVec.ofInt 32 (clampTo 0 4294967295 ((x.toNat : Int) - y.toNat)))
  | .vmul d a b m _ => some (d, a, b, fun x y =>
    match m with
    | .low => BitVec.ofNat 32 (x.toNat * y.toNat)
    | .h => BitVec.ofInt 32 (x.toInt * y.toInt / 2 ^ 32)
    | .hu => BitVec.ofNat 32 (x.toNat * y.toNat / 2 ^ 32))
  | .vmin d a b u _ => some (d, a, b, fun x y => if (if u then x.toNat ≤ y.toNat else x.toInt ≤ y.toInt) then x else y)
  | .vmax d a b u _ => some (d, a, b, fun x y => if (if u then x.toNat ≤ y.toNat else x.toInt ≤ y.toInt) then y else x)
  | .vand d a b _ => some (d, a, b, fun x y => x &&& y)
  | .vor d a b _ => some (d, a, b, fun x y => x ||| y)
  | .vxor d a b _ => some (d, a, b, fun x y => x ^^^ y)
  | .vshl d a b _ => some (d, a, b, fun x y => BitVec.ofNat 32 (x.toNat * 2 ^ (y.toNat % 32)))
  | .vshr d a b u _ => some (d, a, b, fun x y =>
    if u then BitVec.ofNat 32 (x.toNat / 2 ^ (y.toNat % 32)) else BitVec.ofInt 32 (x.toInt / 2 ^ (y.toNat % 32)))
  | _ => none

/-- The destination after a vector instruction that writes `vl` elements: element k is `val k`, poisoned when `bad k` is set and
then 0; the elements from `vl` on keep their values (R240, R242, R246). -/
def vecWritten (old new : VReg) (vl : Nat) (val : Nat → BitVec 32) (bad : Nat → Bool) : Prop :=
  (∀ k, k < 16 → el new k = if k < vl then (if bad k then 0 else val k) else el old k) ∧
  ∀ u, u < 8 → new.poison.getLsbD u =
    ((decide (2 * u < vl) && bad (2 * u)) || (decide (2 * u + 1 < vl) && bad (2 * u + 1)) ||
      (decide (vl < 2 * u + 2) && old.poison.getLsbD u))

/-- The state after a vector instruction has written v[d] and ORed flags into NFLAGS, before it retires. -/
def vecState (s : State) (d : VRegN) (r : VReg) (flags : Word) : State :=
  s.setMe { (s.me.unpend (.v d)) with v := s.me.v.set d r, nflags := s.me.nflags ||| flags }

/-- Element offsets of a vector access in the own local store: each element aligned, and reachable in user mode. -/
def vecOwn (s : State) (off : Nat → Nat) : Prop :=
  ∀ k, k < s.me.lanes.vl → off k % 4 = 0 ∧ off k + 4 ≤ 8192 ∧ (s.priv = 0 → off k + 4 ≤ 6144)
/-- The address at an offset of the local-store window. -/
def lsAddr (off : Nat) : Word := BitVec.ofNat 64 (lsBase + off)

/-- A vector access: its register, and the offsets of its elements, when its base, stride and index are clean and it reaches the
own local store (R248). -/
def vecLoad (i : Instr) (s : State) (off : Nat → Nat) : Option VRegN :=
  let all := fun (f : Nat → Word) => (List.range s.me.lanes.vl).all fun k => f k == lsAddr (off k)
  let b := fun (r : Reg) => (s.gReg r).val
  match i with
  | .vld d base _ _ imm =>
    if !(s.gReg base).poison && all (fun k => BitVec.ofInt 64 ((b base).toInt + 64 * imm.toInt + 4 * k)) then some d else none
  | .vlds d base _ _ gs =>
    if !(s.gReg base).poison && !(s.gReg gs).poison && all (fun k => BitVec.ofInt 64 ((b base).toInt + k * (b gs).toInt)) then some d
    else none
  | .vgath d base _ _ x =>
    if !(s.gReg base).poison && ((List.range s.me.lanes.vl).all fun k => !tainted (s.me.v[x]) k) &&
        all (fun k => BitVec.ofInt 64 ((b base).toInt + 4 * (el (s.me.v[x]) k).toInt)) then some d else none
  | _ => none
def vecStore (i : Instr) (s : State) (off : Nat → Nat) : Option VRegN :=
  let all := fun (f : Nat → Word) => (List.range s.me.lanes.vl).all fun k => f k == lsAddr (off k)
  let b := fun (r : Reg) => (s.gReg r).val
  match i with
  | .vst r base _ _ imm =>
    if !(s.gReg base).poison && all (fun k => BitVec.ofInt 64 ((b base).toInt + 64 * imm.toInt + 4 * k)) then some r else none
  | .vsts r base _ _ gs =>
    if !(s.gReg base).poison && !(s.gReg gs).poison && all (fun k => BitVec.ofInt 64 ((b base).toInt + k * (b gs).toInt)) then some r
    else none
  | .vscat r base _ _ x =>
    if !(s.gReg base).poison && ((List.range s.me.lanes.vl).all fun k => !tainted (s.me.v[x]) k) &&
        all (fun k => BitVec.ofInt 64 ((b base).toInt + 4 * (el (s.me.v[x]) k).toInt)) then some r else none
  | _ => none
/-- The index register of a gather or scatter. -/
def indexOf : Instr → List VRegN
  | .vgath _ _ _ _ x | .vscat _ _ _ _ x => [x]
  | _ => []
/-- A number of TLV is taken and complete: ISSUED counts it, and so does CNT where nothing before it is open (R298). -/
def tlvTaken (a b : Timeline) : Prop := b.issued = a.issued + 1 ∧ (a.cnt = a.issued → a.ahead = [] → b.cnt = a.issued + 1 ∧ b.ahead = [])

/-- What becomes of a byte of the own local store under a vector store: its reserved bits are zero when an element reaches
them (R111). -/
def vecKeeps (vl : Nat) (off : Nat → Nat) (a : Nat) (b : Byte) : Byte :=
  if (List.range vl).all fun k => decide (off k + 4 ≤ 0x1FE8) then b else lsKeeps a b

/-- A vector access has no order. -/
def plainOrder : Instr → Prop
  | .vld _ _ _ o _ => o = .plain
  | .vlds _ _ _ o _ => o = .plain
  | .vgath _ _ _ o _ => o = .plain
  | .vst _ _ _ o _ => o = .plain
  | .vsts _ _ _ o _ => o = .plain
  | .vscat _ _ _ o _ => o = .plain
  | _ => False

end Sys2Proof.Spec

/-- R229, R237: VCLAIM of 4, 8 or 16 lanes with no claim waiting and at least 4 free after its own are given back takes the
widest width that the request and the free lanes allow, sets GRANT, REQ and VL, clears SHRINK, writes the grant to g[d] and
retires; a request of 0 releases; another request traps. On the management core, which has no lanes, a claim of lanes waits
(log 59). -/
def Sys2Proof.Spec.vclaimGrants : Prop :=
  ∀ (s : State) (d a : Reg) (q : Pred), Spec.runs (.vclaim d a q) s → Spec.quiet s → Spec.noClaims s →
    (s.gReg a).poison = false →
    let r := (s.gReg a).val.toNat
    let s0 := s.setMe { s.me with lanes := ⟨0, 0, false, 0, 0⟩ }
    let free := s0.laneFree (octetOf s.cur.core)
    (r = 0 → exec (.vclaim d a q) s = .next (s0.setG d ⟨0, false⟩).retire) ∧
    (s.cur.core = mgmtCore → (r = 4 ∨ r = 8 ∨ r = 16) → s.me.packet = none →
      ∃ t, exec (.vclaim d a q) s = .next t ∧ t.me.st = .waiting ∧ t.me.wait = some (.vclaim d a q) ∧ t.me.lanes.g = 0) ∧
    (s.cur.core < mgmtCore → (r = 4 ∨ r = 8 ∨ r = 16) → 4 ≤ free →
      let g := if 16 ≤ r ∧ 16 ≤ free then 16 else if 8 ≤ r ∧ 8 ≤ free then 8 else 4
      exec (.vclaim d a q) s = .next ((s.setMe { s.me with lanes := ⟨g, r, false, g, 0⟩ }).setG d ⟨BitVec.ofNat 64 g, false⟩).retire) ∧
    (r ≠ 0 → r ≠ 4 → r ≠ 8 → r ≠ 16 →
      exec (.vclaim d a q) s = .next (s.takeTrap s.cur.core s.cur.ctx 0x14 2))

/-- R238: VREL, in both sizes, without a grant only retires; with one and nothing waiting it sets GRANT, REQ, SHRINK and VL to
zero. -/
def Sys2Proof.Spec.vrelReleases : Prop :=
  ∀ (i : Instr) (s : State), (i = .vrelS ∨ ∃ q, i = .vrel q ∧ Spec.runs i s) →
    (s.me.lanes.g = 0 → exec i s = .next s.retire) ∧
    (s.me.lanes.g ≠ 0 → Spec.quiet s → Spec.noClaims s →
      exec i s = .next (s.setMe { s.me with lanes := ⟨0, 0, false, 0, 0⟩ }).retire)

/-- R239: VLEN without a grant traps with cause lane rule and 1; with one it sets VL, and g[d], to the least of its count and
the grant. -/
def Sys2Proof.Spec.vlenSets : Prop :=
  ∀ (s : State) (d a : Reg) (q : Pred), Spec.runs (.vlen d a q) s → (s.gReg a).poison = false →
    (s.me.lanes.g = 0 → exec (.vlen d a q) s = .next (s.takeTrap s.cur.core s.cur.ctx 0x14 1)) ∧
    (s.me.lanes.g ≠ 0 →
      let n := min (s.gReg a).val.toNat s.me.lanes.g
      exec (.vlen d a q) s =
        .next ((s.setMe { s.me with lanes := { s.me.lanes with vl := n } }).setG d ⟨BitVec.ofNat 64 n, false⟩).retire)

/-- R234 and R149: a vector instruction on registers traps with cause lane rule: 1 without a grant, 0x100 and the number of a
register outside the bound names, its destination or a source. Of several it names one: the destination first, as the model has it. -/
def Sys2Proof.Spec.laneRuleTraps : Prop :=
  ∀ (i : Instr) (s : State) (d : VRegN) (rs : List VRegN), Spec.vecForm i = some (d, rs) → Spec.runs i s →
    (s.me.lanes.g = 0 → exec i s = .next (s.takeTrap s.cur.core s.cur.ctx 0x14 1)) ∧
    (s.me.lanes.g ≠ 0 → min s.me.count 16 ≤ d.val →
      exec i s = .next (s.takeTrap s.cur.core s.cur.ctx 0x14 (BitVec.ofNat 64 (0x100 + d.val)))) ∧
    (s.me.lanes.g ≠ 0 → (∃ r ∈ rs, min s.me.count 16 ≤ r.val) → ∃ r ∈ rs, min s.me.count 16 ≤ r.val ∧
      exec i s = .next (s.takeTrap s.cur.core s.cur.ctx 0x14 (BitVec.ofNat 64 (0x100 + r.val))))

/-- R240, R242 to R247 and R227: every vector instruction on registers, with lanes and its registers bound, writes v[d] only, in
its elements below VL, ORs its flags into NFLAGS and retires. Where no source element below VL is poisoned, and the rule of the
element operation gives each its code and flags (a float, level-index or special-function result that is exact or in a table, a
comparison, a conversion), those are the elements written, and NFLAGS takes the flags of all. -/
def Sys2Proof.Spec.vectorsComplete : Prop :=
  ∀ (i : Instr) (s : State) (d : VRegN) (rs : List VRegN), Spec.vecForm i = some (d, rs) → Spec.runs i s → Spec.lanesFor s rs →
    s.me.lanes.vl ≤ 16 →
      ∃ r flags, exec i s = .next (Spec.vecState s d r flags).retire ∧
        (∀ k, k < 16 → s.me.lanes.vl ≤ k → Spec.el r k = Spec.el s.me.v[d] k) ∧
        (∀ u, u < 8 → s.me.lanes.vl ≤ 2 * u → r.poison.getLsbD u = s.me.v[d].poison.getLsbD u) ∧
        (s.me.lanes.vl = 0 → flags = 0) ∧
        ∀ (c : Nat → Nat) (fl : Nat → Word), Spec.packs i = false →
          (∀ k, k < s.me.lanes.vl → (∀ x ∈ Spec.elemSources i rs, Spec.tainted s.me.v[x] k = false) ∧
            let src := fun (j : Nat) => ((Spec.elemSources i rs)[j]?.map fun x => (Spec.el s.me.v[x] k).toNat).getD 0
            Spec.valueCase i (s.me.nmode.toNat % 4) (s.me.nmode.getLsbD 3) (src 0) (src 1) (src 2) (c k) (fl k)) →
          Spec.vecWritten s.me.v[d] r s.me.lanes.vl (fun k => BitVec.ofNat 32 (c k)) (fun _ => false) ∧
            flags = ((List.range s.me.lanes.vl).map fl).foldl (· ||| ·) 0

/-- R242: the integer vector instructions write the value of their table in each element below VL, zero and poisoned where a
source element is poisoned, and set no flag. -/
def Sys2Proof.Spec.vectorIntegers : Prop :=
  ∀ (i : Instr) (s : State) (d a b : VRegN) (f : BitVec 32 → BitVec 32 → BitVec 32), Spec.vecInt i = some (d, a, b, f) →
    Spec.runs i s → Spec.lanesFor s [d, a, b] → s.me.lanes.vl ≤ 16 →
      ∃ r, exec i s = .next (Spec.vecState s d r 0).retire ∧
        Spec.vecWritten s.me.v[d] r s.me.lanes.vl (fun k => f (Spec.el s.me.v[a] k) (Spec.el s.me.v[b] k))
          fun k => Spec.tainted s.me.v[a] k || Spec.tainted s.me.v[b] k

/-- R245: VCVT.P8A and VCVT.P8B of clean elements write in element j, for 4j < VL, the four bytes that elements 4j to 4j+3 convert
to, zero from VL on; the other elements keep their values. -/
def Sys2Proof.Spec.vectorPacks : Prop :=
  ∀ (s : State) (d a : VRegN) (r : Rnd) (k : VCvt) (q : Pred) (c : Nat → Nat) (fl : Nat → Word),
    let i : Instr := .vcvt d a r k q
    Spec.packs i = true → Spec.runs i s → Spec.lanesFor s [d, a] → s.me.lanes.vl ≤ 16 →
    (∀ j, j < s.me.lanes.vl → Spec.tainted s.me.v[a] j = false ∧
      Spec.vcvtCase k (s.me.nmode.getLsbD 3) (Spec.el s.me.v[a] j).toNat (c j) (fl j)) →
      let byte := fun (j : Nat) => if j < s.me.lanes.vl then c j else 0
      ∃ v, exec i s = .next (Spec.vecState s d v (((List.range s.me.lanes.vl).map fl).foldl (· ||| ·) 0)).retire ∧
        Spec.vecWritten s.me.v[d] v ((s.me.lanes.vl + 3) / 4)
          (fun j => BitVec.ofNat 32 (byte (4 * j) + 2 ^ 8 * byte (4 * j + 1) + 2 ^ 16 * byte (4 * j + 2) + 2 ^ 24 * byte (4 * j + 3)))
          fun _ => false

/-- R246: VSEL, VPERM, VBCAST, VBCAST_E and the two slides move elements as their table says; a poisoned register count
poisons what it moves. VSEL's element is poisoned also by the source it does not take, and a slide's count poisons every
element: the model's choice (log 18). -/
def Sys2Proof.Spec.vectorMoves : Prop :=
  ∀ (s : State) (d a b : VRegN) (g : Reg) (e : Fin 16) (q : Pred), Spec.runs (.vsel d a b q) s → Spec.lanesFor s [d, a, b] →
    s.me.lanes.vl ≤ 16 →
      let D := s.me.v[d]
      let A := s.me.v[a]
      let B := s.me.v[b]
      let n := (s.gReg g).val.toNat
      let vl := s.me.lanes.vl
      let writes := fun (i : Instr) (val : Nat → BitVec 32) (bad : Nat → Bool) =>
        ∃ r, exec i s = .next (Spec.vecState s d r 0).retire ∧ Spec.vecWritten D r vl val bad
      writes (.vsel d a b q) (fun k => if Spec.el D k ≠ 0 then Spec.el A k else Spec.el B k)
        (fun k => Spec.tainted D k || Spec.tainted A k || Spec.tainted B k) ∧
      writes (.vperm d a b q) (fun k => Spec.el A ((Spec.el B k).toNat % 16))
        (fun k => Spec.tainted B k || Spec.tainted A ((Spec.el B k).toNat % 16)) ∧
      writes (.vbcast d g q) (fun _ => BitVec.ofNat 32 (s.gReg g).val.toNat) (fun _ => (s.gReg g).poison) ∧
      writes (.vbcastE d a e q) (fun _ => Spec.el A e) (fun _ => Spec.tainted A e) ∧
      writes (.vslideUp d a g q) (fun k => if n ≤ k then Spec.el A (k - n) else 0)
        (fun k => (s.gReg g).poison || (decide (n ≤ k) && Spec.tainted A (k - n))) ∧
      writes (.vslideDn d a g q) (fun k => if k + n < vl then Spec.el A (k + n) else 0)
        (fun k => (s.gReg g).poison || (decide (k + n < vl) && Spec.tainted A (k + n)))

/-- What the pairwise tree of R77 makes of elements 0 to `n` - 1, at most 16: a code and the flags of its nodes. `node` relates the two
codes of a node to its code and its flags; a node without a second argument passes the first on. -/
def Sys2Proof.Spec.reducesTo (node : Nat → Nat → Nat → Word → Prop) (n : Nat) (e : Nat → Nat) (c : Nat) (fl : Word) : Prop :=
  ∃ (v : Nat → Nat → Nat) (g : Nat → Nat → Word), (∀ i, i < n → v 0 i = e i ∧ g 0 i = 0) ∧
    (∀ k i, k < 4 → i < n → i % 2 ^ (k + 1) = 0 →
      if i + 2 ^ k < n then ∃ h, node (v k i) (v k (i + 2 ^ k)) (v (k + 1) i) h ∧ g (k + 1) i = g k i ||| g k (i + 2 ^ k) ||| h
      else v (k + 1) i = v k i ∧ g (k + 1) i = g k i) ∧
    c = v 4 0 ∧ fl = g 4 0

/-- R77 and R247: VRSUM.F32 and VRMAX.F32 write in every element below VL what the pairwise tree makes of the elements below VL, each
node of a sum rounded (given here where the nodes are exact or special cases of R82) and each node of a maximum by R83, and OR the
flags of its nodes into NFLAGS; a poisoned element poisons every element that they write. -/
def Sys2Proof.Spec.vectorFloatReductions : Prop :=
  ∀ (s : State) (d a : VRegN) (rnd : Rnd) (q : Pred), Spec.runs (.vrsum d a (.f32 rnd) q) s → Spec.lanesFor s [d, a] →
    0 < s.me.lanes.vl → s.me.lanes.vl ≤ 16 →
    let A := s.me.v[a]
    let vl := s.me.lanes.vl
    let e := fun (k : Nat) => (Spec.el A k).toNat
    let rdn := rnd == .rdn || (rnd == .none && s.me.nmode.toNat % 4 == 3)
    let bad := (List.range vl).any fun k => Spec.tainted A k
    let gives := fun (i : Instr) (node : Nat → Nat → Nat → Word → Prop) =>
      (∀ c fl, bad = false → Spec.reducesTo node vl e c fl → ∃ r, exec i s = .next (Spec.vecState s d r fl).retire ∧
        Spec.vecWritten s.me.v[d] r vl (fun _ => BitVec.ofNat 32 c) fun _ => false) ∧
      (bad = true → ∃ r fl, exec i s = .next (Spec.vecState s d r fl).retire ∧ ∀ k, k < vl → Spec.tainted r k = true)
    gives (.vrsum d a (.f32 rnd) q) (fun x y z h => Spec.floatCase .add .f32 rdn x y 0 z h) ∧
    gives (.vrmax d a false q) (fun x y z h => Spec.minmaxCase true .f32 x y z h)

/-- R247: VRSUM.I32 writes in every element below VL the sum of the elements below VL modulo 2^32, and VRMAX.I32 their greatest
as signed numbers; a poisoned element poisons the result. -/
def Sys2Proof.Spec.vectorReductions : Prop :=
  ∀ (s : State) (d a : VRegN) (q : Pred), Spec.runs (.vrsum d a .i32 q) s → Spec.lanesFor s [d, a] → s.me.lanes.vl ≤ 16 →
    let A := s.me.v[a]
    let vl := s.me.lanes.vl
    let bad := (List.range vl).any fun k => Spec.tainted A k
    (∃ r, exec (.vrsum d a .i32 q) s = .next (Spec.vecState s d r 0).retire ∧ Spec.vecWritten s.me.v[d] r vl
      (fun _ => BitVec.ofNat 32 ((List.range vl).map fun k => (Spec.el A k).toNat).sum) fun _ => bad) ∧
    (∃ r m, exec (.vrmax d a true q) s = .next (Spec.vecState s d r 0).retire ∧
      Spec.vecWritten s.me.v[d] r vl (fun _ => m) (fun _ => bad) ∧
      (bad = false → 0 < vl → (∃ k, k < vl ∧ m = Spec.el A k) ∧ ∀ k, k < vl → (Spec.el A k).toInt ≤ m.toInt))

/-- R248 to R250 and R298: VLD, VLDS and VGATH of the core's own local store write the words there to the elements below VL, with
the poison of their units, take a number of TLV that is complete, and retire. -/
def Sys2Proof.Spec.vectorLoadsOwnStore : Prop :=
  ∀ (i : Instr) (s : State) (d : VRegN) (off : Nat → Nat), s.cur.core < mgmtCore → Spec.vecLoad i s off = some d →
    Spec.plainOrder i → Spec.vecOwn s off → Spec.quiet s → Spec.lanesFor s (d :: Spec.indexOf i) → s.me.lanes.vl ≤ 16 →
    0 < s.me.lanes.vl → s.me.packet = none →
      ∃ r t, exec i s = .next t ∧ t.me.v = s.me.v.set d r ∧ t.me.g = s.me.g ∧ t.me.e = s.me.e ∧ t.me.nflags = s.me.nflags ∧
        t.hbm = s.hbm ∧ (∀ c, (t.core c).ls = (s.core c).ls) ∧ Spec.tlvTaken s.myCore.tlv t.myCore.tlv ∧
        (∀ k, k < 16 → Spec.el r k = if k < s.me.lanes.vl then BitVec.ofNat 32 (Spec.bytes s.myCore.ls (off k) 4)
          else Spec.el s.me.v[d] k) ∧
        (∀ u, u < 8 → r.poison.getLsbD u =
          ((decide (2 * u < s.me.lanes.vl) && s.myCore.ls.bad (off (2 * u))) ||
           (decide (2 * u + 1 < s.me.lanes.vl) && s.myCore.ls.bad (off (2 * u + 1))) ||
           (decide (s.me.lanes.vl < 2 * u + 2) && s.me.v[d].poison.getLsbD u)))

/-- R248 to R250 and R298: VST, VSTS and VSCAT of clean elements to the core's own local store put the elements below VL there,
the highest last, and change no other byte, but that the reserved bytes of R111 read as zero once one of them is stored to; a
number of TLV is taken and complete, and the store retires. -/
def Sys2Proof.Spec.vectorStoresOwnStore : Prop :=
  ∀ (i : Instr) (s : State) (v : VRegN) (off : Nat → Nat), s.cur.core < mgmtCore → Spec.vecStore i s off = some v →
    Spec.plainOrder i → Spec.vecOwn s off → Spec.quiet s → Spec.lanesFor s (v :: Spec.indexOf i) → s.me.lanes.vl ≤ 16 →
    0 < s.me.lanes.vl → s.me.packet = none → s.myCore.ls.wf = true →
    (∀ k, k < s.me.lanes.vl → Spec.tainted s.me.v[v] k = false) →
      let keep := Spec.vecKeeps s.me.lanes.vl off
      ∃ t, exec i s = .next t ∧ Spec.elsewhere s t ∧ t.me.g = s.me.g ∧ Spec.tlvTaken s.myCore.tlv t.myCore.tlv ∧
        (∀ k j, k < s.me.lanes.vl → (∀ m, m < s.me.lanes.vl → off m = off k → m ≤ k) → j < 4 →
          t.myCore.ls.byte (off k + j) = keep (off k + j) (BitVec.ofNat 8 ((Spec.el s.me.v[v] k).toNat / 256 ^ j))) ∧
        (∀ x, (∀ k, k < s.me.lanes.vl → x < off k ∨ off k + 4 ≤ x) → t.myCore.ls.byte x = keep x (s.myCore.ls.byte x))

/-- R239: "A VL of 0 makes every later vector instruction of the context retire with no effect on registers, memory or flags,
until VL changes": of a vector memory instruction it is so, with a grant and its registers bound. -/
def Sys2Proof.Spec.vectorMemoryOfNothing : Prop :=
  ∀ (i : Instr) (s : State) (base gs : Reg) (v x : VRegN) (sc : Scope) (lo : LOrder) (so : SOrder) (imm : BitVec 9),
    (i = .vld v base sc lo imm ∨ i = .vst v base sc so imm ∨ i = .vlds v base sc lo gs ∨ i = .vsts v base sc so gs ∨
      i = .vgath v base sc lo x ∨ i = .vscat v base sc so x) →
    s.me.lanes.vl = 0 → Spec.lanesFor s (v :: Spec.indexOf i) → exec i s = .next s.retire

/-- R239: the same of a vector instruction on registers. -/
def Sys2Proof.Spec.vectorOfNothing : Prop :=
  ∀ (i : Instr) (s : State) (d : VRegN) (rs : List VRegN), Spec.vecForm i = some (d, rs) → Spec.runs i s → Spec.lanesFor s rs →
    s.me.lanes.vl = 0 → exec i s = .next (Spec.vecState s d s.me.v[d] 0).retire

/-- VCLAIM and VREL. Each part says its rules. -/
def Obligations.LanesClaimed : Prop :=
  Spec.vclaimGrants ∧ Spec.vrelReleases

/-- Vector instructions with and without lanes. Each part says its rules. -/
def Obligations.VectorsRun : Prop :=
  Spec.laneRuleTraps ∧ Spec.vectorsComplete ∧ Spec.vectorMoves

/-- Values of integer vectors, of packed conversions and of reductions. Each part says its rules. -/
def Obligations.VectorValues : Prop :=
  Spec.vectorIntegers ∧ Spec.vectorPacks ∧ Spec.vectorReductions ∧ Spec.vectorFloatReductions

/-- Vector loads and stores of the own local store. Each part says its rules. -/
def Obligations.VectorAccesses : Prop :=
  Spec.vectorLoadsOwnStore ∧ Spec.vectorStoresOwnStore

/-- VLEN sets VL, and a VL of 0 leaves every vector instruction without effect. Each part says its rules. -/
def Obligations.VlenRule : Prop :=
  Spec.vlenSets ∧ Spec.vectorMemoryOfNothing ∧ Spec.vectorOfNothing

/-! ### Steps that the device takes by itself: waits that end, interrupts, stops, grants (04, 05, 06, 10, 12, 16) -/

namespace Sys2Proof.Spec

/-- The clock of a core runs: no brake of level 3 pauses it (R407). -/
def clocked (s : State) (c : CoreId) : Prop := s.spine.brake < 3 ∨ c = mgmtCore
/-- The context that a step names waits inside an instruction, and its core's clock runs. -/
def inside (s : State) (i : Instr) : Prop :=
  (s.ctx s.ev.core s.ev.ctx).st = .waiting ∧ (s.ctx s.ev.core s.ev.ctx).wait = some i ∧ clocked s s.ev.core
/-- The state in which that context is READY and executes. -/
def woken (s : State) : State :=
  let t := { s with cur := ⟨s.ev.core, s.ev.ctx⟩ }
  t.setMe { t.me with st := .ready, wait := none }
/-- The number of the lowest set bit of a word. -/
def lowestBit (m : Word) (i : Nat) : Prop := m.getLsbD i = true ∧ ∀ j, j < i → m.getLsbD j = false
/-- ALARM of a context has been reached (R104). -/
def alarmed (s : State) (c : CoreId) (x : Ctx) : Prop := x.alarm ≠ 0 ∧ 0 ≤ (s.now c - x.alarm).toInt
/-- No copy is in an octet's channels. -/
def noCopies (s : State) (c : CoreId) : Prop := ∀ h : Fin 8, (s.octet (octetOf c)).chans[h].cur = none

end Sys2Proof.Spec

/-- R93, R95, R96, R124, R162, R212, R274, R296 and R299: a context that waits inside an instruction goes on when what it waits
for has come. A sleep does not end before its cycles have passed (log 10); HINT may end at any time (its length is timing); the others
end as they do when nothing holds them. -/
def Sys2Proof.Spec.waitsEnd : Prop :=
  ∀ (s : State) (d a : Reg) (e : EReg) (isAbs : Bool) (c : TLCounter) (mask : BitVec 6) (m : BitVec 16) (b : BitVec 4),
    let w := Spec.woken s
    (Spec.inside s (.sleep d) →
      let left := ((s.ctx s.ev.core s.ev.ctx).due - s.time).toInt
      (left ≤ 0 → exec .sleepExpire s = .next w.retire) ∧ (0 < left → exec .sleepExpire s = .refused .eventDisabled)) ∧
    (Spec.inside s (.hint m b) → ∃ t, exec .hintAlignRelease s = .next t ∧ t.me = w.retire.me) ∧
    (∀ i, (i = .join a ∨ i = .joinS a) → Spec.inside s i → s.ev.ctx = 0 → ∀ n : CtxId, n ≠ 0 →
      w.gReg a = ⟨BitVec.ofNat 64 n.val, false⟩ →
        ((w.myCore.ctx n).st = .free → exec .joinComplete s = .next w.retire) ∧
        ((w.myCore.ctx n).st = .ended → Spec.noClaims w → ∃ t, exec .joinComplete s = .next t ∧ (t.myCore.ctx n).st = .free ∧
          t.me.nflags = w.me.nflags ||| (w.myCore.ctx n).nflags ∧ t.me.g = w.me.g)) ∧
    (Spec.inside s (.waitev d mask) → (w.gReg d).poison = false →
      let x := w.me.evpend &&& BitVec.ofNat 64 mask.toNat
      x ≠ 0 → exec .waitevWake s =
        .next ((w.setMe { w.me with evpend := w.me.evpend &&& ~~~x }).setG d ⟨x, false⟩).retire) ∧
    (Spec.inside s (.twaitu e isAbs) → (w.eReg e).poison = false →
      0 ≤ (w.myNow - (if isAbs then (w.eReg e).val else (w.eReg e).val + w.myCore.bind.tbase)).toInt →
        exec .twaituWake s = .next w.retire) ∧
    ((w.gReg a).poison = false →
      let x := (w.gReg a).val
      let r := Spec.ready w &&& x
      (∀ i, (i = .tlwait a c ∨ i = .tlwaitS a c) → Spec.inside s i → x.toNat ≤ (Spec.counter w c).cnt.toNat →
        exec .tlwaitWake s = .next w.retire) ∧
      (∀ i, (i = .mjwait a ∨ i = .mjwaitS a) → Spec.inside s i →
        (∀ j ∈ w.myCore.jobs, j.no = x.extractLsb' 0 16 → j.done = true) → exec .mjwaitWake s = .next w.retire) ∧
      (Spec.inside s (.twany d a) → r ≠ 0 → exec .twanyWake s = .next (w.setG d ⟨r, false⟩).retire) ∧
      (Spec.inside s (.twall d a) → r = x → exec .twallWake s = .next (w.setG d ⟨w.myCore.tagerr &&& x, false⟩).retire)) ∧
    (Spec.inside s .aflush → w.myCluster.merges = [] → exec .aflushComplete s = .next w.retire)

/-- R104 and R416: a pending and enabled interrupt traps a READY user-mode context outside a packet with INT and its number, the
lowest first, and its TVAL; one of the management core enters machine mode and ends a HALT. An alarm that is reached sets
IPEND.ALARM. That the lowest bit comes first where R108 speaks of the order of arrival (log 70), and that fetch goes to the even address
below an odd MVEC (log 75), is the model's choice. -/
def Sys2Proof.Spec.interruptsTaken : Prop :=
  ∀ (s : State) (i : Nat),
    let c := s.ev.core
    let n := s.ev.ctx
    let x := s.ctx c n
    let y := s.ctx mgmtCore n
    (∀ ip : Word, (Spec.alarmed s c x → ip = x.ipend ||| 1) → (¬ Spec.alarmed s c x → ip = x.ipend) →
      s.spine.brake < 3 → c ≠ mgmtCore → x.st = .ready → x.tr.priv = 0 → x.packet = none → (s.core c).stop = none → i < 3 →
      Spec.lowestBit (x.ien &&& ip) i →
        exec .interruptTake s = .next (s.takeTrap c n (BitVec.ofNat 64 (2 ^ 63 + i))
          (match i with | 0 => x.alarm | 1 => (s.core c).tagerr | _ => BitVec.ofNat 64 (x.tstat.toNat / 2 ^ 32 % 2 ^ 16)))) ∧
    (y.st = .ready → y.packet = none → s.mgmt.mie = true → s.mgmt.dead = false → i < 5 →
      Spec.lowestBit (s.mgmt.mien &&& s.mipend y) i →
        ∃ t, exec .mgmtInterruptTake s = .next t ∧ t.mgmt.halted = false ∧ t.mgmt.mcause = BitVec.ofNat 64 (2 ^ 63 + i) ∧
          t.mgmt.mie = false ∧ t.mgmt.mpp = y.tr.priv ∧ t.mgmt.mxpc0 = y.pc ∧ (t.ctx mgmtCore n).tr.priv = 3 ∧
          (t.ctx mgmtCore n).pc = s.mgmt.mvec &&& ~~~1#64 ∧ Spec.keeps y (t.ctx mgmtCore n)) ∧
    (Spec.alarmed s c x → x.ipend.getLsbD 0 = false →
      exec .alarmReached s = .next (s.setCtx c n { x with ipend := x.ipend ||| 1 }))

/-- R109 to R112: a READY user-mode context of a stopping core, outside a packet and owed nothing by a load or a unit, stops; its g
and e registers stand in its slot of the local store with their poison, and its SAVEMAP bit is set. So they do for a context that
CTXLOAD left STOPPED and that has not been saved. -/
def Sys2Proof.Spec.contextsStop : Prop :=
  ∀ (s : State), let c := s.ev.core
    let n := s.ev.ctx
    let x := s.ctx c n
    let w := (s.core c).work
    s.spine.brake < 3 → c ≠ mgmtCore → ((x.st = .ready ∧ x.tr.priv = 0 ∧ x.packet = none ∧ x.pend = [] ∧ (∀ o, w.div = some o → o.ctx ≠ n) ∧
      ∀ o, w.rcr = some o → o.ctx ≠ n) ∨ (x.st = .stopped ∧ x.unsaved = true)) → (s.core c).stop.isSome = true →
    (s.core c).ls.wf = true →
      ∃ t, exec .contextStop s = .next t ∧ (t.ctx c n).st = .stopped ∧ (t.ctx c n).g = x.g ∧ (t.ctx c n).e = x.e ∧
        (∀ i, i < 23 → (t.core c).ls.read (0x1800 + 184 * n.val + 8 * i) 8 = Spec.recordWord s c n i) ∧
        ((t.core c).ls.read 0x1FE8 8).val.getLsbD n.val = true ∧ t.hbm = s.hbm

/-- R150, R199 and R230: the claim at the head of the pool queue that fits is bound and retires; the claim at the head of the lane
queue takes the widest width that it and at least 4 free lanes allow, and retires; a bank whose accesses are over switches. -/
def Sys2Proof.Spec.claimsGranted : Prop :=
  ∀ (s : State) (n : CtxId) (m : Nat),
    let c := s.ev.core
    Spec.clocked s c → (s.core c).poolQ = [(n, m)] → m ≤ (s.core c).poolFree → (∀ o, (s.octet o).laneQ = []) →
      (∃ t, exec .poolGrant s = .next t ∧ (t.ctx c n).count = m ∧ (t.ctx c n).v = Vector.replicate 16 ⟨0, 0⟩ ∧
        (t.ctx c n).g = (s.ctx c n).g ∧ (t.ctx c n).st = (if (s.ctx c n).st = .stopped then .stopped else .ready) ∧
        (t.core c).poolQ = [] ∧ t.hbm = s.hbm)
/-- R230: see `ClaimsGranted`, for lanes. -/
def Sys2Proof.Spec.lanesGranted : Prop :=
  ∀ (s : State) (l : LaneClaim) (d a : Reg) (q : Pred),
    let o := s.ev.unit
    let x := s.ctx l.core l.ctx
    let free := s.laneFree o
    s.spine.brake < 3 → (s.octet o).laneQ = [l] → octetOf l.core = o → 4 ≤ free → (l.q = 4 ∨ l.q = 8 ∨ l.q = 16) → x.wait = some (.vclaim d a q) →
    x.loops = Vector.replicate 3 ⟨0, 0, 0⟩ →
      let g := if 16 ≤ l.q ∧ 16 ≤ free then 16 else if 8 ≤ l.q ∧ 8 ≤ free then 8 else 4
      ∃ t, exec .laneGrant s = .next t ∧ (t.ctx l.core l.ctx).lanes = ⟨g, l.q, false, g, 0⟩ ∧
        (t.ctx l.core l.ctx).getG d = (if d = 0 then ⟨0, false⟩ else ⟨BitVec.ofNat 64 g, false⟩) ∧ (t.octet o).laneQ = []
/-- R199: a BANKMODE that waits for the bank's accesses switches the bank when they are over. -/
def Sys2Proof.Spec.bankDrained : Prop :=
  ∀ (s : State) (d a b : Reg) (q : Pred),
    let w := Spec.woken s
    let bk := (w.gReg a).val.toNat % 16
    let cl := clusterOf s.ev.core
    let old := (s.cluster cl).mode bk
    let code : Nat := match old with | .cache => 0 | .scratch => 1 | .fifo => 2
    let new := (w.gReg b).val.toNat
    Spec.inside s (.bankmode d a b q) → s.ev.core < mgmtCore → Spec.runs (.bankmode d a b q) w → Spec.quiet w →
    (w.gReg a).poison = false → (w.gReg b).poison = false → new ≤ 2 → new ≠ code → (s.cluster cl).lines = [] →
    (s.cluster cl).wbs = [] → (s.fifo cl bk).waiters = [] →
    (∀ h : Fin 8, (s.octet (2 * cl)).chans[h].cur = none ∧ (s.octet (2 * cl + 1)).chans[h].cur = none) →
    (∀ e ∈ w.cores, e.2.work.rq = []) → s.bankInUse cl bk = false → w.bankInUse cl bk = false → (old = .fifo → s.fabric = []) →
      ∃ t, exec .bankDrainComplete s = .next t ∧
        (t.cluster cl).mode bk = (match new with | 0 => BankMode.cache | 1 => .scratch | _ => .fifo) ∧ t.hbm = s.hbm ∧
        t.me.g = (w.setG d ⟨BitVec.ofNat 64 code, false⟩).me.g

/-- How waits end, and how interrupts and stops reach a context. Each part says its rules. -/
def Obligations.ContextsGoOn : Prop :=
  Spec.waitsEnd ∧ Spec.interruptsTaken ∧ Spec.contextsStop

/-! ### Accesses that reach their places and replies that come back; time (07, 08, 10 R250, 12 R290) -/

namespace Sys2Proof.Spec

/-- Nothing stands in the way of an access of core `c` at its cluster: no line cached, no write-back on its way, no copy in its
octet, and no speculative task. -/
def clear (s : State) (c : CoreId) : Prop :=
  (s.cluster (clusterOf c)).lines = [] ∧ (s.cluster (clusterOf c)).wbs = [] ∧ noCopies s c ∧ s.specTask c = none
/-- A word of HBM whose home has applied the named stores of this tick; no background wipe is under way. -/
def atHome (s : State) (pa n : Nat) : Prop :=
  pa < 2 ^ 39 ∧ (n = 1 ∨ n = 2 ∨ n = 4 ∨ n = 8) ∧ pa % n = 0 ∧ s.wiping = false ∧ s.hbm.wf = true ∧
    (s.slice (sliceOfPa pa)).applied = some s.time
/-- The one load, or the one store, that core `c` has on its way. -/
def oneLoad (s : State) (c : CoreId) (e : LoadEntry) : Prop :=
  (s.core c).work.loads = [e] ∧ (s.core c).work.port = [] ∧ (s.core c).work.vecs = [] ∧ (s.core c).work.rq = [] ∧
    e.id = s.ev.idx ∧ s.ev.ok = false ∧ s.ev.ok2 = false
def onePort (s : State) (c : CoreId) (e : PortEntry) : Prop :=
  (s.core c).work.port = [e] ∧ (s.core c).work.loads = [] ∧ (s.core c).work.vecs = [] ∧ (s.core c).work.rq = [] ∧
    e.id = s.ev.idx ∧ s.ev.ok = false ∧ s.ev.ok2 = false ∧ e.tlv = none
/-- The load of `e` has landed in its g register with a value: no other g register of its context changed. -/
def landed (s t : State) (c : CoreId) (e : LoadEntry) (r : Reg) (v : PWord) : Prop :=
  (t.core c).work.loads = [] ∧ (t.ctx c e.ctx).getG r = v ∧
    (∀ q : Reg, q ≠ r → (t.ctx c e.ctx).getG q = (s.ctx c e.ctx).getG q) ∧ t.hbm = s.hbm
/-- Some up-link is in RUN (R392). -/
def linked (s : State) : Prop := ∃ u, u < 36 ∧ (s.link u).state = .run
/-- The load of `e` holds a reply. -/
def replied (t : State) (c : CoreId) (e : LoadEntry) (v : PWord) (stale : Bool) : Prop :=
  (t.core c).work.loads = [{ e with reply := some v, stale := stale }]

end Sys2Proof.Spec

/-- R159, R160, R165 and R166: a core's copy of the time base may move on before the tick closes; the tick closes for all with one
more on the time base; a home applies its named stores of this tick; shadow entries of 256 ticks ago or more go. -/
def Obligations.TimeMoves : Prop :=
  ∀ (s : State),
    (s.ev.ok = true → (s.core s.ev.core).lead = false →
      exec .tick s = .next (s.modCore s.ev.core fun k => { k with lead := true })) ∧
    (s.ev.ok = false → ∃ t, exec .tick s = .next t ∧ t.time = s.time + 1 ∧ ∀ c, (t.core c).lead = false) ∧
    (∀ e : TqEntry, (s.slice s.ev.unit).applied ≠ some s.time → (s.slice s.ev.unit).tq = [e] → e.held = none → e.acc = none →
      e.n = 8 → e.pa % 8 = 0 → e.pa < 2 ^ 39 → sliceOfPa e.pa = s.ev.unit → s.wiping = false → s.hbm.wf = true →
        ∃ t, exec .homeTickApply s = .next t ∧ (t.slice s.ev.unit).applied = some s.time ∧
          (e.instant = some s.time → (t.slice s.ev.unit).tq = [] ∧
            Spec.stored s.hbm t.hbm e.pa 8 e.val.val.toNat e.val.poison) ∧
          (e.instant ≠ some s.time → (t.slice s.ev.unit).tq = [e] ∧ t.hbm = s.hbm)) ∧
    (∀ e ∈ (s.slice s.ev.unit).shadow, 256 ≤ (s.time - e.tick).toInt →
      ∃ t, exec .shadowEntryDiscard s = .next t ∧ t.hbm = s.hbm ∧
        ∀ x, x ∈ (t.slice s.ev.unit).shadow ↔ x ∈ (s.slice s.ev.unit).shadow ∧ (s.time - x.tick).toInt < 256)

/-- R193 and R290: a reply lands in its register; a stale one sets TSTAT.STALE (R170). A plain load of HBM with nothing cached reads
the bytes at their home. A vector load whose elements are all read writes its register and completes its number, and so does
a vector store whose elements have all left the port, unless one of a peer waits for an up-link (R250, R298, R392). -/
def Sys2Proof.Spec.repliesLand : Prop :=
  ∀ (s : State) (e : LoadEntry) (r : Reg) (v : PWord) (pa : Nat) (timed : Bool) (w : VecEntry),
    let c := s.ev.core
    let x := s.ctx c e.ctx
    (Spec.oneLoad s c e → Spec.noCopies s c → e.dst = .g r → r ≠ 0 → e.acq = none → (RegName.g r, e.id) ∈ x.pend →
      (e.reply = some v → ∃ t, exec .loadReplyLand s = .next t ∧ exec .heldAccessRelease s = .next t ∧ Spec.landed s t c e r v ∧
        (t.ctx c e.ctx).tstat = (if e.stale then x.tstat ||| 2 else x.tstat)) ∧
      (e.reply = none → e.kind = .plain → e.stale = false → e.place = .phys pa timed → c < mgmtCore → Spec.clear s c →
        Spec.atHome s pa e.n →
        ∃ t, exec .loadReplyLand s = .next t ∧ exec .heldAccessRelease s = .next t ∧
          Spec.landed s t c e r ⟨Spec.extended e.n e.signed (Spec.bytes s.hbm pa e.n), s.hbm.bad pa⟩)) ∧
    ((s.core c).work.vecs = [w] → w.id = s.ev.idx → w.acq = none →
      (∀ vals : List PWord, w.load = true → w.got = vals.map some → w.places.length = vals.length → vals.length ≤ 16 →
        (RegName.v w.reg, w.id) ∈ (s.ctx c w.ctx).pend →
          ∃ t, exec .vectorMemoryComplete s = .next t ∧ (t.core c).work.vecs = [] ∧
            (t.core c).tlv = (s.core c).tlv.complete w.num ∧
            (∀ k, k < 16 → Spec.el (t.ctx c w.ctx).v[w.reg] k =
              if k < vals.length then (vals.getD k ⟨0, false⟩).val.setWidth 32 else Spec.el (s.ctx c w.ctx).v[w.reg] k)) ∧
      (w.load = false → (s.core c).work.port = [] → (Spec.linked s ∨ ∀ n a, some (Place.peer n a) ∉ w.places) →
        ∃ t, exec .vectorMemoryComplete s = .next t ∧ (t.core c).work.vecs = [] ∧
          (t.core c).tlv = (s.core c).tlv.complete w.num))

/-- R167 and R206: a timed load whose instant has not closed waits at its home; one whose instant has closed takes the value as of it,
from the shadow when the word has changed since, and is STALE beyond 256 ticks. A returning atomic at its home takes the old
word and leaves the new one. -/
def Sys2Proof.Spec.homesAnswer : Prop :=
  ∀ (s : State) (e : LoadEntry) (pa : Nat) (at_ : Word) (x : PWord) (sh : ShadowEntry),
    let c := s.ev.core
    let k := s.slice (sliceOfPa pa)
    let here : PWord := ⟨BitVec.ofNat 64 (Spec.bytes s.hbm pa e.n), s.hbm.bad pa⟩
    Spec.oneLoad s c e → c < mgmtCore → Spec.clear s c → e.reply = none → e.stale = false → e.place = .phys pa true →
    Spec.atHome s pa e.n →
      (e.kind = .timed at_ → e.n = 8 →
        ((s.time - at_).toInt ≤ 0 → ∃ t, exec .tldServe s = .next t ∧ t.hbm = s.hbm ∧
          (t.core c).work.loads = [{ e with kind := .timedWait at_ }]) ∧
        (256 < (s.time - at_).toInt → ∃ t, exec .tldServe s = .next t ∧ Spec.replied t c e here true ∧ t.hbm = s.hbm) ∧
        (0 < (s.time - at_).toInt → (s.time - at_).toInt ≤ 256 → k.lost = [] → k.ghost = [] →
          (k.shadow = [] → ∃ t, exec .tldServe s = .next t ∧ Spec.replied t c e here false ∧ t.hbm = s.hbm) ∧
          (k.shadow = [sh] → sh.unit = pa / 8 → 0 < (sh.tick - at_).toInt →
            ∃ t, exec .tldServe s = .next t ∧ Spec.replied t c e sh.old false ∧ t.hbm = s.hbm))) ∧
      (e.kind = .atom .add x → x.poison = false → (e.n = 4 ∨ e.n = 8) →
        ∃ t, exec .atomicAtHome s = .next t ∧
          Spec.replied t c e ⟨Spec.extended e.n (e.n == 4) (Spec.bytes s.hbm pa e.n), s.hbm.bad pa⟩ false ∧
          Spec.stored s.hbm t.hbm pa e.n ((Spec.bytes s.hbm pa e.n + x.val.toNat) % 2 ^ (8 * e.n)) (s.hbm.bad pa))

/-- R164, R165, R173, R175, R176 and R194: a plain store reaches the cluster cache, or its home from the management core. A timed store
that names a tick to come joins its home's queue; a late one is applied at once and logged; with the queue full it is refused
and kept, and it is offered again after 4 ticks. A plain store that a task sent while speculative goes to its home once the task is
kept (R178). -/
def Sys2Proof.Spec.storesArrive : Prop :=
  ∀ (s : State) (e : PortEntry) (pa : Nat) (timed : Bool) (at_ : Word),
    let c := s.ev.core
    let sl := sliceOfPa pa
    let k := s.slice sl
    let bad := e.val.poison || (e.n != 8 && s.hbm.bad pa)
    Spec.onePort s c e → Spec.clear s c → e.place = .phys pa timed → Spec.atHome s pa e.n →
      (e.kind = .plain → e.refused = none → c = mgmtCore →
        ∃ t, exec .plainStoreArrive s = .next t ∧ exec .heldAccessRelease s = .next t ∧ (t.core c).work.port = [] ∧
          Spec.stored s.hbm t.hbm pa e.n e.val.val.toNat bad) ∧
      (e.kind = .plain → e.refused = none → c < mgmtCore → e.held.isSome = true →
        ∃ t, exec .plainStoreArrive s = .next t ∧ (t.core c).work.port = [] ∧ (t.cluster (clusterOf c)).lines = [] ∧
          Spec.stored s.hbm t.hbm pa e.n e.val.val.toNat bad) ∧
      (e.kind = .plain → e.refused = none → c < mgmtCore → e.held = none → (s.cluster (clusterOf c)).ways ≠ 0 →
        ∃ t, exec .plainStoreArrive s = .next t ∧ (t.core c).work.port = [] ∧ t.hbm = s.hbm ∧
          ∃ l, (t.cluster (clusterOf c)).lines = [l] ∧ l.peer = 0 ∧ l.line = pa / 64 ∧
            l.dirty.toNat = (2 ^ e.n - 1) * 2 ^ (pa % 64) ∧
            l.data.toNat / 2 ^ (8 * (pa % 64)) % 2 ^ (8 * e.n) = e.val.val.toNat % 2 ^ (8 * e.n)) ∧
      (e.kind = .timed at_ → e.n = 8 → c < mgmtCore → e.held = none → k.tq.length < 4096 →
        (e.refused = none → 0 < (at_ - s.time).toInt →
          ∃ t, exec .timedStoreArrive s = .next t ∧ (t.core c).work.port = [] ∧ t.hbm = s.hbm ∧
            ∃ q, (t.slice sl).tq = k.tq ++ [q] ∧ q.pa = pa ∧ q.n = 8 ∧ q.val = e.val ∧ q.instant = some at_ ∧ q.held = none) ∧
        (0 < (s.time - at_).toInt → (s.core c).bind.drop = false →
          (e.refused = none → ∃ t, exec .timedStoreArrive s = .next t ∧ (t.core c).work.port = [] ∧
            Spec.stored s.hbm t.hbm pa 8 e.val.val.toNat e.val.poison ∧
            ∃ w, Table.find (t.slice sl).husk k.huskNext = some [BitVec.ofNat 64 pa, at_, s.time, w]) ∧
          (∀ r : Word, e.refused = some r → s.time = r + 4 → ∃ t, exec .storeRetry s = .next t ∧ (t.core c).work.port = [] ∧
            Spec.stored s.hbm t.hbm pa 8 e.val.val.toNat e.val.poison))) ∧
      (e.kind = .timed at_ → e.refused = none → c < mgmtCore → e.held = none → 4096 ≤ k.tq.length →
        exec .timedStoreArrive s = .next (s.modCore c fun x => { x with work := { x.work with port :=
          [{ e with refused := some s.time, retried := true }] } }))

/-- R174 and R181: an acknowledgement sets TSTAT and, when late, counts and sets IPEND.LATES, in the context that issued the store,
or in context 0 once the number of a helper has a new user. R194 and R211: a write-back puts its dirty bytes at
the home; a merge adds its entry's value to the word there. -/
def Sys2Proof.Spec.homesWritten : Prop :=
  ∀ (s : State),
    (∀ (tk : Option TaskRef) (who : Nat) (n m : CtxId) (gen : Nat) (late drop retry : Bool),
      s.fabric = [(s.ev.idx, .tstAck tk who n gen late drop retry)] → (s.core (s.physOf who)).bind.task = tk →
      (s.ctx (s.physOf who) n).live = true → m = (if (s.ctx (s.physOf who) n).gen = gen then n else 0) →
        let x := s.ctx (s.physOf who) m
        ∃ t y, exec .timedStoreAck s = .next t ∧ t.fabric = [] ∧ t.ctx (s.physOf who) m = y ∧ y.g = x.g ∧
          (late = true → y.ipend = x.ipend ||| 4 ∧
            y.tstat.toNat / 2 ^ 32 % 2 ^ 16 = min 65535 (x.tstat.toNat / 2 ^ 32 % 2 ^ 16 + 1) ∧ y.tstat.getLsbD 0 = true) ∧
          (late = false → y.ipend = x.ipend ∧ y.tstat.getLsbD 0 = x.tstat.getLsbD 0) ∧
          y.tstat.getLsbD 2 = (x.tstat.getLsbD 2 || drop) ∧ y.tstat.getLsbD 3 = (x.tstat.getLsbD 3 || retry)) ∧
    (∀ w, (s.cluster s.ev.unit).wbs = [w] → w.id = s.ev.idx → w.line.peer = 0 → Spec.atHome s (64 * w.line.line) 8 →
      ∃ t, exec .writebackArrive s = .next t ∧ (t.cluster s.ev.unit).wbs = [] ∧
        (∀ j, j < 64 → t.hbm.byte (64 * w.line.line + j) =
          if w.line.dirty.getLsbD j then w.line.data.extractLsb' (8 * j) 8 else s.hbm.byte (64 * w.line.line + j)) ∧
        ∀ a, a < 64 * w.line.line ∨ 64 * w.line.line + 64 ≤ a → t.hbm.byte a = s.hbm.byte a) ∧
    (∀ (m : AccEntry) (pa : Nat) (timed : Bool), s.ev.ok2 = false → (s.cluster s.ev.unit).merges = [m] → m.id = s.ev.idx → m.op = .add →
      m.place = .phys pa timed → m.val.poison = false → (m.n = 4 ∨ m.n = 8) → Spec.atHome s pa m.n →
      (s.cluster s.ev.unit).lines = [] → (s.cluster s.ev.unit).wbs = [] →
        ∃ t, exec .mergeArrive s = .next t ∧ (t.cluster s.ev.unit).merges = [] ∧
          Spec.stored s.hbm t.hbm pa m.n ((Spec.bytes s.hbm pa m.n + m.val.val.toNat) % 2 ^ (8 * m.n)) (s.hbm.bad pa))

/-- R165, R184, R190, R206 and R211: an access of a peer that reaches its home here is performed as one of this device would be, and
answered: a read, a write, an atomic, a merge, a timed load of an instant to come, which waits, and a timed store. -/
def Sys2Proof.Spec.peersServed : Prop :=
  ∀ (s : State) (o : Origin) (pa n : Nat) (timed : Bool) (v : PWord) (at_ : Word) (drop : Bool),
    let old : PWord := ⟨BitVec.ofNat 64 (Spec.bytes s.hbm pa n), s.hbm.bad pa⟩
    let sum := (Spec.bytes s.hbm pa n + v.val.toNat) % 2 ^ (8 * n)
    let sl := sliceOfPa pa
    let asks := fun (r : PeerReq) => s.fabric = [(s.ev.idx, .access o pa timed r false)]
    let answers := fun (t : State) (a : PeerAnswer) => t.fabric = [(s.seq, .answer o a)]
    s.ev.ok2 = true → Spec.atHome s pa n →
      (asks (.read n) → ∃ t, exec .loadReplyLand s = .next t ∧ answers t (.value old false) ∧ t.hbm = s.hbm) ∧
      (asks (.write n v .no) → ∃ t, exec .plainStoreArrive s = .next t ∧ answers t .done ∧
        Spec.stored s.hbm t.hbm pa n v.val.toNat (v.poison || (n != 8 && s.hbm.bad pa))) ∧
      (asks (.atom .add n v) → v.poison = false → (n = 4 ∨ n = 8) → ∃ t, exec .atomicAtHome s = .next t ∧
        answers t (.value old false) ∧ Spec.stored s.hbm t.hbm pa n sum (s.hbm.bad pa)) ∧
      (asks (.merge .add n v .no) → v.poison = false → (n = 4 ∨ n = 8) → ∃ t, exec .mergeArrive s = .next t ∧ answers t .done ∧
        Spec.stored s.hbm t.hbm pa n sum (s.hbm.bad pa)) ∧
      (asks (.tld at_) → n = 8 → ((s.time - at_).toInt ≤ 0 → ∃ t, exec .tldServe s = .next t ∧ t.hbm = s.hbm ∧
          t.fabric = [(s.ev.idx, .access o pa timed (.tld at_) true)]) ∧
        (256 < (s.time - at_).toInt → ∃ t, exec .tldServe s = .next t ∧ answers t (.value old true) ∧ t.hbm = s.hbm)) ∧
      (asks (.tst at_ v drop .no) → n = 8 → (s.slice sl).tq.length < 4096 →
        (0 < (at_ - s.time).toInt → ∃ t q, exec .timedStoreArrive s = .next t ∧ answers t (.stored false false false) ∧
          t.hbm = s.hbm ∧ (t.slice sl).tq = (s.slice sl).tq ++ [q] ∧ q.pa = pa ∧ q.n = 8 ∧ q.val = v ∧ q.instant = some at_ ∧
          q.origin = o) ∧
        (0 < (s.time - at_).toInt → drop = false → ∃ t, exec .timedStoreArrive s = .next t ∧ answers t (.stored true false false) ∧
          Spec.stored s.hbm t.hbm pa 8 v.val.toNat v.poison))

/-- R201: the push, and the pull, that waits longest at a bank in FIFO mode retires when its entries fit: a push appends its value, a
pull takes the oldest. -/
def Sys2Proof.Spec.fifoWaitsEnd : Prop :=
  ∀ (s : State) (w : FifoWait) (d base : Reg) (sc : Scope) (imm : BitVec 12) (jmm : BitVec 11) (off : Nat),
    let s' := { s with ev := { s.ev with core := w.core, ctx := w.ctx } }
    let u := Spec.woken s'
    let cl := s.ev.unit
    let f := s.fifo cl s.ev.idx
    let at_ := fun (i : Int) => BitVec.ofInt 64 ((u.gReg base).val.toInt + 8 * i)
    f.waiters = [w] → w.k = 1 → Spec.quiet u → u.specTask w.core = none → s.specTask w.core = none →
    (u.gReg base).poison = false → (u.gReg base).val.toNat % 8 = 0 → off < 2048 → (s.cluster cl).mode s.ev.idx = .fifo →
      (Spec.inside s' (.std d base sc .plain imm) → w.push = true → u.reach .store 8 (at_ imm.toInt) = .place (.sram cl (4096 * s.ev.idx + off)) →
        (u.gReg d).poison = false → f.ents.length < 512 →
          ∃ t, exec .fifoPush s = .next t ∧ (s.ev.ok = true → exec .fifoWaitComplete s = .next t) ∧
            (t.fifo cl s.ev.idx).ents = f.ents ++ [u.gReg d] ∧ (t.fifo cl s.ev.idx).waiters = [] ∧ t.me.g = u.me.g) ∧
      (∀ v r, Spec.inside s' (.ldd d base sc .plain jmm) → w.push = false →
        u.reach .load 8 (at_ jmm.toInt) = .place (.sram cl (4096 * s.ev.idx + off)) → f.ents = v :: r →
          ∃ t, exec .fifoPull s = .next t ∧ (s.ev.ok = false → exec .fifoWaitComplete s = .next t) ∧
            (t.fifo cl s.ev.idx).ents = r ∧ (t.fifo cl s.ev.idx).waiters = [] ∧ t.me.g = (u.setG d v).me.g)

/-- Loads, timed loads and atomics at their homes, and their replies. Each part says its rules. -/
def Obligations.RepliesAndHomes : Prop :=
  Spec.repliesLand ∧ Spec.homesAnswer

/-- Stores, write-backs, merges and acknowledgements. Each part says its rules. -/
def Obligations.StoresAtHomes : Prop :=
  Spec.storesArrive ∧ Spec.homesWritten ∧ Spec.peersServed

/-- Pool, lane, bank and FIFO waits end when what they wait for is there. Each part says its rules. -/
def Obligations.GrantsEndWaits : Prop :=
  Spec.claimsGranted ∧ Spec.lanesGranted ∧ Spec.bankDrained ∧ Spec.fifoWaitsEnd

/-! ### Tasks and launches (13; 07 R182; 04 R90, R106) -/

namespace Sys2Proof.Spec

/-- Words of the executing core's own local store from an offset. -/
def lsWords (s : State) (off n : Nat) : List PWord := (List.range n).map fun i => s.myCore.ls.read (off + 8 * i) 8
/-- An instruction of the task engine may act: nothing of the core is to be waited for or released, and its task is not
speculative. -/
def taskReady (s : State) (i : Instr) : Prop :=
  s.cur.core < mgmtCore ∧ runs i s ∧ quiet s ∧ emptyCluster s ∧ s.specTask s.cur.core = none
/-- A task is not yet dispatched (R321). -/
def undispatched (k : Task) : Prop := k.phase = .queued ∨ (∃ c, k.phase = .fetching c) ∨ (∃ c, k.phase = .awaiting c) ∨ ∃ c, k.phase = .landed c
/-- A task's number (R314). -/
def taskNumber (k : Task) (slot : Nat) : Nat := k.gen.toNat * 1024 + slot

end Sys2Proof.Spec

/-- R302 to R305 and R320: LAUNCH of a valid record and base descriptor in the own local store puts the launch in the sector's intake,
with both as read (log 12, the model's choice), under the next launch number, which g[d] takes, and sets p1; of a record with a poisoned word or one that R305 calls invalid it traps
with cause launch fault; with 8 launches waiting it only clears p1. -/
def Sys2Proof.Spec.launchTakes : Prop :=
  ∀ (s : State) (d a : Reg) (q : Pred) (off boff : Nat),
    let r := Spec.lsWords s off 16
    let b := Spec.lsWords s boff 8
    let words := fun (l : List PWord) => l.map PWord.val
    let sec := s.cur.core / 2048
    let t := s.myCore.bind.tenant
    Spec.taskReady s (.launch d a q) → s.gReg a = ⟨BitVec.ofNat 64 (Spec.lsBase + off), false⟩ → off % 128 = 0 → off + 128 ≤ 6144 →
      (8 ≤ (s.sector sec).intake.length → exec (.launch d a q) s = .next (s.setP 1 ⟨false, false⟩).retire) ∧
      ((s.sector sec).intake.length < 8 → (r.any PWord.poison = true →
        exec (.launch d a q) s = .next (s.takeTrap s.cur.core s.cur.ctx 0x15 (s.gReg a).val))) ∧
      ((s.sector sec).intake.length < 8 → r.any PWord.poison = false → b.any PWord.poison = false →
        (words r).getD 0 0 = BitVec.ofNat 64 (Spec.lsBase + boff) → boff % 8 = 0 → boff + 64 ≤ 6144 →
        (s.recordBad t (words r) (words b) = true →
          exec (.launch d a q) s = .next (s.takeTrap s.cur.core s.cur.ctx 0x15 (s.gReg a).val)) ∧
        (s.recordBad t (words r) (words b) = false → recPen (words r) = false → (s.sector sec).tasks = [] →
          let num := (s.sector sec).nextNum
          ∃ u, exec (.launch d a q) s = .next u ∧ u.pReg 1 = ⟨true, false⟩ ∧ u.me.g = (s.setG d ⟨num.setWidth 64, false⟩).me.g ∧
            (u.sector sec).intake = (s.sector sec).intake ++ [⟨(s.gReg a).val, t, num, none, some (words r, words b)⟩] ∧
            (u.sector sec).nextNum = num + 1))

/-- R308, R309, R314 and R320: SPAWN of a valid descriptor in the own local store enters a task in a free slot of the table of the
spawner's task, queued and with the spawner as its parent and its TVEC, writes its number to g[d] and sets p1; without a free slot it only
clears p1. -/
def Sys2Proof.Spec.spawnEnters : Prop :=
  ∀ (s : State) (d a : Reg) (q : Pred) (off : Nat) (ref : TaskRef) (k : Task),
    let w := Spec.lsWords s off 8
    let words := w.map PWord.val
    Spec.taskReady s (.spawn d a q) → s.gReg a = ⟨BitVec.ofNat 64 (Spec.lsBase + off), false⟩ → off % 64 = 0 → off + 64 ≤ 6144 →
    s.myCore.bind.task = some ref → s.taskAt ref = some k →
      ((∀ i, i < 1024 → (Table.find (s.sector ref.sec).tasks i).isSome = true) →
        exec (.spawn d a q) s = .next (s.setP 1 ⟨false, false⟩).retire) ∧
      (∀ j, j < 1024 → Table.find (s.sector ref.sec).tasks j = none → w.any PWord.poison = false → descBad words = false →
        (∀ e ∈ (s.sector ref.sec).tasks, e.2.mask = []) →
          ∃ u i x, exec (.spawn d a q) s = .next u ∧ i < 1024 ∧ Table.find (s.sector ref.sec).tasks i = none ∧
            Table.find (u.sector ref.sec).tasks i = some x ∧ x.desc = words ∧ x.phase = .queued ∧ x.spawned = true ∧
            x.parent = some ref.slot ∧ x.tvec = s.myCore.bind.tvec ∧ u.pReg 1 = ⟨true, false⟩ ∧
            u.me.g = (s.setG d ⟨BitVec.ofNat 64 (Spec.taskNumber x i), false⟩).me.g ∧
            ∀ o, o ≠ i → Table.find (u.sector ref.sec).tasks o = Table.find (s.sector ref.sec).tasks o)

/-- R321: TEDGE of a task that is not yet dispatched adds the earlier task to those it follows and unfixes its release, and sets p1;
when the earlier task is no longer in the table it only sets p1; when the later one is not, or is dispatched, or did not enter
later, it clears p1. -/
def Sys2Proof.Spec.tedgeAdds : Prop :=
  ∀ (s : State) (a b : Reg) (q : Pred) (x y : Nat) (kx ky : Task),
    let sec := s.cur.core / 2048
    let n := fun (v : PWord) => v.val.toNat % 65536
    let tasks := (s.sector sec).tasks
    let names := fun (v : PWord) (i : Nat) (k : Task) => Table.find tasks i = some k ∧ n v = Spec.taskNumber k i ∧ i < 1024
    Spec.runs (.tedge a b q) s → (s.gReg a).poison = false → (s.gReg b).poison = false →
      (Table.find tasks (n (s.gReg b) % 1024) = none → exec (.tedge a b q) s = .next (s.setP 1 ⟨false, false⟩).retire) ∧
      (names (s.gReg b) y ky →
        (¬ Spec.undispatched ky → exec (.tedge a b q) s = .next (s.setP 1 ⟨false, false⟩).retire) ∧
        (Spec.undispatched ky →
          (Table.find tasks (n (s.gReg a) % 1024) = none → exec (.tedge a b q) s = .next (s.setP 1 ⟨true, false⟩).retire) ∧
          (names (s.gReg a) x kx → ky.order ≤ kx.order → exec (.tedge a b q) s = .next (s.setP 1 ⟨false, false⟩).retire) ∧
          (names (s.gReg a) x kx → kx.order < ky.order → kx.mask = [] →
            ∃ u k, exec (.tedge a b q) s = .next u ∧ u.pReg 1 = ⟨true, false⟩ ∧ u.me.g = s.me.g ∧
              Table.find (u.sector sec).tasks y = some k ∧ x ∈ k.preds ∧ k.release = none ∧ k.desc = ky.desc ∧
              Spec.undispatched k ∧ ∀ o, o ≠ y → Table.find (u.sector sec).tasks o = Table.find tasks o)))

/-- R322: TINFO writes an item about the core's task to g[d] and retires: 9 LINEAR, 10 the release less TBASE, 11 the task number, 12
its flags and releases. -/
def Sys2Proof.Spec.tinfoReads : Prop :=
  ∀ (s : State) (d : Reg) (item : BitVec 4) (q : Pred) (ref : TaskRef) (k : Task) (l : Launch),
    Spec.runs (.tinfo d item q) s → s.myCore.bind.task = some ref → s.taskAt ref = some k →
    s.launchAt k.home k.launch = some l →
      ∃ v, exec (.tinfo d item q) s = .next (s.setG d ⟨v, false⟩).retire ∧
        (item = 9 → v = BitVec.ofNat 64 ((k.desc.getD 5 0).toNat / 2 ^ 40 % 2 ^ 24)) ∧
        (item = 10 → ∀ r, k.release = some r → v = r - l.tbase) ∧
        (item = 11 → v = BitVec.ofNat 64 (Spec.taskNumber k ref.slot)) ∧
        (item = 12 → v = BitVec.ofNat 64 ((if k.spec then 1 else 0) + (if k.tail then 2 else 0) + k.rereleases * 2 ^ 32))

/-- A core that runs no task, the management core among them, has nothing to tell of it: SPAWN only clears p1, TINFO writes 0, and on
the management core LAUNCH only clears p1. The model's choice (logs 30 and 59). -/
def Sys2Proof.Spec.taskInstructionsWithoutTask : Prop :=
  ∀ (s : State) (d a : Reg) (item : BitVec 4) (q : Pred), s.myCore.bind.task = none →
    (Spec.runs (.tinfo d item q) s → exec (.tinfo d item q) s = .next (s.setG d ⟨0, false⟩).retire) ∧
    ((s.gReg a).poison = false → Spec.quiet s → Spec.emptyCluster s →
      (Spec.runs (.spawn d a q) s → (s.gReg a).val.toNat % 64 = 0 → exec (.spawn d a q) s = .next (s.setP 1 ⟨false, false⟩).retire) ∧
      (Spec.runs (.launch d a q) s → (s.gReg a).val.toNat % 128 = 0 → s.cur.core = mgmtCore →
        exec (.launch d a q) s = .next (s.setP 1 ⟨false, false⟩).retire))

/-- R304, R311, R312, R315 and R317: a launch leaves the intake for the sector's launches, with its record as it stands then or as it is held
(log 12); the head of a queue that may run on a free
core, whose logical number no displaced task keeps, reserves it; a task without reads takes its footprint, at the bottom of the
core's local store, and one with reads may wait at their homes until its release closes; the best ready head is dispatched: context 0 at its entry with its arguments, every other context FREE. -/
def Sys2Proof.Spec.tasksStart : Prop :=
  ∀ (s : State),
    let sec := s.ev.unit
    let c := s.ev.core
    (∀ e rest r base s0, (s.sector sec).intake = e :: rest →
      (e.held = some (r, base) ∧ s0 = s ∨ e.held = none ∧ s.engineRecord e.tenant e.addr = (some (r, base), s0)) →
      s0.recordBad e.tenant r base = false → recPen r = false → recStaged r = false → recCtla r = 0 →
      0 < recTotal r → (∀ k, k < recLevels r → 0 < recCount r k) → e.slot = none →
      Table.find (s0.sector sec).launches (s.sector sec).nextKey = none →
        ∃ t l, exec .launchAccept s = .next t ∧ (t.sector sec).intake = rest ∧
          (t.sector sec).nextKey = (s.sector sec).nextKey + 1 ∧
          t.launchAt sec (s.sector sec).nextKey = some l ∧ l.num = e.num ∧ l.tenant = e.tenant ∧ l.rec_ = r ∧ l.base = base ∧
          l.tbase = (if recBabs r then r.getD 6 0 else s.time + r.getD 6 0) ∧ l.spec = false) ∧
    (∀ slot k l, (s.sector sec).head s.ev.idx = some (slot, k) → s.launchAt k.home k.launch = some l → k.phase = .queued →
      k.preds = [] → k.release.isSome = true → c / 2048 = sec → s.coreFits k l c = true → s.lcnKept (s.core c).lcn = false →
      (∀ i, i < 16 → ∀ h, (s.sector sec).head i = some h → h = (slot, k)) →
        ∃ t, exec .coreChoice s = .next t ∧ Table.find (t.sector sec).tasks slot = some { k with phase := .fetching c }) ∧
    (∀ k r, Table.find (s.sector sec).tasks s.ev.idx = some k → k.phase = .fetching c → k.release = some r →
      (s.ev.ok = false → descReads k.desc = [] →
        ∃ t, exec .footprintLanded s = .next t ∧ Table.find (t.sector sec).tasks s.ev.idx = some { k with phase := .landed c } ∧
          (t.core c).ls = ⟨[], []⟩ ∧ t.hbm = s.hbm) ∧
      (s.ev.ok = true → descReads k.desc ≠ [] → (s.time - r).toInt ≤ 0 →
        ∃ t, exec .footprintLanded s = .next t ∧ Table.find (t.sector sec).tasks s.ev.idx = some { k with phase := .awaiting c } ∧
          t.hbm = s.hbm)) ∧
    (∀ slot k l, s.bestHead sec = some (slot, k, c) → s.launchAt k.home k.launch = some l →
      Table.find (s.sector sec).tasks slot = some k →
        ∃ t, exec .taskDispatch s = .next t ∧ (t.core c).bind.task = some ⟨sec, slot, k.order⟩ ∧
          (t.core c).bind.tenant = l.tenant ∧ (t.core c).bind.tvec = k.tvec ∧ (t.core c).ls = (s.core c).ls ∧
          (t.ctx c 0).st = .ready ∧ (t.ctx c 0).pc = k.desc.getD 0 0 ∧ (t.ctx c 0).tr.priv = 0 ∧
          (∀ i : Reg, 1 ≤ i.val → i.val ≤ 4 → (t.ctx c 0).getG i = ⟨k.desc.getD i.val 0, false⟩) ∧
          (∀ i : Reg, 5 ≤ i.val → (t.ctx c 0).getG i = ⟨0, false⟩) ∧
          (∀ n : CtxId, n ≠ 0 → (t.ctx c n).st = .free) ∧
          ∃ k', Table.find (t.sector sec).tasks slot = some k' ∧ k'.phase = .running c ∧ k'.desc = k.desc)

/-- R315: the next task of a launch of one level of the launch's own sector enters its table at a free slot, with the descriptor of its
LINEAR and the launch's TVEC, behind the tasks of the table that its ranges follow. -/
def Sys2Proof.Spec.tasksEnter : Prop :=
  ∀ (s : State) (l : Launch) (j : Nat),
    let sec := s.ev.unit
    let c := s.ev.core
    c < mgmtCore → c / 2048 = sec → s.launchAt sec s.ev.idx = some l → l.ended = false → l.tail = false → l.spec = false →
    recLevels l.rec_ = 1 → recRename l.rec_ = false → l.next = some j → (∀ e ∈ (s.sector sec).tasks, e.2.mask = []) →
    (∃ i, i < 1024 ∧ Table.find (s.sector sec).tasks i = none) →
      ∃ t i x, exec .taskEnterTable s = .next t ∧ i < 1024 ∧ Table.find (s.sector sec).tasks i = none ∧
        Table.find (t.sector sec).tasks i = some x ∧ x.desc = descOf l.rec_ l.base j ∧ x.tvec = l.rec_.getD 1 0 ∧ x.phase = .queued ∧ x.home = sec ∧
        x.launch = s.ev.idx ∧ (∃ l', t.launchAt sec s.ev.idx = some l' ∧ l'.nextLin = j + 1) ∧
        (∀ o e, (o, e) ∈ (s.sector sec).tasks →
          ordersAfter e.desc (descReads x.desc) (descWrites x.desc) = true → o ∈ x.preds) ∧
        ∀ o, o ≠ i → Table.find (t.sector sec).tasks o = Table.find (s.sector sec).tasks o

/-- R106, R318 and R333: with nothing of its core left to perform or to release, the task that has exited, and the one that has failed,
leaves its core and the table, and its launch counts it; the first failure of a launch is recorded. -/
def Sys2Proof.Spec.tasksEnd : Prop :=
  ∀ (s : State) (ref : TaskRef) (k : Task) (l : Launch),
    let c := s.ev.core
    c < mgmtCore → (s.core c).bind.task = some ref → s.taskAt ref = some k → k.spec = false →
    s.launchAt k.home k.launch = some l → l.ended = false → recCtla l.rec_ = 0 → recStaged l.rec_ = false → l.next.isSome = true → l.spec = false →
    (s.core c).work.loads = [] → (s.core c).work.port = [] → (s.core c).work.vecs = [] → (s.core c).work.rq = [] →
    Spec.noCopies s c → (∀ h : Fin 8, (s.octet (octetOf c)).chans[h].queue = []) →
    (s.cluster (clusterOf c)).lines = [] → (s.cluster (clusterOf c)).wbs = [] → (s.cluster (clusterOf c)).acc = [] →
    (s.cluster (clusterOf c)).merges = [] → (∀ o, (s.octet o).laneQ = []) → (s.sector ref.sec).renames = [] →
      (k.phase = .retiring c → ∃ t l', exec .taskRetireComplete s = .next t ∧ (t.core c).bind.task = none ∧ t.taskAt ref = none ∧
        t.launchAt k.home k.launch = some l' ∧ l'.retired = l.retired + 1 ∧ l'.failed = l.failed) ∧
      (∀ cause value, k.phase = .failing c cause value →
        ∃ t l', exec .taskFailureComplete s = .next t ∧ (t.core c).bind.task = none ∧ t.taskAt ref = none ∧
          t.launchAt k.home k.launch = some l' ∧ l'.retired = l.retired ∧ l'.failed = l.failed + 1 ∧
          (l.failed = 0 → l'.firstCause = cause ∧ l'.firstVal = value))

/-- R316, R325, R328 and R329: the page of a rename whose writer has retired takes its new frame and the old one returns to the pool; a
speculative launch resolves to the count its shape word's home reports, notes its deadline once, and, its deadline noted, fails 65,536
ticks after it. -/
def Sys2Proof.Spec.launchesResolve : Prop :=
  ∀ (s : State) (l : Launch),
    let home := s.ev.unit
    let key := s.ev.idx
    (∀ r, (s.sector home).renames = [r] → s.ev.idx = 0 → r.done = true → (s.sector home).tasks = [] →
      ∃ t, exec .renameCommit s = .next t ∧ (t.sector home).renames = [] ∧
        (t.sector home).freeFrames = (s.sector home).freeFrames ++ [r.old]) ∧
    (s.launchAt home key = some l → l.spec = true → recCtla l.rec_ = 0 → s.allTasks = [] →
      (∀ n : Nat, (∀ e ∈ s.slices, e.2.watch = []) → s.ev.w = BitVec.ofNat 64 (2 ^ 63 + n) → n ≤ recCount l.rec_ (recPlevel l.rec_) →
        n < 2 ^ 17 → l.predicted = n → l.next = some l.nextLin → 0 < n → l.high = n → (s.time - (l.deadlineTick + 65536)).toInt ≤ 0 →
        (l.deadline = true ∨ (s.time - l.deadlineTick).toInt ≤ 0) →
          ∃ t l', exec .launchResolve s = .next t ∧ t.launchAt home key = some l' ∧ l'.spec = false ∧ l'.trueCount = n ∧
            l'.tail = false) ∧
      (l.deadline = false → 0 < (s.time - l.deadlineTick).toInt →
        ∃ t l', exec .deadlinePass s = .next t ∧ t.launchAt home key = some l' ∧ l'.deadline = true ∧ l'.spec = true) ∧
      (l.deadline = true → 0 < (s.time - (l.deadlineTick + 65536)).toInt → l.ended = false →
        ∃ t, exec .shapeExpire s = .next t ∧ t.launchAt home key = none))

/-- LAUNCH, SPAWN, TEDGE and TINFO. Each part says its rules. -/
def Obligations.LaunchInstructions : Prop :=
  Spec.launchTakes ∧ Spec.spawnEnters ∧ Spec.tedgeAdds ∧ Spec.tinfoReads ∧ Spec.taskInstructionsWithoutTask

/-- Tasks enter, start and end; launches resolve. Each part says its rules. -/
def Obligations.TasksRun : Prop :=
  Spec.tasksStart ∧ Spec.tasksEnter ∧ Spec.tasksEnd ∧ Spec.launchesResolve

/-! ### Matrix jobs that run, tasks that move (11 R261 to R263; 04 R112 to R119) -/

/-- An MCFG job (R271). -/
def Sys2Proof.Spec.isMcfg : Instr → Bool
  | .mcfgOwn _ _ _ | .mcfgFree _ _ _ | .mcfgQuery _ _ => true
  | _ => false

/-- R143, R261, R263 and R407: the job at the head of an octet's queue starts when its guard allows, the engine is idle and no brake
holds it; one whose guard is resolved against it is discarded, unless a brake of level 3 pauses the octet: its status is DISCARDED, and of
an MCFG job also what its core owns (log 75, the model's choice). A job that finishes has its effect (MZERO zeroes the tile of its owner, MCFG.OWN takes a free
accumulator tile), its status stands in its core's ring, and it completes its number of TLM. -/
def Sys2Proof.Spec.matrixJobsRun : Prop :=
  ∀ (s : State) (j : Job),
    let o := s.ev.unit
    let k := s.octet o
    j.core < mgmtCore → octetOf j.core = o →
      (k.queue = [j] → k.running = none → j.guard.g = 0 → s.spine.brake < 2 → j.isMmr = false →
        (∀ d t x m g, j.cmd ≠ .mscl d t x m g) →
          ∃ t, exec .matrixJobStart s = .next t ∧ (t.octet o).queue = [] ∧ (t.octet o).running = some j) ∧
      (2 ≤ s.spine.brake → k.queue = [j] → j.guard.g = 0 → exec .matrixJobStart s = .refused .eventDisabled) ∧
      (s.spine.brake < 3 → k.queue = [j] → j.guard.g ≠ 0 →
        (s.core j.core).guards[j.guard.g.toFin] = (if j.guard.gp then GuardState.isTrue else GuardState.isFalse) →
        (s.core j.core).jobs = [⟨j.no, 0, false⟩] → j.dsc.getLsbD 6 = false →
          ∃ t st, exec .matrixJobStart s = .next t ∧ (t.octet o).queue = [] ∧ (t.octet o).running = k.running ∧
            (t.core j.core).jobs = [⟨j.no, st, true⟩] ∧
            (if Spec.isMcfg j.cmd then
              st.toNat % 2 ^ 36 = 8 ∧ st.toNat / 2 ^ 48 = 0 ∧
              (∀ r : Fin 8, st.getLsbD (36 + r.val) = (k.tiles[r].owner == some (j.core % 8))) ∧
              ∀ r : Fin 4, st.getLsbD (44 + r.val) = (k.ops[r].owner == some (j.core % 8))
             else st = 8) ∧ (t.core j.core).tlm = (s.core j.core).tlm.complete j.num) ∧
      (k.running = some j → s.spine.brake < 3 → s.ev.ok = false → j.orphan = false → (s.core j.core).jobs = [⟨j.no, 0, false⟩] → j.dsc.getLsbD 6 = false →
        (∀ d tile x, j.cmd = .mzero d tile x j.guard → k.tiles[tile].owner = some (j.core % 8) →
          ∃ t, exec .matrixJobFinish s = .next t ∧ (t.octet o).running = none ∧
            (t.octet o).tiles = k.tiles.set tile ⟨some (j.core % 8), List.replicate 32 ⟨List.replicate 32 0, -512, false, false⟩⟩ ∧
            (t.core j.core).jobs = [⟨j.no, 0, true⟩] ∧ (t.core j.core).tlm = (s.core j.core).tlm.complete j.num) ∧
        (∀ d a, j.cmd = .mcfgOwn d a j.guard → j.arg = 1 → k.tiles[0].owner = none →
          ∃ t, exec .matrixJobFinish s = .next t ∧ (t.octet o).running = none ∧ (t.octet o).tiles[0].owner = some (j.core % 8) ∧
            (t.core j.core).tlm = (s.core j.core).tlm.complete j.num))

/-- R112, R114, R117, R118, R160 and R270: the task engine asks a core for its task, and takes the task off once its waits are over, both
with no MMR in the group; a displaced task goes on on a free core of its group whose time is not behind, with room in its octet's queue for its withdrawn
jobs (R253); a task moves from a core past its thermal limit to one that is not, which takes its
logical number. -/
def Obligations.TasksMove : Prop :=
  ∀ (s : State) (ref : TaskRef) (k : Task),
    let c := s.ev.core
    let d := s.ev.core2
    let still := (s.cluster (clusterOf c)).lines = [] ∧ (s.cluster (clusterOf c)).wbs = [] ∧ (s.cluster (clusterOf c)).acc = [] ∧
      (s.cluster (clusterOf c)).merges = []
    ((s.core c).bind.task = some ref → s.taskAt ref = some k → k.phase = .running c →
      ((s.core c).stop = none → s.mmrInGroup (groupOf c) = false →
        exec .displacement s = .next (s.modCore c fun x => { x with stop := some .displace })) ∧
      ((s.core c).stop = some .displace → s.movable c ref = true → s.mmrInGroup (groupOf c) = false → still →
        ∃ t k', exec .displacement s = .next t ∧ (t.core c).bind.task = none ∧ t.taskAt ref = some k' ∧ k'.phase = .displaced ∧
          k'.desc = k.desc) ∧
      ((s.core c).stop = none → s.mmrInGroup (groupOf c) = false → s.octetBound c ref = false → c ≠ d → groupOf c = groupOf d →
        s.coreFree d = true → s.pastLimit c = true → s.pastLimit d = false →
          exec .thermalMigration s = .next (s.modCore c fun x => { x with stop := some (.migrate d) })) ∧
      ((s.core c).stop = some (.migrate d) → s.movable c ref = true → s.octetBound c ref = false → c ≠ d → c < mgmtCore →
        d < mgmtCore → 0 ≤ (s.now d - s.now c).toInt → s.physOf (s.core c).lcn.toNat = c → (∀ o, (s.octet o).laneQ = []) →
        (∀ n, (s.ctx c n).lanes.kept = 0) → still →
          ∃ t k', exec .migrationSwitch s = .next t ∧ (t.core c).bind.task = none ∧ (t.core d).bind.task = some ref ∧
            (t.core d).lcn = (s.core c).lcn ∧ (t.core c).lcn = (s.core d).lcn ∧ (∀ n, (t.ctx d n).g = (s.ctx c n).g) ∧
            t.taskAt ref = some k' ∧ k'.phase = .running d)) ∧
    (∀ old, Table.find (s.sector s.ev.unit).tasks s.ev.idx = some k → k.phase = .displaced → k.parked = some old →
      ref = ⟨s.ev.unit, s.ev.idx, k.order⟩ → old.bind.task = some ref → k.acks = [] →
      (s.boundOctet ref k.withdrawn = none ∨ s.boundOctet ref k.withdrawn = some (octetOf c)) → s.coreFree c = true →
      k.withdrawn.length + (s.octet (octetOf c)).queue.length + (if (s.octet (octetOf c)).running.isSome then 1 else 0) ≤ 16 →
      groupOf c = groupOf old.lcn.toNat → 0 ≤ (s.now c - k.left).toInt →
        ∃ t k', exec .resume s = .next t ∧ (t.core c).bind.task = some ref ∧ t.taskAt ref = some k' ∧ k'.phase = .running c)

/-- Matrix jobs enter, run, finish and are read. Each part says its rules. -/
def Obligations.MatrixJobs : Prop :=
  Spec.matrixJobsEnter ∧ Spec.jobStatusRead ∧ Spec.matrixJobsRun

/-! ### Copy channels (12 R276 to R293) -/

namespace Sys2Proof.Spec

/-- The task of a logical core does not migrate (R119). -/
def stays (s : State) (l : BitVec 18) : Prop := ∀ d, (s.core (s.physOf l.toNat)).stop ≠ some (.migrate d)

/-- A copy of one element of 8 bytes, without a loop, a tag or a forwarded tag (R280, R281). -/
def oneElement (cs : CopyStart) : Prop :=
  cs.mode = 0 ∧ cs.cmode = 0 ∧ cs.looping = false ∧ cs.ndim = 1 ∧ cs.count 0 = 1 ∧ cs.size = 8 ∧ cs.tagen = false ∧
    (cs.word 7).getLsbD 63 = false

/-- The task of a copy is not speculative. -/
def resolved (s : State) (cs : CopyStart) : Prop := ∀ r k, cs.task = some r → s.taskAt r = some k → k.spec = false
/-- Nothing keeps a copy from its next step: no brake of level 2 or 3 (R407), no stop of its core, and its task is not displaced
(R301). -/
def copyMoves (s : State) (cs : CopyStart) : Prop :=
  s.spine.brake < 2 ∧ (s.core cs.core).stop = none ∧ ∀ r k, cs.task = some r → s.taskAt r = some k → k.phase ≠ .displaced

end Sys2Proof.Spec

/-- R276, R279, R281, R282, R285, R288, R291 and R292: a start leaves the port for its channel's queue; at the head, an invalid one ends with
BAD and a valid one runs; a copy of one element puts the word at its source at its destination in the local store and is delivered
and complete at once; a write on its way is performed at its home; a delivered copy without writes on their way ends and completes its
number of TLC. A source that does not exist freezes the channel; RESUME runs it
again and ABORT ends it. A channel whose release word has come opens its next iteration. -/
def Sys2Proof.Spec.copiesRun : Prop :=
  ∀ (s : State) (i : Fin 8) (cs : CopyStart) (rest : List CopyStart),
    let o := s.ev.unit
    let h := (s.octet o).chans[i]
    let c := cs.core
    let quietCluster := (s.cluster (clusterOf c)).lines = [] ∧ (s.cluster (clusterOf c)).wbs = [] ∧
      (s.cluster (clusterOf c)).acc = [] ∧ (s.cluster (clusterOf c)).merges = []
    i.val = s.ev.idx → c < mgmtCore → octetOf c = o →
      (h.cur = none → h.queue = cs :: rest → cs.mode = 0 → cs.ndim = 0 →
        ∃ t, exec .copyQueueHead s = .next t ∧ (t.octet o).chans[i].cur = none ∧ (t.octet o).chans[i].queue = rest ∧
          (t.octet o).chans[i].flags = 0x80) ∧
      (h.cur = none → h.queue = cs :: rest → s.templateBad cs = false → quietCluster → (s.core c).work.port = [] →
        (s.core c).work.loads = [] → (s.core c).work.vecs = [] → (s.core c).work.rq = [] → Spec.copyMoves s cs →
          ∃ t, exec .copyQueueHead s = .next t ∧ (t.octet o).chans[i].cur = some cs ∧ (t.octet o).chans[i].queue = rest ∧
            (t.octet o).chans[i].state = .running ∧ (t.octet o).chans[i].elem = 0 ∧ (t.octet o).chans[i].flags = 0) ∧
      (h.cur = some cs → h.state = .running → h.elem = 0 → h.iter = 0 → h.writes = [] → h.delivered = [] → Spec.oneElement cs →
        s.ev.w = 0 → Spec.copyMoves s cs →
          (∀ a b : Nat, cs.src = Spec.lsAddr a → cs.dst = Spec.lsAddr b → a % 8 = 0 → b % 8 = 0 → a + 8 ≤ 6144 → b + 8 ≤ 6144 →
            (s.core c).ls.wf = true →
              ∃ t, exec .copyDelivered s = .next t ∧ (t.octet o).chans[i].cur = none ∧ (t.octet o).chans[i].state = .idle ∧
                ((s.core c).bind.task = cs.task → (s.core c).tlc.cnt.toNat < cs.num → (s.core c).tlc.ahead = [] →
                  (t.core c).tlc = (s.core c).tlc.complete cs.num) ∧ t.hbm = s.hbm ∧
                Spec.stored (s.core c).ls (t.core c).ls b 8 (Spec.bytes (s.core c).ls a 8) ((s.core c).ls.bad a)) ∧
          (2 ^ 48 ≤ cs.src.toNat →
            ∃ t, exec .copyFreeze s = .next t ∧ (t.octet o).chans[i].state = .frozen ∧ (t.octet o).chans[i].faddr = cs.src ∧
              (t.octet o).chans[i].flags &&& 7 = 1)) ∧
      (∀ w pa timed, h.cur = some cs → h.writes = [w] → w.place = .phys pa timed → w.refused = none → Spec.atHome s pa w.n →
        quietCluster → Spec.resolved s cs → s.ev.w = 0 →
          ∃ t, exec .copyComplete s = .next t ∧ (t.octet o).chans[i].writes = [] ∧
            Spec.stored s.hbm t.hbm pa w.n w.val.val.toNat (w.val.poison || (w.n != 8 && s.hbm.bad pa))) ∧
      (h.cur = some cs → h.state = .running → h.writes = [] → h.delivered = [cs.num] → h.iter = 0 → cs.looping = false →
        Spec.copyMoves s cs →
        (s.core c).bind.task = cs.task → (s.core c).tlc.cnt.toNat < cs.num → (s.core c).tlc.ahead = [] → s.ev.w = 0 →
          ∃ t, exec .copyComplete s = .next t ∧ (t.octet o).chans[i].cur = none ∧ (t.octet o).chans[i].state = .idle ∧
            (t.core c).tlc = (s.core c).tlc.complete cs.num) ∧
      (h.cur = some cs → h.state = .waitRelease → Spec.copyMoves s cs → s.stageFree cs (h.iter + 1) = true →
        ∃ t, exec .copyIterationRelease s = .next t ∧ (t.octet o).chans[i].iter = h.iter + 1 ∧
          (t.octet o).chans[i].elem = 0 ∧ (t.octet o).chans[i].state = .running)
/-- R119, R276, R279, R286 and R292: what core and fabric bring to a channel and to a core. An ABORT leaves the writes of the current
iteration undone, and performs that of an earlier one first. A forwarded tag is for the task that the core ran when it was sent: the
router takes it in while that task migrates, and it is dropped once the task has ended. That it waits while the task is displaced is the
model's choice (log 54). -/
def Sys2Proof.Spec.copiesCommanded : Prop :=
  ∀ (s : State) (e : PortEntry) (i : Fin 8),
    let c := s.ev.core
    let o := octetOf c
    let h := (s.octet o).chans[i]
    (c < mgmtCore → (s.core c).work.port = [e] → e.id = s.ev.idx → (s.core c).work.loads = [] → (s.core c).work.vecs = [] →
      (s.core c).work.rq = [] →
      (∀ tidx image psrc pdst sup num, e.kind = .start i tidx image psrc pdst sup num → h.queue.length < 4 → s.specTask c = none →
        ∃ t cs, exec .copyStart s = .next t ∧ (t.core c).work.port = [] ∧ (t.octet o).chans[i].queue = h.queue ++ [cs] ∧
          cs.core = c ∧ cs.ctx = e.ctx ∧ cs.tidx = tidx ∧ cs.image = image ∧ cs.psrc = psrc ∧ cs.pdst = pdst ∧ cs.num = num) ∧
      (e.kind = .plain → e.place = .aperture i.val 0 → h.state = .frozen → h.cur.isSome = true →
        (e.val.val.getLsbD 7 = true →
          ∃ t, exec .copyResume s = .next t ∧ (t.core c).work.port = [] ∧ (t.octet o).chans[i].state = .running ∧
            (t.octet o).chans[i].faddr = 0 ∧ (t.octet o).chans[i].cur = h.cur) ∧
        (∀ cs, e.val.val.getLsbD 8 = true → h.cur = some cs → cs.core = c → cs.mode = 0 →
          let ends := fun (t : State) => exec .copyAbort s = .next t ∧ (t.core c).work.port = [] ∧ (t.octet o).chans[i].state = .idle ∧
            (t.octet o).chans[i].cur = none ∧ (t.octet o).chans[i].flags.getLsbD 6 = true ∧ (t.octet o).chans[i].writes = []
          ((∀ w ∈ h.writes, w.num = cs.num + h.iter) → ∃ t, ends t ∧ t.hbm = s.hbm) ∧
          (∀ w pa timed, h.writes = [w] → w.num ≠ cs.num + h.iter → w.place = .phys pa timed → w.refused = none → Spec.atHome s pa w.n →
            (s.cluster (clusterOf c)).lines = [] → (s.cluster (clusterOf c)).wbs = [] → Spec.resolved s cs →
              ∃ t, ends t ∧ Spec.stored s.hbm t.hbm pa w.n w.val.val.toNat (w.val.poison || (w.n != 8 && s.hbm.bad pa)))))) ∧
    (∀ l tg err task, s.fabric = [(s.ev.idx, .tag l tg err (some task))] → s.routed = [] →
      let d := s.physOf l.toNat
      ((s.core d).bind.task ≠ some task → s.taskAt task = none → exec .forwardedTag s = .next { s with fabric := [] }) ∧
      ((s.core d).bind.task ≠ some task → (∀ k, s.taskAt task = some k → k.phase = .displaced) → s.taskAt task ≠ none →
        exec .forwardedTag s = .refused .eventDisabled) ∧
      (∀ x, (s.core d).bind.task = some task → (s.core d).stop = some (.migrate x) →
        exec .forwardedTag s = .next { s with routed := [s.ev.idx] }) ∧
      ((s.core d).bind.task = some task → Spec.stays s l →
        ∃ t, exec .forwardedTag s = .next t ∧ t.fabric = [] ∧
          (t.core d).tags = (if err then (s.core d).tags else (s.core d).tags ||| BitVec.ofNat 64 (2 ^ tg.toNat)) ∧
          (t.core d).tagerr = (if err then (s.core d).tagerr ||| BitVec.ofNat 64 (2 ^ tg.toNat) else (s.core d).tagerr)))

/-- Copy channels run and are commanded. Each part says its rules. -/
def Obligations.Copies : Prop :=
  Spec.copiesRun ∧ Spec.copiesCommanded

/-! ### Packets, remote reads and links (15) -/

namespace Sys2Proof.Spec

/-- A recipient core runs a task of a tenant, no displaced task keeps its number, and the task does not migrate (R119, R378, R386,
R388). -/
def receives (s : State) (l : BitVec 18) (tenant : BitVec 12) : Prop :=
  s.lcnKept l = false ∧ stays s l ∧ (s.core (s.physOf l.toNat)).bind.task.isSome = true ∧ (s.core (s.physOf l.toNat)).bind.tenant = tenant
/-- A drop window of a core admits `n` bytes at an address for a tenant (R385). -/
def opened (s : State) (c : CoreId) (tenant : BitVec 12) (x : Word) (n : Nat) : Prop :=
  ∃ i : Fin 4, ∃ w, (s.core c).drops[i] = some w ∧ w.tenant = tenant ∧ w.base.toNat ≤ x.toNat ∧
    x.toNat + n ≤ w.base.toNat + w.size
/-- A tag as a word. -/
def tagBit (n : Nat) : Word := BitVec.ofNat 64 (2 ^ n)
/-- The one message on the fabric, which no router has taken in. -/
def onlyMsg (s : State) (m : Msg) : Prop := s.fabric = [(s.ev.idx, m)] ∧ s.routed = []

end Sys2Proof.Spec

/-- R119, R327, R373, R374, R376, R378, R385 and R388: the oldest packet of a send buffer sets out, whichever task runs there by then, unless its own
is speculative; one that arrives enters the receive queue of its core when
the core runs a task of the sender's tenant and has room, and is refused without room, to be offered again after 4 ticks; with no
such task it is discarded; of a displaced task it is refused, and of one that migrates the router takes it in. One with a window address is written there when a drop window admits it, and sets its tag. -/
def Obligations.PacketsTravel : Prop :=
  ∀ (s : State) (p : SendPacket) (r : List SendPacket) (peer : BitVec 16) (lcn : BitVec 18) (tenant : BitVec 12) (dest : Word)
    (win : Option Word) (data : List PWord) (refused : Option Word),
    let c := s.ev.core
    let d := s.physOf (rwLcn dest).toNat
    let slots := fun (l : List PWord) => if l.length ≤ 8 then 1 else 2
    let used := ((s.core d).rx.held.map fun x => slots x.data).sum
    let msg := fun (x : Option Word) => Msg.packet peer lcn tenant dest win data x
    let room := used + slots data ≤ 16
    ((s.core c).work.send = p :: r → (∀ x k, p.task = some x → s.taskAt x = some k → k.spec = false) →
      ∃ t, exec .packetSend s = .next t ∧ (t.core c).work.send = r ∧
        t.fabric = s.fabric ++ [(s.seq, .packet 0 p.lcn p.tenant p.dest p.window p.data none)]) ∧
    (Spec.onlyMsg s (msg refused) → dest.toNat / 2 ^ 48 = 0 →
      (∀ x, refused = none → (s.core d).stop = some (.migrate x) →
        exec .packetArrive s = .next { s with routed := [s.ev.idx] }) ∧
      (refused = none → Spec.stays s (rwLcn dest) → s.lcnKept (rwLcn dest) = true →
        ∃ t, exec .packetArrive s = .next t ∧ Spec.onlyMsg { t with ev := s.ev } (msg (some s.time)) ∧ t.cores = s.cores) ∧
      (refused = none → Spec.stays s (rwLcn dest) → s.lcnKept (rwLcn dest) = false → (s.core d).bind.task = none → s.spine.evq.length < 256 →
        ∃ t, exec .packetArrive s = .next t ∧ t.fabric = [] ∧ t.spine.evq.length = s.spine.evq.length + 1 ∧
          t.spine.evq.take s.spine.evq.length = s.spine.evq) ∧
      (Spec.receives s (rwLcn dest) tenant → win = none →
        (refused = none → ¬ room → ∃ t, exec .packetArrive s = .next t ∧ Spec.onlyMsg { t with ev := s.ev } (msg (some s.time))) ∧
        (room → ∀ i, (i = .packetArrive ∧ refused = none ∨ i = .packetRetry ∧ ∃ x, refused = some x ∧ s.time = x + 4) →
          ∃ t, exec i s = .next t ∧ t.fabric = [] ∧
            (t.core d).rx.held = (s.core d).rx.held ++ [⟨peer, lcn, (s.core d).rx.next, data⟩] ∧
            (t.core d).rx.next = ((s.core d).rx.next + slots data) % 16)) ∧
      (∀ off v w, Spec.receives s (rwLcn dest) tenant → refused = none → win = some (Spec.lsAddr off) → data = [v, w] →
        off % 8 = 0 → off + 16 ≤ 6144 → Spec.opened s d tenant (Spec.lsAddr off) 16 → (s.core d).ls.wf = true → d < mgmtCore →
          ∃ t, exec .packetArrive s = .next t ∧ t.fabric = [] ∧ (t.core d).ls.read off 8 = v ∧ (t.core d).ls.read (off + 8) 8 = w ∧
            (t.core d).tags = (s.core d).tags ||| (if dest.getLsbD 6 then Spec.tagBit (dest.toNat % 64) else 0)))

/-- R143, R381, R383, R384 and R386: an RLD whose guard allows copies its source to its destination in the local store, sets its tag
and completes its number of TLF; under a guard resolved against it, it only sets the tag and completes. FETCHTO reads its
source and sends it to its recipient, which writes it where a drop window admits it, sets RTAG and answers; the last answer sets
ATAG and completes the number; that of a peer comes by an up-link. The source of a peer's FETCHTO is read at its home here, and the reply names that peer's
requester. -/
def Obligations.RemoteReadsRun : Prop :=
  ∀ (s : State) (r : RemoteCmd) (a b : Nat),
    let c := s.ev.core
    (s.ev.ok2 = false → (s.core c).work.rq = [r] → r.num = s.ev.idx → c < mgmtCore → s.specTask c = none → s.isSpec r.task = false →
      (s.core c).work.loads = [] → (s.core c).work.port = [] → (s.core c).work.vecs = [] →
      (r.guard.g ≠ 0 → (s.core c).guards[r.guard.g.toFin] = (if r.guard.gp then GuardState.isTrue else GuardState.isFalse) →
        ∃ t, exec (if r.fetchto then .fetchtoSourceRead else .rldReply) s = .next t ∧ (t.core c).work.rq = [] ∧
          (t.core c).tags = (s.core c).tags ||| Spec.tagBit (if r.fetchto then rwAtag r.rw else rwRtag r.rw) ∧
          (t.core c).tlf = (s.core c).tlf.complete r.num) ∧
      (r.guard.g = 0 → r.n = 8 → r.src = Spec.lsAddr a → a % 8 = 0 → a + 8 ≤ 6144 →
        (r.fetchto = false → r.dst = Spec.lsAddr b → b % 8 = 0 → b + 8 ≤ 6144 → (s.core c).ls.wf = true →
          ∃ t, exec .rldReply s = .next t ∧ (t.core c).work.rq = [] ∧ (t.core c).ls.read b 8 = (s.core c).ls.read a 8 ∧
            (t.core c).tags = (s.core c).tags ||| Spec.tagBit (rwRtag r.rw) ∧ (t.core c).tlf = (s.core c).tlf.complete r.num) ∧
        (r.fetchto = true → rwMc r.rw = false → r.rw.toNat / 2 ^ 48 = 0 →
          ∃ t o m, exec .fetchtoSourceRead s = .next t ∧ (t.core c).work.rq = [] ∧
            (t.core c).work.fetches = (s.core c).work.fetches ++ [o] ∧ o.num = r.num ∧ o.left = 1 ∧ o.failed = false ∧
            o.atag = rwAtag r.rw ∧ t.fabric = s.fabric ++ [(m, .reply 0 (s.core c).lcn.toNat o.id (s.core c).bind.tenant 0 (rwLcn r.rw)
              r.dst (BitVec.ofNat 6 (rwRtag r.rw)) [(s.core c).ls.read a 8] none)]))) ∧
    (∀ o pa timed num rw dst, s.ev.ok2 = true → Spec.onlyMsg s (.access o pa timed (.fetch num 8 rw dst) false) →
      Spec.atHome s pa 8 → rwMc rw = false →
        let device := if rwPeer rw = 0 then o.peer else if s.isSelf (rwPeer rw) then 0 else rwPeer rw
        ∃ t m, exec .fetchtoSourceRead s = .next t ∧ t.hbm = s.hbm ∧ t.fabric = [(m, .reply o.peer o.lcn.toNat num o.tenant device
          (rwLcn rw) dst (BitVec.ofNat 6 (rwRtag rw)) [⟨BitVec.ofNat 64 (Spec.bytes s.hbm pa 8), s.hbm.bad pa⟩] none)]) ∧
    (∀ dev req num tenant l rtag v, Spec.onlyMsg s (.reply dev req num tenant 0 l (Spec.lsAddr b) rtag [v] none) →
      let d := s.physOf l.toNat
      Spec.receives s l tenant → d < mgmtCore → b % 8 = 0 → b + 8 ≤ 6144 → Spec.opened s d tenant (Spec.lsAddr b) 8 →
      (s.core d).ls.wf = true →
        ∃ t m, exec .fetchtoReplyArrive s = .next t ∧ t.fabric = [(m, .ack l dev req num none)] ∧ (t.core d).ls.read b 8 = v ∧
          (t.core d).tags = (s.core d).tags ||| Spec.tagBit rtag.toNat) ∧
    (∀ l req o, s.ev.ok = false → Spec.onlyMsg s (.ack l 0 req o.id none) →
      let d := s.physOf req
      (s.core d).work.fetches = [o] → o.left = 1 → o.failed = false →
        ∃ t, exec .fetchtoAck s = .next t ∧ t.fabric = [] ∧ (t.core d).work.fetches = [] ∧
          (t.core d).tags = (s.core d).tags ||| Spec.tagBit o.atag ∧ (t.core d).tlf = (s.core d).tlf.complete o.num) ∧
    (∀ o, s.ev.ok = true → s.ev.w = 0 → Spec.linked s → (s.core c).work.fetches = [o] → o.id = s.ev.idx → o.left = 1 → o.failed = false → s.fabric = [] →
      ∃ t, exec .fetchtoAck s = .next t ∧ (t.core c).work.fetches = [] ∧
        (t.core c).tags = (s.core c).tags ||| Spec.tagBit o.atag ∧ (t.core c).tlf = (s.core c).tlf.complete o.num)

/-- R368, R389 to R392 and R422: training, which needs stage 9 or RUN, ends in RUN with the greater nonce primary, and the last up-link
trained in stage 9 ends the start; a frame of n data flits, sent on the link that the message's destination names, advances a counter by n, and a link with one
value left holds and raises REKEY; a frame with the IV of the receiver's own count and a right tag brings its packet or its access; one
whose IV or tag is wrong is discarded, though the counter advances by its flits, and the 16th in a row brings the link down; what a link
that leaves RUN has sent without an acknowledgement is to be sent again; an acknowledgement drops the packet; a link that has held for 125,000 ticks goes down; retraining leaves DOWN. -/
def Obligations.LinksRun : Prop :=
  ∀ (s : State), let u := s.ev.unit
    let l := s.link u
    let n := s.ev.w.toNat
    let trains := s.spine.stage = 9 ∨ s.spine.stage = 0xF
    u < 36 →
      (l.state = .train → trains → s.ev.w ≠ s.ev.w2 → ∃ t, exec .linkTrainingComplete s = .next t ∧ (t.link u).state = .run ∧
        ((t.link u).prim = true ↔ s.ev.w2.toNat < s.ev.w.toNat) ∧ (t.link u).txCtr = l.txCtr ∧
        (s.spine.stage = 9 → (∀ v, v < 36 → v ≠ u → (s.link v).state ≠ .train) →
          t.spine.stage = 0xF ∧ (t.ctx mgmtCore 0).st = .ready) ∧
        (∀ v, v < 36 → v ≠ u → (s.link v).state = .train → t.spine.stage = s.spine.stage)) ∧
      (l.state = .train → ¬ trains → exec .linkTrainingComplete s = .refused .eventDisabled) ∧
      (l.state = .train → trains → s.ev.w = s.ev.w2 → exec .linkTrainingComplete s = .next s) ∧
      (∀ m way, l.state = .run → 1 ≤ n → n ≤ 32 → l.txCtr + n ≤ 2 ^ 95 - 1 →
        Spec.onlyMsg s m → s.outward m = some way → s.linkFor way.1 way.2.1 = some u →
        ∃ t, exec .linkFrameSend s = .next t ∧ (t.link u).txCtr = l.txCtr + n ∧
          (∀ v, v < 36 → v ≠ u → s.ev.idx ∉ (t.link v).unacked) ∧
          (l.txCtr + n = 2 ^ 95 - 1 → (t.link u).state = .hold ∧ (t.link u).rekey = true ∧ (t.link u).holdSince = s.time ∧
            (t.link u).unacked = []) ∧
          (l.txCtr + n ≠ 2 ^ 95 - 1 → l.rxCtr ≠ 2 ^ 95 - 1 → (t.link u).state = .run ∧ s.ev.idx ∈ (t.link u).unacked)) ∧
      (let iv := BitVec.ofNat 96 ((if l.prim then 2 ^ 95 else 0) + l.rxCtr)
       l.state = .run → 1 ≤ s.ev.idx → s.ev.idx ≤ 32 → l.rxCtr + s.ev.idx ≤ 2 ^ 95 - 1 →
        (s.ev.iv = iv → s.ev.ok2 = true →
          ∃ t, exec .linkFrameReceive s = .next t ∧ (t.link u).rxCtr = l.rxCtr + s.ev.idx ∧ (t.link u).badFrames = 0 ∧
            (s.ev.data ≠ [] → s.ev.peer = .none → ∃ win, t.fabric = s.fabric ++ [(s.seq, .packet (rwPeer s.ev.w) (rwLcn s.ev.w)
              (s.ev.w.extractLsb' 0 12) s.ev.w2 win s.ev.data none)]) ∧
            (∀ o pa timed r, s.ev.data = [] → s.ev.peer = .access o pa timed r →
              t.fabric = s.fabric ++ [(s.seq, .access o pa timed r false)])) ∧
        ((s.ev.iv ≠ iv ∨ s.ev.ok2 = false) → ∃ t, exec .linkFrameReceive s = .next t ∧ (t.link u).rxCtr = l.rxCtr + s.ev.idx ∧
          (t.link u).badFrames = l.badFrames + 1 ∧ t.fabric = s.fabric ∧
          (l.badFrames = 15 → (t.link u).state = .down ∧ (t.link u).rekey = true ∧ (t.link u).unacked = []) ∧
          (l.badFrames < 15 → l.txCtr ≠ 2 ^ 95 - 1 → l.rxCtr + s.ev.idx ≠ 2 ^ 95 - 1 → (t.link u).state = .run))) ∧
      (s.ev.idx ∈ l.unacked → ∃ t, exec .linkAckReceive s = .next t ∧ s.ev.idx ∉ (t.link u).unacked ∧
        ∀ m, m ∈ t.fabric ↔ m ∈ s.fabric ∧ m.1 ≠ s.ev.idx) ∧
      (l.state = .hold → 125000 ≤ (s.time - l.holdSince).toInt →
        exec .linkHoldTimeout s = .next (s.setLink u { l with state := .down })) ∧
      (l.state = .down → exec .linkRetrain s = .next (s.setLink u { l with state := .train }))

/-! ### The management window, the host window, start-up and power (16) -/

namespace Sys2Proof.Spec

/-- The one access of the management core on its way is a store of `v` at offset `off` of its window. -/
def mwinStore (s : State) (e : PortEntry) (off : Nat) (v : Word) : Prop :=
  (s.core mgmtCore).work.port = [e] ∧ (s.core mgmtCore).work.loads = [] ∧ (s.core mgmtCore).work.vecs = [] ∧
    (s.core mgmtCore).work.rq = [] ∧ e.id = s.ev.idx ∧ e.place = .mwin off ∧ e.val.val = v ∧ s.ev.ok = false
/-- A step that takes that store off the port and leaves every memory and every other core alone. -/
def mwinDone (s t : State) : Prop :=
  (t.core mgmtCore).work.port = [] ∧ t.hbm = s.hbm ∧ t.time = s.time ∧ ∀ c, c ≠ mgmtCore → t.core c = s.core c
/-- Fields of a format region that may be enabled on a die with a value of CTL (R398, R399). -/
def regionOk (r : Region) (die : Nat) (v : Word) : Prop :=
  v.toNat / 2 ^ 61 % 4 ≤ 1 ∧ v.toNat % 32 ≤ 18 ∧ r.vbase.toNat % 4096 = 0 ∧ r.vsize.toNat % 4096 = 0 ∧ r.sbase.toNat % 8 = 0 ∧
    r.cb.toNat % (if v.toNat / 2 ^ 61 % 4 = 1 then 128 else 32) = 0 ∧ r.cb.toNat < 2 ^ 39 ∧
    2 ^ 39 + die * 2 ^ 36 ≤ r.vbase.toNat ∧ r.vbase.toNat + r.vsize.toNat ≤ 2 ^ 39 + (die + 1) * 2 ^ 36 ∧
    die * 2 ^ 36 ≤ r.sbase.toNat ∧ r.sbase.toNat ≤ r.slimit.toNat ∧ r.slimit.toNat ≤ (die + 1) * 2 ^ 36
/-- A number as `n` bytes, least first. -/
def leOf (v n : Nat) : List Byte := (List.range n).map fun k => BitVec.ofNat 8 (v / 256 ^ k)
/-- A flash byte address inside the image slot. -/
def inSlot (a : Word) : Prop := 0x100000 ≤ a.toNat ∧ a.toNat < 0x4000000

end Sys2Proof.Spec

/-- R370, R390, R397, R399, R407, R408, R413, R427, R428, R430 and R431: a store of the management core to a register of its window has
the register's effect, and the store is done. A PLIM below 1,040 W becomes 1,040 W, and one above has no ceiling (log 36, the model's
choice); KEYGO clears REKEY at once (log 32, the model's reading); ROLLBACK moves forward up to 128 and the
running version, else IGN; LCSTATE moves forward only; a region is enabled, or refused; a THROTTLE outside 1 to 8 is ignored. A
flash command takes FADDR and FDATA as they stand when it is issued (log 74, the model's reading). -/
def Sys2Proof.Spec.windowStores : Prop :=
  ∀ (s : State) (e : PortEntry) (off : Nat) (v : Word), Spec.mwinStore s e off v →
    let p := s.spine
    let f := s.flash
    (∀ j, j < 36 → off = 0x300020 + 256 * j → ∃ t, exec .keygo s = .next t ∧ Spec.mwinDone s t ∧ (t.link j).txCtr = 0 ∧
      (t.link j).rxCtr = 0 ∧ (t.link j).rekey = false ∧ (t.link j).key = (s.link j).key ∧
      (t.link j).state = if (s.link j).state = .hold then .run else (s.link j).state) ∧
    (off = 0x10 → ∃ t, exec .tlbinv s = .next t ∧ Spec.mwinDone s t ∧
      ∀ cl x, x ∈ (t.cluster cl).tlb ↔ x ∈ (s.cluster cl).tlb ∧ x.space.toNat ≠ v.toNat) ∧
    (off = 0x18 → ∃ t, exec .plimWrite s = .next t ∧ Spec.mwinDone s t ∧ t.spine.plimWatts.toNat = max 1040 v.toNat) ∧
    (off = 0x28 → ∃ t, exec .rollbackWrite s = .next t ∧ Spec.mwinDone s t ∧
      let n := v.toNat % 256
      if p.rollback < n ∧ n ≤ 128 ∧ n ≤ p.version.toNat then t.spine = { p with rollback := n, ign := false }
      else t.spine = { p with ign := true }) ∧
    (off = 0x30 → ∃ t, exec .peernoWrite s = .next t ∧ Spec.mwinDone s t ∧
      ((∀ x ∈ s.sectors, x.2.tasks = []) → t.spine = { p with peerno := v.extractLsb' 0 16 }) ∧
      ((∃ x ∈ s.sectors, x.2.tasks ≠ []) → t.spine = p)) ∧
    (off = 0x08 → ∃ t, exec .lcstateWrite s = .next t ∧ Spec.mwinDone s t ∧
      let n := v.toNat % 256
      if p.lcNext.toNat < n ∧ n ≤ 3 then t.spine = { p with lcNext := BitVec.ofNat 8 n, lcPend := true } else t.spine = p) ∧
    (∀ (n : Fin 4) i, off = 0x400008 → v.toNat = n → (n = 1 ∧ i = .fcmdRead ∨ n = 2 ∧ i = .fcmdProgram ∨ n = 3 ∧ i = .fcmdErase) →
      ∃ t, exec i s = .next t ∧ Spec.mwinDone s t ∧
        (f.busy.isSome = true → t.flash = { f with err := true }) ∧
        (f.busy = none → Spec.inSlot f.faddr → t.flash =
          { f with busy := some (BitVec.ofNat 2 n), err := false, runAddr := f.faddr, runData := f.fdata }) ∧
        (f.busy = none → ¬ Spec.inSlot f.faddr → t.flash = { f with err := true })) ∧
    (∀ die r, die < 8 → r < 64 → off = 0x100000000 + die * 0x10000000 + 0x400028 + 64 * r → v.getLsbD 63 = true →
      let g := s.region (64 * die + r)
      ∃ t, exec .formatRegionEnable s = .next t ∧ Spec.mwinDone s t ∧
        (¬ Spec.regionOk g die v → (t.region (64 * die + r)).ctl.getLsbD 63 = false ∧ (t.region (64 * die + r)).refused = true) ∧
        (Spec.regionOk g die v → (∀ x ∈ s.regions, x.2.ctl.getLsbD 63 = false) →
          (t.region (64 * die + r)).ctl.getLsbD 63 = true ∧ (t.region (64 * die + r)).refused = g.refused ∧
          (t.region (64 * die + r)).pcount = 0 ∧
          (t.region (64 * die + r)).codebook.length = if v.toNat / 2 ^ 61 % 4 = 1 then 64 else 16)) ∧
    (∀ die k, die < 8 → k < 64 → off = 0x100000000 + die * 0x10000000 + k * 0x10000 + 0x2008 → v.getLsbD 0 = true →
      exec .huskclr s = .next ((s.modCore mgmtCore fun x => { x with work := { x.work with port := [] } }).setSlice (64 * die + k)
        { s.slice (64 * die + k) with huskNext := 0, huskTotal := 0 })) ∧
    (∀ cl, cl < 16384 → off = 0x200000000 + cl * 0x1000 → ∃ t, exec .throttleWrite s = .next t ∧ Spec.mwinDone s t ∧
      let n := v.toNat % 16
      (t.cluster cl).power.throttle = if 1 ≤ n ∧ n ≤ 8 then n else (s.cluster cl).power.throttle) ∧
    (∀ k : Fin 16, off = 0x100 + 8 * k → ∃ t, exec .registerWrite s = .next t ∧ Spec.mwinDone s t ∧
      t.spine = { p with slots := p.slots.set k (v.extractLsb' 0 12) }) ∧
    (∀ n, n < 4096 → off = 0x200000 + 32 * n → ∃ t, exec .registerWrite s = .next t ∧ Spec.mwinDone s t ∧
      ((Table.find t.spine.tenants n).map (·.1)) = some v) ∧
    (∀ cl, cl < 16384 → off = 0x200000000 + cl * 0x1000 + 0x20 → ∃ t, exec .registerWrite s = .next t ∧ Spec.mwinDone s t ∧
      (t.cluster cl).power.bslots = if v.toNat % 32 ≤ 16 then v.toNat % 32 else (s.cluster cl).power.bslots)

/-- R431: "the burn completes before the store retires": STD of a clean value to LCSTATE by the management core, with nothing of the core
on its way, burns the fuse of a value above NEXT and at most 3, and retires with nothing left in the port. -/
def Sys2Proof.Spec.burnsBeforeRetire : Prop :=
  ∀ (s : State) (r base : Reg) (sc : Scope) (imm : BitVec 12), s.cur.core = mgmtCore → Spec.quiet s →
    (s.gReg base).poison = false → (s.gReg r).poison = false →
    let a := Spec.address s base (8 * imm.toInt)
    a.toNat % 8 = 0 → s.reach .store 8 a = .place (.mwin 8) →
      let p := s.spine
      let n := (s.gReg r).val.toNat % 256
      exec (.std r base sc .plain imm) s = .next (State.retire
        { s with spine := if p.lcNext.toNat < n ∧ n ≤ 3 then { p with lcNext := BitVec.ofNat 8 n, lcPend := true } else p })

/-- Stores to the management window, that to LCSTATE at its retire. Each part says its rules. -/
def Obligations.WindowStores : Prop :=
  Spec.windowStores ∧ Spec.burnsBeforeRetire

/-- R421, R415 and R427: a load of EVQ returns its oldest event, or 0, and removes it; so does MFS of ALERTQ with the alert queue. A flash
command, when it completes, has read 64 bytes, cleared the bits that FDATA clears, or set a 64 KiB sector to ones, at the address and
with the data that it took when it was issued (log 74, the model's reading). -/
def Obligations.QueuesAndFlash : Prop :=
  ∀ (s : State),
    (∀ (e : LoadEntry) (r : Reg), Spec.oneLoad s mgmtCore e → e.place = .mwin 0x20 → e.kind = .plain → e.stale = false →
      e.dst = .g r → r ≠ 0 → e.acq = none → (RegName.g r, e.id) ∈ (s.ctx mgmtCore e.ctx).pend →
        ∃ t, exec .evqPop s = .next t ∧ Spec.landed s t mgmtCore e r ⟨s.spine.evq.head?.getD 0, false⟩ ∧
          t.spine = { s.spine with evq := s.spine.evq.tail }) ∧
    (∀ (d : Reg) (h l : Half) (a : Word) (r : List Word), let n := s.ev.ctx
      let x := s.ctx mgmtCore n
      s.peekHalf mgmtCore x.pc = some h → s.peekHalf mgmtCore (x.pc + 2) = some l → decode32 (h ++ l) = some (.mfs d 0x109) →
      x.st = .ready → x.tr.priv = 3 → x.packet = none → s.mgmt.halted = false → s.mgmt.dead = false → s.mgmt.alerts = a :: r →
      s.mgmt.alertDropped = false → d ≠ 0 →
        ∃ t, exec .alertqPop s = .next t ∧ exec (.mfs d 0x109) { s with cur := ⟨mgmtCore, n⟩ } = .next t ∧ t.mgmt.alerts = r ∧
          (t.ctx mgmtCore n).getG d = ⟨a, false⟩) ∧
    (∀ n : BitVec 2, s.flash.busy = some n → n ≠ 0 → flashWf 0 s.flash.cells = true →
      let a := s.flash.runAddr.toNat
      ∃ t, exec .flashCommandComplete s = .next t ∧ t.flash.busy = none ∧ t.flash.err = s.flash.err ∧ t.flash.faddr = s.flash.faddr ∧
        (∀ i, i < 64 → n = 1 → t.flash.fdata.byte i = flashGet s.flash.cells (a + i)) ∧
        (n ≠ 1 → t.flash.fdata = s.flash.fdata) ∧
        ∀ b, flashGet t.flash.cells b =
          if n = 2 ∧ a ≤ b ∧ b < a + 64 then flashGet s.flash.cells b &&& s.flash.runData.byte (b - a)
          else if n = 3 ∧ b / 65536 = a / 65536 then 0xFF else flashGet s.flash.cells b)

/-- R417 to R421 and R429: what the host does through its window. DOORBELL sets MIPEND.HOST; a read of HEVQ pops it; HMEM reads and writes
device memory of the chosen segment; a launch port without a tenant ignores a write, and a record that is not aligned is
refused; AGO starts a report, which brings the nonce, the serial, the version, the digest, BOOTST, the public key and the
signature, whose random bytes are free (log 7). That a slot with tenant 0 is one without a tenant (log 37), that the report is not ready
from AGO on (log 41), and that the lifecycle enters the seed as one byte (log 40), are the model's choices. -/
def Obligations.HostActs : Prop :=
  ∀ (s : State) (o seg : Nat),
    let h := s.host
    let pa := seg * 2 ^ 36 + o
    exec .doorbell s = .next { s with mgmt := { s.mgmt with host := true } } ∧
    exec .hevqPop s = .next { s with host := { h with lastRead := s.spine.hevq.head?.getD 0 }
                                     spine := { s.spine with hevq := s.spine.hevq.tail } } ∧
    (s.ev.w.toNat = 0x100000000 + o → o % 8 = 0 → o < 2 ^ 36 → seg < 8 → h.hmemsel.toNat = seg → Spec.atHome s pa 8 →
      (s.ev.ok = false → ∃ t, exec .hmemAccess s = .next t ∧ t.host.lastRead.toNat = Spec.bytes s.hbm pa 8 ∧ t.hbm = s.hbm) ∧
      (s.ev.ok = true → ∃ t, exec .hmemAccess s = .next t ∧ Spec.stored s.hbm t.hbm pa 8 s.ev.w2.toNat false)) ∧
    (s.ev.ok = false → s.ev.w = 0x1028 → ∃ t, exec .hmemAccess s = .next t ∧
      t.host.lastRead.toNat = if h.ready then 5381 * 2 ^ 16 + 1 else 0) ∧
    (s.ev.ok = true → s.ev.w = 0x18 → exec .registerWrite s = .next { s with host := { h with hmemsel := s.ev.w2 &&& 15 } }) ∧
    (s.ev.ok = true → s.ev.w = 0x30 → exec .registerWrite s = .next { s with host := { h with hevaddr := s.ev.w2 } }) ∧
    (s.ev.idx < 16 →
      let i : Fin 16 := Fin.ofNat 16 s.ev.idx
      let q := s.sector s.ev.unit
      (s.spine.slots[i] = 0 → exec .lportSubmit s = .next s) ∧
      (s.spine.slots[i] ≠ 0 → s.ev.unit < 128 → q.intake.length < 8 →
        (s.ev.w.toNat % 128 ≠ 0 → exec .lportSubmit s = .next { s with host := { h with
          lports := h.lports.set i (h.lports[i].1, h.lports[i].2.1, true) } }) ∧
        (∀ r base s1, s.ev.w.toNat % 128 = 0 → s.engineRecord s.spine.slots[i] s.ev.w = (some (r, base), s1) →
          s1.recordBad s.spine.slots[i] r base = false →
          s1.launchRefused s.ev.unit s.spine.slots[i] s.ev.w r base = false →
            ∃ t e, exec .lportSubmit s = .next t ∧ (t.sector s.ev.unit).intake = (s1.sector s.ev.unit).intake ++ [e] ∧
              e.addr = s.ev.w ∧ e.tenant = s.spine.slots[i] ∧ e.slot = some i ∧ e.held = none))) ∧
    (h.forming = false → exec .ago s = .next { s with host := { h with forming := true, ready := false } }) ∧
    (h.forming = true → exec .ago s = .next s ∧
      ∃ t, exec .reportComplete s = .next t ∧ t.host.ready = true ∧ t.host.forming = false ∧
        let seed := shake256 (Config.uds ++ (s.spine.fwDigest.flatMap fun w => Spec.leOf w.toNat 8) ++ [s.spine.lc]) 32
        let body := h.nonce ++ Spec.leOf Config.serial.toNat 8 ++ Spec.leOf s.spine.version.toNat 8 ++
          (s.spine.fwDigest.flatMap fun w => Spec.leOf w.toNat 8) ++ Spec.leOf s.bootst.toNat 8 ++ mldsaPublic seed
        t.host.report = body ++ mldsaSign seed (Config.signRandom s.fresh) body)

/-- R422 to R428 and R430: a start leaves the device as at reset, with its fuses and its flash. A failed self-test or training stops it;
the values of a training stand in the flash, and a warm start whose stored values pass their check does not train; a
decommissioned device wipes its HBM and stops in RECOVERY; an image that passes its checks is to run on the management core in
machine mode at its entry, and does once no up-link is still to be trained; one that fails stops the start in RECOVERY with the code of
the check. A background wipe zeroes a granule. STAGE and ERR after a failure (log 38), BOOTS from 1 on and at its greatest value (log
40), an odd entry taken as the even address below it (log 56), and what a wrong magic and a warm start leave of HBM (log 57), are the
model's choices. -/
def Sys2Proof.Spec.deviceStarts : Prop :=
  ∀ (s : State),
    let p := s.spine
    let m := s.flashImage
    let err := m.verdict p.rollback
    let fresh := fun (t : State) => t.time = 0 ∧ t.octets = [] ∧ t.clusters = [] ∧ t.slices = [] ∧ t.sectors = [] ∧ t.fabric = [] ∧
      t.links = [] ∧ t.spine.lc = p.lcNext ∧ t.spine.lcNext = p.lcNext ∧ t.spine.rollback = p.rollback ∧
      t.spine.boots.toNat = (if p.lcNext ≠ p.lc then 1 else min 65535 (p.boots.toNat + 1)) ∧ t.flash.cells = s.flash.cells
    let runs := fun (t : State) (m : Image) => t.spine.err = 0 ∧ t.spine.version.toNat = m.version % 2 ^ 64 ∧
      let x := t.ctx mgmtCore 0
      ((∃ j, j < 36 ∧ (t.link j).state = .train) → t.spine.stage = 9 ∧ x.st = .free) ∧
      ((∀ j, j < 36 → (t.link j).state ≠ .train) → t.spine.stage = 15 ∧ x.st = .ready) ∧ x.pc.toNat = (m.load + m.entry) % 2 ^ 64 / 2 * 2 ∧ x.npc = none ∧ x.nnpc = none ∧ x.tr.priv = 3
    let stops := fun (t : State) (stage e : BitVec 4) => t.spine.stage = stage ∧ t.spine.err = e
    (∃ t, exec .coldStart s = .next t ∧ fresh t ∧
      (Config.bistPasses = false → stops t 4 1 ∧ t.hbm = Memory.empty) ∧
      (Config.bistPasses = true → Config.hbmTrains = false → stops t 5 2 ∧ t.hbm = Memory.empty) ∧
      (Config.bistPasses = true → Config.hbmTrains = true → t.spine.hbmw = true ∧ t.flash.training = some Config.trainingValues ∧
        (p.lcNext = 3 → stops t 14 0 ∧ t.hbm = Memory.empty) ∧
        (p.lcNext ≠ 3 → (err = 0 → runs t m) ∧ (err ≠ 0 → stops t 14 err)))) ∧
    ((s.flash.training = none ∨ s.ev.ok = false) → ∃ t, exec .warmStart s = .next t ∧ fresh t ∧
      (Config.hbmTrains = false → stops t 5 2) ∧ (Config.hbmTrains = true → t.flash.training = some Config.trainingValues)) ∧
    (s.flash.training ≠ none → s.ev.ok = true → ∃ t, exec .warmStart s = .next t ∧ fresh t ∧ t.flash.training = s.flash.training ∧
      (p.lcNext = 3 → stops t 14 0 ∧ t.hbm = Memory.empty) ∧
      (p.lcNext ≠ 3 → (err = 0 → runs t m) ∧ (err ≠ 0 → stops t 14 err)) ∧
      (p.lcNext = p.lc → m.word 0 ≠ 0x385845544C49534E → p.lc ≠ 3 → t.wiping = true ∧ t.wiped = [] ∧ t.hbm = s.hbm) ∧
      (p.lcNext ≠ p.lc → m.word 0 ≠ 0x385845544C49534E → t.hbm = Memory.empty ∧ t.wiping = false)) ∧
    (let h := s.hbmImage s.ev.w.toNat
     (p.stage ≠ 14 ∨ p.lc = 3 → exec .reload s = .next s) ∧
     (p.stage = 14 → p.lc ≠ 3 → ∃ t, exec .reload s = .next t ∧
       (h.verdict p.rollback = 0 → runs t h) ∧ (h.verdict p.rollback ≠ 0 → stops t 14 (h.verdict p.rollback)))) ∧
    (s.wiping = true → s.ev.w.toNat < 2 ^ 31 - 1 → s.wiped = List.range s.ev.w.toNat → s.hbm.wf = true →
      ∃ t, exec .backgroundWipeGranule s = .next t ∧ t.wiping = true ∧ t.wiped = List.range (s.ev.w.toNat + 1) ∧ t.hbm.wf = true ∧
        ∀ a, (t.hbm.byte a = if a / 256 = s.ev.w.toNat then 0 else s.hbm.byte a) ∧
          (t.hbm.bad a = if a / 256 = s.ev.w.toNat then false else s.hbm.bad a))

/-- R426: the checks of a firmware image and the code of each that fails. The order in which several failures report is the
model's choice (log 58). -/
def Sys2Proof.Spec.imageChecks : Prop :=
  ∀ (m : Image) (rollback : Nat),
    (m.word 0 ≠ 0x385845544C49534E → m.verdict rollback = 3) ∧
    (m.bytes 0x28 24 ≠ List.replicate 24 0 → m.verdict rollback = 3) ∧
    (m.len % 64 ≠ 0 → m.verdict rollback = 3) ∧
    (m.verdict rollback = 0 → shake256 m.key 32 = Config.pkHash ∧ mldsaVerify m.key m.signed m.sig = true ∧
      rollback ≤ m.version) ∧
    (m.verdict rollback ≠ 3 → shake256 m.key 32 ≠ Config.pkHash → m.verdict rollback = 4) ∧
    (m.verdict rollback ≠ 3 → m.verdict rollback ≠ 4 → mldsaVerify m.key m.signed m.sig = false → m.verdict rollback = 5) ∧
    (m.verdict rollback = 6 → m.version < rollback)

/-- R404: what the cores of a cluster have done in an interval, each count times its fused weight: instructions issued, bit-products, lane
operations, bytes copied and flits. -/
def Sys2Proof.Spec.dynamicPart (s : State) (cl : Nat) : Nat :=
  let sum := fun (f : Activity → Nat) => ((List.range 16).map fun i => f (s.core (16 * cl + i)).act).sum
  Config.weight cl 0 * sum (·.issued) + Config.weight cl 1 * sum (·.products) + Config.weight cl 2 * sum (·.laneOps) +
    Config.weight cl 3 * sum (·.copied) + Config.weight cl 4 * sum (·.flits)
/-- R404: the leakage of a cluster at its reading and mean voltage. -/
def Sys2Proof.Spec.leakagePart (s : State) (cl : Nat) : Nat :=
  (s.cluster cl).power.leakage (s.cluster cl).power.sensReading (s.volts cl)

/-- R402: a core's voltage is that of its operating point with its trim, between 550 and 850 mV. R404: a cluster's leakage is its table's
entry where the reading and the mean voltage are those of the entry, and the end point's beyond the outermost points; the estimate adds the
dynamic part, which weighs what the cores have done. -/
def Sys2Proof.Spec.voltageAndLeakage : Prop :=
  (∀ (s : State) (c : CoreId), 550 ≤ s.coreVolt c ∧ s.coreVolt c ≤ 850 ∧
    ((Config.trim c).val = 4 → ∀ i : Fin 8, (s.core c).point = i.val →
      s.coreVolt c = #v[850, 800, 750, 700, 660, 620, 580, 550][i])) ∧
  (∀ (p : Power) (r : BitVec 16) (v : Nat) (i j : Nat), i < 8 → j < 4 → (∀ a b, a < b → b < 8 → p.tempAt a < p.tempAt b) →
    ((r.toInt = p.tempAt i) ∨ (i = 0 ∧ r.toInt < p.tempAt 0) ∨ (i = 7 ∧ p.tempAt 7 < r.toInt)) →
    (v = 16 * (550 + 100 * j) ∨ (j = 0 ∧ v < 16 * 550) ∨ (j = 3 ∧ 16 * 850 < v)) →
      p.leakage r v = (p.lkt.getD i 0).toNat / 2 ^ (16 * j) % 2 ^ 16) ∧
  (∀ (s : State) (cl : Nat), s.estimate cl = Spec.leakagePart s cl + Spec.dynamicPart s cl)

/-- R404 to R407, R410 and R414: a brake step that ends counts its reports, the estimates so far, and raises the brake when they and the
steps to come at the step's draw pass PLIM. A control interval that ends drops the brake, takes in the readings of each cluster and its
hottest, writes its estimate, sets the caps of the next interval, moves each core to the lowest of its request and its caps, and takes
10 µs from an active lease whose core asked for point 0 and ran there; one that a cap kept from it is deferred. The counts of what the
cores do begin anew. That a boundary may be taken at any later tick (log 28), and that the readings come with the step (log 29), is the
model's choice. -/
def Sys2Proof.Spec.powerBoundaries : Prop :=
  ∀ (s : State),
    let p := s.spine
    let sum := (s.liveClusters.map fun cl => (p.steps % 10 + 1) * Spec.leakagePart s cl + 10 * Spec.dynamicPart s cl).sum
    let ahead := (9 - p.steps % 10) * (sum - p.used)
    125 * (p.steps + 1) ≤ s.time.toNat →
      (p.steps % 10 ≠ 9 → ∃ t, exec .brakeStepEnd s = .next t ∧ t.spine.steps = p.steps + 1 ∧ t.spine.used = sum ∧
        (10 * p.plim < sum + ahead → t.spine.brake = min 3 (p.brake + 1) ∧
          t.spine.braked.toNat = if p.brake = 0 then min (2 ^ 32 - 1) (p.braked.toNat + 1) else p.braked.toNat) ∧
        (sum + ahead ≤ 10 * p.plim → t.spine = { p with steps := p.steps + 1, used := sum })) ∧
      (p.steps % 10 = 9 → (∀ o ∈ s.ev.obs, o.cluster < 16384) → (s.ev.obs.map (·.cluster)).Nodup →
        ∃ t, exec .controlIntervalEnd s = .next t ∧ t.spine.brake = 0 ∧ t.spine.steps = p.steps + 1 ∧ t.spine.used = 0 ∧ t.time = s.time ∧
          (∀ o r, s.ev.obs = [o] → o.coreReadings = List.replicate 16 r → s.clusters = [] → s.cores = [] →
            let w := (t.cluster o.cluster).power
            w.sensReading = r ∧ w.pest = 0 ∧ w.applied = 2 ∧ w.curCap = none ∧
              w.thermCap = (if 1680 ≤ r.toInt then some 3 else none) ∧
              ∀ i, i < 16 → (t.core (16 * o.cluster + i)).point = (if 1680 ≤ r.toInt then 3 else 2) ∧
                (t.core (16 * o.cluster + i)).coret = r) ∧
          (∀ c k, s.ev.obs = [] → s.clusters = [] → s.cores = [(c, k)] → c < mgmtCore → k.lease.getLsbD 63 = true →
            let r := k.lease.toNat % 2 ^ 16
            let d := Spec.dynamicPart s (clusterOf c)
            d ≤ p.plim → d < 2 ^ 32 →
            (t.cluster (clusterOf c)).power.pest.toNat = d * 2 ^ 32 + d ∧ (t.core c).act = ⟨0, 0, 0, 0, 0⟩ ∧
            (k.ask = 0 → k.point = 0 → 10 ≤ r → (t.core c).lease.toNat % 2 ^ 16 = r - 10 ∧
              (t.core c).lease.getLsbD 63 = decide (10 < r) ∧ (t.core c).lease.getLsbD 61 = (k.lease.getLsbD 61 || decide (r = 10))) ∧
            (k.ask = 0 → k.point ≠ 0 → (t.core c).lease = k.lease ||| Spec.tagBit 60 ∧ (t.core c).ask = 0 ∧ (t.core c).point = 0) ∧
            (k.ask ≠ 0 → (t.core c).lease = k.lease ∧ (t.core c).ask = 0 ∧ (t.core c).point = 0)))

/-- Cold and warm starts, images and the background wipe. Each part says its rules. -/
def Obligations.DeviceStart : Prop :=
  Spec.deviceStarts ∧ Spec.imageChecks

/-- Boost leases, control intervals and brakes. Each part says its rules. -/
def Obligations.Power : Prop :=
  Spec.leasesTaken ∧ Spec.voltageAndLeakage ∧ Spec.powerBoundaries

/-! ### The fused softmax step, and the encoding (10 R251, R252; 02) -/

/-- R251 and R252: four consecutive instructions VRMAX.F32 vm, vx; VFSUB.F32 vt, vx, vm; VEXP vt, vt; VRSUM.F32 vs, vt under p0, in no
delay slot and with no loop active, run as one and give what the four give in sequence. When the fourth names a register that
is not bound, or cannot be fetched, the trap is reported at the first and no other effect of any of the four remains. -/
def Obligations.SoftmaxFuses : Prop :=
  ∀ (s : State) (vm vx vt vs : VRegN),
    let c := s.ev.core
    let n := s.ev.ctx
    let x := s.ctx c n
    let s0 : State := { s with cur := ⟨c, n⟩ }
    let q : Pred := ⟨0, false⟩
    let at_ := fun (k : Nat) => s.peekInstr c (x.pc + BitVec.ofNat 64 (4 * k))
    at_ 0 = some (.vrmax vm vx false q) → at_ 1 = some (.vfsub vt vx vm .f32 .none q) → at_ 2 = some (.vexp vt vt q) →
    vm ≠ vx → x.st = .ready → x.slots = 0 → x.npc = none → x.nnpc = none →
    x.packet = none → x.pend = [] → (∀ k : Fin 3, x.loops[k].lc = 0) → Spec.lanesFor s0 [vm, vx, vt] →
      let fourth := at_ 3 = some (.vrsum vs vt (.f32 .none) q)
      (fourth → Spec.lanesFor s0 [vs] → ∃ a b d t, exec (.vrmax vm vx false q) s0 = .next a ∧ exec (.vfsub vt vx vm .f32 .none q) a = .next b ∧
        exec (.vexp vt vt q) b = .next d ∧ exec (.vrsum vs vt (.f32 .none) q) d = .next t ∧ exec .fusedSoftmax s = .next t) ∧
      (s.peekHalf c (x.pc + 12) = none → exec .fusedSoftmax s = .next (s0.takeTrap c n 3 (x.pc + 12))) ∧
      (fourth → min x.count 16 ≤ vs.val → exec .fusedSoftmax s = .next (s0.takeTrap c n 0x14 (BitVec.ofNat 64 (0x100 + vs.val))))

/-- Words of the spec's own examples, written out, decode to the instructions they stand for (R33, R48, 05, 07, 08, 09, 10, 11, 12,
13, 15, 16). -/
def Obligations.DecodesSpecWords : Prop :=
  decode32 0x80A6800A = some (.add 5 3 4 ⟨2, true⟩) ∧
  decode32 0x80ACE1AE = some (.sel 5 6 7 ⟨3, true⟩) ∧
  decode16 0x04D0 = some (.addS 3 4) ∧
  decode32 0xE0A68140 = some (.fadd 5 3 4 .f16 .rtz ⟨0, false⟩) ∧
  decode32 0xE2A68000 = some (.ladd 5 3 4 .li16 ⟨0, false⟩) ∧
  decode32 0xB9800020 = some (.start 12 0x20) ∧
  decode32 0xBAA40002 = some (.mfs 5 2) ∧
  decode32 0xB0EFFFFA = some (.bc 3 true .n true 0x3FFFA) ∧
  decode32 0xB6403004 = some (.loopi 3 false 4) ∧
  decode32 0xC6041804 = some (.gset 2 3 true) ∧
  decode32 0xBCCA0000 = some (.claim 6 5 ⟨0, false⟩) ∧
  decode32 0xD8420C00 = some (.vrmax 2 1 false ⟨0, false⟩) ∧
  decode32 0xE8AC0000 = some (.launch 5 6 ⟨0, false⟩) ∧
  decode32 0xEAAC0000 = some (.boost 5 6 ⟨0, false⟩)

/-- R33 and R37 to R48: every well-formed instruction with an encoding decodes from it, followed by any bytes, to itself, and the rest
of the bytes is left; every operand at every value that the encoding admits. -/
def Obligations.DecodeOfEncode : Prop :=
  ∀ (i : Instr) (rest : List Byte), i.WellFormed → encode i ≠ .event → decodeBytes ((encode i).bytes ++ rest) = some (i, rest)

/-- R45 and R46: a word or halfword that decodes has one encoding, itself, and what it decodes to is well-formed: a reserved bit that is
set, or an operand that breaks its rule, makes the word illegal. -/
def Obligations.EncodeOfDecode : Prop :=
  (∀ (w : InstrWord) (i : Instr), decode32 w = some i → encode i = .word w ∧ i.WellFormed) ∧
  (∀ (h : Half) (i : Instr), decode16 h = some i → encode i = .half h ∧ i.WellFormed)

/-! ### The machine as a whole -/

namespace Sys2Proof.Spec

/-- What issuing context `n` of core `c` finds: the contexts before it in the search order of R120 are not eligible, it is, and neither
a stop nor an interrupt nor a fused step comes first, no brake pauses the core (R407), and its instruction lies on no page of a peer that
no up-link reaches (R392); `s0` is the state in which it issues. -/
def offered (s s0 : State) (c : CoreId) (n : CtxId) : Prop :=
  ∃ rest before after, s.agenda = .issue c :: rest ∧
    s0 = { s with agenda := rest, cur := ⟨c, n⟩, ev := { Ev.none with core := c, ctx := n } } ∧
    (List.range 11).map (fun k => Fin.ofNat 11 ((s.core c).last.val + 1 + k)) = before ++ n :: after ∧
    (s.spine.brake < 3 ∨ c = mgmtCore) ∧ s.noFetch c = false ∧ (∀ m ∈ before, (s.core c).eligible m = false) ∧ (s.core c).eligible n = true ∧
    (s.core c).mustStop n = false ∧ exec .contextStop s0 = .refused .eventDisabled ∧
    exec (if c = mgmtCore then .mgmtInterruptTake else .interruptTake) s0 = .refused .eventDisabled ∧
    exec .fusedSoftmax s0 = .refused .eventDisabled ∧ s0.fusedHeld = false ∧ s0.fetchWaits c s0.me.pc = false

/-- The halfword that memory holds at an address, little-endian (R33). -/
def halfAt (m : Memory) (a : Nat) : Half := m.byte (a + 1) ++ m.byte a

/-- What a grant of lanes leaves a context whose VCLAIM it ends: everything but the claim's own register, its lanes, its loops and where
it stands (R230, R237). -/
def sameButClaim (x y : Ctx) : Prop :=
  (∀ r : Reg, (∀ d a q, x.wait = some (.vclaim d a q) → r ≠ d) → y.getG r = x.getG r) ∧ y.p = x.p ∧ y.e = x.e ∧ y.v = x.v ∧
    y.count = x.count ∧ y.nmode = x.nmode ∧ y.nflags = x.nflags ∧ y.tr = x.tr ∧ y.ien = x.ien ∧ y.ipend = x.ipend ∧
    y.alarm = x.alarm ∧ y.evpend = x.evpend ∧ y.tstat = x.tstat ∧ y.packet = x.packet
/-- What two states share that no instruction on registers writes: everything outside cores and octets; of every core everything but its
contexts; of every octet its tiles, operand registers, jobs and copy channels; and every other context, but one that waits for lanes of
the octet, to which a loop-back of the executing context may grant them (R231): such a one keeps what a grant leaves it. -/
def sameRest (s t : State) : Prop :=
  let o := octetOf s.cur.core
  t = { s with cores := t.cores, octets := t.octets } ∧ (∀ c, t.core c = { s.core c with ctxs := (t.core c).ctxs }) ∧
    t.octet o = { s.octet o with laneQ := (t.octet o).laneQ } ∧ (∀ k, k ≠ o → t.octet k = s.octet k) ∧
    ∀ (c : CoreId) (n : CtxId), (c ≠ s.cur.core ∨ n ≠ s.cur.ctx) →
      let claims := ∃ q ∈ (s.octet o).laneQ, q.core = c ∧ q.ctx = n
      (¬ claims → t.ctx c n = s.ctx c n) ∧ (claims → sameButClaim (s.ctx c n) (t.ctx c n))
/-- The loop stack of the executing context: a retire counts a level down that ends at the next address, and does nothing else to
it (R139). -/
def sameLoops (s t : State) : Prop :=
  ∀ k : Fin 3, t.me.loops[k] = s.me.loops[k] ∨
    (s.me.loops[k].lc ≠ 0 ∧ (triple s).2.1 = some (s.me.loops[k].le &&& ~~~1#64) ∧
      t.me.loops[k] = { s.me.loops[k] with lc := s.me.loops[k].lc - 1 })
/-- The executing context claims no lanes: it is not waiting. -/
def unclaimed (s : State) : Prop := ∀ o, ∀ q ∈ (s.octet o).laneQ, q.core ≠ s.cur.core ∨ q.ctx ≠ s.cur.ctx
/-- The registers of the executing context, apart from its g and p registers, that an instruction on registers leaves alone. -/
def restOfContext (s t : State) : Prop :=
  t.me.e = s.me.e ∧ t.me.v = s.me.v ∧ t.me.nmode = s.me.nmode ∧ t.me.nflags = s.me.nflags ∧ t.me.tr = s.me.tr ∧
    t.me.ien = s.me.ien ∧ t.me.ipend = s.me.ipend ∧ t.me.alarm = s.me.alarm ∧ t.me.evpend = s.me.evpend ∧
    t.me.tstat = s.me.tstat ∧ t.me.count = s.me.count ∧ t.me.packet = s.me.packet ∧ t.me.yield = s.me.yield ∧ sameLoops s t

end Sys2Proof.Spec

/-- R33, R120 and R121: a step whose turn is an issue cycle of a core takes the first eligible context in the search order and runs the
instruction that its bytes decode to, unless it is a lane operation that a brake holds (R407): one that answers a next state and is not
held is the step, with the context noted as the last that issued and what it issued counted (R404). The context knows the length of the
instruction from its fetch (R131). Bytes that decode to nothing trap as illegal with the halfword or word as value (R46). -/
def Sys2Proof.Spec.stepRunsDecoded : Prop :=
  ∀ (s s0 s1 : State) (c : CoreId) (n : CtxId) (f : Fetched), Spec.offered s s0 c n →
    s0.fetchInstr c s0.me.pc = (s1, f) →
      let known := fun (n : Nat) => s1.modMe fun x => { x with fetched := some (x.pc + BitVec.ofNat 64 n) }
      (∀ i x t, f.instr = some i → let s2 := known i.length
        s2.me.waitsFor (sources i) = false → (s.spine.brake < 2 ∨ laneOp i = false) → s2.me.countIssue i = some x →
        exec i { s2.setMe x with held := false } = .next t → t.held = false →
          step s = .next ((t.laneWork i).modCore c (·.noteIssue n))) ∧
      (∀ h, f = .half h → decode16 h = none → let s2 := known 2
        step s = .next ((s2.takeTrap s2.cur.core s2.cur.ctx 1 (h.setWidth 64)).modCore c (·.noteIssue n))) ∧
      (∀ w, f = .word w → decode32 w = none → let s2 := known 4
        step s = .next ((s2.takeTrap s2.cur.core s2.cur.ctx 1 (w.setWidth 64)).modCore c (·.noteIssue n)))

/-- R33 and R413: fetch of the management core reads the halfwords at its pc, little-endian, the first one saying whether a second
follows and forming the high half; a poisoned halfword is a fetch fault (R35). -/
def Sys2Proof.Spec.fetchReadsBytes : Prop :=
  ∀ (s : State) (pc : Word),
    let a := pc.toNat
    a + 4 ≤ 2 ^ 39 → a % 2 = 0 → s.wiping = false → (∀ k, k < 4 → s.hbm.bad (a + k) = false) →
      let h := Spec.halfAt s.hbm a
      s.fetchInstr mgmtCore pc =
        (s, if h.getLsbD 15 then .word (h ++ Spec.halfAt s.hbm (a + 2)) else .half h)

/-- R407: while the brake stands at level 3 an issue cycle of a compute core does nothing. -/
def Sys2Proof.Spec.stepPausedByBrake : Prop :=
  ∀ (s : State) (c : CoreId) (rest : List Turn), s.agenda = .issue c :: rest → 3 ≤ s.spine.brake → c ≠ mgmtCore →
    step s = .next { s with agenda := rest }

/-- A step whose turn is one that the device takes by itself runs that step, with its operands (log 1). -/
def Sys2Proof.Spec.stepRunsEvents : Prop :=
  ∀ (s : State) (i : Instr) (ev : Ev) (rest : List Turn), s.agenda = .event i ev :: rest →
    step s = exec i { s with agenda := rest, ev := ev, cur := ⟨ev.core, ev.ctx⟩ }

/-- Every encoded instruction answers a next state on every core, in every state. -/
def Obligations.InstructionsNeverStop : Prop := ∀ (i : Instr) (s : State), encode i ≠ .event → ∃ t, exec i s = .next t

/-- R98: no instruction brings a mode that does not exist: if the mode of every context is 0 or 1, or 3 on the management core, so it is
afterwards. -/
def Obligations.ModesStayLegal : Prop :=
  ∀ (i : Instr) (s t : State), encode i ≠ .event → s.modesLegal = true → exec i s = .next t → t.modesLegal = true

/-- The invariant of the two statements below: every memory of the device is in canonical form, rising and with no byte that an unlisted
address reads as. It holds after reset. -/
def Obligations.MemoriesReset : Prop := State.reset.memoriesWf = true ∧ State.reset.modesLegal = true

/-- Every step of the device keeps its memories in canonical form. -/
def Obligations.MemoriesKept : Prop := ∀ s t : State, s.memoriesWf = true → step s = .next t → t.memoriesWf = true

/-- The frame of the instructions on integers and predicates (R125 to R130): any other g and p register of the context, its other
registers and its loops, every other context and register of every core, every memory, the octets and every other unit stay as they
were. Apart from that a retire may count a level of the loop stack down (R139), and at a renegotiation point move lanes and end a wait
for lanes (R231). -/
def Sys2Proof.Spec.registerFrame : Prop :=
  ∀ (i : Instr) (s t : State), Spec.unclaimed s → Spec.runs i s → exec i s = .next t →
    (∀ (d : Reg) (v : PWord), Spec.intResult i s = some (d, v) →
      Spec.sameRest s t ∧ Spec.restOfContext s t ∧ t.me.p = s.me.p ∧ ∀ r : Reg, r ≠ d → t.gReg r = s.gReg r) ∧
    (∀ (d : PReg) (p : Prop) (bad : Bool), Spec.predResult i s = some (d, p, bad) →
      Spec.sameRest s t ∧ Spec.restOfContext s t ∧ t.me.g = s.me.g ∧ ∀ r : PReg, r ≠ d → t.pReg r = s.pReg r)

/-- The frame of the instructions on floats, level-index codes and v registers (R82 to R85, R218 to R224, R242 to R247): one writes its
destination, a g, p or v register, and ORs into NFLAGS; nothing else changes, as above. -/
def Sys2Proof.Spec.floatFrame : Prop :=
  ∀ (i : Instr) (s t : State), Spec.unclaimed s → Spec.runs i s → exec i s = .next t →
    let same := Spec.sameRest s t ∧ t.me.e = s.me.e ∧ t.me.nmode = s.me.nmode ∧ t.me.tr = s.me.tr ∧ t.me.ien = s.me.ien ∧
      t.me.ipend = s.me.ipend ∧ t.me.alarm = s.me.alarm ∧ t.me.evpend = s.me.evpend ∧ t.me.tstat = s.me.tstat ∧
      t.me.count = s.me.count ∧ t.me.packet = s.me.packet ∧ t.me.yield = s.me.yield ∧ Spec.sameLoops s t ∧
      ∃ flags, t.me.nflags = s.me.nflags ||| flags
    (∀ d rs bad, Spec.numForm i = some (d, rs, bad) → same ∧ t.me.p = s.me.p ∧ t.me.v = s.me.v ∧
      ∀ r : Reg, r ≠ d → t.gReg r = s.gReg r) ∧
    (∀ d rs, Spec.cmpForm i = some (d, rs) → same ∧ t.me.g = s.me.g ∧ t.me.v = s.me.v ∧ ∀ r : PReg, r ≠ d → t.pReg r = s.pReg r) ∧
    (∀ d rs, Spec.vecForm i = some (d, rs) → Spec.lanesFor s rs → same ∧ t.me.g = s.me.g ∧ t.me.p = s.me.p ∧
      ∀ r : VRegN, r ≠ d → t.me.v[r] = s.me.v[r])

/-- A step runs the instruction that the bytes at the pc decode to, or the device's own step of the agenda. Each part says its rules. -/
def Obligations.StepRunsDecoded : Prop :=
  Spec.stepRunsDecoded ∧ Spec.fetchReadsBytes ∧ Spec.stepRunsEvents ∧ Spec.stepPausedByBrake

/-- Frames of the instructions on registers. Each part says its rules. -/
def Obligations.Frames : Prop :=
  Spec.registerFrame ∧ Spec.floatFrame
end

