-- ==== Sys2Proof/Laws/Gates.lean ====
section
/-! SUPPORT. What the shared gates of the meanings can do: one inversion lemma for each, and its answer where the gate is
open. -/

namespace Sys2Proof.Machine

/-! ### Predicates and poison (R38, R52, R107) -/

theorem pred_next {q : Pred} {s t : State} {k : Res} (h : pred q s k = .next t) :
    ((s.pReg q.idx).poison = true ∧ trap cPoisonCtl (BitVec.ofNat 64 q.idx) s = .next t) ∨
    ((s.pReg q.idx).poison = false ∧ (s.pReg q.idx).val ≠ q.neg ∧ k = .next t) ∨
    ((s.pReg q.idx).poison = false ∧ (s.pReg q.idx).val = q.neg ∧ t = s.retire) := by
  simp only [pred] at h
  split at h
  · rename_i hp; exact .inl ⟨hp, h⟩
  · rename_i hp
    split at h
    · rename_i hv; exact .inr (.inl ⟨eq_false_of_ne_true hp, by simpa using hv, h⟩)
    · rename_i hv; exact .inr (.inr ⟨eq_false_of_ne_true hp, by simpa using hv, by simpa [done] using h.symm⟩)

theorem pred_true {q : Pred} {s : State} (k : Res) (hp : (s.pReg q.idx).poison = false) (hv : (s.pReg q.idx).val ≠ q.neg) :
    pred q s k = k := by simp [pred, hp, hv]

theorem pred_false {q : Pred} {s : State} (k : Res) (hp : (s.pReg q.idx).poison = false) (hv : (s.pReg q.idx).val = q.neg) :
    pred q s k = .next s.retire := by simp [pred, hp, hv, done]

theorem needClean_next {v : PWord} {n : Nat} {s t : State} {k : Res} (h : needClean v n s k = .next t) :
    (v.poison = true ∧ trap cPoisonCtl (BitVec.ofNat 64 n) s = .next t) ∨ (v.poison = false ∧ k = .next t) := by
  unfold needClean at h
  split at h
  · rename_i hv; exact .inl ⟨hv, h⟩
  · rename_i hv; exact .inr ⟨eq_false_of_ne_true hv, h⟩

theorem needClean_clean {v : PWord} (n : Nat) (s : State) (k : Res) (h : v.poison = false) : needClean v n s k = k := by
  simp [needClean, h]

theorem needE_next {r : EReg} {s t : State} {k : Word → Res} (h : needE r s k = .next t) :
    ((s.eReg r).poison = true ∧ trap cPoison (BitVec.ofNat 64 r) s = .next t) ∨
    ((s.eReg r).poison = false ∧ k (s.eReg r).val = .next t) := by
  simp only [needE] at h
  split at h
  · rename_i hv; exact .inl ⟨hv, h⟩
  · rename_i hv; exact .inr ⟨eq_false_of_ne_true hv, h⟩

/-! ### Traps, holds and waits (R89, R103, R195, R377) -/

theorem trap_answers (cause value : Word) (s : State) : ∃ t, trap cause value s = .next t := ⟨_, rfl⟩

theorem waitIn_next {i : Instr} {s t : State} (h : waitIn i s = .next t) :
    (∃ p, s.me.packet = some p ∧ trap cPacket p.pko s = .next t) ∨
    (s.me.packet = none ∧ t = s.modMe fun x => { x with st := .waiting, wait := some i }) := by
  unfold waitIn at h
  split at h
  · exact .inl ⟨_, ‹_›, h⟩
  · exact .inr ⟨‹_›, by simpa using h.symm⟩

theorem onLanes_next {rs : List VRegN} {s t : State} {k : Res} (h : onLanes rs s k = .next t) :
    (∃ v, s.me.laneFault rs = some v ∧ trap cLane v s = .next t) ∨ (s.me.laneFault rs = none ∧ k = .next t) := by
  unfold onLanes at h
  split at h
  · exact .inl ⟨_, ‹_›, h⟩
  · exact .inr ⟨‹_›, h⟩

/-! ### Steps of the device -/

theorem guardEvent_next {ok : Bool} {t : State} {k : Res} (h : guardEvent ok k = .next t) : ok = true ∧ k = .next t := by
  cases ok
  · simp [guardEvent] at h
  · exact ⟨rfl, by simpa [guardEvent] using h⟩

@[simp] theorem guardEvent_true (k : Res) : guardEvent true k = k := rfl

theorem wake_next {s t : State} {c : CoreId} {n : CtxId} {ok : Bool} {run : State → Res} (h : wake s c n ok run = .next t) :
    (s.ctx c n).st = .waiting ∧ ok = true ∧ s.paused c = false ∧
      run ({ s with cur := ⟨c, n⟩ }.modCtx c n fun x => { x with st := .ready, wait := none }) = .next t := by
  unfold wake at h
  split at h
  · rename_i hg
    simp only [Bool.and_eq_true, beq_iff_eq, Bool.not_eq_true'] at hg
    exact ⟨hg.1.1, hg.1.2, hg.2, h⟩
  · cases h

/-! ### Accesses and releases (R186, R339) -/

theorem storeFate_next {r : Reach} {addr : Word} {s t : State} {k : Place → Res} (h : storeFate r addr s k = .next t) :
    (∃ p, r = .place p ∧ k p = .next t) ∨ (r = .transFault ∧ trap cTrans addr (s.walked s.cur.core s.myCore.bind.tenant addr) = .next t) ∨
    (r = .rightsFault ∧ trap cRights addr s = .next t) ∨ ∃ n, r = .peerFault n ∧ trap cPeer (n.setWidth 64) s = .next t := by
  cases r with
  | place p => exact .inl ⟨p, rfl, h⟩
  | transFault => exact .inr (.inl ⟨rfl, h⟩)
  | rightsFault => exact .inr (.inr (.inl ⟨rfl, h⟩))
  | peerFault n => exact .inr (.inr (.inr ⟨n, rfl, h⟩))

theorem withRelease_none (s : State) (k : State → Res) : withRelease none s k = k s := rfl

theorem withRelease_next {sc : Option Scope} {s t : State} {k : State → Res} (h : withRelease sc s k = .next t) :
    (sc = none ∧ k s = .next t) ∨ ∃ c, sc = some c ∧
      ((s.allPerformed s.cur.core s.cur.ctx = false ∧ hold s = .next t) ∨
       ((s.releaseActs s.cur.core c).2 = false ∧ hold (s.releaseActs s.cur.core c).1 = .next t) ∨
       ((s.releaseActs s.cur.core c).2 = true ∧ k (s.releaseActs s.cur.core c).1 = .next t)) := by
  cases sc with
  | none => exact .inl ⟨rfl, h⟩
  | some c =>
    refine .inr ⟨c, rfl, ?_⟩
    simp only [withRelease] at h
    split at h
    · rename_i hp; exact .inl ⟨by simpa using hp, h⟩
    · split at h
      · rename_i hr; exact .inr (.inr ⟨hr, h⟩)
      · rename_i hr; exact .inr (.inl ⟨eq_false_of_ne_true hr, h⟩)

end Sys2Proof.Machine
end

