-- ==== Sys2Proof/Laws/Memory.lean ====
section
/-! SUPPORT. Memories: every operation keeps the canonical form, a read after a write gives what was written, and a write
leaves every other byte alone. -/

namespace Sys2Proof.Machine

/-! ### Byte lists -/

theorem cellsWf_mono {lo hi : Nat} {l : List Host.Cell} (h : cellsWf hi l = true) (hle : lo ≤ hi) : cellsWf lo l = true := by
  cases l with
  | nil => rfl
  | cons e r =>
    obtain ⟨a, b⟩ := e
    simp only [cellsWf, Bool.and_eq_true, decide_eq_true_eq] at h ⊢
    exact ⟨⟨by omega, h.1.2⟩, h.2⟩

theorem cellGet_below {lo a : Nat} {l : List Host.Cell} (h : cellsWf lo l = true) (ha : a < lo) : cellGet l a = 0 := by
  induction l generalizing lo with
  | nil => rfl
  | cons e r ih =>
    obtain ⟨i, b⟩ := e
    simp only [cellsWf, Bool.and_eq_true, decide_eq_true_eq] at h
    have : i ≠ a := by omega
    simp only [cellGet, this, if_false]
    exact ih h.2 (by omega)

theorem cellsWf_cons {lo i : Nat} {c : Byte} {r : List Host.Cell} :
    cellsWf lo ((i, c) :: r) = true ↔ lo ≤ i ∧ c ≠ 0#8 ∧ cellsWf (i + 1) r = true := by
  simp [cellsWf, and_assoc]

theorem cellSet_nil (a : Nat) (b : Byte) : cellSet [] a b = if b = 0#8 then [] else [(a, b)] := rfl
theorem cellSet_cons (i a : Nat) (c b : Byte) (r : List Host.Cell) :
    cellSet ((i, c) :: r) a b =
      if a < i then (if b = 0#8 then (i, c) :: r else (a, b) :: (i, c) :: r)
      else if a = i then (if b = 0#8 then r else (i, b) :: r)
      else (i, c) :: cellSet r a b := rfl

theorem cellSet_wf {lo : Nat} {l : List Host.Cell} (h : cellsWf lo l = true) (a : Nat) (b : Byte) (ha : lo ≤ a) :
    cellsWf lo (cellSet l a b) = true := by
  induction l generalizing lo with
  | nil =>
    rw [cellSet_nil]
    split
    · rfl
    · next hb => rw [cellsWf_cons]; exact ⟨ha, hb, rfl⟩
  | cons e r ih =>
    obtain ⟨i, c⟩ := e
    have ⟨h1, h2, h3⟩ := cellsWf_cons.1 h
    rw [cellSet_cons]
    split
    · next hlt =>
      split
      · exact h
      · next hb => exact cellsWf_cons.2 ⟨ha, hb, cellsWf_cons.2 ⟨hlt, h2, h3⟩⟩
    · split
      · next heq =>
        split
        · exact cellsWf_mono h3 (by omega)
        · next hb => exact cellsWf_cons.2 ⟨h1, hb, h3⟩
      · exact cellsWf_cons.2 ⟨h1, h2, ih h3 (by omega)⟩

theorem cellGet_cons (i d : Nat) (c : Byte) (r : List Host.Cell) :
    cellGet ((i, c) :: r) d = if i = d then c else cellGet r d := rfl

theorem cellGet_cellSet {lo : Nat} {l : List Host.Cell} (h : cellsWf lo l = true) (a d : Nat) (b : Byte) :
    cellGet (cellSet l a b) d = if d = a then b else cellGet l d := by
  induction l generalizing lo with
  | nil =>
    rw [cellSet_nil]
    split
    · next hb => subst hb; split <;> rfl
    · rw [cellGet_cons]
      by_cases hd : d = a
      · rw [if_pos hd, if_pos hd.symm]
      · rw [if_neg hd, if_neg (Ne.symm hd)]
  | cons e r ih =>
    obtain ⟨i, c⟩ := e
    have ⟨_, _, h3⟩ := cellsWf_cons.1 h
    have below : a ≤ i → cellGet r a = 0#8 := fun hle => cellGet_below h3 (by omega)
    rw [cellSet_cons]
    split
    · next hlt =>
      split
      · next hb =>
        subst hb
        by_cases hd : d = a
        · rw [if_pos hd, cellGet_cons, hd, if_neg (by omega), below (by omega)]
        · rw [if_neg hd]
      · rw [cellGet_cons]
        by_cases hd : d = a
        · rw [if_pos hd, if_pos hd.symm]
        · rw [if_neg hd, if_neg (Ne.symm hd)]
    · split
      · next heq =>
        subst heq
        by_cases hd : d = a
        · subst hd
          rw [if_pos rfl]
          split
          · next hb => rw [below (Nat.le_refl _), hb]
          · rw [cellGet_cons, if_pos rfl]
        · rw [if_neg hd, cellGet_cons, if_neg (Ne.symm hd)]
          split
          · rfl
          · rw [cellGet_cons, if_neg (Ne.symm hd)]
      · next hne =>
        rw [cellGet_cons, cellGet_cons, ih h3]
        by_cases hd : d = a
        · subst hd; simp [Ne.symm hne]
        · rw [if_neg hd, if_neg hd]

theorem cellsWf_filter {lo : Nat} {l : List Host.Cell} (h : cellsWf lo l = true) (p : Host.Cell → Bool) :
    cellsWf lo (l.filter p) = true := by
  induction l generalizing lo with
  | nil => rfl
  | cons e r ih =>
    obtain ⟨i, c⟩ := e
    have ⟨h1, h2, h3⟩ := cellsWf_cons.1 h
    rw [List.filter_cons]
    split
    · exact cellsWf_cons.2 ⟨h1, h2, ih h3⟩
    · exact ih (cellsWf_mono h3 (by omega))

/-! ### Lists of numbers -/

theorem natsWf_mono {lo hi : Nat} {l : List Nat} (h : natsWf hi l = true) (hle : lo ≤ hi) : natsWf lo l = true := by
  cases l with
  | nil => rfl
  | cons a r =>
    simp only [natsWf, Bool.and_eq_true, decide_eq_true_eq] at h ⊢
    exact ⟨by omega, h.2⟩

theorem natHas_below {lo a : Nat} {l : List Nat} (h : natsWf lo l = true) (ha : a < lo) : natHas l a = false := by
  induction l generalizing lo with
  | nil => rfl
  | cons i r ih =>
    simp only [natsWf, Bool.and_eq_true, decide_eq_true_eq] at h
    have : i ≠ a := by omega
    simp only [natHas, Bool.or_eq_false_iff, beq_eq_false_iff_ne, ne_eq, this, not_false_eq_true, true_and]
    exact ih h.2 (by omega)

theorem natAdd_wf {lo : Nat} {l : List Nat} (h : natsWf lo l = true) (a : Nat) (ha : lo ≤ a) :
    natsWf lo (natAdd l a) = true := by
  induction l generalizing lo with
  | nil => simp [natAdd, natsWf, ha]
  | cons i r ih =>
    simp only [natsWf, Bool.and_eq_true, decide_eq_true_eq] at h
    simp only [natAdd]
    split
    · simp [natsWf, ha, h, show a + 1 ≤ i by omega]
    · split
      · simp [natsWf, h]
      · simp [natsWf, h, ih h.2 (show i + 1 ≤ a by omega)]

theorem natDel_wf {lo : Nat} {l : List Nat} (h : natsWf lo l = true) (a : Nat) : natsWf lo (natDel l a) = true := by
  induction l generalizing lo with
  | nil => rfl
  | cons i r ih =>
    simp only [natsWf, Bool.and_eq_true, decide_eq_true_eq] at h
    simp only [natDel]
    split
    · exact natsWf_mono h.2 (by omega)
    · simp [natsWf, h.1, ih h.2]

theorem natHas_natAdd (l : List Nat) (a d : Nat) : natHas (natAdd l a) d = (d == a || natHas l d) := by
  induction l with
  | nil => simp [natAdd, natHas, eq_comm, beq_eq_decide]
  | cons i r ih =>
    simp only [natAdd]
    split
    · simp [natHas, beq_eq_decide, eq_comm]
    · split
      · next h => subst h; by_cases hd : d = a <;> simp [natHas, hd, beq_eq_decide]
      · simp only [natHas, ih]
        cases i == d <;> simp

theorem natHas_natDel {lo : Nat} {l : List Nat} (h : natsWf lo l = true) (a d : Nat) :
    natHas (natDel l a) d = (d != a && natHas l d) := by
  induction l generalizing lo with
  | nil => simp [natDel, natHas]
  | cons i r ih =>
    simp only [natsWf, Bool.and_eq_true, decide_eq_true_eq] at h
    simp only [natDel]
    split
    · next heq =>
      subst heq
      by_cases hd : d = a
      · subst hd; simp [natHas_below h.2 (show d < d + 1 by omega)]
      · have h1 : (d != a) = true := by simpa using hd
        have h2 : (a == d) = false := by simpa using Ne.symm hd
        rw [natHas, h1, h2]; simp
    · next hne =>
      rw [natHas, natHas, ih h.2]
      by_cases hd : d = a
      · subst hd
        have h2 : (i == d) = false := by simpa using Ne.symm hne
        rw [h2]; simp
      · have h1 : (d != a) = true := by simpa using hd
        rw [h1]; simp

theorem natsWf_filter {lo : Nat} {l : List Nat} (h : natsWf lo l = true) (p : Nat → Bool) : natsWf lo (l.filter p) = true := by
  induction l generalizing lo with
  | nil => rfl
  | cons i r ih =>
    simp only [natsWf, Bool.and_eq_true, decide_eq_true_eq] at h
    simp only [List.filter_cons]
    split
    · simp [natsWf, h.1, ih h.2]
    · exact ih (natsWf_mono h.2 (by omega))

/-! ### The canonical form is kept -/

theorem Memory.wf_empty : Memory.empty.wf = true := rfl

theorem Memory.wf_iff (m : Memory) : m.wf = true ↔ cellsWf 0 m.bytes = true ∧ natsWf 0 m.poison = true := by
  simp [Memory.wf]

theorem Memory.setByte_wf {m : Memory} (h : m.wf = true) (a : Nat) (b : Byte) : (m.setByte a b).wf = true := by
  rw [Memory.wf_iff] at h ⊢
  exact ⟨cellSet_wf h.1 a b (Nat.zero_le _), h.2⟩

theorem Memory.taint_wf {m : Memory} (h : m.wf = true) (a : Nat) (p : Bool) : (m.taint a p).wf = true := by
  rw [Memory.wf_iff] at h ⊢
  cases p
  · exact ⟨h.1, natDel_wf h.2 _⟩
  · exact ⟨h.1, natAdd_wf h.2 _ (Nat.zero_le _)⟩

theorem Memory.writeNat_wf {m : Memory} (h : m.wf = true) (a v n : Nat) : (m.writeNat a v n).wf = true := by
  induction n generalizing m a v with
  | zero => exact h
  | succ n ih => exact ih (Memory.setByte_wf h _ _) _ _

/-- A store keeps the canonical form. -/
theorem Memory.write_wf {m : Memory} (h : m.wf = true) (a n : Nat) (v : PWord) : (m.write a n v).wf = true := by
  unfold Memory.write
  have := Memory.writeNat_wf h a v.val.toNat n
  split
  · exact Memory.taint_wf this _ _
  · split
    · exact Memory.taint_wf this _ _
    · exact this

theorem Memory.clearRes_wf {m : Memory} (h : m.wf = true) : m.clearRes.wf = true := by
  have fold : ∀ (l : List Nat) (m : Memory), m.wf = true →
      (l.foldl (fun (m : Memory) i => m.setByte (0x1FEA + i) 0) m).wf = true := by
    intro l
    induction l with
    | nil => exact fun _ h => h
    | cons i r ih => exact fun m h => ih _ (Memory.setByte_wf h _ _)
  exact Memory.taint_wf (Memory.taint_wf (fold _ _ (Memory.setByte_wf h _ _)) _ _) _ _

/-- A store to a local store keeps the canonical form. -/
theorem lsWrite_wf {m : Memory} (h : m.wf = true) (off n : Nat) (v : PWord) : (lsWrite m off n v).wf = true := by
  unfold lsWrite
  split
  · exact Memory.write_wf h _ _ _
  · exact Memory.clearRes_wf (Memory.write_wf h _ _ _)

theorem zeroGranule_wf {m : Memory} (h : m.wf = true) (pa : Nat) : (zeroGranule m pa).wf = true := by
  rw [Memory.wf_iff] at h ⊢
  exact ⟨cellsWf_filter h.1 _, natsWf_filter h.2 _⟩

theorem clearBank_wf {m : Memory} (h : m.wf = true) (b : Nat) : (clearBank m b).wf = true := by
  rw [Memory.wf_iff] at h ⊢
  exact ⟨cellsWf_filter h.1 _, natsWf_filter h.2 _⟩

theorem Cluster.sramWrite_wf {k : Cluster} (h : k.sram.wf = true) (off n : Nat) (v : PWord) :
    (k.sramWrite off n v).sram.wf = true := Memory.write_wf h _ _ _

/-! ### What a store leaves -/

theorem Memory.byte_setByte {m : Memory} (h : m.wf = true) (a d : Nat) (b : Byte) :
    (m.setByte a b).byte d = if d = a then b else m.byte d :=
  cellGet_cellSet ((Memory.wf_iff m).1 h).1 a d b

@[simp] theorem Memory.byte_taint (m : Memory) (a d : Nat) (p : Bool) : (m.taint a p).byte d = m.byte d := rfl

theorem Memory.byte_writeNat {m : Memory} (h : m.wf = true) (a v n d : Nat) :
    (m.writeNat a v n).byte d = if a ≤ d ∧ d < a + n then BitVec.ofNat 8 (v / 256 ^ (d - a)) else m.byte d := by
  induction n generalizing m a v with
  | zero => simp [Memory.writeNat]
  | succ n ih =>
    rw [Memory.writeNat, ih (Memory.setByte_wf h _ _), Memory.byte_setByte h]
    by_cases h1 : d = a
    · subst h1
      simp
    · by_cases h2 : a + 1 ≤ d ∧ d < a + 1 + n
      · have hk : d - a = (d - (a + 1)) + 1 := by omega
        rw [if_pos h2, if_pos (by omega), hk, Nat.pow_succ', Nat.div_div_eq_div_mul]
      · rw [if_neg h2, if_neg h1, if_neg (by omega)]

/-- A store sets its bytes, little-endian, and leaves every other byte alone. -/
theorem Memory.byte_write {m : Memory} (h : m.wf = true) (a n d : Nat) (v : PWord) :
    (m.write a n v).byte d = if a ≤ d ∧ d < a + n then BitVec.ofNat 8 (v.val.toNat / 256 ^ (d - a)) else m.byte d := by
  have := Memory.byte_writeNat h a v.val.toNat n d
  unfold Memory.write
  split
  · simpa using this
  · split
    · simpa using this
    · exact this

@[simp] theorem Memory.poison_writeNat (m : Memory) (a v n : Nat) : (m.writeNat a v n).poison = m.poison := by
  induction n generalizing m a v with
  | zero => rfl
  | succ n ih => rw [Memory.writeNat, ih]; rfl

/-- R189: what a store does to the poison tag of the unit of any address. -/
theorem Memory.bad_write {m : Memory} (h : m.wf = true) (a n d : Nat) (v : PWord) :
    (m.write a n v).bad d =
      if d / 8 = a / 8 then (v.poison || (n != 8 && m.bad d)) else m.bad d := by
  have hp := ((Memory.wf_iff m).1 h).2
  unfold Memory.write Memory.bad Memory.taint
  split
  · next hv =>
    simp only [if_true, Memory.poison_writeNat, natHas_natAdd, hv, Bool.true_or]
    by_cases he : d / 8 = a / 8 <;> simp [he]
  · next hv =>
    simp only [Bool.not_eq_true] at hv
    split
    · next hn =>
      simp only [Bool.false_eq_true, if_false, Memory.poison_writeNat, natHas_natDel hp]
      by_cases he : d / 8 = a / 8 <;> simp [he, hv, hn]
    · next hn =>
      by_cases he : d / 8 = a / 8 <;> simp [he, hv, hn]

end Sys2Proof.Machine
end

