-- ==== Sys2Proof/Laws/State.lean ====
section
/-! SUPPORT. What each update of the state leaves alone: one lemma per field per update, and the same for the
updates of a context. -/

namespace Sys2Proof.Machine

/-! ### setCore -/
@[simp] theorem setCore_agenda (s : State) (c : CoreId) (k : Core) : (s.setCore c k).agenda = s.agenda := rfl
@[simp] theorem setCore_turn (s : State) (c : CoreId) (k : Core) : (s.setCore c k).turn = s.turn := rfl
@[simp] theorem setCore_cur (s : State) (c : CoreId) (k : Core) : (s.setCore c k).cur = s.cur := rfl
@[simp] theorem setCore_ev (s : State) (c : CoreId) (k : Core) : (s.setCore c k).ev = s.ev := rfl
@[simp] theorem setCore_held (s : State) (c : CoreId) (k : Core) : (s.setCore c k).held = s.held := rfl
@[simp] theorem setCore_fresh (s : State) (c : CoreId) (k : Core) : (s.setCore c k).fresh = s.fresh := rfl
@[simp] theorem setCore_seq (s : State) (c : CoreId) (k : Core) : (s.setCore c k).seq = s.seq := rfl
@[simp] theorem setCore_time (s : State) (c : CoreId) (k : Core) : (s.setCore c k).time = s.time := rfl
@[simp] theorem setCore_hbm (s : State) (c : CoreId) (k : Core) : (s.setCore c k).hbm = s.hbm := rfl
@[simp] theorem setCore_wiping (s : State) (c : CoreId) (k : Core) : (s.setCore c k).wiping = s.wiping := rfl
@[simp] theorem setCore_wiped (s : State) (c : CoreId) (k : Core) : (s.setCore c k).wiped = s.wiped := rfl
@[simp] theorem setCore_fabric (s : State) (c : CoreId) (k : Core) : (s.setCore c k).fabric = s.fabric := rfl
@[simp] theorem setCore_routed (s : State) (c : CoreId) (k : Core) : (s.setCore c k).routed = s.routed := rfl
@[simp] theorem setCore_octets (s : State) (c : CoreId) (k : Core) : (s.setCore c k).octets = s.octets := rfl
@[simp] theorem setCore_clusters (s : State) (c : CoreId) (k : Core) : (s.setCore c k).clusters = s.clusters := rfl
@[simp] theorem setCore_groups (s : State) (c : CoreId) (k : Core) : (s.setCore c k).groups = s.groups := rfl
@[simp] theorem setCore_sectors (s : State) (c : CoreId) (k : Core) : (s.setCore c k).sectors = s.sectors := rfl
@[simp] theorem setCore_slices (s : State) (c : CoreId) (k : Core) : (s.setCore c k).slices = s.slices := rfl
@[simp] theorem setCore_regions (s : State) (c : CoreId) (k : Core) : (s.setCore c k).regions = s.regions := rfl
@[simp] theorem setCore_links (s : State) (c : CoreId) (k : Core) : (s.setCore c k).links = s.links := rfl
@[simp] theorem setCore_spine (s : State) (c : CoreId) (k : Core) : (s.setCore c k).spine = s.spine := rfl
@[simp] theorem setCore_mgmt (s : State) (c : CoreId) (k : Core) : (s.setCore c k).mgmt = s.mgmt := rfl
@[simp] theorem setCore_flash (s : State) (c : CoreId) (k : Core) : (s.setCore c k).flash = s.flash := rfl
@[simp] theorem setCore_host (s : State) (c : CoreId) (k : Core) : (s.setCore c k).host = s.host := rfl

/-! ### setOctet -/
@[simp] theorem setOctet_agenda (s : State) (o : Nat) (k : Octet) : (s.setOctet o k).agenda = s.agenda := rfl
@[simp] theorem setOctet_turn (s : State) (o : Nat) (k : Octet) : (s.setOctet o k).turn = s.turn := rfl
@[simp] theorem setOctet_cur (s : State) (o : Nat) (k : Octet) : (s.setOctet o k).cur = s.cur := rfl
@[simp] theorem setOctet_ev (s : State) (o : Nat) (k : Octet) : (s.setOctet o k).ev = s.ev := rfl
@[simp] theorem setOctet_held (s : State) (o : Nat) (k : Octet) : (s.setOctet o k).held = s.held := rfl
@[simp] theorem setOctet_fresh (s : State) (o : Nat) (k : Octet) : (s.setOctet o k).fresh = s.fresh := rfl
@[simp] theorem setOctet_seq (s : State) (o : Nat) (k : Octet) : (s.setOctet o k).seq = s.seq := rfl
@[simp] theorem setOctet_time (s : State) (o : Nat) (k : Octet) : (s.setOctet o k).time = s.time := rfl
@[simp] theorem setOctet_hbm (s : State) (o : Nat) (k : Octet) : (s.setOctet o k).hbm = s.hbm := rfl
@[simp] theorem setOctet_wiping (s : State) (o : Nat) (k : Octet) : (s.setOctet o k).wiping = s.wiping := rfl
@[simp] theorem setOctet_wiped (s : State) (o : Nat) (k : Octet) : (s.setOctet o k).wiped = s.wiped := rfl
@[simp] theorem setOctet_fabric (s : State) (o : Nat) (k : Octet) : (s.setOctet o k).fabric = s.fabric := rfl
@[simp] theorem setOctet_routed (s : State) (o : Nat) (k : Octet) : (s.setOctet o k).routed = s.routed := rfl
@[simp] theorem setOctet_cores (s : State) (o : Nat) (k : Octet) : (s.setOctet o k).cores = s.cores := rfl
@[simp] theorem setOctet_clusters (s : State) (o : Nat) (k : Octet) : (s.setOctet o k).clusters = s.clusters := rfl
@[simp] theorem setOctet_groups (s : State) (o : Nat) (k : Octet) : (s.setOctet o k).groups = s.groups := rfl
@[simp] theorem setOctet_sectors (s : State) (o : Nat) (k : Octet) : (s.setOctet o k).sectors = s.sectors := rfl
@[simp] theorem setOctet_slices (s : State) (o : Nat) (k : Octet) : (s.setOctet o k).slices = s.slices := rfl
@[simp] theorem setOctet_regions (s : State) (o : Nat) (k : Octet) : (s.setOctet o k).regions = s.regions := rfl
@[simp] theorem setOctet_links (s : State) (o : Nat) (k : Octet) : (s.setOctet o k).links = s.links := rfl
@[simp] theorem setOctet_spine (s : State) (o : Nat) (k : Octet) : (s.setOctet o k).spine = s.spine := rfl
@[simp] theorem setOctet_mgmt (s : State) (o : Nat) (k : Octet) : (s.setOctet o k).mgmt = s.mgmt := rfl
@[simp] theorem setOctet_flash (s : State) (o : Nat) (k : Octet) : (s.setOctet o k).flash = s.flash := rfl
@[simp] theorem setOctet_host (s : State) (o : Nat) (k : Octet) : (s.setOctet o k).host = s.host := rfl

/-! ### setCluster -/
@[simp] theorem setCluster_agenda (s : State) (o : Nat) (k : Cluster) : (s.setCluster o k).agenda = s.agenda := rfl
@[simp] theorem setCluster_turn (s : State) (o : Nat) (k : Cluster) : (s.setCluster o k).turn = s.turn := rfl
@[simp] theorem setCluster_cur (s : State) (o : Nat) (k : Cluster) : (s.setCluster o k).cur = s.cur := rfl
@[simp] theorem setCluster_ev (s : State) (o : Nat) (k : Cluster) : (s.setCluster o k).ev = s.ev := rfl
@[simp] theorem setCluster_held (s : State) (o : Nat) (k : Cluster) : (s.setCluster o k).held = s.held := rfl
@[simp] theorem setCluster_fresh (s : State) (o : Nat) (k : Cluster) : (s.setCluster o k).fresh = s.fresh := rfl
@[simp] theorem setCluster_seq (s : State) (o : Nat) (k : Cluster) : (s.setCluster o k).seq = s.seq := rfl
@[simp] theorem setCluster_time (s : State) (o : Nat) (k : Cluster) : (s.setCluster o k).time = s.time := rfl
@[simp] theorem setCluster_hbm (s : State) (o : Nat) (k : Cluster) : (s.setCluster o k).hbm = s.hbm := rfl
@[simp] theorem setCluster_wiping (s : State) (o : Nat) (k : Cluster) : (s.setCluster o k).wiping = s.wiping := rfl
@[simp] theorem setCluster_wiped (s : State) (o : Nat) (k : Cluster) : (s.setCluster o k).wiped = s.wiped := rfl
@[simp] theorem setCluster_fabric (s : State) (o : Nat) (k : Cluster) : (s.setCluster o k).fabric = s.fabric := rfl
@[simp] theorem setCluster_routed (s : State) (o : Nat) (k : Cluster) : (s.setCluster o k).routed = s.routed := rfl
@[simp] theorem setCluster_cores (s : State) (o : Nat) (k : Cluster) : (s.setCluster o k).cores = s.cores := rfl
@[simp] theorem setCluster_octets (s : State) (o : Nat) (k : Cluster) : (s.setCluster o k).octets = s.octets := rfl
@[simp] theorem setCluster_groups (s : State) (o : Nat) (k : Cluster) : (s.setCluster o k).groups = s.groups := rfl
@[simp] theorem setCluster_sectors (s : State) (o : Nat) (k : Cluster) : (s.setCluster o k).sectors = s.sectors := rfl
@[simp] theorem setCluster_slices (s : State) (o : Nat) (k : Cluster) : (s.setCluster o k).slices = s.slices := rfl
@[simp] theorem setCluster_regions (s : State) (o : Nat) (k : Cluster) : (s.setCluster o k).regions = s.regions := rfl
@[simp] theorem setCluster_links (s : State) (o : Nat) (k : Cluster) : (s.setCluster o k).links = s.links := rfl
@[simp] theorem setCluster_spine (s : State) (o : Nat) (k : Cluster) : (s.setCluster o k).spine = s.spine := rfl
@[simp] theorem setCluster_mgmt (s : State) (o : Nat) (k : Cluster) : (s.setCluster o k).mgmt = s.mgmt := rfl
@[simp] theorem setCluster_flash (s : State) (o : Nat) (k : Cluster) : (s.setCluster o k).flash = s.flash := rfl
@[simp] theorem setCluster_host (s : State) (o : Nat) (k : Cluster) : (s.setCluster o k).host = s.host := rfl

/-! ### setGroup -/
@[simp] theorem setGroup_agenda (s : State) (o : Nat) (k : Group) : (s.setGroup o k).agenda = s.agenda := rfl
@[simp] theorem setGroup_turn (s : State) (o : Nat) (k : Group) : (s.setGroup o k).turn = s.turn := rfl
@[simp] theorem setGroup_cur (s : State) (o : Nat) (k : Group) : (s.setGroup o k).cur = s.cur := rfl
@[simp] theorem setGroup_ev (s : State) (o : Nat) (k : Group) : (s.setGroup o k).ev = s.ev := rfl
@[simp] theorem setGroup_held (s : State) (o : Nat) (k : Group) : (s.setGroup o k).held = s.held := rfl
@[simp] theorem setGroup_fresh (s : State) (o : Nat) (k : Group) : (s.setGroup o k).fresh = s.fresh := rfl
@[simp] theorem setGroup_seq (s : State) (o : Nat) (k : Group) : (s.setGroup o k).seq = s.seq := rfl
@[simp] theorem setGroup_time (s : State) (o : Nat) (k : Group) : (s.setGroup o k).time = s.time := rfl
@[simp] theorem setGroup_hbm (s : State) (o : Nat) (k : Group) : (s.setGroup o k).hbm = s.hbm := rfl
@[simp] theorem setGroup_wiping (s : State) (o : Nat) (k : Group) : (s.setGroup o k).wiping = s.wiping := rfl
@[simp] theorem setGroup_wiped (s : State) (o : Nat) (k : Group) : (s.setGroup o k).wiped = s.wiped := rfl
@[simp] theorem setGroup_fabric (s : State) (o : Nat) (k : Group) : (s.setGroup o k).fabric = s.fabric := rfl
@[simp] theorem setGroup_routed (s : State) (o : Nat) (k : Group) : (s.setGroup o k).routed = s.routed := rfl
@[simp] theorem setGroup_cores (s : State) (o : Nat) (k : Group) : (s.setGroup o k).cores = s.cores := rfl
@[simp] theorem setGroup_octets (s : State) (o : Nat) (k : Group) : (s.setGroup o k).octets = s.octets := rfl
@[simp] theorem setGroup_clusters (s : State) (o : Nat) (k : Group) : (s.setGroup o k).clusters = s.clusters := rfl
@[simp] theorem setGroup_sectors (s : State) (o : Nat) (k : Group) : (s.setGroup o k).sectors = s.sectors := rfl
@[simp] theorem setGroup_slices (s : State) (o : Nat) (k : Group) : (s.setGroup o k).slices = s.slices := rfl
@[simp] theorem setGroup_regions (s : State) (o : Nat) (k : Group) : (s.setGroup o k).regions = s.regions := rfl
@[simp] theorem setGroup_links (s : State) (o : Nat) (k : Group) : (s.setGroup o k).links = s.links := rfl
@[simp] theorem setGroup_spine (s : State) (o : Nat) (k : Group) : (s.setGroup o k).spine = s.spine := rfl
@[simp] theorem setGroup_mgmt (s : State) (o : Nat) (k : Group) : (s.setGroup o k).mgmt = s.mgmt := rfl
@[simp] theorem setGroup_flash (s : State) (o : Nat) (k : Group) : (s.setGroup o k).flash = s.flash := rfl
@[simp] theorem setGroup_host (s : State) (o : Nat) (k : Group) : (s.setGroup o k).host = s.host := rfl

/-! ### setSector -/
@[simp] theorem setSector_agenda (s : State) (o : Nat) (k : Sector) : (s.setSector o k).agenda = s.agenda := rfl
@[simp] theorem setSector_turn (s : State) (o : Nat) (k : Sector) : (s.setSector o k).turn = s.turn := rfl
@[simp] theorem setSector_cur (s : State) (o : Nat) (k : Sector) : (s.setSector o k).cur = s.cur := rfl
@[simp] theorem setSector_ev (s : State) (o : Nat) (k : Sector) : (s.setSector o k).ev = s.ev := rfl
@[simp] theorem setSector_held (s : State) (o : Nat) (k : Sector) : (s.setSector o k).held = s.held := rfl
@[simp] theorem setSector_fresh (s : State) (o : Nat) (k : Sector) : (s.setSector o k).fresh = s.fresh := rfl
@[simp] theorem setSector_seq (s : State) (o : Nat) (k : Sector) : (s.setSector o k).seq = s.seq := rfl
@[simp] theorem setSector_time (s : State) (o : Nat) (k : Sector) : (s.setSector o k).time = s.time := rfl
@[simp] theorem setSector_hbm (s : State) (o : Nat) (k : Sector) : (s.setSector o k).hbm = s.hbm := rfl
@[simp] theorem setSector_wiping (s : State) (o : Nat) (k : Sector) : (s.setSector o k).wiping = s.wiping := rfl
@[simp] theorem setSector_wiped (s : State) (o : Nat) (k : Sector) : (s.setSector o k).wiped = s.wiped := rfl
@[simp] theorem setSector_fabric (s : State) (o : Nat) (k : Sector) : (s.setSector o k).fabric = s.fabric := rfl
@[simp] theorem setSector_routed (s : State) (o : Nat) (k : Sector) : (s.setSector o k).routed = s.routed := rfl
@[simp] theorem setSector_cores (s : State) (o : Nat) (k : Sector) : (s.setSector o k).cores = s.cores := rfl
@[simp] theorem setSector_octets (s : State) (o : Nat) (k : Sector) : (s.setSector o k).octets = s.octets := rfl
@[simp] theorem setSector_clusters (s : State) (o : Nat) (k : Sector) : (s.setSector o k).clusters = s.clusters := rfl
@[simp] theorem setSector_groups (s : State) (o : Nat) (k : Sector) : (s.setSector o k).groups = s.groups := rfl
@[simp] theorem setSector_slices (s : State) (o : Nat) (k : Sector) : (s.setSector o k).slices = s.slices := rfl
@[simp] theorem setSector_regions (s : State) (o : Nat) (k : Sector) : (s.setSector o k).regions = s.regions := rfl
@[simp] theorem setSector_links (s : State) (o : Nat) (k : Sector) : (s.setSector o k).links = s.links := rfl
@[simp] theorem setSector_spine (s : State) (o : Nat) (k : Sector) : (s.setSector o k).spine = s.spine := rfl
@[simp] theorem setSector_mgmt (s : State) (o : Nat) (k : Sector) : (s.setSector o k).mgmt = s.mgmt := rfl
@[simp] theorem setSector_flash (s : State) (o : Nat) (k : Sector) : (s.setSector o k).flash = s.flash := rfl
@[simp] theorem setSector_host (s : State) (o : Nat) (k : Sector) : (s.setSector o k).host = s.host := rfl

/-! ### setSlice -/
@[simp] theorem setSlice_agenda (s : State) (o : Nat) (k : Slice) : (s.setSlice o k).agenda = s.agenda := rfl
@[simp] theorem setSlice_turn (s : State) (o : Nat) (k : Slice) : (s.setSlice o k).turn = s.turn := rfl
@[simp] theorem setSlice_cur (s : State) (o : Nat) (k : Slice) : (s.setSlice o k).cur = s.cur := rfl
@[simp] theorem setSlice_ev (s : State) (o : Nat) (k : Slice) : (s.setSlice o k).ev = s.ev := rfl
@[simp] theorem setSlice_held (s : State) (o : Nat) (k : Slice) : (s.setSlice o k).held = s.held := rfl
@[simp] theorem setSlice_fresh (s : State) (o : Nat) (k : Slice) : (s.setSlice o k).fresh = s.fresh := rfl
@[simp] theorem setSlice_seq (s : State) (o : Nat) (k : Slice) : (s.setSlice o k).seq = s.seq := rfl
@[simp] theorem setSlice_time (s : State) (o : Nat) (k : Slice) : (s.setSlice o k).time = s.time := rfl
@[simp] theorem setSlice_hbm (s : State) (o : Nat) (k : Slice) : (s.setSlice o k).hbm = s.hbm := rfl
@[simp] theorem setSlice_wiping (s : State) (o : Nat) (k : Slice) : (s.setSlice o k).wiping = s.wiping := rfl
@[simp] theorem setSlice_wiped (s : State) (o : Nat) (k : Slice) : (s.setSlice o k).wiped = s.wiped := rfl
@[simp] theorem setSlice_fabric (s : State) (o : Nat) (k : Slice) : (s.setSlice o k).fabric = s.fabric := rfl
@[simp] theorem setSlice_routed (s : State) (o : Nat) (k : Slice) : (s.setSlice o k).routed = s.routed := rfl
@[simp] theorem setSlice_cores (s : State) (o : Nat) (k : Slice) : (s.setSlice o k).cores = s.cores := rfl
@[simp] theorem setSlice_octets (s : State) (o : Nat) (k : Slice) : (s.setSlice o k).octets = s.octets := rfl
@[simp] theorem setSlice_clusters (s : State) (o : Nat) (k : Slice) : (s.setSlice o k).clusters = s.clusters := rfl
@[simp] theorem setSlice_groups (s : State) (o : Nat) (k : Slice) : (s.setSlice o k).groups = s.groups := rfl
@[simp] theorem setSlice_sectors (s : State) (o : Nat) (k : Slice) : (s.setSlice o k).sectors = s.sectors := rfl
@[simp] theorem setSlice_regions (s : State) (o : Nat) (k : Slice) : (s.setSlice o k).regions = s.regions := rfl
@[simp] theorem setSlice_links (s : State) (o : Nat) (k : Slice) : (s.setSlice o k).links = s.links := rfl
@[simp] theorem setSlice_spine (s : State) (o : Nat) (k : Slice) : (s.setSlice o k).spine = s.spine := rfl
@[simp] theorem setSlice_mgmt (s : State) (o : Nat) (k : Slice) : (s.setSlice o k).mgmt = s.mgmt := rfl
@[simp] theorem setSlice_flash (s : State) (o : Nat) (k : Slice) : (s.setSlice o k).flash = s.flash := rfl
@[simp] theorem setSlice_host (s : State) (o : Nat) (k : Slice) : (s.setSlice o k).host = s.host := rfl

/-! ### setRegion -/
@[simp] theorem setRegion_agenda (s : State) (o : Nat) (k : Region) : (s.setRegion o k).agenda = s.agenda := rfl
@[simp] theorem setRegion_turn (s : State) (o : Nat) (k : Region) : (s.setRegion o k).turn = s.turn := rfl
@[simp] theorem setRegion_cur (s : State) (o : Nat) (k : Region) : (s.setRegion o k).cur = s.cur := rfl
@[simp] theorem setRegion_ev (s : State) (o : Nat) (k : Region) : (s.setRegion o k).ev = s.ev := rfl
@[simp] theorem setRegion_held (s : State) (o : Nat) (k : Region) : (s.setRegion o k).held = s.held := rfl
@[simp] theorem setRegion_fresh (s : State) (o : Nat) (k : Region) : (s.setRegion o k).fresh = s.fresh := rfl
@[simp] theorem setRegion_seq (s : State) (o : Nat) (k : Region) : (s.setRegion o k).seq = s.seq := rfl
@[simp] theorem setRegion_time (s : State) (o : Nat) (k : Region) : (s.setRegion o k).time = s.time := rfl
@[simp] theorem setRegion_hbm (s : State) (o : Nat) (k : Region) : (s.setRegion o k).hbm = s.hbm := rfl
@[simp] theorem setRegion_wiping (s : State) (o : Nat) (k : Region) : (s.setRegion o k).wiping = s.wiping := rfl
@[simp] theorem setRegion_wiped (s : State) (o : Nat) (k : Region) : (s.setRegion o k).wiped = s.wiped := rfl
@[simp] theorem setRegion_fabric (s : State) (o : Nat) (k : Region) : (s.setRegion o k).fabric = s.fabric := rfl
@[simp] theorem setRegion_routed (s : State) (o : Nat) (k : Region) : (s.setRegion o k).routed = s.routed := rfl
@[simp] theorem setRegion_cores (s : State) (o : Nat) (k : Region) : (s.setRegion o k).cores = s.cores := rfl
@[simp] theorem setRegion_octets (s : State) (o : Nat) (k : Region) : (s.setRegion o k).octets = s.octets := rfl
@[simp] theorem setRegion_clusters (s : State) (o : Nat) (k : Region) : (s.setRegion o k).clusters = s.clusters := rfl
@[simp] theorem setRegion_groups (s : State) (o : Nat) (k : Region) : (s.setRegion o k).groups = s.groups := rfl
@[simp] theorem setRegion_sectors (s : State) (o : Nat) (k : Region) : (s.setRegion o k).sectors = s.sectors := rfl
@[simp] theorem setRegion_slices (s : State) (o : Nat) (k : Region) : (s.setRegion o k).slices = s.slices := rfl
@[simp] theorem setRegion_links (s : State) (o : Nat) (k : Region) : (s.setRegion o k).links = s.links := rfl
@[simp] theorem setRegion_spine (s : State) (o : Nat) (k : Region) : (s.setRegion o k).spine = s.spine := rfl
@[simp] theorem setRegion_mgmt (s : State) (o : Nat) (k : Region) : (s.setRegion o k).mgmt = s.mgmt := rfl
@[simp] theorem setRegion_flash (s : State) (o : Nat) (k : Region) : (s.setRegion o k).flash = s.flash := rfl
@[simp] theorem setRegion_host (s : State) (o : Nat) (k : Region) : (s.setRegion o k).host = s.host := rfl

/-! ### setLink -/
@[simp] theorem setLink_agenda (s : State) (o : Nat) (k : Link) : (s.setLink o k).agenda = s.agenda := rfl
@[simp] theorem setLink_turn (s : State) (o : Nat) (k : Link) : (s.setLink o k).turn = s.turn := rfl
@[simp] theorem setLink_cur (s : State) (o : Nat) (k : Link) : (s.setLink o k).cur = s.cur := rfl
@[simp] theorem setLink_ev (s : State) (o : Nat) (k : Link) : (s.setLink o k).ev = s.ev := rfl
@[simp] theorem setLink_held (s : State) (o : Nat) (k : Link) : (s.setLink o k).held = s.held := rfl
@[simp] theorem setLink_fresh (s : State) (o : Nat) (k : Link) : (s.setLink o k).fresh = s.fresh := rfl
@[simp] theorem setLink_seq (s : State) (o : Nat) (k : Link) : (s.setLink o k).seq = s.seq := rfl
@[simp] theorem setLink_time (s : State) (o : Nat) (k : Link) : (s.setLink o k).time = s.time := rfl
@[simp] theorem setLink_hbm (s : State) (o : Nat) (k : Link) : (s.setLink o k).hbm = s.hbm := rfl
@[simp] theorem setLink_wiping (s : State) (o : Nat) (k : Link) : (s.setLink o k).wiping = s.wiping := rfl
@[simp] theorem setLink_wiped (s : State) (o : Nat) (k : Link) : (s.setLink o k).wiped = s.wiped := rfl
@[simp] theorem setLink_fabric (s : State) (o : Nat) (k : Link) : (s.setLink o k).fabric = s.fabric := rfl
@[simp] theorem setLink_routed (s : State) (o : Nat) (k : Link) : (s.setLink o k).routed = s.routed := rfl
@[simp] theorem setLink_cores (s : State) (o : Nat) (k : Link) : (s.setLink o k).cores = s.cores := rfl
@[simp] theorem setLink_octets (s : State) (o : Nat) (k : Link) : (s.setLink o k).octets = s.octets := rfl
@[simp] theorem setLink_clusters (s : State) (o : Nat) (k : Link) : (s.setLink o k).clusters = s.clusters := rfl
@[simp] theorem setLink_groups (s : State) (o : Nat) (k : Link) : (s.setLink o k).groups = s.groups := rfl
@[simp] theorem setLink_sectors (s : State) (o : Nat) (k : Link) : (s.setLink o k).sectors = s.sectors := rfl
@[simp] theorem setLink_slices (s : State) (o : Nat) (k : Link) : (s.setLink o k).slices = s.slices := rfl
@[simp] theorem setLink_regions (s : State) (o : Nat) (k : Link) : (s.setLink o k).regions = s.regions := rfl
@[simp] theorem setLink_spine (s : State) (o : Nat) (k : Link) : (s.setLink o k).spine = s.spine := rfl
@[simp] theorem setLink_mgmt (s : State) (o : Nat) (k : Link) : (s.setLink o k).mgmt = s.mgmt := rfl
@[simp] theorem setLink_flash (s : State) (o : Nat) (k : Link) : (s.setLink o k).flash = s.flash := rfl
@[simp] theorem setLink_host (s : State) (o : Nat) (k : Link) : (s.setLink o k).host = s.host := rfl

/-! ### modCore -/
@[simp] theorem modCore_agenda (s : State) (c : CoreId) (f : Core → Core) : (s.modCore c f).agenda = s.agenda := rfl
@[simp] theorem modCore_turn (s : State) (c : CoreId) (f : Core → Core) : (s.modCore c f).turn = s.turn := rfl
@[simp] theorem modCore_cur (s : State) (c : CoreId) (f : Core → Core) : (s.modCore c f).cur = s.cur := rfl
@[simp] theorem modCore_ev (s : State) (c : CoreId) (f : Core → Core) : (s.modCore c f).ev = s.ev := rfl
@[simp] theorem modCore_held (s : State) (c : CoreId) (f : Core → Core) : (s.modCore c f).held = s.held := rfl
@[simp] theorem modCore_fresh (s : State) (c : CoreId) (f : Core → Core) : (s.modCore c f).fresh = s.fresh := rfl
@[simp] theorem modCore_seq (s : State) (c : CoreId) (f : Core → Core) : (s.modCore c f).seq = s.seq := rfl
@[simp] theorem modCore_time (s : State) (c : CoreId) (f : Core → Core) : (s.modCore c f).time = s.time := rfl
@[simp] theorem modCore_hbm (s : State) (c : CoreId) (f : Core → Core) : (s.modCore c f).hbm = s.hbm := rfl
@[simp] theorem modCore_wiping (s : State) (c : CoreId) (f : Core → Core) : (s.modCore c f).wiping = s.wiping := rfl
@[simp] theorem modCore_wiped (s : State) (c : CoreId) (f : Core → Core) : (s.modCore c f).wiped = s.wiped := rfl
@[simp] theorem modCore_fabric (s : State) (c : CoreId) (f : Core → Core) : (s.modCore c f).fabric = s.fabric := rfl
@[simp] theorem modCore_routed (s : State) (c : CoreId) (f : Core → Core) : (s.modCore c f).routed = s.routed := rfl
@[simp] theorem modCore_octets (s : State) (c : CoreId) (f : Core → Core) : (s.modCore c f).octets = s.octets := rfl
@[simp] theorem modCore_clusters (s : State) (c : CoreId) (f : Core → Core) : (s.modCore c f).clusters = s.clusters := rfl
@[simp] theorem modCore_groups (s : State) (c : CoreId) (f : Core → Core) : (s.modCore c f).groups = s.groups := rfl
@[simp] theorem modCore_sectors (s : State) (c : CoreId) (f : Core → Core) : (s.modCore c f).sectors = s.sectors := rfl
@[simp] theorem modCore_slices (s : State) (c : CoreId) (f : Core → Core) : (s.modCore c f).slices = s.slices := rfl
@[simp] theorem modCore_regions (s : State) (c : CoreId) (f : Core → Core) : (s.modCore c f).regions = s.regions := rfl
@[simp] theorem modCore_links (s : State) (c : CoreId) (f : Core → Core) : (s.modCore c f).links = s.links := rfl
@[simp] theorem modCore_spine (s : State) (c : CoreId) (f : Core → Core) : (s.modCore c f).spine = s.spine := rfl
@[simp] theorem modCore_mgmt (s : State) (c : CoreId) (f : Core → Core) : (s.modCore c f).mgmt = s.mgmt := rfl
@[simp] theorem modCore_flash (s : State) (c : CoreId) (f : Core → Core) : (s.modCore c f).flash = s.flash := rfl
@[simp] theorem modCore_host (s : State) (c : CoreId) (f : Core → Core) : (s.modCore c f).host = s.host := rfl

/-! ### setCtx -/
@[simp] theorem setCtx_agenda (s : State) (c : CoreId) (n : CtxId) (x : Ctx) : (s.setCtx c n x).agenda = s.agenda := rfl
@[simp] theorem setCtx_turn (s : State) (c : CoreId) (n : CtxId) (x : Ctx) : (s.setCtx c n x).turn = s.turn := rfl
@[simp] theorem setCtx_cur (s : State) (c : CoreId) (n : CtxId) (x : Ctx) : (s.setCtx c n x).cur = s.cur := rfl
@[simp] theorem setCtx_ev (s : State) (c : CoreId) (n : CtxId) (x : Ctx) : (s.setCtx c n x).ev = s.ev := rfl
@[simp] theorem setCtx_held (s : State) (c : CoreId) (n : CtxId) (x : Ctx) : (s.setCtx c n x).held = s.held := rfl
@[simp] theorem setCtx_fresh (s : State) (c : CoreId) (n : CtxId) (x : Ctx) : (s.setCtx c n x).fresh = s.fresh := rfl
@[simp] theorem setCtx_seq (s : State) (c : CoreId) (n : CtxId) (x : Ctx) : (s.setCtx c n x).seq = s.seq := rfl
@[simp] theorem setCtx_time (s : State) (c : CoreId) (n : CtxId) (x : Ctx) : (s.setCtx c n x).time = s.time := rfl
@[simp] theorem setCtx_hbm (s : State) (c : CoreId) (n : CtxId) (x : Ctx) : (s.setCtx c n x).hbm = s.hbm := rfl
@[simp] theorem setCtx_wiping (s : State) (c : CoreId) (n : CtxId) (x : Ctx) : (s.setCtx c n x).wiping = s.wiping := rfl
@[simp] theorem setCtx_wiped (s : State) (c : CoreId) (n : CtxId) (x : Ctx) : (s.setCtx c n x).wiped = s.wiped := rfl
@[simp] theorem setCtx_fabric (s : State) (c : CoreId) (n : CtxId) (x : Ctx) : (s.setCtx c n x).fabric = s.fabric := rfl
@[simp] theorem setCtx_routed (s : State) (c : CoreId) (n : CtxId) (x : Ctx) : (s.setCtx c n x).routed = s.routed := rfl
@[simp] theorem setCtx_octets (s : State) (c : CoreId) (n : CtxId) (x : Ctx) : (s.setCtx c n x).octets = s.octets := rfl
@[simp] theorem setCtx_clusters (s : State) (c : CoreId) (n : CtxId) (x : Ctx) : (s.setCtx c n x).clusters = s.clusters := rfl
@[simp] theorem setCtx_groups (s : State) (c : CoreId) (n : CtxId) (x : Ctx) : (s.setCtx c n x).groups = s.groups := rfl
@[simp] theorem setCtx_sectors (s : State) (c : CoreId) (n : CtxId) (x : Ctx) : (s.setCtx c n x).sectors = s.sectors := rfl
@[simp] theorem setCtx_slices (s : State) (c : CoreId) (n : CtxId) (x : Ctx) : (s.setCtx c n x).slices = s.slices := rfl
@[simp] theorem setCtx_regions (s : State) (c : CoreId) (n : CtxId) (x : Ctx) : (s.setCtx c n x).regions = s.regions := rfl
@[simp] theorem setCtx_links (s : State) (c : CoreId) (n : CtxId) (x : Ctx) : (s.setCtx c n x).links = s.links := rfl
@[simp] theorem setCtx_spine (s : State) (c : CoreId) (n : CtxId) (x : Ctx) : (s.setCtx c n x).spine = s.spine := rfl
@[simp] theorem setCtx_mgmt (s : State) (c : CoreId) (n : CtxId) (x : Ctx) : (s.setCtx c n x).mgmt = s.mgmt := rfl
@[simp] theorem setCtx_flash (s : State) (c : CoreId) (n : CtxId) (x : Ctx) : (s.setCtx c n x).flash = s.flash := rfl
@[simp] theorem setCtx_host (s : State) (c : CoreId) (n : CtxId) (x : Ctx) : (s.setCtx c n x).host = s.host := rfl

/-! ### setMe -/
@[simp] theorem setMe_agenda (s : State) (x : Ctx) : (s.setMe x).agenda = s.agenda := rfl
@[simp] theorem setMe_turn (s : State) (x : Ctx) : (s.setMe x).turn = s.turn := rfl
@[simp] theorem setMe_cur (s : State) (x : Ctx) : (s.setMe x).cur = s.cur := rfl
@[simp] theorem setMe_ev (s : State) (x : Ctx) : (s.setMe x).ev = s.ev := rfl
@[simp] theorem setMe_held (s : State) (x : Ctx) : (s.setMe x).held = s.held := rfl
@[simp] theorem setMe_fresh (s : State) (x : Ctx) : (s.setMe x).fresh = s.fresh := rfl
@[simp] theorem setMe_seq (s : State) (x : Ctx) : (s.setMe x).seq = s.seq := rfl
@[simp] theorem setMe_time (s : State) (x : Ctx) : (s.setMe x).time = s.time := rfl
@[simp] theorem setMe_hbm (s : State) (x : Ctx) : (s.setMe x).hbm = s.hbm := rfl
@[simp] theorem setMe_wiping (s : State) (x : Ctx) : (s.setMe x).wiping = s.wiping := rfl
@[simp] theorem setMe_wiped (s : State) (x : Ctx) : (s.setMe x).wiped = s.wiped := rfl
@[simp] theorem setMe_fabric (s : State) (x : Ctx) : (s.setMe x).fabric = s.fabric := rfl
@[simp] theorem setMe_routed (s : State) (x : Ctx) : (s.setMe x).routed = s.routed := rfl
@[simp] theorem setMe_octets (s : State) (x : Ctx) : (s.setMe x).octets = s.octets := rfl
@[simp] theorem setMe_clusters (s : State) (x : Ctx) : (s.setMe x).clusters = s.clusters := rfl
@[simp] theorem setMe_groups (s : State) (x : Ctx) : (s.setMe x).groups = s.groups := rfl
@[simp] theorem setMe_sectors (s : State) (x : Ctx) : (s.setMe x).sectors = s.sectors := rfl
@[simp] theorem setMe_slices (s : State) (x : Ctx) : (s.setMe x).slices = s.slices := rfl
@[simp] theorem setMe_regions (s : State) (x : Ctx) : (s.setMe x).regions = s.regions := rfl
@[simp] theorem setMe_links (s : State) (x : Ctx) : (s.setMe x).links = s.links := rfl
@[simp] theorem setMe_spine (s : State) (x : Ctx) : (s.setMe x).spine = s.spine := rfl
@[simp] theorem setMe_mgmt (s : State) (x : Ctx) : (s.setMe x).mgmt = s.mgmt := rfl
@[simp] theorem setMe_flash (s : State) (x : Ctx) : (s.setMe x).flash = s.flash := rfl
@[simp] theorem setMe_host (s : State) (x : Ctx) : (s.setMe x).host = s.host := rfl

/-! ### setG -/
@[simp] theorem setG_agenda (s : State) (r : Reg) (v : PWord) : (s.setG r v).agenda = s.agenda := rfl
@[simp] theorem setG_turn (s : State) (r : Reg) (v : PWord) : (s.setG r v).turn = s.turn := rfl
@[simp] theorem setG_cur (s : State) (r : Reg) (v : PWord) : (s.setG r v).cur = s.cur := rfl
@[simp] theorem setG_ev (s : State) (r : Reg) (v : PWord) : (s.setG r v).ev = s.ev := rfl
@[simp] theorem setG_held (s : State) (r : Reg) (v : PWord) : (s.setG r v).held = s.held := rfl
@[simp] theorem setG_fresh (s : State) (r : Reg) (v : PWord) : (s.setG r v).fresh = s.fresh := rfl
@[simp] theorem setG_seq (s : State) (r : Reg) (v : PWord) : (s.setG r v).seq = s.seq := rfl
@[simp] theorem setG_time (s : State) (r : Reg) (v : PWord) : (s.setG r v).time = s.time := rfl
@[simp] theorem setG_hbm (s : State) (r : Reg) (v : PWord) : (s.setG r v).hbm = s.hbm := rfl
@[simp] theorem setG_wiping (s : State) (r : Reg) (v : PWord) : (s.setG r v).wiping = s.wiping := rfl
@[simp] theorem setG_wiped (s : State) (r : Reg) (v : PWord) : (s.setG r v).wiped = s.wiped := rfl
@[simp] theorem setG_fabric (s : State) (r : Reg) (v : PWord) : (s.setG r v).fabric = s.fabric := rfl
@[simp] theorem setG_routed (s : State) (r : Reg) (v : PWord) : (s.setG r v).routed = s.routed := rfl
@[simp] theorem setG_octets (s : State) (r : Reg) (v : PWord) : (s.setG r v).octets = s.octets := rfl
@[simp] theorem setG_clusters (s : State) (r : Reg) (v : PWord) : (s.setG r v).clusters = s.clusters := rfl
@[simp] theorem setG_groups (s : State) (r : Reg) (v : PWord) : (s.setG r v).groups = s.groups := rfl
@[simp] theorem setG_sectors (s : State) (r : Reg) (v : PWord) : (s.setG r v).sectors = s.sectors := rfl
@[simp] theorem setG_slices (s : State) (r : Reg) (v : PWord) : (s.setG r v).slices = s.slices := rfl
@[simp] theorem setG_regions (s : State) (r : Reg) (v : PWord) : (s.setG r v).regions = s.regions := rfl
@[simp] theorem setG_links (s : State) (r : Reg) (v : PWord) : (s.setG r v).links = s.links := rfl
@[simp] theorem setG_spine (s : State) (r : Reg) (v : PWord) : (s.setG r v).spine = s.spine := rfl
@[simp] theorem setG_mgmt (s : State) (r : Reg) (v : PWord) : (s.setG r v).mgmt = s.mgmt := rfl
@[simp] theorem setG_flash (s : State) (r : Reg) (v : PWord) : (s.setG r v).flash = s.flash := rfl
@[simp] theorem setG_host (s : State) (r : Reg) (v : PWord) : (s.setG r v).host = s.host := rfl

/-! ### setP -/
@[simp] theorem setP_agenda (s : State) (r : PReg) (v : PBit) : (s.setP r v).agenda = s.agenda := rfl
@[simp] theorem setP_turn (s : State) (r : PReg) (v : PBit) : (s.setP r v).turn = s.turn := rfl
@[simp] theorem setP_cur (s : State) (r : PReg) (v : PBit) : (s.setP r v).cur = s.cur := rfl
@[simp] theorem setP_ev (s : State) (r : PReg) (v : PBit) : (s.setP r v).ev = s.ev := rfl
@[simp] theorem setP_held (s : State) (r : PReg) (v : PBit) : (s.setP r v).held = s.held := rfl
@[simp] theorem setP_fresh (s : State) (r : PReg) (v : PBit) : (s.setP r v).fresh = s.fresh := rfl
@[simp] theorem setP_seq (s : State) (r : PReg) (v : PBit) : (s.setP r v).seq = s.seq := rfl
@[simp] theorem setP_time (s : State) (r : PReg) (v : PBit) : (s.setP r v).time = s.time := rfl
@[simp] theorem setP_hbm (s : State) (r : PReg) (v : PBit) : (s.setP r v).hbm = s.hbm := rfl
@[simp] theorem setP_wiping (s : State) (r : PReg) (v : PBit) : (s.setP r v).wiping = s.wiping := rfl
@[simp] theorem setP_wiped (s : State) (r : PReg) (v : PBit) : (s.setP r v).wiped = s.wiped := rfl
@[simp] theorem setP_fabric (s : State) (r : PReg) (v : PBit) : (s.setP r v).fabric = s.fabric := rfl
@[simp] theorem setP_routed (s : State) (r : PReg) (v : PBit) : (s.setP r v).routed = s.routed := rfl
@[simp] theorem setP_octets (s : State) (r : PReg) (v : PBit) : (s.setP r v).octets = s.octets := rfl
@[simp] theorem setP_clusters (s : State) (r : PReg) (v : PBit) : (s.setP r v).clusters = s.clusters := rfl
@[simp] theorem setP_groups (s : State) (r : PReg) (v : PBit) : (s.setP r v).groups = s.groups := rfl
@[simp] theorem setP_sectors (s : State) (r : PReg) (v : PBit) : (s.setP r v).sectors = s.sectors := rfl
@[simp] theorem setP_slices (s : State) (r : PReg) (v : PBit) : (s.setP r v).slices = s.slices := rfl
@[simp] theorem setP_regions (s : State) (r : PReg) (v : PBit) : (s.setP r v).regions = s.regions := rfl
@[simp] theorem setP_links (s : State) (r : PReg) (v : PBit) : (s.setP r v).links = s.links := rfl
@[simp] theorem setP_spine (s : State) (r : PReg) (v : PBit) : (s.setP r v).spine = s.spine := rfl
@[simp] theorem setP_mgmt (s : State) (r : PReg) (v : PBit) : (s.setP r v).mgmt = s.mgmt := rfl
@[simp] theorem setP_flash (s : State) (r : PReg) (v : PBit) : (s.setP r v).flash = s.flash := rfl
@[simp] theorem setP_host (s : State) (r : PReg) (v : PBit) : (s.setP r v).host = s.host := rfl

/-! ### setE -/
@[simp] theorem setE_agenda (s : State) (r : EReg) (v : PWord) : (s.setE r v).agenda = s.agenda := rfl
@[simp] theorem setE_turn (s : State) (r : EReg) (v : PWord) : (s.setE r v).turn = s.turn := rfl
@[simp] theorem setE_cur (s : State) (r : EReg) (v : PWord) : (s.setE r v).cur = s.cur := rfl
@[simp] theorem setE_ev (s : State) (r : EReg) (v : PWord) : (s.setE r v).ev = s.ev := rfl
@[simp] theorem setE_held (s : State) (r : EReg) (v : PWord) : (s.setE r v).held = s.held := rfl
@[simp] theorem setE_fresh (s : State) (r : EReg) (v : PWord) : (s.setE r v).fresh = s.fresh := rfl
@[simp] theorem setE_seq (s : State) (r : EReg) (v : PWord) : (s.setE r v).seq = s.seq := rfl
@[simp] theorem setE_time (s : State) (r : EReg) (v : PWord) : (s.setE r v).time = s.time := rfl
@[simp] theorem setE_hbm (s : State) (r : EReg) (v : PWord) : (s.setE r v).hbm = s.hbm := rfl
@[simp] theorem setE_wiping (s : State) (r : EReg) (v : PWord) : (s.setE r v).wiping = s.wiping := rfl
@[simp] theorem setE_wiped (s : State) (r : EReg) (v : PWord) : (s.setE r v).wiped = s.wiped := rfl
@[simp] theorem setE_fabric (s : State) (r : EReg) (v : PWord) : (s.setE r v).fabric = s.fabric := rfl
@[simp] theorem setE_routed (s : State) (r : EReg) (v : PWord) : (s.setE r v).routed = s.routed := rfl
@[simp] theorem setE_octets (s : State) (r : EReg) (v : PWord) : (s.setE r v).octets = s.octets := rfl
@[simp] theorem setE_clusters (s : State) (r : EReg) (v : PWord) : (s.setE r v).clusters = s.clusters := rfl
@[simp] theorem setE_groups (s : State) (r : EReg) (v : PWord) : (s.setE r v).groups = s.groups := rfl
@[simp] theorem setE_sectors (s : State) (r : EReg) (v : PWord) : (s.setE r v).sectors = s.sectors := rfl
@[simp] theorem setE_slices (s : State) (r : EReg) (v : PWord) : (s.setE r v).slices = s.slices := rfl
@[simp] theorem setE_regions (s : State) (r : EReg) (v : PWord) : (s.setE r v).regions = s.regions := rfl
@[simp] theorem setE_links (s : State) (r : EReg) (v : PWord) : (s.setE r v).links = s.links := rfl
@[simp] theorem setE_spine (s : State) (r : EReg) (v : PWord) : (s.setE r v).spine = s.spine := rfl
@[simp] theorem setE_mgmt (s : State) (r : EReg) (v : PWord) : (s.setE r v).mgmt = s.mgmt := rfl
@[simp] theorem setE_flash (s : State) (r : EReg) (v : PWord) : (s.setE r v).flash = s.flash := rfl
@[simp] theorem setE_host (s : State) (r : EReg) (v : PWord) : (s.setE r v).host = s.host := rfl

/-! ### nextFresh -/
@[simp] theorem nextFresh_agenda (s : State) : (s.nextFresh).agenda = s.agenda := rfl
@[simp] theorem nextFresh_turn (s : State) : (s.nextFresh).turn = s.turn := rfl
@[simp] theorem nextFresh_cur (s : State) : (s.nextFresh).cur = s.cur := rfl
@[simp] theorem nextFresh_ev (s : State) : (s.nextFresh).ev = s.ev := rfl
@[simp] theorem nextFresh_held (s : State) : (s.nextFresh).held = s.held := rfl
@[simp] theorem nextFresh_seq (s : State) : (s.nextFresh).seq = s.seq := rfl
@[simp] theorem nextFresh_time (s : State) : (s.nextFresh).time = s.time := rfl
@[simp] theorem nextFresh_hbm (s : State) : (s.nextFresh).hbm = s.hbm := rfl
@[simp] theorem nextFresh_wiping (s : State) : (s.nextFresh).wiping = s.wiping := rfl
@[simp] theorem nextFresh_wiped (s : State) : (s.nextFresh).wiped = s.wiped := rfl
@[simp] theorem nextFresh_fabric (s : State) : (s.nextFresh).fabric = s.fabric := rfl
@[simp] theorem nextFresh_routed (s : State) : (s.nextFresh).routed = s.routed := rfl
@[simp] theorem nextFresh_cores (s : State) : (s.nextFresh).cores = s.cores := rfl
@[simp] theorem nextFresh_octets (s : State) : (s.nextFresh).octets = s.octets := rfl
@[simp] theorem nextFresh_clusters (s : State) : (s.nextFresh).clusters = s.clusters := rfl
@[simp] theorem nextFresh_groups (s : State) : (s.nextFresh).groups = s.groups := rfl
@[simp] theorem nextFresh_sectors (s : State) : (s.nextFresh).sectors = s.sectors := rfl
@[simp] theorem nextFresh_slices (s : State) : (s.nextFresh).slices = s.slices := rfl
@[simp] theorem nextFresh_regions (s : State) : (s.nextFresh).regions = s.regions := rfl
@[simp] theorem nextFresh_links (s : State) : (s.nextFresh).links = s.links := rfl
@[simp] theorem nextFresh_spine (s : State) : (s.nextFresh).spine = s.spine := rfl
@[simp] theorem nextFresh_mgmt (s : State) : (s.nextFresh).mgmt = s.mgmt := rfl
@[simp] theorem nextFresh_flash (s : State) : (s.nextFresh).flash = s.flash := rfl
@[simp] theorem nextFresh_host (s : State) : (s.nextFresh).host = s.host := rfl

/-! ### nextSeq -/
@[simp] theorem nextSeq_agenda (s : State) : (s.nextSeq).agenda = s.agenda := rfl
@[simp] theorem nextSeq_turn (s : State) : (s.nextSeq).turn = s.turn := rfl
@[simp] theorem nextSeq_cur (s : State) : (s.nextSeq).cur = s.cur := rfl
@[simp] theorem nextSeq_ev (s : State) : (s.nextSeq).ev = s.ev := rfl
@[simp] theorem nextSeq_held (s : State) : (s.nextSeq).held = s.held := rfl
@[simp] theorem nextSeq_fresh (s : State) : (s.nextSeq).fresh = s.fresh := rfl
@[simp] theorem nextSeq_time (s : State) : (s.nextSeq).time = s.time := rfl
@[simp] theorem nextSeq_hbm (s : State) : (s.nextSeq).hbm = s.hbm := rfl
@[simp] theorem nextSeq_wiping (s : State) : (s.nextSeq).wiping = s.wiping := rfl
@[simp] theorem nextSeq_wiped (s : State) : (s.nextSeq).wiped = s.wiped := rfl
@[simp] theorem nextSeq_fabric (s : State) : (s.nextSeq).fabric = s.fabric := rfl
@[simp] theorem nextSeq_routed (s : State) : (s.nextSeq).routed = s.routed := rfl
@[simp] theorem nextSeq_cores (s : State) : (s.nextSeq).cores = s.cores := rfl
@[simp] theorem nextSeq_octets (s : State) : (s.nextSeq).octets = s.octets := rfl
@[simp] theorem nextSeq_clusters (s : State) : (s.nextSeq).clusters = s.clusters := rfl
@[simp] theorem nextSeq_groups (s : State) : (s.nextSeq).groups = s.groups := rfl
@[simp] theorem nextSeq_sectors (s : State) : (s.nextSeq).sectors = s.sectors := rfl
@[simp] theorem nextSeq_slices (s : State) : (s.nextSeq).slices = s.slices := rfl
@[simp] theorem nextSeq_regions (s : State) : (s.nextSeq).regions = s.regions := rfl
@[simp] theorem nextSeq_links (s : State) : (s.nextSeq).links = s.links := rfl
@[simp] theorem nextSeq_spine (s : State) : (s.nextSeq).spine = s.spine := rfl
@[simp] theorem nextSeq_mgmt (s : State) : (s.nextSeq).mgmt = s.mgmt := rfl
@[simp] theorem nextSeq_flash (s : State) : (s.nextSeq).flash = s.flash := rfl
@[simp] theorem nextSeq_host (s : State) : (s.nextSeq).host = s.host := rfl

/-! ### Ctx.setG -/
@[simp] theorem Ctx.setG_st (x : Ctx) (r : Reg) (v : PWord) : (x.setG r v).st = x.st := by unfold Ctx.setG; split <;> rfl
@[simp] theorem Ctx.setG_wait (x : Ctx) (r : Reg) (v : PWord) : (x.setG r v).wait = x.wait := by unfold Ctx.setG; split <;> rfl
@[simp] theorem Ctx.setG_yield (x : Ctx) (r : Reg) (v : PWord) : (x.setG r v).yield = x.yield := by unfold Ctx.setG; split <;> rfl
@[simp] theorem Ctx.setG_due (x : Ctx) (r : Reg) (v : PWord) : (x.setG r v).due = x.due := by unfold Ctx.setG; split <;> rfl
@[simp] theorem Ctx.setG_pc (x : Ctx) (r : Reg) (v : PWord) : (x.setG r v).pc = x.pc := by unfold Ctx.setG; split <;> rfl
@[simp] theorem Ctx.setG_npc (x : Ctx) (r : Reg) (v : PWord) : (x.setG r v).npc = x.npc := by unfold Ctx.setG; split <;> rfl
@[simp] theorem Ctx.setG_nnpc (x : Ctx) (r : Reg) (v : PWord) : (x.setG r v).nnpc = x.nnpc := by unfold Ctx.setG; split <;> rfl
@[simp] theorem Ctx.setG_slots (x : Ctx) (r : Reg) (v : PWord) : (x.setG r v).slots = x.slots := by unfold Ctx.setG; split <;> rfl
@[simp] theorem Ctx.setG_fetched (x : Ctx) (r : Reg) (v : PWord) : (x.setG r v).fetched = x.fetched := by unfold Ctx.setG; split <;> rfl
@[simp] theorem Ctx.setG_p (x : Ctx) (r : Reg) (v : PWord) : (x.setG r v).p = x.p := by unfold Ctx.setG; split <;> rfl
@[simp] theorem Ctx.setG_e (x : Ctx) (r : Reg) (v : PWord) : (x.setG r v).e = x.e := by unfold Ctx.setG; split <;> rfl
@[simp] theorem Ctx.setG_nmode (x : Ctx) (r : Reg) (v : PWord) : (x.setG r v).nmode = x.nmode := by unfold Ctx.setG; split <;> rfl
@[simp] theorem Ctx.setG_nflags (x : Ctx) (r : Reg) (v : PWord) : (x.setG r v).nflags = x.nflags := by unfold Ctx.setG; split <;> rfl
@[simp] theorem Ctx.setG_tr (x : Ctx) (r : Reg) (v : PWord) : (x.setG r v).tr = x.tr := by unfold Ctx.setG; split <;> rfl
@[simp] theorem Ctx.setG_ien (x : Ctx) (r : Reg) (v : PWord) : (x.setG r v).ien = x.ien := by unfold Ctx.setG; split <;> rfl
@[simp] theorem Ctx.setG_ipend (x : Ctx) (r : Reg) (v : PWord) : (x.setG r v).ipend = x.ipend := by unfold Ctx.setG; split <;> rfl
@[simp] theorem Ctx.setG_alarm (x : Ctx) (r : Reg) (v : PWord) : (x.setG r v).alarm = x.alarm := by unfold Ctx.setG; split <;> rfl
@[simp] theorem Ctx.setG_evpend (x : Ctx) (r : Reg) (v : PWord) : (x.setG r v).evpend = x.evpend := by unfold Ctx.setG; split <;> rfl
@[simp] theorem Ctx.setG_tstat (x : Ctx) (r : Reg) (v : PWord) : (x.setG r v).tstat = x.tstat := by unfold Ctx.setG; split <;> rfl
@[simp] theorem Ctx.setG_loops (x : Ctx) (r : Reg) (v : PWord) : (x.setG r v).loops = x.loops := by unfold Ctx.setG; split <;> rfl
@[simp] theorem Ctx.setG_count (x : Ctx) (r : Reg) (v : PWord) : (x.setG r v).count = x.count := by unfold Ctx.setG; split <;> rfl
@[simp] theorem Ctx.setG_v (x : Ctx) (r : Reg) (v : PWord) : (x.setG r v).v = x.v := by unfold Ctx.setG; split <;> rfl
@[simp] theorem Ctx.setG_lanes (x : Ctx) (r : Reg) (v : PWord) : (x.setG r v).lanes = x.lanes := by unfold Ctx.setG; split <;> rfl
@[simp] theorem Ctx.setG_packet (x : Ctx) (r : Reg) (v : PWord) : (x.setG r v).packet = x.packet := by unfold Ctx.setG; split <;> rfl
@[simp] theorem Ctx.setG_gen (x : Ctx) (r : Reg) (v : PWord) : (x.setG r v).gen = x.gen := by unfold Ctx.setG; split <;> rfl
@[simp] theorem Ctx.setG_unsaved (x : Ctx) (r : Reg) (v : PWord) : (x.setG r v).unsaved = x.unsaved := by unfold Ctx.setG; split <;> rfl

/-! ### Ctx.setP -/
@[simp] theorem Ctx.setP_st (x : Ctx) (r : PReg) (v : PBit) : (x.setP r v).st = x.st := by unfold Ctx.setP; split <;> rfl
@[simp] theorem Ctx.setP_wait (x : Ctx) (r : PReg) (v : PBit) : (x.setP r v).wait = x.wait := by unfold Ctx.setP; split <;> rfl
@[simp] theorem Ctx.setP_yield (x : Ctx) (r : PReg) (v : PBit) : (x.setP r v).yield = x.yield := by unfold Ctx.setP; split <;> rfl
@[simp] theorem Ctx.setP_due (x : Ctx) (r : PReg) (v : PBit) : (x.setP r v).due = x.due := by unfold Ctx.setP; split <;> rfl
@[simp] theorem Ctx.setP_pc (x : Ctx) (r : PReg) (v : PBit) : (x.setP r v).pc = x.pc := by unfold Ctx.setP; split <;> rfl
@[simp] theorem Ctx.setP_npc (x : Ctx) (r : PReg) (v : PBit) : (x.setP r v).npc = x.npc := by unfold Ctx.setP; split <;> rfl
@[simp] theorem Ctx.setP_nnpc (x : Ctx) (r : PReg) (v : PBit) : (x.setP r v).nnpc = x.nnpc := by unfold Ctx.setP; split <;> rfl
@[simp] theorem Ctx.setP_slots (x : Ctx) (r : PReg) (v : PBit) : (x.setP r v).slots = x.slots := by unfold Ctx.setP; split <;> rfl
@[simp] theorem Ctx.setP_fetched (x : Ctx) (r : PReg) (v : PBit) : (x.setP r v).fetched = x.fetched := by unfold Ctx.setP; split <;> rfl
@[simp] theorem Ctx.setP_g (x : Ctx) (r : PReg) (v : PBit) : (x.setP r v).g = x.g := by unfold Ctx.setP; split <;> rfl
@[simp] theorem Ctx.setP_e (x : Ctx) (r : PReg) (v : PBit) : (x.setP r v).e = x.e := by unfold Ctx.setP; split <;> rfl
@[simp] theorem Ctx.setP_pend (x : Ctx) (r : PReg) (v : PBit) : (x.setP r v).pend = x.pend := by unfold Ctx.setP; split <;> rfl
@[simp] theorem Ctx.setP_nmode (x : Ctx) (r : PReg) (v : PBit) : (x.setP r v).nmode = x.nmode := by unfold Ctx.setP; split <;> rfl
@[simp] theorem Ctx.setP_nflags (x : Ctx) (r : PReg) (v : PBit) : (x.setP r v).nflags = x.nflags := by unfold Ctx.setP; split <;> rfl
@[simp] theorem Ctx.setP_tr (x : Ctx) (r : PReg) (v : PBit) : (x.setP r v).tr = x.tr := by unfold Ctx.setP; split <;> rfl
@[simp] theorem Ctx.setP_ien (x : Ctx) (r : PReg) (v : PBit) : (x.setP r v).ien = x.ien := by unfold Ctx.setP; split <;> rfl
@[simp] theorem Ctx.setP_ipend (x : Ctx) (r : PReg) (v : PBit) : (x.setP r v).ipend = x.ipend := by unfold Ctx.setP; split <;> rfl
@[simp] theorem Ctx.setP_alarm (x : Ctx) (r : PReg) (v : PBit) : (x.setP r v).alarm = x.alarm := by unfold Ctx.setP; split <;> rfl
@[simp] theorem Ctx.setP_evpend (x : Ctx) (r : PReg) (v : PBit) : (x.setP r v).evpend = x.evpend := by unfold Ctx.setP; split <;> rfl
@[simp] theorem Ctx.setP_tstat (x : Ctx) (r : PReg) (v : PBit) : (x.setP r v).tstat = x.tstat := by unfold Ctx.setP; split <;> rfl
@[simp] theorem Ctx.setP_loops (x : Ctx) (r : PReg) (v : PBit) : (x.setP r v).loops = x.loops := by unfold Ctx.setP; split <;> rfl
@[simp] theorem Ctx.setP_count (x : Ctx) (r : PReg) (v : PBit) : (x.setP r v).count = x.count := by unfold Ctx.setP; split <;> rfl
@[simp] theorem Ctx.setP_v (x : Ctx) (r : PReg) (v : PBit) : (x.setP r v).v = x.v := by unfold Ctx.setP; split <;> rfl
@[simp] theorem Ctx.setP_lanes (x : Ctx) (r : PReg) (v : PBit) : (x.setP r v).lanes = x.lanes := by unfold Ctx.setP; split <;> rfl
@[simp] theorem Ctx.setP_packet (x : Ctx) (r : PReg) (v : PBit) : (x.setP r v).packet = x.packet := by unfold Ctx.setP; split <;> rfl
@[simp] theorem Ctx.setP_gen (x : Ctx) (r : PReg) (v : PBit) : (x.setP r v).gen = x.gen := by unfold Ctx.setP; split <;> rfl
@[simp] theorem Ctx.setP_unsaved (x : Ctx) (r : PReg) (v : PBit) : (x.setP r v).unsaved = x.unsaved := by unfold Ctx.setP; split <;> rfl

/-! ### Ctx.setE -/
@[simp] theorem Ctx.setE_st (x : Ctx) (r : EReg) (v : PWord) : (x.setE r v).st = x.st := rfl
@[simp] theorem Ctx.setE_wait (x : Ctx) (r : EReg) (v : PWord) : (x.setE r v).wait = x.wait := rfl
@[simp] theorem Ctx.setE_yield (x : Ctx) (r : EReg) (v : PWord) : (x.setE r v).yield = x.yield := rfl
@[simp] theorem Ctx.setE_due (x : Ctx) (r : EReg) (v : PWord) : (x.setE r v).due = x.due := rfl
@[simp] theorem Ctx.setE_pc (x : Ctx) (r : EReg) (v : PWord) : (x.setE r v).pc = x.pc := rfl
@[simp] theorem Ctx.setE_npc (x : Ctx) (r : EReg) (v : PWord) : (x.setE r v).npc = x.npc := rfl
@[simp] theorem Ctx.setE_nnpc (x : Ctx) (r : EReg) (v : PWord) : (x.setE r v).nnpc = x.nnpc := rfl
@[simp] theorem Ctx.setE_slots (x : Ctx) (r : EReg) (v : PWord) : (x.setE r v).slots = x.slots := rfl
@[simp] theorem Ctx.setE_fetched (x : Ctx) (r : EReg) (v : PWord) : (x.setE r v).fetched = x.fetched := rfl
@[simp] theorem Ctx.setE_g (x : Ctx) (r : EReg) (v : PWord) : (x.setE r v).g = x.g := rfl
@[simp] theorem Ctx.setE_p (x : Ctx) (r : EReg) (v : PWord) : (x.setE r v).p = x.p := rfl
@[simp] theorem Ctx.setE_nmode (x : Ctx) (r : EReg) (v : PWord) : (x.setE r v).nmode = x.nmode := rfl
@[simp] theorem Ctx.setE_nflags (x : Ctx) (r : EReg) (v : PWord) : (x.setE r v).nflags = x.nflags := rfl
@[simp] theorem Ctx.setE_tr (x : Ctx) (r : EReg) (v : PWord) : (x.setE r v).tr = x.tr := rfl
@[simp] theorem Ctx.setE_ien (x : Ctx) (r : EReg) (v : PWord) : (x.setE r v).ien = x.ien := rfl
@[simp] theorem Ctx.setE_ipend (x : Ctx) (r : EReg) (v : PWord) : (x.setE r v).ipend = x.ipend := rfl
@[simp] theorem Ctx.setE_alarm (x : Ctx) (r : EReg) (v : PWord) : (x.setE r v).alarm = x.alarm := rfl
@[simp] theorem Ctx.setE_evpend (x : Ctx) (r : EReg) (v : PWord) : (x.setE r v).evpend = x.evpend := rfl
@[simp] theorem Ctx.setE_tstat (x : Ctx) (r : EReg) (v : PWord) : (x.setE r v).tstat = x.tstat := rfl
@[simp] theorem Ctx.setE_loops (x : Ctx) (r : EReg) (v : PWord) : (x.setE r v).loops = x.loops := rfl
@[simp] theorem Ctx.setE_count (x : Ctx) (r : EReg) (v : PWord) : (x.setE r v).count = x.count := rfl
@[simp] theorem Ctx.setE_v (x : Ctx) (r : EReg) (v : PWord) : (x.setE r v).v = x.v := rfl
@[simp] theorem Ctx.setE_lanes (x : Ctx) (r : EReg) (v : PWord) : (x.setE r v).lanes = x.lanes := rfl
@[simp] theorem Ctx.setE_packet (x : Ctx) (r : EReg) (v : PWord) : (x.setE r v).packet = x.packet := rfl
@[simp] theorem Ctx.setE_gen (x : Ctx) (r : EReg) (v : PWord) : (x.setE r v).gen = x.gen := rfl
@[simp] theorem Ctx.setE_unsaved (x : Ctx) (r : EReg) (v : PWord) : (x.setE r v).unsaved = x.unsaved := rfl

/-! ### Ctx.unpend -/
@[simp] theorem Ctx.unpend_st (x : Ctx) (r : RegName) : (x.unpend r).st = x.st := rfl
@[simp] theorem Ctx.unpend_wait (x : Ctx) (r : RegName) : (x.unpend r).wait = x.wait := rfl
@[simp] theorem Ctx.unpend_yield (x : Ctx) (r : RegName) : (x.unpend r).yield = x.yield := rfl
@[simp] theorem Ctx.unpend_due (x : Ctx) (r : RegName) : (x.unpend r).due = x.due := rfl
@[simp] theorem Ctx.unpend_pc (x : Ctx) (r : RegName) : (x.unpend r).pc = x.pc := rfl
@[simp] theorem Ctx.unpend_npc (x : Ctx) (r : RegName) : (x.unpend r).npc = x.npc := rfl
@[simp] theorem Ctx.unpend_nnpc (x : Ctx) (r : RegName) : (x.unpend r).nnpc = x.nnpc := rfl
@[simp] theorem Ctx.unpend_slots (x : Ctx) (r : RegName) : (x.unpend r).slots = x.slots := rfl
@[simp] theorem Ctx.unpend_fetched (x : Ctx) (r : RegName) : (x.unpend r).fetched = x.fetched := rfl
@[simp] theorem Ctx.unpend_g (x : Ctx) (r : RegName) : (x.unpend r).g = x.g := rfl
@[simp] theorem Ctx.unpend_p (x : Ctx) (r : RegName) : (x.unpend r).p = x.p := rfl
@[simp] theorem Ctx.unpend_e (x : Ctx) (r : RegName) : (x.unpend r).e = x.e := rfl
@[simp] theorem Ctx.unpend_nmode (x : Ctx) (r : RegName) : (x.unpend r).nmode = x.nmode := rfl
@[simp] theorem Ctx.unpend_nflags (x : Ctx) (r : RegName) : (x.unpend r).nflags = x.nflags := rfl
@[simp] theorem Ctx.unpend_tr (x : Ctx) (r : RegName) : (x.unpend r).tr = x.tr := rfl
@[simp] theorem Ctx.unpend_ien (x : Ctx) (r : RegName) : (x.unpend r).ien = x.ien := rfl
@[simp] theorem Ctx.unpend_ipend (x : Ctx) (r : RegName) : (x.unpend r).ipend = x.ipend := rfl
@[simp] theorem Ctx.unpend_alarm (x : Ctx) (r : RegName) : (x.unpend r).alarm = x.alarm := rfl
@[simp] theorem Ctx.unpend_evpend (x : Ctx) (r : RegName) : (x.unpend r).evpend = x.evpend := rfl
@[simp] theorem Ctx.unpend_tstat (x : Ctx) (r : RegName) : (x.unpend r).tstat = x.tstat := rfl
@[simp] theorem Ctx.unpend_loops (x : Ctx) (r : RegName) : (x.unpend r).loops = x.loops := rfl
@[simp] theorem Ctx.unpend_count (x : Ctx) (r : RegName) : (x.unpend r).count = x.count := rfl
@[simp] theorem Ctx.unpend_v (x : Ctx) (r : RegName) : (x.unpend r).v = x.v := rfl
@[simp] theorem Ctx.unpend_lanes (x : Ctx) (r : RegName) : (x.unpend r).lanes = x.lanes := rfl
@[simp] theorem Ctx.unpend_packet (x : Ctx) (r : RegName) : (x.unpend r).packet = x.packet := rfl
@[simp] theorem Ctx.unpend_gen (x : Ctx) (r : RegName) : (x.unpend r).gen = x.gen := rfl
@[simp] theorem Ctx.unpend_unsaved (x : Ctx) (r : RegName) : (x.unpend r).unsaved = x.unsaved := rfl

/-! ### Ctx.latch -/
@[simp] theorem Ctx.latch_st (x : Ctx) (b : Word) : (x.latch b).st = x.st := rfl
@[simp] theorem Ctx.latch_wait (x : Ctx) (b : Word) : (x.latch b).wait = x.wait := rfl
@[simp] theorem Ctx.latch_yield (x : Ctx) (b : Word) : (x.latch b).yield = x.yield := rfl
@[simp] theorem Ctx.latch_due (x : Ctx) (b : Word) : (x.latch b).due = x.due := rfl
@[simp] theorem Ctx.latch_pc (x : Ctx) (b : Word) : (x.latch b).pc = x.pc := rfl
@[simp] theorem Ctx.latch_npc (x : Ctx) (b : Word) : (x.latch b).npc = x.npc := rfl
@[simp] theorem Ctx.latch_nnpc (x : Ctx) (b : Word) : (x.latch b).nnpc = x.nnpc := rfl
@[simp] theorem Ctx.latch_slots (x : Ctx) (b : Word) : (x.latch b).slots = x.slots := rfl
@[simp] theorem Ctx.latch_fetched (x : Ctx) (b : Word) : (x.latch b).fetched = x.fetched := rfl
@[simp] theorem Ctx.latch_g (x : Ctx) (b : Word) : (x.latch b).g = x.g := rfl
@[simp] theorem Ctx.latch_p (x : Ctx) (b : Word) : (x.latch b).p = x.p := rfl
@[simp] theorem Ctx.latch_e (x : Ctx) (b : Word) : (x.latch b).e = x.e := rfl
@[simp] theorem Ctx.latch_pend (x : Ctx) (b : Word) : (x.latch b).pend = x.pend := rfl
@[simp] theorem Ctx.latch_nmode (x : Ctx) (b : Word) : (x.latch b).nmode = x.nmode := rfl
@[simp] theorem Ctx.latch_nflags (x : Ctx) (b : Word) : (x.latch b).nflags = x.nflags := rfl
@[simp] theorem Ctx.latch_tr (x : Ctx) (b : Word) : (x.latch b).tr = x.tr := rfl
@[simp] theorem Ctx.latch_ien (x : Ctx) (b : Word) : (x.latch b).ien = x.ien := rfl
@[simp] theorem Ctx.latch_ipend (x : Ctx) (b : Word) : (x.latch b).ipend = x.ipend := rfl
@[simp] theorem Ctx.latch_alarm (x : Ctx) (b : Word) : (x.latch b).alarm = x.alarm := rfl
@[simp] theorem Ctx.latch_tstat (x : Ctx) (b : Word) : (x.latch b).tstat = x.tstat := rfl
@[simp] theorem Ctx.latch_loops (x : Ctx) (b : Word) : (x.latch b).loops = x.loops := rfl
@[simp] theorem Ctx.latch_count (x : Ctx) (b : Word) : (x.latch b).count = x.count := rfl
@[simp] theorem Ctx.latch_v (x : Ctx) (b : Word) : (x.latch b).v = x.v := rfl
@[simp] theorem Ctx.latch_lanes (x : Ctx) (b : Word) : (x.latch b).lanes = x.lanes := rfl
@[simp] theorem Ctx.latch_packet (x : Ctx) (b : Word) : (x.latch b).packet = x.packet := rfl
@[simp] theorem Ctx.latch_gen (x : Ctx) (b : Word) : (x.latch b).gen = x.gen := rfl
@[simp] theorem Ctx.latch_unsaved (x : Ctx) (b : Word) : (x.latch b).unsaved = x.unsaved := rfl

/-! ### Core.setCtx -/
@[simp] theorem Core.setCtx_lcn (k : Core) (n : CtxId) (x : Ctx) : (k.setCtx n x).lcn = k.lcn := rfl
@[simp] theorem Core.setCtx_bind (k : Core) (n : CtxId) (x : Ctx) : (k.setCtx n x).bind = k.bind := rfl
@[simp] theorem Core.setCtx_last (k : Core) (n : CtxId) (x : Ctx) : (k.setCtx n x).last = k.last := rfl
@[simp] theorem Core.setCtx_ls (k : Core) (n : CtxId) (x : Ctx) : (k.setCtx n x).ls = k.ls := rfl
@[simp] theorem Core.setCtx_inj (k : Core) (n : CtxId) (x : Ctx) : (k.setCtx n x).inj = k.inj := rfl
@[simp] theorem Core.setCtx_rx (k : Core) (n : CtxId) (x : Ctx) : (k.setCtx n x).rx = k.rx := rfl
@[simp] theorem Core.setCtx_low (k : Core) (n : CtxId) (x : Ctx) : (k.setCtx n x).low = k.low := rfl
@[simp] theorem Core.setCtx_poolQ (k : Core) (n : CtxId) (x : Ctx) : (k.setCtx n x).poolQ = k.poolQ := rfl
@[simp] theorem Core.setCtx_tags (k : Core) (n : CtxId) (x : Ctx) : (k.setCtx n x).tags = k.tags := rfl
@[simp] theorem Core.setCtx_tagerr (k : Core) (n : CtxId) (x : Ctx) : (k.setCtx n x).tagerr = k.tagerr := rfl
@[simp] theorem Core.setCtx_tlm (k : Core) (n : CtxId) (x : Ctx) : (k.setCtx n x).tlm = k.tlm := rfl
@[simp] theorem Core.setCtx_tlc (k : Core) (n : CtxId) (x : Ctx) : (k.setCtx n x).tlc = k.tlc := rfl
@[simp] theorem Core.setCtx_tlf (k : Core) (n : CtxId) (x : Ctx) : (k.setCtx n x).tlf = k.tlf := rfl
@[simp] theorem Core.setCtx_tlv (k : Core) (n : CtxId) (x : Ctx) : (k.setCtx n x).tlv = k.tlv := rfl
@[simp] theorem Core.setCtx_guards (k : Core) (n : CtxId) (x : Ctx) : (k.setCtx n x).guards = k.guards := rfl
@[simp] theorem Core.setCtx_drops (k : Core) (n : CtxId) (x : Ctx) : (k.setCtx n x).drops = k.drops := rfl
@[simp] theorem Core.setCtx_faults (k : Core) (n : CtxId) (x : Ctx) : (k.setCtx n x).faults = k.faults := rfl
@[simp] theorem Core.setCtx_work (k : Core) (n : CtxId) (x : Ctx) : (k.setCtx n x).work = k.work := rfl
@[simp] theorem Core.setCtx_jobs (k : Core) (n : CtxId) (x : Ctx) : (k.setCtx n x).jobs = k.jobs := rfl
@[simp] theorem Core.setCtx_psrc (k : Core) (n : CtxId) (x : Ctx) : (k.setCtx n x).psrc = k.psrc := rfl
@[simp] theorem Core.setCtx_pdst (k : Core) (n : CtxId) (x : Ctx) : (k.setCtx n x).pdst = k.pdst := rfl
@[simp] theorem Core.setCtx_lease (k : Core) (n : CtxId) (x : Ctx) : (k.setCtx n x).lease = k.lease := rfl
@[simp] theorem Core.setCtx_point (k : Core) (n : CtxId) (x : Ctx) : (k.setCtx n x).point = k.point := rfl
@[simp] theorem Core.setCtx_ask (k : Core) (n : CtxId) (x : Ctx) : (k.setCtx n x).ask = k.ask := rfl
@[simp] theorem Core.setCtx_coret (k : Core) (n : CtxId) (x : Ctx) : (k.setCtx n x).coret = k.coret := rfl
@[simp] theorem Core.setCtx_act (k : Core) (n : CtxId) (x : Ctx) : (k.setCtx n x).act = k.act := rfl
@[simp] theorem Core.setCtx_stop (k : Core) (n : CtxId) (x : Ctx) : (k.setCtx n x).stop = k.stop := rfl
@[simp] theorem Core.setCtx_lead (k : Core) (n : CtxId) (x : Ctx) : (k.setCtx n x).lead = k.lead := rfl

/-! ### Counting what a core does (R404) -/

@[simp] theorem Core.counts_ctxs (k : Core) (f : Activity → Activity) : (k.counts f).ctxs = k.ctxs := rfl
@[simp] theorem Core.counts_lcn (k : Core) (f : Activity → Activity) : (k.counts f).lcn = k.lcn := rfl
@[simp] theorem Core.counts_bind (k : Core) (f : Activity → Activity) : (k.counts f).bind = k.bind := rfl
@[simp] theorem Core.counts_ls (k : Core) (f : Activity → Activity) : (k.counts f).ls = k.ls := rfl
@[simp] theorem Core.counts_inj (k : Core) (f : Activity → Activity) : (k.counts f).inj = k.inj := rfl
@[simp] theorem Core.counts_rx (k : Core) (f : Activity → Activity) : (k.counts f).rx = k.rx := rfl
@[simp] theorem Core.counts_work (k : Core) (f : Activity → Activity) : (k.counts f).work = k.work := rfl
@[simp] theorem Core.counts_tags (k : Core) (f : Activity → Activity) : (k.counts f).tags = k.tags := rfl
@[simp] theorem Core.counts_tagerr (k : Core) (f : Activity → Activity) : (k.counts f).tagerr = k.tagerr := rfl
@[simp] theorem Core.counts_lease (k : Core) (f : Activity → Activity) : (k.counts f).lease = k.lease := rfl
@[simp] theorem Core.counts_point (k : Core) (f : Activity → Activity) : (k.counts f).point = k.point := rfl
@[simp] theorem Core.counts_ask (k : Core) (f : Activity → Activity) : (k.counts f).ask = k.ask := rfl
@[simp] theorem Core.counts_coret (k : Core) (f : Activity → Activity) : (k.counts f).coret = k.coret := rfl
@[simp] theorem Core.counts_stop (k : Core) (f : Activity → Activity) : (k.counts f).stop = k.stop := rfl
@[simp] theorem Core.counts_lead (k : Core) (f : Activity → Activity) : (k.counts f).lead = k.lead := rfl
@[simp] theorem Core.counts_act (k : Core) (f : Activity → Activity) : (k.counts f).act = f k.act := rfl

end Sys2Proof.Machine
end

