-- ==== Sys2Proof/Laws/Table.lean ====
section
/-! SUPPORT. Tables of units: what a read finds after a write, and that writes keep every entry but one. -/

namespace Sys2Proof.Machine

theorem find_put_same {α : Type} (t : Table α) (k : Nat) (a : α) : Table.find (Table.put t k a) k = some a := by
  induction t with
  | nil => simp [Table.put, Table.find]
  | cons e r ih =>
    obtain ⟨i, b⟩ := e
    simp only [Table.put]
    split
    · simp [Table.find]
    · split
      · simp [Table.find]
      · simp_all [Table.find]

theorem find_put_other {α : Type} (t : Table α) {j k : Nat} (a : α) (h : k ≠ j) :
    Table.find (Table.put t j a) k = Table.find t k := by
  induction t with
  | nil => simp [Table.put, Table.find, h.symm]
  | cons e r ih =>
    obtain ⟨i, b⟩ := e
    simp only [Table.put]
    split
    · simp [Table.find, h.symm]
    · split
      · next hi => subst hi; simp [Table.find, h.symm]
      · simp only [Table.find, ih]

/-- Writing twice is writing the last. -/
theorem put_put {α : Type} (t : Table α) (k : Nat) (a b : α) : Table.put (Table.put t k a) k b = Table.put t k b := by
  induction t with
  | nil => simp [Table.put]
  | cons e r ih =>
    obtain ⟨i, c⟩ := e
    simp only [Table.put]
    split
    · next h => simp [Table.put]
    · next h =>
      split
      · next hi => subst hi; simp [Table.put]
      · next hi => simp [Table.put, h, hi, ih]

/-- What holds of a table's entries and of a new entry holds of the table written. -/
theorem all_put {α : Type} (p : Nat × α → Bool) (t : Table α) (k : Nat) (a : α) (ht : t.all p = true) (ha : p (k, a) = true) :
    (Table.put t k a).all p = true := by
  induction t with
  | nil => simp [Table.put, ha]
  | cons e r ih =>
    obtain ⟨i, b⟩ := e
    simp only [List.all_cons, Bool.and_eq_true] at ht
    simp only [Table.put]
    split
    · simp [ha, ht.1, ht.2]
    · split
      · simp [ha, ht.2]
      · simp [ht.1, ih ht.2]

theorem all_find {α : Type} {p : Nat × α → Bool} {t : Table α} {k : Nat} {a : α} (ht : t.all p = true)
    (h : Table.find t k = some a) : p (k, a) = true := by
  induction t with
  | nil => simp [Table.find] at h
  | cons e r ih =>
    obtain ⟨i, b⟩ := e
    simp only [List.all_cons, Bool.and_eq_true] at ht
    simp only [Table.find] at h
    split at h
    · next hi => cases h; subst hi; exact ht.1
    · exact ih ht.2 h

/-! ### Units -/

@[simp] theorem core_setCore (s : State) (c : CoreId) (k : Core) : (s.setCore c k).core c = k := by
  simp [State.core, State.setCore, find_put_same]
theorem core_setCore_other (s : State) {c d : CoreId} (k : Core) (h : d ≠ c) : (s.setCore c k).core d = s.core d := by
  simp [State.core, State.setCore, find_put_other _ _ h]
@[simp] theorem octet_setOctet (s : State) (o : Nat) (k : Octet) : (s.setOctet o k).octet o = k := by
  simp [State.octet, State.setOctet, find_put_same]
theorem octet_setOctet_other (s : State) {o q : Nat} (k : Octet) (h : q ≠ o) : (s.setOctet o k).octet q = s.octet q := by
  simp [State.octet, State.setOctet, find_put_other _ _ h]
@[simp] theorem cluster_setCluster (s : State) (o : Nat) (k : Cluster) : (s.setCluster o k).cluster o = k := by
  simp [State.cluster, State.setCluster, find_put_same]
theorem cluster_setCluster_other (s : State) {o q : Nat} (k : Cluster) (h : q ≠ o) :
    (s.setCluster o k).cluster q = s.cluster q := by
  simp [State.cluster, State.setCluster, find_put_other _ _ h]
@[simp] theorem sector_setSector (s : State) (o : Nat) (k : Sector) : (s.setSector o k).sector o = k := by
  simp [State.sector, State.setSector, find_put_same]
theorem sector_setSector_other (s : State) {o q : Nat} (k : Sector) (h : q ≠ o) :
    (s.setSector o k).sector q = s.sector q := by
  simp [State.sector, State.setSector, find_put_other _ _ h]
@[simp] theorem slice_setSlice (s : State) (o : Nat) (k : Slice) : (s.setSlice o k).slice o = k := by
  simp [State.slice, State.setSlice, find_put_same]
@[simp] theorem region_setRegion (s : State) (o : Nat) (k : Region) : (s.setRegion o k).region o = k := by
  simp [State.region, State.setRegion, find_put_same]
@[simp] theorem link_setLink (s : State) (o : Nat) (k : Link) : (s.setLink o k).link o = k := by
  simp [State.link, State.setLink, find_put_same]
@[simp] theorem group_setGroup (s : State) (o : Nat) (k : Group) : (s.setGroup o k).group o = k := by
  simp [State.group, State.setGroup, find_put_same]

theorem setCore_setCore (s : State) (c : CoreId) (k j : Core) : (s.setCore c k).setCore c j = s.setCore c j := by
  simp [State.setCore, put_put]

/-! ### Contexts -/

@[simp] theorem ctx_setCtx (k : Core) (n : CtxId) (x : Ctx) : (k.setCtx n x).ctx n = x := by
  simp [Core.ctx, Core.setCtx]
theorem ctx_setCtx_other (k : Core) {n m : CtxId} (x : Ctx) (h : m ≠ n) : (k.setCtx n x).ctx m = k.ctx m := by
  have : n.val ≠ m.val := fun e => h (Fin.ext e.symm)
  simp [Core.ctx, Core.setCtx, this]
theorem setCtx_setCtx (k : Core) (n : CtxId) (x y : Ctx) : (k.setCtx n x).setCtx n y = k.setCtx n y := by
  simp [Core.setCtx]

@[simp] theorem State.ctx_setCtx (s : State) (c : CoreId) (n : CtxId) (x : Ctx) : (s.setCtx c n x).ctx c n = x := by
  simp [State.ctx, State.setCtx]
theorem State.ctx_setCtx_other (s : State) {c d : CoreId} {n m : CtxId} (x : Ctx) (h : d ≠ c ∨ m ≠ n) :
    (s.setCtx c n x).ctx d m = s.ctx d m := by
  by_cases hd : d = c
  · subst hd
    simp [State.ctx, State.setCtx, Machine.ctx_setCtx_other _ _ (h.resolve_left (by simp))]
  · simp [State.ctx, State.setCtx, core_setCore_other _ _ hd]

@[simp] theorem me_setMe (s : State) (x : Ctx) : (s.setMe x).me = x := by
  simp [State.me, State.setMe, State.setCtx, State.ctx, State.setCore, State.core, find_put_same]

end Sys2Proof.Machine
end

