-- ==== Sys2Proof/Laws/Retire.lean ====
section
/-! SUPPORT. Everything that retiring an instruction can change (R131, R139, R230, R231): fetch state, loops and lanes of
the retiring context, and what the grant of waiting lane claims changes. -/

namespace Sys2Proof.Machine

/-- A context claims lanes in its octet's queue. -/
def State.claims (s : State) (c : CoreId) (n : CtxId) : Prop := ∃ o, ∃ q ∈ (s.octet o).laneQ, q.core = c ∧ q.ctx = n

/-- `t` differs from `s` in contexts and lane queues only, and in the contexts that `touched` names only. -/
structure LaneStep (s t : State) (touched : CoreId → CtxId → Prop) : Prop where
  form : ∃ cs os, t = { s with cores := cs, octets := os }
  core : ∀ c, ∃ v, t.core c = { s.core c with ctxs := v }
  ctx : ∀ c n, ¬ touched c n → t.ctx c n = s.ctx c n
  octet : ∀ o, ∃ q, t.octet o = { s.octet o with laneQ := q } ∧ ∀ x ∈ q, x ∈ (s.octet o).laneQ

theorem LaneStep.refl (s : State) (p : CoreId → CtxId → Prop) : LaneStep s s p :=
  ⟨⟨s.cores, s.octets, rfl⟩, fun c => ⟨(s.core c).ctxs, rfl⟩, fun _ _ _ => rfl, fun o => ⟨(s.octet o).laneQ, rfl, fun _ h => h⟩⟩

theorem LaneStep.trans {s t u : State} {p : CoreId → CtxId → Prop} (h : LaneStep s t p) (k : LaneStep t u p) : LaneStep s u p := by
  refine ⟨?_, ?_, ?_, ?_⟩
  · obtain ⟨a, b, ht⟩ := h.form
    obtain ⟨c, d, hu⟩ := k.form
    exact ⟨c, d, by rw [hu, ht]⟩
  · intro c
    obtain ⟨v, hv⟩ := h.core c
    obtain ⟨w, hw⟩ := k.core c
    exact ⟨w, by rw [hw, hv]⟩
  · intro c n hp
    rw [k.ctx c n hp, h.ctx c n hp]
  · intro o
    obtain ⟨q, hq, hs⟩ := h.octet o
    obtain ⟨r, hr, hs'⟩ := k.octet o
    refine ⟨r, by rw [hr, hq], fun x hx => hs x ?_⟩
    have := hs' x hx
    rwa [hq] at this

theorem LaneStep.mono {s t : State} {p r : CoreId → CtxId → Prop} (h : LaneStep s t p) (hpr : ∀ c n, p c n → r c n) :
    LaneStep s t r :=
  ⟨h.form, h.core, fun c n hn => h.ctx c n fun hp => hn (hpr c n hp), h.octet⟩

/-- Writing one context is a lane step that touches it. -/
theorem LaneStep.setCtx (s : State) (c : CoreId) (n : CtxId) (x : Ctx) : LaneStep s (s.setCtx c n x) fun d m => d = c ∧ m = n := by
  refine ⟨⟨_, _, rfl⟩, ?_, ?_, fun o => ⟨(s.octet o).laneQ, rfl, fun _ h => h⟩⟩
  · intro d
    by_cases hd : d = c
    · subst hd
      exact ⟨((s.core d).setCtx n x).ctxs, by simp [State.setCtx, Core.setCtx]⟩
    · exact ⟨(s.core d).ctxs, by rw [State.setCtx, core_setCore_other _ _ hd]⟩
  · intro d m h
    exact State.ctx_setCtx_other s x (by by_cases hd : d = c <;> simp_all)

/-- Replacing an octet's lane queue by part of it is a lane step that touches no context. -/
theorem LaneStep.setLaneQ (s : State) (o : Nat) (q : List LaneClaim) (p : CoreId → CtxId → Prop)
    (hq : ∀ x ∈ q, x ∈ (s.octet o).laneQ) : LaneStep s (s.setOctet o { s.octet o with laneQ := q }) p := by
  refine ⟨⟨_, _, rfl⟩, fun c => ⟨(s.core c).ctxs, rfl⟩, fun _ _ _ => rfl, fun r => ?_⟩
  by_cases hr : r = o
  · subst hr; exact ⟨q, by simp, hq⟩
  · exact ⟨(s.octet r).laneQ, by rw [octet_setOctet_other _ _ hr], fun _ h => h⟩

theorem advance_step (s : State) (c : CoreId) (n : CtxId) (f : Flow) :
    LaneStep s (s.advance c n f).1 fun d m => d = c ∧ m = n := by
  unfold State.advance
  exact LaneStep.setCtx ..

theorem renegotiate_step (s : State) (c : CoreId) (n : CtxId) :
    LaneStep s (s.renegotiate c n) fun d m => d = c ∧ m = n := by
  unfold State.renegotiate
  exact LaneStep.setCtx ..

theorem giveLanes_step (s : State) (q : LaneClaim) :
    LaneStep s (s.giveLanes q).1 fun d m => d = q.core ∧ m = q.ctx := by
  unfold State.giveLanes
  dsimp only
  split
  · exact (LaneStep.setCtx ..).trans (advance_step ..)
  · exact LaneStep.setCtx ..

theorem settleLanes_step (k : Nat) (s : State) (o : Nat) : LaneStep s (s.settleLanes k o) s.claims := by
  induction k generalizing s with
  | zero => exact LaneStep.refl ..
  | succ k ih =>
    unfold State.settleLanes
    split
    · exact LaneStep.refl ..
    · next q rest hq =>
      split
      · have hmem : ∀ x ∈ rest, x ∈ (s.octet o).laneQ := fun x hx => by rw [hq]; exact List.mem_cons_of_mem _ hx
        have hc : ∀ d m, d = q.core ∧ m = q.ctx → s.claims d m := by
          rintro d m ⟨rfl, rfl⟩
          exact ⟨o, q, by rw [hq]; exact List.mem_cons_self, rfl, rfl⟩
        have h1 := LaneStep.setLaneQ s o rest s.claims hmem
        have h2 := h1.trans ((giveLanes_step (s.setOctet o { s.octet o with laneQ := rest }) q).mono hc)
        generalize State.giveLanes (s.setOctet o { s.octet o with laneQ := rest }) q = g at h2
        have h3 : LaneStep s (if g.2 then g.1.renegotiate q.core q.ctx else g.1) s.claims := by
          split
          · exact h2.trans ((renegotiate_step ..).mono hc)
          · exact h2
        refine h3.trans ((ih _).mono ?_)
        rintro d m ⟨a, x, hx, rfl, rfl⟩
        obtain ⟨r, hr, hs⟩ := h3.octet a
        rw [hr] at hx
        exact ⟨a, x, hs x hx, rfl, rfl⟩
      · exact LaneStep.refl ..

/-- Retiring changes the retiring context, and contexts that claim lanes, and nothing else but lane queues. -/
theorem retireAt_step (s : State) (c : CoreId) (n : CtxId) (f : Flow) :
    LaneStep s (s.retireAt c n f) fun d m => (d = c ∧ m = n) ∨ s.claims d m := by
  unfold State.retireAt
  have h1 := (advance_step s c n f).mono (r := fun d m => (d = c ∧ m = n) ∨ s.claims d m) fun _ _ h => Or.inl h
  generalize s.advance c n f = a at h1
  obtain ⟨s', r⟩ := a
  dsimp only
  split
  · have h2 := h1.trans ((renegotiate_step s' c n).mono fun _ _ h => Or.inl h)
    refine h2.trans ((settleLanes_step ..).mono ?_)
    rintro d m ⟨b, x, hx, rfl, rfl⟩
    obtain ⟨q, hq, hs⟩ := h2.octet b
    rw [hq] at hx
    exact Or.inr ⟨b, x, hs x hx, rfl, rfl⟩
  · exact h1

/-- A context with other fetch state, loops, lanes and wait. -/
def Ctx.Moved (x y : Ctx) : Prop :=
  ∃ pc npc nnpc slots fetched loops lanes st wait, y = { x with pc, npc, nnpc, slots, fetched, loops, lanes, st, wait }

theorem Ctx.Moved.refl (x : Ctx) : x.Moved x := ⟨x.pc, x.npc, x.nnpc, x.slots, x.fetched, x.loops, x.lanes, x.st, x.wait, rfl⟩
theorem Ctx.Moved.trans {x y z : Ctx} (h : x.Moved y) (k : y.Moved z) : x.Moved z := by
  obtain ⟨a, b, c, d, e, f, g, i, j, rfl⟩ := h
  obtain ⟨a', b', c', d', e', f', g', i', j', rfl⟩ := k
  exact ⟨a', b', c', d', e', f', g', i', j', rfl⟩

theorem move_moved (s : State) (c : CoreId) (n : CtxId) (f : Flow) : (s.ctx c n).Moved (s.move c n f) := by
  unfold State.move
  cases f <;> exact ⟨_, _, _, _, _, _, _, _, _, rfl⟩

theorem loopLevel_moved (s : State) (c : CoreId) (next : Option Word) (x : Ctx) (k : Fin 3) : x.Moved (s.loopLevel c next x k).1 := by
  unfold State.loopLevel
  dsimp only
  split
  · split
    · exact ⟨_, _, _, _, _, _, _, _, _, rfl⟩
    · exact ⟨_, _, _, _, _, _, _, _, _, rfl⟩
  · exact Ctx.Moved.refl x

theorem loopBack_moved (s : State) (c : CoreId) (next : Option Word) (x : Ctx) : x.Moved (s.loopBack c next x).1 := by
  unfold State.loopBack
  split
  · exact Ctx.Moved.refl x
  · have h2 := loopLevel_moved s c next x 2
    generalize s.loopLevel c next x 2 = a at h2
    obtain ⟨x2, b2, r2⟩ := a
    dsimp only
    split
    · exact h2
    · have h1 := loopLevel_moved s c next x2 1
      generalize s.loopLevel c next x2 1 = a at h1
      obtain ⟨x1, b1, r1⟩ := a
      dsimp only
      split
      · exact h2.trans h1
      · exact (h2.trans h1).trans (loopLevel_moved s c next x1 0)

theorem advance_moved (s : State) (c : CoreId) (n : CtxId) (f : Flow) :
    (s.ctx c n).Moved ((s.advance c n f).1.ctx c n) := by
  unfold State.advance
  dsimp only
  rw [State.ctx_setCtx]
  refine Ctx.Moved.trans ?_ (⟨_, _, _, _, _, _, _, _, _, rfl⟩ : Ctx.Moved _ _)
  cases f <;> dsimp only
  case taken t => exact move_moved s c n (.taken t)
  case takenX t => exact move_moved s c n (.takenX t)
  all_goals exact (move_moved ..).trans (loopBack_moved ..)

theorem renegotiate_moved (s : State) (c : CoreId) (n : CtxId) : (s.ctx c n).Moved ((s.renegotiate c n).ctx c n) := by
  unfold State.renegotiate
  dsimp only
  rw [State.ctx_setCtx]
  exact ⟨_, _, _, _, _, _, _, _, _, rfl⟩

/-- Retiring changes only fetch state, loops, lanes and wait of the retiring context, unless that context itself claims
lanes. -/
theorem retireAt_moved (s : State) (c : CoreId) (n : CtxId) (f : Flow) (h : ¬ s.claims c n) :
    (s.ctx c n).Moved ((s.retireAt c n f).ctx c n) := by
  unfold State.retireAt
  have h1 := advance_moved s c n f
  have hs := advance_step s c n f
  generalize s.advance c n f = a at h1 hs
  obtain ⟨s', r⟩ := a
  dsimp only at *
  split
  · have h2 := h1.trans (renegotiate_moved s' c n)
    have hs2 := hs.trans (renegotiate_step s' c n)
    rw [(settleLanes_step 88 (s'.renegotiate c n) (octetOf c)).ctx c n]
    · exact h2
    · rintro ⟨b, x, hx, h3, h4⟩
      obtain ⟨q, hq, hsub⟩ := hs2.octet b
      rw [hq] at hx
      exact h ⟨b, x, hsub x hx, h3, h4⟩
  · exact h1

/-- Retiring changes no field of the state but contexts and lane queues. -/
theorem retire_form (s : State) : ∃ cs os, s.retire = { s with cores := cs, octets := os } :=
  (retireAt_step s s.cur.core s.cur.ctx .seq).form
@[simp] theorem retireAt_hbm (s : State) (c : CoreId) (n : CtxId) (f : Flow) : (s.retireAt c n f).hbm = s.hbm := by
  obtain ⟨_, _, h⟩ := (retireAt_step s c n f).form; rw [h]
@[simp] theorem retireAt_clusters (s : State) (c : CoreId) (n : CtxId) (f : Flow) :
    (s.retireAt c n f).clusters = s.clusters := by
  obtain ⟨_, _, h⟩ := (retireAt_step s c n f).form; rw [h]
@[simp] theorem retireAt_cur (s : State) (c : CoreId) (n : CtxId) (f : Flow) : (s.retireAt c n f).cur = s.cur := by
  obtain ⟨_, _, h⟩ := (retireAt_step s c n f).form; rw [h]
@[simp] theorem retireAt_ls (s : State) (c : CoreId) (n : CtxId) (f : Flow) (d : CoreId) :
    ((s.retireAt c n f).core d).ls = (s.core d).ls := by
  obtain ⟨_, h⟩ := (retireAt_step s c n f).core d; rw [h]
@[simp] theorem retireAt_inj (s : State) (c : CoreId) (n : CtxId) (f : Flow) (d : CoreId) :
    ((s.retireAt c n f).core d).inj = (s.core d).inj := by
  obtain ⟨_, h⟩ := (retireAt_step s c n f).core d; rw [h]

end Sys2Proof.Machine
end

