-- ==== Sys2Proof/Tests/Slice0.lean ====
section
/-! SUPPORT. Tests: ill-formed terms that WellFormed refuses, words of the spec's worked encodings, results of single steps
worked out by hand from the spec's rules, and for each statement states that meet its hypotheses. -/

open Sys2Proof Sys2Proof.Machine

namespace Sys2Proof.Tests

set_option Elab.async false

/-! ### Small states -/

/-- Words by position. -/
def wordsAt (n : Nat) (l : List (Nat × Nat)) : Vector PWord n :=
  l.foldl (fun (v : Vector PWord n) (e : Nat × Nat) => v.setIfInBounds e.1 ⟨BitVec.ofNat 64 e.2, false⟩) (Vector.replicate n PWord.zero)

/-- A READY context at 0x1000: p1 true, p2 false, p3 true and poisoned; g1 to g6 as the tests use them, g7 poisoned. -/
def ctxA : Ctx :=
  { Ctx.reset with
    st := .ready
    pc := 0x1000
    npc := some 0x1004
    nnpc := some 0x1008
    g := (wordsAt 16 [(1, 5), (2, 7), (3, 3), (4, 0xFFFFFFFFFFFFFFF8), (5, 0x8000000000000000), (6, 0x12345)]).set 7 ⟨9, true⟩
    p := (((Vector.replicate 8 ⟨false, false⟩).set 1 ⟨true, false⟩).set 3 ⟨true, true⟩) }

/-- Core `c` with this context 0 and a trap vector at 0x8000. -/
def coreOf (c : CoreId) (x : Ctx) : Core :=
  { Core.reset c with ctxs := (Vector.replicate 11 Ctx.reset).set 0 x, bind := { Binding.reset with tvec := 0x8000 } }
/-- The device with core 0 alone at work, its context 0 executing. -/
def withCtx (x : Ctx) : State := { State.reset with cores := [(0, coreOf 0 x)], cur := ⟨0, 0⟩ }
def withCore (k : Core) : State := { State.reset with cores := [(0, k)], cur := ⟨0, 0⟩ }
/-- The same on the management core, in machine mode. -/
def onMgmtCore (x : Ctx) : State :=
  { State.reset with cores := [(mgmtCore, coreOf mgmtCore { x with tr := { x.tr with priv := 3 } })], cur := ⟨mgmtCore, 0⟩ }
def sA : State := withCtx ctxA

/-- p0, p1, p2 and p3 as predicates of an instruction. -/
def q0 : Pred := ⟨0, false⟩
def q1 : Pred := ⟨1, false⟩
def q2 : Pred := ⟨2, false⟩
def q3 : Pred := ⟨3, false⟩

/-- A step answers a next state that meets a test. -/
def sat (r : Host.Outcome State Fault Refusal) (p : State → Bool) : Bool :=
  match r with
  | .next t => p t
  | _ => false

/-- A step that is not enabled. -/
def disabledB (r : Host.Outcome State Fault Refusal) : Bool :=
  match r with
  | .refused .eventDisabled => true
  | _ => false

/-- Whether an instruction's predicate lets it run. -/
def runsB (i : Instr) (s : State) : Bool :=
  match Spec.predOf i with
  | none => true
  | some q => !(s.pReg q.idx).poison && ((s.pReg q.idx).val ^^ q.neg)

theorem runs_of {i : Instr} {s : State} (h : runsB i s = true) : Spec.runs i s := by
  intro q hq
  simpa [runsB, hq] using h

/-- On the management core, where the memory from 0x1000 on holds zeros: every halfword is an instruction of two bytes. -/
def sB : State := onMgmtCore { ctxA with npc := none, nnpc := none, g := ctxA.g.set 15 ⟨0x3000, false⟩ }
def sup (x : Ctx) : Ctx := { x with tr := { x.tr with priv := 1 } }
def okPacket : OpenPacket := ⟨5, none, [⟨1, false⟩], 0xFF0, 1⟩
/-- Bool forms of `Spec.quiet` and of `Spec.noClaims`, on the units that the tests list. -/
def quietB (s : State) : Bool :=
  let w := s.myCore.work
  w.div.isNone && w.divQ.isEmpty && w.rcr.isNone && w.rcrQ.isEmpty && w.loads.isEmpty && w.port.isEmpty && w.vecs.isEmpty && w.rq.isEmpty && (List.finRange 8).all (fun h => s.myOctet.chans[h].cur.isNone) &&
    s.myOctet.queue.isEmpty && s.myOctet.running.isNone &&
    s.cores.all (fun e => allCtx.all fun n => match (e.2.ctx n).wait with | some (.bankmode _ _ _ _) => false | _ => true)
theorem quiet_of {s : State} (h : quietB s = true) : Spec.quiet s := by
  simp only [quietB, Bool.and_eq_true, List.isEmpty_iff, Option.isNone_iff_eq_none, List.all_eq_true] at h
  obtain ⟨⟨⟨⟨⟨⟨⟨⟨⟨⟨⟨d1, d2⟩, d3⟩, d4⟩, h1⟩, h2⟩, h3⟩, h4⟩, h5⟩, h6⟩, h7⟩, h8⟩ := h
  refine ⟨d1, d2, d3, d4, h1, h2, h3, h4, fun c => h5 c (List.mem_finRange c), h6, h7, ?_⟩
  intro e he n d a b q hw
  have := h8 e he n (List.mem_finRange n)
  rw [hw] at this
  exact absurd this (by simp)
theorem noClaims_of {s : State} (h : s.octets = []) (h2 : s.myCore.poolQ = []) : Spec.noClaims s :=
  ⟨fun o => by simp [State.octet, h, Table.find, Octet.reset], h2⟩

/-- A task of core 0: slot 3 of sector 0. -/
def ref3 : TaskRef := ⟨0, 3, 7⟩
def task3 : Task :=
  ⟨1, 0, 0, List.replicate 16 0, .running 0, false, false, false, 0, [], 7, none, none, 0, 0, [], 0, 2048, [], none, none, [], 0, 0x8000⟩
def withTask (k : Core) : State :=
  { withCore { k with bind := { k.bind with task := some ref3 } } with sectors := [(0, { Sector.reset with tasks := [(3, task3)] })] }
/-- Core 0 with contexts 1 and 2 as given. -/
def core12 (x a b : Ctx) : Core := ((coreOf 0 x).setCtx 1 a).setCtx 2 b
def s12 (a b : Ctx) : State := withCore (core12 ctxA a b)
def in1 (s : State) : State := { s with cur := ⟨0, 1⟩ }
def readyC : Ctx := { ctxA with pc := 0x4000 }

/-- A cluster whose TLB maps every address of HBM to itself for tenant 0, with the timed flag. -/
def mapAll : TlbEntry := ⟨0, 0, 2 ^ 39, 0, true, true, true, true, 0, 0⟩
def clusterMap : Cluster := { Cluster.reset with tlb := [mapAll] }
def mapped (s : State) : State := { s with clusters := [(0, clusterMap)] }

/-- A context that waits inside an instruction, and a step that concerns core 0. -/
def inside (x : Ctx) (i : Instr) : Ctx := { x with st := .waiting, wait := some i }
def at0 (s : State) : State := { s with ev := { Ev.none with core := 0 } }

/-- Line 0x2000 / 64 of HBM, dirty in its first unit. -/
def line80 : Line := ⟨0, 0x80, BitVec.allOnes 64, 0xFF, 0x1234, 0, 1, none, true, 0, 0⟩
/-- A v register of 32-bit elements, and its first elements. -/
def vOf (l : List Nat) (bad : BitVec 8) : VReg := ⟨BitVec.ofNat 512 (l.foldr (fun x a => x % 2 ^ 32 + 2 ^ 32 * a) 0), bad⟩
def els (v : VReg) (n : Nat) : List Nat := (List.range n).map fun k => (Spec.el v k).toNat

/-- A job of core 0. -/
def jobOf (i : Instr) : Job := ⟨i, 0, 0, 9, 1, 0, 0, ⟨0, false⟩, false, 0, [], 0⟩
/-- A record of one level of `n` tasks, and a base descriptor with entry 0x4000 and argument 0x44. -/
def recOf (n : Nat) : List Word := [0xFFFFFFFFE000] ++ List.replicate 8 0 ++ [BitVec.ofNat 64 (n - 1)] ++ List.replicate 6 0
def base0 : List Word := [0x4000, 0x44, 0, 0, 0, 0, 0, 0]
/-- The launch of the task in slot 3: launch 0 of sector 0, TBASE 100. -/
def launch0 : Launch := Intake.launch ⟨0, 0, 9, none, none⟩ (recOf 2) base0 100
def sectorOf0 (ts : Table Task) : Sector := { Sector.reset with tasks := ts, launches := [(0, launch0)], queues := [(0, ts.map (·.1))] }
def taskOf (k : Core) (ts : Table Task) : State :=
  { withCore { k with bind := { k.bind with task := some ref3 } } with sectors := [(0, sectorOf0 ts)] }

/-- An up-link as given. -/
def linkOf (st : LinkState) (tx bad : Nat) : Link := { Link.reset with state := st, txCtr := tx, badFrames := bad, unacked := [7] }
/-- v0 integers, v1 integers whose second unit is poisoned, v2 and v3 floats; four registers bound, VL of 3 in 8 lanes. -/
def vecC : Ctx :=
  { ctxA with
    count := 4
    lanes := ⟨8, 8, false, 3, 0⟩
    v := ((((Vector.replicate 16 VReg.zero).set 0 (vOf [5, 0xFFFFFFFF, 0x7FFFFFFF, 44] 0)).set 1 (vOf [7, 2, 1, 9] 2)).set 2
      (vOf [0x3F800000, 0x40000000, 0x40800000, 99] 0)).set 3 (vOf [0x40000000, 0x40000000, 0xC0000000, 77] 0)
    g := (((ctxA.g.set 8 ⟨0xFFFFFFFFE040, false⟩).set 9 ⟨8, false⟩).set 10 ⟨1, false⟩).set 11 ⟨16, false⟩ }
/-! ### Ill-formed terms (R46) -/

theorem test_illFormed_field : (Instr.bfx 1 2 60 4).wf = false := by decide
theorem test_illFormed_loopEnd : (Instr.loop 1 false 2).wf = false := by decide
theorem test_illFormed_waitev : (Instr.waitev 1 0).wf = false := by decide
theorem test_illFormed_gset : (Instr.gset 1 0 false).wf = false := by decide
theorem test_illFormed_gclr : (Instr.gclr 1 0).wf = false := by decide
theorem test_illFormed_guard : (Instr.rld 1 2 3 ⟨0, true⟩ .b8).wf = false ∧ (Instr.mcfgQuery 1 ⟨0, true⟩).wf = false := by decide
theorem test_illFormed_pko : (Instr.pko 1 2 false).wf = false := by decide
theorem test_illFormed_tinfo : (Instr.tinfo 1 15 q0).wf = false := by decide
theorem test_illFormed_lcvt : (Instr.lcvt 1 2 .rne .li16F32 q0).wf = false := by decide

/-! ### Worked encodings -/

/-- 01 R30, 02 R46, 05 R127, and the table after R130. -/
theorem test_decode_integers :
    [0x80A6800A, 0x84AD082C, 0x82803200, 0x88420800, 0x86600100, 0x80ACE1AE, 0x8A68A060].map decode32 =
      [some (.add 5 3 4 ⟨2, true⟩), some (.bfxu 5 6 8 11), some (.addi 4 0 100 q0), some (.pcmpi 2 1 0 .eq q0),
       some (.movhi 3 0x100), some (.sel 5 6 7 ⟨3, true⟩), some (.div 3 4 5 q0)] := by decide +kernel
theorem test_decode_illegal : decode32 0x80A6800B = none ∧ decode16 0x3C00 = none := by decide
/-- The bytes of 02: the first halfword is the high one, each little-endian. -/
theorem test_decode_bytes :
    decodeBytes [0xA6, 0x80, 0x0A, 0x80] = some (.add 5 3 4 ⟨2, true⟩, []) ∧
    decodeBytes [0x03, 0x2C, 0x40] = some (.giveS, [0x40]) ∧ decodeBytes [0xA6, 0x80, 0x0A] = none := by decide
theorem test_decode_short :
    [0x04D0, 0x2C00, 0x2C01, 0x2C02, 0x2C03, 0x3003, 0x3140, 0x302D].map decode16 =
      [some (.addS 3 4), some .nopS, some .exitS, some .yieldS, some .giveS, some .vrelS, some (.tnowS 5), some (.mjwaitS 11)] := by
  decide
/-- 05: the table after R134, R122, R138, R144, R145. -/
theorem test_decode_control :
    [0xB0400020, 0xB0EFFFFA, 0xB2400020, 0xB4080000, 0xB4000800, 0xB7000000, 0xB6CFFFF8, 0xB6403004, 0xC6041804, 0xC7201880].map
        decode32 =
      [some (.bc 1 false .none false 0x20), some (.bc 3 true .n true 0x3FFFA), some (.call .none 0x20), some (.jmp 4 .none q0),
       some (.ret .none q0), some .nop, some (.hint 0xFFFF 8), some (.loopi 3 false 4), some (.gset 2 3 true), some (.gclr 9 3)] := by
  decide +kernel
/-- 04 R92 to R100, R105, R115, R116. -/
theorem test_decode_contexts :
    [0xB9800020, 0xB8020000, 0xB8040000, 0xB8060000, 0xB8080000, 0xB86A0006, 0xBAA40002, 0xBA000007, 0xBA020000, 0xBA080000,
     0xBA0C0000].map decode32 =
      [some (.start 12 0x20), some (.join 0), some .exit, some .yield, some (.sleep 0), some (.waitev 3 6), some (.mfs 5 2),
       some (.trap 7), some .rett, some (.ctxsave 0 0), some .halt] := by decide +kernel
/-- 06, 07. -/
theorem test_decode_poolTime :
    [0xBCCA0000, 0xBCE20040, 0xBC000020, 0xBEA00000, 0xBEA00008, 0xBE008080, 0xBE008088, 0xA0644A00, 0xA0A4D200, 0xA0ECAB80].map
        decode32 =
      [some (.claim 6 5 q0), some (.pquery 7 1 q0), some (.give q0), some (.tnow 5 false), some (.tnow 5 true),
       some (.twaitu 2 false), some (.twaitu 2 true), some (.tst 3 2 .clu .plain 2 false), some (.tld 5 2 .sec .acq 2 false),
       some (.tst 7 6 .grp .rel 3 true)] := by decide +kernel
/-- 08. -/
theorem test_decode_memory :
    [0x94A49004, 0x9EE7AFFE, 0xA80C0020, 0xA80C0040, 0xA80C0060, 0xA80C0080, 0xA4000060, 0xA40D6548].map decode32 =
      [some (.ldw 5 2 .grp .acq 2), some (.std 7 3 .sys .rel 0xFFE), some (.linewb 6 q0), some (.lineinv 6 q0), some (.pin 0 6 q0),
       some (.unpin 6 q0), some .aflush, some (.accFadd32 6 .pkg .rel 5)] := by decide +kernel
/-- 03 and 09. -/
theorem test_decode_floats :
    [0xE0A68140, 0xE0CE3280, 0xE0625040, 0xE2A68000, 0xE2CF0500, 0xE2624840, 0xE2CE0A00, 0xE2A60D00, 0xDC468100, 0xDCAC04C0].map
        decode32 =
      [some (.fadd 5 3 4 .f16 .rtz q0), some (.fcvt 6 7 .rne .f8aF32 q0), some (.fcmp 3 1 2 .f32 .lt q0),
       some (.ladd 5 3 4 .li16 q0), some (.lmul 6 7 8 .li32 q0), some (.lcmp 3 1 2 .li16 .lt q0),
       some (.lcvt 6 7 .none .li16F32 q0), some (.lclass 5 3 .li32 q0), some (.vladd 2 3 4 .li32 q0), some (.vlcvt 5 6 .f32Li16 q0)] := by
  decide +kernel
/-- 10. -/
theorem test_decode_vectors :
    [0xCCAC0000, 0xCC000200, 0xCCF00400, 0xD0AAC280, 0xD2246600, 0xDAAC0180, 0xD8420C00, 0xD2624200, 0xD4660000, 0xD9860A00,
     0xD6460002, 0xD6466200, 0xD6A404E0, 0xD6A408C0].map decode32 =
      [some (.vclaim 5 6 q0), some (.vrel q0), some (.vlen 7 8 q0), some (.vsub 5 5 6 .ss q0), some (.vfma 1 2 3 .f32 .none q0),
       some (.vcvt 5 6 .none .p8aF32 q0), some (.vrmax 2 1 false q0), some (.vfsub 3 1 2 .f32 .none q0), some (.vexp 3 3 q0),
       some (.vrsum 12 3 (.f32 .none) q0), some (.vld 2 3 .core .plain 2), some (.vst 2 3 .clu .rel 0), some (.vlds 5 2 .core .plain 7),
       some (.vgath 5 2 .core .plain 6)] := by decide +kernel
/-- 11, 12, 13. -/
theorem test_decode_engines :
    [0xC9600280, 0xC88CC008, 0xC8A4D928, 0xC8680300, 0xCAE28000, 0xCA160180, 0xC4AC0000, 0xC4AC0080, 0xC4F00100, 0xC40C0180,
     0xC4140208, 0xC5400288, 0xE8AC0000, 0xE8F00200, 0xE8068400, 0xE8200600].map decode32 =
      [some (.mzero 11 0 none ⟨0, false⟩), some (.mlda 4 6 3 ⟨0, false⟩ true), some (.mmac 5 2 (some 3) false true ⟨3, false⟩),
       some (.mcfgOwn 3 4 ⟨0, false⟩), some (.mrda 7 1 2 ⟨0, false⟩ false), some (.mjwait 11), some (.twany 5 6), some (.twall 5 6),
       some (.tffr 7 8), some (.tclr 6), some (.tlwait 10 .tlc), some (.tlread 10 false .tlc), some (.launch 5 6 q0),
       some (.spawn 7 8 q0), some (.tedge 3 4 q0), some (.tinfo 1 0 q0)] := by decide +kernel
/-- 15, 16. -/
theorem test_decode_fabric :
    [0xC00A8008, 0xC0080098, 0xC0000100, 0xC0A00180, 0xC0C00208, 0xC2684018, 0xC2E89098, 0xC2ACC108, 0xEAAC0000, 0xEA000200].map decode32 =
      [some (.pko 5 2 true), some (.pka 4 3), some .pks, some (.rxpop 5 false), some (.rxpeek 6 true), some (.rld 3 4 1 ⟨0, false⟩ .b64),
       some (.fetchto 7 4 2 ⟨2, false⟩ .b64), some (.dropwin 5 6 3 1), some (.boost 5 6 q0), some (.brel q0)] := by decide +kernel

/-! ### Integers and predicates (01 of the statements) -/

/-- An instruction, the g register it writes and the value that the tables of R125 to R130 and R48 give by hand. -/
def intCases : List (Instr × Reg × Nat) :=
  [(.add 9 1 2 q0, 9, 12), (.sub 9 1 2 q0, 9, 0xFFFFFFFFFFFFFFFE), (.and 9 1 2 q0, 9, 5), (.or 9 1 3 q0, 9, 7), (.xor 9 1 3 q0, 9, 6),
   (.andn 9 2 1 q0, 9, 2), (.shl 9 1 3 q0, 9, 40), (.shr 9 4 3 q0, 9, 0x1FFFFFFFFFFFFFFF), (.sar 9 4 3 q0, 9, 0xFFFFFFFFFFFFFFFF),
   (.min 9 4 1 q0, 9, 0xFFFFFFFFFFFFFFF8), (.max 9 4 1 q0, 9, 5), (.minu 9 4 1 q0, 9, 5), (.maxu 9 4 1 q0, 9, 0xFFFFFFFFFFFFFFF8),
   (.sel 9 1 2 q1, 9, 5), (.sel 9 1 2 q2, 9, 7), (.clz 9 1 q0, 9, 61), (.ctz 9 4 q0, 9, 3), (.popc 9 1 q0, 9, 2),
   (.addi 9 1 0x3FF q0, 9, 4), (.andi 9 4 0x3FF q0, 9, 0xFFFFFFFFFFFFFFF8), (.ori 9 1 2 q0, 9, 7), (.xori 9 1 1 q0, 9, 4),
   (.shli 9 1 63, 9, 0x8000000000000000), (.shri 9 5 63, 9, 1), (.sari 9 5 63, 9, 0xFFFFFFFFFFFFFFFF)]
def intCases2 : List (Instr × Reg × Nat) :=
  [(.bfxu 9 6 8 11, 9, 0x123), (.bfx 9 4 0 3, 9, 0xFFFFFFFFFFFFFFF8), (.bfi 6 1 4 3, 6, 0x12355), (.movhi 9 0x100, 9, 0x40000),
   (.movhi 9 0x1FFFF, 9, 0xFFFFFFFFFFFFFC00), (.lea 9 0x1FFFE, 9, 0xFFE), (.pmovGp 9 1 q0, 9, 1), (.mul 9 4 1 q0, 9, 0xFFFFFFFFFFFFFFD8),
   (.mulh 9 4 1 q0, 9, 0xFFFFFFFFFFFFFFFF), (.mulhu 9 4 1 q0, 9, 4), (.addS 1 2, 1, 12), (.subS 1 2, 1, 0xFFFFFFFFFFFFFFFE),
   (.andS 1 2, 1, 5), (.orS 1 3, 1, 7), (.xorS 1 3, 1, 6), (.andnS 2 1, 2, 2), (.shlS 1 3, 1, 40), (.shrS 4 3, 4, 0x1FFFFFFFFFFFFFFF),
   (.sarS 4 3, 4, 0xFFFFFFFFFFFFFFFF), (.minS 4 1, 4, 0xFFFFFFFFFFFFFFF8), (.maxS 4 1, 4, 5), (.minuS 4 1, 4, 5),
   (.maxuS 1 4, 1, 0xFFFFFFFFFFFFFFF8), (.mulS 1 2, 1, 35), (.clzS 9 1, 9, 61), (.ctzS 9 4, 9, 3), (.popcS 9 1, 9, 2), (.addiS 1 0x3F, 1, 4),
   (.andiS 4 0x38, 4, 0xFFFFFFFFFFFFFFF8), (.oriS 1 2, 1, 7), (.xoriS 1 1, 1, 4), (.shliS 1 2, 1, 20), (.shriS 1 1, 1, 2),
   (.sariS 4 1, 4, 0xFFFFFFFFFFFFFFFC)]

def intCaseOk (e : Instr × Reg × Nat) : Bool :=
  e.1.wf && runsB e.1 sA && Spec.intResult e.1 sA == some (e.2.1, ⟨BitVec.ofNat 64 e.2.2, false⟩) &&
    sat (exec e.1 sA) fun t => t.gReg e.2.1 == ⟨BitVec.ofNat 64 e.2.2, false⟩ && t.me.pc == 0x1004

theorem test_integers : intCases.all intCaseOk = true := by decide +kernel
theorem test_integers_more : intCases2.all intCaseOk = true := by decide +kernel
/-- R28: a poisoned operand poisons the result; a write to g0 is discarded. -/
theorem test_integers_poison :
    sat (exec (.add 9 1 7 q0) sA) (fun t => (t.gReg 9).poison) = true ∧
    sat (exec (.add 0 1 2 q0) sA) (fun t => t.gReg 0 == ⟨0, false⟩) = true := by decide +kernel

/-- The same of predicates (R129): the value and the poison. -/
def predCases : List (Instr × PReg × Bool × Bool) :=
  [(.pcmp 4 1 2 .eq q0, 4, false, false), (.pcmp 4 1 2 .ne q0, 4, true, false), (.pcmp 4 4 1 .lt q0, 4, true, false),
   (.pcmp 4 4 1 .ltu q0, 4, false, false), (.pcmp 4 1 1 .le q0, 4, true, false), (.pcmp 4 1 1 .gt q0, 4, false, false),
   (.pcmp 4 1 4 .ge q0, 4, true, false), (.pcmp 4 4 1 .geu q0, 4, true, false), (.pcmp 4 4 1 .leu q0, 4, false, false),
   (.pcmp 4 4 1 .gtu q0, 4, true, false), (.pcmp 4 1 2 .any q0, 4, true, false), (.pcmp 4 1 4 .noneSet q0, 4, true, false),
   (.pcmp 4 1 7 .eq q0, 4, false, true), (.pcmpi 4 4 8 .eq q0, 4, true, false), (.pcmpi 4 1 0xF .ltu q0, 4, true, false),
   (.plog 4 1 2 .and q0, 4, false, false), (.plog 4 1 2 .or q0, 4, true, false), (.plog 4 1 0 .xor q0, 4, false, false),
   (.plog 4 1 2 .andn q0, 4, true, false), (.plog 4 2 1 .orn q0, 4, false, false), (.plog 4 1 0 .xnor q0, 4, true, false),
   (.pmovPp 4 1 q0, 4, true, false), (.pmovPg 4 1 q0, 4, true, false), (.pmovPp 4 3 q0, 4, true, true)]
theorem test_predicates : (predCases.all fun e =>
    runsB e.1 sA && sat (exec e.1 sA) fun t => t.pReg e.2.1 == ⟨e.2.2.1, e.2.2.2⟩) = true := by decide +kernel
theorem witness_predicates : Spec.predResult (.pcmp 4 1 2 .ne q0) sA = some (4, (5 : Word) ≠ 7, false) ∧
    Spec.runs (.pcmp 4 1 2 .ne q0) sA := ⟨rfl, runs_of (by decide)⟩

theorem witness_falsePredicate : Spec.predOf (.add 9 1 2 q2) = some q2 ∧ sA.cur.core ≠ mgmtCore ∧ (sA.pReg 2).poison = false ∧
    ((sA.pReg 2).val ^^ false) = false ∧
    sat (exec (.add 9 1 2 q2) sA) (fun t => t.gReg 9 == ⟨0, false⟩ && t.me.pc == 0x1004) = true := by decide +kernel
theorem witness_poisonedPredicate : Spec.predOf (.add 9 1 2 q3) = some q3 ∧ sA.cur.core ≠ mgmtCore ∧ (sA.pReg 3).poison = true ∧
    sat (exec (.add 9 1 2 q3) sA) (fun t => t.me.tr.tcause == 0x0A && t.me.tr.tval == 3 && t.me.tr.priv == 1) = true := by decide +kernel
theorem witness_hardwired : ((sA.setG 0 ⟨7, true⟩).gReg 0 == ⟨0, false⟩ && (sA.setP 0 ⟨false, true⟩).pReg 0 == ⟨true, false⟩) = true := by
  decide

/-! ### Divisions, floats, level-index numbers (02 of the statements) -/

def fctx : Ctx :=
  { ctxA with g := (wordsAt 16 [(1, 0x3F800000), (2, 0x40000000), (3, 0x43E88000), (4, 0x0800), (5, 0x1000), (6, 0x0D8C), (8, 0x3FFF),
      (9, 0x7FFF), (10, 0x5000), (11, 0x4000), (12, 0x3F000000)]).set 7 ⟨0x40000000, true⟩ }
def sF : State := withCtx fctx

/-- An instruction, the value it leaves in its register and the flags it sets (R70). -/
def floatCases : List (Instr × Reg × Nat × Nat) :=
  [(.fadd 14 1 1 .f32 .none q0, 14, 0x40000000, 0), (.fsub 14 1 2 .f32 .none q0, 14, 0xBF800000, 0),
   (.fmul 14 2 2 .f32 .none q0, 14, 0x40800000, 0), (.ffma 1 2 2 .f32 .none q0, 1, 0x40A00000, 0),
   (.fmin 14 1 2 .f32 q0, 14, 0x3F800000, 0), (.fmax 14 1 2 .f32 q0, 14, 0x40000000, 0),
   (.fcvt 14 3 .rne .f8aF32 q0, 14, 0x7E, 5), (.fcvt 14 3 .rtz .f8aF32 q0, 14, 0x7E, 1), (.fcvt 14 1 .rne .f16F32 q0, 14, 0x3C00, 0),
   (.fclass 14 1 .f32 q0, 14, 0x40, 0), (.lclass 14 4 .li16 q0, 14, 0x10020, 0)]
theorem test_floats : (floatCases.all fun e =>
    runsB e.1 sF && (Spec.numForm e.1).isSome && sat (exec e.1 sF) fun t =>
      t.gReg e.2.1 == ⟨BitVec.ofNat 64 e.2.2.1, false⟩ && t.me.nflags == BitVec.ofNat 64 e.2.2.2) = true := by decide +kernel
/-- 03: the FCVT of the worked encodings with NMODE at 0 writes 0x7F. -/
theorem test_fcvt_unsaturated : sat (exec (.fcvt 14 3 .rne .f8aF32 q0) (withCtx { fctx with nmode := 0 })) (fun t =>
    t.gReg 14 == ⟨0x7F, false⟩) = true := by decide +kernel
theorem test_floats_poison : sat (exec (.fadd 14 1 7 .f32 .none q0) sF) (fun t => t.gReg 14 == ⟨0x7FC00000, true⟩) = true := by
  decide +kernel

/-- The LI16 results of 09 (worked values): result and flags in the recurrence unit. -/
def levelCases : List (Instr × Nat × Nat) :=
  [(.ladd 14 4 4 .li16 q0, 0x0D8C, 1), (.lmul 14 5 5 .li16 q0, 0x158C, 1), (.ladd 14 5 5 .li16 q0, 0x1436, 1),
   (.lmul 14 6 6 .li16 q0, 0x129E, 0x21), (.ldiv 14 4 5 .li16 q0, 0x5000, 0), (.lcvt 14 12 .none .li16F32 q0, 0x4D8C, 1),
   (.lmul 14 8 5 .li16 q0, 0x3FFF, 0x41), (.lmul 14 9 10 .li16 q0, 0x7FFF, 0x41), (.ladd 14 11 4 .li16 q0, 0x4000, 0x80),
   (.ldiv 14 4 0 .li16 q0, 0x4000, 8), (.lsub 14 4 4 .li16 q0, 0, 0x20)]
theorem test_levelIndex : (levelCases.all fun e =>
    runsB e.1 sF && (Spec.rcrForm e.1).isSome && sF.myCore.work.rcr.isNone && sF.myCore.work.rcrQ.isEmpty &&
      sat (exec e.1 sF) fun t => match t.myCore.work.rcr with
        | some o => o.val == ⟨BitVec.ofNat 64 e.2.1, false⟩ && o.flags == BitVec.ofNat 64 e.2.2 && o.dst == .g 14 && t.me.pc == 0x1004
        | none => false) = true := by decide +kernel

/-- Divisions by hand (R130), and F32 in the divide unit. -/
def divCases : List (Instr × Nat) :=
  [(.div 14 4 3 q0, 0xFFFFFFFFFFFFFFFE), (.divu 14 6 3 q0, 0x6117), (.mod 14 4 3 q0, 0xFFFFFFFFFFFFFFFE), (.modu 14 6 3 q0, 0),
   (.div 14 1 0 q0, 0xFFFFFFFFFFFFFFFF), (.modu 14 1 0 q0, 5)]
def unitHolds (s : State) (i : Instr) (v : Nat) : Bool :=
  runsB i s && s.myCore.work.div.isNone && s.myCore.work.divQ.isEmpty && sat (exec i s) fun t => match t.myCore.work.div with
    | some o => o.val == ⟨BitVec.ofNat 64 v, false⟩ && o.dst == .g 14 && t.me.waitsFor [.g 14]
    | none => false
theorem test_divisions : (divCases.all fun e => unitHolds sA e.1 e.2 && (Spec.divResult e.1 sA).isSome) = true := by decide +kernel
theorem test_floatDivisions : (unitHolds sF (.fdiv 14 1 2 .f32 .none q0) 0x3F000000 &&
    unitHolds (withCtx { fctx with g := wordsAt 16 [(1, 0x40800000)] }) (.fsqrt 14 1 .f32 .none q0) 0x40000000) = true := by
  decide +kernel

theorem test_comparisons :
    (runsB (.fcmp 4 1 2 .f32 .lt q0) sF && sat (exec (.fcmp 4 1 2 .f32 .lt q0) sF) fun t => t.pReg 4 == ⟨true, false⟩) = true ∧
    (sat (exec (.fcmp 4 1 7 .f32 .lt q0) sF) fun t => t.pReg 4 == ⟨false, true⟩) = true ∧
    (runsB (.lcmp 4 4 5 .li16 .lt q0) sF && sat (exec (.lcmp 4 4 5 .li16 .lt q0) sF) fun t => t.pReg 4 == ⟨true, false⟩) = true := by
  decide +kernel
/-- FCLASS at the boundaries of its classes, and FADD at the greatest exponent of its statement. -/
theorem witness_floatValues : ([(0xFF800000, 0), (0x80800000, 1), (0x807FFFFF, 2), (0x80000000, 3), (0, 4), (1, 5), (0x7F7FFFFF, 6),
      (0x7F800000, 7), (0x7F800001, 8), (0x7FC00000, 9)].all fun e =>
    let s := withCtx { fctx with g := wordsAt 16 [(1, e.1)] }
    runsB (.fclass 2 1 .f32 q0) s && !(s.gReg 1).poison && sat (exec (.fclass 2 1 .f32 q0) s) fun t =>
      t.gReg 2 == ⟨BitVec.ofNat 64 (2 ^ e.2), false⟩) = true ∧
    (let s := withCtx { fctx with g := wordsAt 16 [(1, 0x7EFFFFFF)] }
     runsB (.fadd 2 1 1 .f32 .rup q0) s && (s.gReg 1).val.toNat == 253 * 2 ^ 23 + 0x7FFFFF &&
       sat (exec (.fadd 2 1 1 .f32 .rup q0) s) fun t => t.gReg 2 == ⟨0x7F7FFFFF, false⟩) = true := by decide +kernel

/-- Units at work: a division of core 0 for g14, and a level-index sum. -/
def sU : State :=
  let k := coreOf 0 { fctx with pend := [(.g 14, 5), (.g 13, 6)] }
  { withCore { k with work := { k.work with div := some ⟨0, .g 14, 5, ⟨77, false⟩, 1⟩, rcr := some ⟨0, .g 13, 6, ⟨88, false⟩, 0x20⟩ } } with
    ev := { Ev.none with core := 0 } }
theorem witness_unitsComplete :
    (sU.core 0).work.divQ = [] ∧ (sU.core 0).work.rcrQ = [] ∧ (RegName.g 14, 5) ∈ (sU.ctx 0 0).pend ∧ (RegName.g 13, 6) ∈ (sU.ctx 0 0).pend ∧
    (sat (exec .divideUnitComplete sU) fun t => (t.core 0).work.div.isNone && t.gReg 14 == ⟨77, false⟩ && t.me.nflags == 1) = true ∧
    (sat (exec .recurrenceUnitComplete sU) fun t => (t.core 0).work.rcr.isNone && t.gReg 13 == ⟨88, false⟩ && t.me.nflags == 0x20) = true := by
  decide +kernel

/-! ### Branches and loops (03 of the statements) -/

def sBslot : State := onMgmtCore { ctxA with npc := some 0x2000, nnpc := some 0x2002, slots := 2 }
def tripleOf (t : State) : Word × Option Word × Option Word := Spec.triple t

theorem witness_retireAdvances : (sB.me.loops.all fun l => l.lc == 0) = true ∧
    Spec.triple sB = (0x1000, some 0x1002, some 0x1004) ∧ Spec.triple sB.retire = (0x1002, some 0x1004, some 0x1006) ∧
    Spec.triple sBslot.retire = (0x2000, some 0x2002, some 0x2004) := by decide +kernel

/-- Every branch form, its slot form and its target, worked out by hand. -/
def branchCases : List (Instr × Slot × Nat) :=
  [(.b .none 8, .none, 0x1010), (.b .x 0x3FFFFC, .x, 0xFF8), (.bS 4, .none, 0x1008), (.bc 1 false .n true 0x3FFFC, .n, 0xFF8),
   (.bc 2 true .x false 8, .x, 0x1010), (.jmp 6 .none q1, .none, 0x2000), (.jmp 6 .x q0, .x, 0x2000), (.ret .none q0, .none, 0x3000),
   (.ret .x q1, .x, 0x3000), (.jmpS 6, .none, 0x2000), (.retS, .none, 0x3000)]
def sBr : State := sB.putG 6 0x2000
theorem test_branchesTaken : (branchCases.all fun e =>
    Spec.branchTaken e.1 sBr == some (e.2.1, BitVec.ofNat 64 e.2.2) && sat (exec e.1 sBr) fun t =>
      tripleOf t == (match e.2.1 with
        | .x => (BitVec.ofNat 64 e.2.2, some (BitVec.ofNat 64 (e.2.2 + 2)), some (BitVec.ofNat 64 (e.2.2 + 4)))
        | .none | .n => (0x1002, some 0x1004, some (BitVec.ofNat 64 e.2.2)))) = true := by decide +kernel
def callCases : List (Instr × Slot × Nat) :=
  [(.call .none 8, .none, 0x1010), (.call .x 8, .x, 0x1010), (.callS 4, .none, 0x1008), (.calli 6 .none q0, .none, 0x2000),
   (.calli 6 .x q1, .x, 0x2000), (.calliS 6, .none, 0x2000)]
theorem test_callsLink : Spec.seq sBr 0x1004 = some 0x1006 ∧ (callCases.all fun e =>
    Spec.callTaken e.1 sBr == some (e.2.1, BitVec.ofNat 64 e.2.2) && sat (exec e.1 sBr) fun t =>
      t.gReg 15 == (match e.2.1 with | .x => ⟨0x1002, false⟩ | .none | .n => ⟨0x1006, false⟩)) = true := by decide +kernel
def notTakenCases : List (Instr × Slot) :=
  [(.bc 2 false .none true 8, .none), (.bc 1 true .n false 8, .n), (.bc 2 false .x true 8, .x), (.jmp 6 .none q2, .none),
   (.calli 6 .x q2, .x), (.ret .none q2, .none), (.lbrk 2 false .n, .n)]
theorem test_branchesNotTaken : (notTakenCases.all fun e =>
    Spec.branchNotTaken e.1 sBr == some e.2 && sat (exec e.1 sBr) fun t =>
      tripleOf t == (match e.2 with
        | .n => (0x1006, some 0x1008, some 0x100A)
        | .none | .x => (0x1002, some 0x1004, some 0x1006))) = true := by decide +kernel
theorem witness_bcPoisoned : (sA.pReg 3).poison = true ∧
    sat (exec (.bc 3 false .none true 8) sA) (fun t => t.me.tr.tcause == 0x0A && t.me.tr.tval == 3) = true := by decide +kernel

def badTargets : List (Instr × Reg × Pred) :=
  [(.jmp 6 .x q0, 6, q0), (.calli 6 .none q1, 6, q1), (.jmpS 6, 6, q0), (.calliS 6, 6, q0), (.ret .x q1, 15, q1), (.retS, 15, q0)]
theorem witness_badTargets : (sA.pReg 3).poison = true ∧ (sA.pReg 0).val = true ∧ (sA.pReg 1).val = true ∧
    (badTargets.all fun e => let s := (sA.putG 6 0x2001).putG 15 0x2001
      sat (exec e.1 s) fun t => t.me.tr.tcause == 0x02 && t.me.tr.tval == 0x2001) = true ∧
    (badTargets.all fun e => let s := sA.setMe { sA.me with g := (sA.me.g.set 6 ⟨0x2000, true⟩).set 15 ⟨0x2000, true⟩ }
      sat (exec e.1 s) fun t => t.me.tr.tcause == 0x0A && t.me.tr.tval == BitVec.ofNat 64 e.2.1.val) = true ∧
    (sat (exec (.jmp 6 .none q3) sA) fun t => t.me.tr.tcause == 0x0A && t.me.tr.tval == 3) = true := by decide +kernel
theorem witness_jumpsVia : ∀ e ∈ badTargets, Spec.jumpsVia e.1 e.2.1 e.2.2 := by
  intro e he
  simp only [badTargets, List.mem_cons, List.not_mem_nil, or_false] at he
  rcases he with rfl | rfl | rfl | rfl | rfl | rfl <;> simp [Spec.jumpsVia, q0, q1]

/-- A loop of level `k` from 0x1000 to 0x1002 in machine mode with `n` iterations left. -/
def loops (k n : Nat) : Vector Loop 3 := (Vector.replicate 3 ⟨0, 0, 0⟩).setIfInBounds k ⟨BitVec.ofNat 64 n, 0x1001, 0x1002⟩
def sLoop (k n : Nat) : State := onMgmtCore { ctxA with npc := none, nnpc := none, loops := loops k n }
/-- R138 in both forms, with a count of zero and a count above the limit. -/
theorem witness_loopsStart : sB.me.slots = 0 ∧ sB.me.npc = none ∧ sB.me.nnpc = none ∧ sB.me.loops[2].lc = 0 ∧ (sB.gReg 1).poison = false ∧
    (sat (exec (.loop 1 true 4) sB) fun t => t.me.loops[0] == ⟨5, 0x1005, 0x1009⟩ && t.me.pc == 0x1002) = true ∧
    (sat (exec (.loop 0 false 4) sB) fun t => t.me.loops[0].lc == 0 && tripleOf t == (0x1008, some 0x100A, some 0x100C)) = true ∧
    (sat (exec (.loop 4 false 4) sB) fun t => t.me.loops[0].lc == 0xFFFFFFFF) = true ∧
    (sat (exec (.loopi 9 false 4) (sLoop 0 3)) fun t => t.me.loops[1] == ⟨10, 0x1005, 0x1008⟩) = true := by decide +kernel
theorem witness_fourthLoop : (withCtx { ctxA with loops := loops 2 1 }).me.loops[2].lc ≠ 0 ∧
    sat (exec (.loop 1 false 4) (withCtx { ctxA with loops := loops 2 1 })) (fun t => t.me.tr.tcause == 1) = true := by decide +kernel
/-- R139: with two iterations left, and with one. -/
theorem witness_loopBack : ((sLoop 0 2).me.loops[0].le &&& ~~~1#64) = 0x1002 ∧ (sLoop 0 2).me.loops[0].le.getLsbD 0 = false ∧
    (sLoop 0 2).me.loops[0].ls.getLsbD 0 = (sLoop 0 2).priv.getLsbD 0 ∧ Spec.triple (sLoop 0 2) = (0x1000, some 0x1002, some 0x1004) ∧
    (sLoop 0 2).retire.me.loops[0].lc = 1 ∧ Spec.triple (sLoop 0 2).retire = (0x1000, some 0x1002, some 0x1004) ∧
    (sLoop 0 1).retire.me.loops[0].lc = 0 ∧ Spec.triple (sLoop 0 1).retire = (0x1002, some 0x1004, some 0x1006) := by decide +kernel
theorem witness_lbrk : (sLoop 0 5).me.loops[0].lc ≠ 0 ∧ ((sLoop 0 5).pReg 1).val = true ∧
    (sat (exec (.lbrk 1 false .none) (sLoop 0 5)) fun t => t.me.loops[0].lc == 0 &&
      tripleOf t == (0x1002, some 0x1004, some 0x1002)) = true ∧
    (sat (exec (.lbrk 1 false .x) (sLoop 0 5)) fun t => t.me.loops[0].lc == 0 &&
      tripleOf t == (0x1002, some 0x1004, some 0x1006)) = true := by decide +kernel
theorem witness_alone : (∀ e ∈ sA.cores, e.1 = sA.cur.core ∨ clusterOf e.1 ≠ clusterOf sA.cur.core) ∧
    (sat (exec (.hint 0xFFFF 0) sA) fun t => t.me.pc == 0x1004) = true ∧
    (sat (exec .yield sA) fun t => t.me.pc == 0x1004 && t.me.yield == []) = true := by decide +kernel

/-! ### Traps, special registers, contexts and the register pool (04 of the statements) -/

/-- R103, with an open packet. -/
theorem witness_trapEntry :
    let s := withCtx { ctxA with packet := some okPacket, npc := none, nnpc := some 0x2000 }
    (s.cur.core ≠ mgmtCore ∧ (s.ctx 0 0).tr.priv = 0 ∧ (s.core 0).bind.tvec ≠ 0) ∧
    (s.takeTrap 0 0 5 0x77).me.tr = ⟨1, 0, true, 5, 0x77, 0x1000, 0x1001, 0x2000⟩ ∧ (s.takeTrap 0 0 5 0x77).me.pc = 0x8000 := by
  decide +kernel
theorem witness_trapEscalates :
    let s := withTask (coreOf 0 (sup ctxA))
    (s.ctx 0 0).tr.priv ≠ 0 ∧ (s.core 0).bind.task = some ref3 ∧ s.taskAt ref3 = some task3 ∧ (s.ctx 0 0).live = true ∧
    (s.ctx 0 1).live = false ∧ ((s.takeTrap 0 0 5 6).core 0).stop = some (.fail 5 6) ∧
    ((s.takeTrap 0 0 5 6).taskAt ref3).map (·.phase) = some (.failing 0 5 6) := by decide +kernel
theorem witness_machineEntry :
    let s : State := { sB with mgmt := { Mgmt.reset with mie := true, mvec := 0x401 } }
    (s.takeTrap mgmtCore 0 5 6).mgmt.mxpc0 = 0x1000 ∧ (s.takeTrap mgmtCore 0 5 6).me.pc = 0x400 ∧ (s.takeTrap mgmtCore 0 5 6).mgmt.mpp = 3 ∧
    (sB.takeTrap mgmtCore 0 5 6).mgmt.dead = true ∧ (sB.takeTrap mgmtCore 0 5 6).spine.err = 7 := by decide +kernel
theorem test_trap : sat (exec (.trap 7) sA) (fun t => t.me.tr.tcause == 0x0D && t.me.tr.tval == 7 && t.me.tr.xpc0 == 0x1000) = true := by
  decide +kernel
theorem witness_rett :
    let x := { ctxA with tr := ⟨1, 0, false, 5, 6, 0x2000, 0x2001, 0x3000⟩ }
    let s := withCtx x
    let m : State := { sB with mgmt := { Mgmt.reset with mxpc0 := 0x2000, mxpc1 := 0x2004, mxpc2 := 0x2005 } }
    (s.priv = 1 ∧ s.me.tr.xpc0.getLsbD 0 = false ∧ s.me.tr.ppriv = 0) ∧
    (sat (exec .rett s) fun t => t.me.pc == 0x2000 && t.me.npc == none && t.me.nnpc == some 0x3000 && t.me.tr.priv == 0) = true ∧
    (m.priv = 3 ∧ m.mgmt.mxpc0.getLsbD 0 = false ∧ m.mgmt.mpp ≠ 2) ∧
    (sat (exec .rett m) fun t => t.me.pc == 0x2000 && t.mgmt.mie && t.me.tr.priv == 0) = true := by decide +kernel
theorem witness_privileged : sA.priv = 0 ∧ ([Instr.rett, .ctxsave 1 2, .ctxload 1 true 2].all fun i =>
    sat (exec i sA) fun t => t.me.tr.tcause == 4 && t.me.tr.tval == i.tval) = true := by decide +kernel

/-! ### Special registers -/

theorem witness_mfs : Spec.special sA 5 = some 0x8000 ∧ Spec.special sA 1 = some 0 ∧ Spec.special sA 7 = some 0 ∧ sA.timedOut = false ∧
    sA.flagsOut = false ∧ Spec.mgmtSpecial sB 0x103 = some 0 ∧ sB.priv = 3 ∧
    (sat (exec (.mfs 9 0x005) sA) fun t => t.gReg 9 == ⟨0x8000, false⟩) = true ∧
    (sat (exec (.mfs 9 0x010) (withCtx { ctxA with ipend := 6, alarm := 1 })) fun t => t.gReg 9 == ⟨6, false⟩) = true ∧
    (sat (exec (.mfs 9 0x103) { sB with mgmt := { sB.mgmt with mvec := 0x40 } }) fun t => t.gReg 9 == ⟨0x40, false⟩) = true := by
  decide +kernel
/-- R101 by hand: context 0, LIVE of context 0 alone. -/
theorem test_ctxst : sat (exec (.mfs 9 0x002) sA) (fun t => t.gReg 9 == ⟨0x40000, false⟩) = true := by decide +kernel
theorem witness_mts : (sA.gReg 1).poison = false ∧ (Spec.written sA.me 5 7).isSome ∧ (Spec.written sA.me 5 0x1E).isSome ∧
    sA.flagsOut = false ∧
    (sat (exec (.mts 4 0x007) sA) fun t => t.me.nflags == 0xF8) = true ∧ (sat (exec (.mts 4 0x016) sA) fun t =>
      t.me.loops[0].lc == 0xFFFFFFF8) = true ∧ (withCtx (sup ctxA)).priv ≠ 0 ∧
    (sat (exec (.mts 6 0x005) (withCtx (sup ctxA))) fun t => t.myCore.bind.tvec == 0x12345) = true ∧
    (sat (exec (.mts 4 0x003) (withCtx (sup ctxA))) fun t => t.me.tr.tcause == 0x80000000000000F8) = true := by decide +kernel
theorem witness_mtsTraps :
    (sat (exec (.mts 1 0x013) sA) fun t => t.me.tr.tcause == 4 && t.me.tr.tval == 0x13) = true ∧ ((withCtx (sup ctxA)).gReg 7).poison = true ∧
    (sat (exec (.mts 7 0x006) (withCtx (sup ctxA))) fun t => (t.core 0).stop == some (.fail 8 7)) = true := by decide +kernel
theorem witness_absentRegister : sA.cur.core ≠ mgmtCore ∧ ([Instr.mfs 1 0x1F, .mts 1 0x1F, .mfs 1 0xFFF].all fun i =>
    sat (exec i sA) fun t => t.me.tr.tcause == 1 && t.me.tr.tval == i.tval) = true := by decide +kernel
theorem test_halt : (sat (exec .halt sB) fun t => t.mgmt.halted) = true ∧ (sat (exec .halt sA) fun t => t.me.tr.tcause == 1) = true := by
  decide +kernel

/-! ### Helpers -/

def allReady : Core := { coreOf 0 ctxA with ctxs := (Vector.replicate 11 readyC).set 0 ctxA }
theorem witness_start : (s12 readyC Ctx.reset).cur.ctx = 0 ∧ ((s12 readyC Ctx.reset).gReg 6).poison = false ∧
    ((s12 readyC Ctx.reset).myCore.ctx 2).st = .free ∧ ((s12 readyC Ctx.reset).myCore.ctx 1).st = .ready ∧
    (sat (exec (.start 6 0x10) (s12 readyC Ctx.reset)) fun t => t.gReg 6 == ⟨2, false⟩ && (t.ctx 0 2).st == .ready &&
      (t.ctx 0 2).pc == 0x1020 && (t.ctx 0 2).getG 1 == ⟨2, false⟩ && (t.ctx 0 2).getG 2 == ⟨0x12345, false⟩) = true ∧
    (∀ m : CtxId, m ≠ 0 → ((withCore allReady).myCore.ctx m).st ≠ .free) ∧
    (sat (exec (.start 6 0x10) (withCore allReady)) fun t => t.gReg 6 == ⟨0, false⟩) = true ∧
    (sat (exec (.start 6 0x10) (in1 (s12 readyC readyC))) fun t => t.me.tr.tcause == 0x0C && t.me.tr.tval == 1) = true := by
  decide +kernel
def sJoin (st : CtxState) : State := withCore (core12 { ctxA with g := ctxA.g.set 3 ⟨2, false⟩ } readyC { readyC with st := st, nflags := 5 })
theorem witness_join : (sJoin .free).gReg 3 = ⟨BitVec.ofNat 64 (2 : CtxId).val, false⟩ ∧ ((sJoin .ready).myCore.ctx 2).live = true ∧
    Spec.noClaims (sJoin .ended) ∧ ([Instr.join 3, .joinS 3].all fun i =>
      (sat (exec i (sJoin .free)) fun t => t.me.pc == 0x1004) &&
      (sat (exec i (sJoin .ended)) fun t => (t.ctx 0 2).st == .free && t.me.nflags == 5) &&
      sat (exec i (sJoin .ready)) fun t => t.me.st == .waiting && t.me.wait == some i) = true :=
  ⟨rfl, rfl, noClaims_of rfl rfl, by decide +kernel⟩
def cleanC : Ctx := { readyC with g := Vector.replicate 16 PWord.zero, p := Vector.replicate 8 ⟨false, false⟩, count := 3 }
def sHelper : State := in1 (s12 cleanC Ctx.reset)
theorem witness_helperExit : sHelper.cur.ctx ≠ 0 ∧ Spec.quiet sHelper ∧ Spec.noClaims sHelper ∧
    (sat (exec .exit sHelper) fun t => t.me.st == .ended && t.me.count == 0 && (t.ctx 0 0).evpend == 1) = true ∧
    (sat (exec .exitS sHelper) fun t => t.me.st == .ended && (t.ctx 0 0).evpend == 1) = true :=
  ⟨by decide, quiet_of (by decide +kernel), noClaims_of rfl rfl, by decide +kernel, by decide +kernel⟩
def sTask : State := withTask (coreOf 0 cleanC)
theorem witness_taskExit : Spec.quiet sTask ∧ Spec.noClaims sTask ∧ sTask.myCore.bind.task = some ref3 ∧ sTask.taskAt ref3 = some task3 ∧
    (∀ n : CtxId, n ≠ 0 → (sTask.myCore.ctx n).live = false) ∧
    (sat (exec .exit sTask) fun t => (t.ctx 0 0).st == .free && (t.taskAt ref3).map (·.phase) == some (.retiring 0)) = true ∧
    (sat (exec .exitS sTask) fun t => (t.ctx 0 0).count == 0 && (t.taskAt ref3).map (·.phase) == some (.retiring 0)) = true :=
  ⟨quiet_of (by decide +kernel), noClaims_of rfl rfl, rfl, rfl, by decide +kernel, by decide +kernel, by decide +kernel⟩
theorem witness_exitTraps :
    (sat (exec .exit (withCtx { ctxA with packet := some okPacket })) fun t => t.me.tr.tcause == 0x0C && t.me.tr.tval == 5) = true ∧
    ((s12 readyC readyC).myCore.ctx 1).live = true ∧
    (sat (exec .exitS (s12 readyC readyC)) fun t => t.me.tr.tcause == 0x0C && t.me.tr.tval == 4) = true := by decide +kernel
theorem witness_sleepWaitev : (sA.gReg 0).val = 0 ∧ (sA.gReg 1).val ≠ 0 ∧
    (sat (exec (.sleep 0) sA) fun t => t.me.pc == 0x1004) = true ∧ (sat (exec (.sleep 1) sA) fun t => t.me.st == .waiting && t.me.due == sA.time + BitVec.ofNat 64 (10 * Nat.min (sA.gReg 1).val.toNat 1048575 / 88)) = true ∧
    (sat (exec (.waitev 3 6) (withCtx { ctxA with evpend := 0x15 })) fun t => t.gReg 3 == ⟨4, false⟩ && t.me.evpend == 0x11) = true := by
  decide +kernel

/-! ### The register pool -/

def sPool : State := withCore (core12 { ctxA with count := 2 } { readyC with count := 20 } Ctx.reset)
theorem witness_claim : Spec.runs (.claim 6 2 q1) sPool ∧ Spec.quiet sPool ∧ Spec.noClaims sPool ∧
    sPool.gReg 2 = ⟨BitVec.ofNat 64 7, false⟩ ∧ 7 ≤ (sPool.myCore.setCtx 0 { sPool.me with count := 0 }).poolFree ∧
    (sat (exec (.claim 6 2 q1) sPool) fun t => t.me.count == 7 && t.gReg 6 == ⟨2, false⟩) = true ∧
    (sat (exec (.claim 6 4 q0) sA) fun t => t.me.tr.tcause == 0x12 && t.me.tr.tval == 0xFFFFFFFFFFFFFFF8) = true ∧
    (sA.gReg 4).poison = false :=
  ⟨runs_of (by decide), quiet_of (by decide +kernel), noClaims_of rfl rfl, rfl, by decide +kernel, by decide +kernel, by decide +kernel, rfl⟩
/-- A vector load of the context that is still out keeps its registers in use (R152). -/
def sBusy : State :=
  let k := core12 { ctxA with count := 2, pend := [(.v ⟨1, by decide⟩, 9)] } readyC Ctx.reset
  withCore { k with work := { k.work with vecs := [⟨9, 1, 0, true, ⟨1, by decide⟩, [none], [none], none⟩] } }
theorem witness_give : sA.me.count = 0 ∧ sPool.me.count ≠ 0 ∧ sPool.poolBusy = false ∧ sBusy.me.count ≠ 0 ∧ sBusy.poolBusy = true ∧
    Spec.runs (.claim 6 0 q0) sPool ∧ sPool.gReg 0 = ⟨0, false⟩ ∧ Spec.quiet sPool ∧
    ([Instr.give q0, .giveS].all fun i => (sat (exec i sA) fun t => t.me.pc == 0x1004) &&
      (sat (exec i sPool) fun t => t.me.count == 0 && t.me.pc == 0x1004) &&
      sat (exec i sBusy) fun t => t.me.st == .waiting && t.me.count == 2) = true :=
  ⟨rfl, by decide, by decide +kernel, by decide, by decide +kernel, runs_of (by decide), rfl, quiet_of (by decide +kernel), by decide +kernel⟩
/-- R156 by hand: FREE 10, LOW 32, HELD of context 1 20, no waiting claim. -/
theorem witness_pquery : Spec.runs (.pquery 6 9 q0) (sPool.putG 9 1) ∧ ((sPool.putG 9 1).gReg 9).poison = false ∧
    (∀ m, ((sPool.putG 9 1).myCore.ctx m).count ≤ 32) ∧
    (sat (exec (.pquery 6 9 q0) (sPool.putG 9 1)) fun t => t.gReg 6 == ⟨10 + 0x2000 + 0x140000 + 0xF000000000, false⟩) = true :=
  ⟨runs_of (by decide), rfl, by decide +kernel, by decide +kernel⟩

/-! ### CTXSAVE and CTXLOAD -/

/-- In supervisor mode, context 1 STOPPED, an address of the local store in g9. -/
def sSave : State := withCore (core12 { sup ctxA with g := ctxA.g.set 9 ⟨0xFFFFFFFFE040, false⟩ } { readyC with st := .stopped } Ctx.reset)
theorem witness_ctxsave : sSave.priv = 1 ∧ Spec.quiet sSave ∧ (sSave.myCore.ctx 1).st = .stopped ∧ sSave.myCore.ls.wf = true ∧
    sSave.gReg 9 = ⟨BitVec.ofNat 64 (Spec.lsBase + 64), false⟩ ∧
    (sat (exec (.ctxsave 9 1) sSave) fun t => (t.core 0).ls.read 64 8 == ⟨5, false⟩ && (t.core 0).ls.read (64 + 8 * 6) 8 == ⟨9, true⟩ &&
      (t.core 0).ls.read (64 + 8 * 23) 8 == ⟨0x4000, false⟩ && (t.core 0).ls.read (64 + 8 * 24) 8 == ⟨0x1004, false⟩ &&
        (List.range 36).all fun i => (t.core 0).ls.read (64 + 8 * i) 8 == Spec.recordWord sSave 0 1 i) = true :=
  ⟨rfl, quiet_of (by decide +kernel), rfl, rfl, rfl, by decide +kernel⟩
/-- The record that CTXSAVE wrote, loaded into the FREE context 2. -/
theorem witness_ctxload : Spec.noClaims sSave ∧ (sSave.myCore.ctx 2).st = .free ∧
    (sat (exec (.ctxsave 9 1) sSave) fun u => sat (exec (.ctxload 9 true 2) u) fun t =>
      (t.ctx 0 2).st == .ready && (t.ctx 0 2).getG 1 == ⟨5, false⟩ && (t.ctx 0 2).getG 7 == ⟨9, true⟩ && (t.ctx 0 2).pc == 0x4000) = true :=
  ⟨noClaims_of rfl rfl, rfl, by decide +kernel⟩

/-! ### Memory (05 of the statements) -/

/-- The local store holds 0x8070605040302F1 at offset 64, and a poisoned 0x55 at offset 72. -/
def lsM : Memory := ((Memory.empty.write 64 8 ⟨0x80706050403F2F1, false⟩)).write 72 8 ⟨0x55, true⟩
/-- g8 holds the address of offset 64, g9 the same less 8, g10 its last byte, g11 an unmapped address, g12 one of HBM. -/
def memC : Ctx :=
  { ctxA with g := ((((ctxA.g.set 8 ⟨0xFFFFFFFFE040, false⟩).set 9 ⟨0xFFFFFFFFE038, false⟩).set 10 ⟨0xFFFFFFFFF7FF, false⟩).set 11 ⟨0x5000, false⟩).set 12 ⟨0x2000, false⟩
              e := ((Vector.replicate 8 PWord.zero).set 1 ⟨0x7777, false⟩).set 2 ⟨0x10100, false⟩ }
def sM : State := withCore { coreOf 0 memC with ls := lsM }

theorem quiet_sM : Spec.quiet sM := quiet_of (by decide +kernel)
theorem emptyCluster_sM : Spec.emptyCluster sM := ⟨rfl, rfl, rfl, rfl⟩

/-- Every load of 08 and its value, by hand. -/
def loadCases : List (Instr × RegName × Nat) :=
  [(.ldb 5 8 .core .plain 0, .g 5, 0xFFFFFFFFFFFFFFF1), (.ldbu 5 8 .core .acq 0, .g 5, 0xF1), (.ldb 5 8 .core .plain 2, .g 5, 3),
   (.ldh 5 8 .core .plain 0, .g 5, 0xFFFFFFFFFFFFF2F1), (.ldhu 5 8 .core .plain 0, .g 5, 0xF2F1), (.ldw 5 9 .core .plain 2, .g 5, 0x403F2F1),
   (.ldwu 5 9 .core .plain 3, .g 5, 0x8070605), (.ldd 5 9 .core .plain 1, .g 5, 0x80706050403F2F1), (.ldwS 5 8 1, .g 5, 0x8070605),
   (.ldwuS 5 9 2, .g 5, 0x403F2F1), (.lddS 5 9 1, .g 5, 0x80706050403F2F1), (.xld 5 9 1, .e 5, 0x80706050403F2F1)]
def readsAs (t : State) (r : RegName) (v : PWord) : Bool :=
  match r with
  | .g r => t.gReg r == v
  | .e r => t.eReg r == v
  | .v _ => false
theorem test_loads : (loadCases.all fun e => (Spec.loadForm e.1).isSome && sat (exec e.1 sM) fun t =>
    readsAs t e.2.1 ⟨BitVec.ofNat 64 e.2.2, false⟩ && t.me.pc == 0x1004) = true := by decide +kernel
theorem test_load_poison : sat (exec (.ldd 5 8 .core .plain 1) sM) (fun t => t.gReg 5 == ⟨0x55, true⟩) = true := by decide +kernel
theorem witness_ownLs : Spec.ownLs sM (Spec.address sM 8 0) 8 64 ∧ Spec.ownLs sM (Spec.address sM 10 0) 1 6143 ∧
    Spec.ownLs sM (Spec.address sM 9 8) 4 64 ∧ (sM.gReg 8).poison = false ∧ sM.myCore.ls.wf = true := by
  refine ⟨⟨rfl, ?_, ?_, ?_⟩, ⟨rfl, ?_, ?_, ?_⟩, ⟨rfl, ?_, ?_, ?_⟩, rfl, by decide +kernel⟩ <;> decide
theorem witness_loadBad : (sM.gReg 7).poison = true ∧ (Spec.address sM 8 1).toNat % 8 ≠ 0 ∧
    (sat (exec (.ldd 5 7 .core .plain 1) sM) fun t => t.gReg 5 == ⟨0, true⟩ && t.me.pc == 0x1004) = true ∧
    (sat (exec (.ldwS 5 6 1) sM) fun t => t.me.tr.tcause == 5 && t.me.tr.tval == 0x12349) = true := by decide +kernel
/-- An unmapped address, and the top of the local store in user mode. -/
theorem witness_fates : sM.reach .load 8 0x5000 = .transFault ∧ sM.reach .store 8 0x5000 = .transFault ∧
    sM.reach .load 8 0xFFFFFFFFF800 = .rightsFault ∧ sM.reach .store 8 0xFFFFFFFFF800 = .rightsFault ∧
    Spec.address sM 11 0 = 0x5000 ∧ Spec.address sM 10 1 = 0xFFFFFFFFF800 ∧
    (sat (exec (.ldd 5 11 .core .plain 0) sM) fun t => t.gReg 5 == ⟨0, true⟩) = true ∧
    (sat (exec (.std 5 11 .core .plain 0) sM) fun t => t.me.tr.tcause == 6 && t.me.tr.tval == 0x5000) = true ∧
    (sat (exec (.stb 5 10 .core .plain 1) sM) fun t => t.me.tr.tcause == 7 && t.me.tr.tval == 0xFFFFFFFFF800) = true := by decide +kernel
theorem witness_addressMap : sM.cur.core < mgmtCore ∧ 2 ^ 48 ≤ (0x1000000000000 : Word).toNat ∧
    sM.leafOn sM.cur.core sM.myCore.bind.tenant 0xFEFFFFFFFFFF = none ∧
    sM.reach .load 1 0xFEFFFFFFFFFF = .transFault ∧ sM.reach .atomic 8 0xFFFFFFFFE040 = .place (.ls 0 64) := by decide +kernel

/-- Every store, and the doubleword it leaves at offset 64 (72 for the last). -/
def storeCases : List (Instr × Nat × Nat) :=
  [(.stb 4 8 .core .plain 0, 64, 0x80706050403F2F8), (.sth 4 8 .core .plain 1, 64, 0x8070605FFF8F2F1),
   (.stw 4 9 .core .rel 3, 64, 0xFFFFFFF80403F2F1), (.std 4 9 .core .plain 1, 64, 0xFFFFFFFFFFFFFFF8), (.stwS 2 8 1, 64, 0x70403F2F1),
   (.stdS 2 9 1, 64, 7), (.xst 1 8 1, 72, 0x7777)]
theorem test_stores : (storeCases.all fun e => (Spec.storeForm e.1 sM).isSome && sat (exec e.1 sM) fun t =>
    (t.core 0).ls.read e.2.1 8 == ⟨BitVec.ofNat 64 e.2.2, false⟩ && t.me.pc == 0x1004 && (t.core 0).ls.wf) = true := by decide +kernel
/-- R189: a byte stored into a poisoned unit leaves it poisoned; poisoned data traps after the store (R107). -/
theorem test_store_poison : (sat (exec (.stb 4 8 .core .plain 8) sM) fun t => (t.core 0).ls.read 72 8 == ⟨0xF8, true⟩) = true ∧
    (sat (exec (.std 7 8 .core .plain 0) sM) fun t => (t.core 0).ls.read 64 8 == ⟨9, true⟩ && t.me.tr.tcause == 9 &&
      t.me.tr.tval == 0xFFFFFFFFE040 && t.me.tr.xpc0 == 0x1004) = true := by decide +kernel
theorem witness_storeBad : (sM.gReg 7).poison = true ∧ (Spec.address sM 8 2).toNat % 4 ≠ 0 ∧
    (sat (exec (.stdS 2 7 1) sM) fun t => t.me.tr.tcause == 0x0A && t.me.tr.tval == 7) = true ∧
    (sat (exec (.stwS 2 6 0) sM) fun t => t.me.tr.tcause == 5 && t.me.tr.tval == 0x12345) = true := by decide +kernel
theorem test_extension : (sat (exec (.xset 1 0x7FFF) sM) fun t => t.eReg 1 == ⟨0xFFFFFFFFFFFFFFFF, false⟩) = true ∧
    (sat (exec (.xsetSh 1 5) sM) fun t => t.eReg 1 == ⟨0x3BBB8005, false⟩) = true ∧
    (sat (exec (.xmovEg 3 7) sM) fun t => t.eReg 3 == ⟨9, true⟩) = true ∧ (sat (exec (.xmovS 3 1) sM) fun t => t.eReg 3 == ⟨5, false⟩) = true ∧
    (sat (exec (.xmovGe 3 1) sM) fun t => t.gReg 3 == ⟨0x7777, false⟩) = true := by decide +kernel

/-- Atomics at offset 64: what is left there, and what g[d] holds (R205). -/
def amoCases : List (Instr × Nat × Nat) :=
  [(.amoAdd 5 8 .core .plain 1 false, 0x80706050403F2F6, 0x80706050403F2F1), (.amoAdd 5 8 .core .ar 4 true, 0x80706050403F2E9, 0x403F2F1),
   (.amoAnd 5 8 .core .acq 1 false, 1, 0x80706050403F2F1), (.amoOr 5 8 .core .rel 2 true, 0x80706050403F2F7, 0x403F2F1),
   (.amoXor 5 8 .core .plain 1 true, 0x80706050403F2F4, 0x403F2F1), (.amoMin 5 8 .core .plain 4 false, 0xFFFFFFFFFFFFFFF8, 0x80706050403F2F1),
   (.amoMax 5 8 .core .plain 4 false, 0x80706050403F2F1, 0x80706050403F2F1), (.amoMinu 5 8 .core .plain 1 true, 0x807060500000005, 0x403F2F1),
   (.amoMaxu 5 8 .core .plain 4 true, 0x8070605FFFFFFF8, 0x403F2F1), (.amoSwap 5 8 .core .plain 1 false, 5, 0x80706050403F2F1)]
theorem test_atomics : (amoCases.all fun e => (Spec.amoForm e.1 sM).isSome && sat (exec e.1 sM) fun t =>
    (t.core 0).ls.read 64 8 == ⟨BitVec.ofNat 64 e.2.1, false⟩ && t.gReg 5 == ⟨BitVec.ofNat 64 e.2.2, false⟩) = true := by decide +kernel
/-- CAS whose expected value is there, and is not. -/
theorem test_cas :
    (sat (exec (.cas 5 8 .core .plain 1 false) (sM.putG 5 0x80706050403F2F1)) fun t => (t.core 0).ls.read 64 8 == ⟨5, false⟩ &&
      t.gReg 5 == ⟨0x80706050403F2F1, false⟩) = true ∧
    (sat (exec (.cas 2 8 .core .plain 1 false) sM) fun t => (t.core 0).ls.read 64 8 == ⟨0x80706050403F2F1, false⟩ &&
      t.gReg 2 == ⟨0x80706050403F2F1, false⟩) = true := by decide +kernel
theorem witness_atomics : Spec.ownLs sM (sM.gReg 8).val 8 64 ∧ Spec.ownLs sM (sM.gReg 8).val 4 64 ∧ (sM.gReg 1).poison = false ∧
    (sM.gReg 5).poison = false := by
  refine ⟨⟨rfl, ?_, ?_, ?_⟩, ⟨rfl, ?_, ?_, ?_⟩, rfl, rfl⟩ <;> decide
def accCases : List (Instr × Nat) :=
  [(.accAdd 8 .core .plain 1 false, 0x80706050403F2F6), (.accMin 8 .core .rel 4 true, 0x8070605FFFFFFF8), (.accMax 8 .core .plain 1 true, 0x80706050403F2F1),
   (.accOr 8 .core .plain 2 false, 0x80706050403F2F7)]
theorem test_accumulate : (accCases.all fun e => (Spec.accForm e.1).isSome && sat (exec e.1 sM) fun t =>
    (t.core 0).ls.read 64 8 == ⟨BitVec.ofNat 64 e.2, false⟩ && t.me.pc == 0x1004) = true := by decide +kernel
/-- 1.0 added to 1.0 at offset 64: F32, and LI32 by the table of 09 (u = 1.6931). -/
theorem test_accumulateFloats :
    (sat (exec (.accFadd32 8 .core .plain 1) (withCore { coreOf 0 { memC with g := memC.g.set 1 ⟨0x3F800000, false⟩ } with
        ls := Memory.empty.write 64 4 ⟨0x3F800000, false⟩ })) fun t => (t.core 0).ls.read 64 4 == ⟨0x40000000, false⟩) = true ∧
    (sat (exec (.accLadd32 8 .core .plain 1) (withCore { coreOf 0 { memC with g := memC.g.set 1 ⟨0x08000000, false⟩ } with
        ls := Memory.empty.write 64 4 ⟨0x08000000, false⟩ })) fun t => ((t.core 0).ls.read 64 4).val.toNat / 2 ^ 16 == 0xD8B) = true := by
  decide +kernel

/-- A word of HBM, reached through the TLB. -/
def sH : State := mapped sM
theorem quiet_sH : Spec.quiet sH := quiet_of (by decide +kernel)
theorem witness_toBuffer : Spec.emptyCluster sH ∧ sH.reach .accum 8 (sH.gReg 12).val = .place (.phys 0x2000 true) ∧
    sH.specTask sH.cur.core = none ∧
    (sat (exec (.accAdd 12 .core .plain 1 false) sH) fun t => (t.myCluster.acc.map fun e => (e.place, e.val, e.mask)) ==
      [(.phys 0x2000 true, ⟨5, false⟩, 1)]) = true ∧ (sat (exec .aflush sH) fun t => t.me.pc == 0x1004) = true := 
  ⟨⟨rfl, rfl, rfl, rfl⟩, by decide +kernel, by decide +kernel, by decide +kernel, by decide +kernel⟩
theorem witness_timedAccesses : sH.reach .store 8 (sH.gReg 12).val = .place (.phys 0x2000 true) ∧
    sH.reach .load 8 (sH.gReg 12).val = .place (.phys 0x2000 true) ∧ (sH.eReg 1).poison = false ∧
    ((sH.eReg 1).val - sH.myNow).toInt ≤ 65536 ∧
    (sat (exec (.tst 1 12 .clu .plain 1 false) sH) fun t => (t.myCore.work.port.map fun p => (p.place, p.kind)) ==
      [(.phys 0x2000 true, .timed 0x7777)]) = true ∧
    (sat (exec (.tld 5 12 .sec .acq 1 true) sH) fun t => (t.myCore.work.loads.map fun p => (p.place, p.kind, p.dst)) ==
      [(.phys 0x2000 true, .timed 0x7777, .g 5)] && t.me.waitsFor [.g 5]) = true := by decide +kernel
theorem witness_horizon : 65536 < ((sM.eReg 2).val - sM.myNow).toInt ∧ (sM.gReg 8).val.toNat % 8 = 0 ∧
    ([Instr.tst 1 8 .clu .plain 2 true, .tld 1 8 .clu .plain 2 true].all fun i =>
      sat (exec i sM) fun t => t.me.tr.tcause == 0x0E && t.me.tr.tval == 0x10100) = true := by decide +kernel

/-! ### Banks and lines -/

/-- Bank 5 to scratch, to the mode it has, and to a value above 2. -/
theorem witness_bankmode : Spec.runs (.bankmode 9 1 3 q1) sM ∧ (sM.cluster 0).mode 5 = .cache ∧ (sM.fifo 0 5).waiters = [] ∧
    sM.bankInUse 0 5 = false ∧
    (sat (exec (.bankmode 9 1 3 q1) sM) fun t => t.gReg 9 == ⟨0, false⟩ && (t.cluster 0).mode 5 == .cache) = true ∧
    (sat (exec (.bankmode 9 1 0 q1) sM) fun t => t.gReg 9 == ⟨0, false⟩ && (t.cluster 0).mode 5 == .cache) = true ∧
    (sat (exec (.bankmode 9 1 13 q0) (sM.putG 13 1)) fun t => t.gReg 9 == ⟨0, false⟩ && (t.cluster 0).mode 5 == .scratch) = true ∧
    (sat (exec (.bankmode 9 1 13 q0) (sM.putG 13 2)) fun t => (t.cluster 0).mode 5 == .fifo && (t.cluster 0).mode 4 == .cache) = true :=
  ⟨runs_of (by decide), rfl, rfl, by decide +kernel, by decide +kernel, by decide +kernel, by decide +kernel, by decide +kernel⟩
theorem witness_linesNotCached : (∀ r, sM.lineFor (sM.gReg 11).val r = none) ∧ Spec.runs (.linewb 11 q1) sM ∧
    ([Instr.linewb 11 q1, .lineinv 11 q1, .unpin 11 q1].all fun i => sat (exec i sM) fun t => t.me.pc == 0x1004) = true ∧
    (sat (exec (.pin 6 11 q1) sM) fun t => t.gReg 6 == ⟨0, false⟩) = true :=
  ⟨by decide +kernel, runs_of (by decide), by decide +kernel, by decide +kernel⟩
/-- That line, and other lines of its set, pinned. -/
def linesMap (n : Nat) : Cluster :=
  { clusterMap with lines := line80 :: (List.range n).map fun k => { line80 with line := 0x80 + 64 * (k + 1), dirty := 0, pin := some 2 } }
def sL (n : Nat) : State := { sM with clusters := [(0, linesMap n)] }
theorem witness_lines : Spec.quiet (sL 0) ∧ (∀ r, (sL 0).lineFor ((sL 0).gReg 12).val r = some (0, 0x80, true)) ∧
    (sL 0).myCluster.findLine 0 0x80 = some line80 ∧ (sL 0).myCluster.ways = 16 ∧
    (sat (exec (.linewb 12 q0) (sL 0)) fun t => (t.myCluster.lines.map fun y => y.dirty) == [0] && t.hbm.read 0x2000 8 == ⟨0x1234, false⟩) = true ∧
    (sat (exec (.lineinv 12 q0) (sL 0)) fun t => t.myCluster.lines.isEmpty) = true ∧
    (sat (exec (.unpin 12 q0) (sL 0)) fun t => (t.myCluster.lines.map fun y => y.pin) == [none]) = true ∧
    (sat (exec (.pin 6 12 q0) (sL 14)) fun t => t.gReg 6 == ⟨1, false⟩ && ((t.myCluster.findLine 0 0x80).map fun y => y.pin) == some (some 0)) = true ∧
    (sat (exec (.pin 6 12 q0) (sL 15)) fun t => t.gReg 6 == ⟨0, false⟩ && ((t.myCluster.findLine 0 0x80).map fun y => y.pin) == some none) = true :=
  ⟨quiet_of (by decide +kernel), by decide +kernel, by decide +kernel, by decide +kernel, by decide +kernel, by decide +kernel, by decide +kernel,
    by decide +kernel, by decide +kernel⟩

/-! ### Time, tags, guards, packets, remote commands, leases, jobs (06 of the statements) -/

/-- The device at tick 500, TBASE 100; tags 3 and 7 set, tag 7 and 9 with faults; counters at 3 of 5; e1 = 399, e2 = 401. -/
def sT : State :=
  let x := { ctxA with
    g := ((((ctxA.g.set 8 ⟨0x288, false⟩).set 9 ⟨0x88, false⟩).set 10 ⟨0x10, false⟩).set 11 ⟨4, false⟩).set 12 ⟨0x210, false⟩
    e := ((Vector.replicate 8 PWord.zero).set 1 ⟨400, false⟩).set 2 ⟨401, false⟩ }
  let k := coreOf 0 x
  { withCore { k with tags := 0x88, tagerr := 0x280, bind := { k.bind with tbase := 100 }, tlm := ⟨3, 5, []⟩, tlc := ⟨4, 5, []⟩,
                      tlf := ⟨3, 6, [5]⟩, tlv := ⟨2, 2, []⟩ } with time := 500 }
theorem witness_time : (sT.eReg 1).poison = false ∧ 0 ≤ (sT.myNow - ((sT.eReg 1).val + sT.myCore.bind.tbase)).toInt ∧
    (sat (exec (.tnow 5 false) sT) fun t => t.gReg 5 == ⟨400, false⟩) = true ∧ (sat (exec (.tnow 5 true) sT) fun t => t.gReg 5 == ⟨500, false⟩) = true ∧
    (sat (exec (.tnowS 5) sT) fun t => t.gReg 5 == ⟨400, false⟩) = true ∧
    (sat (exec (.twaitu 1 false) sT) fun t => t.me.pc == 0x1004 && t.me.st == .ready) = true ∧
    (sat (exec (.twaitu 2 false) sT) fun t => t.me.st == .waiting) = true := by decide +kernel
/-- g8 names tags 3, 7 and 9, g9 tags 3 and 7, g10 tag 4, g12 tags 4 and 9. -/
theorem witness_tags : Spec.ready sT &&& 0x288 = 0x288 ∧ Spec.ready sT &&& 0x10 = 0 ∧ (Spec.ready sT &&& 0x210) = 0x200 ∧
    (sat (exec (.twany 5 8) sT) fun t => t.gReg 5 == ⟨0x288, false⟩) = true ∧ (sat (exec (.twany 5 0) sT) fun t => t.gReg 5 == ⟨0, false⟩) = true ∧
    (sat (exec (.twall 5 9) sT) fun t => t.gReg 5 == ⟨0x80, false⟩) = true ∧ (sat (exec (.tffr 5 8) sT) fun t => t.gReg 5 == ⟨3, false⟩) = true ∧
    (sat (exec (.tffr 5 12) sT) fun t => t.gReg 5 == ⟨9 + 128, false⟩) = true ∧ (sat (exec (.tffr 5 10) sT) fun t => t.gReg 5 == ⟨64, false⟩) = true ∧
    (sat (exec (.tclr 9) sT) fun t => t.myCore.tags == 0 && t.myCore.tagerr == 0x200) = true := by decide +kernel
theorem witness_tagWaits : sT.me.packet = none ∧ Spec.ready sT &&& 0x210 ≠ 0x210 ∧ (Spec.counter sT .tlm).cnt.toNat < (sT.gReg 11).val.toNat ∧
    ([Instr.twany 5 10, .twall 5 12, .tlwait 11 .tlm, .tlwaitS 11 .tlf].all fun i =>
      sat (exec i sT) fun t => t.me.st == .waiting && t.me.wait == some i && t.gReg 5 == sT.gReg 5) = true := by decide +kernel
theorem witness_timelines : (sT.gReg 11).val.toNat ≤ (Spec.counter sT .tlc).cnt.toNat ∧
    (sat (exec (.tlread 5 false .tlf) sT) fun t => t.gReg 5 == ⟨3, false⟩) = true ∧ (sat (exec (.tlread 5 true .tlf) sT) fun t => t.gReg 5 == ⟨6, false⟩) = true ∧
    ([Instr.tlwait 11 .tlc, .tlwaitS 11 .tlc].all fun i => sat (exec i sT) fun t => t.me.pc == 0x1004) = true := by decide +kernel

/-- Guard slots 1 to 3: unresolved, true, false; a fetch waits on slot 1. -/
def sG : State :=
  let k := coreOf 0 ctxA
  withCore { k with guards := ((k.guards.set 1 .unresolved).set 2 .isTrue).set 3 .isFalse,
                    work := { k.work with rq := [⟨1, none, true, 0, 0, 0, 0, 8, ⟨1, true⟩, 1, false⟩] } }
theorem witness_gset : (sG.pReg 3).poison = true ∧ Spec.guardSlot sG 2 = .isTrue ∧ Spec.guardSlot sG 1 = .unresolved ∧ Spec.guardSlot sG 7 = .free ∧
    (sat (exec (.gset 3 1 true) sG) fun t => t.me.tr.tcause == 0x0A && t.me.tr.tval == 3) = true ∧
    (sat (exec (.gset 1 2 true) sG) fun t => t.me.tr.tcause == 0x11 && t.me.tr.tval == 2) = true ∧
    (sat (exec (.gset 1 1 true) sG) fun t => t.myCore.guards[1] == .isFalse) = true ∧
    (sat (exec (.gset 1 7 false) sG) fun t => t.myCore.guards[7] == .isTrue) = true := by decide +kernel
theorem witness_gclr : sG.pendingOn sG.cur.core 1 = 1 ∧ sG.pendingOn sG.cur.core 2 = 0 ∧
    (sat (exec (.gclr 5 1) sG) fun t => t.me.tr.tcause == 0x11 && t.me.tr.tval == 1) = true ∧
    (sat (exec (.gclr 5 2) sG) fun t => t.gReg 5 == ⟨1, false⟩ && t.myCore.guards[2] == .free) = true ∧
    (sat (exec (.gclr 5 4) sG) fun t => t.gReg 5 == ⟨3, false⟩) = true := by decide +kernel

/-- g8 points into the injection window, whose first flit holds 11 and 12; e1 is a destination word of this device. -/
def injM : Memory := ((Memory.empty.write 32 8 ⟨11, false⟩)).write 40 8 ⟨12, false⟩
def pkC : Ctx :=
  { ctxA with g := (ctxA.g.set 8 ⟨0xFFFFFFFFD020, false⟩).set 9 ⟨0xFFFFFFFFD1F0, false⟩, e := (Vector.replicate 8 PWord.zero).set 1 ⟨0x40000000, false⟩ }
def sP (p : Option OpenPacket) (n : Nat) : State :=
  let k := coreOf 0 { pkC with packet := p }
  withCore { k with inj := injM, work := { k.work with send := List.replicate n ⟨0, 0, 0, none, [], none⟩ } }
def full14 : OpenPacket := ⟨5, none, List.replicate 14 ⟨1, false⟩, 0xFF0, 1⟩
theorem witness_packets : (sP none 0).cur.core < mgmtCore ∧ ((sP none 0).eReg 1).val.toNat / 2 ^ 7 % 2 ^ 23 = 0 ∧
    (sP none 0).peerOk (((sP none 0).eReg 1).val.extractLsb' 48 16) = true ∧ ((sP none 0).gReg 8).val.toNat % 16 = 0 ∧
    ((sP none 0).gReg 8) = ⟨BitVec.ofNat 64 (0xFFFFFFFFD000 + 32), false⟩ ∧ 14 + 2 * ((0 : BitVec 3).toNat + 1) ≤ 16 ∧
    (sat (exec (.pko 8 1 true) (sP none 0)) fun t => t.me.packet == some ⟨0x40000000, some 0xFFFFFFFFD020, [], 0x1000, 0⟩) = true ∧
    (sat (exec (.pka 8 0) (sP (some okPacket) 0)) fun t => (t.me.packet.map (·.flits)) == some [⟨1, false⟩, ⟨11, false⟩, ⟨12, false⟩]) = true ∧
    (sat (exec (.pka 9 0) (sP (some full14) 0)) fun t => (t.me.packet.map (·.flits.length)) == some 16) = true ∧
    (sat (exec .pks (sP (some okPacket) 7)) fun t => t.me.packet == none && t.pReg 1 == ⟨true, false⟩ && t.myCore.work.send.length == 8) = true ∧
    (sat (exec .pks (sP (some okPacket) 8)) fun t => t.pReg 1 == ⟨false, false⟩ && t.myCore.work.send.length == 8) = true := by decide +kernel
theorem witness_packetHold : ((sP (some okPacket) 0).eReg 1).poison = false ∧
    (sat (exec (.pko 8 1 true) (sP (some okPacket) 0)) fun t => t.me.tr.tcause == 0x0F && t.me.tr.tval == 0xFF0) = true ∧
    (sat (exec (.pka 8 0) (sP none 0)) fun t => t.me.tr.tcause == 0x0F && t.me.tr.tval == 0) = true ∧
    (sat (exec .pks (sP none 0)) fun t => t.me.tr.tcause == 0x0F) = true := by decide +kernel
/-- R379: the header of a packet of two flits from peer 3, core 5, at slot 2. -/
def sRx (held : List RxPacket) : State := withCore { coreOf 0 ctxA with rx := ⟨held, 0⟩, faults := [0x77, 0x78] }
def rxP : RxPacket := ⟨3, 5, 2, List.replicate 4 ⟨1, false⟩⟩
theorem witness_receive : rxP.data.length ≤ 16 ∧ (sRx [rxP]).myCore.rx.held = rxP :: [] ∧
    (sat (exec (.rxpeek 5 false) (sRx [rxP])) fun t => t.gReg 5 == ⟨0x80000C0001400202, false⟩ && t.myCore.rx.held.length == 1) = true ∧
    (sat (exec (.rxpop 5 false) (sRx [rxP])) fun t => t.gReg 5 == ⟨0x80000C0001400202, false⟩ && t.myCore.rx.held.isEmpty) = true ∧
    (sat (exec (.rxpeek 5 false) (sRx [])) fun t => t.gReg 5 == ⟨0, false⟩) = true ∧
    (sat (exec (.rxpop 5 true) (sRx [])) fun t => t.gReg 5 == ⟨0x77, false⟩ && t.myCore.faults == [0x78]) = true := by decide +kernel

/-- g8 names HBM, g9 the local store, e0 is zero, e1 a recipient word of FETCHTO: tag 4, this device. -/
def sR : State :=
  mapped (withCtx { ctxA with g := (ctxA.g.set 8 ⟨0x2000, false⟩).set 9 ⟨0xFFFFFFFFE040, false⟩, e := (Vector.replicate 8 PWord.zero).set 1 ⟨0x2000000, false⟩ })
theorem witness_remoteCommands : rwOk true (sR.eReg 1).val = true ∧ rwOk false (sR.eReg 1).val = true ∧
    sR.peerOk ((sR.eReg 1).val.extractLsb' 48 16) = true ∧ sR.reach .load 8 (sR.gReg 8).val = .place (.phys 0x2000 true) ∧
    Spec.lsBase ≤ (sR.gReg 9).val.toNat ∧ sR.myCore.loadsOut < 16 ∧
    (sat (exec (.rld 9 8 1 ⟨1, true⟩ .b64) sR) fun t => (t.myCore.work.rq.map fun r => (r.fetchto, r.n, r.num)) == [(false, 64, 1)] &&
      t.myCore.guards[1] == .unresolved && t.myCore.tlf.issued == 1) = true ∧
    (sat (exec (.fetchto 9 8 1 ⟨0, false⟩ .b256) (sR.putG 9 0x100)) fun t => (t.myCore.work.rq.map fun r => (r.fetchto, r.n, r.num)) == [(true, 256, 1)]) = true := by
  decide +kernel
theorem witness_dropwin :
    let s := withCtx { ctxA with g := ctxA.g.set 8 ⟨0x10000, false⟩, e := (Vector.replicate 8 PWord.zero).set 1 ⟨0x0050000000001000, false⟩ }
    (s.gReg 8).val.toNat % 64 = 0 ∧ (s.eReg 1).val.toNat / 2 ^ 32 % 2 ^ 20 = 0 ∧
    (sat (exec (.dropwin 5 8 1 2) s) fun t => t.gReg 5 == ⟨0, false⟩ && t.myCore.drops[2] == some ⟨0x10000, 0x1000, 5⟩ &&
      sat (exec (.dropwin 5 8 0 2) t) fun u => u.gReg 5 == ⟨0x1000, false⟩ && u.myCore.drops[2] == none) = true := by decide +kernel
/-- Four other cores of the cluster with leases leave no slot (R410: BSLOTS is 4). -/
def sBoost (n : Nat) : State :=
  { sA with cores := sA.cores ++ (List.range n).map fun i => (i + 1, { Core.reset (i + 1) with lease := bitAt 63 ||| 10 }) }
theorem witness_boost : Spec.runs (.boost 5 1 q1) (sBoost 3) ∧
    (sat (exec (.boost 5 1 q1) (sBoost 3)) fun t => t.gReg 5 == ⟨10, false⟩ && t.myCore.lease == 0x800000000000000A) = true ∧
    (sat (exec (.boost 5 4 q0) (sBoost 0)) fun t => t.gReg 5 == ⟨10000, false⟩) = true ∧
    (sat (exec (.boost 5 1 q1) (sBoost 4)) fun t => t.gReg 5 == ⟨0, false⟩ && t.myCore.lease == 0) = true ∧
    (sat (exec (.brel q1) (withCore { coreOf 0 ctxA with lease := 5 })) fun t => t.myCore.lease == 0) = true :=
  ⟨runs_of (by decide), by decide +kernel, by decide +kernel, by decide +kernel, by decide +kernel⟩

/-- Banks in scratch mode; g8 a tile address, e1 a descriptor of V = 2, e2 of V = 2 alone. -/
def jobC : Ctx :=
  { ctxA with count := 4, g := (ctxA.g.set 8 ⟨0xFFFFFFF00080, false⟩).set 9 ⟨0x842, false⟩, e := (Vector.replicate 8 PWord.zero).set 1 ⟨0x20000, false⟩ }
/-- The launch of core 0's task binds all the group's clusters. -/
def sJ (n : Nat) : State :=
  let s := withTask (coreOf 0 jobC)
  { s with clusters := (List.range 8).map fun c => (c, { clusterMap with modes := Vector.replicate 16 .scratch, launches := [(0, 0)] }),
           octets := [(0, { Octet.reset with queue := List.replicate n (jobOf (.mzero 1 0 none ⟨0, false⟩)), next := 7 })] }
def jobInstrs : List Instr :=
  [.mlda 5 8 0 ⟨1, true⟩ false, .mldb 5 8 0 ⟨0, false⟩ true, .mmac 5 2 (some 3) false true ⟨0, false⟩, .mmul 5 2 none false false ⟨0, false⟩,
   .mmr 5 2 none false false ⟨0, false⟩, .mzero 5 3 (some 0) ⟨0, false⟩, .mrda 5 2 1 ⟨0, false⟩ false, .mscl 5 1 (some 0) .rc ⟨0, false⟩,
   .mcfgOwn 5 9 ⟨0, false⟩, .mcfgFree 5 9 ⟨0, false⟩, .mcfgQuery 5 ⟨0, false⟩]
theorem test_matrixJobs : (jobInstrs.all fun i => (Spec.jobForm i (sJ 15)).isSome && (sat (exec i (sJ 15)) fun t =>
      t.gReg 5 == ⟨7, false⟩ && t.pReg 1 == ⟨true, false⟩ && t.myOctet.queue.length == 16 && t.myOctet.next == 8 && t.myCore.tlm.issued == 1) &&
    sat (exec i (sJ 16)) fun t => t.pReg 1 == ⟨false, false⟩ && t.myOctet.queue.length == 16 && t.gReg 5 == sA.gReg 5) = true := by decide +kernel
theorem witness_jobChecks : Spec.jobChecks (.mlda 5 8 0 ⟨1, true⟩ false) (sJ 15) ⟨5, ⟨1, true⟩, 0xFFFFFFF00080, 0⟩ ∧
    Spec.jobChecks (.mmr 5 2 none false false ⟨0, false⟩) (sJ 15) ⟨5, ⟨0, false⟩, 0, 0⟩ ∧
    Spec.jobChecks (.mcfgOwn 5 9 ⟨0, false⟩) (sJ 15) ⟨5, ⟨0, false⟩, 0x842, 0⟩ ∧
    Spec.jobChecks (.mrda 5 2 1 ⟨0, false⟩ false) (sJ 15) ⟨5, ⟨0, false⟩, 0, 0x20000⟩ := by
  simp only [Spec.jobChecks]; decide +kernel
theorem witness_jobStatus :
    let s := withCore { coreOf 0 ctxA with jobs := [⟨5, 3, true⟩, ⟨7, 0, false⟩] }
    ((s.gReg 1).val.extractLsb' 0 16 = 5 ∧ (s.gReg 1).poison = false ∧ ∀ j ∈ s.myCore.jobs, j.no = 5 → j.done = true) ∧
    (∀ j ∈ s.myCore.jobs, j.no ≠ 3) ∧
    (sat (exec (.mjpoll 9 3) s) fun t => t.gReg 9 == ⟨0x0003000000000013, false⟩) = true ∧
    ([Instr.mjwait 1, .mjwaitS 1, .mjwait 0, .mjwait 3].all fun i => sat (exec i s) fun t => t.me.pc == 0x1004) = true ∧
    (sat (exec (.mjwait 2) s) fun t => t.me.st == .waiting) = true := by decide +kernel

/-! ### Vectors (07 of the statements) -/

def sV : State := withCore { coreOf 0 vecC with ls := (Memory.empty.write 64 8 ⟨0x2200000011, false⟩).write 72 8 ⟨0x4400000033, true⟩ }
theorem quiet_sV : Spec.quiet sV := quiet_of (by decide +kernel)
theorem noClaims_sV : Spec.noClaims sV := noClaims_of rfl rfl

/-- With the second octet position holding 8 lanes of 16, and with no grant. -/
def sV2 (l : Lanes) : State := withCore (coreOf 0 { vecC with lanes := l })
theorem witness_vclaim : Spec.runs (.vclaim 5 9 q1) sV ∧ (sV.setMe { sV.me with lanes := ⟨0, 0, false, 0, 0⟩ }).laneFree 0 ≥ 4 ∧
    (sat (exec (.vclaim 5 9 q1) sV) fun t => t.gReg 5 == ⟨8, false⟩ && t.me.lanes == ⟨8, 8, false, 8, 0⟩) = true ∧
    (sat (exec (.vclaim 5 11 q1) sV) fun t => t.gReg 5 == ⟨16, false⟩ && t.me.lanes.vl == 16) = true ∧
    (sat (exec (.vclaim 5 0 q1) sV) fun t => t.gReg 5 == ⟨0, false⟩ && t.me.lanes == ⟨0, 0, false, 0, 0⟩) = true ∧
    (sat (exec (.vclaim 5 1 q1) sV) fun t => t.me.tr.tcause == 0x14 && t.me.tr.tval == 2) = true :=
  ⟨runs_of (by decide), by decide +kernel, by decide +kernel, by decide +kernel, by decide +kernel, by decide +kernel⟩
theorem witness_vrel : (sV2 ⟨0, 0, false, 0, 0⟩).me.lanes.g = 0 ∧ sV.me.lanes.g ≠ 0 ∧ Spec.runs (.vrel q1) sV ∧
    ([Instr.vrel q1, .vrelS].all fun i => (sat (exec i sV) fun t => t.me.lanes == ⟨0, 0, false, 0, 0⟩ && t.me.pc == 0x1004) &&
      sat (exec i (sV2 ⟨0, 0, false, 0, 0⟩)) fun t => t.me.pc == 0x1004) = true := ⟨rfl, by decide, runs_of (by decide), by decide +kernel⟩
theorem witness_vlen : Spec.runs (.vlen 5 2 q1) sV ∧ (sV.gReg 2).poison = false ∧
    (sat (exec (.vlen 5 2 q1) sV) fun t => t.gReg 5 == ⟨7, false⟩ && t.me.lanes.vl == 7) = true ∧
    (sat (exec (.vlen 5 6 q1) sV) fun t => t.gReg 5 == ⟨8, false⟩) = true ∧
    (sat (exec (.vlen 5 2 q1) (sV2 ⟨0, 0, false, 0, 0⟩)) fun t => t.me.tr.tcause == 0x14 && t.me.tr.tval == 1) = true :=
  ⟨runs_of (by decide), rfl, by decide +kernel, by decide +kernel, by decide +kernel⟩
theorem witness_laneRule : min sV.me.count 16 ≤ (4 : VRegN).val ∧ Spec.runs (.vadd 4 0 1 .wrap q0) sV ∧
    (sat (exec (.vadd 4 0 1 .wrap q0) sV) fun t => t.me.tr.tcause == 0x14 && t.me.tr.tval == 0x104) = true ∧
    (sat (exec (.vadd 0 1 5 .wrap q0) sV) fun t => t.me.tr.tcause == 0x14 && t.me.tr.tval == 0x105) = true ∧
    (sat (exec (.vexp 0 0 q0) (sV2 ⟨0, 0, false, 0, 0⟩)) fun t => t.me.tr.tcause == 0x14 && t.me.tr.tval == 1) = true :=
  ⟨by decide, runs_of (by decide), by decide +kernel, by decide +kernel, by decide +kernel⟩

/-- Vector instructions, their first two elements by hand, and their flags. -/
def vecCases : List (Instr × List Nat × Nat) :=
  [(.vadd 0 0 1 .wrap q0, [12, 1], 0), (.vadd 0 0 1 .su q0, [12, 0xFFFFFFFF], 0), (.vsub 0 0 1 .ss q0, [0xFFFFFFFE, 0xFFFFFFFD], 0),
   (.vsub 0 0 1 .su q0, [0, 0xFFFFFFFD], 0), (.vmul 0 0 1 .low q0, [35, 0xFFFFFFFE], 0), (.vmul 0 0 1 .h q0, [0, 0xFFFFFFFF], 0),
   (.vmul 0 0 1 .hu q0, [0, 1], 0), (.vmin 0 0 1 false q0, [5, 0xFFFFFFFF], 0), (.vmin 0 0 1 true q0, [5, 2], 0),
   (.vmax 0 0 1 false q0, [7, 2], 0), (.vand 0 0 1 q0, [5, 2], 0), (.vor 0 0 1 q0, [7, 0xFFFFFFFF], 0), (.vxor 0 0 1 q0, [2, 0xFFFFFFFD], 0),
   (.vshl 0 0 1 q0, [640, 0xFFFFFFFC], 0), (.vshr 0 0 1 false q0, [0, 0xFFFFFFFF], 0), (.vshr 0 0 1 true q0, [0, 0x3FFFFFFF], 0)]
def vecCases2 : List (Instr × List Nat × Nat) :=
  [(.vfadd 0 2 3 .f32 .none q0, [0x40400000, 0x40800000], 0), (.vfsub 0 2 3 .f32 .none q0, [0xBF800000, 0], 0),
   (.vfmul 0 2 3 .f32 .none q0, [0x40000000, 0x40800000], 0), (.vfma 2 2 3 .f32 .none q0, [0x40400000, 0x40C00000], 0),
   (.vfmax 0 2 3 .f32 q0, [0x40000000, 0x40000000], 0), (.vfmin 0 2 3 .f32 q0, [0x3F800000, 0x40000000], 0),
   (.vfabs 0 3 .f32 q0, [0x40000000, 0x40000000, 0x40000000], 0), (.vfneg 0 2 .f32 q0, [0xBF800000, 0xC0000000], 0),
   (.vrcp 0 2 q0, [0x3F800000, 0x3F000000, 0x3E800000], 0), (.vrsq 0 2 q0, [0x3F800000, 0x3F3504F3, 0x3F000000], 1),
   (.vexp 0 1 q0, [0x3F800000, 0x3F800000], 1), (.vlog 0 2 q0, [0, 0x3F317218, 0x3FB17218], 1), (.vsig 0 1 q0, [0x3F000000, 0x3F000000], 1),
   (.vtanh 0 1 q0, [7, 2], 3),
   (.vcmp 0 2 3 (.f32 .lt) q0, [0xFFFFFFFF, 0, 0], 0), (.vcmp 0 0 1 (.i32 .ltu) q0, [0xFFFFFFFF, 0], 0), (.vsel 0 2 3 q0, [0x3F800000, 0x40000000, 0x40800000], 0),
   (.vperm 0 2 0 q0, [0, 0, 0], 0), (.vbcast 0 2 q0, [7, 7, 7], 0), (.vbcastE 0 2 2 q0, [0x40800000, 0x40800000], 0),
   (.vslideUp 0 2 10 q0, [0, 0x3F800000, 0x40000000], 0), (.vslideDn 0 2 10 q0, [0x40000000, 0x40800000, 0], 0),
   (.vrsum 2 0 .i32 q0, [0x80000003, 0x80000003, 0x80000003], 0), (.vrsum 0 2 (.f32 .none) q0, [0x40E00000, 0x40E00000], 0),
   (.vrmax 2 0 true q0, [0x7FFFFFFF, 0x7FFFFFFF], 0), (.vrmax 0 3 false q0, [0x40000000, 0x40000000], 0),
   (.vcvt 0 2 .none .i32F32 q0, [1, 2, 4], 0), (.vcvt 0 2 .none .bf16F32 q0, [0x3F80, 0x4000], 0),
   (.vlcvt 0 2 .li16F32 q0, [0x800, 0xD8C, 0x129D], 1), (.vladd 0 0 0 .li16 q0, [0x5C1D], 0x21), (.vlmul 0 0 0 .li16 q0, [0x5F4A], 0x61)]
def vecOk (e : Instr × List Nat × Nat) : Bool :=
  runsB e.1 sV && (match Spec.vecForm e.1 with | some (_, rs) => rs.all (fun r => decide (r.val < 4)) | none => false) &&
    sat (exec e.1 sV) fun t => match Spec.vecForm e.1 with
      | some (d, _) => els t.me.v[d] e.2.1.length == e.2.1 && t.me.nflags == BitVec.ofNat 64 e.2.2 && t.me.pc == 0x1004 &&
          (Spec.el t.me.v[d] 3).toNat == (Spec.el sV.me.v[d] 3).toNat
      | none => false
theorem test_vectorIntegers : (vecCases.all vecOk) = true := by decide +kernel
/-- The third element of v1 is poisoned, and with it its unit; the element above VL keeps its value. -/
theorem test_vectorPoison : sat (exec (.vadd 0 0 1 .wrap q0) sV) (fun t => t.me.v[0] == vOf [12, 1, 0, 44] 2) = true := by decide +kernel
theorem test_vectorNumbers : (vecCases2.all vecOk) = true := by decide +kernel

/-- The tree of R77 over the three elements of v3, of which the greatest is 2.0; and a reduction of a poisoned one. -/
theorem witness_reducesTo : Spec.reducesTo (fun x y z h => Spec.minmaxCase true .f32 x y z h) 3 (fun k => (Spec.el sV.me.v[3] k).toNat) 0x40000000 0 := by
  refine ⟨fun k i => if i = 0 then 0x40000000 else (Spec.el sV.me.v[3] i).toNat, fun _ _ => 0, ?_, ?_, rfl, rfl⟩
  · intro i hi
    rcases i with _ | _ | _ | i
    · decide +kernel
    · decide +kernel
    · decide +kernel
    · omega
  · intro k i hk hi hm
    have h : (k = 0 ∧ (i = 0 ∨ i = 2)) ∨ (k = 1 ∧ i = 0) ∨ (k = 2 ∧ i = 0) ∨ (k = 3 ∧ i = 0) := by
      have : k = 0 ∨ k = 1 ∨ k = 2 ∨ k = 3 := by omega
      rcases this with rfl | rfl | rfl | rfl <;> simp at hm ⊢ <;> omega
    rcases h with ⟨rfl, rfl | rfl⟩ | ⟨rfl, rfl⟩ | ⟨rfl, rfl⟩ | ⟨rfl, rfl⟩
    · exact ⟨0, by unfold Spec.minmaxCase; decide +kernel, rfl⟩
    · exact ⟨rfl, rfl⟩
    · exact ⟨0, by unfold Spec.minmaxCase; decide +kernel, rfl⟩
    · exact ⟨rfl, rfl⟩
    · exact ⟨rfl, rfl⟩
theorem witness_floatReductions : Spec.runs (.vrsum 0 3 (.f32 .none) q0) sV ∧ Spec.lanesFor sV [0, 3] ∧
    (0 < sV.me.lanes.vl ∧ sV.me.lanes.vl ≤ 16) ∧ (∀ k, k < 3 → Spec.tainted sV.me.v[3] k = false) ∧ Spec.tainted sV.me.v[1] 2 = true ∧
    ([Instr.vrsum 0 1 (.f32 .none) q0, .vrmax 0 1 false q0].all fun i => sat (exec i sV) fun t =>
      (List.range 3).all fun k => Spec.tainted t.me.v[0] k) = true :=
  ⟨runs_of (by decide), by unfold Spec.lanesFor; decide, by decide, by decide +kernel, by decide +kernel, by decide +kernel⟩

/-- Elements of v0 as integers for gathers and scatters: units 0, 1 and 1 again. -/
def sVM : State := withCore { coreOf 0 { vecC with v := vecC.v.set 1 (vOf [1, 0, 1] 0) } with ls := (sV.core 0).ls }
def offs (l : List Nat) (k : Nat) : Nat := l.getD k 0
def vecLoadCases : List (Instr × List Nat × List Nat × Nat) :=
  [(.vld 2 8 .core .plain 0, [64, 68, 72], [0x11, 0x22, 0x33], 2), (.vlds 2 8 .core .plain 9, [64, 72, 80], [0x11, 0x33, 0], 1),
   (.vgath 2 8 .core .plain 1, [68, 64, 68], [0x22, 0x11, 0x22], 0)]
theorem test_vectorLoads : (vecLoadCases.all fun e => (Spec.vecLoad e.1 sVM (offs e.2.1)).isSome && sat (exec e.1 sVM) fun t =>
    els t.me.v[2] 4 == e.2.2.1 ++ [99] && t.me.v[2].poison == BitVec.ofNat 8 e.2.2.2 && t.myCore.tlv.cnt == 1) = true := by decide +kernel
def vecStoreCases : List (Instr × List Nat × List Nat) :=
  [(.vst 2 8 .core .plain 0, [64, 68, 72], [0x3F800000, 0x40000000, 0x40800000]),
   (.vsts 2 8 .core .plain 9, [64, 72, 80], [0x3F800000, 0x40000000, 0x40800000]),
   (.vscat 2 8 .core .plain 1, [68, 64, 68], [0x40800000, 0x40000000, 0x40800000])]
theorem test_vectorStores : (vecStoreCases.all fun e => (Spec.vecStore e.1 sVM (offs e.2.1)).isSome && sat (exec e.1 sVM) fun t =>
    ((e.2.1.map fun a => Spec.bytes (t.core 0).ls a 4) == e.2.2) && t.myCore.tlv.issued == 1 && (t.core 0).ls.wf) = true := by decide +kernel
theorem witness_vectorMemory : Spec.quiet sVM ∧ Spec.vecOwn sVM (offs [68, 64, 68]) ∧ Spec.lanesFor sVM [2, 1] ∧ sVM.myCore.ls.wf = true ∧
    (∀ k, k < sVM.me.lanes.vl → Spec.tainted sVM.me.v[2] k = false) ∧ sVM.me.packet = none :=
  ⟨quiet_of (by decide +kernel), by unfold Spec.vecOwn; decide +kernel, by unfold Spec.lanesFor; decide +kernel, by decide +kernel,
    by decide +kernel, rfl⟩
/-- R239: with a VL of 0. -/
theorem witness_vectorOfNothing : Spec.lanesFor (sV2 ⟨8, 8, false, 0, 0⟩) [2, 1] ∧ Spec.runs (.vexp 2 1 q1) (sV2 ⟨8, 8, false, 0, 0⟩) ∧
    ([Instr.vexp 2 1 q1, .vgath 2 8 .core .plain 1, .vst 2 8 .core .plain 0].all fun i => sat (exec i (sV2 ⟨8, 8, false, 0, 0⟩)) fun t =>
      t.me.v == vecC.v && t.me.nflags == 0 && t.me.pc == 0x1004) = true :=
  ⟨by unfold Spec.lanesFor; decide +kernel, runs_of (by decide), by decide +kernel⟩

/-! ### Waits that end, interrupts, stops, grants (08 of the statements) -/

/-- Tags as in the tag tests, events 0, 2 and 4 latched, helper 2 ended, job 4 done; the context inside `i`. -/
def waitC : Ctx :=
  { ctxA with evpend := 0x15, g := (((ctxA.g.set 8 ⟨0x288, false⟩).set 9 ⟨0x88, false⟩).set 10 ⟨2, false⟩).set 11 ⟨4, false⟩ }
def sW (i : Instr) : State :=
  at0 (withCore { core12 (inside waitC i) Ctx.reset { readyC with st := .ended, nflags := 5 } with
    tags := 0x88, tagerr := 0x280, tlc := ⟨4, 5, []⟩, jobs := [⟨4, 3, true⟩] })
def insideB (s : State) (i : Instr) : Bool := (s.ctx s.ev.core s.ev.ctx).st == .waiting && (s.ctx s.ev.core s.ev.ctx).wait == some i
theorem witness_waits :
    insideB (sW (.sleep 1)) (.sleep 1) = true ∧ (Spec.woken (sW (.join 10))).gReg 10 = ⟨BitVec.ofNat 64 (2 : CtxId).val, false⟩ ∧
    ((Spec.woken (sW (.join 10))).myCore.ctx 2).st = .ended ∧ (Spec.woken (sW .aflush)).myCluster.merges = [] ∧
    (sat (exec .sleepExpire (sW (.sleep 1))) fun t => t.me.st == .ready && t.me.pc == 0x1004) = true ∧
    (let s := sW (.sleep 1)
     match exec .sleepExpire (s.setCtx 0 0 { s.ctx 0 0 with due := s.time + 1 }) with | .refused .eventDisabled => true | _ => false) = true ∧
    (sat (exec .hintAlignRelease (sW (.hint 3 5))) fun t => t.me.st == .ready && t.me.pc == 0x1004) = true ∧
    (sat (exec .joinComplete (sW (.join 10))) fun t => (t.ctx 0 2).st == .free && t.me.nflags == 5) = true ∧
    (sat (exec .joinComplete (sW (.joinS 1))) fun t => t.me.pc == 0x1004) = true ∧
    (sat (exec .waitevWake (sW (.waitev 2 6))) fun t => t.gReg 2 == ⟨4, false⟩ && t.me.evpend == 0x11) = true ∧
    (sat (exec .twaituWake (sW (.twaitu 1 true))) fun t => t.me.pc == 0x1004) = true ∧
    ([Instr.tlwait 11 .tlc, .tlwaitS 11 .tlc].all fun i => sat (exec .tlwaitWake (sW i)) fun t => t.me.pc == 0x1004) = true ∧
    ([Instr.mjwait 11, .mjwaitS 11].all fun i => sat (exec .mjwaitWake (sW i)) fun t => t.me.pc == 0x1004) = true ∧
    (sat (exec .twanyWake (sW (.twany 5 8))) fun t => t.gReg 5 == ⟨0x288, false⟩) = true ∧
    (sat (exec .twallWake (sW (.twall 5 9))) fun t => t.gReg 5 == ⟨0x80, false⟩) = true ∧
    (sat (exec .aflushComplete (sW .aflush)) fun t => t.me.pc == 0x1004) = true := by decide +kernel

/-- R104: ALARM reached and IPEND.TAGF set, with both enabled: the lowest number is taken. -/
def sI (ien : Word) : State := at0 { withCore { coreOf 0 { ctxA with ien := ien, ipend := 2, alarm := 400 } with tagerr := 0x80 } with time := 500 }
def sIm : State :=
  { sB with cores := [(mgmtCore, coreOf mgmtCore { ctxA with tr := { ctxA.tr with priv := 1 }, npc := none, nnpc := none, alarm := 400, ipend := 1 })], time := 500,
            mgmt := { Mgmt.reset with mie := true, mien := 16, mvec := 0x401, halted := true }, ev := { Ev.none with core := mgmtCore } }
theorem witness_interrupts : (sI 3).ctx 0 0 = { ctxA with ien := 3, ipend := 2, alarm := 400 } ∧ 0 ≤ ((sI 3).now 0 - ((sI 3).ctx 0 0).alarm).toInt ∧
    ((sI 3).core 0).stop = none ∧ ((3 : Word) &&& 3).getLsbD 0 = true ∧ ((2 : Word) &&& 3).getLsbD 1 = true ∧
    (sat (exec .interruptTake (sI 3)) fun t => (t.ctx 0 0).tr.tcause == 0x8000000000000000 && (t.ctx 0 0).tr.tval == 400) = true ∧
    (sat (exec .interruptTake (sI 2)) fun t => (t.ctx 0 0).tr.tcause == 0x8000000000000001 && (t.ctx 0 0).tr.tval == 0x80 &&
      (t.ctx 0 0).pc == 0x8000) = true ∧
    (sIm.mgmt.mien &&& sIm.mipend (sIm.ctx mgmtCore 0)).getLsbD 4 = true ∧ sIm.mgmt.mie = true ∧
    (sat (exec .mgmtInterruptTake sIm) fun t => t.mgmt.mcause == 0x8000000000000004 && !t.mgmt.halted && t.mgmt.mpp == 1 &&
      (t.ctx mgmtCore 0).pc == 0x400) = true ∧
    (sat (exec .alarmReached (sI 3)) fun t => (t.ctx 0 0).ipend == 3) = true := by decide +kernel
theorem witness_contextStop :
    let s := at0 (withCore { coreOf 0 ctxA with stop := some .displace })
    ((s.core 0).stop.isSome = true ∧ (s.core 0).ls.wf = true ∧ (s.ctx 0 0).pend = []) ∧
    (sat (exec .contextStop s) fun t => (t.ctx 0 0).st == .stopped && (t.core 0).ls.read 0x1800 8 == ⟨5, false⟩ &&
      (t.core 0).ls.read (0x1800 + 8 * 6) 8 == ⟨9, true⟩ && ((t.core 0).ls.read 0x1FE8 8).val.getLsbD 0 &&
      (t.ctx 0 0).g == ctxA.g) = true := by decide +kernel

/-- A claim of 7 registers at the head of its queue, of 16 lanes with 24 free, and a bank that drains. -/
def sClaim : State :=
  at0 (withCore { coreOf 0 (inside { ctxA with npc := none, nnpc := none } (.claim 6 2 q1)) with poolQ := [(0, 7)] })
theorem witness_poolGrant : (sClaim.core 0).poolQ = [((0 : CtxId), 7)] ∧ 7 ≤ (sClaim.core 0).poolFree ∧ (∀ o, (sClaim.octet o).laneQ = []) ∧
    (sat (exec .poolGrant sClaim) fun t => (t.ctx 0 0).count == 7 && (t.core 0).poolQ.isEmpty && (t.ctx 0 0).st == .ready) = true :=
  ⟨rfl, by decide +kernel, fun o => by simp [sClaim, at0, withCore, State.reset, State.octet, Table.find, Octet.reset], by decide +kernel⟩
def laneClaim : LaneClaim := ⟨0, 0, 16, 0⟩
def sLanes : State :=
  let s := withCore (core12 (inside ctxA (.vclaim 6 2 q1)) { readyC with lanes := ⟨8, 8, false, 8, 0⟩ } Ctx.reset)
  { s with octets := [(0, { Octet.reset with laneQ := [laneClaim] })] }
theorem witness_laneGrant : (sLanes.octet 0).laneQ = [laneClaim] ∧ octetOf laneClaim.core = 0 ∧ 4 ≤ sLanes.laneFree 0 ∧
    (sLanes.ctx 0 0).loops = Vector.replicate 3 ⟨0, 0, 0⟩ ∧ (sLanes.ctx 0 0).wait = some (.vclaim 6 2 q1) ∧
    (sat (exec .laneGrant sLanes) fun t => (t.ctx 0 0).lanes == ⟨16, 16, false, 16, 0⟩ &&
      (t.octet 0).laneQ.isEmpty) = true := by decide +kernel
def sDrain : State := at0 (withCore (coreOf 0 (inside { ctxA with g := ctxA.g.set 13 ⟨1, false⟩ } (.bankmode 9 1 13 q0))))
theorem witness_bankDrain : insideB sDrain (.bankmode 9 1 13 q0) = true ∧ Spec.quiet (Spec.woken sDrain) ∧ Spec.runs (.bankmode 9 1 13 q0) (Spec.woken sDrain) ∧
    sDrain.bankInUse 0 5 = false ∧ (Spec.woken sDrain).bankInUse 0 5 = false ∧ (sDrain.fifo 0 5).waiters = [] ∧
    (sat (exec .bankDrainComplete sDrain) fun t => (t.cluster 0).mode 5 == .scratch && t.gReg 9 == ⟨0, false⟩) = true :=
  ⟨by decide +kernel, quiet_of (by decide +kernel), runs_of (by decide), by decide +kernel, by decide +kernel, rfl, by decide +kernel⟩

/-! ### Accesses at their places, replies, time (09 of the statements) -/

/-- HBM holds 5 at 0x2000 and 0x80000001 at 0x2008, at tick 1000; its home has applied this tick's stores. -/
def hbm5 : Memory := (Memory.empty.write 0x2000 8 ⟨5, false⟩).write 0x2008 8 ⟨0x80000001, false⟩
def homeOf : Nat := sliceOfPa 0x2000
def sHome (k : Core) (sl : Slice) : State :=
  { withCore k with hbm := hbm5, time := 1000, slices := [(homeOf, { sl with applied := some 1000 })], clusters := [(0, clusterMap)],
                    ev := { Ev.none with core := 0, idx := 7, unit := homeOf } }
def pendC : Ctx := { ctxA with pend := [(.g 5, 7)] }
def withLoad (e : LoadEntry) : Core := let k := coreOf 0 pendC; { k with work := { k.work with loads := [e] } }
def loadE : LoadEntry := ⟨7, 0, .g 5, .phys 0x2008 true, 4, true, none, .plain, none, false⟩
def oneLoadB (s : State) (e : LoadEntry) : Bool :=
  (s.core 0).work.loads == [e] && (s.core 0).work.port.isEmpty && (s.core 0).work.vecs.isEmpty && e.id == s.ev.idx && !s.ev.ok
theorem witness_atHome : Spec.atHome (sHome (withLoad loadE) Slice.reset) 0x2008 4 ∧ Spec.clear (sHome (withLoad loadE) Slice.reset) 0 ∧
    oneLoadB (sHome (withLoad loadE) Slice.reset) loadE = true ∧ (RegName.g 5, 7) ∈ ((sHome (withLoad loadE) Slice.reset).ctx 0 0).pend :=
  ⟨⟨by decide, .inr (.inr (.inl rfl)), by decide, rfl, by decide +kernel, by decide +kernel⟩, ⟨rfl, rfl, by unfold Spec.noCopies; decide +kernel, by decide +kernel⟩,
    by decide +kernel, by decide +kernel⟩

/-- A store of the next tick's queue: named for this tick, and for the next. -/
def due (t : Word) : TqEntry := ⟨3, 0x2000, .timed, 8, ⟨77, false⟩, some t, none, none, 990, [], ⟨0, 0, 0, 0⟩, false⟩
def sDue (t : Word) : State := { sHome (coreOf 0 ctxA) Slice.reset with slices := [(homeOf, { Slice.reset with tq := [due t] })] }
def sShadow : State := sHome (coreOf 0 ctxA) { Slice.reset with shadow := [⟨0x400, 744, ⟨1, false⟩⟩, ⟨0x400, 745, ⟨2, false⟩⟩] }
theorem witness_time_moves :
    let s := sDue 1000
    ((s.slice s.ev.unit).applied ≠ some s.time ∧ sliceOfPa 0x2000 = s.ev.unit ∧ s.hbm.wf = true) ∧
    (sat (exec .tick { s with ev := { s.ev with ok := true } }) fun t => (t.core 0).lead && t.time == 1000) = true ∧
    (sat (exec .tick { s with cores := s.cores.map fun e => (e.1, { e.2 with lead := true }) }) fun t => !(t.core 0).lead && t.time == 1001) = true ∧
    (sat (exec .homeTickApply s) fun t => t.hbm.read 0x2000 8 == ⟨77, false⟩ && (t.slice homeOf).tq.isEmpty && (t.slice homeOf).applied == some 1000 &&
      (t.slice homeOf).shadow == [⟨0x400, 1000, ⟨5, false⟩⟩]) = true ∧
    (sat (exec .homeTickApply (sDue 1001)) fun t => t.hbm.read 0x2000 8 == ⟨5, false⟩ && (t.slice homeOf).tq.length == 1) = true ∧
    (sat (exec .shadowEntryDiscard sShadow) fun t => ((t.slice homeOf).shadow.map (·.tick)) == [745]) = true := by decide +kernel

/-- A vector load of two elements, both read, and a vector store with nothing left in the port. -/
def vecE (load : Bool) : VecEntry := ⟨7, 1, 0, load, 2, [some (.ls 0 64), none], [some ⟨9, false⟩, some ⟨0, true⟩], none⟩
def sVec (load : Bool) : State :=
  let k := coreOf 0 { ctxA with count := 4, pend := [(.v 2, 7)] }
  sHome { k with work := { k.work with vecs := [vecE load] }, tlv := ⟨0, 1, []⟩ } Slice.reset
theorem witness_repliesLand :
    (oneLoadB (sHome (withLoad { loadE with reply := some ⟨9, false⟩, stale := true }) Slice.reset) { loadE with reply := some ⟨9, false⟩, stale := true } = true) ∧
    ([Instr.loadReplyLand, .heldAccessRelease].all fun i =>
      (sat (exec i (sHome (withLoad { loadE with reply := some ⟨9, false⟩, stale := true }) Slice.reset)) fun t =>
        t.gReg 5 == ⟨9, false⟩ && t.me.tstat == 2 && (t.core 0).work.loads.isEmpty) &&
      sat (exec i (sHome (withLoad loadE) Slice.reset)) fun t => t.gReg 5 == ⟨0xFFFFFFFF80000001, false⟩ && (t.core 0).work.loads.isEmpty) = true ∧
    ((sVec true).core 0).work.vecs = [vecE true] ∧ (RegName.v 2, 7) ∈ ((sVec true).ctx 0 0).pend ∧
    (sat (exec .vectorMemoryComplete (sVec true)) fun t => els (t.ctx 0 0).v[2] 2 == [9, 0] && (t.ctx 0 0).v[2].poison == 1 &&
      (t.core 0).tlv.cnt == 1 && (t.core 0).work.vecs.isEmpty) = true ∧
    (sat (exec .vectorMemoryComplete (sVec false)) fun t => (t.core 0).tlv.cnt == 1 && (t.core 0).work.vecs.isEmpty) = true := by decide +kernel

/-- A timed load of the unit that was 3 before tick 950. -/
def timedE (t : Word) : LoadEntry := ⟨7, 0, .g 5, .phys 0x2000 true, 8, false, none, .timed t, none, false⟩
def shadow1 : ShadowEntry := ⟨0x400, 950, ⟨3, false⟩⟩
def sTld (t : Word) (sh : List ShadowEntry) : State := sHome (withLoad (timedE t)) { Slice.reset with shadow := sh }
def amoE (n : Nat) : LoadEntry := ⟨7, 0, .g 5, .phys 0x2008 true, n, false, none, .atom .add ⟨0x7FFFFFFF, false⟩, none, false⟩
def replyIs (t : State) (v : PWord) (stale : Bool) : Bool := ((t.core 0).work.loads.map fun e => (e.reply, e.stale)) == [(some v, stale)]
theorem witness_homesAnswer : oneLoadB (sTld 900 []) (timedE 900) = true ∧
    (sat (exec .tldServe (sTld 1000 [])) fun t => ((t.core 0).work.loads.map (·.kind)) == [.timedWait 1000]) = true ∧
    (sat (exec .tldServe (sTld 743 [])) fun t => replyIs t ⟨5, false⟩ true) = true ∧
    (sat (exec .tldServe (sTld 744 [])) fun t => replyIs t ⟨5, false⟩ false) = true ∧
    (sat (exec .tldServe (sTld 949 [shadow1])) fun t => replyIs t ⟨3, false⟩ false) = true ∧
    (sat (exec .tldServe (sTld 950 [shadow1])) fun t => replyIs t ⟨5, false⟩ false) = true ∧
    (sat (exec .atomicAtHome (sHome (withLoad (amoE 4)) Slice.reset)) fun t => replyIs t ⟨0xFFFFFFFF80000001, false⟩ false &&
      t.hbm.read 0x2008 8 == ⟨0, false⟩) = true ∧
    (sat (exec .atomicAtHome (sHome (withLoad (amoE 8)) Slice.reset)) fun t => replyIs t ⟨0x80000001, false⟩ false &&
      t.hbm.read 0x2008 8 == ⟨0x100000000, false⟩) = true := by decide +kernel

/-- A store of 3 of 4 bytes in the port; a timed store. -/
def portE (k : PortKind) (n : Nat) (r : Option Word) : PortEntry := ⟨7, 0, .phys 0x2000 true, n, ⟨3, false⟩, k, r, false, none, none, 0⟩
def portCore (c : CoreId) (e : PortEntry) : Core := let k := coreOf c ctxA; { k with work := { k.work with port := [e] } }
def sPort (c : CoreId) (e : PortEntry) (sl : Slice) : State :=
  let s := sHome (coreOf 0 ctxA) sl
  { s with cores := [(c, portCore c e)], cur := ⟨c, 0⟩, ev := { Ev.none with core := c, idx := 7, unit := homeOf } }
def fullTq : Slice := { Slice.reset with tq := List.replicate 4096 (due 5000) }
theorem witness_storesArrive : Spec.atHome (sPort 0 (portE .plain 4 none) Slice.reset) 0x2000 4 ∧ Spec.clear (sPort mgmtCore (portE .plain 4 none) Slice.reset) mgmtCore ∧
    (sat (exec .plainStoreArrive (sPort mgmtCore (portE .plain 4 none) Slice.reset)) fun t => t.hbm.read 0x2000 8 == ⟨3, false⟩ && (t.core mgmtCore).work.port.isEmpty) = true ∧
    (sat (exec .heldAccessRelease (sPort mgmtCore (portE .plain 4 none) Slice.reset)) fun t => t.hbm.read 0x2000 8 == ⟨3, false⟩) = true ∧
    (sat (exec .plainStoreArrive (sPort 0 (portE .plain 4 none) Slice.reset)) fun t =>
      ((t.cluster 0).lines.map fun l => (l.line, l.dirty, l.data)) == [(0x80, 0xF, 3)] && t.hbm == hbm5) = true ∧
    (sat (exec .timedStoreArrive (sPort 0 (portE (.timed 1001) 8 none) Slice.reset)) fun t =>
      ((t.slice homeOf).tq.map fun q => (q.pa, q.val, q.instant)) == [(0x2000, ⟨3, false⟩, some 1001)] && t.hbm == hbm5) = true ∧
    (sat (exec .timedStoreArrive (sPort 0 (portE (.timed 999) 8 none) Slice.reset)) fun t => t.hbm.read 0x2000 8 == ⟨3, false⟩ &&
      ((Table.find (t.slice homeOf).husk 0).map fun l => l.take 3) == some [0x2000, 999, 1000]) = true ∧
    (sat (exec .storeRetry (sPort 0 (portE (.timed 999) 8 (some 996)) Slice.reset)) fun t => t.hbm.read 0x2000 8 == ⟨3, false⟩ && (t.core 0).work.port.isEmpty) = true ∧
    4096 ≤ ((sPort 0 (portE (.timed 1001) 8 none) fullTq).slice homeOf).tq.length ∧
    (sat (exec .timedStoreArrive (sPort 0 (portE (.timed 1001) 8 none) fullTq)) fun t => ((t.core 0).work.port.map fun e => (e.refused, e.retried)) == [(some 1000, true)]) = true :=
  ⟨⟨by decide, .inr (.inr (.inl rfl)), by decide, rfl, by decide +kernel, by decide +kernel⟩, ⟨rfl, rfl, by unfold Spec.noCopies; decide +kernel, by decide +kernel⟩,
    by decide +kernel, by decide +kernel, by decide +kernel, by decide +kernel, by decide +kernel, by decide +kernel, by decide +kernel, by decide +kernel⟩

/-- Acknowledgements of a late and of a dropped store; a dirty unit on its way; a merge of 7. -/
def sAck (late drop retry : Bool) : State :=
  { at0 (withCtx { ctxA with tstat := 0x0000FFFE00000000 }) with fabric := [(0, .tstAck none 0 0 0 late drop retry)] }
def sWb : State :=
  let s := sHome (coreOf 0 ctxA) Slice.reset
  { s with clusters := [(0, { clusterMap with wbs := [⟨7, { line80 with dirty := 0xFF00, data := 0xAB00000000000000000 }⟩],
                                              merges := [⟨7, .phys 0x2000 true, .add, 8, ⟨7, false⟩, 1⟩] })], ev := { s.ev with unit := 0 },
           slices := [(homeOf, { Slice.reset with applied := some 1000 })] }
def sMerge : State := { sWb with clusters := [(0, { clusterMap with merges := [⟨7, .phys 0x2000 true, .add, 8, ⟨7, false⟩, 1⟩] })] }
theorem witness_homesWritten : ((sAck true false false).ctx ((sAck true false false).physOf 0) 0).live = true ∧
    (sat (exec .timedStoreAck (sAck true false false)) fun t => t.me.ipend == 4 && t.me.tstat == 0x0000FFFF00000001 && t.fabric.isEmpty) = true ∧
    (sat (exec .timedStoreAck (sAck false true true)) fun t => t.me.ipend == 0 && t.me.tstat == 0x0000FFFE0000000C) = true ∧
    Spec.atHome sWb (64 * 0x80) 8 ∧
    (sat (exec .writebackArrive sWb) fun t => (t.cluster 0).wbs.isEmpty && t.hbm.read 0x2000 8 == ⟨5, false⟩ && t.hbm.read 0x2008 8 == ⟨0xAB0, false⟩) = true ∧
    Spec.atHome sMerge 0x2000 8 ∧
    (sat (exec .mergeArrive sMerge) fun t => (t.cluster 0).merges.isEmpty && t.hbm.read 0x2000 8 == ⟨12, false⟩) = true :=
  ⟨by decide +kernel, by decide +kernel, by decide +kernel,
    ⟨by decide, .inr (.inr (.inr rfl)), by decide, rfl, by decide +kernel, by decide +kernel⟩, by decide +kernel,
    ⟨by decide, .inr (.inr (.inr rfl)), by decide, rfl, by decide +kernel, by decide +kernel⟩, by decide +kernel⟩

/-- A push of g1 and a pull into g5 wait at bank 3. -/
def sFifo (push : Bool) : State :=
  let i : Instr := if push then .std 1 8 .core .plain 0 else .ldd 5 8 .core .plain 128
  let s := withCore (coreOf 0 (inside { ctxA with g := ctxA.g.set 8 ⟨0xFFFFFFF03000, false⟩ } i))
  { s with clusters := [(0, { (Cluster.reset.setMode 3 .fifo) with fifos := [(3, ⟨[⟨21, false⟩, ⟨22, false⟩], 2, [⟨0, 0, push, 1⟩]⟩)] })],
           ev := { Ev.none with unit := 0, idx := 3, ok := push } }
theorem witness_fifo : (sFifo true).specTask 0 = none ∧ Spec.quiet (Spec.woken (sFifo true)) ∧
    (Spec.woken (sFifo true)).reach .store 8 0xFFFFFFF03000 = .place (.sram 0 (4096 * 3)) ∧
    (Spec.woken (sFifo false)).reach .load 8 0xFFFFFFF03400 = .place (.sram 0 (4096 * 3 + 0x400)) ∧
    ([Instr.fifoPush, .fifoWaitComplete].all fun i => sat (exec i (sFifo true)) fun t => (t.fifo 0 3).ents == [⟨21, false⟩, ⟨22, false⟩, ⟨5, false⟩] &&
      (t.fifo 0 3).waiters.isEmpty && t.me.st == .ready) = true ∧
    ([Instr.fifoPull, .fifoWaitComplete].all fun i => sat (exec i (sFifo false)) fun t => (t.fifo 0 3).ents == [⟨22, false⟩] &&
      t.gReg 5 == ⟨21, false⟩) = true :=
  ⟨by decide +kernel, quiet_of (by decide +kernel), by decide +kernel, by decide +kernel, by decide +kernel, by decide +kernel⟩

/-! ### Tasks and launches (10 of the statements) -/

def store (m : Memory) (off : Nat) (l : List Word) : Memory :=
  (l.zipIdx.foldl (fun m e => m.write (off + 8 * e.2) 8 ⟨e.1, false⟩) m)
/-- The local store: the descriptor at 0, a good record at 128, one with a poisoned word at 256, one with a reserved bit at 384, a
bad descriptor at 512. -/
def lsL : Memory :=
  store ((store (store (store (store Memory.empty 0 base0) 128 (recOf 2)) 256 (recOf 2)) 384 ((recOf 2).set 14 0x8000000000000000)).taint 264 true) 512
    [0x4000, 0, 0, 0, 0, 0x8000, 0, 0]
def sLn (off n : Nat) : State :=
  let s := withCore { coreOf 0 { ctxA with g := ctxA.g.set 8 ⟨BitVec.ofNat 64 (0xFFFFFFFFE000 + off), false⟩ } with ls := lsL }
  { s with sectors := [(0, { Sector.reset with intake := List.replicate n ⟨0, 0, 0, none, none⟩, nextNum := 41 })] }
theorem taskReady_sLn : Spec.taskReady (sLn 128 0) (.launch 5 8 q1) ∧ (Spec.lsWords (sLn 128 0) 128 16).map PWord.val = recOf 2 ∧
    (Spec.lsWords (sLn 128 0) 0 8).map PWord.val = base0 ∧ (sLn 128 0).recordBad 0 (recOf 2) base0 = false ∧
    (sLn 384 0).recordBad 0 ((recOf 2).set 14 0x8000000000000000) base0 = true ∧ recPen (recOf 2) = false :=
  ⟨⟨by decide, runs_of (by decide), quiet_of (by decide +kernel), ⟨rfl, rfl, rfl, rfl⟩, by decide +kernel⟩, by decide +kernel, by decide +kernel,
    by decide +kernel, by decide +kernel, by decide +kernel⟩
theorem test_launch :
    (sat (exec (.launch 5 8 q1) (sLn 128 7)) fun t => t.gReg 5 == ⟨41, false⟩ && t.pReg 1 == ⟨true, false⟩ && (t.sector 0).intake.length == 8 &&
      (t.sector 0).intake.getLast? == some ⟨0xFFFFFFFFE080, 0, 41, none, some (recOf 2, base0)⟩ && (t.sector 0).nextNum == 42) = true ∧
    (sat (exec (.launch 5 8 q1) (sLn 128 8)) fun t => t.pReg 1 == ⟨false, false⟩ && (t.sector 0).intake.length == 8) = true ∧
    (sat (exec (.launch 5 8 q1) (sLn 256 0)) fun t => t.me.tr.tcause == 0x15 && t.me.tr.tval == 0xFFFFFFFFE100) = true ∧
    (sat (exec (.launch 5 8 q1) (sLn 384 0)) fun t => t.me.tr.tcause == 0x15 && t.me.tr.tval == 0xFFFFFFFFE180) = true := by decide +kernel

def sSpawn (off : Nat) (ts : Table Task) : State :=
  taskOf { coreOf 0 { ctxA with g := ctxA.g.set 8 ⟨BitVec.ofNat 64 (0xFFFFFFFFE000 + off), false⟩ } with ls := lsL } ts
def crowd : Table Task := (List.range 1024).map fun i => (i, { task3 with order := if i = 3 then 7 else 8 + i })
theorem witness_spawn : Spec.taskReady (sSpawn 0 [(3, task3)]) (.spawn 5 8 q1) ∧ (sSpawn 0 [(3, task3)]).taskAt ref3 = some task3 ∧
    Table.find ((sSpawn 0 [(3, task3)]).sector 0).tasks 1023 = none ∧ descBad base0 = false ∧
    (Spec.lsWords (sSpawn 0 [(3, task3)]) 0 8).map PWord.val = base0 ∧ (∀ e ∈ ((sSpawn 0 [(3, task3)]).sector 0).tasks, e.2.mask = []) ∧
    (sat (exec (.spawn 5 8 q1) (sSpawn 512 [(3, task3)])) fun t => t.me.tr.tcause == 0x15) = true :=
  ⟨⟨by decide, runs_of (by decide), quiet_of (by decide +kernel), ⟨rfl, rfl, rfl, rfl⟩, by decide +kernel⟩, by decide +kernel, by decide +kernel,
    by decide +kernel, by decide +kernel, by decide +kernel, by decide +kernel⟩
theorem find_range (f : Nat → Task) : ∀ (n a i : Nat), a ≤ i → i < a + n →
    Table.find ((List.range' a n).map fun k => (k, f k)) i = some (f i)
  | 0, _, _, h1, h2 => by omega
  | n + 1, a, i, h1, h2 => by
    by_cases h : a = i
    · simp [List.range'_succ, Table.find, h]
    · simpa [List.range'_succ, Table.find, h] using find_range f n (a + 1) i (by omega) (by omega)
theorem find_crowd (i : Nat) (hi : i < 1024) : (Table.find crowd i).isSome = true := by
  rw [crowd, List.range_eq_range', find_range _ 1024 0 i (by omega) (by omega)]; rfl
theorem tasks_sSpawn (ts : Table Task) : ((sSpawn 0 ts).sector 0).tasks = ts := rfl
theorem witness_spawnFull : (∀ i, i < 1024 → (Table.find ((sSpawn 0 crowd).sector 0).tasks i).isSome = true) ∧
    Spec.taskReady (sSpawn 0 crowd) (.spawn 5 8 q1) ∧ ((sSpawn 0 crowd).taskAt ref3).isSome = true :=
  ⟨fun i hi => by rw [tasks_sSpawn]; exact find_crowd i hi,
    ⟨by decide, runs_of (by decide), quiet_of (by decide +kernel), ⟨rfl, rfl, rfl, rfl⟩, by decide +kernel⟩, by decide +kernel⟩

/-- Tasks in slots 3 (order 7), 4 (order 8, queued) and 5 (order 9, running); their numbers are 1024 times the generation 1 more. -/
def sEdge (a b : Nat) : State :=
  taskOf (coreOf 0 { ctxA with g := (ctxA.g.set 8 ⟨BitVec.ofNat 64 (1024 + a), false⟩).set 9 ⟨BitVec.ofNat 64 (1024 + b), false⟩ })
    [(3, task3), (4, { task3 with phase := .queued, order := 8, release := some 5 }), (5, { task3 with order := 9 })]
theorem witness_tedge : Spec.runs (.tedge 8 9 q1) (sEdge 3 4) ∧ Spec.taskNumber task3 3 = 1024 + 3 ∧
    (sat (exec (.tedge 8 9 q1) (sEdge 3 6)) fun t => t.pReg 1 == ⟨false, false⟩) = true ∧
    (sat (exec (.tedge 8 9 q1) (sEdge 3 5)) fun t => t.pReg 1 == ⟨false, false⟩) = true ∧
    (sat (exec (.tedge 8 9 q1) (sEdge 6 4)) fun t => t.pReg 1 == ⟨true, false⟩) = true ∧
    (sat (exec (.tedge 8 9 q1) (sEdge 5 4)) fun t => t.pReg 1 == ⟨false, false⟩) = true ∧
    (sat (exec (.tedge 8 9 q1) (sEdge 3 4)) fun t => t.pReg 1 == ⟨true, false⟩ &&
      (Table.find (t.sector 0).tasks 4).map (fun k => (k.preds, k.release)) == some ([3], none)) = true :=
  ⟨runs_of (by decide), by decide, by decide +kernel, by decide +kernel, by decide +kernel, by decide +kernel, by decide +kernel⟩
def sTinfo : State :=
  taskOf (coreOf 0 ctxA) [(3, { task3 with desc := base0.set 5 0x0001230000000000, release := some 150, spec := true, rereleases := 2 })]
theorem witness_tinfo : Spec.runs (.tinfo 5 9 q1) sTinfo ∧ (sTinfo.taskAt ref3).isSome ∧ sTinfo.launchAt 0 0 = some launch0 ∧
    (sat (exec (.tinfo 5 9 q1) sTinfo) fun t => t.gReg 5 == ⟨0x123, false⟩) = true ∧
    (sat (exec (.tinfo 5 10 q1) sTinfo) fun t => t.gReg 5 == ⟨50, false⟩) = true ∧
    (sat (exec (.tinfo 5 11 q1) sTinfo) fun t => t.gReg 5 == ⟨1027, false⟩) = true ∧
    (sat (exec (.tinfo 5 12 q1) sTinfo) fun t => t.gReg 5 == ⟨0x200000001, false⟩) = true :=
  ⟨runs_of (by decide), by decide +kernel, by decide +kernel, by decide +kernel, by decide +kernel, by decide +kernel, by decide +kernel⟩

/-! Tasks start -/

/-- A task of launch 0 in a phase, at the head of queue 0. -/
def sStart (p : TaskPhase) (c : CoreId) : State :=
  { State.reset with time := 500, ev := { Ev.none with core := c },
                     sectors := [(0, sectorOf0 [(3, { task3 with phase := p, desc := base0, release := some 5 })])] }
def sAccept : State :=
  { State.reset with time := 500, sectors := [(0, { Sector.reset with intake := [⟨0xFFFFFFFFE080, 0, 41, none, some (recOf 2, base0)⟩], nextKey := 6 })] }
theorem witness_tasksStart : recTotal (recOf 2) = 2 ∧ recCount (recOf 2) 0 = 2 ∧ Table.find (sAccept.sector 0).launches (sAccept.sector 0).nextKey = none ∧
    (sat (exec .launchAccept sAccept) fun t => (t.sector 0).intake.isEmpty && (t.sector 0).nextKey == 7 && (t.launchAt 0 6).map (fun l => (l.num, l.tbase)) == some (41, 500)) = true ∧
    ((sStart .queued 5).sector 0).head 0 = some (3, { task3 with phase := .queued, desc := base0, release := some 5 }) ∧
    (sStart .queued 5).coreFits { task3 with phase := .queued, desc := base0, release := some 5 } launch0 5 = true ∧
    (sat (exec .coreChoice (sStart .queued 5)) fun t => (Table.find (t.sector 0).tasks 3).map (·.phase) == some (.fetching 5)) = true ∧
    (let s := sStart (.fetching 5) 5
     sat (exec .footprintLanded { s with ev := { s.ev with idx := 3 } }) fun t => (Table.find (t.sector 0).tasks 3).map (·.phase) == some (.landed 5)) = true ∧
    (sStart (.landed 5) 5).bestHead 0 = some (3, { task3 with phase := .landed 5, desc := base0, release := some 5 }, 5) ∧
    (sat (exec .taskDispatch (sStart (.landed 5) 5)) fun t => (t.core 5).bind.task == some ref3 && (t.ctx 5 0).pc == 0x4000 && (t.ctx 5 0).st == .ready &&
      (t.ctx 5 0).getG 1 == ⟨0x44, false⟩ && (Table.find (t.sector 0).tasks 3).map (·.phase) == some (.running 5)) = true := by decide +kernel
/-- A task enters the one free slot of its table. -/
def sEnter : State :=
  { State.reset with ev := { Ev.none with core := 5 }, sectors := [(0, sectorOf0 [(3, task3)])] }
theorem witness_taskEnters : sEnter.launchAt 0 0 = some launch0 ∧ launch0.ended = false ∧ launch0.spec = false ∧ recLevels launch0.rec_ = 1 ∧
    recRename launch0.rec_ = false ∧ launch0.next = some 0 ∧ (∀ e ∈ (sEnter.sector 0).tasks, e.2.mask = []) ∧
    (∃ i, i < 1024 ∧ Table.find (sEnter.sector 0).tasks i = none) :=
  ⟨rfl, rfl, rfl, by decide, by decide, by decide, by decide, 900, by decide, by decide⟩

/-! Tasks end and launches resolve -/

def sEnd (p : TaskPhase) : State :=
  let s := taskOf (coreOf 0 ctxA) [(3, { task3 with phase := p, desc := base0 })]
  at0 { s with sectors := [(0, { sectorOf0 [(3, { task3 with phase := p, desc := base0 })] with launches := [(0, { launch0 with nextLin := 1 })] })] }
theorem witness_tasksEnd : ((sEnd (.retiring 0)).taskAt ref3).isSome ∧ ({ launch0 with nextLin := 1 } : Launch).next.isSome = true ∧
    Spec.noCopies (sEnd (.retiring 0)) 0 ∧ (∀ h : Fin 8, ((sEnd (.retiring 0)).octet 0).chans[h].queue = []) ∧
    (∀ o, ((sEnd (.retiring 0)).octet o).laneQ = []) ∧ ((sEnd (.retiring 0)).sector 0).renames = [] ∧
    (sat (exec .taskRetireComplete (sEnd (.retiring 0))) fun t => (t.core 0).bind.task == none && t.taskAt ref3 == none &&
      (t.launchAt 0 0).map (fun l => (l.retired, l.failed)) == some (1, 0)) = true ∧
    (sat (exec .taskFailureComplete (sEnd (.failing 0 5 6))) fun t => (t.core 0).bind.task == none && t.taskAt ref3 == none &&
      (t.launchAt 0 0).map (fun l => (l.retired, l.failed, l.firstCause, l.firstVal)) == some (0, 1, 5, 6)) = true :=
  ⟨by decide +kernel, by decide +kernel, by unfold Spec.noCopies; decide +kernel, by decide +kernel, fun _ => rfl, rfl, by decide +kernel, by decide +kernel⟩

/-- A speculative launch of 2 of at most 4 tasks, all entered; its TBASE, and so its deadline, is tick 100. -/
def launchP : Launch := { Intake.launch ⟨0, 0, 9, none, none⟩ ((recOf 4).set 13 0x20) base0 100 with spec := true, predicted := 2, high := 2, nextLin := 1 }
def sResolve (now : Nat) (l : Launch) : State :=
  { State.reset with time := BitVec.ofNat 64 now, ev := { Ev.none with w := 0x8000000000000002 }, sectors := [(0, { Sector.reset with launches := [(0, l)] })] }
def rename0 : Rename := ⟨5, 0, .pool 1, .other 77, 4, true⟩
theorem witness_launchesResolve : (sResolve 100 launchP).allTasks = [] ∧ launchP.next = some 1 ∧ launchP.next = some launchP.nextLin ∧
    recCount launchP.rec_ (recPlevel launchP.rec_) = 4 ∧ (sResolve 100 launchP).ev.w = BitVec.ofNat 64 (2 ^ 63 + 2) ∧ launchP.deadlineTick = 100 ∧
    (sat (exec .renameCommit { State.reset with sectors := [(0, { Sector.reset with renames := [rename0], freeFrames := [] })] }) fun t =>
      (t.sector 0).renames.isEmpty && (t.sector 0).freeFrames == [.other 77]) = true ∧
    (sat (exec .launchResolve (sResolve 100 launchP)) fun t => (t.launchAt 0 0).map (fun l => (l.spec, l.trueCount, l.tail)) == some (false, 2, false)) = true ∧
    (sat (exec .deadlinePass (sResolve 101 launchP)) fun t => (t.launchAt 0 0).map (fun l => (l.spec, l.deadline)) == some (true, true)) = true ∧
    (sat (exec .shapeExpire (sResolve 65637 { launchP with deadline := true })) fun t => t.launchAt 0 0 == none) = true ∧
    disabledB (exec .shapeExpire (sResolve 65637 launchP)) = true := by decide +kernel

/-! ### Matrix jobs that run, tasks that move, copies (11 and 12 of the statements) -/

/-- Core 0 with job 9 in its ring, its engine as given. -/
def sEng (q : List Job) (r : Option Job) (owner : Option Nat) (g : GuardState) : State :=
  let k := coreOf 0 ctxA
  { withCore { k with jobs := [⟨9, 0, false⟩], tlm := ⟨0, 1, []⟩, guards := k.guards.set 1 g } with
    octets := [(0, { Octet.reset with queue := q, running := r, tiles := Octet.reset.tiles.set 2 ⟨owner, List.replicate 32 ⟨List.replicate 32 5, 3, true, false⟩⟩ })] }
def jobZ (n : BitVec 3) (gp : Bool) : Job := { jobOf (.mzero 1 2 none ⟨n, gp⟩) with guard := ⟨n, gp⟩ }
def jobOwn : Job := { jobOf (.mcfgOwn 1 2 ⟨0, false⟩) with arg := 1 }
theorem witness_matrixJobsRun : octetOf (jobZ 0 false).core = 0 ∧
    ([jobZ 0 false, jobOwn].all fun j => sat (exec .matrixJobStart (sEng [j] none none .free)) fun t => (t.octet 0).running == some j && (t.octet 0).queue.isEmpty) = true ∧
    (sat (exec .matrixJobStart (sEng [jobZ 1 true] none none .isTrue)) fun t => (t.octet 0).queue.isEmpty && (t.octet 0).running == none &&
      (t.core 0).jobs == [⟨9, 8, true⟩] && (t.core 0).tlm.cnt == 1) = true ∧
    (sat (exec .matrixJobStart (sEng [jobZ 1 false] none none .isFalse)) fun t => (t.core 0).jobs == [⟨9, 8, true⟩]) = true ∧
    (sat (exec .matrixJobStart (sEng [{ jobOwn with cmd := .mcfgOwn 1 2 ⟨1, false⟩, guard := ⟨1, false⟩ }] none (some 0) .isFalse)) fun t =>
      (t.core 0).jobs == [⟨9, 2 ^ 38 + 8, true⟩] && (t.core 0).tlm.cnt == 1) = true ∧
    (sat (exec .matrixJobFinish (sEng [] (some (jobZ 0 false)) (some 0) .free)) fun t => (t.octet 0).running == none &&
      (t.octet 0).tiles[2] == ⟨some 0, List.replicate 32 TileRow.reset⟩ && (t.core 0).jobs == [⟨9, 0, true⟩]) = true ∧
    (sat (exec .matrixJobFinish (sEng [] (some (jobZ 0 false)) (some 3) .free)) fun t => (t.octet 0).tiles[2].owner == some 3 &&
      (t.core 0).jobs == [⟨9, 0x4000, true⟩]) = true ∧
    (sat (exec .matrixJobFinish (sEng [] (some jobOwn) none .free)) fun t => (t.octet 0).tiles[0].owner == some 0 && (t.core 0).tlm.cnt == 1) = true := by
  decide +kernel
/-- R257: rows of ones times columns of ones, one plane each: 32 in every element. -/
theorem test_accumulateTile :
    let r : OpReg := ⟨some 0, 0, false, false, [List.replicate 32 0xFFFFFFFF], List.replicate 32 0, 0, false⟩
    (accumulateTile AccTile.reset r r).1.rows.map (fun w => (w.t.getD 5 0, w.xt)) = List.replicate 32 (32, 0) ∧
      (accumulateTile AccTile.reset r r).2 = 0 := by decide +kernel

/-- Core 0 runs the task of slot 3, past its thermal limit; core 5 is free. -/
def sMove (stop : Option StopReq) (st : CtxState) : State :=
  let s := taskOf { coreOf 0 { ctxA with st := st } with stop := stop, coret := 1600 } [(3, { task3 with desc := base0 })]
  { s with cores := s.cores ++ [(5, Core.reset 5)], ev := { Ev.none with core := 0, core2 := 5 } }
theorem witness_tasksMove : ((sMove none .ready).taskAt ref3).map (·.phase) = some (.running 0) ∧ (sMove none .ready).mmrInGroup 0 = false ∧
    (sMove none .ready).coreFree 5 = true ∧ (sMove none .ready).pastLimit 0 = true ∧ (sMove none .ready).pastLimit 5 = false ∧
    (sMove none .ready).octetBound 0 ref3 = false ∧ (sMove (some .displace) .stopped).movable 0 ref3 = true ∧
    (sMove (some (.migrate 5)) .stopped).physOf 0 = 0 ∧ 0 ≤ ((sMove none .ready).now 5 - (sMove none .ready).now 0).toInt ∧
    (∀ n, ((sMove (some (.migrate 5)) .stopped).ctx 0 n).lanes.kept = 0) ∧
    (sat (exec .displacement (sMove none .ready)) fun t => (t.core 0).stop == some .displace) = true ∧
    (sat (exec .thermalMigration (sMove none .ready)) fun t => (t.core 0).stop == some (.migrate 5)) = true ∧
    (sat (exec .migrationSwitch (sMove (some (.migrate 5)) .stopped)) fun t => (t.core 0).bind.task == none && (t.core 5).bind.task == some ref3 &&
      (t.core 5).lcn == 0 && (t.core 0).lcn == 5 && (t.ctx 5 0).g == ctxA.g && (t.taskAt ref3).map (·.phase) == some (.running 5)) = true := by decide +kernel
/-- What a displacement left goes on on core 5. -/
def away : Core := { coreOf 0 { ctxA with st := .stopped } with bind := { Binding.reset with task := some ref3 } }
def sAway : State :=
  { State.reset with sectors := [(0, sectorOf0 [(3, { task3 with phase := .displaced, parked := some away })])], ev := { Ev.none with core := 5, idx := 3 } }
theorem witness_resume : sAway.boundOctet ref3 [] = none ∧ sAway.coreFree 5 = true ∧ (sAway.octet (octetOf 5)).queue.length ≤ 16 ∧ groupOf 5 = groupOf away.lcn.toNat ∧
    (sat (exec .resume sAway) fun t => (t.core 5).bind.task == some ref3 && (t.taskAt ref3).map (·.phase) == some (.running 5)) = true := by decide +kernel

/-- A copy of one doubleword from offset 64 to offset 128 of the local store, or from elsewhere. -/
def imageOf (src : Nat) : List Word :=
  [BitVec.ofNat 64 src, 0xFFFFFFFFE080, 0x31000, 0, 0, 0, 0, 0, 0, 0] ++ List.replicate 26 0
def copyOf (src : Nat) : CopyStart := ⟨7, 0, 0, none, 0, false, 4, imageOf src, 0, 0, 1⟩
def badCopy : CopyStart := { copyOf 0 with image := List.replicate 36 0 }
def loopCopy : CopyStart := { copyOf 0xFFFFFFFFE040 with image := (((imageOf 0xFFFFFFFFE040).set 2 0x131000).set 5 1).set 6 0xFFFFFFFFE000 }
def sCopy (h : Chan) : State :=
  let k := coreOf 0 ctxA
  { withCore { k with tlc := ⟨0, 1, []⟩, ls := (Memory.empty.write 0 8 ⟨1, false⟩).write 64 8 ⟨0x1234, false⟩ } with
    octets := [(0, { Octet.reset with chans := Octet.reset.chans.set 2 h })], ev := { Ev.none with idx := 2 } }
theorem witness_copiesRun : badCopy.mode = 0 ∧ badCopy.ndim = 0 ∧ (sCopy Chan.reset).templateBad (copyOf 0xFFFFFFFFE040) = false ∧
    (copyOf 0xFFFFFFFFE040).src = Spec.lsAddr 64 ∧ (copyOf 0xFFFFFFFFE040).dst = Spec.lsAddr 128 ∧ (copyOf (2 ^ 48)).src = 2 ^ 48 ∧
    ((copyOf 0).mode = 0 ∧ (copyOf 0).cmode = 0 ∧ (copyOf 0).looping = false ∧ (copyOf 0).ndim = 1 ∧ (copyOf 0).count 0 = 1 ∧ (copyOf 0).size = 8 ∧
      (copyOf 0).tagen = false) ∧
    (sat (exec .copyQueueHead (sCopy { Chan.reset with queue := [badCopy] })) fun t => (t.chan 0 2).flags == 0x80 && (t.chan 0 2).queue.isEmpty && (t.chan 0 2).cur == none) = true ∧
    (sat (exec .copyQueueHead (sCopy { Chan.reset with queue := [copyOf 0xFFFFFFFFE040] })) fun t => (t.chan 0 2).cur == some (copyOf 0xFFFFFFFFE040) &&
      (t.chan 0 2).state == .running) = true ∧
    (sat (exec .copyDelivered (sCopy { Chan.reset with cur := some (copyOf 0xFFFFFFFFE040), state := .running })) fun t => (t.core 0).ls.read 128 8 == ⟨0x1234, false⟩ &&
      (t.chan 0 2).cur == none && (t.chan 0 2).state == .idle && (t.core 0).tlc.cnt == 1) = true ∧
    (sat (exec .copyFreeze (sCopy { Chan.reset with cur := some (copyOf (2 ^ 48)), state := .running })) fun t => (t.chan 0 2).state == .frozen &&
      (t.chan 0 2).faddr == 2 ^ 48 && (t.chan 0 2).flags == 1) = true ∧
    (sat (exec .copyComplete (sCopy { Chan.reset with cur := some (copyOf 0xFFFFFFFFE040), state := .running, elem := 1, delivered := [1] })) fun t =>
      (t.chan 0 2).cur == none && (t.chan 0 2).state == .idle && (t.core 0).tlc.cnt == 1) = true ∧
    (sCopy Chan.reset).stageFree loopCopy 1 = true ∧
    (sat (exec .copyIterationRelease (sCopy { Chan.reset with cur := some loopCopy, state := .waitRelease })) fun t => (t.chan 0 2).iter == 1 &&
      (t.chan 0 2).state == .running) = true := by decide +kernel
def startE : PortEntry := ⟨2, 0, .aperture 2 0, 8, ⟨0, false⟩, .start 2 4 (imageOf 0xFFFFFFFFE040) 0 0 false 1, none, false, none, none, 0⟩
def cmdE (v : Word) : PortEntry := ⟨2, 0, .aperture 2 0, 8, ⟨v, false⟩, .plain, none, false, none, none, 0⟩
def sCmd (e : PortEntry) (h : Chan) : State :=
  let s := sCopy h
  { s with cores := [(0, let k := coreOf 0 ctxA; { k with work := { k.work with port := [e] } })] }
def frozenC : Chan := { Chan.reset with cur := some (copyOf (2 ^ 48)), state := .frozen, faddr := 2 ^ 48, flags := 1 }
theorem witness_copiesCommanded : (sCmd startE Chan.reset).specTask 0 = none ∧
    (sat (exec .copyStart (sCmd startE Chan.reset)) fun t => ((t.chan 0 2).queue.map fun c => (c.tidx, c.num)) == [(4, 1)] && (t.core 0).work.port.isEmpty) = true ∧
    (sat (exec .copyResume (sCmd (cmdE 0x80) frozenC)) fun t => (t.chan 0 2).state == .running && (t.chan 0 2).faddr == 0) = true ∧
    (sat (exec .copyAbort (sCmd (cmdE 0x100) frozenC)) fun t => (t.chan 0 2).state == .idle && (t.chan 0 2).cur == none && (t.chan 0 2).flags.getLsbD 6) = true ∧
    ([false, true].all fun err =>
      let s := withTask (coreOf 0 ctxA)
      sat (exec .forwardedTag { s with fabric := [(0, .tag 0 9 err (some ref3))] }) fun t => t.fabric.isEmpty && (if err then (t.core 0).tagerr else (t.core 0).tags) == 0x200) = true := by
  decide +kernel

/-- An ABORT of a copy in its second iteration leaves the write of that iteration undone and performs that of the first. -/
def writeC (num : Nat) : CopyWrite := { num := num, place := .phys 0x2000 false, addr := 0x2000, n := 8, val := ⟨7, false⟩, refused := none }
def abortC (num : Nat) : Chan := { frozenC with cur := some { copyOf (2 ^ 48) with num := 4 }, iter := 1, writes := [writeC num] }
def sAbort (num : Nat) : State :=
  { sCmd (cmdE 0x100) (abortC num) with slices := [(sliceOfPa 0x2000, { Slice.reset with applied := some 0 })] }
theorem witness_abortKeeps : Spec.atHome (sAbort 4) 0x2000 8 ∧ (copyOf (2 ^ 48)).task = none ∧
    ([(4, 7), (5, 0)].all fun e => sat (exec .copyAbort (sAbort e.1)) fun t => t.hbm.read 0x2000 8 == ⟨e.2, false⟩ &&
      (t.chan 0 2).writes.isEmpty && (t.chan 0 2).cur == none) = true := by unfold Spec.atHome; decide +kernel
/-- A forwarded tag for a task that migrates. -/
theorem witness_tagRouted : let s := withTask { coreOf 0 ctxA with stop := some (.migrate 5) }
    sat (exec .forwardedTag { s with fabric := [(0, .tag 0 9 false (some ref3))] }) (fun t => t.routed == [0] && t.fabric.length == 1) = true := by
  decide +kernel

/-! ### Packets, remote reads and links (13 of the statements) -/

/-- Core 5 runs the task in slot 3 for tenant 1, with drop window 0 over its first 64 bytes of local store; one message is on its way. -/
def core5 (rx : RxQueue) : Core :=
  let k := coreOf 5 ctxA
  { k with bind := { k.bind with task := some ref3, tenant := 1 }, rx := rx, drops := k.drops.set 0 (some ⟨Spec.lsAddr 0, 64, 1⟩) }
def sMsg (k : Core) (m : List (Nat × Msg)) : State :=
  { State.reset with cores := [(5, k)], sectors := [(0, { Sector.reset with tasks := [(3, { task3 with phase := .running 5 })] })],
                     fabric := m, ev := { Ev.none with idx := 4 } }
def empty5 : Core := core5 ⟨[], 15⟩
/-- A receive queue whose 16 slots two-slot packets fill. -/
def full5 : Core := core5 ⟨List.replicate 8 ⟨0, 9, 0, List.replicate 10 PWord.zero⟩, 15⟩
/-- The same core while its task migrates, and core 5 free while a displaced task keeps its number. -/
def moving5 : Core := { empty5 with stop := some (.migrate 6) }
def sKept : State :=
  let s := sMsg (Core.reset 5) []
  { s with sectors := [(0, { Sector.reset with tasks := [(3, { task3 with phase := .displaced, parked := some empty5 })] })] }
def to5 (tag : Nat) : Word := BitVec.ofNat 64 (5 * 2 ^ 30 + tag)
def two : List PWord := [⟨7, false⟩, ⟨8, true⟩]
def pkt (win : Option Word) (tag : Nat) (refused : Option Word) : List (Nat × Msg) := [(4, .packet 0 9 1 (to5 tag) win two refused)]
def sSend (w : SendPacket) : State :=
  let k := coreOf 0 ctxA
  { withCore { k with work := { k.work with send := [w] } } with seq := 20 }
theorem witness_packetsTravel : (sSend ⟨0, 1, to5 0, none, two, none⟩).specTask 0 = none ∧
    (sat (exec .packetSend (sSend ⟨0, 1, to5 0, none, two, none⟩)) fun t => t.fabric == [(20, .packet 0 0 1 (to5 0) none two none)] &&
      (t.core 0).work.send.isEmpty) = true ∧
    ((sMsg empty5 []).lcnKept 5 = false ∧ sKept.lcnKept 5 = true ∧ (sMsg empty5 []).physOf 5 = 5 ∧ rwLcn (to5 70) = 5) ∧
    (sat (exec .packetArrive (sMsg moving5 (pkt none 0 none))) fun t => t.routed == [4] && t.fabric == pkt none 0 none) = true ∧
    (sat (exec .packetArrive { sKept with fabric := pkt none 0 none }) fun t => t.fabric == pkt none 0 (some 0) && t.cores == sKept.cores) = true ∧
    (sat (exec .packetArrive (sMsg { empty5 with bind := { empty5.bind with task := none } } (pkt none 0 none))) fun t => t.fabric.isEmpty &&
      t.spine.evq.length == 1) = true ∧
    (sat (exec .packetArrive (sMsg full5 (pkt none 0 none))) fun t => t.fabric == pkt none 0 (some 0) && t.core 5 == full5) = true ∧
    (sat (exec .packetArrive (sMsg empty5 (pkt none 0 none))) fun t => (t.core 5).rx == ⟨[⟨0, 9, 15, two⟩], 0⟩ && t.fabric.isEmpty) = true ∧
    (sat (exec .packetRetry { sMsg empty5 (pkt none 0 (some 0)) with time := 4 }) fun t => (t.core 5).rx == ⟨[⟨0, 9, 15, two⟩], 0⟩) = true ∧
    (sat (exec .packetArrive (sMsg empty5 (pkt (some (Spec.lsAddr 48)) 66 none))) fun t => (t.core 5).tags == 4 &&
      (t.core 5).ls.read 48 8 == ⟨7, false⟩ && (t.core 5).ls.read 56 8 == ⟨8, true⟩) = true := by decide +kernel
theorem stays_of {s : State} {l : BitVec 18} (h : (s.core (s.physOf l.toNat)).stop = none) : Spec.stays s l := fun d => by simp [h]
theorem witness_packetWindow : Spec.receives (sMsg empty5 []) 5 1 ∧ Spec.opened (sMsg empty5 []) 5 1 (Spec.lsAddr 48) 16 ∧ empty5.ls.wf = true :=
  ⟨⟨by decide +kernel, stays_of (by decide +kernel), by decide +kernel⟩, ⟨0, ⟨Spec.lsAddr 0, 64, 1⟩, by decide +kernel⟩, by decide +kernel⟩

/-- Core 0 with one remote command of number 2 and guard 1 as given; tag 3 of the recipient, tag 6 of the requester. -/
def rwOf (fetchto : Bool) : Word := BitVec.ofNat 64 (if fetchto then 5 * 2 ^ 30 + 3 * 2 ^ 23 + 6 * 2 ^ 17 else 6 * 2 ^ 23)
def cmd (fetchto : Bool) (g : Guard) : RemoteCmd := ⟨2, none, fetchto, 0, Spec.lsAddr 128, Spec.lsAddr 64, rwOf fetchto, 8, g, 2, false⟩
def sRem (r : RemoteCmd) (g : GuardState) : State :=
  let k := coreOf 0 ctxA
  { withCore { k with work := { k.work with rq := [r] }, guards := k.guards.set 1 g, tlf := ⟨1, 2, []⟩
                      ls := Memory.empty.write 64 8 ⟨0x77, false⟩ } with ev := { Ev.none with idx := 2 }, seq := 20 }
def fetching (left : Nat) : FetchOut := ⟨20, 2, 6, Spec.lsAddr 64, Spec.lsAddr 0, left, false⟩
def sFetched (m : List (Nat × Msg)) (ok : Bool) : State :=
  let k := coreOf 0 ctxA
  { withCore { k with work := { k.work with fetches := [fetching 1] }, tlf := ⟨1, 2, []⟩ } with
    fabric := m, links := [(35, linkOf .run 0 0)], ev := { Ev.none with idx := if ok then 20 else 4, ok := ok } }
theorem witness_remoteReadsRun : (sRem (cmd false ⟨0, false⟩) .free).specTask 0 = none ∧ ((sRem (cmd false ⟨0, false⟩) .free).core 0).ls.wf = true ∧
    ([false, true].all fun f => sat (exec (if f then .fetchtoSourceRead else .rldReply) (sRem (cmd f ⟨1, true⟩) .isTrue)) fun t =>
      (t.core 0).tags == 64 && (t.core 0).tlf.cnt == 2 && (t.core 0).work.rq.isEmpty) = true ∧
    (sat (exec .rldReply (sRem (cmd false ⟨1, false⟩) .isFalse)) fun t => (t.core 0).tags == 64 && (t.core 0).ls.read 128 8 == PWord.zero) = true ∧
    (sat (exec .rldReply (sRem (cmd false ⟨0, false⟩) .free)) fun t => (t.core 0).ls.read 128 8 == ⟨0x77, false⟩ && (t.core 0).tags == 64 &&
      (t.core 0).tlf.cnt == 2) = true ∧
    (rwMc (rwOf true) = false ∧ (rwOf true).toNat / 2 ^ 48 = 0) ∧
    (sat (exec .fetchtoSourceRead (sRem (cmd true ⟨0, false⟩) .free)) fun t => t.fabric ==
      [(21, .reply 0 0 20 0 0 5 (Spec.lsAddr 128) 3 [⟨0x77, false⟩] none)] && (t.core 0).work.fetches.map (·.left) == [1]) = true ∧
    (sat (exec .fetchtoReplyArrive (sMsg empty5 [(4, .reply 0 0 20 1 0 5 (Spec.lsAddr 0) 3 [⟨0x77, false⟩] none)])) fun t =>
      t.fabric.map (·.2) == [.ack 5 0 0 20 none] && (t.core 5).ls.read 0 8 == ⟨0x77, false⟩ && (t.core 5).tags == 8) = true ∧
    ((sFetched [(4, .ack 5 0 0 20 none)] false).physOf 0 = 0 ∧ ((sFetched [] true).link 35).state = .run ∧ [false, true].all fun ok =>
      sat (exec .fetchtoAck (sFetched (if ok then [] else [(4, .ack 5 0 0 20 none)]) ok)) fun t => (t.core 0).tags == 64 && (t.core 0).tlf.cnt == 2 &&
        t.fabric.isEmpty && (t.core 0).work.fetches.isEmpty) := by decide +kernel

/-- Link 35 with one message for device 5 on its way; the spine is at stage 9 of a start. -/
def sLink (l : Link) (ev : Ev) : State :=
  { State.reset with links := [(35, l)], ev := { ev with unit := 35 }, seq := 20, time := 125000, fabric := [(9, .ack 0 5 0 1 none)]
                     spine := { Spine.reset with stage := 9 } }
/-- Every other link is trained. -/
def sLast (l : Link) (ev : Ev) : State :=
  { sLink l ev with links := (35, l) :: (List.range 35).map fun i => (i, linkOf .run 0 0) }
/-- A merge of a task of device 5 to this device, and an answer to that task. -/
def peer5 : Origin := ⟨7, 5, 1, 3⟩
/-- The hash of R368 is opaque; with one link in RUN it names that one. -/
theorem link_of_one {s : State} {u : Nat} (p : BitVec 16) (l : Nat) (h : s.openLinks = [u]) : s.linkFor p l = some u := by
  simp [State.linkFor, h, Nat.mod_one]
theorem witness_linkFrameSend (tx : Nat) (h : tx = 2 ^ 95 - 33 ∨ tx = 2 ^ 95 - 34) :
    let s := sLink (linkOf .run tx 0) { Ev.none with w := 32, idx := 9 }
    s.linkFor 5 0 = some 35 ∧ sat (exec .linkFrameSend s) (fun t => (t.link 35).txCtr == tx + 32 && (t.link 35).unacked == (if tx == 2 ^ 95 - 33 then [] else [7, 9]) &&
      (t.link 35).state == if tx == 2 ^ 95 - 33 then .hold else .run) = true := by
  intro s
  have hl : s.linkFor 5 0 = some 35 := link_of_one 5 0 (by rcases h with rfl | rfl <;> decide +kernel)
  have hw : (s.msg s.ev.idx).bind s.outward = some (5, 0, 0) := by rcases h with rfl | rfl <;> decide +kernel
  refine ⟨hl, ?_⟩
  show sat (execLinkFrameSend s) _ = true
  unfold execLinkFrameSend
  rw [hw]
  simp only [hl]
  rcases h with rfl | rfl <;> decide +kernel
def reqM : PeerReq := .merge .fadd32 4 ⟨7, false⟩ .no
theorem witness_linksRun :
    (sat (exec .linkTrainingComplete (sLink (linkOf .train 0 0) { Ev.none with w := 5, w2 := 3 })) fun t => (t.link 35).state == .run && (t.link 35).prim &&
      t.spine.stage == 9) = true ∧
    (sat (exec .linkTrainingComplete (sLast (linkOf .train 0 0) { Ev.none with w := 5, w2 := 3 })) fun t => t.spine.stage == 0xF &&
      (t.ctx mgmtCore 0).st == .ready) = true ∧
    disabledB (exec .linkTrainingComplete { sLink (linkOf .train 0 0) { Ev.none with w := 5, w2 := 3 } with spine := Spine.reset }) = true ∧
    (sat (exec .linkTrainingComplete (sLink (linkOf .train 0 0) { Ev.none with w := 5, w2 := 5 })) fun t => (t.link 35).state == .train) = true ∧
    (sat (exec .linkFrameReceive (sLink (linkOf .run 0 3) { Ev.none with idx := 1, ok2 := true, data := two, iv := 0 })) fun t =>
      (t.link 35).rxCtr == 1 && (t.link 35).badFrames == 0 && t.fabric.length == 2) = true ∧
    (sat (exec .linkFrameReceive (sLink (linkOf .run 0 3) { Ev.none with idx := 1, ok2 := true, peer := .access peer5 0x2000 false reqM, iv := 0 })) fun t =>
      t.fabric.drop 1 == [(20, .access peer5 0x2000 false reqM false)]) = true ∧
    ([14, 15].all fun n => sat (exec .linkFrameReceive (sLink (linkOf .run 0 n) { Ev.none with idx := 32, ok2 := n == 14, iv := if n == 14 then 2 ^ 95 else 0 })) fun t =>
      (t.link 35).rxCtr == 32 && (t.link 35).badFrames == n + 1 && (t.link 35).state == (if n == 15 then .down else .run) &&
        (t.link 35).unacked == (if n == 15 then [] else [7])) = true ∧
    (sat (exec .linkAckReceive (sLink (linkOf .run 0 0) { Ev.none with idx := 7 })) fun t => (t.link 35).unacked.isEmpty && t.fabric.length == 1) = true ∧
    (125000 ≤ ((sLink (linkOf .hold 0 0) Ev.none).time - (linkOf .hold 0 0).holdSince).toInt) ∧
    (sat (exec .linkHoldTimeout (sLink (linkOf .hold 0 0) Ev.none)) fun t => (t.link 35).state == .down) = true ∧
    (sat (exec .linkRetrain (sLink (linkOf .down 0 0) Ev.none)) fun t => (t.link 35).state == .train) = true := by decide +kernel


/-! ### The management window, the host window, start-up and power (14 of the statements) -/

/-- The management core with one store on its way to its window. -/
def mwinE (off : Nat) (v : Word) : PortEntry := ⟨5, 0, .mwin off, 8, ⟨v, false⟩, .plain, none, false, none, none, 0⟩
def sMwin (off : Nat) (v : Word) : State :=
  let k := coreOf mgmtCore ctxA
  { State.reset with cores := [(mgmtCore, { k with work := { k.work with port := [mwinE off v] } })], ev := { Ev.none with core := mgmtCore, idx := 5 } }
def setSpine (s : State) (p : Spine) : State := { s with spine := p }
def setFlash (s : State) (f : Flash) : State := { s with flash := f }
def busyF : Flash := { Flash.reset with busy := some 1, faddr := 0x100000 }
def atF (a : Word) : Flash := { Flash.reset with faddr := a }
/-- A region of die 1 over the first 4 KiB of the die's aperture, stored from the die's start, its codebook at 0x80. -/
def region1 : Region := { Region.reset with vbase := BitVec.ofNat 64 (2 ^ 39 + 2 ^ 36), vsize := 4096, sbase := BitVec.ofNat 64 (2 ^ 36),
                                            slimit := BitVec.ofNat 64 (2 ^ 36 + 4096), cb := 0x80 }
def enable1 : Word := 0x8000000000000003
def sRegion (r : Region) : State := { sMwin (0x100000000 + 0x10000000 + 0x400028) enable1 with regions := [(64, r)] }
theorem witness_mwinStore : Spec.mwinStore (sMwin 0x18 7) (mwinE 0x18 7) 0x18 7 := by unfold Spec.mwinStore; decide +kernel
theorem witness_windowStores :
    (sat (exec .keygo { sMwin (0x300020 + 256 * 35) 1 with links := [(35, { linkOf .hold 9 0 with rekey := true })] }) fun t =>
      t.link 35 == linkOf .run 0 0 && (t.core mgmtCore).work.port.isEmpty) = true ∧
    (sat (exec .tlbinv { sMwin 0x10 0 with clusters := [(0, clusterMap)] }) fun t => (t.cluster 0).tlb.isEmpty) = true ∧
    ([7, 2000].all fun v => sat (exec .plimWrite (sMwin 0x18 v)) fun t => t.spine.plimWatts == if v == 7 then 1040 else 2000) = true ∧
    ([(128, 128), (129, 4), (4, 4), (5, 5)].all fun e => sat (exec .rollbackWrite (setSpine (sMwin 0x28 (BitVec.ofNat 64 e.1)) { Spine.reset with
      rollback := 4, version := 200 })) fun t => t.spine.rollback == e.2 && t.spine.ign == decide (e.1 = 129 ∨ e.1 = 4)) = true ∧
    (sat (exec .peernoWrite (sMwin 0x30 0x12345)) fun t => t.spine.peerno == 0x2345) = true ∧
    (sat (exec .peernoWrite { sMwin 0x30 0x12345 with sectors := [(0, sectorOf0 [(3, task3)])] }) fun t => t.spine.peerno == 0) = true ∧
    ([(3, true), (4, false), (0, false)].all fun e => sat (exec .lcstateWrite (sMwin 0x08 (BitVec.ofNat 64 e.1))) fun t =>
      t.spine.lcPend == e.2 && t.spine.lcNext == if e.2 then 3 else 0) = true ∧
    ([(1, Instr.fcmdRead), (2, .fcmdProgram), (3, .fcmdErase)].all fun e =>
      (sat (exec e.2 (setFlash (sMwin 0x400008 (BitVec.ofNat 64 e.1)) busyF)) fun t => t.flash == { busyF with err := true }) &&
      (sat (exec e.2 (setFlash (sMwin 0x400008 (BitVec.ofNat 64 e.1)) (atF 0x100000))) fun t => t.flash.busy == some (BitVec.ofNat 2 e.1) && t.flash.runAddr == 0x100000) &&
      (sat (exec e.2 (setFlash (sMwin 0x400008 (BitVec.ofNat 64 e.1)) (atF 0x4000000))) fun t => t.flash == { atF 0x4000000 with err := true })) = true ∧
    ((sat (exec .formatRegionEnable (sRegion region1)) fun t => (t.region 64).ctl == enable1 && (t.region 64).codebook.length == 16) &&
      sat (exec .formatRegionEnable (sRegion { region1 with vsize := 8 })) fun t => (t.region 64).refused && (t.region 64).ctl == 3) = true ∧
    (sat (exec .huskclr { sMwin (0x100000000 + 0x10000000 + 63 * 0x10000 + 0x2008) 1 with
      slices := [(127, { Slice.reset with huskNext := 3, huskTotal := 9 })] }) fun t => (t.slice 127).huskTotal == 0) = true ∧
    ([(8, 8), (1, 1), (9, 8), (0, 8)].all fun e => sat (exec .throttleWrite (sMwin (0x200000000 + 16383 * 0x1000) (BitVec.ofNat 64 e.1))) fun t =>
      (t.cluster 16383).power.throttle == e.2) = true ∧
    (sat (exec .registerWrite (sMwin 0x178 0x1FFF)) fun t => t.spine.slots[15] == 0xFFF) = true ∧
    (sat (exec .registerWrite (sMwin (0x200000 + 32 * 4095) 77)) fun t => (Table.find t.spine.tenants 4095).map (·.1) == some 77) = true ∧
    ([(16, 16), (17, 4)].all fun e => sat (exec .registerWrite (sMwin 0x200000020 (BitVec.ofNat 64 e.1))) fun t => (t.cluster 0).power.bslots == e.2) = true := by
  decide +kernel
/-- LCSTATE is doubleword 1 of the window. -/
def sBurn (v : Word) : State :=
  let s := onMgmtCore { ctxA with npc := none, nnpc := none, g := (ctxA.g.set 8 ⟨0xFFC000000000, false⟩).set 9 ⟨v, false⟩ }
  { s with spine := { s.spine with lcNext := 2 } }
theorem witness_burns : Spec.quiet (sBurn 3) ∧ Spec.address (sBurn 3) 8 8 = 0xFFC000000008 ∧
    (sBurn 3).reach .store 8 0xFFC000000008 = .place (.mwin 8) ∧
    ([(3, true), (2, false), (4, false)].all fun e => sat (exec (.std 9 8 .core .plain 1) (sBurn (BitVec.ofNat 64 e.1))) fun t =>
      t.spine.lcPend == e.2 && t.spine.lcNext == (if e.2 then 3 else 2) && t.myCore.work.port.isEmpty && t.me.pc == 0x1002) = true :=
  ⟨quiet_of (by decide +kernel), by decide +kernel, by decide +kernel, by decide +kernel⟩
theorem witness_region : Spec.regionOk region1 1 enable1 ∧ ¬ Spec.regionOk { region1 with vsize := 8 } 1 enable1 ∧
    (0x100000 ≤ (atF 0x100000).faddr.toNat ∧ Spec.inSlot 0x100000 ∧ ¬ Spec.inSlot 0x4000000) := by
  unfold Spec.regionOk Spec.inSlot; decide +kernel

/-- A load of EVQ in the management core, and an event, an alert and a flash command that wait. -/
def evqE : LoadEntry := ⟨5, 0, .g 2, .mwin 0x20, 8, false, none, .plain, none, false⟩
def sEvq (q : List Word) : State :=
  let k := coreOf mgmtCore { ctxA with pend := [(.g 2, 5)] }
  { State.reset with cores := [(mgmtCore, { k with work := { k.work with loads := [evqE] } })], ev := { Ev.none with core := mgmtCore, idx := 5 }
                     spine := { Spine.reset with evq := q } }
/-- Before an MFS of ALERTQ to g2 at 0x1000. -/
def sAlert : State :=
  let w := encode (.mfs 2 0x109)
  let h := match w with | .word w => w.toNat | _ => 0
  { onMgmtCore { ctxA with npc := none, nnpc := none } with hbm := Memory.empty.write 0x1000 4 ⟨BitVec.ofNat 64 (h / 65536 + h % 65536 * 65536), false⟩, mgmt := { Mgmt.reset with alerts := [9, 8] } }
def sFlash (n : BitVec 2) (l : List Nat) : State :=
  setFlash State.reset { Flash.reset with busy := some n, runAddr := 0x100000, cells := [(0x100001, 0xF0), (0x1FFFFF, 1)], runData := Memory.empty.write 0 8 ⟨BitVec.ofNat 64 (l.getD 0 0), false⟩ }
theorem witness_evq : Spec.oneLoad (sEvq [3]) mgmtCore evqE := by unfold Spec.oneLoad; decide +kernel
theorem witness_queuesAndFlash : (RegName.g 2, evqE.id) ∈ ((sEvq [3]).ctx mgmtCore 0).pend ∧
    ([[3, 4], []].all fun q => sat (exec .evqPop (sEvq q)) fun t => (t.ctx mgmtCore 0).getG 2 == ⟨q.head?.getD 0, false⟩ && t.spine.evq == q.drop 1) = true ∧
    (sAlert.peekHalf mgmtCore 0x1000).isSome ∧
    (((sAlert.peekHalf mgmtCore 0x1000).bind fun h => (sAlert.peekHalf mgmtCore (0x1000 + 2)).bind fun l => decode32 (h ++ l)) = some (.mfs 2 0x109)) ∧
    ((sAlert.ctx mgmtCore 0).st = .ready ∧ (sAlert.ctx mgmtCore 0).tr.priv = 3 ∧ (sAlert.ctx mgmtCore 0).packet = none ∧ (sAlert.ctx mgmtCore 0).pc = 0x1000) ∧
    (sat (exec .alertqPop sAlert) fun t => (t.ctx mgmtCore 0).getG 2 == ⟨9, false⟩ && t.mgmt.alerts == [8]) = true ∧
    ([1, 2, 3].all fun n => flashWf 0 (sFlash n []).flash.cells && sat (exec .flashCommandComplete (sFlash n [0xFF])) fun t => t.flash.busy == none &&
      (if n == 1 then t.flash.fdata.read 0 8 == ⟨0xFFFFFFFFFFFFF0FF, false⟩
       else t.flash.cells.take 2 == if n == 2 then [(0x100001, 0), (0x100002, 0)] else [(0x1FFFFF, 1)])) = true := by decide +kernel

/-- A memory that holds words at addresses. -/
def memOf (l : List (Nat × Word)) : Memory := l.foldl (fun m e => m.write e.1 8 ⟨e.2, false⟩) Memory.empty
/-- Tenant 2 in slot 0: its first 2 MiB stand at 0x200000, with a launch record at 0x1000 of two tasks and its base descriptor at 0x2000. -/
def recH : List Word := (recOf 2).set 0 0x2000
def sHost : State :=
  { State.reset with
    hbm := memOf ([(0x8000, 0x2001), (0x2000, 0x4001), (0x4000, 0x200572), (0x4008, 0x20000)] ++
      (recH.zipIdx.map fun e => (0x201000 + 8 * e.2, e.1)) ++ base0.zipIdx.map fun e => (0x202000 + 8 * e.2, e.1))
    spine := { Spine.reset with slots := (Vector.replicate 16 0).set 0 2, tenants := [(2, (0x8000, 0))], hevq := [4, 5] }
    slices := [(sliceOfPa 0x202000, { Slice.reset with applied := some 0 })] }
def hostEv (s : State) (ok : Bool) (w w2 : Word) : State := { s with ev := { Ev.none with ok := ok, w := w, w2 := w2 } }
theorem witness_hostActs :
    (sat (exec .hevqPop sHost) fun t => t.host.lastRead == 4 && t.spine.hevq == [5]) = true ∧
    (sat (exec .hmemAccess (hostEv sHost false 0x100202000 0)) fun t => t.host.lastRead == 0x4000) = true ∧
    (sat (exec .hmemAccess (hostEv sHost true 0x100202000 7)) fun t => t.hbm.read 0x202000 8 == ⟨7, false⟩) = true ∧
    (sat (exec .hmemAccess (hostEv sHost false 0x1028 0)) fun t => t.host.lastRead == 0) = true ∧
    (sat (exec .registerWrite (hostEv sHost true 0x18 0x17)) fun t => t.host.hmemsel == 7) = true ∧
    (sat (exec .registerWrite (hostEv sHost true 0x30 0x17)) fun t => t.host.hevaddr == 0x17) = true ∧
    (sat (exec .lportSubmit { hostEv sHost false 0x1000 0 with ev := { Ev.none with idx := 1, w := 0x1000 } }) fun t => t.sectors.isEmpty) = true ∧
    (sat (exec .lportSubmit (hostEv sHost false 0x1040 0)) fun t => t.host.lports[0] == (0, 0, true) && t.sectors.isEmpty) = true ∧
    ((sHost.engineRecord 2 0x1000).1 = some (recH, base0) ∧ (sHost.engineRecord 2 0x1000).2.recordBad 2 recH base0 = false ∧
      (sHost.engineRecord 2 0x1000).2.launchRefused 0 2 0x1000 recH base0 = false) ∧
    (sat (exec .lportSubmit (hostEv sHost false 0x1000 0)) fun t => (t.sector 0).intake.map (fun e => (e.addr, e.slot)) == [(0x1000, some 0)]) = true ∧
    (sat (exec .ago sHost) fun t => t.host.forming) = true ∧
    (sat (exec .reportComplete { sHost with host := { sHost.host with forming := true } }) fun t => t.host.ready && !t.host.forming) = true := by
  decide +kernel
/-- R304: the engine copies the record from memory on acceptance; one it cannot read is dropped (log 12). -/
theorem test_acceptReads :
    let s := fun (x : Word) => { sHost with sectors := [(0, { Sector.reset with intake := [⟨x, 2, 9, some 0, none⟩] })] }
    (sat (exec .launchAccept (s 0x1000)) fun t => (t.sector 0).launches.map (fun e => (e.2.num, e.2.rec_)) == [(9, recH)] && t.host.lports[0] == (1, 9, false)) = true ∧
    (sat (exec .launchAccept (s 0x40000000)) fun t => (t.sector 0).launches.isEmpty && (t.sector 0).intake.isEmpty && t.host.lports[0] == (0, 0, true)) = true := by
  decide +kernel
theorem witness_hostAtHome : Spec.atHome sHost 0x202000 8 := by unfold Spec.atHome; decide +kernel

/-- An image of 64 bytes for 0x1000 with entry 0; `b` stands in its reserved header bytes. -/
def imgOf (magic len b : Nat) : Image :=
  let h := (List.range 40).map (fun i => BitVec.ofNat 8 ((magic + 2 ^ 64 * (1 + 2 ^ 64 * (len + 2 ^ 64 * 0x1000))) / 256 ^ i)) ++ List.replicate 24 (BitVec.ofNat 8 b)
  ⟨fun i => h.getD i 0xFF, 0x3F00000⟩
theorem witness_imageChecks : (imgOf 1 64 0).word 0 ≠ 0x385845544C49534E ∧
    (imgOf 0x385845544C49534E 64 1).bytes 0x28 24 ≠ List.replicate 24 0 ∧ (imgOf 0x385845544C49534E 65 0).len % 64 ≠ 0 ∧
    ((imgOf 1 64 0).verdict 0 = 3 ∧ (imgOf 0x385845544C49534E 64 1).verdict 0 = 3 ∧ (imgOf 0x385845544C49534E 65 0).verdict 0 = 3) := by decide +kernel
/-- An image with a fit header has every other verdict, or none. -/
theorem witness_imageFit : (imgOf 0x385845544C49534E 64 0).verdict 0 ≠ 3 := by
  have h : ((imgOf 0x385845544C49534E 64 0).word 0 != 0x385845544C49534E || (imgOf 0x385845544C49534E 64 0).bytes 0x28 24 != List.replicate 24 0 ||
    (imgOf 0x385845544C49534E 64 0).len % 64 != 0 || (imgOf 0x385845544C49534E 64 0).room < 64 + (imgOf 0x385845544C49534E 64 0).len + 1952 + 3309 ||
    !(imgOf 0x385845544C49534E 64 0).loadOk || (imgOf 0x385845544C49534E 64 0).len ≤ (imgOf 0x385845544C49534E 64 0).entry) = false := by decide +kernel
  unfold Image.verdict
  rw [h]
  simp only [Bool.false_eq_true, if_false]
  split
  · decide
  · split
    · decide
    · split <;> decide

/-- After reset the flash is erased: no image stands in it. -/
def sBoot (p : Spine) : State := { State.reset with spine := p, hbm := memOf [(0x200, 7), (0x300, 8)] }
/-- The same with training values in the flash, whose check passes or fails. -/
def sTrained (p : Spine) (ok : Bool) : State := { sBoot p with flash := { Flash.reset with training := some [] }, ev := { Ev.none with ok := ok } }
theorem witness_deviceStarts : ((sBoot Spine.reset).flashImage.word 0 ≠ 0x385845544C49534E ∧ (sBoot Spine.reset).flashImage.verdict 0 = 3) ∧
    (sat (exec .warmStart (sTrained Spine.reset true)) fun t => t.spine.stage == 14 && t.spine.err == 3 && t.wiping &&
      t.spine.boots == 1) = true ∧
    (sat (exec .warmStart (sTrained { Spine.reset with lcNext := 3, lcPend := true } true)) fun t => t.spine.stage == 14 && t.spine.err == 0 &&
      t.spine.lc == 3 && t.hbm == Memory.empty) = true ∧
    (sat (exec .reload (sBoot Spine.reset)) fun t => t.spine.stage == 0) = true ∧
    (sat (exec .reload (sBoot { Spine.reset with stage := 14 })) fun t => t.spine.stage == 14 && t.spine.err == 3) = true ∧
    (let s : State := { sBoot Spine.reset with wiping := true, wiped := [0, 1], ev := { Ev.none with w := 2 } }
     s.hbm.wf && sat (exec .backgroundWipeGranule s) fun t => t.hbm.byte 0x200 == 0 && t.hbm.byte 0x300 == 8 && t.wiped == [0, 1, 2]) = true := by
  decide +kernel

/-- The end of step 10 of an interval, and of an earlier one. -/
def sPower (steps : Nat) (obs : Observations) (w : Word) (cs : Table Core) : State :=
  { setSpine State.reset { Spine.reset with steps := steps } with time := 1250, cores := cs, ev := { Ev.none with obs := obs, w := w } }
def obsOf (reading : BitVec 16) : Observation := ⟨9, List.replicate 16 reading⟩
def leasedC (point : Nat) : Core := { Core.reset 3 with lease := BitVec.ofNat 64 (2 ^ 63 + 10), point := point }
/-- R405 to R407 and R410 by the parts of a boundary: the trims (R402) are opaque. A step that draws 2,600 W over ten such is at the
limit; a reading of 105 degrees is at TLIM. -/
theorem witness_powerBoundaries : 125 * (Spine.reset.steps + 9 + 1) ≤ (sPower 9 [obsOf 1680] 0 []).time.toNat ∧
    ((∀ o ∈ (sPower 9 [obsOf 1680] 0 []).ev.obs, o.cluster < 16384) ∧ ((sPower 9 [obsOf 1680] 0 []).ev.obs.map (·.cluster)).Nodup ∧
      Spec.dynamicPart (sPower 9 [] 0 [(3, leasedC 0)]) 0 ≤ Spine.reset.plim) ∧
    (sat (exec .brakeStepEnd (sPower 3 [] 0 [])) fun t => t.spine.steps == 4 && t.spine.brake == 0 && t.spine.used == 0) = true ∧
    ([(260000001, 1), (260000000, 0)].all fun e => let p := Spine.reset.brakeAfter e.1 e.1 9
      p.brake == e.2 && p.braked.toNat == e.2) = true ∧
    ([(1680, some 3), (1679, none)].all fun e =>
      let p := { Power.reset with applied := 2, sensReading := BitVec.ofNat 16 e.1 }.nextCaps Spine.reset.plim 5000
      p.thermCap == e.2 && p.pointOf 2 == e.2.getD 2) = true ∧
    ([((0, 0), 2 ^ 61), ((0, 1), 2 ^ 63 + 2 ^ 60 + 10), ((2, 2), 2 ^ 63 + 10)].all fun e =>
      let k := { leasedC e.1.2 with ask := e.1.1 }.boundary Power.reset
      k.lease == BitVec.ofNat 64 e.2 && k.ask == if e.2 == 2 ^ 61 then 2 else 0) = true := by
  decide +kernel
/-- R404: half way between two temperature points and two voltage columns; the trim that changes nothing exists. -/
def lkt3 : Power := { Power.reset with tpts := 0x0807060504030201, lkt := [0x28001E0014000A00, 0x50003C0028001400] }
theorem witness_leakage : (∀ a b : Fin 8, a < b → lkt3.tempAt a < lkt3.tempAt b) ∧ lkt3.leakage 16 (16 * 850) = 0x2800 ∧
    lkt3.leakage 24 (16 * 600) = 0x1680 := by decide +kernel
theorem witness_trim : ∃ f : CoreId → Fin 9, ∀ c, (f c).val = 4 := ⟨fun _ => 4, fun _ => rfl⟩

/-! ### The fused softmax step, and the machine as a whole (15 and 16 of the statements) -/

/-- Instructions in HBM from 0x1000 on, the high half of each first (R33). -/
def code (l : List Instr) : Memory :=
  l.zipIdx.foldl (fun m e => match encode e.1 with
    | .word w => m.write (0x1000 + 4 * e.2) 4 ⟨BitVec.ofNat 64 (w.toNat / 65536 + w.toNat % 65536 * 65536), false⟩
    | _ => m) Memory.empty
/-- Core 0 before those instructions, fetching from HBM. -/
def sCode (x : Ctx) (l : List Instr) : State := { mapped (withCtx { x with npc := none, nnpc := none }) with hbm := code l }
/-- vx is v2, vm v1, vt v0, and vs as given. The second unit of v1 stays poisoned: its element 3 is not written (R240). -/
def softmax (vs : VRegN) : List Instr := [.vrmax 1 2 false q0, .vfsub 0 2 1 .f32 .none q0, .vexp 0 0 q0, .vrsum vs 0 (.f32 .none) q0]
def sSoft (vs : VRegN) : State := { sCode vecC (softmax vs) with ev := { Ev.none with core := 0 } }
theorem witness_softmaxFuses : ((List.range 4).map fun k => (sSoft 3).peekInstr 0 ((sSoft 3).me.pc + BitVec.ofNat 64 (4 * k))) = (softmax 3).map some ∧
    ((sSoft 3).me.st = .ready ∧ (sSoft 3).me.slots = 0 ∧ (sSoft 3).me.npc = none ∧ (sSoft 3).me.nnpc = none ∧ (sSoft 3).me.packet = none ∧
      (sSoft 3).me.pend = [] ∧ ∀ k : Fin 3, (sSoft 3).me.loops[k].lc = 0) ∧
    (sat (exec .fusedSoftmax (sSoft 3)) fun t => t.me.pc == 0x1010 && els t.me.v[1] 1 == [0x40800000] && els t.me.v[0] 3 == [0x3D4BED86, 0x3E0A9555, 0x7FC00000]) = true ∧
    (min (sSoft 4).me.count 16 ≤ (4 : VRegN).val) ∧
    (sat (exec .fusedSoftmax (sSoft 4)) fun t => t.me.tr.tcause == 0x14 && t.me.tr.tval == 0x104 && t.me.v == vecC.v) = true := by decide +kernel
theorem witness_softmaxLanes : Spec.lanesFor (sSoft 3) [1, 2, 0] ∧ Spec.lanesFor (sSoft 3) [3] := by unfold Spec.lanesFor; decide +kernel

/-- Core 0 has the next turn, before an ADD, before an illegal halfword and before an illegal word. -/
def sTurn (m : Memory) : State := { sCode ctxA [] with hbm := m, agenda := [.issue 0] }
def turn0 (m : Memory) : State := { sTurn m with agenda := [], ev := { Ev.none with core := 0 } }
def badHalf : Memory := Memory.empty.write 0x1000 2 ⟨0x3C00, false⟩
def badWord : Memory := Memory.empty.write 0x1000 4 ⟨0x800B80A6, false⟩
theorem disabled_of {r : Res} (h : (match r with | .refused .eventDisabled => true | _ => false) = true) : r = .refused .eventDisabled := by
  split at h
  · rfl
  · exact absurd h (by decide)
/-- Context 0 comes first in the search order after reset. -/
theorem witness_offered : ∀ m ∈ [code [.add 5 1 2 q0], badHalf, badWord], Spec.offered (sTurn m) (turn0 m) 0 0 := by
  intro m hm
  simp only [List.mem_cons, List.not_mem_nil, or_false] at hm
  rcases hm with rfl | rfl | rfl
  all_goals exact ⟨[], [], [1, 2, 3, 4, 5, 6, 7, 8, 9, 10], rfl, rfl, by decide +kernel, .inl (by decide), by decide +kernel, by decide +kernel,
    by decide +kernel, by decide +kernel, disabled_of (by decide +kernel), disabled_of (by decide +kernel), disabled_of (by decide +kernel), by decide +kernel⟩
theorem witness_stepRunsDecoded :
    ((turn0 (code [.add 5 1 2 q0])).fetchInstr 0 0x1000).2.instr = some (.add 5 1 2 q0) ∧
    ((turn0 (code [.add 5 1 2 q0])).fetchInstr 0 0x1000).1.me.waitsFor (sources (.add 5 1 2 q0)) = false ∧
    (((turn0 (code [.add 5 1 2 q0])).fetchInstr 0 0x1000).1.me.countIssue (.add 5 1 2 q0)).isSome ∧
    (sat (step (sTurn (code [.add 5 1 2 q0]))) fun t => (t.ctx 0 0).getG 5 == ⟨12, false⟩ && (t.ctx 0 0).pc == 0x1004 && (t.core 0).last == 0) = true ∧
    (((turn0 badHalf).fetchInstr 0 0x1000).2 = .half 0x3C00 ∧ decode16 0x3C00 = none) ∧
    (((turn0 badWord).fetchInstr 0 0x1000).2 = .word 0x80A6800B ∧ decode32 0x80A6800B = none) ∧
    (sat (step (sTurn badHalf)) fun t => (t.ctx 0 0).tr.tcause == 1 && (t.ctx 0 0).tr.tval == 0x3C00) = true ∧
    (sat (step (sTurn badWord)) fun t => (t.ctx 0 0).tr.tcause == 1 && (t.ctx 0 0).tr.tval == 0x80A6800B) = true := by decide +kernel
theorem witness_fetchReadsBytes : (∀ k, k < 4 → (sTurn badWord).hbm.bad (0x1000 + k) = false) ∧ (sTurn badWord).wiping = false ∧
    ((sTurn badWord).fetchInstr mgmtCore 0x1000).2 = .word 0x80A6800B := by decide +kernel
theorem witness_stepRunsEvents : (sat (step { sA with agenda := [.event .tick { Ev.none with core := 3 }] }) fun t => t.time == 1 && t.agenda.isEmpty) = true := by
  decide +kernel

/-- Also a matrix job, on the core without a matrix engine. -/
theorem witness_instructionsNeverStop : encode (.mzero 1 2 none ⟨0, false⟩) ≠ .event ∧ sB.cur.core = mgmtCore ∧
    sat (exec (.mzero 1 2 none ⟨0, false⟩) sB) (fun t => t.pReg 1 == ⟨false, false⟩ && t.me.pc == 0x1002) = true := by decide +kernel
theorem witness_decodeOfEncode : Instr.WellFormed (.add 5 1 2 q0) ∧ Instr.WellFormed (.addS 3 4) ∧ encode (.addS 3 4) ≠ .event := by decide +kernel
theorem witness_modes : sA.modesLegal = true ∧ sB.modesLegal = true ∧ sA.memoriesWf = true ∧ (sTurn badWord).memoriesWf = true := by decide +kernel

/-- The hypotheses of the frames: the executing context claims no lanes. -/
theorem witness_unclaimed : Spec.unclaimed sA ∧ Spec.unclaimed { sA with cores := [(0, coreOf 0 vecC)] } :=
  ⟨fun o => by simp [sA, withCtx, State.octet, State.reset, Table.find, Octet.reset],
   fun o => by simp [sA, withCtx, State.octet, State.reset, Table.find, Octet.reset]⟩
theorem witness_frames : Spec.runs (.add 5 1 2 q0) sA ∧ (Spec.intResult (.add 5 1 2 q0) sA).isSome ∧
    (Spec.numForm (.fadd 5 1 2 .f32 .rne q0)).isSome ∧ (Spec.cmpForm (.fcmp 2 1 2 .f32 .eq q0)).isSome ∧
    (Spec.vecForm (.vadd 0 0 1 .wrap q0)).isSome :=
  ⟨runs_of (by decide), by decide, by decide, by decide, by decide⟩

/-! ### Values of numbers (02 and 07 of the statements) -/

section
open Sys2Proof.Spec
/-- 1 + 2 = 3, 2 - 2 = -0 under RDN, 3 × 2 = 6, 2 × 2 + 1 = 5, 3 / 2, √4; a signalling NaN, ∞ - ∞, 1 / -0, 0 × ∞ + NaN, √-1. -/
theorem witness_floatCases :
    floatCase .add .f32 false 0x3F800000 0x40000000 0 0x40400000 0 ∧ floatCase .sub .f32 true 0x40000000 0x40000000 0 0x80000000 0 ∧
    floatCase .mul .f16 false 0x4200 0x4000 0 0x4600 0 ∧ floatCase .fma .f32 false 0x40000000 0x40000000 0x3F800000 0x40A00000 0 ∧
    floatCase .div .f32 false 0x40400000 0x40000000 0 0x3FC00000 0 ∧ floatCase .sqrt .f32 false 0x40800000 0 0 0x40000000 0 ∧
    floatCase .add .f32 false 0x7F800001 0 0 0x7FC00000 16 ∧ floatCase .sub .f32 false 0x7F800000 0x7F800000 0 0x7FC00000 16 ∧
    floatCase .div .f32 false 0x3F800000 0x80000000 0 0xFF800000 8 ∧ floatCase .fma .f32 false 0 0x7F800000 0x7FC00000 0x7FC00000 16 ∧
    floatCase .sqrt .f32 false 0xBF800000 0 0 0x7FC00000 16 :=
  ⟨.inl ⟨false, false, false, 2 ^ 149, 2 ^ 150, 0, 3 * 2 ^ 149, by decide, .inl (by decide), .inr (by decide), by simp [exactly], by unfold codeOf; decide, rfl⟩,
   .inl ⟨false, false, false, 2 ^ 150, 2 ^ 150, 0, 0, by decide, .inl (by decide), .inr (by decide), by simp [exactly], by unfold codeOf; decide, rfl⟩,
   .inl ⟨false, false, false, 3 * 2 ^ 149, 2 ^ 150, 0, 3 * 2 ^ 150, by decide, .inl (by decide), .inr (by decide), by unfold exactly; decide, by unfold codeOf; decide, rfl⟩,
   .inl ⟨false, false, false, 2 ^ 150, 2 ^ 150, 2 ^ 149, 5 * 2 ^ 149, by decide, .inl (by decide), .inl (by decide), by unfold exactly; decide, by unfold codeOf; decide, rfl⟩,
   .inl ⟨false, false, false, 3 * 2 ^ 149, 2 ^ 150, 0, 3 * 2 ^ 148, by decide, .inl (by decide), .inr (by decide), by unfold exactly; decide, by unfold codeOf; decide, rfl⟩,
   .inl ⟨false, false, false, 2 ^ 151, 0, 0, 2 ^ 150, by decide, .inr rfl, .inr (by decide), by unfold exactly; decide, by unfold codeOf; decide, rfl⟩,
   .inr (.inl ⟨fun h => absurd h.1 (by decide), .inl (by decide)⟩), .inr (.inr (.inl ⟨⟨false, by decide, by decide⟩, rfl, rfl⟩)),
   .inr (.inr (.inr ⟨rfl, false, true, 2 ^ 149, by decide, by decide, by decide, by decide, rfl⟩)),
   .inr (.inr (.inl ⟨.inl (.inr (by decide)), rfl, rfl⟩)), .inr (.inr (.inl ⟨.inr ⟨-2 ^ 149, by decide, by decide⟩, rfl, rfl⟩))⟩
/-- -0 below +0; a NaN loses to a number; a comparison with a quiet NaN. -/
theorem witness_minmax : minmaxCase false .f32 0 0x80000000 0x80000000 0 ∧ minmaxCase true .f16 0x7E00 0x3C00 0x3C00 0 ∧
    compared .lt .f32 0x7FC00000 0 = (false, 16) ∧ compared .eq .f32 0x80000000 0 = (true, 0) ∧ compared .un .f16 0x7C01 0 = (true, 16) := by
  refine ⟨?_, ?_, ?_, ?_, ?_⟩
  all_goals first
    | decide
    | (unfold minmaxCase; decide)
/-- 1.0 into F8A; a number out of range of I64; -∞ into F8B; 2^32 from I64. -/
theorem witness_conversions : fcvtCase .f8aF32 false 0x3F800000 0x38 0 ∧ fcvtCase .i64F32 false 0xFF800000 0x8000000000000000 16 ∧
    fcvtCase .f8bF32 true 0xFF800000 0xFC 0 ∧ fcvtCase .f32I64 false 0x100000000 0x4F800000 0 ∧ vcvtCase .f8aF32 true 0x7F800000 0x7E 4 :=
  ⟨.inl ⟨false, 2 ^ 149, by decide, by unfold codeOf; decide, rfl⟩, .inr (.inr (.inl ⟨.inl (by decide), by decide, rfl⟩)),
   .inr (.inr ⟨true, by decide, by decide⟩), by unfold fcvtCase fromIntCase codeOf; decide, .inr (.inr ⟨false, by decide, by decide⟩)⟩
/-- LI16 by the worked table of 09: 1 / 2 level up, x - x, x × 1, 0 / 0, x / 0; NaR; zero and 1 from F32 and back; classes. -/
theorem witness_levelCases : levelCase .div .li16 0x0800 0x1000 0x5000 0 ∧ levelCase .sub .li16 0x0800 0x0800 0 0x20 ∧
    levelCase .mul .li16 0x1000 0x0800 0x1000 0 ∧ levelCase .div .li16 0 0 0x4000 16 ∧ levelCase .div .li16 0x0800 0 0x4000 8 ∧
    levelCase .add .li16 0x4000 0x0800 0x4000 0x80 ∧ lcvtCase .li16F32 0x3F800000 0x0800 0 ∧ lcvtCase .f32Li16 0x0800 0x3F800000 0 ∧
    lcvtCase .f32Li16 0x4000 0x7FC00000 0x80 ∧ lclassOf .li16 0x0800 = 0x10020 ∧ lcompared .lt .li16 0x0800 0x1000 = (true, 0) := by
  refine ⟨.inr (.inr (.inr (.inr (.inr ⟨.inr rfl, ?_, ?_, .inl ⟨rfl, rfl, rfl⟩⟩)))),
    .inr (.inl ⟨.inr rfl, .inr (.inr (.inr ⟨?_, rfl, .inl rfl, rfl, rfl, rfl⟩))⟩),
    .inr (.inr (.inr (.inr (.inr ⟨.inl rfl, ?_, ?_, .inr (.inl ⟨rfl, rfl, rfl⟩)⟩)))),
    .inr (.inr (.inr (.inr (.inl ⟨rfl, ?_, rfl, .inl ⟨?_, rfl⟩⟩)))), .inr (.inr (.inr (.inr (.inl ⟨rfl, ?_, rfl, .inr ⟨?_, rfl⟩⟩)))),
    .inl ⟨.inl rfl, .inl ?_, rfl, rfl⟩, ?_, ?_, ?_, ?_, ?_⟩
  all_goals first
    | decide
    | (unfold lIsNum; decide)
    | (unfold lIsZero; decide)
    | (unfold lIsNar; decide)
    | (unfold lcvtCase fromLevelCase lIsNar lIsZero codeOf; decide)
    | exact .inr ⟨rfl, rfl, rfl⟩
/-- The special functions at ±∞, 0, powers of two and negative numbers (R244). -/
theorem witness_specialCases : specialCase (.vexp 0 0 q0) 0x80000000 0x3F800000 0 ∧ specialCase (.vlog 0 0 q0) 0xBF800000 0x7FC00000 16 ∧
    specialCase (.vrcp 0 0 q0) 0x40000000 0x3F000000 0 ∧ specialCase (.vrsq 0 0 q0) 0x40800000 0x3F000000 0 ∧
    specialCase (.vsig 0 0 q0) 0 0x3F000000 0 ∧ specialCase (.vtanh 0 0 q0) 0xFF800000 0xBF800000 0 :=
  ⟨.inr (.inr (.inr ⟨by decide, rfl, rfl⟩)), .inr (.inl ⟨.inr ⟨-2 ^ 149, by decide, by decide⟩, rfl, rfl⟩),
   .inr ⟨false, .inr (.inr ⟨2 ^ 150, 2 ^ 148, by decide, by decide, by decide +kernel, by unfold codeOf; decide, rfl⟩)⟩,
   .inr (.inr (.inr (.inr ⟨2 ^ 151, 2 ^ 148, by decide, by decide, by decide +kernel, by unfold codeOf; decide, rfl⟩))),
   .inr (.inr (.inr ⟨by decide, rfl, rfl⟩)), .inr ⟨true, .inl ⟨by decide, by decide, rfl⟩⟩⟩
/-- A scalar instruction and an element of a vector one that meet them. -/
theorem witness_valueCases : valueCase (.fadd 5 1 2 .f32 .none q0) 0 false 0x3F800000 0x40000000 0 0x40400000 0 ∧
    valueCase (.vfmul 0 2 3 .f16 .none q0) 0 false 0x4200 0x4000 0 0x4600 0 ∧ valueCase (.vexp 0 1 q0) 3 true 0x80000000 0 0 0x3F800000 0 :=
  ⟨witness_floatCases.1, witness_floatCases.2.2.1, witness_specialCases.1⟩
end
theorem witness_faddExact : Spec.runs (.fadd 5 1 2 .f32 .none q0) sF ∧ Spec.num .f32 (sF.gReg 1).val.toNat = .fin false (2 ^ 149) ∧
    Spec.num .f32 (sF.gReg 2).val.toNat = .fin false (2 ^ 150) ∧ Spec.num .f32 0x40400000 = .fin false (2 ^ 149 + 2 ^ 150) ∧
    (sat (exec (.fadd 5 1 2 .f32 .none q0) sF) fun t => t.gReg 5 == ⟨0x40400000, false⟩ && t.me.nflags == 0) = true :=
  ⟨runs_of (by decide), by decide, by decide, by decide, by decide +kernel⟩
/-- R245: 1.0, 2.0 and 4.0 as F8A in one element; the fourth lane is past VL. -/
theorem witness_vectorPacks : Spec.packs (.vcvt 0 2 .none .p8aF32 q0) = true ∧ Spec.lanesFor sV [0, 2] ∧
    (∀ j, j < sV.me.lanes.vl → Spec.tainted sV.me.v[2] j = false) ∧
    (sat (exec (.vcvt 0 2 .none .p8aF32 q0) sV) fun t => els t.me.v[0] 4 == [0x00484038, 0xFFFFFFFF, 0x7FFFFFFF, 44] && t.me.nflags == 0) = true :=
  ⟨rfl, by unfold Spec.lanesFor; decide +kernel, by decide +kernel, by decide +kernel⟩
/-- R87 and R225: a poisoned source in the units. -/
theorem test_unitsPoison : ([(Instr.fdiv 14 1 7 .f32 .none q0, 0x7FC00000), (.fsqrt 14 7 .f16 .none q0, 0x7E00)].all fun e =>
      sat (exec e.1 sF) fun t => (t.myCore.work.div.map fun o => (o.val, o.flags)) == some (⟨BitVec.ofNat 64 e.2, true⟩, 0)) = true ∧
    (sat (exec (.ladd 14 7 4 .li16 q0) sF) fun t => (t.myCore.work.rcr.map fun o => (o.val, o.flags)) == some (⟨0x4000, true⟩, 0)) = true := by
  decide +kernel

/-! ### Special registers (04 of the statements) -/

/-- One claim of each queue waits; an alert, a link to be rekeyed, a bell and an alarm are pending on the management core. -/
def sComp : State :=
  let k := core12 { ctxA with count := 2, lanes := ⟨8, 16, true, 8, 0⟩ } { readyC with count := 20 } Ctx.reset
  { withCore { k with poolQ := [(1, 7)] } with octets := [(0, { Octet.reset with laneQ := [⟨3, 1, 4, 0⟩] })] }
def sMreg : State :=
  { onMgmtCore { ctxA with npc := none, nnpc := none, alarm := 5 } with
    time := 9, links := [(4, { Link.reset with rekey := true })], mgmt := { Mgmt.reset with alerts := [7], host := true, mie := true, mpp := 1 } }
theorem witness_computedRegisters : (sComp.me.lanes.g ≤ 16 ∧ (∀ m, (sComp.myCore.ctx m).count ≤ 32) ∧ sComp.myCore.low ≤ 32) ∧
    (sat (exec (.mfs 9 0x009) sComp) fun t => t.gReg 9 == ⟨0x100011008, false⟩) = true ∧
    (sat (exec (.mfs 9 0x00A) sComp) fun t => t.gReg 9 == ⟨10 + 0x2000 + 0x20000 + 0x100000000 + 0x1000000000 + 2 ^ 46, false⟩) = true ∧
    (sMreg.cur.core = mgmtCore ∧ sMreg.priv = 3) ∧
    (sat (exec (.mfs 9 0x100) sMreg) fun t => t.gReg 9 == ⟨5, false⟩) = true ∧
    (sat (exec (.mfs 9 0x108) sMreg) fun t => t.gReg 9 == ⟨0x1B, false⟩) = true := by decide +kernel
theorem witness_mgmtRegisters : (sMreg.gReg 4).poison = false ∧
    (sat (exec (.mts 4 0x100) sMreg) fun t => !t.mgmt.mie && t.mgmt.mpp == 2) = true ∧
    (sat (exec (.mts 4 0x101) sMreg) fun t => t.mgmt.mcause == 0x80000000000000F8) = true ∧
    (sat (exec (.mts 4 0x107) sMreg) fun t => t.mgmt.mien == 0x18) = true ∧
    (sat (exec (.mts 4 0x108) sMreg) fun t => !t.mgmt.host && t.mgmt.alerts == [7]) = true := by decide +kernel
/-- R139: the loop-back at the retire of an MTS to LC0, at the end of that loop, goes by the old count. -/
theorem witness_mtsLoop :
    let s := withCtx { ctxA with npc := none, nnpc := none, loops := ctxA.loops.set 0 ⟨5, 0x900, 0x1000⟩ }
    (Spec.written s.retire.me (s.gReg 1).val 0x016).isSome = true ∧
    (sat (exec (.mts 1 0x016) s) fun t => t.me.loops[0].lc == 5) = true := by decide +kernel
/-- R103 and R412: escalation takes back the lease. -/
theorem test_escalateLease : (((withTask { coreOf 0 (sup ctxA) with lease := 5 }).takeTrap 0 0 5 6).core 0).lease = 0 := by decide +kernel

/-! ### Further conditions of the statements (05 to 13 of them) -/

/-- R111: a store to SAVEMAP keeps bits 10:0 alone, and clears the bytes above it. -/
theorem witness_saveMap :
    let s := withCore { coreOf 0 { sup ctxA with g := ctxA.g.set 8 ⟨0xFFFFFFFFFFE8, false⟩ } with ls := Memory.empty }
    Spec.ownLs s (Spec.address s 8 0) 8 0x1FE8 ∧ (sat (exec (.std 4 8 .core .plain 0) s) fun t =>
      (t.core 0).ls.read 0x1FE8 8 == ⟨0x7F8, false⟩) = true ∧ (sat (exec (.std 4 8 .core .plain 1) s) fun t =>
      (t.core 0).ls.read 0x1FF0 8 == ⟨0, false⟩) = true := by
  refine ⟨⟨rfl, ?_, ?_, ?_⟩, ?_, ?_⟩ <;> decide +kernel
/-- R198: an access waits at the bank that BANKMODE names; the management core has none. -/
def sBankWait : State :=
  { sM with clusters := [(0, { (Cluster.reset.setMode 5 .fifo) with fifos := [(5, ⟨[], 0, [⟨2, 0, false, 1⟩]⟩)] })] }
theorem witness_bankmodeWaiter : (sBankWait.cluster 0).mode 5 = .fifo ∧ (sBankWait.fifo 0 5).waiters ≠ [] ∧
    (sat (exec (.bankmode 9 1 0 q0) sBankWait) fun t => t.me.tr.tcause == 7 && t.me.tr.tval == 0xFFFFFFF05000) = true := by decide +kernel
theorem witness_bankmodeOnManagement : sB.cur.core = mgmtCore ∧
    (sat (exec (.bankmode 9 1 0 q0) sB) fun t => t.gReg 9 == ⟨0, false⟩) = true ∧
    (sat (exec (.bankmode 9 1 13 q0) { sB.putG 13 2 with mgmt := { Mgmt.reset with mie := true } }) fun t => t.mgmt.mcause == 7 && t.mgmt.mtval == 0xFFFFFFF05000) = true := by
  decide +kernel

/-- R376 and R377: a ninth flit, a packet of none, an instruction that would wait, the 65th instruction. -/
def pkt16 : OpenPacket := { full14 with flits := List.replicate 16 ⟨1, false⟩ }
def pkt0 : OpenPacket := ⟨5, none, [], 0xFF0, 64⟩
theorem witness_packetLimits : 16 < pkt16.flits.length + 2 * ((0 : BitVec 3).toNat + 1) ∧
    (sat (exec (.pka 8 0) (sP (some pkt16) 0)) fun t => t.me.tr.tcause == 0x0F && t.me.tr.tval == 0xFF0) = true ∧
    (sat (exec .pks (sP (some pkt0) 0)) fun t => t.me.tr.tcause == 0x0F && t.me.tr.tval == 0xFF0) = true ∧
    (sat (exec (.sleep 1) (sP none 0)) fun t => t.me.st == .waiting) = true ∧
    (sat (exec (.sleep 1) (sP (some okPacket) 0)) fun t => t.me.tr.tcause == 0x0F && t.me.tr.tval == 0xFF0) = true ∧
    (match (issueInstr (.add 9 1 2 q0) (sP (some pkt0) 0)).2 with | some (.next t) => t.me.tr.tcause == 0x0F | _ => false) = true ∧
    (match (issueInstr (.add 9 1 2 q0) (sP (some okPacket) 0)).2 with
      | some (.next t) => t.gReg 9 == ⟨12, false⟩ && (t.me.packet.map (·.issued)) == some 2
      | _ => false) = true := by decide +kernel
theorem witness_rxpopWaits : (sRx []).me.packet = none ∧
    (sat (exec (.rxpop 5 false) (sRx [])) fun t => t.me.st == .waiting && t.me.wait == some (.rxpop 5 false)) = true := by decide +kernel

/-- R237: a claim of lanes on the core that has none. -/
theorem witness_vclaimManagement :
    let s := onMgmtCore { ctxA with g := ctxA.g.set 9 ⟨8, false⟩ }
    Spec.runs (.vclaim 5 9 q1) s ∧ Spec.quiet s ∧ Spec.noClaims s ∧
    (sat (exec (.vclaim 5 9 q1) s) fun t => t.me.st == .waiting && t.me.lanes.g == 0) = true ∧
    (sat (exec (.vclaim 5 0 q1) s) fun t => t.gReg 5 == ⟨0, false⟩ && t.me.st == .ready) = true :=
  ⟨runs_of (by decide), quiet_of (by decide +kernel), noClaims_of rfl rfl, by decide +kernel, by decide +kernel⟩
/-- R112: a context that CTXLOAD left STOPPED is saved as the core stops. -/
theorem witness_unsavedStop :
    let s := at0 (withCore { coreOf 0 { ctxA with st := .stopped, unsaved := true } with stop := some .displace })
    ((s.ctx 0 0).unsaved = true ∧ (s.core 0).ls.wf = true) ∧
    (sat (exec .contextStop s) fun t => (t.ctx 0 0).st == .stopped && !(t.ctx 0 0).unsaved && (t.core 0).ls.read 0x1800 8 == ⟨5, false⟩) = true := by
  decide +kernel

/-- R181: the number of the issuing helper has a new user. -/
theorem witness_ackOfFormer :
    let s := { s12 { readyC with gen := 3 } Ctx.reset with fabric := [(0, .tstAck none 0 1 2 true false false)], ev := Ev.none }
    (s.ctx (s.physOf 0) 1).live = true ∧ (s.ctx (s.physOf 0) 1).gen ≠ 2 ∧
    (sat (exec .timedStoreAck s) fun t => (t.ctx 0 0).ipend == 4 && (t.ctx 0 1).ipend == 0) = true := by decide +kernel
/-- R178: a plain store of a kept task goes past the cache. -/
theorem witness_heldStore :
    let e := { portE .plain 4 none with held := some ref3 }
    Spec.onePort (sPort 0 e Slice.reset) 0 e ∧ (sat (exec .plainStoreArrive (sPort 0 e Slice.reset)) fun t =>
      t.hbm.read 0x2000 8 == ⟨3, false⟩ && (t.cluster 0).lines.isEmpty) = true :=
  ⟨by unfold Spec.onePort; decide +kernel, by decide +kernel⟩
/-- R184: requests of device 5 at 0x2000, which holds 5, and their answers. -/
def sPeer (r : PeerReq) : State :=
  let s := sHome (coreOf 0 ctxA) Slice.reset
  { s with fabric := [(7, .access ⟨7, 5, 1, 3⟩ 0x2000 true r false)], ev := { s.ev with ok2 := true }, seq := 20 }
def answered (t : State) (a : PeerAnswer) : Bool := t.fabric == [(20, .answer ⟨7, 5, 1, 3⟩ a)]
theorem witness_peersServed : Spec.atHome (sPeer (.read 8)) 0x2000 8 ∧
    (sat (exec .loadReplyLand (sPeer (.read 8))) fun t => answered t (.value ⟨5, false⟩ false)) = true ∧
    (sat (exec .plainStoreArrive (sPeer (.write 8 ⟨9, false⟩ .no))) fun t => answered t .done && t.hbm.read 0x2000 8 == ⟨9, false⟩) = true ∧
    (sat (exec .atomicAtHome (sPeer (.atom .add 8 ⟨9, false⟩))) fun t => answered t (.value ⟨5, false⟩ false) && t.hbm.read 0x2000 8 == ⟨14, false⟩) = true ∧
    (sat (exec .mergeArrive (sPeer (.merge .add 8 ⟨9, false⟩ .no))) fun t => answered t .done && t.hbm.read 0x2000 8 == ⟨14, false⟩) = true ∧
    (sat (exec .tldServe (sPeer (.tld 1000))) fun t => t.fabric.map (·.1) == [7]) = true ∧
    (sat (exec .tldServe (sPeer (.tld 743))) fun t => answered t (.value ⟨5, false⟩ true)) = true ∧
    (sat (exec .timedStoreArrive (sPeer (.tst 1001 ⟨9, false⟩ false .no))) fun t => answered t (.stored false false false) &&
      ((t.slice homeOf).tq.map fun q => (q.instant, q.origin.peer)) == [(some 1001, 5)]) = true ∧
    (sat (exec .timedStoreArrive (sPeer (.tst 999 ⟨9, false⟩ false .no))) fun t => answered t (.stored true false false) &&
      t.hbm.read 0x2000 8 == ⟨9, false⟩) = true :=
  ⟨⟨by decide, .inr (.inr (.inr rfl)), by decide, rfl, by decide +kernel, by decide +kernel⟩, by decide +kernel, by decide +kernel,
    by decide +kernel, by decide +kernel, by decide +kernel, by decide +kernel, by decide +kernel, by decide +kernel⟩
/-- R384: the source of a peer's FETCHTO for core 3 there, tag 4. -/
theorem witness_peerFetch :
    let rw : Word := BitVec.ofNat 64 (3 * 2 ^ 30 + 4 * 2 ^ 23)
    Spec.onlyMsg (sPeer (.fetch 6 8 rw 0x40)) (.access ⟨7, 5, 1, 3⟩ 0x2000 true (.fetch 6 8 rw 0x40) false) ∧ rwMc rw = false ∧
    (sat (exec .fetchtoSourceRead (sPeer (.fetch 6 8 rw 0x40))) fun t =>
      t.fabric.map (·.2) == [.reply 5 7 6 3 5 3 0x40 4 [⟨5, false⟩] none]) = true :=
  ⟨by unfold Spec.onlyMsg; decide +kernel, by decide, by decide +kernel⟩

/-- A core without a task; the management core. -/
theorem witness_withoutTask : sA.myCore.bind.task = none ∧ Spec.quiet sA ∧ Spec.emptyCluster sA ∧
    (sat (exec (.tinfo 5 9 q1) sA) fun t => t.gReg 5 == ⟨0, false⟩) = true ∧
    (sat (exec (.spawn 5 0 q1) sA) fun t => t.pReg 1 == ⟨false, false⟩ && t.me.pc == 0x1004) = true ∧
    (sat (exec (.launch 5 0 q1) sB) fun t => t.pReg 1 == ⟨false, false⟩) = true :=
  ⟨rfl, quiet_of (by decide +kernel), ⟨rfl, rfl, rfl, rfl⟩, by decide +kernel, by decide +kernel, by decide +kernel⟩
/-- R182: a footprint with reads whose release has not closed. -/
theorem witness_footprintWaits :
    let k := { task3 with phase := .fetching 5, desc := base0.set 5 0x40, release := some 500 }
    let s : State := { sStart (.fetching 5) 5 with sectors := [(0, sectorOf0 [(3, k)])], ev := { Ev.none with core := 5, idx := 3, ok := true } }
    (descReads k.desc ≠ [] ∧ sat (exec .footprintLanded s) (fun t => (Table.find (t.sector 0).tasks 3).map (·.phase) == some (.awaiting 5)) = true) := by
  decide +kernel
/-- R407: brakes hold jobs and copies, and pause cores. -/
theorem witness_brakes :
    disabledB (exec .matrixJobStart { sEng [jobZ 0 false] none none .free with spine := { Spine.reset with brake := 2 } }) = true ∧
    disabledB (exec .copyQueueHead { sCopy { Chan.reset with queue := [copyOf 0xFFFFFFFFE040] } with spine := { Spine.reset with brake := 2 } }) = true ∧
    Spec.copyMoves (sCopy Chan.reset) (copyOf 0xFFFFFFFFE040) ∧
    (sat (step { sTurn (code [.add 5 1 2 q0]) with spine := { Spine.reset with brake := 3 } }) fun t => t.agenda.isEmpty && (t.ctx 0 0).pc == 0x1000) = true :=
  ⟨by decide +kernel, by decide +kernel, ⟨by decide, rfl, fun _ _ h => by cases h⟩, by decide +kernel⟩
/-- R298: a channel's one write to HBM is performed there. -/
theorem witness_copyWrite :
    let s0 := sHome (coreOf 0 ctxA) Slice.reset
    let w : CopyWrite := ⟨1, .phys 0x2000 true, 0x2000, 8, ⟨9, false⟩, none⟩
    let s : State := { s0 with octets := [(0, { Octet.reset with chans := Octet.reset.chans.set 2 { Chan.reset with cur := some (copyOf 0xFFFFFFFFE040), state := .running, writes := [w] } })],
                               ev := { Ev.none with idx := 2 }, clusters := [] }
    Spec.atHome s 0x2000 8 ∧ (sat (exec .copyComplete s) fun t => t.hbm.read 0x2000 8 == ⟨9, false⟩) = true :=
  ⟨⟨by decide, .inr (.inr (.inr rfl)), by decide, rfl, by decide +kernel, by decide +kernel⟩, by decide +kernel⟩
/-- R286: a tag whose task has ended, and one whose task is displaced. -/
theorem witness_tagsOfTasks :
    let gone := { withCtx ctxA with fabric := [(0, .tag 0 9 false (some ref3))] }
    let off := { sAway with fabric := [(3, .tag 0 9 false (some ref3))] }
    (gone.taskAt ref3 = none ∧ sat (exec .forwardedTag gone) (fun t => t.fabric.isEmpty) = true) ∧
    ((off.taskAt ref3).map (·.phase) = some .displaced ∧ disabledB (exec .forwardedTag off) = true) := by decide +kernel
/-- The softmax instructions with the mapping of HBM ending before the fourth. -/
def sSoftAt : State := { sSoft 3 with clusters := [(0, { clusterMap with tlb := [{ mapAll with size := 0x100C }] })] }
/-- R252: the fourth halfword stands where HBM does not reach. -/
theorem witness_softmaxFetch : (sSoftAt.peekHalf 0 (sSoftAt.me.pc + 12) = none ∧ Spec.lanesFor sSoftAt [1, 2, 0]) ∧
    (sat (exec .fusedSoftmax sSoftAt) fun t => t.me.tr.tcause == 3 && t.me.tr.tval == sSoftAt.me.pc + 12 && t.me.v == vecC.v) = true :=
  ⟨⟨by decide +kernel, by unfold Spec.lanesFor; decide +kernel⟩, by decide +kernel⟩

end Sys2Proof.Tests
end

section
/-! PROOFS (O58). What it is for a state, a core and an outcome to hold canonical memories, and that the updates of the state keep
it. For each function `f` that a step runs, a lemma `….Canon.f` below says that `f` keeps it; where `f` returns a pair or an
option, the lemma takes the equation that names its result. A lemma cites those of the functions that `f` calls, so that a
proof reads as `f` does: `h.setG.retire.next`. -/

namespace Sys2Proof.Machine

/-! ### The invariant, by part -/

/-- Both memories of a core are canonical (R185, R376). -/
structure Core.Canon (k : Core) : Prop where
  ls : k.ls.wf = true
  inj : k.inj.wf = true

/-- The bank memory of a cluster is canonical (R196). -/
structure Cluster.Canon (k : Cluster) : Prop where
  sram : k.sram.wf = true

/-- The memories of the flash block are canonical (R427). -/
structure Flash.Canon (f : Flash) : Prop where
  cells : flashWf 0 f.cells = true
  fdata : f.fdata.wf = true
  runData : f.runData.wf = true

/-- Every memory of the device is canonical: what O58 states of a step. -/
structure State.Canon (s : State) : Prop where
  hbm : s.hbm.wf = true
  cores : ∀ e ∈ s.cores, e.2.Canon
  clusters : ∀ e ∈ s.clusters, e.2.Canon
  flash : s.flash.Canon

/-- An outcome's next state, if it has one, holds canonical memories. -/
structure Res.Canon (r : Res) : Prop where
  out : ∀ {t}, r = .next t → t.Canon

/-- A step of a copy that moves something leaves canonical memories. -/
structure Moved.Canon (m : Moved) : Prop where
  ok : ∀ {t}, m = .ok t → t.Canon

/-- A read of a copy leaves canonical memories, or else it is a step that does. -/
structure Moved.CanonRead {α : Type} (r : (α × State) ⊕ Moved) : Prop where
  inl : ∀ {p}, r = .inl p → p.2.Canon
  inr : ∀ {m}, r = .inr m → m.Canon

/-- An attempt to issue: the state that it leaves is canonical, and so is what it comes to when it issues. -/
structure Issued.Canon (p : State × Option Res) : Prop where
  state : p.1.Canon
  res : ∀ {r}, p.2 = some r → r.Canon

theorem Core.canon_iff (k : Core) : k.Canon ↔ (k.ls.wf && k.inj.wf) = true := by
  rw [Bool.and_eq_true]
  exact ⟨fun h => ⟨h.ls, h.inj⟩, fun h => ⟨h.1, h.2⟩⟩

theorem Cluster.canon_iff (k : Cluster) : k.Canon ↔ k.sram.wf = true := ⟨fun h => h.sram, fun h => ⟨h⟩⟩

theorem State.canon_iff (s : State) : s.Canon ↔ s.memoriesWf = true := by
  simp only [State.memoriesWf, Bool.and_eq_true, List.all_eq_true]
  constructor
  · intro h
    exact ⟨⟨⟨⟨⟨h.hbm, fun e he => by simpa using (Core.canon_iff _).1 (h.cores e he)⟩, fun e he => (h.clusters e he).sram⟩,
      h.flash.cells⟩, h.flash.fdata⟩, h.flash.runData⟩
  · rintro ⟨⟨⟨⟨⟨hhbm, hcores⟩, hclusters⟩, hcells⟩, hfdata⟩, hrun⟩
    exact ⟨hhbm, fun e he => (Core.canon_iff _).2 (by simpa using hcores e he), fun e he => ⟨hclusters e he⟩, hcells, hfdata, hrun⟩

/-- An update of a core that leaves its memories. -/
theorem Core.Canon.update {k : Core} (h : k.Canon)
    {lcn bind last ctxs rx low poolQ tags tagerr tlm tlc tlf tlv guards drops faults work jobs psrc pdst lease point ask coret act stop lead} :
    Core.Canon ⟨lcn, bind, last, ctxs, k.ls, k.inj, rx, low, poolQ, tags, tagerr, tlm, tlc, tlf, tlv, guards, drops, faults, work,
      jobs, psrc, pdst, lease, point, ask, coret, act, stop, lead⟩ := ⟨h.ls, h.inj⟩

/-- A core with the memories given. -/
theorem Core.Canon.of {ls inj : Memory} (hls : ls.wf = true) (hinj : inj.wf = true)
    {lcn bind last ctxs rx low poolQ tags tagerr tlm tlc tlf tlv guards drops faults work jobs psrc pdst lease point ask coret act stop lead} :
    Core.Canon ⟨lcn, bind, last, ctxs, ls, inj, rx, low, poolQ, tags, tagerr, tlm, tlc, tlf, tlv, guards, drops, faults, work,
      jobs, psrc, pdst, lease, point, ask, coret, act, stop, lead⟩ := ⟨hls, hinj⟩

/-- An update of a core that gives it another local store. -/
theorem Core.Canon.setLs {k : Core} (h : k.Canon) {m : Memory} (hm : m.wf = true)
    {lcn bind last ctxs rx low poolQ tags tagerr tlm tlc tlf tlv guards drops faults work jobs psrc pdst lease point ask coret act stop lead} :
    Core.Canon ⟨lcn, bind, last, ctxs, m, k.inj, rx, low, poolQ, tags, tagerr, tlm, tlc, tlf, tlv, guards, drops, faults, work,
      jobs, psrc, pdst, lease, point, ask, coret, act, stop, lead⟩ := .of hm h.inj

/-- An update of a core that gives it another injection window. -/
theorem Core.Canon.setInj {k : Core} (h : k.Canon) {m : Memory} (hm : m.wf = true)
    {lcn bind last ctxs rx low poolQ tags tagerr tlm tlc tlf tlv guards drops faults work jobs psrc pdst lease point ask coret act stop lead} :
    Core.Canon ⟨lcn, bind, last, ctxs, k.ls, m, rx, low, poolQ, tags, tagerr, tlm, tlc, tlf, tlv, guards, drops, faults, work,
      jobs, psrc, pdst, lease, point, ask, coret, act, stop, lead⟩ := .of h.ls hm

/-- An update of a cluster that leaves its bank memory. -/
theorem Cluster.Canon.update {k : Cluster} (h : k.Canon)
    {modes wild fifos lines wbs acc merges tlb icacheAt launches power} :
    Cluster.Canon ⟨modes, k.sram, wild, fifos, lines, wbs, acc, merges, tlb, icacheAt, launches, power⟩ := ⟨h.sram⟩

/-- An update of the flash block that leaves its memories. -/
theorem Flash.Canon.update {f : Flash} (h : f.Canon) {faddr busy err runAddr training} :
    Flash.Canon ⟨f.cells, faddr, f.fdata, busy, err, runAddr, f.runData, training⟩ := ⟨h.cells, h.fdata, h.runData⟩

/-- A flash block with the memories given. -/
theorem Flash.Canon.of {cells : List Host.Cell} {fdata runData : Memory} (hcells : flashWf 0 cells = true) (hfdata : fdata.wf = true)
    (hrun : runData.wf = true) {faddr busy err runAddr training} :
    Flash.Canon ⟨cells, faddr, fdata, busy, err, runAddr, runData, training⟩ := ⟨hcells, hfdata, hrun⟩

theorem Core.reset_canon (c : CoreId) : (Core.reset c).Canon := ⟨rfl, rfl⟩

/-- A core that is not listed is at its reset value, and its memories are empty. -/
theorem State.Canon.core {s : State} (h : s.Canon) {c : CoreId} : (s.core c).Canon := by
  unfold State.core
  cases hf : Table.find s.cores c with
  | none => exact Core.reset_canon c
  | some k =>
    have hall : s.cores.all (fun e => e.2.ls.wf && e.2.inj.wf) = true :=
      List.all_eq_true.2 fun e he => (Core.canon_iff _).1 (h.cores e he)
    exact (Core.canon_iff _).2 (all_find hall hf)

theorem State.Canon.cluster {s : State} (h : s.Canon) {c : Nat} : (s.cluster c).Canon := by
  unfold State.cluster
  cases hf : Table.find s.clusters c with
  | none => exact ⟨rfl⟩
  | some k =>
    have hall : s.clusters.all (fun e => e.2.sram.wf) = true := List.all_eq_true.2 fun e he => (h.clusters e he).sram
    exact ⟨all_find hall hf⟩

/-! ### Updates of the state -/

/-- An update of the state that leaves its memories. -/
theorem State.Canon.update {s : State} (h : s.Canon)
    {agenda turn cur ev held fresh seq time wiping wiped fabric routed octets groups sectors slices regions links spine mgmt host} :
    State.Canon ⟨agenda, turn, cur, ev, held, fresh, seq, time, s.hbm, wiping, wiped, fabric, routed, s.cores, octets, s.clusters,
      groups, sectors, slices, regions, links, spine, mgmt, s.flash, host⟩ := ⟨h.hbm, h.cores, h.clusters, h.flash⟩

theorem State.Canon.setHbm {s : State} (h : s.Canon) {m : Memory}
    {agenda turn cur ev held fresh seq time wiping wiped fabric routed octets groups sectors slices regions links spine mgmt host}
    (hm : m.wf = true) :
    State.Canon ⟨agenda, turn, cur, ev, held, fresh, seq, time, m, wiping, wiped, fabric, routed, s.cores, octets, s.clusters,
      groups, sectors, slices, regions, links, spine, mgmt, s.flash, host⟩ := ⟨hm, h.cores, h.clusters, h.flash⟩

theorem State.Canon.setFlash {s : State} (h : s.Canon) {f : Flash}
    {agenda turn cur ev held fresh seq time wiping wiped fabric routed octets groups sectors slices regions links spine mgmt host}
    (hf : f.Canon) :
    State.Canon ⟨agenda, turn, cur, ev, held, fresh, seq, time, s.hbm, wiping, wiped, fabric, routed, s.cores, octets, s.clusters,
      groups, sectors, slices, regions, links, spine, mgmt, f, host⟩ := ⟨h.hbm, h.cores, h.clusters, hf⟩

/-- An update of every core. -/
theorem State.Canon.mapCores {s : State} (h : s.Canon) {f : Nat × Core → Nat × Core}
    {agenda turn cur ev held fresh seq time wiping wiped fabric routed octets groups sectors slices regions links spine mgmt host}
    (hf : ∀ e, e.2.Canon → (f e).2.Canon) :
    State.Canon ⟨agenda, turn, cur, ev, held, fresh, seq, time, s.hbm, wiping, wiped, fabric, routed, s.cores.map f, octets, s.clusters,
      groups, sectors, slices, regions, links, spine, mgmt, s.flash, host⟩ := by
  refine ⟨h.hbm, ?_, h.clusters, h.flash⟩
  simp only [List.mem_map]
  rintro _ ⟨e, he, rfl⟩
  exact hf e (h.cores e he)

/-- An update of every cluster. -/
theorem State.Canon.mapClusters {s : State} (h : s.Canon) {f : Nat × Cluster → Nat × Cluster}
    {agenda turn cur ev held fresh seq time wiping wiped fabric routed octets groups sectors slices regions links spine mgmt host}
    (hf : ∀ e, e.2.Canon → (f e).2.Canon) :
    State.Canon ⟨agenda, turn, cur, ev, held, fresh, seq, time, s.hbm, wiping, wiped, fabric, routed, s.cores, octets, s.clusters.map f,
      groups, sectors, slices, regions, links, spine, mgmt, s.flash, host⟩ := by
  refine ⟨h.hbm, h.cores, ?_, h.flash⟩
  simp only [List.mem_map]
  rintro _ ⟨e, he, rfl⟩
  exact hf e (h.clusters e he)

theorem State.Canon.setCore {s : State} (h : s.Canon) {c : CoreId} {k : Core} (hk : k.Canon) : (s.setCore c k).Canon := by
  have hall : s.cores.all (fun e => e.2.ls.wf && e.2.inj.wf) = true :=
    List.all_eq_true.2 fun e he => (Core.canon_iff _).1 (h.cores e he)
  have hput := all_put (fun e => e.2.ls.wf && e.2.inj.wf) s.cores c k hall ((Core.canon_iff k).1 hk)
  exact ⟨h.hbm, fun e he => (Core.canon_iff _).2 (List.all_eq_true.1 hput e he), h.clusters, h.flash⟩

theorem State.Canon.setCluster {s : State} (h : s.Canon) {c : Nat} {k : Cluster} (hk : k.Canon) :
    (s.setCluster c k).Canon := by
  have hall : s.clusters.all (fun e => e.2.sram.wf) = true := List.all_eq_true.2 fun e he => (h.clusters e he).sram
  have hput := all_put (fun e => e.2.sram.wf) s.clusters c k hall hk.sram
  exact ⟨h.hbm, h.cores, fun e he => ⟨List.all_eq_true.1 hput e he⟩, h.flash⟩

theorem State.Canon.modCore {s : State} (h : s.Canon) {c : CoreId} {f : Core → Core} (hf : ∀ k, k.Canon → (f k).Canon) :
    (s.modCore c f).Canon := h.setCore (hf _ h.core)

/-! ### Outcomes, branching and folding -/

theorem State.Canon.next {t : State} (h : t.Canon) : Res.Canon (.next t) where
  out := by rintro _ ⟨⟩; exact h

theorem Res.Canon.fault {f : Fault} : Res.Canon (.fault f) := ⟨nofun⟩
theorem Res.Canon.refused {r : Refusal} : Res.Canon (.refused r) := ⟨nofun⟩

theorem State.Canon.ite {c : Prop} [Decidable c] {s t : State} (hs : s.Canon) (ht : t.Canon) : (if c then s else t).Canon := by
  split
  · exact hs
  · exact ht

theorem Res.Canon.ite {c : Prop} [Decidable c] {r k : Res} (hr : Res.Canon r) (hk : Res.Canon k) : Res.Canon (if c then r else k) := by
  split
  · exact hr
  · exact hk

theorem Core.Canon.ite {c : Prop} [Decidable c] {k l : Core} (hk : k.Canon) (hl : l.Canon) : (if c then k else l).Canon := by
  split
  · exact hk
  · exact hl

theorem State.Canon.moved {t : State} (h : t.Canon) : Moved.Canon (.ok t) where
  ok := by rintro _ ⟨⟩; exact h

theorem Moved.Canon.fault {a : Word} {w : Bool} {k : BitVec 8} : Moved.Canon (.fault a w k) := ⟨nofun⟩
theorem Moved.Canon.wait : Moved.Canon .wait := ⟨nofun⟩

theorem State.Canon.read {α : Type} {t : State} (h : t.Canon) {a : α} : Moved.CanonRead (.inl (a, t)) where
  inl := by rintro _ ⟨⟩; exact h
  inr := nofun

theorem Moved.Canon.read {α : Type} {m : Moved} (h : m.Canon) : Moved.CanonRead (α := α) (.inr m) where
  inl := nofun
  inr := by rintro _ ⟨⟩; exact h

theorem State.Canon.held {s : State} (h : s.Canon) : Issued.Canon (s, none) := ⟨h, nofun⟩

theorem State.Canon.issued {s : State} (h : s.Canon) {r : Res} (hr : r.Canon) : Issued.Canon (s, some r) where
  state := h
  res := by rintro _ ⟨⟩; exact hr

/-- A step of the device that its rule guards. -/
theorem State.Canon.guardEvent {t : State} (h : t.Canon) {ok : Bool} : Res.Canon (guardEvent ok (.next t)) := .ite h.next .refused

theorem Res.Canon.guardEvent {k : Res} (h : Res.Canon k) {ok : Bool} : Res.Canon (guardEvent ok k) := .ite h .refused

theorem State.Canon.foldl {α : Type} {s : State} (h : s.Canon) {l : List α} {f : State → α → State}
    (hf : ∀ s a, s.Canon → (f s a).Canon) : (l.foldl f s).Canon :=
  l.foldlRecOn f h fun s hs a _ => hf s a hs

theorem Core.Canon.foldl {α : Type} {k : Core} (h : k.Canon) {l : List α} {f : Core → α → Core}
    (hf : ∀ k a, k.Canon → (f k a).Canon) : (l.foldl f k).Canon :=
  l.foldlRecOn f h fun k hk a _ => hf k a hk

theorem Memory.foldl_wf {α : Type} {m : Memory} (h : m.wf = true) {l : List α} {f : Memory → α → Memory}
    (hf : ∀ m a, m.wf = true → (f m a).wf = true) : (l.foldl f m).wf = true :=
  l.foldlRecOn (motive := fun m => m.wf = true) f h fun m hm a _ => hf m a hm

/-! ### The cells of the flash part -/

theorem flashWf_cons {lo a : Nat} {b : Byte} {r : List Host.Cell} :
    flashWf lo ((a, b) :: r) = true ↔ lo ≤ a ∧ b ≠ 0xFF ∧ flashWf (a + 1) r = true := by
  simp [flashWf, and_assoc]

theorem flashWf_mono {lo hi : Nat} {l : List Host.Cell} (h : flashWf hi l = true) (hle : lo ≤ hi) : flashWf lo l = true := by
  cases l with
  | nil => rfl
  | cons e r =>
    obtain ⟨ha, hb, hr⟩ := flashWf_cons.1 h
    exact flashWf_cons.2 ⟨by omega, hb, hr⟩

theorem flashSet_wf {lo a : Nat} {b : Byte} {l : List Host.Cell} (h : flashWf lo l = true) (ha : lo ≤ a) :
    flashWf lo (flashSet l a b) = true := by
  induction l generalizing lo with
  | nil =>
    unfold flashSet
    split
    · rfl
    · next hb => exact flashWf_cons.2 ⟨ha, hb, rfl⟩
  | cons e r ih =>
    obtain ⟨hi, hc, hr⟩ := flashWf_cons.1 h
    unfold flashSet
    split
    · next hlt =>
      split
      · exact h
      · next hb => exact flashWf_cons.2 ⟨ha, hb, flashWf_cons.2 ⟨hlt, hc, hr⟩⟩
    · split
      · next heq =>
        split
        · exact flashWf_mono hr (by omega)
        · next hb => exact flashWf_cons.2 ⟨hi, hb, hr⟩
      · exact flashWf_cons.2 ⟨hi, hc, ih hr (by omega)⟩

theorem flashWf_filter {lo : Nat} {l : List Host.Cell} (h : flashWf lo l = true) (p : Host.Cell → Bool) :
    flashWf lo (l.filter p) = true := by
  induction l generalizing lo with
  | nil => rfl
  | cons e r ih =>
    obtain ⟨hi, hc, hr⟩ := flashWf_cons.1 h
    rw [List.filter_cons]
    split
    · exact flashWf_cons.2 ⟨hi, hc, ih hr⟩
    · exact ih (flashWf_mono hr (by omega))

end Sys2Proof.Machine
end

section
/-! PROOFS (O58). Operations of a core, of a cluster and of the flash block keep their memories canonical. -/

namespace Sys2Proof.Machine

section
variable {k : Core} (h : k.Canon)
include h

theorem Core.Canon.setCtx {n x} : (k.setCtx n x).Canon := h.update
theorem Core.Canon.counts {f : Activity → Activity} : (k.counts f).Canon := h.update
theorem Core.Canon.modLive {f : Ctx → Ctx} : (k.modLive f).Canon := h.foldl (fun _ _ h1 => .ite h1.setCtx h1)
theorem Core.Canon.latchAll {bits} : (k.latchAll bits).Canon := h.modLive
theorem Core.Canon.setTag {i} : (k.setTag i).Canon := .ite h h.update.latchAll
theorem Core.Canon.setTagErr {i} : (k.setTagErr i).Canon := .ite h h.update.modLive
theorem Core.Canon.completeTlc {ns} : (k.completeTlc ns).Canon := .ite h.update h.update.latchAll
theorem Core.Canon.noteLow : k.noteLow.Canon := h.update
theorem Core.Canon.stopAll : k.stopAll.Canon := h.modLive
theorem Core.Canon.noteIssue {n} : (k.noteIssue n).Canon := h.counts.update.foldl (fun _ _ h1 => .ite h1 h1.setCtx)
theorem Core.Canon.setLoad {id} {f : LoadEntry → Option LoadEntry} : (k.setLoad id f).Canon := h.update
theorem Core.Canon.setPort {id} {f : PortEntry → Option PortEntry} : (k.setPort id f).Canon := h.update
theorem Core.Canon.setGuard {g v} : (k.setGuard g v).Canon := h.update
theorem Core.Canon.useGuard {g} : (k.useGuard g).Canon := .ite h.setGuard h
theorem Core.Canon.forTask {c b} : (k.forTask c b).Canon := (Core.reset_canon _).setLs h.ls
theorem Core.Canon.wakeLaunch : k.wakeLaunch.Canon := h.modLive
theorem Core.Canon.takeTlv : k.takeTlv.Canon := h.update
theorem Core.Canon.doneTlv {n} : (k.doneTlv n).Canon := h.update
theorem Core.Canon.setVec {id} {f : VecEntry → Option VecEntry} : (k.setVec id f).Canon := h.update

theorem Core.Canon.jobDone {j st} : (k.jobDone j st).Canon :=
  .ite h.update.latchAll (.ite h.update.latchAll.setTagErr h.update.latchAll.setTag)

theorem Core.Canon.addFault {w} : (k.addFault w).Canon := by
  unfold Core.addFault
  refine .ite h.update ?_
  split
  · exact h.update
  · exact h

theorem Core.Canon.remoteFault {recipient kind tag addr} : (k.remoteFault recipient kind tag addr).Canon := h.setTagErr.addFault

theorem Core.Canon.wakeRxpop : k.wakeRxpop.Canon := by
  unfold Core.wakeRxpop
  refine h.foldl fun _ _ h1 => ?_
  extract_lets x
  split
  · exact h1.setCtx
  · exact h1

theorem Core.Canon.dropRemote {num} : (k.dropRemote num).Canon := h.update
theorem Core.Canon.completeTlf {num} : (k.completeTlf num).Canon := h.update

theorem Core.Canon.answered {o fail} : (k.answered o fail).Canon := by
  unfold Core.answered
  extract_lets k1 _ _ k2
  have hk1 : k1.Canon := by
    unfold k1
    split
    · exact h.addFault
    · exact h
  have hk2 : k2.Canon := hk1.update
  exact .ite (Core.Canon.ite hk2.setTagErr hk2.setTag).completeTlf hk1.update

theorem Core.Canon.boundary {p} : (k.boundary p).Canon := h.update.update
theorem Core.Canon.resleep {now old} : (k.resleep now old).Canon := h.update

theorem Core.Canon.saveSlot {n} : (k.saveSlot n).Canon := by
  unfold Core.saveSlot
  extract_lets m
  have hm : m.wf = true := Memory.foldl_wf h.ls fun _ _ hm => Memory.write_wf hm _ _ _
  exact h.setCtx.setLs (lsWrite_wf hm _ _ _)

theorem Core.Canon.leaveUnits {n} : (k.leaveUnits n).Canon := h.update

end

section
variable {k : Cluster} (h : k.Canon)
include h

theorem Cluster.Canon.putLine {l} : (k.putLine l).Canon := h.update
theorem Cluster.Canon.dropLine {peer line} : (k.dropLine peer line).Canon := h.update

end

section
variable {f : Flash} (h : f.Canon)
include h

theorem Flash.Canon.command {n} : (f.command n).Canon := by
  unfold Flash.command
  split
  · exact h.update
  · split
    · exact .of h.cells h.fdata h.fdata
    · exact h.update

theorem Flash.Canon.perform {n} : (f.perform n).Canon := by
  obtain ⟨hcells, hdata, hrun⟩ := h
  unfold Flash.perform
  split
  · exact .of hcells (Memory.foldl_wf Memory.wf_empty fun _ _ hm => Memory.setByte_wf hm _ _) hrun
  · refine .of ?_ hdata hrun
    exact (List.range 64).foldlRecOn (motive := fun c => flashWf 0 c = true) _ hcells
      fun _ hc _ _ => flashSet_wf hc (Nat.zero_le _)
  · exact .of (flashWf_filter hcells _) hdata hrun

end

end Sys2Proof.Machine
end

section
/-! PROOFS (O58). Named operations over the state, homes and the page walk. -/

namespace Sys2Proof.Machine

variable {s : State} (h : s.Canon)
include h

theorem State.Canon.setOctet {o k} : (s.setOctet o k).Canon := h.update
theorem State.Canon.setGroup {k x} : (s.setGroup k x).Canon := h.update
theorem State.Canon.setSector {k x} : (s.setSector k x).Canon := h.update
theorem State.Canon.setSlice {k x} : (s.setSlice k x).Canon := h.update
theorem State.Canon.setRegion {k x} : (s.setRegion k x).Canon := h.update
theorem State.Canon.setLink {k x} : (s.setLink k x).Canon := h.update
theorem State.Canon.setCtx {c n x} : (s.setCtx c n x).Canon := h.setCore h.core.setCtx
theorem State.Canon.modCtx {c n} {f : Ctx → Ctx} : (s.modCtx c n f).Canon := h.setCtx
theorem State.Canon.setMe {x} : (s.setMe x).Canon := h.setCtx
theorem State.Canon.modMe {f : Ctx → Ctx} : (s.modMe f).Canon := h.setMe

theorem State.Canon.modMyCore {f : Core → Core} (hf : ∀ k : Core, k.Canon → (f k).Canon) : (s.modMyCore f).Canon :=
  h.modCore (fun _ h1 => hf _ h1)

theorem State.Canon.myCluster : s.myCluster.Canon := h.cluster
theorem State.Canon.setMyCluster {k : Cluster} (hk : k.Canon) : (s.setMyCluster k).Canon := h.setCluster hk
theorem State.Canon.setMyOctet {x} : (s.setMyOctet x).Canon := h.setOctet
theorem State.Canon.nextFresh : s.nextFresh.Canon := h.update
theorem State.Canon.nextSeq : s.nextSeq.Canon := h.update
theorem State.Canon.setG {r v} : (s.setG r v).Canon := h.modMe
theorem State.Canon.setP {r v} : (s.setP r v).Canon := h.modMe
theorem State.Canon.setE {r v} : (s.setE r v).Canon := h.modMe
theorem State.Canon.putG {r v} : (s.putG r v).Canon := h.setG
theorem State.Canon.remap {l c} : (s.remap l c).Canon := (h.modCore (fun _ h1 => h1.update)).modCore (fun _ h1 => h1.update)

theorem State.Canon.modTask {t} {f : Task → Task} : (s.modTask t f).Canon := by
  unfold State.modTask
  split
  · exact h.setSector
  · exact h

theorem State.Canon.postHost {w} : (s.postHost w).Canon := .ite h.update.update h.update
theorem State.Canon.postMgmt {w} : (s.postMgmt w).Canon := h.update

theorem State.Canon.wipeGranule {g} : (s.wipeGranule g).Canon :=
  .ite (h.setHbm (zeroGranule_wf h.hbm _)).update (h.setHbm (zeroGranule_wf h.hbm _))

/-- Stores to main memory pass here: an unwiped granule is zeroed before the write (R424). -/
theorem State.Canon.hbmWrite {pa n v} : (s.hbmWrite pa n v).Canon :=
  .ite (h.wipeGranule.setHbm (Memory.write_wf h.wipeGranule.hbm _ _ _)) (h.setHbm (Memory.write_wf h.hbm _ _ _))

theorem State.Canon.countView {pa} : (s.countView pa).Canon := by
  unfold State.countView
  split
  · split
    · exact h.setRegion
    · exact h
  · exact h

theorem State.Canon.viewWrite {pa} : (s.viewWrite pa).Canon := by
  unfold State.viewWrite
  split
  · exact h.setRegion
  · exact h

theorem State.Canon.homeWrite {pa n v} : (s.homeWrite pa n v).Canon := .ite h.hbmWrite h.viewWrite
theorem State.Canon.touchTlb {cl e} : (s.touchTlb cl e).Canon := h.setCluster h.cluster.update
theorem State.Canon.countWalk {t n} : (s.countWalk t n).Canon := .ite h (h.foldl (fun _ _ h1 => h1.countView))
theorem State.Canon.walked {c t va} : (s.walked c t va).Canon := .ite h h.countWalk

theorem State.Canon.touch {c t va} : (s.touch c t va).Canon := by
  unfold State.touch
  split
  · split
    · exact h.touchTlb
    · exact h.walked
  · exact h

theorem State.Canon.touchRange {c t va n} : (s.touchRange c t va n).Canon := h.foldl (fun _ _ h1 => h1.touch)

theorem State.Canon.fetch {c va p} (e : s.fetch c va = p) : p.1.Canon := by
  subst e
  unfold State.fetch
  split
  · exact h.walked
  · extract_lets s0 s1
    have hs0 : s0.Canon := h.touch
    have hs1 : s1.Canon := by
      unfold s1
      split
      · exact hs0.countView
      · exact hs0
    exact .ite hs1.nextFresh hs1

end Sys2Proof.Machine
end

section
/-! PROOFS (O58). Retiring, lane and pool grants, traps. -/

namespace Sys2Proof.Machine

variable {s : State} (h : s.Canon)
include h

theorem State.Canon.advance {c n f p} (e : s.advance c n f = p) : p.1.Canon := by
  subst e
  unfold State.advance
  extract_lets x
  split
  exact h.setCtx

theorem State.Canon.giveLanes {q p} (e : s.giveLanes q = p) : p.1.Canon := by
  subst e
  unfold State.giveLanes
  extract_lets g x
  split
  · exact h.setCtx.advance rfl
  · exact h.setCtx

theorem State.Canon.renegotiate {c n} : (s.renegotiate c n).Canon := h.setCtx

theorem State.Canon.settleLanes {n o} : (State.settleLanes n s o).Canon := by
  induction n generalizing s with
  | zero => exact h
  | succ n ih =>
    unfold State.settleLanes
    split
    · exact h
    · split
      · split
        next s1 _ e =>
        have h1 : s1.Canon := h.setOctet.giveLanes e
        exact ih (.ite h1.renegotiate h1)
      · exact h

theorem State.Canon.releaseLanes {c n} : (s.releaseLanes c n).Canon := h.modCtx.settleLanes

theorem State.Canon.retireAt {c n f} : (s.retireAt c n f).Canon := by
  unfold State.retireAt
  split
  next s1 _ e =>
  have h1 : s1.Canon := h.advance e
  exact .ite h1.renegotiate.settleLanes h1

theorem State.Canon.retire : s.retire.Canon := h.retireAt

theorem State.Canon.settlePool {n c} : (State.settlePool n s c).Canon := by
  induction n generalizing s with
  | zero => exact h
  | succ n ih =>
    unfold State.settlePool
    split
    · exact h
    · exact .ite (ih ((h.modCore fun _ hk => hk.update.setCtx).modCore fun _ hk => hk.noteLow).retireAt) h

theorem State.Canon.givePool {c n} : (s.givePool c n).Canon := h.modCtx.settlePool

theorem State.Canon.giveUp {c} : (s.giveUp c).Canon :=
  .ite (h.modCore (fun _ h1 => h1.update)) (h.modCore (fun _ h1 => h1.update)).setOctet.settleLanes

theorem State.Canon.postFailure {t tenant cause} : (s.postFailure t tenant cause).Canon := h.postMgmt.postHost

theorem State.Canon.leaveFifoBanks {c} {mine : CtxId → Bool} : (s.leaveFifoBanks c mine).Canon :=
  .ite (h.setCluster h.cluster.update) h

theorem State.Canon.escalate {c cause value} : (s.escalate c cause value).Canon := by
  unfold State.escalate
  extract_lets k k1 _ _ s2
  have hk : k.Canon := h.core
  have hk1 : k1.Canon := by
    unfold k1
    split
    · split
      · exact .ite hk.update hk
      · exact hk
    · exact hk
  have hs2 : s2.Canon := ((h.setCore hk1.stopAll.update).leaveFifoBanks).giveUp
  split
  · exact hs2
  · exact (hs2.modCore (fun _ h1 => h1.update)).modTask

theorem State.Canon.machineEntry {n cause value} : (s.machineEntry n cause value).Canon := by
  unfold State.machineEntry
  split
  exact h.update.setCtx

theorem State.Canon.machineFault {n cause value} : (s.machineFault n cause value).Canon := .ite h.machineEntry h.update

theorem State.Canon.takeTrap {c n cause value} : (s.takeTrap c n cause value).Canon := by
  unfold State.takeTrap
  refine .ite h.machineFault (.ite h.escalate ?_)
  split
  exact h.setCtx

theorem State.Canon.trap {cause value} : (trap cause value s).Canon := h.takeTrap.next
theorem State.Canon.trapAfter {cause value} : (trapAfter cause value s).Canon := h.retire.trap
theorem State.Canon.done : (done s).Canon := h.retire.next
theorem State.Canon.illegal {i} : (illegal i s).Canon := h.trap

theorem State.Canon.waitIn {i} : (waitIn i s).Canon := by
  unfold Machine.waitIn
  split
  · exact h.trap
  · exact h.modMe.next

theorem State.Canon.waitForUnit {i} : (waitForUnit i s).Canon := by
  unfold Machine.waitForUnit
  split
  · next t e =>
    have h1 : t.Canon := h.waitIn.out e
    exact (State.Canon.ite h1 h1.update).next
  · exact h.waitIn

theorem State.Canon.hold : (hold s).Canon := h.update.next

theorem State.Canon.wake {c n ok} {run : State → Res} (hrun : ∀ t : State, t.Canon → (run t).Canon) : (wake s c n ok run).Canon :=
  .ite (hrun _ h.update.modCtx) .refused

theorem State.Canon.pred {q} {k : Res} (hk : k.Canon) : (pred q s k).Canon := .ite h.trap (.ite hk h.done)
theorem State.Canon.needClean {v num} {k : Res} (hk : k.Canon) : (needClean v num s k).Canon := .ite h.trap hk
theorem State.Canon.needE {r} {k : Word → Res} (hk : ∀ a : Word, (k a).Canon) : (needE r s k).Canon := .ite h.trap (hk _)

end Sys2Proof.Machine
end

section
/-! PROOFS (O58). What a home slice does. -/

namespace Sys2Proof.Machine

variable {s : State} (h : s.Canon)
include h

theorem State.Canon.homeApplyBy {by_ pa n v x} : (s.homeApplyBy by_ pa n v x).Canon :=
  .ite (.ite h.homeWrite h.homeWrite.setSlice) h.homeWrite

theorem State.Canon.homeApply {pa n v x} : (s.homeApply pa n v x).Canon := h.homeApplyBy
theorem State.Canon.homeApplyMask {unit mask v x} : (s.homeApplyMask unit mask v x).Canon := .ite h h.homeApply
theorem State.Canon.markBehind {cl pos pa} : (s.markBehind cl pos pa).Canon := .ite (h.setCluster h.cluster.update) h
theorem State.Canon.writerBehind {e} : (s.writerBehind e).Canon := .ite h.markBehind h

theorem State.Canon.applyEntry {e} : (s.applyEntry e).Canon := by
  unfold State.applyEntry
  extract_lets s'
  have hs : s'.Canon := h.writerBehind
  split
  · exact hs.homeApplyBy
  · exact hs.homeApplyBy

theorem State.Canon.applyDue {sl} : (s.applyDue sl).Canon := (h.foldl (fun _ _ h1 => h1.applyEntry)).setSlice
theorem State.Canon.settleHome {pa} : (s.settleHome pa).Canon := .ite h.applyDue h

theorem State.Canon.readAsOf {pa timed t p} (e : s.readAsOf pa timed t = p) : p.2.2.Canon := by
  subst e
  unfold State.readAsOf
  extract_lets s'
  have hs : s'.Canon := h.settleHome
  split
  · split
    · exact hs
    · split
      · exact hs.nextFresh.nextFresh
      · exact hs
  · split
    · exact hs
    · split
      · exact hs.nextFresh.nextFresh
      · exact hs

theorem State.Canon.arriveWrite {pa n v x} : (s.arriveWrite pa n v x).Canon := h.settleHome.homeApply

theorem State.Canon.arriveAtom {pa n op v x p} (e : s.arriveAtom pa n op v x = p) : p.2.Canon :=
  e ▸ .ite h.settleHome h.settleHome.homeApply

theorem State.Canon.arriveTimed {e t p} (he : s.arriveTimed e t = p) : p.2.Canon := by
  subst he
  unfold State.arriveTimed
  extract_lets _ _ s1 _ s'
  have hs1 : s1.Canon := .ite h h.settleHome
  have hs' : s'.Canon := .ite h h.arriveWrite
  split
  · exact h
  · split
    · exact h
    · split
      · exact hs1.setSlice
      · split
        · exact hs'.setSlice
        · exact h.setSlice

theorem State.Canon.releaseHeld {e} : (s.releaseHeld e).Canon := by
  unfold State.releaseHeld
  extract_lets _ _ s0 _ s1
  have hs0 : s0.Canon := h.setSlice
  have hs1 : s1.Canon := .ite hs0 hs0.settleHome.applyEntry
  split
  · exact hs0.settleHome.applyEntry
  · exact .ite hs0.setSlice hs1.setSlice

theorem State.Canon.arriveKept {e p} (he : s.arriveKept e = p) : p.2.Canon := by
  subst he
  unfold State.arriveKept
  split
  · exact h
  · exact h.releaseHeld

end Sys2Proof.Machine
end

section
/-! PROOFS (O58). Operand forms, branches and loops. -/

namespace Sys2Proof.Machine

variable {s : State} (h : s.Canon)
include h

theorem State.Canon.alu3 {f : Word → Word → Word} {d r b q} : (alu3 f d r b q s).Canon := h.pred h.setG.done
theorem State.Canon.alu2 {f : Word → Word} {d r q} : (alu2 f d r q s).Canon := h.pred h.setG.done
theorem State.Canon.aluImm {f : Word → Word → Word} {d r imm q} : (aluImm f d r imm q s).Canon := h.alu2
theorem State.Canon.unary {f : Word → Word} {d r} : (unary f d r s).Canon := h.setG.done
theorem State.Canon.addFlags {fl} : (s.addFlags fl).Canon := h.modMe

theorem State.Canon.onDivide {i d v fl} : (onDivide i d v fl s).Canon :=
  .ite (h.modMyCore (fun _ h1 => h1.update)).nextSeq.modMe.done
      (State.Canon.ite h (h.modMyCore (fun _ h1 => h1.update))).waitForUnit

theorem State.Canon.onRecurrence {i d v fl} : (onRecurrence i d v fl s).Canon :=
  .ite (h.modMyCore (fun _ h1 => h1.update)).nextSeq.modMe.done
      (State.Canon.ite h (h.modMyCore (fun _ h1 => h1.update))).waitForUnit

theorem State.Canon.landUnit {c o} : (s.landUnit c o).Canon := h.modCtx

theorem State.Canon.withAfterSlots {k : Word → Res} (hk : ∀ a : Word, (k a).Canon) : (withAfterSlots s k).Canon := by
  unfold Machine.withAfterSlots
  split
  split
  · exact h.trap
  · split
    · exact h.trap
    · split
      · exact h.trap
      · exact hk _

theorem State.Canon.branchNot {sl} : (branchNot sl s).Canon := by
  unfold Machine.branchNot
  split
  · exact h.withAfterSlots (fun _ => h.retireAt.next)
  · exact h.retireAt.next
  · exact h.retireAt.next

theorem State.Canon.branchTo {sl t} : (branchTo sl t s).Canon := by
  unfold Machine.branchTo
  split
  · exact h.retireAt.next
  · exact h.retireAt.next
  · exact h.retireAt.next

theorem State.Canon.withLink {sl} {k : Word → Res} (hk : ∀ a : Word, (k a).Canon) : (withLink sl s k).Canon := by
  unfold Machine.withLink
  split
  · split
    · exact h.trap
    · exact hk _
  · exact h.withAfterSlots (fun _ => hk _)
  · exact h.withAfterSlots (fun _ => hk _)

theorem State.Canon.callTo {sl t} : (callTo sl t s).Canon := h.withLink (fun _ => h.putG.branchTo)
theorem State.Canon.execBS {disp} : (execBS disp s).Canon := h.branchTo
theorem State.Canon.execCallS {disp} : (execCallS disp s).Canon := h.callTo

theorem State.Canon.jumpVia {r sl q link} : (jumpVia r sl q link s).Canon :=
  .ite h.trap (.ite h.branchNot (h.needClean (.ite h.trap (.ite h.callTo h.branchTo))))

theorem State.Canon.execJmpS {r} : (execJmpS r s).Canon := h.jumpVia
theorem State.Canon.execCalliS {r} : (execCalliS r s).Canon := h.jumpVia
theorem State.Canon.execRetS : (execRetS s).Canon := h.jumpVia

theorem State.Canon.startLoop {i n src reneg e} : (startLoop i n src reneg e s).Canon :=
  .ite h.illegal (h.needClean (.ite h.retireAt.next h.setMe.done))

theorem State.Canon.execLbrk {p neg sl} : (execLbrk p neg sl s).Canon := by
  unfold Machine.execLbrk
  refine .ite h.trap (.ite h.branchNot ?_)
  split
  · exact h.illegal
  · exact h.modMe.branchTo

end Sys2Proof.Machine
end

section
/-! PROOFS (O58). The cluster cache, and the release and acquire actions. -/

namespace Sys2Proof.Machine

variable {s : State} (h : s.Canon)
include h

theorem State.Canon.peerRead {p} (e : s.peerRead = p) : p.2.Canon := e ▸ h.nextFresh
theorem State.Canon.serveUnit {pa p} (e : s.serveUnit pa = p) : p.2.Canon := e ▸ h.settleHome.countView

theorem State.Canon.serveOwn {own pa p} (e : s.serveOwn own pa = p) : p.2.Canon := by
  subst e
  unfold State.serveOwn
  split
  next s1 e1 =>
  have h1 : s1.Canon := h.serveUnit e1
  exact h1

theorem State.Canon.serveAt {peer pa p} (e : s.serveAt peer pa = p) : p.2.Canon := by
  subst e
  unfold State.serveAt
  split
  · exact h.serveUnit rfl
  · exact h.peerRead rfl

theorem State.Canon.sendBack {cl l} : (s.sendBack cl l).Canon := .ite h (h.setCluster h.cluster.update).nextSeq
theorem State.Canon.applyLine {l} : (s.applyLine l).Canon := .ite h (h.settleHome.foldl (fun _ _ h1 => h1.homeApplyMask))

theorem State.Canon.landBacks {cl peer line} : (s.landBacks cl peer line).Canon := by
  unfold State.landBacks
  extract_lets k
  split
  exact .ite h ((h.setCluster h.cluster.update).foldl (fun _ _ h1 => h1.applyLine))

theorem State.Canon.flushLine {cl peer line} : (s.flushLine cl peer line).Canon := by
  unfold State.flushLine
  split
  · exact h
  · exact (h.setCluster h.cluster.dropLine).sendBack

theorem State.Canon.settleLine {cl peer line} : (s.settleLine cl peer line).Canon := h.flushLine.landBacks

theorem State.Canon.cleanLine {cl peer line} : (s.cleanLine cl peer line).Canon := by
  unfold State.cleanLine
  extract_lets s1
  have hs1 : s1.Canon := h.landBacks
  split
  · exact hs1
  · exact hs1.applyLine.setCluster hs1.applyLine.cluster.update

theorem State.Canon.catchUp {cl pos line} : (s.catchUp cl pos line).Canon := .ite h.settleLine h

theorem State.Canon.makeRoom {cl line t} (e : s.makeRoom cl line = some t) : t.Canon := by
  unfold State.makeRoom at e
  extract_lets k set at e
  split at e
  · cases e; exact h
  · split at e
    · cases e
    · cases e; exact (h.setCluster h.cluster.dropLine).sendBack

theorem State.Canon.fillLine {l p} (e : s.fillLine l = p) : p.2.Canon := by
  subst e
  unfold State.fillLine
  refine (List.range 8).foldlRecOn (motive := fun a : Line × State => a.2.Canon) _ h fun _ ha _ _ => ?_
  split
  split
  · exact ha
  · split
    next e => exact State.Canon.serveAt ha e

theorem State.Canon.freshLine {cl peer line timed p} (e : s.freshLine cl peer line timed = p) : p.2.Canon := e ▸ h.landBacks

theorem State.Canon.cacheLoad {cl peer pa n timed p} (e : s.cacheLoad cl peer pa n timed = p) : p.2.Canon := by
  subst e
  unfold State.cacheLoad
  extract_lets _ direct _ serve
  have h_direct : ∀ (s : State), s.Canon → (direct s).2.Canon := by
    intro s h
    unfold direct
    split
    next s1 e =>
    have h1 : s1.Canon := h.landBacks.serveAt e
    exact h1
  have h_serve : ∀ (l : Line) (s : State), s.Canon → (serve l s).2.Canon := by
    intro l s h
    unfold serve
    split
    next s1 e =>
    have h1 : s1.Canon := by
      split at e
      · cases e; exact h
      · exact h.fillLine e
    exact h1.setCluster h1.cluster.putLine
  split
  · exact h_direct _ h
  · split
    · exact h_serve _ _ h.landBacks
    · split
      · exact h_direct _ h
      · next e =>
        split
        next e1 => exact h_serve _ _ ((h.makeRoom e).freshLine e1)

theorem State.Canon.cacheStore {cl pos peer pa n v timed} : (s.cacheStore cl pos peer pa n v timed).Canon := by
  unfold State.cacheStore
  extract_lets _ direct put
  have h_direct : ∀ (s : State), s.Canon → (direct s).Canon := fun _ h1 => .ite h1.landBacks.arriveWrite h1.landBacks
  have hput : ∀ (l : Line) (s : State), s.Canon → (put l s).Canon := fun _ _ h1 => h1.setCluster h1.cluster.putLine
  refine .ite (h_direct _ h) ?_
  split
  · exact hput _ _ h
  · split
    · exact h_direct _ h
    · next s1 e1 => exact hput _ _ (h.makeRoom e1)

theorem State.Canon.startMerge {cl e} : (s.startMerge cl e).Canon := by
  unfold State.startMerge
  extract_lets s1
  have hs1 : s1.Canon := by
    unfold s1
    split
    · exact h.flushLine
    · exact h
  exact hs1.setCluster hs1.cluster.update

theorem State.Canon.applyMerge {cl e} : (s.applyMerge cl e).Canon := by
  unfold State.applyMerge
  extract_lets _ s1 s2
  have hs1 : s1.Canon := h.setCluster h.cluster.update
  have hs2 : s2.Canon := by
    unfold s2
    split
    · exact hs1.settleLine
    · exact hs1
  split
  · exact hs2.arriveAtom rfl
  · exact hs2

theorem State.Canon.contribute {cl pos p op n v} : (s.contribute cl pos p op n v).Canon := by
  unfold State.contribute
  extract_lets _ _ s1 _ s2
  have hs1 : s1.Canon := by
    unfold s1
    split
    · exact .ite h h.startMerge
    · exact h
  have hs2 : s2.Canon := by
    unfold s2
    split
    · split
      · exact hs1.startMerge
      · exact hs1
    · exact hs1
  split
  · exact hs1.setCluster hs1.cluster.update
  · exact (hs2.setCluster hs2.cluster.update).nextSeq

theorem State.Canon.mergeMine {cl pos} : (s.mergeMine cl pos).Canon := h.foldl (fun _ _ h1 => h1.startMerge)

theorem State.Canon.cleanMine {cl pos} : (s.cleanMine cl pos).Canon := by
  unfold State.cleanMine
  split
  exact h.foldl (fun _ _ h1 => (h1.setCluster h1.cluster.update).sendBack)

theorem State.Canon.releaseActs {c sc p} (e : s.releaseActs c sc = p) : p.1.Canon := by
  subst e
  unfold State.releaseActs
  split
  · exact h
  · exact (State.Canon.ite h.cleanMine h).mergeMine

theorem State.Canon.acquireActs {c sc} : (s.acquireActs c sc).Canon := .ite h (h.setCluster h.cluster.update)
theorem State.Canon.dropPins {c} : (s.dropPins c).Canon := h.setCluster h.cluster.update

theorem State.Canon.withRelease {sc} {k : State → Res} (hk : ∀ t : State, t.Canon → (k t).Canon) : (withRelease sc s k).Canon := by
  unfold Machine.withRelease
  split
  · exact hk _ h
  · refine .ite h.hold ?_
    split
    next s1 _ e =>
    have h1 : s1.Canon := h.releaseActs e
    exact .ite (hk _ h1) h1.hold

theorem State.Canon.acquired {sc} : (s.acquired sc).Canon := by
  unfold State.acquired
  split
  · exact h
  · exact h.acquireActs

end Sys2Proof.Machine
end

section
/-! PROOFS (O58). Loads and stores of a core, and the memory instructions. -/

namespace Sys2Proof.Machine

variable {s : State} (h : s.Canon)
include h

theorem State.Canon.switchBank {cl b m} : (s.switchBank cl b m).Canon := by
  unfold State.switchBank
  extract_lets _ _ base
  have h_base : base.Canon := ⟨clearBank_wf h.cluster.sram _⟩
  split
  · exact (h.setCluster h_base.update).update
  · exact h.setCluster h_base
  · exact h.setCluster h_base

theorem State.Canon.emptyCache {cl} : (s.emptyCache cl).Canon :=
  ((h.foldl (fun _ _ h1 => h1.applyLine)).foldl (fun _ _ h1 => h1.applyLine)).setCluster
      ((h.foldl (fun _ _ h1 => h1.applyLine)).foldl (fun _ _ h1 => h1.applyLine)).cluster.update

theorem State.Canon.serve {c p n r} (e : s.serve c p n = r) : r.2.Canon := by
  subst e
  unfold State.serve
  split
  · exact h
  · exact h
  · exact h
  · exact h
  · exact h
  · exact h
  · split
    · split
      next s1 e2 =>
      have h1 : s1.Canon := h.serveUnit e2
      exact h1
    · split
      · split
        next s1 e2 =>
        have h1 : s1.Canon := h.serveOwn e2
        exact h1
      · exact h.catchUp.cacheLoad rfl
  · split
    · split
      next s1 e2 =>
      have h1 : s1.Canon := h.peerRead e2
      exact h1
    · exact h.cacheLoad rfl
  · exact h

theorem State.Canon.portWrite {p n v} : (s.portWrite p n v).Canon := by
  unfold State.portWrite
  split
  · exact h.modCore (fun _ h1 => h1.setLs (lsWrite_wf h1.ls _ _ _))
  · exact h.modCore (fun _ h1 => h1.setInj (Memory.write_wf h1.inj _ _ _))
  · exact h.modCore (fun _ h1 => h1.setLs (lsWrite_wf h1.ls _ _ _))
  · exact h.setCluster ⟨Memory.write_wf h.cluster.sram _ _ _⟩
  · exact h

theorem State.Canon.performStore {c n id p bytes v held t} (e : s.performStore c n id p bytes v held = some t) : t.Canon := by
  unfold State.performStore at e
  split at e
  · cases e; exact h.portWrite
  · cases e; exact h.portWrite
  · split at e
    · cases e
    · cases e; exact h.portWrite
  · split at e
    · cases e
    · cases e; exact h.portWrite
  · split at e
    · cases e; exact h.arriveWrite
    · split at e
      · split at e
        · cases e
        · next e1 => cases e; exact h.arriveTimed e1
      · split at e
        · cases e; exact h.settleLine.arriveWrite
        · cases e; exact h.cacheStore
  · split at e
    · cases e
    · split at e
      · cases e; exact h
      · cases e; exact h.cacheStore
  · cases e; exact h
  · cases e; exact h
  · cases e; exact h

theorem State.Canon.mayAccess {p} {k : Res} (hk : k.Canon) : (mayAccess p s k).Canon := .ite h.hold hk
theorem State.Canon.setFifo {cl b f} : (s.setFifo cl b f).Canon := h.setCluster h.cluster.update

theorem State.Canon.latchCluster {cl bits} : (s.latchCluster cl bits).Canon := by
  unfold State.latchCluster
  refine h.mapCores ?_
  rintro ⟨c, k⟩ hk
  dsimp only at hk ⊢
  split
  · simpa only using hk.latchAll
  · exact hk

theorem State.Canon.push {cl b es} : (s.push cl b es).Canon := h.setFifo.latchCluster

theorem State.Canon.pull {cl b k p} (e : s.pull cl b k = p) : p.2.Canon := by
  subst e
  unfold State.pull
  exact h.setFifo.latchCluster

theorem State.Canon.onFifo {i push k cl b} {run : State → Res} (hrun : ∀ t : State, t.Canon → (run t).Canon) :
    (onFifo i push k cl b s run).Canon :=
  .ite (hrun _ h.setFifo) (State.Canon.ite h h.setFifo).waitIn

theorem State.Canon.landNow {dst v acq} : (s.landNow dst v acq).Canon := h.modMe.acquired

theorem State.Canon.addLoad {dst p n signed acq kind} : (s.addLoad dst p n signed acq kind).Canon :=
  (h.modMyCore (fun _ h1 => h1.update)).modMe.nextSeq

theorem State.Canon.loadPlace {i dst p n signed acq} : (loadPlace i dst p n signed acq s).Canon := by
  unfold Machine.loadPlace
  refine h.mayAccess (.ite h.hold ?_)
  split
  · refine .ite h.landNow.done (.ite h.hold (.ite h.landNow.done (h.onFifo ?_)))
    intro a h1
    split
    next e1 => exact (h1.pull e1).landNow.done
  · exact .ite h.landNow.done h.addLoad.done

theorem State.Canon.loadAt {i dst b addr n signed acq} : (loadAt i dst b addr n signed acq s).Canon := by
  unfold Machine.loadAt
  refine .ite h.modMe.done (.ite h.trap ?_)
  split
  · exact h.touch.loadPlace
  · exact .ite h.hold h.walked.landNow.done

theorem State.Canon.doneStored {v addr} : (doneStored v addr s).Canon := .ite h.trapAfter h.done
theorem State.Canon.toPort {p n v kind} : (s.toPort p n v kind).Canon := (h.modMyCore (fun _ h1 => h1.update)).nextSeq

theorem State.Canon.storeStart {ch v addr} : (storeStart ch v addr s).Canon :=
  .ite h.trap (.ite h.trap (.ite h.toPort.doneStored (h.modMyCore (fun _ h1 => h1.update)).toPort.doneStored))

theorem State.Canon.storeAperture {ch off v addr} : (storeAperture ch off v addr s).Canon := by
  unfold Machine.storeAperture
  split
  · exact h.storeStart
  · exact (h.modMyCore (fun _ h1 => h1.update)).doneStored
  · exact (h.modMyCore (fun _ h1 => h1.update)).doneStored

theorem State.Canon.storePlace {i p n v addr} : (storePlace i p n v addr s).Canon := by
  unfold Machine.storePlace
  refine .ite h.hold ?_
  split
  · exact h.storeAperture
  · exact h.portWrite.doneStored
  · exact .ite h.hold h.update.doneStored
  · exact .ite h.toPort.doneStored h.portWrite.doneStored
  · split
    · exact .ite h.hold (h.onFifo (fun _ h1 => h1.push.doneStored))
    · exact h.toPort.doneStored

theorem State.Canon.storeFate {r addr} {k : Place → Res} (hk : ∀ a : Place, (k a).Canon) : (storeFate r addr s k).Canon := by
  unfold Machine.storeFate
  split
  · exact hk _
  · exact h.walked.trap
  · exact h.trap
  · exact h.trap

theorem State.Canon.storeAt {i b base addr n v rel} : (storeAt i b base addr n v rel s).Canon :=
  h.needClean (.ite h.trap (h.storeFate (fun _ => h.mayAccess (h.touch.withRelease (fun _ h1 => h1.storePlace)))))

theorem State.Canon.landLoad {c e v} : (s.landLoad c e v).Canon := by
  unfold State.landLoad
  extract_lets s1
  have hs1 : s1.Canon := (h.modCore (fun _ h1 => h1.setLoad)).modCtx
  split
  · exact hs1.acquireActs
  · exact hs1

theorem State.Canon.landPlain {c e} : (landPlain c e s).Canon := by
  unfold Machine.landPlain
  split
  · exact .refused
  · exact h.landLoad.next
  · refine .ite .refused ?_
    split
    next e2 => exact (h.serve e2).landLoad.next

theorem State.Canon.performPort {c e} : (performPort c e s).Canon := by
  unfold Machine.performPort
  refine .ite .refused ?_
  split
  · next e1 => exact ((h.performStore e1).modCore (fun _ h2 => h2.setPort)).next
  · split
    · exact (h.modCore (fun _ h1 => h1.setPort)).next
    · exact .refused

theorem State.Canon.execLdd {d base sc o imm} : (execLdd d base sc o imm s).Canon := h.loadAt
theorem State.Canon.execStd {src base sc o imm} : (execStd src base sc o imm s).Canon := h.storeAt
theorem State.Canon.execLddS {d b k} : (execLddS d b k s).Canon := h.loadAt
theorem State.Canon.execStdS {src b k} : (execStdS src b k s).Canon := h.storeAt
theorem State.Canon.execXld {e r imm} : (execXld e r imm s).Canon := h.loadAt
theorem State.Canon.execXst {e r imm} : (execXst e r imm s).Canon := h.storeAt

theorem State.Canon.flushPlace {p} : (s.flushPlace p).Canon := by
  unfold State.flushPlace
  split
  · exact h.flushLine
  · exact h

theorem State.Canon.execTst {src base sc o e isAbs} : (execTst src base sc o e isAbs s).Canon := by
  unfold Machine.execTst
  refine h.needE fun _ => h.needClean (.ite h.trap (.ite h.trap (h.storeFate ?_)))
  intro a1
  split
  · exact h.trap
  · exact h.mayAccess (h.touch.flushPlace.withRelease (fun _ h1 => .ite h1.hold h1.toPort.doneStored))

theorem State.Canon.execTld {d base sc o e isAbs} : (execTld d base sc o e isAbs s).Canon := by
  unfold Machine.execTld
  refine h.needE fun _ => ?_
  extract_lets _ _ _ bad
  have hbad : bad.Canon := h.touch.setG.done
  refine .ite h.setG.done (.ite h.trap (.ite h.trap ?_))
  split
  · split
    · exact hbad
    · exact h.mayAccess (.ite h.hold h.touch.flushPlace.addLoad.done)
  · exact hbad

theorem State.Canon.atomPort {c p n op v r} (e : s.atomPort c p n op v = r) : r.2.Canon := e ▸ .ite h h.portWrite

theorem State.Canon.atomAt {op d base src sc o w32} : (atomAt op d base src sc o w32 s).Canon := by
  unfold Machine.atomAt
  refine h.needClean (.ite h.trap (h.storeFate ?_))
  intro a
  refine h.mayAccess (h.touch.withRelease ?_)
  intro a1 h1
  refine .ite h1.hold ?_
  extract_lets m
  split
  · split
    next e1 => exact (State.Canon.ite h1 (h1.atomPort e1)).landNow.doneStored
  · exact h1.flushPlace.addLoad.doneStored

theorem State.Canon.accumulate {c n id p bytes op v t} (e : s.accumulate c n id p bytes op v = some t) : t.Canon := by
  unfold State.accumulate at e
  split at e
  · cases e; exact h.atomPort rfl
  · split at e
    · cases e
    · cases e; exact h.atomPort rfl
  · split at e
    · cases e
    · cases e; exact h.atomPort rfl
  · split at e
    · cases e; exact h.arriveAtom rfl
    · split at e
      · split at e
        · cases e
        · next e1 => cases e; exact h.arriveTimed e1
      · cases e; exact h.contribute
  · split at e
    · cases e
    · split at e
      · cases e; exact h
      · cases e; exact h.contribute
  all_goals cases e; exact h

theorem State.Canon.accAt {op base src sc o w32} : (accAt op base src sc o w32 s).Canon := by
  unfold Machine.accAt
  refine h.needClean (.ite h.trap (h.storeFate fun p => h.mayAccess (h.touch.withRelease fun s h => .ite h.hold ?_)))
  extract_lets free now
  refine .ite h.hold ?_
  split
  · next s1 e =>
    have h1 : s1.Canon := by
      split at e
      · exact h.accumulate e
      · cases e
    exact h1.nextSeq.doneStored
  · exact h.toPort.doneStored

theorem State.Canon.onLine {r q needR} {none_ : Res} (hnone_ : none_.Canon) {k : Nat → Nat → Bool → State → Res}
    (hk : ∀ (a : Nat) (b : Nat) (c : Bool) (t : State), t.Canon → (k a b c t).Canon) : (onLine r q needR s none_ k).Canon := by
  unfold Machine.onLine
  refine h.pred (h.needClean ?_)
  split
  · exact hnone_
  · exact .ite h.hold (hk _ _ _ _ h.touch)

theorem State.Canon.execLinewb {r q} : (execLinewb r q s).Canon := h.onLine h.done (fun _ _ _ _ h1 => h1.cleanLine.done)
theorem State.Canon.execLineinv {r q} : (execLineinv r q s).Canon := h.onLine h.done (fun _ _ _ _ h1 => h1.settleLine.done)

theorem State.Canon.execPin {d r q} : (execPin d r q s).Canon := by
  unfold Machine.execPin
  refine h.onLine h.putG.done fun _ _ _ _ h1 => ?_
  extract_lets _ _ _ pinIt
  have h_pinIt : ∀ (x : Line) (s : State), s.Canon → (pinIt x s).Canon := fun _ _ h2 =>
      (h2.setMyCluster h2.myCluster.putLine).putG.done
  split
  · exact .ite h1.putG.done (.ite h1.putG.done (h_pinIt _ _ h1))
  · refine .ite h1.putG.done ?_
    split
    · exact h1.putG.done
    · next e1 =>
      split
      next s2 e2 => exact h_pinIt _ _ (((h1.makeRoom e1).freshLine e2).fillLine rfl)

theorem State.Canon.execUnpin {r q} : (execUnpin r q s).Canon :=
  h.onLine h.done (fun _ _ _ _ h1 => (h1.setMyCluster h1.myCluster.update).done)

end Sys2Proof.Machine
end

section
/-! PROOFS (O58). Contexts, the register pool, special registers. -/

namespace Sys2Proof.Machine

variable {s : State} (h : s.Canon)
include h

theorem State.Canon.endTask {c} : (s.endTask c).Canon := (h.modCore (fun _ h1 => h1.update)).giveUp

theorem State.Canon.execStart {d imm} : (execStart d imm s).Canon := by
  unfold Machine.execStart
  refine .ite h.trap ?_
  split
  · exact h.putG.done
  · exact h.needClean (h.modMyCore (fun _ h1 => h1.setCtx)).putG.done

theorem State.Canon.reap {n} : (s.reap n).Canon := by
  unfold State.reap
  exact (h.modMyCore fun _ hk => hk.setCtx).modMe

theorem State.Canon.joinVia {i r} : (joinVia i r s).Canon := by
  unfold Machine.joinVia
  refine .ite h.trap ?_
  extract_lets v n
  refine h.needClean (.ite h.trap ?_)
  split
  · exact h.done
  · exact h.reap.done
  · exact h.waitIn
  · exact h.waitIn
  · exact h.waitIn

theorem State.Canon.exitVia : (exitVia s).Canon := by
  unfold Machine.exitVia
  extract_lets _ _ s1 s2 _ s'
  have hs1 : s1.Canon := h.retire.givePool
  have hs2 : s2.Canon := .ite hs1 hs1.releaseLanes
  have hs' : s'.Canon := (h.foldl (fun _ _ h1 => .ite h1.reap h1)).retire.endTask
  refine .ite h.trap (.ite h.trap (.ite h.hold (.ite h.trap ?_)))
  refine .ite ((hs2.modMe.modMyCore (fun _ h1 => h1.setCtx)).next) (State.Canon.next ?_)
  split
  · exact hs'.modTask
  · exact hs'

theorem State.Canon.yieldVia : (yieldVia s).Canon := h.modMe.done
theorem State.Canon.execWaitev {d mask} : (execWaitev d mask s).Canon := h.needClean (.ite h.waitIn h.modMe.putG.done)

theorem State.Canon.execHint {mask w} : (execHint mask w s).Canon :=
  .ite (h.foldl (fun _ _ h1 => h1.modCore (fun _ h2 => h2.update))).done
      ((h.foldl (fun _ _ h1 => h1.modCore (fun _ h2 => h2.update))).modMyCore (fun _ h1 => h1.update)).modMe.next

theorem State.Canon.giveVia {i} : (giveVia i s).Canon := .ite h.done (.ite h.waitIn h.givePool.done)

theorem State.Canon.execClaim {d r q} : (execClaim d r q s).Canon :=
  h.pred (h.needClean (.ite h.trap (.ite h.waitIn (.ite h.givePool.putG.done (.ite (h.givePool.putG.modMe.modMyCore (fun _ h1 =>
      h1.noteLow)).done (.ite h.waitIn (h.givePool.putG.modMyCore (fun _ h1 => h1.update)).waitIn))))))

theorem State.Canon.execGive {q} : (execGive q s).Canon := h.pred h.giveVia
theorem State.Canon.execGiveS : (execGiveS s).Canon := h.giveVia

theorem State.Canon.returnTo {x0 x1 x2 priv} {k : State → State} (hk : ∀ t : State, t.Canon → (k t).Canon) :
    (returnTo x0 x1 x2 priv s k).Canon :=
  .ite h.trap (hk _ h.modMe.nextFresh).next

theorem State.Canon.popAlert {p} (e : s.popAlert = p) : p.2.Canon := by
  subst e
  unfold State.popAlert
  split
  · exact h
  · exact h.update

theorem State.Canon.takeSr {n p} (e : s.takeSr n = p) : p.2.Canon := by
  subst e
  unfold State.takeSr
  split
  · exact h.popAlert rfl
  · exact h

theorem State.Canon.execMfs {d sr} : (execMfs d sr s).Canon := by
  unfold Machine.execMfs
  extract_lets n
  split
  · exact h.illegal
  · exact h.trap
  · refine .ite h.hold ?_
    split
    next s1 e1 => exact (h.takeSr e1).putG.done
  · refine .ite h.hold ?_
    split
    next s1 e1 => exact (h.takeSr e1).putG.done

theorem State.Canon.writeSr {n v} : (s.writeSr n v).Canon := .ite (h.modMyCore (fun _ h1 => h1.update)) (.ite h.update h.modMe)

theorem State.Canon.execMts {d sr} : (execMts d sr s).Canon := by
  unfold Machine.execMts
  extract_lets n v
  split
  · exact h.illegal
  · exact h.trap
  · exact h.trap
  · exact .ite h.trap (.ite h.hold (.ite h.retire.writeSr.next h.writeSr.done))

theorem State.Canon.withRecord {i d n} {okSt : CtxState → Bool} {k : CtxId → Word → Res}
    (hk : ∀ (a : CtxId) (b : Word), (k a b).Canon) : (withRecord i d n okSt s k).Canon :=
  .ite h.trap (.ite h.trap (.ite h.trap (h.needClean (.ite h.trap (hk _ _)))))

theorem State.Canon.withPlaces {a n w} {f : List Place → Res} (hf : ∀ ps, (f ps).Canon) : (withPlaces a s n w f).Canon := by
  induction n generalizing w f with
  | zero => exact hf []
  | succ n ih => exact h.storeFate fun p => ih fun ps => hf (p :: ps)

theorem State.Canon.storeWord {p v t} (e : s.storeWord p v = some t) : t.Canon := by
  unfold State.storeWord at e
  split at e
  · split at e
    · cases e; exact h.push
    · cases e
  · split at e
    · split at e
      · cases e; exact h.modMyCore fun _ hk => hk.update
      · cases e; exact h.modMyCore fun _ hk => hk.update
    · cases e; exact h.update
    · cases e; exact h.toPort
    · split at e
      · cases e; exact h.toPort
      · split at e
        · next e1 => cases e; exact h.performStore e1
        · cases e; exact h.toPort.modMyCore fun _ hk => hk.setPort

theorem State.Canon.storeWords {l t} (e : s.storeWords l = some t) : t.Canon := by
  induction l generalizing s with
  | nil => cases e; exact h
  | cons a r ih =>
    obtain ⟨s1, e1, e2⟩ := Option.bind_eq_some_iff.1 e
    exact ih (h.storeWord e1).nextSeq e2

theorem State.Canon.execCtxsave {d n} : (execCtxsave d n s).Canon := by
  unfold Machine.execCtxsave
  refine h.withRecord fun _ _ => h.withPlaces fun _ => .ite h.hold ?_
  split
  · exact h.hold
  · next s1 e => exact (h.storeWords e).done

theorem State.Canon.loadWords {l p} (e : s.loadWords l = p) : p.2.Canon := by
  induction l generalizing s p with
  | nil => subst e; exact h
  | cons a r ih =>
    unfold State.loadWords at e
    split at e
    next s1 e1 =>
    have h1 : s1.Canon := by
      split at e1
      · cases e1; exact h
      · split at e1
        · split at e1
          · cases e1; exact h
          · split at e1
            next e2 => cases e1; exact h.pull e2
        · exact h.serve e1
    split at e
    next s2 e2 =>
    have h2 : s2.Canon := ih h1 e2
    subst e; exact h2

theorem State.Canon.execCtxload {d run n} : (execCtxload d run n s).Canon := by
  unfold Machine.execCtxload
  refine h.withRecord fun _ _ => h.withPlaces fun _ => .ite h.hold ?_
  split
  next s1 e =>
  have h1 : s1.Canon := h.loadWords e
  exact (State.Canon.ite (h1.modMyCore (fun _ h2 => h2.setCtx.update)).nextFresh.settlePool (h1.modMyCore (fun _ h2 =>
      h2.setCtx.update)).nextFresh.settlePool.setOctet.settleLanes).done

end Sys2Proof.Machine
end

section
/-! PROOFS (O58). Tags, timelines, packets and FIFO banks as a core uses them. -/

namespace Sys2Proof.Machine

variable {s : State} (h : s.Canon)
include h

theorem State.Canon.tnowVia {d isAbs} : (tnowVia d isAbs s).Canon := h.putG.done
theorem State.Canon.execTwaitu {e isAbs} : (execTwaitu e isAbs s).Canon := h.needE (fun _ => .ite h.done h.waitIn)
theorem State.Canon.execTwany {d r} : (execTwany d r s).Canon := h.needClean (.ite h.putG.done h.waitIn)
theorem State.Canon.execTwall {d r} : (execTwall d r s).Canon := h.needClean (.ite h.putG.done h.waitIn)
theorem State.Canon.tlwaitVia {i r c} : (tlwaitVia i r c s).Canon := h.needClean (.ite h.done h.waitIn)

theorem State.Canon.execGset {x g neg} : (execGset x g neg s).Canon := by
  unfold Machine.execGset
  refine .ite h.trap ?_
  split
  · exact h.trap
  · exact h.trap
  · exact (h.modMyCore (fun _ h1 => h1.setGuard)).done
  · exact (h.modMyCore (fun _ h1 => h1.setGuard)).done

theorem State.Canon.execPko {r e w} : (execPko r e w s).Canon := by
  unfold Machine.execPko
  refine h.needClean (h.needE ?_)
  intro a
  split
  · exact h.trap
  · exact .ite h.trap (.ite h.trap (.ite h.trap h.modMe.done))

theorem State.Canon.execPka {r nm1} : (execPka r nm1 s).Canon := by
  unfold Machine.execPka
  refine h.needClean ?_
  split
  · exact h.trap
  · exact .ite h.trap (.ite h.trap h.modMe.done)

theorem State.Canon.execPks : (execPks s).Canon := by
  unfold Machine.execPks
  split
  · exact h.trap
  · exact .ite h.trap (.ite h.setP.done (h.modMyCore (fun _ h1 => h1.update)).modMe.setP.done)

theorem State.Canon.execRxpop {d f} : (execRxpop d f s).Canon := by
  unfold Machine.execRxpop
  refine .ite ((h.modMyCore (fun _ h1 => h1.update)).putG.done) ?_
  split
  · exact h.waitIn
  · exact (h.modMyCore (fun _ h1 => h1.update)).putG.done

theorem State.Canon.remote {fetchto d r e g sz} : (remote fetchto d r e g sz s).Canon := by
  unfold Machine.remote
  refine h.needClean (h.needClean (h.needE ?_))
  intro a
  refine .ite h.trap (.ite h.trap (.ite h.trap (.ite h.trap (.ite h.trap ?_))))
  split
  · exact h.trap
  · exact .ite h.hold (h.modMyCore (fun _ h1 => h1.useGuard.update)).nextSeq.done

theorem State.Canon.drainBank {cl b m} : (s.drainBank cl b m).Canon := (State.Canon.ite h.emptyCache h).switchBank

theorem State.Canon.execBankmode {d r b q} : (execBankmode d r b q s).Canon :=
  h.pred (.ite h.trap (.ite (.ite h.putG.done h.trap) (.ite h.hold (.ite h.putG.done (.ite h.trap (.ite h.trap (.ite h.waitIn
      h.drainBank.putG.done)))))))

end Sys2Proof.Machine
end

section
/-! PROOFS (O58). Launch records, LAUNCH and SPAWN. -/

namespace Sys2Proof.Machine

variable {s : State} (h : s.Canon)
include h

theorem State.Canon.mwinRead {off p} (e : s.mwinRead off = p) : p.2.Canon := e ▸ .ite h.update h
theorem State.Canon.engineWalk {t va} : (s.engineWalk t va).Canon := .ite h h.countWalk

theorem State.Canon.engineRead {t va p} (e : s.engineRead t va = p) : p.2.Canon := by
  subst e
  unfold State.engineRead
  split
  · exact h.engineWalk
  · split
    · exact h
    · split
      · split
        next s1 e4 => exact h.serveUnit e4
      · split
        next s1 e3 => exact h.peerRead e3

theorem State.Canon.engineReads {t va n p} (e : s.engineReads t va n = p) : p.2.Canon := by
  induction n generalizing s va p with
  | zero => subst e; exact h
  | succ n ih =>
    unfold State.engineReads at e
    split at e
    next e1 =>
    split at e
    next s2 e2 =>
    have h2 : s2.Canon := ih (h.engineRead e1) e2
    subst e; exact h2

theorem State.Canon.engineWrite {t va v} : (s.engineWrite t va v).Canon := by
  unfold State.engineWrite
  split
  · exact h.engineWalk
  · exact .ite h.arriveWrite h

theorem State.Canon.modLaunch {home key} {f : Launch → Launch} : (s.modLaunch home key f).Canon := by
  unfold State.modLaunch
  split
  · exact h.setSector
  · exact h

theorem State.Canon.zeroFrame {n} : (s.zeroFrame n).Canon := h.foldl (fun _ _ h1 => h1.homeApply)

theorem State.Canon.renameRange {sec t writer w} : (s.renameRange sec t writer w).Canon := by
  unfold State.renameRange
  refine h.foldl fun _ _ h1 => ?_
  extract_lets q old
  split
  · exact h1
  · exact h1.setSector.zeroFrame

theorem State.Canon.enterTable {sec k p} (e : s.enterTable sec k = p) : p.2.Canon := by
  subst e
  unfold State.enterTable
  split
  exact (h.foldl (fun _ _ h1 => h1.renameRange)).setSector.nextFresh

theorem State.Canon.readPlaces {addr n p} (e : s.readPlaces addr n = p) : p.2.Canon := by
  induction n generalizing s addr p with
  | zero => subst e; exact h
  | succ n ih =>
    unfold State.readPlaces at e
    split at e
    next s1 e1 =>
    have h1 : s1.Canon := by
      split at e1
      · exact h.serve e1
      · cases e1; exact h
    split at e
    next s2 e2 =>
    have h2 : s2.Canon := ih h1 e2
    subst e; exact h2

theorem State.Canon.setP1 {b} : (s.setP1 b).Canon := h.setP

theorem State.Canon.launchRead {d w rs} {s' : State} (hs : s'.Canon) : (launchRead d w rs s s').Canon := by
  unfold Machine.launchRead
  extract_lets r t sec
  split
  next s1 e => exact .ite h.trap (hs.readPlaces e).setSector.putG.setP1.done

theorem State.Canon.execLaunch {d r q} : (execLaunch d r q s).Canon := by
  unfold Machine.execLaunch
  refine h.pred (h.needClean (.ite h.trap (.ite h.waitIn (h.withRelease ?_))))
  intro s h
  refine .ite h.setP1.done (h.withPlaces ?_)
  intro ps
  refine .ite h.hold ?_
  split
  next e => exact h.launchRead (h.loadWords e)

theorem State.Canon.spawnRead {d w tr k ws} {s' : State} (hs : s'.Canon) : (spawnRead d w tr k ws s s').Canon := by
  unfold Machine.spawnRead
  refine .ite h.trap ?_
  split
  next e => exact (hs.enterTable e).putG.setP1.done

theorem State.Canon.execSpawn {d r q} : (execSpawn d r q s).Canon := by
  unfold Machine.execSpawn
  refine h.pred (h.needClean (.ite h.trap (h.withRelease ?_)))
  intro s h
  split
  · exact h.setP1.done
  · split
    · exact h.setP1.done
    · refine Res.Canon.ite h.setP1.done (h.withPlaces ?_)
      intro ps
      refine .ite h.hold ?_
      split
      next ws s1 e => exact h.spawnRead (h.loadWords e)

theorem State.Canon.addEdge {sec n y kx ky t} (e : s.addEdge sec n y kx ky = some t) : t.Canon := by
  unfold State.addEdge at e
  extract_lets q after ky' at e
  split at e
  · cases e
  · cases e; exact h.setSector

theorem State.Canon.execTedge {r b q} : (execTedge r b q s).Canon := by
  unfold Machine.execTedge
  refine h.pred ?_
  extract_lets va vb sec
  refine h.needClean (h.needClean ?_)
  split
  · exact h.setP1.done
  · refine .ite h.setP1.done ?_
    split
    · exact h.setP1.done
    · refine .ite h.setP1.done ?_
      split
      · exact h.trap
      · next s1 e2 => exact (h.addEdge e2).setP1.done

theorem State.Canon.execTinfo {d item q} : (execTinfo d item q s).Canon := by
  unfold Machine.execTinfo
  refine h.pred ?_
  split
  · exact h.putG.done
  · split
    · exact h.putG.done
    · split
      · exact h.putG.done
      · exact h.putG.done

end Sys2Proof.Machine
end

section
/-! PROOFS (O58). The task engine, and how tasks leave. -/

namespace Sys2Proof.Machine

variable {s : State} (h : s.Canon)
include h

theorem State.Canon.writeStatus {home key} : (s.writeStatus home key).Canon := by
  unfold State.writeStatus
  split
  · exact h
  · exact .ite h (h.foldl (fun _ _ h1 => h1.engineWrite))

theorem State.Canon.writeStages {home key} : (s.writeStages home key).Canon := by
  unfold State.writeStages
  split
  · exact h
  · exact .ite h (h.foldl (fun _ _ h1 => h1.engineWrite))

theorem State.Canon.moveStage {home key c} : (s.moveStage home key c).Canon := by
  unfold State.moveStage
  split
  · exact h
  · split
    · exact h
    · refine .ite h ?_
      split
      · exact h
      · exact h.modLaunch.writeStages

theorem State.Canon.readImage {t va p} (e : s.readImage t va = p) : p.2.Canon := by
  subst e
  unfold State.readImage
  split
  next e1 => exact (h.engineReads e1).update

theorem State.Canon.installTemplates {l cl} : (s.installTemplates l cl).Canon := by
  unfold State.installTemplates
  refine h.foldl fun _ _ h1 => ?_
  split
  next e => exact (h1.readImage e).foldl (fun _ _ h3 => h3.setOctet)

theorem State.Canon.resetTorus {g} : (s.resetTorus g).Canon := h.foldl (fun _ _ h1 => h1.setOctet)

theorem State.Canon.bindCluster {home key l cl} : (s.bindCluster home key l cl).Canon :=
  .ite h (State.Canon.ite (State.Canon.ite ((State.Canon.ite (h.foldl (fun _ _ h1 => .ite h1 h1.drainBank))
      h).installTemplates.setCluster (State.Canon.ite (h.foldl (fun _ _ h1 => .ite h1 h1.drainBank))
          h).installTemplates.cluster.update).nextSeq.setGroup ((State.Canon.ite (h.foldl (fun _ _ h1 => .ite h1 h1.drainBank))
              h).installTemplates.setCluster (State.Canon.ite (h.foldl (fun _ _ h1 => .ite h1 h1.drainBank))
                  h).installTemplates.cluster.update).nextSeq).resetTorus (.ite ((State.Canon.ite
                      (h.foldl (fun _ _ h1 => .ite h1 h1.drainBank)) h).installTemplates.setCluster (State.Canon.ite
                          (h.foldl (fun _ _ h1 => .ite h1 h1.drainBank))
                              h).installTemplates.cluster.update).nextSeq.setGroup ((State.Canon.ite
                                  (h.foldl (fun _ _ h1 => .ite h1 h1.drainBank)) h).installTemplates.setCluster (State.Canon.ite
                                      (h.foldl (fun _ _ h1 => .ite h1 h1.drainBank))
                                          h).installTemplates.cluster.update).nextSeq)).writeStages

theorem State.Canon.releaseCluster {home key cl} : (s.releaseCluster home key cl).Canon :=
  .ite ((h.setCluster h.cluster.update).foldl (fun _ _ h1 => .ite h1 h1.drainBank)) (h.setCluster h.cluster.update)

theorem State.Canon.releaseClusters {home key} : (s.releaseClusters home key).Canon :=
  (h.foldl (fun _ _ h1 => h1.releaseCluster)).update

theorem State.Canon.endLaunch {home key} : (s.endLaunch home key).Canon := by
  unfold State.endLaunch
  extract_lets s'
  have hs : s'.Canon := h.modLaunch
  split
  · exact hs
  · exact .ite hs hs.modLaunch.writeStatus.releaseClusters.setSector

theorem State.Canon.watchShape {home key l} : (s.watchShape home key l).Canon := by
  unfold State.watchShape
  refine .ite h ?_
  split
  · exact h.engineWalk
  · exact .ite h.setSlice h

theorem State.Canon.readStages {l p} (e : s.readStages l = p) : p.2.Canon := by
  subst e
  unfold State.readStages
  split
  · exact h
  · split
    next s2 e1 => exact h.engineReads e1

theorem State.Canon.countPort {e} : (s.countPort e).Canon := by
  unfold State.countPort
  split
  · exact h
  · exact h.update

theorem State.Canon.engineRecord {t addr p} (e : s.engineRecord t addr = p) : p.2.Canon := by
  subst e
  unfold State.engineRecord
  split
  next e1 =>
  extract_lets r bad
  split
  next s'' e2 => exact (h.engineReads e1).engineReads e2

theorem State.Canon.portRefused {i b} : (s.portRefused i b).Canon := h.update

theorem State.Canon.execLaunchAccept : (execLaunchAccept s).Canon := by
  unfold Machine.execLaunchAccept
  extract_lets sec q key
  split
  · exact .refused
  · extract_lets drop
    have h_drop : ∀ (s : State), s.Canon → Res.Canon (drop s) := by
      intro s h
      unfold drop
      extract_lets _ s1
      have hs1 : s1.Canon := h.setSector
      split
      · exact hs1.portRefused.next
      · exact hs1.next
    have h_record : ∀ {e : Intake} {p : Option (List Word × List Word) × State},
        (match e.held with | some r => (some r, s) | none => s.engineRecord e.tenant e.addr) = p → p.2.Canon := by
      intro e p he
      split at he
      · subst he; exact h
      · exact h.engineRecord he
    split
    · next e => exact h_drop _ (h_record e)
    · next s0 e =>
      have h0 : s0.Canon := h_record e
      refine .ite (h_drop _ h0) ?_
      extract_lets l0
      split
      next s1 e1 =>
      have h1 : s1.Canon := by
        split at e1
        · exact h0.engineRead e1
        · cases e1; exact h0
      split
      refine .guardEvent ?_
      split
      next e2 => exact (h1.readStages e2).setSector.watchShape.countPort.writeStatus.writeStages.endLaunch.next

theorem State.Canon.refuseTask {sec home key l desc shape} : (s.refuseTask sec home key l desc shape).Canon :=
  h.modLaunch.postMgmt.postHost.writeStatus

theorem State.Canon.execTaskEnterTable : (execTaskEnterTable s).Canon := by
  unfold Machine.execTaskEnterTable
  extract_lets home key c sec
  split
  · exact .refused
  · extract_lets l1 late
    split
    · exact .refused
    · split
      extract_lets _ _ s0 s1
      have hs0 : s0.Canon := h.modLaunch
      have hs1 : s1.Canon := .ite hs0.bindCluster hs0
      refine State.Canon.guardEvent ?_
      split
      · exact hs1.refuseTask.endLaunch
      · exact hs1.enterTable rfl

theorem State.Canon.putTask {sec slot k} : (s.putTask sec slot k).Canon := h.setSector

theorem State.Canon.execCoreChoice : (execCoreChoice s).Canon := by
  unfold Machine.execCoreChoice
  extract_lets sec c
  split
  · exact .refused
  · split
    · exact h.remap.bindCluster.putTask.guardEvent
    · exact .refused

theorem State.Canon.footWord {sec k t cl r va p} (e : s.footWord sec k t cl r va = p) : p.2.2.Canon := by
  subst e
  unfold State.footWord
  split
  · exact h.engineWalk
  · split
    · exact h
    · extract_lets _ s1
      have hs1 : s1.Canon := h.settleLine
      split
      · split
        · split
          next s' e5 => exact hs1.serveUnit e5
        · split
          next s2 e4 =>
          have h1 : s2.Canon := hs1.readAsOf e4
          split
          · exact h1
          · split
            next s' e5 => exact h1.serveUnit e5
      · split
        next s' e3 => exact (h.peerRead e3).nextFresh

theorem State.Canon.footRange {sec k t cl r va off n} {m : Memory} (hm : m.wf = true) {b p}
    (e : s.footRange sec k t cl r va off n m b = p) : p.1.wf = true ∧ p.2.2.Canon := by
  induction n generalizing s va off m b with
  | zero => subst e; exact ⟨hm, h⟩
  | succ n ih =>
    unfold State.footRange at e
    split at e
    next e1 => exact ih (h.footWord e1) (Memory.write_wf hm _ _ _) e

theorem State.Canon.footprint {sec k t cl r l n} {m : Memory} (hm : m.wf = true) {b p}
    (e : s.footprint sec k t cl r l n m b = p) : p.1.wf = true ∧ p.2.2.Canon := by
  induction l generalizing s n m b with
  | nil => subst e; exact ⟨hm, h⟩
  | cons a l ih =>
    unfold State.footprint at e
    split at e
    next e1 =>
    obtain ⟨hm1, h1⟩ := h.footRange hm e1
    exact ih h1 hm1 e

theorem State.Canon.fetchFoot {sec k c r p} (e : s.fetchFoot sec k c r = p) : p.1.wf = true ∧ p.2.2.Canon :=
  h.footprint Memory.wf_empty e

theorem State.Canon.landFoot {sec slot k c} {m : Memory} (hm : m.wf = true) : (s.landFoot sec slot k c m).Canon :=
  (h.modCore (fun _ h1 => h1.setLs hm)).putTask

theorem State.Canon.closeFoots : s.closeFoots.Canon := by
  unfold State.closeFoots
  refine h.foldl fun s a h => ?_
  split
  · refine .ite ?_ h
    split
    next e =>
    obtain ⟨hm, h1⟩ := h.fetchFoot e
    exact h1.landFoot hm
  · exact h

theorem State.Canon.execFootprintLanded : (execFootprintLanded s).Canon := by
  unfold Machine.execFootprintLanded
  extract_lets sec
  split
  · exact .refused
  · split
    · refine .ite h.putTask.guardEvent (.guardEvent ?_)
      split
      next e =>
      obtain ⟨hm, h1⟩ := h.fetchFoot e
      exact .ite h1.putTask.modLaunch.writeStatus.next (h1.landFoot hm).next
    · exact .refused

theorem State.Canon.popQueue {sec queue slot} : (s.popQueue sec queue slot).Canon := by
  unfold State.popQueue
  extract_lets _ l rest s1
  have hs1 : s1.Canon := h.setSector
  clear_value l rest
  split
  · split
    · split
      · exact hs1.putTask
      · exact hs1
    · exact hs1
  · exact hs1

theorem State.Canon.dispatchOn {sec slot k c} : (s.dispatchOn sec slot k c).Canon := by
  unfold State.dispatchOn
  split
  · exact h
  · exact (h.popQueue.putTask.modCore (fun _ h1 => h1.forTask.setCtx)).acquireActs

theorem State.Canon.execTaskDispatch : (execTaskDispatch s).Canon := by
  unfold Machine.execTaskDispatch
  split
  · exact .refused
  · exact h.dispatchOn.next

theorem State.Canon.sendClean {cl l} : (s.sendClean cl l).Canon := (h.setCluster h.cluster.update).sendBack

theorem State.Canon.endRelease {c} {t : BitVec 12} {sc ws} {k : State → Res} (hk : ∀ t : State, t.Canon → (k t).Canon) :
    (endRelease c t sc ws s k).Canon :=
  .ite (h.foldl (fun _ _ h1 => h1.sendClean)).mergeMine.next (.guardEvent (hk _ h))

theorem State.Canon.leaveTable {t after} : (s.leaveTable t after).Canon := by
  unfold State.leaveTable
  split
  · exact h
  · exact h.popQueue.setSector

theorem State.Canon.vacate {c} : (s.vacate c).Canon := h.modCore (fun _ h1 => h1.forTask)
theorem State.Canon.renamesDone {t} : (s.renamesDone t).Canon := h.setSector
theorem State.Canon.renamesUndone {t} : (s.renamesUndone t).Canon := h.foldl (fun _ _ h1 => h1.setSector)

theorem State.Canon.execRenameCommit : (execRenameCommit s).Canon := by
  unfold Machine.execRenameCommit
  extract_lets sec q
  split
  · exact .refused
  · extract_lets _ _ _ s1 s2
    have hs1 : s1.Canon := by
      unfold s1
      split
      · exact h.arriveWrite
      · exact h
    have hs2 : s2.Canon := hs1.mapClusters fun _ he => he.update
    exact hs2.setSector.guardEvent

theorem State.Canon.execTaskRetireComplete : (execTaskRetireComplete s).Canon := by
  unfold Machine.execTaskRetireComplete
  extract_lets c b
  split
  · exact .refused
  · split
    · exact .refused
    · refine .guardEvent (h.endRelease ?_)
      intro s h
      extract_lets s1 s2
      have h1 : s1.Canon := h.dropPins.vacate.moveStage
      have h2 : s2.Canon := .ite h1.modTask h1.renamesDone.leaveTable.modLaunch
      exact h2.writeStatus.endLaunch.next

theorem State.Canon.forgetCopies {c t} : (s.forgetCopies c t).Canon := h.setOctet
theorem State.Canon.reclaimCore {c t} : (s.reclaimCore c t).Canon := h.endTask.forgetCopies.dropPins.vacate

theorem State.Canon.execTaskFailureComplete : (execTaskFailureComplete s).Canon := by
  unfold Machine.execTaskFailureComplete
  extract_lets c b
  split
  · exact .refused
  · split
    · exact .refused
    · split
      · refine .guardEvent (h.endRelease ?_)
        intro s h
        extract_lets _ s2 s3
        have h2 : s2.Canon := h.postFailure.reclaimCore.renamesUndone.modLaunch
        have h3 : s3.Canon := .ite h2.modTask h2.leaveTable
        exact h3.writeStatus.endLaunch.next
      · exact .refused

theorem State.Canon.purgeHeld {t} : (s.purgeHeld t).Canon := h.update
theorem State.Canon.purgeSends {t} : (s.purgeSends t).Canon := h.mapCores fun _ hk => hk.update
theorem State.Canon.forgetEverywhere {t} : (s.forgetEverywhere t).Canon := h.update

theorem State.Canon.squash {t} : (s.squash t).Canon := by
  unfold State.squash
  split
  · exact h
  · extract_lets _ drop s1
    have h_drop : ∀ (c : CoreId) (s : State), s.Canon → (drop c s).Canon := fun _ _ h1 =>
        (h1.modCore (fun _ h2 => h2.update)).leaveFifoBanks.endTask.forgetCopies.dropPins.vacate
    have hs1 : s1.Canon := by
      unfold s1
      split
      · exact h_drop _ _ h
      · exact h_drop _ _ h
      · exact h_drop _ _ h.postFailure
      · exact h.update
      · exact h
    exact hs1.forgetEverywhere.purgeSends.purgeHeld.renamesUndone.leaveTable.modLaunch

theorem State.Canon.clearMasks {home key} : (s.clearMasks home key).Canon := h.update
theorem State.Canon.unwatch {home key} : (s.unwatch home key).Canon := h.update
theorem State.Canon.releaseTask {t} : (s.releaseTask t).Canon := h.foldl (fun _ _ h1 => h1.foldl (fun _ _ h2 => h2.releaseHeld))

theorem State.Canon.keepTask {t k} : (s.keepTask t k).Canon := by
  unfold State.keepTask
  extract_lets s1
  have hs1 : s1.Canon := h.modTask.releaseTask
  split
  · exact hs1.renamesDone.leaveTable.modLaunch
  · exact hs1.leaveTable
  · exact hs1.modCore (fun _ h1 => h1.wakeLaunch)
  · exact hs1.modCore (fun _ h1 => h1.wakeLaunch)
  · exact hs1

theorem State.Canon.failLaunch {home key} {f : Launch → Launch} : (s.failLaunch home key f).Canon :=
  (h.modLaunch.unwatch.foldl (fun _ _ h1 => h1.squash)).clearMasks.endLaunch

theorem State.Canon.resolve {home key l v} : (s.resolve home key l v).Canon :=
  .ite h.failLaunch
      ((h.setSector.unwatch.foldl (fun _ _ h1 => h1.squash)).modLaunch.foldl (fun _ _ h1 =>
          h1.keepTask)).clearMasks.writeStatus.endLaunch

theorem State.Canon.execLaunchResolve : (execLaunchResolve s).Canon := by
  unfold Machine.execLaunchResolve
  split
  · exact .refused
  · split
    · exact .refused
    · exact h.resolve.guardEvent

theorem State.Canon.postLaunch {kind home l} : (s.postLaunch kind home l).Canon := h.postMgmt.postHost

theorem State.Canon.execDeadlinePass : (execDeadlinePass s).Canon := by
  unfold Machine.execDeadlinePass
  extract_lets home key
  split
  · exact .refused
  · exact h.modLaunch.postLaunch.writeStatus.guardEvent

theorem State.Canon.execShapeExpire : (execShapeExpire s).Canon := by
  unfold Machine.execShapeExpire
  extract_lets home key
  split
  · exact .refused
  · exact h.postLaunch.failLaunch.guardEvent

end Sys2Proof.Machine
end

section
/-! PROOFS (O58). Float, level-index and vector instructions. -/

namespace Sys2Proof.Machine

variable {s : State} (h : s.Canon)
include h

theorem State.Canon.putNum {d r} : (putNum d r s).Canon := h.setG.addFlags.done
theorem State.Canon.putCmp {d poison r} : (putCmp d poison r s).Canon := .ite h.setP.done h.setP.addFlags.done

theorem State.Canon.execFdiv {d r b f r1 q} : (execFdiv d r b f r1 q s).Canon := by
  unfold Machine.execFdiv
  refine h.pred ?_
  split
  exact h.onDivide

theorem State.Canon.execFsqrt {d r f r1 q} : (execFsqrt d r f r1 q s).Canon := by
  unfold Machine.execFsqrt
  refine h.pred ?_
  extract_lets x t
  split
  exact h.onDivide

theorem State.Canon.minmax {isMax d r b f} : (minmax isMax d r b f s).Canon := h.putNum

theorem State.Canon.execFcvt {d r r1 c q} : (execFcvt d r r1 c q s).Canon := by
  unfold Machine.execFcvt
  refine h.pred ?_
  extract_lets x
  split
  exact h.putNum

theorem State.Canon.level2 {i} {op : LFmt → Nat → Nat → Nat × Word} {d r b f} : (level2 i op d r b f s).Canon := by
  unfold Machine.level2
  extract_lets x y
  split
  exact h.onRecurrence

theorem State.Canon.execLadd {d r b f q} : (execLadd d r b f q s).Canon := h.pred h.level2
theorem State.Canon.execLsub {d r b f q} : (execLsub d r b f q s).Canon := h.pred h.level2
theorem State.Canon.execLmul {d r b f q} : (execLmul d r b f q s).Canon := h.pred h.level2
theorem State.Canon.execLdiv {d r b f q} : (execLdiv d r b f q s).Canon := h.pred h.level2

theorem State.Canon.execLcvt {d r r1 c q} : (execLcvt d r r1 c q s).Canon := by
  unfold Machine.execLcvt
  refine h.pred ?_
  extract_lets x
  split
  exact h.onRecurrence

theorem State.Canon.putElems {d es} : (putElems d es s).Canon := h.modMe.addFlags.done

theorem State.Canon.onLanes {rs} {k : Res} (hk : k.Canon) : (onLanes rs s k).Canon := by
  unfold Machine.onLanes
  split
  · exact h.trap
  · exact hk

theorem State.Canon.vop2 {bad} {f : Nat → Nat → Nat × Word} {d r b q} : (vop2 bad f d r b q s).Canon :=
  h.pred (h.onLanes h.putElems)

theorem State.Canon.vop1 {bad} {f : Nat → Nat × Word} {d r q} : (vop1 bad f d r q s).Canon := h.pred (h.onLanes h.putElems)

theorem State.Canon.execVclaim {d r q} : (execVclaim d r q s).Canon :=
  h.pred (h.needClean (.ite h.trap (.ite h.waitIn (.ite h.releaseLanes.putG.done (.ite (State.Canon.ite h h.releaseLanes).waitIn
      (.ite h.releaseLanes.modMe.putG.done (.ite h.waitIn h.releaseLanes.setOctet.waitIn)))))))

theorem State.Canon.vrelVia {i} : (vrelVia i s).Canon := .ite h.done (.ite h.waitIn h.releaseLanes.done)
theorem State.Canon.execVrel {q} : (execVrel q s).Canon := h.pred h.vrelVia
theorem State.Canon.execVrelS : (execVrelS s).Canon := h.vrelVia
theorem State.Canon.execVfsub {d r b f r1 q} : (execVfsub d r b f r1 q s).Canon := h.vop2
theorem State.Canon.execVexp {d r q} : (execVexp d r q s).Canon := h.vop1
theorem State.Canon.execVrsum {d r k q} : (execVrsum d r k q s).Canon := h.pred (h.onLanes h.putElems)
theorem State.Canon.execVrmax {d r i32 q} : (execVrmax d r i32 q s).Canon := h.pred (h.onLanes h.putElems)

theorem State.Canon.fuse {m} : (fuse m s).Canon := by
  unfold Machine.fuse
  split
  · next t e =>
    have h1 : t.Canon := h.execVrmax.out e
    split
    · next t1 e1 =>
      have h2 : t1.Canon := h1.execVfsub.out e1
      split
      · next e2 => exact (h2.execVexp.out e2).execVrsum
      · exact h2.execVexp
    · exact h1.execVfsub
  · exact h.execVrmax

theorem State.Canon.execFusedSoftmax : (execFusedSoftmax s).Canon := by
  unfold Machine.execFusedSoftmax
  extract_lets _ _ _ s1
  have hs1 : s1.Canon := h.update
  split
  · exact .refused
  · refine .guardEvent ?_
    split
    · exact hs1.trap
    · refine .guardEvent ?_
      split
      · exact hs1.trap
      · exact (State.Canon.ite hs1.setMe hs1).fuse

theorem State.Canon.touchAll {as} : (s.touchAll as).Canon := h.foldl (fun _ _ h1 => h1.touch)
theorem State.Canon.tlvNow : s.tlvNow.Canon := h.modMyCore (fun _ h1 => h1.takeTlv.doneTlv)
theorem State.Canon.loadDone {d es acq} : (loadDone d es acq s).Canon := h.tlvNow.acquired.putElems

theorem State.Canon.loadElems {i d places ring acq} : (loadElems i d places ring acq s).Canon := by
  unfold Machine.loadElems
  refine .ite h.hold ?_
  split
  · refine .ite h.hold (h.onFifo ?_)
    intro a h1
    split
    next e1 => exact (h1.pull e1).loadDone
  · exact .ite h.loadDone (h.modMyCore (fun _ h1 => h1.takeTlv.update)).modMe.nextSeq.done

theorem State.Canon.vload {i d rs whole contig as acq} : (vload i d rs whole contig as acq s).Canon := by
  unfold Machine.vload
  refine h.onLanes (.ite h.done ?_)
  split
  · exact h.trap
  · exact h.touchAll.loadElems

theorem State.Canon.portElems {num l} : (s.portElems num l).Canon := by
  induction l generalizing s with
  | nil => exact h
  | cons a r ih => exact ih (h.modMyCore fun _ hk => hk.update).nextSeq

theorem State.Canon.writeElems {l} : (s.writeElems l).Canon := by
  induction l generalizing s with
  | nil => exact h
  | cons a r ih => exact ih h.portWrite

theorem State.Canon.storeDone {as es} : (storeDone as es s).Canon := by
  unfold Machine.storeDone
  split
  · exact h.trapAfter
  · exact h.done

theorem State.Canon.storeElems {i as places es ring} : (storeElems i as places es ring s).Canon := by
  unfold Machine.storeElems
  refine .ite h.hold ?_
  split
  · exact .ite h.hold (h.onFifo (fun _ h1 => h1.push.tlvNow.storeDone))
  · exact .ite h.writeElems.tlvNow.storeDone (h.modMyCore (fun _ h1 => h1.takeTlv.update)).nextSeq.portElems.storeDone

theorem State.Canon.vstore {i src rs contig bad as rel} : (vstore i src rs contig bad as rel s).Canon := by
  unfold Machine.vstore
  refine h.onLanes (.ite h.done ?_)
  split
  · exact h.trap
  · split
    · exact h.trap
    · extract_lets ring
      split
      · split
        · exact h.touchAll.trap
        · exact h.done
      · split
        · exact h.trap
        · exact .ite h.hold (h.touchAll.withRelease (fun _ h1 => h1.storeElems))

theorem State.Canon.execVld {d base sc o imm} : (execVld d base sc o imm s).Canon := h.vload
theorem State.Canon.execVst {src base sc o imm} : (execVst src base sc o imm s).Canon := h.vstore

end Sys2Proof.Machine
end

section
/-! PROOFS (O58). Accesses on their way to homes, banks and ports. -/

namespace Sys2Proof.Machine

variable {s : State} (h : s.Canon)
include h

theorem State.Canon.applyAll : s.applyAll.Canon := h.foldl (fun _ _ h1 => .ite h1.applyDue h1)

theorem State.Canon.closeRead {c p r} (e : s.closeRead c p = r) : r.2.Canon := by
  subst e
  unfold State.closeRead
  split
  · exact (State.Canon.ite h h.markBehind).serveOwn rfl
  · exact h.peerRead rfl

theorem State.Canon.takeMsg {id} : (s.takeMsg id).Canon := h.update
theorem State.Canon.answerPeer {id o x} : (s.answerPeer id o x).Canon := h.takeMsg.update.nextSeq

theorem State.Canon.closePeers : s.closePeers.Canon := by
  unfold State.closePeers
  refine h.foldl fun _ _ h1 => ?_
  split
  · split
    · split
      next e2 => exact (h1.serveUnit e2).answerPeer
    · exact h1
  · exact h1

theorem State.Canon.closeTick : s.closeTick.Canon := by
  unfold State.closeTick
  refine State.Canon.closeFoots (State.Canon.closePeers (h.foldl ?_))
  intro s1 a h1
  refine h1.foldl fun _ _ h2 => ?_
  split
  next e => exact (h2.closeRead e).modCore (fun _ h4 => h4.setLoad)

theorem State.Canon.execTick : (execTick s).Canon := by
  unfold Machine.execTick
  refine .ite (h.modCore fun _ hk => hk.update).guardEvent ?_
  exact State.Canon.next (h.applyAll.closeTick.mapCores fun _ hk => hk.update)

omit h in
theorem Res.Canon.onPeer {k : Origin → Nat → Hist → PeerReq → Res}
    (hk : ∀ (a : Origin) (b : Nat) (c : Hist) (d : PeerReq), (k a b c d).Canon) : (onPeer s k).Canon := by
  unfold Machine.onPeer
  split
  · exact .guardEvent (hk _ _ _ _)
  · exact .refused

theorem State.Canon.peerReadStep : (Machine.peerRead s).Canon := by
  unfold Machine.peerRead
  refine .onPeer fun _ _ _ _ => ?_
  split
  · split
    next e => exact (h.serveUnit e).answerPeer.next
  · exact .refused

theorem State.Canon.arriveHeld {e hold p} (he : s.arriveHeld e hold = p) : p.2.Canon := by
  subst he
  unfold State.arriveHeld
  split
  · exact h
  · exact h.arriveTimed rfl
  · exact h.arriveKept rfl
  · exact h

theorem State.Canon.answerHeld {id o} {r : Arrival × State} (hr : r.2.Canon) : (s.answerHeld id o r).Canon := by
  unfold State.answerHeld
  split
  · exact .refused
  · exact h.answerPeer.next
  · exact hr.answerPeer.next

theorem State.Canon.peerWrite : (peerWrite s).Canon := by
  unfold Machine.peerWrite
  refine .onPeer fun _ _ _ _ => ?_
  split
  · exact h.arriveWrite.answerPeer.next
  · exact h.answerHeld (h.arriveHeld rfl)
  · exact .refused

theorem State.Canon.peerAtom : (peerAtom s).Canon := by
  unfold Machine.peerAtom
  refine .onPeer fun _ _ _ _ => ?_
  split
  · split
    next e => exact (h.arriveAtom e).answerPeer.next
  · exact .refused

theorem State.Canon.peerMerge : (peerMerge s).Canon := by
  unfold Machine.peerMerge
  refine .onPeer fun _ _ _ _ => ?_
  split
  · exact (h.arriveAtom rfl).answerPeer.next
  · exact h.answerHeld (h.arriveHeld rfl)
  · exact .refused

theorem State.Canon.peerTld : (peerTld s).Canon := by
  unfold Machine.peerTld
  refine .onPeer fun _ _ _ _ => ?_
  split
  · split
    · split
      next e1 => exact (h.readAsOf e1).countView.answerPeer.next
    · exact h.update.next
  · exact .refused

theorem State.Canon.vecRead {c e i t} (he : s.vecRead c e i = some t) : t.2.Canon := by
  unfold State.vecRead at he
  split at he
  · extract_lets m at he
    split at he
    · cases he
    · split at he
      next s1 e1 =>
      have h1 : s1.Canon := by
        split at e1
        · cases e1; exact h
        · exact h.serve e1
      cases he; exact h1
  · cases he; exact h

theorem State.Canon.landAny {c e} : (landAny c e s).Canon := by
  unfold Machine.landAny
  split
  · split
    · exact .refused
    · exact .refused
    · exact h.landLoad.next
    · exact h.landLoad.next
    · exact h.landLoad.next
  · refine .guardEvent ?_
    split
    · exact .ite .refused h.landLoad.next
    · exact h.landPlain

theorem State.Canon.execLoadReplyLand : (execLoadReplyLand s).Canon := by
  unfold Machine.execLoadReplyLand
  refine .ite h.peerReadStep ?_
  split
  · split
    · exact .refused
    · split
      · exact .refused
      · next s1 e3 => exact ((h.vecRead e3).modCore (fun _ h2 => h2.setVec)).guardEvent
  · split
    · exact .refused
    · exact h.landAny

theorem State.Canon.vecReadAll {c e l t} (he : s.vecReadAll c e l = some t) : t.2.Canon := by
  induction l generalizing s e with
  | nil => cases he; exact h
  | cons i r ih =>
    obtain ⟨x, e1, e2⟩ := Option.bind_eq_some_iff.1 he
    exact ih (h.vecRead e1) e2

theorem State.Canon.performVec {c e} : (s.performVec c e).Canon := by
  unfold State.performVec
  refine h.foldl fun _ _ h1 => ?_
  split
  · exact h1.cleanLine
  · exact h1

theorem State.Canon.execVectorMemoryComplete : (execVectorMemoryComplete s).Canon := by
  unfold Machine.execVectorMemoryComplete
  extract_lets c
  split
  · exact .refused
  · split
    · split
      · exact .refused
      · next e3 =>
        extract_lets s2
        have hs2 : s2.Canon := (h.vecReadAll e3).modCore (fun _ h2 => h2.setVec.setCtx.doneTlv)
        refine State.Canon.next ?_
        split
        · exact hs2.acquireActs
        · exact hs2
    · exact ((State.Canon.ite h h.performVec).modCore (fun _ h1 => h1.setVec.doneTlv)).guardEvent

theorem State.Canon.serveTimed {c e t} : (serveTimed c e t s).Canon := by
  unfold Machine.serveTimed
  extract_lets reply
  have h_reply : ∀ (v : PWord) (stale : Bool) (s : State), s.Canon → Res.Canon (reply v stale s) := fun _ _ _ h1 =>
      (h1.modCore (fun _ h2 => h2.setLoad)).next
  split
  · exact .refused
  · exact h_reply _ _ _ h
  · split
    · extract_lets s0
      have hs0 : s0.Canon := .ite h h.settleLine
      split
      · split
        next e4 => exact h_reply _ _ _ (hs0.readAsOf e4).countView
      · exact (hs0.modCore (fun _ h1 => h1.setLoad)).next
    · exact .ite .refused (h_reply _ _ _ (h.peerRead rfl).nextFresh)

theorem State.Canon.execTldServe : (execTldServe s).Canon := by
  unfold Machine.execTldServe
  refine .ite h.peerTld ?_
  split
  · exact .refused
  · split
    · exact .guardEvent h.serveTimed
    · exact .refused

theorem State.Canon.sendAck {c e late drop} : (s.sendAck c e late drop).Canon := h.update.nextSeq

theorem State.Canon.arriveView {pa o drop t p} (e : s.arriveView pa o drop t = p) : p.2.Canon := by
  subst e
  unfold State.arriveView
  extract_lets s1
  have hs1 : s1.Canon := h.viewWrite
  split
  · exact hs1.setSlice
  · exact hs1

theorem State.Canon.arriveStore {c e t} : (arriveStore c e t s).Canon := by
  unfold Machine.arriveStore
  extract_lets refuse gone
  have h_refuse : ∀ (s : State), s.Canon → Res.Canon (refuse s) := fun _ h => (h.modCore fun _ hk => hk.setPort).next
  have h_gone : ∀ (late drop : Bool) (s : State), s.Canon → Res.Canon (gone late drop s) :=
    fun _ _ _ h => (h.sendAck.modCore fun _ hk => hk.setPort).next
  split
  · next pa _ _ =>
    extract_lets s0 entry
    have h0 : s0.Canon := .ite h h.settleLine
    have h_arrive : ∀ {p : Arrival × State}, (if e.held.isSome && (s0.specTask c).isNone then s0.arriveKept entry
        else if entry.held.isNone && !isHbm pa then s0.arriveView pa entry.origin entry.drop t
        else s0.arriveTimed entry t) = p → p.2.Canon := by
      intro p e1
      split at e1
      · exact h0.arriveKept e1
      · split at e1
        · exact h0.arriveView e1
        · exact h0.arriveTimed e1
    split
    · next e1 => exact h_refuse _ (h_arrive e1)
    · exact .refused
    · next e1 => exact h_gone _ _ _ (h_arrive e1)
    · next e1 => exact h_gone _ _ _ (h_arrive e1)
    · next e1 => exact h_gone _ _ _ (h_arrive e1)
  · refine .ite .refused ?_
    split
    · exact h_gone _ _ _ h
    · exact h_gone _ _ _ h
    · exact h_gone _ _ _ h
    · exact h_refuse _ h

theorem State.Canon.offerStore {c e} : (offerStore c e s).Canon := by
  unfold Machine.offerStore
  split
  · exact .ite .refused h.arriveStore
  · exact .refused

theorem State.Canon.resolvePeer {o task keep} : (s.resolvePeer o task keep).Canon :=
  (State.Canon.ite h.releaseTask h.purgeHeld).update

theorem State.Canon.peerTst : (peerTst s).Canon := by
  unfold Machine.peerTst
  refine .onPeer fun _ _ _ _ => ?_
  split
  · extract_lets entry
    split
    · split
      · exact .refused
      · next s1 _ e1 =>
        have h1 : s1.Canon := by
          split at e1
          · exact h.arriveTimed e1
          · exact h.arriveView e1
        exact h1.answerPeer.next
    · exact h.answerHeld (h.arriveHeld rfl)
  · exact h.resolvePeer.answerPeer.next
  · exact .refused

theorem State.Canon.execTimedStoreArrive : (execTimedStoreArrive s).Canon := by
  unfold Machine.execTimedStoreArrive
  refine .ite h.peerTst ?_
  split
  · exact .refused
  · exact .guardEvent h.offerStore

theorem State.Canon.deliverAck {t who n gen late drop retry} : (s.deliverAck t who n gen late drop retry).Canon := by
  unfold State.deliverAck
  refine .ite (h.modCore (fun _ h1 => h1.setCtx)) ?_
  split
  · exact h
  · exact h.modTask

theorem State.Canon.execTimedStoreAck : (execTimedStoreAck s).Canon := by
  unfold Machine.execTimedStoreAck
  split
  · exact h.takeMsg.deliverAck.next
  · exact .refused

theorem State.Canon.offerPlain {c e} : (offerPlain c e s).Canon := by
  unfold Machine.offerPlain
  refine .ite .refused ?_
  split
  · exact .refused
  · exact .refused
  · exact h.performPort
  · refine .ite .refused ?_
    split
    · next e2 => exact ((h.accumulate e2).modCore (fun _ h2 => h2.setPort)).next
    · split
      · exact (h.modCore (fun _ h1 => h1.setPort)).next
      · exact .refused
  · exact .refused

theorem State.Canon.execPlainStoreArrive : (execPlainStoreArrive s).Canon := by
  unfold Machine.execPlainStoreArrive
  refine .ite h.peerWrite ?_
  split
  · exact .refused
  · exact .guardEvent h.offerPlain

theorem State.Canon.execWritebackArrive : (execWritebackArrive s).Canon := by
  unfold Machine.execWritebackArrive
  extract_lets k
  split
  · exact .refused
  · exact (h.setCluster h.cluster.update).applyLine.guardEvent

theorem State.Canon.atomPlace {c p n op v r} (e : s.atomPlace c p n op v = r) : r.2.Canon := by
  subst e
  unfold State.atomPlace
  split
  · split
    · exact h.arriveAtom rfl
    · exact h.settleLine.arriveAtom rfl
  · split
    next s1 e =>
    have h1 : s1.Canon := h.settleLine.peerRead e
    exact h1
  · exact h.atomPort rfl

theorem State.Canon.execAtomicAtHome : (execAtomicAtHome s).Canon := by
  unfold Machine.execAtomicAtHome
  refine .ite h.peerAtom ?_
  split
  · exact .refused
  · split
    · refine .guardEvent ?_
      split
      next s1 e1 =>
      have h1 : s1.Canon := by
        split at e1
        · cases e1; exact h
        · exact h.atomPlace e1
      exact (h1.modCore fun _ hk => hk.setLoad).next
    · exact .refused

theorem State.Canon.execMergeArrive : (execMergeArrive s).Canon := by
  unfold Machine.execMergeArrive
  refine .ite h.peerMerge ?_
  split
  · exact .refused
  · exact h.applyMerge.guardEvent

theorem State.Canon.execHeldAccessRelease : (execHeldAccessRelease s).Canon := by
  unfold Machine.execHeldAccessRelease
  extract_lets c
  split
  · exact h.landAny
  · refine .guardEvent ?_
    split
    · exact h.offerStore
    · exact h.offerPlain
  · exact .refused

theorem State.Canon.runFifo {i} : (runFifo i s).Canon := by
  unfold Machine.runFifo
  split
  · exact h.execStd
  · exact h.execStdS
  · exact h.execXst
  · exact h.execVst
  · exact h.execLdd
  · exact h.execLddS
  · exact h.execXld
  · exact h.execVld
  · exact .refused

theorem State.Canon.serveFifo {ok : FifoWait → Bool} : (serveFifo ok s).Canon := by
  unfold Machine.serveFifo
  extract_lets cl f
  split
  · exact .refused
  · split
    · exact .refused
    · split
      · next t e2 => exact .ite .refused ((h.wake (fun _ h1 => h1.runFifo)).out e2).next
      · exact h.wake (fun _ h1 => h1.runFifo)

end Sys2Proof.Machine
end

section
/-! PROOFS (O58). Copy channels. -/

namespace Sys2Proof.Machine

variable {s : State} (h : s.Canon)
include h

theorem State.Canon.setChan {o i ch} : (s.setChan o i ch).Canon := h.setOctet

theorem State.Canon.execCopyStart : (execCopyStart s).Canon := by
  unfold Machine.execCopyStart
  extract_lets c
  split
  · exact .refused
  · split
    · exact .refused
    · exact (h.modCore (fun _ h1 => h1.setPort)).setChan.guardEvent

theorem State.Canon.forward {cs err} : (s.forward cs err).Canon := .ite h.update.nextSeq h

theorem State.Canon.onStarter {cs} {f : Core → Core} (hf : ∀ k : Core, k.Canon → (f k).Canon) : (s.onStarter cs f).Canon :=
  .ite (h.modCore (fun _ h1 => hf _ h1)) h

theorem State.Canon.copyTag {cs ok err} : (s.copyTag cs ok err).Canon :=
  .ite (h.onStarter (fun _ h1 => .ite (Core.Canon.ite h1.setTag h1).setTagErr (.ite h1.setTag h1))) h

theorem State.Canon.freeze {o i cs addr write kind} : (s.freeze o i cs addr write kind).Canon := h.setChan.copyTag.forward

theorem State.Canon.performWrite {cs w t} (e : s.performWrite cs w = some t) : t.Canon := by
  unfold State.performWrite at e
  split at e
  · extract_lets s0 at e
    have h0 : s0.Canon := h.settleLine
    split at e
    · extract_lets e0 at e
      split at e
      · cases e
      · next e1 => cases e; exact (h0.arriveTimed e1).nextSeq
    · cases e; exact h0.arriveWrite
  · cases e; exact h.settleLine
  · cases e; exact h

theorem State.Canon.performWrites {o i cs n} : (s.performWrites o i cs n).Canon := by
  induction n generalizing s with
  | zero => exact h
  | succ n ih =>
    unfold State.performWrites
    extract_lets ch
    split
    · exact h
    · refine .ite h ?_
      split
      · exact h.setChan
      · next e => exact ih (h.performWrite e).setChan

theorem State.Canon.copyRead {cs va n} : Moved.CanonRead (s.copyRead cs va n) := by
  unfold State.copyRead
  extract_lets s1
  have h1 : s1.Canon := h.touch
  split
  · split
    · split
      · exact Moved.Canon.fault.read
      · split
        · split
          next e => exact (h1.pull e).read
        · exact Moved.Canon.wait.read
    · split
      next e => exact (h1.serveOwn e).read
    · split
      · exact Moved.Canon.wait.read
      · split
        next e => exact (h1.peerRead e).read
    · exact (h1.serve rfl).read
  · exact Moved.Canon.fault.read

theorem State.Canon.copyReadAfter {o i cs va n} : Moved.CanonRead (s.copyReadAfter o i cs va n) := by
  unfold State.copyReadAfter
  extract_lets clash s1
  split
  · split
    · exact Moved.Canon.wait.read
    · exact h.performWrites.copyRead
  · exact h.copyRead

theorem State.Canon.copyWrite {o i cs va n v} : (s.copyWrite o i cs va n v).Canon := by
  unfold State.copyWrite
  extract_lets s0
  have h0 : s0.Canon := h.touch.modCore fun _ hk => hk.counts
  split
  · split
    · split
      · exact .fault
      · split
        · exact h0.push.moved
        · exact .wait
    · exact h0.flushLine.setChan.nextSeq.moved
    · exact h0.portWrite.moved
  · exact .fault

theorem State.Canon.moveElem {o i cs t} : (s.moveElem o i cs t).Canon := by
  unfold State.moveElem
  split
  · next e => exact h.copyReadAfter.inr e
  · next v s1 e =>
    have hw : (s1.copyWrite o i cs t.dst t.n v).Canon := (h.copyReadAfter.inl e).copyWrite
    split
    · next e1 =>
      have h2 := hw.ok e1
      exact (State.Canon.ite h2.setChan h2).moved
    · exact hw

theorem State.Canon.moveStep {o i cs t} : (s.moveStep o i cs t).Canon := by
  unfold State.moveStep
  extract_lets ch s1
  split
  · split
    · exact h.performWrites.moveElem
    · exact .wait
  · exact h.moveElem

theorem State.Canon.moveRows {o i cs} : (s.moveRows o i cs).Canon := by
  unfold State.moveRows
  extract_lets rowptr row0 nrows
  split
  · next e => exact h.copyRead.inr e
  · next e =>
    have h1 := h.copyRead.inl e
    split
    · next e1 => exact h1.copyRead.inr e1
    · next e1 =>
      split
      · exact .fault
      · exact (h1.copyRead.inl e1).setChan.moved

theorem State.Canon.readBlock {o i cs b l vs} : Moved.CanonRead (s.readBlock o i cs b l vs) := by
  induction l generalizing s vs with
  | nil => exact h.read
  | cons t r ih =>
    unfold State.readBlock
    split
    extract_lets va
    split
    · next e => exact (h.copyReadAfter.inr e).read
    · next e => exact ih (h.copyReadAfter.inl e)

theorem State.Canon.readBlocks {o i cs l bs} : Moved.CanonRead (s.readBlocks o i cs l bs) := by
  induction l generalizing s bs with
  | nil => exact h.read
  | cons b r ih =>
    unfold State.readBlocks
    split
    · next e => exact (h.readBlock.inr e).read
    · next e => exact ih (h.readBlock.inl e)

theorem State.Canon.writeTile {o i cs bs l} : (s.writeTile o i cs bs l).Canon := by
  induction l generalizing s with
  | nil => exact h.moved
  | cons u r ih =>
    have hw : (s.copyWrite o i cs (cs.dst + BitVec.ofNat 64 (8 * u)) 8 (tileUnit bs cs.prec u)).Canon := h.copyWrite
    unfold State.writeTile
    split
    · next e => exact ih (hw.ok e)
    · exact hw

theorem State.Canon.moveTile {o i cs} : (s.moveTile o i cs).Canon := by
  unfold State.moveTile
  split
  · next e => exact h.readBlocks.inr e
  · next bs s1 e =>
    have hw : (s1.writeTile o i cs bs (List.range (cs.tileBytes / 8))).Canon := (h.readBlocks.inl e).writeTile
    split
    · next e1 => exact (hw.ok e1).setChan.moved
    · exact hw

theorem State.Canon.copyStep {o i cs} : (s.copyStep o i cs).Canon := by
  unfold State.copyStep
  extract_lets _ r
  have hr : r.Canon := by
    unfold r
    split
    · exact h.moveTile
    · split
      · exact h.moveRows
      · exact h.moveStep
  clear_value r
  split
  · next s1 => exact (hr.ok rfl).setChan.moved
  · exact hr

theorem State.Canon.copySteps {o i cs n} : (s.copySteps o i cs n).Canon := by
  induction n generalizing s with
  | zero => exact h
  | succ n ih =>
    unfold State.copySteps
    refine .ite h ?_
    split
    · next e => exact ih (h.copyStep.ok e)
    · exact h

theorem State.Canon.nextIter {o i cs} : (s.nextIter o i cs).Canon := .ite h.setChan h

theorem State.Canon.completeNums {o i cs} : (s.completeNums o i cs).Canon := by
  unfold State.completeNums
  refine .ite h ?_
  split
  exact h.setChan.onStarter (fun _ h1 => h1.completeTlc)

theorem State.Canon.deliver {o i cs} : (s.deliver o i cs).Canon := h.setChan.copyTag.forward.nextIter.completeNums

theorem State.Canon.execCopyDelivered : (execCopyDelivered s).Canon := by
  unfold Machine.execCopyDelivered
  extract_lets o i ch
  split
  · exact .refused
  · refine .guardEvent ?_
    extract_lets _ s1
    have h1 : s1.Canon := h.copySteps
    exact .ite h1.deliver.next (.ite .refused h1.next)

theorem State.Canon.execCopyFreeze : (execCopyFreeze s).Canon := by
  unfold Machine.execCopyFreeze
  extract_lets o i u
  split
  · exact .refused
  · split
    · split
      · exact h.touch.freeze.next
      · exact .refused
    · exact .refused

theorem State.Canon.execCopyComplete : (execCopyComplete s).Canon := by
  unfold Machine.execCopyComplete
  extract_lets o i u held
  split
  · exact .refused
  · exact .guardEvent h.performWrites.completeNums.guardEvent

theorem State.Canon.execCopyIterationRelease : (execCopyIterationRelease s).Canon := by
  unfold Machine.execCopyIterationRelease
  extract_lets o i u
  split
  · exact .refused
  · exact h.setChan.guardEvent

theorem State.Canon.badTemplate {o i cs ch} : (s.badTemplate o i cs ch).Canon :=
  h.setChan.copyTag.onStarter (fun _ h1 => h1.completeTlc)

theorem State.Canon.execCopyQueueHead : (execCopyQueueHead s).Canon := by
  unfold Machine.execCopyQueueHead
  extract_lets o i u
  split
  · extract_lets u1 c busy u2
    refine .ite h.badTemplate.next ?_
    split
    next s1 _ e2 =>
    have h1 : s1.Canon := h.cleanMine.releaseActs e2
    exact .ite .refused (.ite h1.setChan.next h1.guardEvent)
  · exact .refused

omit h in
theorem Res.Canon.onStartWord {bit} {k : PortEntry → Fin 8 → Res} (hk : ∀ (a : PortEntry) (b : Fin 8), (k a b).Canon) :
    (onStartWord bit s k).Canon := by
  unfold Machine.onStartWord
  split
  · exact .refused
  · split
    · exact .guardEvent (hk _ _)
    · exact .refused

theorem State.Canon.execCopyResume : (execCopyResume s).Canon := by
  unfold Machine.execCopyResume
  exact .onStartWord
      (fun _ _ => (State.Canon.ite (h.modCore (fun _ h1 => h1.setPort)).setChan (h.modCore (fun _ h1 => h1.setPort))).next)

theorem State.Canon.execCopyAbort : (execCopyAbort s).Canon := by
  unfold Machine.execCopyAbort
  refine .onStartWord fun _ _ => ?_
  extract_lets s1
  have hs1 : s1.Canon := h.modCore (fun _ h1 => h1.setPort)
  split
  · exact (hs1.setChan.performWrites.setChan.copyTag.forward.onStarter (fun _ h1 => h1.completeTlc)).guardEvent
  · exact hs1.next

theorem State.Canon.execStoreRetry : (execStoreRetry s).Canon := by
  unfold Machine.execStoreRetry
  split
  · extract_lets o i u
    split
    · exact (State.Canon.ite h.performWrites.completeNums h.performWrites).guardEvent
    · exact .refused
  · extract_lets c
    split
    · exact .refused
    · refine .guardEvent ?_
      extract_lets s1
      have hs1 : s1.Canon := h.modCore (fun _ h1 => h1.setPort)
      split
      · exact hs1.offerStore
      · exact hs1.offerPlain

end Sys2Proof.Machine
end

section
/-! PROOFS (O58). The management window, the host window and the up-links. -/

namespace Sys2Proof.Machine

variable {s : State} (h : s.Canon)
include h

theorem State.Canon.mwinStore {ok : Nat → Word → Bool} {run : Nat → Word → State → State}
    (hrun : ∀ (a : Nat) (b : Word) (t : State), t.Canon → (run a b t).Canon) : (mwinStore s ok run).Canon := by
  unfold Machine.mwinStore
  split
  · exact .refused
  · split
    · exact (hrun _ _ _ (h.modCore (fun _ h1 => h1.setPort))).guardEvent
    · exact .refused

theorem State.Canon.rowStore {r} {run : Nat → Word → State → State}
    (hrun : ∀ (a : Nat) (b : Word) (t : State), t.Canon → (run a b t).Canon) : (rowStore r s run).Canon :=
  h.mwinStore (fun _ _ _ h1 => hrun _ _ _ h1)

theorem State.Canon.execKeygo : (execKeygo s).Canon := h.rowStore (fun _ _ _ h1 => h1.setLink)
theorem State.Canon.execTlbinv : (execTlbinv s).Canon := h.rowStore fun _ _ _ h => h.mapClusters fun _ hk => hk.update
theorem State.Canon.execPlimWrite : (execPlimWrite s).Canon := h.rowStore (fun _ _ _ h1 => h1.update)

theorem State.Canon.execEvqPop : (execEvqPop s).Canon := by
  unfold Machine.execEvqPop
  split
  · exact .refused
  · exact (h.mwinRead rfl).landLoad.guardEvent

theorem State.Canon.execRollbackWrite : (execRollbackWrite s).Canon := h.rowStore (fun _ _ _ h1 => .ite h1.update h1.update)
theorem State.Canon.execPeernoWrite : (execPeernoWrite s).Canon := h.rowStore (fun _ _ _ h1 => .ite h1 h1.update)
theorem State.Canon.execLcstateWrite : (execLcstateWrite s).Canon := h.rowStore (fun _ _ _ h1 => h1.update)
theorem State.Canon.flashRow {n} : (flashRow n s).Canon := h.mwinStore (fun _ _ _ h1 => h1.setFlash h1.flash.command)

theorem State.Canon.execFlashCommandComplete : (execFlashCommandComplete s).Canon := by
  unfold Machine.execFlashCommandComplete
  split
  · exact .refused
  · exact (h.setFlash h.flash.perform.update).next

theorem State.Canon.execFormatRegionEnable : (execFormatRegionEnable s).Canon :=
  h.rowStore (fun _ _ _ h1 => .ite h1.setRegion h1.setRegion)

theorem State.Canon.execHuskclr : (execHuskclr s).Canon := h.rowStore (fun _ _ _ h1 => .ite h1.setSlice h1)
theorem State.Canon.modPower {cl} {f : Power → Power} : (s.modPower cl f).Canon := h.setCluster h.cluster.update
theorem State.Canon.execThrottleWrite : (execThrottleWrite s).Canon := h.rowStore (fun _ _ _ h1 => .ite h1 h1.modPower)
theorem State.Canon.dieStore {die off v} : (s.dieStore die off v).Canon := .ite h (.ite h.setRegion h.setSector)

theorem State.Canon.plainStore {off v} : (s.plainStore off v).Canon := by
  obtain ⟨hcells, hdata, hrun⟩ := h.flash
  unfold State.plainStore
  refine .ite (.ite h.update h) (.ite h.update (.ite h.update (.ite (.ite h.setLink h) ?_)))
  split
  · exact .ite (h.setFlash h.flash.update) (.ite (h.setFlash (.of hcells (Memory.write_wf hdata _ _ _) hrun)) h)
  · exact .ite h.dieStore h.modPower

theorem State.Canon.windowWrite : (windowWrite s).Canon := h.mwinStore (fun _ _ _ h1 => .ite h1.plainStore h1)

theorem State.Canon.execAlertqPop : (execAlertqPop s).Canon := by
  unfold Machine.execAlertqPop
  extract_lets n x
  split
  · split
    · exact .guardEvent h.update.execMfs
    · exact .refused
  · exact .refused

theorem State.Canon.hostRead {v} : (s.hostRead v).Canon := h.update

theorem State.Canon.execHmemAccess : (execHmemAccess s).Canon := by
  unfold Machine.execHmemAccess
  refine .ite .refused ?_
  split
  · refine .ite h.arriveWrite.next ?_
    split
    next e1 => exact (h.serveUnit e1).hostRead.next
  · exact h.hostRead.guardEvent

theorem State.Canon.hostStore {off v} : (s.hostStore off v).Canon :=
  .ite h.update (.ite h.update (.ite h.update (.ite h.update h)))

theorem State.Canon.execLportSubmit : (execLportSubmit s).Canon := by
  unfold Machine.execLportSubmit
  extract_lets _ t _ _ x
  refine .ite h.next (.guardEvent ?_)
  have h_record : ∀ {p : Option (List Word × List Word) × State},
      (if x.extractLsb' 0 7 != 0 then (none, s) else s.engineRecord t x) = p → p.2.Canon := by
    intro p e
    split at e
    · subst e; exact h
    · exact h.engineRecord e
  split
  · next e => exact (h_record e).portRefused.next
  · next e =>
    have h1 := h_record e
    exact .ite h1.portRefused.next h1.setSector.portRefused.next

theorem State.Canon.execDiv {d r b q} : (execDiv d r b q s).Canon := h.pred h.onDivide
theorem State.Canon.execDivu {d r b q} : (execDivu d r b q s).Canon := h.pred h.onDivide
theorem State.Canon.execMod {d r b q} : (execMod d r b q s).Canon := h.pred h.onDivide
theorem State.Canon.execModu {d r b q} : (execModu d r b q s).Canon := h.pred h.onDivide

theorem State.Canon.execBoost {d r q} : (execBoost d r q s).Canon :=
  h.pred (h.needClean (.ite (h.modMyCore (fun _ h1 => h1.update)).putG.done (.ite ((h.modMyCore (fun _ h1 =>
      h1.update)).modMyCore (fun _ h1 => h1.update)).putG.done (h.modMyCore (fun _ h1 => h1.update)).putG.done)))

theorem State.Canon.runWhenTrained : s.runWhenTrained.Canon := .ite h.update.modCtx h
theorem State.Canon.resent {id} : (s.resent id).Canon := h.update

theorem State.Canon.execLinkFrameSend : (execLinkFrameSend s).Canon := by
  unfold Machine.execLinkFrameSend
  split
  · exact .refused
  · exact h.resent.setLink.guardEvent

theorem State.Canon.execLinkFrameReceive : (execLinkFrameReceive s).Canon :=
  .guardEvent (.ite ((h.setLink.foldl fun _ _ h => h.update.nextSeq).next) h.setLink.next)

end Sys2Proof.Machine
end

section
/-! PROOFS (O58). The matrix engine, packets and remote reads. -/

namespace Sys2Proof.Machine

variable {s : State} (h : s.Canon)
include h

theorem State.Canon.sendTile {o step isA r} : (s.sendTile o step isA r).Canon := h.setOctet

theorem State.Canon.startMmr {o j t x b} : (s.startMmr o j t x b).Canon := by
  unfold State.startMmr
  extract_lets k bad src out
  split
  exact h.setOctet.sendTile.sendTile

theorem State.Canon.landRow {j es} {here past : Nat → Bool} : (s.landRow j es here past).Canon := h.modCtx

theorem State.Canon.engineDone {o k j st} : (s.engineDone o k j st).Canon :=
  .ite h.setOctet (h.setOctet.modCore (fun _ h1 => h1.jobDone))

theorem State.Canon.countProducts {o j} : (s.countProducts o j).Canon := by
  unfold State.countProducts
  extract_lets count
  have h_count : ∀ (t : Tile) (kb ka : Bool), (count t kb ka).Canon := fun _ _ _ => h.modCore (fun _ h1 => h1.counts)
  split
  · exact h_count _ _ _
  · exact h_count _ _ _
  · exact h_count _ _ _
  · exact h

theorem State.Canon.startJob {o j} : (s.startJob o j).Canon := by
  unfold State.startJob
  extract_lets _ _ s0
  have hs0 : s0.Canon := h.setOctet.countProducts
  split
  · exact hs0.startMmr
  · split
    split
    exact hs0.setOctet.modCore (fun _ h1 => h1.update)
  · exact hs0

theorem State.Canon.jobUnit {o j i t} (e : s.jobUnit o j i = some t) : t.Canon := by
  unfold State.jobUnit at e
  extract_lets k at e
  split at e
  · split at e
    · cases e; exact h.setOctet
    · cases e
  · split at e
    · cases e; exact h.setOctet.landRow
    · cases e
  · cases e

theorem State.Canon.finishJob {o j t} (e : s.finishJob o j = some t) : t.Canon := by
  unfold State.finishJob at e
  extract_lets k pos now us load done t0 us2 at e
  have h_load : ∀ {r : Fin 4} {t : State}, load r = some t → t.Canon := by
    intro r t e
    unfold load at e
    split at e
    · cases e; exact h.engineDone
    · cases e; exact h.engineDone
  have h_done : ∀ {q : Octet × Word} {t : State}, done q = some t → t.Canon := by
    intro q t e
    cases e; exact h.engineDone
  split at e
  · exact h_load e
  · exact h_load e
  · exact h_done e
  · exact h_done e
  · obtain ⟨k1, -, rfl⟩ := Option.map_eq_some_iff.1 e
    exact h.engineDone
  · split at e
    · exact h_done e
    · exact h_done e
  · exact h_done e
  · exact h_done e
  · split at e
    · exact h_done e
    · split at e
      exact h_done e
  · split at e
    · exact h_done e
    · split at e
      extract_lets s1 at e
      have h1 : s1.Canon := .ite h h.landRow
      cases e; exact h1.engineDone
  · exact h_done e

theorem State.Canon.offerJob {i d g arg dsc checks} : (offerJob i d g arg dsc checks s).Canon := by
  unfold Machine.offerJob
  split
  · exact h.trap
  · exact .ite h.setP.done (h.setMyOctet.modMyCore (fun _ h1 => h1.useGuard.update)).putG.setP.done

theorem State.Canon.withDsc {o} {k : Word → Res} (hk : ∀ a : Word, (k a).Canon) : (withDsc o s k).Canon := by
  unfold Machine.withDsc
  split
  · exact hk _
  · exact h.needE (fun _ => hk _)

theorem State.Canon.loadJob {i d r e g} : (loadJob i d r e g s).Canon := h.needClean (h.needE (fun _ => h.offerJob))
theorem State.Canon.tileJob {i d o g more} : (tileJob i d o g more s).Canon := h.withDsc (fun _ => h.offerJob)
theorem State.Canon.maskJob {i d r g} : (maskJob i d r g s).Canon := h.needClean h.offerJob
theorem State.Canon.execMcfgQuery {d g} : (execMcfgQuery d g s).Canon := h.offerJob

theorem State.Canon.execMrda {d t e g raw} : (execMrda d t e g raw s).Canon := by
  unfold Machine.execMrda
  refine h.needE fun _ => ?_
  extract_lets v checks
  split
  · exact h.trap
  · split
    · exact h.trap
    · exact h.offerJob

theorem State.Canon.mjwaitVia {i r} : (mjwaitVia i r s).Canon := h.needClean (.ite h.done h.waitIn)

theorem State.Canon.landed {c tenant w n} : (s.landed c tenant w n).Canon := by
  unfold State.landed
  split
  · exact h
  · exact h.touchRange

theorem State.Canon.landUnitAt {p v} : (s.landUnitAt p v).Canon := by
  unfold State.landUnitAt
  split
  · exact h.push
  · exact h.arriveWrite
  · exact h.portWrite

theorem State.Canon.landUnits {l} : (s.landUnits l).Canon := by
  induction l generalizing s with
  | nil => exact h
  | cons a r ih => exact ih h.landUnitAt

theorem State.Canon.setRefused {id t} : (s.setRefused id t).Canon := h.update

theorem State.Canon.atRouter {id l} {deliver : Res} (hdeliver : deliver.Canon) : (s.atRouter id l deliver).Canon := by
  unfold State.atRouter
  refine .ite h.setRefused.update.guardEvent ?_
  split
  · exact .guardEvent hdeliver
  · exact hdeliver

theorem State.Canon.execForwardedTag : (execForwardedTag s).Canon := by
  unfold Machine.execForwardedTag
  split
  · exact .ite (h.atRouter (h.takeMsg.modCore (fun _ h1 => .ite h1.setTagErr h1.setTag)).next) h.takeMsg.guardEvent
  · exact .refused

theorem State.Canon.countFlits {c n} : (s.countFlits c n).Canon := h.modCore (fun _ h1 => h1.counts)

theorem State.Canon.execPacketSend : (execPacketSend s).Canon := by
  unfold Machine.execPacketSend
  extract_lets c q
  split
  · exact .refused
  · exact (h.modCore (fun _ h1 => h1.update)).countFlits.update.nextSeq.next

theorem State.Canon.refusePacket {id} : (s.refusePacket id).Canon := h.setRefused.update
theorem State.Canon.postDiscard {l tenant} : (s.postDiscard l tenant).Canon := h.postMgmt

theorem State.Canon.windowPacket {c tenant dest win data} : (s.windowPacket c tenant dest win data).Canon := by
  unfold State.windowPacket
  extract_lets s'
  have hs : s'.Canon := h.landed
  split
  · exact hs.landUnits.modCore (fun _ h1 => .ite h1.setTag h1)
  · exact hs.modCore (fun _ h1 => (Core.Canon.ite h1.setTagErr h1).addFault)

theorem State.Canon.deliverPacket {id peer lcn tenant dest win data} : (deliverPacket id peer lcn tenant dest win data s).Canon := by
  unfold Machine.deliverPacket
  refine .ite h.refusePacket.next (.ite h.takeMsg.postDiscard.next ?_)
  split
  · exact h.takeMsg.windowPacket.guardEvent
  · exact .ite h.refusePacket.next (h.takeMsg.modCore (fun _ h1 => h1.update.latchAll.wakeRxpop)).next

theorem State.Canon.onPacket {k : Option Word → Res → Res} (hk : ∀ (a : Option Word) (b : Res), b.Canon → (k a b).Canon) :
    (onPacket s k).Canon := by
  unfold Machine.onPacket
  split
  · exact .guardEvent (hk _ _ (h.atRouter h.deliverPacket))
  · exact .refused

omit h in
theorem Res.Canon.onRemote {fetchto} {k : RemoteCmd → Res} (hk : ∀ a : RemoteCmd, (k a).Canon) : (onRemote fetchto s k).Canon := by
  unfold Machine.onRemote
  extract_lets c q
  split
  · exact .refused
  · exact .guardEvent (hk _)

theorem State.Canon.discardRemote {c r} : (s.discardRemote c r).Canon :=
  h.modCore (fun _ h1 => h1.dropRemote.setTag.completeTlf)

theorem State.Canon.sourceUnits {c own l l1 p} (e : s.sourceUnits c own l l1 = p) : p.2.Canon := by
  induction l generalizing s l1 with
  | nil => subst e; exact h
  | cons a r ih =>
    unfold State.sourceUnits at e
    split at e
    next s1 e1 =>
    have h1 : s1.Canon := by
      split at e1
      · split at e1
        · exact h.serveUnit e1
        · exact h.settleLine.serveOwn e1
      · exact h.settleLine.peerRead e1
      · split at e1
        · split at e1
          next e2 => cases e1; exact h.pull e2
        · exact h.serve e1
    exact ih h1 e

theorem State.Canon.execRldReply : (execRldReply s).Canon := by
  unfold Machine.execRldReply
  refine .onRemote fun _ => .ite h.discardRemote.next ?_
  extract_lets _ _
  refine .guardEvent ?_
  split
  · exact (h.touchRange.landUnits.modCore (fun _ h1 => h1.dropRemote.remoteFault.completeTlf)).next
  · exact ((h.touchRange.sourceUnits rfl).landUnits.modCore (fun _ h1 => h1.dropRemote.setTag.completeTlf)).guardEvent

theorem State.Canon.sendReplies {dev req num tenant peer who dst rtag data fault} :
    (s.sendReplies dev req num tenant peer who dst rtag data fault).Canon :=
  h.update

theorem State.Canon.peerFetch : (peerFetch s).Canon := by
  unfold Machine.peerFetch
  refine .onPeer fun _ _ _ _ => ?_
  split
  · extract_lets qs peer
    split
    next s1 e => exact (h.takeMsg.sourceUnits e).sendReplies.next
  · exact .refused

theorem State.Canon.execFetchtoSourceRead : (execFetchtoSourceRead s).Canon := by
  unfold Machine.execFetchtoSourceRead
  refine .ite h.peerFetch (.onRemote fun r => .ite h.discardRemote.next ?_)
  extract_lets _ _ send
  have h_send : ∀ (data : List PWord) (fault : Option Nat) (s1 : State), s1.Canon → Res.Canon (send data fault s1) := by
    intro data fault s1 h1
    unfold send
    extract_lets _ s2
    have h2 : s2.Canon := by
      refine h1.modCore fun k hk => ?_
      extract_lets _ _ k2
      have hk2 : k2.Canon := hk.dropRemote.update
      split
      · exact hk2.addFault
      · exact hk2
    exact h2.nextSeq.countFlits.sendReplies.next
  clear_value send
  split
  · exact h_send _ _ _ h.touchRange
  · refine .guardEvent ?_
    split
    next e => exact h_send _ _ _ (h.touchRange.sourceUnits e)

theorem State.Canon.answer {l dev req num fail} : (s.answer l dev req num fail).Canon := h.update.nextSeq

theorem State.Canon.execFetchtoReplyArrive : (execFetchtoReplyArrive s).Canon := by
  unfold Machine.execFetchtoReplyArrive
  split
  · extract_lets _ s0 s1
    have hs0 : s0.Canon := h.takeMsg
    have hs1 : s1.Canon := hs0.landed
    refine .ite .refused (h.atRouter (.ite hs0.answer.next ?_))
    split
    · exact (hs1.modCore (fun _ h1 => h1.remoteFault)).answer.next
    · refine State.Canon.guardEvent (State.Canon.answer (hs1.landUnits.modCore ?_))
      intro k h1
      split
      · exact h1.remoteFault
      · exact h1.setTag
  · exact .refused

theorem State.Canon.execFetchtoAck : (execFetchtoAck s).Canon := by
  unfold Machine.execFetchtoAck
  split
  · split
    · exact .refused
    · exact (h.modCore (fun _ h1 => h1.answered)).guardEvent
  · split
    · extract_lets _ s1
      have hs1 : s1.Canon := h.takeMsg
      refine State.Canon.guardEvent ?_
      split
      · exact hs1.modCore (fun _ h1 => h1.answered)
      · exact hs1
    · exact .refused

end Sys2Proof.Machine
end

section
/-! PROOFS (O58). Displacement, resume and migration; control intervals; start-up. -/

namespace Sys2Proof.Machine

variable {s : State} (h : s.Canon)
include h

theorem State.Canon.execMatrixJobStart : (execMatrixJobStart s).Canon := by
  unfold Machine.execMatrixJobStart
  extract_lets n o heads
  split
  · exact (h.setOctet.modCore (fun _ h1 => h1.jobDone)).guardEvent
  · split
    · exact h.startJob.guardEvent
    · exact .refused

theorem State.Canon.execMatrixJobFinish : (execMatrixJobFinish s).Canon := by
  unfold Machine.execMatrixJobFinish
  split
  · exact .refused
  · split
    · exact .refused
    · next e1 =>
      split at e1
      · exact (h.jobUnit e1).next
      · exact (h.finishJob e1).next

theorem State.Canon.writeSpill {t c held} : (s.writeSpill t c held).Canon := (h.foldl (fun _ _ h1 => h1.arriveWrite)).update

omit h in
theorem State.readMem_wf {at_ n} : (s.readMem at_ n).wf = true :=
  Memory.foldl_wf Memory.wf_empty fun _ _ hm => Memory.write_wf hm _ _ _

omit h in
/-- Both memories of a core that is read back are written anew from its spill page, each from an empty memory. -/
theorem State.readSpill_canon {t k} : (s.readSpill t k).Canon := .of (Memory.clearRes_wf State.readMem_wf) State.readMem_wf

theorem State.Canon.withdraw {c} : (s.withdraw c).Canon := h.setOctet

theorem State.Canon.displace {c t} : (s.displace c t).Canon := by
  unfold State.displace
  exact h.writeSpill.withdraw.dropPins.setOctet.vacate.modTask

theorem State.Canon.execDisplacement : (execDisplacement s).Canon := by
  unfold Machine.execDisplacement
  extract_lets c
  split
  · exact .refused
  · split
    · exact (h.modCore fun _ hk => hk.update).guardEvent
    · refine .guardEvent (h.endRelease ?_)
      intro s h
      exact h.displace.next
    · exact .refused

theorem State.Canon.takeUp {t c} {k : Core} (hk : k.Canon) {jobs own} : (s.takeUp t c k jobs own).Canon :=
  (h.setCore (hk.modLive.setLs (Memory.write_wf hk.ls _ _ _)).noteLow).setOctet.settleLanes.modTask

theorem State.Canon.execResume : (execResume s).Canon := by
  unfold Machine.execResume
  extract_lets c sec
  split
  · exact .refused
  · split
    · extract_lets _ _ _ _ s3
      have h3 : s3.Canon := (h.remap.takeUp State.readSpill_canon).foldl fun _ _ h => h.modCore fun _ hk => hk.setCtx
      exact h3.nextFresh.acquireActs.guardEvent
    · exact .refused

theorem State.Canon.execThermalMigration : (execThermalMigration s).Canon := by
  unfold Machine.execThermalMigration
  extract_lets c d
  split
  · exact .refused
  · exact (h.modCore (fun _ h1 => h1.update)).guardEvent

theorem State.Canon.moveTask {c d t} : (s.moveTask c d t).Canon := h.withdraw.dropPins.vacate.remap.takeUp h.core

theorem State.Canon.execMigrationSwitch : (execMigrationSwitch s).Canon := by
  unfold Machine.execMigrationSwitch
  extract_lets c
  split
  · refine .guardEvent (h.endRelease ?_)
    intro s h
    exact h.moveTask.acquireActs.next
  · exact .refused

theorem State.Canon.endStep : s.endStep.Canon := h.update

theorem State.Canon.observe {o} : (s.observe o).Canon := by
  unfold State.observe
  extract_lets old s1
  split
  extract_lets _ s2
  have hs2 : s2.Canon := (h.foldl (fun _ _ h1 => h1.modCore (fun _ h2 => h2.update))).modPower
  split
  · exact hs2.update
  · exact hs2

theorem State.Canon.writePest {cl} : (s.writePest cl).Canon := h.modPower

theorem State.Canon.boundary {sum cl} : (s.boundary sum cl).Canon :=
  h.modPower.foldl (fun _ _ h1 => h1.modCore (fun _ h2 => h2.boundary.resleep))

theorem State.Canon.clearActivity : s.clearActivity.Canon := h.mapCores fun _ hk => hk.update

theorem State.Canon.execControlIntervalEnd : (execControlIntervalEnd s).Canon :=
  (((h.foldl (fun _ _ h1 => h1.observe)).endStep.foldl (fun _ _ h1 => h1.writePest)).foldl (fun _ _ h1 =>
      h1.boundary)).clearActivity.update.guardEvent

theorem State.Canon.loadByte {n b} : (s.loadByte n b).Canon :=
  .ite h.hbmWrite (h.modCore (fun _ h1 => h1.setLs (lsWrite_wf h1.ls _ _ _)))

theorem State.Canon.loadBody {m} : (s.loadBody m).Canon := .ite (h.foldl (fun _ _ h1 => h1.loadByte)) h

theorem State.Canon.startImage {m} : (s.startImage m).Canon := by
  unfold State.startImage
  extract_lets s1
  have hs1 : s1.Canon := h.loadBody
  split
  · exact hs1.update.modCtx.runWhenTrained
  · exact hs1.update

/-- A reset keeps main memory and the flash cells; every other memory is empty after it. -/
theorem State.Canon.afterReset : s.afterReset.Canon := by
  refine ⟨h.hbm, ?_, ?_, h.flash.cells, rfl, rfl⟩
  · simp [State.afterReset, State.reset]
  · simp [State.afterReset, State.reset]

theorem State.Canon.wipeAll : s.wipeAll.Canon := h.setHbm Memory.wf_empty
theorem State.Canon.stopStart {step err} : (s.stopStart step err).Canon := h.update
theorem State.Canon.finishStart : s.finishStart.Canon := .ite h.wipeAll.stopStart h.startImage
theorem State.Canon.trainHbm : s.trainHbm.Canon := h.setFlash h.flash.update

theorem State.Canon.execColdStart : (execColdStart s).Canon :=
  (State.Canon.ite (h.afterReset.setHbm Memory.wf_empty).stopStart (.ite (h.afterReset.setHbm Memory.wf_empty).stopStart
      h.afterReset.trainHbm.wipeAll.finishStart)).next

theorem State.Canon.execWarmStart : (execWarmStart s).Canon :=
  (State.Canon.ite (State.Canon.ite h.afterReset.wipeAll h.afterReset.update).finishStart (.ite (State.Canon.ite
      h.afterReset.wipeAll h.afterReset.update).stopStart (State.Canon.ite h.afterReset.wipeAll
          h.afterReset.update).trainHbm.finishStart)).next

end Sys2Proof.Machine
end

section
/-! PROOFS (O58). Boundaries of a context, and the events that end a wait. -/

namespace Sys2Proof.Machine

variable {s : State} (h : s.Canon)
include h

theorem State.Canon.execInterruptTake : (execInterruptTake s).Canon := by
  unfold Machine.execInterruptTake
  extract_lets c n x
  split
  · exact .refused
  · exact h.takeTrap.guardEvent

theorem State.Canon.execMgmtInterruptTake : (execMgmtInterruptTake s).Canon := by
  unfold Machine.execMgmtInterruptTake
  extract_lets n x src
  split
  · exact .refused
  · exact h.update.machineEntry.guardEvent

theorem State.Canon.endSleep {c n} : (s.endSleep c n).Canon := by
  unfold State.endSleep
  split
  · exact h.retireAt
  · exact h.retireAt
  · exact h

theorem State.Canon.stopLanes {c n} : (s.stopLanes c n).Canon := h.setCtx.setOctet.settleLanes

theorem State.Canon.stopOne {c n} : (s.stopOne c n).Canon := by
  unfold State.stopOne
  extract_lets _ resuming _ s3 s4
  have hs3 : s3.Canon := h.endSleep.stopLanes.modCore (fun _ h1 => h1.setCtx.leaveUnits)
  have hs4 : s4.Canon := by
    unfold s4
    clear_value resuming
    split
    · exact hs3.modCtx
    · exact hs3
  exact (hs4.modCore (fun _ h1 => h1.saveSlot)).leaveFifoBanks

/-- A wait that ends runs the instruction that waited. -/
theorem State.Canon.wakeEvent {run : Instr → Option (Bool × (State → Res))}
    (hrun : ∀ {i ok k}, run i = some (ok, k) → ∀ t, t.Canon → Res.Canon (k t)) : (wakeEvent s run).Canon := by
  unfold Machine.wakeEvent
  split
  · exact .refused
  · split
    · exact .refused
    · next e => exact h.wake (hrun e)

theorem State.Canon.execSleepExpire : (execSleepExpire s).Canon := by
  refine h.wakeEvent fun e t ht => ?_
  split at e
  · cases e; exact ht.done
  · cases e

theorem State.Canon.execJoinComplete : (execJoinComplete s).Canon := by
  refine h.wakeEvent fun e t ht => ?_
  split at e
  · cases e; exact ht.joinVia
  · cases e; exact ht.joinVia
  · cases e

theorem State.Canon.execWaitevWake : (execWaitevWake s).Canon := by
  refine h.wakeEvent fun e t ht => ?_
  split at e
  · cases e; exact ht.execWaitev
  · cases e

theorem State.Canon.execTwaituWake : (execTwaituWake s).Canon := by
  refine h.wakeEvent fun e t ht => ?_
  split at e
  · cases e; exact ht.execTwaitu
  · cases e

theorem State.Canon.execTlwaitWake : (execTlwaitWake s).Canon := by
  refine h.wakeEvent fun e t ht => ?_
  split at e
  · cases e; exact ht.tlwaitVia
  · cases e; exact ht.tlwaitVia
  · cases e

theorem State.Canon.execMjwaitWake : (execMjwaitWake s).Canon := by
  refine h.wakeEvent fun e t ht => ?_
  split at e
  · cases e; exact ht.mjwaitVia
  · cases e; exact ht.mjwaitVia
  · cases e

theorem State.Canon.execTwanyWake : (execTwanyWake s).Canon := by
  refine h.wakeEvent fun e t ht => ?_
  split at e
  · cases e; exact ht.execTwany
  · cases e

theorem State.Canon.execTwallWake : (execTwallWake s).Canon := by
  refine h.wakeEvent fun e t ht => ?_
  split at e
  · cases e; exact ht.execTwall
  · cases e

theorem State.Canon.execHintAlignRelease : (execHintAlignRelease s).Canon := by
  refine h.wakeEvent fun e t ht => ?_
  split at e
  · cases e; exact (ht.modMyCore fun _ hk => hk.update).done
  · cases e

theorem State.Canon.rerunPool : (execPoolGrant.rerun s).Canon := by
  refine h.wakeEvent fun e t ht => ?_
  split at e
  · cases e; exact ht.execClaim
  · cases e; exact ht.execGive
  · cases e; exact ht.execGiveS
  · cases e

theorem State.Canon.execPoolGrant : (execPoolGrant s).Canon := by
  unfold Machine.execPoolGrant
  extract_lets c k
  split
  · exact .ite h.settlePool.guardEvent h.rerunPool
  · exact h.rerunPool

theorem State.Canon.rerunLanes : (execLaneGrant.rerun s).Canon := by
  refine h.wakeEvent fun e t ht => ?_
  split at e
  · cases e; exact ht.execVclaim
  · cases e; exact ht.execVrel
  · cases e; exact ht.execVrelS
  · cases e

theorem State.Canon.execAflushComplete : (execAflushComplete s).Canon := by
  refine h.wakeEvent fun e t ht => ?_
  split at e
  · cases e; exact ht.done
  · cases e

theorem State.Canon.execBankDrainComplete : (execBankDrainComplete s).Canon := by
  refine h.wakeEvent fun e t ht => ?_
  split at e
  · cases e; exact ht.execBankmode
  · cases e

theorem State.Canon.runDivide {i} : (runDivide i s).Canon := by
  unfold Machine.runDivide
  split
  · exact h.execDiv
  · exact h.execDivu
  · exact h.execMod
  · exact h.execModu
  · exact h.execFdiv
  · exact h.execFsqrt
  · exact h.next

theorem State.Canon.runRecurrence {i} : (runRecurrence i s).Canon := by
  unfold Machine.runRecurrence
  split
  · exact h.execLadd
  · exact h.execLsub
  · exact h.execLmul
  · exact h.execLdiv
  · exact h.execLcvt
  · exact h.next

theorem State.Canon.nextInUnit {c} {run : Instr → State → Res} (hrun : ∀ i s, s.Canon → (run i s).Canon)
    {put : List CtxId → CoreWork → CoreWork} {l} : (nextInUnit c run put l s).Canon := by
  induction l generalizing s with
  | nil => exact h.next
  | cons n rest ih =>
    unfold Machine.nextInUnit
    extract_lets setQ
    have h_setQ : ∀ {l : List CtxId} {s : State}, s.Canon → (setQ l s).Canon := fun h => h.modCore fun _ hk => hk.update
    split
    · next i _ _ _ =>
      have hw : (Machine.wake (setQ [] s) c n true (run i)).Canon := (h_setQ h).wake (hrun i)
      split
      · next e => exact (h_setQ ((hw.out e).modCore fun _ hk => hk.noteIssue)).next
      · exact hw
    · exact ih (h_setQ h)

theorem State.Canon.execDivideUnitComplete : (execDivideUnitComplete s).Canon := by
  unfold Machine.execDivideUnitComplete
  extract_lets c w
  split
  · exact .refused
  · exact .guardEvent (((h.landUnit.modCore (fun _ h1 => h1.update)).nextInUnit fun _ _ h1 => h1.runDivide))

theorem State.Canon.execRecurrenceUnitComplete : (execRecurrenceUnitComplete s).Canon := by
  unfold Machine.execRecurrenceUnitComplete
  extract_lets c w
  split
  · exact .refused
  · exact .guardEvent (((h.landUnit.modCore (fun _ h1 => h1.update)).nextInUnit fun _ _ h1 => h1.runRecurrence))

end Sys2Proof.Machine
end

section
/-! PROOFS (O58). Each instruction and each step that the device takes by itself. -/

namespace Sys2Proof.Machine

variable {s : State} (h : s.Canon)
include h

/-- Each instruction, and each step that the device takes by itself, keeps every memory canonical. -/
theorem State.Canon.exec : ∀ {i : Instr}, Res.Canon (exec i s)
  | .add .. | .sub .. | .and .. | .or .. | .xor .. | .andn .. | .shl .. | .shr .. | .sar .. | .min .. | .max ..
  | .minu .. | .maxu .. | .mul .. | .mulh .. | .mulhu .. => h.alu3
  | .sel .. | .bfi .. | .xmovGe .. => h.setG.done
  | .clz .. | .ctz .. | .popc .. => h.alu2
  | .addi .. | .andi .. | .ori .. | .xori .. => h.aluImm
  | .shli .. | .shri .. | .sari .. | .bfx .. | .bfxu .. | .shliS .. | .shriS .. | .sariS .. => h.unary
  | .movhi .. | .lea .. | .rxpeek .. | .tlread .. => h.putG.done
  | .pcmp .. | .pcmpi .. | .plog .. | .pmovPp .. | .pmovPg .. => h.pred h.setP.done
  | .pmovGp .. => h.pred h.setG.done
  | .div .. => h.execDiv
  | .divu .. => h.execDivu
  | .mod .. => h.execMod
  | .modu .. => h.execModu
  | .ldb .. | .ldbu .. | .ldh .. | .ldhu .. | .ldw .. | .ldwu .. | .ldwS .. | .ldwuS .. => h.loadAt
  | .ldd .. => h.execLdd
  | .stb .. | .sth .. | .stw .. | .stwS .. => h.storeAt
  | .std .. => h.execStd
  | .tld .. => h.execTld
  | .tst .. => h.execTst
  | .amoAdd .. | .amoAnd .. | .amoOr .. | .amoXor .. | .amoMin .. | .amoMax .. | .amoMinu .. | .amoMaxu .. | .amoSwap ..
  | .cas .. => h.atomAt
  | .accAdd .. | .accMin .. | .accMax .. | .accOr .. | .accFadd32 .. | .accLadd32 .. => h.accAt
  | .xset .. | .xsetSh .. | .xmovEg .. | .xmovS .. => h.setE.done
  | .xld .. => h.execXld
  | .xst .. => h.execXst
  | .bankmode .. => h.execBankmode
  | .linewb .. => h.execLinewb
  | .lineinv .. => h.execLineinv
  | .pin .. => h.execPin
  | .unpin .. => h.execUnpin
  | .bc .. => .ite h.trap (.ite h.branchTo h.branchNot)
  | .b .. => h.branchTo
  | .call .. => h.callTo
  | .jmp .. | .calli .. | .ret .. => h.jumpVia
  | .loop .. | .loopi .. => h.startLoop
  | .lbrk .. => h.execLbrk
  | .hint .. => h.execHint
  | .start .. => h.execStart
  | .join .. | .joinS .. => h.joinVia
  | .sleep .. => h.needClean (.ite h.yieldVia (.ite h.waitIn h.modMe.waitIn))
  | .waitev .. => h.execWaitev
  | .trap .. => h.trap
  | .mfs .. => h.execMfs
  | .mts .. => h.execMts
  | .ctxsave .. => h.execCtxsave
  | .ctxload .. => h.execCtxload
  | .claim .. => h.execClaim
  | .give .. => h.execGive
  | .pquery .. => h.pred (h.needClean h.putG.done)
  | .tnow .. | .tnowS .. => h.tnowVia
  | .twaitu .. => h.execTwaitu
  | .pko .. => h.execPko
  | .pka .. => h.execPka
  | .rxpop .. => h.execRxpop
  | .rld .. | .fetchto .. => h.remote
  | .dropwin .. => h.needClean (h.needE (fun _ => .ite h.trap (h.modMyCore (fun _ h1 => h1.update)).putG.done))
  | .twany .. => h.execTwany
  | .twall .. => h.execTwall
  | .tffr .. | .mjpoll .. => h.needClean h.putG.done
  | .tclr .. => h.needClean (h.modMyCore (fun _ h1 => h1.update)).done
  | .tlwait .. | .tlwaitS .. => h.tlwaitVia
  | .gset .. => h.execGset
  | .gclr .. => .ite h.trap (h.modMyCore (fun _ h1 => h1.setGuard)).putG.done
  | .mlda .. | .mldb .. => h.loadJob
  | .mmac .. | .mmul .. | .mmr .. | .mzero .. | .mscl .. => h.tileJob
  | .mcfgOwn .. | .mcfgFree .. => h.maskJob
  | .mcfgQuery .. => h.execMcfgQuery
  | .mrda .. => h.execMrda
  | .mjwait .. | .mjwaitS .. => h.mjwaitVia
  | .vclaim .. => h.execVclaim
  | .vrel .. => h.execVrel
  | .vlen .. => h.pred (h.needClean (.ite h.trap h.modMe.putG.done))
  | .vadd .. | .vsub .. | .vmul .. | .vmin .. | .vmax .. | .vand .. | .vor .. | .vxor .. | .vshl .. | .vshr ..
  | .vfadd .. | .vfmul .. | .vfmax .. | .vfmin .. | .vcmp .. | .vladd .. | .vlmul .. => h.vop2
  | .vfsub .. => h.execVfsub
  | .vfma .. | .vsel .. | .vperm .. | .vbcast .. | .vbcastE .. | .vslideUp .. | .vslideDn .. | .vcvt .. =>
    h.pred (h.onLanes h.putElems)
  | .vfabs .. | .vfneg .. | .vlog .. | .vrcp .. | .vrsq .. | .vsig .. | .vtanh .. | .vlcvt .. => h.vop1
  | .vexp .. => h.execVexp
  | .vld .. => h.execVld
  | .vst .. => h.execVst
  | .vlds .. | .vgath .. => h.vload
  | .vsts .. | .vscat .. => h.vstore
  | .vrsum .. => h.execVrsum
  | .vrmax .. => h.execVrmax
  | .fadd .. | .fsub .. | .fmul .. | .ffma .. | .fclass .. | .lclass .. => h.pred h.putNum
  | .fdiv .. => h.execFdiv
  | .fsqrt .. => h.execFsqrt
  | .fmin .. | .fmax .. => h.pred h.minmax
  | .fcmp .. | .lcmp .. => h.pred h.putCmp
  | .fcvt .. => h.execFcvt
  | .ladd .. => h.execLadd
  | .lsub .. => h.execLsub
  | .lmul .. => h.execLmul
  | .ldiv .. => h.execLdiv
  | .lcvt .. => h.execLcvt
  | .launch .. => h.execLaunch
  | .spawn .. => h.execSpawn
  | .tedge .. => h.execTedge
  | .tinfo .. => h.execTinfo
  | .boost .. => h.execBoost
  | .brel .. => h.pred (h.modMyCore (fun _ h1 => h1.update)).done
  | .addS .. | .subS .. | .andS .. | .orS .. | .xorS .. | .andnS .. | .shlS .. | .shrS .. | .sarS .. | .minS ..
  | .maxS .. | .mulS .. | .minuS .. | .maxuS .. => h.alu3 (q := always)
  | .clzS .. | .ctzS .. | .popcS .. => h.alu2 (q := always)
  | .jmpS .. => h.execJmpS
  | .calliS .. => h.execCalliS
  | .lddS .. => h.execLddS
  | .stdS .. => h.execStdS
  | .addiS .. | .andiS .. | .oriS .. | .xoriS .. => h.aluImm (q := always)
  | .bS .. => h.execBS
  | .callS .. => h.execCallS
  | .aflush => .ite h.done (.ite h.hold (.ite (State.Canon.ite h h.mergeMine).waitIn h.done))
  | .nop | .nopS => h.done
  | .exit | .exitS => h.exitVia
  | .yield | .yieldS => h.yieldVia
  | .rett => .ite h.trap (.ite (h.returnTo (fun _ h1 => h1.update)) (h.returnTo (fun _ h1 => h1)))
  | .halt => .ite h.retire.update.next h.illegal
  | .pks => h.execPks
  | .retS => h.execRetS
  | .giveS => h.execGiveS
  | .vrelS => h.execVrelS
  | .fusedSoftmax => h.execFusedSoftmax
  | .interruptTake => h.execInterruptTake
  | .mgmtInterruptTake => h.execMgmtInterruptTake
  | .alarmReached => h.setCtx.guardEvent
  | .contextStop => .ite (h.modCore (fun _ h1 => h1.saveSlot)).guardEvent h.stopOne.guardEvent
  | .displacement => h.execDisplacement
  | .resume => h.execResume
  | .thermalMigration => h.execThermalMigration
  | .sleepExpire => h.execSleepExpire
  | .joinComplete => h.execJoinComplete
  | .waitevWake => h.execWaitevWake
  | .twaituWake => h.execTwaituWake
  | .tlwaitWake => h.execTlwaitWake
  | .mjwaitWake => h.execMjwaitWake
  | .twanyWake => h.execTwanyWake
  | .twallWake => h.execTwallWake
  | .fifoWaitComplete | .fifoPush | .fifoPull => h.serveFifo
  | .hintAlignRelease => h.execHintAlignRelease
  | .poolGrant => h.execPoolGrant
  | .laneGrant => .ite h.settleLanes.guardEvent h.rerunLanes
  | .aflushComplete => h.execAflushComplete
  | .bankDrainComplete => h.execBankDrainComplete
  | .loadReplyLand => h.execLoadReplyLand
  | .tldServe => h.execTldServe
  | .timedStoreArrive => h.execTimedStoreArrive
  | .timedStoreAck => h.execTimedStoreAck
  | .storeRetry => h.execStoreRetry
  | .plainStoreArrive => h.execPlainStoreArrive
  | .writebackArrive => h.execWritebackArrive
  | .atomicAtHome => h.execAtomicAtHome
  | .mergeArrive => h.execMergeArrive
  | .homeTickApply => h.applyDue.guardEvent
  | .shadowEntryDiscard => h.setSlice.guardEvent
  | .tick => h.execTick
  | .matrixJobStart => h.execMatrixJobStart
  | .matrixJobFinish => h.execMatrixJobFinish
  | .copyStart => h.execCopyStart
  | .copyResume => h.execCopyResume
  | .copyAbort => h.execCopyAbort
  | .copyQueueHead => h.execCopyQueueHead
  | .copyIterationRelease => h.execCopyIterationRelease
  | .copyDelivered => h.execCopyDelivered
  | .copyComplete => h.execCopyComplete
  | .copyFreeze => h.execCopyFreeze
  | .forwardedTag => h.execForwardedTag
  | .heldAccessRelease => h.execHeldAccessRelease
  | .vectorMemoryComplete => h.execVectorMemoryComplete
  | .packetSend => h.execPacketSend
  | .packetArrive | .packetRetry => h.onPacket (fun _ _ h1 => .guardEvent h1)
  | .rldReply => h.execRldReply
  | .fetchtoSourceRead => h.execFetchtoSourceRead
  | .fetchtoReplyArrive => h.execFetchtoReplyArrive
  | .fetchtoAck => h.execFetchtoAck
  | .launchAccept => h.execLaunchAccept
  | .taskEnterTable => h.execTaskEnterTable
  | .renameCommit => h.execRenameCommit
  | .coreChoice => h.execCoreChoice
  | .footprintLanded => h.execFootprintLanded
  | .taskDispatch => h.execTaskDispatch
  | .taskRetireComplete => h.execTaskRetireComplete
  | .taskFailureComplete => h.execTaskFailureComplete
  | .launchResolve => h.execLaunchResolve
  | .deadlinePass => h.execDeadlinePass
  | .shapeExpire => h.execShapeExpire
  | .controlIntervalEnd => h.execControlIntervalEnd
  | .brakeStepEnd => h.endStep.guardEvent
  | .linkTrainingComplete => (State.Canon.ite h h.setLink.runWhenTrained).guardEvent
  | .linkFrameSend => h.execLinkFrameSend
  | .linkFrameReceive => h.execLinkFrameReceive
  | .linkAckReceive => h.setLink.update.guardEvent
  | .linkHoldTimeout | .linkRetrain => h.setLink.guardEvent
  | .keygo => h.execKeygo
  | .tlbinv => h.execTlbinv
  | .plimWrite => h.execPlimWrite
  | .evqPop => h.execEvqPop
  | .rollbackWrite => h.execRollbackWrite
  | .peernoWrite => h.execPeernoWrite
  | .lcstateWrite => h.execLcstateWrite
  | .fcmdRead | .fcmdProgram | .fcmdErase => h.flashRow
  | .flashCommandComplete => h.execFlashCommandComplete
  | .formatRegionEnable => h.execFormatRegionEnable
  | .huskclr => h.execHuskclr
  | .throttleWrite => h.execThrottleWrite
  | .alertqPop => h.execAlertqPop
  | .doorbell => h.update.next
  | .reload => (State.Canon.ite h.startImage h).next
  | .hevqPop => h.hostRead.update.next
  | .lportSubmit => h.execLportSubmit
  | .ago => (State.Canon.ite h h.update).next
  | .reportComplete => h.update.guardEvent
  | .hmemAccess => h.execHmemAccess
  | .registerWrite => .ite h.hostStore.guardEvent h.windowWrite
  | .coldStart => h.execColdStart
  | .warmStart => h.execWarmStart
  | .backgroundWipeGranule => h.wipeGranule.guardEvent
  | .divideUnitComplete => h.execDivideUnitComplete
  | .recurrenceUnitComplete => h.execRecurrenceUnitComplete
  | .migrationSwitch => h.execMigrationSwitch

end Sys2Proof.Machine
end

section
/-! PROOFS (O58). The issue slot of a core, and the step of the device. -/

namespace Sys2Proof.Machine

variable {s : State} (h : s.Canon)
include h

theorem State.Canon.fetchInstr {c pc p} (e : s.fetchInstr c pc = p) : p.1.Canon := by
  subst e
  unfold State.fetchInstr
  split
  · next s2 e1 => exact h.fetch e1
  · next s2 _ e1 =>
    have h1 : s2.Canon := h.fetch e1
    split
    · exact h1
    · split
      · next s'' e2 => exact h1.fetch e2
      · next s'' _ e2 => exact h1.fetch e2

theorem State.Canon.noteFetch {f} : (s.noteFetch f).Canon := by
  unfold State.noteFetch
  extract_lets known
  have h_known : ∀ (n : Word), (known n).Canon := fun _ => h.modMe
  split
  · exact .ite h (h_known _)
  · exact h_known _
  · exact h_known _

theorem State.Canon.laneWork {i} : (s.laneWork i).Canon := .ite (h.modMyCore (fun _ h1 => h1.counts)) h

theorem State.Canon.issueInstr {i} : Issued.Canon (issueInstr i s) := by
  unfold Machine.issueInstr
  split
  · exact h.held
  · extract_lets x
    have hx : Res.Canon (Machine.exec i { s.setMe x with held := false }) := h.setMe.update.exec
    split
    · next t e =>
      have h1 : t.Canon := hx.out e
      split
      · exact h1.update.modMe.held
      · split
        · refine h.issued ?_
          split
          · exact h.trap
          · exact h1.next
        · exact h.issued h1.laneWork.next
    · exact h.issued hx

theorem State.Canon.atBoundary {r} (e : atBoundary s = some r) : r.Canon := by
  unfold Machine.atBoundary at e
  split at e
  · next e1 => cases e; exact (h.exec.out e1).next
  · split at e
    · next e1 => cases e; exact (h.exec.out e1).next
    · cases e

theorem State.Canon.issueHere : Issued.Canon (issueHere s) := by
  unfold Machine.issueHere
  split
  · exact h.held
  · split
    · next e => exact h.issued (h.exec.out e).laneWork.next
    · split
      next e =>
      extract_lets s1
      have h1 : s1.Canon := (h.fetchInstr e).noteFetch
      split
      · exact h1.issueInstr
      · split
        · exact h1.issued h1.trap
        · exact h1.issued h1.trap

theorem State.Canon.turnOf {c n} : (s.turnOf c n).Canon := h.update

theorem State.Canon.offerAll {c l} : (offerAll c l s).Canon := by
  induction l generalizing s with
  | nil => exact h.next
  | cons n rest ih =>
    unfold Machine.offerAll
    refine .ite ?_ (ih h)
    split
    · next e => exact h.turnOf.atBoundary e
    · refine .ite (ih h) ?_
      split
      · next e => exact ((((e ▸ h.turnOf.issueHere).res rfl).out rfl).modCore fun _ hk => hk.noteIssue).next
      · next e => exact (e ▸ h.turnOf.issueHere).res rfl
      · next e => exact ih (e ▸ h.turnOf.issueHere).state

theorem State.Canon.issue {c} : (issue c s).Canon := by
  unfold Machine.issue
  refine .ite h.next ?_
  split
  · unfold Option.getD
    split
    · next e1 => exact h.turnOf.atBoundary e1
    · exact h.next
  · exact h.offerAll

theorem State.Canon.runTurn {t} : (runTurn t s).Canon := by
  unfold Machine.runTurn
  split
  · exact h.issue
  · exact h.update.exec

theorem State.Canon.firstEnabled {l r} (e : firstEnabled s l = some r) : r.Canon := by
  induction l with
  | nil => cases e
  | cons t rest ih =>
    unfold Machine.firstEnabled at e
    split at e
    · next e1 => cases e; exact (h.runTurn.out e1).next
    · exact ih e

theorem State.Canon.cycle : (cycle s).Canon := by
  unfold Machine.cycle
  split
  · exact h.update.issue
  · split
    · exact h.update.issue
    · exact h.runTurn

theorem State.Canon.nextAuto : (nextAuto s).Canon := by
  unfold Machine.nextAuto
  refine .ite h.runTurn ?_
  unfold Option.getD
  split
  · next e => exact h.firstEnabled e
  · exact h.cycle

/-- A step of the device keeps every memory canonical. -/
theorem State.Canon.step : Res.Canon (step s) := by
  unfold Machine.step
  split
  · exact h.update.runTurn
  · exact h.nextAuto

end Sys2Proof.Machine
end

section
/-! PROOFS (O58). The obligation. -/

namespace Sys2Proof.Machine

/-- Settles O58: every function that a step runs leaves the memories as they are, or writes them by stores and clears, which keep
the canonical form. -/
theorem memoriesKept : Obligations.MemoriesKept := by
  unfold Obligations.MemoriesKept
  intro s t h e
  exact (State.canon_iff t).1 (((State.canon_iff s).2 h).step.out e)

end Sys2Proof.Machine
end

section
/-! PROOFS (O21). The register files of the executing context: what a read of a g or p register finds after a write (R28), and
the writes of the extension registers (R53, R56). -/

namespace Sys2Proof.Machine

/-! ### A read after a write, in a context (R28) -/

theorem Ctx.getG_setG (x : Ctx) (d r : Reg) (v : PWord) :
    (x.setG d v).getG r = if r = 0 then ⟨0, false⟩ else if r = d then v else x.getG r := by
  unfold Ctx.getG
  by_cases hr : r = 0
  · simp [hr, PWord.zero]
  · simp only [if_neg hr]
    unfold Ctx.setG
    by_cases hd : d = 0
    · simp [hd, hr]
    · simp [hd, Vector.getElem_set, Fin.val_inj, eq_comm]

theorem Ctx.getP_setP (x : Ctx) (p q : PReg) (b : PBit) :
    (x.setP p b).getP q = if q = 0 then ⟨true, false⟩ else if q = p then b else x.getP q := by
  unfold Ctx.getP
  by_cases hq : q = 0
  · simp [hq]
  · simp only [if_neg hq]
    unfold Ctx.setP
    by_cases hp : p = 0
    · simp [hp, hq]
    · simp [hp, Vector.getElem_set, Fin.val_inj, eq_comm]

@[simp] theorem Ctx.getP_setG (x : Ctx) (d : Reg) (q : PReg) (v : PWord) : (x.setG d v).getP q = x.getP q := by
  simp [Ctx.getP]

@[simp] theorem Ctx.getG_setP (x : Ctx) (p : PReg) (r : Reg) (b : PBit) : (x.setP p b).getG r = x.getG r := by
  simp [Ctx.getG]

/-! ### The same, for the executing context of a state -/

@[simp] theorem me_setG (s : State) (d : Reg) (v : PWord) : (s.setG d v).me = s.me.setG d v := me_setMe s _

@[simp] theorem me_setP (s : State) (p : PReg) (b : PBit) : (s.setP p b).me = s.me.setP p b := me_setMe s _

theorem gReg_setG (s : State) (d r : Reg) (v : PWord) :
    (s.setG d v).gReg r = if r = 0 then ⟨0, false⟩ else if r = d then v else s.gReg r := by
  rw [State.gReg, me_setG, Ctx.getG_setG, State.gReg]

theorem pReg_setP (s : State) (p q : PReg) (b : PBit) :
    (s.setP p b).pReg q = if q = 0 then ⟨true, false⟩ else if q = p then b else s.pReg q := by
  rw [State.pReg, me_setP, Ctx.getP_setP, State.pReg]

@[simp] theorem pReg_setG (s : State) (d : Reg) (q : PReg) (v : PWord) : (s.setG d v).pReg q = s.pReg q := by
  rw [State.pReg, me_setG, Ctx.getP_setG, State.pReg]

@[simp] theorem gReg_setP (s : State) (p : PReg) (r : Reg) (b : PBit) : (s.setP p b).gReg r = s.gReg r := by
  rw [State.gReg, me_setP, Ctx.getG_setP, State.gReg]

/-! ### The word that XSET.SH makes (R53) -/

/-- The immediate fills the 15 bits that the shift has cleared, so that appending it is an addition. -/
theorem shiftLeft_or_setWidth (v : Word) (imm : BitVec 15) :
    (v <<< 15) ||| imm.setWidth 64 = BitVec.ofNat 64 (v.toNat * 2 ^ 15 + imm.toNat) := by
  have appended : v.toNat * 2 ^ 15 + imm.toNat = v.toNat <<< 15 ||| imm.toNat := by
    rw [← Nat.shiftLeft_eq, Nat.shiftLeft_add_eq_or_of_lt imm.isLt]
  apply BitVec.eq_of_toNat_eq
  rw [appended, BitVec.toNat_ofNat, Nat.or_mod_two_pow]
  simp

/-! ### The extension moves (R53, R56) -/

theorem exec_xset (s : State) (e : EReg) (imm : BitVec 15) :
    exec (.xset e imm) s = .next (s.setE e ⟨imm.signExtend 64, false⟩).retire := rfl

theorem exec_xsetSh (s : State) (e : EReg) (imm : BitVec 15) :
    exec (.xsetSh e imm) s = .next (s.setE e ⟨((s.eReg e).val <<< 15) ||| imm.setWidth 64, (s.eReg e).poison⟩).retire := rfl

theorem exec_xmovEg (s : State) (e : EReg) (r : Reg) : exec (.xmovEg e r) s = .next (s.setE e (s.gReg r)).retire := rfl

theorem exec_xmovS (s : State) (e : EReg) (r : Reg) : exec (.xmovS e r) s = .next (s.setE e (s.gReg r)).retire := rfl

theorem exec_xmovGe (s : State) (r : Reg) (e : EReg) : exec (.xmovGe r e) s = .next (s.setG r (s.eReg e)).retire := rfl

/-! ### The obligation and its two parts -/

theorem hardwiredRegisters : Spec.hardwiredRegisters := fun s d r v p q b =>
  ⟨gReg_setG s d r v, pReg_setP s p q b, pReg_setG s d q v, gReg_setP s p r b⟩

theorem extensionRegisters : Spec.extensionRegisters := by
  intro s e r imm
  refine ⟨?xset, ?xsetSh, exec_xmovEg s e r, exec_xmovS s e r, exec_xmovGe s r e⟩
  case xset => rw [exec_xset, BitVec.signExtend]
  case xsetSh => rw [exec_xsetSh, shiftLeft_or_setWidth]

/-- Settles O21: a read after a write goes by cases on the register; of the extension moves only XSET.SH needs an argument, as
its appended immediate is a sum. -/
theorem registerFiles : Obligations.RegisterFiles := by
  unfold Obligations.RegisterFiles
  exact ⟨hardwiredRegisters, extensionRegisters⟩

end Sys2Proof.Machine
end

section
/-! PROOFS (O53, O54). The fields of instruction words and the codes of operands, each said once for both directions: a word is put
together from fields exactly when it has them, and a code is read as an operand exactly when it is the operand's. -/

namespace Sys2Proof

/-! ### Bit strings cut into pieces -/

theorem extract_eq_append (s a b : Nat) {k : Nat} {w : BitVec k} {x : BitVec a} {y : BitVec b} :
    w.extractLsb' s (a + b) = x ++ y ↔ w.extractLsb' (s + b) a = x ∧ w.extractLsb' s b = y := by
  rw [← BitVec.extractLsb'_append_extractLsb'_eq_extractLsb' rfl]
  constructor
  · intro h
    have hx := congrArg (BitVec.extractLsb' b a) h
    have hy := congrArg (BitVec.extractLsb' 0 b) h
    rw [BitVec.extractLsb'_append_eq_left, BitVec.extractLsb'_append_eq_left] at hx
    rw [BitVec.extractLsb'_append_eq_right, BitVec.extractLsb'_append_eq_right] at hy
    exact ⟨hx, hy⟩
  · rintro ⟨rfl, rfl⟩
    rfl

theorem extract_eq_append₃ (s a b c : Nat) {k : Nat} {w : BitVec k} {x : BitVec a} {y : BitVec b} {z : BitVec c} :
    w.extractLsb' s (a + b + c) = x ++ y ++ z ↔
      w.extractLsb' (s + c + b) a = x ∧ w.extractLsb' (s + c) b = y ∧ w.extractLsb' s c = z := by
  simp only [extract_eq_append, and_assoc]

theorem extract_eq_append₄ (s a b c d : Nat) {k : Nat} {w : BitVec k} {x : BitVec a} {y : BitVec b} {z : BitVec c} {u : BitVec d} :
    w.extractLsb' s (a + b + c + d) = x ++ y ++ z ++ u ↔
      w.extractLsb' (s + d + c + b) a = x ∧ w.extractLsb' (s + d + c) b = y ∧ w.extractLsb' (s + d) c = z ∧
        w.extractLsb' s d = u := by
  simp only [extract_eq_append, and_assoc]

theorem extract_eq_append₅ (s a b c d e : Nat) {k : Nat} {w : BitVec k} {x : BitVec a} {y : BitVec b} {z : BitVec c}
    {u : BitVec d} {v : BitVec e} :
    w.extractLsb' s (a + b + c + d + e) = x ++ y ++ z ++ u ++ v ↔
      w.extractLsb' (s + e + d + c + b) a = x ∧ w.extractLsb' (s + e + d + c) b = y ∧ w.extractLsb' (s + e + d) c = z ∧
        w.extractLsb' (s + e) d = u ∧ w.extractLsb' s e = v := by
  simp only [extract_eq_append, and_assoc]

theorem append_append_4_1_1 (x : BitVec 4) (y z : BitVec 1) : x ++ y ++ z = x ++ (y ++ z) := by
  rw [BitVec.append_assoc, BitVec.cast_eq]
theorem append_append_4_1_3 (x : BitVec 4) (y : BitVec 1) (z : BitVec 3) : x ++ y ++ z = x ++ (y ++ z) := by
  rw [BitVec.append_assoc, BitVec.cast_eq]
theorem append_append_3_4_5 (x : BitVec 3) (y : BitVec 4) (z : BitVec 5) : x ++ y ++ z = x ++ (y ++ z) := by
  rw [BitVec.append_assoc, BitVec.cast_eq]

/-! ### The formats of words and halfwords (R37, R43) -/

theorem wA_eq_iff {op d a b fn q w} : wA op d a b fn q = w ↔
    w.extractLsb' 31 1 = 1#1 ∧ fOp w = op ∧ fD w = d ∧ fA w = a ∧ fB w = b ∧ fFn w = fn ∧ fQ w = q := by
  calc wA op d a b fn q = w ↔ w.extractLsb' 0 (1 + 6 + 4 + 4 + 4 + 8 + 5) = 1#1 ++ op ++ d ++ a ++ b ++ fn ++ q := by
        rw [BitVec.extractLsb'_eq_self, wA, eq_comm]
    _ ↔ _ := by simp only [extract_eq_append, fOp, fD, fA, fB, fFn, fQ, and_assoc]

theorem wI_eq_iff {op d a imm w} : wI op d a imm = w ↔
    w.extractLsb' 31 1 = 1#1 ∧ fOp w = op ∧ fD w = d ∧ fA w = a ∧ fI17 w = imm := by
  calc wI op d a imm = w ↔ w.extractLsb' 0 (1 + 6 + 4 + 4 + 17) = 1#1 ++ op ++ d ++ a ++ imm := by
        rw [BitVec.extractLsb'_eq_self, wI, eq_comm]
    _ ↔ _ := by simp only [extract_eq_append, fOp, fD, fA, fI17, and_assoc]

theorem wIQ_eq_iff {op d a imm sel q w} : wIQ op d a imm sel q = w ↔
    w.extractLsb' 31 1 = 1#1 ∧ fOp w = op ∧ fD w = d ∧ fA w = a ∧ fI10 w = imm ∧ fSel w = sel ∧ fQ w = q := by
  calc wIQ op d a imm sel q = w ↔ w.extractLsb' 0 (1 + 6 + 4 + 4 + 10 + 2 + 5) = 1#1 ++ op ++ d ++ a ++ imm ++ sel ++ q := by
        rw [BitVec.extractLsb'_eq_self, wIQ, eq_comm]
    _ ↔ _ := by simp only [extract_eq_append, fOp, fD, fA, fI10, fSel, fQ, and_assoc]

theorem wM_eq_iff {op d a sc o imm w} : wM op d a sc o imm = w ↔
    w.extractLsb' 31 1 = 1#1 ∧ fOp w = op ∧ fD w = d ∧ fA w = a ∧ fScope w = sc ∧ fOrder w = o ∧ fI12 w = imm := by
  calc wM op d a sc o imm = w ↔ w.extractLsb' 0 (1 + 6 + 4 + 4 + 3 + 2 + 12) = 1#1 ++ op ++ d ++ a ++ sc ++ o ++ imm := by
        rw [BitVec.extractLsb'_eq_self, wM, eq_comm]
    _ ↔ _ := by simp only [extract_eq_append, fOp, fD, fA, fScope, fOrder, fI12, and_assoc]

theorem wE_eq_iff {op d a e g fn gp w} : wE op d a e g fn gp = w ↔
    w.extractLsb' 31 1 = 1#1 ∧ fOp w = op ∧ fD w = d ∧ fA w = a ∧ fE w = e ∧ fG w = g ∧ fFnE w = fn ∧ fGp w = gp ∧
      fZ w = 0 := by
  calc wE op d a e g fn gp = w ↔
        w.extractLsb' 0 (1 + 6 + 4 + 4 + 3 + 3 + 8 + 1 + 2) = 1#1 ++ op ++ d ++ a ++ e ++ g ++ fn ++ gp ++ 0#2 := by
        rw [BitVec.extractLsb'_eq_self, wE, eq_comm]
    _ ↔ _ := by simp only [extract_eq_append, fOp, fD, fA, fE, fG, fFnE, fGp, fZ, and_assoc]; rfl

theorem wB_eq_iff {op p neg form disp w} : wB op p neg form disp = w ↔
    w.extractLsb' 31 1 = 1#1 ∧ fOp w = op ∧ fBP w = p ∧ fBNeg w = neg ∧ fBForm w = form ∧ fDisp18 w = disp := by
  calc wB op p neg form disp = w ↔ w.extractLsb' 0 (1 + 6 + 3 + 1 + 3 + 18) = 1#1 ++ op ++ p ++ neg ++ form ++ disp := by
        rw [BitVec.extractLsb'_eq_self, wB, eq_comm]
    _ ↔ _ := by simp only [extract_eq_append, fOp, fBP, fBNeg, fBForm, fDisp18, and_assoc]

theorem wJ_eq_iff {op form disp w} : wJ op form disp = w ↔
    w.extractLsb' 31 1 = 1#1 ∧ fOp w = op ∧ fJForm w = form ∧ fDisp22 w = disp := by
  calc wJ op form disp = w ↔ w.extractLsb' 0 (1 + 6 + 3 + 22) = 1#1 ++ op ++ form ++ disp := by
        rw [BitVec.extractLsb'_eq_self, wJ, eq_comm]
    _ ↔ _ := by simp only [extract_eq_append, fOp, fJForm, fDisp22, and_assoc]

theorem hR_eq_iff {op d s k h} : hR op d s k = h ↔ h.extractLsb' 15 1 = 0#1 ∧ hOp h = op ∧ hD h = d ∧ hS h = s ∧ hK h = k := by
  calc hR op d s k = h ↔ h.extractLsb' 0 (1 + 5 + 4 + 4 + 2) = 0#1 ++ op ++ d ++ s ++ k := by
        rw [BitVec.extractLsb'_eq_self, hR, eq_comm]
    _ ↔ _ := by simp only [extract_eq_append, hOp, hD, hS, hK, and_assoc]

theorem hI_eq_iff {op d imm h} : hI op d imm = h ↔ h.extractLsb' 15 1 = 0#1 ∧ hOp h = op ∧ hD h = d ∧ hI6 h = imm := by
  calc hI op d imm = h ↔ h.extractLsb' 0 (1 + 5 + 4 + 6) = 0#1 ++ op ++ d ++ imm := by
        rw [BitVec.extractLsb'_eq_self, hI, eq_comm]
    _ ↔ _ := by simp only [extract_eq_append, hOp, hD, hI6, and_assoc]

theorem hJ_eq_iff {op disp h} : hJ op disp = h ↔ h.extractLsb' 15 1 = 0#1 ∧ hOp h = op ∧ hDisp h = disp := by
  calc hJ op disp = h ↔ h.extractLsb' 0 (1 + 5 + 10) = 0#1 ++ op ++ disp := by
        rw [BitVec.extractLsb'_eq_self, hJ, eq_comm]
    _ ↔ _ := by simp only [extract_eq_append, hOp, hDisp, and_assoc]

/-! ### The fields that several values share -/

section
variable {w : InstrWord}

theorem fFn_eq_2_6 {x : BitVec 2} {y : BitVec 6} : fFn w = x ++ y ↔
    w.extractLsb' 11 2 = x ∧ w.extractLsb' 5 6 = y :=
  extract_eq_append 5 2 6
theorem fFn_eq_4_4 {x : BitVec 4} {y : BitVec 4} : fFn w = x ++ y ↔
    w.extractLsb' 9 4 = x ∧ w.extractLsb' 5 4 = y :=
  extract_eq_append 5 4 4
theorem fFn_eq_3_2_3 {x : BitVec 3} {y : BitVec 2} {z : BitVec 3} : fFn w = x ++ y ++ z ↔
    w.extractLsb' 10 3 = x ∧ w.extractLsb' 8 2 = y ∧ w.extractLsb' 5 3 = z :=
  extract_eq_append₃ 5 3 2 3
theorem fFn_eq_4_1_3 {x : BitVec 4} {y : BitVec 1} {z : BitVec 3} : fFn w = x ++ y ++ z ↔
    w.extractLsb' 9 4 = x ∧ w.extractLsb' 8 1 = y ∧ w.extractLsb' 5 3 = z :=
  extract_eq_append₃ 5 4 1 3
theorem fFn_eq_4_2_2 {x : BitVec 4} {y : BitVec 2} {z : BitVec 2} : fFn w = x ++ y ++ z ↔
    w.extractLsb' 9 4 = x ∧ w.extractLsb' 7 2 = y ∧ w.extractLsb' 5 2 = z :=
  extract_eq_append₃ 5 4 2 2
theorem fI17_eq_3_6_6_2 {x : BitVec 3} {y : BitVec 6} {z : BitVec 6} {u : BitVec 2} : fI17 w = x ++ y ++ z ++ u ↔
    w.extractLsb' 14 3 = x ∧ w.extractLsb' 8 6 = y ∧ w.extractLsb' 2 6 = z ∧ w.extractLsb' 0 2 = u :=
  extract_eq_append₄ 0 3 6 6 2
theorem fI17_eq_2_15 {x : BitVec 2} {y : BitVec 15} : fI17 w = x ++ y ↔
    w.extractLsb' 15 2 = x ∧ w.extractLsb' 0 15 = y :=
  extract_eq_append 0 2 15
theorem fI17_eq_11_6 {x : BitVec 11} {y : BitVec 6} : fI17 w = x ++ y ↔
    w.extractLsb' 6 11 = x ∧ w.extractLsb' 0 6 = y :=
  extract_eq_append 0 11 6
theorem fI17_eq_9_8 {x : BitVec 9} {y : BitVec 8} : fI17 w = x ++ y ↔
    w.extractLsb' 8 9 = x ∧ w.extractLsb' 0 8 = y :=
  extract_eq_append 0 9 8
theorem fI17_eq_5_12 {x : BitVec 5} {y : BitVec 12} : fI17 w = x ++ y ↔
    w.extractLsb' 12 5 = x ∧ w.extractLsb' 0 12 = y :=
  extract_eq_append 0 5 12
theorem fI17_eq_13_4 {x : BitVec 13} {y : BitVec 4} : fI17 w = x ++ y ↔
    w.extractLsb' 4 13 = x ∧ w.extractLsb' 0 4 = y :=
  extract_eq_append 0 13 4
theorem fI17_eq_12_1_4 {x : BitVec 12} {y : BitVec 1} {z : BitVec 4} : fI17 w = x ++ y ++ z ↔
    w.extractLsb' 5 12 = x ∧ w.extractLsb' 4 1 = y ∧ w.extractLsb' 0 4 = z :=
  extract_eq_append₃ 0 12 1 4
theorem fI12_eq_11_1 {x : BitVec 11} {y : BitVec 1} : fI12 w = x ++ y ↔
    w.extractLsb' 1 11 = x ∧ w.extractLsb' 0 1 = y :=
  extract_eq_append 0 11 1
theorem fI12_eq_3_9 {x : BitVec 3} {y : BitVec 9} : fI12 w = x ++ y ↔
    w.extractLsb' 9 3 = x ∧ w.extractLsb' 0 9 = y :=
  extract_eq_append 0 3 9
theorem fI12_eq_1_3_1_7 {x : BitVec 1} {y : BitVec 3} {z : BitVec 1} {u : BitVec 7} : fI12 w = x ++ y ++ z ++ u ↔
    w.extractLsb' 11 1 = x ∧ w.extractLsb' 8 3 = y ∧ w.extractLsb' 7 1 = z ∧ w.extractLsb' 0 7 = u :=
  extract_eq_append₄ 0 1 3 1 7
theorem fI12_eq_4_4_1_3 {x : BitVec 4} {y : BitVec 4} {z : BitVec 1} {u : BitVec 3} : fI12 w = x ++ y ++ z ++ u ↔
    w.extractLsb' 8 4 = x ∧ w.extractLsb' 4 4 = y ∧ w.extractLsb' 3 1 = z ∧ w.extractLsb' 0 3 = u :=
  extract_eq_append₄ 0 4 4 1 3
theorem fFnE_eq_4_4 {x : BitVec 4} {y : BitVec 4} : fFnE w = x ++ y ↔
    w.extractLsb' 7 4 = x ∧ w.extractLsb' 3 4 = y :=
  extract_eq_append 3 4 4
theorem fFnE_eq_4_3_1 {x : BitVec 4} {y : BitVec 3} {z : BitVec 1} : fFnE w = x ++ y ++ z ↔
    w.extractLsb' 7 4 = x ∧ w.extractLsb' 4 3 = y ∧ w.extractLsb' 3 1 = z :=
  extract_eq_append₃ 3 4 3 1
theorem fFnE_eq_4_1_3 {x : BitVec 4} {y : BitVec 1} {z : BitVec 3} : fFnE w = x ++ y ++ z ↔
    w.extractLsb' 7 4 = x ∧ w.extractLsb' 6 1 = y ∧ w.extractLsb' 3 3 = z :=
  extract_eq_append₃ 3 4 1 3
theorem fFnE_eq_4_2_2 {x : BitVec 4} {y : BitVec 2} {z : BitVec 2} : fFnE w = x ++ y ++ z ↔
    w.extractLsb' 7 4 = x ∧ w.extractLsb' 5 2 = y ∧ w.extractLsb' 3 2 = z :=
  extract_eq_append₃ 3 4 2 2
theorem fFnE_eq_4_1_1_2 {x : BitVec 4} {y : BitVec 1} {z : BitVec 1} {u : BitVec 2} : fFnE w = x ++ y ++ z ++ u ↔
    w.extractLsb' 7 4 = x ∧ w.extractLsb' 6 1 = y ∧ w.extractLsb' 5 1 = z ∧ w.extractLsb' 3 2 = u :=
  extract_eq_append₄ 3 4 1 1 2
theorem fFnE_eq_4_1_1_1_1 {x : BitVec 4} {y : BitVec 1} {z : BitVec 1} {u : BitVec 1} {v : BitVec 1} : fFnE w = x ++ y ++ z ++ u ++ v ↔
    w.extractLsb' 7 4 = x ∧ w.extractLsb' 6 1 = y ∧ w.extractLsb' 5 1 = z ∧ w.extractLsb' 4 1 = u ∧ w.extractLsb' 3 1 = v :=
  extract_eq_append₅ 3 4 1 1 1 1
theorem fBForm_eq_2_1 {x : BitVec 2} {y : BitVec 1} : fBForm w = x ++ y ↔
    w.extractLsb' 19 2 = x ∧ w.extractLsb' 18 1 = y :=
  extract_eq_append 18 2 1
theorem fJForm_eq_2_1 {x : BitVec 2} {y : BitVec 1} : fJForm w = x ++ y ↔
    w.extractLsb' 23 2 = x ∧ w.extractLsb' 22 1 = y :=
  extract_eq_append 22 2 1
theorem fDisp22_eq_4_6_1_11 {x : BitVec 4} {y : BitVec 6} {z : BitVec 1} {u : BitVec 11} : fDisp22 w = x ++ y ++ z ++ u ↔
    w.extractLsb' 18 4 = x ∧ w.extractLsb' 12 6 = y ∧ w.extractLsb' 11 1 = z ∧ w.extractLsb' 0 11 = u :=
  extract_eq_append₄ 0 4 6 1 11
theorem fDisp22_eq_10_1_11 {x : BitVec 10} {y : BitVec 1} {z : BitVec 11} : fDisp22 w = x ++ y ++ z ↔
    w.extractLsb' 12 10 = x ∧ w.extractLsb' 11 1 = y ∧ w.extractLsb' 0 11 = z :=
  extract_eq_append₃ 0 10 1 11
theorem fDisp22_eq_3_1_2_16 {x : BitVec 3} {y : BitVec 1} {z : BitVec 2} {u : BitVec 16} : fDisp22 w = x ++ y ++ z ++ u ↔
    w.extractLsb' 19 3 = x ∧ w.extractLsb' 18 1 = y ∧ w.extractLsb' 16 2 = z ∧ w.extractLsb' 0 16 = u :=
  extract_eq_append₄ 0 3 1 2 16
theorem fDisp22_eq_2_16_4 {x : BitVec 2} {y : BitVec 16} {z : BitVec 4} : fDisp22 w = x ++ y ++ z ↔
    w.extractLsb' 20 2 = x ∧ w.extractLsb' 4 16 = y ∧ w.extractLsb' 0 4 = z :=
  extract_eq_append₃ 0 2 16 4

end

/-! ### Codes of operand kinds (R38 to R42 and the tables of the chapters) -/

@[simp] theorem Reg.ofBits_bits (r : Reg) : Reg.ofBits (Reg.bits r) = r := rfl
@[simp] theorem Reg.bits_ofBits (x : BitVec 4) : Reg.bits (Reg.ofBits x) = x := rfl
@[simp] theorem PReg.ofBits_bits (r : PReg) : PReg.ofBits (PReg.bits r) = r := rfl
@[simp] theorem PReg.bits_ofBits (x : BitVec 3) : PReg.bits (PReg.ofBits x) = x := rfl
@[simp] theorem isOne_bit1 (b : Bool) : isOne (bit1 b) = b := by cases b <;> rfl
@[simp] theorem bit1_isOne (x : BitVec 1) : bit1 (isOne x) = x := by revert x; decide
@[simp] theorem isOne_zero : isOne 0#1 = false := rfl
@[simp] theorem isOne_one : isOne 1#1 = true := rfl
theorem isOne_eq_true {x : BitVec 1} : isOne x = true ↔ x = 1#1 := by revert x; decide
theorem isOne_eq_false {x : BitVec 1} : isOne x = false ↔ x = 0#1 := by revert x; decide
@[simp] theorem k2_toFin (x : BitVec 2) : k2 x.toFin = x := rfl
@[simp] theorem toFin_k2 (k : Fin 4) : (k2 k).toFin = k := rfl

theorem PReg.ofBits4_eq_some {x : BitVec 4} {r : PReg} : PReg.ofBits4 x = some r ↔ x = PReg.bits4 r := by
  revert x r; decide
theorem Pred.ofBits_eq_some {x : BitVec 5} {q : Pred} : Pred.ofBits x = some q ↔ x = q.bits := by
  obtain ⟨r, n⟩ := q
  revert x r n; decide
theorem Scope.ofBits_eq_some {x : BitVec 3} {y : Scope} : Scope.ofBits x = some y ↔ x = y.bits := by
  cases y <;> revert x <;> decide
theorem LOrder.ofBits_eq_some {x : BitVec 2} {y : LOrder} : LOrder.ofBits x = some y ↔ x = y.bits := by
  cases y <;> revert x <;> decide
theorem SOrder.ofBits_eq_some {x : BitVec 2} {y : SOrder} : SOrder.ofBits x = some y ↔ x = y.bits := by
  cases y <;> revert x <;> decide
theorem AOrder.ofBits_eq_some {x : BitVec 2} {y : AOrder} : AOrder.ofBits x = some y ↔ x = y.bits := by
  cases y <;> revert x <;> decide
theorem Slot.ofBits_eq_some {x : BitVec 2} {y : Slot} : Slot.ofBits x = some y ↔ x = y.bits := by
  cases y <;> revert x <;> decide
theorem PCond.ofBits_eq_some {x : BitVec 6} {y : PCond} : PCond.ofBits x = some y ↔ x = y.bits := by
  cases y <;> revert x <;> decide
theorem PLogFn.ofBits_eq_some {x : BitVec 6} {y : PLogFn} : PLogFn.ofBits x = some y ↔ x = y.bits := by
  cases y <;> revert x <;> decide
theorem FCond.ofBits_eq_some {x : BitVec 3} {y : FCond} : FCond.ofBits x = some y ↔ x = y.bits := by
  cases y <;> revert x <;> decide
theorem Rnd.ofBits_eq_some {x : BitVec 3} {y : Rnd} : Rnd.ofBits x = some y ↔ x = y.bits := by
  cases y <;> revert x <;> decide
theorem FFmt.ofBits_eq_some {x : BitVec 1} {y : FFmt} : FFmt.ofBits x = some y ↔ x = y.bits := by
  cases y <;> revert x <;> decide
theorem LFmt.ofBits_eq_some {x : BitVec 1} {y : LFmt} : LFmt.ofBits x = some y ↔ x = y.bits := by
  cases y <;> revert x <;> decide
theorem FCvt.ofBits_eq_some {x : BitVec 4} {y : FCvt} : FCvt.ofBits x = some y ↔ x = y.bits := by
  cases y <;> revert x <;> decide
theorem VCvt.ofBits_eq_some {x : BitVec 4} {y : VCvt} : VCvt.ofBits x = some y ↔ x = y.bits := by
  cases y <;> revert x <;> decide
theorem LCvt.ofBits_eq_some {x : BitVec 4} {y : LCvt} : LCvt.ofBits x = some y ↔ x = y.bits := by
  cases y <;> revert x <;> decide
theorem RSize.ofBits_eq_some {x : BitVec 4} {y : RSize} : RSize.ofBits x = some y ↔ x = y.bits := by
  cases y <;> revert x <;> decide
theorem SclMode.ofBits_eq_some {x : BitVec 2} {y : SclMode} : SclMode.ofBits x = some y ↔ x = y.bits := by
  cases y <;> revert x <;> decide
theorem SatMode.ofBits_eq_some {x : BitVec 2} {y : SatMode} : SatMode.ofBits x = some y ↔ x = y.bits := by
  cases y <;> revert x <;> decide
theorem MulMode.ofBits_eq_some {x : BitVec 2} {y : MulMode} : MulMode.ofBits x = some y ↔ x = y.bits := by
  cases y <;> revert x <;> decide
theorem TLCounter.ofBits_eq_some {x : BitVec 2} {y : TLCounter} : TLCounter.ofBits x = some y ↔ x = y.bits := by
  cases y <;> revert x <;> decide
theorem uMode_eq_some {x : BitVec 2} {u : Bool} : uMode x = some u ↔ x = 0#1 ++ bit1 u := by
  revert x u; decide
theorem topBit_eq_some {x : BitVec 4} {u : Bool} : topBit x = some u ↔ x = bit1 u ++ 0#3 := by
  revert x u; decide
theorem Rnd.ofBits4_eq_some {x : BitVec 4} {y : Rnd} : Rnd.ofBits4 x = some y ↔ x = y.bits4 := by
  cases y <;> revert x <;> decide
theorem VCond.ofBits_eq_some {x : BitVec 4} {y : VCond} : VCond.ofBits x = some y ↔ x = y.bits := by
  rcases y with c | c <;> cases c <;> revert x <;> decide
theorem RedKind.ofBits_eq_some {x : BitVec 4} {y : RedKind} : RedKind.ofBits x = some y ↔ x = y.bits := by
  rcases y with r | _
  · cases r <;> revert x <;> decide
  · revert x; decide
theorem vIdx_eq_some {x : BitVec 9} {r : Reg} : vIdx x = some r ↔ x = Reg.bits r ++ 0#5 := by
  revert x r; decide
theorem eoOf_eq_some {f : BitVec 1} {e : BitVec 3} {x : Option EReg} : eoOf f e = some x ↔ f = eoFlag x ∧ e = eoBits x := by
  rcases x with _ | r
  · revert f e; decide
  · revert f e r; decide
theorem Guard.ofBits_eq_some {g : BitVec 3} {p : BitVec 1} {x : Guard} :
    Guard.ofBits g p = some x ↔ g = x.g ∧ p = bit1 x.gp ∧ x.wf = true := by
  obtain ⟨y, b⟩ := x
  revert g p y b; decide

@[simp] theorem PReg.ofBits4_bits4 (r : PReg) : PReg.ofBits4 (PReg.bits4 r) = some r := PReg.ofBits4_eq_some.2 rfl
@[simp] theorem Rnd.ofBits4_bits4 (r : Rnd) : Rnd.ofBits4 r.bits4 = some r := Rnd.ofBits4_eq_some.2 rfl
@[simp] theorem vIdx_bits (r : Reg) : vIdx (Reg.bits r ++ 0#5) = some r := vIdx_eq_some.2 rfl
@[simp] theorem topBit_bit1 (u : Bool) : topBit (bit1 u ++ 0#3) = some u := topBit_eq_some.2 rfl
@[simp] theorem uMode_bit1 (u : Bool) : uMode (0#1 ++ bit1 u) = some u := uMode_eq_some.2 rfl
@[simp] theorem eoOf_bits (x : Option EReg) : eoOf (eoFlag x) (eoBits x) = some x := eoOf_eq_some.2 ⟨rfl, rfl⟩
@[simp] theorem Guard.ofBits_bits {g : Guard} (h : g.wf = true) : Guard.ofBits g.g (bit1 g.gp) = some g :=
  Guard.ofBits_eq_some.2 ⟨rfl, rfl, h⟩
@[simp] theorem Pred.ofBits_bits (y : Pred) : Pred.ofBits y.bits = some y := Pred.ofBits_eq_some.2 rfl
@[simp] theorem Scope.ofBits_bits (y : Scope) : Scope.ofBits y.bits = some y := Scope.ofBits_eq_some.2 rfl
@[simp] theorem LOrder.ofBits_bits (y : LOrder) : LOrder.ofBits y.bits = some y := LOrder.ofBits_eq_some.2 rfl
@[simp] theorem SOrder.ofBits_bits (y : SOrder) : SOrder.ofBits y.bits = some y := SOrder.ofBits_eq_some.2 rfl
@[simp] theorem AOrder.ofBits_bits (y : AOrder) : AOrder.ofBits y.bits = some y := AOrder.ofBits_eq_some.2 rfl
@[simp] theorem Slot.ofBits_bits (y : Slot) : Slot.ofBits y.bits = some y := Slot.ofBits_eq_some.2 rfl
@[simp] theorem PCond.ofBits_bits (y : PCond) : PCond.ofBits y.bits = some y := PCond.ofBits_eq_some.2 rfl
@[simp] theorem PLogFn.ofBits_bits (y : PLogFn) : PLogFn.ofBits y.bits = some y := PLogFn.ofBits_eq_some.2 rfl
@[simp] theorem FCond.ofBits_bits (y : FCond) : FCond.ofBits y.bits = some y := FCond.ofBits_eq_some.2 rfl
@[simp] theorem Rnd.ofBits_bits (y : Rnd) : Rnd.ofBits y.bits = some y := Rnd.ofBits_eq_some.2 rfl
@[simp] theorem FFmt.ofBits_bits (y : FFmt) : FFmt.ofBits y.bits = some y := FFmt.ofBits_eq_some.2 rfl
@[simp] theorem LFmt.ofBits_bits (y : LFmt) : LFmt.ofBits y.bits = some y := LFmt.ofBits_eq_some.2 rfl
@[simp] theorem FCvt.ofBits_bits (y : FCvt) : FCvt.ofBits y.bits = some y := FCvt.ofBits_eq_some.2 rfl
@[simp] theorem VCvt.ofBits_bits (y : VCvt) : VCvt.ofBits y.bits = some y := VCvt.ofBits_eq_some.2 rfl
@[simp] theorem LCvt.ofBits_bits (y : LCvt) : LCvt.ofBits y.bits = some y := LCvt.ofBits_eq_some.2 rfl
@[simp] theorem RSize.ofBits_bits (y : RSize) : RSize.ofBits y.bits = some y := RSize.ofBits_eq_some.2 rfl
@[simp] theorem SclMode.ofBits_bits (y : SclMode) : SclMode.ofBits y.bits = some y := SclMode.ofBits_eq_some.2 rfl
@[simp] theorem SatMode.ofBits_bits (y : SatMode) : SatMode.ofBits y.bits = some y := SatMode.ofBits_eq_some.2 rfl
@[simp] theorem MulMode.ofBits_bits (y : MulMode) : MulMode.ofBits y.bits = some y := MulMode.ofBits_eq_some.2 rfl
@[simp] theorem TLCounter.ofBits_bits (y : TLCounter) : TLCounter.ofBits y.bits = some y := TLCounter.ofBits_eq_some.2 rfl
@[simp] theorem VCond.ofBits_bits (y : VCond) : VCond.ofBits y.bits = some y := VCond.ofBits_eq_some.2 rfl
@[simp] theorem RedKind.ofBits_bits (y : RedKind) : RedKind.ofBits y.bits = some y := RedKind.ofBits_eq_some.2 rfl

@[simp] theorem need_true (k : Option Instr) : need true k = k := rfl
@[simp] theorem need_eq_some {c : Bool} {k : Option Instr} {i : Instr} : need c k = some i ↔ c = true ∧ k = some i := by
  cases c <;> simp [need]

@[simp] theorem keepWf_eq_some {i j : Instr} : keepWf j = some i ↔ j = i ∧ i.wf = true := by
  unfold keepWf
  split <;> grind

end Sys2Proof
end

section
/-! PROOFS (O54). What each decoding table reads from a word encodes to that word. -/

namespace Sys2Proof

theorem eq_ofNat_of_toNat_eq {n v : Nat} {x : BitVec n} (h : x.toNat = v) : x = BitVec.ofNat n v := by
  rw [← h, BitVec.ofNat_toNat, BitVec.setWidth_eq]

theorem eq_three_of_toNat_ne {x : BitVec 2} (h0 : x.toNat = 0 → False) (h1 : x.toNat = 1 → False) (h2 : x.toNat = 2 → False) :
    x = 3#2 := by
  revert x; decide

theorem eq_one_of_ne_zero {x : BitVec 1} (h : x ≠ 0#1) : x = 1#1 := by
  revert x; decide

/-! ### What a decoder gives -/

/-- Whatever `r`, a result of decoding, gives has the encoding `e`. -/
def Gives (r : Option Instr) (e : Encoded) : Prop := ∀ i, r = some i → encode i = e ∧ i.WellFormed

section
variable {e : Encoded}

theorem gives_none : Gives none e := by
  intro i h
  cases h

theorem gives_some {i : Instr} (h : encode i = e ∧ i.WellFormed) : Gives (some i) e := by
  rintro j ⟨⟩
  exact h

theorem gives_keepWf {i : Instr} (h : encode i = e) : Gives (keepWf i) e := by
  intro j hj
  obtain ⟨rfl, wf⟩ := keepWf_eq_some.1 hj
  exact ⟨h, wf⟩

theorem gives_need {c : Bool} {r : Option Instr} (h : c = true → Gives r e) : Gives (need c r) e := by
  intro i hi
  obtain ⟨hc, hr⟩ := need_eq_some.1 hi
  exact h hc i hr

theorem gives_bind {α : Type} {o : Option α} {f : α → Option Instr} (h : ∀ x, o = some x → Gives (f x) e) : Gives (o >>= f) e := by
  intro i hi
  obtain ⟨x, hx, hf⟩ := Option.bind_eq_some_iff.1 hi
  exact h x hx i hf

theorem gives_map {α : Type} {o : Option α} {f : α → Instr} (h : ∀ x, o = some x → encode (f x) = e ∧ (f x).WellFormed) :
    Gives (o.map f) e := by
  intro i hi
  obtain ⟨x, hx, rfl⟩ := Option.map_eq_some_iff.1 hi
  exact h x hx

end

/-- `w` is the encoding of the instruction `i`. -/
abbrev Encodes (i : Instr) (w : InstrWord) : Prop := encode i = .word w ∧ i.WellFormed

/-- Whatever `r`, a result of decoding `w`, gives, encodes to `w`. -/
abbrev Reads (r : Option Instr) (w : InstrWord) : Prop := Gives r (.word w)

/-- `w` is a 32-bit word of the major opcode `op` (R37, R47). -/
structure HasMajor (op : BitVec 6) (w : InstrWord) : Prop where
  top : w.extractLsb' 31 1 = 1#1
  op : fOp w = op

theorem Encodes.of_eq {i : Instr} {v w : InstrWord} (h : Encodes i v) (e : v = w) : Encodes i w := e ▸ h

/-! ### The shapes that many instructions share -/

section
variable {w : InstrWord} {op : BitVec 6} (m : HasMajor op w)
include m

theorem reads_d3 {fn : BitVec 8} {k : Reg → Reg → Reg → Pred → Instr} (hfn : fFn w = fn)
    (hk : ∀ d a b q, Encodes (k d a b q) (wA op (Reg.bits d) (Reg.bits a) (Reg.bits b) fn q.bits)) : Reads (d3 k w) w :=
  gives_bind fun q hq => gives_some ((hk _ _ _ q).of_eq (wA_eq_iff.2 ⟨m.top, m.op, rfl, rfl, rfl, hfn, Pred.ofBits_eq_some.1 hq⟩))

theorem reads_d2 {fn : BitVec 8} {k : Reg → Reg → Pred → Instr} (hfn : fFn w = fn)
    (hk : ∀ d a q, Encodes (k d a q) (wA op (Reg.bits d) (Reg.bits a) 0 fn q.bits)) : Reads (d2 k w) w :=
  gives_bind fun q hq => gives_need fun hb => gives_some
    ((hk _ _ q).of_eq (wA_eq_iff.2 ⟨m.top, m.op, rfl, rfl, by simpa using hb, hfn, Pred.ofBits_eq_some.1 hq⟩))

theorem reads_dA1 {fn : BitVec 8} {k : Reg → Pred → Instr} (hfn : fFn w = fn)
    (hk : ∀ a q, Encodes (k a q) (wA op 0 (Reg.bits a) 0 fn q.bits)) : Reads (dA1 k w) w := by
  refine gives_bind fun q hq => gives_need fun hz => gives_some ?_
  obtain ⟨hb, hd⟩ : fB w = 0 ∧ fD w = 0 := by simpa using hz
  exact (hk _ q).of_eq (wA_eq_iff.2 ⟨m.top, m.op, hd, rfl, hb, hfn, Pred.ofBits_eq_some.1 hq⟩)

theorem reads_d0 {fn : BitVec 8} {k : Pred → Instr} (hfn : fFn w = fn)
    (hk : ∀ q, Encodes (k q) (wA op 0 0 0 fn q.bits)) : Reads (d0 k w) w := by
  refine gives_bind fun q hq => gives_need fun hz => gives_some ?_
  obtain ⟨⟨hb, hd⟩, ha⟩ : (fB w = 0 ∧ fD w = 0) ∧ fA w = 0 := by simpa using hz
  exact (hk q).of_eq (wA_eq_iff.2 ⟨m.top, m.op, hd, ha, hb, hfn, Pred.ofBits_eq_some.1 hq⟩)

theorem reads_dIQ {sel : BitVec 2} {k : Reg → Reg → BitVec 10 → Pred → Instr} (hs : fSel w = sel)
    (hk : ∀ d a imm q, Encodes (k d a imm q) (wIQ op (Reg.bits d) (Reg.bits a) imm sel q.bits)) : Reads (dIQ k w) w :=
  gives_bind fun q hq => gives_some
    ((hk _ _ _ q).of_eq (wIQ_eq_iff.2 ⟨m.top, m.op, rfl, rfl, rfl, hs, Pred.ofBits_eq_some.1 hq⟩))

/-- A load whose displacement stands in imm12[11:1] and whose imm12[0] is `u` (R40, R54). -/
theorem reads_dLoad {u : BitVec 1} {k : Reg → Reg → Scope → LOrder → BitVec 11 → Instr} (hu : w.extractLsb' 0 1 = u)
    (hk : ∀ d b sc o imm, Encodes (k d b sc o imm) (wM op (Reg.bits d) (Reg.bits b) sc.bits o.bits (imm ++ u))) :
    Reads (dLoad k w) w :=
  gives_bind fun sc hsc => gives_bind fun o ho => gives_some ((hk _ _ sc o _).of_eq (wM_eq_iff.2
    ⟨m.top, m.op, rfl, rfl, Scope.ofBits_eq_some.1 hsc, LOrder.ofBits_eq_some.1 ho, fI12_eq_11_1.2 ⟨rfl, hu⟩⟩))

theorem reads_dStore {k : Reg → Reg → Scope → SOrder → BitVec 12 → Instr}
    (hk : ∀ r b sc o imm, Encodes (k r b sc o imm) (wM op (Reg.bits r) (Reg.bits b) sc.bits o.bits imm)) :
    Reads (dStore k w) w :=
  gives_bind fun sc hsc => gives_bind fun o ho => gives_some ((hk _ _ sc o _).of_eq (wM_eq_iff.2
    ⟨m.top, m.op, rfl, rfl, Scope.ofBits_eq_some.1 hsc, SOrder.ofBits_eq_some.1 ho, rfl⟩))

theorem reads_dAmo {f : BitVec 4} {k : Reg → Reg → Scope → AOrder → Reg → Bool → Instr} (hf : w.extractLsb' 4 4 = f)
    (hk : ∀ d b sc o r x, Encodes (k d b sc o r x)
      (wM op (Reg.bits d) (Reg.bits b) sc.bits o.bits (Reg.bits r ++ f ++ bit1 x ++ 0#3))) : Reads (dAmo k w) w :=
  gives_bind fun sc hsc => gives_bind fun o ho => gives_need fun hz => gives_some ((hk _ _ sc o _ _).of_eq (wM_eq_iff.2
    ⟨m.top, m.op, rfl, rfl, Scope.ofBits_eq_some.1 hsc, AOrder.ofBits_eq_some.1 ho,
      fI12_eq_4_4_1_3.2 ⟨rfl, hf, (bit1_isOne _).symm, by simpa using hz⟩⟩))

/-- An accumulating atomic whose width bit may be set or clear (R209). -/
theorem reads_dAcc {f : BitVec 4} {k : Reg → Scope → SOrder → Reg → Bool → Option Instr} (hf : w.extractLsb' 4 4 = f)
    (hk : ∀ b sc o r x v, v = wM op 0 (Reg.bits b) sc.bits o.bits (Reg.bits r ++ f ++ bit1 x ++ 0#3) →
      Reads (k b sc o r x) v) : Reads (dAcc k w) w := by
  refine gives_bind fun sc hsc => gives_bind fun o ho => gives_need fun hz => hk _ sc o _ _ w ?_
  obtain ⟨h3, hd⟩ : w.extractLsb' 0 3 = 0#3 ∧ fD w = 0 := by simpa using hz
  exact (wM_eq_iff.2 ⟨m.top, m.op, hd, rfl, Scope.ofBits_eq_some.1 hsc, SOrder.ofBits_eq_some.1 ho,
    fI12_eq_4_4_1_3.2 ⟨rfl, hf, (bit1_isOne _).symm, h3⟩⟩).symm

theorem reads_dF {sel : BitVec 4} {k : Reg → Reg → Reg → FFmt → Rnd → Pred → Instr} (hs : w.extractLsb' 9 4 = sel)
    (hk : ∀ d a b f r q, Encodes (k d a b f r q)
      (wA op (Reg.bits d) (Reg.bits a) (Reg.bits b) (sel ++ f.bits ++ r.bits) q.bits)) : Reads (dF k w) w :=
  gives_bind fun q hq => gives_bind fun f hf => gives_bind fun r hr => gives_some ((hk _ _ _ f r q).of_eq (wA_eq_iff.2
    ⟨m.top, m.op, rfl, rfl, rfl, fFn_eq_4_1_3.2 ⟨hs, FFmt.ofBits_eq_some.1 hf, Rnd.ofBits_eq_some.1 hr⟩,
      Pred.ofBits_eq_some.1 hq⟩))

theorem reads_dF0 {sel : BitVec 4} {k : Reg → Reg → Reg → FFmt → Pred → Instr} (hs : w.extractLsb' 9 4 = sel)
    (hk : ∀ d a b f q, Encodes (k d a b f q)
      (wA op (Reg.bits d) (Reg.bits a) (Reg.bits b) (sel ++ f.bits ++ 0#3) q.bits)) : Reads (dF0 k w) w :=
  gives_bind fun q hq => gives_bind fun f hf => gives_need fun hz => gives_some ((hk _ _ _ f q).of_eq (wA_eq_iff.2
    ⟨m.top, m.op, rfl, rfl, rfl, fFn_eq_4_1_3.2 ⟨hs, FFmt.ofBits_eq_some.1 hf, by simpa using hz⟩,
      Pred.ofBits_eq_some.1 hq⟩))

theorem reads_dF1 {sel : BitVec 4} {k : Reg → Reg → FFmt → Pred → Instr} (hs : w.extractLsb' 9 4 = sel)
    (hk : ∀ d a f q, Encodes (k d a f q) (wA op (Reg.bits d) (Reg.bits a) 0 (sel ++ f.bits ++ 0#3) q.bits)) :
    Reads (dF1 k w) w := by
  refine gives_bind fun q hq => gives_bind fun f hf => gives_need fun hz => gives_some ?_
  obtain ⟨h3, hb⟩ : w.extractLsb' 5 3 = 0#3 ∧ fB w = 0 := by simpa using hz
  exact (hk _ _ f q).of_eq (wA_eq_iff.2
    ⟨m.top, m.op, rfl, rfl, hb, fFn_eq_4_1_3.2 ⟨hs, FFmt.ofBits_eq_some.1 hf, h3⟩, Pred.ofBits_eq_some.1 hq⟩)

theorem reads_dL {sel : BitVec 4} {k : Reg → Reg → Reg → LFmt → Pred → Instr} (hs : w.extractLsb' 9 4 = sel)
    (hk : ∀ d a b f q, Encodes (k d a b f q)
      (wA op (Reg.bits d) (Reg.bits a) (Reg.bits b) (sel ++ f.bits ++ 0#3) q.bits)) : Reads (dL k w) w :=
  gives_bind fun q hq => gives_bind fun f hf => gives_need fun hz => gives_some ((hk _ _ _ f q).of_eq (wA_eq_iff.2
    ⟨m.top, m.op, rfl, rfl, rfl, fFn_eq_4_1_3.2 ⟨hs, LFmt.ofBits_eq_some.1 hf, by simpa using hz⟩,
      Pred.ofBits_eq_some.1 hq⟩))

theorem reads_dV2 {sel : BitVec 4} {k : VRegN → VRegN → Pred → Instr} (hs : w.extractLsb' 9 4 = sel)
    (hk : ∀ d a q, Encodes (k d a q) (wA op (Reg.bits d) (Reg.bits a) 0 (sel ++ 0#4) q.bits)) : Reads (dV2 k w) w :=
  gives_need fun hz => reads_d2 m (fFn_eq_4_4.2 ⟨hs, by simpa [low4] using hz⟩) hk

theorem reads_dV3 {sel : BitVec 4} {k : VRegN → VRegN → VRegN → Pred → Instr} (hs : w.extractLsb' 9 4 = sel)
    (hk : ∀ d a b q, Encodes (k d a b q) (wA op (Reg.bits d) (Reg.bits a) (Reg.bits b) (sel ++ 0#4) q.bits)) :
    Reads (dV3 k w) w :=
  gives_need fun hz => reads_d3 m (fFn_eq_4_4.2 ⟨hs, by simpa [low4] using hz⟩) hk

theorem reads_dVM {α : Type} {sel : BitVec 4} {of : BitVec 2 → Option α} {bits : α → BitVec 2}
    {k : VRegN → VRegN → VRegN → α → Pred → Instr} (hof : ∀ {x y}, of x = some y → x = bits y) (hs : w.extractLsb' 9 4 = sel)
    (hk : ∀ d a b x q, Encodes (k d a b x q)
      (wA op (Reg.bits d) (Reg.bits a) (Reg.bits b) (sel ++ bits x ++ 0#2) q.bits)) : Reads (dVM of k w) w :=
  gives_bind fun q hq => gives_bind fun x hx => gives_need fun hz => gives_some ((hk _ _ _ x q).of_eq (wA_eq_iff.2
    ⟨m.top, m.op, rfl, rfl, rfl, fFn_eq_4_2_2.2 ⟨hs, hof hx, by simpa using hz⟩, Pred.ofBits_eq_some.1 hq⟩))

theorem reads_dVK {α : Type} {sel : BitVec 4} {of : BitVec 4 → Option α} {bits : α → BitVec 4}
    {k : VRegN → VRegN → BitVec 4 → α → Pred → Option Instr} (hof : ∀ {x y}, of x = some y → x = bits y)
    (hs : w.extractLsb' 9 4 = sel)
    (hk : ∀ d a b x q v, v = wA op (Reg.bits d) (Reg.bits a) b (sel ++ bits x) q.bits → Reads (k d a b x q) v) :
    Reads (dVK of k w) w :=
  gives_bind fun q hq => gives_bind fun x hx => hk _ _ _ x q w (wA_eq_iff.2
    ⟨m.top, m.op, rfl, rfl, rfl, fFn_eq_4_4.2 ⟨hs, hof hx⟩, Pred.ofBits_eq_some.1 hq⟩).symm

theorem reads_dVLoad {α : Type} {sel : BitVec 3} {of : BitVec 9 → Option α} {bits : α → BitVec 9}
    {k : VRegN → Reg → Scope → LOrder → α → Instr} (hof : ∀ {x y}, of x = some y → x = bits y) (hs : w.extractLsb' 9 3 = sel)
    (hk : ∀ d b sc o x, Encodes (k d b sc o x) (wM op (Reg.bits d) (Reg.bits b) sc.bits o.bits (sel ++ bits x))) :
    Reads (dVLoad of k w) w :=
  gives_bind fun sc hsc => gives_bind fun o ho => gives_bind fun x hx => gives_some ((hk _ _ sc o x).of_eq (wM_eq_iff.2
    ⟨m.top, m.op, rfl, rfl, Scope.ofBits_eq_some.1 hsc, LOrder.ofBits_eq_some.1 ho, fI12_eq_3_9.2 ⟨hs, hof hx⟩⟩))

theorem reads_dVStore {α : Type} {sel : BitVec 3} {of : BitVec 9 → Option α} {bits : α → BitVec 9}
    {k : VRegN → Reg → Scope → SOrder → α → Instr} (hof : ∀ {x y}, of x = some y → x = bits y) (hs : w.extractLsb' 9 3 = sel)
    (hk : ∀ d b sc o x, Encodes (k d b sc o x) (wM op (Reg.bits d) (Reg.bits b) sc.bits o.bits (sel ++ bits x))) :
    Reads (dVStore of k w) w :=
  gives_bind fun sc hsc => gives_bind fun o ho => gives_bind fun x hx => gives_some ((hk _ _ sc o x).of_eq (wM_eq_iff.2
    ⟨m.top, m.op, rfl, rfl, Scope.ofBits_eq_some.1 hsc, SOrder.ofBits_eq_some.1 ho, fI12_eq_3_9.2 ⟨hs, hof hx⟩⟩))

theorem reads_dShift {n : BitVec 3} {k : Reg → Reg → BitVec 6 → Instr} (hn : w.extractLsb' 14 3 = n)
    (hk : ∀ d a sh, Encodes (k d a sh) (wI op (Reg.bits d) (Reg.bits a) (n ++ sh ++ 0#6 ++ 0#2))) : Reads (dShift k w) w := by
  refine gives_need fun hz => gives_some ((hk _ _ _).of_eq (wI_eq_iff.2 ⟨m.top, m.op, rfl, rfl, ?_⟩))
  obtain ⟨h6, h2⟩ := (extract_eq_append 0 6 2 (x := 0#6) (y := 0#2)).1 (by simpa using hz : w.extractLsb' 0 8 = 0#8)
  exact fI17_eq_3_6_6_2.2 ⟨hn, rfl, h6, h2⟩

theorem reads_dField {n : BitVec 3} {k : Reg → Reg → BitVec 6 → BitVec 6 → Instr} (hn : w.extractLsb' 14 3 = n)
    (hk : ∀ d a l wd, encode (k d a l wd) = .word (wI op (Reg.bits d) (Reg.bits a) (n ++ l ++ wd ++ 0#2))) :
    Reads (dField k w) w :=
  gives_need fun hz => gives_keepWf ((hk _ _ _ _).trans (congrArg _ (wI_eq_iff.2
    ⟨m.top, m.op, rfl, rfl, fI17_eq_3_6_6_2.2 ⟨hn, rfl, rfl, by simpa using hz⟩⟩)))

theorem reads_dRemote {sel : BitVec 4} {k : Reg → Reg → EReg → Guard → RSize → Instr} (hz : fZ w = 0)
    (hs : w.extractLsb' 7 4 = sel)
    (hk : ∀ d a e g sz, encode (k d a e g sz) =
      .word (wE op (Reg.bits d) (Reg.bits a) (PReg.bits e) g.g (sel ++ sz.bits) (bit1 g.gp)))
    (hwf : ∀ d a e g sz, g.wf = true → (k d a e g sz).WellFormed) : Reads (dRemote k w) w := by
  refine gives_bind fun g hg => gives_bind fun sz hsz => gives_some ?_
  obtain ⟨hg, hgp, wf⟩ := Guard.ofBits_eq_some.1 hg
  exact Encodes.of_eq ⟨hk _ _ _ g sz, hwf _ _ _ g sz wf⟩ (wE_eq_iff.2
    ⟨m.top, m.op, rfl, rfl, rfl, hg, fFnE_eq_4_4.2 ⟨hs, RSize.ofBits_eq_some.1 hsz⟩, hgp, hz⟩)

theorem reads_dLoadTile {sel : BitVec 4} {k : Reg → Reg → EReg → Guard → Bool → Instr} (hz : fZ w = 0)
    (hs : w.extractLsb' 7 4 = sel)
    (hk : ∀ d a e g x, encode (k d a e g x) =
      .word (wE op (Reg.bits d) (Reg.bits a) (PReg.bits e) g.g (sel ++ 0#3 ++ bit1 x) (bit1 g.gp)))
    (hwf : ∀ d a e g x, g.wf = true → (k d a e g x).WellFormed) : Reads (dLoadTile k w) w := by
  refine gives_bind fun g hg => gives_need fun h3 => gives_some ?_
  obtain ⟨hg, hgp, wf⟩ := Guard.ofBits_eq_some.1 hg
  exact Encodes.of_eq ⟨hk _ _ _ g _, hwf _ _ _ g _ wf⟩ (wE_eq_iff.2
    ⟨m.top, m.op, rfl, rfl, rfl, hg, fFnE_eq_4_3_1.2 ⟨hs, by simpa using h3, (bit1_isOne _).symm⟩, hgp, hz⟩)

theorem reads_dMul {sel : BitVec 4} {k : Reg → Tile → Option EReg → Bool → Bool → Guard → Instr} (hz : fZ w = 0)
    (hs : w.extractLsb' 7 4 = sel)
    (hk : ∀ d t x kb ka g, encode (k d t x kb ka g) = .word (wE op (Reg.bits d) (PReg.bits4 t) (eoBits x) g.g
      (sel ++ 0#1 ++ eoFlag x ++ bit1 kb ++ bit1 ka) (bit1 g.gp)))
    (hwf : ∀ d t x kb ka g, g.wf = true → (k d t x kb ka g).WellFormed) : Reads (dMul k w) w := by
  refine gives_bind fun g hg => gives_bind fun t ht => gives_bind fun x hx => gives_need fun h1 => gives_some ?_
  obtain ⟨hg, hgp, wf⟩ := Guard.ofBits_eq_some.1 hg
  obtain ⟨hflag, he⟩ := eoOf_eq_some.1 hx
  exact Encodes.of_eq ⟨hk _ t x _ _ g, hwf _ t x _ _ g wf⟩ (wE_eq_iff.2 ⟨m.top, m.op, rfl, PReg.ofBits4_eq_some.1 ht, he, hg,
    fFnE_eq_4_1_1_1_1.2 ⟨hs, by simpa using h1, hflag, (bit1_isOne _).symm, (bit1_isOne _).symm⟩, hgp, hz⟩)

end

/-! ### The tables of the major opcodes (R47) -/

section
variable {w : InstrWord}

theorem reads_dec00 (m : HasMajor 0x00 w) : Reads (dec00 w) w := by
  unfold dec00
  split
  case h_15 h | h_16 h | h_17 h => exact reads_d2 m (eq_ofNat_of_toNat_eq h) fun _ _ _ => ⟨rfl, rfl⟩
  case h_18 => exact gives_none
  all_goals next h => exact reads_d3 m (eq_ofNat_of_toNat_eq h) fun _ _ _ _ => ⟨rfl, rfl⟩

theorem reads_dec01 (m : HasMajor 0x01 w) : Reads (dec01 w) w := by
  unfold dec01
  split
  case h_4 h0 h1 h2 => exact reads_dIQ m (eq_three_of_toNat_ne h0 h1 h2) fun _ _ _ _ => ⟨rfl, rfl⟩
  all_goals next h => exact reads_dIQ m (eq_ofNat_of_toNat_eq h) fun _ _ _ _ => ⟨rfl, rfl⟩

theorem reads_dec02 (m : HasMajor 0x02 w) : Reads (dec02 w) w := by
  unfold dec02
  split
  case h_1 h | h_2 h | h_3 h => exact reads_dShift m (eq_ofNat_of_toNat_eq h) fun _ _ _ => ⟨rfl, rfl⟩
  case h_4 h | h_5 h | h_6 h => exact reads_dField m (eq_ofNat_of_toNat_eq h) fun _ _ _ _ => rfl
  case h_7 => exact gives_none

theorem reads_dec03 (m : HasMajor 0x03 w) : Reads (dec03 w) w := by
  unfold dec03
  split
  case h_1 h | h_2 h =>
    exact gives_some (Encodes.of_eq ⟨rfl, rfl⟩ (wI_eq_iff.2 ⟨m.top, m.op, rfl, eq_ofNat_of_toNat_eq h, rfl⟩))
  case h_3 => exact gives_none

theorem reads_decPcmp (m : HasMajor 0x04 w) (hs : w.extractLsb' 11 2 = 0#2) : Reads (decPcmp w) w :=
  gives_bind fun _ hq => gives_bind fun _ hd => gives_bind fun _ hc => gives_some (Encodes.of_eq ⟨rfl, rfl⟩ (wA_eq_iff.2
    ⟨m.top, m.op, PReg.ofBits4_eq_some.1 hd, rfl, rfl, fFn_eq_2_6.2 ⟨hs, PCond.ofBits_eq_some.1 hc⟩, Pred.ofBits_eq_some.1 hq⟩))

theorem reads_decPcmpi (m : HasMajor 0x04 w) (hs : w.extractLsb' 11 2 = 1#2) : Reads (decPcmpi w) w :=
  gives_bind fun _ hq => gives_bind fun _ hd => gives_bind fun _ hc => gives_some (Encodes.of_eq ⟨rfl, rfl⟩ (wA_eq_iff.2
    ⟨m.top, m.op, PReg.ofBits4_eq_some.1 hd, rfl, rfl, fFn_eq_2_6.2 ⟨hs, PCond.ofBits_eq_some.1 hc⟩, Pred.ofBits_eq_some.1 hq⟩))

theorem reads_decPlog (m : HasMajor 0x04 w) (hs : w.extractLsb' 11 2 = 2#2) : Reads (decPlog w) w :=
  gives_bind fun _ hq => gives_bind fun _ hd => gives_bind fun _ ha => gives_bind fun _ hb => gives_bind fun _ hf =>
    gives_some (Encodes.of_eq ⟨rfl, rfl⟩ (wA_eq_iff.2
      ⟨m.top, m.op, PReg.ofBits4_eq_some.1 hd, PReg.ofBits4_eq_some.1 ha, PReg.ofBits4_eq_some.1 hb,
        fFn_eq_2_6.2 ⟨hs, PLogFn.ofBits_eq_some.1 hf⟩, Pred.ofBits_eq_some.1 hq⟩))

theorem reads_decPmovPP (m : HasMajor 0x04 w) (hfn : fFn w = 3#2 ++ 0#6) : Reads (decPmovPP w) w :=
  gives_bind fun _ hq => gives_bind fun _ hd => gives_bind fun _ ha => gives_need fun hb =>
    gives_some (Encodes.of_eq ⟨rfl, rfl⟩ (wA_eq_iff.2
      ⟨m.top, m.op, PReg.ofBits4_eq_some.1 hd, PReg.ofBits4_eq_some.1 ha, by simpa using hb, hfn, Pred.ofBits_eq_some.1 hq⟩))

theorem reads_decPmovPG (m : HasMajor 0x04 w) (hfn : fFn w = 3#2 ++ 1#6) : Reads (decPmovPG w) w :=
  gives_bind fun _ hq => gives_bind fun _ hd => gives_need fun hb => gives_some (Encodes.of_eq ⟨rfl, rfl⟩ (wA_eq_iff.2
    ⟨m.top, m.op, PReg.ofBits4_eq_some.1 hd, rfl, by simpa using hb, hfn, Pred.ofBits_eq_some.1 hq⟩))

theorem reads_decPmovGP (m : HasMajor 0x04 w) (hfn : fFn w = 3#2 ++ 2#6) : Reads (decPmovGP w) w :=
  gives_bind fun _ hq => gives_bind fun _ ha => gives_need fun hb => gives_some (Encodes.of_eq ⟨rfl, rfl⟩ (wA_eq_iff.2
    ⟨m.top, m.op, rfl, PReg.ofBits4_eq_some.1 ha, by simpa using hb, hfn, Pred.ofBits_eq_some.1 hq⟩))

theorem reads_dec04 (m : HasMajor 0x04 w) : Reads (dec04 w) w := by
  unfold dec04
  split
  case h_1 h => exact reads_decPcmp m (eq_ofNat_of_toNat_eq h)
  case h_2 h => exact reads_decPcmpi m (eq_ofNat_of_toNat_eq h)
  case h_3 h => exact reads_decPlog m (eq_ofNat_of_toNat_eq h)
  case h_4 h0 h1 h2 =>
    have h3 := eq_three_of_toNat_ne h0 h1 h2
    split
    case h_1 h => exact reads_decPmovPP m (fFn_eq_2_6.2 ⟨h3, eq_ofNat_of_toNat_eq h⟩)
    case h_2 h => exact reads_decPmovPG m (fFn_eq_2_6.2 ⟨h3, eq_ofNat_of_toNat_eq h⟩)
    case h_3 h => exact reads_decPmovGP m (fFn_eq_2_6.2 ⟨h3, eq_ofNat_of_toNat_eq h⟩)
    case h_4 => exact gives_none

theorem reads_dec05 (m : HasMajor 0x05 w) : Reads (dec05 w) w := by
  unfold dec05
  split
  case h_8 => exact gives_none
  all_goals next h => exact reads_d3 m (eq_ofNat_of_toNat_eq h) fun _ _ _ _ => ⟨rfl, rfl⟩

theorem reads_dec10 (m : HasMajor 0x10 w) : Reads (dec10 w) w := by
  refine gives_bind fun sc hsc => ?_
  split
  next h7 =>
    split
    next h11 =>
      exact gives_bind fun _ ho => gives_some (Encodes.of_eq ⟨rfl, rfl⟩ (wM_eq_iff.2 ⟨m.top, m.op, rfl, rfl,
        Scope.ofBits_eq_some.1 hsc, LOrder.ofBits_eq_some.1 ho,
        fI12_eq_1_3_1_7.2 ⟨h11, rfl, (bit1_isOne _).symm, h7⟩⟩))
    next h11 =>
      exact gives_bind fun _ ho => gives_some (Encodes.of_eq ⟨rfl, rfl⟩ (wM_eq_iff.2 ⟨m.top, m.op, rfl, rfl,
        Scope.ofBits_eq_some.1 hsc, SOrder.ofBits_eq_some.1 ho,
        fI12_eq_1_3_1_7.2 ⟨eq_one_of_ne_zero h11, rfl, (bit1_isOne _).symm, h7⟩⟩))
  next => exact gives_none

theorem reads_dec11 (m : HasMajor 0x11 w) : Reads (dec11 w) w := by
  unfold dec11
  split
  case h_11 => exact gives_none
  all_goals next h => exact reads_dAmo m (eq_ofNat_of_toNat_eq h) fun _ _ _ _ _ _ => ⟨rfl, rfl⟩

/-- ACC of a number format reads a word only with its width bit set (R209). -/
theorem reads_acc32 {k : Reg → Scope → SOrder → Reg → Instr} {v : BitVec 1 → InstrWord} {b : Reg} {sc : Scope} {o : SOrder}
    {r : Reg} {x : Bool} (hk : Encodes (k b sc o r) (v (bit1 true))) : Reads (acc32 k b sc o r x) (v (bit1 x)) := by
  cases x
  · exact gives_none
  · exact gives_some hk

theorem reads_dec12 (m : HasMajor 0x12 w) : Reads (dec12 w) w := by
  unfold dec12
  split
  case h_1 h | h_2 h | h_3 h | h_4 h =>
    refine reads_dAcc m (eq_ofNat_of_toNat_eq h) fun _ _ _ _ _ v hv => ?_
    rw [hv]
    exact gives_some ⟨rfl, rfl⟩
  case h_5 h | h_6 h =>
    refine reads_dAcc m (eq_ofNat_of_toNat_eq h) fun b sc o r x v hv => ?_
    rw [hv]
    exact reads_acc32 (v := fun y => wM 0x12 0 (Reg.bits b) sc.bits o.bits (Reg.bits r ++ _ ++ y ++ 0#3)) ⟨rfl, rfl⟩
  case h_7 h =>
    split
    next hw => exact gives_some ⟨congrArg _ hw.symm, rfl⟩
    next => exact gives_none
  case h_8 => exact gives_none

theorem reads_dec13 (m : HasMajor 0x13 w) : Reads (dec13 w) w := by
  unfold dec13
  split
  case h_1 h =>
    refine gives_bind fun _ he => gives_need fun hz => ?_
    have low : w.extractLsb' 17 3 = 0#3 := by simpa using hz
    split
    next top => exact gives_some (Encodes.of_eq ⟨rfl, rfl⟩ (wI_eq_iff.2 ⟨m.top, m.op, PReg.ofBits4_eq_some.1 he,
      (extract_eq_append 17 1 3 (x := 0#1) (y := 0#3)).2 ⟨top, low⟩, fI17_eq_2_15.2 ⟨eq_ofNat_of_toNat_eq h, rfl⟩⟩))
    next top => exact gives_some (Encodes.of_eq ⟨rfl, rfl⟩ (wI_eq_iff.2 ⟨m.top, m.op, PReg.ofBits4_eq_some.1 he,
      (extract_eq_append 17 1 3 (x := 1#1) (y := 0#3)).2 ⟨eq_one_of_ne_zero top, low⟩,
      fI17_eq_2_15.2 ⟨eq_ofNat_of_toNat_eq h, rfl⟩⟩))
  case h_2 h | h_3 h =>
    exact gives_bind fun _ he => gives_some (Encodes.of_eq ⟨rfl, rfl⟩ (wI_eq_iff.2
      ⟨m.top, m.op, PReg.ofBits4_eq_some.1 he, rfl, fI17_eq_2_15.2 ⟨eq_ofNat_of_toNat_eq h, rfl⟩⟩))
  case h_4 h0 h1 h2 =>
    have h3 := eq_three_of_toNat_ne h0 h1 h2
    split
    next hz => exact gives_bind fun _ he => gives_some (Encodes.of_eq ⟨rfl, rfl⟩ (wI_eq_iff.2
      ⟨m.top, m.op, PReg.ofBits4_eq_some.1 he, rfl, fI17_eq_2_15.2 ⟨h3, hz⟩⟩))
    next =>
      split
      next hz => exact gives_bind fun _ he => gives_some (Encodes.of_eq ⟨rfl, rfl⟩ (wI_eq_iff.2
        ⟨m.top, m.op, rfl, PReg.ofBits4_eq_some.1 he, fI17_eq_2_15.2 ⟨h3, hz⟩⟩))
      next => exact gives_none

theorem reads_dec14 (m : HasMajor 0x14 w) : Reads (dec14 w) w := by
  unfold dec14
  split
  case h_1 h => exact reads_d3 m (eq_ofNat_of_toNat_eq h) fun _ _ _ _ => ⟨rfl, rfl⟩
  case h_2 h | h_3 h | h_5 h => exact reads_dA1 m (eq_ofNat_of_toNat_eq h) fun _ _ => ⟨rfl, rfl⟩
  case h_4 h => exact reads_d2 m (eq_ofNat_of_toNat_eq h) fun _ _ _ => ⟨rfl, rfl⟩
  case h_6 => exact gives_none

theorem reads_dec18 (m : HasMajor 0x18 w) : Reads (dec18 w) w :=
  gives_bind fun _ hs => gives_some (Encodes.of_eq ⟨rfl, rfl⟩ (wB_eq_iff.2 ⟨m.top, m.op, rfl, (bit1_isOne _).symm,
    fBForm_eq_2_1.2 ⟨Slot.ofBits_eq_some.1 hs, (bit1_isOne _).symm⟩, rfl⟩))

theorem reads_dec19 (m : HasMajor 0x19 w) : Reads (dec19 w) w := by
  refine gives_bind fun _ hs => ?_
  split
  next h => exact gives_some (Encodes.of_eq ⟨rfl, rfl⟩ (wJ_eq_iff.2
    ⟨m.top, m.op, fJForm_eq_2_1.2 ⟨Slot.ofBits_eq_some.1 hs, h⟩, rfl⟩))
  next h => exact gives_some (Encodes.of_eq ⟨rfl, rfl⟩ (wJ_eq_iff.2
    ⟨m.top, m.op, fJForm_eq_2_1.2 ⟨Slot.ofBits_eq_some.1 hs, eq_one_of_ne_zero h⟩, rfl⟩))

theorem reads_dec1A (m : HasMajor 0x1A w) : Reads (dec1A w) w := by
  refine gives_bind fun _ hq => gives_bind fun _ hs => gives_need fun hz => ?_
  obtain ⟨⟨h5, hd⟩, hb⟩ : (w.extractLsb' 5 3 = 0#3 ∧ fD w = 0) ∧ fB w = 0 := by simpa using hz
  split
  case h_1 h | h_2 h =>
    exact gives_some (Encodes.of_eq ⟨rfl, rfl⟩ (wA_eq_iff.2 ⟨m.top, m.op, hd, rfl, hb,
      fFn_eq_3_2_3.2 ⟨eq_ofNat_of_toNat_eq h, Slot.ofBits_eq_some.1 hs, h5⟩, Pred.ofBits_eq_some.1 hq⟩))
  case h_3 h =>
    exact gives_need fun ha => gives_some (Encodes.of_eq ⟨rfl, rfl⟩ (wA_eq_iff.2 ⟨m.top, m.op, hd, by simpa using ha, hb,
      fFn_eq_3_2_3.2 ⟨eq_ofNat_of_toNat_eq h, Slot.ofBits_eq_some.1 hs, h5⟩, Pred.ofBits_eq_some.1 hq⟩))
  case h_4 => exact gives_none

theorem reads_dec1B (m : HasMajor 0x1B w) : Reads (dec1B w) w := by
  unfold dec1B
  split
  case h_1 h => exact gives_need fun hz => gives_keepWf (congrArg _ (wJ_eq_iff.2 ⟨m.top, m.op, eq_ofNat_of_toNat_eq h,
    fDisp22_eq_4_6_1_11.2 ⟨rfl, by simpa using hz, (bit1_isOne _).symm, rfl⟩⟩))
  case h_2 h => exact gives_keepWf (congrArg _ (wJ_eq_iff.2 ⟨m.top, m.op, eq_ofNat_of_toNat_eq h,
    fDisp22_eq_10_1_11.2 ⟨rfl, (bit1_isOne _).symm, rfl⟩⟩))
  case h_3 h => exact gives_bind fun _ hs => gives_need fun hz => gives_some (Encodes.of_eq ⟨rfl, rfl⟩ (wJ_eq_iff.2
    ⟨m.top, m.op, eq_ofNat_of_toNat_eq h,
      fDisp22_eq_3_1_2_16.2 ⟨rfl, (bit1_isOne _).symm, Slot.ofBits_eq_some.1 hs, by simpa using hz⟩⟩))
  case h_4 h => exact gives_need fun hz => gives_some (Encodes.of_eq ⟨rfl, rfl⟩ (wJ_eq_iff.2
    ⟨m.top, m.op, eq_ofNat_of_toNat_eq h, fDisp22_eq_2_16_4.2 ⟨by simpa using hz, rfl, rfl⟩⟩))
  case h_5 h => exact gives_need fun hz => gives_some (Encodes.of_eq ⟨rfl, rfl⟩ (wJ_eq_iff.2
    ⟨m.top, m.op, eq_ofNat_of_toNat_eq h, by simpa using hz⟩))
  case h_6 => exact gives_none

theorem reads_dec1C (m : HasMajor 0x1C w) : Reads (dec1C w) w := by
  unfold dec1C
  split
  case h_1 h =>
    exact gives_some (Encodes.of_eq ⟨rfl, rfl⟩ (wI_eq_iff.2 ⟨m.top, m.op, rfl, eq_ofNat_of_toNat_eq h, rfl⟩))
  case h_2 h | h_5 h =>
    exact gives_need fun hz => gives_some (Encodes.of_eq ⟨rfl, rfl⟩ (wI_eq_iff.2
      ⟨m.top, m.op, rfl, eq_ofNat_of_toNat_eq h, by simpa using hz⟩))
  case h_3 h | h_4 h =>
    refine gives_need fun hz => gives_some ?_
    obtain ⟨hi, hd⟩ : fI17 w = 0 ∧ fD w = 0 := by simpa using hz
    exact Encodes.of_eq ⟨rfl, rfl⟩ (wI_eq_iff.2 ⟨m.top, m.op, hd, eq_ofNat_of_toNat_eq h, hi⟩)
  case h_6 h =>
    exact gives_need fun hz => gives_keepWf (congrArg _ (wI_eq_iff.2
      ⟨m.top, m.op, rfl, eq_ofNat_of_toNat_eq h, fI17_eq_11_6.2 ⟨by simpa using hz, rfl⟩⟩))
  case h_7 => exact gives_none

theorem reads_dec1D (m : HasMajor 0x1D w) : Reads (dec1D w) w := by
  unfold dec1D
  split
  case h_1 h =>
    refine gives_need fun hz => gives_some ?_
    obtain ⟨hi, hd⟩ : w.extractLsb' 8 9 = 0#9 ∧ fD w = 0 := by simpa using hz
    exact Encodes.of_eq ⟨rfl, rfl⟩ (wI_eq_iff.2 ⟨m.top, m.op, hd, eq_ofNat_of_toNat_eq h, fI17_eq_9_8.2 ⟨hi, rfl⟩⟩)
  case h_2 h | h_7 h =>
    refine gives_need fun hz => gives_some ?_
    obtain ⟨hi, hd⟩ : fI17 w = 0 ∧ fD w = 0 := by simpa using hz
    exact Encodes.of_eq ⟨rfl, rfl⟩ (wI_eq_iff.2 ⟨m.top, m.op, hd, eq_ofNat_of_toNat_eq h, hi⟩)
  case h_3 h | h_4 h =>
    exact gives_need fun hz => gives_some (Encodes.of_eq ⟨rfl, rfl⟩ (wI_eq_iff.2
      ⟨m.top, m.op, rfl, eq_ofNat_of_toNat_eq h, fI17_eq_5_12.2 ⟨by simpa using hz, rfl⟩⟩))
  case h_5 h =>
    exact gives_need fun hz => gives_some (Encodes.of_eq ⟨rfl, rfl⟩ (wI_eq_iff.2
      ⟨m.top, m.op, rfl, eq_ofNat_of_toNat_eq h, fI17_eq_13_4.2 ⟨by simpa using hz, rfl⟩⟩))
  case h_6 h =>
    exact gives_need fun hz => gives_some (Encodes.of_eq ⟨rfl, rfl⟩ (wI_eq_iff.2
      ⟨m.top, m.op, rfl, eq_ofNat_of_toNat_eq h, fI17_eq_12_1_4.2 ⟨by simpa using hz, (bit1_isOne _).symm, rfl⟩⟩))
  case h_8 => exact gives_none

theorem reads_dec1E (m : HasMajor 0x1E w) : Reads (dec1E w) w := by
  unfold dec1E
  split
  case h_1 h | h_3 h => exact reads_d2 m (eq_ofNat_of_toNat_eq h) fun _ _ _ => ⟨rfl, rfl⟩
  case h_2 h => exact reads_d0 m (eq_ofNat_of_toNat_eq h) fun _ => ⟨rfl, rfl⟩
  case h_4 => exact gives_none

/-- A word whose guard fields are zero (R42). -/
theorem noGuard_eq_true : noGuard w = true ↔ fG w = 0 ∧ fGp w = 0 ∧ fZ w = 0 := by
  simp [noGuard, and_assoc]

theorem reads_dec1F (m : HasMajor 0x1F w) : Reads (dec1F w) w := by
  refine gives_need fun hz => ?_
  obtain ⟨⟨hn, h4⟩, ha⟩ : (noGuard w = true ∧ w.extractLsb' 4 3 = 0#3) ∧ fA w = 0 := by simpa using hz
  obtain ⟨hg, hgp, hz⟩ := noGuard_eq_true.1 hn
  split
  case h_1 h =>
    exact gives_need fun he => gives_some (Encodes.of_eq ⟨rfl, rfl⟩ (wE_eq_iff.2 ⟨m.top, m.op, rfl, ha, by simpa using he, hg,
      fFnE_eq_4_3_1.2 ⟨eq_ofNat_of_toNat_eq h, h4, (bit1_isOne _).symm⟩, hgp, hz⟩))
  case h_2 h =>
    exact gives_need fun hd => gives_some (Encodes.of_eq ⟨rfl, rfl⟩ (wE_eq_iff.2 ⟨m.top, m.op, by simpa using hd, ha, rfl, hg,
      fFnE_eq_4_3_1.2 ⟨eq_ofNat_of_toNat_eq h, h4, (bit1_isOne _).symm⟩, hgp, hz⟩))
  case h_3 => exact gives_none

theorem reads_dec20 (m : HasMajor 0x20 w) : Reads (dec20 w) w := by
  refine gives_need fun hn => ?_
  obtain ⟨hg, hgp, hz⟩ := noGuard_eq_true.1 hn
  split
  case h_1 h =>
    refine gives_need fun hc => gives_keepWf ?_
    obtain ⟨hd, h4⟩ : fD w = 0 ∧ w.extractLsb' 4 3 = 0#3 := by simpa using hc
    exact congrArg _ (wE_eq_iff.2 ⟨m.top, m.op, hd, rfl, rfl, hg,
      fFnE_eq_4_3_1.2 ⟨eq_ofNat_of_toNat_eq h, h4, (bit1_isOne _).symm⟩, hgp, hz⟩)
  case h_2 h =>
    refine gives_need fun hc => gives_some ?_
    obtain ⟨⟨hd, he⟩, h6⟩ : (fD w = 0 ∧ fE w = 0) ∧ w.extractLsb' 6 1 = 0#1 := by simpa using hc
    exact Encodes.of_eq ⟨rfl, rfl⟩ (wE_eq_iff.2 ⟨m.top, m.op, hd, rfl, he, hg,
      fFnE_eq_4_1_3.2 ⟨eq_ofNat_of_toNat_eq h, h6, rfl⟩, hgp, hz⟩)
  case h_3 h =>
    refine gives_need fun hc => gives_some ?_
    obtain ⟨⟨⟨hd, he⟩, ha⟩, h3⟩ : ((fD w = 0 ∧ fE w = 0) ∧ fA w = 0) ∧ w.extractLsb' 3 4 = 0#4 := by simpa using hc
    exact Encodes.of_eq ⟨rfl, rfl⟩ (wE_eq_iff.2 ⟨m.top, m.op, hd, ha, he, hg,
      fFnE_eq_4_4.2 ⟨eq_ofNat_of_toNat_eq h, h3⟩, hgp, hz⟩)
  case h_4 h | h_5 h =>
    refine gives_need fun hc => gives_some ?_
    obtain ⟨⟨he, ha⟩, h4⟩ : (fE w = 0 ∧ fA w = 0) ∧ w.extractLsb' 4 3 = 0#3 := by simpa using hc
    exact Encodes.of_eq ⟨rfl, rfl⟩ (wE_eq_iff.2 ⟨m.top, m.op, rfl, ha, he, hg,
      fFnE_eq_4_3_1.2 ⟨eq_ofNat_of_toNat_eq h, h4, (bit1_isOne _).symm⟩, hgp, hz⟩)
  case h_6 => exact gives_none

theorem reads_dec21 (m : HasMajor 0x21 w) : Reads (dec21 w) w := by
  refine gives_need fun hz => ?_
  have hz : fZ w = 0 := by simpa using hz
  split
  case h_1 h | h_2 h =>
    exact reads_dRemote m hz (eq_ofNat_of_toNat_eq h) (fun _ _ _ _ _ => rfl) fun _ _ _ _ _ wf => wf
  case h_3 h =>
    refine gives_need fun hc => gives_some ?_
    obtain ⟨hn, h5⟩ : noGuard w = true ∧ w.extractLsb' 5 2 = 0#2 := by simpa using hc
    obtain ⟨hg, hgp, -⟩ := noGuard_eq_true.1 hn
    exact Encodes.of_eq ⟨rfl, rfl⟩ (wE_eq_iff.2 ⟨m.top, m.op, rfl, rfl, rfl, hg,
      fFnE_eq_4_2_2.2 ⟨eq_ofNat_of_toNat_eq h, h5, rfl⟩, hgp, hz⟩)
  case h_4 => exact gives_none

theorem reads_dec22 (m : HasMajor 0x22 w) : Reads (dec22 w) w := by
  refine gives_need fun hc => ?_
  obtain ⟨hn, he⟩ : noGuard w = true ∧ fE w = 0 := by simpa using hc
  obtain ⟨hg, hgp, hz⟩ := noGuard_eq_true.1 hn
  split
  case h_1 h | h_2 h | h_3 h =>
    exact gives_need fun h3 => gives_some (Encodes.of_eq ⟨rfl, rfl⟩ (wE_eq_iff.2 ⟨m.top, m.op, rfl, rfl, he, hg,
      fFnE_eq_4_4.2 ⟨eq_ofNat_of_toNat_eq h, by simpa using h3⟩, hgp, hz⟩))
  case h_4 h =>
    refine gives_need fun hc => gives_some ?_
    obtain ⟨h3, hd⟩ : w.extractLsb' 3 4 = 0#4 ∧ fD w = 0 := by simpa using hc
    exact Encodes.of_eq ⟨rfl, rfl⟩ (wE_eq_iff.2 ⟨m.top, m.op, hd, rfl, he, hg,
      fFnE_eq_4_4.2 ⟨eq_ofNat_of_toNat_eq h, h3⟩, hgp, hz⟩)
  case h_5 h =>
    refine gives_need fun hc => gives_map fun _ ht => ?_
    obtain ⟨h5, hd⟩ : w.extractLsb' 5 2 = 0#2 ∧ fD w = 0 := by simpa using hc
    exact Encodes.of_eq ⟨rfl, rfl⟩ (wE_eq_iff.2 ⟨m.top, m.op, hd, rfl, he, hg,
      fFnE_eq_4_2_2.2 ⟨eq_ofNat_of_toNat_eq h, h5, TLCounter.ofBits_eq_some.1 ht⟩, hgp, hz⟩)
  case h_6 h =>
    refine gives_need fun hc => gives_map fun _ ht => ?_
    obtain ⟨h6, ha⟩ : w.extractLsb' 6 1 = 0#1 ∧ fA w = 0 := by simpa using hc
    exact Encodes.of_eq ⟨rfl, rfl⟩ (wE_eq_iff.2 ⟨m.top, m.op, rfl, ha, he, hg,
      fFnE_eq_4_1_1_2.2 ⟨eq_ofNat_of_toNat_eq h, h6, (bit1_isOne _).symm, TLCounter.ofBits_eq_some.1 ht⟩, hgp, hz⟩)
  case h_7 => exact gives_none

theorem reads_dec23 (m : HasMajor 0x23 w) : Reads (dec23 w) w := by
  refine gives_need fun hc => ?_
  obtain ⟨⟨hz, he⟩, h3⟩ : (fZ w = 0 ∧ fE w = 0) ∧ w.extractLsb' 3 4 = 0#4 := by simpa using hc
  split
  case h_1 h =>
    exact gives_need fun hd => gives_bind fun _ ha => gives_keepWf (congrArg _ (wE_eq_iff.2
      ⟨m.top, m.op, by simpa using hd, PReg.ofBits4_eq_some.1 ha, he, rfl,
        fFnE_eq_4_4.2 ⟨eq_ofNat_of_toNat_eq h, h3⟩, (bit1_isOne _).symm, hz⟩))
  case h_2 h =>
    refine gives_need fun hc => gives_keepWf ?_
    obtain ⟨ha, hgp⟩ : fA w = 0 ∧ fGp w = 0 := by simpa using hc
    exact congrArg _ (wE_eq_iff.2 ⟨m.top, m.op, rfl, ha, he, rfl, fFnE_eq_4_4.2 ⟨eq_ofNat_of_toNat_eq h, h3⟩, hgp, hz⟩)
  case h_3 => exact gives_none

theorem reads_decMzero (m : HasMajor 0x24 w) (hz : fZ w = 0) (hs : w.extractLsb' 7 4 = 5#4) : Reads (decMzero w) w := by
  refine gives_bind fun _ hg => gives_bind fun _ ht => gives_bind fun _ hx => gives_need fun hc => gives_some ?_
  obtain ⟨hg, hgp, wf⟩ := Guard.ofBits_eq_some.1 hg
  obtain ⟨hflag, he⟩ := eoOf_eq_some.1 hx
  obtain ⟨h6, h3⟩ : w.extractLsb' 6 1 = 0#1 ∧ w.extractLsb' 3 2 = 0#2 := by simpa using hc
  exact Encodes.of_eq ⟨rfl, wf⟩ (wE_eq_iff.2 ⟨m.top, m.op, rfl, PReg.ofBits4_eq_some.1 ht, he, hg,
    fFnE_eq_4_1_1_2.2 ⟨hs, h6, hflag, h3⟩, hgp, hz⟩)

theorem reads_decMcfg (m : HasMajor 0x24 w) (hz : fZ w = 0) (hs : w.extractLsb' 7 4 = 6#4) : Reads (decMcfg w) w := by
  refine gives_bind fun _ hg => gives_need fun hc => ?_
  obtain ⟨hg, hgp, wf⟩ := Guard.ofBits_eq_some.1 hg
  obtain ⟨h5, he⟩ : w.extractLsb' 5 2 = 0#2 ∧ fE w = 0 := by simpa using hc
  have low {n : BitVec 2} (h : w.extractLsb' 3 2 = n) : fFnE w = 6#4 ++ (0#2 ++ n) :=
    fFnE_eq_4_4.2 ⟨hs, (extract_eq_append 3 2 2).2 ⟨h5, h⟩⟩
  split
  case h_1 h | h_2 h =>
    exact gives_some (Encodes.of_eq ⟨rfl, wf⟩ (wE_eq_iff.2
      ⟨m.top, m.op, rfl, rfl, he, hg, low (eq_ofNat_of_toNat_eq h), hgp, hz⟩))
  case h_3 h =>
    exact gives_need fun ha => gives_some (Encodes.of_eq ⟨rfl, wf⟩ (wE_eq_iff.2
      ⟨m.top, m.op, rfl, by simpa using ha, he, hg, low (eq_ofNat_of_toNat_eq h), hgp, hz⟩))
  case h_4 => exact gives_none

theorem reads_dec24 (m : HasMajor 0x24 w) : Reads (dec24 w) w := by
  refine gives_need fun hz => ?_
  have hz : fZ w = 0 := by simpa using hz
  split
  case h_1 h | h_2 h =>
    exact reads_dLoadTile m hz (eq_ofNat_of_toNat_eq h) (fun _ _ _ _ _ => rfl) fun _ _ _ _ _ wf => wf
  case h_3 h | h_4 h | h_5 h =>
    exact reads_dMul m hz (eq_ofNat_of_toNat_eq h) (fun _ _ _ _ _ _ => rfl) fun _ _ _ _ _ _ wf => wf
  case h_6 h => exact reads_decMzero m hz (eq_ofNat_of_toNat_eq h)
  case h_7 h => exact reads_decMcfg m hz (eq_ofNat_of_toNat_eq h)
  case h_8 => exact gives_none

theorem reads_decMrda (m : HasMajor 0x25 w) (hz : fZ w = 0) (hs : w.extractLsb' 7 4 = 0#4) : Reads (decMrda w) w := by
  refine gives_bind fun _ hg => gives_bind fun _ ht => gives_need fun h4 => gives_some ?_
  obtain ⟨hg, hgp, wf⟩ := Guard.ofBits_eq_some.1 hg
  exact Encodes.of_eq ⟨rfl, wf⟩ (wE_eq_iff.2 ⟨m.top, m.op, rfl, PReg.ofBits4_eq_some.1 ht, rfl, hg,
    fFnE_eq_4_3_1.2 ⟨hs, by simpa using h4, (bit1_isOne _).symm⟩, hgp, hz⟩)

theorem reads_decMscl (m : HasMajor 0x25 w) (hz : fZ w = 0) (hs : w.extractLsb' 7 4 = 1#4) : Reads (decMscl w) w := by
  refine gives_bind fun _ hg => gives_bind fun _ ht => gives_bind fun _ hx => gives_bind fun _ hm => gives_need fun h6 =>
    gives_some ?_
  obtain ⟨hg, hgp, wf⟩ := Guard.ofBits_eq_some.1 hg
  obtain ⟨hflag, he⟩ := eoOf_eq_some.1 hx
  exact Encodes.of_eq ⟨rfl, wf⟩ (wE_eq_iff.2 ⟨m.top, m.op, rfl, PReg.ofBits4_eq_some.1 ht, he, hg,
    fFnE_eq_4_1_1_2.2 ⟨hs, by simpa using h6, hflag, SclMode.ofBits_eq_some.1 hm⟩, hgp, hz⟩)

theorem reads_dec25 (m : HasMajor 0x25 w) : Reads (dec25 w) w := by
  refine gives_need fun hz => ?_
  have hz : fZ w = 0 := by simpa using hz
  split
  case h_1 h => exact reads_decMrda m hz (eq_ofNat_of_toNat_eq h)
  case h_2 h => exact reads_decMscl m hz (eq_ofNat_of_toNat_eq h)
  case h_3 h =>
    refine gives_need fun hc => gives_some ?_
    obtain ⟨⟨hn, he⟩, h3⟩ : (noGuard w = true ∧ fE w = 0) ∧ w.extractLsb' 3 4 = 0#4 := by simpa using hc
    obtain ⟨hg, hgp, -⟩ := noGuard_eq_true.1 hn
    exact Encodes.of_eq ⟨rfl, rfl⟩ (wE_eq_iff.2 ⟨m.top, m.op, rfl, rfl, he, hg,
      fFnE_eq_4_4.2 ⟨eq_ofNat_of_toNat_eq h, h3⟩, hgp, hz⟩)
  case h_4 h =>
    refine gives_need fun hc => gives_some ?_
    obtain ⟨⟨⟨hn, he⟩, h3⟩, hd⟩ : ((noGuard w = true ∧ fE w = 0) ∧ w.extractLsb' 3 4 = 0#4) ∧ fD w = 0 := by simpa using hc
    obtain ⟨hg, hgp, -⟩ := noGuard_eq_true.1 hn
    exact Encodes.of_eq ⟨rfl, rfl⟩ (wE_eq_iff.2 ⟨m.top, m.op, hd, rfl, he, hg,
      fFnE_eq_4_4.2 ⟨eq_ofNat_of_toNat_eq h, h3⟩, hgp, hz⟩)
  case h_5 => exact gives_none

/-- The function field of a major whose fn[8:5] is zero. -/
theorem fFn_of_low4 {sel : BitVec 4} (hl : low4 w = true) (hs : w.extractLsb' 9 4 = sel) : fFn w = sel ++ 0#4 :=
  fFn_eq_4_4.2 ⟨hs, by simpa [low4] using hl⟩

theorem reads_dec26 (m : HasMajor 0x26 w) : Reads (dec26 w) w := by
  refine gives_need fun hl => ?_
  split
  case h_1 h | h_3 h => exact reads_d2 m (fFn_of_low4 hl (eq_ofNat_of_toNat_eq h)) fun _ _ _ => ⟨rfl, rfl⟩
  case h_2 h => exact reads_d0 m (fFn_of_low4 hl (eq_ofNat_of_toNat_eq h)) fun _ => ⟨rfl, rfl⟩
  case h_4 => exact gives_none

theorem reads_dec28 (m : HasMajor 0x28 w) : Reads (dec28 w) w := by
  unfold dec28
  split
  case h_1 h | h_2 h =>
    exact reads_dVM m SatMode.ofBits_eq_some.1 (eq_ofNat_of_toNat_eq h) fun _ _ _ _ _ => ⟨rfl, rfl⟩
  case h_3 h => exact reads_dVM m MulMode.ofBits_eq_some.1 (eq_ofNat_of_toNat_eq h) fun _ _ _ _ _ => ⟨rfl, rfl⟩
  case h_4 h | h_5 h | h_10 h =>
    exact reads_dVM m uMode_eq_some.1 (eq_ofNat_of_toNat_eq h) fun _ _ _ _ _ => by
      rw [← append_append_4_1_1]
      exact ⟨rfl, rfl⟩
  case h_6 h | h_7 h | h_8 h | h_9 h => exact reads_dV3 m (eq_ofNat_of_toNat_eq h) fun _ _ _ _ => ⟨rfl, rfl⟩
  case h_11 => exact gives_none

theorem reads_dec29 (m : HasMajor 0x29 w) : Reads (dec29 w) w := by
  unfold dec29
  split
  case h_1 h | h_2 h | h_3 h | h_4 h => exact reads_dF m (eq_ofNat_of_toNat_eq h) fun _ _ _ _ _ _ => ⟨rfl, rfl⟩
  case h_5 h | h_6 h => exact reads_dF0 m (eq_ofNat_of_toNat_eq h) fun _ _ _ _ _ => ⟨rfl, rfl⟩
  case h_7 h | h_8 h => exact reads_dF1 m (eq_ofNat_of_toNat_eq h) fun _ _ _ _ => ⟨rfl, rfl⟩
  case h_9 => exact gives_none

theorem reads_dec2A (m : HasMajor 0x2A w) : Reads (dec2A w) w := by
  unfold dec2A
  split
  case h_7 => exact gives_none
  all_goals next h => exact reads_dV2 m (eq_ofNat_of_toNat_eq h) fun _ _ _ => ⟨rfl, rfl⟩

theorem reads_dec2B (m : HasMajor 0x2B w) : Reads (dec2B w) w := by
  unfold dec2B
  split
  case h_1 h => exact reads_dVLoad (bits := id) m Option.some.inj (eq_ofNat_of_toNat_eq h) fun _ _ _ _ _ => ⟨rfl, rfl⟩
  case h_2 h => exact reads_dVStore (bits := id) m Option.some.inj (eq_ofNat_of_toNat_eq h) fun _ _ _ _ _ => ⟨rfl, rfl⟩
  case h_3 h | h_5 h =>
    exact reads_dVLoad m vIdx_eq_some.1 (eq_ofNat_of_toNat_eq h) fun _ _ _ _ _ => by
      rw [← append_append_3_4_5]
      exact ⟨rfl, rfl⟩
  case h_4 h | h_6 h =>
    exact reads_dVStore m vIdx_eq_some.1 (eq_ofNat_of_toNat_eq h) fun _ _ _ _ _ => by
      rw [← append_append_3_4_5]
      exact ⟨rfl, rfl⟩
  case h_7 => exact gives_none

theorem reads_dec2C (m : HasMajor 0x2C w) : Reads (dec2C w) w := by
  unfold dec2C
  split
  case h_1 h =>
    refine reads_dVK m VCond.ofBits_eq_some.1 (eq_ofNat_of_toNat_eq h) fun _ _ _ _ _ v hv => ?_
    rw [hv]
    exact gives_some ⟨rfl, rfl⟩
  case h_2 h | h_3 h => exact reads_dV3 m (eq_ofNat_of_toNat_eq h) fun _ _ _ _ => ⟨rfl, rfl⟩
  case h_4 h =>
    refine reads_dVK m topBit_eq_some.1 (eq_ofNat_of_toNat_eq h) fun _ _ b x _ v hv => ?_
    rw [hv]
    cases x
    · refine gives_need fun hb => ?_
      rw [show b = 0#4 by simpa using hb]
      exact gives_some ⟨rfl, rfl⟩
    · exact gives_some ⟨rfl, rfl⟩
  case h_5 h =>
    refine reads_dVK m topBit_eq_some.1 (eq_ofNat_of_toNat_eq h) fun _ _ b x _ v hv => ?_
    rw [hv]
    cases x
    · exact gives_some ⟨rfl, rfl⟩
    · exact gives_some ⟨rfl, rfl⟩
  case h_6 h =>
    refine reads_dVK m RedKind.ofBits_eq_some.1 (eq_ofNat_of_toNat_eq h) fun _ _ b _ _ v hv => gives_need fun hb => ?_
    rw [hv, show b = 0#4 by simpa using hb]
    exact gives_some ⟨rfl, rfl⟩
  case h_7 h =>
    refine reads_dVK m topBit_eq_some.1 (eq_ofNat_of_toNat_eq h) fun _ _ b _ _ v hv => gives_need fun hb => ?_
    rw [hv, show b = 0#4 by simpa using hb, ← append_append_4_1_3]
    exact gives_some ⟨rfl, rfl⟩
  case h_8 => exact gives_none

theorem reads_dec2D (m : HasMajor 0x2D w) : Reads (dec2D w) w := by
  unfold dec2D
  split
  case h_1 h =>
    refine reads_dVK m VCvt.ofBits_eq_some.1 (eq_ofNat_of_toNat_eq h) fun _ _ _ _ _ v hv => gives_map fun _ hr => ?_
    rw [hv, Rnd.ofBits4_eq_some.1 hr]
    exact ⟨rfl, rfl⟩
  case h_2 => exact gives_none

theorem reads_dec2E (m : HasMajor 0x2E w) : Reads (dec2E w) w := by
  unfold dec2E
  split
  case h_1 h | h_2 h => exact reads_dL m (eq_ofNat_of_toNat_eq h) fun _ _ _ _ _ => ⟨rfl, rfl⟩
  case h_3 h =>
    refine reads_dVK m LCvt.ofBits_eq_some.1 (eq_ofNat_of_toNat_eq h) fun _ _ b _ _ v hv => gives_need fun hb => ?_
    rw [hv, show b = 0#4 by simpa using hb]
    exact gives_some ⟨rfl, rfl⟩
  case h_4 => exact gives_none

theorem reads_decFsqrt (m : HasMajor 0x30 w) (hs : w.extractLsb' 9 4 = 5#4) : Reads (decFsqrt w) w :=
  gives_bind fun _ hq => gives_bind fun _ hf => gives_bind fun _ hr => gives_need fun hb => gives_some
    (Encodes.of_eq ⟨rfl, rfl⟩ (wA_eq_iff.2 ⟨m.top, m.op, rfl, rfl, by simpa using hb,
      fFn_eq_4_1_3.2 ⟨hs, FFmt.ofBits_eq_some.1 hf, Rnd.ofBits_eq_some.1 hr⟩, Pred.ofBits_eq_some.1 hq⟩))

theorem reads_decFcmp (m : HasMajor 0x30 w) (hs : w.extractLsb' 9 4 = 8#4) : Reads (decFcmp w) w :=
  gives_bind fun _ hq => gives_bind fun _ hd => gives_bind fun _ hf => gives_bind fun _ hc => gives_some
    (Encodes.of_eq ⟨rfl, rfl⟩ (wA_eq_iff.2 ⟨m.top, m.op, PReg.ofBits4_eq_some.1 hd, rfl, rfl,
      fFn_eq_4_1_3.2 ⟨hs, FFmt.ofBits_eq_some.1 hf, FCond.ofBits_eq_some.1 hc⟩, Pred.ofBits_eq_some.1 hq⟩))

theorem reads_dec30 (m : HasMajor 0x30 w) : Reads (dec30 w) w := by
  unfold dec30
  split
  case h_1 h | h_2 h | h_3 h | h_4 h | h_5 h => exact reads_dF m (eq_ofNat_of_toNat_eq h) fun _ _ _ _ _ _ => ⟨rfl, rfl⟩
  case h_6 h => exact reads_decFsqrt m (eq_ofNat_of_toNat_eq h)
  case h_7 h | h_8 h => exact reads_dF0 m (eq_ofNat_of_toNat_eq h) fun _ _ _ _ _ => ⟨rfl, rfl⟩
  case h_9 h => exact reads_decFcmp m (eq_ofNat_of_toNat_eq h)
  case h_10 h =>
    refine reads_dVK m FCvt.ofBits_eq_some.1 (eq_ofNat_of_toNat_eq h) fun _ _ _ _ _ v hv => gives_map fun _ hr => ?_
    rw [hv, Rnd.ofBits4_eq_some.1 hr]
    exact ⟨rfl, rfl⟩
  case h_11 h => exact reads_dF1 m (eq_ofNat_of_toNat_eq h) fun _ _ _ _ => ⟨rfl, rfl⟩
  case h_12 => exact gives_none

theorem reads_decLcmp (m : HasMajor 0x31 w) (hs : w.extractLsb' 9 4 = 4#4) : Reads (decLcmp w) w :=
  gives_bind fun _ hq => gives_bind fun _ hd => gives_bind fun _ hf => gives_bind fun _ hc => gives_some
    (Encodes.of_eq ⟨rfl, rfl⟩ (wA_eq_iff.2 ⟨m.top, m.op, PReg.ofBits4_eq_some.1 hd, rfl, rfl,
      fFn_eq_4_1_3.2 ⟨hs, LFmt.ofBits_eq_some.1 hf, FCond.ofBits_eq_some.1 hc⟩, Pred.ofBits_eq_some.1 hq⟩))

theorem reads_decLclass (m : HasMajor 0x31 w) (hs : w.extractLsb' 9 4 = 6#4) : Reads (decLclass w) w := by
  refine gives_bind fun _ hq => gives_bind fun _ hf => gives_need fun hc => gives_some ?_
  obtain ⟨h5, hb⟩ : w.extractLsb' 5 3 = 0#3 ∧ fB w = 0 := by simpa using hc
  exact Encodes.of_eq ⟨rfl, rfl⟩ (wA_eq_iff.2 ⟨m.top, m.op, rfl, rfl, hb,
    fFn_eq_4_1_3.2 ⟨hs, LFmt.ofBits_eq_some.1 hf, h5⟩, Pred.ofBits_eq_some.1 hq⟩)

theorem reads_dec31 (m : HasMajor 0x31 w) : Reads (dec31 w) w := by
  unfold dec31
  split
  case h_1 h | h_2 h | h_3 h | h_4 h => exact reads_dL m (eq_ofNat_of_toNat_eq h) fun _ _ _ _ _ => ⟨rfl, rfl⟩
  case h_5 h => exact reads_decLcmp m (eq_ofNat_of_toNat_eq h)
  case h_6 h =>
    refine reads_dVK m LCvt.ofBits_eq_some.1 (eq_ofNat_of_toNat_eq h) fun _ _ _ _ _ v hv => gives_bind fun _ hr => ?_
    rw [hv, Rnd.ofBits4_eq_some.1 hr]
    exact gives_keepWf rfl
  case h_7 h => exact reads_decLclass m (eq_ofNat_of_toNat_eq h)
  case h_8 => exact gives_none

theorem reads_dec34 (m : HasMajor 0x34 w) : Reads (dec34 w) w := by
  refine gives_need fun hl => ?_
  split
  case h_1 h | h_2 h => exact reads_d2 m (fFn_of_low4 hl (eq_ofNat_of_toNat_eq h)) fun _ _ _ => ⟨rfl, rfl⟩
  case h_3 h =>
    exact gives_bind fun _ hq => gives_need fun hd => gives_some (Encodes.of_eq ⟨rfl, rfl⟩ (wA_eq_iff.2
      ⟨m.top, m.op, by simpa using hd, rfl, rfl, fFn_of_low4 hl (eq_ofNat_of_toNat_eq h), Pred.ofBits_eq_some.1 hq⟩))
  case h_4 h =>
    exact gives_bind fun _ hq => gives_need fun ha => gives_keepWf (congrArg _ (wA_eq_iff.2
      ⟨m.top, m.op, rfl, by simpa using ha, rfl, fFn_of_low4 hl (eq_ofNat_of_toNat_eq h), Pred.ofBits_eq_some.1 hq⟩))
  case h_5 => exact gives_none

theorem reads_dec35 (m : HasMajor 0x35 w) : Reads (dec35 w) w := by
  refine gives_need fun hl => ?_
  split
  case h_1 h => exact reads_d2 m (fFn_of_low4 hl (eq_ofNat_of_toNat_eq h)) fun _ _ _ => ⟨rfl, rfl⟩
  case h_2 h => exact reads_d0 m (fFn_of_low4 hl (eq_ofNat_of_toNat_eq h)) fun _ => ⟨rfl, rfl⟩
  case h_3 => exact gives_none

end
/-! ### Words (R45, R46) -/

/-- The loads of a width: imm12[0] says how a loaded value is extended (R40). -/
theorem reads_loads {w : InstrWord} {op : BitVec 6} (m : HasMajor op w) {ku ks : Reg → Reg → Scope → LOrder → BitVec 11 → Instr}
    (hu : ∀ d b sc o imm, Encodes (ku d b sc o imm) (wM op (Reg.bits d) (Reg.bits b) sc.bits o.bits (imm ++ 1#1)))
    (hs : ∀ d b sc o imm, Encodes (ks d b sc o imm) (wM op (Reg.bits d) (Reg.bits b) sc.bits o.bits (imm ++ 0#1))) :
    Reads (if uBit w then dLoad ku w else dLoad ks w) w := by
  split
  next h => exact reads_dLoad m (isOne_eq_true.1 h) hu
  next h => exact reads_dLoad m (isOne_eq_false.1 (Bool.eq_false_of_not_eq_true h)) hs

theorem reads_decode32 (w : InstrWord) : Reads (decode32 w) w := by
  refine gives_need fun top => ?_
  have major {n : Nat} (h : (fOp w).toNat = n) : HasMajor (BitVec.ofNat 6 n) w :=
    ⟨by simpa using top, eq_ofNat_of_toNat_eq h⟩
  split
  case h_1 h => exact reads_dec00 (major h)
  case h_2 h => exact reads_dec01 (major h)
  case h_3 h => exact reads_dec02 (major h)
  case h_4 h => exact reads_dec03 (major h)
  case h_5 h => exact reads_dec04 (major h)
  case h_6 h => exact reads_dec05 (major h)
  case h_7 h | h_8 h | h_9 h =>
    exact reads_loads (major h) (fun _ _ _ _ _ => ⟨rfl, rfl⟩) fun _ _ _ _ _ => ⟨rfl, rfl⟩
  case h_10 h =>
    split
    next => exact gives_none
    next hu => exact reads_dLoad (u := 0#1) (major h) (isOne_eq_false.1 (Bool.eq_false_of_not_eq_true hu)) fun _ _ _ _ _ => ⟨rfl, rfl⟩
  case h_11 h | h_12 h | h_13 h | h_14 h => exact reads_dStore (major h) fun _ _ _ _ _ => ⟨rfl, rfl⟩
  case h_15 h => exact reads_dec10 (major h)
  case h_16 h => exact reads_dec11 (major h)
  case h_17 h => exact reads_dec12 (major h)
  case h_18 h => exact reads_dec13 (major h)
  case h_19 h => exact reads_dec14 (major h)
  case h_20 h => exact reads_dec18 (major h)
  case h_21 h => exact reads_dec19 (major h)
  case h_22 h => exact reads_dec1A (major h)
  case h_23 h => exact reads_dec1B (major h)
  case h_24 h => exact reads_dec1C (major h)
  case h_25 h => exact reads_dec1D (major h)
  case h_26 h => exact reads_dec1E (major h)
  case h_27 h => exact reads_dec1F (major h)
  case h_28 h => exact reads_dec20 (major h)
  case h_29 h => exact reads_dec21 (major h)
  case h_30 h => exact reads_dec22 (major h)
  case h_31 h => exact reads_dec23 (major h)
  case h_32 h => exact reads_dec24 (major h)
  case h_33 h => exact reads_dec25 (major h)
  case h_34 h => exact reads_dec26 (major h)
  case h_35 h => exact reads_dec28 (major h)
  case h_36 h => exact reads_dec29 (major h)
  case h_37 h => exact reads_dec2A (major h)
  case h_38 h => exact reads_dec2B (major h)
  case h_39 h => exact reads_dec2C (major h)
  case h_40 h => exact reads_dec2D (major h)
  case h_41 h => exact reads_dec2E (major h)
  case h_42 h => exact reads_dec30 (major h)
  case h_43 h => exact reads_dec31 (major h)
  case h_44 h => exact reads_dec34 (major h)
  case h_45 h => exact reads_dec35 (major h)
  case h_46 => exact gives_none

/-! ### Halfwords (R43, R48) -/

/-- `h` is the encoding of the instruction `i`. -/
abbrev EncodesHalf (i : Instr) (h : Half) : Prop := encode i = .half h ∧ i.WellFormed

theorem EncodesHalf.of_eq {i : Instr} {v h : Half} (hi : EncodesHalf i v) (e : v = h) : EncodesHalf i h := e ▸ hi

/-- `h` is a 16-bit instruction of the short opcode `op` (R43). -/
structure HasShort (op : BitVec 5) (h : Half) : Prop where
  top : h.extractLsb' 15 1 = 0#1
  op : hOp h = op

section
variable {h : Half} {op : BitVec 5} (m : HasShort op h)
include m

theorem gives_dS {k : BitVec 2} {f : Reg → Reg → Instr} (hk : hK h = k)
    (hf : ∀ d r, EncodesHalf (f d r) (hR op (Reg.bits d) (Reg.bits r) k)) : Gives (dS f h) (.half h) :=
  gives_some ((hf _ _).of_eq (hR_eq_iff.2 ⟨m.top, m.op, rfl, rfl, hk⟩))

theorem gives_dS1 {k : BitVec 2} {f : Reg → Instr} (hk : hK h = k)
    (hf : ∀ r, EncodesHalf (f r) (hR op 0 (Reg.bits r) k)) : Gives (dS1 f h) (.half h) :=
  gives_need fun hd => gives_some ((hf _).of_eq (hR_eq_iff.2 ⟨m.top, m.op, by simpa using hd, rfl, hk⟩))

theorem gives_dS0 {k : BitVec 2} {i : Instr} (hk : hK h = k) (hi : EncodesHalf i (hR op 0 0 k)) :
    Gives (dS0 i h) (.half h) := by
  refine gives_need fun hz => gives_some ?_
  obtain ⟨hd, hs⟩ : hD h = 0 ∧ hS h = 0 := by simpa using hz
  exact hi.of_eq (hR_eq_iff.2 ⟨m.top, m.op, hd, hs, hk⟩)

theorem gives_dSK {f : Reg → Reg → BitVec 2 → Instr}
    (hf : ∀ d r k, EncodesHalf (f d r k) (hR op (Reg.bits d) (Reg.bits r) k)) : Gives (dSK f h) (.half h) :=
  gives_some ((hf _ _ _).of_eq (hR_eq_iff.2 ⟨m.top, m.op, rfl, rfl, rfl⟩))

theorem gives_dSI {f : Reg → BitVec 6 → Instr} (hf : ∀ d imm, EncodesHalf (f d imm) (hI op (Reg.bits d) imm)) :
    Gives (dSI f h) (.half h) :=
  gives_some ((hf _ _).of_eq (hI_eq_iff.2 ⟨m.top, m.op, rfl, rfl⟩))

/-- A short opcode whose four functions are told apart by the last two bits. -/
theorem gives_dS_four {f0 f1 f2 f3 : Reg → Reg → Instr}
    (h0 : ∀ d r, EncodesHalf (f0 d r) (hR op (Reg.bits d) (Reg.bits r) 0))
    (h1 : ∀ d r, EncodesHalf (f1 d r) (hR op (Reg.bits d) (Reg.bits r) 1))
    (h2 : ∀ d r, EncodesHalf (f2 d r) (hR op (Reg.bits d) (Reg.bits r) 2))
    (h3 : ∀ d r, EncodesHalf (f3 d r) (hR op (Reg.bits d) (Reg.bits r) 3)) :
    Gives (match (hK h).toNat with | 0 => dS f0 h | 1 => dS f1 h | 2 => dS f2 h | _ => dS f3 h) (.half h) := by
  split
  case h_1 hk => exact gives_dS m (eq_ofNat_of_toNat_eq hk) h0
  case h_2 hk => exact gives_dS m (eq_ofNat_of_toNat_eq hk) h1
  case h_3 hk => exact gives_dS m (eq_ofNat_of_toNat_eq hk) h2
  case h_4 n0 n1 n2 => exact gives_dS m (eq_three_of_toNat_ne n0 n1 n2) h3

end

theorem gives_decode16 (h : Half) : Gives (decode16 h) (.half h) := by
  refine gives_need fun top => ?_
  have short {n : Nat} (e : (hOp h).toNat = n) : HasShort (BitVec.ofNat 5 n) h := ⟨by simpa using top, eq_ofNat_of_toNat_eq e⟩
  split
  case h_1 e | h_2 e | h_3 e | h_4 e =>
    exact gives_dS_four (short e) (fun _ _ => ⟨rfl, rfl⟩) (fun _ _ => ⟨rfl, rfl⟩) (fun _ _ => ⟨rfl, rfl⟩) fun _ _ => ⟨rfl, rfl⟩
  case h_5 e =>
    split
    case h_1 hk => exact gives_dS (short e) (eq_ofNat_of_toNat_eq hk) fun _ _ => ⟨rfl, rfl⟩
    case h_2 hk | h_3 hk => exact gives_dS1 (short e) (eq_ofNat_of_toNat_eq hk) fun _ => ⟨rfl, rfl⟩
    case h_4 n0 n1 n2 => exact gives_dS0 (short e) (eq_three_of_toNat_ne n0 n1 n2) ⟨rfl, rfl⟩
  case h_6 e | h_7 e | h_8 e | h_9 e | h_10 e => exact gives_dSK (short e) fun _ _ _ => ⟨rfl, rfl⟩
  case h_11 e =>
    split
    case h_1 hk | h_2 hk | h_3 hk => exact gives_dS0 (short e) (eq_ofNat_of_toNat_eq hk) ⟨rfl, rfl⟩
    case h_4 n0 n1 n2 => exact gives_dS0 (short e) (eq_three_of_toNat_ne n0 n1 n2) ⟨rfl, rfl⟩
  case h_12 e =>
    split
    case h_1 hk =>
      exact gives_need fun hs => gives_some (EncodesHalf.of_eq ⟨rfl, rfl⟩
        (hR_eq_iff.2 ⟨(short e).top, (short e).op, rfl, by simpa using hs, eq_ofNat_of_toNat_eq hk⟩))
    case h_2 hk | h_3 hk => exact gives_dS1 (short e) (eq_ofNat_of_toNat_eq hk) fun _ => ⟨rfl, rfl⟩
    case h_4 n0 n1 n2 => exact gives_dS0 (short e) (eq_three_of_toNat_ne n0 n1 n2) ⟨rfl, rfl⟩
  case h_13 e =>
    exact gives_need fun hk => gives_map fun _ hd => EncodesHalf.of_eq ⟨rfl, rfl⟩
      (hR_eq_iff.2 ⟨(short e).top, (short e).op, PReg.ofBits4_eq_some.1 hd, rfl, by simpa using hk⟩)
  case h_14 e =>
    exact gives_need fun hd => gives_map fun _ hc => EncodesHalf.of_eq ⟨rfl, rfl⟩
      (hR_eq_iff.2 ⟨(short e).top, (short e).op, by simpa using hd, rfl, TLCounter.ofBits_eq_some.1 hc⟩)
  case h_15 e | h_16 e | h_17 e | h_18 e | h_19 e | h_20 e | h_21 e => exact gives_dSI (short e) fun _ _ => ⟨rfl, rfl⟩
  case h_22 e | h_23 e =>
    exact gives_some (EncodesHalf.of_eq ⟨rfl, rfl⟩ (hJ_eq_iff.2 ⟨(short e).top, (short e).op, rfl⟩))
  case h_24 => exact gives_none

/-- Settles O54: a decoder gives an instruction only from the fields that its encoding is made of. -/
theorem encodeOfDecode : Obligations.EncodeOfDecode := by
  unfold Obligations.EncodeOfDecode
  exact ⟨fun w i h => reads_decode32 w i h, fun h i e => gives_decode16 h i e⟩

end Sys2Proof
end

section
/-! PROOFS (O53). What an instruction is encoded as decodes to it: the fields of its format are read back from the word, and the decoder of
its major opcode finds in them the function and the operands. -/

namespace Sys2Proof

theorem topBit_zero : topBit 0#4 = some false := rfl
theorem topBit_eight : topBit 8#4 = some true := rfl

/-! ### The fields of the word that a format builds -/

theorem wA_fields {op d a b fn q w} (h : Encoded.word (wA op d a b fn q) = .word w) :
    HasMajor op w ∧ fD w = d ∧ fA w = a ∧ fB w = b ∧ fFn w = fn ∧ fQ w = q :=
  have f := wA_eq_iff.1 (Encoded.word.inj h)
  ⟨⟨f.1, f.2.1⟩, f.2.2⟩

theorem wI_fields {op d a imm w} (h : Encoded.word (wI op d a imm) = .word w) :
    HasMajor op w ∧ fD w = d ∧ fA w = a ∧ fI17 w = imm :=
  have f := wI_eq_iff.1 (Encoded.word.inj h)
  ⟨⟨f.1, f.2.1⟩, f.2.2⟩

theorem wIQ_fields {op d a imm sel q w} (h : Encoded.word (wIQ op d a imm sel q) = .word w) :
    HasMajor op w ∧ fD w = d ∧ fA w = a ∧ fI10 w = imm ∧ fSel w = sel ∧ fQ w = q :=
  have f := wIQ_eq_iff.1 (Encoded.word.inj h)
  ⟨⟨f.1, f.2.1⟩, f.2.2⟩

theorem wM_fields {op d a sc o imm w} (h : Encoded.word (wM op d a sc o imm) = .word w) :
    HasMajor op w ∧ fD w = d ∧ fA w = a ∧ fScope w = sc ∧ fOrder w = o ∧ fI12 w = imm :=
  have f := wM_eq_iff.1 (Encoded.word.inj h)
  ⟨⟨f.1, f.2.1⟩, f.2.2⟩

theorem wE_fields {op d a e g fn gp w} (h : Encoded.word (wE op d a e g fn gp) = .word w) :
    HasMajor op w ∧ fD w = d ∧ fA w = a ∧ fE w = e ∧ fG w = g ∧ fFnE w = fn ∧ fGp w = gp ∧
      fZ w = 0 :=
  have f := wE_eq_iff.1 (Encoded.word.inj h)
  ⟨⟨f.1, f.2.1⟩, f.2.2⟩

theorem wB_fields {op p neg form disp w} (h : Encoded.word (wB op p neg form disp) = .word w) :
    HasMajor op w ∧ fBP w = p ∧ fBNeg w = neg ∧ fBForm w = form ∧ fDisp18 w = disp :=
  have f := wB_eq_iff.1 (Encoded.word.inj h)
  ⟨⟨f.1, f.2.1⟩, f.2.2⟩

theorem wJ_fields {op form disp w} (h : Encoded.word (wJ op form disp) = .word w) :
    HasMajor op w ∧ fJForm w = form ∧ fDisp22 w = disp :=
  have f := wJ_eq_iff.1 (Encoded.word.inj h)
  ⟨⟨f.1, f.2.1⟩, f.2.2⟩

/-! ### The decoder of each major opcode (R44) -/

section
variable {w : InstrWord}

theorem decode32_eq_dec00 (m : HasMajor 0x00 w) : decode32 w = dec00 w := by simp [decode32, m.top, m.op]
theorem decode32_eq_dec01 (m : HasMajor 0x01 w) : decode32 w = dec01 w := by simp [decode32, m.top, m.op]
theorem decode32_eq_dec02 (m : HasMajor 0x02 w) : decode32 w = dec02 w := by simp [decode32, m.top, m.op]
theorem decode32_eq_dec03 (m : HasMajor 0x03 w) : decode32 w = dec03 w := by simp [decode32, m.top, m.op]
theorem decode32_eq_dec04 (m : HasMajor 0x04 w) : decode32 w = dec04 w := by simp [decode32, m.top, m.op]
theorem decode32_eq_dec05 (m : HasMajor 0x05 w) : decode32 w = dec05 w := by simp [decode32, m.top, m.op]
theorem decode32_eq_dec10 (m : HasMajor 0x10 w) : decode32 w = dec10 w := by simp [decode32, m.top, m.op]
theorem decode32_eq_dec11 (m : HasMajor 0x11 w) : decode32 w = dec11 w := by simp [decode32, m.top, m.op]
theorem decode32_eq_dec12 (m : HasMajor 0x12 w) : decode32 w = dec12 w := by simp [decode32, m.top, m.op]
theorem decode32_eq_dec13 (m : HasMajor 0x13 w) : decode32 w = dec13 w := by simp [decode32, m.top, m.op]
theorem decode32_eq_dec14 (m : HasMajor 0x14 w) : decode32 w = dec14 w := by simp [decode32, m.top, m.op]
theorem decode32_eq_dec18 (m : HasMajor 0x18 w) : decode32 w = dec18 w := by simp [decode32, m.top, m.op]
theorem decode32_eq_dec19 (m : HasMajor 0x19 w) : decode32 w = dec19 w := by simp [decode32, m.top, m.op]
theorem decode32_eq_dec1A (m : HasMajor 0x1A w) : decode32 w = dec1A w := by simp [decode32, m.top, m.op]
theorem decode32_eq_dec1B (m : HasMajor 0x1B w) : decode32 w = dec1B w := by simp [decode32, m.top, m.op]
theorem decode32_eq_dec1C (m : HasMajor 0x1C w) : decode32 w = dec1C w := by simp [decode32, m.top, m.op]
theorem decode32_eq_dec1D (m : HasMajor 0x1D w) : decode32 w = dec1D w := by simp [decode32, m.top, m.op]
theorem decode32_eq_dec1E (m : HasMajor 0x1E w) : decode32 w = dec1E w := by simp [decode32, m.top, m.op]
theorem decode32_eq_dec1F (m : HasMajor 0x1F w) : decode32 w = dec1F w := by simp [decode32, m.top, m.op]
theorem decode32_eq_dec20 (m : HasMajor 0x20 w) : decode32 w = dec20 w := by simp [decode32, m.top, m.op]
theorem decode32_eq_dec21 (m : HasMajor 0x21 w) : decode32 w = dec21 w := by simp [decode32, m.top, m.op]
theorem decode32_eq_dec22 (m : HasMajor 0x22 w) : decode32 w = dec22 w := by simp [decode32, m.top, m.op]
theorem decode32_eq_dec23 (m : HasMajor 0x23 w) : decode32 w = dec23 w := by simp [decode32, m.top, m.op]
theorem decode32_eq_dec24 (m : HasMajor 0x24 w) : decode32 w = dec24 w := by simp [decode32, m.top, m.op]
theorem decode32_eq_dec25 (m : HasMajor 0x25 w) : decode32 w = dec25 w := by simp [decode32, m.top, m.op]
theorem decode32_eq_dec26 (m : HasMajor 0x26 w) : decode32 w = dec26 w := by simp [decode32, m.top, m.op]
theorem decode32_eq_dec28 (m : HasMajor 0x28 w) : decode32 w = dec28 w := by simp [decode32, m.top, m.op]
theorem decode32_eq_dec29 (m : HasMajor 0x29 w) : decode32 w = dec29 w := by simp [decode32, m.top, m.op]
theorem decode32_eq_dec2A (m : HasMajor 0x2A w) : decode32 w = dec2A w := by simp [decode32, m.top, m.op]
theorem decode32_eq_dec2B (m : HasMajor 0x2B w) : decode32 w = dec2B w := by simp [decode32, m.top, m.op]
theorem decode32_eq_dec2C (m : HasMajor 0x2C w) : decode32 w = dec2C w := by simp [decode32, m.top, m.op]
theorem decode32_eq_dec2D (m : HasMajor 0x2D w) : decode32 w = dec2D w := by simp [decode32, m.top, m.op]
theorem decode32_eq_dec2E (m : HasMajor 0x2E w) : decode32 w = dec2E w := by simp [decode32, m.top, m.op]
theorem decode32_eq_dec30 (m : HasMajor 0x30 w) : decode32 w = dec30 w := by simp [decode32, m.top, m.op]
theorem decode32_eq_dec31 (m : HasMajor 0x31 w) : decode32 w = dec31 w := by simp [decode32, m.top, m.op]
theorem decode32_eq_dec34 (m : HasMajor 0x34 w) : decode32 w = dec34 w := by simp [decode32, m.top, m.op]
theorem decode32_eq_dec35 (m : HasMajor 0x35 w) : decode32 w = dec35 w := by simp [decode32, m.top, m.op]

end

/-- R33 and R37 to R48: a well-formed word decodes to the instruction that it encodes. Each group of instructions shares a format, a
major opcode and the way its function field is cut. -/
theorem decode32_of_encode {i w} (h : encode i = .word w) (hw : i.WellFormed) : decode32 w = some i := by
  cases i with
  | add d a b q | sub d a b q | and d a b q | or d a b q | xor d a b q | andn d a b q | shl d a b q | shr d a b q
  | sar d a b q | min d a b q | max d a b q | minu d a b q | maxu d a b q | sel d a b q | clz d a q | ctz d a q
  | popc d a q =>
    obtain ⟨m, f⟩ := wA_fields h
    rw [decode32_eq_dec00 m]
    simp [dec00, d3, d2, f]
  | addi d a imm q | andi d a imm q | ori d a imm q | xori d a imm q =>
    obtain ⟨m, f⟩ := wIQ_fields h
    rw [decode32_eq_dec01 m]
    simp [dec01, dIQ, f]
  | shli d a sh | shri d a sh | sari d a sh =>
    obtain ⟨m, hd, ha, himm⟩ := wI_fields h
    obtain ⟨hfn, hsh, h2, h0⟩ := fI17_eq_3_6_6_2.1 himm
    have low : w.extractLsb' 0 8 = 0#8 := (extract_eq_append 0 6 2).2 ⟨h2, h0⟩
    rw [decode32_eq_dec02 m]
    simp [dec02, dShift, hd, ha, hfn, hsh, low]
  | bfx d a l n | bfxu d a l n | bfi d a l n =>
    obtain ⟨m, f⟩ := wI_fields h
    rw [fI17_eq_3_6_6_2] at f
    rw [decode32_eq_dec02 m]
    simp [dec02, dField, f, hw]
  | movhi d imm | lea d imm =>
    obtain ⟨m, f⟩ := wI_fields h
    rw [decode32_eq_dec03 m]
    simp [dec03, f]
  | pcmp d a b c q | pcmpi d a imm c q | plog d a b f q | pmovPp d a q | pmovPg d a q | pmovGp d a q =>
    obtain ⟨m, f⟩ := wA_fields h
    rw [fFn_eq_2_6] at f
    rw [decode32_eq_dec04 m]
    simp [dec04, decPcmp, decPcmpi, decPlog, decPmovPP, decPmovPG, decPmovGP, f]
  | mul d a b q | mulh d a b q | mulhu d a b q | div d a b q | divu d a b q | mod d a b q | modu d a b q =>
    obtain ⟨m, f⟩ := wA_fields h
    rw [decode32_eq_dec05 m]
    simp [dec05, d3, f]
  | ldb d b sc o imm | ldbu d b sc o imm | ldh d b sc o imm | ldhu d b sc o imm | ldw d b sc o imm | ldwu d b sc o imm
  | ldd d b sc o imm =>
    obtain ⟨m, f⟩ := wM_fields h
    rw [fI12_eq_11_1] at f
    simp [decode32, uBit, dLoad, m.top, m.op, f]
  | stb s b sc o imm | sth s b sc o imm | stw s b sc o imm | std s b sc o imm =>
    obtain ⟨m, f⟩ := wM_fields h
    simp [decode32, dStore, m.top, m.op, f]
  | tld d b sc o e x | tst s b sc o e x =>
    obtain ⟨m, f⟩ := wM_fields h
    rw [fI12_eq_1_3_1_7] at f
    rw [decode32_eq_dec10 m]
    simp [dec10, f]
  | amoAdd d b sc o s x | amoAnd d b sc o s x | amoOr d b sc o s x | amoXor d b sc o s x | amoMin d b sc o s x
  | amoMax d b sc o s x | amoMinu d b sc o s x | amoMaxu d b sc o s x | amoSwap d b sc o s x | cas d b sc o s x =>
    obtain ⟨m, f⟩ := wM_fields h
    rw [fI12_eq_4_4_1_3] at f
    rw [decode32_eq_dec11 m]
    simp [dec11, dAmo, f]
  | accAdd b sc o s x | accMin b sc o s x | accMax b sc o s x | accOr b sc o s x | accFadd32 b sc o s
  | accLadd32 b sc o s =>
    obtain ⟨m, f⟩ := wM_fields h
    rw [fI12_eq_4_4_1_3] at f
    rw [decode32_eq_dec12 m]
    simp [dec12, dAcc, acc32, f]
  | xset e imm =>
    obtain ⟨m, hd, ha, himm⟩ := wI_fields h
    rw [fI17_eq_2_15] at himm
    have high := (extract_eq_append 17 1 3 (x := 0#1) (y := 0#3)).1 ha
    rw [decode32_eq_dec13 m]
    simp [dec13, hd, himm, high]
  | xsetSh e imm =>
    obtain ⟨m, hd, ha, himm⟩ := wI_fields h
    rw [fI17_eq_2_15] at himm
    have high := (extract_eq_append 17 1 3 (x := 1#1) (y := 0#3)).1 ha
    rw [decode32_eq_dec13 m]
    simp [dec13, hd, himm, high]
  | xld e a imm | xst e a imm | xmovEg e a | xmovGe d e =>
    obtain ⟨m, f⟩ := wI_fields h
    rw [fI17_eq_2_15] at f
    rw [decode32_eq_dec13 m]
    simp [dec13, f]
  | bankmode d a b q | linewb a q | lineinv a q | pin d a q | unpin a q =>
    obtain ⟨m, f⟩ := wA_fields h
    rw [decode32_eq_dec14 m]
    simp [dec14, d3, dA1, d2, f]
  | bc p n s t d =>
    obtain ⟨m, f⟩ := wB_fields h
    rw [fBForm_eq_2_1] at f
    rw [decode32_eq_dec18 m]
    simp [dec18, f]
  | b s d | call s d =>
    obtain ⟨m, f⟩ := wJ_fields h
    rw [fJForm_eq_2_1] at f
    rw [decode32_eq_dec19 m]
    simp [dec19, f]
  | jmp a s q | calli a s q | ret s q =>
    obtain ⟨m, f⟩ := wA_fields h
    rw [fFn_eq_3_2_3] at f
    rw [decode32_eq_dec1A m]
    simp [dec1A, f]
  | loop g r e =>
    obtain ⟨m, f⟩ := wJ_fields h
    rw [fDisp22_eq_4_6_1_11] at f
    rw [decode32_eq_dec1B m]
    simp [dec1B, f, hw]
  | loopi c r e =>
    obtain ⟨m, f⟩ := wJ_fields h
    rw [fDisp22_eq_10_1_11] at f
    rw [decode32_eq_dec1B m]
    simp [dec1B, f, hw]
  | lbrk p n s =>
    obtain ⟨m, f⟩ := wJ_fields h
    rw [fDisp22_eq_3_1_2_16] at f
    rw [decode32_eq_dec1B m]
    simp [dec1B, f]
  | hint m b =>
    obtain ⟨m, f⟩ := wJ_fields h
    rw [fDisp22_eq_2_16_4] at f
    rw [decode32_eq_dec1B m]
    simp [dec1B, f]
  | nop =>
    obtain ⟨m, f⟩ := wJ_fields h
    rw [decode32_eq_dec1B m]
    simp [dec1B, f]
  | start d imm | join d | exit | yield | sleep d =>
    obtain ⟨m, f⟩ := wI_fields h
    rw [decode32_eq_dec1C m]
    simp [dec1C, f]
  | waitev d m =>
    obtain ⟨m, f⟩ := wI_fields h
    rw [fI17_eq_11_6] at f
    rw [decode32_eq_dec1C m]
    simp [dec1C, f, hw]
  | trap c =>
    obtain ⟨m, f⟩ := wI_fields h
    rw [fI17_eq_9_8] at f
    rw [decode32_eq_dec1D m]
    simp [dec1D, f]
  | rett | halt =>
    obtain ⟨m, f⟩ := wI_fields h
    rw [decode32_eq_dec1D m]
    simp [dec1D, f]
  | mfs d n | mts d n =>
    obtain ⟨m, f⟩ := wI_fields h
    rw [fI17_eq_5_12] at f
    rw [decode32_eq_dec1D m]
    simp [dec1D, f]
  | ctxsave d n =>
    obtain ⟨m, f⟩ := wI_fields h
    rw [fI17_eq_13_4] at f
    rw [decode32_eq_dec1D m]
    simp [dec1D, f]
  | ctxload d r n =>
    obtain ⟨m, f⟩ := wI_fields h
    rw [fI17_eq_12_1_4] at f
    rw [decode32_eq_dec1D m]
    simp [dec1D, f]
  | claim d a q | give q | pquery d a q =>
    obtain ⟨m, f⟩ := wA_fields h
    rw [decode32_eq_dec1E m]
    simp [dec1E, d2, d0, f]
  | tnow d x | twaitu e x =>
    obtain ⟨m, f⟩ := wE_fields h
    rw [fFnE_eq_4_3_1] at f
    rw [decode32_eq_dec1F m]
    simp [dec1F, fSelE, noGuard, f]
  | pko a e u =>
    obtain ⟨m, f⟩ := wE_fields h
    rw [fFnE_eq_4_3_1] at f
    rw [decode32_eq_dec20 m]
    simp [dec20, fSelE, noGuard, f, hw]
  | pka a n =>
    obtain ⟨m, f⟩ := wE_fields h
    rw [fFnE_eq_4_1_3] at f
    rw [decode32_eq_dec20 m]
    simp [dec20, fSelE, noGuard, f]
  | pks =>
    obtain ⟨m, f⟩ := wE_fields h
    rw [fFnE_eq_4_4] at f
    rw [decode32_eq_dec20 m]
    simp [dec20, fSelE, noGuard, f]
  | rxpop d f | rxpeek d f =>
    obtain ⟨m, f⟩ := wE_fields h
    rw [fFnE_eq_4_3_1] at f
    rw [decode32_eq_dec20 m]
    simp [dec20, fSelE, noGuard, f]
  | rld d a e g s | fetchto d a e g s =>
    obtain ⟨m, f⟩ := wE_fields h
    rw [fFnE_eq_4_4] at f
    have wf : g.wf = true := hw
    rw [decode32_eq_dec21 m]
    simp [dec21, fSelE, dRemote, f, wf]
  | dropwin d a e k =>
    obtain ⟨m, f⟩ := wE_fields h
    rw [fFnE_eq_4_2_2] at f
    rw [decode32_eq_dec21 m]
    simp [dec21, fSelE, noGuard, f]
  | twany d a | twall d a | tffr d a | tclr a =>
    obtain ⟨m, f⟩ := wE_fields h
    rw [fFnE_eq_4_4] at f
    rw [decode32_eq_dec22 m]
    simp [dec22, fSelE, noGuard, f]
  | tlwait a c =>
    obtain ⟨m, f⟩ := wE_fields h
    rw [fFnE_eq_4_2_2] at f
    rw [decode32_eq_dec22 m]
    simp [dec22, fSelE, noGuard, f]
  | tlread d i c =>
    obtain ⟨m, f⟩ := wE_fields h
    rw [fFnE_eq_4_1_1_2] at f
    rw [decode32_eq_dec22 m]
    simp [dec22, fSelE, noGuard, f]
  | gset a g n =>
    obtain ⟨m, hd, ha, he, hg, hfn, f⟩ := wE_fields h
    have low := (fFnE_eq_4_4 (x := 0#4) (y := 0#4)).1 hfn
    rw [decode32_eq_dec23 m]
    simp [dec23, fSelE, hd, ha, he, hg, f, hw, low]
  | gclr d g =>
    obtain ⟨m, f⟩ := wE_fields h
    rw [fFnE_eq_4_4] at f
    rw [decode32_eq_dec23 m]
    simp [dec23, fSelE, f, hw]
  | mlda d a e g k | mldb d a e g k =>
    obtain ⟨m, f⟩ := wE_fields h
    rw [fFnE_eq_4_3_1] at f
    have wf : g.wf = true := hw
    rw [decode32_eq_dec24 m]
    simp [dec24, fSelE, dLoadTile, f, wf]
  | mmac d t x kb ka g | mmul d t x kb ka g | mmr d t x kb ka g =>
    obtain ⟨m, f⟩ := wE_fields h
    rw [fFnE_eq_4_1_1_1_1] at f
    have wf : g.wf = true := hw
    rw [decode32_eq_dec24 m]
    simp [dec24, fSelE, dMul, f, wf]
  | mzero d t x g =>
    obtain ⟨m, f⟩ := wE_fields h
    rw [fFnE_eq_4_1_1_2] at f
    have wf : g.wf = true := hw
    rw [decode32_eq_dec24 m]
    simp [dec24, fSelE, decMzero, f, wf]
  | mcfgOwn d a g =>
    obtain ⟨m, hd, ha, he, hg, hfn, f⟩ := wE_fields h
    have low := (fFnE_eq_4_2_2 (x := 6#4) (y := 0#2) (z := 0#2)).1 hfn
    have wf : g.wf = true := hw
    rw [decode32_eq_dec24 m]
    simp [dec24, fSelE, decMcfg, hd, ha, he, hg, f, wf, low]
  | mcfgFree d a g =>
    obtain ⟨m, hd, ha, he, hg, hfn, f⟩ := wE_fields h
    have low := (fFnE_eq_4_2_2 (x := 6#4) (y := 0#2) (z := 1#2)).1 hfn
    have wf : g.wf = true := hw
    rw [decode32_eq_dec24 m]
    simp [dec24, fSelE, decMcfg, hd, ha, he, hg, f, wf, low]
  | mcfgQuery d g =>
    obtain ⟨m, hd, ha, he, hg, hfn, f⟩ := wE_fields h
    have low := (fFnE_eq_4_2_2 (x := 6#4) (y := 0#2) (z := 2#2)).1 hfn
    have wf : g.wf = true := hw
    rw [decode32_eq_dec24 m]
    simp [dec24, fSelE, decMcfg, hd, ha, he, hg, f, wf, low]
  | mrda d t e g r =>
    obtain ⟨m, f⟩ := wE_fields h
    rw [fFnE_eq_4_3_1] at f
    have wf : g.wf = true := hw
    rw [decode32_eq_dec25 m]
    simp [dec25, fSelE, decMrda, f, wf]
  | mscl d t x m g =>
    obtain ⟨m, f⟩ := wE_fields h
    rw [fFnE_eq_4_1_1_2] at f
    have wf : g.wf = true := hw
    rw [decode32_eq_dec25 m]
    simp [dec25, fSelE, decMscl, f, wf]
  | mjpoll d a | mjwait a =>
    obtain ⟨m, f⟩ := wE_fields h
    rw [fFnE_eq_4_4] at f
    rw [decode32_eq_dec25 m]
    simp [dec25, fSelE, noGuard, f]
  | vclaim d a q | vrel q | vlen d a q =>
    obtain ⟨m, f⟩ := wA_fields h
    rw [fFn_eq_4_4] at f
    rw [decode32_eq_dec26 m]
    simp [dec26, low4, fSel4, d2, d0, f]
  | vadd d a b m q | vsub d a b m q | vmul d a b m q =>
    obtain ⟨m, f⟩ := wA_fields h
    rw [fFn_eq_4_2_2] at f
    rw [decode32_eq_dec28 m]
    simp [dec28, fSel4, dVM, f]
  | vmin d a b u q | vmax d a b u q | vshr d a b u q =>
    obtain ⟨m, f⟩ := wA_fields h
    rw [append_append_4_1_1, fFn_eq_4_2_2] at f
    rw [decode32_eq_dec28 m]
    simp [dec28, fSel4, dVM, f]
  | vand d a b q | vor d a b q | vxor d a b q | vshl d a b q =>
    obtain ⟨m, f⟩ := wA_fields h
    rw [fFn_eq_4_4] at f
    rw [decode32_eq_dec28 m]
    simp [dec28, fSel4, dV3, d3, low4, f]
  | vfadd d a b f r q | vfsub d a b f r q | vfmul d a b f r q | vfma d a b f r q | vfmax d a b f q | vfmin d a b f q
  | vfabs d a f q | vfneg d a f q =>
    obtain ⟨m, f⟩ := wA_fields h
    rw [fFn_eq_4_1_3] at f
    rw [decode32_eq_dec29 m]
    simp [dec29, fSel4, dF, dF0, dF1, f]
  | vexp d a q | vlog d a q | vrcp d a q | vrsq d a q | vsig d a q | vtanh d a q =>
    obtain ⟨m, f⟩ := wA_fields h
    rw [fFn_eq_4_4] at f
    rw [decode32_eq_dec2A m]
    simp [dec2A, fSel4, dV2, d2, low4, f]
  | vld d b sc o i | vst s b sc o i =>
    obtain ⟨m, f⟩ := wM_fields h
    rw [fI12_eq_3_9] at f
    rw [decode32_eq_dec2B m]
    simp [dec2B, dVLoad, dVStore, f]
  | vlds d b sc o x | vsts d b sc o x | vgath d b sc o x | vscat d b sc o x =>
    obtain ⟨m, f⟩ := wM_fields h
    rw [append_append_3_4_5, fI12_eq_3_9] at f
    rw [decode32_eq_dec2B m]
    simp [dec2B, dVLoad, dVStore, f]
  | vcmp d a b c q | vsel d a b q | vperm d a b q | vbcast d a q | vbcastE d a k q | vslideUp d a b q | vslideDn d a b q
  | vrsum d a k q =>
    obtain ⟨m, f⟩ := wA_fields h
    rw [fFn_eq_4_4] at f
    rw [decode32_eq_dec2C m]
    simp [dec2C, fSel4, dVK, dV3, d3, low4, topBit_zero, topBit_eight, f]
  | vrmax d a i q =>
    obtain ⟨m, f⟩ := wA_fields h
    rw [append_append_4_1_3, fFn_eq_4_4] at f
    rw [decode32_eq_dec2C m]
    simp [dec2C, fSel4, dVK, f]
  | vcvt d a r c q =>
    obtain ⟨m, f⟩ := wA_fields h
    rw [fFn_eq_4_4] at f
    rw [decode32_eq_dec2D m]
    simp [dec2D, fSel4, dVK, f]
  | vladd d a b f q | vlmul d a b f q =>
    obtain ⟨m, f⟩ := wA_fields h
    rw [fFn_eq_4_1_3] at f
    rw [decode32_eq_dec2E m]
    simp [dec2E, fSel4, dL, f]
  | vlcvt d a c q =>
    obtain ⟨m, f⟩ := wA_fields h
    rw [fFn_eq_4_4] at f
    rw [decode32_eq_dec2E m]
    simp [dec2E, fSel4, dVK, f]
  | fadd d a b f r q | fsub d a b f r q | fmul d a b f r q | ffma d a b f r q | fdiv d a b f r q | fsqrt d a f r q
  | fmin d a b f q | fmax d a b f q | fcmp d a b f c q | fclass d a f q =>
    obtain ⟨m, f⟩ := wA_fields h
    rw [fFn_eq_4_1_3] at f
    rw [decode32_eq_dec30 m]
    simp [dec30, fSel4, dF, decFsqrt, dF0, decFcmp, dF1, f]
  | fcvt d a r c q =>
    obtain ⟨m, f⟩ := wA_fields h
    rw [fFn_eq_4_4] at f
    rw [decode32_eq_dec30 m]
    simp [dec30, fSel4, dVK, f]
  | ladd d a b f q | lsub d a b f q | lmul d a b f q | ldiv d a b f q | lcmp d a b f c q | lclass d a f q =>
    obtain ⟨m, f⟩ := wA_fields h
    rw [fFn_eq_4_1_3] at f
    rw [decode32_eq_dec31 m]
    simp [dec31, fSel4, dL, decLcmp, decLclass, f]
  | lcvt d a r c q =>
    obtain ⟨m, f⟩ := wA_fields h
    rw [fFn_eq_4_4] at f
    rw [decode32_eq_dec31 m]
    simp [dec31, fSel4, dVK, f, hw]
  | launch d a q | spawn d a q | tedge a b q =>
    obtain ⟨m, f⟩ := wA_fields h
    rw [fFn_eq_4_4] at f
    rw [decode32_eq_dec34 m]
    simp [dec34, low4, fSel4, d2, decTedge, f]
  | tinfo d i q =>
    obtain ⟨m, f⟩ := wA_fields h
    rw [fFn_eq_4_4] at f
    rw [decode32_eq_dec34 m]
    simp [dec34, low4, fSel4, decTinfo, f, hw]
  | boost d a q | brel q =>
    obtain ⟨m, f⟩ := wA_fields h
    rw [fFn_eq_4_4] at f
    rw [decode32_eq_dec35 m]
    simp [dec35, low4, fSel4, d2, d0, f]
  | aflush =>
    obtain rfl := Encoded.word.inj h
    rfl
  | _ => cases h

theorem decode16_of_encode {i h} (e : encode i = .half h) : decode16 h = some i := by
  cases i with
  | addS d s | subS d s | andS d s | orS d s | xorS d s | andnS d s | shlS d s | shrS d s | sarS d s | minS d s | maxS d s
  | mulS d s | minuS d s | maxuS d s | clzS d s | ctzS d s | popcS d s =>
    have f := hR_eq_iff.1 (Encoded.half.inj e)
    simp [decode16, dS, f]
  | jmpS s | calliS s | mjwaitS s | joinS s =>
    have f := hR_eq_iff.1 (Encoded.half.inj e)
    simp [decode16, dS1, f]
  | retS | nopS | exitS | yieldS | giveS | vrelS =>
    have f := hR_eq_iff.1 (Encoded.half.inj e)
    simp [decode16, dS0, f]
  | ldwS d s k | ldwuS d s k | lddS d s k | stwS d s k | stdS d s k =>
    have f := hR_eq_iff.1 (Encoded.half.inj e)
    simp [decode16, dSK, f]
  | tnowS d =>
    have f := hR_eq_iff.1 (Encoded.half.inj e)
    simp [decode16, f]
  | xmovS r s =>
    have f := hR_eq_iff.1 (Encoded.half.inj e)
    simp [decode16, f]
  | tlwaitS s c =>
    have f := hR_eq_iff.1 (Encoded.half.inj e)
    simp [decode16, f]
  | addiS d n | andiS d n | oriS d n | xoriS d n | shliS d n | shriS d n | sariS d n =>
    have f := hI_eq_iff.1 (Encoded.half.inj e)
    simp [decode16, dSI, f]
  | bS d | callS d =>
    have f := hJ_eq_iff.1 (Encoded.half.inj e)
    simp [decode16, f]
  | _ => cases e

/-! ### The bytes of an encoding (R33) -/

theorem halfOf_bytes (h : Half) : halfOf (h.extractLsb' 0 8) (h.extractLsb' 8 8) = h := by
  have cut : h.extractLsb' 0 16 = h.extractLsb' 8 8 ++ h.extractLsb' 0 8 := (extract_eq_append 0 8 8).2 ⟨rfl, rfl⟩
  rw [halfOf, ← cut, BitVec.extractLsb'_eq_self]

theorem top_of_decode16 {h : Half} {i : Instr} (e : decode16 h = some i) : h.extractLsb' 15 1 = 0#1 := by
  unfold decode16 at e
  simpa using (need_eq_some.1 e).1

theorem top_of_decode32 {w : InstrWord} {i : Instr} (e : decode32 w = some i) : w.extractLsb' 31 1 = 1#1 := by
  unfold decode32 at e
  simpa using (need_eq_some.1 e).1

theorem decodeBytes_half {h : Half} {i : Instr} (e : decode16 h = some i) (rest : List Byte) :
    decodeBytes ((Encoded.half h).bytes ++ rest) = some (i, rest) := by
  simp [decodeBytes, Encoded.bytes, halfOf_bytes, top_of_decode16 e, e]

theorem decodeBytes_word {w : InstrWord} {i : Instr} (e : decode32 w = some i) (rest : List Byte) :
    decodeBytes ((Encoded.word w).bytes ++ rest) = some (i, rest) := by
  have first : halfOf (w.extractLsb' 16 8) (w.extractLsb' 24 8) = w.extractLsb' 16 16 :=
    BitVec.extractLsb'_append_extractLsb'_eq_extractLsb' rfl
  have second : halfOf (w.extractLsb' 0 8) (w.extractLsb' 8 8) = w.extractLsb' 0 16 :=
    BitVec.extractLsb'_append_extractLsb'_eq_extractLsb' rfl
  have whole : w.extractLsb' 16 16 ++ w.extractLsb' 0 16 = w := by
    have cut : w.extractLsb' 0 32 = w.extractLsb' 16 16 ++ w.extractLsb' 0 16 := (extract_eq_append 0 16 16).2 ⟨rfl, rfl⟩
    rw [← cut, BitVec.extractLsb'_eq_self]
  have top : (w.extractLsb' 16 16).extractLsb' 15 1 ≠ 0#1 := by
    have h31 : (w.extractLsb' 16 16).extractLsb' 15 1 = w.extractLsb' 31 1 := by
      ext k
      grind
    rw [h31, top_of_decode32 e]
    decide
  simp [decodeBytes, Encoded.bytes, first, second, whole, top, e]

/-- Settles O53: the encoding of every format gives its fields back, and the decoder of its major opcode reads them. -/
theorem decodeOfEncode : Obligations.DecodeOfEncode := by
  intro i rest wf encoded
  cases e : encode i with
  | half h =>
    exact decodeBytes_half (decode16_of_encode e) rest
  | word w =>
    exact decodeBytes_word (decode32_of_encode e wf) rest
  | event => exact absurd e encoded

end Sys2Proof
end

section
/-! PROOFS (O52). Words of the spec's examples. -/

namespace Sys2Proof

/-- Settles O52: each word is the encoding of its instruction, and so decodes to it (O53). -/
theorem decodesSpecWords : Obligations.DecodesSpecWords :=
  ⟨decode32_of_encode rfl rfl, decode32_of_encode rfl rfl, decode16_of_encode rfl, decode32_of_encode rfl rfl,
    decode32_of_encode rfl rfl, decode32_of_encode rfl rfl, decode32_of_encode rfl rfl, decode32_of_encode rfl rfl,
    decode32_of_encode rfl (by decide), decode32_of_encode rfl rfl, decode32_of_encode rfl rfl, decode32_of_encode rfl rfl,
    decode32_of_encode rfl rfl, decode32_of_encode rfl rfl⟩

end Sys2Proof
end

section
/-! PROOFS (O59). What a step does: the turn that stands first in the agenda, the slot that a core offers to its contexts, the fetch of an
instruction, and the bytes that fetch reads on the management core. -/

namespace Sys2Proof.Machine

/-! ### A fetch changes nothing of the spine (R397, R400) -/

@[simp] theorem countView_spine (s : State) (pa : Nat) : (s.countView pa).spine = s.spine := by
  unfold State.countView
  split
  · split <;> rfl
  · rfl

theorem foldl_countView_spine (l : List Nat) (s : State) : (l.foldl State.countView s).spine = s.spine := by
  induction l generalizing s with
  | nil => rfl
  | cons pa l ih => rw [List.foldl_cons, ih, countView_spine]

@[simp] theorem walked_spine (s : State) (c : CoreId) (t : BitVec 12) (va : Word) : (s.walked c t va).spine = s.spine := by
  unfold State.walked State.countWalk
  dsimp only
  split
  · rfl
  · split
    · rfl
    · exact foldl_countView_spine _ _

@[simp] theorem touch_spine (s : State) (c : CoreId) (t : BitVec 12) (va : Word) : (s.touch c t va).spine = s.spine := by
  unfold State.touch
  split
  · split
    · rfl
    · exact walked_spine ..
  · rfl

@[simp] theorem fetch_spine (s : State) (c : CoreId) (va : Word) : (s.fetch c va).1.spine = s.spine := by
  unfold State.fetch
  split
  · exact walked_spine ..
  · next p _ => cases p <;> dsimp only <;> split <;> simp

@[simp] theorem fetchInstr_spine (s : State) (c : CoreId) (pc : Word) : (s.fetchInstr c pc).1.spine = s.spine := by
  have first := fetch_spine s c pc
  unfold State.fetchInstr
  split
  · next e => rwa [e] at first
  · next s1 h e =>
    rw [e] at first
    split
    · exact first
    · have second := fetch_spine s1 c (pc + 2)
      split
      · next e2 => rw [e2] at second; exact second.trans first
      · next e2 => rw [e2] at second; exact second.trans first

/-! ### One issue slot (R120) -/

theorem noteFetch_half (s : State) (h : Half) :
    s.noteFetch (.half h) = s.modMe fun x => { x with fetched := some (x.pc + BitVec.ofNat 64 2) } := rfl

theorem noteFetch_word (s : State) (w : InstrWord) :
    s.noteFetch (.word w) = s.modMe fun x => { x with fetched := some (x.pc + BitVec.ofNat 64 4) } := rfl

theorem length_of_decode16 {h : Half} {i : Instr} (e : decode16 h = some i) : i.length = 2 := by
  rw [Instr.length, (encodeOfDecode.2 h i e).1]
  rfl

theorem length_of_decode32 {w : InstrWord} {i : Instr} (e : decode32 w = some i) : i.length = 4 := by
  rw [Instr.length, (encodeOfDecode.1 w i e).1]
  rfl

theorem noteFetch_of_instr {f : Fetched} {i : Instr} (e : f.instr = some i) (s : State) :
    s.noteFetch f = s.modMe fun x => { x with fetched := some (x.pc + BitVec.ofNat 64 i.length) } := by
  cases f with
  | fault a => cases e
  | half h => rw [noteFetch_half, length_of_decode16 e]
  | word w => rw [noteFetch_word, length_of_decode32 e]

/-- The context is offered the slot for one instruction, not for four that fuse: none of these is held or runs (R251). -/
structure State.NoFused (s : State) : Prop where
  held : s.fusedHeld = false
  refused : exec .fusedSoftmax s = .refused .eventDisabled
  fetches : s.fetchWaits s.cur.core s.me.pc = false

section
variable {s s1 : State} {f : Fetched} (free : s.NoFused) (fetched : s.fetchInstr s.cur.core s.me.pc = (s1, f))
include free fetched

theorem issueHere_of_instr {i : Instr} (e : f.instr = some i) : issueHere s = issueInstr i (s1.noteFetch f) := by
  simp [issueHere, free.held, free.refused, free.fetches, fetched, e]

theorem issueHere_of_half {h : Half} (e : f = .half h) (bad : decode16 h = none) :
    issueHere s = (s1.noteFetch f, some (trap cIllegal (h.setWidth 64) (s1.noteFetch f))) := by
  subst e
  simp [issueHere, free.held, free.refused, free.fetches, fetched, Fetched.instr, bad, Fetched.tval]

theorem issueHere_of_word {w : InstrWord} (e : f = .word w) (bad : decode32 w = none) :
    issueHere s = (s1.noteFetch f, some (trap cIllegal (w.setWidth 64) (s1.noteFetch f))) := by
  subst e
  simp [issueHere, free.held, free.refused, free.fetches, fetched, Fetched.instr, bad, Fetched.tval]

end

theorem issueInstr_next {i : Instr} {s t : State} {x : Ctx} (ready : s.me.waitsFor (sources i) = false)
    (brake : s.brakeHolds i = false) (count : s.me.countIssue i = some x) (run : exec i { s.setMe x with held := false } = .next t)
    (held : t.held = false) : issueInstr i s = (s, some (.next (t.laneWork i))) := by
  rw [issueInstr, if_neg (by simp [ready, brake]), count]
  dsimp only [Option.getD_some]
  rw [run]
  dsimp only
  rw [if_neg (by simp [held]), if_neg (by simp)]

theorem offerAll_skip {c : CoreId} {before : List CtxId} {s : State} (rest : List CtxId)
    (h : ∀ m ∈ before, (s.core c).eligible m = false) : offerAll c (before ++ rest) s = offerAll c rest s := by
  induction before with
  | nil => rfl
  | cons m before ih =>
    rw [List.cons_append, offerAll, if_neg (by simp [h m List.mem_cons_self])]
    exact ih fun k hk => h k (List.mem_cons_of_mem _ hk)

theorem offerAll_next {c : CoreId} {n : CtxId} {rest : List CtxId} {s t : State} (eligible : (s.core c).eligible n = true)
    (boundary : atBoundary (s.turnOf c n) = none) (goes : (s.core c).mustStop n = false)
    (issued : (issueHere (s.turnOf c n)).2 = some (.next t)) :
    offerAll c (n :: rest) s = .next (t.modCore c (·.noteIssue n)) := by
  rw [offerAll, if_pos eligible, boundary]
  dsimp only
  rw [if_neg (by simp [goes])]
  generalize issueHere (s.turnOf c n) = r at issued
  obtain ⟨u, o⟩ := r
  subst issued
  rfl

theorem atBoundary_none {s : State} (stop : exec .contextStop s = .refused .eventDisabled)
    (interrupt : exec (if s.cur.core = mgmtCore then .mgmtInterruptTake else .interruptTake) s = .refused .eventDisabled) :
    atBoundary s = none := by
  simp [atBoundary, stop, State.onMgmt, interrupt]

/-! ### The step of a context that is offered the slot (R120, R121, R404, R407) -/

section
variable {s s0 : State} {c : CoreId} {n : CtxId} (offered : Spec.offered s s0 c n)
include offered

theorem offered_spine : s0.spine = s.spine := by
  obtain ⟨rest, before, after, agenda, start, -⟩ := offered
  rw [start]

theorem offered_core : s0.cur.core = c := by
  obtain ⟨rest, before, after, agenda, start, -⟩ := offered
  rw [start]

theorem offered_noFused : s0.NoFused := by
  have here := offered_core offered
  obtain ⟨rest, before, after, agenda, start, order, brake, fetches, skip, eligible, goes, stop, interrupt, fused, held, waits⟩ := offered
  exact ⟨held, fused, by rwa [here]⟩

theorem step_of_offered {t : State} (issued : (issueHere s0).2 = some (.next t)) : step s = .next (t.modCore c (·.noteIssue n)) := by
  have here := offered_core offered
  obtain ⟨rest, before, after, agenda, start, order, brake, fetches, skip, eligible, goes, stop, interrupt, -⟩ := offered
  subst start
  have running : State.paused { s with agenda := rest } c = false := by
    simp only [State.paused, State.braked, Bool.and_eq_false_iff, decide_eq_false_iff_not, bne_eq_false_iff_eq]
    exact brake.imp (by omega) id
  have awake : State.noFetch { s with agenda := rest } c = false := fetches
  have idle := atBoundary_none stop (by rwa [here])
  calc step s = issue c { s with agenda := rest } := by rw [step, agenda]; rfl
    _ = offerAll c (before ++ n :: after) { s with agenda := rest } := by
      rw [issue, running, awake, ← order]
      rfl
    _ = offerAll c (n :: after) { s with agenda := rest } := offerAll_skip _ skip
    _ = _ := offerAll_next eligible idle goes issued

theorem step_of_illegal {u : State} {v : Word} (issued : issueHere s0 = (u, some (trap cIllegal v u))) :
    step s = .next ((u.takeTrap u.cur.core u.cur.ctx 1 v).modCore c (·.noteIssue n)) := by
  refine step_of_offered offered ?_
  rw [issued]
  rfl

end

theorem step_runs_decoded : Spec.stepRunsDecoded := by
  intro s s0 s1 c n f offered fetched
  have free := offered_noFused offered
  rw [← offered_core offered] at fetched
  refine ⟨?_, ?_, ?_⟩
  · intro i x t decoded s2 ready brake count run held
    have spine : s2.spine = s.spine := by
      have kept := fetchInstr_spine s0 s0.cur.core s0.me.pc
      rw [fetched] at kept
      exact kept.trans (offered_spine offered)
    have open_ : s2.brakeHolds i = false := by
      simp only [State.brakeHolds, State.braked, spine, Bool.and_eq_false_iff, decide_eq_false_iff_not]
      exact brake.imp (by omega) id
    refine step_of_offered offered ?_
    rw [issueHere_of_instr free fetched decoded, noteFetch_of_instr decoded, issueInstr_next ready open_ count run held]
  · intro h half bad
    have issued := issueHere_of_half free fetched half bad
    rw [half, noteFetch_half] at issued
    exact step_of_illegal offered issued
  · intro w word bad
    have issued := issueHere_of_word free fetched word bad
    rw [word, noteFetch_word] at issued
    exact step_of_illegal offered issued

theorem stepRunsEvents : Spec.stepRunsEvents := by
  intro s i ev rest agenda
  rw [step, agenda]
  rfl

theorem stepPausedByBrake : Spec.stepPausedByBrake := by
  intro s c rest agenda brake compute
  have paused : State.paused { s with agenda := rest } c = true := by
    simp [State.paused, State.braked, brake, compute]
  rw [step, agenda]
  change issue c _ = _
  rw [issue, if_pos paused]

/-! ### Bytes of a memory as numbers (R193) -/

theorem Memory.readNat_lt (m : Memory) (a n : Nat) : m.readNat a n < 256 ^ n := by
  induction n generalizing a with
  | zero => simp [Memory.readNat]
  | succ n ih =>
    have byte := (m.byte a).isLt
    have rest := ih (a + 1)
    rw [Memory.readNat, Nat.pow_succ]
    omega

theorem Memory.readNat_add (m : Memory) (a j k : Nat) :
    m.readNat a (j + k) = m.readNat a j + 256 ^ j * m.readNat (a + j) k := by
  induction j generalizing a with
  | zero => simp [Memory.readNat]
  | succ j ih =>
    rw [Nat.succ_add, Memory.readNat, Memory.readNat, ih, Nat.pow_succ, show a + 1 + j = a + (j + 1) by omega]
    ring

theorem Memory.readNat_part (m : Memory) {a k j n : Nat} (h : k + j ≤ n) :
    m.readNat a n / 256 ^ k % 256 ^ j = m.readNat (a + k) j := by
  obtain ⟨r, rfl⟩ := Nat.exists_eq_add_of_le h
  rw [Nat.add_assoc, Memory.readNat_add, Nat.add_mul_div_left _ _ (by positivity), Nat.div_eq_of_lt (Memory.readNat_lt ..),
    Nat.zero_add, Memory.readNat_add, Nat.add_mul_mod_self_left, Nat.mod_eq_of_lt (Memory.readNat_lt ..)]

/-! ### The halfword that the management core fetches (R33, R35, R413) -/

theorem halfAt_toNat (m : Memory) (a : Nat) : (Spec.halfAt m a).toNat = m.readNat a 2 := by
  have low := (m.byte a).isLt
  simp only [Spec.halfAt, BitVec.toNat_append, Memory.readNat, Nat.mul_zero, Nat.add_zero]
  rw [Nat.shiftLeft_eq, Nat.mul_comm, ← Nat.two_pow_add_eq_or_of_lt low]
  omega

theorem bad_unit (m : Memory) (a : Nat) : m.bad (a / 8 * 8) = m.bad a := by
  simp [Memory.bad]

section
variable {s : State} {pc : Word} (below : pc.toNat < 2 ^ 39)
include below

theorem fetchPlace_mgmt : s.fetchPlace mgmtCore pc = some (.phys pc.toNat false) := by
  have hole : isHole pc.toNat = false := by simp [isHole]; omega
  have window : pc.toNat < 0xFF0000000000 := by omega
  have reachable : pc.toNat < 0x1000000000000 := by omega
  simp [State.fetchPlace, reachable, mgmtReach, window, hole]

variable (even : pc.toNat % 2 = 0) (wiped : s.wiping = false)
include even wiped

theorem fetchHalf_mgmt (timed : Bool) :
    s.fetchHalf (.phys pc.toNat timed) = (Spec.halfAt s.hbm pc.toNat, s.hbm.bad pc.toNat) := by
  have hbm : isHbm pc.toNat = true := by simpa [isHbm] using below
  have unit : s.homeUnit pc.toNat = s.hbm.read (pc.toNat / 8 * 8) 8 := by
    simp [State.homeUnit, hbm, State.hbmRead, State.wipedAway, wiped]
  have part := s.hbm.readNat_part (a := pc.toNat / 8 * 8) (k := pc.toNat % 8) (j := 2) (n := 8) (by omega)
  rw [show pc.toNat / 8 * 8 + pc.toNat % 8 = pc.toNat by omega] at part
  have small : s.hbm.readNat (pc.toNat / 8 * 8) 8 < 2 ^ 64 := s.hbm.readNat_lt _ 8
  simp only [State.fetchHalf, State.homeRead, unit, subUnit, Memory.read, bad_unit, Prod.mk.injEq, and_true]
  apply BitVec.eq_of_toNat_eq
  have two := s.hbm.readNat_lt pc.toNat 2
  rw [halfAt_toNat, BitVec.toNat_setWidth, BitVec.toNat_ofNat, BitVec.toNat_ofNat, Nat.mod_eq_of_lt small, Nat.pow_mul,
    Nat.pow_mul 2 8 2, part]
  omega

theorem fetch_mgmt (clean : s.hbm.bad pc.toNat = false) : s.fetch mgmtCore pc = (s, some (Spec.halfAt s.hbm pc.toNat)) := by
  have place := fetchPlace_mgmt (s := s) below
  have halves : s.halves mgmtCore (.phys pc.toNat false) = [some (Spec.halfAt s.hbm pc.toNat)] := by
    simp [State.halves, fetchHalf_mgmt below even wiped, clean]
  have count : s.countView pc.toNat = s := by
    have hbm : isView pc.toNat = false := by simpa [isView] using fun h => absurd h (by omega)
    simp [State.countView, hbm]
  have peek : s.peekHalf mgmtCore pc = some (Spec.halfAt s.hbm pc.toNat) := by simp [State.peekHalf, place, halves]
  simp [State.fetch, place, halves, State.touch, count, peek]

end

theorem lengthOf_eq_two (h : Half) : lengthOf h = 2 ↔ h.getLsbD 15 = false := by
  have top : h.extractLsb' 15 1 = BitVec.ofBool (h.getLsbD 15) := by
    ext k hk
    simp [show k = 0 by omega]
  rw [lengthOf, top]
  cases h.getLsbD 15 <;> simp

theorem fetchReadsBytes : Spec.fetchReadsBytes := by
  intro s pc a fits even wiped clean h
  have here : s.fetch mgmtCore pc = (s, some h) := fetch_mgmt (by omega) even wiped (clean 0 (by omega))
  have next : (pc + 2).toNat = a + 2 := by bv_omega
  have there : s.fetch mgmtCore (pc + 2) = (s, some (Spec.halfAt s.hbm (a + 2))) := by
    rw [fetch_mgmt (by omega) (by omega) wiped (next ▸ clean 2 (by omega)), next]
  rw [State.fetchInstr, here]
  dsimp only
  cases top : h.getLsbD 15 with
  | false => rw [if_pos ((lengthOf_eq_two h).2 top)]; rfl
  | true =>
    rw [if_neg (by simp [lengthOf_eq_two, top]), there]
    rfl

/-- Settles O59: a step runs the first turn of the agenda; an issue cycle goes by its fetch and by the decoder. -/
theorem stepRunsDecoded : Obligations.StepRunsDecoded :=
  ⟨step_runs_decoded, fetchReadsBytes, stepRunsEvents, stepPausedByBrake⟩

end Sys2Proof.Machine
end

section
/-! PROOFS (O3). Every instruction whose format carries a predicate runs under it. -/

namespace Sys2Proof.Machine

/-- An instruction with a predicate does nothing before the predicate is tested (R38, R107). -/
theorem exec_of_predOf {i : Instr} {q : Pred} (h : Spec.predOf i = some q) (s : State) : ∃ k, exec i s = pred q s k := by
  cases i with
  | add | sub | and | or | xor | andn | shl | shr | sar | min | max | minu | maxu | clz | ctz | popc | addi | andi | ori | xori
  | pcmp | pcmpi | plog | pmovPp | pmovPg | pmovGp | mul | mulh | mulhu | div | divu | mod | modu | linewb | lineinv | pin | unpin
  | claim | give | pquery | vclaim | vrel | vlen | vadd | vsub | vmul | vmin | vmax | vand | vor | vxor | vshl | vshr | vfadd
  | vfsub | vfmul | vfma | vfmax | vfmin | vfabs | vfneg | vexp | vlog | vrcp | vrsq | vsig | vtanh | vcmp | vsel | vperm | vbcast
  | vbcastE | vslideUp | vslideDn | vrsum | vrmax | vcvt | vladd | vlmul | vlcvt | fadd | fsub | fmul | ffma | fdiv | fsqrt | fmin
  | fmax | fcmp | fcvt | fclass | ladd | lsub | lmul | ldiv | lcmp | lcvt | lclass | boost | brel | bankmode | launch | spawn
  | tedge | tinfo =>
    obtain rfl := Option.some.inj h
    exact ⟨_, rfl⟩
  | _ => cases h

theorem pred_poison {q : Pred} {s : State} (k : Res) (h : (s.pReg q.idx).poison = true) :
    pred q s k = .next (s.takeTrap s.cur.core s.cur.ctx 0x0A (BitVec.ofNat 64 q.idx.val)) := by
  simp [pred, h, trap, cPoisonCtl]

theorem falsePredicateRetires : Spec.falsePredicateRetires := by
  intro i s q has clean off
  obtain ⟨k, run⟩ := exec_of_predOf has s
  rw [run, pred_false k clean (by simpa using off)]

theorem poisonedPredicateTraps : Spec.poisonedPredicateTraps := by
  intro i s q has poison
  obtain ⟨k, run⟩ := exec_of_predOf has s
  rw [run, pred_poison k poison]

/-- Settles O3: the predicate is the first thing that each such instruction asks for. -/
theorem predicatesGate : Obligations.PredicatesGate := ⟨falsePredicateRetires, poisonedPredicateTraps⟩

end Sys2Proof.Machine
end

section
/-! PROOFS (O1). The values of the integer instructions: each function of the model computes the value of the table of R125 to R130. -/

namespace Sys2Proof.Machine

/-! ### Sums, differences and products (R125, R126, R128, R130) -/

theorem add_eq_ofNat (x y : Word) : x + y = BitVec.ofNat 64 (x.toNat + y.toNat) := by
  rw [← BitVec.ofNat_add_ofNat, BitVec.ofNat_toNat, BitVec.ofNat_toNat, BitVec.setWidth_eq, BitVec.setWidth_eq]

theorem mul_eq_ofNat (x y : Word) : x * y = BitVec.ofNat 64 (x.toNat * y.toNat) := by
  rw [BitVec.ofNat_mul, BitVec.ofNat_toNat, BitVec.ofNat_toNat, BitVec.setWidth_eq, BitVec.setWidth_eq]

theorem sub_eq_ofInt (x y : Word) : x - y = BitVec.ofInt 64 (x.toInt - y.toInt) := by
  apply BitVec.eq_of_toInt_eq
  rw [BitVec.toInt_sub, BitVec.toInt_ofInt]

theorem add_signExtend_eq_ofInt {n : Nat} (x : Word) (imm : BitVec n) :
    x + imm.signExtend 64 = BitVec.ofInt 64 (x.toInt + imm.toInt) := by
  rw [BitVec.ofInt_add, BitVec.ofInt_toInt]
  rfl

/-! ### Shifts (R125, R127, R128) -/

theorem shiftLeft_eq_ofNat (x : Word) (n : Nat) : x <<< n = BitVec.ofNat 64 (x.toNat * 2 ^ n) := by
  apply BitVec.eq_of_toNat_eq
  rw [BitVec.toNat_shiftLeft, Nat.shiftLeft_eq, BitVec.toNat_ofNat]

theorem ushiftRight_eq_ofNat (x : Word) (n : Nat) : x >>> n = BitVec.ofNat 64 (x.toNat / 2 ^ n) := by
  apply BitVec.eq_of_toNat_eq
  have small : x.toNat / 2 ^ n < 2 ^ 64 := (Nat.div_le_self ..).trans_lt x.isLt
  rw [BitVec.toNat_ushiftRight, Nat.shiftRight_eq_div_pow, BitVec.toNat_ofNat, Nat.mod_eq_of_lt small]

theorem sshiftRight_eq_ofInt (x : Word) (n : Nat) : x.sshiftRight n = BitVec.ofInt 64 (x.toInt / 2 ^ n) := by
  rw [BitVec.sshiftRight, Int.shiftRight_eq_div_pow]
  norm_cast

theorem signExtend_shiftLeft_eq_ofInt (imm : BitVec 17) :
    imm.signExtend 64 <<< 10 = BitVec.ofInt 64 (imm.toInt * 2 ^ 10) := by
  rw [BitVec.shiftLeft_eq_mul_twoPow, BitVec.ofInt_mul]
  rfl

/-! ### Minimum and maximum (R125) -/

theorem minS_eq (x y : Word) : minS x y = if x.toInt ≤ y.toInt then x else y := by
  simp [minS, BitVec.sle_eq_decide]

theorem maxS_eq (x y : Word) : maxS x y = if x.toInt ≥ y.toInt then x else y := by
  simp [maxS, BitVec.sle_eq_decide]

/-! ### Fields (R127) -/

theorem extractLsb'_toNat_eq_fieldOf (x : Word) (l w : Nat) : (x.extractLsb' l w).toNat = fieldOf x l w := by
  rw [BitVec.extractLsb'_toNat, Nat.shiftRight_eq_div_pow, fieldOf]

theorem ofNat_fieldOf (x : Word) (l w : Nat) : BitVec.ofNat w (fieldOf x l w) = x.extractLsb' l w := by
  rw [← extractLsb'_toNat_eq_fieldOf, BitVec.ofNat_toNat, BitVec.setWidth_eq]

theorem ofNat_fieldOf_eq_setWidth (x : Word) (l w : Nat) : BitVec.ofNat 64 (fieldOf x l w) = (x.extractLsb' l w).setWidth 64 := by
  rw [← extractLsb'_toNat_eq_fieldOf, BitVec.ofNat_toNat]

theorem getLsbD_insertField (x y : Word) {l w k : Nat} (hw : w < 64) (hk : k < 64) :
    (insertField x y l (w + 1)).getLsbD k = if l ≤ k ∧ k ≤ l + w then y.getLsbD (k - l) else x.getLsbD k := by
  have mask : ((BitVec.allOnes 64 >>> (64 - (w + 1))) <<< l).getLsbD k = decide (l ≤ k ∧ k ≤ l + w) := by
    simp only [BitVec.getLsbD_shiftLeft, BitVec.getLsbD_ushiftRight, BitVec.getLsbD_allOnes, hk, decide_true, Bool.true_and]
    grind
  simp only [insertField, BitVec.getLsbD_or, BitVec.getLsbD_and, BitVec.getLsbD_not, mask, hk, decide_true, Bool.true_and,
    BitVec.getLsbD_shiftLeft]
  grind

theorem insertField_eq_ofFnLE (x y : Word) (l w : BitVec 6) :
    insertField x y l.toNat (w.toNat + 1) = BitVec.ofFnLE fun k : Fin 64 =>
      if l.toNat ≤ k.val ∧ k.val ≤ l.toNat + w.toNat then y.getLsbD (k.val - l.toNat) else x.getLsbD k.val := by
  apply BitVec.eq_of_getLsbD_eq
  intro k hk
  rw [getLsbD_insertField x y w.isLt hk]
  simp [hk]

/-! ### Counts of bits (R125) -/

/-- The first number from `i` on, of `n`, that satisfies a condition. -/
theorem ctzFrom_eq_findIdx (x : Word) (n i : Nat) :
    ctzFrom x n i = i + (List.range' i n).findIdx fun k => x.getLsbD k := by
  induction n generalizing i with
  | zero => rfl
  | succ n ih =>
    rw [ctzFrom, List.range'_succ, List.findIdx_cons, ih]
    cases x.getLsbD i <;> simp; omega

theorem ctz64_eq (x : Word) : ctz64 x = BitVec.ofNat 64 ((List.range 64).findIdx fun k => x.getLsbD k) := by
  rw [ctz64, ctzFrom_eq_findIdx, List.range_eq_range', Nat.zero_add]

theorem popcFrom_eq_countP (x : Word) (n : Nat) : popcFrom x n = (List.range n).countP fun k => x.getLsbD k := by
  induction n with
  | zero => rfl
  | succ n ih =>
    rw [popcFrom, List.range_succ, List.countP_append, ← ih, Nat.add_comm]
    simp [List.countP_cons]

theorem popc64_eq (x : Word) : popc64 x = BitVec.ofNat 64 ((List.range 64).countP fun k => x.getLsbD k) := by
  rw [popc64, popcFrom_eq_countP]

theorem bitLen_le {m n : Nat} (h : m < 2 ^ n) : bitLen m ≤ n := by
  unfold bitLen
  split
  · exact Nat.zero_le n
  · next hm => exact (Nat.log2_lt hm).2 h

theorem findIdx_top_bit (x : Word) : ((List.range 64).findIdx fun k => x.getLsbD (63 - k)) = 64 - bitLen x.toNat := by
  have top : bitLen x.toNat ≤ 64 := bitLen_le x.isLt
  by_cases zero : x = 0
  · subst zero
    rw [List.findIdx_eq_length.2 (by simp)]
    rfl
  · have pos : x.toNat ≠ 0 := fun h => zero (BitVec.eq_of_toNat_eq (by simpa using h))
    have len : bitLen x.toNat = Nat.log2 x.toNat + 1 := by simp [bitLen, pos]
    have log : Nat.log2 x.toNat < 64 := by omega
    rw [len, List.findIdx_eq (by simp; omega)]
    constructor
    · have bit := Nat.testBit_log2 pos
      simp only [List.getElem_range]
      rw [show 63 - (64 - (Nat.log2 x.toNat + 1)) = Nat.log2 x.toNat by omega]
      exact bit
    · intro j hj
      simp only [List.getElem_range]
      exact Nat.testBit_lt_two_pow ((Nat.lt_log2_self).trans_le (Nat.pow_le_pow_right (by omega) (by omega)))

theorem clz64_eq (x : Word) : clz64 x = BitVec.ofNat 64 ((List.range 64).findIdx fun k => x.getLsbD (63 - k)) := by
  rw [findIdx_top_bit, clz64]

/-! ### The operand forms under a predicate that holds (R38, R48) -/

/-- The predicate is unpoisoned and true. -/
def State.isOn (s : State) (q : Pred) : Prop := (s.pReg q.idx).poison = false ∧ ((s.pReg q.idx).val ^^ q.neg) = true

theorem pred_on {q : Pred} {s : State} (on : s.isOn q) (k : Res) : pred q s k = k :=
  pred_true k on.1 (by simpa using on.2)

theorem isOn_always (s : State) : s.isOn always := ⟨rfl, rfl⟩

section
variable {s : State} {d r : Reg} {v : PWord}

theorem alu3_result {a b : Reg} {q : Pred} {f g : Word → Word → Word} (h : some (d, Spec.two (s.gReg a) (s.gReg b) g) = some (r, v))
    (on : s.isOn q) (eq : ∀ x y, f x y = g x y) : alu3 f d a b q s = .next (s.setG r v).retire := by
  cases h
  rw [alu3, pred_on on, PWord.map2, eq]
  rfl

theorem alu2_result {a : Reg} {q : Pred} {f g : Word → Word} (h : some (d, Spec.one (s.gReg a) g) = some (r, v))
    (on : s.isOn q) (eq : ∀ x, f x = g x) : alu2 f d a q s = .next (s.setG r v).retire := by
  cases h
  rw [alu2, pred_on on, PWord.map1, eq]
  rfl

theorem unary_result {a : Reg} {f g : Word → Word} (h : some (d, Spec.one (s.gReg a) g) = some (r, v))
    (eq : ∀ x, f x = g x) : unary f d a s = .next (s.setG r v).retire := by
  cases h
  rw [unary, PWord.map1, eq]
  rfl

theorem done_result {x y : PWord} (h : some (d, x) = some (r, v)) (eq : y = x) : done (s.setG d y) = .next (s.setG r v).retire := by
  cases h
  rw [eq]
  rfl

end

/-- Settles O1: each instruction goes by its operand form, and its function is the one of the table. -/
theorem integerResults : Obligations.IntegerResults := by
  intro i s r v h _ on
  cases i with
  | add d a b q => exact alu3_result h (on q rfl) add_eq_ofNat
  | sub d a b q => exact alu3_result h (on q rfl) sub_eq_ofInt
  | and d a b q | or d a b q | xor d a b q | andn d a b q => exact alu3_result h (on q rfl) fun _ _ => rfl
  | shl d a b q => exact alu3_result h (on q rfl) fun x y => shiftLeft_eq_ofNat x (y.toNat % 64)
  | shr d a b q => exact alu3_result h (on q rfl) fun x y => ushiftRight_eq_ofNat x (y.toNat % 64)
  | sar d a b q => exact alu3_result h (on q rfl) fun x y => sshiftRight_eq_ofInt x (y.toNat % 64)
  | min d a b q => exact alu3_result h (on q rfl) minS_eq
  | max d a b q => exact alu3_result h (on q rfl) maxS_eq
  | minu d a b q | maxu d a b q => exact alu3_result h (on q rfl) fun _ _ => rfl
  | mul d a b q => exact alu3_result h (on q rfl) mul_eq_ofNat
  | mulh d a b q | mulhu d a b q => exact alu3_result h (on q rfl) fun _ _ => rfl
  | clz d a q => exact alu2_result h (on q rfl) clz64_eq
  | ctz d a q => exact alu2_result h (on q rfl) ctz64_eq
  | popc d a q => exact alu2_result h (on q rfl) popc64_eq
  | addi d a imm q => exact alu2_result h (on q rfl) fun x => add_signExtend_eq_ofInt x imm
  | andi d a imm q | ori d a imm q | xori d a imm q => exact alu2_result h (on q rfl) fun _ => rfl
  | shli d a l => exact unary_result h fun x => shiftLeft_eq_ofNat x l.toNat
  | shri d a l => exact unary_result h fun x => ushiftRight_eq_ofNat x l.toNat
  | sari d a l => exact unary_result h fun x => sshiftRight_eq_ofInt x l.toNat
  | bfx d a l w => exact unary_result h fun x => congrArg (BitVec.signExtend 64) (ofNat_fieldOf x l.toNat (w.toNat + 1))
  | bfxu d a l w => exact unary_result h fun x => ofNat_fieldOf_eq_setWidth x l.toNat (w.toNat + 1)
  | bfi d a l w => exact done_result h (by rw [PWord.map2, insertField_eq_ofFnLE]; rfl)
  | movhi d imm => exact done_result h (by rw [signExtend_shiftLeft_eq_ofInt])
  | lea d imm => exact done_result h (by rw [add_signExtend_eq_ofInt])
  | sel d a b q => exact done_result h (by simp)
  | pmovGp d a q =>
    cases h
    exact pred_on (on q rfl) _
  | addS d b => exact alu3_result h (isOn_always s) add_eq_ofNat
  | subS d b => exact alu3_result h (isOn_always s) sub_eq_ofInt
  | andS d b | orS d b | xorS d b | andnS d b => exact alu3_result h (isOn_always s) fun _ _ => rfl
  | shlS d b => exact alu3_result h (isOn_always s) fun x y => shiftLeft_eq_ofNat x (y.toNat % 64)
  | shrS d b => exact alu3_result h (isOn_always s) fun x y => ushiftRight_eq_ofNat x (y.toNat % 64)
  | sarS d b => exact alu3_result h (isOn_always s) fun x y => sshiftRight_eq_ofInt x (y.toNat % 64)
  | minS d b => exact alu3_result h (isOn_always s) minS_eq
  | maxS d b => exact alu3_result h (isOn_always s) maxS_eq
  | minuS d b | maxuS d b => exact alu3_result h (isOn_always s) fun _ _ => rfl
  | mulS d b => exact alu3_result h (isOn_always s) mul_eq_ofNat
  | clzS d a => exact alu2_result h (isOn_always s) clz64_eq
  | ctzS d a => exact alu2_result h (isOn_always s) ctz64_eq
  | popcS d a => exact alu2_result h (isOn_always s) popc64_eq
  | addiS d imm => exact alu2_result h (isOn_always s) fun x => add_signExtend_eq_ofInt x imm
  | andiS d imm | oriS d imm | xoriS d imm => exact alu2_result h (isOn_always s) fun _ => rfl
  | shliS d l => exact unary_result h fun x => shiftLeft_eq_ofNat x l.toNat
  | shriS d l => exact unary_result h fun x => ushiftRight_eq_ofNat x l.toNat
  | sariS d l => exact unary_result h fun x => sshiftRight_eq_ofInt x l.toNat
  | _ => cases h

end Sys2Proof.Machine
end

section
/-! PROOFS (O9, O10). Fetch sees nothing of a context: writing one leaves what fetch finds, so the triple of R131 after a write is that of
the written context. -/

namespace Sys2Proof.Machine

/-! ### What fetch finds after a write to a context (R33 to R36) -/

section
variable (s : State) (c : CoreId) (n : CtxId) (x : Ctx)

@[simp] theorem setCtx_core_bind (d : CoreId) : ((s.setCtx c n x).core d).bind = (s.core d).bind := by
  by_cases h : d = c
  · subst h; simp [State.setCtx, Core.setCtx]
  · rw [State.setCtx, core_setCore_other _ _ h]

@[simp] theorem setCtx_core_ls (d : CoreId) : ((s.setCtx c n x).core d).ls = (s.core d).ls := by
  by_cases h : d = c
  · subst h; simp [State.setCtx, Core.setCtx]
  · rw [State.setCtx, core_setCore_other _ _ h]

theorem walkFrom_setCtx (t : BitVec 12) (va : Nat) (p : BitVec 16) (base : Nat) (levels : List Nat) :
    (s.setCtx c n x).walkFrom t va p base levels = s.walkFrom t va p base levels := by
  have word : ∀ p a, (s.setCtx c n x).tableWord p a = s.tableWord p a := fun _ _ => rfl
  have self : ∀ p, (s.setCtx c n x).isSelf p = s.isSelf p := fun _ => rfl
  have inside : ∀ p, (s.setCtx c n x).inPartition t p = s.inPartition t p := fun _ => rfl
  induction levels generalizing p base with
  | nil => rfl
  | cons shift rest ih => simp only [State.walkFrom, word, self, inside, ih]

theorem leaf_setCtx (cl : Nat) (t : BitVec 12) (va : Nat) : (s.setCtx c n x).leaf cl t va = s.leaf cl t va := by
  have walk : (s.setCtx c n x).walk t va = s.walk t va := by
    unfold State.walk
    rw [walkFrom_setCtx]
    rfl
  unfold State.leaf
  rw [walk]
  rfl

theorem leafOn_setCtx (d : CoreId) (t : BitVec 12) (va : Nat) : (s.setCtx c n x).leafOn d t va = s.leafOn d t va := by
  have renamed : (s.setCtx c n x).renamed d va = s.renamed d va := by
    unfold State.renamed
    rw [setCtx_core_bind]
    rfl
  unfold State.leafOn
  rw [leaf_setCtx, setCtx_core_bind, renamed]

theorem fetchPlace_setCtx (d : CoreId) (va : Word) : (s.setCtx c n x).fetchPlace d va = s.fetchPlace d va := by
  simp only [State.fetchPlace, leafOn_setCtx, setCtx_core_bind]
  rfl

theorem fetchHalf_setCtx (p : Place) : (s.setCtx c n x).fetchHalf p = s.fetchHalf p := by
  cases p <;> simp only [State.fetchHalf, setCtx_core_ls] <;> rfl

theorem peekHalf_setCtx (d : CoreId) (va : Word) : (s.setCtx c n x).peekHalf d va = s.peekHalf d va := by
  have halves : ∀ p, (s.setCtx c n x).halves d p = s.halves d p := by
    intro p
    unfold State.halves
    rw [fetchHalf_setCtx]
    rfl
  simp only [State.peekHalf, fetchPlace_setCtx, halves]
  rfl

@[simp] theorem seqOf_setCtx (d : CoreId) (va : Word) : (s.setCtx c n x).seqOf d va = s.seqOf d va := by
  rw [State.seqOf, peekHalf_setCtx, State.seqOf]

theorem after_setCtx (d : CoreId) (y : Ctx) : (s.setCtx c n x).after d y = s.after d y := by
  rw [State.after, seqOf_setCtx, State.after]

/-- The triple that a context gives. -/
theorem triple_setCtx : (s.setCtx c n x).triple c n =
    (x.pc, x.npc.or (s.after c x), x.nnpc.or ((x.npc.or (s.after c x)).bind (s.seqOf c))) := by
  have seq : (s.setCtx c n x).seqOf c = s.seqOf c := funext fun a => seqOf_setCtx ..
  simp only [State.triple, State.ctx_setCtx, after_setCtx, seq]

end

end Sys2Proof.Machine
end

section
/-! PROOFS (O9). Branches: a retiring branch moves the fetch triple of its context and changes nothing else of it (R131); where each branch,
call and return goes, and where it traps (R132 to R134). -/

namespace Sys2Proof.Machine

/-! ### What a retiring branch leaves in its context (R131) -/

/-- A context whose instruction has retired waits for nothing. -/
def Ctx.retired (x : Ctx) : Ctx := { x with st := if x.st == .stopped then .stopped else .ready, wait := none }

/-- The executing context as an outcome moves it. -/
def State.moved (s : State) (f : Flow) : Ctx := (s.move s.cur.core s.cur.ctx f).retired

theorem move_loops (s : State) (c : CoreId) (n : CtxId) (f : Flow) : (s.move c n f).loops = (s.ctx c n).loops := by
  cases f <;> rfl

theorem loopBack_noLoop {s : State} {x : Ctx} (h : x.loops[0].lc = 0 ∧ x.loops[1].lc = 0 ∧ x.loops[2].lc = 0) (c : CoreId)
    (next : Option Word) : s.loopBack c next x = (x, false) := by
  simp [State.loopBack, h]

/-- With no loop active, every outcome only moves the triple (R139). -/
theorem retireAt_noLoop {s : State} (h : Spec.noLoop s) (f : Flow) : s.retireAt s.cur.core s.cur.ctx f = s.setMe (s.moved f) := by
  have back : ∀ next, s.loopBack s.cur.core next (s.move s.cur.core s.cur.ctx f) = (s.move s.cur.core s.cur.ctx f, false) :=
    loopBack_noLoop (by rw [move_loops]; exact h) s.cur.core
  unfold State.retireAt State.advance
  cases f with
  | taken g | takenX g => rfl
  | seq | notTaken | skip a b d =>
    simp only [back]
    rfl

theorem sameRegs_moved (s : State) (f : Flow) : Spec.sameRegs s (s.setMe (s.moved f)) := by
  simp only [Spec.sameRegs, setMe_cur, me_setMe]
  cases f <;> simp [State.moved, Ctx.retired, State.move, Ctx.goto, State.me]

theorem Spec.sameRegs_trans {s t u : State} (h : Spec.sameRegs s t) (k : Spec.sameRegs t u) : Spec.sameRegs s u := by
  simp only [Spec.sameRegs] at *
  grind

/-! ### The triple after a branch (R131) -/

theorem triple_setMe (s : State) (x : Ctx) : Spec.triple (s.setMe x) =
    (x.pc, x.npc.or (s.after s.cur.core x), x.nnpc.or ((x.npc.or (s.after s.cur.core x)).bind (Spec.seq s))) :=
  triple_setCtx s s.cur.core s.cur.ctx x

/-- A context that goes to an address goes on from there sequentially. -/
theorem triple_goto {s : State} {x : Ctx} {g : Word} (hpc : x.pc = g) (hnpc : x.npc = none) (hnnpc : x.nnpc = none)
    (hfetched : x.fetched = none) : Spec.triple (s.setMe x) = (g, Spec.seq s g, (Spec.seq s g).bind (Spec.seq s)) := by
  rw [triple_setMe, hpc, hnpc, hnnpc, State.after, hfetched, hpc]
  rfl

theorem triple_takenX (s : State) (g : Word) :
    Spec.triple (s.setMe (s.moved (.takenX g))) = (g, Spec.seq s g, (Spec.seq s g).bind (Spec.seq s)) :=
  triple_goto rfl rfl rfl rfl

theorem triple_skip (s : State) (e : Word) :
    Spec.triple (s.setMe (s.moved (.skip (some e) none none))) = (e, Spec.seq s e, (Spec.seq s e).bind (Spec.seq s)) :=
  triple_goto rfl rfl rfl rfl

section
variable {s : State} {p a b : Word} (h : Spec.triple s = (p, some a, some b))
include h

theorem npc_of_triple : s.me.npc.or (s.after s.cur.core s.me) = some a := by
  simp only [Spec.triple, State.triple, Prod.mk.injEq] at h
  exact h.2.1

theorem nnpc_of_triple : s.me.nnpc.or (Spec.seq s a) = some b := by
  have hnpc := npc_of_triple h
  simp only [Spec.triple, State.triple, Prod.mk.injEq] at h
  have hnnpc := h.2.2
  rw [← State.me, hnpc] at hnnpc
  exact hnnpc

/-- The next two instructions still run after an outcome that steps on: the one that was second is now first. -/
theorem triple_step {x : Ctx} (hpc : x.pc = (s.me.npc.or (s.after s.cur.core s.me)).getD s.me.pc) (hnpc : x.npc = s.me.nnpc)
    (hfetched : x.fetched = none) : Spec.triple (s.setMe x) = (a, some b, x.nnpc.or (Spec.seq s b)) := by
  have at_ : x.pc = a := by rw [hpc, npc_of_triple h]; rfl
  have next : x.npc.or (s.after s.cur.core x) = some b := by
    rw [hnpc, State.after, hfetched, at_]
    exact nnpc_of_triple h
  rw [triple_setMe, at_, next]
  rfl

theorem triple_taken (g : Word) : Spec.triple (s.setMe (s.moved (.taken g))) = (a, some b, some g) :=
  triple_step h rfl rfl rfl

theorem triple_notTaken : Spec.triple (s.setMe (s.moved .notTaken)) = (a, some b, Spec.seq s b) :=
  triple_step h rfl rfl rfl

end

/-! ### A write to a g register moves nothing -/

theorem triple_setG (s : State) (d : Reg) (v : PWord) : Spec.triple (s.setG d v) = Spec.triple s := by
  rw [State.setG, State.modMe, triple_setMe]
  simp [State.after, Spec.triple, State.triple, State.me]
  rfl

theorem seq_setG (s : State) (d : Reg) (v : PWord) : Spec.seq (s.setG d v) = Spec.seq s :=
  funext fun _ => seqOf_setCtx ..

/-! ### Where a branch goes (R132 to R134, R48) -/

/-- Twice a signed displacement, added to an address. -/
theorem target_eq_ofInt {n : Nat} (s : State) (d : BitVec n) :
    s.target n d = BitVec.ofInt 64 (s.me.pc.toInt + 2 * d.toInt) := by
  rw [State.target, BitVec.shiftLeft_eq_mul_twoPow, BitVec.ofInt_add, BitVec.ofInt_toInt, BitVec.ofInt_mul, BitVec.mul_comm]
  rfl

section
variable {s : State} {q : Pred} {r : Reg}

theorem jumpVia_taken {link : Bool} (sl : Slot) (on : (!(s.pReg q.idx).poison && ((s.pReg q.idx).val ^^ q.neg)) = true)
    (clean : (!(s.gReg r).poison && !(s.gReg r).val.getLsbD 0) = true) :
    jumpVia r sl q link s = if link then callTo sl (s.gReg r).val s else branchTo sl (s.gReg r).val s := by
  simp only [Bool.and_eq_true, Bool.not_eq_true', bne_iff_ne, ne_eq] at on clean
  obtain ⟨sure, on⟩ := on
  obtain ⟨known, even⟩ := clean
  have taken : ((s.pReg q.idx).val == q.neg) = false := by simpa using on
  simp only [jumpVia, sure, taken, needClean, known, even, Bool.false_eq_true, if_false]

theorem jumpVia_notTaken {link : Bool} (sl : Slot)
    (off : (!(s.pReg q.idx).poison && !((s.pReg q.idx).val ^^ q.neg)) = true) : jumpVia r sl q link s = branchNot sl s := by
  simp only [Bool.and_eq_true, Bool.not_eq_true'] at off
  obtain ⟨sure, off⟩ := off
  have not : ((s.pReg q.idx).val == q.neg) = true := by simpa using off
  simp [jumpVia, sure, not]

theorem jumpVia_poisoned {link : Bool} (sl : Slot) (h : (s.pReg q.idx).poison = true) :
    jumpVia r sl q link s = .next (s.takeTrap s.cur.core s.cur.ctx 0x0A (BitVec.ofNat 64 q.idx.val)) := by
  simp [jumpVia, h, trap, cPoisonCtl]

section
variable (sure : (s.pReg q.idx).poison = false) (on : ((s.pReg q.idx).val ^^ q.neg) = true)
include sure on

theorem jumpVia_poisonedTarget {link : Bool} (sl : Slot) (h : (s.gReg r).poison = true) :
    jumpVia r sl q link s = .next (s.takeTrap s.cur.core s.cur.ctx 0x0A (BitVec.ofNat 64 r.val)) := by
  have taken : ((s.pReg q.idx).val == q.neg) = false := by simpa using on
  simp [jumpVia, sure, taken, needClean, h, trap, cPoisonCtl]

theorem jumpVia_oddTarget {link : Bool} (sl : Slot) (clean : (s.gReg r).poison = false) (h : (s.gReg r).val.getLsbD 0 = true) :
    jumpVia r sl q link s = .next (s.takeTrap s.cur.core s.cur.ctx 0x02 (s.gReg r).val) := by
  have taken : ((s.pReg q.idx).val == q.neg) = false := by simpa using on
  simp [jumpVia, sure, taken, needClean, clean, h, trap, cMisFetch]

end

/-- A jump to a register or a call of one, in both sizes, is `jumpVia`. -/
theorem exec_of_jumpsVia {i : Instr} (h : Spec.jumpsVia i r q) : ∃ sl link, exec i s = jumpVia r sl q link s := by
  obtain ⟨sl, rfl | rfl | ⟨rfl, rfl⟩⟩ | ⟨rfl | rfl | ⟨rfl, rfl⟩, rfl⟩ := h
  · exact ⟨sl, false, rfl⟩
  · exact ⟨sl, true, rfl⟩
  · exact ⟨sl, false, rfl⟩
  · exact ⟨.none, false, rfl⟩
  · exact ⟨.none, true, rfl⟩
  · exact ⟨.none, false, rfl⟩

end

theorem exec_bc_poisoned {s : State} {p : PReg} (neg : Bool) (sl : Slot) (hint : Bool) (d : BitVec 18) (h : (s.pReg p).poison = true) :
    exec (.bc p neg sl hint d) s = .next (s.takeTrap s.cur.core s.cur.ctx 0x0A (BitVec.ofNat 64 p.val)) := by
  change execBc p neg sl hint d s = _
  simp [execBc, h, trap, cPoisonCtl]

theorem exec_bc_taken {s : State} {p : PReg} {neg : Bool} (sl : Slot) (hint : Bool) (d : BitVec 18)
    (on : (!(s.pReg p).poison && ((s.pReg p).val ^^ neg)) = true) : exec (.bc p neg sl hint d) s = branchTo sl (s.target 18 d) s := by
  change execBc p neg sl hint d s = _
  simp only [Bool.and_eq_true, Bool.not_eq_true', bne_iff_ne, ne_eq] at on
  simp [execBc, on]

theorem exec_bc_notTaken {s : State} {p : PReg} {neg : Bool} (sl : Slot) (hint : Bool) (d : BitVec 18)
    (off : (!(s.pReg p).poison && !((s.pReg p).val ^^ neg)) = true) : exec (.bc p neg sl hint d) s = branchNot sl s := by
  change execBc p neg sl hint d s = _
  simp only [Bool.and_eq_true, Bool.not_eq_true', bne_eq_false_iff_eq] at off
  simp [execBc, off]

theorem exec_lbrk_notTaken {s : State} {p : PReg} {neg : Bool} (sl : Slot)
    (off : (!(s.pReg p).poison && !((s.pReg p).val ^^ neg)) = true) : exec (.lbrk p neg sl) s = branchNot sl s := by
  change execLbrk p neg sl s = _
  simp only [Bool.and_eq_true, Bool.not_eq_true', bne_eq_false_iff_eq] at off
  simp [execLbrk, off]

/-- What `(if c then some x else none) = some y` says. -/
theorem some_of_ite {α : Type} {c : Bool} {x y : α} (h : (if c then some x else none) = some y) : c = true ∧ x = y := by
  simpa using h

theorem exec_of_branchTaken {i : Instr} {s : State} {sl : Slot} {g : Word} (h : Spec.branchTaken i s = some (sl, g)) :
    exec i s = branchTo sl g s := by
  cases i with
  | b sl d | bS d =>
    cases h
    beta_reduce
    rw [← target_eq_ofInt]
    rfl
  | bc p neg sl hint d =>
    obtain ⟨on, ⟨⟩⟩ := some_of_ite h
    beta_reduce
    rw [← target_eq_ofInt]
    exact exec_bc_taken sl hint d on
  | jmp r sl q =>
    obtain ⟨on, ⟨⟩⟩ := some_of_ite h
    obtain ⟨on, clean⟩ := Bool.and_eq_true_iff.1 on
    exact jumpVia_taken sl on clean
  | ret sl q =>
    obtain ⟨on, ⟨⟩⟩ := some_of_ite h
    obtain ⟨on, clean⟩ := Bool.and_eq_true_iff.1 on
    exact jumpVia_taken sl on clean
  | jmpS r | retS =>
    obtain ⟨clean, ⟨⟩⟩ := some_of_ite h
    exact jumpVia_taken (q := always) .none rfl clean
  | _ => cases h

theorem exec_of_callTaken {i : Instr} {s : State} {sl : Slot} {g : Word} (h : Spec.callTaken i s = some (sl, g)) :
    exec i s = callTo sl g s := by
  cases i with
  | call sl d | callS d =>
    cases h
    beta_reduce
    rw [← target_eq_ofInt]
    rfl
  | calli r sl q =>
    obtain ⟨on, ⟨⟩⟩ := some_of_ite h
    obtain ⟨on, clean⟩ := Bool.and_eq_true_iff.1 on
    exact jumpVia_taken sl on clean
  | calliS r =>
    obtain ⟨clean, ⟨⟩⟩ := some_of_ite h
    exact jumpVia_taken (q := always) .none rfl clean
  | _ => cases h

theorem exec_of_branchNotTaken {i : Instr} {s : State} {sl : Slot} (h : Spec.branchNotTaken i s = some sl) :
    exec i s = branchNot sl s := by
  cases i with
  | bc p neg sl hint d =>
    obtain ⟨off, rfl⟩ := some_of_ite h
    exact exec_bc_notTaken sl hint d off
  | jmp r sl q | calli r sl q | ret sl q =>
    obtain ⟨off, rfl⟩ := some_of_ite h
    exact jumpVia_notTaken sl off
  | lbrk p neg sl =>
    obtain ⟨off, rfl⟩ := some_of_ite h
    exact exec_lbrk_notTaken sl off
  | _ => cases h

/-! ### The slot forms (R132, R133) -/

theorem withAfterSlots_eq {s : State} {p a b e : Word} (h : Spec.triple s = (p, some a, some b)) (he : Spec.seq s b = some e)
    (k : Word → Res) : withAfterSlots s k = k e := by
  rw [Spec.triple] at h
  rw [Spec.seq] at he
  simp [withAfterSlots, h, he]

theorem branchesTaken : Spec.branchesTaken := by
  intro i s sl g p a b taken triple
  rw [exec_of_branchTaken taken]
  cases sl with
  | none | n => exact ⟨_, rfl, sameRegs_moved s (.taken g), triple_taken triple g⟩
  | x => exact ⟨_, rfl, sameRegs_moved s (.takenX g), triple_takenX s g⟩

/-- A call writes g15 and then branches: no other register changes. -/
theorem link_moved (s : State) (e : Word) (f : Flow) :
    let t := (s.putG 15 e).setMe ((s.putG 15 e).moved f)
    (∀ r : Reg, r ≠ 15 → t.gReg r = s.gReg r) ∧ t.me.p = s.me.p ∧ t.me.e = s.me.e ∧ t.gReg 15 = ⟨e, false⟩ := by
  obtain ⟨-, hg, hp, he, -⟩ := sameRegs_moved (s.putG 15 e) f
  have read : ∀ r : Reg, ((s.putG 15 e).setMe ((s.putG 15 e).moved f)).gReg r = (s.putG 15 e).gReg r := by
    intro r
    rw [State.gReg, State.gReg, Ctx.getG, Ctx.getG, hg]
  refine ⟨fun r hr => ?_, ?_, ?_, ?_⟩
  · rw [read, State.putG, gReg_setG]
    by_cases h0 : r = 0
    · subst h0; rfl
    · simp [h0, hr]
  · rw [hp, State.putG, me_setG, Ctx.setG_p]
  · rw [he, State.putG, me_setG, Ctx.setG_e]
  · rw [read, State.putG, gReg_setG]
    rfl

theorem callsLink : Spec.callsLink := by
  intro i s sl g p a b e taken triple next
  rw [exec_of_callTaken taken]
  have later : Spec.triple (s.putG 15 e) = (p, some a, some b) := (triple_setG ..).trans triple
  cases sl with
  | none | n =>
    obtain ⟨others, preds, exts, link⟩ := link_moved s e (.taken g)
    exact ⟨_, withAfterSlots_eq triple next _, others, preds, exts, triple_taken later g, link⟩
  | x =>
    obtain ⟨others, preds, exts, link⟩ := link_moved s a (.takenX g)
    have near : callTo .x g s = branchTo .x g (s.putG 15 a) := by
      rw [Spec.triple] at triple
      simp [callTo, withLink, triple]
    have target := triple_takenX (s.putG 15 a) g
    rw [State.putG, seq_setG] at target
    exact ⟨_, near, others, preds, exts, target, link⟩

theorem branchesNotTaken : Spec.branchesNotTaken := by
  intro i s sl p a b e off noLoop triple next
  rw [exec_of_branchNotTaken off]
  cases sl with
  | none | x =>
    refine ⟨_, congrArg Host.Outcome.next (retireAt_noLoop noLoop .notTaken), sameRegs_moved s .notTaken, ?_⟩
    exact (triple_notTaken triple).trans (by rw [next])
  | n =>
    refine ⟨_, ?_, sameRegs_moved s (.skip (some e) none none), triple_skip s e⟩
    exact (withAfterSlots_eq triple next _).trans (congrArg Host.Outcome.next (retireAt_noLoop noLoop _))

theorem bcPoisoned : Spec.bcPoisoned := fun _ _ neg sl hint d poison => exec_bc_poisoned neg sl hint d poison

theorem badTargetsTrap : Spec.badTargetsTrap := by
  intro i s r q jumps p traps
  obtain ⟨sl, link, run⟩ := exec_of_jumpsVia (s := s) jumps
  refine ⟨fun poison => run.trans (jumpVia_poisoned sl poison), fun sure on => ⟨fun poison => ?_, fun clean odd => ?_⟩⟩
  · exact run.trans (jumpVia_poisonedTarget sure on sl poison)
  · exact run.trans (jumpVia_oddTarget sure on sl clean odd)

/-- Settles O9: each branch is a move of the triple, and each jump to a register asks for its predicate, then for its target. -/
theorem branches : Obligations.Branches := ⟨branchesTaken, callsLink, branchesNotTaken, bcPoisoned, badTargetsTrap⟩

end Sys2Proof.Machine
end

section
/-! PROOFS (O10). Hardware loops: LOOP and LOOPI set the lowest free level, a retire before the end of the innermost level starts the loop
again or leaves it, and LBRK leaves it (R137 to R140). -/

namespace Sys2Proof.Machine

/-! ### LOOP and LOOPI (R138) -/

theorem moved_loops (s : State) (f : Flow) : (s.setMe (s.moved f)).me.loops = s.me.loops := by
  rw [me_setMe]
  exact move_loops ..

theorem nextLevel_eq {x : Ctx} (free : x.loops[2].lc = 0) : x.nextLevel = Spec.level x := by
  simp only [Ctx.nextLevel, Spec.level, free, bne_self_eq_false, Bool.false_eq_true, if_false, bne_iff_ne]

theorem level_lt (x : Ctx) : Spec.level x < 3 := by
  unfold Spec.level
  split
  · omega
  · split <;> omega

/-- The end address of a loop: halfwords from the address of LOOP. -/
theorem loopEnd_eq (pc : Word) (e : BitVec 11) : pc + (e.setWidth 64 <<< 1) = BitVec.ofNat 64 (pc.toNat + 2 * e.toNat) := by
  have small := e.isLt
  apply BitVec.eq_of_toNat_eq
  rw [BitVec.toNat_add, BitVec.toNat_shiftLeft, BitVec.toNat_setWidth, BitVec.toNat_ofNat, Nat.shiftLeft_eq]
  omega

/-- The count of a loop is at most 2^32 - 1. -/
theorem count_eq (n : Word) : (if n.toNat < 2 ^ 32 then n else 0xFFFFFFFF) = BitVec.ofNat 64 (min n.toNat (2 ^ 32 - 1)) := by
  split
  · next h => rw [min_eq_left (by omega), BitVec.ofNat_toNat, BitVec.setWidth_eq]
  · next h => rw [min_eq_right (by omega)]; rfl

/-- The level that LOOP sets for `n` iterations. -/
def State.newLoop (s : State) (n : Nat) (r : Bool) (e : BitVec 11) : Loop :=
  ⟨BitVec.ofNat 64 (min n (2 ^ 32 - 1)), (s.me.pc + 4) ||| (if s.priv.getLsbD 0 then 1 else 0),
    BitVec.ofNat 64 (s.me.pc.toNat + 2 * e.toNat) ||| (if r then 1 else 0)⟩

theorem inSlot_sequential {s : State} (i : Instr) (slots : s.me.slots = 0) (npc : s.me.npc = none) (nnpc : s.me.nnpc = none) :
    s.inSlot i = false := by
  simp [State.inSlot, slots, npc, nnpc]

section
variable {s : State} {i : Instr} (slots : s.me.slots = 0) (npc : s.me.npc = none) (nnpc : s.me.nnpc = none)
  (free : s.me.loops[2].lc = 0)
include slots npc nnpc free

theorem startLoop_goes {n : PWord} (clean : n.poison = false) (src : Nat) (r : Bool) (e : BitVec 11) :
    startLoop i n src r e s =
      if n.val = 0 then .next (s.retireAt s.cur.core s.cur.ctx (.takenX (BitVec.ofNat 64 (s.me.pc.toNat + 2 * e.toNat))))
      else done (s.setMe { s.me with loops := s.me.loops.setIfInBounds (Spec.level s.me) (s.newLoop n.val.toNat r e) }) := by
  have level : (Spec.level s.me == 3) = false := by simpa using (level_lt s.me).ne
  rw [startLoop, inSlot_sequential i slots npc nnpc, nextLevel_eq free, level, if_neg (by simp), needClean_clean _ _ _ clean,
    loopEnd_eq, count_eq]
  rfl

end

/-- LOOP and LOOPI as loops of a clean count. -/
theorem exec_loop_count {i : Instr} {s : State} {n : Nat} {r : Bool} {e : BitVec 11}
    (h : (∃ g, i = .loop g r e ∧ (s.gReg g).poison = false ∧ n = (s.gReg g).val.toNat) ∨
      ∃ m : BitVec 10, i = .loopi m r e ∧ n = m.toNat + 1) :
    ∃ (c : PWord) (src : Nat), exec i s = startLoop i c src r e s ∧ c.poison = false ∧ c.val.toNat = n := by
  obtain ⟨g, rfl, clean, rfl⟩ | ⟨m, rfl, rfl⟩ := h
  · exact ⟨s.gReg g, g.val, rfl, clean, rfl⟩
  · refine ⟨⟨m.setWidth 64 + 1, false⟩, 0, rfl, rfl, ?_⟩
    have small := m.isLt
    simp only [BitVec.toNat_add, BitVec.toNat_setWidth]
    simp
    omega

theorem loopsStart : Spec.loopsStart := by
  intro i s n r e form slots npc nnpc free endOf
  obtain ⟨c, src, run, clean, rfl⟩ := exec_loop_count form
  rw [run, startLoop_goes slots npc nnpc free clean]
  have zero : c.val = 0 ↔ c.val.toNat = 0 := ⟨fun h => by rw [h]; rfl, fun h => BitVec.eq_of_toNat_eq h⟩
  split
  · next h =>
    rw [if_pos (zero.2 h)]
    exact ⟨_, rfl, triple_takenX s endOf, sameRegs_moved s (.takenX endOf), moved_loops s (.takenX endOf)⟩
  · next h =>
    rw [if_neg (mt zero.1 h)]
    rfl

theorem fourthLoopIllegal : Spec.fourthLoopIllegal := by
  intro s g r e full
  have level : (s.me.nextLevel == 3) = true := by
    rw [Ctx.nextLevel, if_pos (by simpa using full)]
    rfl
  change startLoop (.loop g r e) (s.gReg g) g r e s = _
  rw [startLoop, level, if_pos (by simp)]
  rfl

/-! ### The loop-back (R139) -/

theorem loopLevel_inactive {s : State} {x : Ctx} {k : Fin 3} (h : x.loops[k].lc = 0) (c : CoreId) (next : Option Word) :
    s.loopLevel c next x k = (x, false, false) := by
  simp only [State.loopLevel, h]
  rfl

/-- With only level 0 active the loop-back tests that level alone. -/
theorem loopBack_inner {s : State} {x : Ctx} (h0 : x.loops[0].lc ≠ 0) (h1 : x.loops[1].lc = 0) (h2 : x.loops[2].lc = 0) (c : CoreId)
    (next : Option Word) : s.loopBack c next x = ((s.loopLevel c next x 0).1, (s.loopLevel c next x 0).2.2) := by
  have active : (x.loops[0].lc == 0 && x.loops[1].lc == 0 && x.loops[2].lc == 0) = false := by simpa using fun h => absurd h (by simpa using h0)
  rw [State.loopBack, active, loopLevel_inactive (k := 2) h2]
  dsimp only
  rw [loopLevel_inactive (k := 1) h1]
  rfl

/-- At the end of level 0, which names no renegotiation point: with more iterations to come it starts again, else it is left. -/
theorem loopLevel_atEnd {s : State} {x : Ctx} {c : CoreId} {next : Option Word} (active : x.loops[0].lc ≠ 0)
    (mode : x.loops[0].ls.getLsbD 0 = x.tr.priv.getLsbD 0) (plain : x.loops[0].le.getLsbD 0 = false)
    (atEnd : s.atLoopEnd c next x (x.loops[0].le &&& ~~~1#64) = true) :
    s.loopLevel c next x 0 =
      if 1 < x.loops[0].lc.toNat then
        (({ x with loops := x.loops.set 0 { x.loops[0] with lc := x.loops[0].lc - 1 } }).goto (x.loops[0].ls &&& ~~~1#64), true, false)
      else ({ x with loops := x.loops.set 0 { x.loops[0] with lc := 0 } }, false, false) := by
  have here : (x.loops[0].lc != 0 && x.loops[0].ls.getLsbD 0 == x.tr.priv.getLsbD 0 &&
      s.atLoopEnd c next x (x.loops[0].le &&& ~~~1#64)) = true := by
    rw [atEnd, mode]
    simpa using active
  have noPoint : ((0 : Fin 3) == 0 && x.loops[0].le.getLsbD 0) = false := by rw [plain]; rfl
  change (if (x.loops[0].lc != 0 && x.loops[0].ls.getLsbD 0 == x.tr.priv.getLsbD 0 &&
    s.atLoopEnd c next x (x.loops[0].le &&& ~~~1#64)) = true then _ else _) = _
  rw [if_pos here]
  change (if 1 < x.loops[0].lc.toNat then (_, true, ((0 : Fin 3) == 0 && x.loops[0].le.getLsbD 0)) else _) = _
  rw [noPoint]
  rfl

/-- A retire that meets no renegotiation point only writes the context that the loop-back gives. -/
theorem retire_of_loopBack {s : State} {y : Ctx}
    (h : s.loopBack s.cur.core (s.after s.cur.core s.me) (s.move s.cur.core s.cur.ctx .seq) = (y, false)) :
    s.retire = s.setMe y.retired := by
  unfold State.retire State.retireAt State.advance
  dsimp only
  rw [← State.me, h]
  rfl

/-- The context as a retire outside delay slots moves it to the next instruction. -/
def Ctx.stepTo (x : Ctx) (a : Word) : Ctx := { x with pc := a, npc := none, nnpc := none, slots := x.slots - 1, fetched := none }

theorem move_seq {s : State} {p a b : Word} (triple : Spec.triple s = (p, some a, some b)) (nnpc : s.me.nnpc = none) :
    s.move s.cur.core s.cur.ctx .seq = s.me.stepTo a := by
  have step : s.move s.cur.core s.cur.ctx .seq =
      { s.me.stepTo ((s.me.npc.or (s.after s.cur.core s.me)).getD s.me.pc) with npc := s.me.nnpc } := rfl
  rw [step, npc_of_triple triple, nnpc]
  rfl

theorem atLoopEnd_stepTo (s : State) (c : CoreId) (x : Ctx) (a : Word) : s.atLoopEnd c (some a) (x.stepTo a) a = true := by
  simp [State.atLoopEnd, Ctx.stepTo]

theorem loopBack : Spec.loopBack := by
  intro s p a b n idle1 idle2 count active npc nnpc triple last plain mode start
  have after : s.after s.cur.core s.me = some a := by simpa [npc] using npc_of_triple triple
  have second : Spec.seq s a = some b := by simpa [nnpc] using nnpc_of_triple triple
  have running : (s.me.stepTo a).loops[0].lc ≠ 0 := fun h => active (count.symm.trans h)
  have level := loopLevel_atEnd (s := s) (c := s.cur.core) (next := some a) running mode plain
    (by rw [show (s.me.stepTo a).loops[0].le &&& ~~~1#64 = a from last]; exact atLoopEnd_stepTo ..)
  have back := loopBack_inner (s := s) running idle1 idle2 s.cur.core (some a)
  rw [level] at back
  have lc : (s.me.stepTo a).loops[0].lc = n := count
  split
  · next more =>
    rw [if_pos (by rwa [lc])] at back
    rw [retire_of_loopBack (by rw [after, move_seq triple nnpc]; exact back), me_setMe]
    exact ⟨by simp [Ctx.retired, Ctx.goto, lc], triple_goto rfl rfl rfl rfl⟩
  · next done =>
    rw [if_neg (by rwa [lc])] at back
    rw [retire_of_loopBack (by rw [after, move_seq triple nnpc]; exact back), me_setMe]
    refine ⟨by simp [Ctx.retired], ?_⟩
    exact triple_step triple (by rw [npc_of_triple triple]; rfl) nnpc.symm rfl

/-! ### LBRK (R140) -/

/-- The executing context leaves level 0. -/
def State.leaveLoop (s : State) : State := s.modMe fun x => { x with loops := x.loops.set 0 { s.me.loops[0] with lc := 0 } }

theorem sameRegs_leaveLoop (s : State) : Spec.sameRegs s s.leaveLoop := by
  simp [Spec.sameRegs, State.leaveLoop, State.modMe]

theorem triple_leaveLoop (s : State) : Spec.triple s.leaveLoop = Spec.triple s := triple_setMe s _

theorem seq_leaveLoop (s : State) : Spec.seq s.leaveLoop = Spec.seq s := funext fun _ => seqOf_setCtx ..

theorem innermost_zero {x : Ctx} (active : x.loops[0].lc ≠ 0) (idle1 : x.loops[1].lc = 0) (idle2 : x.loops[2].lc = 0)
    (mode : x.loops[0].ls.getLsbD 0 = x.tr.priv.getLsbD 0) : x.innermost = some 0 := by
  have h2 : (x.loops[(2 : Fin 3)].lc != 0) = false := by simpa using idle2
  have h1 : (x.loops[(1 : Fin 3)].lc != 0) = false := by simpa using idle1
  have h0 : (x.loops[(0 : Fin 3)].lc != 0) = true := by simpa using active
  have here : (x.loops[(0 : Fin 3)].ls.getLsbD 0 == x.tr.priv.getLsbD 0) = true := beq_iff_eq.2 mode
  simp only [Ctx.innermost, List.find?_cons, h2, h1, h0, here, Bool.false_and, Bool.and_self]

theorem exec_lbrk_taken {s : State} {q : PReg} {neg : Bool} (sl : Slot) (sure : (s.pReg q).poison = false)
    (on : ((s.pReg q).val ^^ neg) = true) (inner : s.me.innermost = some 0) :
    exec (.lbrk q neg sl) s = branchTo sl (s.me.loops[0].le &&& ~~~1#64) s.leaveLoop := by
  have taken : ((s.pReg q).val == neg) = false := by simpa using on
  change execLbrk q neg sl s = _
  rw [execLbrk, sure, taken, inner]
  rfl

theorem leaveLoop_count (s : State) (f : Flow) : (s.leaveLoop.setMe (s.leaveLoop.moved f)).me.loops[0].lc = 0 := by
  simp only [moved_loops]
  simp [State.leaveLoop, State.modMe]

theorem lbrkLeaves : Spec.lbrkLeaves := by
  intro s q neg sl p a b sure on active idle1 idle2 mode triple
  rw [exec_lbrk_taken sl sure on (innermost_zero active idle1 idle2 mode)]
  have kept := fun f => Spec.sameRegs_trans (sameRegs_leaveLoop s) (sameRegs_moved s.leaveLoop f)
  cases sl with
  | none | n => exact ⟨_, rfl, kept _, leaveLoop_count s _, triple_taken ((triple_leaveLoop s).trans triple) _⟩
  | x =>
    have target := triple_takenX s.leaveLoop (s.me.loops[0].le &&& ~~~1#64)
    rw [seq_leaveLoop] at target
    exact ⟨_, rfl, kept _, leaveLoop_count s _, target⟩

/-- Settles O10: a loop level is set, counted down and left by writes of the executing context alone. -/
theorem loops : Obligations.Loops := ⟨loopsStart, fourthLoopIllegal, loopBack, lbrkLeaves⟩

end Sys2Proof.Machine
end

section
/-! PROOFS (O19). Loads and stores of the core's own local store: where their address leads, what they find there and what they leave, on a
core that nothing else keeps busy. -/

namespace Sys2Proof.Machine

/-! ### Bytes and their extension (R193) -/

theorem bytes_eq_readNat (m : Memory) (a n : Nat) : Spec.bytes m a n = m.readNat a n := by
  induction n with
  | zero => rfl
  | succ n ih =>
    rw [Spec.bytes] at ih ⊢
    rw [List.range_succ, List.map_append, List.sum_append, ih, Memory.readNat_add]
    simp [Memory.readNat, Nat.mul_comm]

theorem zext_eq_ofNat {k x : Nat} (h : x < 2 ^ k) (hk : k ≤ 64) :
    ((BitVec.ofNat 64 x).setWidth k).setWidth 64 = BitVec.ofNat 64 x := by
  have fits : x < 2 ^ 64 := h.trans_le (Nat.pow_le_pow_right (by omega) hk)
  apply BitVec.eq_of_toNat_eq
  simp only [BitVec.toNat_setWidth, BitVec.toNat_ofNat]
  rw [Nat.mod_eq_of_lt fits, Nat.mod_eq_of_lt h]
  exact Nat.mod_eq_of_lt fits

theorem sext_eq_ofInt {k x : Nat} (h : x < 2 ^ k) (hk : k ≤ 64) (pos : 0 < k) :
    ((BitVec.ofNat 64 x).setWidth k).signExtend 64 =
      if 2 ^ (k - 1) ≤ x then BitVec.ofInt 64 ((x : Int) - (2 ^ k : Nat)) else BitVec.ofNat 64 x := by
  have fits : x < 2 ^ 64 := h.trans_le (Nat.pow_le_pow_right (by omega) hk)
  have value : ((BitVec.ofNat 64 x).setWidth k).toNat = x := by
    rw [BitVec.toNat_setWidth, BitVec.toNat_ofNat, Nat.mod_eq_of_lt fits, Nat.mod_eq_of_lt h]
  have half : 2 ^ k = 2 * 2 ^ (k - 1) := (mul_pow_sub_one (by omega) 2).symm
  rw [BitVec.signExtend, BitVec.toInt_eq_toNat_cond, value]
  split
  · next low =>
    rw [if_neg (by omega)]
    exact BitVec.ofInt_natCast ..
  · next high => rw [if_pos (by omega)]

/-- The widths of scalar accesses. -/
def scalarWidth (n : Nat) : Prop := n = 1 ∨ n = 2 ∨ n = 4 ∨ n = 8

theorem scalarWidth_pos {n : Nat} (h : scalarWidth n) : 0 < n := by
  obtain rfl | rfl | rfl | rfl := h <;> omega

theorem extLoad_eq {n x : Nat} {signed : Bool} (bad : Bool) (width : scalarWidth n) (narrow : signed = true → n ≠ 8) (h : x < 256 ^ n) :
    extLoad n signed ⟨BitVec.ofNat 64 x, bad⟩ = ⟨Spec.extended n signed x, bad⟩ := by
  cases signed with
  | false =>
    rw [Spec.extended, if_neg (by simp)]
    obtain rfl | rfl | rfl | rfl := width
    · exact congrArg (PWord.mk · bad) (zext_eq_ofNat (k := 8) h (by omega))
    · exact congrArg (PWord.mk · bad) (zext_eq_ofNat (k := 16) h (by omega))
    · exact congrArg (PWord.mk · bad) (zext_eq_ofNat (k := 32) h (by omega))
    · rfl
  | true =>
    simp only [Spec.extended, true_and]
    obtain rfl | rfl | rfl | rfl := width
    · exact congrArg (PWord.mk · bad) (sext_eq_ofInt (k := 8) h (by omega) (by omega))
    · exact congrArg (PWord.mk · bad) (sext_eq_ofInt (k := 16) h (by omega) (by omega))
    · exact congrArg (PWord.mk · bad) (sext_eq_ofInt (k := 32) h (by omega) (by omega))
    · exact absurd rfl (narrow rfl)

theorem extLoad_read {n : Nat} {signed : Bool} (m : Memory) (off : Nat) (width : scalarWidth n) (narrow : signed = true → n ≠ 8) :
    extLoad n signed (m.read off n) = ⟨Spec.extended n signed (Spec.bytes m off n), m.bad off⟩ := by
  rw [Memory.read, bytes_eq_readNat, extLoad_eq _ width narrow (m.readNat_lt off n)]

/-! ### An address of the own local store (R185 to R188) -/

section
variable {s : State} {addr : Word} {n off : Nat} (own : Spec.ownLs s addr n off)
include own

theorem ownLs_toNat (pos : 0 < n) : addr.toNat = Spec.lsBase + off ∧ off < 8192 := by
  obtain ⟨rfl, -, inside, -⟩ := own
  refine ⟨?_, by omega⟩
  rw [BitVec.toNat_ofNat, Nat.mod_eq_of_lt]
  rw [Spec.lsBase]
  omega

theorem ownLs_aligned (width : scalarWidth n) : addr.toNat % n = 0 := by
  obtain ⟨at_, -⟩ := ownLs_toNat own (scalarWidth_pos width)
  obtain ⟨-, aligned, -⟩ := own
  rw [at_, Spec.lsBase]
  obtain rfl | rfl | rfl | rfl := width <;> omega

theorem ownLs_user (pos : 0 < n) : (s.isUser && decide (0xFFFFFFFFF800 ≤ addr.toNat)) = false := by
  obtain ⟨at_, -⟩ := ownLs_toNat own pos
  obtain ⟨-, -, -, user⟩ := own
  by_cases mode : s.priv = 0
  · have low := user mode
    rw [Spec.lsBase] at at_
    simp
    omega
  · rw [State.isUser, beq_false_of_ne mode, Bool.false_and]

theorem reach_ownLs (pos : 0 < n) (a : Acc) : s.reach a n addr = .place (.ls s.cur.core off) := by
  obtain ⟨at_, small⟩ := ownLs_toNat own pos
  have user := ownLs_user own pos
  rw [Spec.lsBase] at at_
  have offset : addr.toNat - 0xFFFFFFFFE000 = off := by omega
  have top : addr.toNat < 2 ^ 48 := by omega
  rw [State.reach, State.reachT, mgmtReach, State.windowReach]
  by_cases mgmt : s.cur.core = mgmtCore
  · rw [if_pos (by simpa [State.onMgmt, mgmt] using top), if_neg (by omega), if_pos (by simp; omega), if_neg (by simpa using user), offset,
      mgmt]
  · rw [if_neg (by simp [State.onMgmt, mgmt]), if_neg (by omega), if_neg (by simpa using mgmt), if_pos (by omega), if_pos (by omega),
      if_neg (by simpa using user), offset]

theorem touch_ownLs (pos : 0 < n) (c : CoreId) (t : BitVec 12) : s.touch c t addr = s := by
  obtain ⟨at_, -⟩ := ownLs_toNat own pos
  rw [Spec.lsBase] at at_
  have window : (decide (addr.toNat < 0xFF0000000000) && c != mgmtCore) = false := by
    rw [decide_eq_false (by omega), Bool.false_and]
  rw [State.touch, window]
  rfl

end

/-! ### A core that nothing keeps busy (R290, R339, R345, R349) -/

theorem any_idle {α : Type} {l : List α} {p : α → Bool} (h : ∀ x ∈ l, p x = false) : ¬ l.any p = true := by
  simpa using h

section
variable {s : State} (quiet : Spec.quiet s)
include quiet

theorem acquiring_quiet : s.acquiring s.cur.core s.cur.ctx = false := by
  obtain ⟨-, -, -, -, loads, -, vecs, -⟩ := quiet
  rw [State.myCore] at loads vecs
  simp [State.acquiring, loads, vecs]

theorem allPerformed_quiet : s.allPerformed s.cur.core s.cur.ctx = true := by
  obtain ⟨-, -, -, -, loads, port, vecs, rq, -⟩ := quiet
  rw [State.myCore] at loads port vecs rq
  simp [State.allPerformed, loads, port, vecs, rq]

theorem mustWait_quiet (id : Nat) (p : Place) (stores : Bool) : s.mustWait s.cur.core s.cur.ctx id p stores = false := by
  obtain ⟨-, -, -, -, loads, port, vecs, rq, -⟩ := quiet
  rw [State.myCore] at loads port vecs rq
  simp [State.mustWait, loads, port, vecs, rq]

theorem loadsOut_quiet : s.myCore.loadsOut = 0 := by
  obtain ⟨-, -, -, -, loads, -, vecs, rq, -⟩ := quiet
  simp [Core.loadsOut, loads, vecs, rq]

theorem portUsed_quiet : s.myCore.portUsed = 0 := by
  obtain ⟨-, -, -, -, -, port, -⟩ := quiet
  simp [Core.portUsed, port]

theorem mark_quiet (p : Place) (n : Nat) : s.mark s.cur.core p n = .free := by
  obtain ⟨-, -, -, -, -, -, -, -, idle, -⟩ := quiet
  have none_ : ∀ h ∈ (s.octet (octetOf s.cur.core)).chans.toList, h.cur = none := by
    intro h mem
    obtain ⟨k, hk, rfl⟩ := List.getElem_of_mem mem
    exact idle ⟨k, by simpa using hk⟩
  unfold State.mark
  split
  · rfl
  · exact (if_neg (any_idle fun h mem => by rw [none_ h mem])).trans (if_neg (any_idle fun h mem => by rw [none_ h mem]))

theorem mayAccess_ls (c : CoreId) (off : Nat) (k : Res) : mayAccess (.ls c off) s k = k := by
  rw [mayAccess, acquiring_quiet quiet]
  rfl

end

/-! ### Loads (R54, R193) -/

section
variable {s : State} {addr : Word} {n off : Nat}

theorem loadAt_ownLs {i : Instr} {dst : RegName} {b : PWord} {signed : Bool} {acq : Option Scope} (clean : b.poison = false)
    (width : scalarWidth n) (narrow : signed = true → n ≠ 8) (own : Spec.ownLs s addr n off) (quiet : Spec.quiet s) :
    loadAt i dst b addr n signed acq s = .next ((s.modMe (·.setReg dst
      ⟨Spec.extended n signed (Spec.bytes s.myCore.ls off n), s.myCore.ls.bad off⟩)).acquired acq).retire := by
  have pos := scalarWidth_pos width
  have stays : (s.isOwn (.ls s.cur.core off) && s.mark s.cur.core (.ls s.cur.core off) n != .held &&
      !s.mustWait s.cur.core s.cur.ctx s.seq (.ls s.cur.core off) false) = true := by
    rw [mark_quiet quiet, mustWait_quiet quiet]
    simp [State.isOwn]
  calc loadAt i dst b addr n signed acq s = loadPlace i dst (.ls s.cur.core off) n signed acq s := by
        rw [loadAt, clean, ownLs_aligned own width, reach_ownLs own pos, touch_ownLs own pos]
        rfl
    _ = done (s.landNow dst (extLoad n signed (s.myCore.ls.read off n)) acq) := by
        rw [loadPlace, mayAccess_ls quiet, loadsOut_quiet quiet, if_neg (by omega)]
        dsimp only [State.fifoBank]
        rw [if_pos stays, mark_quiet quiet]
        rfl
    _ = _ := by
        rw [extLoad_read _ _ width narrow]
        rfl

end

section
variable (s : State) (base : Reg)

theorem address_eq {w : Nat} (imm : BitVec w) : Spec.address s base imm.toInt = offAddr s base 1 w imm := by
  rw [Spec.address, BitVec.ofInt_add, BitVec.ofInt_toInt, offAddr, BitVec.one_mul]
  rfl

theorem address_scaled {w n : Nat} {k : Int} (hk : (n : Int) = k) (imm : BitVec w) :
    Spec.address s base (k * imm.toInt) = offAddr s base n w imm := by
  subst hk
  rw [Spec.address, BitVec.ofInt_add, BitVec.ofInt_toInt, BitVec.ofInt_mul, BitVec.ofInt_natCast]
  rfl

theorem address_short {w n : Nat} {k : Int} (hk : (n : Int) = k) (j : BitVec w) :
    Spec.address s base (k * j.toNat) = (s.gReg base).val + BitVec.ofNat 64 n * j.setWidth 64 := by
  subst hk
  rw [Spec.address, BitVec.ofInt_add, BitVec.ofInt_toInt, BitVec.ofInt_mul, BitVec.ofInt_natCast, BitVec.ofInt_natCast,
    BitVec.ofNat_toNat]

end

/-- Every load is `loadAt` of its form. -/
theorem exec_of_loadForm {i : Instr} {f : Spec.LoadForm} (h : Spec.loadForm i = some f) (s : State) :
    exec i s = loadAt i f.dst (s.gReg f.base) (Spec.address s f.base f.disp) f.n f.signed f.acq s := by
  cases i with
  | ldb d b sc o imm | ldbu d b sc o imm =>
    cases h
    rw [address_eq]
    rfl
  | ldh d b sc o imm | ldhu d b sc o imm =>
    cases h
    rw [address_scaled (n := 2) (k := 2) s b rfl]
    rfl
  | ldw d b sc o imm | ldwu d b sc o imm =>
    cases h
    rw [address_scaled (n := 4) (k := 4) s b rfl]
    rfl
  | ldd d b sc o imm | xld d b imm =>
    cases h
    rw [address_scaled (n := 8) (k := 8) s b rfl]
    rfl
  | ldwS d b k | ldwuS d b k =>
    cases h
    rw [address_short (n := 4) (k := 4) s b rfl]
    rfl
  | lddS d b k =>
    cases h
    rw [address_short (n := 8) (k := 8) s b rfl]
    rfl
  | _ => cases h

theorem loadForm_width {i : Instr} {f : Spec.LoadForm} (h : Spec.loadForm i = some f) :
    scalarWidth f.n ∧ (f.signed = true → f.n ≠ 8) := by
  cases i with
  | ldb | ldbu =>
    cases h
    exact ⟨.inl rfl, by simp⟩
  | ldh | ldhu =>
    cases h
    exact ⟨.inr (.inl rfl), by simp⟩
  | ldw | ldwu | ldwS | ldwuS =>
    cases h
    exact ⟨.inr (.inr (.inl rfl)), by simp⟩
  | ldd | xld | lddS =>
    cases h
    exact ⟨.inr (.inr (.inr rfl)), by simp⟩
  | _ => cases h

theorem loadsOwnStore : Spec.loadsOwnStore := by
  intro i s f off form clean own quiet
  obtain ⟨width, narrow⟩ := loadForm_width form
  rw [exec_of_loadForm form, loadAt_ownLs clean width narrow own quiet]

/-! ### What a store leaves in a local store (R111, R189) -/

theorem byte_foldl_setByte {m : Memory} (wf : m.wf = true) (b k d : Nat) :
    ((List.range k).foldl (fun (m : Memory) i => m.setByte (b + i) 0) m).wf = true ∧
      ((List.range k).foldl (fun (m : Memory) i => m.setByte (b + i) 0) m).byte d = if b ≤ d ∧ d < b + k then 0 else m.byte d := by
  induction k with
  | zero => simp [wf]
  | succ k ih =>
    obtain ⟨kept, byte⟩ := ih
    rw [List.range_succ, List.foldl_append]
    refine ⟨Memory.setByte_wf kept _ _, ?_⟩
    rw [List.foldl_cons, List.foldl_nil, Memory.byte_setByte kept, byte]
    grind

theorem byte_clearRes {m : Memory} (wf : m.wf = true) (d : Nat) : m.clearRes.byte d = Spec.lsKeeps d (m.byte d) := by
  obtain ⟨-, cleared⟩ := byte_foldl_setByte (Memory.setByte_wf wf 0x1FE9 (m.byte 0x1FE9 &&& 7)) 0x1FEA 22 d
  simp only [Memory.clearRes, Memory.byte_taint, cleared, Memory.byte_setByte wf, Spec.lsKeeps]
  grind

theorem poison_foldl_setByte (l : List Nat) (b : Nat) (m : Memory) :
    (l.foldl (fun (m : Memory) i => m.setByte (b + i) 0) m).poison = m.poison := by
  induction l generalizing m with
  | nil => rfl
  | cons i l ih => rw [List.foldl_cons, ih]; rfl

theorem bad_clearRes {m : Memory} (wf : m.wf = true) (d : Nat) :
    m.clearRes.bad d = if 0x1FF0 / 8 ≤ d / 8 ∧ d / 8 < 0x2000 / 8 then false else m.bad d := by
  have sorted := ((Memory.wf_iff m).1 wf).2
  have sorted' := natDel_wf sorted (0x1FF0 / 8)
  simp only [Memory.clearRes, Memory.bad, Memory.taint, poison_foldl_setByte, Bool.false_eq_true, if_false]
  change natHas (natDel (natDel m.poison _) _) _ = _
  rw [natHas_natDel sorted', natHas_natDel sorted]
  grind

theorem lsWrite_stored {m : Memory} (wf : m.wf = true) (off n : Nat) (v : PWord) :
    Spec.lsStored m (lsWrite m off n v) off n v.val.toNat (v.poison || (n != 8 && m.bad off)) := by
  have kept := Memory.write_wf wf off n v
  have unit : ∀ d, d / 8 = off / 8 → m.bad d = m.bad off := fun d hd => by rw [Memory.bad, hd]; rfl
  have bad : ∀ d, (m.write off n v).bad d = if d / 8 = off / 8 then (v.poison || (n != 8 && m.bad off)) else m.bad d := by
    intro d
    rw [Memory.bad_write wf]
    split
    · next hd => rw [unit d hd]
    · rfl
  have byte : ∀ d, (lsWrite m off n v).byte d =
      if off + n ≤ 0x1FE8 then (m.write off n v).byte d else Spec.lsKeeps d ((m.write off n v).byte d) := by
    intro d
    unfold lsWrite
    split
    · rfl
    · exact byte_clearRes kept d
  refine ⟨fun j hj => ?_, fun a ha => ?_, fun a => ?_⟩
  · rw [byte, Memory.byte_write wf, if_pos (show off ≤ off + j ∧ off + j < off + n by omega), Nat.add_sub_cancel_left]
  · rw [byte, Memory.byte_write wf, if_neg (show ¬ (off ≤ a ∧ a < off + n) by omega)]
  · unfold lsWrite
    split
    · next low => rw [bad, if_neg (show ¬ (0x1FE8 < off + n ∧ 0x1FF0 / 8 ≤ a / 8 ∧ a / 8 < 0x2000 / 8) by omega)]
    · next high => rw [bad_clearRes kept, bad]; grind

/-! ### Stores (R55, R107, R193) -/

theorem releaseActs_empty {s : State} (empty : Spec.emptyCluster s) (sc : Scope) : s.releaseActs s.cur.core sc = (s, true) := by
  obtain ⟨acc, merges, lines, wbs⟩ := empty
  rw [State.myCluster] at acc merges lines wbs
  have clean : ∀ pos, s.cleanMine (clusterOf s.cur.core) pos = s := by
    intro pos
    simp [State.cleanMine, lines]
  have merge : ∀ pos, s.mergeMine (clusterOf s.cur.core) pos = s := by
    intro pos
    simp [State.mergeMine, acc]
  unfold State.releaseActs
  split
  · rfl
  · simp [clean, merge, State.backsOut, State.mergesOut, wbs, merges]

theorem withRelease_quiet {s : State} {rel : Option Scope} (quiet : Spec.quiet s) (free : rel = none ∨ Spec.emptyCluster s)
    (k : State → Res) : withRelease rel s k = k s := by
  cases rel with
  | none => rfl
  | some sc =>
    have empty := free.resolve_left (by simp)
    simp [withRelease, allPerformed_quiet quiet, releaseActs_empty empty]

theorem portWrite_ls (s : State) (off n : Nat) (v : PWord) :
    s.portWrite (.ls s.cur.core off) n v = s.modMyCore fun k => { k with ls := lsWrite s.myCore.ls off n v } := by
  simp only [State.portWrite, State.modMyCore, State.modCore, State.myCore]

theorem storeAt_ownLs {i : Instr} {s : State} {addr : Word} {b v : PWord} {base n off : Nat} {rel : Option Scope}
    (clean : b.poison = false) (width : scalarWidth n) (own : Spec.ownLs s addr n off) (quiet : Spec.quiet s)
    (free : rel = none ∨ Spec.emptyCluster s) :
    storeAt i b base addr n v rel s = doneStored v addr (s.modMyCore fun k => { k with ls := lsWrite s.myCore.ls off n v }) := by
  have pos := scalarWidth_pos width
  have now : (s.mark s.cur.core (.ls s.cur.core off) n == .held ||
      s.mustWait s.cur.core s.cur.ctx s.seq (.ls s.cur.core off) true) = false := by
    rw [mark_quiet quiet, mustWait_quiet quiet]
    rfl
  calc storeAt i b base addr n v rel s = storePlace i (.ls s.cur.core off) n v addr s := by
        rw [storeAt, needClean_clean _ _ _ clean, ownLs_aligned own width, reach_ownLs own pos, touch_ownLs own pos]
        simp only [storeFate, mayAccess_ls quiet, withRelease_quiet quiet free]
        rfl
    _ = doneStored v addr (s.portWrite (.ls s.cur.core off) n v) := by
        rw [storePlace, portUsed_quiet quiet, if_neg (by omega)]
        rw [now]
        rfl
    _ = _ := by rw [portWrite_ls]

/-- Every store is `storeAt` of its form. -/
theorem exec_of_storeForm {i : Instr} {s : State} {f : Spec.StoreForm} (h : Spec.storeForm i s = some f) :
    exec i s = storeAt i (s.gReg f.base) f.base.val (Spec.address s f.base f.disp) f.n f.val f.rel s := by
  cases i with
  | stb r b sc o imm =>
    cases h
    rw [address_eq]
    rfl
  | sth r b sc o imm =>
    cases h
    rw [address_scaled (n := 2) (k := 2) s b rfl]
    rfl
  | stw r b sc o imm =>
    cases h
    rw [address_scaled (n := 4) (k := 4) s b rfl]
    rfl
  | std r b sc o imm | xst r b imm =>
    cases h
    rw [address_scaled (n := 8) (k := 8) s b rfl]
    rfl
  | stwS r b k =>
    cases h
    rw [address_short (n := 4) (k := 4) s b rfl]
    rfl
  | stdS r b k =>
    cases h
    rw [address_short (n := 8) (k := 8) s b rfl]
    rfl
  | _ => cases h

theorem storeForm_width {i : Instr} {s : State} {f : Spec.StoreForm} (h : Spec.storeForm i s = some f) : scalarWidth f.n := by
  cases i with
  | stb =>
    cases h
    exact .inl rfl
  | sth =>
    cases h
    exact .inr (.inl rfl)
  | stw | stwS =>
    cases h
    exact .inr (.inr (.inl rfl))
  | std | stdS | xst =>
    cases h
    exact .inr (.inr (.inr rfl))
  | _ => cases h

theorem storesOwnStore : Spec.storesOwnStore := by
  intro i s f off form clean own quiet wf free
  refine ⟨lsWrite s.myCore.ls off f.n f.val, lsWrite_stored wf off f.n f.val, ?_⟩
  rw [exec_of_storeForm form, storeAt_ownLs clean (storeForm_width form) own quiet free]
  unfold doneStored
  split
  · simp [trapAfter, trap, cPoisonStored, State.retire, State.modMyCore, State.modCore]
  · rfl

/-- Settles O19: an aligned address of the own local store leads there, and on a quiet core the access is made at once. -/
theorem ownStoreAccesses : Obligations.OwnStoreAccesses := ⟨loadsOwnStore, storesOwnStore⟩

end Sys2Proof.Machine
end

section
/-! PROOFS (O4, O5, O6, O30). What a float code stands for: sign and magnitude of a code, and that the reading of the model is that of the
statements (R58, R59). -/

namespace Sys2Proof

/-- A code without its sign, and the sign. -/
def BFmt.mag (f : BFmt) (c : Nat) : Nat := c % 2 ^ (f.frac + f.expw)
def BFmt.sign (f : BFmt) (c : Nat) : Bool := c / 2 ^ (f.frac + f.expw) % 2 == 1
/-- The first magnitude that is no number: an infinity, or the NaN of F8A (R59). -/
def BFmt.limit (f : BFmt) : Nat := if f == .f8a then 0x7F else (2 ^ f.expw - 1) * 2 ^ f.frac
/-- The significand and the exponent of a magnitude that is a number. -/
def BFmt.sig (f : BFmt) (k : Nat) : Nat := if k / 2 ^ f.frac = 0 then k % 2 ^ f.frac else 2 ^ f.frac + k % 2 ^ f.frac
def BFmt.exp (f : BFmt) (k : Nat) : Int := (max (k / 2 ^ f.frac) 1 : Nat) - f.bias - f.frac

end Sys2Proof

namespace Sys2Proof.Machine

/-! ### Magnitude and sign of a code -/

theorem mag_lt (f : BFmt) (c : Nat) : f.mag c < 2 ^ (f.frac + f.expw) := Nat.mod_lt _ (Nat.two_pow_pos _)

theorem mod_frac (f : BFmt) (c : Nat) : c % 2 ^ f.frac = f.mag c % 2 ^ f.frac :=
  (Nat.mod_mod_of_dvd c (pow_dvd_pow 2 (Nat.le_add_right ..))).symm

theorem div_frac (f : BFmt) (c : Nat) : c / 2 ^ f.frac % 2 ^ f.expw = f.mag c / 2 ^ f.frac := by
  rw [BFmt.mag, pow_add, Nat.mod_mul_right_div_self]

theorem mag_lt_limit_iff (f : BFmt) (c : Nat) :
    f.mag c < f.limit ↔ ¬ (f.mag c / 2 ^ f.frac = 2 ^ f.expw - 1 ∧ (f = .f8a → f.mag c % 2 ^ f.frac = 7)) := by
  have := mag_lt f c
  revert this
  generalize f.mag c = k
  cases f <;> simp [BFmt.limit, BFmt.frac, BFmt.expw] <;> omega

/-- A magnitude below the limit is a number. -/
theorem fval_number {f : BFmt} {c : Nat} (h : f.mag c < f.limit) :
    fval f c = .fin (f.sign c) (f.sig (f.mag c)) (f.exp (f.mag c)) := by
  rw [mag_lt_limit_iff] at h
  unfold fval BFmt.sig BFmt.exp
  rw [mod_frac, div_frac]
  generalize f.mag c / 2 ^ f.frac = x at h
  generalize f.mag c % 2 ^ f.frac = r at h
  have number : (if x = 0 then FVal.fin (f.sign c) r (1 - f.bias - f.frac) else .fin (f.sign c) (2 ^ f.frac + r) (x - f.bias - f.frac)) =
      .fin (f.sign c) (if x = 0 then r else 2 ^ f.frac + r) ((max x 1 : Nat) - f.bias - f.frac) := by
    split
    · next z => simp [z]
    · next z => rw [max_eq_left (by omega)]
  rw [← number]
  simp only [beq_iff_eq, Bool.and_eq_true, BFmt.sign]
  by_cases a : f = .f8a
  · rw [if_pos a, if_neg fun top => h ⟨top.1, fun _ => top.2⟩]
  · rw [if_neg a, if_neg fun top => h ⟨top, fun e => absurd e a⟩]

/-- From the limit on stand an infinity, but in F8A, and NaNs. -/
theorem fval_special {f : BFmt} {c : Nat} (h : f.limit ≤ f.mag c) :
    fval f c = if f ≠ .f8a ∧ f.mag c % 2 ^ f.frac = 0 then .inf (f.sign c)
      else .nan (decide (f ≠ .f8a ∧ f ≠ .f8b ∧ f.mag c % 2 ^ f.frac < 2 ^ (f.frac - 1))) := by
  rw [← not_lt, mag_lt_limit_iff, not_not] at h
  obtain ⟨top, seven⟩ := h
  unfold fval
  rw [mod_frac, div_frac, top]
  by_cases a : f = .f8a
  · simp only [a, ne_eq, not_true_eq_false, false_and, if_false, decide_false]
    subst a
    simp [seven rfl]
  · simp only [show (f == .f8a) = false by simpa using a, ne_eq, a, not_false_eq_true, true_and, beq_self_eq_true, beq_iff_eq,
      if_true, Bool.false_eq_true, if_false, BFmt.sign]
    congr 2
    rw [Bool.decide_and, bne, Bool.beq_eq_decide_eq, decide_not]

/-! ### The reading of the statements -/

/-- A value as the statements write it: in units of 2^-149. -/
def FVal.num : FVal → Spec.FloatNum
  | .nan b => .nan b
  | .inf s => .inf s
  | .fin s m e => .fin s (scaleTo s m e (-149))

theorem fields_eq (f : BFmt) : Spec.fields f = (f.frac, f.expw, f.bias) := by cases f <;> rfl

theorem codes_eq (f : BFmt) : Spec.codes f = 2 ^ f.width := by cases f <;> rfl

theorem bias_frac_le (f : BFmt) : f.bias + f.frac ≤ 150 := by cases f <;> decide

theorem num_eq (f : BFmt) (c : Nat) : Spec.num f c = (fval f c).num := by
  have small := bias_frac_le f
  rcases lt_or_ge (f.mag c) f.limit with h | h
  · rw [fval_number h]
    rw [mag_lt_limit_iff] at h
    simp only [Spec.num, fields_eq]
    rw [mod_frac f c, div_frac f c]
    simp only [FVal.num, scaleTo, BFmt.sig, BFmt.exp]
    generalize f.mag c / 2 ^ f.frac = x at h
    generalize f.mag c % 2 ^ f.frac = r at h
    rw [if_neg (fun e => h ⟨e.1, fun _ => e.2.2⟩), if_neg (fun e => h ⟨e.1, fun a => absurd a e.2⟩)]
    have units : (if x = 0 then r * 2 ^ (150 - f.bias - f.frac) else (2 ^ f.frac + r) * 2 ^ (149 + x - f.bias - f.frac)) =
        (if x = 0 then r else 2 ^ f.frac + r) * 2 ^ (((max x 1 : Nat) : Int) - f.bias - f.frac - -149).toNat := by
      split
      · next z => rw [z]; congr 2; omega
      · next z => congr 2; omega
    rw [units]
    simp [BFmt.sign, Bool.beq_eq_decide_eq]
  · rw [fval_special h]
    rw [← not_lt, mag_lt_limit_iff, not_not] at h
    obtain ⟨top, seven⟩ := h
    simp only [Spec.num, fields_eq]
    rw [mod_frac f c, div_frac f c, top]
    by_cases a : f = .f8a
    · subst a
      simp [seven rfl, FVal.num]
    · simp only [a, ne_eq, not_false_eq_true, true_and, and_self, false_and, and_false, if_true, if_false]
      split <;> simp [FVal.num, BFmt.sign, Bool.beq_eq_decide_eq]

/-- Only the low bits of a code are read. -/
theorem fval_low (f : BFmt) (c : Nat) : fval f (c % 2 ^ f.width) = fval f c := by
  have frac : c % 2 ^ f.width % 2 ^ f.frac = c % 2 ^ f.frac := Nat.mod_mod_of_dvd _ (pow_dvd_pow 2 (by unfold BFmt.width; omega))
  have mag : f.mag (c % 2 ^ f.width) = f.mag c := Nat.mod_mod_of_dvd _ (pow_dvd_pow 2 (by unfold BFmt.width; omega))
  have sign : c % 2 ^ f.width / 2 ^ (f.frac + f.expw) % 2 = c / 2 ^ (f.frac + f.expw) % 2 := by
    rw [show 2 ^ f.width = 2 ^ (f.frac + f.expw) * 2 by rw [← pow_succ]; congr 1; unfold BFmt.width; omega,
      Nat.mod_mul_right_div_self, Nat.mod_mod]
  simp only [fval, frac, div_frac, mag, sign]

end Sys2Proof.Machine
end

section
/-! PROOFS (O4, O5, O6, O30). Rounding of a magnitude that is a value of the format: it is that value's code, in every mode and without a
flag (R61, R73). -/

namespace Sys2Proof.Machine

/-! ### Sizes -/

theorem bitLen_of_ne {m : Nat} (h : m ≠ 0) : bitLen m = Nat.log2 m + 1 := if_neg h

theorem two_pow_le {m : Nat} (h : m ≠ 0) : 2 ^ (bitLen m - 1) ≤ m := by
  rw [bitLen_of_ne h]
  exact Nat.log2_self_le h

theorem lt_two_pow_bitLen (m : Nat) : m < 2 ^ bitLen m := by
  by_cases h : m = 0
  · simp [h]
  · rw [bitLen_of_ne h]
    exact Nat.lt_log2_self

theorem bitLen_pos {m : Nat} (h : m ≠ 0) : 0 < bitLen m := by rw [bitLen_of_ne h]; omega

theorem bitLen_eq {m n : Nat} (lo : 2 ^ n ≤ m) (hi : m < 2 ^ (n + 1)) : bitLen m = n + 1 := by
  have pos : m ≠ 0 := by have := Nat.two_pow_pos n; omega
  have := (Nat.pow_lt_pow_iff_right (a := 2) (by omega)).1 ((two_pow_le pos).trans_lt hi)
  have := (Nat.pow_lt_pow_iff_right (a := 2) (by omega)).1 (lo.trans_lt (lt_two_pow_bitLen m))
  omega

/-- The value of a significand at an exponent lies below the power of two of its top bit, and at or above half of that. -/
theorem value_lt (m : Nat) (e : Int) : (m : ℚ) * 2 ^ e < 2 ^ (e + bitLen m) := by
  rw [zpow_add₀ two_ne_zero, mul_comm]
  have := lt_two_pow_bitLen m
  have : (m : ℚ) < 2 ^ (bitLen m : Int) := by exact_mod_cast this
  exact mul_lt_mul_of_pos_left this (by positivity)

theorem le_value {m : Nat} (h : m ≠ 0) (e : Int) : (2 : ℚ) ^ (e + bitLen m - 1) ≤ m * 2 ^ e := by
  rw [add_sub_assoc, zpow_add₀ two_ne_zero, mul_comm]
  have pos := bitLen_pos h
  have := two_pow_le h
  have : (2 : ℚ) ^ ((bitLen m : Int) - 1) ≤ m := by
    rw [show (bitLen m : Int) - 1 = ((bitLen m - 1 : Nat) : Int) by omega]
    exact_mod_cast this
  exact mul_le_mul_of_nonneg_right this (by positivity)

/-- Two significands of one value have their top bits at one place. -/
theorem top_eq {m n : Nat} {e d : Int} (hm : m ≠ 0) (hn : n ≠ 0) (value : (m : ℚ) * 2 ^ e = n * 2 ^ d) : e + bitLen m = d + bitLen n := by
  have a := (zpow_lt_zpow_iff_right₀ (one_lt_two (α := ℚ))).1 ((le_value hm e).trans_lt (value ▸ value_lt n d))
  have b := (zpow_lt_zpow_iff_right₀ (one_lt_two (α := ℚ))).1 ((le_value hn d).trans_lt (value.symm ▸ value_lt m e))
  omega

/-! ### Rounding of a multiple -/

theorem zpow_toNat {a : Int} (h : 0 ≤ a) : (2 : ℚ) ^ a = ((2 ^ a.toNat : Nat) : ℚ) := by
  conv_lhs => rw [← Int.toNat_of_nonneg h]
  push_cast
  rw [zpow_natCast]

theorem eq_mul_of_value {m n : Nat} {e d : Int} (h : d ≤ e) (value : (m : ℚ) * 2 ^ e = n * 2 ^ d) : n = m * 2 ^ (e - d).toNat := by
  have : (m : ℚ) * 2 ^ (e - d) = n := by
    rw [zpow_sub₀ two_ne_zero, ← mul_div_assoc, value, mul_div_assoc, div_self (by positivity), mul_one]
  rw [zpow_toNat (by omega)] at this
  exact_mod_cast this.symm

theorem roundUp_exact (md : RM) (s odd : Bool) : roundUp md s odd .lt false = false := by cases md <;> rfl

/-- A magnitude that is a multiple of 2^t stays. -/
theorem roundAt_exact {m q : Nat} {e t : Int} (md : RM) (s : Bool) (value : (m : ℚ) * 2 ^ e = q * 2 ^ t) :
    roundAt md s m e false t = (q, false) := by
  unfold roundAt
  split
  · next h => rw [eq_mul_of_value h value]
  · next h =>
    have eq := eq_mul_of_value (by omega) value.symm
    have pos := Nat.two_pow_pos (t - e).toNat
    have half := Nat.two_pow_pos ((t - e).toNat - 1)
    simp [eq, Nat.mul_mod_left, Nat.mul_div_cancel _ pos, roundUp_exact]

/-! ### Rounding of a value of the format -/

theorem sig_lt (f : BFmt) (k : Nat) : f.sig k < 2 ^ (f.frac + 1) := by
  have := Nat.mod_lt k (Nat.two_pow_pos f.frac)
  rw [BFmt.sig, pow_succ]
  split <;> omega

theorem exp_subnormal {f : BFmt} {k : Nat} (h : k / 2 ^ f.frac = 0) : f.exp k = 1 - f.bias - f.frac := by simp [BFmt.exp, h]

theorem exp_normal {f : BFmt} {k : Nat} (h : k / 2 ^ f.frac ≠ 0) : f.exp k = ((k / 2 ^ f.frac : Nat) : Int) - f.bias - f.frac := by
  rw [BFmt.exp, max_eq_left (Nat.one_le_iff_ne_zero.2 h)]

/-- The exponent to which a number of the format is rounded is that of its code. -/
theorem roundExp_eq (f : BFmt) (k : Nat) :
    (if f.exp k + bitLen (f.sig k) - (f.frac + 1 : Nat) < 1 - f.bias - f.frac then 1 - (f.bias : Int) - f.frac
      else f.exp k + bitLen (f.sig k) - (f.frac + 1 : Nat)) = f.exp k := by
  have rest := Nat.mod_lt k (Nat.two_pow_pos f.frac)
  by_cases x : k / 2 ^ f.frac = 0
  · have sig : f.sig k = k % 2 ^ f.frac := if_pos x
    have len : bitLen (f.sig k) ≤ f.frac := bitLen_le (sig ▸ rest)
    rw [exp_subnormal x, if_pos (by omega)]
  · have sig : f.sig k = 2 ^ f.frac + k % 2 ^ f.frac := if_neg x
    have len : bitLen (f.sig k) = f.frac + 1 := bitLen_eq (by omega) (sig_lt f k)
    rw [len, exp_normal x]
    generalize k / 2 ^ f.frac = n at x
    rw [if_neg (by omega)]
    omega

/-- The magnitude that a significand and its exponent are put together to. -/
theorem mag_of_parts (f : BFmt) (k : Nat) :
    (if f.sig k < 2 ^ f.frac then f.sig k else (f.exp k - (1 - f.bias - f.frac) + 1).toNat * 2 ^ f.frac + (f.sig k - 2 ^ f.frac)) = k := by
  have rest := Nat.mod_lt k (Nat.two_pow_pos f.frac)
  have parts := Nat.div_add_mod k (2 ^ f.frac)
  by_cases x : k / 2 ^ f.frac = 0
  · have sig : f.sig k = k % 2 ^ f.frac := if_pos x
    rw [sig, if_pos rest]
    rw [x] at parts
    omega
  · have sig : f.sig k = 2 ^ f.frac + k % 2 ^ f.frac := if_neg x
    have exp : (f.exp k - (1 - f.bias - f.frac) + 1).toNat = k / 2 ^ f.frac := by
      rw [exp_normal x]
      generalize k / 2 ^ f.frac = n
      omega
    rw [sig, exp, if_neg (by omega), Nat.add_sub_cancel_left, mul_comm, parts]

theorem roundF_exact {f : BFmt} {k m : Nat} {e : Int} (md : RM) (sat s : Bool) (number : k < f.limit) (pos : m ≠ 0)
    (value : (m : ℚ) * 2 ^ e = f.sig k * 2 ^ f.exp k) :
    roundF f md sat s m e false = (k + (if s then 2 ^ (f.frac + f.expw) else 0), 0) := by
  have sigPos : f.sig k ≠ 0 := by
    intro zero
    rw [zero, Nat.cast_zero, zero_mul] at value
    exact pos (by exact_mod_cast (mul_eq_zero.1 value).resolve_right (by positivity))
  have full : ¬ f.sig k = 2 ^ (f.frac + 1) := (sig_lt f k).ne
  unfold roundF
  dsimp only
  rw [if_neg (by simp [pos]), top_eq pos sigPos value, roundExp_eq f k, roundAt_exact md s value]
  dsimp only
  rw [if_neg full]
  dsimp only
  rw [mag_of_parts, if_neg (by rw [BFmt.limit] at number; exact not_le.2 number)]
  simp [flagIf]

end Sys2Proof.Machine
end

section
/-! PROOFS (O4, O5, O6, O30). A rounded operation whose exact result is a value of the format gives that value's code (R82, R83, R85). -/

namespace Sys2Proof.Machine

/-! ### Exact values -/

/-- The number (-1)^s × m × 2^e. -/
def ratOf (s : Bool) (m : Nat) (e : Int) : ℚ := (if s then -1 else 1) * (m * 2 ^ e)

theorem ratOf_eq_zero {s : Bool} {m : Nat} {e : Int} : ratOf s m e = 0 ↔ m = 0 := by
  have : (2 : ℚ) ^ e ≠ 0 := by positivity
  cases s <;> simp [ratOf, this]

theorem abs_ratOf (s : Bool) (m : Nat) (e : Int) : |ratOf s m e| = m * 2 ^ e := by
  have : (0 : ℚ) ≤ m * 2 ^ e := by positivity
  cases s <;> simp [ratOf, abs_of_nonneg this]

theorem ratOf_neg_iff {s : Bool} {m : Nat} {e : Int} (h : m ≠ 0) : ratOf s m e < 0 ↔ s = true := by
  have : (0 : ℚ) < m * 2 ^ e := by positivity
  cases s <;> simp [ratOf, this, this.le]

theorem ratOf_not (s : Bool) (m : Nat) (e : Int) : ratOf (!s) m e = -ratOf s m e := by cases s <;> simp [ratOf]

theorem ratOf_mul (s r : Bool) (m n : Nat) (e d : Int) : ratOf (s != r) (m * n) (e + d) = ratOf s m e * ratOf r n d := by
  rw [ratOf, ratOf, ratOf, zpow_add₀ two_ne_zero]
  cases s <;> cases r <;> simp <;> ring

/-- An integer at an exponent, by its sign and size. -/
theorem ratOf_natAbs (v : Int) (e : Int) : ratOf (decide (v < 0)) v.natAbs e = v * 2 ^ e := by
  have size : ((v.natAbs : Nat) : ℚ) = |(v : ℚ)| := by rw [Nat.cast_natAbs, Int.cast_abs]
  rw [ratOf, size]
  by_cases neg : v < 0
  · have : (v : ℚ) < 0 := by exact_mod_cast neg
    simp [neg, abs_of_neg this]
  · have : (0 : ℚ) ≤ v := by exact_mod_cast not_lt.1 neg
    simp [neg, abs_of_nonneg this]

/-- An integer multiple of 2^e0, as a number. -/
theorem scaleTo_cast (s : Bool) (m : Nat) {e d : Int} (h : d ≤ e) : (scaleTo s m e d : ℚ) = ratOf s m (e - d) := by
  rw [scaleTo, ratOf, zpow_toNat (by omega)]
  cases s <;> simp

theorem ratOf_scale (s : Bool) (m : Nat) (e d : Int) : ratOf s m e * 2 ^ d = ratOf s m (e + d) := by
  rw [ratOf, ratOf, zpow_add₀ two_ne_zero, mul_assoc, mul_assoc]

theorem scaleTo_eq_zero {s : Bool} {m : Nat} {e d : Int} : scaleTo s m e d = 0 ↔ m = 0 := by
  cases s <;> simp [scaleTo]

/-! ### Codes that are numbers -/

theorem least_exp (f : BFmt) (k : Nat) : -149 ≤ f.exp k := by
  have := bias_frac_le f
  have : 1 ≤ max (k / 2 ^ f.frac) 1 := le_max_right ..
  rw [BFmt.exp]
  generalize max (k / 2 ^ f.frac) 1 = x at this
  omega

/-- A code that stands for a number of units is a magnitude below the limit. -/
theorem number_of_num {f : BFmt} {c : Nat} {a : Bool} {u : Int} (h : Spec.num f c = .fin a u) : f.mag c < f.limit := by
  rw [num_eq] at h
  by_contra special
  rw [fval_special (not_lt.1 special)] at h
  split at h <;> cases h

/-- A number of units as the model reads it: its value in units of 2^-149. -/
theorem fval_of_num {f : BFmt} {c : Nat} {a : Bool} {u : Int} (h : Spec.num f c = .fin a u) :
    fval f c = .fin a (f.sig (f.mag c)) (f.exp (f.mag c)) ∧ (u : ℚ) = ratOf a (f.sig (f.mag c)) (f.exp (f.mag c)) * 2 ^ (149 : Int) := by
  have number := fval_number (number_of_num h)
  rw [num_eq, number] at h
  obtain ⟨rfl, rfl⟩ := Spec.FloatNum.fin.inj h
  exact ⟨number, by rw [scaleTo_cast _ _ (least_exp ..), ratOf_scale, sub_neg_eq_add]⟩

/-- A code below the first one past the format is its magnitude and its sign. -/
theorem code_parts {f : BFmt} {c : Nat} (h : c < Spec.codes f) :
    c = f.mag c + (if f.sign c then 2 ^ (f.frac + f.expw) else 0) := by
  have top : Spec.codes f = 2 ^ (f.frac + f.expw) * 2 := by rw [codes_eq, ← pow_succ]; congr 1; unfold BFmt.width; omega
  rw [top] at h
  have split := Nat.div_add_mod c (2 ^ (f.frac + f.expw))
  have high : c / 2 ^ (f.frac + f.expw) < 2 := Nat.div_lt_of_lt_mul h
  unfold BFmt.mag BFmt.sign
  generalize c / 2 ^ (f.frac + f.expw) = b at split high
  interval_cases b <;> simp <;> omega

theorem sign_of_codeOf {f : BFmt} {zn : Bool} {z : Int} {c : Nat} (h : Spec.codeOf f zn z c) :
    f.sign c = if z = 0 then zn else decide (z < 0) := by
  obtain ⟨_, num⟩ := h
  have number := fval_number (number_of_num num)
  rw [(fval_of_num num).1] at number
  exact (FVal.fin.inj number).1.symm

theorem ratOf_of_codeOf {f : BFmt} {zn : Bool} {z : Int} {c : Nat} (h : Spec.codeOf f zn z c) :
    (z : ℚ) = ratOf (f.sign c) (f.sig (f.mag c)) (f.exp (f.mag c)) * 2 ^ (149 : Int) := by
  rw [sign_of_codeOf h]
  exact (fval_of_num h.2).2

/-- The code of a zero. -/
theorem codeOf_zero {f : BFmt} {zn : Bool} {c : Nat} (h : Spec.codeOf f zn 0 c) : c = zeroCode f zn := by
  have sign := sign_of_codeOf h
  have value := ratOf_of_codeOf h
  have sig : f.sig (f.mag c) = 0 := by
    rw [Int.cast_zero, zero_eq_mul, ratOf_eq_zero] at value
    exact value.resolve_right (by positivity)
  have mag : f.mag c = 0 := by
    have parts := Nat.div_add_mod (f.mag c) (2 ^ f.frac)
    have := Nat.two_pow_pos f.frac
    rw [BFmt.sig] at sig
    split at sig <;> simp_all
  rw [code_parts h.1, sign, mag]
  simp [zeroCode]

/-- Rounding a number that is a value of the format. -/
theorem roundF_codeOf {f : BFmt} {zn : Bool} {z : Int} {c : Nat} (code : Spec.codeOf f zn z c) (md : RM) (sat : Bool) {s : Bool} {m : Nat}
    {e : Int} (value : (z : ℚ) = ratOf s m e * 2 ^ (149 : Int)) (zero : m = 0 → s = zn) : roundF f md sat s m e false = (c, 0) := by
  have scale : (2 : ℚ) ^ (149 : Int) ≠ 0 := by positivity
  by_cases m0 : m = 0
  · have : z = 0 := by
      rw [ratOf_eq_zero.2 m0, zero_mul] at value
      exact_mod_cast value
    subst this
    simp [codeOf_zero code, zero m0, roundF, m0, zeroCode]
  · have nz : z ≠ 0 := by
      intro z0
      rw [z0, Int.cast_zero, zero_eq_mul, ratOf_eq_zero] at value
      exact m0 (value.resolve_right scale)
    have equal := mul_right_cancel₀ scale (value.symm.trans (ratOf_of_codeOf code))
    have sign : s = f.sign c := by
      have sig : f.sig (f.mag c) ≠ 0 := fun h => m0 (ratOf_eq_zero.1 (equal.trans (ratOf_eq_zero.2 h)))
      rw [Bool.eq_iff_iff, ← ratOf_neg_iff m0, ← ratOf_neg_iff sig, equal]
    have size := congrArg abs equal
    rw [abs_ratOf, abs_ratOf] at size
    rw [roundF_exact md sat s (number_of_num code.2) m0 size, sign, ← code_parts code.1]

end Sys2Proof.Machine
end

section
/-! PROOFS (O4, O5, O6, O30). The rounded operations on numbers: each gives the code of its exact result, where that is a value of the
format (R82). -/

namespace Sys2Proof.Machine

theorem ratOf_shift (s : Bool) (m n : Nat) (e : Int) : ratOf s (m * 2 ^ n) (e - n) = ratOf s m e := by
  have : (2 : ℚ) ^ (e - n) * 2 ^ n = 2 ^ e := by rw [← zpow_natCast, ← zpow_add₀ two_ne_zero, sub_add_cancel]
  rw [ratOf, ratOf, ← this]
  push_cast
  ring

section
variable {f : BFmt} {c : Nat} {z : Int} (md : RM) {a b : Bool} {m n : Nat} {e d : Int}

/-! ### Sums and products -/

theorem addFin_codeOf (code : Spec.codeOf f (if a = b then a else md == .rdn) z c)
    (value : (z : ℚ) = (ratOf a m e + ratOf b n d) * 2 ^ (149 : Int)) : addFin f md a m e b n d = (c, 0) := by
  let e0 := if e ≤ d then e else d
  have left : e0 ≤ e := by grind
  have right : e0 ≤ d := by grind
  have sum : (((scaleTo a m e e0 + scaleTo b n d e0 : Int)) : ℚ) * 2 ^ e0 = ratOf a m e + ratOf b n d := by
    rw [Int.cast_add, scaleTo_cast _ _ left, scaleTo_cast _ _ right, add_mul, ratOf_scale, ratOf_scale, sub_add_cancel, sub_add_cancel]
  unfold addFin
  change (if scaleTo a m e e0 + scaleTo b n d e0 = 0 then _ else _) = _
  split
  · next zero =>
    rw [← sum, zero, Int.cast_zero, zero_mul, zero_mul] at value
    obtain rfl : z = 0 := by exact_mod_cast value
    rw [codeOf_zero code]
    simp
  · next nonzero =>
    exact roundF_codeOf code md true (by rw [ratOf_natAbs, sum, value]) fun h => absurd (Int.natAbs_eq_zero.1 h) nonzero

theorem roundF_product (code : Spec.codeOf f (a != b) z c) (value : (z : ℚ) = ratOf a m e * ratOf b n d * 2 ^ (149 : Int)) :
    roundF f md true (a != b) (m * n) (e + d) false = (c, 0) :=
  roundF_codeOf code md true (by rw [ratOf_mul, value]) fun _ => rfl

/-! ### Quotients -/

/-- A divisor of a number times a power of two divides it times a power of two above the divisor. -/
theorem dvd_mul_two_pow {d n k : Nat} (pos : d ≠ 0) (h : d ∣ n * 2 ^ k) : d ∣ n * 2 ^ bitLen d := by
  obtain ⟨j, o, odd, rfl⟩ := Nat.exists_eq_two_pow_mul_odd pos
  have oddPart : o ∣ n := ((Nat.coprime_two_right.2 odd).pow_right k).dvd_of_dvd_mul_right ((Nat.dvd_mul_left ..).trans h)
  have low : 2 ^ j ≤ 2 ^ j * o := Nat.le_mul_of_pos_right _ odd.pos
  have le : j ≤ bitLen (2 ^ j * o) :=
    ((Nat.pow_lt_pow_iff_right (a := 2) (by omega)).1 (low.trans_lt (lt_two_pow_bitLen _))).le
  rw [mul_comm n]
  exact Nat.mul_dvd_mul (pow_dvd_pow 2 le) oddPart

theorem roundRat_codeOf (code : Spec.codeOf f (a != b) z c) (pos : n ≠ 0)
    (value : (z : ℚ) * ratOf b n d = ratOf a m e * 2 ^ (149 : Int)) : roundRat f md true (a != b) m n (e - d) = (c, 0) := by
  have size := congrArg abs value
  rw [abs_mul, abs_mul, abs_ratOf, abs_ratOf, abs_of_pos (show (0 : ℚ) < 2 ^ (149 : Int) by positivity), mul_assoc,
    ← zpow_add₀ two_ne_zero, ← Int.cast_abs, ← Nat.cast_natAbs, ← mul_assoc, ← Nat.cast_mul] at size
  have divides : ∃ k, n ∣ m * 2 ^ k := by
    rcases le_total d (e + 149) with h | h
    · exact ⟨_, eq_mul_of_value h size.symm ▸ Dvd.intro_left _ rfl⟩
    · exact ⟨0, by rw [pow_zero, mul_one, eq_mul_of_value h size, mul_right_comm]; exact Dvd.intro_left _ rfl⟩
  obtain ⟨k, hk⟩ := divides
  have whole : m * 2 ^ (bitLen n + 64) / n * n = m * 2 ^ (bitLen n + 64) := by
    apply Nat.div_mul_cancel
    rw [pow_add, ← mul_assoc]
    exact (dvd_mul_two_pow pos hk).mul_right _
  unfold roundRat
  dsimp only
  rw [whole, bne_self_eq_false]
  apply roundF_codeOf code md true _ fun _ => rfl
  have nonzero : ratOf b n d ≠ 0 := mt ratOf_eq_zero.1 pos
  apply mul_right_cancel₀ nonzero
  rw [value, mul_right_comm, ← ratOf_mul, whole]
  have sign : ((a != b) != b) = a := by cases a <;> cases b <;> rfl
  rw [sign, show e - d - ((bitLen n + 64 : Nat) : Int) + d = e - (bitLen n + 64 : Nat) by ring, ratOf_shift]

/-! ### Square roots -/

theorem isqrtAux_square (r : Nat) (k q : Nat) (low : q ≤ r) (high : r < q + 2 ^ k) : isqrtAux (r * r) k q = r := by
  induction k generalizing q with
  | zero => rw [isqrtAux]; omega
  | succ k ih =>
    rw [isqrtAux]
    split
    · next h => exact ih _ (Nat.mul_self_le_mul_self_iff.1 h) (by rw [pow_succ] at high; omega)
    · next h => exact ih _ low (not_le.1 (mt Nat.mul_self_le_mul_self h))

/-- The root of a square. -/
theorem isqrt_square (r : Nat) : isqrt (r * r) = r := by
  apply isqrtAux_square r _ 0 (Nat.zero_le r)
  rw [Nat.zero_add]
  by_contra h
  have square := Nat.mul_self_le_mul_self (not_lt.1 h)
  rw [← pow_add] at square
  have := (Nat.pow_lt_pow_iff_right (a := 2) (by omega)).1 (square.trans_lt (lt_two_pow_bitLen (r * r)))
  omega

theorem roundF_sqrt (code : Spec.codeOf f false z c) (nonneg : 0 ≤ z) (value : (z : ℚ) * z = m * 2 ^ e * 2 ^ (298 : Int)) :
    roundF f md true false (sqrtMag m e).1 (sqrtMag m e).2.1 (sqrtMag m e).2.2 = (c, 0) := by
  unfold sqrtMag
  dsimp only
  generalize hk : 128 + (if e % 2 = 0 then 0 else 1) = k
  have half : e - k = (e - k) / 2 + (e - k) / 2 := by
    split at hk <;> omega
  generalize (e - k) / 2 = h at half
  have root : ((m * 2 ^ k : Nat) : ℚ) = (z * 2 ^ (-149 - h)) * (z * 2 ^ (-149 - h)) := by
    rw [mul_mul_mul_comm, value, mul_assoc, mul_assoc, ← zpow_add₀ two_ne_zero, ← zpow_add₀ two_ne_zero, ← zpow_add₀ two_ne_zero,
      show e + (298 + (-149 - h + (-149 - h))) = k by omega]
    push_cast
    rfl
  obtain ⟨r, square⟩ := Rat.isSquare_natCast_iff.1 ⟨_, root⟩
  rw [square, Nat.cast_mul] at root
  have positive : (0 : ℚ) ≤ z * 2 ^ (-149 - h) := mul_nonneg (by exact_mod_cast nonneg) (by positivity)
  have equal := (mul_self_inj (Nat.cast_nonneg r) positive).1 root
  rw [square, isqrt_square, bne_self_eq_false]
  apply roundF_codeOf code md true _ fun _ => rfl
  rw [ratOf, equal]
  rw [if_neg (by decide), one_mul, mul_assoc, mul_assoc, ← zpow_add₀ two_ne_zero, ← zpow_add₀ two_ne_zero,
    show -149 - h + (h + 149) = 0 by ring, zpow_zero, mul_one]

end

end Sys2Proof.Machine
end

section
/-! PROOFS (O4, O5, O6, O30). The rounded operations on codes: numbers, NaNs, invalid operations, and a division by zero, as R82 gives
them. -/

namespace Sys2Proof.Machine

/-- A rounded operation on exact values; a root reads one of them, and only the fused operation all three. -/
def floatOp (op : Spec.FloatOp) (f : BFmt) (md : RM) (x y w : FVal) : Nat × Word :=
  match op with
  | .add => faddV f md x y
  | .sub => fsubV f md x y
  | .mul => fmulV f md x y
  | .fma => ffmaV f md x y w
  | .div => fdivV f md x y
  | .sqrt => fsqrtV f md x

/-! ### Exact results -/

theorem fdivV_codeOf {f : BFmt} {c : Nat} {z : Int} (md : RM) {a b : Bool} {m n : Nat} {e d : Int} (code : Spec.codeOf f (a != b) z c)
    (pos : n ≠ 0) (value : (z : ℚ) * ratOf b n d = ratOf a m e * 2 ^ (149 : Int)) :
    fdivV f md (.fin a m e) (.fin b n d) = (c, 0) := by
  unfold fdivV
  dsimp only
  rw [if_neg pos]
  split
  · next zero =>
    rw [ratOf_eq_zero.2 zero, zero_mul, mul_eq_zero, ratOf_eq_zero] at value
    obtain rfl : z = 0 := by exact_mod_cast value.resolve_right pos
    rw [codeOf_zero code]
  · exact roundRat_codeOf md code pos value

theorem fsqrtV_codeOf {f : BFmt} {c : Nat} {z : Int} (md : RM) {a : Bool} {m : Nat} {e : Int} (code : Spec.codeOf f a z c)
    (nonneg : 0 ≤ z) (value : (z : ℚ) * z = ratOf a m e * 2 ^ (298 : Int)) : fsqrtV f md (.fin a m e) = (c, 0) := by
  unfold fsqrtV
  dsimp only
  split
  · next zero =>
    rw [ratOf_eq_zero.2 zero, zero_mul, mul_self_eq_zero] at value
    obtain rfl : z = 0 := by exact_mod_cast value
    rw [codeOf_zero code]
  · next pos =>
    have plus : a = false := by
      by_contra neg
      have below := (ratOf_neg_iff (e := e) pos).2 (eq_true_of_ne_false neg)
      have square := mul_self_nonneg (z : ℚ)
      rw [value] at square
      exact absurd (mul_neg_of_neg_of_pos below (by positivity)) (not_lt.2 square)
    subst plus
    rw [if_neg (by decide)]
    exact roundF_sqrt md code nonneg (by rw [value]; simp [ratOf])

/-- R82: the exact result of numbers, where it is a value of the format. -/
theorem floatOp_exact {op : Spec.FloatOp} {f : BFmt} (md : RM) {cx cy cw c : Nat} {a b d : Bool} {u v t z : Int}
    (x : Spec.num f cx = .fin a u) (y : Spec.num f cy = .fin b v ∨ op = .sqrt) (w : Spec.num f cw = .fin d t ∨ op ≠ .fma)
    (exactly : Spec.exactly op u v t z) (code : Spec.codeOf f (Spec.zeroSign op (md == .rdn) a b d) z c) :
    floatOp op f md (fval f cx) (fval f cy) (fval f cw) = (c, 0) := by
  obtain ⟨readX, valueX⟩ := fval_of_num x
  have units : (2 : ℚ) ^ (149 : Int) ≠ 0 := by positivity
  have twice : (2 : ℚ) ^ (298 : Int) = 2 ^ (149 : Int) * 2 ^ (149 : Int) := by rw [← zpow_add₀ two_ne_zero]; rfl
  cases op with
  | sqrt =>
    obtain ⟨nonneg, square⟩ := exactly
    have square : (z : ℚ) * z = u * 2 ^ (149 : Int) := by exact_mod_cast square
    rw [floatOp, readX]
    exact fsqrtV_codeOf md code nonneg (by rw [square, valueX, twice, mul_assoc])
  | add =>
    obtain ⟨readY, valueY⟩ := fval_of_num (y.resolve_right (by decide))
    rw [floatOp, readX, readY]
    refine addFin_codeOf md code ?_
    rw [show z = u + v from exactly, Int.cast_add, valueX, valueY, add_mul]
  | sub =>
    obtain ⟨readY, valueY⟩ := fval_of_num (y.resolve_right (by decide))
    rw [floatOp, readX, readY]
    refine addFin_codeOf md code ?_
    rw [show z = u - v from exactly, Int.cast_sub, valueX, valueY, ratOf_not, ← sub_eq_add_neg, sub_mul]
  | mul =>
    obtain ⟨readY, valueY⟩ := fval_of_num (y.resolve_right (by decide))
    have product : (z : ℚ) * 2 ^ (149 : Int) = u * v := by exact_mod_cast exactly
    rw [floatOp, readX, readY]
    refine roundF_product md code (mul_right_cancel₀ units ?_)
    rw [product, valueX, valueY]
    ring
  | fma =>
    obtain ⟨readY, valueY⟩ := fval_of_num (y.resolve_right (by decide))
    obtain ⟨readW, valueW⟩ := fval_of_num (w.resolve_right (by decide))
    have product : (z : ℚ) * 2 ^ (149 : Int) = u * v + t * 2 ^ (149 : Int) := by exact_mod_cast exactly
    have sign : Spec.zeroSign .fma (md == .rdn) a b d = if (a != b) = d then (a != b) else md == .rdn := by
      rw [Spec.zeroSign]
      split
      · next h => exact h.symm
      · rfl
    rw [sign] at code
    rw [floatOp, readX, readY, readW]
    refine addFin_codeOf md code (mul_right_cancel₀ units ?_)
    rw [product, valueX, valueY, valueW, ratOf_mul]
    ring
  | div =>
    obtain ⟨readY, valueY⟩ := fval_of_num (y.resolve_right (by decide))
    obtain ⟨nonzero, quotient⟩ := exactly
    have quotient : (z : ℚ) * v = u * 2 ^ (149 : Int) := by exact_mod_cast quotient
    rw [floatOp, readX, readY]
    refine fdivV_codeOf md code ?_ (mul_right_cancel₀ units ?_)
    · intro zero
      rw [ratOf_eq_zero.2 zero, zero_mul] at valueY
      exact nonzero (by exact_mod_cast valueY)
    · rw [mul_assoc, ← valueY, quotient, valueX]

/-! ### Values that are no numbers -/

theorem nan_eq (f : BFmt) : Spec.nanOf f = f.nan := by cases f <;> rfl

theorem infinity_eq (f : BFmt) (s : Bool) : Spec.infinity f s = infCode f s := by
  simp only [Spec.infinity, fields_eq, infCode]

/-! A value as the statements write it says which kind it is. -/

@[simp] theorem num_eq_nan {x : FVal} {b : Bool} : x.num = .nan b ↔ x = .nan b := by cases x <;> simp [FVal.num]

@[simp] theorem num_eq_inf {x : FVal} {s : Bool} : x.num = .inf s ↔ x = .inf s := by cases x <;> simp [FVal.num]

theorem fin_of_num {x : FVal} {s : Bool} {u : Int} (h : x.num = .fin s u) : ∃ m e, x = .fin s m e ∧ (u = 0 ↔ m = 0) := by
  cases x with
  | fin r m e =>
    obtain ⟨rfl, rfl⟩ := Spec.FloatNum.fin.inj h
    exact ⟨m, e, rfl, scaleTo_eq_zero⟩
  | nan | inf => cases h

theorem zero_of_isZero {x : FVal} (h : Spec.isZero x.num = true) : ∃ s e, x = .fin s 0 e := by
  cases x with
  | fin s m e => exact ⟨s, e, by simpa [FVal.num, Spec.isZero, scaleTo_eq_zero] using h⟩
  | nan | inf => cases h

theorem inf_of_isInf {x : FVal} (h : Spec.isInf x.num = true) : ∃ s, x = .inf s := by
  cases x with
  | inf s => exact ⟨s, rfl⟩
  | nan | fin => cases h

/-! ### NaN operands -/

/-- A NaN among the operands, as the statements and as the model say it. -/
theorem nanCase_eq {f : BFmt} {xs : List FVal} {c : Nat} {fl : Word} (h : Spec.nanCase f (xs.map FVal.num) c fl) :
    xs.any FVal.isNan = true ∧ nanOf f (xs.any FVal.sig) = (c, fl) := by
  have mem : ∀ b, Spec.FloatNum.nan b ∈ xs.map FVal.num ↔ FVal.nan b ∈ xs := fun b => by simp
  have sig : xs.any FVal.sig = true ↔ FVal.nan true ∈ xs := by
    rw [List.any_eq_true]
    exact ⟨fun ⟨x, hx, hs⟩ => by cases x <;> simp_all [FVal.sig], fun hx => ⟨_, hx, rfl⟩⟩
  have isNan : ∀ b, FVal.nan b ∈ xs → xs.any FVal.isNan = true := fun b hb => List.any_eq_true.2 ⟨_, hb, rfl⟩
  obtain ⟨signalling, rfl, rfl⟩ | ⟨quiet, nan, rfl, rfl⟩ := h
  · rw [mem] at signalling
    exact ⟨isNan _ signalling, by rw [sig.2 signalling, nan_eq]; rfl⟩
  · rw [mem] at quiet nan
    exact ⟨isNan _ nan, by rw [eq_false_of_ne_true (mt sig.1 quiet), nan_eq]; rfl⟩

@[simp] theorem isNan_nan (b : Bool) : (FVal.nan b).isNan = true := rfl
@[simp] theorem isNan_inf (s : Bool) : (FVal.inf s).isNan = false := rfl
@[simp] theorem isNan_fin (s : Bool) (m : Nat) (e : Int) : (FVal.fin s m e).isNan = false := rfl
@[simp] theorem isNan_neg (x : FVal) : x.neg.isNan = x.isNan := by cases x <;> rfl
@[simp] theorem sig_nan (b : Bool) : (FVal.nan b).sig = b := rfl
@[simp] theorem sig_inf (s : Bool) : (FVal.inf s).sig = false := rfl
@[simp] theorem sig_fin (s : Bool) (m : Nat) (e : Int) : (FVal.fin s m e).sig = false := rfl
@[simp] theorem sig_neg (x : FVal) : x.neg.sig = x.sig := by cases x <;> rfl

theorem faddV_nan (f : BFmt) (md : RM) {x y : FVal} (h : x.isNan = true ∨ y.isNan = true) :
    faddV f md x y = nanOf f (x.sig || y.sig) := by
  cases x with
  | nan => rfl
  | inf | fin => cases y <;> simp_all [faddV]

theorem fmulV_nan (f : BFmt) (md : RM) {x y : FVal} (h : x.isNan = true ∨ y.isNan = true) :
    fmulV f md x y = nanOf f (x.sig || y.sig) := by
  cases x with
  | nan => rfl
  | inf | fin => cases y <;> simp_all [fmulV]

theorem fdivV_nan (f : BFmt) (md : RM) {x y : FVal} (h : x.isNan = true ∨ y.isNan = true) :
    fdivV f md x y = nanOf f (x.sig || y.sig) := by
  cases x with
  | nan => rfl
  | inf | fin => cases y <;> simp_all [fdivV]

theorem fsqrtV_nan (f : BFmt) (md : RM) {x : FVal} (h : x.isNan = true) : fsqrtV f md x = nanOf f x.sig := by
  cases x with
  | nan => rfl
  | inf | fin => cases h

/-- Only 0 × ∞ has no product. -/
theorem prodV_eq_none {x y : FVal} : prodV x y = none ↔ Spec.zeroTimesInf x.num y.num := by
  cases x <;> cases y <;> simp [prodV, Spec.zeroTimesInf, Spec.isInf, Spec.isZero, FVal.num, scaleTo_eq_zero]

/-- A product is a NaN where an operand is. -/
theorem prodV_nan {x y p : FVal} (h : prodV x y = some p) : p.isNan = (x.isNan || y.isNan) ∧ p.sig = (x.sig || y.sig) := by
  cases x with
  | nan => cases h; exact ⟨rfl, rfl⟩
  | inf a =>
    cases y with
    | nan | inf => cases h; exact ⟨rfl, rfl⟩
    | fin b m e =>
      obtain ⟨-, rfl⟩ : m ≠ 0 ∧ .inf (a != b) = p := by simpa [prodV] using h
      exact ⟨rfl, rfl⟩
  | fin a m e =>
    cases y with
    | nan | fin => cases h; exact ⟨rfl, rfl⟩
    | inf b =>
      obtain ⟨-, rfl⟩ : m ≠ 0 ∧ .inf (a != b) = p := by simpa [prodV] using h
      exact ⟨rfl, rfl⟩

/-- The values that an operation reads. -/
def valuesOf (op : Spec.FloatOp) (x y w : FVal) : List FVal :=
  match op with
  | .add | .sub | .mul | .div => [x, y]
  | .fma => [x, y, w]
  | .sqrt => [x]

theorem operands_eq (op : Spec.FloatOp) (x y w : FVal) :
    Spec.operands op x.num y.num w.num = (valuesOf op x y w).map FVal.num := by cases op <;> rfl

theorem floatOp_nan {op : Spec.FloatOp} (f : BFmt) (md : RM) {x y w : FVal} (nan : (valuesOf op x y w).any FVal.isNan = true)
    (whole : ¬ (op = .fma ∧ Spec.zeroTimesInf x.num y.num)) :
    floatOp op f md x y w = nanOf f ((valuesOf op x y w).any FVal.sig) := by
  cases op <;> simp only [valuesOf, List.any_cons, List.any_nil, Bool.or_false, Bool.or_eq_true] at nan ⊢
  case add => exact faddV_nan f md nan
  case sub => rw [floatOp, fsubV, faddV_nan f md (by rwa [isNan_neg]), sig_neg]
  case mul => exact fmulV_nan f md nan
  case div => exact fdivV_nan f md nan
  case sqrt => exact fsqrtV_nan f md nan
  case fma =>
    obtain ⟨p, hp⟩ := Option.ne_none_iff_exists'.1 fun none => whole ⟨rfl, prodV_eq_none.1 none⟩
    obtain ⟨isNan, sig⟩ := prodV_nan hp
    rw [floatOp, ffmaV, hp]
    dsimp only
    rw [faddV_nan f md (by rwa [isNan, Bool.or_eq_true, or_assoc]), sig, Bool.or_assoc]

/-! ### Invalid operations and divisions by zero -/

theorem fmulV_invalid (f : BFmt) (md : RM) {x y : FVal} (h : Spec.zeroTimesInf x.num y.num) : fmulV f md x y = invalid f := by
  obtain ⟨inf, zero⟩ | ⟨zero, inf⟩ := h <;> obtain ⟨s, rfl⟩ := inf_of_isInf inf <;> obtain ⟨r, e, rfl⟩ := zero_of_isZero zero <;> rfl

theorem fdivV_invalid (f : BFmt) (md : RM) {x y : FVal}
    (h : (Spec.isZero x.num = true ∧ Spec.isZero y.num = true) ∨ (Spec.isInf x.num = true ∧ Spec.isInf y.num = true)) :
    fdivV f md x y = invalid f := by
  obtain ⟨zero, zero'⟩ | ⟨inf, inf'⟩ := h
  · obtain ⟨s, e, rfl⟩ := zero_of_isZero zero
    obtain ⟨r, d, rfl⟩ := zero_of_isZero zero'
    rfl
  · obtain ⟨s, rfl⟩ := inf_of_isInf inf
    obtain ⟨r, rfl⟩ := inf_of_isInf inf'
    rfl

theorem faddV_opposite (f : BFmt) (md : RM) (a : Bool) : faddV f md (.inf a) (.inf !a) = invalid f := by cases a <;> rfl

theorem floatOp_invalid {op : Spec.FloatOp} (f : BFmt) (md : RM) {x y w : FVal} (h : Spec.invalidOp op x.num y.num w.num) :
    floatOp op f md x y w = invalid f := by
  cases op with
  | add =>
    obtain ⟨a, x, y⟩ := h
    rw [floatOp, num_eq_inf.1 x, num_eq_inf.1 y, faddV_opposite]
  | sub =>
    obtain ⟨a, x, y⟩ := h
    rw [floatOp, num_eq_inf.1 x, num_eq_inf.1 y]
    exact faddV_opposite f md a
  | mul => exact fmulV_invalid f md h
  | div => exact fdivV_invalid f md h
  | sqrt =>
    obtain x | ⟨u, x, pos⟩ := h
    · rw [floatOp, num_eq_inf.1 x]
      rfl
    · obtain ⟨m, e, rfl, zero⟩ := fin_of_num x
      simp [floatOp, fsqrtV, mt zero.2 pos]
  | fma =>
    obtain none | ⟨a, b, x, y, w⟩ | ⟨a, b, u, ⟨x, y⟩ | ⟨x, y⟩, pos, w⟩ := h
    · rw [floatOp, ffmaV, prodV_eq_none.2 none]
    · rw [floatOp, num_eq_inf.1 x, num_eq_inf.1 y, num_eq_inf.1 w]
      exact faddV_opposite f md (a != b)
    · obtain ⟨m, e, rfl, zero⟩ := fin_of_num y
      rw [floatOp, num_eq_inf.1 x, num_eq_inf.1 w, ffmaV, prodV, if_neg (mt zero.2 pos)]
      exact faddV_opposite f md (a != b)
    · obtain ⟨m, e, rfl, zero⟩ := fin_of_num x
      rw [floatOp, num_eq_inf.1 y, num_eq_inf.1 w, ffmaV, prodV, if_neg (mt zero.2 pos), bne_comm (a := a)]
      exact faddV_opposite f md (b != a)

theorem fdivV_zero (f : BFmt) (md : RM) (a b : Bool) {m : Nat} (pos : m ≠ 0) (e d : Int) :
    fdivV f md (.fin a m e) (.fin b 0 d) = (infCode f (a != b), fDZ) := by simp [fdivV, pos]

/-- R82: the operation gives the code and the flags of the rule, where it says them. -/
theorem floatOp_case {op : Spec.FloatOp} {f : BFmt} {md : RM} {cx cy cw c : Nat} {fl : Word}
    (h : Spec.floatCase op f (md == .rdn) cx cy cw c fl) : floatOp op f md (fval f cx) (fval f cy) (fval f cw) = (c, fl) := by
  obtain ⟨a, b, d, u, v, t, z, x, y, w, exactly, code, rfl⟩ | ⟨whole, nan⟩ | ⟨bad, rfl, rfl⟩ | ⟨rfl, a, b, u, x, pos, y, rfl, rfl⟩ := h
  · exact floatOp_exact md x y w exactly code
  · rw [num_eq, num_eq, num_eq, operands_eq] at nan
    rw [num_eq, num_eq] at whole
    obtain ⟨any, eq⟩ := nanCase_eq nan
    rw [floatOp_nan f md any whole, eq]
  · rw [num_eq, num_eq, num_eq] at bad
    rw [floatOp_invalid f md bad, nan_eq]
    rfl
  · rw [num_eq] at x y
    obtain ⟨m, e, x, zero⟩ := fin_of_num x
    obtain ⟨n, d, y, zero'⟩ := fin_of_num y
    rw [x, y, zero'.1 rfl, infinity_eq]
    exact fdivV_zero f md a b (mt zero.2 pos) e d

end Sys2Proof.Machine
end

section
/-! PROOFS (O4, O30). The order of codes is that of sign and magnitude: minimum, maximum and comparison of floats (R83, R84). -/

namespace Sys2Proof.Machine

/-! ### Magnitudes rise with their values -/

/-- The value of a magnitude in units of the least one of the format. -/
def unitsOf (f : BFmt) (k : Nat) : Nat := f.sig k * 2 ^ (max (k / 2 ^ f.frac) 1 - 1)

theorem units_value (f : BFmt) (k : Nat) : (f.sig k : ℚ) * 2 ^ f.exp k = unitsOf f k * 2 ^ (1 - (f.bias : Int) - f.frac) := by
  have : 1 ≤ max (k / 2 ^ f.frac) 1 := le_max_right ..
  rw [unitsOf, BFmt.exp]
  generalize max (k / 2 ^ f.frac) 1 = x at this
  push_cast
  rw [mul_assoc, ← zpow_natCast, ← zpow_add₀ two_ne_zero]
  congr 2
  omega

theorem units_lt_next (f : BFmt) (k : Nat) : unitsOf f k < 2 ^ f.frac * 2 ^ (k / 2 ^ f.frac) := by
  have rest := Nat.mod_lt k (Nat.two_pow_pos f.frac)
  rw [unitsOf, BFmt.sig]
  split
  · next h => simpa [h] using rest
  · next h =>
    rw [max_eq_left (Nat.one_le_iff_ne_zero.2 h), show 2 ^ (k / 2 ^ f.frac) = 2 * 2 ^ (k / 2 ^ f.frac - 1) by
      rw [← pow_succ', Nat.sub_add_cancel (Nat.one_le_iff_ne_zero.2 h)], ← mul_assoc]
    exact Nat.mul_lt_mul_of_pos_right (by omega) (Nat.two_pow_pos _)

theorem le_units (f : BFmt) {k : Nat} (h : k / 2 ^ f.frac ≠ 0) : 2 ^ f.frac * 2 ^ (k / 2 ^ f.frac - 1) ≤ unitsOf f k := by
  rw [unitsOf, BFmt.sig, if_neg h, max_eq_left (Nat.one_le_iff_ne_zero.2 h)]
  exact Nat.mul_le_mul_right _ (Nat.le_add_right ..)

theorem unitsOf_strictMono (f : BFmt) : StrictMono (unitsOf f) := by
  intro j k h
  rcases (Nat.div_le_div_right (c := 2 ^ f.frac) h.le).eq_or_lt with x | x
  · have parts := Nat.div_add_mod j (2 ^ f.frac)
    have parts' := Nat.div_add_mod k (2 ^ f.frac)
    rw [unitsOf, unitsOf, x]
    refine Nat.mul_lt_mul_of_pos_right ?_ (Nat.two_pow_pos _)
    rw [BFmt.sig, BFmt.sig, x]
    rw [x] at parts
    split <;> omega
  · calc unitsOf f j < 2 ^ f.frac * 2 ^ (j / 2 ^ f.frac) := units_lt_next f j
      _ ≤ 2 ^ f.frac * 2 ^ (k / 2 ^ f.frac - 1) := Nat.mul_le_mul_left _ (Nat.pow_le_pow_right two_pos (Nat.le_sub_one_of_lt x))
      _ ≤ unitsOf f k := le_units f (Nat.zero_lt_of_lt x).ne'

theorem unitsOf_zero (f : BFmt) : unitsOf f 0 = 0 := by simp [unitsOf, BFmt.sig]

/-! ### The order of sign and magnitude -/

/-- The place of a code among those that are no NaN, with -0 below +0 or at it. -/
def place (zeros : Bool) (s : Bool) (k : Nat) : Int := if s && (zeros || k != 0) then -(k : Int) - 1 else k

/-- Numbers lie in the order of their places, where both zeros have one place. -/
theorem ratOf_lt_iff (f : BFmt) (s r : Bool) (j k : Nat) :
    ratOf s (f.sig j) (f.exp j) < ratOf r (f.sig k) (f.exp k) ↔ place false s j < place false r k := by
  have unit : (0 : ℚ) < 2 ^ (1 - (f.bias : Int) - f.frac) := by positivity
  have mono := (unitsOf_strictMono f).lt_iff_lt (a := j) (b := k)
  have mono' := (unitsOf_strictMono f).lt_iff_lt (a := k) (b := j)
  have zero := (unitsOf_strictMono f).lt_iff_lt (a := 0) (b := j)
  have zero' := (unitsOf_strictMono f).lt_iff_lt (a := 0) (b := k)
  rw [unitsOf_zero] at zero zero'
  have signed : ∀ (b : Bool) (i : Nat), ratOf b (f.sig i) (f.exp i) =
      ((if b then -(unitsOf f i : Int) else unitsOf f i : Int) : ℚ) * 2 ^ (1 - (f.bias : Int) - f.frac) := by
    intro b i
    rw [ratOf, units_value]
    cases b <;> simp
  rw [signed, signed, mul_lt_mul_iff_of_pos_right unit, Int.cast_lt]
  unfold place
  grind

theorem scaleTo_lt_iff (s r : Bool) (m n : Nat) {e d e0 : Int} (he : e0 ≤ e) (hd : e0 ≤ d) :
    scaleTo s m e e0 < scaleTo r n d e0 ↔ ratOf s m e < ratOf r n d := by
  have unit : (0 : ℚ) < 2 ^ e0 := by positivity
  rw [← Int.cast_lt (R := ℚ), scaleTo_cast _ _ he, scaleTo_cast _ _ hd, ← mul_lt_mul_iff_of_pos_right unit, ratOf_scale, ratOf_scale,
    sub_add_cancel, sub_add_cancel]

/-- How two integers stand to each other. -/
def orderOf (a b : Int) : Ordering := if a < b then .lt else if b < a then .gt else .eq

theorem cmpV_numbers (f : BFmt) (zeros s r : Bool) (j k : Nat) :
    cmpV zeros (.fin s (f.sig j) (f.exp j)) (.fin r (f.sig k) (f.exp k)) = orderOf (place zeros s j) (place zeros r k) := by
  have low : (if f.exp j ≤ f.exp k then f.exp j else f.exp k) ≤ f.exp j := by split <;> omega
  have low' : (if f.exp j ≤ f.exp k then f.exp j else f.exp k) ≤ f.exp k := by split <;> omega
  have sigZero : f.sig j = 0 ↔ j = 0 := by
    have := (unitsOf_strictMono f).injective.eq_iff (a := j) (b := 0)
    rw [← this, unitsOf_zero, unitsOf, mul_eq_zero]
    simp
  unfold cmpV
  dsimp only
  simp only [scaleTo_lt_iff _ _ _ _ low low', scaleTo_lt_iff _ _ _ _ low' low, ratOf_lt_iff, sigZero]
  unfold orderOf place
  cases zeros
  · simp
  · cases s <;> cases r <;> simp <;> grind

/-! ### Codes that are no NaN -/

/-- A code that is no NaN is a number, or an infinity at the limit. -/
theorem number_or_inf {f : BFmt} {c : Nat} (h : (fval f c).isNan = false) :
    (f.mag c < f.limit ∧ fval f c = .fin (f.sign c) (f.sig (f.mag c)) (f.exp (f.mag c))) ∨
      (f.mag c = f.limit ∧ fval f c = .inf (f.sign c)) := by
  rcases lt_or_ge (f.mag c) f.limit with number | special
  · exact .inl ⟨number, fval_number number⟩
  · have value := fval_special special
    rw [← not_lt, mag_lt_limit_iff, not_not] at special
    split at value
    · next inf =>
      refine .inr ⟨?_, value⟩
      have parts := Nat.div_add_mod (f.mag c) (2 ^ f.frac)
      rw [special.1, inf.2, add_zero, mul_comm] at parts
      rw [BFmt.limit, if_neg (by simpa using inf.1), parts]
    · rw [value] at h
      cases h

/-- Two codes that are no NaN compare as their places. -/
theorem cmpV_codes {f : BFmt} {cx cy : Nat} (zeros : Bool) (x : (fval f cx).isNan = false) (y : (fval f cy).isNan = false) :
    cmpV zeros (fval f cx) (fval f cy) = orderOf (place zeros (f.sign cx) (f.mag cx)) (place zeros (f.sign cy) (f.mag cy)) := by
  have pos : 0 < f.limit := by cases f <;> decide
  rcases number_or_inf x with ⟨kx, ex⟩ | ⟨kx, ex⟩ <;> rcases number_or_inf y with ⟨ky, ey⟩ | ⟨ky, ey⟩ <;> rw [ex, ey]
  · exact cmpV_numbers ..
  all_goals
    unfold orderOf place cmpV
    cases f.sign cx <;> cases f.sign cy <;> grind

theorem key_eq (f : BFmt) (c : Nat) : Spec.key f c = place true (f.sign c) (f.mag c) := by
  have top : Spec.codes f = 2 ^ (f.frac + f.expw) * 2 := by rw [codes_eq, ← pow_succ]; congr 1; unfold BFmt.width; omega
  have sign : c % (2 * 2 ^ (f.frac + f.expw)) < 2 ^ (f.frac + f.expw) ↔ f.sign c = false := by
    have low := Nat.mod_lt c (Nat.two_pow_pos (f.frac + f.expw))
    rw [mul_comm, Nat.mod_mul, BFmt.sign, beq_eq_false_iff_ne]
    rcases Nat.mod_two_eq_zero_or_one (c / 2 ^ (f.frac + f.expw)) with h | h <;> rw [h] <;> omega
  unfold Spec.key place
  rw [top, Nat.mul_div_cancel _ two_pos]
  dsimp only
  rw [BFmt.mag]
  cases h : f.sign c <;> simp [sign, h]

/-- The keys of a comparison, which takes both zeros as one (R84). -/
theorem key_zeros (f : BFmt) (c : Nat) : (if Spec.key f c = -1 then 0 else Spec.key f c) = place false (f.sign c) (f.mag c) := by
  rw [key_eq]
  unfold place
  cases f.sign c <;> grind

/-! ### Minimum, maximum and comparison -/

theorem isNan_iff {x : FVal} : (x.num = .nan true ∨ x.num = .nan false) ↔ x.isNan = true := by
  cases x with
  | nan b => cases b <;> simp [FVal.num]
  | inf | fin => simp [FVal.num]

theorem any_isNan_iff {x y : FVal} :
    (x.num = .nan true ∨ x.num = .nan false ∨ y.num = .nan true ∨ y.num = .nan false) ↔ (x.isNan || y.isNan) = true := by
  rw [Bool.or_eq_true, ← isNan_iff, ← isNan_iff, or_assoc]

theorem any_sig_iff {x y : FVal} : (x.num = .nan true ∨ y.num = .nan true) ↔ (x.sig || y.sig) = true := by
  have sig : ∀ z : FVal, z.num = .nan true ↔ z.sig = true := fun z => by cases z <;> simp [FVal.num]
  rw [sig, sig, Bool.or_eq_true]

theorem orderOf_lt (a b : Int) : orderOf a b = .lt ↔ a < b := by unfold orderOf; grind
theorem orderOf_gt (a b : Int) : orderOf a b = .gt ↔ b < a := by unfold orderOf; grind
theorem orderOf_eq (a b : Int) : orderOf a b = .eq ↔ a = b := by unfold orderOf; grind

/-- R83. -/
theorem fminmax_case {isMax : Bool} {f : BFmt} {cx cy c : Nat} {fl : Word} (h : Spec.minmaxCase isMax f cx cy c fl) :
    fminmax f isMax (cx % 2 ^ f.width) (cy % 2 ^ f.width) = (c, fl) := by
  obtain ⟨rfl, rfl⟩ := h
  simp only [codes_eq, num_eq, isNan_iff, any_sig_iff, key_eq, nan_eq]
  generalize cx % 2 ^ f.width = x
  generalize cy % 2 ^ f.width = y
  unfold fminmax
  cases hx : (fval f x).isNan <;> cases hy : (fval f y).isNan
  case false.false =>
    dsimp only
    rw [hx, hy, cmpV_codes true hx hy]
    generalize place true (f.sign x) (f.mag x) = a
    generalize place true (f.sign y) (f.mag y) = b
    cases isMax <;> simp [flagIf, fNV, orderOf_lt, orderOf_gt] <;> grind
  all_goals simp [hx, hy, flagIf, fNV]

/-- R84. -/
theorem fcmpV_case (k : FCond) (f : BFmt) (cx cy : Nat) : fcmpV k (fval f cx) (fval f cy) = Spec.compared k f cx cy := by
  unfold Spec.compared fcmpV
  simp only [num_eq, any_isNan_iff, any_sig_iff, key_zeros]
  cases nan : (fval f cx).isNan || (fval f cy).isNan
  case true => cases k <;> simp [flagIf, fNV]
  case false =>
    rw [Bool.or_eq_false_iff] at nan
    rw [cmpV_codes false nan.1 nan.2]
    generalize place false (f.sign cx) (f.mag cx) = a
    generalize place false (f.sign cy) (f.mag cy) = b
    cases k <;> simp [flagIf, fNV, bne, beq_eq_decide, orderOf_lt, orderOf_gt, orderOf_eq]
    case le => rw [← decide_not, decide_eq_decide, not_le]

end Sys2Proof.Machine
end

section
/-! PROOFS (O4, O30). Conversions between floats, and between floats and integers (R74, R75, R85). -/

namespace Sys2Proof.Machine

/-! ### A float into a float -/

theorem fcvtFF_case {src dst : BFmt} {sat : Bool} {cx c : Nat} {fl : Word} (md : RM) (h : Spec.convertCase src dst sat cx c fl) :
    fcvtFF src dst md sat (cx % 2 ^ src.width) = (c, fl) := by
  unfold fcvtFF
  rw [fval_low]
  obtain ⟨a, u, x, code, rfl⟩ | nan | ⟨a, x, rest⟩ := h
  · obtain ⟨read, value⟩ := fval_of_num x
    rw [read]
    refine roundF_codeOf code md sat value fun zero => ?_
    rfl
  · rw [num_eq, ← List.map_singleton] at nan
    obtain ⟨isNan, eq⟩ := nanCase_eq nan
    simp only [List.any_cons, List.any_nil, Bool.or_false] at isNan eq
    revert isNan eq
    cases fval src cx with
    | nan b => exact fun _ eq => eq
    | inf | fin => exact fun isNan => absurd isNan Bool.false_ne_true
  · rw [num_eq, num_eq_inf] at x
    rw [x]
    by_cases a8 : dst = .f8a
    · rw [if_pos a8] at rest
      obtain ⟨rfl, rfl⟩ := rest
      subst a8
      rfl
    · rw [if_neg a8] at rest
      obtain ⟨rfl, rfl⟩ := rest
      rw [infinity_eq]
      exact if_neg (by simpa using a8)

/-! ### A float into an integer -/

theorem le_ite_succ (p : Prop) [Decidable p] (n : Nat) : n ≤ if p then n + 1 else n := by split <;> omega

/-- A rounded magnitude is not below an integer that the magnitude is not below. -/
theorem le_roundAt {n m : Nat} {e t : Int} (md : RM) (s : Bool) (h : (n : ℚ) * 2 ^ t ≤ m * 2 ^ e) :
    n ≤ (roundAt md s m e false t).1 := by
  unfold roundAt
  split
  · next le =>
    have unit : (0 : ℚ) < 2 ^ t := by positivity
    rw [← sub_add_cancel e t, zpow_add₀ two_ne_zero, ← mul_assoc, mul_le_mul_iff_of_pos_right unit, zpow_toNat (by omega)] at h
    exact_mod_cast h
  · next lt =>
    have unit : (0 : ℚ) < 2 ^ e := by positivity
    rw [← sub_add_cancel t e, zpow_add₀ two_ne_zero, ← mul_assoc, mul_le_mul_iff_of_pos_right unit, zpow_toNat (by omega)] at h
    have whole : n * 2 ^ (t - e).toNat ≤ m := by exact_mod_cast h
    have floor : n ≤ m / 2 ^ (t - e).toNat := (Nat.le_div_iff_mul_le (Nat.two_pow_pos _)).2 whole
    exact floor.trans (le_ite_succ _ _)

/-- What a result of `w` bits stands for, modulo 2^w. -/
theorem ofInt_eq_ofNat {w c : Nat} {z : Int} (h : ((c : Int) - z) % 2 ^ w = 0) : BitVec.ofInt w z = BitVec.ofNat w c := by
  have same : z % (2 ^ w : Nat) = (c : Int) % (2 ^ w : Nat) :=
    (Int.emod_eq_emod_iff_emod_sub_eq_zero.2 (by push_cast; exact h)).symm
  apply BitVec.eq_of_toInt_eq
  rw [BitVec.toInt_ofInt, BitVec.toInt_ofNat', ← Int.emod_bmod z, same, Int.emod_bmod]

theorem toNat_cast {z : Int} (h : 0 ≤ z) : ((z.toNat : Nat) : ℚ) = z := by exact_mod_cast Int.toNat_of_nonneg h

/-- A finite value as an integer, clamped to a range. -/
def clampInt (lo hi : Int) (md : RM) (s : Bool) (m : Nat) (e : Int) : Int × Word :=
  let r := roundAt md s m e false 0
  let v : Int := if s then -(r.1 : Int) else r.1
  if v < lo then (lo, fNV) else if hi < v then (hi, fNV) else (v, flagIf r.2 fNX)

section
variable {lo hi : Int} (md : RM) {s : Bool} {m : Nat} {e : Int}

theorem clampInt_exact {z : Int} (value : (z : ℚ) = ratOf s m e) (low : lo ≤ z) (high : z ≤ hi) :
    clampInt lo hi md s m e = (z, 0) := by
  have size : (m : ℚ) * 2 ^ e = (z.natAbs : Nat) * 2 ^ (0 : Int) := by
    rw [← abs_ratOf s, ← value, Nat.cast_natAbs, Int.cast_abs, zpow_zero, mul_one]
  have sign : (if s then -(z.natAbs : Int) else z.natAbs) = z := by
    by_cases m0 : m = 0
    · rw [ratOf_eq_zero.2 m0] at value
      obtain rfl : z = 0 := by exact_mod_cast value
      simp
    · have neg : z < 0 ↔ s = true := by
        rw [← ratOf_neg_iff m0, ← value]
        exact_mod_cast Iff.rfl
      grind
  unfold clampInt
  rw [roundAt_exact md s size]
  dsimp only
  rw [sign, if_neg (not_lt.2 low), if_neg (not_lt.2 high)]
  rfl

theorem clampInt_low (below : ratOf s m e ≤ lo - 1) (zero : lo ≤ 0) : clampInt lo hi md s m e = (lo, fNV) := by
  have lo0 : (lo : ℚ) ≤ 0 := by exact_mod_cast zero
  have neg : ratOf s m e < 0 := by linarith
  have m0 : m ≠ 0 := mt ratOf_eq_zero.2 neg.ne
  have sign := (ratOf_neg_iff m0).1 neg
  have size : (((1 - lo).toNat : Nat) : ℚ) * 2 ^ (0 : Int) ≤ m * 2 ^ e := by
    rw [← abs_ratOf s m, abs_of_neg neg, zpow_zero, mul_one, toNat_cast (by omega)]
    push_cast
    linarith
  have floor := le_roundAt md s size
  unfold clampInt
  dsimp only
  rw [sign] at floor ⊢
  rw [if_pos rfl, if_pos (by omega)]

theorem clampInt_high (above : (hi : ℚ) + 1 ≤ ratOf s m e) (low : lo ≤ 0) (zero : 0 ≤ hi) : clampInt lo hi md s m e = (hi, fNV) := by
  have hi0 : (0 : ℚ) ≤ hi := by exact_mod_cast zero
  have pos : 0 < ratOf s m e := by linarith
  have m0 : m ≠ 0 := mt ratOf_eq_zero.2 pos.ne'
  have sign := eq_false_of_ne_true (mt (ratOf_neg_iff m0).2 pos.not_gt)
  have size : (((hi + 1).toNat : Nat) : ℚ) * 2 ^ (0 : Int) ≤ m * 2 ^ e := by
    rw [← abs_ratOf s m, abs_of_pos pos, zpow_zero, mul_one, toNat_cast (by omega)]
    push_cast
    exact above
  have floor := le_roundAt md s size
  unfold clampInt
  dsimp only
  rw [sign] at floor ⊢
  rw [if_neg Bool.false_ne_true, if_neg (by omega), if_pos (by omega)]

end

/-- The range of an integer of `w` bits (R75). -/
def leastInt (signed : Bool) (w : Nat) : Int := if signed then -2 ^ (w - 1) else 0
def greatestInt (signed : Bool) (w : Nat) : Int := if signed then 2 ^ (w - 1) - 1 else 2 ^ w - 1

theorem leastInt_le (signed : Bool) (w : Nat) : leastInt signed w ≤ 0 := by
  unfold leastInt
  split <;> simp

theorem greatestInt_nonneg (signed : Bool) (w : Nat) : 0 ≤ greatestInt signed w := by
  have one (k : Nat) : (1 : Int) ≤ 2 ^ k := Int.pow_pos two_pos
  unfold greatestInt
  split
  · have := one (w - 1); omega
  · have := one w; omega

/-- R75. -/
theorem fcvtFI_case {signed : Bool} {w cx c : Nat} {fl : Word} (md : RM) (h : Spec.toIntCase signed w cx c fl) :
    BitVec.ofInt w (fcvtFI .f32 w signed md (cx % 2 ^ 32)).1 = BitVec.ofNat w c ∧ (fcvtFI .f32 w signed md (cx % 2 ^ 32)).2 = fl := by
  have read : fcvtFI .f32 w signed md (cx % 2 ^ 32) = match fval .f32 cx with
      | .nan _ => (0, fNV)
      | .inf s => (if s then leastInt signed w else greatestInt signed w, fNV)
      | .fin s m e => clampInt (leastInt signed w) (greatestInt signed w) md s m e := by
    rw [fcvtFI, show fval .f32 (cx % 2 ^ 32) = fval .f32 cx from fval_low .f32 cx]
    cases fval .f32 cx <;> rfl
  have unit : (0 : ℚ) < 2 ^ (149 : Int) := by positivity
  obtain ⟨a, u, z, x, units, low, high, is, rfl⟩ | ⟨⟨b, x⟩, rfl, rfl⟩ | ⟨x | ⟨a, u, x, below⟩, is, rfl⟩ |
    ⟨x | ⟨a, u, x, above⟩, is, rfl⟩ := h
  · obtain ⟨fin, value⟩ := fval_of_num x
    have value : (z : ℚ) = ratOf a (BFmt.sig .f32 (BFmt.mag .f32 cx)) (BFmt.exp .f32 (BFmt.mag .f32 cx)) := by
      apply mul_right_cancel₀ unit.ne'
      rw [← value, units]
      push_cast
      rfl
    rw [read, fin]
    dsimp only
    rw [clampInt_exact (lo := leastInt signed w) (hi := greatestInt signed w) md value low high]
    exact ⟨ofInt_eq_ofNat is.2, rfl⟩
  · rw [num_eq, num_eq_nan] at x
    rw [read, x]
    exact ⟨rfl, rfl⟩
  · rw [num_eq, num_eq_inf] at x
    rw [read, x]
    exact ⟨ofInt_eq_ofNat is.2, rfl⟩
  · obtain ⟨fin, value⟩ := fval_of_num x
    rw [read, fin]
    dsimp only
    rw [clampInt_low md _ (leastInt_le signed w)]
    · exact ⟨ofInt_eq_ofNat is.2, rfl⟩
    · have below : (u : ℚ) ≤ (leastInt signed w - 1) * 2 ^ (149 : Int) := by exact_mod_cast below
      rwa [value, mul_le_mul_iff_of_pos_right unit] at below
  · rw [num_eq, num_eq_inf] at x
    rw [read, x]
    exact ⟨ofInt_eq_ofNat is.2, rfl⟩
  · obtain ⟨fin, value⟩ := fval_of_num x
    rw [read, fin]
    dsimp only
    rw [clampInt_high md _ (leastInt_le signed w) (greatestInt_nonneg signed w)]
    · exact ⟨ofInt_eq_ofNat is.2, rfl⟩
    · have above : (greatestInt signed w + 1) * 2 ^ (149 : Int) ≤ (u : ℚ) := by exact_mod_cast above
      rwa [value, mul_le_mul_iff_of_pos_right unit] at above

/-! ### An integer into a float -/

theorem fcvtIF_case {v : Int} {c : Nat} {fl : Word} (md : RM) (h : Spec.fromIntCase v c fl) : fcvtIF .f32 md v = (c, fl) := by
  obtain ⟨code, rfl⟩ := h
  refine roundF_codeOf code md true ?_ fun zero => ?_
  · rw [ratOf_natAbs]
    push_cast
    simp
  · rw [Int.natAbs_eq_zero.1 zero]
    rfl

end Sys2Proof.Machine
end

section
/-! PROOFS (O4, O6). Level-index codes: what a code is read as, and the special and exact cases of sums, products and quotients (R67, R68,
R215, R216, R220). -/

namespace Sys2Proof.Machine

/-! ### The reading of a code -/

theorem lfrac_eq (f : LFmt) : Spec.lfrac f = f.frac := by cases f <;> rfl

theorem lfields_eq (f : LFmt) (c : Nat) : Spec.lfields f c = ((lread f c).s, (lread f c).q, (lread f c).t) := by
  simp only [Spec.lfields, lfrac_eq, lread, Bool.beq_eq_decide_eq]

theorem lread_t_lt (f : LFmt) (c : Nat) : (lread f c).t < 2 ^ (f.frac + 3) := Nat.mod_lt _ (Nat.two_pow_pos _)

theorem lread_eq (f : LFmt) (c : Nat) : lread f c = ⟨c.testBit (f.frac + 4), c.testBit (f.frac + 3), c % 2 ^ (f.frac + 3)⟩ := by
  have bit (k : Nat) : (c / 2 ^ k % 2 == 1) = c.testBit k := by
    rw [← Nat.toNat_testBit]
    cases c.testBit k <;> rfl
  rw [lread, bit, bit]

/-- Only the low bits of a code are read. -/
theorem lread_low (f : LFmt) (c : Nat) : lread f (c % 2 ^ f.width) = lread f c := by
  have t : c % 2 ^ f.width % 2 ^ (f.frac + 3) = c % 2 ^ (f.frac + 3) :=
    Nat.mod_mod_of_dvd _ (pow_dvd_pow 2 (by unfold LFmt.width; omega))
  rw [lread_eq, lread_eq, t]
  simp [Nat.testBit_mod_two_pow, LFmt.width]

theorem lread_lcode (f : LFmt) (s q : Bool) {t : Nat} (h : t < 2 ^ (f.frac + 3)) : lread f (lcode f s q t) = ⟨s, q, t⟩ := by
  revert h
  cases f <;> cases s <;> cases q <;> simp [lread, lcode, LFmt.frac] <;> omega

/-- The code with the other sign, as LSUB forms it. -/
theorem lread_flip (f : LFmt) (c : Nat) :
    lread f (Nat.xor (c % 2 ^ f.width) (2 ^ (f.frac + 4))) = ⟨!(lread f c).s, (lread f c).q, (lread f c).t⟩ := by
  have t : (c % 2 ^ f.width ^^^ 2 ^ (f.frac + 4)) % 2 ^ (f.frac + 3) = c % 2 ^ (f.frac + 3) := by
    rw [Nat.xor_mod_two_pow, Nat.mod_mod_of_dvd _ (pow_dvd_pow 2 (by unfold LFmt.width; omega)),
      Nat.mod_eq_zero_of_dvd (pow_dvd_pow 2 (by omega)), Nat.xor_zero]
  change lread f (c % 2 ^ f.width ^^^ 2 ^ (f.frac + 4)) = _
  rw [lread_eq, lread_eq, t]
  simp [Nat.testBit_mod_two_pow, Nat.testBit_xor, LFmt.width]

theorem lmade_eq (f : LFmt) (s q : Bool) (t : Nat) : Spec.lmade f s q t = lmake f s q t := by
  simp [Spec.lmade, lfrac_eq, lmake, lcode, LFmt.one]

/-! ### Kinds of codes -/

theorem isNar_iff (f : LFmt) (c : Nat) : Spec.lIsNar f c ↔ (lread f c).isNar f = true := by
  rw [Spec.lIsNar, lfields_eq, lfrac_eq, LNum.isNar, Bool.and_eq_true, decide_eq_true_iff]
  rfl

theorem isZero_iff (f : LFmt) (c : Nat) : Spec.lIsZero f c ↔ (lread f c).isZero = true := by
  simp [Spec.lIsZero, lfields_eq, LNum.isZero]

theorem isNum_iff (f : LFmt) (c : Nat) : Spec.lIsNum f c ↔ f.one ≤ (lread f c).t := by
  simp [Spec.lIsNum, lfields_eq, lfrac_eq, LFmt.one]

theorem one_pos (f : LFmt) : 0 < f.one := Nat.two_pow_pos _

section
variable {f : LFmt} {x : LNum}

theorem isNar_of_num (h : f.one ≤ x.t) : x.isNar f = false := by simp [LNum.isNar, h]
theorem isZero_of_num (h : f.one ≤ x.t) : x.isZero = false := by have := one_pos f; simp [LNum.isZero]; omega
theorem isFrac_of_num (h : f.one ≤ x.t) : x.isFrac f = false := by simp [LNum.isFrac, h]
theorem level_of_num (h : f.one ≤ x.t) : x.level f ≠ 0 := (Nat.div_pos h (one_pos f)).ne'
theorem isNar_of_zero (h : x.isZero = true) : x.isNar f = false := by simp_all [LNum.isZero, LNum.isNar]
theorem level_of_zero (h : x.isZero = true) : x.level f = 0 := by simp_all [LNum.isZero, LNum.level]

theorem lcanon_of_num (h : f.one ≤ x.t) : lcanon f x = (lmake f x.s x.q x.t, 0) := by
  rw [lcanon, isFrac_of_num h]
  rfl

end

/-- A result of the greatest level of its operands changes no level. -/
theorem withLx_same (f : LFmt) (s q : Bool) {t l : Nat} (fl : Word) (small : t < 2 ^ (f.frac + 3)) (h : t / f.one = l) :
    withLx f l (lmake f s q t, fl) = (lmake f s q t, fl) := by
  rw [withLx, lmake, lread_lcode f _ _ small]
  simp [LNum.level, h, flagIf]

theorem nar_eq (f : LFmt) : lmake f false true 0 = f.nar := by
  have := one_pos f
  simp [lmake, lcode, LFmt.nar, this.ne]

theorem one_level (f : LFmt) : f.one / f.one = 1 := Nat.div_self (one_pos f)

theorem one_lt (f : LFmt) : f.one < 2 ^ (f.frac + 3) := Nat.pow_lt_pow_right (by omega) (by omega)

theorem max_level_of_num {f : LFmt} (x : LNum) {y : LNum} (h : f.one ≤ y.t) : Nat.max (x.level f) (y.level f) ≠ 0 := by
  have := level_of_num h
  have : y.level f ≤ Nat.max (x.level f) (y.level f) := Nat.le_max_right ..
  omega

/-! ### Sums (R215, R220) -/

section
variable {f : LFmt} {cx cy : Nat} {x y : LNum} (hx : lread f cx = x) (hy : lread f cy = y)
include hx hy

theorem laddV_nar (h : x.isNar f = true ∨ y.isNar f = true) : laddV f cx cy = (f.nar, 128) := by
  rw [laddV, hx, hy]
  exact if_pos (by simpa using h)

theorem laddV_zeros (zx : x.isZero = true) (zy : y.isZero = true) : laddV f cx cy = (0, 0) := by
  rw [laddV, hx, hy]
  simp [isNar_of_zero zx, isNar_of_zero zy, zx, zy, level_of_zero zx, level_of_zero zy, flagIf]

theorem laddV_zero_right (nx : f.one ≤ x.t) (zy : y.isZero = true) : laddV f cx cy = (lmake f x.s x.q x.t, 0) := by
  have small := hx ▸ lread_t_lt f cx
  rw [laddV, hx, hy]
  simp only [isNar_of_num nx, isNar_of_zero zy, isZero_of_num nx, zy, level_of_zero zy, lcanon_of_num nx, Bool.or_self,
    Bool.false_and, Bool.false_eq_true, if_true, if_false]
  exact withLx_same f _ _ 0 small (Nat.max_zero _).symm

theorem laddV_zero_left (zx : x.isZero = true) (ny : f.one ≤ y.t) : laddV f cx cy = (lmake f y.s y.q y.t, 0) := by
  have small := hy ▸ lread_t_lt f cy
  rw [laddV, hx, hy]
  simp only [isNar_of_num ny, isNar_of_zero zx, isZero_of_num ny, zx, level_of_zero zx, lcanon_of_num ny, Bool.or_self,
    Bool.and_false, Bool.false_eq_true, if_true, if_false]
  exact withLx_same f _ _ 0 small (Nat.zero_max _).symm

theorem laddV_opposite (nx : f.one ≤ x.t) (t : x.t = y.t) (q : x.q = y.q ∨ x.t = f.one) (s : x.s = !y.s) : laddV f cx cy = (0, 32) := by
  have ny : f.one ≤ y.t := t ▸ nx
  have level := max_level_of_num x ny
  rw [laddV, hx, hy]
  simp [isNar_of_num nx, isNar_of_num ny, isZero_of_num nx, isZero_of_num ny, s, t.symm, q, LNum.isOne, level, flagIf, fLX]

theorem laddV_case {c : Nat} {fl : Word}
    (h : ((x.isNar f = true ∨ y.isNar f = true) ∧ c = f.nar ∧ fl = 128) ∨ (x.isZero = true ∧ y.isZero = true ∧ c = 0 ∧ fl = 0) ∨
      (f.one ≤ x.t ∧ y.isZero = true ∧ c = lmake f x.s x.q x.t ∧ fl = 0) ∨
      (x.isZero = true ∧ f.one ≤ y.t ∧ c = lmake f y.s y.q y.t ∧ fl = 0) ∨
      (f.one ≤ x.t ∧ x.t = y.t ∧ (x.q = y.q ∨ x.t = f.one) ∧ x.s = !y.s ∧ c = 0 ∧ fl = 32)) : laddV f cx cy = (c, fl) := by
  obtain ⟨nar, rfl, rfl⟩ | ⟨zx, zy, rfl, rfl⟩ | ⟨nx, zy, rfl, rfl⟩ | ⟨zx, ny, rfl, rfl⟩ | ⟨nx, t, q, s, rfl, rfl⟩ := h
  · exact laddV_nar hx hy nar
  · exact laddV_zeros hx hy zx zy
  · exact laddV_zero_right hx hy nx zy
  · exact laddV_zero_left hx hy zx ny
  · exact laddV_opposite hx hy nx t q s

/-! ### Products and quotients (R215, R216, R220) -/

theorem lmulV_nar (h : x.isNar f = true ∨ y.isNar f = true) : lmulV f cx cy = (f.nar, 128) := by
  rw [lmulV, hx, hy]
  exact if_pos (by simpa using h)

theorem ldivV_nar (h : x.isNar f = true ∨ y.isNar f = true) : ldivV f cx cy = (f.nar, 128) := by
  rw [ldivV, hx, hy]
  exact if_pos (by simpa using h)

theorem lmulV_zeros (zx : x.isZero = true) (zy : y.isZero = true) : lmulV f cx cy = (0, 0) := by
  rw [lmulV, hx, hy]
  simp [isNar_of_zero zx, isNar_of_zero zy, zx, level_of_zero zx, level_of_zero zy, flagIf]

theorem lmulV_zero_left (zx : x.isZero = true) (ny : f.one ≤ y.t) : lmulV f cx cy = (0, 32) := by
  rw [lmulV, hx, hy]
  simp [isNar_of_zero zx, isNar_of_num ny, zx, max_level_of_num x ny, flagIf, fLX]

theorem lmulV_zero_right (nx : f.one ≤ x.t) (zy : y.isZero = true) : lmulV f cx cy = (0, 32) := by
  have level : Nat.max (x.level f) (y.level f) ≠ 0 := fun h => max_level_of_num y nx ((Nat.max_comm ..).trans h)
  rw [lmulV, hx, hy]
  simp [isNar_of_zero zy, isNar_of_num nx, zy, level, flagIf, fLX]

theorem ldivV_zero_left (zx : x.isZero = true) (ny : f.one ≤ y.t) : ldivV f cx cy = (0, 32) := by
  rw [ldivV, hx, hy]
  simp [isNar_of_zero zx, isNar_of_num ny, zx, isZero_of_num ny, max_level_of_num x ny, flagIf, fLX]

theorem ldivV_zeros (zx : x.isZero = true) (zy : y.isZero = true) : ldivV f cx cy = (f.nar, 16) := by
  rw [ldivV, hx, hy]
  simp [isNar_of_zero zx, isNar_of_zero zy, zx, zy, fNV]

theorem ldivV_zero_right (nx : f.one ≤ x.t) (zy : y.isZero = true) : ldivV f cx cy = (f.nar, 8) := by
  rw [ldivV, hx, hy]
  simp [isNar_of_zero zy, isNar_of_num nx, zy, isZero_of_num nx, fDZ]

theorem lmulV_nums (nx : f.one ≤ x.t) (ny : f.one ≤ y.t) :
    lmulV f cx cy = withLx f (Nat.max (x.level f) (y.level f)) (lmulFin f (x.s != y.s) x y false) := by
  rw [lmulV, hx, hy]
  simp [isNar_of_num nx, isNar_of_num ny, isZero_of_num nx, isZero_of_num ny]

/-- A quotient is the product with the reciprocal, whose q is the other. -/
theorem ldivV_nums (nx : f.one ≤ x.t) (ny : f.one ≤ y.t) :
    ldivV f cx cy = withLx f (Nat.max (x.level f) (y.level f)) (lmulFin f (x.s != y.s) x ⟨y.s, !y.q, y.t⟩ true) := by
  rw [ldivV, hx, hy]
  simp [isNar_of_num nx, isNar_of_num ny, isZero_of_num nx, isZero_of_num ny, not_lt.2 ny]

end

section
variable {f : LFmt} {x y : LNum} (s inv : Bool) (nx : f.one ≤ x.t) (ny : f.one ≤ y.t)
include ny

theorem lmulFin_one_left (one : x.t = f.one) : lmulFin f s x y inv = (lmake f s y.q y.t, 0) := by
  have canon : lcanon f ⟨s, y.q, y.t⟩ = (lmake f s y.q y.t, 0) := lcanon_of_num (x := ⟨s, y.q, y.t⟩) ny
  simp [lmulFin, LNum.isOne, one, not_lt.2 ny, canon]

include nx

theorem lmulFin_one_right (one : y.t = f.one) : lmulFin f s x y inv = (lmake f s x.q x.t, 0) := by
  have canon : lcanon f ⟨s, x.q, x.t⟩ = (lmake f s x.q x.t, 0) := lcanon_of_num (x := ⟨s, x.q, x.t⟩) nx
  by_cases left : x.t = f.one
  · rw [lmulFin_one_left s inv ny left, one, left]
    simp [lmake]
  · simp [lmulFin, LNum.isOne, one, left, canon]

omit nx in
theorem lmulFin_reciprocal (t : x.t = y.t) (q : x.q = !y.q) : lmulFin f s x y inv = (lmake f s false f.one, 0) := by
  by_cases left : x.t = f.one
  · rw [lmulFin_one_left s inv ny left, ← t, left]
    simp [lmake]
  · have right : y.t ≠ f.one := t ▸ left
    simp [lmulFin, LNum.isOne, LNum.below, t, q, right, not_lt.2 ny, lmake]

end

/-- The exact products: by a magnitude of 1, and by the reciprocal. -/
theorem withLx_product {f : LFmt} {x y : LNum} (s inv : Bool) {c : Nat} {fl : Word} (nx : f.one ≤ x.t) (ny : f.one ≤ y.t)
    (smallX : x.t < 2 ^ (f.frac + 3)) (smallY : y.t < 2 ^ (f.frac + 3))
    (h : (x.t = f.one ∧ c = lmake f s y.q y.t ∧ fl = 0) ∨ (y.t = f.one ∧ c = lmake f s x.q x.t ∧ fl = 0) ∨
      (x.t = y.t ∧ x.q = !y.q ∧ c = lmake f s false f.one ∧ fl = if x.t / f.one = 1 then 0 else 32)) :
    withLx f (Nat.max (x.level f) (y.level f)) (lmulFin f s x y inv) = (c, fl) := by
  have levelX := Nat.one_le_iff_ne_zero.2 (level_of_num nx)
  have levelY := Nat.one_le_iff_ne_zero.2 (level_of_num ny)
  obtain ⟨one, rfl, rfl⟩ | ⟨one, rfl, rfl⟩ | ⟨t, q, rfl, rfl⟩ := h
  · rw [lmulFin_one_left s inv ny one]
    refine withLx_same f _ _ 0 smallY ?_
    rw [LNum.level, one, one_level]
    exact (Nat.max_eq_right levelY).symm
  · rw [lmulFin_one_right s inv nx ny one]
    refine withLx_same f _ _ 0 smallX ?_
    rw [show y.level f = 1 by rw [LNum.level, one, one_level]]
    exact (Nat.max_eq_left levelX).symm
  · rw [lmulFin_reciprocal s inv ny t q, withLx, lmake, lread_lcode f _ _ (one_lt f),
      show y.level f = x.level f by rw [LNum.level, LNum.level, t], show Nat.max (x.level f) (x.level f) = x.level f from Nat.max_self _,
      LNum.level, LNum.level, one_level]
    by_cases level : x.t / f.one = 1
    · simp [level, flagIf]
    · simp [level, flagIf, fLX, Ne.symm level]

/-! ### The rule -/

/-- A level-index operation on codes. -/
def levelOp (op : Spec.FloatOp) (f : LFmt) (cx cy : Nat) : Nat × Word :=
  match op with
  | .add => laddV f cx cy
  | .sub => lsubV f cx cy
  | .mul => lmulV f cx cy
  | .div => ldivV f cx cy
  | .fma | .sqrt => (0, 0)

theorem levelOp_case {op : Spec.FloatOp} {f : LFmt} {cx cy c : Nat} {fl : Word} (h : Spec.levelCase op f cx cy c fl) :
    levelOp op f (cx % 2 ^ f.width) (cy % 2 ^ f.width) = (c, fl) := by
  unfold Spec.levelCase at h
  rw [lfields_eq, lfields_eq, lfrac_eq] at h
  simp only [isNar_iff, isZero_iff, isNum_iff, lmade_eq, nar_eq, show 2 ^ f.frac = f.one from rfl] at h
  have hx := lread_low f cx
  have hy := lread_low f cy
  have hn : lread f (Nat.xor (cy % 2 ^ f.width % 2 ^ f.width) (2 ^ (f.frac + 4))) = _ := (lread_flip f _).trans (by rw [lread_low])
  have smallX := lread_t_lt f cx
  have smallY := lread_t_lt f cy
  cases op <;> simp only [reduceCtorEq, or_false, false_or, or_true, true_and, false_and, if_true, if_false] at h
  case add => exact laddV_case hx hy h
  case sub => exact laddV_case hx hn h
  case mul =>
    obtain ⟨nar, rfl, rfl⟩ | ⟨zx, ny, rfl, rfl⟩ | ⟨zy, ⟨zx, rfl⟩ | ⟨nx, rfl⟩, rfl⟩ | ⟨nx, ny, product⟩ := h
    · exact lmulV_nar hx hy nar
    · exact lmulV_zero_left hx hy zx ny
    · exact lmulV_zeros hx hy zx zy
    · exact lmulV_zero_right hx hy nx zy
    · exact (lmulV_nums hx hy nx ny).trans (withLx_product _ _ nx ny smallX smallY product)
  case div =>
    obtain ⟨nar, rfl, rfl⟩ | ⟨zx, ny, rfl, rfl⟩ | ⟨zy, rfl, ⟨zx, rfl⟩ | ⟨nx, rfl⟩⟩ | ⟨nx, ny, product⟩ := h
    · exact ldivV_nar hx hy nar
    · exact ldivV_zero_left hx hy zx ny
    · exact ldivV_zeros hx hy zx zy
    · exact ldivV_zero_right hx hy nx zy
    · exact (ldivV_nums hx hy nx ny).trans
        (withLx_product (y := ⟨_, !(lread f cy).q, _⟩) _ _ nx ny smallX smallY product)

end Sys2Proof.Machine
end

section
/-! PROOFS (O4, O6). Comparison, classes and conversions of level-index codes (R221 to R224). -/

namespace Sys2Proof.Machine

/-! ### Comparison (R221) -/

/-- The place of a level-index number among those that are no NaR and no fraction of level 0. -/
def LNum.key (f : LFmt) (x : LNum) : Int :=
  let m : Int := if x.t = 0 then 0 else if x.q then 2 ^ (f.frac + 3) - x.t else 6 * 2 ^ f.frac + x.t
  if x.s then -m else m

theorem lkey_eq (f : LFmt) (c : Nat) : Spec.lkey f c = (lread f c).key f := by
  rw [Spec.lkey, lfields_eq, lfrac_eq]
  rfl

theorem eight_ones (f : LFmt) : (2 : Int) ^ (f.frac + 3) = 8 * (f.one : Int) := by
  rw [LFmt.one, pow_add]
  push_cast
  ring

/-- Zeros lie at 0, and numbers apart from it on the side of their sign. -/
theorem key_of_zero {f : LFmt} {x : LNum} (h : x.isZero = true) : x.key f = 0 := by
  simp_all [LNum.isZero, LNum.key]

theorem key_of_num {f : LFmt} {x : LNum} (h : f.one ≤ x.t) :
    x.key f = if x.s then -(8 * f.one + if x.q then -(x.t : Int) else x.t - 2 * f.one)
      else 8 * f.one + if x.q then -(x.t : Int) else x.t - 2 * f.one := by
  have := one_pos f
  have six : (6 : Int) * 2 ^ f.frac = 6 * f.one := by simp [LFmt.one]
  rw [LNum.key, eight_ones, six]
  grind

theorem lcmpMag_nums {f : LFmt} {x y : LNum} (nx : f.one ≤ x.t) (ny : f.one ≤ y.t) :
    lcmpMag f x y = orderOf (if x.q then -(x.t : Int) else x.t - 2 * f.one) (if y.q then -(y.t : Int) else y.t - 2 * f.one) := by
  simp only [lcmpMag, isFrac_of_num nx, isFrac_of_num ny, LNum.isOne, orderOf]
  grind

theorem orderOf_swap (a b : Int) : (orderOf a b).swap = orderOf (-a) (-b) := by
  rcases lt_trichotomy a b with lt | rfl | gt
  · simp [orderOf, lt, lt.not_gt]
  · simp [orderOf]
  · simp [orderOf, gt, gt.not_gt]

theorem orderOf_add (w a b : Int) : orderOf (w + a) (w + b) = orderOf a b := by simp [orderOf]

/-- The order of two magnitudes, by sign. -/
theorem order_by_sign {w a b : Int} (s r : Bool) (ha : -w < a) (hb : -w < b) :
    (if s then (if r then (orderOf a b).swap else .lt) else if r then .gt else orderOf a b) =
      orderOf (if s then -(w + a) else w + a) (if r then -(w + b) else w + b) := by
  cases s <;> cases r
  case true.true => exact (orderOf_add w a b ▸ orderOf_swap (w + a) (w + b) :)
  case true.false => exact ((orderOf_lt ..).2 (by simp; omega)).symm
  case false.true => exact ((orderOf_gt ..).2 (by simp; omega)).symm
  case false.false => simp [orderOf_add]

theorem lcmpVal_eq {f : LFmt} {x y : LNum} (hx : x.isZero = true ∨ f.one ≤ x.t) (hy : y.isZero = true ∨ f.one ≤ y.t)
    (smallX : x.t < 2 ^ (f.frac + 3)) (smallY : y.t < 2 ^ (f.frac + 3)) :
    lcmpVal f x y = orderOf (x.key f) (y.key f) := by
  have := one_pos f
  have eight : 2 ^ (f.frac + 3) = 8 * f.one := by exact_mod_cast eight_ones f
  rw [eight] at smallX smallY
  unfold lcmpVal
  rcases hx with zx | nx <;> rcases hy with zy | ny
  · simp [zx, zy, key_of_zero, orderOf]
  · simp only [zx, isZero_of_num ny, key_of_zero, key_of_num ny, orderOf]
    grind
  · simp only [isZero_of_num nx, zy, key_of_zero, key_of_num nx, orderOf]
    grind
  · rw [isZero_of_num nx, isZero_of_num ny, lcmpMag_nums nx ny, key_of_num nx, key_of_num ny]
    rw [← order_by_sign x.s y.s (by grind) (by grind)]
    cases x.s <;> cases y.s <;> simp

/-- R221, for codes that are no fraction of level 0. -/
theorem lcmpV_case {f : LFmt} (k : FCond) {cx cy : Nat} (hx : Spec.lIsNar f cx ∨ Spec.lIsZero f cx ∨ Spec.lIsNum f cx)
    (hy : Spec.lIsNar f cy ∨ Spec.lIsZero f cy ∨ Spec.lIsNum f cy) :
    lcmpV f k (cx % 2 ^ f.width) (cy % 2 ^ f.width) = Spec.lcompared k f cx cy := by
  have nar : ∀ c, (Spec.lfields f c).2.1 = true ∧ (Spec.lfields f c).2.2 < 2 ^ Spec.lfrac f ↔ (lread f c).isNar f = true := isNar_iff f
  rw [isNar_iff, isZero_iff, isNum_iff] at hx hy
  unfold Spec.lcompared lcmpV
  simp only [nar, lkey_eq, lread_low]
  cases hn : (lread f cx).isNar f || (lread f cy).isNar f
  case true =>
    rw [Bool.or_eq_true] at hn
    cases k <;> simp [hn, flagIf, fLN]
  case false =>
    rw [Bool.or_eq_false_iff] at hn
    rw [lcmpVal_eq (hx.resolve_left (by simp [hn.1])) (hy.resolve_left (by simp [hn.2])) (lread_t_lt f cx) (lread_t_lt f cy)]
    generalize (lread f cx).key f = a
    generalize (lread f cy).key f = b
    cases k <;> simp [hn, flagIf, bne, beq_eq_decide, orderOf_lt, orderOf_gt, orderOf_eq]
    case le => rw [← decide_not, decide_eq_decide, not_le]

/-! ### Classes (R224) -/

theorem lclassV_eq (f : LFmt) (c : Nat) : lclassV f (c % 2 ^ f.width) = Spec.lclassOf f c := by
  have small := lread_t_lt f c
  have one := one_pos f
  unfold Spec.lclassOf lclassV
  rw [lread_low, lfields_eq, lfrac_eq]
  generalize lread f c = x at small
  obtain ⟨s, q, t⟩ := x
  have top : 2 ^ (f.frac + 3) - 1 = f.top := rfl
  have unit : 2 ^ f.frac = f.one := rfl
  have level : t / f.one = 0 ↔ t < f.one := Nat.div_eq_zero_iff_lt one
  simp only [LNum.isNar, LNum.isZero, LNum.isOne, LNum.level, top, unit, level]
  by_cases frac : t < f.one
  · cases q <;> cases s <;> simp [frac, Nat.mod_eq_of_lt, frac.ne]
  · have nonzero : t ≠ 0 := by omega
    cases q <;> cases s <;> simp [frac, nonzero]

/-! ### Conversions (R222, R223) -/

/-- A magnitude of 2^149 units is 1, in any units. -/
theorem scaleTo_one {s : Bool} {m : Nat} {e d : Int} (he : d ≤ e) (hd : d ≤ 0) (one : |ratOf s m e| = 1) :
    scaleTo false m e d = scaleTo false 1 0 d := by
  rw [abs_ratOf] at one
  have : (scaleTo false m e d : ℚ) = scaleTo false 1 0 d := by
    rw [scaleTo_cast _ _ he, scaleTo_cast _ _ hd, sub_eq_add_neg, sub_eq_add_neg, ← ratOf_scale, ← ratOf_scale]
    simp [ratOf, one]
  exact_mod_cast this

theorem floatToLevel_case {src : BFmt} {f : LFmt} {cx c : Nat} {fl : Word} (h : Spec.toLevelCase src f cx c fl) :
    floatToLevel src f (cx % 2 ^ src.width) = (c, fl) := by
  unfold floatToLevel
  rw [fval_low]
  unfold Spec.toLevelCase at h
  cases num : Spec.num src cx with
  | nan b =>
    simp only [num, lmade_eq, nar_eq] at h
    rw [num_eq, num_eq_nan] at num
    rw [num, h.1, h.2]
    rfl
  | inf a =>
    simp only [num, lmade_eq, lfrac_eq] at h
    rw [num_eq, num_eq_inf] at num
    rw [num, h.1, h.2]
    simp [lmake, LFmt.top]
    rfl
  | fin a u =>
    simp only [num, lmade_eq, lfrac_eq] at h
    obtain ⟨read, value⟩ := fval_of_num num
    rw [read]
    have scale : (2 : ℚ) ^ (149 : Int) ≠ 0 := by positivity
    obtain ⟨zero, rfl, rfl⟩ | ⟨one, rfl, rfl⟩ := h
    · have : src.sig (src.mag cx) = 0 := by
        rw [← ratOf_eq_zero (s := a)]
        simpa [zero] using value.symm
      exact if_pos this
    · have size : |ratOf a (src.sig (src.mag cx)) (src.exp (src.mag cx))| = 1 := by
        apply mul_right_cancel₀ scale
        rw [← abs_of_pos (show (0 : ℚ) < 2 ^ (149 : Int) by positivity), ← abs_mul, ← value, ← Int.cast_abs, ← Nat.cast_natAbs, one]
        norm_num
      have nonzero : src.sig (src.mag cx) ≠ 0 := fun zero => by simp [ratOf_eq_zero.2 zero] at size
      simp only [if_neg nonzero]
      rw [if_pos (scaleTo_one (by split <;> omega) (by split <;> omega) size)]
      simp [lmake, LFmt.one]

theorem levelToFloat_case {f : LFmt} {dst : BFmt} {cx c : Nat} {fl : Word} (md : RM) (h : Spec.fromLevelCase f dst cx c fl) :
    levelToFloat f dst md (cx % 2 ^ f.width) = (c, fl) := by
  unfold levelToFloat
  rw [lread_low]
  rw [Spec.fromLevelCase, isZero_iff, isNar_iff, lfields_eq, lfrac_eq, nan_eq] at h
  obtain ⟨zero, rfl, rfl⟩ | ⟨nar, rfl, rfl⟩ | ⟨one, code, rfl⟩ := h
  · simp [zero, isNar_of_zero zero]
  · simp [nar, fLN]
  · have num : f.one ≤ (lread f cx).t := one.ge
    simp only [isNar_of_num num, isZero_of_num num, Bool.false_eq_true, if_false]
    rw [if_pos (show (lread f cx).t ≤ f.one from one.le)]
    refine roundF_codeOf code md true ?_ fun zero => absurd zero (by have := one_pos f; omega)
    have unit : ((2 : ℚ) ^ f.frac) * 2 ^ (-(f.frac : Int)) = 1 := by simp
    simp only at one
    rw [one, ratOf]
    push_cast
    rw [unit]
    split <;> simp

end Sys2Proof.Machine
end

section
/-! PROOFS (O4, O5). Scalar floats and comparisons, and what FCLASS and an exact FADD write (R82 to R87, R221, R224). -/

namespace Sys2Proof.Machine

/-! ### Modes and results -/

theorem modeOf_eq_rdn (r : Rnd) (m : Word) : (modeOf r m == .rdn) = (r == .rdn || (r == .none && m.toNat % 4 == 3)) := by
  have field : (m.extractLsb' 0 2).toNat = m.toNat % 4 := by simp
  have small : m.toNat % 4 < 4 := Nat.mod_lt _ (by decide)
  cases r
  case none =>
    unfold modeOf
    simp only [field]
    generalize m.toNat % 4 = k at small
    interval_cases k <;> rfl
  all_goals rfl

theorem nan_bin (f : FFmt) : Spec.nan f = f.bin.nan := by cases f <;> rfl

/-- A result that is formed as R87 says is what `Spec.numeric` asks for, when its value on clean sources is the rule's. -/
theorem numeric_resultOf {i : Instr} {s : State} {rs : List Reg} {bad : Nat} {r : Nat × Word} {p : Bool}
    (poison : p = rs.any fun r => (s.gReg r).poison)
    (value : ∀ c fl, Spec.valueCase i (s.me.nmode.toNat % 4) (satOf s.me.nmode) (((rs[0]?).map fun r => (s.gReg r).val.toNat).getD 0)
      (((rs[1]?).map fun r => (s.gReg r).val.toNat).getD 0) (((rs[2]?).map fun r => (s.gReg r).val.toNat).getD 0) c fl →
      BitVec.ofNat 64 r.1 = BitVec.ofNat 64 c ∧ r.2 = fl) :
    Spec.numeric i s rs bad (resultOf p bad r).1 (resultOf p bad r).2 := by
  cases p
  · exact ⟨poison, fun bad => absurd bad Bool.false_ne_true, fun _ => value⟩
  · exact ⟨poison, fun _ => ⟨rfl, rfl⟩, fun clean => Bool.noConfusion clean⟩

/-- R82, for the low bits of three registers. -/
theorem floatOp_registers {op : Spec.FloatOp} {f : BFmt} {r : Rnd} {m : Word} {x y w : PWord} {c : Nat} {fl : Word}
    (h : Spec.floatCase op f (r == .rdn || (r == .none && m.toNat % 4 == 3)) x.val.toNat y.val.toNat w.val.toNat c fl) :
    floatOp op f (modeOf r m) (fval f (lowBits f.width x)) (fval f (lowBits f.width y)) (fval f (lowBits f.width w)) = (c, fl) := by
  rw [← modeOf_eq_rdn] at h
  rw [lowBits, lowBits, lowBits, fval_low, fval_low, fval_low]
  exact floatOp_case h

/-! ### FCVT (R85) -/

theorem cvtNan_eq (k : FCvt) (md : RM) (sat : Bool) (x : Word) : (fcvtV k md sat x).2 = Spec.cvtNan k := by cases k <;> rfl

theorem fcvtV_case {k : FCvt} {sat : Bool} {x : Word} {c : Nat} {fl : Word} (md : RM) (h : Spec.fcvtCase k sat x.toNat c fl) :
    BitVec.ofNat 64 (fcvtV k md sat x).1.1 = BitVec.ofNat 64 c ∧ (fcvtV k md sat x).1.2 = fl := by
  have of_eq {r : Nat × Word} (eq : r = (c, fl)) : BitVec.ofNat 64 r.1 = BitVec.ofNat 64 c ∧ r.2 = fl := by
    rw [eq]
    exact ⟨rfl, rfl⟩
  have of_int {r : Int × Word} (eq : BitVec.ofInt 64 r.1 = BitVec.ofNat 64 c ∧ r.2 = fl) :
      BitVec.ofNat 64 (BitVec.ofInt 64 r.1).toNat = BitVec.ofNat 64 c ∧ r.2 = fl := by
    rw [BitVec.ofNat_toNat, BitVec.setWidth_eq]
    exact eq
  cases k
  case i64F32 => exact of_int (fcvtFI_case md h)
  case u64F32 => exact of_int (fcvtFI_case md h)
  case f32I64 =>
    rw [Spec.fcvtCase, BitVec.ofNat_toNat, BitVec.setWidth_eq] at h
    exact of_eq (fcvtIF_case md h)
  case f32U64 => exact of_eq (fcvtIF_case md h)
  all_goals exact of_eq (fcvtFF_case md h)

/-! ### Scalar floats write their destination (R82, R87) -/

theorem ffma_result (d a b : Reg) (f : FFmt) (r : Rnd) (s : State) :
    (if (s.gReg d).poison then resultOf true f.bin.nan (0, 0)
      else float2 (fun t md x y => ffmaV t md x y (fval t (lowBits t.width (s.gReg d)))) a b f r s) =
    resultOf ((s.gReg a).poison || ((s.gReg b).poison || ((s.gReg d).poison || false))) f.bin.nan
      (floatOp .fma f.bin (modeOf r s.me.nmode) (fval f.bin (lowBits f.bin.width (s.gReg a)))
        (fval f.bin (lowBits f.bin.width (s.gReg b))) (fval f.bin (lowBits f.bin.width (s.gReg d)))) := by
  cases (s.gReg d).poison
  · rw [Bool.or_false, Bool.or_false]
    rfl
  · rw [Bool.true_or, Bool.or_true, Bool.or_true]
    rfl

theorem value_of_eq {r : Nat × Word} {c : Nat} {fl : Word} (eq : r = (c, fl)) : BitVec.ofNat 64 r.1 = BitVec.ofNat 64 c ∧ r.2 = fl := by
  rw [eq]
  exact ⟨rfl, rfl⟩

/-- An instruction that writes a result formed as R87 says, with the value of its rule, does what `Spec.floatsComplete` says of it. -/
theorem writes_numeric {i : Instr} {s : State} {d : Reg} {rs : List Reg} {bad : Nat} {q : Pred} {p : Bool} {r : Nat × Word} (on : s.isOn q)
    (poison : p = rs.any fun r => (s.gReg r).poison) (step : exec i s = pred q s (putNum d (resultOf p bad r) s))
    (value : ∀ c fl, Spec.valueCase i (s.me.nmode.toNat % 4) (satOf s.me.nmode) (((rs[0]?).map fun r => (s.gReg r).val.toNat).getD 0)
      (((rs[1]?).map fun r => (s.gReg r).val.toNat).getD 0) (((rs[2]?).map fun r => (s.gReg r).val.toNat).getD 0) c fl →
      BitVec.ofNat 64 r.1 = BitVec.ofNat 64 c ∧ r.2 = fl) :
    ∃ v flags, exec i s = .next ((s.setG d v).modMe fun x => { x with nflags := x.nflags ||| flags }).retire ∧
      Spec.numeric i s rs bad v flags :=
  ⟨_, _, step.trans (pred_on on _), numeric_resultOf poison value⟩

/-- R82, R83, R85 to R87, R224: the results of the scalar float and level-index instructions that write g[d]. -/
theorem floatsComplete : Spec.floatsComplete := by
  intro i s d rs bad form on
  cases i with
  | fadd e a b f r q =>
    cases form
    rw [nan_bin]
    exact writes_numeric (on q rfl) (by simp) rfl fun c fl h => value_of_eq (floatOp_registers (op := .add) (w := ⟨0, false⟩) h)
  | fsub e a b f r q =>
    cases form
    rw [nan_bin]
    exact writes_numeric (on q rfl) (by simp) rfl fun c fl h => value_of_eq (floatOp_registers (op := .sub) (w := ⟨0, false⟩) h)
  | fmul e a b f r q =>
    cases form
    rw [nan_bin]
    exact writes_numeric (on q rfl) (by simp) rfl fun c fl h => value_of_eq (floatOp_registers (op := .mul) (w := ⟨0, false⟩) h)
  | ffma e a b f r q =>
    cases form
    rw [nan_bin]
    exact writes_numeric (on q rfl) rfl (congrArg (fun v => pred q s (putNum d v s)) (ffma_result d a b f r s)) fun c fl h =>
      value_of_eq (floatOp_registers (op := .fma) h)
  | fmin e a b f q =>
    cases form
    rw [nan_bin]
    exact writes_numeric (on q rfl) (by simp) rfl fun c fl h => value_of_eq (fminmax_case h)
  | fmax e a b f q =>
    cases form
    rw [nan_bin]
    exact writes_numeric (on q rfl) (by simp) rfl fun c fl h => value_of_eq (fminmax_case h)
  | fcvt e a r k q =>
    cases form
    rw [← cvtNan_eq k (modeOf r s.me.nmode) (satOf s.me.nmode) (s.gReg a).val]
    exact writes_numeric (on q rfl) (by simp) rfl fun c fl h => fcvtV_case _ h
  | fclass e a f q =>
    cases form
    exact writes_numeric (on q rfl) (by simp) rfl fun c fl h => False.elim h
  | lclass e a f q =>
    cases form
    refine writes_numeric (on q rfl) (by simp) rfl fun c fl h => ?_
    obtain ⟨rfl, rfl⟩ := h
    exact ⟨congrArg _ (lclassV_eq f _), rfl⟩
  | _ => cases form

/-- An instruction that writes a comparison, or a poisoned false, to p[d]. -/
theorem writes_compared {i : Instr} {s : State} {d : PReg} {a b : Reg} {q : Pred} {r : Bool × Word} {P : Bool → Word → Prop}
    (on : s.isOn q) (step : exec i s = pred q s (putCmp d ((s.gReg a).poison || (s.gReg b).poison) r s)) (value : P r.1 r.2) :
    if [a, b].any (fun r => (s.gReg r).poison) then exec i s = .next (s.setP d ⟨false, true⟩).retire
    else ∃ v flags, exec i s = .next ((s.setP d ⟨v, false⟩).modMe fun x => { x with nflags := x.nflags ||| flags }).retire ∧
      P v flags := by
  rw [step, pred_on on, List.any_cons, List.any_cons, List.any_nil, Bool.or_false, putCmp]
  split
  · rfl
  · exact ⟨_, _, rfl, value⟩

/-- R84, R87, R221: the comparisons that write p[d]. -/
theorem comparisonsComplete : Spec.comparisonsComplete := by
  intro i s d rs form on
  cases i with
  | fcmp e a b f k q =>
    cases form
    refine writes_compared (on q rfl) rfl ?_
    rw [lowBits, lowBits, fval_low, fval_low]
    exact fcmpV_case k f.bin _ _
  | lcmp e a b f k q =>
    cases form
    exact writes_compared (on q rfl) rfl fun read => lcmpV_case k (read 0 (by decide)) (read 1 (by decide))
  | _ => cases form

/-- Settles O4: results go by R87, and their values by the rules of the operations on codes. -/
theorem floatResults : Obligations.FloatResults := ⟨floatsComplete, comparisonsComplete⟩

/-! ### FCLASS and an exact sum (R82, R86) -/

/-- The bit of a class, by the sign and the magnitude of a code. -/
def classBit (f : BFmt) (s : Bool) (m : Nat) : Nat :=
  if f.limit < m then (if m < f.limit + 2 ^ (f.frac - 1) then 8 else 9)
  else if m = f.limit then (if s then 0 else 7)
  else if m = 0 then (if s then 3 else 4)
  else if m < 2 ^ f.frac then (if s then 2 else 5)
  else if s then 1 else 6

theorem sig_eq_zero (f : BFmt) (m : Nat) : f.sig m = 0 ↔ m = 0 := by
  have split := Nat.div_add_mod m (2 ^ f.frac)
  have unit := Nat.two_pow_pos f.frac
  unfold BFmt.sig
  constructor
  · intro h
    split_ifs at h with low
    · rw [low, h] at split
      simpa using split.symm
    · omega
  · rintro rfl
    simp

theorem sig_lt_frac (f : BFmt) (m : Nat) : f.sig m < 2 ^ f.frac ↔ m < 2 ^ f.frac := by
  have unit := Nat.two_pow_pos f.frac
  have low : m / 2 ^ f.frac = 0 ↔ m < 2 ^ f.frac := Nat.div_eq_zero_iff_lt unit
  unfold BFmt.sig
  split_ifs with h
  · exact iff_of_true (Nat.mod_lt _ unit) (low.1 h)
  · exact iff_of_false (by omega) (mt low.2 h)

theorem fclassV_eq (f : FFmt) (c : Nat) :
    fclassV f.bin (fval f.bin c) = fclassV.bitOf (classBit f.bin (f.bin.sign c) (f.bin.mag c)) := by
  have small := mag_lt f.bin c
  rcases lt_or_ge (f.bin.mag c) f.bin.limit with number | special
  · rw [fval_number number]
    simp only [fclassV, classBit, sig_eq_zero, sig_lt_frac, number.not_gt, number.ne, if_false]
    split_ifs <;> rfl
  · have rest : f.bin.mag c = f.bin.limit + f.bin.mag c % 2 ^ f.bin.frac := by
      revert small special
      generalize f.bin.mag c = m
      cases f <;> simp [FFmt.bin, BFmt.limit, BFmt.frac, BFmt.expw] <;> omega
    have normal : f.bin.limit ≠ 0 ∧ 2 ^ f.bin.frac ≤ f.bin.limit := by cases f <;> decide
    have kind : f.bin ≠ .f8a ∧ f.bin ≠ .f8b := by cases f <;> decide
    rw [fval_special special]
    generalize f.bin.mag c % 2 ^ f.bin.frac = r at rest
    rw [rest]
    by_cases inf : r = 0
    · simp [inf, kind, fclassV, classBit]
    · have above : f.bin.limit < f.bin.limit + r := by omega
      rw [if_neg fun h => inf h.2, classBit, if_pos above]
      by_cases quiet : r < 2 ^ (f.bin.frac - 1)
      · simp [quiet, kind, fclassV]
      · simp [quiet, kind, fclassV]

theorem bitOf_eq (k : Nat) : BitVec.ofNat 64 (fclassV.bitOf k).toNat = BitVec.ofNat 64 (2 ^ k) := by
  apply BitVec.eq_of_toNat_eq
  simp [fclassV.bitOf, Nat.shiftLeft_eq]

theorem le_mod_two_mul {n : Nat} (pos : 0 < n) (c : Nat) : decide (n ≤ c % (2 * n)) = (c / n % 2 == 1) := by
  have digit : c % (2 * n) / n = c / n % 2 := by rw [mul_comm, Nat.mod_mul_right_div_self]
  rw [← digit, Bool.beq_eq_decide_eq, decide_eq_decide]
  have upper : c % (2 * n) / n < 2 := Nat.div_lt_of_lt_mul (mul_comm 2 n ▸ Nat.mod_lt _ (by omega))
  have lower := Nat.div_pos_iff (a := c % (2 * n)) (b := n)
  omega

/-- R86: FCLASS writes one bit. -/
theorem fclassOneHot : Spec.fclassOneHot := by
  intro s d a f q on clean
  have step : exec (.fclass d a f q) s = putNum d (resultOf (s.gReg a).poison 0
    ((fclassV f.bin (fval f.bin (lowBits f.bin.width (s.gReg a)))).toNat, 0)) s := pred_on (on q rfl) _
  rw [step, clean, lowBits, fval_low, fclassV_eq, putNum, resultOf, if_neg Bool.false_ne_true, bitOf_eq]
  cases f with
  | f32 =>
    simp only [le_mod_two_mul (n := 2 ^ 31) (by decide), Nat.mod_mul_left_mod]
    rfl
  | f16 =>
    simp only [le_mod_two_mul (n := 2 ^ 15) (by decide), Nat.mod_mul_left_mod]
    rfl

theorem sign_of_num {f : BFmt} {c : Nat} {a : Bool} {u : Int} (h : Spec.num f c = .fin a u) (nonzero : u ≠ 0) : decide (u < 0) = a := by
  obtain ⟨_, value⟩ := fval_of_num h
  have scale : (0 : ℚ) < 2 ^ (149 : Int) := by positivity
  have sig : f.sig (f.mag c) ≠ 0 := fun zero => nonzero (by
    rw [ratOf_eq_zero.2 zero, zero_mul] at value
    exact_mod_cast value)
  have side : u < 0 ↔ a = true := by
    rw [← ratOf_neg_iff (e := f.exp (f.mag c)) sig, ← mul_lt_mul_iff_of_pos_right scale, zero_mul, ← value]
    exact Int.cast_lt_zero.symm
  rw [Bool.eq_iff_iff, decide_eq_true_iff, side]

/-- R82: an exact sum of two numbers of one sign, as a case of the rule. -/
theorem floatCase_sum {f : BFmt} {rdn neg : Bool} {cx cy cw c : Nat} {x y : Int} (numX : Spec.num f cx = .fin neg x)
    (numY : Spec.num f cy = .fin neg y) (small : c < Spec.codes f) (sum : Spec.num f c = .fin neg (x + y)) :
    Spec.floatCase .add f rdn cx cy cw c 0 := by
  refine .inl ⟨neg, neg, neg, x, y, 0, x + y, numX, .inl numY, .inr nofun, rfl, ⟨small, ?_⟩, rfl⟩
  rw [Spec.zeroSign, if_pos rfl]
  refine sum.trans (congrArg (Spec.FloatNum.fin · _) ?_)
  split
  · rfl
  · next nonzero => exact (sign_of_num sum nonzero).symm

/-- R82: an exact sum of two F32 numbers of one sign. -/
theorem faddExact : Spec.faddExact := by
  intro s d a b r q neg x y c on cleanA cleanB numA numB small sum
  have step : exec (.fadd d a b .f32 r q) s = putNum d (float2 faddV a b .f32 r s) s := pred_on (on q rfl) _
  have value := floatOp_registers (f := .f32) (r := r) (m := s.me.nmode) (x := s.gReg a) (y := s.gReg b) (w := ⟨0, false⟩)
    (floatCase_sum numA numB small sum)
  have result : float2 faddV a b .f32 r s = resultOf ((s.gReg a).poison || (s.gReg b).poison) BFmt.f32.nan (c, 0) :=
    congrArg (resultOf _ _) value
  rw [step, result, cleanA, cleanB]
  rfl

/-- Settles O5: a class goes by the magnitude of a code, and a sum that is a value is exact. -/
theorem floatValues : Obligations.FloatValues := ⟨fclassOneHot, faddExact⟩

end Sys2Proof.Machine
end

section
/-! PROOFS (O6). The divide unit and the recurrence unit (R88, R130, R218). -/

namespace Sys2Proof.Machine

section
variable {s : State}

/-! ### A free unit takes an operation -/

theorem onDivide_free (free : s.myCore.work.div = none) (empty : s.myCore.work.divQ = []) (i : Instr) (d : Reg) (v : PWord) (fl : Word) :
    onDivide i d v fl s = .next (Spec.divideStarts s d v fl).retire := by
  simp only [onDivide, free, empty]
  rfl

theorem onRecurrence_free (free : s.myCore.work.rcr = none) (empty : s.myCore.work.rcrQ = []) (i : Instr) (d : Reg) (v : PWord)
    (fl : Word) : onRecurrence i d v fl s = .next (Spec.recurrenceStarts s d v fl).retire := by
  simp only [onRecurrence, free, empty]
  rfl

/-! ### Integer division (R130) -/

theorem toNat_eq_zero_iff (y : Word) : y.toNat = 0 ↔ y = 0 := by rw [← BitVec.toNat_inj]; rfl

theorem toInt_eq_zero_iff (y : Word) : y.toInt = 0 ↔ y = 0 := by rw [← BitVec.toInt_inj]; rfl

theorem allOnes_eq : BitVec.allOnes 64 = BitVec.ofInt 64 (-1) := by decide

theorem divS_eq (x y : Word) :
    divS x y = if y.toInt = 0 then BitVec.ofInt 64 (-1) else BitVec.ofInt 64 (x.toInt.tdiv y.toInt) := by
  simp only [divS, toInt_eq_zero_iff, allOnes_eq]

theorem divU_eq (x y : Word) : divU x y = if y.toNat = 0 then BitVec.ofInt 64 (-1) else BitVec.ofNat 64 (x.toNat / y.toNat) := by
  simp only [divU, toNat_eq_zero_iff, allOnes_eq]

theorem modS_eq (x y : Word) : modS x y = if y.toInt = 0 then x else BitVec.ofInt 64 (x.toInt.tmod y.toInt) := by
  simp only [modS, toInt_eq_zero_iff]

theorem modU_eq (x y : Word) : modU x y = if y.toNat = 0 then x else BitVec.ofNat 64 (x.toNat % y.toNat) := by
  simp only [modU, toNat_eq_zero_iff]

/-- A division whose values are those of its table. -/
theorem division_starts {i : Instr} {d r : Reg} {v : PWord} {a b : Reg} {q : Pred} {f g : Word → Word → Word}
    (h : some (d, Spec.two (s.gReg a) (s.gReg b) g) = some (r, v)) (on : s.isOn q) (free : s.myCore.work.div = none)
    (empty : s.myCore.work.divQ = []) (step : exec i s = pred q s (onDivide i d (PWord.map2 f (s.gReg a) (s.gReg b)) 0 s))
    (eq : ∀ x y, f x y = g x y) : exec i s = .next (Spec.divideStarts s r v 0).retire := by
  cases h
  rw [step, pred_on on, onDivide_free free empty, PWord.map2, eq]
  rfl

end

/-- R88, R130: DIV, DIVU, MOD and MODU. -/
theorem divisionsStart : Spec.divisionsStart := by
  intro i s d v h on free empty
  cases i with
  | div e a b q => exact division_starts h (on q rfl) free empty rfl divS_eq
  | divu e a b q => exact division_starts h (on q rfl) free empty rfl divU_eq
  | mod e a b q => exact division_starts h (on q rfl) free empty rfl modS_eq
  | modu e a b q => exact division_starts h (on q rfl) free empty rfl modU_eq
  | _ => cases h

/-! ### Float division and square root (R82, R88) -/

/-- An operation of the divide unit with the value of its rule. -/
theorem divide_starts {i : Instr} {s : State} {d : Reg} {rs : List Reg} {bad : Nat} {q : Pred} {p : Bool} {r : Nat × Word} (on : s.isOn q)
    (free : s.myCore.work.div = none) (empty : s.myCore.work.divQ = []) (poison : p = rs.any fun r => (s.gReg r).poison)
    (step : exec i s = pred q s (onDivide i d (resultOf p bad r).1 (resultOf p bad r).2 s))
    (value : ∀ c fl, Spec.valueCase i (s.me.nmode.toNat % 4) (satOf s.me.nmode) (((rs[0]?).map fun r => (s.gReg r).val.toNat).getD 0)
      (((rs[1]?).map fun r => (s.gReg r).val.toNat).getD 0) (((rs[2]?).map fun r => (s.gReg r).val.toNat).getD 0) c fl →
      r = (c, fl)) :
    ∃ v flags, exec i s = .next (Spec.divideStarts s d v flags).retire ∧ Spec.numeric i s rs bad v flags :=
  ⟨_, _, (step.trans (pred_on on _)).trans (onDivide_free free empty ..), numeric_resultOf poison fun c fl h =>
    value_of_eq (value c fl h)⟩

/-- R82, R87, R88: FDIV and FSQRT. -/
theorem floatDivisionsStart : Spec.floatDivisionsStart := by
  intro i s d rs bad form on free empty
  cases i with
  | fdiv e a b f r q =>
    cases form
    rw [nan_bin]
    exact divide_starts (on q rfl) free empty (by simp) rfl fun c fl h => floatOp_registers (op := .div) (w := ⟨0, false⟩) h
  | fsqrt e a f r q =>
    cases form
    rw [nan_bin]
    exact divide_starts (on q rfl) free empty (by simp) rfl fun c fl h =>
      floatOp_registers (op := .sqrt) (y := ⟨0, false⟩) (w := ⟨0, false⟩) h
  | _ => cases form

/-! ### Level-index operations (R218 to R225) -/

theorem nar_nar (f : LFmt) : Spec.nar f = f.nar := by cases f <;> rfl

theorem lcvtNan_eq (k : LCvt) : Spec.lcvtNan k = lcvtBad k := by cases k <;> rfl

theorem lcvtCase_eq (k : LCvt) (x c : Nat) (fl : Word) : Spec.lcvtCase k x c fl =
    if k.toLevel then Spec.toLevelCase k.float k.level x c fl else Spec.fromLevelCase k.level k.float x c fl := by cases k <;> rfl

theorem lcvtV_case {k : LCvt} {x : PWord} {c : Nat} {fl : Word} (md : RM) (h : Spec.lcvtCase k x.val.toNat c fl) :
    lcvtV k md (lowBits (lcvtWidth k) x) = (c, fl) := by
  rw [lcvtCase_eq] at h
  unfold lcvtV lcvtWidth lowBits
  cases dir : k.toLevel with
  | true =>
    rw [dir, if_pos rfl] at h
    exact floatToLevel_case h
  | false =>
    rw [dir, if_neg Bool.false_ne_true] at h
    exact levelToFloat_case md h

section
variable {s : State}

/-- An operation of the recurrence unit with the value of its rule. -/
theorem recurrence_starts {i : Instr} {d : Reg} {rs : List Reg} {bad : Nat} {q : Pred} {p : Bool} {r : Nat × Word} (on : s.isOn q)
    (free : s.myCore.work.rcr = none) (empty : s.myCore.work.rcrQ = []) (poison : p = rs.any fun r => (s.gReg r).poison)
    (step : exec i s = pred q s (onRecurrence i d (resultOf p bad r).1 (resultOf p bad r).2 s))
    (value : ∀ c fl, Spec.valueCase i (s.me.nmode.toNat % 4) (satOf s.me.nmode) (((rs[0]?).map fun r => (s.gReg r).val.toNat).getD 0)
      (((rs[1]?).map fun r => (s.gReg r).val.toNat).getD 0) (((rs[2]?).map fun r => (s.gReg r).val.toNat).getD 0) c fl →
      r = (c, fl)) :
    ∃ v flags, exec i s = .next (Spec.recurrenceStarts s d v flags).retire ∧ Spec.numeric i s rs bad v flags :=
  ⟨_, _, (step.trans (pred_on on _)).trans (onRecurrence_free free empty ..), numeric_resultOf poison fun c fl h =>
    value_of_eq (value c fl h)⟩

end

/-- R218, R220, R222, R225: LADD, LSUB, LMUL, LDIV and LCVT. -/
theorem levelIndexStart : Spec.levelIndexStart := by
  intro i s d rs bad form on free empty
  cases i with
  | ladd e a b f q =>
    cases form
    rw [nar_nar]
    exact recurrence_starts (on q rfl) free empty (by simp) rfl fun c fl h => levelOp_case h
  | lsub e a b f q =>
    cases form
    rw [nar_nar]
    exact recurrence_starts (on q rfl) free empty (by simp) rfl fun c fl h => levelOp_case h
  | lmul e a b f q =>
    cases form
    rw [nar_nar]
    exact recurrence_starts (on q rfl) free empty (by simp) rfl fun c fl h => levelOp_case h
  | ldiv e a b f q =>
    cases form
    rw [nar_nar]
    exact recurrence_starts (on q rfl) free empty (by simp) rfl fun c fl h => levelOp_case h
  | lcvt e a r k q =>
    cases form
    rw [lcvtNan_eq]
    exact recurrence_starts (on q rfl) free empty (by simp) rfl fun c fl h => lcvtV_case _ h
  | _ => cases form

/-! ### A unit gives its result (R88, R218) -/

@[simp] theorem land_nflags (x : Ctx) (r : RegName) (id : Nat) (v : PWord) : (x.land r id v).nflags = x.nflags := by
  unfold Ctx.land
  split
  · cases r <;> simp [Ctx.setReg, Ctx.setE, Ctx.unpend]
  · rfl

theorem getG_land {x : Ctx} {d : Reg} {id : Nat} (v : PWord) (waits : (RegName.g d, id) ∈ x.pend) (nonzero : d ≠ 0) :
    (x.land (.g d) id v).getG d = v := by
  have any : x.pend.any (· == (RegName.g d, id)) = true := List.any_eq_true.2 ⟨_, waits, by simp⟩
  rw [Ctx.land, if_pos any, Ctx.setReg, Ctx.getG_setG, if_neg nonzero, if_pos rfl]

section
variable {s : State} {c : CoreId}

theorem landUnit_ctx (o : UnitOp) : (s.landUnit c o).ctx c o.ctx =
    { (s.ctx c o.ctx).land o.dst o.id o.val with nflags := (s.ctx c o.ctx).nflags ||| o.flags } := by
  simp [State.landUnit, State.modCtx]

theorem ctx_modCore {f : Core → Core} (same : ∀ k, (f k).ctxs = k.ctxs) (n : CtxId) : (s.modCore c f).ctx c n = s.ctx c n := by
  simp [State.ctx, State.modCore, Core.ctx, same]

theorem not_paused (free : s.spine.brake < 3 ∨ c = mgmtCore) : (!s.paused c) = true := by
  rcases free with low | rfl
  · simp [State.paused, State.braked, low]
  · simp [State.paused]

/-- What a completed operation leaves, whichever unit made it. -/
theorem landed_result {t : State} (o : UnitOp) (same : t.ctx c o.ctx = (s.landUnit c o).ctx c o.ctx) :
    (t.ctx c o.ctx).nflags = (s.ctx c o.ctx).nflags ||| o.flags ∧
      ∀ d : Reg, o.dst = .g d → d ≠ 0 → ((.g d, o.id) ∈ (s.ctx c o.ctx).pend) → (t.ctx c o.ctx).getG d = o.val := by
  rw [same, landUnit_ctx]
  refine ⟨rfl, fun d dst nonzero waits => ?_⟩
  rw [dst]
  exact getG_land o.val waits nonzero

end

theorem divide_unit_completes {s : State} {o : UnitOp} (free : s.spine.brake < 3 ∨ s.ev.core = mgmtCore)
    (work : (s.core s.ev.core).work.div = some o) (empty : (s.core s.ev.core).work.divQ = []) :
    exec .divideUnitComplete s =
      .next ((s.landUnit s.ev.core o).modCore s.ev.core fun k => { k with work := { k.work with div := none } }) := by
  change execDivideUnitComplete s = _
  simp only [execDivideUnitComplete, work, empty, not_paused free, guardEvent_true, nextInUnit]

theorem recurrence_unit_completes {s : State} {o : UnitOp} (free : s.spine.brake < 3 ∨ s.ev.core = mgmtCore)
    (work : (s.core s.ev.core).work.rcr = some o) (empty : (s.core s.ev.core).work.rcrQ = []) :
    exec .recurrenceUnitComplete s =
      .next ((s.landUnit s.ev.core o).modCore s.ev.core fun k => { k with work := { k.work with rcr := none } }) := by
  change execRecurrenceUnitComplete s = _
  simp only [execRecurrenceUnitComplete, work, empty, not_paused free, guardEvent_true, nextInUnit]

/-- R88, R218: the units give their results. -/
theorem unitsComplete : Spec.unitsComplete := by
  intro s o c brake
  have same {f : Core → Core} (ctxs : ∀ k, (f k).ctxs = k.ctxs) :
      (((s.landUnit s.ev.core o).modCore s.ev.core f).ctx s.ev.core o.ctx) = (s.landUnit s.ev.core o).ctx s.ev.core o.ctx :=
    ctx_modCore ctxs _
  constructor
  · intro work empty
    refine ⟨_, divide_unit_completes brake work empty, ?_, landed_result o (same ?_)⟩
    · exact congrArg (fun k : Core => k.work.div) (core_setCore ..)
    · exact fun _ => rfl
  · intro work empty
    refine ⟨_, recurrence_unit_completes brake work empty, ?_, landed_result o (same ?_)⟩
    · exact congrArg (fun k : Core => k.work.rcr) (core_setCore ..)
    · exact fun _ => rfl

/-- Settles O6: a free unit takes an operation, and one that completes lands its result. -/
theorem unitsWork : Obligations.UnitsWork := ⟨divisionsStart, floatDivisionsStart, levelIndexStart, unitsComplete⟩

end Sys2Proof.Machine
end

section
/-! PROOFS (O14). Special registers: how a mode may use each, what MFS reads and what MTS writes (R99 to R101, R415). -/

namespace Sys2Proof.Machine

/-! ### Access (R99) -/

theorem natHas_iff (l : List Nat) (n : Nat) : natHas l n = true ↔ n ∈ l := by
  induction l with
  | nil => simp [natHas]
  | cons i r ih => rw [natHas, Bool.or_eq_true, ih, beq_iff_eq, List.mem_cons, eq_comm]

/-- Registers that no mode may write, and registers that every mode may write. -/
def srReadOnly : List Nat := [0x000, 0x008, 0x009, 0x00A, 0x00B, 0x00C, 0x00D, 0x00E, 0x012]
def srWritable : List Nat :=
  [0x001, 0x006, 0x007, 0x00F, 0x011, 0x016, 0x017, 0x018, 0x019, 0x01A, 0x01B, 0x01C, 0x01D, 0x01E]

section
variable {mgmt : Bool} {p : BitVec 2} {n : Nat}

theorem srAccess_readOnly (h : n ∈ srReadOnly) : srAccess mgmt p n = .ro := if_pos ((natHas_iff _ n).2 h)

theorem srAccess_writable (h : n ∈ srWritable) : srAccess mgmt p n = .rw := by
  have other : n ∉ srReadOnly := by
    revert n
    decide
  exact (if_neg (mt (natHas_iff _ n).1 other)).trans (if_pos ((natHas_iff _ n).2 h))

/-- Every other register of a core is read-only in user mode alone. -/
theorem srAccess_other (small : n ≤ 0x1E) (ro : n ∉ srReadOnly) (rw : n ∉ srWritable) :
    srAccess mgmt p n = if p = 0 then .ro else .rw := by
  have rest : natHas [0x002, 0x003, 0x004, 0x005, 0x010, 0x013, 0x014, 0x015] n = true := by
    revert n
    decide
  exact (if_neg (mt (natHas_iff _ n).1 ro)).trans ((if_neg (mt (natHas_iff _ n).1 rw)).trans (if_pos rest))

theorem srAccess_readable (small : n ≤ 0x1E) : srAccess mgmt p n = .ro ∨ srAccess mgmt p n = .rw := by
  by_cases ro : n ∈ srReadOnly
  · exact .inl (srAccess_readOnly ro)
  by_cases rw : n ∈ srWritable
  · exact .inr (srAccess_writable rw)
  rw [srAccess_other small ro rw]
  split
  · exact .inl rfl
  · exact .inr rfl

theorem srAccess_supervisor (sup : p ≠ 0) (small : n ≤ 0x1E) (ro : n ∉ srReadOnly) : srAccess mgmt p n = .rw := by
  by_cases rw : n ∈ srWritable
  · exact srAccess_writable rw
  · rw [srAccess_other small ro rw, if_neg sup]

theorem srAccess_user (h : n ∈ Spec.userReadOnly) : srAccess mgmt 0 n = .ro := by
  by_cases ro : n ∈ srReadOnly
  · exact srAccess_readOnly ro
  · have other : n ≤ 0x1E ∧ n ∉ srWritable := by
      revert n
      decide
    rw [srAccess_other other.1 ro other.2, if_pos rfl]

/-- The management registers of R415 in machine mode. -/
theorem srAccess_mgmt (low : 0x100 ≤ n) (high : n ≤ 0x108) : srAccess true 3 n = .rw := by
  interval_cases n <;> rfl

/-- A compute core has no register above 0x1E. -/
theorem srAccess_absent (high : 0x1F ≤ n) : srAccess false p n = .absent := by
  have out {l : List Nat} (bound : ∀ i ∈ l, i < 0x1F) : ¬ natHas l n = true := fun h => by
    have := bound n ((natHas_iff l n).1 h)
    omega
  rw [srAccess, if_neg (out (by decide)), if_neg (out (by decide)), if_neg (out (by decide))]
  rfl

end

/-! ### MFS (R99, R100) -/

theorem ipendOf_eq (s : State) : s.ipendOf s.cur.core s.cur.ctx =
    s.me.ipend ||| (if s.me.alarm ≠ 0 ∧ 0 ≤ (s.myNow - s.me.alarm).toInt then 1 else 0) := by
  simp [State.ipendOf, State.alarmOn, State.me, State.myNow, ahead]

/-- A register of R99 that stands for one field. -/
theorem special_read {s : State} {n : Nat} {v : Word} (h : Spec.special s n = some v) : s.readSr n = v ∧ n ≤ 0x1E := by
  unfold Spec.special at h
  split at h <;> cases h
  case h_9 => exact ⟨(BitVec.ofNat_toNat ..).symm, by decide⟩
  case h_10 => exact ⟨(BitVec.ofNat_toNat ..).symm, by decide⟩
  case h_14 => exact ⟨ipendOf_eq s, by decide⟩
  all_goals exact ⟨rfl, by decide⟩

theorem mgmtSpecial_read {s : State} {n : Nat} {v : Word} (h : Spec.mgmtSpecial s n = some v) :
    s.readSr n = v ∧ 0x100 ≤ n ∧ n ≤ 0x107 := by
  unfold Spec.mgmtSpecial at h
  split at h <;> cases h <;> exact ⟨rfl, by decide, by decide⟩

theorem execMfs_read {s : State} {sr : BitVec 12} (d : Reg) (access : srAccess s.onMgmt s.priv sr.toNat = .ro ∨
    srAccess s.onMgmt s.priv sr.toNat = .rw) (queue : sr.toNat ≠ 0x109) (tstat : sr.toNat = 0x001 → s.timedOut = false)
    (nflags : sr.toNat = 0x007 → s.flagsOut = false) :
    exec (.mfs d sr) s = .next (s.setG d ⟨s.readSr sr.toNat, false⟩).retire := by
  have ready : ((sr.toNat = 0x001 && s.timedOut) || (sr.toNat = 0x007 && s.flagsOut)) = false := by
    by_cases one : sr.toNat = 1
    · simp [one, tstat one]
    · by_cases seven : sr.toNat = 7
      · simp [seven, nflags seven]
      · simp [one, seven]
  change execMfs d sr s = _
  rw [execMfs]
  rcases access with h | h <;> simp only [h, ready, State.takeSr, if_neg queue] <;> rfl

/-! ### MTS (R99, R100) -/

/-- A register of a context: how its write stands in the model, and which modes may write it. -/
theorem written_eq {x y : Ctx} {v : Word} {n : Nat} {u : Bool} (h : Spec.written x v n = some (u, y)) :
    y = x.writeSr n v ∧ n ≤ 0x1E ∧ n ≠ 5 ∧ n ∉ srReadOnly ∧ (u = true → n ∈ srWritable) := by
  unfold Spec.written at h
  split at h <;> cases h <;> exact ⟨rfl, by decide, by decide, by decide, by decide⟩

theorem cPriv_word (sr : BitVec 12) : sr.setWidth 64 = BitVec.ofNat 64 sr.toNat := (BitVec.ofNat_toNat ..).symm

/-- R99 and R100: what MFS reads. -/
theorem mfsReads : Spec.mfsReads := by
  intro s d sr v
  constructor
  · intro h tstat nflags
    obtain ⟨read, small⟩ := special_read h
    have of_nat {k : Nat} (lt : k < 2 ^ 12) (eq : sr.toNat = k) : sr = BitVec.ofNat 12 k := by
      rw [← eq, BitVec.ofNat_toNat, BitVec.setWidth_eq]
    rw [execMfs_read d (srAccess_readable small) (by omega) (fun h => tstat (of_nat (by decide) h))
      (fun h => nflags (of_nat (by decide) h)), read]
  · intro h core priv
    obtain ⟨read, low, high⟩ := mgmtSpecial_read h
    have access : srAccess s.onMgmt s.priv sr.toNat = .rw := by
      rw [priv, show s.onMgmt = true by simp [State.onMgmt, core]]
      exact srAccess_mgmt low (by omega)
    rw [execMfs_read d (.inr access) (by omega) (by omega) (by omega), read]

section
variable {s : State} {d : Reg} {sr : BitVec 12}

theorem execMts_write (access : srAccess s.onMgmt s.priv sr.toNat = .rw) (clean : (s.gReg d).poison = false)
    (nflags : sr.toNat = 0x007 → s.flagsOut = false) :
    exec (.mts d sr) s = if 0x016 ≤ sr.toNat && sr.toNat ≤ 0x01E then .next (s.retire.writeSr sr.toNat (s.gReg d).val)
      else .next (s.writeSr sr.toNat (s.gReg d).val).retire := by
  have ready : (sr.toNat = 0x007 && s.flagsOut) = false := by
    by_cases seven : sr.toNat = 7
    · simp [seven, nflags seven]
    · simp [seven]
  change execMts d sr s = _
  rw [execMts]
  simp only [access, clean, ready, Bool.false_eq_true, if_false]
  rfl

/-- A write of a register of the context. -/
theorem writeSr_me {n : Nat} (small : n ≤ 0x1E) (tvec : n ≠ 5) (s : State) (v : Word) : s.writeSr n v = s.setMe (s.me.writeSr n v) := by
  rw [State.writeSr, if_neg tvec, if_neg (by omega)]
  rfl

end

/-- R99 and R100: what MTS writes. -/
theorem mtsWrites : Spec.mtsWrites := by
  intro s d sr u y clean
  refine ⟨?_, ?_, ?_⟩
  · intro h mode nflags range
    obtain ⟨rfl, small, tvec, ro, all⟩ := written_eq h
    have access : srAccess s.onMgmt s.priv sr.toNat = .rw := by
      rcases mode with user | sup
      · exact srAccess_writable (all user)
      · exact srAccess_supervisor sup small ro
    have flags (seven : sr.toNat = 7) : s.flagsOut = false := nflags (by
      rw [← BitVec.toNat_inj, seven]
      rfl)
    rw [execMts_write access clean flags, if_neg (by simp; omega), writeSr_me small tvec]
  · intro h low high
    obtain ⟨rfl, small, tvec, ro, all⟩ := written_eq h
    have access : srAccess s.onMgmt s.priv sr.toNat = .rw := by
      refine srAccess_writable ?_
      generalize sr.toNat = n at low high
      interval_cases n <;> decide
    rw [execMts_write access clean (by omega), if_pos (by simp; omega), writeSr_me small tvec]
  · intro sup
    rw [execMts_write (srAccess_supervisor sup (by decide) (by decide)) clean (fun h => absurd h (by decide))]
    rfl

/-- R99 and R100: where MTS traps. -/
theorem mtsTraps : Spec.mtsTraps := by
  intro s d sr
  constructor
  · intro user ro
    change execMts d sr s = _
    rw [execMts]
    simp only [user, srAccess_user ro, cPriv_word]
    rfl
  · intro sup poison writable small
    have access : srAccess s.onMgmt s.priv sr.toNat = .rw := srAccess_supervisor sup (by omega) writable
    change execMts d sr s = _
    rw [execMts]
    simp only [access, poison, if_true]
    rfl

/-- R99: no core but the management core has a register above 0x1E. -/
theorem absentRegisterIllegal : Spec.absentRegisterIllegal := by
  intro s d sr core high
  have access : srAccess s.onMgmt s.priv sr.toNat = .absent := by
    rw [show s.onMgmt = false by simpa [State.onMgmt] using core]
    exact srAccess_absent high
  constructor
  · change execMfs d sr s = _
    rw [execMfs]
    simp only [access]
    rfl
  · change execMts d sr s = _
    rw [execMts]
    simp only [access]
    rfl

/-- R415: what MTS writes on the management core. -/
theorem mgmtRegistersWritten : Spec.mgmtRegistersWritten := by
  intro s d core priv clean v m writes
  have write {sr : BitVec 12} (low : 0x100 ≤ sr.toNat) (high : sr.toNat ≤ 0x108) :
      exec (.mts d sr) s = .next (State.retire { s with mgmt := s.mgmt.writeSr sr.toNat (s.gReg d).val }) := by
    have access : srAccess s.onMgmt s.priv sr.toNat = .rw := by
      rw [priv, show s.onMgmt = true by simp [State.onMgmt, core]]
      exact srAccess_mgmt low high
    rw [execMts_write access clean (by omega), if_neg (by simp; omega), State.writeSr, if_neg (by omega), if_pos low]
  have host : (m.host && !v.getLsbD 3) = if v.getLsbD 3 then false else m.host := by cases v.getLsbD 3 <;> simp
  refine ⟨write (by decide) (by decide), write (by decide) (by decide), write (by decide) (by decide), write (by decide) (by decide),
    write (by decide) (by decide), write (by decide) (by decide), write (by decide) (by decide), write (by decide) (by decide), ?_⟩
  change exec _ _ = _
  rw [← host]
  exact write (by decide) (by decide)

/-! ### Registers that are computed from several fields (R101, R156, R233, R415) -/

theorem getLsbD_bitAt {i : Nat} (small : i < 64) (j : Nat) : (bitAt i).getLsbD j = (i == j) := by
  rw [bitAt, BitVec.getLsbD_shiftLeft, BitVec.getLsbD_one, Bool.eq_iff_iff]
  simp
  omega

/-- A word gathered bit by bit. -/
theorem getLsbD_foldl_bits {α : Type} (f : α → Bool) (k : α → Nat) (l : List α) (small : ∀ m ∈ l, k m < 64) (w : Word) (j : Nat) :
    (l.foldl (fun (a : Word) m => if f m then a ||| bitAt (k m) else a) w).getLsbD j = (w.getLsbD j || l.any fun m => f m && k m == j) := by
  induction l generalizing w with
  | nil => simp
  | cons m r ih =>
    rw [List.foldl_cons, ih fun x h => small x (List.mem_cons_of_mem _ h), List.any_cons]
    cases f m
    · simp
    · simp [getLsbD_bitAt (small m List.mem_cons_self), Bool.or_assoc]

/-- The bits of CTXST. -/
theorem getLsbD_ctxst (s : State) (c : CoreId) (n : CtxId) {j : Nat} (small : j < 64) : (s.ctxst c n).getLsbD j =
    ((allCtx.any fun m => (((s.core c).ctx m).st == .ended) && 29 + m.val == j) ||
      (allCtx.any fun m => ((s.core c).ctx m).live && 18 + m.val == j) ||
      (((s.core c).ctx n).tr.pkab && 15 == j) || (decide (12 ≤ j) && ((s.core c).ctx n).tr.ppriv.getLsbD (j - 12)) ||
      (decide (10 ≤ j) && ((s.core c).ctx n).tr.priv.getLsbD (j - 10)) || n.val.testBit j) := by
  have high (lo : Nat) (le : lo ≤ 29) : ∀ m ∈ allCtx, lo + m.val < 64 := fun m _ => by omega
  have flag (b : Bool) : (if b then bitAt 15 else (0 : Word)).getLsbD j = (b && 15 == j) := by
    cases b
    · simp
    · simp [getLsbD_bitAt]
  have field (lo : Nat) (v : BitVec 2) : (v.setWidth 64 <<< lo).getLsbD j = (decide (lo ≤ j) && v.getLsbD (j - lo)) := by
    rw [BitVec.getLsbD_shiftLeft, BitVec.getLsbD_setWidth]
    simp [small, show j - lo < 64 by omega, ← decide_not]
  simp only [State.ctxst, BitVec.getLsbD_or, getLsbD_foldl_bits _ _ _ (high 29 (by decide)), getLsbD_foldl_bits _ _ _ (high 18 (by decide)),
    flag, field, BitVec.getLsbD_ofNat]
  simp [small]

theorem any_ctx_out (f : CtxId → Bool) {lo j : Nat} (out : j < lo ∨ lo + 11 ≤ j) :
    (allCtx.any fun m => f m && lo + m.val == j) = false := by
  rw [List.any_eq_false]
  intro m _
  simp
  omega

theorem any_ctx_at (f : CtxId → Bool) (lo : Nat) (n : CtxId) : (allCtx.any fun m => f m && lo + m.val == lo + n.val) = f n := by
  rw [Bool.eq_iff_iff, List.any_eq_true]
  constructor
  · rintro ⟨m, _, h⟩
    rw [Bool.and_eq_true, beq_iff_eq, Nat.add_left_cancel_iff] at h
    rw [← Fin.ext h.2]
    exact h.1
  · intro h
    exact ⟨n, List.mem_finRange n, by simp [h]⟩

theorem testBit_ctx (n : CtxId) {j : Nat} (high : 4 ≤ j) : n.val.testBit j = false :=
  Nat.testBit_lt_two_pow (n.isLt.trans_le ((by decide : 11 ≤ 2 ^ 4).trans (Nat.pow_le_pow_right (by decide) high)))

theorem live_iff (x : Ctx) : x.live = true ↔ x.st = .ready ∨ x.st = .waiting ∨ x.st = .stopped := by
  unfold Ctx.live
  cases x.st <;> simp

/-- R101. -/
theorem ctxstReads : Spec.ctxstReads := by
  intro s d
  have two {x y : BitVec 2} (h0 : x.getLsbD 0 = y.getLsbD 0) (h1 : x.getLsbD 1 = y.getLsbD 1) : x = y :=
    BitVec.eq_of_getLsbD_eq fun i hi => by interval_cases i <;> assumption
  refine ⟨s.ctxst s.cur.core s.cur.ctx, execMfs_read d (srAccess_readable (by decide)) (by decide) (fun h => absurd h (by decide))
    (fun h => absurd h (by decide)), ?_, ?_, ?_, ?_, fun n => ⟨?_, ?_⟩⟩
  · refine BitVec.eq_of_getLsbD_eq fun i small => ?_
    rw [BitVec.getLsbD_extractLsb', getLsbD_ctxst _ _ _ (by omega), any_ctx_out _ (.inl (by omega)), any_ctx_out _ (.inl (by omega)),
      BitVec.getLsbD_ofNat]
    simp [small]
    omega
  · refine two ?_ ?_ <;>
      rw [BitVec.getLsbD_extractLsb', getLsbD_ctxst _ _ _ (by decide), any_ctx_out _ (.inl (by decide)), any_ctx_out _ (.inl (by decide)),
        testBit_ctx _ (by decide)] <;> simp <;> rfl
  · refine two ?_ ?_ <;>
      rw [BitVec.getLsbD_extractLsb', getLsbD_ctxst _ _ _ (by decide), any_ctx_out _ (.inl (by decide)), any_ctx_out _ (.inl (by decide)),
        testBit_ctx _ (by decide)] <;> simp <;> rfl
  · rw [getLsbD_ctxst _ _ _ (by decide), any_ctx_out _ (.inl (by decide)), any_ctx_out _ (.inl (by decide)), testBit_ctx _ (by decide)]
    simp
    rfl
  · rw [getLsbD_ctxst _ _ _ (by omega), any_ctx_out _ (.inl (by omega)), any_ctx_at, testBit_ctx _ (by omega)]
    rw [BitVec.getLsbD_of_ge _ _ (by omega), BitVec.getLsbD_of_ge _ _ (by omega)]
    simpa [show 15 ≠ 18 + n.val by omega, State.myCore] using live_iff _
  · rw [getLsbD_ctxst _ _ _ (by omega), any_ctx_out _ (lo := 18) (.inr (by omega)), any_ctx_at, testBit_ctx _ (by omega)]
    rw [BitVec.getLsbD_of_ge _ _ (by omega), BitVec.getLsbD_of_ge _ _ (by omega)]
    simp [show 15 ≠ 29 + n.val by omega]
    rfl

/-- R233. -/
theorem vlgrant_eq {s : State} (granted : s.me.lanes.g ≤ 16) (wanted : s.me.lanes.q ≤ 16)
    (waiting : (if s.cur.core = mgmtCore then 0 else (s.octet (octetOf s.cur.core)).laneQ.length) ≤ 88) :
    (s.vlgrant s.cur.core s.cur.ctx).toNat = s.me.lanes.g + 2 ^ 8 * s.me.lanes.q + (if s.me.lanes.shrink then 2 ^ 16 else 0) +
      2 ^ 32 * (if s.cur.core = mgmtCore then 0 else (s.octet (octetOf s.cur.core)).laneQ.length) := by
  have fields : s.vlgrant s.cur.core s.cur.ctx = BitVec.ofNat 64
      ((if s.cur.core = mgmtCore then 0 else (s.octet (octetOf s.cur.core)).laneQ.length) * 2 ^ 32 +
        (if s.me.lanes.shrink then 2 ^ 16 else 0) + s.me.lanes.q * 2 ^ 8 + s.me.lanes.g) := by
    simp only [State.vlgrant, beq_iff_eq]
    rfl
  rw [fields, BitVec.toNat_ofNat]
  revert waiting
  generalize (if s.cur.core = mgmtCore then 0 else (s.octet (octetOf s.cur.core)).laneQ.length) = w
  intro waiting
  split <;> omega

/-- The sum of 2^m for each number m below `n` that a test accepts. -/
def bitSum (f : Nat → Bool) (n : Nat) : Nat := ((List.range n).map fun m => if f m then 2 ^ m else 0).sum

theorem bitSum_succ (f : Nat → Bool) (n : Nat) : bitSum f (n + 1) = bitSum f n + if f n then 2 ^ n else 0 := by
  simp [bitSum, List.range_succ]

theorem bitSum_lt (f : Nat → Bool) (n : Nat) : bitSum f n < 2 ^ n := by
  induction n with
  | zero => simp [bitSum]
  | succ n ih =>
    rw [bitSum_succ, pow_succ]
    split <;> omega

theorem testBit_bitSum (f : Nat → Bool) (n j : Nat) : (bitSum f n).testBit j = (decide (j < n) && f j) := by
  induction n with
  | zero => simp [bitSum]
  | succ n ih =>
    have small := bitSum_lt f n
    rw [bitSum_succ]
    cases bit : f n with
    | false =>
      rw [if_neg Bool.false_ne_true, add_zero, ih]
      rcases lt_trichotomy j n with lt | rfl | gt
      · simp [lt, Nat.lt_succ_of_lt lt]
      · simp [bit]
      · simp [gt.not_gt, show ¬ j < n + 1 by omega]
    | true =>
      have split : bitSum f n + 2 ^ n = 2 ^ n * 1 ||| bitSum f n := by rw [← Nat.two_pow_add_eq_or_of_lt small]; ring
      rw [if_pos rfl, split, Nat.testBit_or, mul_one, Nat.testBit_two_pow, ih]
      rcases lt_trichotomy j n with lt | rfl | gt
      · simp [lt, Nat.lt_succ_of_lt lt, lt.ne']
      · simp [bit]
      · simp [gt.ne, gt.not_gt, show ¬ j < n + 1 by omega]

/-- The context whose claim stands first, as POOLST names it. -/
def Core.poolHead (k : Core) : Nat := (k.poolQ.head?.map fun e => e.1.val).getD 15

theorem poolHead_le (k : Core) : k.poolHead ≤ 15 := by
  unfold Core.poolHead
  cases k.poolQ with
  | nil => simp
  | cons e r => exact (show e.1.val ≤ 15 by omega)

theorem poolst_fields (k : Core) (held : Nat) : k.poolst held = (k.poolQ.foldl (fun (a : Word) e => a ||| bitAt (45 + e.1.val)) 0) |||
    BitVec.ofNat 64 (k.poolFree + 2 ^ 8 * k.low + 2 ^ 16 * held + 2 ^ 32 * k.poolQ.length + 2 ^ 36 * k.poolHead) := by
  have sum (h : Nat) : h * 2 ^ 36 + k.poolQ.length * 2 ^ 32 + held * 2 ^ 16 + k.low * 2 ^ 8 + k.poolFree =
      k.poolFree + 2 ^ 8 * k.low + 2 ^ 16 * held + 2 ^ 32 * k.poolQ.length + 2 ^ 36 * h := by ring
  rw [← sum, Core.poolst, Core.poolHead]
  cases k.poolQ <;> rfl

/-- R156. -/
theorem poolst_eq {k : Core} {held : Nat} (counts : held ≤ 32) (low : k.low ≤ 32) (waiting : k.poolQ.length ≤ 11) :
    k.poolst held = BitVec.ofNat 64 (k.poolFree + 2 ^ 8 * k.low + 2 ^ 16 * held + 2 ^ 32 * k.poolQ.length + 2 ^ 36 * k.poolHead +
      2 ^ 45 * bitSum (fun m => k.poolQ.any fun e => e.1.val == m) 11) := by
  have free : k.poolFree ≤ 32 := Nat.sub_le ..
  have head := poolHead_le k
  have fold := getLsbD_foldl_bits (fun _ => true) (fun e : CtxId × Nat => 45 + e.1.val) k.poolQ (fun e _ => by omega) 0
  simp only [if_true, Bool.true_and] at fold
  have small : k.poolFree + 2 ^ 8 * k.low + 2 ^ 16 * held + 2 ^ 32 * k.poolQ.length + 2 ^ 36 * k.poolHead < 2 ^ 45 := by omega
  rw [poolst_fields]
  revert small
  generalize k.poolFree + 2 ^ 8 * k.low + 2 ^ 16 * held + 2 ^ 32 * k.poolQ.length + 2 ^ 36 * k.poolHead = r
  intro small
  rw [add_comm r, Nat.two_pow_add_eq_or_of_lt small]
  refine BitVec.eq_of_getLsbD_eq fun j lt => ?_
  rw [BitVec.getLsbD_or, fold, BitVec.getLsbD_ofNat, BitVec.getLsbD_ofNat, Nat.testBit_or, Nat.testBit_two_pow_mul, testBit_bitSum]
  have place (e : CtxId × Nat) : (45 + e.1.val == j) = (decide (45 ≤ j) && (decide (j - 45 < 11) && e.1.val == j - 45)) := by
    rw [Bool.eq_iff_iff]
    simp
    omega
  have any : (k.poolQ.any fun e => 45 + e.1.val == j) =
      (decide (45 ≤ j) && (decide (j - 45 < 11) && k.poolQ.any fun e => e.1.val == j - 45)) := by
    simp only [place, List.and_any_distrib_left]
  simp [lt, any]

theorem mstat_bits : ∀ (p : BitVec 2) (b : Bool), ((p.setWidth 64 <<< 2) ||| (if b then 1 else 0) : Word) =
    BitVec.ofNat 64 ((if b then 1 else 0) + 4 * p.toNat) := by decide

theorem mipend_bits : ∀ a b c d e : Bool, let v : Word := (if a then 0 else 1) ||| (if b then 2 else 0) |||
      (if c then 0 else 4) ||| (if d then 8 else 0) ||| (if e then 16 else 0)
    v.toNat < 32 ∧ v.getLsbD 0 = !a ∧ v.getLsbD 1 = b ∧ v.getLsbD 2 = !c ∧ v.getLsbD 3 = d ∧ v.getLsbD 4 = e := by decide

/-- R156, R233, R415: registers that are computed from several fields. -/
theorem computedRegistersRead : Spec.computedRegistersRead := by
  intro s d
  refine ⟨⟨_, execMfs_read d (srAccess_readable (by decide)) (by decide) (fun h => absurd h (by decide))
    (fun h => absurd h (by decide)), vlgrant_eq⟩, ?_, ?_⟩
  · intro counts low waiting k
    rw [execMfs_read d (srAccess_readable (by decide)) (by decide) (fun h => absurd h (by decide)) (fun h => absurd h (by decide))]
    have value := poolst_eq (counts s.cur.ctx) low waiting
    refine congrArg (fun v => Host.Outcome.next (s.setG d ⟨v, false⟩).retire) (value.trans ?_)
    rw [Core.poolHead]
    cases s.myCore.poolQ <;> rfl
  · intro core priv
    have access {sr : BitVec 12} (lo : 0x100 ≤ sr.toNat) (hi : sr.toNat ≤ 0x108) : srAccess s.onMgmt s.priv sr.toNat = .rw := by
      rw [priv, show s.onMgmt = true by simp [State.onMgmt, core]]
      exact srAccess_mgmt lo hi
    have read {sr : BitVec 12} (lo : 0x100 ≤ sr.toNat) (hi : sr.toNat ≤ 0x108) :=
      execMfs_read d (.inr (access lo hi)) (by omega) (fun h => absurd h (by omega)) (fun h => absurd h (by omega))
    constructor
    · rw [read (by decide) (by decide)]
      exact congrArg (fun v => Host.Outcome.next (s.setG d ⟨v, false⟩).retire) (mstat_bits _ _)
    · obtain ⟨small, alert, rekey, event, host, alarm⟩ := mipend_bits s.mgmt.alerts.isEmpty (s.links.any (·.2.rekey)) s.spine.evq.isEmpty
        s.mgmt.host (s.alarmOn mgmtCore s.me)
      refine ⟨_, read (by decide) (by decide), small, ?_, ?_, ?_, host, ?_⟩
      · exact alert.symm ▸ by simp
      · exact rekey.symm ▸ by simp
      · exact event.symm ▸ by simp
      · exact alarm.symm ▸ by simp [State.alarmOn, State.myNow, ahead, core]

/-- Settles O14: the access of each register by its number, and its read and write field by field. -/
theorem specialRegisters : Obligations.SpecialRegisters :=
  ⟨mfsReads, ctxstReads, computedRegistersRead, mgmtRegistersWritten, mtsWrites, mtsTraps, absentRegisterIllegal⟩

end Sys2Proof.Machine
end

section
/-! PROOFS (O30, O60). Elements of a v register, and what an instruction that writes elements leaves (R189, R240). -/

namespace Sys2Proof.Machine

/-! ### Elements and poison of a written register -/

theorem packElems_lt (l : List (BitVec 32)) : packElems l < 2 ^ (32 * l.length) := by
  induction l with
  | nil => exact Nat.one_pos
  | cons x r ih =>
    have digit := x.isLt
    rw [packElems, List.length_cons, mul_add, pow_add]
    omega

/-- Digit `k` of the number that a list of elements packs into. -/
theorem packElems_digit (l : List (BitVec 32)) {k : Nat} (h : k < l.length) : packElems l / 2 ^ (32 * k) % 2 ^ 32 = l[k].toNat := by
  induction l generalizing k with
  | nil => exact absurd h (Nat.not_lt_zero _)
  | cons x r ih =>
    have digit := x.isLt
    rw [packElems]
    cases k with
    | zero =>
      simp
      exact digit
    | succ k =>
      have rest : (x.toNat + 2 ^ 32 * packElems r) / 2 ^ 32 = packElems r := by omega
      rw [mul_add, mul_one, add_comm (32 * k), pow_add, ← Nat.div_div_eq_div_mul, rest]
      exact ih (Nat.lt_of_succ_lt_succ h)

theorem toNat_extract_ofNat {w n : Nat} (h : n < 2 ^ w) (i m : Nat) :
    ((BitVec.ofNat w n).extractLsb' i m).toNat = n / 2 ^ i % 2 ^ m := by
  rw [BitVec.extractLsb'_toNat, BitVec.toNat_ofNat, Nat.mod_eq_of_lt h, Nat.shiftRight_eq_div_pow]

theorem extract_packElems {l : List (BitVec 32)} {w : Nat} (len : 32 * l.length = w) {k : Nat} (h : k < l.length) :
    (BitVec.ofNat w (packElems l)).extractLsb' (32 * k) 32 = l[k] := by
  apply BitVec.eq_of_toNat_eq
  rw [toNat_extract_ofNat (len ▸ packElems_lt l), packElems_digit]

/-- An element that is written takes its value; the others keep theirs. -/
theorem el_put (v : VReg) (es : List Elem) {k : Nat} (h : k < 16) :
    Spec.el (v.put es) k = ((es[k]?).map (·.val)).getD (Spec.el v k) := by
  rw [Spec.el, VReg.put, extract_packElems (by simp) (by simpa using h), List.getElem_map, List.getElem_range]
  rfl

theorem getLsbD_setBit8 (x : BitVec 8) {u : Nat} (h : u < 8) (b : Bool) (j : Nat) :
    (setBit8 x u b).getLsbD j = if j = u then b else x.getLsbD j := by
  have bit : (1#8 <<< u).getLsbD j = decide (j = u) := by
    rw [BitVec.getLsbD_shiftLeft, BitVec.getLsbD_one, Bool.eq_iff_iff]
    simp
    omega
  cases b
  · rw [setBit8, if_neg Bool.false_ne_true, BitVec.getLsbD_and, BitVec.getLsbD_not, bit]
    by_cases e : j = u
    · simp [e]
    · rcases lt_or_ge j 8 with lt | ge
      · simp [e, lt]
      · simp [e, BitVec.getLsbD_of_ge _ _ ge]
  · rw [setBit8, if_pos rfl, BitVec.getLsbD_or, bit]
    by_cases e : j = u <;> simp [e]

/-- Setting each of the low bits in turn. -/
theorem getLsbD_foldl_setBit8 (f : Nat → Bool) {n : Nat} (small : n ≤ 8) (x : BitVec 8) (j : Nat) :
    ((List.range n).foldl (fun p u => setBit8 p u (f u)) x).getLsbD j = if j < n then f j else x.getLsbD j := by
  induction n with
  | zero => simp
  | succ n ih =>
    rw [List.range_succ, List.foldl_append, List.foldl_cons, List.foldl_nil, getLsbD_setBit8 _ (by omega), ih (by omega)]
    by_cases e : j = n
    · simp [e]
    · simp [e, show j < n + 1 ↔ j < n by omega]

/-- A unit is poisoned when an element written into it is, or when it was and one of its elements is not written. -/
theorem poison_put (v : VReg) (es : List Elem) {u : Nat} (h : u < 8) : (v.put es).poison.getLsbD u =
    (((es[2 * u]?).map (·.poison)).getD false || ((es[2 * u + 1]?).map (·.poison)).getD false ||
      (v.poison.getLsbD u && decide (es.length < 2 * u + 2))) := by
  rw [VReg.put, getLsbD_foldl_setBit8 _ (by decide), if_pos h]
  simp [List.range_succ]

/-- Elements as their rule gives them, written from the lowest on. -/
theorem vecWritten_put (v : VReg) {es : List Elem} {val : Nat → BitVec 32} {bad : Nat → Bool} {vl : Nat} (len : es.length = vl)
    (elems : ∀ k (h : k < es.length), es[k].val = (if bad k then 0 else val k) ∧ es[k].poison = bad k) :
    Spec.vecWritten v (v.put es) vl val bad := by
  subst len
  have poison (k : Nat) : ((es[k]?).map (·.poison)).getD false = (decide (k < es.length) && bad k) := by
    by_cases h : k < es.length
    · simp [h, (elems k h).2]
    · simp [h]
  constructor
  · intro k h
    rw [el_put v es h]
    by_cases lt : k < es.length
    · simp [lt, (elems k lt).1]
    · simp [lt]
  · intro u h
    rw [poison_put v es h, poison, poison, Bool.and_comm (v.poison.getLsbD u)]

/-! ### The instruction that writes them -/

theorem setMe_setMe (s : State) (x y : Ctx) : (s.setMe x).setMe y = s.setMe y := by
  simp [State.setMe, State.setCtx, setCore_setCore, setCtx_setCtx]

theorem putElems_eq (d : VRegN) (es : List Elem) (s : State) :
    putElems d es s = .next (Spec.vecState s d (s.me.v[d].put es) (es.foldl (fun f e => f ||| e.flags) 0)).retire := by
  rw [putElems, done, State.addFlags, State.modMe, State.modMe, me_setMe, setMe_setMe]
  rfl

theorem laneFault_none {s : State} {rs : List VRegN} (h : Spec.lanesFor s rs) : s.me.laneFault rs = none := by
  have bound : s.me.unbound rs = none := by
    rw [Ctx.unbound, List.find?_eq_none]
    intro r mem
    simpa using h.2 r mem
  rw [Ctx.laneFault, if_neg h.1, bound]
  rfl

theorem onLanes_open {s : State} {rs : List VRegN} (h : Spec.lanesFor s rs) (k : Res) : onLanes rs s k = k := by
  rw [onLanes, laneFault_none h]

end Sys2Proof.Machine
end

section
/-! PROOFS (O30). Integer vector instructions (R242). -/

namespace Sys2Proof.Machine

/-! ### Element by element -/

/-- Elements without flags set none. -/
theorem flags_none {es : List Elem} (h : ∀ e ∈ es, e.flags = 0) : es.foldl (fun f e => f ||| e.flags) 0 = 0 := by
  induction es with
  | nil => rfl
  | cons e r ih =>
    rw [List.foldl_cons, h e List.mem_cons_self, show (0 : Word) ||| 0 = 0 by decide]
    exact ih fun x mem => h x (List.mem_cons_of_mem _ mem)

theorem elemOf_val (p : Bool) (r : Nat × Word) : (elemOf p 0 r).val = if p then 0 else BitVec.ofNat 32 r.1 := by
  unfold elemOf
  split <;> rfl

theorem elemOf_poison (p : Bool) (bad : Nat) (r : Nat × Word) : (elemOf p bad r).poison = p := by
  unfold elemOf
  split <;> simp_all

theorem elemOf_flags (p : Bool) (bad n : Nat) : (elemOf p bad (n, 0)).flags = 0 := by
  unfold elemOf
  split <;> rfl

/-- An integer vector instruction whose elements are those of its table. -/
theorem vectorInteger_writes {i : Instr} {s : State} {d a b e : VRegN} {x y : VRegN} {q : Pred} {f : Nat → Nat → Nat}
    {g h : BitVec 32 → BitVec 32 → BitVec 32} (form : some (d, a, b, g) = some (e, x, y, h)) (on : s.isOn q)
    (lanes : Spec.lanesFor s [e, x, y]) (step : exec i s = vop2 0 (plainElem f) d a b q s)
    (value : ∀ x y : BitVec 32, BitVec.ofNat 32 (f x.toNat y.toNat) = g x y) :
    ∃ r, exec i s = .next (Spec.vecState s e r 0).retire ∧
      Spec.vecWritten s.me.v[e] r s.me.lanes.vl (fun k => h (Spec.el s.me.v[x] k) (Spec.el s.me.v[y] k))
        fun k => Spec.tainted s.me.v[x] k || Spec.tainted s.me.v[y] k := by
  cases form
  have none : ∀ e ∈ map2 0 (plainElem f) (s.vReg a) (s.vReg b) s.vl, e.flags = 0 := by
    intro e mem
    obtain ⟨k, _, rfl⟩ := List.mem_map.1 mem
    exact elemOf_flags ..
  refine ⟨_, ?_, vecWritten_put s.me.v[d] (es := map2 0 (plainElem f) (s.vReg a) (s.vReg b) s.vl) (by simp [map2, State.vl]) ?_⟩
  · rw [step, vop2, pred_on on, onLanes_open lanes, putElems_eq, flags_none none]
  · intro k lt
    simp only [map2, List.getElem_map, List.getElem_range]
    rw [elemOf_val, elemOf_poison, plainElem, value]
    exact ⟨rfl, rfl⟩

/-! ### Values of the table -/

section
variable (x y : BitVec 32)

theorem s32_toNat : s32 x.toNat = x.toInt := by rw [s32, BitVec.ofNat_toNat, BitVec.setWidth_eq]

theorem ofNat_wrap32 (z : Int) : BitVec.ofNat 32 (wrap32 z) = BitVec.ofInt 32 z := by
  rw [wrap32, BitVec.ofNat_toNat, BitVec.setWidth_eq]

theorem ofNat_mod32 (n : Nat) : BitVec.ofNat 32 (n % 2 ^ 32) = BitVec.ofNat 32 n := by
  apply BitVec.eq_of_toNat_eq
  simp

theorem ofInt_cast (n : Nat) : BitVec.ofInt 32 (n : Int) = BitVec.ofNat 32 n := BitVec.ofInt_natCast ..

theorem wrap_elem (op : Int → Int → Int) :
    BitVec.ofNat 32 (satElem op .wrap x.toNat y.toNat) = BitVec.ofInt 32 (op x.toNat y.toNat) := by
  rw [satElem, ofNat_wrap32]

theorem ss_elem (op : Int → Int → Int) : BitVec.ofNat 32 (satElem op .ss x.toNat y.toNat) =
    BitVec.ofInt 32 (Spec.clampTo (-2147483648) 2147483647 (op x.toInt y.toInt)) := by
  rw [satElem, s32_toNat, s32_toNat, clamp32, ofNat_wrap32]
  rfl

theorem su_elem (op : Int → Int → Int) : BitVec.ofNat 32 (satElem op .su x.toNat y.toNat) =
    BitVec.ofInt 32 (Spec.clampTo 0 4294967295 (op x.toNat y.toNat)) := by
  rw [satElem, clamp32, ofNat_wrap32]
  rfl

theorem min_elem (u : Bool) : BitVec.ofNat 32 (minElem u x.toNat y.toNat) =
    if (if u then x.toNat ≤ y.toNat else x.toInt ≤ y.toInt) then x else y := by
  rw [minElem, s32_toNat, s32_toNat, apply_ite (BitVec.ofNat 32), BitVec.ofNat_toNat, BitVec.ofNat_toNat, BitVec.setWidth_eq,
    BitVec.setWidth_eq]
  cases u <;> simp

/-- The greater of two, whichever of two equal ones is named. -/
theorem max_elem (u : Bool) : BitVec.ofNat 32 (maxElem u x.toNat y.toNat) =
    if (if u then x.toNat ≤ y.toNat else x.toInt ≤ y.toInt) then y else x := by
  rw [maxElem, s32_toNat, s32_toNat, apply_ite (BitVec.ofNat 32), BitVec.ofNat_toNat, BitVec.ofNat_toNat, BitVec.setWidth_eq,
    BitVec.setWidth_eq]
  cases u with
  | true =>
    rcases lt_trichotomy x.toNat y.toNat with lt | same | gt
    · simp [lt.le, lt.not_ge]
    · simp [BitVec.eq_of_toNat_eq same]
    · simp [gt.le, gt.not_ge]
  | false =>
    rcases lt_trichotomy x.toInt y.toInt with lt | same | gt
    · simp [lt.le, lt.not_ge]
    · simp [BitVec.eq_of_toInt_eq same]
    · simp [gt.le, gt.not_ge]

theorem shr_elem (u : Bool) : BitVec.ofNat 32 (shrElem u x.toNat y.toNat) =
    if u then BitVec.ofNat 32 (x.toNat / 2 ^ (y.toNat % 32)) else BitVec.ofInt 32 (x.toInt / 2 ^ (y.toNat % 32)) := by
  cases u
  · rw [shrElem, if_neg Bool.false_ne_true, if_neg Bool.false_ne_true, ofNat_wrap32, s32_toNat]
  · rfl

end

/-- R242: the integer vector instructions. -/
theorem vectorIntegers : Spec.vectorIntegers := by
  intro i s d a b f form on lanes small
  cases i with
  | vadd d a b m q =>
    cases m
    case wrap => exact vectorInteger_writes form (on q rfl) lanes rfl fun x y => (wrap_elem x y _).trans (ofInt_cast (x.toNat + y.toNat))
    case ss => exact vectorInteger_writes form (on q rfl) lanes rfl fun x y => ss_elem x y _
    case su => exact vectorInteger_writes form (on q rfl) lanes rfl fun x y => su_elem x y _
  | vsub d a b m q =>
    cases m
    case wrap => exact vectorInteger_writes form (on q rfl) lanes rfl fun x y => wrap_elem x y _
    case ss => exact vectorInteger_writes form (on q rfl) lanes rfl fun x y => ss_elem x y _
    case su => exact vectorInteger_writes form (on q rfl) lanes rfl fun x y => su_elem x y _
  | vmul d a b m q =>
    cases m
    case low => exact vectorInteger_writes form (on q rfl) lanes rfl fun x y => ofNat_mod32 _
    case h => exact vectorInteger_writes form (on q rfl) lanes rfl fun x y => by rw [mulElem, ofNat_wrap32, s32_toNat, s32_toNat]
    case hu => exact vectorInteger_writes form (on q rfl) lanes rfl fun _ _ => rfl
  | vmin d a b u q => exact vectorInteger_writes form (on q rfl) lanes rfl fun x y => min_elem x y u
  | vmax d a b u q => exact vectorInteger_writes form (on q rfl) lanes rfl fun x y => max_elem x y u
  | vand d a b q => exact vectorInteger_writes form (on q rfl) lanes rfl fun x y =>
      BitVec.ofNat_and.trans (by simp)
  | vor d a b q => exact vectorInteger_writes form (on q rfl) lanes rfl fun x y => BitVec.eq_of_toNat_eq (by simp)
  | vxor d a b q => exact vectorInteger_writes form (on q rfl) lanes rfl fun x y => BitVec.eq_of_toNat_eq (by simp)
  | vshl d a b q => exact vectorInteger_writes form (on q rfl) lanes rfl fun x y => ofNat_mod32 _
  | vshr d a b u q => exact vectorInteger_writes form (on q rfl) lanes rfl fun x y => shr_elem x y u
  | _ => cases form

end Sys2Proof.Machine
end

section
/-! PROOFS (O30). Packed conversions and reductions (R77, R245, R247). -/

namespace Sys2Proof.Machine

/-! ### Flags of several elements -/

theorem getLsbD_foldl_or {α : Type} (f : α → Word) (l : List α) (w : Word) (j : Nat) :
    (l.foldl (fun a e => a ||| f e) w).getLsbD j = (w.getLsbD j || l.any fun e => (f e).getLsbD j) := by
  induction l generalizing w with
  | nil => simp
  | cons e r ih => rw [List.foldl_cons, ih, BitVec.getLsbD_or, List.any_cons, Bool.or_assoc]

theorem flags_replicate (e : Elem) {n : Nat} (pos : 0 < n) : (List.replicate n e).foldl (fun f e => f ||| e.flags) 0 = e.flags := by
  refine BitVec.eq_of_getLsbD_eq fun j _ => ?_
  rw [getLsbD_foldl_or]
  simp [List.any_replicate, pos.ne']

/-! ### Packed conversions (R245) -/

/-- Bytes packed into an element, each taken modulo 2^32 first. -/
theorem pack_bytes (a b c d : Nat) :
    BitVec.ofNat 32 ((BitVec.ofNat 32 a).toNat + 2 ^ 8 * (BitVec.ofNat 32 b).toNat + 2 ^ 16 * (BitVec.ofNat 32 c).toNat +
      2 ^ 24 * (BitVec.ofNat 32 d).toNat) = BitVec.ofNat 32 (a + 2 ^ 8 * b + 2 ^ 16 * c + 2 ^ 24 * d) := by
  apply BitVec.eq_of_toNat_eq
  simp only [BitVec.toNat_ofNat]
  omega

section
variable (n : Nat) (c : Nat → Nat) (fl : Nat → Word)

/-- Clean elements of given codes and flags. -/
def cleanElems : List Elem := (List.range n).map fun j => ⟨BitVec.ofNat 32 (c j), false, fl j⟩

theorem cleanElems_getD (j : Nat) : ((cleanElems n c fl)[j]?).getD (Elem.of 0) =
    ⟨BitVec.ofNat 32 (if j < n then c j else 0), false, if j < n then fl j else 0⟩ := by
  by_cases h : j < n
  · simp [cleanElems, h]
  · simp [cleanElems, h, Elem.of]

theorem packFour_clean (j : Nat) :
    let byte := fun j => if j < n then c j else 0
    let flag := fun j => if j < n then fl j else 0
    packFour (cleanElems n c fl) j =
      ⟨BitVec.ofNat 32 (byte (4 * j) + 2 ^ 8 * byte (4 * j + 1) + 2 ^ 16 * byte (4 * j + 2) + 2 ^ 24 * byte (4 * j + 3)), false,
        flag (4 * j) ||| flag (4 * j + 1) ||| flag (4 * j + 2) ||| flag (4 * j + 3)⟩ := by
  simp only [packFour, cleanElems_getD, pack_bytes, add_zero, Bool.or_false]

theorem flags_packFour : ((List.range ((n + 3) / 4)).map (packFour (cleanElems n c fl))).foldl (fun f e => f ||| e.flags) 0 =
    ((List.range n).map fl).foldl (· ||| ·) 0 := by
  refine BitVec.eq_of_getLsbD_eq fun j _ => ?_
  have ors := getLsbD_foldl_or (fun w : Word => w) ((List.range n).map fl) 0 j
  rw [getLsbD_foldl_or, ors, Bool.eq_iff_iff]
  simp only [packFour_clean, List.any_map, BitVec.getLsbD_or, Bool.or_eq_true, List.any_eq_true, List.mem_range, Function.comp]
  have flag (k : Nat) : (if k < n then fl k else 0).getLsbD j = true ↔ k < n ∧ (fl k).getLsbD j = true := by
    split <;> simp_all
  simp only [flag]
  constructor
  · rintro (zero | ⟨m, _, ((h | h) | h) | h⟩)
    · exact .inl zero
    all_goals exact .inr ⟨_, h⟩
  · rintro (zero | ⟨k, lt, bit⟩)
    · exact .inl zero
    · refine .inr ⟨k / 4, by omega, ?_⟩
      have place : k = 4 * (k / 4) ∨ k = 4 * (k / 4) + 1 ∨ k = 4 * (k / 4) + 2 ∨ k = 4 * (k / 4) + 3 := by omega
      rcases place with h | h | h | h <;> rw [← h] <;> simp [lt, bit]

end

theorem pack_case {k : VCvt} {sat : Bool} {x c : Nat} {fl : Word} (md : RM) (packs : VCvt.packed k = true) (small : x < 2 ^ 32)
    (h : Spec.vcvtCase k sat x c fl) : (vcvtV k md sat x).1 = (c, fl) := by
  have convert {dst : BFmt} (h : Spec.convertCase .f32 dst sat x c fl) : fcvtFF .f32 dst md sat x = (c, fl) := by
    have := fcvtFF_case md h
    rwa [show x % 2 ^ BFmt.width .f32 = x from Nat.mod_eq_of_lt small] at this
  cases k
  case p8aF32 => exact convert h
  case p8bF32 => exact convert h
  all_goals cases packs

theorem packed_iff (d a : VRegN) (r : Rnd) (k : VCvt) (q : Pred) : Spec.packs (.vcvt d a r k q) = VCvt.packed k := by cases k <;> rfl

/-- R245: VCVT.P8A and VCVT.P8B. -/
theorem vectorPacks : Spec.vectorPacks := by
  intro s d a r k q c fl i packs on lanes small cases byte
  have packed : VCvt.packed k = true := (packed_iff d a r k q).symm.trans packs
  have elems : map1 (vcvtV k (s.vmode r) (satOf s.me.nmode) 0).2 (fun x => (vcvtV k (s.vmode r) (satOf s.me.nmode) x).1) (s.vReg a) s.vl =
      cleanElems s.me.lanes.vl c fl := by
    refine List.map_congr_left fun j mem => ?_
    obtain ⟨clean, value⟩ := cases j (List.mem_range.1 mem)
    have read := pack_case (s.vmode r) packed (Spec.el s.me.v[a] j).isLt value
    rw [show (s.vReg a).bad j = false from clean, elemOf, if_neg Bool.false_ne_true]
    exact congrArg (fun r : Nat × Word => (⟨BitVec.ofNat 32 r.1, false, r.2⟩ : Elem)) read
  have step : exec i s = putElems d (vcvtElems k (s.vmode r) (satOf s.me.nmode) (s.vReg a) s.vl) s :=
    (pred_on (on q rfl) _).trans (onLanes_open lanes _)
  have es : vcvtElems k (s.vmode r) (satOf s.me.nmode) (s.vReg a) s.vl =
      (List.range ((s.me.lanes.vl + 3) / 4)).map (packFour (cleanElems s.me.lanes.vl c fl)) := by
    rw [vcvtElems, elems, packed, if_pos rfl]
    rfl
  refine ⟨_, ?_, vecWritten_put s.me.v[d] (es := (List.range ((s.me.lanes.vl + 3) / 4)).map (packFour (cleanElems s.me.lanes.vl c fl)))
    (by simp) ?_⟩
  · rw [step, es, putElems_eq, flags_packFour]
  · intro j lt
    rw [List.getElem_map, List.getElem_range, packFour_clean]
    exact ⟨rfl, rfl⟩

end Sys2Proof.Machine
end

section
/-! PROOFS (O30). Reductions: the pairwise tree of R77 over the elements below VL (R247). -/

namespace Sys2Proof.Machine

/-! ### The tree -/

section
variable {op : Elem → Elem → Elem} {es : List Elem}

theorem pairTree_none (k : Nat) {i : Nat} (h : es.length ≤ i) : pairTree op es k i = none := by
  induction k generalizing i with
  | zero => exact List.getElem?_eq_none h
  | succ k ih => rw [pairTree, ih h, ih (h.trans (Nat.le_add_right ..))]

/-- What holds of the leaves, and passes from the arguments of a node to the node, holds of the tree. -/
theorem pairTree_induction {P : Nat → Nat → Elem → Prop} (leaf : ∀ i (h : i < es.length), P 0 i es[i])
    (node : ∀ k i x y, k < 4 → i % 2 ^ (k + 1) = 0 → i + 2 ^ k < es.length → P k i x → P k (i + 2 ^ k) y → P (k + 1) i (op x y))
    (pass : ∀ k i x, k < 4 → i % 2 ^ (k + 1) = 0 → i < es.length → es.length ≤ i + 2 ^ k → P k i x → P (k + 1) i x) (k : Nat)
    {i : Nat} (level : k ≤ 4) (place : i % 2 ^ k = 0) (h : i < es.length) : ∃ e, pairTree op es k i = some e ∧ P k i e := by
  induction k generalizing i with
  | zero => exact ⟨es[i], List.getElem?_eq_getElem h, leaf i h⟩
  | succ k ih =>
    have double : 2 ^ (k + 1) = 2 * 2 ^ k := by rw [pow_succ, mul_comm]
    have even : i % 2 ^ k = 0 := Nat.mod_eq_zero_of_dvd ((pow_dvd_pow 2 (Nat.le_succ k)).trans (Nat.dvd_of_mod_eq_zero place))
    obtain ⟨x, left, px⟩ := ih (by omega) even h
    by_cases pair : i + 2 ^ k < es.length
    · obtain ⟨y, right, py⟩ := ih (by omega) (by simpa using even) pair
      exact ⟨op x y, by rw [pairTree, left, right], node k i x y (by omega) place pair px py⟩
    · exact ⟨x, by rw [pairTree, left, pairTree_none k (not_lt.1 pair)], pass k i x (by omega) place h (not_lt.1 pair) px⟩

/-- The places of the elements below a node. -/
def span (n k i : Nat) : List Nat := List.range' i (min (2 ^ k) (n - i))

theorem span_node {n k i : Nat} (h : i + 2 ^ k < n) : span n (k + 1) i = span n k i ++ span n k (i + 2 ^ k) := by
  have left : min (2 ^ k) (n - i) = 2 ^ k := by omega
  have all : min (2 ^ (k + 1)) (n - i) = 2 ^ k + min (2 ^ k) (n - (i + 2 ^ k)) := by rw [pow_succ]; omega
  rw [span, span, span, left, all, ← List.range'_append_1]

theorem span_pass {n k i : Nat} (h : n ≤ i + 2 ^ k) : span n (k + 1) i = span n k i := by
  have all : min (2 ^ (k + 1)) (n - i) = min (2 ^ k) (n - i) := by rw [pow_succ]; omega
  rw [span, span, all]

theorem span_leaf {n i : Nat} (h : i < n) : span n 0 i = [i] := by
  rw [span, show min (2 ^ 0) (n - i) = 1 by omega]
  rfl

theorem span_root {n : Nat} (h : n ≤ 16) : span n 4 0 = List.range n := by
  rw [span, show min (2 ^ 4) (n - 0) = n by omega, List.range_eq_range']

/-- What a tree makes of all elements, by a relation between lists of places and their result. -/
theorem pairTree_append {R : List Nat → Elem → Prop} (leaf : ∀ i (h : i < es.length), R [i] es[i])
    (node : ∀ l r x y, R l x → R r y → R (l ++ r) (op x y)) (pos : 0 < es.length) (small : es.length ≤ 16) :
    ∃ e, pairTree op es 4 0 = some e ∧ R (List.range es.length) e := by
  have tree := pairTree_induction (op := op) (es := es) (P := fun k i e => R (span es.length k i) e)
    (fun i h => by rw [span_leaf h]; exact leaf i h)
    (fun k i x y _ _ h px py => by rw [span_node h]; exact node _ _ x y px py)
    (fun k i x _ _ _ h px => by rw [span_pass h]; exact px) 4 le_rfl rfl pos
  rwa [span_root small] at tree

end

/-! ### The elements of a reduction -/

/-- The elements that a reduction starts from. -/
def leaves (bad : Nat) (x : VReg) (vl : Nat) : List Elem := map1 bad (fun x => (x, 0)) x vl

theorem leaves_length (bad : Nat) (x : VReg) (vl : Nat) : (leaves bad x vl).length = vl := by simp [leaves, map1]

theorem leaves_getElem (bad : Nat) (x : VReg) (vl : Nat) {i : Nat} (h : i < (leaves bad x vl).length) :
    (leaves bad x vl)[i] = elemOf (Spec.tainted x i) bad ((Spec.el x i).toNat, 0) := by
  simp only [leaves, map1, List.getElem_map, List.getElem_range]
  rfl

theorem reduceElems_some {bad vl : Nat} {f : Nat → Nat → Nat × Word} {x : VReg} {e : Elem}
    (h : pairTree (nodeOf bad f) (leaves bad x vl) 4 0 = some e) : reduceElems bad f x vl = List.replicate vl e := by
  unfold reduceElems
  rw [leaves] at h
  simp only [h]

theorem reduceElems_zero (bad : Nat) (f : Nat → Nat → Nat × Word) (x : VReg) : reduceElems bad f x 0 = [] := by
  unfold reduceElems
  simp only [map1, List.range_zero, List.map_nil]
  rw [pairTree_none 4 (Nat.le_refl 0)]

/-- A reduction by a relation between lists of places and their result. -/
theorem reduceElems_append {bad vl : Nat} {f : Nat → Nat → Nat × Word} {x : VReg} {R : List Nat → Elem → Prop}
    (leaf : ∀ i, R [i] (elemOf (Spec.tainted x i) bad ((Spec.el x i).toNat, 0)))
    (node : ∀ l r x y, R l x → R r y → R (l ++ r) (nodeOf bad f x y)) (small : vl ≤ 16) :
    ∃ e, reduceElems bad f x vl = List.replicate vl e ∧ (0 < vl → R (List.range vl) e) := by
  rcases Nat.eq_zero_or_pos vl with rfl | pos
  · exact ⟨Elem.of 0, reduceElems_zero bad f x, fun h => absurd h (lt_irrefl 0)⟩
  · have len := leaves_length bad x vl
    obtain ⟨e, tree, result⟩ := pairTree_append (op := nodeOf bad f) (es := leaves bad x vl) (R := R)
      (fun i h => by rw [leaves_getElem]; exact leaf i) node (by rwa [len]) (by rwa [len])
    rw [len] at result
    exact ⟨e, reduceElems_some tree, fun _ => result⟩

theorem nodeOf_poison (bad : Nat) (f : Nat → Nat → Nat × Word) (a b : Elem) : (nodeOf bad f a b).poison = (a.poison || b.poison) :=
  elemOf_poison ..

theorem nodeOf_val (f : Nat → Nat → Nat × Word) (a b : Elem) : (nodeOf 0 f a b).val =
    if a.poison || b.poison then 0 else BitVec.ofNat 32 (f a.val.toNat b.val.toNat).1 := elemOf_val ..

/-- A node of clean arguments. -/
theorem nodeOf_clean (bad : Nat) (f : Nat → Nat → Nat × Word) {a b : Elem} (ha : a.poison = false) (hb : b.poison = false) :
    nodeOf bad f a b = ⟨BitVec.ofNat 32 (f a.val.toNat b.val.toNat).1, false, (f a.val.toNat b.val.toNat).2 ||| a.flags ||| b.flags⟩ := by
  rw [nodeOf, ha, hb]
  rfl

theorem nodeOf_flags_zero (bad : Nat) {f : Nat → Nat → Nat × Word} {a b : Elem} (none : ∀ x y, (f x y).2 = 0) (ha : a.flags = 0)
    (hb : b.flags = 0) : (nodeOf bad f a b).flags = 0 := by
  have zero (r : Nat × Word) (h : r.2 = 0) (p : Bool) : (elemOf p bad r).flags = 0 := by
    unfold elemOf
    split
    · rfl
    · exact h
  rw [nodeOf, ha, hb]
  simp only [zero _ (none _ _)]
  decide

/-! ### Integer reductions (R247) -/

section
variable (x : VReg) (l r : List Nat) {a b e : Elem}

/-- A result of integers of some elements: poisoned, and then 0, when one of them is, and without flags. -/
def Joined (e : Elem) : Prop := e.poison = l.any (Spec.tainted x) ∧ (e.poison = true → e.val = 0) ∧ e.flags = 0

/-- What VRSUM.I32 makes of some elements. -/
def SumOf (e : Elem) : Prop :=
  Joined x l e ∧ (e.poison = false → e.val = BitVec.ofNat 32 (l.map fun k => (Spec.el x k).toNat).sum)

/-- What VRMAX.I32 makes of some elements. -/
def MaxOf (e : Elem) : Prop :=
  Joined x l e ∧ (e.poison = false → (∃ k ∈ l, e.val = Spec.el x k) ∧ ∀ k ∈ l, (Spec.el x k).toInt ≤ e.val.toInt)

variable {x l r}

theorem joined_leaf (i : Nat) : Joined x [i] (elemOf (Spec.tainted x i) 0 ((Spec.el x i).toNat, 0)) := by
  refine ⟨?_, fun bad => ?_, elemOf_flags ..⟩
  · rw [elemOf_poison, List.any_cons, List.any_nil, Bool.or_false]
  · rw [elemOf_poison] at bad
    rw [elemOf_val, if_pos bad]

theorem leaf_val (i : Nat) (clean : (elemOf (Spec.tainted x i) 0 ((Spec.el x i).toNat, 0)).poison = false) :
    (elemOf (Spec.tainted x i) 0 ((Spec.el x i).toNat, 0)).val = Spec.el x i := by
  rw [elemOf_poison] at clean
  rw [elemOf_val, clean, if_neg Bool.false_ne_true, BitVec.ofNat_toNat, BitVec.setWidth_eq]

theorem joined_node {f : Nat → Nat → Nat × Word} (none : ∀ x y, (f x y).2 = 0) (ha : Joined x l a) (hb : Joined x r b) :
    Joined x (l ++ r) (nodeOf 0 f a b) := by
  obtain ⟨poisonA, _, flagsA⟩ := ha
  obtain ⟨poisonB, _, flagsB⟩ := hb
  refine ⟨?_, fun bad => ?_, nodeOf_flags_zero 0 none flagsA flagsB⟩
  · rw [nodeOf_poison, List.any_append, poisonA, poisonB]
  · rw [nodeOf_poison] at bad
    rw [nodeOf_val, if_pos bad]

/-- A clean node has clean arguments. -/
theorem clean_of_node {bad : Nat} {f : Nat → Nat → Nat × Word} (h : (nodeOf bad f a b).poison = false) :
    a.poison = false ∧ b.poison = false := by
  rwa [nodeOf_poison, Bool.or_eq_false_iff] at h

theorem sumOf_leaf (i : Nat) : SumOf x [i] (elemOf (Spec.tainted x i) 0 ((Spec.el x i).toNat, 0)) := by
  refine ⟨joined_leaf i, fun clean => ?_⟩
  rw [leaf_val i clean, List.map_singleton, List.sum_singleton, BitVec.ofNat_toNat, BitVec.setWidth_eq]

theorem sumOf_node (m : Word) (ha : SumOf x l a) (hb : SumOf x r b) : SumOf x (l ++ r) (nodeOf 0 (sumOp .i32 m) a b) := by
  refine ⟨joined_node (fun _ _ => rfl) ha.1 hb.1, fun clean => ?_⟩
  obtain ⟨cleanA, cleanB⟩ := clean_of_node clean
  rw [nodeOf_clean 0 _ cleanA cleanB, ha.2 cleanA, hb.2 cleanB, List.map_append, List.sum_append]
  apply BitVec.eq_of_toNat_eq
  simp [sumOp]

theorem max_elem_signed (u v : BitVec 32) : BitVec.ofNat 32 (maxElem false u.toNat v.toNat) = if u.toInt ≤ v.toInt then v else u := by
  simpa using max_elem u v false

theorem maxOf_leaf (i : Nat) : MaxOf x [i] (elemOf (Spec.tainted x i) 0 ((Spec.el x i).toNat, 0)) := by
  refine ⟨joined_leaf i, fun clean => ?_⟩
  rw [leaf_val i clean]
  simp

theorem maxOf_node (ha : MaxOf x l a) (hb : MaxOf x r b) : MaxOf x (l ++ r) (nodeOf 0 (plainElem (maxElem false)) a b) := by
  refine ⟨joined_node (fun _ _ => rfl) ha.1 hb.1, fun clean => ?_⟩
  obtain ⟨cleanA, cleanB⟩ := clean_of_node clean
  obtain ⟨⟨i, memI, valI⟩, upI⟩ := ha.2 cleanA
  obtain ⟨⟨j, memJ, valJ⟩, upJ⟩ := hb.2 cleanB
  rw [nodeOf_clean 0 _ cleanA cleanB, plainElem, max_elem_signed]
  by_cases le : a.val.toInt ≤ b.val.toInt
  · rw [if_pos le]
    refine ⟨⟨j, List.mem_append_right _ memJ, valJ⟩, fun k mem => ?_⟩
    rcases List.mem_append.1 mem with mem | mem
    · exact (upI k mem).trans le
    · exact upJ k mem
  · rw [if_neg le]
    refine ⟨⟨i, List.mem_append_left _ memI, valI⟩, fun k mem => ?_⟩
    rcases List.mem_append.1 mem with mem | mem
    · exact upI k mem
    · exact (upJ k mem).trans (not_le.1 le).le

end

/-- A joined result in every element below VL. -/
theorem joined_written {v x : VReg} {e : Elem} {vl : Nat} {val : BitVec 32} (joined : 0 < vl → Joined x (List.range vl) e)
    (value : 0 < vl → e.poison = false → e.val = val) :
    Spec.vecWritten v (v.put (List.replicate vl e)) vl (fun _ => val) (fun _ => (List.range vl).any fun k => Spec.tainted x k) := by
  refine vecWritten_put _ (by simp) fun k lt => ?_
  have pos : 0 < vl := by simp at lt; omega
  obtain ⟨poison, zero, _⟩ := joined pos
  rw [List.getElem_replicate, ← poison]
  refine ⟨?_, rfl⟩
  split
  · next bad => exact zero bad
  · next clean => exact value pos (Bool.not_eq_true _ ▸ clean)

theorem flags_joined {x : VReg} {e : Elem} {vl : Nat} (joined : 0 < vl → Joined x (List.range vl) e) :
    (List.replicate vl e).foldl (fun f e => f ||| e.flags) 0 = 0 :=
  flags_none fun y mem => by
    obtain ⟨nonzero, rfl⟩ := List.mem_replicate.1 mem
    exact (joined (Nat.pos_of_ne_zero nonzero)).2.2

/-- R247: VRSUM.I32 and VRMAX.I32. -/
theorem vectorReductions : Spec.vectorReductions := by
  intro s d a q on lanes small A vl bad
  constructor
  · obtain ⟨e, elems, sum⟩ := reduceElems_append (vl := vl) (R := SumOf A) (f := sumOp .i32 s.me.nmode) sumOf_leaf
      (fun l r x y => sumOf_node s.me.nmode) small
    have step : exec (.vrsum d a .i32 q) s = putElems d (reduceElems 0 (sumOp .i32 s.me.nmode) A vl) s :=
      (pred_on (on q rfl) _).trans (onLanes_open lanes _)
    refine ⟨_, ?_, joined_written (fun pos => (sum pos).1) fun pos => (sum pos).2⟩
    rw [step, elems, putElems_eq, flags_joined fun pos => (sum pos).1]
  · obtain ⟨e, elems, max⟩ := reduceElems_append (vl := vl) (R := MaxOf A) (f := plainElem (maxElem false)) maxOf_leaf
      (fun l r x y => maxOf_node) small
    have step : exec (.vrmax d a true q) s = putElems d (reduceElems 0 (plainElem (maxElem false)) A vl) s :=
      (pred_on (on q rfl) _).trans (onLanes_open lanes _)
    refine ⟨_, e.val, ?_, joined_written (fun pos => (max pos).1) fun _ _ => rfl, fun clean pos => ?_⟩
    · rw [step, elems, putElems_eq, flags_joined fun pos => (max pos).1]
    · obtain ⟨⟨k, mem, val⟩, up⟩ := (max pos).2 ((max pos).1.1.trans clean)
      exact ⟨⟨k, List.mem_range.1 mem, val⟩, fun k lt => up k (List.mem_range.2 lt)⟩

/-! ### Float reductions (R77, R247) -/

/-- A reduction with a poisoned element is poisoned. -/
theorem reduceElems_poisoned {bad vl : Nat} (f : Nat → Nat → Nat × Word) {x : VReg} (small : vl ≤ 16) :
    ∃ e, reduceElems bad f x vl = List.replicate vl e ∧ (0 < vl → e.poison = (List.range vl).any fun k => Spec.tainted x k) :=
  reduceElems_append (R := fun l e => e.poison = l.any (Spec.tainted x)) (fun i => by simp [elemOf_poison])
    (fun l r a b ha hb => by rw [nodeOf_poison, List.any_append, ha, hb]) small

/-- Poisoned elements poison the units that hold them. -/
theorem tainted_put (v : VReg) {e : Elem} {vl k : Nat} (poison : e.poison = true) (lt : k < vl) (small : vl ≤ 16) :
    Spec.tainted (v.put (List.replicate vl e)) k = true := by
  rw [Spec.tainted, poison_put _ _ (by omega)]
  by_cases even : 2 * (k / 2) = k
  · simp [even, List.getElem?_replicate, lt, poison]
  · simp [show 2 * (k / 2) + 1 = k by omega, List.getElem?_replicate, lt, poison]

/-- A tree of clean nodes, each as the statement's relation has it. -/
theorem reduceElems_clean {bad vl : Nat} {f : Nat → Nat → Nat × Word} {x : VReg} {node : Nat → Nat → Nat → Word → Prop} {c : Nat}
    {fl : Word} (pos : 0 < vl) (clean : ∀ k, k < vl → Spec.tainted x k = false)
    (same : ∀ a b z h, node a b z h → f (a % 2 ^ 32) (b % 2 ^ 32) = (z, h))
    (reduces : Spec.reducesTo node vl (fun k => (Spec.el x k).toNat) c fl) :
    reduceElems bad f x vl = List.replicate vl ⟨BitVec.ofNat 32 c, false, fl⟩ := by
  obtain ⟨v, g, leaf, step, rfl, rfl⟩ := reduces
  have len := leaves_length bad x vl
  obtain ⟨e, tree, rfl⟩ := pairTree_induction (op := nodeOf bad f) (es := leaves bad x vl)
    (P := fun k i e => e = ⟨BitVec.ofNat 32 (v k i), false, g k i⟩)
    (fun i h => by
      rw [leaves_getElem, clean i (len ▸ h), elemOf, if_neg Bool.false_ne_true, (leaf i (len ▸ h)).1, (leaf i (len ▸ h)).2])
    (fun k i a b level place h ha hb => by
      rw [len] at h
      have down := step k i level (by omega) place
      rw [if_pos h] at down
      obtain ⟨w, rule, flags⟩ := down
      have value := same _ _ _ _ rule
      subst ha hb
      rw [nodeOf_clean bad f rfl rfl, BitVec.toNat_ofNat, BitVec.toNat_ofNat, value, flags]
      exact congrArg (Elem.mk _ _) (by rw [BitVec.or_assoc, BitVec.or_comm]))
    (fun k i a level place lt h ha => by
      rw [len] at lt h
      have down := step k i level lt place
      rw [if_neg (not_lt.2 h)] at down
      rw [ha, down.1, down.2]) 4 le_rfl (Nat.zero_mod _) (by rwa [len])
  exact reduceElems_some tree

theorem sum_node (rnd : Rnd) (m : Word) {a b z : Nat} {h : Word}
    (rule : Spec.floatCase .add .f32 (rnd == .rdn || (rnd == .none && m.toNat % 4 == 3)) a b 0 z h) :
    sumOp (.f32 rnd) m (a % 2 ^ 32) (b % 2 ^ 32) = (z, h) := by
  rw [← modeOf_eq_rdn] at rule
  have value := floatOp_case rule
  rw [← fval_low .f32 a, ← fval_low .f32 b] at value
  rw [sumOp, floatElem]
  simp only [show FFmt.f32.bin = .f32 from rfl, show BFmt.width .f32 = 32 from rfl, Nat.mod_mod]
  exact value

theorem max_node {a b z : Nat} {h : Word} (rule : Spec.minmaxCase true .f32 a b z h) :
    minmaxElem true .f32 (a % 2 ^ 32) (b % 2 ^ 32) = (z, h) := by
  rw [minmaxElem]
  simp only [show FFmt.f32.bin = .f32 from rfl, show BFmt.width .f32 = 32 from rfl, Nat.mod_mod]
  exact fminmax_case rule

section
variable {i : Instr} {s : State} {d a : VRegN} {n : Nat} {f : Nat → Nat → Nat × Word}

/-- A reduction of clean elements by the nodes of the statement. -/
theorem reduction_clean {node : Nat → Nat → Nat → Word → Prop} {c : Nat} {fl : Word} (pos : 0 < s.me.lanes.vl)
    (step : exec i s = putElems d (reduceElems n f s.me.v[a] s.me.lanes.vl) s)
    (same : ∀ a b z h, node a b z h → f (a % 2 ^ 32) (b % 2 ^ 32) = (z, h))
    (clean : ((List.range s.me.lanes.vl).any fun k => Spec.tainted s.me.v[a] k) = false)
    (reduces : Spec.reducesTo node s.me.lanes.vl (fun k => (Spec.el s.me.v[a] k).toNat) c fl) :
    ∃ r, exec i s = .next (Spec.vecState s d r fl).retire ∧
      Spec.vecWritten s.me.v[d] r s.me.lanes.vl (fun _ => BitVec.ofNat 32 c) fun _ => false := by
  have elems := reduceElems_clean (bad := n) pos
    (fun k lt => by simpa using List.any_eq_false.1 clean k (List.mem_range.2 lt)) same reduces
  refine ⟨s.me.v[d].put (List.replicate s.me.lanes.vl ⟨BitVec.ofNat 32 c, false, fl⟩), ?_, vecWritten_put _ (by simp) fun k lt => ?_⟩
  · rw [step, elems, putElems_eq, flags_replicate _ pos]
  · rw [List.getElem_replicate]
    exact ⟨rfl, rfl⟩

/-- A reduction with a poisoned element. -/
theorem reduction_poisoned (pos : 0 < s.me.lanes.vl) (small : s.me.lanes.vl ≤ 16)
    (step : exec i s = putElems d (reduceElems n f s.me.v[a] s.me.lanes.vl) s)
    (poisoned : ((List.range s.me.lanes.vl).any fun k => Spec.tainted s.me.v[a] k) = true) :
    ∃ r fl, exec i s = .next (Spec.vecState s d r fl).retire ∧ ∀ k, k < s.me.lanes.vl → Spec.tainted r k = true := by
  obtain ⟨e, elems, poison⟩ := reduceElems_poisoned (bad := n) f (x := s.me.v[a]) small
  rw [elems, putElems_eq] at step
  exact ⟨_, _, step, fun k lt => tainted_put _ ((poison pos).trans poisoned) lt small⟩

end

/-- R77, R247: VRSUM.F32 and VRMAX.F32. -/
theorem vectorFloatReductions : Spec.vectorFloatReductions := by
  intro s d a rnd q on lanes pos small
  have sum : exec (.vrsum d a (.f32 rnd) q) s =
      putElems d (reduceElems (BFmt.nan .f32) (sumOp (.f32 rnd) s.me.nmode) s.me.v[a] s.me.lanes.vl) s :=
    (pred_on (on q rfl) _).trans (onLanes_open lanes _)
  have max : exec (.vrmax d a false q) s =
      putElems d (reduceElems (BFmt.nan .f32) (minmaxElem true .f32) s.me.v[a] s.me.lanes.vl) s :=
    (pred_on (on q rfl) _).trans (onLanes_open lanes _)
  exact ⟨⟨fun c fl => reduction_clean pos sum fun _ _ _ _ => sum_node rnd s.me.nmode, reduction_poisoned pos small sum⟩,
    fun c fl => reduction_clean pos max fun _ _ _ _ => max_node, reduction_poisoned pos small max⟩

/-- Settles O30: elements are written one by one, and a reduction is an induction over its tree. -/
theorem vectorValues : Obligations.VectorValues := ⟨vectorIntegers, vectorPacks, vectorReductions, vectorFloatReductions⟩

end Sys2Proof.Machine
end

section
/-! PROOFS (O60). What a retire leaves as it was (R131, R139, R230, R231): the other octets, the contexts that claim no lanes of the
octet, and the loop levels that do not end. -/

namespace Sys2Proof.Machine

/-! ### What the grant of a lane claim changes (R230, R237) -/

/-- What grants of lanes leave a context that claims them: that, and its wait unless it ends. -/
def Ctx.Granted (x y : Ctx) : Prop := Spec.sameButClaim x y ∧ (y.wait = x.wait ∨ y.wait = none)

theorem Ctx.Granted.refl (x : Ctx) : x.Granted x :=
  ⟨⟨fun _ _ => rfl, rfl, rfl, rfl, rfl, rfl, rfl, rfl, rfl, rfl, rfl, rfl, rfl, rfl⟩, .inl rfl⟩

theorem Ctx.Granted.trans {x y z : Ctx} (h : x.Granted y) (k : y.Granted z) : x.Granted z := by
  obtain ⟨⟨hg, hrest⟩, hw⟩ := h
  obtain ⟨⟨kg, krest⟩, kw⟩ := k
  refine ⟨⟨fun r keep => (kg r fun d a q w => ?_).trans (hg r keep), ?_⟩, ?_⟩
  · rcases hw with same | none
    · exact keep d a q (same.symm.trans w)
    · rw [none] at w
      cases w
  · obtain ⟨h1, h2, h3, h4, h5, h6, h7, h8, h9, h10, h11, h12, h13⟩ := hrest
    obtain ⟨k1, k2, k3, k4, k5, k6, k7, k8, k9, k10, k11, k12, k13⟩ := krest
    exact ⟨k1.trans h1, k2.trans h2, k3.trans h3, k4.trans h4, k5.trans h5, k6.trans h6, k7.trans h7, k8.trans h8, k9.trans h9,
      k10.trans h10, k11.trans h11, k12.trans h12, k13.trans h13⟩
  · rcases kw with same | none
    · rw [same]
      exact hw
    · exact .inr none

/-- A context with other fetch state, loops, lanes and wait is granted, once it waits for nothing. -/
theorem Ctx.Moved.granted {x y : Ctx} (h : x.Moved y) (wait : y.wait = x.wait ∨ y.wait = none) : x.Granted y := by
  obtain ⟨pc, npc, nnpc, slots, fetched, loops, lanes, st, w, rfl⟩ := h
  exact ⟨⟨fun _ _ => rfl, rfl, rfl, rfl, rfl, rfl, rfl, rfl, rfl, rfl, rfl, rfl, rfl, rfl⟩, wait⟩

theorem advance_wait (s : State) (c : CoreId) (n : CtxId) (f : Flow) : ((s.advance c n f).1.ctx c n).wait = none := by
  unfold State.advance
  dsimp only
  rw [State.ctx_setCtx]

theorem renegotiate_wait (s : State) (c : CoreId) (n : CtxId) : ((s.renegotiate c n).ctx c n).wait = (s.ctx c n).wait := by
  unfold State.renegotiate
  dsimp only
  rw [State.ctx_setCtx]

/-- The claim's own register, and its lanes. -/
theorem granted_setG {x : Ctx} {d a : Reg} {q : Pred} (wait : x.wait = some (.vclaim d a q)) (l : Lanes) (v : PWord) :
    x.Granted (({ x with lanes := l }).setG d v) := by
  refine ⟨⟨fun r keep => ?_, by simp, by simp, by simp, by simp, by simp, by simp, by simp, by simp, by simp, by simp, by simp, by simp,
    by simp⟩, .inl (by simp)⟩
  rw [Ctx.getG_setG, if_neg (keep d a q wait)]
  split
  · next zero => rw [zero]; rfl
  · rfl

theorem giveLanes_granted (s : State) (q : LaneClaim) : (s.ctx q.core q.ctx).Granted ((s.giveLanes q).1.ctx q.core q.ctx) := by
  unfold State.giveLanes
  dsimp only
  split
  · next d a p wait =>
    have move := advance_moved (s.setCtx q.core q.ctx (({ s.ctx q.core q.ctx with
      lanes := ⟨laneWidth q.q (s.laneFree (octetOf q.core)), q.q, false, laneWidth q.q (s.laneFree (octetOf q.core)), 0⟩ }).setG d
        ⟨BitVec.ofNat 64 (laneWidth q.q (s.laneFree (octetOf q.core))), false⟩)) q.core q.ctx .seq
    rw [State.ctx_setCtx] at move
    exact (granted_setG wait _ _).trans (move.granted (.inr (advance_wait ..)))
  · rw [State.ctx_setCtx]
    exact Ctx.Moved.granted ⟨_, _, _, _, _, _, _, _, _, rfl⟩ (.inr rfl)

/-! ### Grants of one octet -/

/-- A claim of a context stands in the lane queue of an octet. -/
def State.claimsIn (s : State) (o : Nat) (c : CoreId) (n : CtxId) : Prop := ∃ q ∈ (s.octet o).laneQ, q.core = c ∧ q.ctx = n

/-- Nothing of the other octets changes, and of contexts only those that claim lanes of this one, as a grant changes them. -/
structure GrantStep (o : Nat) (s t : State) : Prop where
  octet : ∀ k, k ≠ o → t.octet k = s.octet k
  queue : ∀ q ∈ (t.octet o).laneQ, q ∈ (s.octet o).laneQ
  ctx : ∀ c n, t.ctx c n = s.ctx c n ∨ (s.claimsIn o c n ∧ (s.ctx c n).Granted (t.ctx c n))

theorem GrantStep.refl (o : Nat) (s : State) : GrantStep o s s := ⟨fun _ _ => rfl, fun _ h => h, fun _ _ => .inl rfl⟩

theorem GrantStep.trans {o : Nat} {s t u : State} (h : GrantStep o s t) (k : GrantStep o t u) : GrantStep o s u := by
  refine ⟨fun j ne => (k.octet j ne).trans (h.octet j ne), fun q mem => h.queue q (k.queue q mem), fun c n => ?_⟩
  rcases k.ctx c n with same | ⟨⟨q, mem, core, ctx⟩, grant⟩
  · rw [same]
    exact h.ctx c n
  · refine .inr ⟨⟨q, h.queue q mem, core, ctx⟩, ?_⟩
    rcases h.ctx c n with same | ⟨_, first⟩
    · rwa [same] at grant
    · exact first.trans grant

/-- The claim at the head of the queue is granted. -/
theorem GrantStep.of_head {o : Nat} {s t : State} {q : LaneClaim} {rest : List LaneClaim} (queue : (s.octet o).laneQ = q :: rest)
    (octets : t.octets = (s.setOctet o { s.octet o with laneQ := rest }).octets)
    (grant : (s.ctx q.core q.ctx).Granted (t.ctx q.core q.ctx)) (other : ∀ d m, ¬ (d = q.core ∧ m = q.ctx) → t.ctx d m = s.ctx d m) :
    GrantStep o s t := by
  have same (k : Nat) : t.octet k = (s.setOctet o { s.octet o with laneQ := rest }).octet k := by rw [State.octet, octets]; rfl
  refine ⟨fun k ne => ?_, fun x mem => ?_, fun d m => ?_⟩
  · rw [same, octet_setOctet_other _ _ ne]
  · rw [same, octet_setOctet] at mem
    rw [queue]
    exact List.mem_cons_of_mem q mem
  · by_cases here : d = q.core ∧ m = q.ctx
    · obtain ⟨rfl, rfl⟩ := here
      exact .inr ⟨⟨q, queue ▸ List.mem_cons_self, rfl, rfl⟩, grant⟩
    · exact .inl (other d m here)

theorem giveLanes_octets (s : State) (q : LaneClaim) : (s.giveLanes q).1.octets = s.octets := by
  unfold State.giveLanes
  dsimp only
  split <;> rfl

/-- The state after the head of a queue is granted. -/
def State.headGranted (s : State) (o : Nat) (q : LaneClaim) (rest : List LaneClaim) : State :=
  let g := (s.setOctet o { s.octet o with laneQ := rest }).giveLanes q
  if g.2 then g.1.renegotiate q.core q.ctx else g.1

theorem headGranted_grants {s : State} {o : Nat} {q : LaneClaim} {rest : List LaneClaim} (queue : (s.octet o).laneQ = q :: rest) :
    GrantStep o s (s.headGranted o q rest) := by
  have octets := giveLanes_octets (s.setOctet o { s.octet o with laneQ := rest }) q
  have grant := giveLanes_granted (s.setOctet o { s.octet o with laneQ := rest }) q
  have step := giveLanes_step (s.setOctet o { s.octet o with laneQ := rest }) q
  unfold State.headGranted
  generalize State.giveLanes (s.setOctet o { s.octet o with laneQ := rest }) q = g at octets grant step
  obtain ⟨g, again⟩ := g
  cases again with
  | false => exact .of_head queue octets grant step.ctx
  | true =>
    have more := (renegotiate_moved g q.core q.ctx).granted (.inl (renegotiate_wait ..))
    exact .of_head queue octets (grant.trans more) ((step.trans (renegotiate_step g q.core q.ctx)).ctx)

theorem settleLanes_grants (k : Nat) (s : State) (o : Nat) : GrantStep o s (s.settleLanes k o) := by
  induction k generalizing s with
  | zero => exact GrantStep.refl ..
  | succ k ih =>
    unfold State.settleLanes
    split
    · exact GrantStep.refl ..
    · next q rest queue =>
      split
      · exact (headGranted_grants queue).trans (ih _)
      · exact GrantStep.refl ..

/-! ### Loop levels (R139) -/

section
variable (s : State) (c : CoreId) (next : Option Word) (x : Ctx)

/-- A level is counted down, where fetch goes on at its end address, or stays as it is. -/
def Counted (pc : Word) (l m : Loop) : Prop :=
  m = l ∨ (l.lc ≠ 0 ∧ (next = some (l.le &&& ~~~1#64) ∧ pc = l.le &&& ~~~1#64) ∧ m = { l with lc := l.lc - 1 })

theorem loopLevel_counts (k : Fin 3) : Counted next x.pc x.loops[k] (s.loopLevel c next x k).1.loops[k] := by
  unfold State.loopLevel
  dsimp only
  split
  · next atEnd =>
    simp only [Bool.and_eq_true, State.atLoopEnd, bne_iff_ne, beq_iff_eq] at atEnd
    obtain ⟨⟨active, _⟩, ⟨⟨after, pc⟩, _⟩, _⟩ := atEnd
    refine .inr ⟨active, ⟨after, pc⟩, ?_⟩
    split
    · simp [Ctx.goto]
    · next last =>
      have one : x.loops[k].lc = 1 := by
        apply BitVec.eq_of_toNat_eq
        have pos : x.loops[k].lc.toNat ≠ 0 := fun h => active (BitVec.eq_of_toNat_eq h)
        change _ = 1
        omega
      have none : x.loops[k].lc - 1 = 0 := by
        rw [one]
        rfl
      simpa using none.symm
  · exact .inl rfl

theorem loopLevel_other {j k : Fin 3} (ne : j ≠ k) : (s.loopLevel c next x k).1.loops[j] = x.loops[j] := by
  have apart : k.val ≠ j.val := fun h => ne (Fin.ext h.symm)
  unfold State.loopLevel
  dsimp only
  split
  · split <;> simp [Ctx.goto, Vector.getElem_set_ne, apart]
  · rfl

/-- A level that does not start again leaves fetch alone. -/
theorem loopLevel_pc {k : Fin 3} (on : (s.loopLevel c next x k).2.1 = false) : (s.loopLevel c next x k).1.pc = x.pc := by
  revert on
  unfold State.loopLevel
  dsimp only
  split
  · split
    · exact fun h => Bool.noConfusion h
    · exact fun _ => rfl
  · exact fun _ => rfl

/-- The loop-back counts each level at most once. -/
theorem loopBack_counts (k : Fin 3) : Counted next x.pc x.loops[k] (s.loopBack c next x).1.loops[k] := by
  unfold State.loopBack
  split
  · exact .inl rfl
  have level2 := loopLevel_counts s c next x 2
  have other2 {j : Fin 3} := loopLevel_other s c next x (j := j) (k := 2)
  have pc2 := loopLevel_pc s c next x (k := 2)
  generalize s.loopLevel c next x 2 = a at level2 other2 pc2
  obtain ⟨x2, stop2, r2⟩ := a
  dsimp only at level2 other2 pc2 ⊢
  split
  · match k with
    | 0 => exact .inl (other2 (by decide))
    | 1 => exact .inl (other2 (by decide))
    | 2 => exact level2
  next go2 =>
  have level1 := loopLevel_counts s c next x2 1
  have other1 {j : Fin 3} := loopLevel_other s c next x2 (j := j) (k := 1)
  have pc1 := loopLevel_pc s c next x2 (k := 1)
  rw [other2 (by decide), pc2 (Bool.not_eq_true _ ▸ go2)] at level1
  generalize s.loopLevel c next x2 1 = a at level1 other1 pc1
  obtain ⟨x1, stop1, r1⟩ := a
  dsimp only at level1 other1 pc1 ⊢
  split
  · match k with
    | 0 => exact .inl ((other1 (by decide)).trans (other2 (by decide)))
    | 1 => exact level1
    | 2 => rw [other1 (by decide)]; exact level2
  next go1 =>
  have level0 := loopLevel_counts s c next x1 0
  have other0 {j : Fin 3} := loopLevel_other s c next x1 (j := j) (k := 0)
  rw [other1 (by decide), other2 (by decide), pc1 (Bool.not_eq_true _ ▸ go1), pc2 (Bool.not_eq_true _ ▸ go2)] at level0
  match k with
  | 0 => exact level0
  | 1 => rw [other0 (by decide)]; exact level1
  | 2 => rw [other0 (by decide), other1 (by decide)]; exact level2

end

/-! ### A retire -/

theorem not_claims {s : State} (h : Spec.unclaimed s) : ¬ s.claims s.cur.core s.cur.ctx := by
  rintro ⟨o, q, mem, core, ctx⟩
  rcases h o q mem with ne | ne
  · exact ne core
  · exact ne ctx

theorem advance_loops (s : State) (c : CoreId) (n : CtxId) :
    ((s.advance c n .seq).1.ctx c n).loops = (s.loopBack c (s.after c (s.ctx c n)) (s.move c n .seq)).1.loops := by
  unfold State.advance
  dsimp only
  rw [State.ctx_setCtx]

theorem renegotiate_loops (s : State) (c : CoreId) (n : CtxId) : ((s.renegotiate c n).ctx c n).loops = (s.ctx c n).loops := by
  unfold State.renegotiate
  dsimp only
  rw [State.ctx_setCtx]

/-- The steps of a retire: the advance, and at a renegotiation point more. -/
theorem retireAt_cases (s : State) (c : CoreId) (n : CtxId) (f : Flow) : s.retireAt c n f = (s.advance c n f).1 ∨
    s.retireAt c n f = ((s.advance c n f).1.renegotiate c n).settleLanes 88 (octetOf c) := by
  unfold State.retireAt
  dsimp only
  split
  · exact .inr rfl
  · exact .inl rfl

/-- At a renegotiation point the claims that are granted are those of the state before. -/
theorem claims_before {s : State} {c d : CoreId} {n m : CtxId} (f : Flow)
    (h : ((s.advance c n f).1.renegotiate c n).claims d m) : s.claims d m := by
  obtain ⟨o, q, mem, core, ctx⟩ := h
  exact ⟨o, q, mem, core, ctx⟩

theorem retireAt_loops {s : State} {c : CoreId} {n : CtxId} (h : ¬ s.claims c n) :
    ((s.retireAt c n .seq).ctx c n).loops = (s.loopBack c (s.after c (s.ctx c n)) (s.move c n .seq)).1.loops := by
  rcases retireAt_cases s c n .seq with eq | eq
  · rw [eq, advance_loops]
  · rw [eq, (settleLanes_step 88 _ (octetOf c)).ctx c n fun claim => h (claims_before .seq claim), renegotiate_loops, advance_loops]

/-- Of the other contexts a retire changes those alone that claim lanes of its octet. -/
theorem retireAt_grants (s : State) (c : CoreId) (n : CtxId) (f : Flow) :
    (∀ k, k ≠ octetOf c → (s.retireAt c n f).octet k = s.octet k) ∧ ∀ d m, ¬ (d = c ∧ m = n) →
      (s.retireAt c n f).ctx d m = s.ctx d m ∨
        (s.claimsIn (octetOf c) d m ∧ (s.ctx d m).Granted ((s.retireAt c n f).ctx d m)) := by
  rcases retireAt_cases s c n f with eq | eq
  · rw [eq]
    exact ⟨fun _ _ => rfl, fun d m other => .inl ((advance_step s c n f).ctx d m other)⟩
  · rw [eq]
    have grants := settleLanes_grants 88 ((s.advance c n f).1.renegotiate c n) (octetOf c)
    refine ⟨fun k ne => grants.octet k ne, fun d m other => ?_⟩
    have before := ((advance_step s c n f).trans (renegotiate_step (s.advance c n f).1 c n)).ctx d m other
    have change := grants.ctx d m
    rw [before] at change
    exact change

end Sys2Proof.Machine
end

section
/-! PROOFS (O60). Frames of the instructions on registers: each writes one register of its context and retires. -/

namespace Sys2Proof.Machine

/-! ### The frame of a write that retires -/

theorem core_but_ctxs {k j : Core} (h : ∃ v, k = { j with ctxs := v }) : k = { j with ctxs := k.ctxs } := by
  obtain ⟨v, rfl⟩ := h
  rfl

theorem octet_but_laneQ {k j : Octet} (h : ∃ q, k = { j with laneQ := q }) : k = { j with laneQ := k.laneQ } := by
  obtain ⟨q, rfl⟩ := h
  rfl

theorem retire_rest (s : State) : Spec.sameRest s s.retire := by
  have step := retireAt_step s s.cur.core s.cur.ctx .seq
  obtain ⟨octets, grants⟩ := retireAt_grants s s.cur.core s.cur.ctx .seq
  refine ⟨?_, fun c => ?_, ?_, octets, fun c n other => ?_⟩
  · obtain ⟨cs, os, form⟩ := retire_form s
    rw [form]
  · exact core_but_ctxs (step.core c)
  · obtain ⟨q, octet, _⟩ := step.octet (octetOf s.cur.core)
    exact octet_but_laneQ ⟨q, octet⟩
  · have apart : ¬ (c = s.cur.core ∧ n = s.cur.ctx) := by
      rintro ⟨rfl, rfl⟩
      exact other.elim (· rfl) (· rfl)
    rcases grants c n apart with same | ⟨claim, grant⟩
    · refine ⟨fun _ => same, fun _ => ?_⟩
      change Spec.sameButClaim _ ((s.retireAt _ _ _).ctx c n)
      rw [same]
      exact (Ctx.Granted.refl _).1
    · exact ⟨fun none => absurd claim none, fun _ => grant.1⟩

theorem retire_moved {s : State} (free : Spec.unclaimed s) : s.me.Moved s.retire.me := by
  have move := retireAt_moved s s.cur.core s.cur.ctx .seq (not_claims free)
  rwa [State.me, State.me, State.retire, retireAt_cur]

theorem retire_sameLoops {s : State} (free : Spec.unclaimed s) : Spec.sameLoops s s.retire := by
  intro k
  have loops := retireAt_loops (not_claims free)
  have count := loopBack_counts s s.cur.core (s.after s.cur.core s.me) (s.move s.cur.core s.cur.ctx .seq) k
  have start : (s.move s.cur.core s.cur.ctx .seq).loops = s.me.loops := move_loops ..
  have pc : (s.move s.cur.core s.cur.ctx .seq).pc = (s.me.npc.or (s.after s.cur.core s.me)).getD s.me.pc := rfl
  have next : (Spec.triple s).2.1 = s.me.npc.or (s.after s.cur.core s.me) := rfl
  have me : s.retire.me.loops = (s.loopBack s.cur.core (s.after s.cur.core s.me) (s.move s.cur.core s.cur.ctx .seq)).1.loops := by
    change (s.retire.ctx s.retire.cur.core s.retire.cur.ctx).loops = _
    rw [State.retire, retireAt_cur]
    exact loops
  simp only [start] at count
  rw [me, next]
  rcases count with same | ⟨active, ⟨after, here⟩, counted⟩
  · exact .inl same
  · refine .inr ⟨active, ?_, counted⟩
    rw [pc, after] at here
    rw [after]
    cases npc : s.me.npc with
    | none => rfl
    | some a =>
      rw [npc] at here
      exact congrArg some here

/-- Writing the executing context before a retire adds nothing to what the retire leaves. -/
theorem sameRest_setMe {s t : State} {x : Ctx} (h : Spec.sameRest (s.setMe x) t) : Spec.sameRest s t := by
  obtain ⟨form, core, octet, octets, ctx⟩ := h
  have at_core (c : CoreId) : (s.setMe x).core c = { s.core c with ctxs := ((s.setMe x).core c).ctxs } :=
    core_but_ctxs ((LaneStep.setCtx s s.cur.core s.cur.ctx x).core c)
  refine ⟨form, fun c => ?_, octet, octets, fun c n other => ?_⟩
  · have := core c
    rw [at_core] at this
    exact this
  · have same : (s.setMe x).ctx c n = s.ctx c n := State.ctx_setCtx_other s x other
    have := ctx c n other
    rw [same] at this
    exact this

/-- What fetch and the loops of a context stand at. -/
def Ctx.samePlace (x y : Ctx) : Prop := y.pc = x.pc ∧ y.npc = x.npc ∧ y.fetched = x.fetched ∧ y.loops = x.loops

theorem sameLoops_setMe {s t : State} {x : Ctx} (place : s.me.samePlace x) (h : Spec.sameLoops (s.setMe x) t) : Spec.sameLoops s t := by
  obtain ⟨pc, npc, fetched, loops⟩ := place
  have after : s.after s.cur.core x = s.after s.cur.core s.me := by simp only [State.after, pc, fetched]
  have next : (Spec.triple (s.setMe x)).2.1 = (Spec.triple s).2.1 := by
    rw [triple_setMe, npc, after]
    rfl
  intro k
  have := h k
  rw [me_setMe, next, loops] at this
  exact this

/-- What every write of one register leaves of its context. -/
def Ctx.kept (x y : Ctx) : Prop :=
  y.e = x.e ∧ y.nmode = x.nmode ∧ y.tr = x.tr ∧ y.ien = x.ien ∧ y.ipend = x.ipend ∧ y.alarm = x.alarm ∧ y.evpend = x.evpend ∧
    y.tstat = x.tstat ∧ y.count = x.count ∧ y.packet = x.packet ∧ y.yield = x.yield

/-- The frame of a write that makes the executing context `x` and retires. -/
structure WriteFrame (s : State) (x : Ctx) (t : State) : Prop where
  rest : Spec.sameRest s t
  loops : Spec.sameLoops s t
  kept : s.me.kept t.me
  g : t.me.g = x.g
  p : t.me.p = x.p
  v : t.me.v = x.v
  nflags : t.me.nflags = x.nflags

theorem write_frame {i : Instr} {s t : State} {x : Ctx} (free : Spec.unclaimed s) (step : exec i s = .next t)
    (write : exec i s = .next (s.setMe x).retire) (place : s.me.samePlace x) (kept : s.me.kept x) : WriteFrame s x t := by
  obtain rfl : (s.setMe x).retire = t := Host.Outcome.next.inj (write.symm.trans step)
  have free' : Spec.unclaimed (s.setMe x) := free
  have move := retire_moved free'
  rw [me_setMe] at move
  refine ⟨sameRest_setMe (retire_rest _), sameLoops_setMe place (retire_sameLoops free'), ?_, ?_, ?_, ?_, ?_⟩ <;>
    obtain ⟨pc, npc, nnpc, slots, fetched, loops, lanes, st, wait, same⟩ := move <;> rw [same]
  exact kept

section
variable {s t : State} {x : Ctx} {v : PWord} {b : PBit}

theorem gReg_of_frame (frame : WriteFrame s x t) {d : Reg} (g : x.g = (s.me.setG d v).g) {r : Reg} (ne : r ≠ d) :
    t.gReg r = s.gReg r := by
  have same : t.gReg r = (s.setG d v).gReg r := by
    simp only [State.gReg, Ctx.getG, me_setG]
    rw [frame.g, g]
  rw [same, gReg_setG, if_neg ne]
  split
  · next zero => rw [zero]; rfl
  · rfl

theorem pReg_of_frame (frame : WriteFrame s x t) {d : PReg} (p : x.p = (s.me.setP d b).p) {r : PReg} (ne : r ≠ d) :
    t.pReg r = s.pReg r := by
  have same : t.pReg r = (s.setP d b).pReg r := by
    simp only [State.pReg, Ctx.getP, me_setP]
    rw [frame.p, p]
  rw [same, pReg_setP, if_neg ne]
  split
  · next zero => rw [zero]; rfl
  · rfl

/-- A frame that leaves v registers and flags is the one of the instructions on integers. -/
theorem restOfContext_of_frame (frame : WriteFrame s x t) (v : x.v = s.me.v) (nflags : x.nflags = s.me.nflags) :
    Spec.restOfContext s t := by
  obtain ⟨e, nmode, tr, ien, ipend, alarm, evpend, tstat, count, packet, yield⟩ := frame.kept
  exact ⟨e, frame.v.trans v, nmode, frame.nflags.trans nflags, tr, ien, ipend, alarm, evpend, tstat, count, packet, yield, frame.loops⟩

end

/-! ### The instructions on integers and predicates (R125 to R130) -/

/-- An integer instruction writes its register and retires, whatever its operands are. -/
theorem integer_writes {i : Instr} {s : State} {d : Reg} {v : PWord} (form : Spec.intResult i s = some (d, v)) (on : Spec.runs i s) :
    ∃ w, exec i s = .next (s.setG d w).retire := by
  cases i with
  | add d a b q | sub d a b q | and d a b q | or d a b q | xor d a b q | andn d a b q | shl d a b q | shr d a b q | sar d a b q
  | min d a b q | max d a b q | minu d a b q | maxu d a b q | mul d a b q | mulh d a b q | mulhu d a b q | clz d a q | ctz d a q
  | popc d a q | addi d a imm q | andi d a imm q | ori d a imm q | xori d a imm q | pmovGp d a q =>
    cases form
    exact ⟨_, pred_on (on q rfl) _⟩
  | addS d b | subS d b | andS d b | orS d b | xorS d b | andnS d b | shlS d b | shrS d b | sarS d b | minS d b | maxS d b
  | minuS d b | maxuS d b | mulS d b | clzS d a | ctzS d a | popcS d a | addiS d imm | andiS d imm | oriS d imm | xoriS d imm =>
    cases form
    exact ⟨_, pred_on (isOn_always s) _⟩
  | shli d a l | shri d a l | sari d a l | bfx d a l w | bfxu d a l w | bfi d a l w | movhi d imm | lea d imm | sel d a b q
  | shliS d l | shriS d l | sariS d l =>
    cases form
    exact ⟨_, rfl⟩
  | _ => cases form

theorem predicate_writes {i : Instr} {s : State} {d : PReg} {p : Prop} {bad : Bool} (form : Spec.predResult i s = some (d, p, bad))
    (on : Spec.runs i s) : ∃ b, exec i s = .next (s.setP d b).retire := by
  cases i with
  | pcmp d a b c q | pcmpi d a imm c q | plog d a b f q | pmovPp d a q | pmovPg d a q =>
    cases form
    exact ⟨_, pred_on (on q rfl) _⟩
  | _ => cases form

section
variable (x : Ctx) (d : Reg) (p : PReg) (v : PWord) (b : PBit)

theorem samePlace_setG : x.samePlace (x.setG d v) := by simp [Ctx.samePlace]
theorem samePlace_setP : x.samePlace (x.setP p b) := by simp [Ctx.samePlace]
theorem kept_setG : x.kept (x.setG d v) := by simp [Ctx.kept]
theorem kept_setP : x.kept (x.setP p b) := by simp [Ctx.kept]

end

/-- R125 to R130: the frame of the instructions on integers and predicates. -/
theorem registerFrame : Spec.registerFrame := by
  intro i s t free on step
  constructor
  · intro d v form
    obtain ⟨w, run⟩ := integer_writes form on
    have frame := write_frame free step run (samePlace_setG ..) (kept_setG ..)
    exact ⟨frame.rest, restOfContext_of_frame frame (by simp) (by simp), frame.p.trans (by simp), fun r => gReg_of_frame frame rfl⟩
  · intro d p bad form
    obtain ⟨b, run⟩ := predicate_writes form on
    have frame := write_frame free step run (samePlace_setP ..) (kept_setP ..)
    exact ⟨frame.rest, restOfContext_of_frame frame (by simp) (by simp), frame.g.trans (by simp), fun r => pReg_of_frame frame rfl⟩

/-! ### The instructions on floats, level-index codes and v registers -/

theorem modMe_setMe (s : State) (x : Ctx) (f : Ctx → Ctx) : (s.setMe x).modMe f = s.setMe (f x) := by
  rw [State.modMe, me_setMe, setMe_setMe]

theorem setP_flags (x : Ctx) (d : PReg) (b : PBit) (flags : Word) :
    { x.setP d b with nflags := (x.setP d b).nflags ||| flags } = { x.setP d b with nflags := x.nflags ||| flags } := by
  rw [Ctx.setP_nflags]

/-- A comparison writes its predicate and ORs its flags, of which a poisoned one has none. -/
theorem comparison_writes {i : Instr} {s : State} {d : PReg} {rs : List Reg} (form : Spec.cmpForm i = some (d, rs)) (on : Spec.runs i s) :
    ∃ b flags, exec i s = .next (s.setMe { s.me.setP d b with nflags := s.me.nflags ||| flags }).retire := by
  have run := comparisonsComplete i s d rs form on
  split at run
  · refine ⟨⟨false, true⟩, 0, run.trans ?_⟩
    rw [← setP_flags, show (s.me.setP d ⟨false, true⟩).nflags ||| 0 = (s.me.setP d ⟨false, true⟩).nflags from BitVec.or_zero]
    rfl
  · obtain ⟨b, flags, run, _⟩ := run
    refine ⟨⟨b, false⟩, flags, run.trans ?_⟩
    rw [show s.setP d ⟨b, false⟩ = s.setMe (s.me.setP d ⟨b, false⟩) from rfl, modMe_setMe, setP_flags]

/-- A vector instruction on registers writes elements of its register. -/
theorem vector_writes {i : Instr} {s : State} {d : VRegN} {rs : List VRegN} (form : Spec.vecForm i = some (d, rs)) (on : Spec.runs i s)
    (lanes : Spec.lanesFor s rs) : ∃ es, exec i s = putElems d es s := by
  cases i with
  | vadd d a b m q | vsub d a b m q | vmul d a b m q | vmin d a b m q | vmax d a b m q | vand d a b q | vor d a b q | vxor d a b q
  | vshl d a b q | vshr d a b m q | vfadd d a b f r q | vfsub d a b f r q | vfmul d a b f r q | vfma d a b f r q | vfmax d a b f q
  | vfmin d a b f q | vcmp d a b f q | vsel d a b q | vperm d a b q | vladd d a b f q | vlmul d a b f q | vfabs d a f q | vfneg d a f q
  | vexp d a q | vlog d a q | vrcp d a q | vrsq d a q | vsig d a q | vtanh d a q | vbcastE d a f q | vslideUp d a f q | vslideDn d a f q
  | vrsum d a f q | vrmax d a f q | vcvt d a r f q | vlcvt d a f q | vbcast d a q =>
    cases form
    exact ⟨_, (pred_on (on q rfl) _).trans (onLanes_open lanes _)⟩
  | _ => cases form

/-- R82 to R85, R218 to R224, R242 to R247: the frame of the instructions on floats, level-index codes and v registers. -/
theorem floatFrame : Spec.floatFrame := by
  intro i s t free on step same
  have all {x : Ctx} (frame : WriteFrame s x t) (flags : ∃ flags, x.nflags = s.me.nflags ||| flags) : same := by
    obtain ⟨e, nmode, tr, ien, ipend, alarm, evpend, tstat, count, packet, yield⟩ := frame.kept
    exact ⟨frame.rest, e, nmode, tr, ien, ipend, alarm, evpend, tstat, count, packet, yield, frame.loops, frame.nflags ▸ flags⟩
  refine ⟨fun d rs bad form => ?_, fun d rs form => ?_, fun d rs form lanes => ?_⟩
  · obtain ⟨v, flags, run, _⟩ := floatsComplete i s d rs bad form on
    rw [show s.setG d v = s.setMe (s.me.setG d v) from rfl, modMe_setMe] at run
    have frame := write_frame free step run (samePlace_setG s.me d v) (kept_setG s.me d v)
    exact ⟨all frame ⟨flags, by simp⟩, frame.p.trans (by simp), frame.v.trans (by simp), fun r => gReg_of_frame frame rfl⟩
  · obtain ⟨v, flags, run⟩ := comparison_writes form on
    have frame := write_frame free step run (samePlace_setP s.me d v) (kept_setP s.me d v)
    exact ⟨all frame ⟨flags, rfl⟩, frame.g.trans (by simp), frame.v.trans (by simp), fun r => pReg_of_frame frame rfl⟩
  · obtain ⟨es, run⟩ := vector_writes form on lanes
    rw [putElems_eq, Spec.vecState] at run
    have frame := write_frame free step run ⟨rfl, rfl, rfl, rfl⟩ ⟨rfl, rfl, rfl, rfl, rfl, rfl, rfl, rfl, rfl, rfl, rfl⟩
    refine ⟨all frame ⟨_, rfl⟩, frame.g, frame.p, fun r ne => ?_⟩
    have apart : d.val ≠ r.val := fun h => ne (Fin.ext h.symm)
    rw [frame.v]
    simp [apart]

/-- Settles O60: each instruction writes its executing context once and retires, and a retire has its own frame. -/
theorem frames : Obligations.Frames := ⟨registerFrame, floatFrame⟩

end Sys2Proof.Machine
end

section
/-! PROOFS (O12 to O56). Writes of a core, of its live contexts and of a task: what a read finds after each. -/

namespace Sys2Proof.Machine

/-! ### A core after a write (R13) -/

@[simp] theorem core_modCore (s : State) (c : CoreId) (f : Core → Core) : (s.modCore c f).core c = f (s.core c) := core_setCore ..

theorem core_modCore_other (s : State) {c d : CoreId} (f : Core → Core) (h : d ≠ c) : (s.modCore c f).core d = s.core d :=
  core_setCore_other _ _ h

@[simp] theorem ctx_modCore_at (s : State) (c : CoreId) (f : Core → Core) (n : CtxId) :
    (s.modCore c f).ctx c n = (f (s.core c)).ctx n := by
  rw [State.ctx, core_modCore]

theorem ctx_modCore_other (s : State) {c d : CoreId} (f : Core → Core) (h : d ≠ c) (n : CtxId) : (s.modCore c f).ctx d n = s.ctx d n := by
  rw [State.ctx, core_modCore_other _ _ h, State.ctx]

/-! ### The live contexts of a core (R101) -/

theorem foldl_modLive_form (f : Ctx → Ctx) (l : List CtxId) (k : Core) :
    ∃ v, l.foldl (fun k n => if (k.ctx n).live then k.setCtx n (f (k.ctx n)) else k) k = { k with ctxs := v } := by
  induction l generalizing k with
  | nil => exact ⟨k.ctxs, rfl⟩
  | cons n l ih =>
    obtain ⟨v, h⟩ := ih (if (k.ctx n).live then k.setCtx n (f (k.ctx n)) else k)
    refine ⟨v, ?_⟩
    rw [List.foldl_cons, h]
    split <;> rfl

/-- A change of the live contexts changes nothing else of a core. -/
theorem modLive_form (k : Core) (f : Ctx → Ctx) : ∃ v, k.modLive f = { k with ctxs := v } := foldl_modLive_form f allCtx k

theorem ctx_foldl_modLive (f : Ctx → Ctx) (n : CtxId) (l : List CtxId) (once : l.Nodup) (k : Core) :
    (l.foldl (fun k n => if (k.ctx n).live then k.setCtx n (f (k.ctx n)) else k) k).ctx n =
      if n ∈ l ∧ (k.ctx n).live = true then f (k.ctx n) else k.ctx n := by
  induction l generalizing k with
  | nil => simp
  | cons m l ih =>
    rw [List.nodup_cons] at once
    rw [List.foldl_cons, ih once.2]
    by_cases here : n = m
    · subst here
      by_cases live : (k.ctx n).live = true
      · simp [once.1, live]
      · simp [once.1, live]
    · have same : (if (k.ctx m).live then k.setCtx m (f (k.ctx m)) else k).ctx n = k.ctx n := by
        split
        · exact ctx_setCtx_other _ _ here
        · rfl
      simp [same, here]

/-- Each live context is changed once, and no other. -/
theorem ctx_modLive (k : Core) (f : Ctx → Ctx) (n : CtxId) :
    (k.modLive f).ctx n = if (k.ctx n).live then f (k.ctx n) else k.ctx n := by
  rw [Core.modLive, ctx_foldl_modLive f n allCtx (List.nodup_finRange 11) k]
  simp [allCtx]

theorem modLive_ctxs (k : Core) (f : Ctx → Ctx) : (k.modLive f).ctxs = k.ctxs.map fun x => if x.live then f x else x := by
  refine Vector.ext fun i lt => ?_
  have each := ctx_modLive k f ⟨i, lt⟩
  rw [Vector.getElem_map]
  exact each

/-- The change of the live contexts, as a map. -/
theorem modLive_eq (k : Core) (f : Ctx → Ctx) : k.modLive f = { k with ctxs := k.ctxs.map fun x => if x.live then f x else x } := by
  rw [← modLive_ctxs]
  obtain ⟨v, h⟩ := modLive_form k f
  rw [h]

/-- A map over the contexts of a core. -/
@[simp] theorem ctx_map (k : Core) (f : Ctx → Ctx) (n : CtxId) : ({ k with ctxs := k.ctxs.map f } : Core).ctx n = f (k.ctx n) := by
  simp [Core.ctx]

/-! ### A task of a table (R314) -/

/-- A change of a task writes its sector's table alone. -/
theorem modTask_form (s : State) (t : TaskRef) (f : Task → Task) : ∃ q, s.modTask t f = { s with sectors := q } := by
  unfold State.modTask
  split
  · exact ⟨_, rfl⟩
  · exact ⟨s.sectors, rfl⟩

theorem taskAt_modTask {s : State} {t : TaskRef} {k : Task} (f : Task → Task) (found : s.taskAt t = some k) (order : (f k).order = k.order) :
    (s.modTask t f).taskAt t = some (f k) := by
  have mine : k.order = t.order := by
    unfold State.taskAt at found
    split at found
    · split at found
      · next same => cases found; exact same
      · cases found
    · cases found
  rw [State.modTask, found]
  simp [State.taskAt, find_put_same, order, mine]

@[simp] theorem taskAt_modCore (s : State) (c : CoreId) (f : Core → Core) (t : TaskRef) : (s.modCore c f).taskAt t = s.taskAt t := rfl

/-! ### A retire while no lanes are claimed (R231) -/

theorem settleLanes_empty {s : State} {o : Nat} (empty : (s.octet o).laneQ = []) (k : Nat) : s.settleLanes k o = s := by
  cases k with
  | zero => rfl
  | succ k => rw [State.settleLanes, empty]

theorem setCtx_twice (s : State) (c : CoreId) (n : CtxId) (x y : Ctx) : (s.setCtx c n x).setCtx c n y = s.setCtx c n y := by
  unfold State.setCtx
  rw [core_setCore, setCore_setCore, setCtx_setCtx]

theorem advance_st (s : State) (c : CoreId) (n : CtxId) (f : Flow) :
    ((s.advance c n f).1.ctx c n).st = if (s.ctx c n).st = .stopped then .stopped else .ready := by
  have kept : ∀ next x k, (s.loopLevel c next x k).1.st = x.st := by
    intro next x k
    unfold State.loopLevel
    dsimp only
    split
    · split <;> rfl
    · rfl
  have back : ∀ next x, (s.loopBack c next x).1.st = x.st := by
    intro next x
    unfold State.loopBack
    dsimp only
    split
    · rfl
    · split
      · exact kept ..
      · split
        · exact (kept ..).trans (kept ..)
        · exact (kept ..).trans ((kept ..).trans (kept ..))
  have move : (s.move c n f).st = (s.ctx c n).st := by cases f <;> rfl
  unfold State.advance
  dsimp only
  rw [State.ctx_setCtx]
  cases f <;> simp [move, back]

/-- A renegotiation changes the lanes of its context alone (R231). -/
theorem renegotiate_form (s : State) (c : CoreId) (n : CtxId) : ∃ l, s.renegotiate c n = s.setCtx c n { s.ctx c n with lanes := l } :=
  ⟨_, rfl⟩

/-- Where no claim waits for lanes of the octet a retire writes the retiring context alone, and moves it. -/
theorem retireAt_noClaims {s : State} {c : CoreId} (none_ : (s.octet (octetOf c)).laneQ = []) (n : CtxId) (f : Flow) :
    ∃ y, s.retireAt c n f = s.setCtx c n y ∧ (s.ctx c n).Moved y ∧ y.wait = none ∧
      y.st = if (s.ctx c n).st = .stopped then .stopped else .ready := by
  have moved := advance_moved s c n f
  have wait := advance_wait s c n f
  have st := advance_st s c n f
  obtain ⟨y, eq⟩ : ∃ y, (s.advance c n f).1 = s.setCtx c n y := by
    unfold State.advance
    exact ⟨_, rfl⟩
  rw [eq, State.ctx_setCtx] at moved wait st
  rcases retireAt_cases s c n f with run | run
  · exact ⟨y, run.trans eq, moved, wait, st⟩
  · obtain ⟨l, again⟩ := renegotiate_form (s.setCtx c n y) c n
    rw [State.ctx_setCtx, setCtx_twice] at again
    have empty : ((s.setCtx c n { y with lanes := l }).octet (octetOf c)).laneQ = [] := none_
    rw [eq, again, settleLanes_empty empty] at run
    exact ⟨_, run, moved.trans ⟨_, _, _, _, _, _, _, _, _, rfl⟩, wait, st⟩

theorem retire_noClaims {s : State} (none_ : (s.octet (octetOf s.cur.core)).laneQ = []) :
    ∃ y, s.retire = s.setMe y ∧ s.me.Moved y ∧ y.wait = none ∧ y.st = if s.me.st = .stopped then .stopped else .ready :=
  retireAt_noClaims none_ s.cur.ctx .seq

/-! ### What a task gives up (R157, R235, R275) -/

/-- A lane step keeps what a core holds apart from its contexts. -/
theorem LaneStep.coreField {s t : State} {p : CoreId → CtxId → Prop} {α : Type} (h : LaneStep s t p) (c : CoreId) (f : Core → α)
    (same : ∀ k v, f { k with ctxs := v } = f k) : f (t.core c) = f (s.core c) := by
  obtain ⟨v, eq⟩ := h.core c
  rw [eq, same]

/-- What a task gives up at once: the pool, the lanes and the claims of its core; lanes go to the claims of the octet's other cores. -/
structure GivenUp (s t : State) (c : CoreId) : Prop where
  form : ∃ cs os, t = { s with cores := cs, octets := os }
  core : ∃ v, t.core c = { s.core c with ctxs := v, poolQ := [] }
  ctx : ∀ n, t.ctx c n = (s.ctx c n).giveUp
  others : ∀ d, d ≠ c → ∃ v, t.core d = { s.core d with ctxs := v }
  claims : c ≠ mgmtCore → ∀ q ∈ (t.octet (octetOf c)).laneQ, q.core ≠ c

theorem giveUp_givenUp (s : State) (c : CoreId) : GivenUp s (s.giveUp c) c := by
  unfold State.giveUp
  dsimp only
  generalize first : s.modCore c (fun k => { k with ctxs := k.ctxs.map Ctx.giveUp, poolQ := [] }) = s1
  have core : s1.core c = { s.core c with ctxs := (s.core c).ctxs.map Ctx.giveUp, poolQ := [] } := by rw [← first, core_modCore]
  have others : ∀ d, d ≠ c → s1.core d = s.core d := fun d ne => by rw [← first, core_modCore_other _ _ ne]
  have ctx : ∀ n, s1.ctx c n = (s.ctx c n).giveUp := fun n => by
    rw [State.ctx, core]
    simp [Core.ctx, State.ctx]
  have form : s1 = { s with cores := s1.cores, octets := s1.octets } := by rw [← first]; rfl
  split
  · next mgmt =>
    exact ⟨⟨_, _, form⟩, ⟨_, core⟩, ctx, fun d ne => ⟨_, others d ne⟩, fun ne => absurd (by simpa using mgmt) ne⟩
  · generalize left : ({ (s1.octet (octetOf c)).freeEngine c with laneQ := (s1.octet (octetOf c)).laneQ.filter fun q => q.core != c } : Octet) = o
    have gone : ∀ q ∈ o.laneQ, q.core ≠ c := by
      rw [← left]
      intro q mem
      simpa using (List.mem_filter.1 mem).2
    have step := settleLanes_step 88 (s1.setOctet (octetOf c) o) (octetOf c)
    have grants := settleLanes_grants 88 (s1.setOctet (octetOf c) o) (octetOf c)
    generalize State.settleLanes 88 (s1.setOctet (octetOf c) o) (octetOf c) = t at step grants
    have queue : ∀ q ∈ (t.octet (octetOf c)).laneQ, q.core ≠ c := fun q mem => gone q (by simpa using grants.queue q mem)
    obtain ⟨cs, os, whole⟩ := step.form
    refine ⟨⟨cs, os, by rw [whole, form]; rfl⟩, ?_, fun n => ?_, fun d ne => ?_, fun _ => queue⟩
    · obtain ⟨v, eq⟩ := step.core c
      exact ⟨v, eq.trans (by rw [show (s1.setOctet (octetOf c) o).core c = s1.core c from rfl, core])⟩
    · rcases grants.ctx c n with same | ⟨⟨q, mem, here, -⟩, -⟩
      · exact same.trans (ctx n)
      · exact absurd here (gone q (by simpa using mem))
    · obtain ⟨v, eq⟩ := step.core d
      exact ⟨v, eq.trans (by rw [show (s1.setOctet (octetOf c) o).core d = s1.core d from rfl, others d ne])⟩

end Sys2Proof.Machine
end

section
/-! PROOFS (O8). NOP, HINT and YIELD: what only advances the pc (R95, R124). -/

namespace Sys2Proof.Machine

/-- A core alone in its cluster has nobody to tell of its HINT: with bound 0 it retires (R124). -/
theorem hint_alone {s : State} (alone : Spec.alone s) (mask : BitVec 16) : exec (.hint mask 0) s = .next s.retire := by
  have mates : (s.cores.filter fun e => e.1 != s.cur.core && clusterOf e.1 == clusterOf s.cur.core &&
      (e.1 == mgmtCore) == (s.cur.core == mgmtCore)) = [] := by
    rw [List.filter_eq_nil_iff]
    intro e listed
    rcases alone e listed with own | other
    · simp [own]
    · simp [other]
  change execHint mask 0 s = _
  rw [execHint]
  simp only [mates]
  rfl

/-- The contexts that a YIELD lets issue first are the other READY ones of the core (R95). -/
theorem yieldVia_waits (s : State) : ∃ ns, yieldVia s = .next (s.setMe { s.me with yield := ns }).retire ∧
    ∀ n, n ∈ ns ↔ n ≠ s.cur.ctx ∧ (s.myCore.ctx n).st = .ready :=
  ⟨_, rfl, fun n => by simp [allCtx]⟩

/-- Settles O8: NOP is a retire, HINT of bound 0 tells nobody of a core alone, and YIELD is one write and a retire. -/
theorem nothingElse : Obligations.NothingElse := by
  intro s mask
  refine ⟨rfl, rfl, fun alone => hint_alone alone mask, ?_⟩
  rintro i (rfl | rfl)
  · exact yieldVia_waits s
  · exact yieldVia_waits s

end Sys2Proof.Machine
end

section
/-! PROOFS (O13). TRAP, RETT and the privilege trap (R98, R105, R416). -/

namespace Sys2Proof.Machine

theorem isUser_iff {s : State} : s.isUser = true ↔ s.priv = 0 := beq_iff_eq

/-- A mode that exists on the core is restored as it is (R98). -/
theorem legalPriv_legal {mgmt : Bool} {v : BitVec 2} (legal : v = 0 ∨ v = 1 ∨ (mgmt = true ∧ v = 3)) (k : Nat) : legalPriv mgmt v k = v := by
  rcases legal with rfl | rfl | ⟨rfl, rfl⟩ <;> rfl

/-- Dropping bit 0 of an even address leaves it. -/
theorem even_and {a : Word} (even : a.getLsbD 0 = false) : a &&& ~~~1#64 = a := by
  apply BitVec.eq_of_getLsbD_eq
  intro i hi
  rw [BitVec.getLsbD_and, BitVec.getLsbD_not, BitVec.getLsbD_one]
  cases i with
  | zero => rw [even, Bool.false_and]
  | succ i => simp [hi]

/-- The context that a return leaves: its triple, its mode, and that it waits for nothing (R105). -/
def Ctx.returned (x : Ctx) (x0 x1 x2 : Word) (p : BitVec 2) : Ctx :=
  { (x.restore x0 x1 x2) with st := .ready, wait := none, tr := { x.tr with priv := p } }

/-- A return to an even address with a mode that exists (R105). -/
theorem returnTo_legal {s : State} {x0 : Word} {p : BitVec 2} (even : x0.getLsbD 0 = false)
    (legal : p = 0 ∨ p = 1 ∨ (s.onMgmt = true ∧ p = 3)) (x1 x2 : Word) (k : State → State) :
    returnTo x0 x1 x2 p s k = .next (k ((s.setMe (s.me.returned x0 x1 x2 p)).nextFresh)) := by
  rw [returnTo, if_neg (by rw [even]; simp), legalPriv_legal legal]
  rfl

theorem keeps_returned (x : Ctx) (x0 x1 x2 : Word) (p : BitVec 2) : Spec.keeps x (x.returned x0 x1 x2 p) :=
  ⟨rfl, rfl, rfl, rfl, rfl, rfl, rfl, rfl, rfl, rfl, rfl, rfl, rfl, rfl⟩

theorem trapInstruction : Spec.trapInstruction := by
  intro s code
  rw [BitVec.ofNat_toNat]
  rfl

theorem returnFromTrap : Spec.returnFromTrap := by
  refine fun s => ⟨fun supervisor even legal => ?_, fun mgmt machine even legal => ?_⟩
  · have run : exec .rett s = .next ((s.setMe (s.me.returned s.me.tr.xpc0 s.me.tr.xpc1 s.me.tr.xpc2 s.me.tr.ppriv)).nextFresh) := by
      change execRett s = _
      rw [execRett, if_neg (by simp [State.isUser, supervisor]), if_neg (by simp [supervisor]),
        returnTo_legal even (legal.imp_right .inl)]
      rfl
    refine ⟨_, run, ?_⟩
    have me : ∀ x, ((s.setMe x).nextFresh).me = x := me_setMe s
    rw [me]
    exact ⟨keeps_returned .., rfl, even_and even, rfl, rfl, rfl⟩
  · have on : s.onMgmt = true := by simp [State.onMgmt, mgmt]
    have mode : s.mgmt.mpp = 0 ∨ s.mgmt.mpp = 1 ∨ (s.onMgmt = true ∧ s.mgmt.mpp = 3) := by
      have each : ∀ v : BitVec 2, v ≠ 2 → v = 0 ∨ v = 1 ∨ v = 3 := by decide
      exact (each _ legal).imp_right (.imp_right fun three => ⟨on, three⟩)
    have run : exec .rett s = .next { (s.setMe (s.me.returned s.mgmt.mxpc0 s.mgmt.mxpc1 s.mgmt.mxpc2 s.mgmt.mpp)).nextFresh with
        mgmt := { s.mgmt with mie := true } } := by
      change execRett s = _
      rw [execRett, if_neg (by simp [State.isUser, machine]), if_pos (by simp [machine, on]), returnTo_legal even mode]
      rfl
    refine ⟨_, run, ?_⟩
    have me : ∀ x m, { (s.setMe x).nextFresh with mgmt := m }.me = x := fun x _ => me_setMe s x
    rw [me]
    exact ⟨keeps_returned .., rfl, even_and even, rfl⟩

theorem privilegedInUserMode : Spec.privilegedInUserMode := by
  intro i s h user
  have gate : s.isUser = true := isUser_iff.2 user
  rcases h with rfl | ⟨d, n, rfl⟩ | ⟨d, r, n, rfl⟩
  · exact if_pos gate
  · exact if_pos gate
  · exact if_pos gate

/-- Settles O13: a return writes one context, and the mode is the first thing that the privileged instructions ask for. -/
theorem trapsReturn : Obligations.TrapsReturn := ⟨trapInstruction, returnFromTrap, privilegedInUserMode⟩

end Sys2Proof.Machine
end

section
/-! PROOFS (O12). Trap entry, escalation and machine mode (R103, R106, R416). -/

namespace Sys2Proof.Machine

/-! ### Entry (R103, R416) -/

/-- The context that a trap leaves on a compute core (R103). -/
def Ctx.trapped (x : Ctx) (cause value x0 x1 x2 tvec : Word) : Ctx :=
  ({ x with st := .ready, wait := none, packet := none, tr := x.tr.enter cause value x0 x1 x2 x.packet.isSome }).goto (tvec &&& ~~~1#64)

/-- The context that an entry into machine mode leaves (R416). -/
def Ctx.inMachine (x : Ctx) (mvec : Word) : Ctx :=
  ({ x with st := .ready, wait := none, packet := none, tr := { x.tr with priv := 3 } }).goto (mvec &&& ~~~1#64)

section
variable {s : State} {c : CoreId} {n : CtxId} {p : Word} {a b : Option Word}

/-- The saved triple, with its unresolved entries marked. -/
theorem savedTriple_eq (h : s.triple c n = (p, a, b)) : s.savedTriple c n = (p, Spec.saved p a, Spec.saved (Spec.saved p a) b) := by
  rw [State.savedTriple, h]
  rfl

theorem takeTrap_user (compute : c ≠ mgmtCore) (user : (s.ctx c n).tr.priv = 0) (vector : (s.core c).bind.tvec ≠ 0)
    (triple : s.triple c n = (p, a, b)) (cause value : Word) : s.takeTrap c n cause value =
      s.setCtx c n ((s.ctx c n).trapped cause value p (Spec.saved p a) (Spec.saved (Spec.saved p a) b) (s.core c).bind.tvec) := by
  rw [State.takeTrap, if_neg (by simpa using compute)]
  dsimp only
  rw [if_neg (by simpa [user] using vector), savedTriple_eq triple]
  rfl

theorem machineEntry_eq (triple : s.triple mgmtCore n = (p, a, b)) (cause value : Word) : s.machineEntry n cause value =
    { s.setCtx mgmtCore n ((s.ctx mgmtCore n).inMachine s.mgmt.mvec) with
      mgmt := { s.mgmt with mxpc0 := p, mxpc1 := Spec.saved p a, mxpc2 := Spec.saved (Spec.saved p a) b, mcause := cause,
                            mtval := value, mpp := (s.ctx mgmtCore n).tr.priv, mie := false } } := by
  rw [State.machineEntry, savedTriple_eq triple]
  rfl

end

theorem takeTrap_mgmt (s : State) (n : CtxId) (cause value : Word) :
    s.takeTrap mgmtCore n cause value = s.machineFault n cause value := if_pos (beq_self_eq_true _)

theorem trapEntry : Spec.trapEntry := by
  intro s c n cause value p a b compute user vector triple
  refine ⟨_, takeTrap_user compute user vector triple cause value,
    ⟨rfl, rfl, rfl, rfl, rfl, rfl, rfl, rfl, rfl, rfl, rfl, rfl, rfl, rfl⟩, ?_, rfl, rfl, rfl, rfl, rfl⟩
  change (s.ctx c n).tr.enter .. = _
  rw [TrapRegs.enter, user]

theorem machineEntry : Spec.machineEntry := by
  intro s n cause value p a b triple
  dsimp only
  rw [takeTrap_mgmt, State.machineFault]
  cases s.mgmt.mie with
  | true =>
    rw [if_pos rfl, if_pos rfl, machineEntry_eq triple]
    have here : ∀ x m, { s.setCtx mgmtCore n x with mgmt := m }.ctx mgmtCore n = x := fun x _ => State.ctx_setCtx s mgmtCore n x
    rw [here]
    exact ⟨rfl, rfl, rfl, rfl, rfl, rfl, rfl, rfl, rfl, rfl, rfl, rfl, rfl, rfl, rfl, rfl, rfl⟩
  | false => exact ⟨rfl, rfl, rfl⟩

/-! ### Escalation (R106) -/

/-- A context that an escalation stops (R106). -/
def Ctx.failed (x : Ctx) : Ctx := if x.live then { x with st := .stopped, packet := none } else x

/-- A core as an escalation stops it: its contexts, its work without what waits for a speculative task, its request, its lease (R106,
R412). -/
def Core.failed (k : Core) (w : CoreWork) (cause value : Word) : Core :=
  { k with ctxs := k.ctxs.map Ctx.failed, work := w, stop := some (.fail cause value), lease := 0 }

theorem stopAll_failed (k : Core) (w : CoreWork) (cause value : Word) :
    { ({ k with work := w } : Core).stopAll with stop := some (.fail cause value), lease := 0 } = k.failed w cause value := by
  rw [Core.stopAll, modLive_eq]
  rfl

theorem leaveFifoBanks_form (s : State) (c : CoreId) (mine : CtxId → Bool) : ∃ cl, s.leaveFifoBanks c mine = { s with clusters := cl } := by
  unfold State.leaveFifoBanks
  dsimp only
  split
  · exact ⟨_, rfl⟩
  · exact ⟨s.clusters, rfl⟩

/-- The core and its banks after an escalation, before its task gives up. -/
def State.failedCore (s : State) (c : CoreId) (w : CoreWork) (cl : Table Cluster) (cause value : Word) : State :=
  { s.setCore c ((s.core c).failed w cause value) with clusters := cl }

/-- The task of a core whose escalation is under way is handed to the task engine, without its remote commands (R106, R388). -/
def State.handOver (s : State) (c : CoreId) (t : TaskRef) (cause value : Word) : State :=
  (s.modCore c fun k => { k with work := { k.work with rq := k.work.rq.filter fun r => r.task != some t } }).modTask t
    fun tk => { tk with phase := .failing c cause value }

/-- The core and its banks when a core with the task's last work stops. -/
def State.stoppedCore (s : State) (c : CoreId) (k : Core) (cause value : Word) : State :=
  (s.setCore c { k.stopAll with stop := some (.fail cause value), lease := 0 }).leaveFifoBanks c fun _ => true

theorem stoppedCore_failed (s : State) (c : CoreId) (w : CoreWork) (cause value : Word) :
    ∃ cl, s.stoppedCore c { s.core c with work := w } cause value = s.failedCore c w cl cause value := by
  rw [State.stoppedCore, stopAll_failed]
  exact leaveFifoBanks_form ..

theorem escalate_noTask {s : State} {c : CoreId} (task : (s.core c).bind.task = none) (cause value : Word) :
    ∃ w cl, s.escalate c cause value = (s.failedCore c w cl cause value).giveUp c := by
  have run : s.escalate c cause value = (s.stoppedCore c (s.core c) cause value).giveUp c := by
    unfold State.escalate
    simp only [task]
    rfl
  obtain ⟨cl, eq⟩ := stoppedCore_failed s c (s.core c).work cause value
  exact ⟨_, cl, run.trans (congrArg (State.giveUp · c) eq)⟩

theorem escalate_task {s : State} {c : CoreId} {t : TaskRef} (task : (s.core c).bind.task = some t) (cause value : Word) :
    ∃ w cl, s.escalate c cause value = ((s.failedCore c w cl cause value).giveUp c).handOver c t cause value := by
  have run : ∃ w, s.escalate c cause value =
      ((s.stoppedCore c { s.core c with work := w } cause value).giveUp c).handOver c t cause value := by
    unfold State.escalate
    simp only [task]
    cases s.taskAt t with
    | none => exact ⟨(s.core c).work, rfl⟩
    | some k =>
      cases speculative : k.spec with
      | false => exact ⟨(s.core c).work, by simp only [speculative]; rfl⟩
      | true => exact ⟨(s.core c).work.discardWaits t, by simp only [speculative]; rfl⟩
  obtain ⟨w, run⟩ := run
  obtain ⟨cl, eq⟩ := stoppedCore_failed s c w cause value
  exact ⟨w, cl, run.trans (congrArg (fun u => (State.giveUp u c).handOver c t cause value) eq)⟩

/-- What an escalation leaves of a core, with the work it is left with. -/
structure Escalated (s t : State) (c : CoreId) (cause value : Word) : Prop where
  hbm : t.hbm = s.hbm
  core : ∃ v w, t.core c = { s.core c with
    ctxs := v, poolQ := [], work := w, stop := some (.fail cause value), lease := 0 }
  ctx : ∀ m, t.ctx c m = (s.ctx c m).failed.giveUp
  claims : ∀ q ∈ (t.octet (octetOf c)).laneQ, q.core ≠ c
  task : ∀ r tk, (s.core c).bind.task = some r → s.taskAt r = some tk → t.taskAt r = some { tk with phase := .failing c cause value }

theorem givenUp_failed {s u : State} {c : CoreId} {w : CoreWork} {cl : Table Cluster} {cause value : Word}
    (up : GivenUp (s.failedCore c w cl cause value) u c) : u.hbm = s.hbm ∧ u.sectors = s.sectors ∧
      (∃ v, u.core c = { s.core c with ctxs := v, poolQ := [], work := w, stop := some (.fail cause value), lease := 0 }) ∧
      ∀ m, u.ctx c m = (s.ctx c m).failed.giveUp := by
  have core : (s.failedCore c w cl cause value).core c = (s.core c).failed w cause value := core_setCore ..
  obtain ⟨⟨cs, os, form⟩, ⟨v, core'⟩, ctx, -, -⟩ := up
  rw [core] at core'
  refine ⟨by rw [form]; rfl, by rw [form]; rfl, ⟨v, core'⟩, fun m => ?_⟩
  rw [ctx, State.ctx, core]
  exact congrArg Ctx.giveUp (ctx_map (s.core c) Ctx.failed m)

theorem escalate_escalated (s : State) {c : CoreId} (compute : c ≠ mgmtCore) (cause value : Word) :
    Escalated s (s.escalate c cause value) c cause value := by
  cases task : (s.core c).bind.task with
  | none =>
    obtain ⟨w, cl, eq⟩ := escalate_noTask task cause value
    have up := giveUp_givenUp (s.failedCore c w cl cause value) c
    rw [← eq] at up
    obtain ⟨hbm, -, ⟨v, core⟩, ctx⟩ := givenUp_failed up
    exact ⟨hbm, ⟨v, w, core⟩, ctx, up.claims compute, fun r tk h => by rw [task] at h; cases h⟩
  | some r =>
    obtain ⟨w, cl, eq⟩ := escalate_task task cause value
    have up := giveUp_givenUp (s.failedCore c w cl cause value) c
    generalize State.giveUp (s.failedCore c w cl cause value) c = u at eq up
    obtain ⟨hbm, sectors, ⟨v, core⟩, ctx⟩ := givenUp_failed up
    have claims := up.claims compute
    rw [eq]
    generalize drop : u.modCore c (fun k => { k with work := { k.work with rq := k.work.rq.filter fun r' => r'.task != some r } }) = u1
    have hand : u.handOver c r cause value = u1.modTask r fun tk => { tk with phase := .failing c cause value } := by
      rw [← drop]
      rfl
    have core1 : u1.core c = { u.core c with work := u1.core c |>.work } := by rw [← drop, core_modCore]
    have same : u1.hbm = u.hbm ∧ u1.octets = u.octets ∧ u1.sectors = u.sectors := by rw [← drop]; exact ⟨rfl, rfl, rfl⟩
    obtain ⟨q, form⟩ := modTask_form u1 r fun tk => { tk with phase := .failing c cause value }
    rw [hand]
    refine ⟨?_, ⟨v, (u1.core c).work, ?_⟩, fun m => ?_, ?_, fun r' tk here found => ?_⟩
    · rw [form]
      exact same.1.trans hbm
    · rw [form]
      exact core1.trans (by rw [core])
    · rw [form]
      refine Eq.trans ?_ (ctx m)
      change (u1.core c).ctx m = (u.core c).ctx m
      rw [core1]
      rfl
    · rw [form]
      change ∀ q ∈ (u1.octet (octetOf c)).laneQ, _
      rw [State.octet, same.2.1]
      exact claims
    · rw [task] at here
      cases here
      refine taskAt_modTask _ ?_ rfl
      rw [← found, State.taskAt, State.sector, same.2.2, sectors]
      rfl

theorem trapEscalates : Spec.trapEscalates := by
  intro s c n cause value compute mode
  have run : s.takeTrap c n cause value = s.escalate c cause value := by
    rw [State.takeTrap, if_neg (by simpa using compute)]
    exact if_pos (by simpa using mode)
  dsimp only
  rw [run]
  obtain ⟨hbm, ⟨v, w, core⟩, ctx, claims, task⟩ := escalate_escalated s compute cause value
  refine ⟨by rw [core], by rw [core], hbm, by rw [core], fun m live => ?_, fun m dead => ?_, by rw [core], claims, task⟩
  · rw [ctx, Ctx.failed, if_pos live]
    exact ⟨rfl, rfl, rfl, rfl, rfl, rfl, rfl, rfl, rfl, rfl, rfl, rfl, rfl, rfl, rfl, rfl⟩
  · rw [ctx, Ctx.failed, if_neg (by simp [dead])]
    rfl

/-- Settles O12: an entry writes one context, and an escalation goes by the steps of R106. -/
theorem trapsEnter : Obligations.TrapsEnter := ⟨trapEntry, trapEscalates, machineEntry⟩

end Sys2Proof.Machine
end

section
/-! PROOFS (O15). EXIT of a helper and of context 0 (R94). -/

namespace Sys2Proof.Machine

/-! ### The checks of EXIT (R94) -/

/-- No register of a context is poisoned. -/
def Ctx.clean (x : Ctx) : Prop :=
  (∀ r : Reg, r ≠ 0 → (x.getG r).poison = false) ∧ (∀ r : EReg, (x.getE r).poison = false) ∧
    (∀ r : PReg, r ≠ 0 → (x.getP r).poison = false) ∧ ∀ r : Fin 16, r.val < x.count → x.v[r].poison = 0

theorem foldl_mask_zero {f : Nat → Bool} {l : List Nat} (base : Nat) (none_ : ∀ i ∈ l, f i = false) :
    l.foldl (fun (a : Word) i => if f i then a ||| bitAt (base + i) else a) 0 = 0 := by
  refine BitVec.eq_of_getLsbD_eq fun j _ => ?_
  induction l with
  | nil => rfl
  | cons i l ih =>
    rw [List.foldl_cons, none_ i List.mem_cons_self, if_neg Bool.false_ne_true]
    exact ih fun k mem => none_ k (List.mem_cons_of_mem _ mem)

/-- With nothing poisoned the mask of EXIT is empty. -/
theorem poisonMask_clean {x : Ctx} (clean : x.clean) : x.poisonMask = 0 := by
  obtain ⟨g, e, p, v⟩ := clean
  have regs : ∀ i ∈ List.range 15, ((x.g.toList.getD (1 + i) PWord.zero)).poison = false := by
    intro i mem
    have lt : 1 + i < 16 := by rw [List.mem_range] at mem; omega
    have here := g ⟨1 + i, lt⟩ (by simp [Fin.ext_iff])
    simpa [Ctx.getG, Fin.ext_iff, List.getD_eq_getElem?_getD, lt] using here
  have exts : ∀ i ∈ List.range 8, ((x.e.toList.getD (0 + i) PWord.zero)).poison = false := by
    intro i mem
    have lt : i < 8 := List.mem_range.1 mem
    have here := e ⟨i, lt⟩
    simpa [Ctx.getE, List.getD_eq_getElem?_getD, lt] using here
  have preds : ∀ i ∈ List.range 7, ((x.p.toList.getD (1 + i) ⟨false, false⟩)).poison = false := by
    intro i mem
    have lt : 1 + i < 8 := by rw [List.mem_range] at mem; omega
    have here := p ⟨1 + i, lt⟩ (by simp [Fin.ext_iff])
    simpa [Ctx.getP, Fin.ext_iff, List.getD_eq_getElem?_getD, lt] using here
  have vecs : ((x.v.toList.take (Nat.min x.count 16)).any fun r => r.poison != 0) = false := by
    rw [List.any_eq_false]
    intro r mem
    obtain ⟨i, lt, rfl⟩ := List.getElem_of_mem mem
    have inside : i < x.count ∧ i < 16 := by
      rw [List.length_take, Vector.length_toList, show Nat.min x.count 16 = min x.count 16 from rfl] at lt
      omega
    simpa using v ⟨i, inside.2⟩ inside.1
  unfold Ctx.poisonMask
  dsimp only
  rw [foldl_mask_zero 1 regs, foldl_mask_zero 16 exts, foldl_mask_zero 24 preds, vecs]
  rfl

section
variable {s : State} (quiet : Spec.quiet s)
include quiet

theorem inUnits_quiet (n : CtxId) : s.myCore.inUnits n = false := by
  obtain ⟨div, -, rcr, -⟩ := quiet
  rw [Core.inUnits, div, rcr]
  rfl

theorem poolLoads_quiet (n : CtxId) : s.poolLoads s.cur.core n = false := by
  obtain ⟨-, -, -, -, -, -, vecs, -⟩ := quiet
  rw [State.myCore] at vecs
  rw [State.poolLoads, vecs]
  rfl

theorem poolStores_quiet (n : CtxId) : s.poolStores s.cur.core n = false := by
  obtain ⟨-, -, -, -, -, -, vecs, -⟩ := quiet
  rw [State.myCore] at vecs
  rw [State.poolStores, vecs]
  rfl

theorem poolJobs_quiet (n : CtxId) : s.poolJobs s.cur.core n = false := by
  obtain ⟨-, -, -, -, -, -, -, -, -, queue, running, -⟩ := quiet
  rw [State.myOctet] at queue running
  simp [State.poolJobs, queue, running]

/-- Nothing of a context with no register outstanding is out. -/
theorem exit_notHeld (pend : s.me.pend = []) : (!s.me.pend.isEmpty || s.myCore.inUnits s.cur.ctx || s.poolLoads s.cur.core s.cur.ctx ||
    (s.cur.ctx != 0 && (s.poolJobs s.cur.core s.cur.ctx || s.poolStores s.cur.core s.cur.ctx))) = false := by
  simp [pend, inUnits_quiet quiet, poolLoads_quiet quiet, poolStores_quiet quiet, poolJobs_quiet quiet]

end

theorem live_helper_iff (s : State) : ((allCtx.drop 1).any fun n => (s.myCore.ctx n).live) = true ↔
    ∃ n : CtxId, n ≠ 0 ∧ (s.myCore.ctx n).live = true := by
  have drop : allCtx.drop 1 = allCtx.filter (· != 0) := by decide
  rw [drop]
  simp [List.any_filter, allCtx]

/-- Both sizes of EXIT. -/
theorem exec_exit {i : Instr} (h : i = .exit ∨ i = .exitS) (s : State) : exec i s = exitVia s := by
  rcases h with rfl | rfl <;> rfl

theorem exitTraps : Spec.exitTraps := by
  intro i s size
  rw [exec_exit size]
  refine ⟨fun packet => ?_, fun packet zero helper => ?_⟩
  · rw [exitVia]
    exact if_pos (Option.isSome_iff_ne_none.2 packet)
  · rw [exitVia]
    refine (if_neg (by simp [packet])).trans (if_pos ?_)
    rw [(live_helper_iff s).2 helper, zero]
    rfl

/-! ### A helper ends (R94) -/

theorem givePool_noClaims {s : State} {c : CoreId} (none_ : (s.core c).poolQ = []) (n : CtxId) :
    s.givePool c n = s.setCtx c n ((s.ctx c n).bindPool 0) := by
  have empty : ((s.setCtx c n ((s.ctx c n).bindPool 0)).core c).poolQ = [] := by
    rw [State.setCtx, core_setCore]
    exact none_
  rw [State.givePool, State.modCtx, State.settlePool, empty]

theorem releaseLanes_noClaims {s : State} {c : CoreId} (none_ : (s.octet (octetOf c)).laneQ = []) (n : CtxId) :
    s.releaseLanes c n = s.setCtx c n { s.ctx c n with lanes := Lanes.reset } :=
  settleLanes_empty (s := s.setCtx c n { s.ctx c n with lanes := Lanes.reset }) none_ 88

theorem helperExits : Spec.helperExits := by
  intro i s size compute helper packet pend quiet ⟨lanes, pool⟩ g e p v
  have clean : s.me.clean := ⟨g, e, p, v⟩
  have compute' : s.onMgmt = false := by simpa [State.onMgmt] using compute
  obtain ⟨y, retire, ⟨pc, npc, nnpc, slots, fetched, loops, lanes', st, wait, moved⟩, -⟩ := retire_noClaims (lanes (octetOf s.cur.core))
  have give : s.retire.givePool s.cur.core s.cur.ctx = s.setMe (y.bindPool 0) := by
    have none_ : ((s.setMe y).core s.cur.core).poolQ = [] := by
      rw [State.setMe, State.setCtx, core_setCore]
      exact pool
    rw [retire, givePool_noClaims none_, State.setMe, State.ctx_setCtx, setCtx_twice]
    rfl
  have release : (s.setMe (y.bindPool 0)).releaseLanes s.cur.core s.cur.ctx = s.setMe y.giveUp := by
    have none_ : ((s.setMe (y.bindPool 0)).octet (octetOf s.cur.core)).laneQ = [] := lanes _
    rw [releaseLanes_noClaims none_, State.setMe, State.ctx_setCtx, setCtx_twice]
    rfl
  have run : exec i s = .next ((s.setMe { y.giveUp with st := .ended }).modMyCore fun k => k.setCtx 0 ((k.ctx 0).latch evHexit)) := by
    rw [exec_exit size, exitVia]
    simp only [packet, exit_notHeld quiet pend, poisonMask_clean clean, compute', give, release]
    simp [helper, State.modMe, setMe_setMe]
  have me : ((s.setMe { y.giveUp with st := .ended }).modMyCore fun k => k.setCtx 0 ((k.ctx 0).latch evHexit)).me =
      { y.giveUp with st := .ended } := by
    change ((s.setMe _).modCore s.cur.core _).ctx s.cur.core s.cur.ctx = _
    rw [ctx_modCore_at, ctx_setCtx_other _ _ helper]
    exact me_setMe ..
  have zero : ((s.setMe { y.giveUp with st := .ended }).modMyCore fun k => k.setCtx 0 ((k.ctx 0).latch evHexit)).myCore.ctx 0 =
      (s.myCore.ctx 0).latch evHexit := by
    change ((s.setMe _).modCore s.cur.core _).ctx s.cur.core 0 = _
    rw [ctx_modCore_at, ctx_setCtx]
    exact congrArg (Ctx.latch · evHexit) (State.ctx_setCtx_other s _ (.inr helper.symm))
  refine ⟨_, run, ?_, ?_, ?_, ?_, rfl⟩
  · rw [me]
  · rw [me]; rfl
  · rw [me]; rfl
  · rw [zero]; rfl

/-! ### The task ends (R94, R318) -/

/-- Reaping helpers writes contexts of the core alone. -/
theorem foldl_reap_form (l : List CtxId) (s : State) :
    ∃ cs, l.foldl (fun s n => if (s.myCore.ctx n).st == .ended then s.reap n else s) s = { s with cores := cs } := by
  induction l generalizing s with
  | nil => exact ⟨s.cores, rfl⟩
  | cons n l ih =>
    obtain ⟨cs, h⟩ := ih (if (s.myCore.ctx n).st == .ended then s.reap n else s)
    refine ⟨cs, ?_⟩
    rw [List.foldl_cons, h]
    split <;> rfl

/-- The end of a task frees every context of the core, and writes cores and octets alone. -/
theorem endTask_frees (s : State) (c : CoreId) :
    (∃ cs os, s.endTask c = { s with cores := cs, octets := os }) ∧ ∀ n, (s.endTask c).ctx c n = (s.ctx c n).freed.giveUp := by
  unfold State.endTask
  generalize first : s.modCore c (fun k =>
    { k with ctxs := k.ctxs.map Ctx.freed, jobs := [], lease := 0, guards := Vector.replicate 8 .free }) = s1
  have ctx (n : CtxId) : s1.ctx c n = (s.ctx c n).freed := by
    rw [← first, ctx_modCore_at]
    exact ctx_map (s.core c) Ctx.freed n
  have form : s1 = { s with cores := s1.cores } := by rw [← first]; rfl
  have up := giveUp_givenUp s1 c
  obtain ⟨cs, os, whole⟩ := up.form
  exact ⟨⟨cs, os, by rw [whole, form]⟩, fun n => by rw [up.ctx, ctx]⟩

theorem taskExits : Spec.taskExits := by
  intro i s ref tk size compute zero packet pend quiet claims dead g e p v bound found
  have clean : s.me.clean := ⟨g, e, p, v⟩
  have helpers : ((allCtx.drop 1).any fun n => (s.myCore.ctx n).live) = false := by
    rw [← Bool.not_eq_true, live_helper_iff]
    rintro ⟨n, ne, live⟩
    rw [dead n ne] at live
    cases live
  obtain ⟨cs, reaped⟩ := foldl_reap_form (allCtx.drop 1) s
  generalize left : ({ s with cores := cs } : State) = s0 at reaped
  have run : exec i s = .next ((s0.retire.endTask s.cur.core).modTask ref fun k => { k with phase := .retiring s.cur.core }) := by
    rw [exec_exit size, exitVia]
    simp only [packet, exit_notHeld quiet pend, poisonMask_clean clean, reaped, bound, helpers]
    simp [zero]
  obtain ⟨⟨cs', os, form⟩, frees⟩ := endTask_frees s0.retire s.cur.core
  obtain ⟨cs1, os1, retire⟩ := retire_form s0
  generalize State.endTask s0.retire s.cur.core = u at run form frees
  have rest : u.hbm = s.hbm ∧ u.sectors = s.sectors := by
    rw [form, retire, ← left]
    exact ⟨rfl, rfl⟩
  obtain ⟨q, whole⟩ := modTask_form u ref fun k => { k with phase := .retiring s.cur.core }
  refine ⟨_, run, fun n => ?_, taskAt_modTask _ ?_ rfl, ?_⟩
  · rw [whole]
    change (u.ctx s.cur.core n).st = _ ∧ (u.ctx s.cur.core n).count = _
    rw [frees]
    exact ⟨rfl, rfl⟩
  · rw [← found, State.taskAt, State.sector, rest.2]
    rfl
  · rw [whole]
    exact rest.1

/-- Settles O15: with the checks of R94 passed, a helper is one write of its context, and the end of a task frees every context. -/
theorem exits : Obligations.Exits := ⟨helperExits, taskExits, exitTraps⟩

end Sys2Proof.Machine
end

section
/-! PROOFS (O16). HALT, START, JOIN, SLEEP and WAITEV (R92, R93, R95, R96, R116). -/

namespace Sys2Proof.Machine

theorem haltStops : Spec.haltStops := by
  refine fun s => ⟨fun mgmt => ?_, fun compute => ?_⟩
  · exact if_pos (by simpa [State.onMgmt] using mgmt)
  · exact if_neg (by simpa [State.onMgmt] using compute)

/-! ### START (R92) -/

/-- The numbers of helpers in order, around one of them. -/
theorem helpers_split : ∀ n : CtxId, n ≠ 0 →
    allCtx.drop 1 = (allCtx.drop 1).filter (· < n) ++ n :: (allCtx.drop 1).filter (n < ·) := by decide

theorem mem_helpers : ∀ n : CtxId, n ∈ allCtx.drop 1 ↔ n ≠ 0 := by decide

/-- The lowest context that a test accepts. -/
theorem find_lowest {p : CtxId → Bool} {n : CtxId} (ne : n ≠ 0) (here : p n = true) (lowest : ∀ m, m ≠ 0 → m < n → p m = false) :
    (allCtx.drop 1).find? p = some n := by
  rw [List.find?_eq_some_iff_append]
  refine ⟨here, _, _, helpers_split n ne, fun m mem => ?_⟩
  obtain ⟨mem, lt⟩ := List.mem_filter.1 mem
  rw [lowest m ((mem_helpers m).1 mem) (by simpa using lt)]
  rfl

theorem find_noHelper {p : CtxId → Bool} (none_ : ∀ m, m ≠ 0 → p m = false) : (allCtx.drop 1).find? p = none := by
  rw [List.find?_eq_none]
  intro m mem
  simp [none_ m ((mem_helpers m).1 mem)]

theorem helper_getG (n : CtxId) (arg : PWord) (nmode pc : Word) (old : Ctx) (r : Reg) : (Ctx.helper n arg nmode pc old).getG r =
    if r = 1 then ⟨BitVec.ofNat 64 n.val, false⟩ else if r = 2 then arg else ⟨0, false⟩ := by
  fin_cases r <;> rfl

theorem startMakesHelper : Spec.startMakesHelper := by
  refine fun s d imm => ⟨fun n zero clean ne free lowest => ?_, fun zero busy => ?_, fun other => ?_⟩
  · have find : (allCtx.drop 1).find? (fun n => (s.myCore.ctx n).st == .free) = some n :=
      find_lowest ne (by simp [free]) fun m ne lt => by simpa using lowest m ne lt
    have run : exec (.start d imm) s = .next ((s.modMyCore fun k =>
        k.setCtx n (Ctx.helper n (s.gReg d) s.me.nmode (s.target 17 imm) (s.myCore.ctx n))).setG d ⟨BitVec.ofNat 64 n.val, false⟩).retire := by
      change execStart d imm s = _
      rw [execStart, if_neg (by simp [zero]), find]
      exact needClean_clean _ _ _ clean
    refine ⟨_, run, rfl, target_eq_ofInt s imm, rfl, rfl, ?_, ?_, fun r high => ?_, fun r => ?_, fun r ne => ?_, rfl, rfl, rfl, rfl, rfl, rfl,
      rfl, rfl, rfl⟩
    · rw [helper_getG, if_pos rfl]
    · rw [helper_getG, if_neg (by decide), if_pos rfl]
    · rw [helper_getG, if_neg (by rintro rfl; contradiction), if_neg (by rintro rfl; contradiction)]
    · simp [Ctx.getE, Ctx.helper, Ctx.reset, PWord.zero]
    · simp [Ctx.getP, Ctx.helper, Ctx.reset, ne]
  · have find : (allCtx.drop 1).find? (fun n => (s.myCore.ctx n).st == .free) = none :=
      find_noHelper fun m ne => by simpa using busy m ne
    change execStart d imm s = _
    rw [execStart, if_neg (by simp [zero]), find]
    rfl
  · change execStart d imm s = _
    exact if_pos (by simpa using other)

/-! ### JOIN (R93) -/

section
variable {s : State} {r : Reg} {n : CtxId} (zero : s.cur.ctx = 0) (ne : n ≠ 0) (names : s.gReg r = ⟨BitVec.ofNat 64 n.val, false⟩)
include zero ne names

/-- JOIN of a helper goes by the helper's state. -/
theorem joinVia_helper (i : Instr) : joinVia i r s =
    if (s.myCore.ctx n).st = .free then done s else if (s.myCore.ctx n).st = .ended then done (s.reap n) else waitIn i s := by
  have value : (BitVec.ofNat 64 n.val).toNat = n.val := by
    rw [BitVec.toNat_ofNat]
    omega
  have pos : n.val ≠ 0 := fun h => ne (Fin.ext h)
  have inside : (BitVec.ofNat 64 n.val = 0 || decide (10 < (BitVec.ofNat 64 n.val).toNat)) = false := by
    rw [value, Bool.or_eq_false_iff]
    refine ⟨decide_eq_false fun h => pos ?_, by simp; omega⟩
    rw [← value, h]
    rfl
  have number : (Fin.ofNat 11 (BitVec.ofNat 64 n.val).toNat : CtxId) = n := by
    rw [value]
    exact Fin.ext (Nat.mod_eq_of_lt n.isLt)
  rw [joinVia, if_neg (by simp [zero]), names]
  refine (needClean_clean (v := ⟨BitVec.ofNat 64 n.val, false⟩) _ _ _ rfl).trans ?_
  rw [if_neg (by rw [inside]; exact Bool.false_ne_true), number]
  dsimp only
  cases (s.myCore.ctx n).st <;> rfl

omit names in
/-- A helper that has ENDED is freed, and its flags join those of context 0. -/
theorem reap_retires (claims : Spec.noClaims s) : ((s.reap n).retire.myCore.ctx n).st = .free ∧
    (s.reap n).retire.me.nflags = s.me.nflags ||| (s.myCore.ctx n).nflags ∧ (s.reap n).retire.me.g = s.me.g ∧
    (s.reap n).retire.me.p = s.me.p ∧ (s.reap n).retire.me.e = s.me.e := by
  have other : n ≠ s.cur.ctx := zero ▸ ne
  generalize freed : s.modMyCore (fun k => k.setCtx n { s.myCore.ctx n with st := .free }) = u
  have cur : u.cur = s.cur := by rw [← freed]; rfl
  have helper : (u.ctx s.cur.core n).st = .free := by
    rw [← freed, State.modMyCore, ctx_modCore_at, ctx_setCtx]
  have me : u.me = s.me := by
    rw [State.me, cur, ← freed, State.modMyCore, ctx_modCore_at, ctx_setCtx_other _ _ other.symm]
    rfl
  have reap : s.reap n = u.setMe { s.me with
      nflags := s.me.nflags ||| (s.myCore.ctx n).nflags, tstat := joinTstat s.me.tstat (s.myCore.ctx n).tstat } := by
    rw [State.reap, freed, State.modMe, me]
  have empty : ((s.reap n).octet (octetOf (s.reap n).cur.core)).laneQ = [] := by
    rw [reap, ← freed]
    exact claims.1 _
  obtain ⟨y, retire, ⟨_, _, _, _, _, _, _, _, _, moved⟩, -⟩ := retire_noClaims empty
  rw [reap, setMe_setMe] at retire
  rw [reap, me_setMe] at moved
  rw [reap, retire, me_setMe, moved]
  refine ⟨?_, rfl, rfl, rfl, rfl⟩
  change ((u.setCtx u.cur.core u.cur.ctx _).ctx u.cur.core n).st = _
  rw [State.ctx_setCtx_other _ _ (.inr (cur ▸ other)), cur, helper]

end

/-- Both sizes of JOIN. -/
theorem exec_join {i : Instr} {r : Reg} (h : i = .join r ∨ i = .joinS r) (s : State) : exec i s = joinVia i r s := by
  rcases h with rfl | rfl <;> rfl

theorem waitIn_noPacket {s : State} (packet : s.me.packet = none) (i : Instr) :
    waitIn i s = .next (s.setMe { s.me with st := .waiting, wait := some i }) := by
  rw [waitIn, packet]
  rfl

theorem joinReaps : Spec.joinReaps := by
  intro i s r n size zero ne names
  rw [exec_join size, joinVia_helper zero ne names]
  refine ⟨fun free => ?_, fun ended claims => ?_, fun live packet => ?_⟩
  · exact if_pos free
  · exact ⟨_, (if_neg (by simp [ended])).trans (if_pos ended), reap_retires zero ne claims⟩
  · rw [← waitIn_noPacket packet]
    rcases (live_iff _).1 live with st | st | st <;> rw [st] <;> rfl

/-! ### SLEEP and WAITEV (R95, R96) -/

theorem sleepTicks_eq (s : State) (v : Word) : s.sleepTicks v =
    BitVec.ofNat 64 (if s.cur.core = mgmtCore then 0 else Spec.cycleTicks s.myCore.point (min v.toNat 1048575)) := by
  have rate : ∀ p, pointRate p = [108, 100, 88, 80, 72, 64, 56].getD p 48 := by
    intro p
    rcases p with _ | _ | _ | _ | _ | _ | _ | _ | p <;> rfl
  by_cases mgmt : s.cur.core = mgmtCore
  · simp [State.sleepTicks, State.onMgmt, mgmt]
  · simp [State.sleepTicks, State.onMgmt, mgmt, Spec.cycleTicks, rate]

theorem sleepAndWaitev : Spec.sleepAndWaitev := by
  refine fun s d mask clean => ⟨fun zero => ?_, fun some_ packet => ?_, fun latched => ?_⟩
  · obtain ⟨ns, run, -⟩ := yieldVia_waits s
    refine ⟨ns, run ▸ ?_⟩
    change execSleep d s = _
    rw [execSleep]
    exact (needClean_clean _ _ _ clean).trans (if_pos zero)
  · change execSleep d s = _
    rw [execSleep]
    refine (needClean_clean _ _ _ clean).trans ((if_neg some_).trans ((if_neg (by simp [packet])).trans ?_))
    rw [State.modMe, waitIn_noPacket (by rw [me_setMe]; exact packet), me_setMe, setMe_setMe, sleepTicks_eq]
  · have mask' : BitVec.ofNat 64 mask.toNat = mask.setWidth 64 := BitVec.ofNat_toNat ..
    rw [mask'] at latched ⊢
    change execWaitev d mask s = _
    rw [execWaitev]
    exact (needClean_clean _ _ _ clean).trans (if_neg latched)

/-- Settles O16: START goes by the lowest FREE context, JOIN by the helper's state, SLEEP and WAITEV by their operand. -/
theorem helpersAndWaits : Obligations.HelpersAndWaits := ⟨haltStops, startMakesHelper, joinReaps, sleepAndWaitev⟩

end Sys2Proof.Machine
end

section
/-! PROOFS (O20). Where addresses lead, and the fates of accesses that may not be made (R185 to R188, R193, R400). -/

namespace Sys2Proof.Machine

theorem misaligned_iff {addr : Word} {n : Nat} : (addr.toNat % n != 0) = true ↔ addr.toNat % n ≠ 0 := bne_iff_ne

/-! ### Addresses of loads and stores (R107, R188, R193) -/

theorem loadBadAddress : Spec.loadBadAddress := by
  intro i s f form
  rw [exec_of_loadForm form]
  refine ⟨fun poison => if_pos poison, fun clean misaligned => ?_⟩
  rw [loadAt, if_neg (by simp [clean]), if_pos (misaligned_iff.2 misaligned)]
  rfl

theorem storeBadAddress : Spec.storeBadAddress := by
  intro i s f form
  rw [exec_of_storeForm form]
  refine ⟨fun poison => if_pos poison, fun clean misaligned => ?_⟩
  rw [storeAt, needClean_clean _ _ _ clean, if_pos (misaligned_iff.2 misaligned)]
  rfl

/-! ### A page walk counts what it got poisoned (R400) -/

theorem countView_form (s : State) (pa : Nat) : ∃ r, s.countView pa = { s with regions := r } := by
  unfold State.countView
  split
  · split
    · exact ⟨_, rfl⟩
    · exact ⟨s.regions, rfl⟩
  · exact ⟨s.regions, rfl⟩

theorem foldl_countView_form (l : List Nat) (s : State) : ∃ r, l.foldl State.countView s = { s with regions := r } := by
  induction l generalizing s with
  | nil => exact ⟨s.regions, rfl⟩
  | cons pa l ih =>
    obtain ⟨r, first⟩ := countView_form s pa
    obtain ⟨r', rest⟩ := ih { s with regions := r }
    exact ⟨r', by rw [List.foldl_cons, first, rest]⟩

/-- A walk changes the counts of regions alone. -/
theorem walked_form (s : State) (c : CoreId) (t : BitVec 12) (va : Word) : ∃ r, s.walked c t va = { s with regions := r } := by
  unfold State.walked State.countWalk
  dsimp only
  split
  · exact ⟨s.regions, rfl⟩
  · split
    · exact ⟨s.regions, rfl⟩
    · exact foldl_countView_form ..

/-! ### Fates (R186) -/

section
variable {s : State} {addr : Word} {n : Nat} (aligned : addr.toNat % n = 0)
include aligned

theorem loadAt_fate {b : PWord} (clean : b.poison = false) (free : s.acquiring s.cur.core s.cur.ctx = false)
    (fate : s.reach .load n addr = .transFault ∨ s.reach .load n addr = .rightsFault) (i : Instr) (dst : RegName) (signed : Bool)
    (acq : Option Scope) : loadAt i dst b addr n signed acq s =
      .next (((s.walked s.cur.core s.myCore.bind.tenant addr).modMe (·.setReg dst ⟨0, true⟩)).acquired acq).retire := by
  rw [loadAt, if_neg (by simp [clean]), if_neg (by simp [aligned])]
  rcases fate with fate | fate
  · rw [fate]
    exact if_neg (by simp [free])
  · rw [fate]
    exact if_neg (by simp [free])

theorem storeAt_fate {b v : PWord} (clean : b.poison = false) (i : Instr) (base : Nat) (rel : Option Scope) :
    (s.reach .store n addr = .transFault → storeAt i b base addr n v rel s =
      trap cTrans addr (s.walked s.cur.core s.myCore.bind.tenant addr)) ∧
    (s.reach .store n addr = .rightsFault → storeAt i b base addr n v rel s = trap cRights addr s) := by
  rw [storeAt, needClean_clean _ _ _ clean, if_neg (by simp [aligned])]
  refine ⟨fun fate => ?_, fun fate => ?_⟩
  · rw [fate]
    rfl
  · rw [fate]
    rfl

end

theorem fatesOfAccesses : Spec.fatesOfAccesses := by
  intro i s addr n aligned loads vecs w
  obtain ⟨r, form⟩ : ∃ r, w = { s with regions := r } := walked_form ..
  have cur : w.cur = s.cur := by rw [form]
  have free : s.acquiring s.cur.core s.cur.ctx = false := by
    rw [State.myCore] at loads vecs
    simp [State.acquiring, loads, vecs]
  refine ⟨by rw [form], fun f form' width clean here fate => ?_, fun f form' width clean here => ?_⟩
  · subst width here
    rw [exec_of_loadForm form', loadAt_fate aligned clean free fate]
  · subst width here
    obtain ⟨hole, rights⟩ := storeAt_fate aligned (v := f.val) clean i f.base.val f.rel
    rw [exec_of_storeForm form']
    refine ⟨fun fate => ?_, fun fate => rights fate⟩
    rw [hole fate]
    change trap cTrans _ w = _
    rw [trap, cur]
    rfl

/-! ### Where addresses lead (R185, R187) -/

theorem addressMap : Spec.addressMap := by
  intro s a n addr compute
  have other : s.onMgmt = false := by simpa [State.onMgmt] using compute.ne
  have core : (s.cur.core == mgmtCore) = false := other
  have way : s.reach a n addr = s.reachT s.cur.core s.myCore.bind.tenant ⟨a, n, false, s.isUser⟩ addr := by
    rw [State.reach, other]
    rfl
  rw [way, State.reachT]
  dsimp only
  rw [core, if_neg Bool.false_ne_true]
  refine ⟨fun high => if_pos high, fun low hole => ?_, fun off here small => ?_⟩
  · rw [if_neg (by omega), if_neg (by omega), hole]
  · have at_ : addr.toNat = 0xFFFFFFFFE000 + off := by
      rw [here, BitVec.toNat_ofNat, Nat.mod_eq_of_lt] <;> rw [Spec.lsBase]
      omega
    have top : (s.isUser && decide (0xFFFFFFFFF800 ≤ addr.toNat)) = true ↔ s.priv = 0 ∧ 6144 ≤ off := by
      rw [Bool.and_eq_true, decide_eq_true_iff, at_, State.isUser, beq_iff_eq]
      exact and_congr_right fun _ => by omega
    rw [if_neg (by omega), if_pos (by omega), State.windowReach, if_pos (by omega), at_, Nat.add_sub_cancel_left]
    rw [at_] at top
    exact if_congr top rfl rfl

/-- Settles O20: an access asks for its base, its alignment and its reach in turn, and the reach goes by the address map. -/
theorem addressesAndFates : Obligations.AddressesAndFates := ⟨loadBadAddress, fatesOfAccesses, addressMap, storeBadAddress⟩

end Sys2Proof.Machine
end

section
/-! PROOFS (O12 to O56). Words stored one behind the other in a memory, and what a retire leaves of its context. -/

namespace Sys2Proof.Machine

/-! ### Words of a memory (R189) -/

theorem Memory.readNat_of_bytes {m : Memory} {n : Nat} {a x : Nat} (h : ∀ j, j < n → m.byte (a + j) = BitVec.ofNat 8 (x / 256 ^ j)) :
    m.readNat a n = x % 256 ^ n := by
  induction n generalizing a x with
  | zero => simp [Memory.readNat, Nat.mod_one]
  | succ n ih =>
    have rest : m.readNat (a + 1) n = x / 256 % 256 ^ n := by
      refine ih fun j lt => ?_
      rw [Nat.div_div_eq_div_mul, ← Nat.pow_succ', ← h (j + 1) (by omega)]
      congr 1
      omega
    have first := h 0 (by omega)
    rw [Nat.add_zero, Nat.pow_zero, Nat.div_one] at first
    rw [Memory.readNat, rest, first, BitVec.toNat_ofNat]
    exact ((congrArg (x % ·) Nat.pow_succ').trans Nat.mod_mul).symm

theorem Memory.readNat_congr {m m' : Memory} {n : Nat} {a : Nat} (h : ∀ d, a ≤ d → d < a + n → m'.byte d = m.byte d) :
    m'.readNat a n = m.readNat a n := by
  induction n generalizing a with
  | zero => rfl
  | succ n ih =>
    rw [Memory.readNat, Memory.readNat, h a (by omega) (by omega), ih fun d lo hi => h d (by omega) (by omega)]

theorem Memory.read_write {m : Memory} (wf : m.wf = true) (a : Nat) (v : PWord) : (m.write a 8 v).read a 8 = v := by
  have value : (m.write a 8 v).readNat a 8 = v.val.toNat := by
    rw [Memory.readNat_of_bytes (x := v.val.toNat)]
    · exact Nat.mod_eq_of_lt v.val.isLt
    · intro j lt
      rw [Memory.byte_write wf, if_pos (by omega), Nat.add_sub_cancel_left]
  rw [Memory.read, value, Memory.bad_write wf, if_pos rfl, BitVec.ofNat_toNat, BitVec.setWidth_eq]
  simp

theorem Memory.read_write_other {m : Memory} (wf : m.wf = true) {a b : Nat} (v : PWord) (ha : a % 8 = 0) (hb : b % 8 = 0) (ne : b ≠ a) :
    (m.write a 8 v).read b 8 = m.read b 8 := by
  rw [Memory.read, Memory.bad_write wf, if_neg (by omega), Memory.readNat_congr (m := m)]
  · rfl
  · intro d lo hi
    rw [Memory.byte_write wf, if_neg (by omega)]

/-- A core with another local store. -/
def Core.withLs (k : Core) (m : Memory) : Core := { k with ls := m }

@[simp] theorem ctx_withLs (k : Core) (m : Memory) (n : CtxId) : (k.withLs m).ctx n = k.ctx n := rfl

/-! ### Words stored one behind the other (R111, R115) -/

/-- Words stored upward from an address. -/
def Memory.writeWords (m : Memory) (a : Nat) : List PWord → Memory
  | [] => m
  | v :: r => (m.write a 8 v).writeWords (a + 8) r

theorem Memory.writeWords_wf {m : Memory} (wf : m.wf = true) (a : Nat) (l : List PWord) : (m.writeWords a l).wf = true := by
  induction l generalizing m a with
  | nil => exact wf
  | cons v r ih => exact ih (Memory.write_wf wf ..) _

theorem Memory.byte_writeWords {m : Memory} (wf : m.wf = true) {a d : Nat} {l : List PWord} (out : d < a ∨ a + 8 * l.length ≤ d) :
    (m.writeWords a l).byte d = m.byte d := by
  induction l generalizing m a with
  | nil => rfl
  | cons v r ih =>
    rw [List.length_cons] at out
    rw [Memory.writeWords, ih (Memory.write_wf wf ..) (by omega), Memory.byte_write wf, if_neg (by omega)]

theorem Memory.read_writeWords_below {m : Memory} (wf : m.wf = true) {a b : Nat} (l : List PWord) (ha : a % 8 = 0) (hb : b % 8 = 0)
    (lt : b < a) : (m.writeWords a l).read b 8 = m.read b 8 := by
  induction l generalizing m a with
  | nil => rfl
  | cons v r ih =>
    rw [Memory.writeWords, ih (Memory.write_wf wf ..) (by omega) (by omega), Memory.read_write_other wf v ha hb (by omega)]

theorem Memory.read_writeWords {m : Memory} (wf : m.wf = true) {a : Nat} {l : List PWord} (ha : a % 8 = 0) {i : Nat} (lt : i < l.length) :
    (m.writeWords a l).read (a + 8 * i) 8 = l[i] := by
  induction l generalizing m a i with
  | nil => exact absurd lt (Nat.not_lt_zero i)
  | cons v r ih =>
    rw [Memory.writeWords]
    match i with
    | 0 => exact (Memory.read_writeWords_below (Memory.write_wf wf ..) r (by omega) ha (by omega)).trans (Memory.read_write wf ..)
    | i + 1 =>
      have rest := ih (Memory.write_wf wf a 8 v) (a := a + 8) (by omega) (i := i) (by simpa using lt)
      rw [show a + 8 * (i + 1) = a + 8 + 8 * i by omega]
      exact rest

theorem Memory.foldl_zipIdx_write (l : List PWord) (m : Memory) (a k : Nat) :
    (l.zipIdx k).foldl (fun (m : Memory) e => m.write (a + 8 * e.2) 8 e.1) m = m.writeWords (a + 8 * k) l := by
  induction l generalizing m k with
  | nil => rfl
  | cons v r ih =>
    rw [List.zipIdx_cons, List.foldl_cons, ih, Memory.writeWords]
    rfl

/-! ### The registers that a retire keeps (R131, R231) -/

/-- The context waits for nothing, and is another one moved. -/
def State.idleWith (c : CoreId) (n : CtxId) (x : Ctx) (s : State) : Prop := (s.ctx c n).wait = none ∧ x.Moved (s.ctx c n)

section
variable {c : CoreId} {n : CtxId} {x : Ctx} {s : State}

theorem idleWith_of_other {t : State} (h : s.idleWith c n x) (same : t.ctx c n = s.ctx c n) : t.idleWith c n x := by
  rwa [State.idleWith, same]

theorem giveLanes_idleWith (h : s.idleWith c n x) (q : LaneClaim) : (s.giveLanes q).1.idleWith c n x := by
  by_cases here : c = q.core ∧ n = q.ctx
  · obtain ⟨rfl, rfl⟩ := here
    obtain ⟨wait, moved⟩ := h
    unfold State.giveLanes
    dsimp only
    split
    · next claim => exact absurd (wait.symm.trans claim) (by simp)
    · rw [State.idleWith, State.ctx_setCtx]
      exact ⟨rfl, moved.trans ⟨_, _, _, _, _, _, _, _, _, rfl⟩⟩
  · exact idleWith_of_other h ((giveLanes_step s q).ctx c n here)

theorem renegotiate_idleWith (h : s.idleWith c n x) (d : CoreId) (m : CtxId) : (s.renegotiate d m).idleWith c n x := by
  by_cases here : c = d ∧ n = m
  · obtain ⟨rfl, rfl⟩ := here
    obtain ⟨wait, moved⟩ := h
    unfold State.renegotiate
    dsimp only
    rw [State.idleWith, State.ctx_setCtx]
    exact ⟨wait, moved.trans ⟨_, _, _, _, _, _, _, _, _, rfl⟩⟩
  · exact idleWith_of_other h ((renegotiate_step s d m).ctx c n here)

theorem headGranted_idleWith (h : s.idleWith c n x) (o : Nat) (q : LaneClaim) (rest : List LaneClaim) :
    (s.headGranted o q rest).idleWith c n x := by
  have granted := giveLanes_idleWith (s := s.setOctet o { s.octet o with laneQ := rest }) h q
  unfold State.headGranted
  dsimp only
  split
  · exact renegotiate_idleWith granted ..
  · exact granted

theorem settleLanes_idleWith (k o : Nat) (h : s.idleWith c n x) : (s.settleLanes k o).idleWith c n x := by
  induction k generalizing s with
  | zero => exact h
  | succ k ih =>
    unfold State.settleLanes
    split
    · exact h
    · next q rest _ =>
      split
      · exact ih (headGranted_idleWith h o q rest)
      · exact h

/-- A retire moves its context, and gives it lanes at most: it waits for nothing by then. -/
theorem retireAt_idleWith (s : State) (c : CoreId) (n : CtxId) (f : Flow) : (s.retireAt c n f).idleWith c n (s.ctx c n) := by
  have moved : (s.advance c n f).1.idleWith c n (s.ctx c n) := ⟨advance_wait .., advance_moved ..⟩
  rcases retireAt_cases s c n f with eq | eq
  · rwa [eq]
  · rw [eq]
    exact settleLanes_idleWith _ _ (renegotiate_idleWith moved ..)

end

theorem retire_idle (s : State) : s.me.Moved s.retire.me := by
  have moved := (retireAt_idleWith s s.cur.core s.cur.ctx .seq).2
  rwa [State.me, State.me, State.retire, retireAt_cur]

end Sys2Proof.Machine
end

section
/-! PROOFS (O18, O33). The record of a context as the model builds it is that of the statements (R111, R113, R115). -/

namespace Sys2Proof.Machine

/-! ### Fields of a word -/

/-- A word joined from a low part and a field above it. -/
theorem ofNat_or_shift {lo k : Nat} (small : lo < 2 ^ k) (hi : Nat) :
    BitVec.ofNat 64 lo ||| (BitVec.ofNat 64 hi <<< k) = BitVec.ofNat 64 (lo + 2 ^ k * hi) := by
  have shift : BitVec.ofNat 64 hi <<< k = BitVec.ofNat 64 (2 ^ k * hi) := by
    refine BitVec.eq_of_toNat_eq ?_
    rw [BitVec.toNat_shiftLeft, BitVec.toNat_ofNat, BitVec.toNat_ofNat, Nat.shiftLeft_eq, Nat.mul_comm, Nat.mul_mod_mod]
  rw [shift, ← BitVec.ofNat_or, Nat.or_comm, ← Nat.two_pow_add_eq_or_of_lt small, Nat.add_comm]

/-- The low bits of a word that a mask keeps. -/
theorem and_lowMask (v : Word) (k : Nat) (small : k < 64) : v &&& BitVec.ofNat 64 (2 ^ k - 1) = BitVec.ofNat 64 (v.toNat % 2 ^ k) := by
  refine BitVec.eq_of_toNat_eq ?_
  have bound : 2 ^ k < 2 ^ 64 := Nat.pow_lt_pow_right (by omega) small
  have pos : 0 < 2 ^ k := Nat.two_pow_pos k
  rw [BitVec.toNat_and, BitVec.toNat_ofNat, BitVec.toNat_ofNat, Nat.mod_eq_of_lt (a := 2 ^ k - 1) (by omega), Nat.and_two_pow_sub_one_eq_mod,
    Nat.mod_eq_of_lt (a := v.toNat % 2 ^ k)]
  exact (Nat.mod_lt _ pos).trans bound

/-- Predicates gathered bit by bit. -/
theorem foldl_bits_eq (f : Nat → Bool) {n : Nat} (small : n ≤ 64) :
    (List.range n).foldl (fun (a : Word) i => if f i then a ||| bitAt i else a) 0 = BitVec.ofNat 64 (bitSum f n) := by
  have bound : ∀ i ∈ List.range n, id i < 64 := fun i mem => (List.mem_range.1 mem).trans_le small
  refine BitVec.eq_of_getLsbD_eq fun j lt => ?_
  have fold := getLsbD_foldl_bits f id (List.range n) bound 0 j
  dsimp only [id_eq] at fold
  rw [fold, BitVec.getLsbD_ofNat, testBit_bitSum, decide_eq_true lt, Bool.true_and, Bool.eq_iff_iff]
  simp

/-! ### MISC and the loops (R113) -/

/-- The predicates of a context as MISC has them. -/
def Ctx.predBit (x : Ctx) (i : Nat) : Bool := (x.p.toList.getD (i + 1) ⟨false, false⟩).val

theorem bitAt_flag (b : Bool) (k : Nat) : (if b then bitAt k else 0) = BitVec.ofNat 64 (if b then 1 else 0) <<< k := by
  cases b with
  | false => simp
  | true => rfl

theorem misc_eq (x : Ctx) : x.misc = BitVec.ofNat 64 (bitSum x.predBit 7 + 2 ^ 8 * x.tr.priv.toNat + 2 ^ 10 * x.tr.ppriv.toNat +
    2 ^ 16 * (x.nmode.toNat % 16) + 2 ^ 20 * (x.nflags.toNat % 256) + 2 ^ 28 * (x.ien.toNat % 8) + 2 ^ 32 * (x.ipend.toNat % 8) +
    2 ^ 36 * (x.evpend.toNat % 64) + 2 ^ 42 * (if x.tr.pkab then 1 else 0)) := by
  have preds : bitSum x.predBit 7 < 2 ^ 7 := bitSum_lt ..
  have priv := x.tr.priv.isLt
  have ppriv := x.tr.ppriv.isLt
  have masked (v : Word) (k : Nat) := Nat.mod_lt v.toNat (Nat.two_pow_pos k)
  have nmode := masked x.nmode 4
  have nflags := masked x.nflags 8
  have ien := masked x.ien 3
  have ipend := masked x.ipend 3
  have evpend := masked x.evpend 6
  have field4 : x.nmode &&& 0xF = BitVec.ofNat 64 (x.nmode.toNat % 16) := and_lowMask _ 4 (by decide)
  have field8 : x.nflags &&& 0xFF = BitVec.ofNat 64 (x.nflags.toNat % 256) := and_lowMask _ 8 (by decide)
  have field3 (v : Word) : v &&& 7 = BitVec.ofNat 64 (v.toNat % 8) := and_lowMask _ 3 (by decide)
  have field6 : x.evpend &&& 0x3F = BitVec.ofNat 64 (x.evpend.toNat % 64) := and_lowMask _ 6 (by decide)
  rw [Ctx.misc, bitAt_flag, ← BitVec.ofNat_toNat, ← BitVec.ofNat_toNat, field4, field8, field3, field3, field6]
  change (List.range 7).foldl (fun (a : Word) i => if x.predBit i then a ||| bitAt i else a) 0 ||| _ ||| _ ||| _ ||| _ ||| _ ||| _ ||| _ ||| _ = _
  rw [foldl_bits_eq _ (by decide), ofNat_or_shift (by omega), ofNat_or_shift (by omega), ofNat_or_shift (by omega), ofNat_or_shift (by omega),
    ofNat_or_shift (by omega), ofNat_or_shift (by omega), ofNat_or_shift (by omega), ofNat_or_shift (by omega)]

theorem misc_eq_miscWord (s : State) (c : CoreId) (n : CtxId) :
    Ctx.misc { s.ctx c n with ipend := s.ipendOf c n } = Spec.miscWord (s.now c) (s.ctx c n) := by
  have ipend : s.ipendOf c n = (s.ctx c n).ipend |||
      (if (s.ctx c n).alarm ≠ 0 ∧ 0 ≤ (s.now c - (s.ctx c n).alarm).toInt then 1 else 0) := by
    simp [State.ipendOf, State.alarmOn, ahead]
  have flag (b : Bool) : 2 ^ 42 * (if b then 1 else 0) = if b then 2 ^ 42 else 0 := by cases b <;> rfl
  rw [misc_eq, ipend, flag]
  rfl

theorem loopLow_eq (l : Loop) :
    (l.ls &&& addrMask) ||| (l.lc <<< 48) = BitVec.ofNat 64 (l.ls.toNat % 2 ^ 48 + l.lc.toNat % 2 ^ 16 * 2 ^ 48) := by
  have count : l.lc <<< 48 = BitVec.ofNat 64 (l.lc.toNat % 2 ^ 16) <<< 48 := by
    refine BitVec.eq_of_toNat_eq ?_
    simp only [BitVec.toNat_shiftLeft, BitVec.toNat_ofNat, Nat.shiftLeft_eq]
    omega
  have small : l.ls.toNat % 2 ^ 48 < 2 ^ 48 := Nat.mod_lt _ (by decide)
  rw [count, Nat.mul_comm (_ % 2 ^ 16), ← ofNat_or_shift small, ← and_lowMask _ 48 (by decide)]
  rfl

theorem loopHigh_eq (l : Loop) : (l.le &&& addrMask) ||| ((l.lc >>> 16) <<< 48) =
    BitVec.ofNat 64 (l.le.toNat % 2 ^ 48 + l.lc.toNat / 2 ^ 16 % 2 ^ 16 * 2 ^ 48) := by
  have count : (l.lc >>> 16).toNat = l.lc.toNat / 2 ^ 16 := by rw [BitVec.toNat_ushiftRight, Nat.shiftRight_eq_div_pow]
  have field := loopLow_eq ⟨l.lc >>> 16, l.le, 0⟩
  rwa [count] at field

/-! ### The record (R115) -/

theorem toList_three {α : Type} (v : Vector α 3) : v.toList = [v[0], v[1], v[2]] :=
  List.ext_getElem (by simp) fun i lt _ => by
    match i with
    | 0 | 1 | 2 => rfl
    | i + 3 => simp at lt

theorem length_slotImage (x : Ctx) : x.slotImage.length = 23 := by simp [Ctx.slotImage]

theorem getD_slotImage (x : Ctx) {i : Nat} (lt : i < 23) : x.slotImage.getD i PWord.zero =
    if i < 15 then x.g.toList.getD (i + 1) PWord.zero else x.e.toList.getD (i - 15) PWord.zero := by
  have g : (x.g.toList.drop 1).length = 15 := by simp
  rw [Ctx.slotImage]
  split
  · next low => rw [List.getD_append _ _ _ _ (by omega)]; simp [List.getD]
  · next high => rw [List.getD_append_right _ _ _ _ (by omega), g]

theorem slotImage_recordWord (s : State) (c : CoreId) (n : CtxId) {i : Nat} (lt : i < 23) :
    (s.ctx c n).slotImage.getD i PWord.zero = Spec.recordWord s c n i := by
  rw [getD_slotImage _ lt, Spec.recordWord]
  simp only [lt, if_true]

theorem length_control13 (s : State) (c : CoreId) (n : CtxId) : (s.control13 c n).length = 13 := rfl

theorem length_ctxRecord (s : State) (c : CoreId) (n : CtxId) : (s.ctxRecord c n).length = 36 := by
  rw [State.ctxRecord, List.length_append, length_slotImage, List.length_map, length_control13]

theorem control13_eq (s : State) (c : CoreId) (n : CtxId) {p : Word} {a b : Option Word} (triple : s.triple c n = (p, a, b)) :
    s.control13 c n = [p, Spec.saved p a, Spec.saved (Spec.saved p a) b] ++
      (s.ctx c n).loops.toList.flatMap (fun l => [BitVec.ofNat 64 (l.ls.toNat % 2 ^ 48 + l.lc.toNat % 2 ^ 16 * 2 ^ 48),
        BitVec.ofNat 64 (l.le.toNat % 2 ^ 48 + l.lc.toNat / 2 ^ 16 % 2 ^ 16 * 2 ^ 48)]) ++
      [Spec.miscWord (s.now c) (s.ctx c n), (s.ctx c n).tr.tcause, (s.ctx c n).tr.tval, (s.ctx c n).alarm] := by
  have saved : s.savedTriple c n = (p, Spec.saved p a, Spec.saved (Spec.saved p a) b) := by
    rw [State.savedTriple, triple]
    rfl
  rw [State.control13, saved, misc_eq_miscWord, toList_three]
  simp only [loopLow_eq, loopHigh_eq, List.flatMap_cons, List.flatMap_nil, List.cons_append, List.nil_append, List.append_nil]

theorem ctxRecord_recordWord (s : State) (c : CoreId) (n : CtxId) {i : Nat} (lt : i < 36) :
    (s.ctxRecord c n)[i]'(by rwa [length_ctxRecord]) = Spec.recordWord s c n i := by
  have slots := length_slotImage (s.ctx c n)
  have known : (s.ctxRecord c n)[i]'(by rwa [length_ctxRecord]) = (s.ctxRecord c n).getD i PWord.zero := by
    rw [List.getD_eq_getElem]
  rw [known, State.ctxRecord]
  by_cases slot : i < 23
  · rw [List.getD_append _ _ _ _ (by omega), slotImage_recordWord s c n slot]
  · have word : i - 23 < (s.control13 c n).length := by
      rw [length_control13]
      omega
    rcases triple : s.triple c n with ⟨p, a, b⟩
    have control := control13_eq s c n triple
    rw [List.getD_append_right _ _ _ _ (by omega), slots, List.getD_eq_getElem _ _ (by simpa using word), List.getElem_map, Spec.recordWord,
      triple]
    simp only [show ¬ i < 15 by omega, slot, if_false]
    rw [← control, List.getD_eq_getElem _ _ word]
    rfl

end Sys2Proof.Machine
end

section
/-! PROOFS (O18). CTXSAVE and CTXLOAD of a record in the own local store: the checks, the places, and the words one by one (R113, R115). -/

namespace Sys2Proof.Machine

/-! ### The places of a record (R115) -/

/-- The places of words that stand one behind the other in a local store. -/
def recordPlaces (c : CoreId) (off : Nat) : Nat → List Place
  | 0 => []
  | n + 1 => .ls c off :: recordPlaces c (off + 8) n

theorem mem_recordPlaces {c : CoreId} {n off : Nat} {p : Place} (h : p ∈ recordPlaces c off n) : ∃ o, p = .ls c o := by
  induction n generalizing off with
  | zero => exact absurd h List.not_mem_nil
  | succ n ih =>
    rcases List.mem_cons.1 h with rfl | h
    · exact ⟨off, rfl⟩
    · exact ih h

theorem withPlaces_ownLs {s : State} (sup : s.priv = 1) (a : Acc) {n off : Nat} (aligned : off % 8 = 0) (inside : off + 8 * n ≤ 8192)
    (k : List Place → Res) :
    withPlaces a s n (BitVec.ofNat 64 (Spec.lsBase + off)) k = k (recordPlaces s.cur.core off n) := by
  induction n generalizing off k with
  | zero => rfl
  | succ n ih =>
    have own : Spec.ownLs s (BitVec.ofNat 64 (Spec.lsBase + off)) 8 off :=
      ⟨rfl, by omega, by omega, fun user => absurd (sup.symm.trans user) (by decide)⟩
    have next : BitVec.ofNat 64 (Spec.lsBase + off) + 8 = BitVec.ofNat 64 (Spec.lsBase + (off + 8)) := by
      rw [← Nat.add_assoc, BitVec.ofNat_add (_ + _)]
      rfl
    rw [withPlaces, reach_ownLs own (by decide)]
    dsimp only [storeFate]
    rw [next, ih (by omega) (by omega)]
    rfl

section
variable {s : State} (quiet : Spec.quiet s)
include quiet

theorem blocked_recordPlaces (off n : Nat) (stores : Bool) : s.blocked (recordPlaces s.cur.core off n) stores = false := by
  have idle : ∀ p ∈ recordPlaces s.cur.core off n, (s.bankBusy s.cur.core p || s.mark s.cur.core p 8 == .held ||
      s.mustWait s.cur.core s.cur.ctx s.seq p stores || (!stores && s.loadWaits s.cur.core p 8)) = false := by
    intro p mem
    obtain ⟨o, rfl⟩ := mem_recordPlaces mem
    rw [mark_quiet quiet, mustWait_quiet quiet]
    simp [State.bankBusy, State.loadWaits]
  rw [State.blocked, acquiring_quiet quiet, Bool.false_or]
  exact Bool.eq_false_iff.2 (any_idle idle)

/-- The words of a record in the own local store are read as they stand there, and nothing changes. -/
theorem loadWords_recordPlaces (off n : Nat) : s.loadWords (recordPlaces s.cur.core off n) =
    ((List.range n).map fun i => s.myCore.ls.read (off + 8 * i) 8, s) := by
  induction n generalizing off with
  | zero => rfl
  | succ n ih =>
    have rest := ih (off + 8)
    have shift : ((List.range n).map fun i => s.myCore.ls.read (off + 8 + 8 * i) 8) =
        ((List.range n).map Nat.succ).map fun i => s.myCore.ls.read (off + 8 * i) 8 := by
      rw [List.map_map]
      refine List.map_congr_left fun i _ => ?_
      rw [Function.comp, show off + 8 * (i.succ) = off + 8 + 8 * i by omega]
    rw [List.range_succ_eq_map, List.map_cons, ← shift, recordPlaces, State.loadWords, mark_quiet quiet]
    dsimp only [State.fifoBank, State.serve]
    rw [if_neg (by decide), rest]
    rfl

end

/-! ### The words of a record stored (R115, R189) -/

/-- Words stored one behind the other in a local store: that local store alone changes. -/
theorem storeWords_recordPlaces {l : List PWord} {s : State} {off : Nat} (inside : off + 8 * l.length ≤ 0x1FE8) :
    ∃ t, s.storeWords ((recordPlaces s.cur.core off l.length).zip l) = some t ∧ t.cur = s.cur ∧ t.hbm = s.hbm ∧
      t.core s.cur.core = (s.core s.cur.core).withLs ((s.core s.cur.core).ls.writeWords off l) ∧
      ∀ c, c ≠ s.cur.core → t.core c = s.core c := by
  induction l generalizing s off with
  | nil => exact ⟨s, rfl, rfl, rfl, rfl, fun _ _ => rfl⟩
  | cons v r ih =>
    rw [List.length_cons] at inside
    have low : lsWrite s.myCore.ls off 8 v = s.myCore.ls.write off 8 v := if_pos (by omega)
    have word : s.storeWord (.ls s.cur.core off) v = some (s.modMyCore (·.withLs (s.myCore.ls.write off 8 v))) := by
      rw [← low]
      exact congrArg some (portWrite_ls s off 8 v)
    obtain ⟨t, stored, cur, hbm, mine, others⟩ :=
      ih (s := (s.modMyCore (·.withLs (s.myCore.ls.write off 8 v))).nextSeq) (off := off + 8) (by omega)
    refine ⟨t, ?_, cur, hbm, ?_, fun c ne => ?_⟩
    · change (s.storeWord (.ls s.cur.core off) v).bind _ = _
      rw [word]
      exact stored
    · have first : (s.modMyCore (·.withLs (s.myCore.ls.write off 8 v))).nextSeq.core s.cur.core =
          (s.core s.cur.core).withLs (s.myCore.ls.write off 8 v) :=
        core_modCore s s.cur.core (·.withLs (s.myCore.ls.write off 8 v))
      refine mine.trans ?_
      change Core.withLs (State.core (State.nextSeq _) s.cur.core) (Memory.writeWords (State.core (State.nextSeq _) s.cur.core).ls _ _) = _
      rw [first]
      rfl
    · exact (others c ne).trans (core_modCore_other s (·.withLs (s.myCore.ls.write off 8 v)) ne)

/-! ### The checks of both instructions (R98, R115) -/

theorem withRecord_checked {i : Instr} {d : Reg} {n : BitVec 4} {okSt : CtxState → Bool} {s : State} {m : CtxId} {off : Nat}
    (sup : s.priv = 1) (number : m.val = n.toNat) (other : m ≠ s.cur.ctx) (ok : okSt (s.myCore.ctx m).st = true)
    (value : s.gReg d = ⟨BitVec.ofNat 64 (Spec.lsBase + off), false⟩) (aligned : off % 64 = 0) (k : CtxId → Word → Res) :
    withRecord i d n okSt s k = k m (BitVec.ofNat 64 (Spec.lsBase + off)) := by
  have named : (Fin.ofNat 11 n.toNat : CtxId) = m := Fin.ext ((congrArg (· % 11) number.symm).trans (Nat.mod_eq_of_lt m.isLt))
  have user : s.isUser = false := by rw [State.isUser, sup]; rfl
  have unit : ((BitVec.ofNat 64 (Spec.lsBase + off)).extractLsb' 0 6 != 0) = false := by
    rw [bne_eq_false_iff_eq]
    refine BitVec.eq_of_toNat_eq ?_
    rw [BitVec.extractLsb'_toNat, BitVec.toNat_ofNat, Spec.lsBase]
    simp
    omega
  rw [withRecord, user, if_neg Bool.false_ne_true, if_neg (by omega), named]
  dsimp only
  rw [ok, if_neg (by simp [other]), value, needClean_clean _ _ _ rfl, unit, if_neg Bool.false_ne_true]

theorem ctxsaveStores : Spec.ctxsaveStores := by
  intro s d n m off sup quiet number other stopped wf value aligned inside
  have len := length_ctxRecord s s.cur.core m
  obtain ⟨t, stored, cur, hbm, mine, others⟩ := storeWords_recordPlaces (l := s.ctxRecord s.cur.core m) (s := s) (off := off) (by omega)
  rw [len] at stored
  have run : exec (.ctxsave d n) s = .next t.retire := by
    change execCtxsave d n s = _
    rw [execCtxsave, withRecord_checked sup number other (by rw [stopped]; rfl) value aligned, withPlaces_ownLs sup _ (by omega) (by omega),
      portUsed_quiet quiet, blocked_recordPlaces quiet, stored]
    rfl
  have context : t.me = s.me := by
    rw [State.me, cur, State.ctx, mine]
    rfl
  obtain ⟨_, _, _, _, _, _, _, _, _, me⟩ := retire_idle t
  rw [context] at me
  refine ⟨_, run, fun i lt => ?_, fun a out => ?_, fun c ne => ?_, ?_, ?_, ?_⟩
  · rw [State.retire, retireAt_ls, mine, ← ctxRecord_recordWord s s.cur.core m lt]
    exact Memory.read_writeWords wf (by omega) _
  · rw [State.retire, retireAt_ls, mine]
    exact Memory.byte_writeWords wf (by omega)
  · rw [State.retire, retireAt_ls, others c ne]
  · rw [State.retire, retireAt_hbm, hbm]
  · rw [me]
  · rw [me]

/-! ### A record loaded (R115) -/

theorem getElem_foldl_set {α : Type} {n : Nat} (f : Fin n → α) (l : List (Fin n)) (v : Vector α n) (j : Fin n) :
    (l.foldl (fun v i => v.set i (f i)) v)[j] = if j ∈ l then f j else v[j] := by
  induction l generalizing v with
  | nil => simp
  | cons i l ih =>
    rw [List.foldl_cons, ih]
    by_cases later : j ∈ l
    · rw [if_pos later, if_pos (List.mem_cons_of_mem i later)]
    · by_cases here : j = i
      · subst here
        simp [later]
      · have ne : i.val ≠ j.val := fun h => here (Fin.ext h.symm)
        rw [if_neg later, if_neg (by simp [here, later])]
        exact Vector.getElem_set_ne i.isLt j.isLt ne

section
variable (x : Ctx) (mgmt : Bool) (k : Nat) (w : List PWord) (run : Bool)

theorem loaded_getG {r : Reg} (ne : r ≠ 0) : (x.loaded mgmt k w run).getG r = w.getD (r.val - 1) PWord.zero := by
  have listed : r ∈ (List.finRange 16).drop 1 := by
    revert r
    decide
  rw [Ctx.getG, if_neg ne]
  exact (getElem_foldl_set (fun i : Fin 16 => w.getD (i.val - 1) PWord.zero) _ _ r).trans (if_pos listed)

theorem loaded_getE (r : EReg) : (x.loaded mgmt k w run).getE r = w.getD (15 + r.val) PWord.zero :=
  (getElem_foldl_set (fun i : Fin 8 => w.getD (15 + i.val) PWord.zero) _ _ r).trans (if_pos (List.mem_finRange r))

end

/-- The words of a record. -/
theorem record_getD (f : Nat → PWord) {i : Nat} (lt : i < 36) : ((List.range 36).map f).getD i PWord.zero = f i := by
  rw [List.getD_eq_getElem _ _ (by simpa using lt), List.getElem_map, List.getElem_range]

theorem control_getD (f : Nat → PWord) {i : Nat} (lt : i < 13) :
    ((((List.range 36).map f).drop 23).map (·.val)).getD i 0 = (f (23 + i)).val := by
  rw [List.getD_eq_getElem _ _ (by simpa using lt)]
  simp

/-- A core with a context loaded, as CTXLOAD leaves it. -/
def Core.loadedAt (k : Core) (m : CtxId) (x : Ctx) : Core := { k.setCtx m x with poolQ := k.poolQ.filter fun q => q.1 != m }

theorem ctxloadLoads : Spec.ctxloadLoads := by
  intro s d run n m off sup quiet claims number other okSt value aligned inside w
  obtain ⟨lanes, pool⟩ := claims
  obtain ⟨x, hx⟩ : ∃ x, x = (s.myCore.ctx m).loaded (s.cur.core == mgmtCore) s.fresh ((List.range 36).map w) run := ⟨_, rfl⟩
  obtain ⟨u, hu⟩ : ∃ u, u = (s.modMyCore fun k => k.loadedAt m x).nextFresh := ⟨_, rfl⟩
  have mine : u.core s.cur.core = (s.core s.cur.core).loadedAt m x := by rw [hu]; exact core_modCore s _ (·.loadedAt m x)
  have others : ∀ c, c ≠ s.cur.core → u.core c = s.core c := fun c ne => by rw [hu]; exact core_modCore_other s (·.loadedAt m x) ne
  have noPool : u.settlePool 11 s.cur.core = u := by
    have none_ : (u.core s.cur.core).poolQ = [] := by
      rw [mine]
      change ((s.core s.cur.core).poolQ.filter _) = []
      rw [show (s.core s.cur.core).poolQ = [] from pool]
      rfl
    rw [State.settlePool, none_]
  have cur : u.cur = s.cur := by rw [hu]; rfl
  obtain ⟨t, run, curT, cores, hbm, empty⟩ : ∃ t : State, exec (.ctxload d run n) s = .next t.retire ∧ t.cur = s.cur ∧ t.cores = u.cores ∧
      t.hbm = s.hbm ∧ (t.octet (octetOf s.cur.core)).laneQ = [] := by
    have run : exec (.ctxload d run n) s = done (if s.cur.core == mgmtCore then u else
        (u.setOctet (octetOf s.cur.core) { u.octet (octetOf s.cur.core) with
          laneQ := (u.octet (octetOf s.cur.core)).laneQ.filter fun q => !(q.core == s.cur.core && q.ctx == m) }).settleLanes 88
            (octetOf s.cur.core)) := by
      change execCtxload d run n s = _
      rw [execCtxload, withRecord_checked sup number other (by rcases okSt with st | st <;> rw [st] <;> rfl) value aligned,
        withPlaces_ownLs sup _ (by omega) (by omega), blocked_recordPlaces quiet, if_neg Bool.false_ne_true, loadWords_recordPlaces quiet]
      rw [hx] at hu
      rw [hu] at noPool ⊢
      exact congrArg (fun v : State => done (if s.cur.core == mgmtCore then v else
        (v.setOctet (octetOf s.cur.core) { v.octet (octetOf s.cur.core) with
          laneQ := (v.octet (octetOf s.cur.core)).laneQ.filter fun q => !(q.core == s.cur.core && q.ctx == m) }).settleLanes 88
            (octetOf s.cur.core))) noPool
    have noLanes : (u.octet (octetOf s.cur.core)).laneQ = [] := by rw [hu]; exact lanes _
    rw [run, noLanes, List.filter_nil]
    by_cases mgmt : s.cur.core = mgmtCore
    · exact ⟨u, by rw [if_pos (by simp [mgmt])]; rfl, cur, rfl, by rw [hu]; rfl, noLanes⟩
    · refine ⟨u.setOctet (octetOf s.cur.core) { u.octet (octetOf s.cur.core) with laneQ := [] }, ?_, cur, rfl, by rw [hu]; rfl, ?_⟩
      · rw [if_neg (by simp [mgmt]), settleLanes_empty (by rw [octet_setOctet])]
        rfl
      · rw [octet_setOctet]
  have core : ∀ c, t.core c = u.core c := fun c => by rw [State.core, State.core, cores]
  have apart : m ≠ t.cur.ctx := by
    rw [curT]
    exact other
  obtain ⟨y, retired, -, -, -⟩ := retire_noClaims (s := t) (by rw [curT]; exact empty)
  have loaded : t.retire.ctx s.cur.core m = x := by
    rw [retired, State.setMe, State.ctx_setCtx_other _ _ (.inr apart), State.ctx, core, mine]
    exact ctx_setCtx ..
  have word (i : Nat) (lt : i < 36) := record_getD w lt
  have control (i : Nat) (lt : i < 13) := control_getD w lt
  refine ⟨_, run, ?_⟩
  rw [loaded, hx]
  refine ⟨fun r ne => ?_, fun r => ?_, ?_, ?_, ?_, rfl, rfl, fun c => ?_, ?_⟩
  · rw [loaded_getG _ _ _ _ _ ne, word _ (by omega)]
  · rw [loaded_getE, word _ (by omega)]
  · exact congrArg (· &&& ~~~1#64) (control 0 (by decide))
  · exact congrArg unmark (control 1 (by decide))
  · exact congrArg unmark (control 2 (by decide))
  · rw [State.retire, retireAt_ls, core]
    by_cases here : c = s.cur.core
    · subst here
      rw [mine]
      rfl
    · rw [others c here]
  · rw [State.retire, retireAt_hbm, hbm]

/-- Settles O18: a record in the own local store is stored and loaded word by word. -/
theorem contextRecords : Obligations.ContextRecords := ⟨ctxsaveStores, ctxloadLoads⟩

end Sys2Proof.Machine
end

section
/-! PROOFS (O33). A retire sees of a core its contexts, its task and its local store alone: what else changes there changes no context at a
retire (R131, R139, R229 to R231). -/

namespace Sys2Proof.Machine

/-! ### The head of a lane queue (R230) -/

theorem settleLanes_head {s : State} {o : Nat} {q : LaneClaim} {rest : List LaneClaim} (queue : (s.octet o).laneQ = q :: rest)
    (free : 4 ≤ s.laneFree o) {k : Nat} : s.settleLanes (k + 1) o = (s.headGranted o q rest).settleLanes k o := by
  rw [State.settleLanes, queue]
  exact if_pos free

theorem settleLanes_held {s : State} {o : Nat} {q : LaneClaim} {rest : List LaneClaim} (queue : (s.octet o).laneQ = q :: rest)
    (full : ¬ 4 ≤ s.laneFree o) {k : Nat} : s.settleLanes (k + 1) o = s := by
  rw [State.settleLanes, queue]
  exact if_neg full

/-! ### States that differ in the work of their cores -/

/-- `t` differs from `s` in what the cores have to do, and in nothing else. -/
def sameButWork (s t : State) : Prop := (∃ cs, t = { s with cores := cs }) ∧ ∀ d, ∃ w, t.core d = { s.core d with work := w }

section
variable {s t : State} (h : sameButWork s t)
include h

theorem sameButWork_ctx (d : CoreId) (m : CtxId) : t.ctx d m = s.ctx d m := by
  obtain ⟨w, core⟩ := h.2 d
  rw [State.ctx, core]
  rfl

theorem sameButWork_bind (d : CoreId) : (t.core d).bind = (s.core d).bind := by
  obtain ⟨w, core⟩ := h.2 d
  rw [core]

theorem sameButWork_ls (d : CoreId) : (t.core d).ls = (s.core d).ls := by
  obtain ⟨w, core⟩ := h.2 d
  rw [core]

/-- What fetch finds (R33 to R36). -/
theorem sameButWork_seqOf (c : CoreId) (va : Word) : t.seqOf c va = s.seqOf c va := by
  have bind := sameButWork_bind h
  have ls := sameButWork_ls h
  obtain ⟨cs, rfl⟩ := h.1
  have word : ∀ p a, { s with cores := cs }.tableWord p a = s.tableWord p a := fun _ _ => rfl
  have self : ∀ p, { s with cores := cs }.isSelf p = s.isSelf p := fun _ => rfl
  have inside : ∀ t p, { s with cores := cs }.inPartition t p = s.inPartition t p := fun _ _ => rfl
  have walkFrom : ∀ t va levels p base, { s with cores := cs }.walkFrom t va p base levels = s.walkFrom t va p base levels := by
    intro t va levels
    induction levels with
    | nil => exact fun _ _ => rfl
    | cons shift rest ih => intro p base; simp only [State.walkFrom, word, self, inside, ih]
  have leaf : ∀ cl t va, { s with cores := cs }.leaf cl t va = s.leaf cl t va := by
    intro cl t va
    have walk : { s with cores := cs }.walk t va = s.walk t va := by
      unfold State.walk
      rw [walkFrom]
      rfl
    unfold State.leaf
    rw [walk]
    rfl
  have leafOn : ∀ d t va, { s with cores := cs }.leafOn d t va = s.leafOn d t va := by
    intro d t va
    have renamed : { s with cores := cs }.renamed d va = s.renamed d va := by
      unfold State.renamed
      rw [bind]
      rfl
    unfold State.leafOn
    rw [leaf, bind, renamed]
  have place : ∀ d va, { s with cores := cs }.fetchPlace d va = s.fetchPlace d va := by
    intro d va
    simp only [State.fetchPlace, leafOn, bind]
    rfl
  have half : ∀ p, { s with cores := cs }.fetchHalf p = s.fetchHalf p := by
    intro p
    cases p <;> simp only [State.fetchHalf, ls] <;> rfl
  have halves : ∀ p, { s with cores := cs }.halves c p = s.halves c p := by
    intro p
    unfold State.halves
    rw [half]
    rfl
  have peek : { s with cores := cs }.peekHalf c va = s.peekHalf c va := by
    simp only [State.peekHalf, place, halves]
  rw [State.seqOf, peek, State.seqOf]

theorem sameButWork_after (c : CoreId) (x : Ctx) : t.after c x = s.after c x := by
  rw [State.after, sameButWork_seqOf h, State.after]

theorem sameButWork_loopBack (c : CoreId) (next : Option Word) (x : Ctx) : t.loopBack c next x = s.loopBack c next x := by
  have seq : t.seqOf c = s.seqOf c := funext (sameButWork_seqOf h c)
  have level : ∀ y k, t.loopLevel c next y k = s.loopLevel c next y k := by
    intro y k
    unfold State.loopLevel State.atLoopEnd
    rw [seq]
  unfold State.loopBack
  simp only [level]

theorem sameButWork_laneFree (o : Nat) : t.laneFree o = s.laneFree o := by
  have held : ∀ d, (t.core d).lanesHeld = (s.core d).lanesHeld := by
    intro d
    obtain ⟨w, core⟩ := h.2 d
    rw [core]
    rfl
  unfold State.laneFree
  simp only [held]

theorem sameButWork_octet (o : Nat) : t.octet o = s.octet o := by
  obtain ⟨cs, rfl⟩ := h.1
  rfl

theorem sameButWork_setCtx (c : CoreId) (n : CtxId) (x : Ctx) : sameButWork (s.setCtx c n x) (t.setCtx c n x) := by
  refine ⟨?_, fun d => ?_⟩
  · obtain ⟨cs, rfl⟩ := h.1
    exact ⟨_, rfl⟩
  · obtain ⟨w, core⟩ := h.2 d
    refine ⟨w, ?_⟩
    by_cases here : d = c
    · subst here
      rw [State.setCtx, State.setCtx, core_setCore, core_setCore, core]
      rfl
    · rw [State.setCtx, State.setCtx, core_setCore_other _ _ here, core_setCore_other _ _ here, core]

theorem sameButWork_setOctet (o : Nat) (k : Octet) : sameButWork (s.setOctet o k) (t.setOctet o k) := by
  refine ⟨?_, h.2⟩
  obtain ⟨cs, rfl⟩ := h.1
  exact ⟨cs, rfl⟩

/-! ### The steps of a retire -/

theorem sameButWork_advance (c : CoreId) (n : CtxId) (f : Flow) :
    sameButWork (s.advance c n f).1 (t.advance c n f).1 ∧ (t.advance c n f).2 = (s.advance c n f).2 := by
  have move : t.move c n f = s.move c n f := by
    unfold State.move
    dsimp only
    rw [sameButWork_ctx h, sameButWork_after h]
  unfold State.advance
  dsimp only
  simp only [move, sameButWork_ctx h, sameButWork_after h, sameButWork_loopBack h]
  exact ⟨sameButWork_setCtx h .., trivial⟩

theorem sameButWork_renegotiate (c : CoreId) (n : CtxId) : sameButWork (s.renegotiate c n) (t.renegotiate c n) := by
  unfold State.renegotiate
  dsimp only
  simp only [sameButWork_ctx h, sameButWork_octet h, sameButWork_laneFree h]
  exact sameButWork_setCtx h ..

theorem sameButWork_giveLanes (q : LaneClaim) :
    sameButWork (s.giveLanes q).1 (t.giveLanes q).1 ∧ (t.giveLanes q).2 = (s.giveLanes q).2 := by
  unfold State.giveLanes
  dsimp only
  rw [sameButWork_ctx h, sameButWork_laneFree h]
  split
  · exact sameButWork_advance (sameButWork_setCtx h ..) ..
  · exact ⟨sameButWork_setCtx h .., rfl⟩

theorem sameButWork_headGranted (o : Nat) (q : LaneClaim) (rest : List LaneClaim) :
    sameButWork (s.headGranted o q rest) (t.headGranted o q rest) := by
  unfold State.headGranted
  dsimp only
  rw [sameButWork_octet h]
  obtain ⟨given, again⟩ := sameButWork_giveLanes (sameButWork_setOctet h o { s.octet o with laneQ := rest }) q
  rw [again]
  split
  · exact sameButWork_renegotiate given ..
  · exact given

theorem sameButWork_settleLanes (k o : Nat) : sameButWork (s.settleLanes k o) (t.settleLanes k o) := by
  induction k generalizing s t with
  | zero => exact h
  | succ k ih =>
    have queues := congrArg Octet.laneQ (sameButWork_octet h o)
    have free := sameButWork_laneFree h o
    match queue : (s.octet o).laneQ with
    | [] =>
      rw [settleLanes_empty queue, settleLanes_empty (queues.trans queue)]
      exact h
    | q :: rest =>
      by_cases some_ : 4 ≤ s.laneFree o
      · rw [settleLanes_head queue some_, settleLanes_head (queues.trans queue) (by rwa [free])]
        exact ih (sameButWork_headGranted h o q rest)
      · rw [settleLanes_held queue some_, settleLanes_held (queues.trans queue) (by rwa [free])]
        exact h

/-- States that differ in the work of their cores do so after a retire. -/
theorem sameButWork_retireAt (c : CoreId) (n : CtxId) (f : Flow) : sameButWork (s.retireAt c n f) (t.retireAt c n f) := by
  obtain ⟨advanced, point⟩ := sameButWork_advance h c n f
  unfold State.retireAt
  dsimp only
  rw [point]
  split
  · exact sameButWork_settleLanes (sameButWork_renegotiate advanced ..) ..
  · exact advanced

theorem sameButWork_retire : sameButWork s.retire t.retire := by
  have cur : t.cur = s.cur := by
    obtain ⟨cs, rfl⟩ := h.1
    rfl
  rw [State.retire, State.retire, cur]
  exact sameButWork_retireAt h ..

end

/-- A core whose work changes. -/
theorem sameButWork_modCore (s : State) (c : CoreId) (f : CoreWork → CoreWork) :
    sameButWork s (s.modCore c fun k => { k with work := f k.work }) := by
  refine ⟨⟨_, rfl⟩, fun d => ?_⟩
  by_cases here : d = c
  · subst here
    exact ⟨_, core_modCore ..⟩
  · exact ⟨(s.core d).work, core_modCore_other _ _ here⟩

end Sys2Proof.Machine
end

section
/-! PROOFS (O33). Waits that end (R93, R95, R96, R124, R162, R212, R274, R296, R299). -/

namespace Sys2Proof.Machine

/-! ### The waiting context executes its instruction -/

theorem clocked_paused {s : State} {c : CoreId} (h : Spec.clocked s c) : s.paused c = false := by
  rcases h with below | rfl
  · rw [State.paused, State.braked, decide_eq_false (by omega), Bool.false_and]
  · simp [State.paused]

section
variable {s : State} {i : Instr} (h : Spec.inside s i)
include h

theorem wakeEvent_inside {run : Instr → Option (Bool × (State → Res))} {ok : Bool} {k : State → Res} (known : run i = some (ok, k))
    (over_ : ok = true) : wakeEvent s run = k (Spec.woken s) := by
  obtain ⟨waiting, wait, clock⟩ := h
  rw [wakeEvent, wait]
  dsimp only
  rw [known]
  exact if_pos (by rw [waiting, clocked_paused clock, over_]; rfl)

theorem wakeEvent_notYet {run : Instr → Option (Bool × (State → Res))} {ok : Bool} {k : State → Res} (known : run i = some (ok, k))
    (early : ok = false) : wakeEvent s run = .refused .eventDisabled := by
  obtain ⟨-, wait, -⟩ := h
  rw [wakeEvent, wait]
  dsimp only
  rw [known]
  exact if_neg (by simp [early])

end

/-! ### What the waiting context reads -/

theorem woken_me (s : State) : (Spec.woken s).me = { s.ctx s.ev.core s.ev.ctx with st := .ready, wait := none } :=
  me_setMe _ _

theorem woken_gReg (s : State) (r : Reg) : (Spec.woken s).gReg r = (s.ctx s.ev.core s.ev.ctx).getG r := by
  rw [State.gReg, woken_me]
  rfl

theorem woken_eReg (s : State) (e : EReg) : (Spec.woken s).eReg e = (s.ctx s.ev.core s.ev.ctx).getE e := by
  rw [State.eReg, woken_me]
  rfl

theorem woken_myCore (s : State) : (Spec.woken s).myCore =
    (s.core s.ev.core).setCtx s.ev.ctx { s.ctx s.ev.core s.ev.ctx with st := .ready, wait := none } := core_setCore ..

/-- A core job whose every entry of a number is finished (R274). -/
theorem jobOver_of_done {k : Core} {n : BitVec 16} (h : ∀ j ∈ k.jobs, j.no = n → j.done = true) : k.jobOver n = true := by
  have none_ : k.jobs.find? (fun q => q.no == n && !q.done) = none := by
    rw [List.find?_eq_none]
    intro q mem open_
    simp only [Bool.and_eq_true, beq_iff_eq, Bool.not_eq_true'] at open_
    rw [h q mem open_.1] at open_
    exact Bool.noConfusion open_.2
  have entry : ∀ q, k.jobEntry n = some q → q.done = true := by
    intro q found
    rw [Core.jobEntry, none_] at found
    exact h q (List.mem_reverse.1 (List.mem_of_find?_eq_some found)) (by simpa using List.find?_some found)
  rw [Core.jobOver]
  cases found : k.jobEntry n with
  | none => simp
  | some q => simp [entry q found]

theorem timeline_counter (s : State) (c : TLCounter) : s.myCore.timeline c = Spec.counter s c := by cases c <;> rfl

/-! ### Each wait (R93, R95, R96, R124, R162, R212, R274, R296, R299) -/

section
variable {s : State} {i : Instr} {d a : Reg}

theorem sleepExpire_ends (inside : Spec.inside s (.sleep d)) :
    (((s.ctx s.ev.core s.ev.ctx).due - s.time).toInt ≤ 0 → exec .sleepExpire s = .next (Spec.woken s).retire) ∧
    (0 < ((s.ctx s.ev.core s.ev.ctx).due - s.time).toInt → exec .sleepExpire s = .refused .eventDisabled) := by
  refine ⟨fun passed => wakeEvent_inside inside (k := done) rfl ?_, fun early => wakeEvent_notYet inside (k := done) rfl ?_⟩
  · rw [laterThan, ahead, decide_eq_false (by omega)]
    rfl
  · rw [laterThan, ahead, decide_eq_true early]
    rfl

/-- A HINT is over: its alignment is forgotten, and it retires. -/
def releaseAlign (s : State) : Res :=
  done (s.modMyCore fun k => { k with work := { k.work with aligns := k.work.aligns.filter fun h => h.ctx != s.cur.ctx } })

/-- The alignment that a HINT notes is no part of what its retire sees. -/
theorem releaseAlign_retires (s : State) : ∃ t, releaseAlign s = .next t ∧ t.me = s.retire.me := by
  obtain ⟨u, hu⟩ : ∃ u, u = s.modMyCore fun k =>
    { k with work := { k.work with aligns := k.work.aligns.filter fun h => h.ctx != s.cur.ctx } } := ⟨_, rfl⟩
  have same : sameButWork s u := by
    rw [hu]
    exact sameButWork_modCore s s.cur.core fun w => { w with aligns := w.aligns.filter fun h => h.ctx != s.cur.ctx }
  have cur : u.cur = s.cur := by rw [hu]; rfl
  refine ⟨u.retire, by rw [hu]; rfl, ?_⟩
  rw [State.me, State.me, sameButWork_ctx (sameButWork_retire same), State.retire, State.retire, retireAt_cur, retireAt_cur, cur]

theorem hintAlignRelease_ends {m : BitVec 16} {b : BitVec 4} (inside : Spec.inside s (.hint m b)) :
    ∃ t, exec .hintAlignRelease s = .next t ∧ t.me = (Spec.woken s).retire.me := by
  obtain ⟨t, run, me⟩ := releaseAlign_retires (Spec.woken s)
  exact ⟨t, (wakeEvent_inside inside (k := releaseAlign) rfl rfl).trans run, me⟩

theorem joinComplete_ends {n : CtxId} (size : i = .join a ∨ i = .joinS a) (inside : Spec.inside s i) (zero : s.ev.ctx = 0) (ne : n ≠ 0)
    (names : (Spec.woken s).gReg a = ⟨BitVec.ofNat 64 n.val, false⟩)
    (over_ : ((Spec.woken s).myCore.ctx n).st = .free ∨ ((Spec.woken s).myCore.ctx n).st = .ended) :
    exec .joinComplete s = joinVia i a (Spec.woken s) := by
  have other : n ≠ s.ev.ctx := zero ▸ ne
  have number : (Fin.ofNat 11 (s.waitG a).toNat : CtxId) = n := by
    have value : s.waitG a = BitVec.ofNat 64 n.val := congrArg PWord.val ((woken_gReg s a).symm.trans names)
    rw [value, BitVec.toNat_ofNat]
    exact Fin.ext (by simp; omega)
  have ended : s.ended (s.waitG a) = true := by
    rw [woken_myCore, ctx_setCtx_other _ _ other] at over_
    rw [State.ended, number]
    rcases over_ with st | st <;> rw [st] <;> rfl
  rcases size with rfl | rfl
  · exact wakeEvent_inside inside rfl ended
  · exact wakeEvent_inside inside rfl ended

theorem waitevWake_ends {mask : BitVec 6} (inside : Spec.inside s (.waitev d mask)) (clean : ((Spec.woken s).gReg d).poison = false)
    (event : (Spec.woken s).me.evpend &&& BitVec.ofNat 64 mask.toNat ≠ 0) : exec .waitevWake s = .next (((Spec.woken s).setMe
      { (Spec.woken s).me with evpend := (Spec.woken s).me.evpend &&& ~~~((Spec.woken s).me.evpend &&& BitVec.ofNat 64 mask.toNat) }).setG d
        ⟨(Spec.woken s).me.evpend &&& BitVec.ofNat 64 mask.toNat, false⟩).retire := by
  have latched : ((s.ctx s.ev.core s.ev.ctx).evpend &&& mask.setWidth 64 != 0) = true := by
    rw [woken_me, BitVec.ofNat_toNat] at event
    simpa using event
  have run : exec .waitevWake s = execWaitev d mask (Spec.woken s) := wakeEvent_inside inside rfl latched
  rw [run, execWaitev, needClean_clean _ _ _ clean]
  dsimp only
  rw [← BitVec.ofNat_toNat, if_neg event]
  rfl

theorem twaituWake_ends {e : EReg} {isAbs : Bool} (inside : Spec.inside s (.twaitu e isAbs))
    (clean : ((Spec.woken s).eReg e).poison = false) (reached : 0 ≤ ((Spec.woken s).myNow -
      (if isAbs then ((Spec.woken s).eReg e).val else ((Spec.woken s).eReg e).val + (Spec.woken s).myCore.bind.tbase)).toInt) :
    exec .twaituWake s = .next (Spec.woken s).retire := by
  have now : (Spec.woken s).myNow = s.now s.ev.core := by
    change (if (Spec.woken s).myCore.lead then _ else _) = _
    rw [woken_myCore]
    rfl
  have run : exec .twaituWake s = execTwaitu e isAbs (Spec.woken s) := by
    rw [now, woken_myCore, woken_eReg] at reached
    exact wakeEvent_inside inside rfl (decide_eq_true reached)
  rw [run, execTwaitu, needE, clean]
  exact if_pos reached

theorem tlwaitWake_ends {c : TLCounter} (size : i = .tlwait a c ∨ i = .tlwaitS a c) (inside : Spec.inside s i)
    (clean : ((Spec.woken s).gReg a).poison = false) (le : ((Spec.woken s).gReg a).val.toNat ≤ (Spec.counter (Spec.woken s) c).cnt.toNat) :
    exec .tlwaitWake s = .next (Spec.woken s).retire := by
  rw [← timeline_counter] at le
  have reached : decide (s.waitG a ≤ ((s.core s.ev.core).timeline c).cnt) = true := by
    rw [woken_gReg, woken_myCore] at le
    refine decide_eq_true ?_
    cases c <;> exact le
  have run : exec .tlwaitWake s = tlwaitVia i a c (Spec.woken s) := by
    rcases size with rfl | rfl
    · exact wakeEvent_inside inside rfl reached
    · exact wakeEvent_inside inside rfl reached
  rw [run, tlwaitVia, needClean_clean _ _ _ clean]
  exact if_pos le

theorem mjwaitWake_ends (size : i = .mjwait a ∨ i = .mjwaitS a) (inside : Spec.inside s i)
    (clean : ((Spec.woken s).gReg a).poison = false)
    (finished : ∀ j ∈ (Spec.woken s).myCore.jobs, j.no = ((Spec.woken s).gReg a).val.extractLsb' 0 16 → j.done = true) :
    exec .mjwaitWake s = .next (Spec.woken s).retire := by
  have over_ := jobOver_of_done finished
  have here : (s.core s.ev.core).jobOver ((s.waitG a).extractLsb' 0 16) = true := by
    rw [woken_gReg, woken_myCore] at over_
    exact over_
  have run : exec .mjwaitWake s = mjwaitVia i a (Spec.woken s) := by
    rcases size with rfl | rfl
    · exact wakeEvent_inside inside rfl here
    · exact wakeEvent_inside inside rfl here
  rw [run, mjwaitVia, needClean_clean _ _ _ clean]
  exact if_pos over_

/-- The tags that the waiting context finds. -/
theorem woken_ready (s : State) : Spec.ready (Spec.woken s) = (s.core s.ev.core).readyTags := by
  rw [Spec.ready, woken_myCore]
  rfl

theorem twanyWake_ends (inside : Spec.inside s (.twany d a)) (clean : ((Spec.woken s).gReg a).poison = false)
    (some_ : Spec.ready (Spec.woken s) &&& ((Spec.woken s).gReg a).val ≠ 0) : exec .twanyWake s =
      .next ((Spec.woken s).setG d ⟨Spec.ready (Spec.woken s) &&& ((Spec.woken s).gReg a).val, false⟩).retire := by
  have reached : ((s.core s.ev.core).readyTags &&& s.waitG a != 0) = true := by
    rw [woken_ready, woken_gReg] at some_
    simpa [State.waitG] using some_
  have run : exec .twanyWake s = execTwany d a (Spec.woken s) := wakeEvent_inside inside rfl reached
  rw [run, execTwany, needClean_clean _ _ _ clean]
  exact if_pos (by simpa using .inl some_)

theorem twallWake_ends (inside : Spec.inside s (.twall d a)) (clean : ((Spec.woken s).gReg a).poison = false)
    (all_ : Spec.ready (Spec.woken s) &&& ((Spec.woken s).gReg a).val = ((Spec.woken s).gReg a).val) : exec .twallWake s =
      .next ((Spec.woken s).setG d ⟨(Spec.woken s).myCore.tagerr &&& ((Spec.woken s).gReg a).val, false⟩).retire := by
  have reached : ((s.core s.ev.core).readyTags &&& s.waitG a == s.waitG a) = true := by
    rw [woken_ready, woken_gReg] at all_
    simpa [State.waitG] using all_
  have run : exec .twallWake s = execTwall d a (Spec.woken s) := wakeEvent_inside inside rfl reached
  rw [run, execTwall, needClean_clean _ _ _ clean]
  exact if_pos all_

theorem aflushComplete_ends (inside : Spec.inside s .aflush) (merges : (Spec.woken s).myCluster.merges = []) :
    exec .aflushComplete s = .next (Spec.woken s).retire := by
  have none_ : s.mergesOut (clusterOf s.ev.core) (posOf s.ev.core) = false := by
    rw [State.mergesOut]
    change (Spec.woken s).myCluster.merges.any _ = false
    rw [merges]
    rfl
  exact wakeEvent_inside inside (k := done) rfl (by rw [none_]; rfl)

end

theorem waitsEnd : Spec.waitsEnd := by
  intro s d a e isAbs c mask m b
  refine ⟨sleepExpire_ends, hintAlignRelease_ends, fun i size inside zero n ne names => ⟨fun free => ?_, fun ended claims => ?_⟩,
    waitevWake_ends, twaituWake_ends, fun clean => ⟨fun i size inside le => tlwaitWake_ends size inside clean le,
      fun i size inside finished => mjwaitWake_ends size inside clean finished, fun inside some_ => twanyWake_ends inside clean some_,
      fun inside all_ => twallWake_ends inside clean all_⟩, aflushComplete_ends⟩
  · rw [joinComplete_ends size inside zero ne names (.inl free), joinVia_helper zero ne names]
    exact if_pos free
  · obtain ⟨freed, flags, g, -, -⟩ := reap_retires (s := Spec.woken s) zero ne claims
    refine ⟨_, ?_, freed, flags, g⟩
    rw [joinComplete_ends size inside zero ne names (.inr ended), joinVia_helper zero ne names]
    exact (if_neg (by simp [ended])).trans (if_pos ended)

/-! ### Interrupts (R104, R416) -/

theorem lowBit_eq {m : Word} {n i : Nat} (lt : i < n) (lowest : Spec.lowestBit m i) : lowBit m n = some i := by
  obtain ⟨here, below⟩ := lowest
  rw [lowBit, List.find?_range_eq_some]
  exact ⟨here, by simpa using lt, fun j lt => by simpa using below j lt⟩

theorem cInt_eq {i : Nat} (small : i < 2 ^ 63) : cInt i = BitVec.ofNat 64 (2 ^ 63 + i) := by
  have join := Nat.two_pow_add_eq_or_of_lt small 1
  rw [Nat.mul_one] at join
  rw [join, BitVec.ofNat_or]
  rfl

theorem alarmOn_iff (s : State) (c : CoreId) (x : Ctx) : s.alarmOn c x = true ↔ Spec.alarmed s c x := by
  simp [State.alarmOn, Spec.alarmed, ahead]

theorem interruptTake_traps {s : State} {ip : Word} {i : Nat}
    (reached : Spec.alarmed s s.ev.core (s.ctx s.ev.core s.ev.ctx) → ip = (s.ctx s.ev.core s.ev.ctx).ipend ||| 1)
    (early : ¬ Spec.alarmed s s.ev.core (s.ctx s.ev.core s.ev.ctx) → ip = (s.ctx s.ev.core s.ev.ctx).ipend)
    (brake : s.spine.brake < 3) (compute : s.ev.core ≠ mgmtCore) (ready : (s.ctx s.ev.core s.ev.ctx).st = .ready)
    (user : (s.ctx s.ev.core s.ev.ctx).tr.priv = 0) (packet : (s.ctx s.ev.core s.ev.ctx).packet = none)
    (stop : (s.core s.ev.core).stop = none) (lt : i < 3) (lowest : Spec.lowestBit ((s.ctx s.ev.core s.ev.ctx).ien &&& ip) i) :
    exec .interruptTake s = .next (s.takeTrap s.ev.core s.ev.ctx (cInt i) (s.intValue s.ev.core s.ev.ctx i)) := by
  have pending : s.ipendOf s.ev.core s.ev.ctx = ip := by
    rw [State.ipendOf]
    by_cases alarm : Spec.alarmed s s.ev.core (s.ctx s.ev.core s.ev.ctx)
    · rw [reached alarm, if_pos ((alarmOn_iff ..).2 alarm)]
    · rw [early alarm, if_neg (mt (alarmOn_iff ..).1 alarm)]
      exact BitVec.or_zero
  have enabled : (!s.paused s.ev.core && s.ev.core != mgmtCore && (s.ctx s.ev.core s.ev.ctx).st == .ready &&
      (s.ctx s.ev.core s.ev.ctx).tr.priv == 0 && (s.ctx s.ev.core s.ev.ctx).packet.isNone &&
      !(s.core s.ev.core).mustStop s.ev.ctx) = true := by
    rw [clocked_paused (.inl brake), ready, user, packet, Core.mustStop, stop]
    simpa using compute
  change execInterruptTake s = _
  rw [execInterruptTake, pending, lowBit_eq lt lowest]
  exact (congrArg (guardEvent · _) enabled).trans (guardEvent_true _)

theorem mgmtInterruptTake_enters {s : State} {i : Nat} (ready : (s.ctx mgmtCore s.ev.ctx).st = .ready)
    (packet : (s.ctx mgmtCore s.ev.ctx).packet = none) (mie : s.mgmt.mie = true) (alive : s.mgmt.dead = false) (lt : i < 5)
    (lowest : Spec.lowestBit (s.mgmt.mien &&& s.mipend (s.ctx mgmtCore s.ev.ctx)) i) :
    exec .mgmtInterruptTake s = .next ({ s with mgmt := { s.mgmt with halted := false } }.machineEntry s.ev.ctx (cInt i) 0) := by
  change execMgmtInterruptTake s = _
  rw [execMgmtInterruptTake]
  dsimp only
  rw [lowBit_eq lt lowest, ready, packet, mie, alive]
  rfl

/-- What an entry into machine mode leaves (R416). -/
theorem machineEntry_enters (s : State) (n : CtxId) (cause value : Word) :
    (s.machineEntry n cause value).mgmt.halted = s.mgmt.halted ∧ (s.machineEntry n cause value).mgmt.mcause = cause ∧
      (s.machineEntry n cause value).mgmt.mie = false ∧ (s.machineEntry n cause value).mgmt.mpp = (s.ctx mgmtCore n).tr.priv ∧
      (s.machineEntry n cause value).mgmt.mxpc0 = (s.ctx mgmtCore n).pc ∧
      ((s.machineEntry n cause value).ctx mgmtCore n).tr.priv = 3 ∧
      ((s.machineEntry n cause value).ctx mgmtCore n).pc = s.mgmt.mvec &&& ~~~1#64 ∧
      Spec.keeps (s.ctx mgmtCore n) ((s.machineEntry n cause value).ctx mgmtCore n) := by
  rcases triple : s.triple mgmtCore n with ⟨p, a, b⟩
  have pc : p = (s.ctx mgmtCore n).pc := (congrArg Prod.fst triple).symm
  have here : ∀ x m, ({ s.setCtx mgmtCore n x with mgmt := m } : State).ctx mgmtCore n = x := fun x _ => State.ctx_setCtx s ..
  rw [machineEntry_eq triple, here]
  exact ⟨rfl, rfl, rfl, rfl, pc, rfl, rfl, rfl, rfl, rfl, rfl, rfl, rfl, rfl, rfl, rfl, rfl, rfl, rfl, rfl, rfl⟩

theorem interruptsTaken : Spec.interruptsTaken := by
  intro s i
  refine ⟨fun ip reached early brake compute ready user packet stop lt lowest => ?_, fun ready packet mie alive lt lowest => ?_,
    fun alarm clear => ?_⟩
  · rw [interruptTake_traps reached early brake compute ready user packet stop lt lowest, cInt_eq (by omega)]
    have value : s.intValue s.ev.core s.ev.ctx 2 =
        BitVec.ofNat 64 ((s.ctx s.ev.core s.ev.ctx).tstat.toNat / 2 ^ 32 % 2 ^ 16) := by
      refine BitVec.eq_of_toNat_eq ?_
      simp [State.intValue, Nat.shiftRight_eq_div_pow]
    match i, lt with
    | 0, _ => rfl
    | 1, _ => rfl
    | 2, _ => rw [value]; rfl
  · refine ⟨_, mgmtInterruptTake_enters ready packet mie alive lt lowest, ?_⟩
    obtain ⟨halted, cause, rest⟩ := machineEntry_enters { s with mgmt := { s.mgmt with halted := false } } s.ev.ctx (cInt i) 0
    exact ⟨halted, cause.trans (cInt_eq (by omega)), rest⟩
  · change execAlarmReached s = _
    rw [execAlarmReached, (alarmOn_iff ..).2 alarm, clear]
    rfl

end Sys2Proof.Machine
end

section
/-! PROOFS (O33). Stops: the registers of a stopped context in its slot of the local store, and SAVEMAP (R108 to R112). -/

namespace Sys2Proof.Machine

/-! ### Bits of a memory -/

theorem testBit_readNat (m : Memory) (a n j : Nat) (lt : j < 8 * n) :
    (m.readNat a n).testBit j = (m.byte (a + j / 8)).getLsbD (j % 8) := by
  induction n generalizing a j with
  | zero => exact absurd lt (Nat.not_lt_zero j)
  | succ n ih =>
    have byte : (m.byte a).toNat < 2 ^ 8 := (m.byte a).isLt
    have join : m.readNat a (n + 1) = 2 ^ 8 * m.readNat (a + 1) n + (m.byte a).toNat := Nat.add_comm ..
    rw [join, Nat.testBit_two_pow_mul_add _ byte]
    by_cases low : j < 8
    · rw [if_pos low, Nat.div_eq_of_lt low, Nat.mod_eq_of_lt low]
      rfl
    · rw [if_neg low, ih _ _ (by omega), show a + 1 + (j - 8) / 8 = a + j / 8 by omega, show (j - 8) % 8 = j % 8 by omega]

/-! ### A slot saved (R111) -/

/-- The slot of a context in the local store. -/
def slotOf (n : CtxId) : Nat := 0x1800 + 184 * n.val

/-- The local store with the slot of a context written, before SAVEMAP. -/
def Core.slotWritten (k : Core) (n : CtxId) : Memory := k.ls.writeWords (slotOf n) (k.ctx n).slotImage

theorem saveSlot_eq (k : Core) (n : CtxId) : k.saveSlot n = (k.setCtx n { k.ctx n with unsaved := false }).withLs
    (lsWrite (k.slotWritten n) 0x1FE8 8 ⟨((k.slotWritten n).read 0x1FE8 8).val ||| bitAt n.val, false⟩) := by
  have slot : ((k.ctx n).slotImage.zipIdx).foldl (fun (m : Memory) e => m.write (0x1800 + 184 * n.val + 8 * e.2) 8 e.1) k.ls =
      k.slotWritten n := Memory.foldl_zipIdx_write ..
  rw [Core.saveSlot, slot]
  rfl

/-- A store to SAVEMAP. -/
theorem lsWrite_savemap (m : Memory) (v : PWord) : lsWrite m 0x1FE8 8 v = (m.write 0x1FE8 8 v).clearRes := by
  rw [lsWrite, if_neg (by decide)]

/-- The local store with a slot and its SAVEMAP bit written; the reserved bits read as zero. -/
theorem saveSlot_ls (k : Core) (n : CtxId) : (k.saveSlot n).ls =
    ((k.slotWritten n).write 0x1FE8 8 ⟨((k.slotWritten n).read 0x1FE8 8).val ||| bitAt n.val, false⟩).clearRes := by
  rw [saveSlot_eq, ← lsWrite_savemap]
  rfl

section
variable {k : Core} (wf : k.ls.wf = true) (n : CtxId)
include wf

/-- The words of the slot. -/
theorem read_saveSlot {i : Nat} (lt : i < 23) :
    (k.saveSlot n).ls.read (slotOf n + 8 * i) 8 = (k.ctx n).slotImage.getD i PWord.zero := by
  have len := length_slotImage (k.ctx n)
  have written : (k.slotWritten n).wf = true := Memory.writeWords_wf wf ..
  have slot : slotOf n + 8 * i + 8 ≤ 0x1FE8 ∧ slotOf n % 8 = 0 := by
    rw [slotOf]
    omega
  have word : (k.slotWritten n).read (slotOf n + 8 * i) 8 = (k.ctx n).slotImage.getD i PWord.zero := by
    rw [List.getD_eq_getElem _ _ (by omega)]
    exact Memory.read_writeWords wf slot.2 (by omega)
  rw [← word, saveSlot_ls]
  generalize k.slotWritten n = m at written
  generalize (⟨(m.read 0x1FE8 8).val ||| bitAt n.val, false⟩ : PWord) = v
  have kept := Memory.write_wf written 0x1FE8 8 v
  have bytes : ((m.write 0x1FE8 8 v).clearRes).readNat (slotOf n + 8 * i) 8 = m.readNat (slotOf n + 8 * i) 8 := by
    refine Memory.readNat_congr fun d lo hi => ?_
    rw [byte_clearRes kept, Memory.byte_write written, if_neg (by omega), Spec.lsKeeps, if_neg (by omega), if_neg (by omega)]
  have poison : ((m.write 0x1FE8 8 v).clearRes).bad (slotOf n + 8 * i) = m.bad (slotOf n + 8 * i) := by
    rw [bad_clearRes kept, if_neg (by omega), Memory.bad_write written, if_neg (by omega)]
  rw [Memory.read, bytes, poison, Memory.read]

/-- SAVEMAP. -/
theorem saveSlot_savemap : ((k.saveSlot n).ls.read 0x1FE8 8).val.getLsbD n.val = true := by
  have written : (k.slotWritten n).wf = true := Memory.writeWords_wf wf ..
  rw [saveSlot_ls]
  generalize k.slotWritten n = m at written
  have bit : ((m.read 0x1FE8 8).val ||| bitAt n.val).getLsbD n.val = true := by
    rw [BitVec.getLsbD_or, getLsbD_bitAt (by omega)]
    simp
  generalize (m.read 0x1FE8 8).val ||| bitAt n.val = v at bit
  have kept := Memory.write_wf written 0x1FE8 8 ⟨v, false⟩
  have byte : (BitVec.ofNat 8 (v.toNat / 256 ^ (n.val / 8))).getLsbD (n.val % 8) = true := by
    rw [BitVec.getLsbD_ofNat, show 256 ^ (n.val / 8) = 2 ^ (8 * (n.val / 8)) by rw [pow_mul]; rfl, Nat.testBit_div_two_pow, Nat.mod_add_div]
    rw [decide_eq_true (by omega), Bool.true_and]
    exact bit
  rw [Memory.read, BitVec.getLsbD_ofNat, decide_eq_true (by omega), Bool.true_and, testBit_readNat _ _ _ _ (by omega), byte_clearRes kept,
    Memory.byte_write written, if_pos (by omega), Nat.add_sub_cancel_left]
  unfold Spec.lsKeeps
  by_cases low : n.val < 8
  · rw [if_neg (by omega), if_neg (by omega)]
    exact byte
  · rw [if_pos (by omega), BitVec.getLsbD_and, byte]
    have : n.val % 8 = 0 ∨ n.val % 8 = 1 ∨ n.val % 8 = 2 := by omega
    rcases this with h | h | h <;> rw [h] <;> rfl

end

@[simp] theorem ctx_saveSlot (k : Core) (n : CtxId) : (k.saveSlot n).ctx n = { k.ctx n with unsaved := false } := by
  rw [saveSlot_eq, ctx_withLs, ctx_setCtx]

/-! ### A context stops (R108, R110, R235) -/

/-- What the stop of a context keeps until its slot is saved: its g and e registers, its core's local store, and the memory. -/
def keepsRegs (c : CoreId) (n : CtxId) (s t : State) : Prop :=
  (t.ctx c n).g = (s.ctx c n).g ∧ (t.ctx c n).e = (s.ctx c n).e ∧ (t.core c).ls = (s.core c).ls ∧ t.hbm = s.hbm

theorem keepsRegs_trans {c : CoreId} {n : CtxId} {s t u : State} (h : keepsRegs c n s t) (k : keepsRegs c n t u) : keepsRegs c n s u := by
  obtain ⟨hg, he, hls, hhbm⟩ := h
  obtain ⟨kg, ke, kls, khbm⟩ := k
  exact ⟨kg.trans hg, ke.trans he, kls.trans hls, khbm.trans hhbm⟩

theorem keepsRegs_setCtx {s : State} {c : CoreId} {n : CtxId} {y : Ctx} (g : y.g = (s.ctx c n).g) (e : y.e = (s.ctx c n).e) :
    keepsRegs c n s (s.setCtx c n y) := by
  refine ⟨?_, ?_, setCtx_core_ls s c n y c, rfl⟩
  · rw [State.ctx_setCtx, g]
  · rw [State.ctx_setCtx, e]

theorem keepsRegs_setOctet (s : State) (c : CoreId) (n : CtxId) (o : Nat) (k : Octet) : keepsRegs c n s (s.setOctet o k) :=
  ⟨rfl, rfl, rfl, rfl⟩

section
variable (s : State) (c : CoreId) (n : CtxId)

theorem keepsRegs_settleLanes {s : State} {k o : Nat} (none_ : ¬ s.claimsIn o c n) : keepsRegs c n s (s.settleLanes k o) := by
  have same : (s.settleLanes k o).ctx c n = s.ctx c n :=
    ((settleLanes_grants k s o).ctx c n).resolve_right fun claim => none_ claim.1
  have step := settleLanes_step k s o
  obtain ⟨cs, os, form⟩ := step.form
  refine ⟨by rw [same], by rw [same], step.coreField c Core.ls fun _ _ => rfl, ?_⟩
  rw [form]

theorem keepsRegs_stopLanes : keepsRegs c n s (s.stopLanes c n) := by
  unfold State.stopLanes
  dsimp only
  refine keepsRegs_trans ?_ (keepsRegs_settleLanes c n ?_)
  · exact keepsRegs_trans (keepsRegs_setCtx (y := { s.ctx c n with lanes := { (s.ctx c n).lanes with g := 0, kept := (s.ctx c n).lanes.g } })
      rfl rfl) (keepsRegs_setOctet ..)
  · rintro ⟨q, mem, rfl, rfl⟩
    rw [octet_setOctet] at mem
    simpa using (List.mem_filter.1 mem).2

end

/-- The state in which the slot of a stopping context is saved: all but the save itself has happened. -/
theorem stopOne_form {s : State} {c : CoreId} {n : CtxId} (ready : (s.ctx c n).st = .ready) :
    ∃ u, s.stopOne c n = (u.modCore c fun k => k.saveSlot n).leaveFifoBanks c (· == n) ∧ keepsRegs c n s u ∧ (u.ctx c n).st = .stopped := by
  have awake : s.endSleep c n = s := by rw [State.endSleep, ready]
  unfold State.stopOne
  rw [awake]
  dsimp only
  refine ⟨_, rfl, ?_⟩
  have lanes := keepsRegs_stopLanes s c n
  generalize s.stopLanes c n = s2 at lanes ⊢
  obtain ⟨s3, h3⟩ : ∃ s3, s3 = s2.modCore c fun k => (k.setCtx n { k.ctx n with st := .stopped, wait := none, yield := [] }).leaveUnits n :=
    ⟨_, rfl⟩
  have ctx3 : s3.ctx c n = { s2.ctx c n with st := .stopped, wait := none, yield := [] } := by
    rw [h3, ctx_modCore_at]
    exact ctx_setCtx ..
  have ls3 : (s3.core c).ls = (s2.core c).ls := by
    rw [h3, core_modCore]
    rfl
  have keeps3 : keepsRegs c n s s3 := keepsRegs_trans lanes ⟨by rw [ctx3], by rw [ctx3], ls3, by rw [h3]; rfl⟩
  rw [← h3]
  generalize (s.octet (octetOf c)).laneQ.find? (fun q => q.core == c && q.ctx == n) = found
  have later (q : LaneClaim) : keepsRegs c n s (s3.modCtx c n fun x => { x with lanes := { x.lanes with q := q.q, kept := q.saved } }) ∧
      ((s3.modCtx c n fun x => { x with lanes := { x.lanes with q := q.q, kept := q.saved } }).ctx c n).st = .stopped := by
    refine ⟨keepsRegs_trans keeps3 (keepsRegs_setCtx rfl rfl), ?_⟩
    rw [State.modCtx, State.ctx_setCtx, ctx3]
  have stopped3 : keepsRegs c n s s3 ∧ (s3.ctx c n).st = .stopped := ⟨keeps3, by rw [ctx3]⟩
  cases found with
  | none => exact stopped3
  | some q =>
    dsimp only
    by_cases kept : 0 < q.saved
    · rw [if_pos kept]
      exact later q
    · rw [if_neg kept]
      exact stopped3

/-- What stands once the slot of a context is saved. -/
theorem slotSaved {s u : State} {c : CoreId} {n : CtxId} (keeps : keepsRegs c n s u) (stopped : (u.ctx c n).st = .stopped)
    (wf : (s.core c).ls.wf = true) {t : State} (cores : t.cores = (u.modCore c fun k => k.saveSlot n).cores) (hbm : t.hbm = u.hbm) :
    (t.ctx c n).st = .stopped ∧ (t.ctx c n).g = (s.ctx c n).g ∧ (t.ctx c n).e = (s.ctx c n).e ∧
      (∀ i, i < 23 → (t.core c).ls.read (0x1800 + 184 * n.val + 8 * i) 8 = Spec.recordWord s c n i) ∧
      ((t.core c).ls.read 0x1FE8 8).val.getLsbD n.val = true ∧ t.hbm = s.hbm := by
  obtain ⟨g, e, ls, mem⟩ := keeps
  have core : t.core c = (u.core c).saveSlot n := by
    rw [State.core, cores]
    exact core_modCore u c fun k => k.saveSlot n
  have ctx : t.ctx c n = { u.ctx c n with unsaved := false } := by
    rw [State.ctx, core]
    exact ctx_saveSlot ..
  have image : ((u.core c).ctx n).slotImage = (s.ctx c n).slotImage := by
    change (u.ctx c n).slotImage = _
    rw [Ctx.slotImage, Ctx.slotImage, g, e]
  rw [← ls] at wf
  rw [core, ctx]
  refine ⟨stopped, g, e, fun i lt => ?_, saveSlot_savemap wf n, hbm.trans mem⟩
  exact (read_saveSlot wf n lt).trans (by rw [image, slotImage_recordWord s c n lt])

theorem contextsStop : Spec.contextsStop := by
  intro s
  dsimp only
  generalize hc : s.ev.core = c
  generalize hn : s.ev.ctx = n
  intro brake compute stops stopping wf
  change ∃ t, execContextStop s = _ ∧ _
  rw [execContextStop, hc, hn]
  rcases stops with ⟨ready, user, packet, pend, div, rcr⟩ | ⟨stopped, unsaved⟩
  · have free : (s.core c).inUnits n = false := by
      unfold Core.inUnits
      cases hd : (s.core c).work.div <;> cases hr : (s.core c).work.rcr <;> simp [div, rcr, hd, hr]
    have must : (s.core c).mustStop n = true := by
      rw [Core.mustStop, stopping]
      change ((s.ctx c n).tr.priv == 0 && (s.ctx c n).packet.isNone) = true
      rw [user, packet]
      rfl
    obtain ⟨u, form, keeps, st⟩ := stopOne_form ready
    obtain ⟨cl, left⟩ := leaveFifoBanks_form (u.modCore c fun k => k.saveSlot n) c (· == n)
    refine ⟨s.stopOne c n, ?_, slotSaved keeps st wf (by rw [form, left]) (by rw [form, left]; rfl)⟩
    rw [if_neg (by simp [ready]), clocked_paused (.inl brake), ready, must, pend, free, bne_iff_ne.2 compute]
    rfl
  · refine ⟨s.modCore c fun k => k.saveSlot n, ?_, slotSaved ⟨rfl, rfl, rfl, rfl⟩ stopped wf rfl rfl⟩
    rw [if_pos (by simp [stopped]), stopping, unsaved, bne_iff_ne.2 compute]
    rfl

/-- Settles O33: a waiting context goes on with its own instruction; interrupts and stops reach a context at its boundary. -/
theorem contextsGoOn : Obligations.ContextsGoOn := ⟨waitsEnd, interruptsTaken, contextsStop⟩

end Sys2Proof.Machine
end

section
/-! PROOFS (O31). Vector loads and stores of the own local store: their addresses, their places, and what is read and written (R248 to R250,
R298, R111). -/

namespace Sys2Proof.Machine

/-! ### Addresses of the own local store (R185, R248) -/

section
variable {s : State} {off : Nat → Nat} (compute : s.cur.core < mgmtCore) (own : Spec.vecOwn s off)

theorem lsAddr_toNat {o : Nat} (small : o < 8192) : (Spec.lsAddr o).toNat = Spec.lsBase + o := by
  rw [Spec.lsAddr, BitVec.toNat_ofNat, Nat.mod_eq_of_lt]
  rw [Spec.lsBase]
  omega

include compute own

theorem reachV_ownLs {k : Nat} (lt : k < s.me.lanes.vl) (a : Acc) : s.reachV a (Spec.lsAddr (off k)) = .place (.ls s.cur.core (off k)) := by
  obtain ⟨-, inside, user⟩ := own k lt
  have at_ := lsAddr_toNat (o := off k) (by omega)
  rw [Spec.lsBase] at at_
  have reachable : (s.isUser && decide (0xFFFFFFFFF800 ≤ (Spec.lsAddr (off k)).toNat)) = false := by
    by_cases mode : s.priv = 0
    · have low := user mode
      rw [decide_eq_false (by omega), Bool.and_false]
    · rw [State.isUser, beq_false_of_ne mode, Bool.false_and]
  have offset : (Spec.lsAddr (off k)).toNat - 0xFFFFFFFFE000 = off k := by omega
  rw [State.reachV, State.reachT, State.windowReach, if_neg (by omega), if_neg (by simpa using compute.ne), if_pos (by omega),
    if_pos (by omega), if_neg (by rw [reachable]; exact Bool.false_ne_true), offset]

/-- The addresses of an access to the own local store. -/
def ownAddrs (vl : Nat) (off : Nat → Nat) : List Word := (List.range vl).map fun k => Spec.lsAddr (off k)
/-- Its places. -/
def ownPlaces (c : CoreId) (vl : Nat) (off : Nat → Nat) : List Place := (List.range vl).map fun k => .ls c (off k)

omit compute in
theorem mem_ownAddrs {a : Word} (mem : a ∈ ownAddrs s.me.lanes.vl off) : a.toNat % 4 = 0 ∧ Spec.lsBase ≤ a.toNat ∧ a.toNat < Spec.lsBase + 8192 := by
  obtain ⟨k, lt, rfl⟩ := List.mem_map.1 mem
  obtain ⟨aligned, inside, -⟩ := own k (List.mem_range.1 lt)
  rw [lsAddr_toNat (by omega), Spec.lsBase]
  omega

omit own compute in
theorem cleanAddrs_some (l : List Word) : cleanAddrs (l.map some) = l := by
  rw [cleanAddrs, List.filterMap_map]
  exact List.filterMap_some

omit compute in
theorem wholeFault_own : wholeFault ((ownAddrs s.me.lanes.vl off).map some) = none := by
  have window : ∀ a ∈ ownAddrs s.me.lanes.vl off, windowOf a.toNat = some 1 := by
    intro a mem
    obtain ⟨-, lo, hi⟩ := mem_ownAddrs own mem
    rw [Spec.lsBase] at lo hi
    rw [windowOf, if_neg (by omega), if_pos (by simp; omega)]
  have aligned : (ownAddrs s.me.lanes.vl off).find? (fun a => a.toNat % 4 != 0) = none := by
    rw [List.find?_eq_none]
    intro a mem
    simp [(mem_ownAddrs own mem).1]
  unfold wholeFault
  rw [cleanAddrs_some]
  dsimp only
  rw [aligned]
  match h : ownAddrs s.me.lanes.vl off with
  | [] => rfl
  | a :: r =>
    rw [h] at window
    have first := window a List.mem_cons_self
    have all_ : (a :: r).all (fun b => windowOf b.toNat == some 1) = true :=
      List.all_eq_true.2 fun b mem => by rw [window b mem]; rfl
    dsimp only
    rw [first, all_]
    rfl

omit compute in
theorem touchAll_own : s.touchAll ((ownAddrs s.me.lanes.vl off).map some) = s := by
  have page : ∀ (a : Word), a ∈ (((cleanAddrs ((ownAddrs s.me.lanes.vl off).map some)).map fun (a : Word) => a >>> 12).reverse.eraseDups.reverse) →
      s.touch s.cur.core s.myCore.bind.tenant (a <<< 12) = s := by
    intro a mem
    rw [cleanAddrs_some, List.mem_reverse, List.mem_eraseDups, List.mem_reverse] at mem
    obtain ⟨b, listed, rfl⟩ := List.mem_map.1 mem
    obtain ⟨-, lo, hi⟩ := mem_ownAddrs own listed
    rw [Spec.lsBase] at lo hi
    have high : 0xFF0000000000 ≤ ((b >>> 12) <<< 12).toNat := by
      rw [BitVec.toNat_shiftLeft, BitVec.toNat_ushiftRight, Nat.shiftRight_eq_div_pow, Nat.shiftLeft_eq]
      omega
    rw [State.touch, if_neg (by simp; omega)]
  unfold State.touchAll
  generalize (((cleanAddrs ((ownAddrs s.me.lanes.vl off).map some)).map fun (a : Word) => a >>> 12).reverse.eraseDups.reverse) = l at page
  induction l with
  | nil => rfl
  | cons a r ih =>
    rw [List.foldl_cons, page a List.mem_cons_self]
    exact ih fun b mem => page b (List.mem_cons_of_mem a mem)

omit compute in
/-- The own local store is no FIFO bank (R201). -/
theorem ringOf_own (push : Bool) : s.ringOf push ((ownAddrs s.me.lanes.vl off).map some) = none := by
  unfold State.ringOf
  match h : ownAddrs s.me.lanes.vl off with
  | [] => rfl
  | a :: r =>
    obtain ⟨-, lo, -⟩ := mem_ownAddrs own (h ▸ List.mem_cons_self (a := a))
    rw [Spec.lsBase] at lo
    have out : decide (a.toNat - 0xFFFFFFF00000 < 0x10000) = false := decide_eq_false (by omega)
    rw [List.map_cons]
    dsimp only
    rw [out]
    simp

theorem loadPlaces_own (whole : Bool) : s.loadPlaces whole ((ownAddrs s.me.lanes.vl off).map some) =
    (ownPlaces s.cur.core s.me.lanes.vl off).map some := by
  have translated : ((ownAddrs s.me.lanes.vl off).map some).any
      (fun a => (a.map fun a : Word => decide (a.toNat < 0xFF0000000000)).getD false) = false := by
    rw [List.any_map, List.any_eq_false]
    intro a mem
    obtain ⟨-, lo, -⟩ := mem_ownAddrs own mem
    rw [Spec.lsBase] at lo
    simp
    omega
  unfold State.loadPlaces
  dsimp only
  rw [translated, Bool.and_false, Bool.false_and, if_neg Bool.false_ne_true, List.map_map, ownAddrs, ownPlaces, List.map_map, List.map_map]
  refine List.map_congr_left fun k mem => ?_
  simp only [Function.comp, Option.bind_some]
  rw [reachV_ownLs compute own (List.mem_range.1 mem)]

theorem storePlaces_own : s.storePlaces (ownAddrs s.me.lanes.vl off) = .inr (ownPlaces s.cur.core s.me.lanes.vl off) := by
  have each : ∀ l : List Nat, (∀ k ∈ l, k < s.me.lanes.vl) →
      s.storePlaces (l.map fun k => Spec.lsAddr (off k)) = .inr (l.map fun k => .ls s.cur.core (off k)) := by
    intro l
    induction l with
    | nil => exact fun _ => rfl
    | cons k r ih =>
      intro below
      rw [List.map_cons, State.storePlaces, reachV_ownLs compute own (below k List.mem_cons_self)]
      dsimp only
      rw [ih fun j mem => below j (List.mem_cons_of_mem k mem)]
      rfl
  exact each _ fun k mem => List.mem_range.1 mem

end

theorem mem_ownPlaces {c : CoreId} {vl : Nat} {off : Nat → Nat} {p : Place} (mem : p ∈ ownPlaces c vl off) : ∃ o, p = .ls c o := by
  obtain ⟨k, -, rfl⟩ := List.mem_map.1 mem
  exact ⟨_, rfl⟩

/-! ### Nothing holds the access (R195, R198, R339) -/

section
variable {s : State} (quiet : Spec.quiet s) (off : Nat → Nat)
include quiet

theorem ownPlaces_free (vl : Nat) (stores : Bool) : (ownPlaces s.cur.core vl off).any
    (fun p => s.mark s.cur.core p 4 == .held || s.mustWait s.cur.core s.cur.ctx s.seq p stores) = false := by
  refine Bool.eq_false_iff.2 (any_idle fun p _ => ?_)
  rw [mark_quiet quiet, mustWait_quiet quiet]
  rfl

omit quiet in
theorem ownPlaces_noBank (vl : Nat) : (ownPlaces s.cur.core vl off).any (s.bankBusy s.cur.core) = false := by
  refine Bool.eq_false_iff.2 (any_idle fun p mem => ?_)
  obtain ⟨o, rfl⟩ := mem_ownPlaces mem
  rfl

/-- The elements that a load of the own local store reads (R250). -/
def ownElems (m : Memory) (vl : Nat) (off : Nat → Nat) : List Elem :=
  (List.range vl).map fun k => ⟨BitVec.ofNat 32 (Spec.bytes m (off k) 4), m.bad (off k), 0⟩

theorem vload_own {i : Instr} {d : VRegN} {rs : List VRegN} {whole contig : Bool} (compute : s.cur.core < mgmtCore)
    (own : Spec.vecOwn s off) (lanes : Spec.lanesFor s rs) (some_ : 0 < s.me.lanes.vl) :
    vload i d rs whole contig ((ownAddrs s.me.lanes.vl off).map some) none s =
      putElems d (ownElems s.myCore.ls s.me.lanes.vl off) s.tlvNow := by
  have ring : (if contig then s.ringOf false ((ownAddrs s.me.lanes.vl off).map some) else none) = none := by
    rw [ringOf_own own]
    exact ite_self _
  have bare : ((ownPlaces s.cur.core s.me.lanes.vl off).map some).map s.notRing = (ownPlaces s.cur.core s.me.lanes.vl off).map some := by
    rw [List.map_map]
    refine List.map_congr_left fun p mem => ?_
    obtain ⟨o, rfl⟩ := mem_ownPlaces mem
    rfl
  have places : ((ownPlaces s.cur.core s.me.lanes.vl off).map some).filterMap id = ownPlaces s.cur.core s.me.lanes.vl off := by
    rw [List.filterMap_map]
    exact List.filterMap_some
  have here : (ownPlaces s.cur.core s.me.lanes.vl off).all s.isOwn = true := by
    refine List.all_eq_true.2 fun p mem => ?_
    obtain ⟨o, rfl⟩ := mem_ownPlaces mem
    simp [State.isOwn]
  have read : loadedElems (((ownPlaces s.cur.core s.me.lanes.vl off).map some).map fun p => p.bind fun p =>
      if s.mark s.cur.core p 4 == .frozen then none else some (s.serve s.cur.core p 4).1) = ownElems s.myCore.ls s.me.lanes.vl off := by
    rw [loadedElems, ownElems, ownPlaces, List.map_map, List.map_map, List.map_map]
    refine List.map_congr_left fun k _ => ?_
    simp only [Function.comp, Option.bind_some, mark_quiet quiet]
    rw [if_neg (by decide), bytes_eq_readNat]
    change (⟨BitVec.setWidth 32 (BitVec.ofNat 64 _), _, 0⟩ : Elem) = _
    rw [BitVec.setWidth_ofNat_of_le (by decide)]
    rfl
  rw [vload, onLanes_open lanes, if_neg (show ¬ s.vl = 0 from some_.ne'), wholeFault_own own, ring, loadPlaces_own compute own, touchAll_own own]
  dsimp only
  rw [if_neg (by simp), bare, loadElems, places, ownPlaces_free quiet, ownPlaces_noBank, acquiring_quiet quiet, loadsOut_quiet quiet]
  dsimp only
  rw [if_neg (by simp), here, read]
  rfl

/-- A store of clean elements to the own local store writes them in ascending order, and takes a number that is complete (R250, R298). -/
theorem vstore_own {i : Instr} {v : VRegN} {rs : List VRegN} {contig : Bool} (compute : s.cur.core < mgmtCore)
    (own : Spec.vecOwn s off) (lanes : Spec.lanesFor s rs) (some_ : 0 < s.me.lanes.vl)
    (clean : ∀ k, k < s.me.lanes.vl → (s.vReg v).bad k = false) :
    vstore i v rs contig none (ownAddrs s.me.lanes.vl off) none s =
      done (s.writeElems ((ownPlaces s.cur.core s.me.lanes.vl off).zip (s.elems v))).tlvNow := by
  have ring : (if contig then s.ringOf true ((ownAddrs s.me.lanes.vl off).map some) else none) = none := by
    rw [ringOf_own own]
    exact ite_self _
  have noBank : ((ownAddrs s.me.lanes.vl off).zip (ownPlaces s.cur.core s.me.lanes.vl off)).find?
      (fun q => (s.fifoBank q.2).isSome) = none := by
    rw [List.find?_eq_none]
    intro q mem
    obtain ⟨o, place⟩ := mem_ownPlaces (List.of_mem_zip mem).2
    rw [place]
    exact Bool.false_ne_true
  have here : (ownPlaces s.cur.core s.me.lanes.vl off).all Place.isLs = true := by
    refine List.all_eq_true.2 fun p mem => ?_
    obtain ⟨o, rfl⟩ := mem_ownPlaces mem
    rfl
  have stored : ((ownAddrs s.me.lanes.vl off).zip (s.elems v)).find? (fun q => q.2.poison) = none := by
    rw [List.find?_eq_none]
    intro q mem
    obtain ⟨k, lt, eq⟩ := List.mem_map.1 (List.of_mem_zip mem).2
    rw [← eq]
    simpa using clean k (List.mem_range.1 lt)
  rw [vstore, onLanes_open lanes, if_neg (show ¬ s.vl = 0 from some_.ne')]
  dsimp only
  rw [wholeFault_own own, ring, storePlaces_own compute own]
  dsimp only
  rw [if_neg (by simp), noBank]
  dsimp only
  rw [acquiring_quiet quiet, ownPlaces_noBank, touchAll_own own, if_neg (by simp)]
  change storeElems i (ownAddrs s.me.lanes.vl off) (ownPlaces s.cur.core s.me.lanes.vl off) (s.elems v) none s = _
  rw [storeElems, ownPlaces_free quiet, portUsed_quiet quiet, if_neg (by omega)]
  dsimp only
  rw [here, if_pos (show (true && !false) = true from rfl), storeDone, stored]

end

/-! ### Elements stored one after the other (R111, R250) -/

/-- Elements written in ascending order. -/
def vecWrites (m : Memory) (off : Nat → Nat) (v : Nat → PWord) : Nat → Memory
  | 0 => m
  | n + 1 => lsWrite (vecWrites m off v n) (off n) 4 (v n)

theorem writeElems_foldl (l : List (Place × Elem)) (s : State) : s.writeElems l =
    l.foldl (fun (s : State) q => s.portWrite q.1 4 ⟨q.2.val.setWidth 64, q.2.poison⟩) s := by
  induction l generalizing s with
  | nil => rfl
  | cons q r ih => exact ih _

/-- Elements written to the own local store: that local store alone changes. -/
theorem writeElems_own (s : State) (off : Nat → Nat) (e : Nat → Elem) (n : Nat) :
    ∃ t, s.writeElems ((ownPlaces s.cur.core n off).zip ((List.range n).map e)) = t ∧ t.cur = s.cur ∧ t.hbm = s.hbm ∧ t.clusters = s.clusters ∧
      t.core s.cur.core = (s.core s.cur.core).withLs
        (vecWrites (s.core s.cur.core).ls off (fun k => ⟨(e k).val.setWidth 64, (e k).poison⟩) n) ∧
      ∀ c, c ≠ s.cur.core → t.core c = s.core c := by
  rw [ownPlaces, List.zip_map', writeElems_foldl]
  induction n with
  | zero => exact ⟨s, rfl, rfl, rfl, rfl, rfl, fun _ _ => rfl⟩
  | succ n ih =>
    obtain ⟨t, eq, cur, hbm, clusters, mine, others⟩ := ih
    rw [List.range_succ, List.map_append, List.foldl_append, eq]
    obtain ⟨m, hm⟩ : ∃ m, m = lsWrite (t.core s.cur.core).ls (off n) 4 ⟨(e n).val.setWidth 64, (e n).poison⟩ := ⟨_, rfl⟩
    refine ⟨t.modCore s.cur.core (·.withLs m), ?_, cur, hbm, clusters, ?_, fun c ne => ?_⟩
    · rw [hm]
      rfl
    · rw [core_modCore, hm, mine]
      rfl
    · exact (core_modCore_other t (·.withLs m) ne).trans (others c ne)

theorem lsKeeps_low {a : Nat} (low : a < 0x1FE9) (b : Byte) : Spec.lsKeeps a b = b := by
  rw [Spec.lsKeeps, if_neg (by omega), if_neg (by omega)]

theorem lsKeeps_twice (a : Nat) (b : Byte) : Spec.lsKeeps a (Spec.lsKeeps a b) = Spec.lsKeeps a b := by
  unfold Spec.lsKeeps
  split
  · rw [BitVec.and_assoc]
    rfl
  · split <;> rfl

/-- The byte that the elements put at an address: the last that reaches it counts. -/
def lastByte (off : Nat → Nat) (v : Nat → PWord) (old : Byte) (a : Nat) : Nat → Byte
  | 0 => old
  | n + 1 => if off n ≤ a ∧ a < off n + 4 then BitVec.ofNat 8 ((v n).val.toNat / 256 ^ (a - off n)) else lastByte off v old a n

theorem vecKeeps_succ (n : Nat) (off : Nat → Nat) (a : Nat) (b : Byte) : Spec.vecKeeps (n + 1) off a b =
    if off n + 4 ≤ 0x1FE8 then Spec.vecKeeps n off a b else Spec.lsKeeps a b := by
  unfold Spec.vecKeeps
  rw [List.range_succ, List.all_append, show [n].all (fun k => decide (off k + 4 ≤ 0x1FE8)) = decide (off n + 4 ≤ 0x1FE8) from Bool.and_true _]
  by_cases low : off n + 4 ≤ 0x1FE8
  · rw [if_pos low, decide_eq_true low, Bool.and_true]
  · rw [if_neg low, decide_eq_false low, Bool.and_false, if_neg Bool.false_ne_true]

section
variable {m : Memory} (wf : m.wf = true) (off : Nat → Nat) (v : Nat → PWord)
include wf

theorem vecWrites_wf (n : Nat) : (vecWrites m off v n).wf = true := by
  induction n with
  | zero => exact wf
  | succ n ih =>
    rw [vecWrites, lsWrite]
    split
    · exact Memory.write_wf ih ..
    · exact Memory.clearRes_wf (Memory.write_wf ih ..)

theorem byte_vecWrites (n a : Nat) : (vecWrites m off v n).byte a = Spec.vecKeeps n off a (lastByte off v (m.byte a) a n) := by
  induction n with
  | zero => rfl
  | succ n ih =>
    have good := vecWrites_wf wf off v n
    rw [vecKeeps_succ, lastByte, vecWrites, lsWrite]
    by_cases low : off n + 4 ≤ 0x1FE8
    · rw [if_pos low, if_pos low, Memory.byte_write good, ih]
      split
      · next inside =>
        unfold Spec.vecKeeps
        split
        · rfl
        · exact (lsKeeps_low (by omega) _).symm
      · rfl
    · rw [if_neg low, if_neg low, byte_clearRes (Memory.write_wf good ..), Memory.byte_write good, ih]
      split
      · rfl
      · unfold Spec.vecKeeps
        split
        · rfl
        · exact lsKeeps_twice ..

end

/-- An element is there where no later one is. -/
theorem lastByte_at {off : Nat → Nat} (v : Nat → PWord) (old : Byte) {n k j : Nat} (aligned : ∀ k, k < n → off k % 4 = 0) (lt : k < n)
    (last : ∀ m, m < n → off m = off k → m ≤ k) (small : j < 4) :
    lastByte off v old (off k + j) n = BitVec.ofNat 8 ((v k).val.toNat / 256 ^ j) := by
  induction n with
  | zero => exact absurd lt (Nat.not_lt_zero k)
  | succ n ih =>
    rw [lastByte]
    by_cases here : k = n
    · subst here
      rw [if_pos (by omega), Nat.add_sub_cancel_left]
    · have apart : off n ≠ off k := fun same => by
        have := last n (by omega) same
        omega
      have one := aligned n (by omega)
      have two := aligned k lt
      rw [if_neg (by omega)]
      exact ih (fun k lt => aligned k (by omega)) (by omega) fun m lt => last m (by omega)

theorem lastByte_none {off : Nat → Nat} (v : Nat → PWord) (old : Byte) {n a : Nat} (out : ∀ k, k < n → a < off k ∨ off k + 4 ≤ a) :
    lastByte off v old a n = old := by
  induction n with
  | zero => rfl
  | succ n ih =>
    have := out n (by omega)
    rw [lastByte, if_neg (by omega)]
    exact ih fun k lt => out k (by omega)

/-! ### TLV (R298) -/

theorem tlvTaken_now (t : Timeline) : Spec.tlvTaken t ((t.issue 1).complete t.nextNum) := by
  have issued : ∀ (k : Nat) (u : Timeline), (u.settle k).issued = u.issued := by
    intro k
    induction k with
    | zero => exact fun _ => rfl
    | succ k ih =>
      intro u
      rw [Timeline.settle]
      split
      · exact ih _
      · rfl
  refine ⟨issued .., fun inOrder nothing => ?_⟩
  obtain ⟨c, i, a⟩ := t
  dsimp only at inOrder nothing
  subst inOrder nothing
  rw [Timeline.complete, Timeline.settle, if_pos (by simp [Timeline.nextNum, Timeline.issue, natAdd, natHas])]
  refine ⟨rfl, ?_⟩
  simp [Timeline.settle, Timeline.nextNum, Timeline.issue, natAdd, natDel]

/-! ### The six instructions (R248) -/

theorem shiftLeft_six (x : Word) : x <<< 6 = 64 * x := by
  refine BitVec.eq_of_toNat_eq ?_
  rw [BitVec.toNat_shiftLeft, BitVec.toNat_mul, Nat.shiftLeft_eq, Nat.mul_comm]
  rfl

theorem shiftLeft_two (x : Word) : x <<< 2 = 4 * x := by
  refine BitVec.eq_of_toNat_eq ?_
  rw [BitVec.toNat_shiftLeft, BitVec.toNat_mul, Nat.shiftLeft_eq, Nat.mul_comm]
  rfl

section
variable {s : State} {off : Nat → Nat}

/-- Addresses computed one by one that are those of the own local store. -/
theorem addrs_own {f g : Nat → Word} (same : ∀ k, f k = g k)
    (h : (List.range s.me.lanes.vl).all (fun k => g k == Spec.lsAddr (off k)) = true) : (List.range s.vl).map f = ownAddrs s.me.lanes.vl off := by
  refine List.map_congr_left fun k mem => ?_
  rw [same]
  exact eq_of_beq (List.all_eq_true.1 h k mem)

theorem unitAddr_eq (b : Word) (imm : BitVec 9) (k : Nat) :
    b + (imm.signExtend 64 <<< 6) + BitVec.ofNat 64 (4 * k) = BitVec.ofInt 64 (b.toInt + 64 * imm.toInt + 4 * k) := by
  rw [BitVec.ofInt_add, BitVec.ofInt_add, BitVec.ofInt_toInt, BitVec.ofInt_mul, shiftLeft_six, ← BitVec.ofInt_natCast, Nat.cast_mul]
  rfl

theorem strideAddr_eq (b g : Word) (k : Nat) : b + BitVec.ofNat 64 k * g = BitVec.ofInt 64 (b.toInt + k * g.toInt) := by
  rw [BitVec.ofInt_add, BitVec.ofInt_toInt, BitVec.ofInt_mul, BitVec.ofInt_natCast, BitVec.ofInt_toInt]

theorem indexAddr_eq (b : Word) (e : BitVec 32) : b + (e.signExtend 64 <<< 2) = BitVec.ofInt 64 (b.toInt + 4 * e.toInt) := by
  rw [BitVec.ofInt_add, BitVec.ofInt_toInt, BitVec.ofInt_mul, shiftLeft_two]
  rfl

/-- Every vector load of the own local store. -/
theorem exec_of_vecLoad {i : Instr} {d : VRegN} (h : Spec.vecLoad i s off = some d) (plain : Spec.plainOrder i) :
    ∃ whole contig, exec i s = vload i d (d :: Spec.indexOf i) whole contig ((ownAddrs s.me.lanes.vl off).map some) none s := by
  unfold Spec.vecLoad at h
  cases i with
  | vld r base sc o imm =>
    obtain ⟨checks, eq⟩ := Option.ite_none_right_eq_some.1 h
    cases eq
    cases plain
    simp only [Bool.and_eq_true, Bool.not_eq_true'] at checks
    refine ⟨true, true, ?_⟩
    change execVld .. = _
    rw [execVld, State.unitAddrs, addrs_own (unitAddr_eq _ imm) checks.2, checks.1]
    rfl
  | vlds r base sc o gs =>
    obtain ⟨checks, eq⟩ := Option.ite_none_right_eq_some.1 h
    cases eq
    cases plain
    simp only [Bool.and_eq_true, Bool.not_eq_true'] at checks
    refine ⟨true, false, ?_⟩
    change execVlds .. = _
    rw [execVlds, State.strideAddrs, addrs_own (strideAddr_eq _ _) checks.2, checks.1.1, checks.1.2]
    rfl
  | vgath r base sc o x =>
    obtain ⟨checks, eq⟩ := Option.ite_none_right_eq_some.1 h
    cases eq
    cases plain
    simp only [Bool.and_eq_true, Bool.not_eq_true', List.all_eq_true] at checks
    obtain ⟨⟨clean, index⟩, addrs⟩ := checks
    refine ⟨false, false, ?_⟩
    have bare : s.indexAddrs base x = ownAddrs s.me.lanes.vl off := addrs_own (fun k => indexAddr_eq _ _) (List.all_eq_true.2 addrs)
    have live : ((s.indexAddrs base x).zipIdx.map fun (a, i) => if (s.gReg base).poison || (s.vReg x).bad i then none else some a) =
        (ownAddrs s.me.lanes.vl off).map some := by
      rw [bare]
      refine List.ext_getElem (by simp) fun k lt _ => ?_
      have inside : k < s.me.lanes.vl := by simpa [ownAddrs] using lt
      have tag : (s.vReg x).bad k = false := index k (List.mem_range.2 inside)
      rw [List.getElem_map, List.getElem_zipIdx, List.getElem_map]
      simp [clean, tag]
    change execVgath .. = _
    rw [execVgath, live]
    rfl
  | _ => cases h

/-- Every vector store to the own local store. -/
theorem exec_of_vecStore {i : Instr} {v : VRegN} (h : Spec.vecStore i s off = some v) (plain : Spec.plainOrder i) :
    ∃ contig, exec i s = vstore i v (v :: Spec.indexOf i) contig none (ownAddrs s.me.lanes.vl off) none s := by
  unfold Spec.vecStore at h
  cases i with
  | vst r base sc o imm =>
    obtain ⟨checks, eq⟩ := Option.ite_none_right_eq_some.1 h
    cases eq
    cases plain
    simp only [Bool.and_eq_true, Bool.not_eq_true'] at checks
    refine ⟨true, ?_⟩
    have named : firstBad [(base, s.gReg base)] = none := by simp [firstBad, checks.1]
    change execVst .. = _
    rw [execVst, State.unitAddrs, addrs_own (unitAddr_eq _ imm) checks.2, named]
    rfl
  | vsts r base sc o gs =>
    obtain ⟨checks, eq⟩ := Option.ite_none_right_eq_some.1 h
    cases eq
    cases plain
    simp only [Bool.and_eq_true, Bool.not_eq_true'] at checks
    refine ⟨false, ?_⟩
    have named : firstBad [(base, s.gReg base), (gs, s.gReg gs)] = none := by simp [firstBad, checks.1]
    change execVsts .. = _
    rw [execVsts, State.strideAddrs, addrs_own (strideAddr_eq _ _) checks.2, named]
    rfl
  | vscat r base sc o x =>
    obtain ⟨checks, eq⟩ := Option.ite_none_right_eq_some.1 h
    cases eq
    cases plain
    simp only [Bool.and_eq_true, Bool.not_eq_true'] at checks
    obtain ⟨⟨clean, index⟩, addrs⟩ := checks
    refine ⟨false, ?_⟩
    have bare : s.indexAddrs base x = ownAddrs s.me.lanes.vl off := addrs_own (fun k => indexAddr_eq _ _) addrs
    have tags : (List.range s.vl).any (fun i => (s.vReg x).bad i) = false := by
      rw [List.any_eq_false]
      intro k mem
      have tag : (!(s.vReg x).bad k) = true := List.all_eq_true.1 index k mem
      simpa using tag
    have named : firstBad [(base, s.gReg base)] = none := by simp [firstBad, clean]
    change execVscat .. = _
    rw [execVscat, bare, tags, named]
    rfl
  | _ => cases h

end

/-- The number of TLV is taken in the executing core alone. -/
theorem tlvNow_core (s : State) : s.tlvNow.core s.cur.core = { s.core s.cur.core with
    tlv := ((s.core s.cur.core).tlv.issue 1).complete (s.core s.cur.core).tlv.nextNum } := core_modCore ..

theorem tlvNow_core_other (s : State) {c : CoreId} (ne : c ≠ s.cur.core) : s.tlvNow.core c = s.core c := core_modCore_other _ _ ne

theorem tlvNow_me (s : State) : s.tlvNow.me = s.me := by
  change (s.tlvNow.core s.cur.core).ctx s.cur.ctx = _
  rw [tlvNow_core]
  rfl

/-- A retire keeps what a core holds apart from its contexts. -/
theorem retire_coreField {α : Type} (s : State) (c : CoreId) (f : Core → α) (same : ∀ k v, f { k with ctxs := v } = f k) :
    f (s.retire.core c) = f (s.core c) := (retireAt_step s s.cur.core s.cur.ctx .seq).coreField c f same

theorem setMe_coreField {α : Type} (s : State) (x : Ctx) (c : CoreId) (f : Core → α) (same : ∀ k v, f { k with ctxs := v } = f k) :
    f ((s.setMe x).core c) = f (s.core c) := (LaneStep.setCtx s s.cur.core s.cur.ctx x).coreField c f same

theorem vectorLoadsOwnStore : Spec.vectorLoadsOwnStore := by
  intro i s d off compute form plain own quiet lanes vl some_ packet
  obtain ⟨whole, contig, run⟩ := exec_of_vecLoad form plain
  have flags : (ownElems s.myCore.ls s.me.lanes.vl off).foldl (fun f e => f ||| e.flags) 0 = 0 := by
    refine flags_none fun e mem => ?_
    obtain ⟨k, -, rfl⟩ := List.mem_map.1 mem
    rfl
  have len : (ownElems s.myCore.ls s.me.lanes.vl off).length = s.me.lanes.vl := by simp [ownElems]
  have elem : ∀ k, (ownElems s.myCore.ls s.me.lanes.vl off)[k]? = if k < s.me.lanes.vl then
      some ⟨BitVec.ofNat 32 (Spec.bytes s.myCore.ls (off k) 4), s.myCore.ls.bad (off k), 0⟩ else none := by
    intro k
    by_cases lt : k < s.me.lanes.vl
    · rw [if_pos lt, List.getElem?_eq_getElem (by rwa [len])]
      simp [ownElems]
    · rw [if_neg lt, List.getElem?_eq_none (by omega)]
  obtain ⟨r, hr⟩ : ∃ r, r = s.me.v[d].put (ownElems s.myCore.ls s.me.lanes.vl off) := ⟨_, rfl⟩
  refine ⟨r, (Spec.vecState s.tlvNow d r 0).retire, ?_, ?_⟩
  · rw [run, vload_own quiet off compute own lanes some_, putElems_eq, flags, tlvNow_me, hr]
  obtain ⟨_, _, _, _, _, _, _, _, _, moved⟩ := retire_idle (Spec.vecState s.tlvNow d r 0)
  rw [Spec.vecState, me_setMe, tlvNow_me] at moved
  have unpend : (s.me.unpend (.v d)).g = s.me.g ∧ (s.me.unpend (.v d)).e = s.me.e := ⟨rfl, rfl⟩
  refine ⟨?_, ?_, ?_, ?_, ?_, fun c => ?_, ?_, fun k lt => ?_, fun u lt => ?_⟩
  · rw [Spec.vecState, tlvNow_me, moved]
  · rw [Spec.vecState, tlvNow_me, moved]
    rfl
  · rw [Spec.vecState, tlvNow_me, moved]
    rfl
  · rw [Spec.vecState, tlvNow_me, moved]
    exact BitVec.or_zero
  · rw [State.retire, retireAt_hbm]
    rfl
  · rw [retire_coreField _ _ Core.ls fun _ _ => rfl, Spec.vecState, setMe_coreField _ _ _ Core.ls fun _ _ => rfl]
    by_cases here : c = s.cur.core
    · subst here
      rw [tlvNow_core]
    · rw [tlvNow_core_other s here]
  · have tlv : (Spec.vecState s.tlvNow d r 0).retire.myCore.tlv = (s.myCore.tlv.issue 1).complete s.myCore.tlv.nextNum := by
      rw [State.myCore, State.retire, retireAt_cur]
      refine (retire_coreField _ _ Core.tlv fun _ _ => rfl).trans ?_
      rw [Spec.vecState, setMe_coreField _ _ _ Core.tlv fun _ _ => rfl]
      exact congrArg Core.tlv (tlvNow_core s)
    rw [tlv]
    exact tlvTaken_now _
  · rw [hr, el_put _ _ lt, elem]
    split <;> rfl
  · rw [hr, poison_put _ _ lt, elem, elem, len]
    by_cases one : 2 * u < s.me.lanes.vl <;> by_cases two : 2 * u + 1 < s.me.lanes.vl <;> simp [one, two, Bool.and_comm]

theorem vectorStoresOwnStore : Spec.vectorStoresOwnStore := by
  intro i s v off compute form plain own quiet lanes vl some_ packet wf clean
  obtain ⟨contig, run⟩ := exec_of_vecStore form plain
  obtain ⟨t, written, cur, hbm, clusters, mine, others⟩ :=
    writeElems_own s off (fun k => ⟨(s.vReg v).elem k, (s.vReg v).bad k, 0⟩) s.me.lanes.vl
  have me : t.tlvNow.me = s.me := by
    rw [tlvNow_me, State.me, cur, State.ctx, mine]
    rfl
  obtain ⟨_, _, _, _, _, _, _, _, _, moved⟩ := retire_idle t.tlvNow
  rw [me] at moved
  have core : ∀ {α : Type} (f : Core → α), (∀ k v, f { k with ctxs := v } = f k) → f t.tlvNow.retire.myCore =
      f { t.core s.cur.core with tlv := ((t.core s.cur.core).tlv.issue 1).complete (t.core s.cur.core).tlv.nextNum } := by
    intro α f same
    have here := tlvNow_core t
    rw [cur] at here
    rw [← here, State.myCore, State.retire, retireAt_cur]
    change f (t.tlvNow.retire.core t.cur.core) = _
    rw [retire_coreField _ _ f same, cur]
  have tlv := core Core.tlv fun _ _ => rfl
  have byte : ∀ a, t.tlvNow.retire.myCore.ls.byte a = Spec.vecKeeps s.me.lanes.vl off a
      (lastByte off (fun k => ⟨((s.vReg v).elem k).setWidth 64, (s.vReg v).bad k⟩) (s.myCore.ls.byte a) a s.me.lanes.vl) := by
    intro a
    rw [core Core.ls fun _ _ => rfl, mine]
    exact byte_vecWrites wf off _ _ a
  refine ⟨t.tlvNow.retire, ?_, ⟨fun c ne => ?_, ?_, ?_, ?_, ?_, ?_, ?_, ?_⟩, ?_, ?_, fun k j lt last small => ?_, fun a out => ?_⟩
  · rw [run, vstore_own quiet off compute own lanes some_ clean]
    exact congrArg (fun u : State => done u.tlvNow) written
  · rw [retire_coreField _ _ Core.ls fun _ _ => rfl, tlvNow_core_other t (by rwa [cur]), others c ne]
  · rw [State.retire, retireAt_hbm]
    exact hbm
  · rw [State.retire, retireAt_clusters]
    exact clusters
  · rw [moved]
  · rw [moved]
  · rw [moved]
  · rw [moved]
  · rw [moved]
  · rw [moved]
  · rw [tlv, mine]
    exact tlvTaken_now _
  · rw [byte, lastByte_at _ _ (fun k lt => (own k lt).1) lt last small]
    have value : (((s.vReg v).elem k).setWidth 64).toNat = (Spec.el s.me.v[v] k).toNat := by
      rw [BitVec.toNat_setWidth_of_le (by decide)]
      rfl
    rw [value]
  · rw [byte, lastByte_none _ _ out]

/-- Settles O31: the elements of an access to the own local store are read and written in order, in its bytes. -/
theorem vectorAccesses : Obligations.VectorAccesses := ⟨vectorLoadsOwnStore, vectorStoresOwnStore⟩

end Sys2Proof.Machine
end

section
/-! PROOFS (O42, O43). The one message of a fabric at its router (R119, R368), and tags of a core (R294). -/

namespace Sys2Proof.Machine

/-! ### A core written twice -/

theorem modCore_modCore (s : State) (c : CoreId) (f g : Core → Core) : (s.modCore c f).modCore c g = s.modCore c fun k => g (f k) := by
  rw [State.modCore, core_modCore, State.modCore, setCore_setCore, State.modCore]

/-! ### Tags (R288, R294) -/

theorem latchAll_form (k : Core) (bits : Word) : ∃ v, k.latchAll bits = { k with ctxs := v } := modLive_form ..

theorem or_bitAt_set {w : Word} {i : Nat} (small : i < 64) (set : w.getLsbD i = true) : w ||| bitAt i = w := by
  refine BitVec.eq_of_getLsbD_eq fun j _ => ?_
  rw [BitVec.getLsbD_or, getLsbD_bitAt small]
  by_cases here : i = j
  · subst here
    simp [set]
  · simp [here]

theorem setTag_form (k : Core) {i : Nat} (small : i < 64) : ∃ v, k.setTag i = { k with ctxs := v, tags := k.tags ||| bitAt i } := by
  rw [Core.setTag]
  split
  · next set => exact ⟨k.ctxs, by rw [or_bitAt_set small set]⟩
  · obtain ⟨v, form⟩ := latchAll_form { k with tags := k.tags ||| bitAt i } evTag
    exact ⟨v, form⟩

theorem setTagErr_form (k : Core) {i : Nat} (small : i < 64) : ∃ v, k.setTagErr i = { k with ctxs := v, tagerr := k.tagerr ||| bitAt i } := by
  rw [Core.setTagErr]
  split
  · next set => exact ⟨k.ctxs, by rw [or_bitAt_set small set]⟩
  · exact modLive_form ..

theorem bitAt_eq (i : Nat) : bitAt i = BitVec.ofNat 64 (2 ^ i) := by
  refine BitVec.eq_of_toNat_eq ?_
  rw [bitAt, BitVec.toNat_shiftLeft, BitVec.toNat_ofNat, Nat.shiftLeft_eq]
  simp

/-! ### The only message of the fabric (R119, R368) -/

section
variable {s : State} {m : Msg} (only : Spec.onlyMsg s m)
include only

theorem msg_only : s.msg s.ev.idx = some m := by
  rw [State.msg, only.1]
  simp

/-- Once it is taken off, nothing is left. -/
theorem takeMsg_only : s.takeMsg s.ev.idx = { s with fabric := [] } := by
  rw [State.takeMsg, only.1, only.2]
  simp

theorem inOrder_only : s.inOrder s.ev.idx m = true := by
  rw [State.inOrder, only.1]
  simp

theorem atRouter_migrates {l : BitVec 18} (moves : s.migrating l = true) (deliver : Res) : s.atRouter s.ev.idx l deliver =
    .next { s.setRefused s.ev.idx none with routed := [s.ev.idx] } := by
  rw [State.atRouter, if_pos moves, only.2]
  rfl

theorem atRouter_stays {l : BitVec 18} (stays : Spec.stays s l) (deliver : Res) : s.atRouter s.ev.idx l deliver = deliver := by
  have here : s.migrating l = false := by
    rw [State.migrating]
    split
    · next d stop => exact absurd stop (stays d)
    · rfl
  rw [State.atRouter, here, if_neg Bool.false_ne_true, only.2]
  rfl

end

end Sys2Proof.Machine
end

section
/-! PROOFS (O43). Packets: sent, taken in, refused, discarded, queued, and written through a window (R119, R373 to R378, R385, R388). -/

namespace Sys2Proof.Machine

/-! ### Sending (R327, R376) -/

theorem packetSend_sends {s : State} {p : SendPacket} {r : List SendPacket} (send : (s.core s.ev.core).work.send = p :: r)
    (kept : ∀ x k, p.task = some x → s.taskAt x = some k → k.spec = false) :
    ∃ t, exec .packetSend s = .next t ∧ (t.core s.ev.core).work.send = r ∧
      t.fabric = s.fabric ++ [(s.seq, .packet 0 p.lcn p.tenant p.dest p.window p.data none)] := by
  have firm : s.isSpec p.task = false := by
    rw [State.isSpec]
    cases task : p.task with
    | none => rfl
    | some x =>
      dsimp only [Option.bind_some]
      cases found : s.taskAt x with
      | none => rfl
      | some k => exact kept x k task found
  have first : (p :: r).find? (fun p => !s.isSpec p.task) = some p := by
    rw [List.find?_cons, firm]
    rfl
  have left : (p :: r).erase p = r := List.erase_cons_head ..
  change ∃ t, execPacketSend s = _ ∧ _
  rw [execPacketSend]
  dsimp only
  rw [send, first]
  refine ⟨_, rfl, ?_, rfl⟩
  change ((State.countFlits _ s.ev.core _).core s.ev.core).work.send = r
  rw [State.countFlits, core_modCore, core_modCore]
  exact left

/-! ### A packet at the router (R119, R374, R378) -/

/-- A packet as the statements name it. -/
structure Packet where
  peer : BitVec 16
  lcn : BitVec 18
  tenant : BitVec 12
  dest : Word
  win : Option Word
  data : List PWord

/-- The message of a packet. -/
def Packet.msg (p : Packet) (refused : Option Word) : Msg := .packet p.peer p.lcn p.tenant p.dest p.win p.data refused

section
variable {s : State} {p : Packet} {refused : Option Word} (only : Spec.onlyMsg s (p.msg refused)) (here : p.dest.toNat / 2 ^ 48 = 0)
include only here

/-- Its router offers the one packet to its core. -/
theorem onPacket_only (k : Option Word → Res → Res) : onPacket s k = k refused (s.atRouter s.ev.idx (rwLcn p.dest)
    (deliverPacket s.ev.idx p.peer p.lcn p.tenant p.dest p.win p.data s)) := by
  have self : s.isSelf (rwPeer p.dest) = true := by
    have zero : rwPeer p.dest = 0 := by
      refine BitVec.eq_of_toNat_eq ?_
      rw [rwPeer, BitVec.extractLsb'_toNat, Nat.shiftRight_eq_div_pow, here]
      rfl
    rw [zero, State.isSelf]
    rfl
  rw [onPacket, msg_only only]
  dsimp only [Packet.msg]
  rw [self]
  have order : (some (p.msg refused)).any (s.inOrder s.ev.idx) = true := inOrder_only only
  exact (congrArg (guardEvent · _) order).trans (guardEvent_true _)

theorem packetArrive_offered (stays : Spec.stays s (rwLcn p.dest)) (new : refused = none) : exec .packetArrive s =
    deliverPacket s.ev.idx p.peer p.lcn p.tenant p.dest p.win p.data s := by
  change onPacket s _ = _
  rw [onPacket_only only here, atRouter_stays only stays, new]
  rfl

theorem packetRetry_offered (stays : Spec.stays s (rwLcn p.dest)) {x : Word} (old : refused = some x) (due : s.time = x + 4) :
    exec .packetRetry s = deliverPacket s.ev.idx p.peer p.lcn p.tenant p.dest p.win p.data s := by
  have again : s.offeredAgain (some x) = true := by
    have four : s.time - x = 4 := by rw [due, BitVec.add_comm, BitVec.add_sub_cancel]
    rw [State.offeredAgain, ahead, four]
    rfl
  change onPacket s _ = _
  rw [onPacket_only only here, atRouter_stays only stays, old, again, guardEvent_true]

theorem packetArrive_taken (new : refused = none) {x} (moves : (s.core (s.physOf (rwLcn p.dest).toNat)).stop = some (.migrate x)) :
    exec .packetArrive s = .next { s with routed := [s.ev.idx] } := by
  have migrating : s.migrating (rwLcn p.dest) = true := by rw [State.migrating, moves]
  have same : s.setRefused s.ev.idx none = s := by
    rw [State.setRefused, only.1, new]
    change { s with fabric := [if (s.ev.idx == s.ev.idx) = true then (s.ev.idx, p.msg none) else (s.ev.idx, p.msg none)] } = _
    rw [ite_self, ← new, ← only.1]
  change onPacket s _ = _
  rw [onPacket_only only here, atRouter_migrates only migrating, new, same]
  rfl

omit here in
/-- A refused packet stays, with the tick of its refusal. -/
theorem refusePacket_only : Spec.onlyMsg { s.refusePacket s.ev.idx with ev := s.ev } (p.msg (some s.time)) := by
  refine ⟨?_, ?_⟩
  · change s.fabric.map _ = _
    rw [only.1]
    simp [Packet.msg]
  · change s.routed.filter _ = _
    rw [only.2]
    rfl

end

/-! ### Delivery (R373, R374, R378, R388) -/

theorem latchAll_rx (k : Core) (bits : Word) : (k.latchAll bits).rx = k.rx := by
  obtain ⟨v, form⟩ := latchAll_form k bits
  rw [form]

theorem wakeRxpop_rx (k : Core) : k.wakeRxpop.rx = k.rx := by
  unfold Core.wakeRxpop
  generalize allCtx = l
  induction l generalizing k with
  | nil => rfl
  | cons n l ih =>
    rw [List.foldl_cons, ih]
    dsimp only
    split <;> rfl

section
variable {s : State} {p : Packet} {refused : Option Word} (only : Spec.onlyMsg s (p.msg refused))

theorem deliverPacket_kept (kept : s.lcnKept (rwLcn p.dest) = true) :
    deliverPacket s.ev.idx p.peer p.lcn p.tenant p.dest p.win p.data s = .next (s.refusePacket s.ev.idx) := if_pos kept

include only

theorem deliverPacket_discarded (free : s.lcnKept (rwLcn p.dest) = false) (noTask : (s.core (s.physOf (rwLcn p.dest).toNat)).bind.task = none)
    (room : s.spine.evq.length < 256) : ∃ t, deliverPacket s.ev.idx p.peer p.lcn p.tenant p.dest p.win p.data s = .next t ∧ t.fabric = [] ∧
      t.spine.evq.length = s.spine.evq.length + 1 ∧ t.spine.evq.take s.spine.evq.length = s.spine.evq := by
  have away : s.runsTenant (rwLcn p.dest) p.tenant = false := by
    rw [State.runsTenant, noTask]
    rfl
  refine ⟨(s.takeMsg s.ev.idx).postDiscard (rwLcn p.dest) p.tenant, ?_, ?_, ?_⟩
  · exact (if_neg (by rw [free]; exact Bool.false_ne_true)).trans (if_pos (by rw [away]; rfl))
  · rw [takeMsg_only only]
    rfl
  · rw [State.postDiscard, State.postMgmt]
    change (pushEvent s.spine.evq _).length = _ ∧ (pushEvent s.spine.evq _).take _ = _
    rw [pushEvent, if_pos room, List.length_append, List.take_left]
    exact ⟨rfl, rfl⟩

omit only in
theorem deliverPacket_received (receives : Spec.receives s (rwLcn p.dest) p.tenant) (bare : p.win = none) :
    deliverPacket s.ev.idx p.peer p.lcn p.tenant p.dest p.win p.data s =
      if 16 < (s.core (s.physOf (rwLcn p.dest).toNat)).rx.used + slotsOf p.data then .next (s.refusePacket s.ev.idx)
      else .next ((s.takeMsg s.ev.idx).modCore (s.physOf (rwLcn p.dest).toNat) fun k =>
        (({ k with rx := k.rx.add p.peer p.lcn p.data }).latchAll evRxq).wakeRxpop) := by
  obtain ⟨free, -, task, tenant⟩ := receives
  have runs : s.runsTenant (rwLcn p.dest) p.tenant = true := by
    rw [State.runsTenant, task, tenant]
    exact beq_self_eq_true _
  rw [bare]
  exact (if_neg (by rw [free]; exact Bool.false_ne_true)).trans (if_neg (by rw [runs]; exact Bool.false_ne_true))

/-- A packet that has room is queued behind those of its core (R373). -/
theorem deliverPacket_queued (receives : Spec.receives s (rwLcn p.dest) p.tenant) (bare : p.win = none)
    (room : (s.core (s.physOf (rwLcn p.dest).toNat)).rx.used + slotsOf p.data ≤ 16) :
    ∃ t, deliverPacket s.ev.idx p.peer p.lcn p.tenant p.dest p.win p.data s = .next t ∧ t.fabric = [] ∧
      (t.core (s.physOf (rwLcn p.dest).toNat)).rx = (s.core (s.physOf (rwLcn p.dest).toNat)).rx.add p.peer p.lcn p.data := by
  refine ⟨_, (deliverPacket_received receives bare).trans (if_neg (by omega)), ?_, ?_⟩
  · rw [takeMsg_only only]
    rfl
  · rw [core_modCore, wakeRxpop_rx, latchAll_rx]
    rfl

end

/-! ### Windows (R378, R385) -/

section
variable {s : State} {d : CoreId} {tenant : BitVec 12} {off : Nat} (compute : d < mgmtCore) (inside : off + 16 ≤ 6144)

theorem lsAddr_eight (off : Nat) : Spec.lsAddr off + BitVec.ofNat 64 (8 * 1) = Spec.lsAddr (off + 8) := by
  rw [Spec.lsAddr, ← BitVec.ofNat_add]
  rfl

include compute in
/-- A user-mode write of a peer core to an address below the save slots reaches the local store. -/
theorem reachT_lsAddr {o : Nat} (low : o + 8 ≤ 6144) (t : BitVec 12) :
    s.reachT d t ⟨.store, 8, true, true⟩ (Spec.lsAddr o) = .place (.ls d o) := by
  have at_ : (Spec.lsAddr o).toNat = 0xFFFFFFFFE000 + o := by
    rw [Spec.lsAddr, BitVec.toNat_ofNat, Nat.mod_eq_of_lt]
    · rfl
    · rw [Spec.lsBase]
      omega
  have offset : (Spec.lsAddr o).toNat - 0xFFFFFFFFE000 = o := by omega
  rw [State.reachT, State.windowReach, if_neg (by omega), if_neg (by simpa using compute.ne), if_pos (by omega), if_pos (by omega),
    if_neg (by simp; omega), offset]

include compute inside in
theorem landing_lsAddr (opened : Spec.opened s d tenant (Spec.lsAddr off) 16) :
    s.landing d tenant (Spec.lsAddr off) 16 = .inr [.ls d off, .ls d (off + 8)] := by
  obtain ⟨i, w, drop, name, lo, hi⟩ := opened
  have listed : some w ∈ (s.core d).drops.toList := by
    rw [← drop]
    exact Vector.mem_toList_iff.2 (Vector.getElem_mem i.isLt)
  have first : Spec.lsAddr off + BitVec.ofNat 64 (8 * 0) = Spec.lsAddr off := BitVec.add_zero _
  have reached : (List.range (16 / 8)).map (fun i => s.reachT d (s.core d).bind.tenant ⟨.store, 8, true, true⟩
      (Spec.lsAddr off + BitVec.ofNat 64 (8 * i))) = [.place (.ls d off), .place (.ls d (off + 8))] := by
    rw [show List.range (16 / 8) = [0, 1] from rfl, List.map_cons, List.map_cons, List.map_nil, first, lsAddr_eight,
      reachT_lsAddr compute (by omega), reachT_lsAddr compute (by omega)]
  unfold State.landing
  dsimp only
  rw [reached]
  refine (if_neg ?_).trans rfl
  rw [Bool.not_eq_true', Bool.not_eq_false, List.any_eq_true]
  exact ⟨some w, listed, by simp [name, lo, hi]⟩

/-- Addresses of the local store are not translated. -/
theorem touch_lsAddr (c : CoreId) (t : BitVec 12) {a : Word} (high : 0xFF0000000000 ≤ a.toNat) : s.touch c t a = s := by
  rw [State.touch, if_neg (by simp; omega)]

include inside in
theorem touchRange_lsAddr (c : CoreId) (t : BitVec 12) : s.touchRange c t (Spec.lsAddr off) 16 = s := by
  have at_ : (Spec.lsAddr off).toNat = 0xFFFFFFFFE000 + off := by
    rw [Spec.lsAddr, BitVec.toNat_ofNat, Nat.mod_eq_of_lt]
    · rfl
    · rw [Spec.lsBase]
      omega
  have pages : ∀ i ∈ List.range (((Spec.lsAddr off).toNat + 16 - 1) / 4096 + 1 - (Spec.lsAddr off).toNat / 4096),
      s.touch c t (Spec.lsAddr off + BitVec.ofNat 64 (4096 * i)) = s := by
    intro i mem
    have few := List.mem_range.1 mem
    refine touch_lsAddr c t ?_
    rw [BitVec.toNat_add, BitVec.toNat_ofNat, at_]
    rw [at_] at few
    omega
  unfold State.touchRange
  generalize List.range (((Spec.lsAddr off).toNat + 16 - 1) / 4096 + 1 - (Spec.lsAddr off).toNat / 4096) = l at pages
  induction l with
  | nil => rfl
  | cons i l ih =>
    rw [List.foldl_cons, pages i List.mem_cons_self]
    exact ih fun j mem => pages j (List.mem_cons_of_mem i mem)

/-- The core with the two words of a packet in its local store. -/
def Core.twoWords (k : Core) (off : Nat) (v w : PWord) : Core := k.withLs (lsWrite (lsWrite k.ls off 8 v) (off + 8) 8 w)

theorem landUnits_ls (v w : PWord) : s.landUnits [(.ls d off, v), (.ls d (off + 8), w)] = s.modCore d (·.twoWords off v w) := by
  change ((s.modCore d fun k => k.withLs (lsWrite k.ls off 8 v)).modCore d fun k => k.withLs (lsWrite k.ls (off + 8) 8 w)) = _
  rw [modCore_modCore]
  rfl

/-- A window that admits the two words of a packet: they are written, and its tag is set (R378). -/
theorem windowPacket_lsAddr {v w : PWord} (compute : d < mgmtCore) (inside : off + 16 ≤ 6144)
    (opened : Spec.opened s d tenant (Spec.lsAddr off) 16) (dest : Word) : s.windowPacket d tenant dest (Spec.lsAddr off) [v, w] =
      s.modCore d fun k => if dest.getLsbD 6 then (k.twoWords off v w).setTag (dest.extractLsb' 0 6).toNat else k.twoWords off v w := by
  have land := landing_lsAddr compute inside opened
  have same : s.landed d tenant (Spec.lsAddr off) (8 * [v, w].length) = s := by
    change s.landed d tenant (Spec.lsAddr off) 16 = s
    rw [State.landed, land]
    exact touchRange_lsAddr inside d _
  rw [State.windowPacket, same, show 8 * [v, w].length = 16 from rfl, land]
  change (s.landUnits [(.ls d off, v), (.ls d (off + 8), w)]).modCore d _ = _
  rw [landUnits_ls, modCore_modCore]

end

/-- What a packet with a window leaves at its core. -/
theorem windowed_core (s : State) (d : CoreId) (off : Nat) (v w : PWord) (dest : Word) (wf : (s.core d).ls.wf = true) (aligned : off % 8 = 0)
    (inside : off + 16 ≤ 6144) {t : State} (ht : t = s.modCore d fun k =>
      if dest.getLsbD 6 then (k.twoWords off v w).setTag (dest.extractLsb' 0 6).toNat else k.twoWords off v w) :
    (t.core d).ls.read off 8 = v ∧ (t.core d).ls.read (off + 8) 8 = w ∧
      (t.core d).tags = (s.core d).tags ||| (if dest.getLsbD 6 then Spec.tagBit (dest.toNat % 64) else 0) := by
  have tag : (dest.extractLsb' 0 6).toNat = dest.toNat % 64 := by simp
  have two : ((s.core d).twoWords off v w).ls = ((s.core d).ls.write off 8 v).write (off + 8) 8 w := by
    change lsWrite (lsWrite (s.core d).ls off 8 v) (off + 8) 8 w = _
    rw [lsWrite, if_pos (by omega), lsWrite, if_pos (by omega)]
  have first : ((s.core d).twoWords off v w).ls.read off 8 = v := by
    rw [two, Memory.read_write_other (Memory.write_wf wf ..) w (by omega) aligned (by omega), Memory.read_write wf]
  have second : ((s.core d).twoWords off v w).ls.read (off + 8) 8 = w := by rw [two, Memory.read_write (Memory.write_wf wf ..)]
  rw [ht, core_modCore, tag]
  by_cases tagen : dest.getLsbD 6 = true
  · obtain ⟨x, form⟩ := setTag_form ((s.core d).twoWords off v w) (Nat.mod_lt dest.toNat (show 64 > 0 by decide))
    rw [if_pos tagen, if_pos tagen, form, bitAt_eq]
    exact ⟨first, second, rfl⟩
  · rw [if_neg tagen, if_neg tagen]
    exact ⟨first, second, BitVec.or_zero.symm⟩

/-- Settles O43: the one packet of a fabric is offered by its router, and goes where its core's task, its room and its windows say. -/
theorem packetsTravel : Obligations.PacketsTravel := by
  intro s p r peer lcn tenant dest win data refused
  refine ⟨packetSend_sends, fun only here => ?_⟩
  have arrives := packetArrive_offered (p := ⟨peer, lcn, tenant, dest, win, data⟩) only here
  refine ⟨fun x new moves => ?_, fun new stays kept => ?_, fun new stays free noTask room => ?_, fun receives bare =>
    ⟨fun new full => ?_, fun room i offered => ?_⟩, fun off v w receives new window words aligned inside opened wf compute => ?_⟩
  · exact packetArrive_taken (p := ⟨peer, lcn, tenant, dest, win, data⟩) only here new moves
  · exact ⟨_, (arrives stays new).trans (deliverPacket_kept (p := ⟨peer, lcn, tenant, dest, win, data⟩) kept),
      refusePacket_only (p := ⟨peer, lcn, tenant, dest, win, data⟩) only, rfl⟩
  · rw [arrives stays new]
    exact deliverPacket_discarded (p := ⟨peer, lcn, tenant, dest, win, data⟩) only free noTask room
  · have stays := receives.2.1
    refine ⟨_, (arrives stays new).trans ((deliverPacket_received (p := ⟨peer, lcn, tenant, dest, win, data⟩) receives bare).trans (if_pos ?_)),
      refusePacket_only (p := ⟨peer, lcn, tenant, dest, win, data⟩) only⟩
    exact Nat.lt_of_not_le full
  · have stays := receives.2.1
    obtain ⟨t, run, gone, rx⟩ := deliverPacket_queued (p := ⟨peer, lcn, tenant, dest, win, data⟩) only receives bare room
    refine ⟨t, ?_, gone, congrArg RxQueue.held rx, congrArg RxQueue.next rx⟩
    rcases offered with ⟨rfl, new⟩ | ⟨rfl, x, old, due⟩
    · exact (arrives stays new).trans run
    · exact (packetRetry_offered (p := ⟨peer, lcn, tenant, dest, win, data⟩) only here stays old due).trans run
  · subst window words
    obtain ⟨free, stays, task, name⟩ := receives
    have runs : s.runsTenant (rwLcn dest) tenant = true := by
      rw [State.runsTenant, task, name]
      exact beq_self_eq_true _
    have land := landing_lsAddr (s := s) compute inside opened
    have fits : s.banksFit true [.ls (s.physOf (rwLcn dest).toNat) off, .ls (s.physOf (rwLcn dest).toNat) (off + 8)] = true := rfl
    have run : deliverPacket s.ev.idx peer lcn tenant dest (some (Spec.lsAddr off)) [v, w] s =
        .next ((s.takeMsg s.ev.idx).windowPacket (s.physOf (rwLcn dest).toNat) tenant dest (Spec.lsAddr off) [v, w]) := by
      refine (if_neg (by rw [free]; exact Bool.false_ne_true)).trans ((if_neg (by rw [runs]; exact Bool.false_ne_true)).trans ?_)
      dsimp only
      rw [show 8 * [v, w].length = 16 from rfl, land]
      exact (congrArg (guardEvent · _) fits).trans (guardEvent_true _)
    have written := windowPacket_lsAddr (s := s.takeMsg s.ev.idx) (v := v) (w := w) compute inside opened dest
    have gone : (s.takeMsg s.ev.idx).fabric = [] := by
      rw [takeMsg_only (m := .packet peer lcn tenant dest (some (Spec.lsAddr off)) [v, w] refused) only]
    refine ⟨_, (arrives stays new).trans run, ?_, ?_⟩
    · rw [written]
      exact gone
    · exact windowed_core (s.takeMsg s.ev.idx) (s.physOf (rwLcn dest).toNat) off v w dest wf aligned inside written

end Sys2Proof.Machine
end

section
/-! PROOFS (O42). Copy channels: their state, their numbers, and one write performed at its home (R276, R286, R288, R292). -/

namespace Sys2Proof.Machine

variable {s : State} {cs : CopyStart} {o : Nat} {i : Fin 8}

/-! ### The state of a channel -/

@[simp] theorem chan_setChan (s : State) (o : Nat) (i : Fin 8) (h : Chan) : (s.setChan o i h).chan o i = h := by
  simp [State.chan, State.setChan]

theorem setChan_setChan (s : State) (o : Nat) (i : Fin 8) (h g : Chan) : (s.setChan o i h).setChan o i g = s.setChan o i g := by
  have twice : ∀ k j : Octet, (s.setOctet o k).setOctet o j = s.setOctet o j := fun k j => by simp only [State.setOctet, put_put]
  unfold State.setChan
  rw [octet_setOctet, twice]
  dsimp only
  rw [Vector.set_set]

theorem chan_octets {t : State} (same : t.octets = s.octets) (o : Nat) (i : Fin 8) : t.chan o i = s.chan o i := by
  rw [State.chan, State.octet, same]
  rfl

theorem chanNo_of_eq {n : Nat} (is : i.val = n) : chanNo n = i := by
  ext
  change n % 8 = i.val
  omega

/-! ### What reaches the core of a copy (R276, R286) -/

theorem onStarter_form (s : State) (cs : CopyStart) (f : Core → Core) : s.onStarter cs f = s ∨ s.onStarter cs f = s.modCore cs.core f := by
  unfold State.onStarter
  split
  · exact .inr rfl
  · exact .inl rfl

@[simp] theorem octets_onStarter (s : State) (cs : CopyStart) (f : Core → Core) : (s.onStarter cs f).octets = s.octets := by
  obtain eq | eq := onStarter_form s cs f <;> rw [eq]
  rfl

@[simp] theorem hbm_onStarter (s : State) (cs : CopyStart) (f : Core → Core) : (s.onStarter cs f).hbm = s.hbm := by
  obtain eq | eq := onStarter_form s cs f <;> rw [eq]
  rfl

theorem onStarter_coreField {α : Type} (s : State) (cs : CopyStart) {f : Core → Core} (fld : Core → α) (same : ∀ k, fld (f k) = fld k) (c : CoreId) :
    fld ((s.onStarter cs f).core c) = fld (s.core c) := by
  obtain eq | eq := onStarter_form s cs f <;> rw [eq]
  by_cases at_ : c = cs.core
  · rw [at_, core_modCore, same]
  · rw [core_modCore_other _ _ at_]

theorem copyTag_form (s : State) (cs : CopyStart) (ok err : Bool) : s.copyTag cs ok err = s ∨ ∃ f : Core → Core,
    s.copyTag cs ok err = s.onStarter cs f ∧ ∀ k, (f k).work = k.work := by
  unfold State.copyTag
  split
  · refine .inr ⟨_, rfl, fun k => ?_⟩
    have small : cs.tag < 64 := Nat.mod_lt _ (by decide)
    have tagged : (if ok then k.setTag cs.tag else k).work = k.work := by
      obtain ⟨v, eq⟩ := setTag_form k small
      split
      · rw [eq]
      · rfl
    dsimp only
    split
    · obtain ⟨v, eq⟩ := setTagErr_form (if ok then k.setTag cs.tag else k) small
      rw [eq]
      exact tagged
    · exact tagged
  · exact .inl rfl

@[simp] theorem octets_copyTag (s : State) (cs : CopyStart) (ok err : Bool) : (s.copyTag cs ok err).octets = s.octets := by
  obtain eq | ⟨f, eq, -⟩ := copyTag_form s cs ok err <;> rw [eq]
  exact octets_onStarter ..

@[simp] theorem hbm_copyTag (s : State) (cs : CopyStart) (ok err : Bool) : (s.copyTag cs ok err).hbm = s.hbm := by
  obtain eq | ⟨f, eq, -⟩ := copyTag_form s cs ok err <;> rw [eq]
  exact hbm_onStarter ..

@[simp] theorem work_copyTag (s : State) (cs : CopyStart) (ok err : Bool) (c : CoreId) :
    ((s.copyTag cs ok err).core c).work = (s.core c).work := by
  obtain eq | ⟨f, eq, same⟩ := copyTag_form s cs ok err <;> rw [eq]
  exact onStarter_coreField s cs (·.work) same c

theorem copyTag_untagged (untagged : cs.tagen = false) (ok err : Bool) : s.copyTag cs ok err = s :=
  if_neg (by simp [untagged])

theorem forward_form (s : State) (cs : CopyStart) (err : Bool) : ∃ l n, s.forward cs err = { s with fabric := l, seq := n } := by
  unfold State.forward
  dsimp only
  split
  · exact ⟨_, _, rfl⟩
  · exact ⟨_, _, rfl⟩

theorem forward_none (none_ : (cs.word 7).getLsbD 63 = false) (err : Bool) : s.forward cs err = s := by
  unfold State.forward
  dsimp only
  rw [if_neg (by rw [none_]; simp)]

@[simp] theorem octets_forward (s : State) (cs : CopyStart) (err : Bool) : (s.forward cs err).octets = s.octets := by
  obtain ⟨l, n, eq⟩ := forward_form s cs err
  rw [eq]

@[simp] theorem hbm_forward (s : State) (cs : CopyStart) (err : Bool) : (s.forward cs err).hbm = s.hbm := by
  obtain ⟨l, n, eq⟩ := forward_form s cs err
  rw [eq]

@[simp] theorem core_forward (s : State) (cs : CopyStart) (err : Bool) (c : CoreId) : (s.forward cs err).core c = s.core c := by
  obtain ⟨l, n, eq⟩ := forward_form s cs err
  rw [eq]
  rfl

/-- The channel is left as it was. -/
theorem chan_delivery (s : State) (cs : CopyStart) (ok err fwd : Bool) (f : Core → Core) (o : Nat) (i : Fin 8) :
    (((s.copyTag cs ok err).forward cs fwd).onStarter cs f).chan o i = s.chan o i :=
  chan_octets (by simp) o i

theorem completeTlc_form (k : Core) (ns : List Nat) : ∃ v, k.completeTlc ns = { k with ctxs := v, tlc := ns.foldl Timeline.complete k.tlc } := by
  unfold Core.completeTlc
  dsimp only
  split
  · exact ⟨_, rfl⟩
  · obtain ⟨v, eq⟩ := latchAll_form { k with tlc := ns.foldl Timeline.complete k.tlc } evCopy
    exact ⟨v, eq⟩

@[simp] theorem work_completeTlc (k : Core) (ns : List Nat) : (k.completeTlc ns).work = k.work := by
  obtain ⟨v, eq⟩ := completeTlc_form k ns
  rw [eq]

theorem ls_completeTlc (k : Core) (ns : List Nat) : (k.completeTlc ns).ls = k.ls := by
  obtain ⟨v, eq⟩ := completeTlc_form k ns
  rw [eq]

@[simp] theorem tlc_completeTlc (k : Core) (ns : List Nat) : (k.completeTlc ns).tlc = ns.foldl Timeline.complete k.tlc := by
  obtain ⟨v, eq⟩ := completeTlc_form k ns
  rw [eq]

/-! ### What keeps a copy (R301, R407) -/

theorem copyStopped_moves (moves : Spec.copyMoves s cs) : s.copyStopped cs = false := by
  obtain ⟨brake, stop, phase⟩ := moves
  have free : s.braked 2 = false := decide_eq_false (by omega)
  unfold State.copyStopped
  rw [free, stop, Bool.false_or, Bool.false_or]
  cases task : cs.task with
  | none => rfl
  | some r =>
    rw [Option.bind_some]
    cases found : s.taskAt r with
    | none => rfl
    | some k => exact beq_false_of_ne (phase r k task found)

theorem copyMoves_congr {t : State} (moves : Spec.copyMoves s cs) (spine : t.spine = s.spine) (stop : (t.core cs.core).stop = (s.core cs.core).stop)
    (tasks : ∀ r, t.taskAt r = s.taskAt r) : Spec.copyMoves t cs := by
  unfold Spec.copyMoves at moves ⊢
  rwa [spine, stop, funext tasks]

theorem copySpec_resolved (res : Spec.resolved s cs) : s.copySpec cs = none := by
  refine if_neg ?_
  unfold State.isSpec
  cases task : cs.task with
  | none => simp
  | some r =>
    rw [Option.bind_some]
    cases found : s.taskAt r with
    | none => simp
    | some k => simpa using res r k task found

/-! ### Numbers that complete (R288) -/

/-- The channel after `completeNums`: whatever else it is, its writes are those before. -/
theorem completeNums_form (s : State) (o : Nat) (i : Fin 8) (cs : CopyStart) : s.completeNums o i cs = s ∨ ∃ (h : Chan) (f : Core → Core),
    s.completeNums o i cs = (s.setChan o i h).onStarter cs f ∧ h.writes = (s.chan o i).writes := by
  unfold State.completeNums
  dsimp only
  split
  · exact .inl rfl
  · refine .inr ⟨_, _, rfl, ?_⟩
    split <;> rfl

@[simp] theorem hbm_completeNums (s : State) (o : Nat) (i : Fin 8) (cs : CopyStart) : (s.completeNums o i cs).hbm = s.hbm := by
  obtain eq | ⟨h, f, eq, -⟩ := completeNums_form s o i cs <;> rw [eq]
  exact hbm_onStarter ..

@[simp] theorem writes_completeNums (s : State) (o : Nat) (i : Fin 8) (cs : CopyStart) :
    ((s.completeNums o i cs).chan o i).writes = (s.chan o i).writes := by
  obtain eq | ⟨h, f, eq, same⟩ := completeNums_form s o i cs <;> rw [eq]
  rw [chan_octets (octets_onStarter ..), chan_setChan, same]

/-- The only number of a copy without a loop is delivered, and no write is on its way. -/
theorem completeNums_last {h : Chan} (is : s.chan o i = h) (moves : Spec.copyMoves s cs) (running : h.state = .running)
    (delivered : h.delivered = [cs.num]) (writes : h.writes = []) (iter : h.iter = 0) (once : cs.looping = false) :
    ∃ w, s.completeNums o i cs = (s.setChan o i { h with cur := none, state := .idle, delivered := [], csrcnt := w }).onStarter cs
      fun k => k.completeTlc ([cs.num].filter fun n => decide (k.tlc.cnt.toNat < n) && !natHas k.tlc.ahead n) := by
  subst is
  have one : cs.iters = 1 := if_neg (by simp [once])
  refine ⟨if cs.isWalk then BitVec.ofNat 64 ((s.chan o i).walk.2 - (s.chan o i).walk.1) else (s.chan o i).csrcnt, ?_⟩
  unfold State.completeNums
  dsimp only
  rw [if_neg (by simp [running, copyStopped_moves moves]), delivered, writes, iter, one]
  have parts : [cs.num].partition (fun n => ([] : List CopyWrite).any fun w => w.num == n) = ([], [cs.num]) := rfl
  rw [parts, if_pos (by simp)]

theorem tlc_onStarter {n : Nat} (task : (s.core cs.core).bind.task = cs.task) (below : (s.core cs.core).tlc.cnt.toNat < n)
    (inOrder : (s.core cs.core).tlc.ahead = []) :
    ((s.onStarter cs fun k => k.completeTlc ([n].filter fun n => decide (k.tlc.cnt.toNat < n) && !natHas k.tlc.ahead n)).core cs.core).tlc =
      (s.core cs.core).tlc.complete n := by
  rw [State.onStarter, if_pos (by simp [task]), core_modCore, tlc_completeTlc, inOrder, List.filter_cons_of_pos (by simp [below, natHas])]
  rfl

/-! ### A write at its home (R165, R287) -/

theorem setSlice_unless (c : Prop) [Decidable c] (u : State) (n : Nat) (k : Slice) : ∃ x,
    (if c then u else u.setSlice n k) = { u with slices := x } := by
  split
  · exact ⟨_, rfl⟩
  · exact ⟨_, rfl⟩

/-- A home whose named stores of this tick have been applied takes a write to HBM. -/
theorem arriveWrite_hbm {pa n : Nat} (home : Spec.atHome s pa n) (v : PWord) (hist : Hist) : ∃ x,
    s.arriveWrite pa n v hist = { s with hbm := s.hbm.write pa n v, slices := x } := by
  obtain ⟨below, -, -, wiping, -, applied⟩ := home
  have hbm : isHbm pa = true := decide_eq_true below
  have settled : s.settleHome pa = s := if_neg (by simp [applied])
  have kept : s.wipedAway pa = false := by simp [State.wipedAway, wiping]
  have written : s.homeWrite pa n v = { s with hbm := s.hbm.write pa n v } := by
    rw [State.homeWrite, if_pos hbm, State.hbmWrite, if_neg (by simp [kept])]
  unfold State.arriveWrite State.homeApply State.homeApplyBy
  dsimp only
  rw [settled, if_pos hbm, written]
  exact setSlice_unless ..

theorem write_stored {m : Memory} (wf : m.wf = true) (pa n : Nat) (v : PWord) :
    Spec.stored m (m.write pa n v) pa n v.val.toNat (v.poison || (n != 8 && m.bad pa)) := by
  refine ⟨fun j lt => ?_, fun a out => ?_, fun a => ?_⟩
  · rw [Memory.byte_write wf, if_pos (by omega), Nat.add_sub_cancel_left]
  · rw [Memory.byte_write wf, if_neg (by omega)]
  · rw [Memory.bad_write wf]
    split
    · next same => rw [Memory.bad, Memory.bad, same]
    · rfl

theorem settleLine_quiet {cl : Nat} (lines : (s.cluster cl).lines = []) (wbs : (s.cluster cl).wbs = []) (peer line : Nat) :
    s.settleLine cl peer line = s := by
  simp [State.settleLine, State.flushLine, Cluster.findLine, lines, State.landBacks, wbs]

/-- The only write of a channel, to HBM, is performed at its home. -/
theorem performWrites_one {w : CopyWrite} {pa : Nat} {timed : Bool} (only : (s.chan o i).writes = [w]) (place : w.place = .phys pa timed)
    (offered : w.refused = none) (home : Spec.atHome s pa w.n) (lines : (s.cluster (clusterOf cs.core)).lines = [])
    (wbs : (s.cluster (clusterOf cs.core)).wbs = []) (res : Spec.resolved s cs) : ∃ x,
    s.performWrites o i cs 1 = { s with hbm := s.hbm.write pa w.n w.val, slices := x }.setChan o i
      (({ s.chan o i with writes := [] } : Chan).remark cs) := by
  obtain ⟨x, arrived⟩ := arriveWrite_hbm home w.val (if timed then .timed else .untimed)
  have performed : s.performWrite cs w = some { s with hbm := s.hbm.write pa w.n w.val, slices := x } := by
    unfold State.performWrite
    rw [place]
    dsimp only
    rw [settleLine_quiet lines wbs, copySpec_resolved res]
    exact congrArg some arrived
  refine ⟨x, ?_⟩
  unfold State.performWrites
  dsimp only
  rw [only]
  dsimp only
  rw [if_neg (by simp [offered, place, State.linkWaits]), performed]
  rfl

@[simp] theorem writes_remark (h : Chan) (cs : CopyStart) : (h.remark cs).writes = h.writes := by
  unfold Chan.remark
  split <;> rfl

end Sys2Proof.Machine
end

section
/-! PROOFS (O42). Copy channels: a start taken from the queue, writes performed, numbers completed, and the next iteration opened (R276 to R288). -/

namespace Sys2Proof.Machine

/-! ### The head of a queue (R276, R282, R287) -/

section Channel
variable {s : State} {cs : CopyStart} {rest : List CopyStart} {i : Fin 8} (is : i.val = s.ev.idx)

theorem chan_badTemplate (s : State) (o : Nat) (i : Fin 8) (cs : CopyStart) (h : Chan) :
    (s.badTemplate o i cs h).chan o i = { h with flags := 0x80, tidx := cs.tidx, owner := octPos cs.core } := by
  unfold State.badTemplate
  rw [chan_octets (octets_onStarter ..), chan_octets (octets_copyTag ..), chan_setChan]

include is in
theorem copyQueueHead_bad (cur : (s.chan s.ev.unit i).cur = none) (queue : (s.chan s.ev.unit i).queue = cs :: rest)
    (bad : s.templateBad cs = true) : ∃ t, exec .copyQueueHead s = .next t ∧ (t.chan s.ev.unit i).cur = none ∧
      (t.chan s.ev.unit i).queue = rest ∧ (t.chan s.ev.unit i).flags = 0x80 := by
  have run : exec .copyQueueHead s = execCopyQueueHead s := rfl
  unfold execCopyQueueHead at run
  dsimp only at run
  rw [chanNo_of_eq is, cur, queue] at run
  dsimp only at run
  rw [if_pos bad] at run
  refine ⟨_, run, ?_⟩
  rw [chan_badTemplate]
  exact ⟨rfl, rfl, rfl⟩

theorem releaseActs_quiet {c : CoreId} (lines : (s.cluster (clusterOf c)).lines = []) (acc : (s.cluster (clusterOf c)).acc = []) (sc : Scope) :
    ((s.cleanMine (clusterOf c) (posOf c)).releaseActs c sc).1 = s := by
  have clean : s.cleanMine (clusterOf c) (posOf c) = s := by simp [State.cleanMine, lines]
  have merge : s.mergeMine (clusterOf c) (posOf c) = s := by simp [State.mergeMine, acc]
  rw [clean]
  unfold State.releaseActs
  split
  · rfl
  · simp only [clean, ite_self, merge]

include is in
theorem copyQueueHead_runs (cur : (s.chan s.ev.unit i).cur = none) (queue : (s.chan s.ev.unit i).queue = cs :: rest)
    (good : s.templateBad cs = false) (lines : (s.cluster (clusterOf cs.core)).lines = []) (wbs : (s.cluster (clusterOf cs.core)).wbs = [])
    (acc : (s.cluster (clusterOf cs.core)).acc = []) (merges : (s.cluster (clusterOf cs.core)).merges = [])
    (port : (s.core cs.core).work.port = []) (loads : (s.core cs.core).work.loads = []) (vecs : (s.core cs.core).work.vecs = [])
    (rq : (s.core cs.core).work.rq = []) (moves : Spec.copyMoves s cs) :
    ∃ t, exec .copyQueueHead s = .next t ∧ (t.chan s.ev.unit i).cur = some cs ∧ (t.chan s.ev.unit i).queue = rest ∧
      (t.chan s.ev.unit i).state = .running ∧ (t.chan s.ev.unit i).elem = 0 ∧ (t.chan s.ev.unit i).flags = 0 := by
  have run : exec .copyQueueHead s = execCopyQueueHead s := rfl
  unfold execCopyQueueHead at run
  dsimp only at run
  rw [chanNo_of_eq is, cur, queue] at run
  dsimp only at run
  rw [if_neg (by simp [good]), port, loads, vecs, rq, copyStopped_moves moves, if_neg (by simp), releaseActs_quiet lines acc,
    if_pos (by simp [State.backsOut, State.mergesOut, wbs, merges])] at run
  refine ⟨_, run, ?_⟩
  rw [chan_setChan]
  exact ⟨rfl, rfl, rfl, rfl, rfl⟩

/-! ### A write performed, and the last number completed (R287, R288) -/

include is in
theorem copyComplete_writes {w : CopyWrite} {pa : Nat} {timed : Bool} (cur : (s.chan s.ev.unit i).cur = some cs)
    (only : (s.chan s.ev.unit i).writes = [w]) (place : w.place = .phys pa timed) (offered : w.refused = none)
    (home : Spec.atHome s pa w.n) (lines : (s.cluster (clusterOf cs.core)).lines = []) (wbs : (s.cluster (clusterOf cs.core)).wbs = [])
    (res : Spec.resolved s cs) (all : s.ev.w = 0) :
    ∃ t, exec .copyComplete s = .next t ∧ (t.chan s.ev.unit i).writes = [] ∧
      Spec.stored s.hbm t.hbm pa w.n w.val.val.toNat (w.val.poison || (w.n != 8 && s.hbm.bad pa)) := by
  have run : exec .copyComplete s = execCopyComplete s := rfl
  obtain ⟨x, performed⟩ := performWrites_one only place offered home lines wbs res
  unfold execCopyComplete at run
  dsimp only at run
  rw [chanNo_of_eq is, cur] at run
  dsimp only at run
  rw [only, if_pos all, List.length_singleton, performed] at run
  dsimp only at run
  obtain ⟨u, hu⟩ : ∃ u, u = { s with hbm := s.hbm.write pa w.n w.val, slices := x }.setChan s.ev.unit i
    (({ s.chan s.ev.unit i with writes := [] } : Chan).remark cs) := ⟨_, rfl⟩
  have none_ : ((u.completeNums s.ev.unit i cs).chan s.ev.unit i).writes = [] := by
    rw [writes_completeNums, hu, chan_setChan, writes_remark]
  have hbm : (u.completeNums s.ev.unit i cs).hbm = s.hbm.write pa w.n w.val := by
    rw [hbm_completeNums, hu]
    rfl
  have changed : (u.completeNums s.ev.unit i cs != s) = true := by
    rw [bne_iff_ne]
    intro same
    rw [same, only] at none_
    exact List.cons_ne_nil _ _ none_
  rw [← hu, guardEvent, if_pos (by simp [offered]), guardEvent, if_pos changed] at run
  obtain ⟨-, -, -, -, wf, -⟩ := home
  refine ⟨_, run, none_, ?_⟩
  rw [hbm]
  exact write_stored wf ..

include is in
theorem copyComplete_ends (cur : (s.chan s.ev.unit i).cur = some cs) (running : (s.chan s.ev.unit i).state = .running)
    (writes : (s.chan s.ev.unit i).writes = []) (delivered : (s.chan s.ev.unit i).delivered = [cs.num])
    (iter : (s.chan s.ev.unit i).iter = 0) (once : cs.looping = false) (moves : Spec.copyMoves s cs)
    (task : (s.core cs.core).bind.task = cs.task) (below : (s.core cs.core).tlc.cnt.toNat < cs.num)
    (inOrder : (s.core cs.core).tlc.ahead = []) (all : s.ev.w = 0) :
    ∃ t, exec .copyComplete s = .next t ∧ (t.chan s.ev.unit i).cur = none ∧ (t.chan s.ev.unit i).state = .idle ∧
      (t.core cs.core).tlc = (s.core cs.core).tlc.complete cs.num := by
  have run : exec .copyComplete s = execCopyComplete s := rfl
  obtain ⟨w, completed⟩ := completeNums_last rfl moves running delivered writes iter once
  have chan : (s.completeNums s.ev.unit i cs).chan s.ev.unit i =
      { s.chan s.ev.unit i with cur := none, state := .idle, delivered := [], csrcnt := w } := by
    rw [completed, chan_octets (octets_onStarter ..), chan_setChan]
  have changed : (s.completeNums s.ev.unit i cs != s) = true := by
    rw [bne_iff_ne]
    intro same
    rw [same] at chan
    have := congrArg Chan.cur chan
    rw [cur] at this
    exact Option.some_ne_none _ this
  have nothing : s.performWrites s.ev.unit i cs 0 = s := rfl
  unfold execCopyComplete at run
  dsimp only at run
  rw [chanNo_of_eq is, cur] at run
  dsimp only at run
  rw [writes, if_pos all, List.length_nil, nothing, guardEvent, if_pos (by simp [delivered, running]), guardEvent, if_pos changed] at run
  refine ⟨_, run, ?_, ?_, ?_⟩
  · rw [chan]
  · rw [chan]
  · rw [completed]
    exact tlc_onStarter (s := s.setChan _ _ _) task below inOrder

/-! ### The next iteration (R285) -/

include is in
theorem copyIterationRelease_opens (cur : (s.chan s.ev.unit i).cur = some cs) (waits : (s.chan s.ev.unit i).state = .waitRelease)
    (moves : Spec.copyMoves s cs) (free : s.stageFree cs ((s.chan s.ev.unit i).iter + 1) = true) :
    ∃ t, exec .copyIterationRelease s = .next t ∧ (t.chan s.ev.unit i).iter = (s.chan s.ev.unit i).iter + 1 ∧
      (t.chan s.ev.unit i).elem = 0 ∧ (t.chan s.ev.unit i).state = .running := by
  have run : exec .copyIterationRelease s = execCopyIterationRelease s := rfl
  unfold execCopyIterationRelease at run
  dsimp only at run
  rw [chanNo_of_eq is, cur] at run
  dsimp only at run
  rw [guardEvent, if_pos (by simp [waits, copyStopped_moves moves, free])] at run
  refine ⟨_, run, ?_⟩
  rw [chan_setChan]
  exact ⟨rfl, rfl, rfl⟩

end Channel

end Sys2Proof.Machine
end

section
/-! PROOFS (O42). Copy channels: an element moved, a frozen channel, the commands of the core and forwarded tags (R119, R279 to R292). -/

namespace Sys2Proof.Machine

/-! ### One element of the own local store (R281, R287) -/

section Element
variable {s : State} {cs : CopyStart} {o : Nat} {i : Fin 8} {a b : Nat}

/-- The own local store below the save slots, for any access. -/
theorem reachT_ownLs {c : CoreId} (compute : c < mgmtCore) (inside : a + 8 ≤ 6144) (t : BitVec 12) (k : AccessKind) :
    s.reachT c t k (Spec.lsAddr a) = .place (.ls c a) := by
  have at_ := lsAddr_toNat (show a < 8192 by omega)
  rw [Spec.lsBase] at at_
  rw [State.reachT, State.windowReach, if_neg (by omega), if_neg (by simpa using compute.ne), if_pos (by omega), if_pos (by omega),
    if_neg (by simp; omega), at_, Nat.add_sub_cancel_left]

theorem copyRead_ownLs (compute : cs.core < mgmtCore) (inside : a + 8 ≤ 6144) :
    s.copyRead cs (Spec.lsAddr a) 8 = .inl ((s.core cs.core).ls.read a 8, s) := by
  have at_ := lsAddr_toNat (show a < 8192 by omega)
  rw [Spec.lsBase] at at_
  unfold State.copyRead
  dsimp only
  rw [touch_lsAddr _ _ (by omega), reachT_ownLs compute inside]
  rfl

theorem copyReadAfter_none (none_ : (s.chan o i).writes = []) (va : Word) (n : Nat) : s.copyReadAfter o i cs va n = s.copyRead cs va n := by
  unfold State.copyReadAfter
  dsimp only
  refine if_neg ?_
  split
  · simp [none_]
  · simp

/-- The core of a copy after `n` bytes of it have been written to its local store (R404). -/
def Core.copiedTo (k : Core) (off n : Nat) (v : PWord) : Core :=
  (k.counts fun a => { a with copied := a.copied + n }).withLs (lsWrite k.ls off n v)

theorem copyWrite_ownLs (compute : cs.core < mgmtCore) (inside : b + 8 ≤ 6144) (v : PWord) :
    s.copyWrite o i cs (Spec.lsAddr b) 8 v = .ok (s.modCore cs.core (·.copiedTo b 8 v)) := by
  have at_ := lsAddr_toNat (show b < 8192 by omega)
  rw [Spec.lsBase] at at_
  have stored : ∀ u : State, u.portWrite (.ls cs.core b) 8 v = u.modCore cs.core fun k => k.withLs (lsWrite k.ls b 8 v) := fun _ => rfl
  unfold State.copyWrite
  dsimp only
  rw [touch_lsAddr _ _ (by omega), reachT_ownLs compute inside]
  dsimp only [State.fifoBank, Place.cacheLine]
  rw [stored, modCore_modCore]
  rfl

theorem moveElem_ownLs (compute : cs.core < mgmtCore) (insideA : a + 8 ≤ 6144) (insideB : b + 8 ≤ 6144) (none_ : (s.chan o i).writes = []) :
    ∃ u f, s.moveElem o i cs ⟨Spec.lsAddr a, Spec.lsAddr b, 8⟩ = .ok u ∧ u.chan o i = { s.chan o i with flags := f } ∧
      ∀ h, u.setChan o i h = (s.modCore cs.core (·.copiedTo b 8 ((s.core cs.core).ls.read a 8))).setChan o i h := by
  unfold State.moveElem
  rw [copyReadAfter_none none_, copyRead_ownLs compute insideA]
  dsimp only
  rw [copyWrite_ownLs compute insideB]
  dsimp only
  split
  · exact ⟨_, _, rfl, chan_setChan .., setChan_setChan _ _ _ _⟩
  · exact ⟨_, _, rfl, rfl, fun _ => rfl⟩

theorem settleMark_step (h : Chan) (cs : CopyStart) : ∃ m, ({ h with elem := h.elem + 1 } : Chan).settleMark cs =
    { h with elem := h.elem + 1, wmark := m } := ⟨_, rfl⟩

section One
variable (one : Spec.oneElement cs)

include one in
theorem oneElement_form : cs.isWalk = false ∧ cs.cmode = 0 ∧ cs.looping = false ∧ (∀ h : Chan, h.stepCount cs = 1) ∧
    (∀ h : Chan, h.step cs 0 0 = ⟨cs.src, cs.dst, 8⟩) ∧ cs.tagen = false ∧ (cs.word 7).getLsbD 63 = false := by
  obtain ⟨mode, conv, loop, dims, count, size, tag, fwd⟩ := one
  have walk : cs.isWalk = false := by simp [CopyStart.isWalk, mode]
  have counts : cs.counts = [1] := by
    rw [CopyStart.counts, dims, show List.range 1 = [0] from rfl, List.map_singleton, count]
  refine ⟨walk, conv, loop, fun h => ?_, fun h => ?_, tag, fwd⟩
  · simp [Chan.stepCount, conv, walk, CopyStart.total, counts]
  · simp [Chan.step, conv, walk, loop, counts, digits, strideSum, size]

include one in
theorem copyStep_one {h : Chan} (is : s.chan o i = h) (elem : h.elem = 0) (iter : h.iter = 0) (compute : cs.core < mgmtCore)
    (src : cs.src = Spec.lsAddr a) (dst : cs.dst = Spec.lsAddr b) (insideA : a + 8 ≤ 6144) (insideB : b + 8 ≤ 6144) (none_ : h.writes = []) :
    ∃ f m, s.copyStep o i cs = .ok ((s.modCore cs.core (·.copiedTo b 8 ((s.core cs.core).ls.read a 8))).setChan o i
      { h with elem := 1, flags := f, wmark := m }) := by
  subst is
  obtain ⟨walk, conv, -, -, step, -⟩ := oneElement_form one
  obtain ⟨u, f, moved, chan, set⟩ := moveElem_ownLs (cs := cs) compute insideA insideB none_
  have taken : (s.chan o i).taken cs = 0 := by rw [Chan.taken, walk, elem]; rfl
  have first : (s.chan o i).step cs (s.chan o i).iter ((s.chan o i).taken cs) = ⟨Spec.lsAddr a, Spec.lsAddr b, 8⟩ := by
    rw [iter, taken, step, src, dst]
  unfold State.copyStep State.moveStep
  dsimp only
  rw [if_neg (by simp [conv]), if_neg (by simp [walk]), if_neg (by simp [walk]), first, moved]
  dsimp only
  have next : (u.chan o i).elem + 1 = 1 := by
    rw [chan]
    exact congrArg (· + 1) elem
  obtain ⟨m, mark⟩ := settleMark_step (u.chan o i) cs
  rw [set, mark, next, chan]
  exact ⟨f, m, rfl⟩

include one in
theorem copySteps_one {h : Chan} (is : s.chan o i = h) (elem : h.elem = 0) (iter : h.iter = 0) (compute : cs.core < mgmtCore)
    (src : cs.src = Spec.lsAddr a) (dst : cs.dst = Spec.lsAddr b) (insideA : a + 8 ≤ 6144) (insideB : b + 8 ≤ 6144) (none_ : h.writes = [])
    (n : Nat) : ∃ f m, s.copySteps o i cs (1 + n) = (s.modCore cs.core (·.copiedTo b 8 ((s.core cs.core).ls.read a 8))).setChan o i
      { h with elem := 1, flags := f, wmark := m } := by
  obtain ⟨walk, -, -, count, -⟩ := oneElement_form one
  obtain ⟨f, m, stepped⟩ := copyStep_one one is elem iter compute src dst insideA insideB none_
  have all : ∀ g : Chan, g.allTaken cs = decide (1 ≤ g.elem) := fun g => by rw [Chan.allTaken, walk, count]; rfl
  refine ⟨f, m, ?_⟩
  rw [Nat.add_comm, State.copySteps, if_neg (by rw [is, all, elem]; decide), stepped]
  dsimp only
  cases n with
  | zero => rfl
  | succ n => rw [State.copySteps, if_pos (by rw [chan_setChan, all]; rfl)]

end One
end Element

section Channel
variable {s : State} {cs : CopyStart} {i : Fin 8} (is : i.val = s.ev.idx)

include is in
theorem copyDelivered_one {a b : Nat} (compute : cs.core < mgmtCore) (cur : (s.chan s.ev.unit i).cur = some cs) (running : (s.chan s.ev.unit i).state = .running)
    (elem : (s.chan s.ev.unit i).elem = 0) (iter : (s.chan s.ev.unit i).iter = 0) (writes : (s.chan s.ev.unit i).writes = [])
    (delivered : (s.chan s.ev.unit i).delivered = []) (one : Spec.oneElement cs) (all : s.ev.w = 0) (moves : Spec.copyMoves s cs)
    (src : cs.src = Spec.lsAddr a) (dst : cs.dst = Spec.lsAddr b) (insideA : a + 8 ≤ 6144) (insideB : b + 8 ≤ 6144) :
    ∃ h, exec .copyDelivered s = .next (((s.modCore cs.core (·.copiedTo b 8 ((s.core cs.core).ls.read a 8))).setChan s.ev.unit i h).onStarter cs
        fun k => k.completeTlc ([cs.num].filter fun n => decide (k.tlc.cnt.toNat < n) && !natHas k.tlc.ahead n)) ∧
      h.cur = none ∧ h.state = .idle := by
  have run : exec .copyDelivered s = execCopyDelivered s := rfl
  obtain ⟨walk, -, once, count, -, tag, fwd⟩ := oneElement_form one
  obtain ⟨f, m, stepped⟩ := copySteps_one one rfl elem iter compute src dst insideA insideB writes (2 ^ 34)
  have done : ∀ g : Chan, g.elem = 1 → g.allTaken cs = true := fun g at_ => by rw [Chan.allTaken, walk, count, at_]; rfl
  have iters : cs.iters = 1 := if_neg (by simp [once])
  unfold execCopyDelivered at run
  dsimp only at run
  rw [chanNo_of_eq is, cur] at run
  dsimp only at run
  rw [guardEvent, if_pos (by simp [running, Chan.isDelivered, delivered, copyStopped_moves moves]), if_pos all, count, stepped, chan_setChan,
    if_pos (done _ rfl)] at run
  obtain ⟨u, hu⟩ : ∃ u, u = s.modCore cs.core (·.copiedTo b 8 ((s.core cs.core).ls.read a 8)) := ⟨_, rfl⟩
  rw [← hu] at run ⊢
  obtain ⟨h, hh, state, del, wr, it⟩ : ∃ h : Chan, h = { s.chan s.ev.unit i with elem := 1, flags := f, wmark := m } ∧ h.state = .running ∧
    h.delivered = [] ∧ h.writes = [] ∧ h.iter = 0 := ⟨_, rfl, running, delivered, writes, iter⟩
  rw [← hh] at run
  have stays : Spec.copyMoves (u.setChan s.ev.unit i { h with delivered := [cs.num] }) cs := by
    refine copyMoves_congr moves ?_ ?_ fun _ => ?_
    · rw [hu]
      rfl
    · rw [hu]
      change ((s.modCore cs.core (·.copiedTo b 8 ((s.core cs.core).ls.read a 8))).core cs.core).stop = _
      rw [core_modCore]
      rfl
    · rw [hu]
      rfl
  obtain ⟨w, completed⟩ := completeNums_last (chan_setChan ..) stays state rfl wr it once
  have ends : (u.setChan s.ev.unit i h).deliver s.ev.unit i cs =
      (u.setChan s.ev.unit i { h with delivered := [cs.num] }).completeNums s.ev.unit i cs := by
    have next : ∀ v : State, (v.chan s.ev.unit i).iter = 0 → v.nextIter s.ev.unit i cs = v := fun v it => if_neg (by rw [it, iters]; decide)
    unfold State.deliver
    dsimp only
    rw [copyTag_untagged tag, forward_none fwd, chan_setChan, setChan_setChan, Chan.number, it, del, next _ (by rw [chan_setChan])]
    rfl
  rw [ends, completed, setChan_setChan] at run
  exact ⟨_, run, rfl, rfl⟩

include is in
theorem copyFreeze_hole (cur : (s.chan s.ev.unit i).cur = some cs) (running : (s.chan s.ev.unit i).state = .running)
    (elem : (s.chan s.ev.unit i).elem = 0) (iter : (s.chan s.ev.unit i).iter = 0) (writes : (s.chan s.ev.unit i).writes = [])
    (one : Spec.oneElement cs) (moves : Spec.copyMoves s cs) (far : 2 ^ 48 ≤ cs.src.toNat) :
    ∃ t, exec .copyFreeze s = .next t ∧ (t.chan s.ev.unit i).state = .frozen ∧ (t.chan s.ev.unit i).faddr = cs.src ∧
      (t.chan s.ev.unit i).flags &&& 7 = 1 := by
  have run : exec .copyFreeze s = execCopyFreeze s := rfl
  obtain ⟨walk, conv, once, count, step, tag, fwd⟩ := oneElement_form one
  have untouched : s.touch cs.core cs.tenant cs.src = s := touch_lsAddr _ _ (by omega)
  have taken : (s.chan s.ev.unit i).taken cs = 0 := by rw [Chan.taken, walk, elem]; rfl
  have open_ : (s.chan s.ev.unit i).allTaken cs = false := by rw [Chan.allTaken, walk, count, elem]; rfl
  have faults : s.copyStep s.ev.unit i cs = .fault cs.src false 1 := by
    unfold State.copyStep State.moveStep State.moveElem
    dsimp only
    rw [if_neg (by simp [conv]), if_neg (by simp [walk]), if_neg (by simp [walk]), iter, taken, step, copyReadAfter_none writes]
    unfold State.copyRead
    dsimp only
    rw [untouched, State.reachT, if_pos far]
    rfl
  unfold execCopyFreeze at run
  dsimp only at run
  rw [chanNo_of_eq is, cur] at run
  dsimp only at run
  rw [if_pos (by simp [running, open_, copyStopped_moves moves]), faults] at run
  dsimp only at run
  rw [untouched] at run
  have chan : (s.freeze s.ev.unit i cs cs.src false 1).chan s.ev.unit i = { s.chan s.ev.unit i with
      state := .frozen, faddr := cs.src, flags := ((s.chan s.ev.unit i).flags &&& 0xF8) ||| 1 ||| 0 } := by
    unfold State.freeze
    dsimp only
    rw [chan_octets (octets_forward ..), chan_octets (octets_copyTag ..), chan_setChan]
    rfl
  refine ⟨_, run, ?_⟩
  rw [chan]
  refine ⟨rfl, rfl, ?_⟩
  dsimp only
  generalize (s.chan s.ev.unit i).flags = x
  revert x
  decide

end Channel

/-! ### Commands of the core (R276, R279, R292) -/

section Commands
variable {s : State} {e : PortEntry} {i : Fin 8} (port : (s.core s.ev.core).work.port = [e]) (id : e.id = s.ev.idx)

include port in
theorem setPort_only : ((s.modCore s.ev.core fun k => k.setPort e.id fun _ => none).core s.ev.core).work.port = [] := by
  rw [core_modCore, Core.setPort, port]
  simp

include port id in
theorem portOf_only : (s.core s.ev.core).portOf s.ev.idx = some e := by
  simp [Core.portOf, port, id]

include port id in
theorem copyStart_queues {tidx : BitVec 6} {image : List Word} {psrc pdst : Word} {sup : Bool} {num : Nat}
    (kind : e.kind = .start i tidx image psrc pdst sup num) (room : (s.chan (octetOf s.ev.core) i).queue.length < 4)
    (plain : s.specTask s.ev.core = none) :
    ∃ t cs, exec .copyStart s = .next t ∧ (t.core s.ev.core).work.port = [] ∧
      (t.chan (octetOf s.ev.core) i).queue = (s.chan (octetOf s.ev.core) i).queue ++ [cs] ∧
      cs.core = s.ev.core ∧ cs.ctx = e.ctx ∧ cs.tidx = tidx ∧ cs.image = image ∧ cs.psrc = psrc ∧ cs.pdst = pdst ∧ cs.num = num := by
  have run : exec .copyStart s = execCopyStart s := rfl
  obtain ⟨cs, start, facts⟩ : ∃ cs : CopyStart, s.startOf s.ev.core e = some (i, cs) ∧ cs.core = s.ev.core ∧ cs.ctx = e.ctx ∧
      cs.tidx = tidx ∧ cs.image = image ∧ cs.psrc = psrc ∧ cs.pdst = pdst ∧ cs.num = num := by
    rw [State.startOf, kind]
    exact ⟨_, rfl, rfl, rfl, rfl, rfl, rfl, rfl, rfl⟩
  unfold execCopyStart at run
  dsimp only at run
  rw [portOf_only port id] at run
  dsimp only at run
  rw [start] at run
  dsimp only at run
  rw [guardEvent, if_pos (by simp [room, port, plain])] at run
  refine ⟨_, cs, run, setPort_only (s := s) port, ?_, facts⟩
  rw [chan_setChan]

variable (loads : (s.core s.ev.core).work.loads = []) (vecs : (s.core s.ev.core).work.vecs = []) (rq : (s.core s.ev.core).work.rq = [])
  (kind : e.kind = .plain) (place : e.place = .aperture i.val 0)

include port id loads vecs rq kind place in
theorem onStartWord_only {bit : Nat} (set : e.val.val.getLsbD bit = true) (k : PortEntry → Fin 8 → Res) : onStartWord bit s k = k e i := by
  have free : s.mustWait s.ev.core e.ctx e.id e.place true = false := by simp [State.mustWait, port, loads, vecs, rq]
  unfold onStartWord
  rw [portOf_only port id]
  dsimp only
  rw [free, set, kind, place]
  exact congrArg (k e) (chanNo_of_eq rfl)

include port id loads vecs rq kind place in
theorem copyResume_runs (set : e.val.val.getLsbD 7 = true) (frozen : (s.chan (octetOf s.ev.core) i).state = .frozen) :
    ∃ t, exec .copyResume s = .next t ∧ (t.core s.ev.core).work.port = [] ∧ (t.chan (octetOf s.ev.core) i).state = .running ∧
      (t.chan (octetOf s.ev.core) i).faddr = 0 ∧ (t.chan (octetOf s.ev.core) i).cur = (s.chan (octetOf s.ev.core) i).cur := by
  have run : exec .copyResume s = execCopyResume s := rfl
  obtain ⟨u, hu⟩ : ∃ u, u = s.modCore s.ev.core fun k => k.setPort e.id fun _ => none := ⟨_, rfl⟩
  have gone : (u.core s.ev.core).work.port = [] := by rw [hu, setPort_only port]
  have chan : u.chan (octetOf s.ev.core) i = s.chan (octetOf s.ev.core) i := by rw [hu]; rfl
  unfold execCopyResume at run
  dsimp only at run
  rw [onStartWord_only port id loads vecs rq kind place set] at run
  rw [← hu, chan, if_pos (by simp [frozen])] at run
  refine ⟨_, run, gone, ?_⟩
  rw [chan_setChan]
  split
  · exact ⟨rfl, rfl, rfl⟩
  · exact ⟨rfl, rfl, rfl⟩

include port id loads vecs rq kind place in
/-- An ABORT once the writes that it leaves have been performed. -/
theorem copyAbort_ends {cs : CopyStart} {u : State} (set : e.val.val.getLsbD 8 = true) (frozen : (s.chan (octetOf s.ev.core) i).state = .frozen)
    (cur : (s.chan (octetOf s.ev.core) i).cur = some cs)
    (performed : ((s.modCore s.ev.core fun k => k.setPort e.id fun _ => none).setChan (octetOf s.ev.core) i
      { s.chan (octetOf s.ev.core) i with writes := (s.chan (octetOf s.ev.core) i).keptWrites cs }).performWrites (octetOf s.ev.core) i cs
        ((s.chan (octetOf s.ev.core) i).keptWrites cs).length = u)
    (empty : (u.chan (octetOf s.ev.core) i).writes = []) (gone : (u.core s.ev.core).work.port = []) :
    ∃ t, (exec .copyAbort s = .next t ∧ (t.core s.ev.core).work.port = [] ∧ (t.chan (octetOf s.ev.core) i).state = .idle ∧
      (t.chan (octetOf s.ev.core) i).cur = none ∧ (t.chan (octetOf s.ev.core) i).flags.getLsbD 6 = true ∧
      (t.chan (octetOf s.ev.core) i).writes = []) ∧ t.hbm = u.hbm := by
  have run : exec .copyAbort s = execCopyAbort s := rfl
  have chan : (s.modCore s.ev.core fun k => k.setPort e.id fun _ => none).chan (octetOf s.ev.core) i = s.chan (octetOf s.ev.core) i := rfl
  unfold execCopyAbort at run
  dsimp only at run
  rw [onStartWord_only port id loads vecs rq kind place set] at run
  rw [chan] at run
  split at run
  case h_2 other => exact absurd frozen (other cs cur)
  next cs' cur' _ =>
  obtain rfl : cs = cs' := Option.some.inj (cur.symm.trans cur')
  rw [performed, guardEvent, if_pos (by simp [empty])] at run
  refine ⟨_, ⟨run, ?_, ?_⟩, ?_⟩
  · rw [onStarter_coreField _ _ (·.work) (fun _ => work_completeTlc ..), core_forward, work_copyTag]
    exact gone
  · rw [chan_delivery, chan_setChan]
    refine ⟨rfl, rfl, ?_, empty⟩
    dsimp only
    rw [BitVec.getLsbD_or]
    simp
  · rw [hbm_onStarter, hbm_forward, hbm_copyTag]
    rfl

/-- The writes of a copy without a walk that an ABORT leaves: those of another iteration than the current one. -/
theorem keptWrites_strided (h : Chan) {cs : CopyStart} (strided : cs.mode = 0) : h.keptWrites cs = h.writes.filter fun w => w.num != cs.num + h.iter :=
  if_neg (by simp [CopyStart.isWalk, strided])

include port id loads vecs rq kind place in
theorem copyAbort_current {cs : CopyStart} (set : e.val.val.getLsbD 8 = true) (frozen : (s.chan (octetOf s.ev.core) i).state = .frozen)
    (cur : (s.chan (octetOf s.ev.core) i).cur = some cs) (strided : cs.mode = 0)
    (current : ∀ w ∈ (s.chan (octetOf s.ev.core) i).writes, w.num = cs.num + (s.chan (octetOf s.ev.core) i).iter) :
    ∃ t, (exec .copyAbort s = .next t ∧ (t.core s.ev.core).work.port = [] ∧ (t.chan (octetOf s.ev.core) i).state = .idle ∧
      (t.chan (octetOf s.ev.core) i).cur = none ∧ (t.chan (octetOf s.ev.core) i).flags.getLsbD 6 = true ∧
      (t.chan (octetOf s.ev.core) i).writes = []) ∧ t.hbm = s.hbm := by
  have kept : (s.chan (octetOf s.ev.core) i).keptWrites cs = [] := by
    rw [keptWrites_strided _ strided, List.filter_eq_nil_iff]
    intro w mem
    simp [current w mem]
  refine copyAbort_ends port id loads vecs rq kind place set frozen cur (u := (s.modCore s.ev.core fun k => k.setPort e.id fun _ => none).setChan
    (octetOf s.ev.core) i { s.chan (octetOf s.ev.core) i with writes := [] }) ?_ ?_ (setPort_only (s := s) port)
  · rw [kept]
    rfl
  · rw [chan_setChan]

include port id loads vecs rq kind place in
theorem copyAbort_earlier {cs : CopyStart} {w : CopyWrite} {pa : Nat} {timed : Bool} (set : e.val.val.getLsbD 8 = true)
    (frozen : (s.chan (octetOf s.ev.core) i).state = .frozen) (cur : (s.chan (octetOf s.ev.core) i).cur = some cs) (strided : cs.mode = 0)
    (only : (s.chan (octetOf s.ev.core) i).writes = [w]) (earlier : w.num ≠ cs.num + (s.chan (octetOf s.ev.core) i).iter)
    (at_ : w.place = .phys pa timed) (offered : w.refused = none) (home : Spec.atHome s pa w.n)
    (lines : (s.cluster (clusterOf cs.core)).lines = []) (wbs : (s.cluster (clusterOf cs.core)).wbs = []) (res : Spec.resolved s cs) :
    ∃ t, (exec .copyAbort s = .next t ∧ (t.core s.ev.core).work.port = [] ∧ (t.chan (octetOf s.ev.core) i).state = .idle ∧
      (t.chan (octetOf s.ev.core) i).cur = none ∧ (t.chan (octetOf s.ev.core) i).flags.getLsbD 6 = true ∧
      (t.chan (octetOf s.ev.core) i).writes = []) ∧
      Spec.stored s.hbm t.hbm pa w.n w.val.val.toNat (w.val.poison || (w.n != 8 && s.hbm.bad pa)) := by
  have kept : (s.chan (octetOf s.ev.core) i).keptWrites cs = [w] := by
    rw [keptWrites_strided _ strided, only]
    simp [earlier]
  obtain ⟨v, hv⟩ : ∃ v, v = (s.modCore s.ev.core fun k => k.setPort e.id fun _ => none).setChan
    (octetOf s.ev.core) i { s.chan (octetOf s.ev.core) i with writes := [w] } := ⟨_, rfl⟩
  have left : (v.chan (octetOf s.ev.core) i).writes = [w] := by rw [hv, chan_setChan]
  have gone : (v.core s.ev.core).work.port = [] := by
    rw [hv]
    exact setPort_only (s := s) port
  have homeV : Spec.atHome v pa w.n := by rw [hv]; exact home
  have linesV : (v.cluster (clusterOf cs.core)).lines = [] := by rw [hv]; exact lines
  have wbsV : (v.cluster (clusterOf cs.core)).wbs = [] := by rw [hv]; exact wbs
  have resV : Spec.resolved v cs := by rw [hv]; exact res
  have hbmV : v.hbm = s.hbm := by rw [hv]; rfl
  obtain ⟨x, performed⟩ := performWrites_one left at_ offered homeV linesV wbsV resV
  have emptied : ((v.performWrites (octetOf s.ev.core) i cs 1).chan (octetOf s.ev.core) i).writes = [] := by
    rw [performed, chan_setChan, writes_remark]
  have written : (v.performWrites (octetOf s.ev.core) i cs 1).hbm = s.hbm.write pa w.n w.val := by
    rw [performed, ← hbmV]
    rfl
  have goneW : ((v.performWrites (octetOf s.ev.core) i cs 1).core s.ev.core).work.port = [] := by
    rw [performed]
    exact gone
  obtain ⟨t, ends, hbm⟩ := copyAbort_ends port id loads vecs rq kind place set frozen cur
    (u := v.performWrites (octetOf s.ev.core) i cs 1) (by rw [kept, ← hv]; rfl) emptied goneW
  refine ⟨t, ends, ?_⟩
  obtain ⟨-, -, -, -, wf, -⟩ := home
  rw [hbm, written]
  exact write_stored wf ..

end Commands

/-! ### Forwarded tags (R119, R286) -/

section Tags
variable {s : State} {l : BitVec 18} {tg : BitVec 6} {err : Bool} {task : TaskRef} (only : Spec.onlyMsg s (.tag l tg err (some task)))

include only in
theorem forwardedTag_ended (other : (s.core (s.physOf l.toNat)).bind.task ≠ some task) (ended : s.taskAt task = none) :
    exec .forwardedTag s = .next { s with fabric := [] } := by
  have run : exec .forwardedTag s = execForwardedTag s := rfl
  rw [run, execForwardedTag, msg_only only, takeMsg_only only]
  refine (if_neg ?_).trans ?_
  · rw [beq_iff_eq]
    exact other
  · rw [Option.bind_some, ended]
    rfl

include only in
theorem forwardedTag_away {k : Task} (other : (s.core (s.physOf l.toNat)).bind.task ≠ some task) (found : s.taskAt task = some k)
    (away : k.phase = .displaced) : exec .forwardedTag s = .refused .eventDisabled := by
  have run : exec .forwardedTag s = execForwardedTag s := rfl
  rw [run, execForwardedTag, msg_only only, takeMsg_only only]
  refine (if_neg ?_).trans ?_
  · rw [beq_iff_eq]
    exact other
  · rw [Option.bind_some, found]
    dsimp only
    rw [away]
    rfl

include only in
theorem forwardedTag_taken {x : CoreId} (same : (s.core (s.physOf l.toNat)).bind.task = some task)
    (moves : (s.core (s.physOf l.toNat)).stop = some (.migrate x)) : exec .forwardedTag s = .next { s with routed := [s.ev.idx] } := by
  have run : exec .forwardedTag s = execForwardedTag s := rfl
  have kept : s.setRefused s.ev.idx none = s := by
    rw [State.setRefused, only.1]
    change { s with fabric := [if (s.ev.idx == s.ev.idx) = true then (s.ev.idx, Msg.tag l tg err (some task))
      else (s.ev.idx, Msg.tag l tg err (some task))] } = _
    rw [ite_self, ← only.1]
  rw [run, execForwardedTag, msg_only only, takeMsg_only only]
  refine (if_pos ?_).trans ?_
  · rw [beq_iff_eq]
    exact same
  · rw [atRouter_migrates only (by rw [State.migrating, moves]), kept]

include only in
theorem forwardedTag_set (same : (s.core (s.physOf l.toNat)).bind.task = some task) (stays : Spec.stays s l) :
    ∃ t, exec .forwardedTag s = .next t ∧ t.fabric = [] ∧
      (t.core (s.physOf l.toNat)).tags =
        (if err then (s.core (s.physOf l.toNat)).tags else (s.core (s.physOf l.toNat)).tags ||| BitVec.ofNat 64 (2 ^ tg.toNat)) ∧
      (t.core (s.physOf l.toNat)).tagerr =
        (if err then (s.core (s.physOf l.toNat)).tagerr ||| BitVec.ofNat 64 (2 ^ tg.toNat) else (s.core (s.physOf l.toNat)).tagerr) := by
  have run : exec .forwardedTag s = execForwardedTag s := rfl
  obtain ⟨u, hu, gone, core, phys⟩ : ∃ u : State, u = { s with fabric := [] } ∧ u.fabric = [] ∧ (∀ c, u.core c = s.core c) ∧
    ∀ n, u.physOf n = s.physOf n := ⟨_, rfl, rfl, fun _ => rfl, fun _ => rfl⟩
  rw [execForwardedTag, msg_only only, takeMsg_only only, ← hu] at run
  dsimp only at run
  rw [phys, if_pos (by simp [same]), atRouter_stays only stays] at run
  refine ⟨_, run, gone, ?_⟩
  rw [core_modCore, core]
  cases err with
  | true =>
    obtain ⟨v, eq⟩ := setTagErr_form (s.core (s.physOf l.toNat)) tg.isLt
    rw [if_pos rfl, if_pos rfl, if_pos rfl, eq, bitAt_eq]
    exact ⟨rfl, rfl⟩
  | false =>
    obtain ⟨v, eq⟩ := setTag_form (s.core (s.physOf l.toNat)) tg.isLt
    rw [if_neg Bool.false_ne_true, if_neg Bool.false_ne_true, if_neg Bool.false_ne_true, eq, bitAt_eq]
    exact ⟨rfl, rfl⟩

end Tags

/-! ### The obligation -/

theorem read_toNat (m : Memory) (a : Nat) : (m.read a 8).val.toNat = Spec.bytes m a 8 := by
  rw [bytes_eq_readNat, Memory.read, BitVec.toNat_ofNat]
  exact Nat.mod_eq_of_lt (Memory.readNat_lt m a 8)

theorem copiesRun : Spec.copiesRun := by
  intro s i cs rest
  dsimp only
  intro is compute _
  refine ⟨fun cur queue strided dims => copyQueueHead_bad is cur queue (by simp [State.templateBad, strided, dims]), ?_, ?_, ?_, ?_, ?_⟩
  · rintro cur queue good ⟨lines, wbs, acc, merges⟩ port loads vecs rq moves
    exact copyQueueHead_runs is cur queue good lines wbs acc merges port loads vecs rq moves
  · intro cur running elem iter writes delivered one all moves
    refine ⟨fun a b src dst _ _ insideA insideB wf => ?_, fun far => copyFreeze_hole is cur running elem iter writes one moves far⟩
    obtain ⟨h, run, none_, idle⟩ := copyDelivered_one is compute cur running elem iter writes delivered one all moves src dst insideA insideB
    have chan := (chan_octets (octets_onStarter ((s.modCore cs.core (·.copiedTo b 8 ((s.core cs.core).ls.read a 8))).setChan s.ev.unit i h) cs
      fun k => k.completeTlc ([cs.num].filter fun n => decide (k.tlc.cnt.toNat < n) && !natHas k.tlc.ahead n)) s.ev.unit i).trans
        (chan_setChan ..)
    have core : ((s.modCore cs.core (·.copiedTo b 8 ((s.core cs.core).ls.read a 8))).setChan s.ev.unit i h).core cs.core =
      (s.core cs.core).copiedTo b 8 ((s.core cs.core).ls.read a 8) := by
      change (s.modCore cs.core (·.copiedTo b 8 ((s.core cs.core).ls.read a 8))).core cs.core = _
      rw [core_modCore]
    refine ⟨_, run, (congrArg Chan.cur chan).trans none_, (congrArg Chan.state chan).trans idle, fun task below inOrder => ?_, ?_, ?_⟩
    · rw [tlc_onStarter (by rw [core]; exact task) (by rw [core]; exact below) (by rw [core]; exact inOrder), core]
      rfl
    · exact hbm_onStarter ..
    · rw [onStarter_coreField _ _ (·.ls) (fun k => ls_completeTlc ..), core]
      have placed : ((s.core cs.core).copiedTo b 8 ((s.core cs.core).ls.read a 8)).ls =
          (s.core cs.core).ls.write b 8 ((s.core cs.core).ls.read a 8) := if_pos (by omega)
      have stored := write_stored wf b 8 ((s.core cs.core).ls.read a 8)
      rw [placed]
      rwa [read_toNat, bne_self_eq_false, Bool.false_and, Bool.or_false] at stored
  · rintro w pa timed cur only place offered home ⟨lines, wbs, -, -⟩ res all
    exact copyComplete_writes is cur only place offered home lines wbs res all
  · intro cur running writes delivered iter once moves task below inOrder all
    exact copyComplete_ends is cur running writes delivered iter once moves task below inOrder all
  · exact fun cur waits moves free => copyIterationRelease_opens is cur waits moves free

theorem copiesCommanded : Spec.copiesCommanded := by
  intro s e i
  refine ⟨fun _ port id loads vecs rq => ⟨?_, ?_⟩, ?_⟩
  · exact fun tidx image psrc pdst sup num kind room plain => copyStart_queues port id kind room plain
  · refine fun kind place frozen _ => ⟨fun set => copyResume_runs port id loads vecs rq kind place set frozen, ?_⟩
    rintro cs set cur core strided
    dsimp only
    refine ⟨fun current => copyAbort_current port id loads vecs rq kind place set frozen cur strided current, ?_⟩
    intro w pa timed only earlier at_ offered home lines wbs res
    rw [← core] at lines wbs
    exact copyAbort_earlier port id loads vecs rq kind place set frozen cur strided only earlier at_ offered home lines wbs res
  · intro l tg err task fabric routed
    have only : Spec.onlyMsg s (.tag l tg err (some task)) := ⟨fabric, routed⟩
    refine ⟨forwardedTag_ended only, fun other away found => ?_, fun x same moves => forwardedTag_taken only same moves,
      forwardedTag_set only⟩
    obtain ⟨k, at_⟩ := Option.ne_none_iff_exists'.1 found
    exact forwardedTag_away only other at_ (away k at_)

/-- Settles O42: the channel's course event by event, then the commands of its core, then forwarded tags. -/
theorem copies : Obligations.Copies := ⟨copiesRun, copiesCommanded⟩

end Sys2Proof.Machine
end

section
/-! PROOFS (O40). Tasks that leave their core, come back and migrate (R112, R114, R117, R118). -/

namespace Sys2Proof.Machine

/-! ### What reaches a home leaves cores, octets, tables and turn alone (R165) -/

/-- Two states with the same cores, octets and task tables, at the instruction of the same context. -/
structure HomeOnly (s t : State) : Prop where
  cores : t.cores = s.cores
  octets : t.octets = s.octets
  sectors : t.sectors = s.sectors
  cur : t.cur = s.cur

namespace HomeOnly
variable {s t u : State}

theorem refl (s : State) : HomeOnly s s := ⟨rfl, rfl, rfl, rfl⟩

theorem trans (h : HomeOnly s t) (k : HomeOnly t u) : HomeOnly s u := by
  obtain ⟨c, o, q, r⟩ := h
  obtain ⟨c', o', q', r'⟩ := k
  exact ⟨c'.trans c, o'.trans o, q'.trans q, r'.trans r⟩

theorem ite {p : Prop} [Decidable p] (h : HomeOnly s t) (k : HomeOnly s u) : HomeOnly s (if p then t else u) := by
  split
  · exact h
  · exact k

theorem foldl {α : Type} {f : State → α → State} (step : ∀ v x, HomeOnly v (f v x)) (l : List α) (s : State) : HomeOnly s (l.foldl f s) := by
  induction l generalizing s with
  | nil => exact refl s
  | cons x l ih => exact (step s x).trans (ih _)

theorem wipeGranule (s : State) (g : Nat) : HomeOnly s (s.wipeGranule g) := by
  unfold State.wipeGranule
  exact ite ⟨rfl, rfl, rfl, rfl⟩ ⟨rfl, rfl, rfl, rfl⟩

theorem hbmWrite (s : State) (pa n : Nat) (v : PWord) : HomeOnly s (s.hbmWrite pa n v) := by
  unfold State.hbmWrite
  exact ite ((wipeGranule s _).trans ⟨rfl, rfl, rfl, rfl⟩) ⟨rfl, rfl, rfl, rfl⟩

theorem viewWrite (s : State) (pa : Nat) : HomeOnly s (s.viewWrite pa) := by
  unfold State.viewWrite
  split
  · exact ⟨rfl, rfl, rfl, rfl⟩
  · exact refl s

theorem homeWrite (s : State) (pa n : Nat) (v : PWord) : HomeOnly s (s.homeWrite pa n v) := ite (hbmWrite ..) (viewWrite ..)

theorem homeApplyBy (s : State) (e : Option TqEntry) (pa n : Nat) (v : PWord) (h : Hist) : HomeOnly s (s.homeApplyBy e pa n v h) := by
  unfold State.homeApplyBy
  dsimp only
  exact ite (ite (homeWrite ..) ((homeWrite s pa n v).trans ⟨rfl, rfl, rfl, rfl⟩)) (homeWrite ..)

theorem writerBehind (s : State) (e : TqEntry) : HomeOnly s (s.writerBehind e) := by
  unfold State.writerBehind State.markBehind
  exact ite (ite ⟨rfl, rfl, rfl, rfl⟩ (refl s)) (refl s)

theorem applyEntry (s : State) (e : TqEntry) : HomeOnly s (s.applyEntry e) := by
  unfold State.applyEntry
  dsimp only
  split
  · exact (writerBehind s e).trans (homeApplyBy ..)
  · exact (writerBehind s e).trans (homeApplyBy ..)

theorem settleHome (s : State) (pa : Nat) : HomeOnly s (s.settleHome pa) := by
  refine ite ?_ (refl s)
  unfold State.applyDue
  exact (foldl applyEntry _ s).trans ⟨rfl, rfl, rfl, rfl⟩

theorem arriveWrite (s : State) (pa n : Nat) (v : PWord) (h : Hist) : HomeOnly s (s.arriveWrite pa n v h) :=
  (settleHome s pa).trans (homeApplyBy ..)

theorem writeSpill (s : State) (t : TaskRef) (c : CoreId) (held : Nat) : HomeOnly s (s.writeSpill t c held) := by
  unfold State.writeSpill
  generalize s.spillUnits c held = l
  obtain ⟨cores, octets, sectors, cur⟩ := foldl (fun (v : State) (e : Nat × PWord) => arriveWrite v (s.spillPage t + e.1) 8 e.2 .noPage) l s
  exact ⟨cores, octets, sectors, cur⟩

end HomeOnly

theorem taskAt_sectors {s t : State} (same : t.sectors = s.sectors) (r : TaskRef) : t.taskAt r = s.taskAt r := by
  rw [State.taskAt, State.sector, same]
  rfl

/-! ### Asking a core for its task (R112, R118, R270) -/

section Leaving
variable {s : State} {ref : TaskRef} {k : Task} (bound : (s.core s.ev.core).bind.task = some ref) (found : s.taskAt ref = some k)
  (runs : k.phase = .running s.ev.core)

include bound found runs in
theorem runningTask_eq : s.runningTask s.ev.core = some (ref, k) := by
  rw [State.runningTask, bound]
  dsimp only
  rw [found]
  dsimp only
  rw [runs, if_pos (by simp)]

include bound found runs in
theorem displacement_asks (idle : (s.core s.ev.core).stop = none) (noMmr : s.mmrInGroup (groupOf s.ev.core) = false) :
    exec .displacement s = .next (s.modCore s.ev.core fun x => { x with stop := some .displace }) := by
  have run : exec .displacement s = execDisplacement s := rfl
  unfold execDisplacement at run
  dsimp only at run
  rw [runningTask_eq bound found runs] at run
  dsimp only at run
  rw [idle] at run
  dsimp only at run
  rw [run, guardEvent, if_pos (by simp [noMmr])]

include bound found runs in
theorem thermalMigration_begins (idle : (s.core s.ev.core).stop = none) (noMmr : s.mmrInGroup (groupOf s.ev.core) = false)
    (loose : s.octetBound s.ev.core ref = false) (other : s.ev.core ≠ s.ev.core2) (group : groupOf s.ev.core = groupOf s.ev.core2)
    (free : s.coreFree s.ev.core2 = true) (hot : s.pastLimit s.ev.core = true) (cool : s.pastLimit s.ev.core2 = false) :
    exec .thermalMigration s = .next (s.modCore s.ev.core fun x => { x with stop := some (.migrate s.ev.core2) }) := by
  have run : exec .thermalMigration s = execThermalMigration s := rfl
  unfold execThermalMigration at run
  dsimp only at run
  rw [runningTask_eq bound found runs] at run
  dsimp only at run
  rw [run, guardEvent, if_pos (by simp [idle, noMmr, loose, other, ← group, free, hot, cool])]

end Leaving

/-! ### Off the core (R112, R113) -/

theorem endRelease_quiet {s : State} {c : CoreId} (lines : (s.cluster (clusterOf c)).lines = []) (wbs : (s.cluster (clusterOf c)).wbs = [])
    (acc : (s.cluster (clusterOf c)).acc = []) (merges : (s.cluster (clusterOf c)).merges = []) (t : BitVec 12) (sc : Scope)
    (ws : List (Nat × Nat)) (k : State → Res) : endRelease c t sc ws s k = k s := by
  simp [endRelease, State.endLines, lines, acc, State.backsOut, State.mergesOut, wbs, merges, guardEvent]

theorem bind_vacate (s : State) (c : CoreId) : ((s.vacate c).core c).bind.task = none := by
  rw [State.vacate, core_modCore]
  rfl

theorem displace_leaves {s : State} {c : CoreId} {ref : TaskRef} {k : Task} (found : s.taskAt ref = some k) :
    ((s.displace c ref).core c).bind.task = none ∧ ∃ k', (s.displace c ref).taskAt ref = some k' ∧ k'.phase = .displaced ∧ k'.desc = k.desc := by
  unfold State.displace
  dsimp only
  obtain ⟨-, -, sectors, -⟩ := HomeOnly.writeSpill s ref c ((s.heldJobs c).length + (s.core c).work.rq.length)
  generalize s.writeSpill ref c ((s.heldJobs c).length + (s.core c).work.rq.length) = w at sectors ⊢
  refine ⟨?_, _, taskAt_modTask _ ((taskAt_sectors (s := s) ?_ ref).trans found) rfl, rfl, rfl⟩
  · obtain ⟨q, eq⟩ := modTask_form ((((w.withdraw c).dropPins c).setOctet (octetOf c)
      ((((w.withdraw c).dropPins c).octet (octetOf c)).reown (octPos c) (awayOwner ref))).vacate c) ref _
    rw [eq]
    exact bind_vacate ..
  · exact sectors

end Sys2Proof.Machine
end

section
/-! PROOFS (O40). Tasks taken up again on a core: resume and migration (R114, R117, R118). -/

namespace Sys2Proof.Machine

/-! ### The logical core map (R117) -/

theorem find_put_first {α : Type} {p : Nat × α → Bool} {t : Table α} {c : Nat} {a : α} (here : p (c, a) = true)
    (first : ∀ e, t.find? p = some e → e.1 = c) : (Table.put t c a).find? p = some (c, a) := by
  induction t with
  | nil => simp [Table.put, here]
  | cons e t ih =>
    obtain ⟨i, b⟩ := e
    rw [Table.put]
    split
    · simp [here]
    · split
      · simp [here]
      · next _ ne =>
        have miss : p (i, b) = false := by
          by_contra hit
          exact ne (first (i, b) (List.find?_cons_of_pos (by simpa using hit)))
        rw [List.find?_cons_of_neg (by simp [miss])]
        exact ih fun e found => first e (by rw [List.find?_cons_of_neg (by simp [miss])]; exact found)

/-- A core that a logical number names goes on carrying it. -/
theorem physOf_setCore {s : State} {c : CoreId} {l : Nat} {k : Core} (compute : c < mgmtCore) (named : s.physOf l = c) (carries : k.lcn.toNat = l) :
    (s.setCore c k).physOf l = c := by
  have found : (Table.put s.cores c k).find? (fun e => decide (e.1 < mgmtCore) && e.2.lcn.toNat == l) = some (c, k) := by
    refine find_put_first (by simp [compute, carries]) fun e hit => ?_
    rw [State.physOf, hit] at named
    exact named
  rw [State.physOf, State.setCore, found]

/-- Core `d` takes the number of core `c`, and `c` that of `d`. -/
theorem remap_cores {s : State} {c d : CoreId} {l : BitVec 18} (named : s.physOf l.toNat = c) (ne : c ≠ d) :
    (s.remap l d).core c = { s.core c with lcn := (s.core d).lcn } ∧ (s.remap l d).core d = { s.core d with lcn := l } := by
  unfold State.remap
  dsimp only
  rw [named]
  constructor
  · rw [core_modCore_other _ _ ne, core_modCore]
  · rw [core_modCore, core_modCore_other _ _ ne.symm]

theorem remap_form (s : State) (l : BitVec 18) (c : CoreId) : ∃ x, s.remap l c = { s with cores := x } := ⟨_, rfl⟩

/-! ### Taking up (R114, R235) -/

/-- The core of a task that is taken up, before lanes are granted again. -/
def Core.takenUp (s : State) (c : CoreId) (k : Core) : Core :=
  let here := s.core c
  let k1 := k.modLive Ctx.resumed
  { k1 with
    lcn := here.lcn, act := here.act, last := here.last, point := here.point, ask := here.ask, coret := here.coret, lead := here.lead, stop := none
    work := { k1.work with send := here.work.send }, poolQ := [], lease := s.moveLease c k.lease, ls := k.ls.write 0x1FE8 8 PWord.zero }

@[simp] theorem bind_noteLow (k : Core) : k.noteLow.bind = k.bind := rfl
@[simp] theorem lcn_noteLow (k : Core) : k.noteLow.lcn = k.lcn := rfl
@[simp] theorem ctx_noteLow (k : Core) (n : CtxId) : k.noteLow.ctx n = k.ctx n := rfl

theorem takenUp_facts (s : State) (c : CoreId) (k : Core) : (Core.takenUp s c k).bind = k.bind ∧ (Core.takenUp s c k).lcn = (s.core c).lcn ∧
    ∀ n, (Core.takenUp s c k).ctx n = (k.modLive Ctx.resumed).ctx n := by
  obtain ⟨v, eq⟩ := modLive_form k Ctx.resumed
  unfold Core.takenUp
  dsimp only
  rw [eq]
  exact ⟨rfl, rfl, fun _ => rfl⟩

/-- The octet of a task that is taken up. -/
def State.takenOctet (s : State) (t : TaskRef) (c : CoreId) (k : Core) (jobs : List Job) (own : Nat) : Octet :=
  let o := (s.octet (octetOf c)).reown own (octPos c)
  { o with queue := jobs.map (fun j => { j with core := c }) ++ o.queue
           laneQ := k.moveClaims c ++ o.laneQ
           chans := o.chans.map fun h => h.follow t c }

/-- A task taken up: its core before the lanes are settled, and its table entry after. -/
theorem takeUp_form (s : State) (t : TaskRef) (c : CoreId) (k : Core) (jobs : List Job) (own : Nat) :
    ∃ o f, s.takeUp t c k jobs own = ((((s.setCore c (Core.takenUp s c k).noteLow).setOctet (octetOf c) o).settleLanes 88 (octetOf c)).modTask t f) ∧
      o.laneQ = (Core.takenUp s c k).moveClaims c ++ (s.octet (octetOf c)).laneQ ∧
      ∀ x, (f x).phase = .running c ∧ (f x).order = x.order :=
  ⟨(s.setCore c (Core.takenUp s c k).noteLow).takenOctet t c (Core.takenUp s c k) jobs own, _, rfl, rfl, fun _ => ⟨rfl, rfl⟩⟩

section
variable {s : State} {t : TaskRef} {c : CoreId} {k : Core} {jobs : List Job} {own : Nat}

/-- What a core that takes a task up holds apart from its contexts, and the cores beside it. -/
theorem takeUp_coreField {α : Type} (f : Core → α) (same : ∀ k v, f { k with ctxs := v } = f k) (d : CoreId) :
    f ((s.takeUp t c k jobs own).core d) = f ((s.setCore c (Core.takenUp s c k).noteLow).core d) := by
  obtain ⟨o, g, eq, -, -⟩ := takeUp_form s t c k jobs own
  rw [eq]
  obtain ⟨q, eq⟩ := modTask_form (((s.setCore c (Core.takenUp s c k).noteLow).setOctet (octetOf c) o).settleLanes 88 (octetOf c)) t g
  rw [eq]
  exact (settleLanes_step 88 ((s.setCore c (Core.takenUp s c k).noteLow).setOctet (octetOf c) o) (octetOf c)).coreField d f same

theorem takeUp_task {x : Task} (found : s.taskAt t = some x) :
    ∃ y, (s.takeUp t c k jobs own).taskAt t = some y ∧ y.phase = .running c := by
  obtain ⟨o, g, eq, -, keeps⟩ := takeUp_form s t c k jobs own
  obtain ⟨cs, os, form⟩ := (settleLanes_step 88 ((s.setCore c (Core.takenUp s c k).noteLow).setOctet (octetOf c) o) (octetOf c)).form
  obtain ⟨phase, order⟩ := keeps x
  have same : (((s.setCore c (Core.takenUp s c k).noteLow).setOctet (octetOf c) o).settleLanes 88 (octetOf c)).taskAt t = s.taskAt t :=
    taskAt_sectors (by rw [form]; rfl) t
  rw [eq]
  exact ⟨_, taskAt_modTask g (same.trans found) order, phase⟩

/-- A task without lanes, on an octet that no lanes are claimed of, is taken up with its contexts as they were. -/
theorem takeUp_ctx (noLanes : ∀ n, (k.ctx n).lanes.kept = 0) (noClaims : (s.octet (octetOf c)).laneQ = []) (n : CtxId) :
    (s.takeUp t c k jobs own).ctx c n = (k.modLive Ctx.resumed).ctx n := by
  obtain ⟨o, g, eq, laneQ, -⟩ := takeUp_form s t c k jobs own
  obtain ⟨-, -, ctx⟩ := takenUp_facts s c k
  have none_ : ∀ m, ((Core.takenUp s c k).ctx m).lanes.kept = 0 := by
    intro m
    rw [ctx, ctx_modLive]
    split
    · rw [Ctx.resumed]
      dsimp only
      split
      · exact noLanes m
      · exact noLanes m
    · exact noLanes m
  have noMoves : (Core.takenUp s c k).moveClaims c = [] := by
    rw [Core.moveClaims, List.filterMap_eq_nil_iff]
    intro m _
    exact if_neg (by rw [none_ m]; simp)
  have empty : ((((s.setCore c (Core.takenUp s c k).noteLow).setOctet (octetOf c) o)).octet (octetOf c)).laneQ = [] := by
    rw [octet_setOctet, laneQ, noMoves, noClaims]
    rfl
  obtain ⟨q, task⟩ := modTask_form ((s.setCore c (Core.takenUp s c k).noteLow).setOctet (octetOf c) o) t g
  rw [eq, settleLanes_empty empty, task]
  change ((s.setCore c (Core.takenUp s c k).noteLow).core c).ctx n = _
  rw [core_setCore, ctx_noteLow, ctx]

end

theorem acquireActs_form (s : State) (c : CoreId) (sc : Scope) : ∃ x, s.acquireActs c sc = { s with clusters := x } := by
  unfold State.acquireActs
  split
  · exact ⟨_, rfl⟩
  · exact ⟨_, rfl⟩

/-! ### Migration (R118) -/

theorem g_resumed (k : Core) (n : CtxId) : ((k.modLive Ctx.resumed).ctx n).g = (k.ctx n).g := by
  rw [ctx_modLive]
  split
  · rw [Ctx.resumed]
    dsimp only
    split <;> rfl
  · rfl

theorem moveTask_moves {s : State} {c d : CoreId} {ref : TaskRef} {k : Task} (found : s.taskAt ref = some k)
    (bound : (s.core c).bind.task = some ref) (compute : c < mgmtCore) (ne : c ≠ d)
    (named : s.physOf (s.core c).lcn.toNat = c) (noClaims : ∀ o, (s.octet o).laneQ = []) (noLanes : ∀ n, (s.ctx c n).lanes.kept = 0) :
    let t := s.moveTask c d ref
    (t.core c).bind.task = none ∧ (t.core d).bind.task = some ref ∧ (t.core d).lcn = (s.core c).lcn ∧ (t.core c).lcn = (s.core d).lcn ∧
      (∀ n, (t.ctx d n).g = (s.ctx c n).g) ∧ ∃ k', t.taskAt ref = some k' ∧ k'.phase = .running d := by
  unfold State.moveTask
  dsimp only
  generalize s.heldJobs c = jobs
  generalize (if octetOf c == octetOf d then octPos c else awayOwner ref) = own
  obtain ⟨u, hu, core, other, phys, laneQ, tasks⟩ : ∃ u, u = ((s.withdraw c).dropPins c).vacate c ∧
      u.core c = (s.core c).forTask c Binding.reset ∧ u.core d = s.core d ∧ u.physOf (s.core c).lcn.toNat = c ∧
      (∀ o, (u.octet o).laneQ = []) ∧ u.taskAt ref = s.taskAt ref := by
    refine ⟨_, rfl, core_setCore .., core_setCore_other _ _ ne.symm, physOf_setCore (s := (s.withdraw c).dropPins c) compute named rfl,
      fun o => ?_, rfl⟩
    change ((s.withdraw c).octet o).laneQ = []
    by_cases at_ : o = octetOf c
    · rw [at_, State.withdraw, octet_setOctet]
      exact noClaims _
    · rw [State.withdraw, octet_setOctet_other _ _ at_]
      exact noClaims o
  rw [← hu]
  obtain ⟨mine, its⟩ := remap_cores phys ne
  obtain ⟨x, form⟩ := remap_form u (s.core c).lcn d
  have foundV : (u.remap (s.core c).lcn d).taskAt ref = some k := by
    rw [form]
    exact tasks.trans found
  have laneV : ((u.remap (s.core c).lcn d).octet (octetOf d)).laneQ = [] := by
    rw [form]
    exact laneQ _
  generalize u.remap (s.core c).lcn d = v at mine its foundV laneV
  obtain ⟨bind, lcn, -⟩ := takenUp_facts v d (s.core c)
  refine ⟨?_, ?_, ?_, ?_, fun n => ?_, takeUp_task foundV⟩
  · rw [takeUp_coreField (fun k => k.bind.task) (fun _ _ => rfl), core_setCore_other _ _ ne, mine, core]
    rfl
  · rw [takeUp_coreField (fun k => k.bind.task) (fun _ _ => rfl), core_setCore, bind_noteLow, bind, bound]
  · rw [takeUp_coreField Core.lcn (fun _ _ => rfl), core_setCore, lcn_noteLow, lcn, its]
  · rw [takeUp_coreField Core.lcn (fun _ _ => rfl), core_setCore_other _ _ ne, mine, other]
  · rw [takeUp_ctx noLanes laneV, g_resumed]
    rfl

/-! ### The obligation -/

/-- Settles O40: displacement, migration and resume, each from what its last step leaves of cores and tables. -/
theorem tasksMove : Obligations.TasksMove := by
  intro s ref k
  dsimp only
  refine ⟨fun bound found runs => ⟨?_, ?_, ?_, ?_⟩, ?_⟩
  · exact displacement_asks bound found runs
  · rintro stop movable noMmr ⟨lines, wbs, acc, merges⟩
    have run : exec .displacement s = execDisplacement s := rfl
    unfold execDisplacement at run
    dsimp only at run
    rw [runningTask_eq bound found runs] at run
    dsimp only at run
    rw [stop] at run
    dsimp only at run
    rw [guardEvent, if_pos (by simp [movable, noMmr]), endRelease_quiet lines wbs acc merges] at run
    obtain ⟨left, k', task, facts⟩ := displace_leaves (c := s.ev.core) found
    exact ⟨_, k', run, left, task, facts⟩
  · exact fun idle noMmr loose other group free hot cool =>
      thermalMigration_begins bound found runs idle noMmr loose other group free hot cool
  · rintro stop movable loose ne compute _ caught named noClaims noLanes ⟨lines, wbs, acc, merges⟩
    have run : exec .migrationSwitch s = execMigrationSwitch s := rfl
    have reached : 0 ≤ ahead (s.now s.ev.core2) (s.now s.ev.core) := caught
    have here : s.moveEnd s.ev.core s.ev.core2 ref = s.ev.core2 := if_neg (by simp [loose])
    unfold execMigrationSwitch at run
    dsimp only at run
    rw [runningTask_eq bound found runs, stop] at run
    dsimp only at run
    rw [here, guardEvent, if_pos (by simp [movable, reached]), endRelease_quiet lines wbs acc merges] at run
    obtain ⟨x, form⟩ := acquireActs_form (s.moveTask s.ev.core s.ev.core2 ref) s.ev.core2 .sys
    obtain ⟨left, taken, lcnD, lcnC, regs, k', task, phase⟩ := moveTask_moves found bound compute ne named noClaims noLanes
    rw [form] at run
    exact ⟨_, k', run, left, taken, lcnD, lcnC, regs, task, phase⟩
  · intro old listed away parked is bound acks octet free room group caught
    have run : exec .resume s = execResume s := rfl
    subst is
    have found : s.taskAt ⟨s.ev.unit, s.ev.idx, k.order⟩ = some k := by
      rw [State.taskAt, listed]
      exact if_pos rfl
    have fits : k.withdrawn.length + (s.octet (octetOf s.ev.core)).occupied ≤ 16 := by
      rw [Octet.occupied, ← Nat.add_assoc]
      exact room
    have reached : 0 ≤ ahead (s.now s.ev.core) k.left := caught
    unfold execResume at run
    dsimp only at run
    rw [listed] at run
    dsimp only at run
    rw [away, parked] at run
    dsimp only at run
    rw [guardEvent, if_pos (by obtain h | h := octet <;> simp [h, free, group, fits, reached]), acks] at run
    obtain ⟨x, form⟩ := remap_form s old.lcn s.ev.core
    have foundV : (s.remap old.lcn s.ev.core).taskAt ⟨s.ev.unit, s.ev.idx, k.order⟩ = some k := by
      rw [form]
      exact found
    generalize s.remap old.lcn s.ev.core = v at run foundV
    obtain ⟨bind, -, -⟩ := takenUp_facts v s.ev.core (v.readSpill ⟨s.ev.unit, s.ev.idx, k.order⟩ old)
    obtain ⟨k', task, phase⟩ := takeUp_task (c := s.ev.core) (k := v.readSpill ⟨s.ev.unit, s.ev.idx, k.order⟩ old) (jobs := k.withdrawn)
      (own := awayOwner ⟨s.ev.unit, s.ev.idx, k.order⟩) foundV
    have core := takeUp_coreField (s := v) (t := ⟨s.ev.unit, s.ev.idx, k.order⟩) (c := s.ev.core) (jobs := k.withdrawn)
      (k := v.readSpill ⟨s.ev.unit, s.ev.idx, k.order⟩ old) (own := awayOwner ⟨s.ev.unit, s.ev.idx, k.order⟩) (fun k => k.bind.task)
      (fun _ _ => rfl) s.ev.core
    rw [core_setCore, bind_noteLow, bind] at core
    generalize v.takeUp ⟨s.ev.unit, s.ev.idx, k.order⟩ s.ev.core (v.readSpill ⟨s.ev.unit, s.ev.idx, k.order⟩ old) k.withdrawn
      (awayOwner ⟨s.ev.unit, s.ev.idx, k.order⟩) = w at run task core
    obtain ⟨y, clusters⟩ := acquireActs_form w.nextFresh s.ev.core .sys
    rw [List.foldl_nil, clusters] at run
    exact ⟨_, k', run, core.trans bound, task, phase⟩

end Sys2Proof.Machine
end

section
/-! PROOFS (O39). Tables of tasks and launches: what each operation of the task engine changes in them (R304, R315, R333). -/

namespace Sys2Proof.Machine

/-! ### Tables -/

theorem find_drop {α : Type} (t : Table α) (k : Nat) : Table.find (Table.drop t k) k = none := by
  induction t with
  | nil => rfl
  | cons e r ih =>
    obtain ⟨i, a⟩ := e
    by_cases at_ : i = k
    · rw [Table.drop, List.filter_cons_of_neg (by simp [at_])]
      exact ih
    · rw [Table.drop, List.filter_cons_of_pos (by simp [at_]), Table.find, if_neg at_]
      exact ih

theorem find_map {α β : Type} (t : Table α) (f : α → β) (k : Nat) :
    Table.find (t.map fun e => (e.1, f e.2)) k = (Table.find t k).map f := by
  induction t with
  | nil => rfl
  | cons e r ih =>
    obtain ⟨i, a⟩ := e
    rw [List.map_cons, Table.find, Table.find]
    split
    · rfl
    · exact ih

theorem mem_of_find {α : Type} {t : Table α} {k : Nat} {a : α} (found : Table.find t k = some a) : (k, a) ∈ t := by
  induction t with
  | nil => cases found
  | cons e r ih =>
    obtain ⟨i, b⟩ := e
    rw [Table.find] at found
    split at found
    · next at_ => cases found; exact at_ ▸ List.mem_cons_self
    · exact List.mem_cons_of_mem _ (ih found)

theorem mem_put {α : Type} {t : Table α} {k : Nat} {a : α} {e : Nat × α} (mem : e ∈ Table.put t k a) : e = (k, a) ∨ e ∈ t := by
  induction t with
  | nil => exact .inl (List.mem_singleton.1 mem)
  | cons x r ih =>
    obtain ⟨i, b⟩ := x
    rw [Table.put] at mem
    split at mem
    · exact List.mem_cons.1 mem
    · split at mem
      · exact (List.mem_cons.1 mem).imp_right (List.mem_cons_of_mem _)
      · obtain here | there := List.mem_cons.1 mem
        · exact .inr (here ▸ List.mem_cons_self)
        · exact (ih there).imp_right (List.mem_cons_of_mem _)

/-! ### Launches of a sector (R304) -/

theorem sector_sectors {s t : State} (same : t.sectors = s.sectors) (x : Nat) : t.sector x = s.sector x := by
  rw [State.sector, same]
  rfl

theorem launchAt_sectors {s t : State} (same : t.sectors = s.sectors) (home key : Nat) : t.launchAt home key = s.launchAt home key := by
  rw [State.launchAt, sector_sectors same]
  rfl

/-- A launch changes in its sector alone, and there nothing but its entry. -/
theorem modLaunch_sector (s : State) (home key : Nat) (f : Launch → Launch) (x : Nat) :
    ∃ L, (s.modLaunch home key f).sector x = { s.sector x with launches := L } := by
  unfold State.modLaunch
  split
  · by_cases at_ : x = home
    · rw [at_, sector_setSector]
      exact ⟨_, rfl⟩
    · rw [sector_setSector_other _ _ at_]
      exact ⟨(s.sector x).launches, rfl⟩
  · exact ⟨(s.sector x).launches, rfl⟩

@[simp] theorem tasks_modLaunch (s : State) (home key : Nat) (f : Launch → Launch) (x : Nat) :
    ((s.modLaunch home key f).sector x).tasks = (s.sector x).tasks := by
  obtain ⟨L, eq⟩ := modLaunch_sector s home key f x
  rw [eq]

theorem modLaunch_form (s : State) (home key : Nat) (f : Launch → Launch) : ∃ q, s.modLaunch home key f = { s with sectors := q } := by
  unfold State.modLaunch
  split
  · exact ⟨_, rfl⟩
  · exact ⟨s.sectors, rfl⟩

theorem launchAt_modLaunch {s : State} {home key : Nat} {l : Launch} (found : s.launchAt home key = some l) (f : Launch → Launch) :
    (s.modLaunch home key f).launchAt home key = some (f l) := by
  rw [State.modLaunch, found]
  dsimp only
  rw [State.launchAt, sector_setSector, find_put_same]

theorem taskAt_modLaunch (s : State) (home key : Nat) (f : Launch → Launch) (t : TaskRef) : (s.modLaunch home key f).taskAt t = s.taskAt t := by
  rw [State.taskAt, tasks_modLaunch]
  rfl

/-! ### A launch without a control block (R333) -/

theorem writeStatus_none {s : State} {home key : Nat} {l : Launch} (found : s.launchAt home key = some l) (none_ : recCtla l.rec_ = 0) :
    s.writeStatus home key = s := by
  rw [State.writeStatus, found]
  exact if_pos none_

theorem writeStages_none {s : State} {home key : Nat} {l : Launch} (found : s.launchAt home key = some l) (none_ : recCtla l.rec_ = 0) :
    s.writeStages home key = s := by
  rw [State.writeStages, found]
  exact if_pos (by simp [none_])

theorem moveStage_plain {s : State} {home key : Nat} {l : Launch} (found : s.launchAt home key = some l) (plain : recStaged l.rec_ = false)
    (c : CoreId) : s.moveStage home key c = s := by
  rw [State.moveStage, found]
  dsimp only
  split
  · rfl
  · rw [plain]
    rfl

/-! ### The look at a launch (R306, R333) -/

theorem settled_form (s : State) (home key : Nat) (l : Launch) : ∃ p f, s.settled home key l = { l with places := p, freed := f } := ⟨_, _, rfl⟩

theorem turnTail_next {l : Launch} (more : l.next.isSome = true) : l.turnTail = l := by
  rw [Launch.turnTail]
  refine if_neg ?_
  rw [Option.isNone_eq_false_iff.2 more]
  simp

theorem turnTail_plain {l : Launch} (plain : l.tail = false) : l.turnTail = l := by
  rw [Launch.turnTail]
  exact if_neg (by simp [plain])

/-- A launch that has tasks to enter does not end; only its domains may have become free. -/
theorem endLaunch_goesOn {s : State} {home key : Nat} {l : Launch} (found : s.launchAt home key = some l) (more : l.ended = true ∨ l.next.isSome = true) :
    s.endLaunch home key = s.modLaunch home key fun l => s.settled home key l := by
  obtain ⟨p, f, form⟩ := settled_form s home key l
  unfold State.endLaunch
  dsimp only
  rw [launchAt_modLaunch found]
  dsimp only
  refine if_pos ?_
  rw [form]
  obtain ended | next := more
  · simp [ended]
  · have same : ({ l with places := p, freed := f } : Launch).next.isSome = true := next
    rw [turnTail_next same, same]
    simp

/-- What `endLaunch` leaves of a launch that goes on: all but its domains. -/
theorem launchAt_endLaunch {s : State} {home key : Nat} {l : Launch} (found : s.launchAt home key = some l)
    (more : l.ended = true ∨ l.next.isSome = true) :
    ∃ p f, (s.endLaunch home key).launchAt home key = some { l with places := p, freed := f } := by
  obtain ⟨p, f, form⟩ := settled_form s home key l
  rw [endLaunch_goesOn found more, launchAt_modLaunch found, form]
  exact ⟨p, f, rfl⟩

/-! ### The next LINEAR (R309) -/

theorem recCount_pos (r : List Word) (k : Nat) : 0 < recCount r k := Nat.succ_pos _

theorem foldl_mul_pos (l : List Nat) (a : Nat) (pos : 0 < a) (all : ∀ x ∈ l, 0 < x) : 0 < l.foldl (· * ·) a := by
  induction l generalizing a with
  | nil => exact pos
  | cons x l ih =>
    rw [List.forall_mem_cons] at all
    exact ih _ (Nat.mul_pos pos all.1) all.2

theorem recStride_pos (r : List Word) (k : Nat) : 0 < recStride r k := by
  refine foldl_mul_pos _ _ Nat.one_pos fun x mem => ?_
  obtain ⟨i, -, rfl⟩ := List.mem_map.1 (List.mem_of_mem_drop mem)
  exact recCount_pos r i

theorem le_nextIn (r : List Word) (low high j : Nat) : j ≤ nextIn r low high j := by
  have st := recStride_pos r (recWindow r)
  have span := Nat.mul_pos st (recCount_pos r (recWindow r))
  unfold nextIn
  dsimp only
  split
  · next below =>
    have rest := Nat.div_add_mod' j (recStride r (recWindow r))
    have lt := Nat.mod_lt j st
    have more : recStride r (recWindow r) ≤ (low - recIndex r (recWindow r) j) * recStride r (recWindow r) :=
      Nat.le_mul_of_pos_left _ (by omega)
    omega
  · split
    · exact Nat.le_refl j
    · exact Nat.le_trans (Nat.lt_mul_of_div_lt (Nat.lt_succ_self _) span).le (Nat.le_add_right _ _)

/-- After the last LINEAR none enters. -/
theorem next_last {l : Launch} (last : l.nextLin = recTotal l.rec_) : l.next = none := by
  have past := le_nextIn l.rec_ l.low l.high l.nextLin
  rw [Launch.next]
  exact if_neg (by simp; omega)

end Sys2Proof.Machine
end

section
/-! PROOFS (O39). Launches accepted, cores chosen, footprints landed, tasks dispatched and entered (R304, R311 to R317). -/

namespace Sys2Proof.Machine

/-! ### Acceptance (R304) -/

theorem launch_next {e : Intake} {r base : List Word} {now : Word} (pos : 0 < recTotal r) (window : recWindow r = 0) :
    (e.launch r base now).next = some 0 := by
  have count := recCount_pos r 0
  have zero : nextIn r 0 (recCount r 0) 0 = 0 := by
    simp [nextIn, window, recIndex, count]
  unfold Launch.next Intake.launch
  dsimp only
  rw [window, zero]
  exact if_pos (by simp [count, pos])

/-- A launch of a record without a shape word and without stages as it is accepted. -/
def Intake.accepted (e : Intake) (r base : List Word) (now : Word) : Launch := { e.launch r base now with stages := [] }

/-- The sector of an intake whose head has been accepted, its record read in state `s0`. -/
def State.accepting (s s0 : State) (e : Intake) (rest : List Intake) (r base : List Word) : State :=
  s0.setSector s.ev.unit { s0.sector s.ev.unit with
    intake := rest, nextKey := (s.sector s.ev.unit).nextKey + 1, sprout := (s.sector s.ev.unit).sprout
    launches := Table.put (s0.sector s.ev.unit).launches (s.sector s.ev.unit).nextKey (e.accepted r base s.time) }

section
variable {s s0 : State} {e : Intake} {rest : List Intake} {r base : List Word}

theorem launchAt_accepting : (s.accepting s0 e rest r base).launchAt s.ev.unit (s.sector s.ev.unit).nextKey = some (e.accepted r base s.time) := by
  rw [State.launchAt, State.accepting, sector_setSector, find_put_same]

theorem launchAccept_run (head : (s.sector s.ev.unit).intake = e :: rest)
    (record : e.held = some (r, base) ∧ s0 = s ∨ e.held = none ∧ s.engineRecord e.tenant e.addr = (some (r, base), s0))
    (good : formBad r base = false) (plain : recPen r = false) (single : recStaged r = false) (noBlock : recCtla r = 0) (core : e.slot = none) :
    exec .launchAccept s = .next ((s.accepting s0 e rest r base).endLaunch s.ev.unit (s.sector s.ev.unit).nextKey) := by
  have run : exec .launchAccept s = execLaunchAccept s := rfl
  have shaped : ∀ v t, (e.launch r base s.time).shaped v t = (e.launch r base s.time, t) := fun v t => if_pos (by simp [Intake.launch, plain])
  have noStages : ∀ u : State, u.readStages (e.launch r base s.time) = ([], u) := fun u => if_pos (by simp [Intake.launch, single])
  have noWatch : ∀ (u : State) (k : Nat), u.watchShape s.ev.unit k (e.accepted r base s.time) = u := fun u k => if_pos rfl
  have noPort : ∀ u : State, u.countPort e = u := fun u => by rw [State.countPort, core]
  have found := launchAt_accepting (s := s) (s0 := s0) (e := e) (rest := rest) (r := r) (base := base)
  have block : recCtla (e.accepted r base s.time).rec_ = 0 := noBlock
  have ends : (((((s.accepting s0 e rest r base).watchShape s.ev.unit (s.sector s.ev.unit).nextKey (e.accepted r base s.time)).countPort e).writeStatus
      s.ev.unit (s.sector s.ev.unit).nextKey).writeStages s.ev.unit (s.sector s.ev.unit).nextKey) = s.accepting s0 e rest r base := by
    rw [noWatch, noPort, writeStatus_none found block, writeStages_none found block]
  rw [← ends, run]
  unfold execLaunchAccept
  dsimp only
  rw [head]
  dsimp only
  obtain ⟨held, rfl⟩ | ⟨held, read⟩ := record
  · rw [held]
    dsimp only
    rw [if_neg (by simp [good]), if_neg (by simp [plain])]
    dsimp only
    rw [shaped]
    dsimp only
    rw [guardEvent, if_pos (by simp [plain]), noStages]
    rfl
  · rw [held]
    dsimp only
    rw [read]
    dsimp only
    rw [if_neg (by simp [good]), if_neg (by simp [plain])]
    dsimp only
    rw [shaped]
    dsimp only
    rw [guardEvent, if_pos (by simp [plain]), noStages]
    rfl

theorem launchAccept_enters (head : (s.sector s.ev.unit).intake = e :: rest)
    (record : e.held = some (r, base) ∧ s0 = s ∨ e.held = none ∧ s.engineRecord e.tenant e.addr = (some (r, base), s0))
    (good : formBad r base = false) (plain : recPen r = false) (single : recStaged r = false) (noBlock : recCtla r = 0) (pos : 0 < recTotal r)
    (core : e.slot = none) :
    ∃ t l, exec .launchAccept s = .next t ∧ (t.sector s.ev.unit).intake = rest ∧
      (t.sector s.ev.unit).nextKey = (s.sector s.ev.unit).nextKey + 1 ∧
      t.launchAt s.ev.unit (s.sector s.ev.unit).nextKey = some l ∧ l.num = e.num ∧ l.tenant = e.tenant ∧ l.rec_ = r ∧ l.base = base ∧
      l.tbase = (if recBabs r then r.getD 6 0 else s.time + r.getD 6 0) ∧ l.spec = false := by
  have run := launchAccept_run head record good plain single noBlock core
  have window : recWindow r = 0 := if_neg (by simp [plain])
  have next : (e.accepted r base s.time).next = some 0 := launch_next (now := s.time) pos window
  have more : (e.accepted r base s.time).ended = true ∨ (e.accepted r base s.time).next.isSome = true := .inr (by rw [next]; rfl)
  have found := launchAt_accepting (s := s) (s0 := s0) (e := e) (rest := rest) (r := r) (base := base)
  obtain ⟨p, f, at_⟩ := launchAt_endLaunch found more
  rw [endLaunch_goesOn found more] at run at_
  obtain ⟨L, sector⟩ := modLaunch_sector (s.accepting s0 e rest r base) s.ev.unit (s.sector s.ev.unit).nextKey
    (fun l => (s.accepting s0 e rest r base).settled s.ev.unit (s.sector s.ev.unit).nextKey l) s.ev.unit
  refine ⟨_, _, run, ?_, ?_, at_, rfl, rfl, rfl, rfl, rfl, rfl⟩
  · rw [sector, State.accepting, sector_setSector]
  · rw [sector, State.accepting, sector_setSector]

end

/-! ### Core choice (R117, R312) -/

theorem coreChoice_reserves {s : State} {slot : Nat} {k : Task} {l : Launch} (head : (s.sector s.ev.unit).head s.ev.idx = some (slot, k))
    (found : s.launchAt k.home k.launch = some l) (queued : k.phase = .queued) (first : k.preds = []) (fixed : k.release.isSome = true)
    (sector : s.ev.core / 2048 = s.ev.unit) (fits : s.coreFits k l s.ev.core = true) (free : s.lcnKept (s.core s.ev.core).lcn = false)
    (alone : ∀ i, i < 16 → ∀ h, (s.sector s.ev.unit).head i = some h → h = (slot, k)) :
    ∃ t, exec .coreChoice s = .next t ∧ Table.find (t.sector s.ev.unit).tasks slot = some { k with phase := .fetching s.ev.core } := by
  have run : exec .coreChoice s = execCoreChoice s := rfl
  have choosable : k.choosable = true := by simp [Task.choosable, queued, first, fixed]
  have noBid : s.outbid s.ev.unit k s.ev.core = false := by
    rw [State.outbid, List.any_eq_false]
    intro i mem
    cases at_ : (s.sector s.ev.unit).head i with
    | none => simp
    | some h =>
      obtain rfl := alone i (List.mem_range.1 mem) h at_
      simp [Task.outranks]
  have own : s.lcnFor s.ev.core = some (s.core s.ev.core).lcn := by
    rw [State.lcnFor]
    exact if_pos (by simp [free])
  have launch : s.launchOf k = some l := found
  have place : sectorOf s.ev.core = s.ev.unit := sector
  unfold execCoreChoice at run
  dsimp only at run
  rw [head] at run
  dsimp only at run
  rw [launch, own] at run
  dsimp only at run
  rw [guardEvent, if_pos (by simp [choosable, place, fits, noBid])] at run
  refine ⟨_, run, ?_⟩
  rw [State.putTask, sector_setSector, find_put_same]

/-! ### Footprints (R182, R317) -/

theorem footprintLanded_lands {s : State} {k : Task} {r : Word} (listed : Table.find (s.sector s.ev.unit).tasks s.ev.idx = some k)
    (fetching : k.phase = .fetching s.ev.core) (fixed : k.release = some r) (lands : s.ev.ok = false) (noReads : descReads k.desc = []) :
    ∃ t, exec .footprintLanded s = .next t ∧ Table.find (t.sector s.ev.unit).tasks s.ev.idx = some { k with phase := .landed s.ev.core } ∧
      (t.core s.ev.core).ls = ⟨[], []⟩ ∧ t.hbm = s.hbm := by
  have run : exec .footprintLanded s = execFootprintLanded s := rfl
  have nothing : s.fetchFoot s.ev.unit k s.ev.core r = (Memory.empty, false, s) := by rw [State.fetchFoot, noReads]; rfl
  unfold execFootprintLanded at run
  dsimp only at run
  rw [listed] at run
  dsimp only at run
  rw [fetching, fixed] at run
  dsimp only at run
  rw [if_neg (by simp [lands]), guardEvent, if_pos (by simp [noReads]), nothing] at run
  dsimp only at run
  rw [if_neg Bool.false_ne_true] at run
  refine ⟨_, run, ?_, ?_, rfl⟩
  · rw [State.landFoot, State.putTask, sector_setSector, find_put_same]
  · change ((s.modCore s.ev.core fun x => { x with ls := Memory.empty }).core s.ev.core).ls = _
    rw [core_modCore]
    rfl

theorem footprintLanded_waits {s : State} {k : Task} {r : Word} (listed : Table.find (s.sector s.ev.unit).tasks s.ev.idx = some k)
    (fetching : k.phase = .fetching s.ev.core) (fixed : k.release = some r) (waits : s.ev.ok = true) (reads : descReads k.desc ≠ [])
    (open_ : (s.time - r).toInt ≤ 0) :
    ∃ t, exec .footprintLanded s = .next t ∧ Table.find (t.sector s.ev.unit).tasks s.ev.idx = some { k with phase := .awaiting s.ev.core } ∧
      t.hbm = s.hbm := by
  have run : exec .footprintLanded s = execFootprintLanded s := rfl
  have notPast : laterThan s.time r = false := decide_eq_false (by rw [ahead]; omega)
  unfold execFootprintLanded at run
  dsimp only at run
  rw [listed] at run
  dsimp only at run
  rw [fetching, fixed] at run
  dsimp only at run
  rw [if_pos waits, guardEvent, if_pos (by simp [reads, notPast])] at run
  refine ⟨_, run, ?_, rfl⟩
  rw [State.putTask, sector_setSector, find_put_same, fixed]

/-! ### Dispatch (R90, R311) -/

theorem popQueue_form (s : State) (sec queue slot : Nat) : ∃ q, s.popQueue sec queue slot = { s with sectors := q } := by
  unfold State.popQueue
  dsimp only
  split
  · split
    · split
      · exact ⟨_, rfl⟩
      · exact ⟨_, rfl⟩
    · exact ⟨_, rfl⟩
  · exact ⟨_, rfl⟩

theorem getG_control (w : List Word) (i : Reg) : (Ctx.control w).getG i =
    if 1 ≤ i.val ∧ i.val ≤ 4 then ⟨w.getD i.val 0, false⟩ else ⟨0, false⟩ := by
  rw [Ctx.getG, Ctx.control]
  fin_cases i <;> rfl

theorem taskDispatch_dispatches {s : State} {slot : Nat} {k : Task} {l : Launch} (best : s.bestHead s.ev.unit = some (slot, k, s.ev.core))
    (found : s.launchAt k.home k.launch = some l) :
    ∃ t, exec .taskDispatch s = .next t ∧ (t.core s.ev.core).bind.task = some ⟨s.ev.unit, slot, k.order⟩ ∧
      (t.core s.ev.core).bind.tenant = l.tenant ∧ (t.core s.ev.core).bind.tvec = k.tvec ∧ (t.core s.ev.core).ls = (s.core s.ev.core).ls ∧
      (∀ n, t.ctx s.ev.core n = if n = 0 then Ctx.control k.desc else Ctx.reset) ∧
      ∃ k', Table.find (t.sector s.ev.unit).tasks slot = some k' ∧ k'.phase = .running s.ev.core ∧ k'.desc = k.desc := by
  have run : exec .taskDispatch s = execTaskDispatch s := rfl
  have launch : s.launchOf k = some l := found
  unfold execTaskDispatch at run
  rw [best] at run
  dsimp only at run
  unfold State.dispatchOn at run
  rw [launch] at run
  dsimp only at run
  obtain ⟨q, pop⟩ := popQueue_form s s.ev.unit k.queue slot
  obtain ⟨u, hu, cores, tasks⟩ : ∃ u, u = (s.popQueue s.ev.unit k.queue slot).putTask s.ev.unit slot { k with phase := .running s.ev.core } ∧
      u.core s.ev.core = s.core s.ev.core ∧ Table.find (u.sector s.ev.unit).tasks slot = some { k with phase := .running s.ev.core } := by
    refine ⟨_, rfl, ?_, ?_⟩
    · rw [pop]
      rfl
    · rw [State.putTask, sector_setSector, find_put_same]
  rw [← hu] at run
  obtain ⟨x, clusters⟩ := acquireActs_form (u.modCore s.ev.core fun x => (x.forTask s.ev.core ⟨some ⟨s.ev.unit, slot, k.order⟩, l.tenant,
    recDrop l.rec_, recTaskScope l.rec_, k.tvec, l.tbase⟩).setCtx 0 (Ctx.control k.desc)) s.ev.core (recTaskScope l.rec_)
  rw [clusters] at run
  refine ⟨_, run, ?_⟩
  obtain ⟨y, hy⟩ : ∃ y, y = ((s.core s.ev.core).forTask s.ev.core ⟨some ⟨s.ev.unit, slot, k.order⟩, l.tenant, recDrop l.rec_,
    recTaskScope l.rec_, k.tvec, l.tbase⟩).setCtx 0 (Ctx.control k.desc) := ⟨_, rfl⟩
  have core : (u.modCore s.ev.core fun x => (x.forTask s.ev.core ⟨some ⟨s.ev.unit, slot, k.order⟩, l.tenant,
      recDrop l.rec_, recTaskScope l.rec_, k.tvec, l.tbase⟩).setCtx 0 (Ctx.control k.desc)).core s.ev.core = y := by
    rw [core_modCore, cores, hy]
  have ctx : ∀ n, y.ctx n = if n = 0 then Ctx.control k.desc else Ctx.reset := by
    intro n
    rw [hy]
    split
    · next at_ => rw [at_, ctx_setCtx]
    · next at_ =>
      rw [ctx_setCtx_other _ _ at_]
      fin_cases n <;> rfl
  refine ⟨?_, ?_, ?_, ?_, fun n => ?_, _, tasks, rfl, rfl⟩
  · exact (congrArg (fun k => k.bind.task) core).trans (by rw [hy])
  · exact (congrArg (fun k => k.bind.tenant) core).trans (by rw [hy])
  · exact (congrArg (fun k => k.bind.tvec) core).trans (by rw [hy])
  · exact (congrArg Core.ls core).trans (by rw [hy]; rfl)
  · exact (congrArg (fun k => k.ctx n) core).trans (ctx n)

theorem tasksStart : Spec.tasksStart := by
  intro s
  dsimp only
  refine ⟨?_, ?_, ?_, ?_⟩
  · intro e rest r base s0 head record good plain single noBlock pos _ core _
    have form : formBad r base = false := by
      rw [State.recordBad] at good
      simp only [Bool.or_eq_false_iff] at good
      exact good.1.1.1
    exact launchAccept_enters head record form plain single noBlock pos core
  · intro slot k l head found queued first fixed sector fits free alone
    exact coreChoice_reserves head found queued first fixed sector fits free alone
  · intro k r listed fetching fixed
    exact ⟨footprintLanded_lands listed fetching fixed, footprintLanded_waits listed fetching fixed⟩
  · intro slot k l best found _
    obtain ⟨t, run, task, tenant, tvec, ls, ctx, entry⟩ := taskDispatch_dispatches best found
    have first := ctx 0
    rw [if_pos rfl] at first
    refine ⟨t, run, task, tenant, tvec, ls, ?_, ?_, ?_, ?_, ?_, ?_, entry⟩
    · rw [first]
      rfl
    · rw [first]
      rfl
    · rw [first]
      rfl
    · intro i lo hi
      rw [first, getG_control, if_pos ⟨lo, hi⟩]
    · intro i lo
      rw [first, getG_control, if_neg (by omega)]
    · intro n other
      rw [ctx n, if_neg other]
      rfl

end Sys2Proof.Machine
end

section
/-! PROOFS (O39). Tasks that enter a table (R315), and tasks that leave it (R106, R318, R333). -/

namespace Sys2Proof.Machine

/-! ### Entering a table (R314, R315) -/

theorem freeSlots_mem {q : Sector} {i : Nat} (mem : i ∈ q.freeSlots) : i < 1024 ∧ Table.find q.tasks i = none := by
  obtain ⟨lt, free⟩ := List.mem_filter.1 mem
  exact ⟨List.mem_range.1 lt, Option.isNone_iff_eq_none.1 free⟩

theorem freeSlots_ne {q : Sector} (some_ : ∃ i, i < 1024 ∧ Table.find q.tasks i = none) : q.freeSlots ≠ [] := by
  obtain ⟨i, lt, free⟩ := some_
  exact List.ne_nil_of_mem (List.mem_filter.2 ⟨List.mem_range.2 lt, by rw [free]; rfl⟩)

theorem getD_mem {l : List Nat} (ne : l ≠ []) (n d : Nat) : l.getD (n % l.length) d ∈ l := by
  have lt : n % l.length < l.length := Nat.mod_lt _ (List.length_pos_of_ne_nil ne)
  rw [List.getD_eq_getElem _ _ lt]
  exact List.getElem_mem lt

section
variable {s : State} {sec : Nat} {k : Task}

/-- Without renaming every write range orders the task. -/
theorem writesIn_plain (plain : recRename (s.recOf k) = false) : s.writesIn sec k = (descWrites k.desc, []) := by
  have all : ∀ (n : Nat) (t : BitVec 12) (older : List (List Word)) (l : List (Nat × Nat)), s.splitWrites t false older n l = (l, []) := by
    intro n t older l
    induction l generalizing n with
    | nil => rfl
    | cons w l ih => rw [State.splitWrites, if_neg (by simp), ih]
  rw [State.writesIn, plain]
  exact all ..

theorem maskIn_none (kept : k.spec = false) (none_ : ∀ e ∈ (s.sector sec).tasks, e.2.mask = []) (writes : List (Nat × Nat)) :
    s.maskIn sec k writes = [] := by
  have join : ∀ l : List (Nat × Task), (∀ e ∈ l, e.2.mask = []) → l.foldl (fun m e => maskJoin m e.2.mask) [] = [] := by
    intro l
    induction l with
    | nil => exact fun _ => rfl
    | cons e l ih =>
      intro h
      rw [List.forall_mem_cons] at h
      rw [List.foldl_cons, h.1]
      exact ih h.2
  rw [State.maskIn, kept, if_neg Bool.false_ne_true]
  exact join _ fun e mem => none_ e (List.mem_of_mem_filter mem)

theorem refusedShape_none (kept : k.spec = false) (none_ : ∀ e ∈ (s.sector sec).tasks, e.2.mask = []) : s.refusedShape sec k = none := by
  rw [State.refusedShape, maskIn_none kept none_]
  rfl

theorem fixRelease_form (s : State) (k : Task) : ∃ r, s.fixRelease k = { k with release := r } := ⟨_, rfl⟩

/-- A task without renaming takes a free slot, behind those it follows; the launches of the sector stay. -/
theorem enterTable_enters (plain : recRename (s.recOf k) = false) (free : ∃ i, i < 1024 ∧ Table.find (s.sector sec).tasks i = none) :
    ∃ i x g q n, (s.enterTable sec k).2 = (s.setSector sec { s.sector sec with
        tasks := Table.put (s.sector sec).tasks i x, gens := g, nextOrder := n, queues := q }).nextFresh ∧
      i < 1024 ∧ Table.find (s.sector sec).tasks i = none ∧ x.desc = k.desc ∧ x.tvec = k.tvec ∧ x.phase = k.phase ∧ x.home = k.home ∧
      x.launch = k.launch ∧ x.preds = (s.followed sec (descReads k.desc) (descWrites k.desc)).map (·.1) := by
  unfold State.enterTable
  dsimp only
  rw [writesIn_plain plain]
  dsimp only [List.foldl_nil]
  obtain ⟨lt, empty⟩ := freeSlots_mem (getD_mem (freeSlots_ne free) (Config.freeWord s.fresh).toNat 0)
  refine ⟨_, _, _, _, _, rfl, lt, empty, ?_⟩
  split
  · exact ⟨rfl, rfl, rfl, rfl, rfl, rfl⟩
  · exact ⟨rfl, rfl, rfl, rfl, rfl, rfl⟩

end

theorem settled_next (s : State) (home key : Nat) (l : Launch) : (s.settled home key l).next = l.next := rfl

theorem tasksEnter : Spec.tasksEnter := by
  intro s l j
  dsimp only
  intro compute sector found ended tail spec levels rename next masks free
  have run : exec .taskEnterTable s = execTaskEnterTable s := rfl
  obtain ⟨p, f, form⟩ := settled_form s s.ev.unit s.ev.idx l
  obtain ⟨v, hv, vnext, vended, vrec, vspec, vbase, vtail⟩ : ∃ v, v = s.settled s.ev.unit s.ev.idx l ∧ v.next = some j ∧ v.ended = false ∧
      v.rec_ = l.rec_ ∧ v.spec = false ∧ v.base = l.base ∧ v.tail = false := by
    refine ⟨_, rfl, next, ?_⟩
    rw [form]
    exact ⟨ended, rfl, spec, rfl, tail⟩
  have outer : v.outer = [] := by rw [Launch.outer, vrec, levels]; rfl
  have turned : v.turnTail = v := turnTail_plain vtail
  have level : v.sectorLevel = none := by rw [Launch.sectorLevel, outer]; rfl
  have place : s.placeOk s.ev.unit s.ev.idx v j s.ev.core = true := by
    rw [State.placeOk, outer, State.sectorOk, level]
    simpa [sectorOf] using sector
  have span : v.span s.ev.core = (s.ev.core / 2048 * 2048, 2048) := by rw [Launch.span, outer]; rfl
  have taken : v.takePlaces j s.ev.core = v := by rw [Launch.takePlaces, outer]; rfl
  have room : (s.sector (sectorOf s.ev.core)).freeSlots.isEmpty = false := by
    rw [sectorOf, sector]
    exact List.isEmpty_eq_false_iff.2 (freeSlots_ne free)
  unfold execTaskEnterTable at run
  dsimp only at run
  rw [found] at run
  dsimp only at run
  rw [← hv, turned, vnext] at run
  dsimp only at run
  rw [span, taken] at run
  dsimp only at run
  have wide : ¬ decide (2048 ≤ 16) = true := by simp
  rw [guardEvent, if_pos (by simp [vended, compute, room, place]), if_neg wide] at run
  obtain ⟨u, hu⟩ : ∃ u, u = s.modLaunch s.ev.unit s.ev.idx fun _ => { v with nextLin := j + 1 } := ⟨_, rfl⟩
  have launch : u.launchAt s.ev.unit s.ev.idx = some { v with nextLin := j + 1 } := by rw [hu, launchAt_modLaunch found]
  have tasksU : (u.sector s.ev.unit).tasks = (s.sector s.ev.unit).tasks := by rw [hu, tasks_modLaunch]
  have here : sectorOf s.ev.core = s.ev.unit := sector
  rw [← hu, here, vtail, vspec] at run
  obtain ⟨k, hk, kept, desc, tvec, phase, home, key⟩ : ∃ k, k = freshTask s.ev.unit s.ev.idx (descOf v.rec_ v.base j)
      (false && !(false && v.low != 0)) (false && v.low != 0) false (4 * descPrio (descOf v.rec_ v.base j) + recQsel v.rec_)
      (s.ev.core / 2048 * 2048) 2048 none (v.rec_.getD 1 0) ∧ k.spec = false ∧ k.desc = descOf l.rec_ l.base j ∧ k.tvec = l.rec_.getD 1 0 ∧
      k.phase = .queued ∧ k.home = s.ev.unit ∧ k.launch = s.ev.idx := by
    rw [vrec, vbase]
    exact ⟨_, rfl, rfl, rfl, rfl, rfl, rfl, rfl⟩
  have plain : recRename (u.recOf k) = false := by
    rw [State.recOf, State.launchOf, home, key, launch]
    exact (congrArg recRename vrec).trans rename
  rw [← hk, refusedShape_none kept (by rw [tasksU]; exact masks)] at run
  dsimp only at run
  obtain ⟨i, x, g, q, n, entered, lt, empty, desc', tvec', phase', home', key', preds⟩ := enterTable_enters plain (by rw [tasksU]; exact free)
  rw [entered] at run
  rw [tasksU] at empty
  have table : ((u.setSector s.ev.unit { u.sector s.ev.unit with
      tasks := Table.put (u.sector s.ev.unit).tasks i x, gens := g, nextOrder := n, queues := q }).nextFresh.sector s.ev.unit) = { u.sector s.ev.unit with
        tasks := Table.put (u.sector s.ev.unit).tasks i x, gens := g, nextOrder := n, queues := q } := sector_setSector ..
  refine ⟨_, i, x, run, lt, empty, ?_, desc'.trans desc, tvec'.trans tvec, phase'.trans phase, home'.trans home, key'.trans key, ?_, ?_, ?_⟩
  · rw [table, find_put_same]
  · refine ⟨{ v with nextLin := j + 1 }, ?_, rfl⟩
    rw [State.launchAt, table]
    exact launch
  · intro o e mem orders
    rw [preds, List.mem_map]
    refine ⟨(o, e), List.mem_filter.2 ⟨by rw [tasksU]; exact mem, ?_⟩, rfl⟩
    rw [desc'] at orders
    exact orders
  · intro o ne
    rw [table, find_put_other _ _ ne, tasksU]

/-! ### Leaving a table (R315, R318) -/

/-- The launches of every sector are the same. -/
def State.sameLaunches (s t : State) : Prop := ∀ x, (t.sector x).launches = (s.sector x).launches

theorem launchAt_same {s t : State} (same : s.sameLaunches t) (home key : Nat) : t.launchAt home key = s.launchAt home key := by
  rw [State.launchAt, same]
  rfl

theorem sameLaunches_setSector {s : State} {o : Nat} {q : Sector} (same : q.launches = (s.sector o).launches) : s.sameLaunches (s.setSector o q) := by
  intro x
  by_cases at_ : x = o
  · rw [at_, sector_setSector, same]
  · rw [sector_setSector_other _ _ at_]

theorem sameLaunches_trans {s t u : State} (h : s.sameLaunches t) (k : t.sameLaunches u) : s.sameLaunches u := fun x => (k x).trans (h x)

theorem sameLaunches_popQueue (s : State) (sec queue slot : Nat) : s.sameLaunches (s.popQueue sec queue slot) := by
  unfold State.popQueue
  dsimp only
  have first : s.sameLaunches (s.setSector sec { s.sector sec with
      queues := Table.put (s.sector sec).queues queue (((Table.find (s.sector sec).queues queue).getD []).filter (· != slot)) }) :=
    sameLaunches_setSector rfl
  split
  · split
    · split
      · exact sameLaunches_trans first (sameLaunches_setSector rfl)
      · exact first
    · exact first
  · exact first

theorem sameLaunches_leaveTable (s : State) (t : TaskRef) (after : Option Word) : s.sameLaunches (s.leaveTable t after) := by
  unfold State.leaveTable
  split
  · exact fun _ => rfl
  · exact sameLaunches_trans (sameLaunches_popQueue s _ _ _) (sameLaunches_setSector rfl)

theorem leaveTable_form (s : State) (t : TaskRef) (after : Option Word) : ∃ q, s.leaveTable t after = { s with sectors := q } := by
  unfold State.leaveTable
  split
  · exact ⟨s.sectors, rfl⟩
  · next k _ =>
    obtain ⟨q, eq⟩ := popQueue_form s t.sec k.queue t.slot
    dsimp only
    rw [eq]
    exact ⟨_, rfl⟩

theorem taskAt_leaveTable {s : State} {t : TaskRef} {k : Task} (found : s.taskAt t = some k) (after : Option Word) :
    (s.leaveTable t after).taskAt t = none := by
  rw [State.leaveTable, found]
  dsimp only
  rw [State.taskAt, sector_setSector]
  dsimp only
  rw [find_map _ fun e => s.dropEdge e t.slot after, find_drop]
  rfl

theorem sameLaunches_renamesDone (s : State) (t : TaskRef) : s.sameLaunches (s.renamesDone t) := sameLaunches_setSector rfl

theorem taskAt_renamesDone (s : State) (t : TaskRef) : (s.renamesDone t).taskAt t = s.taskAt t := by
  rw [State.taskAt, State.renamesDone, sector_setSector]
  rfl

theorem renamesUndone_none {s : State} {t : TaskRef} (none_ : (s.sector t.sec).renames = []) : s.renamesUndone t = s := by
  rw [State.renamesUndone, none_]
  rfl

/-! ### The core of a task that fails (R106) -/

theorem sectors_reclaimCore (s : State) (c : CoreId) (t : TaskRef) : (s.reclaimCore c t).sectors = s.sectors := by
  obtain ⟨⟨cs, os, form⟩, -⟩ := giveUp_givenUp (s.modCore c fun k =>
    { k with ctxs := k.ctxs.map Ctx.freed, jobs := [], lease := 0, guards := Vector.replicate 8 .free }) c
  have ended : (s.endTask c).sectors = s.sectors := by
    rw [State.endTask, form]
    rfl
  exact ended

theorem bind_reclaimCore (s : State) (c : CoreId) (t : TaskRef) : ((s.reclaimCore c t).core c).bind.task = none := bind_vacate ..

theorem postFailure_form (s : State) (t : TaskRef) (tenant : BitVec 12) (cause : Word) :
    ∃ sp h, s.postFailure t tenant cause = { s with spine := sp, host := h } := by
  unfold State.postFailure State.postHost State.postMgmt
  dsimp only
  split
  · exact ⟨_, _, rfl⟩
  · exact ⟨_, _, rfl⟩

/-! ### The end of a task (R106, R318, R333) -/

section
variable {s : State} {ref : TaskRef} {k : Task} {l : Launch} (bound : (s.core s.ev.core).bind.task = some ref) (found : s.taskAt ref = some k)
  (kept : k.spec = false) (launch : s.launchAt k.home k.launch = some l) (noBlock : recCtla l.rec_ = 0) (more : l.next.isSome = true)
  (lines : (s.cluster (clusterOf s.ev.core)).lines = []) (wbs : (s.cluster (clusterOf s.ev.core)).wbs = [])
  (acc : (s.cluster (clusterOf s.ev.core)).acc = []) (merges : (s.cluster (clusterOf s.ev.core)).merges = [])

include bound found kept launch noBlock more lines wbs acc merges in
theorem taskRetireComplete_retires (single : recStaged l.rec_ = false) (settled : (s.core s.ev.core).settled = true)
    (phase : k.phase = .retiring s.ev.core) :
    ∃ t l', exec .taskRetireComplete s = .next t ∧ (t.core s.ev.core).bind.task = none ∧ t.taskAt ref = none ∧
      t.launchAt k.home k.launch = some l' ∧ l'.retired = l.retired + 1 ∧ l'.failed = l.failed := by
  have run : exec .taskRetireComplete s = execTaskRetireComplete s := rfl
  unfold execTaskRetireComplete at run
  dsimp only at run
  rw [bound] at run
  dsimp only at run
  rw [found] at run
  dsimp only at run
  rw [guardEvent, if_pos (by simp [phase, settled]), endRelease_quiet lines wbs acc merges] at run
  obtain ⟨u, hu, left, sectors⟩ : ∃ u, u = (s.dropPins s.ev.core).vacate s.ev.core ∧ (u.core s.ev.core).bind.task = none ∧
    u.sectors = s.sectors := ⟨_, rfl, bind_vacate .., rfl⟩
  have launchU : u.launchAt k.home k.launch = some l := (launchAt_sectors sectors ..).trans launch
  have foundU : u.taskAt ref = some k := (taskAt_sectors sectors ref).trans found
  rw [← hu, moveStage_plain launchU single, kept, if_neg Bool.false_ne_true] at run
  obtain ⟨v, hv, gone, same, q, form⟩ : ∃ v, v = (u.renamesDone ref).leaveTable ref (some (s.time + 1)) ∧ v.taskAt ref = none ∧
      u.sameLaunches v ∧ ∃ q, v = { u with sectors := q } := by
    refine ⟨_, rfl, taskAt_leaveTable ((taskAt_renamesDone u ref).trans foundU) _,
      sameLaunches_trans (sameLaunches_renamesDone u ref) (sameLaunches_leaveTable _ _ _), ?_⟩
    obtain ⟨q, eq⟩ := leaveTable_form (u.renamesDone ref) ref (some (s.time + 1))
    exact ⟨q, eq⟩
  have launchV : v.launchAt k.home k.launch = some l := (launchAt_same same ..).trans launchU
  have launchW := launchAt_modLaunch launchV fun l => { l with retired := l.retired + 1 }
  have moreW : ({ l with retired := l.retired + 1 } : Launch).ended = true ∨ ({ l with retired := l.retired + 1 } : Launch).next.isSome = true :=
    .inr more
  obtain ⟨p, f, launchX⟩ := launchAt_endLaunch launchW moreW
  rw [← hv, writeStatus_none launchW noBlock] at run
  refine ⟨_, _, run, ?_, ?_, launchX, rfl, rfl⟩
  · obtain ⟨q', form'⟩ := modLaunch_form v k.home k.launch fun l => { l with retired := l.retired + 1 }
    rw [endLaunch_goesOn launchW moreW]
    obtain ⟨q'', form''⟩ := modLaunch_form (v.modLaunch k.home k.launch fun l => { l with retired := l.retired + 1 }) k.home k.launch fun x =>
      (v.modLaunch k.home k.launch fun l => { l with retired := l.retired + 1 }).settled k.home k.launch x
    rw [form'', form', form]
    exact left
  · rw [endLaunch_goesOn launchW moreW, taskAt_modLaunch, taskAt_modLaunch, gone]

include bound found kept launch noBlock more lines wbs acc merges in
theorem taskFailureComplete_fails {cause value : Word} (noRenames : (s.sector ref.sec).renames = [])
    (settled : s.failSettled s.ev.core ref = true) (phase : k.phase = .failing s.ev.core cause value) :
    ∃ t l', exec .taskFailureComplete s = .next t ∧ (t.core s.ev.core).bind.task = none ∧ t.taskAt ref = none ∧
      t.launchAt k.home k.launch = some l' ∧ l'.retired = l.retired ∧ l'.failed = l.failed + 1 ∧
      (l.failed = 0 → l'.firstCause = cause ∧ l'.firstVal = value) := by
  have run : exec .taskFailureComplete s = execTaskFailureComplete s := rfl
  unfold execTaskFailureComplete at run
  dsimp only at run
  rw [bound] at run
  dsimp only at run
  rw [found] at run
  dsimp only at run
  rw [phase] at run
  dsimp only at run
  rw [guardEvent, if_pos (by simp [settled]), endRelease_quiet lines wbs acc merges] at run
  obtain ⟨u, hu, left, sectors⟩ : ∃ u, u = (s.postFailure ref (s.core s.ev.core).bind.tenant cause).reclaimCore s.ev.core ref ∧
      (u.core s.ev.core).bind.task = none ∧ u.sectors = s.sectors := by
    obtain ⟨sp, h, form⟩ := postFailure_form s ref (s.core s.ev.core).bind.tenant cause
    exact ⟨_, rfl, bind_reclaimCore .., (sectors_reclaimCore ..).trans (by rw [form])⟩
  have launchU : u.launchAt k.home k.launch = some l := (launchAt_sectors sectors ..).trans launch
  have foundU : u.taskAt ref = some k := (taskAt_sectors sectors ref).trans found
  have renamesU : (u.sector ref.sec).renames = [] := by rw [sector_sectors sectors, noRenames]
  rw [← hu, renamesUndone_none renamesU, kept, if_neg Bool.false_ne_true] at run
  obtain ⟨y, hy, next, ended, block, retired, failed, first⟩ : ∃ y, y = l.countFailure cause value (descLinear k.desc) ∧ y.next = l.next ∧
      y.ended = l.ended ∧ recCtla y.rec_ = 0 ∧ y.retired = l.retired ∧ y.failed = l.failed + 1 ∧
      (l.failed = 0 → y.firstCause = cause ∧ y.firstVal = value) := by
    refine ⟨_, rfl, ?_⟩
    unfold Launch.countFailure
    dsimp only
    split
    · exact ⟨rfl, rfl, noBlock, rfl, rfl, fun _ => ⟨rfl, rfl⟩⟩
    · next ne => exact ⟨rfl, rfl, noBlock, rfl, rfl, fun zero => absurd zero ne⟩
  obtain ⟨w, hw, launchW, foundW, q, form⟩ : ∃ w, w = u.modLaunch k.home k.launch (fun l => l.countFailure cause value (descLinear k.desc)) ∧
      w.launchAt k.home k.launch = some y ∧ w.taskAt ref = some k ∧ ∃ q, w = { u with sectors := q } :=
    ⟨_, rfl, by rw [launchAt_modLaunch launchU, hy], by rw [taskAt_modLaunch, foundU], modLaunch_form ..⟩
  rw [← hw] at run
  obtain ⟨v, hv, gone, same, q', form'⟩ : ∃ v, v = w.leaveTable ref (some (s.time + 1)) ∧ v.taskAt ref = none ∧
      w.sameLaunches v ∧ ∃ q, v = { w with sectors := q } :=
    ⟨_, rfl, taskAt_leaveTable foundW _, sameLaunches_leaveTable _ _ _, leaveTable_form ..⟩
  have launchV : v.launchAt k.home k.launch = some y := (launchAt_same same ..).trans launchW
  have moreV : y.ended = true ∨ y.next.isSome = true := .inr (by rw [next]; exact more)
  obtain ⟨p, f, launchX⟩ := launchAt_endLaunch launchV moreV
  rw [← hv, writeStatus_none launchV block] at run
  refine ⟨_, _, run, ?_, ?_, launchX, retired, failed, first⟩
  · obtain ⟨q'', form''⟩ := modLaunch_form v k.home k.launch fun x => v.settled k.home k.launch x
    rw [endLaunch_goesOn launchV moreV, form'', form', form]
    exact left
  · rw [endLaunch_goesOn launchV moreV, taskAt_modLaunch, gone]

end

theorem tasksEnd : Spec.tasksEnd := by
  intro s ref k l
  dsimp only
  intro _ bound found kept launch _ noBlock single more _ loads port vecs rq noCopies _ lines wbs acc merges _ noRenames
  have settled : (s.core s.ev.core).settled = true := by simp [Core.settled, loads, port, vecs, rq]
  have noWrites : s.copyWritesOf s.ev.core ref = false := by
    rw [State.copyWritesOf, List.any_eq_false]
    intro h mem
    obtain ⟨i, lt, rfl⟩ := Vector.mem_iff_getElem.1 (Vector.mem_toList_iff.1 mem)
    have idle : ((s.octet (octetOf s.ev.core)).chans[i]).cur = none := noCopies ⟨i, lt⟩
    rw [idle]
    exact Bool.false_ne_true
  have failSettled : s.failSettled s.ev.core ref = true := by simp [State.failSettled, port, vecs, noWrites]
  exact ⟨taskRetireComplete_retires bound found kept launch noBlock more lines wbs acc merges single settled, fun cause value =>
    taskFailureComplete_fails bound found kept launch noBlock more lines wbs acc merges noRenames failSettled⟩

end Sys2Proof.Machine
end

section
/-! PROOFS (O39). Renames committed and launches resolved (R316, R325, R328, R329). -/

namespace Sys2Proof.Machine

/-! ### Renames (R316) -/

theorem renameCommit_commits {s : State} {r : Rename} (only : (s.sector s.ev.unit).renames = [r]) (idx : s.ev.idx = 0) (done : r.done = true)
    (noTasks : (s.sector s.ev.unit).tasks = []) :
    ∃ t, exec .renameCommit s = .next t ∧ (t.sector s.ev.unit).renames = [] ∧
      (t.sector s.ev.unit).freeFrames = (s.sector s.ev.unit).freeFrames ++ [r.old] := by
  have run : exec .renameCommit s = execRenameCommit s := rfl
  have at_ : (s.sector s.ev.unit).renames[s.ev.idx]? = some r := by rw [only, idx]; rfl
  unfold execRenameCommit at run
  dsimp only at run
  rw [at_] at run
  dsimp only at run
  rw [only, noTasks, guardEvent, if_pos (by simp [done])] at run
  obtain ⟨u, hu, sectors⟩ : ∃ u : State, u.sectors = s.sectors ∧ exec .renameCommit s = .next (u.setSector s.ev.unit { u.sector s.ev.unit with
      renames := (u.sector s.ev.unit).renames.filter (· != r), freeFrames := (u.sector s.ev.unit).freeFrames ++ [r.old] }) := by
    refine ⟨_, ?_, run⟩
    dsimp only
    split
    · exact (HomeOnly.arriveWrite ..).sectors
    · rfl
  refine ⟨_, sectors, ?_, ?_⟩
  · rw [sector_setSector]
    dsimp only
    rw [sector_sectors hu, only]
    simp
  · rw [sector_setSector]
    dsimp only
    rw [sector_sectors hu]

/-! ### Tables without tasks -/

/-- No table holds a task. -/
def State.noTasks (s : State) : Prop := ∀ e ∈ s.sectors, e.2.tasks = []

theorem noTasks_of_allTasks {s : State} (none_ : s.allTasks = []) : s.noTasks := by
  intro e mem
  exact List.map_eq_nil_iff.1 (List.flatMap_eq_nil_iff.1 none_ e mem)

theorem allTasks_of_noTasks {s : State} (none_ : s.noTasks) : s.allTasks = [] :=
  List.flatMap_eq_nil_iff.2 fun e mem => by rw [none_ e mem]; rfl

theorem tasksOf_of_noTasks {s : State} (none_ : s.noTasks) (home key : Nat) : s.tasksOf home key = [] := by
  rw [State.tasksOf, allTasks_of_noTasks none_]
  rfl

theorem tasks_of_noTasks {s : State} (none_ : s.noTasks) (x : Nat) : (s.sector x).tasks = [] := by
  rw [State.sector]
  cases found : Table.find s.sectors x with
  | none => rfl
  | some q => exact none_ _ (mem_of_find found)

theorem noTasks_setSector {s : State} (none_ : s.noTasks) {o : Nat} {q : Sector} (empty : q.tasks = []) : (s.setSector o q).noTasks := by
  intro e mem
  obtain rfl | old := mem_put mem
  · exact empty
  · exact none_ e old

theorem noTasks_modLaunch {s : State} (none_ : s.noTasks) (home key : Nat) (f : Launch → Launch) : (s.modLaunch home key f).noTasks := by
  unfold State.modLaunch
  split
  · exact noTasks_setSector none_ (tasks_of_noTasks none_ home)
  · exact none_

theorem noTasks_clearMasks {s : State} (none_ : s.noTasks) (home key : Nat) : (s.clearMasks home key).noTasks := by
  intro e mem
  obtain ⟨x, old, rfl⟩ := List.mem_map.1 mem
  dsimp only
  rw [none_ x old]
  rfl

/-- A sector whose tasks follow a launch no more. -/
def Sector.unmask (q : Sector) (m : Nat × Nat) : Sector :=
  { q with tasks := q.tasks.map fun t => (t.1, { t.2 with mask := t.2.mask.filter (· != m) }) }

theorem launchAt_clearMasks (s : State) (home key a b : Nat) : (s.clearMasks home key).launchAt a b = s.launchAt a b := by
  change Table.find ((Table.find (s.sectors.map fun e => (e.1, e.2.unmask (home, key))) a).getD Sector.reset).launches b = _
  rw [find_map s.sectors fun q => q.unmask (home, key), State.launchAt, State.sector]
  cases Table.find s.sectors a with
  | none => rfl
  | some q => rfl

/-! ### Deadlines (R328, R329) -/

section
variable {s : State} {l : Launch} (found : s.launchAt s.ev.unit s.ev.idx = some l) (spec : l.spec = true) (noBlock : recCtla l.rec_ = 0)

theorem postLaunch_sectors (s : State) (kind : BitVec 3) (home : Nat) (l : Launch) : (s.postLaunch kind home l).sectors = s.sectors := by
  unfold State.postLaunch State.postHost State.postMgmt
  dsimp only
  split
  · rfl
  · rfl

include found spec noBlock in
theorem deadlinePass_notes (new : l.deadline = false) (past : 0 < (s.time - l.deadlineTick).toInt) :
    ∃ t l', exec .deadlinePass s = .next t ∧ t.launchAt s.ev.unit s.ev.idx = some l' ∧ l'.deadline = true ∧ l'.spec = true := by
  have run : exec .deadlinePass s = execDeadlinePass s := rfl
  have later : laterThan s.time l.deadlineTick = true := decide_eq_true past
  have launch := (launchAt_sectors (postLaunch_sectors (s.modLaunch s.ev.unit s.ev.idx fun l => { l with deadline := true }) 2 s.ev.unit l)
    s.ev.unit s.ev.idx).trans (launchAt_modLaunch found _)
  unfold execDeadlinePass at run
  dsimp only at run
  rw [found] at run
  dsimp only at run
  rw [guardEvent, if_pos (by simp [spec, new, later]), writeStatus_none launch noBlock] at run
  exact ⟨_, _, run, launch, rfl, spec⟩

/-- A launch without tasks and without more to enter is gone. -/
theorem endLaunch_ends {u : State} {home key : Nat} {x : Launch} (launch : u.launchAt home key = some x) (none_ : u.noTasks) (open_ : x.ended = false)
    (resolved : x.spec = false) (tail : x.tail = false) (over_ : x.next = none) : (u.endLaunch home key).launchAt home key = none := by
  obtain ⟨p, f, form⟩ := settled_form u home key x
  unfold State.endLaunch
  dsimp only
  rw [launchAt_modLaunch launch]
  dsimp only
  rw [form, tasksOf_of_noTasks (noTasks_modLaunch none_ _ _ _), turnTail_plain (l := { x with places := p, freed := f }) tail]
  have last : ({ x with places := p, freed := f } : Launch).next = none := over_
  rw [last, if_neg (by simp [open_, resolved]), State.launchAt, sector_setSector]
  exact find_drop ..

include found spec in
theorem shapeExpire_fails (noTasks : s.noTasks) (noted : l.deadline = true) (past : 0 < (s.time - (l.deadlineTick + 65536)).toInt)
    (open_ : l.ended = false) : ∃ t, exec .shapeExpire s = .next t ∧ t.launchAt s.ev.unit s.ev.idx = none := by
  have run : exec .shapeExpire s = execShapeExpire s := rfl
  have later : laterThan s.time (l.deadlineTick + 65536) = true := decide_eq_true past
  unfold execShapeExpire at run
  dsimp only at run
  rw [found] at run
  dsimp only at run
  rw [guardEvent, if_pos (by rw [spec, noted, later]; rfl)] at run
  refine ⟨_, run, ?_⟩
  obtain ⟨u, hu, launchU, noneU⟩ : ∃ u, u = s.postLaunch 3 s.ev.unit l ∧ u.launchAt s.ev.unit s.ev.idx = some l ∧ u.noTasks := by
    have sectors := postLaunch_sectors s 3 s.ev.unit l
    refine ⟨_, rfl, (launchAt_sectors sectors ..).trans found, ?_⟩
    unfold State.noTasks
    rwa [sectors]
  rw [← hu]
  have launchV := launchAt_modLaunch launchU fun l => { l with noshape := true, spec := false, tail := false, nextLin := recTotal l.rec_ }
  have noneV := noTasks_modLaunch noneU s.ev.unit s.ev.idx fun l => { l with noshape := true, spec := false, tail := false, nextLin := recTotal l.rec_ }
  unfold State.failLaunch
  dsimp only
  generalize u.modLaunch s.ev.unit s.ev.idx (fun l => { l with noshape := true, spec := false, tail := false, nextLin := recTotal l.rec_ }) = v
    at launchV noneV ⊢
  have noneW : (v.unwatch s.ev.unit s.ev.idx).noTasks := noneV
  rw [tasksOf_of_noTasks noneW, List.foldl_nil]
  exact endLaunch_ends ((launchAt_clearMasks ..).trans launchV) (noTasks_clearMasks noneW _ _) open_ rfl rfl (next_last rfl)

/-! ### Resolution (R325) -/

theorem shapeReport_outside {n : Nat} (noWatch : ∀ e ∈ s.slices, e.2.watch = []) (word : s.ev.w = BitVec.ofNat 64 (2 ^ 63 + n)) (small : n < 2 ^ 17)
    (home key : Nat) : s.shapeReport home key = some ⟨s.ev.w, false⟩ := by
  have none_ : (s.slices.findSome? fun e => e.2.watch.find? fun w => w.home == home && w.key == key) = none := by
    rw [List.findSome?_eq_none_iff]
    intro e mem
    rw [noWatch e mem]
    rfl
  have valid : s.ev.w.getLsbD 63 = true := by
    rw [word, BitVec.getLsbD_ofNat, Nat.testBit_two_pow_add_eq, Nat.testBit_lt_two_pow (Nat.lt_trans small (by decide))]
    rfl
  rw [State.shapeReport, none_]
  exact if_pos valid

include found spec noBlock in
theorem launchResolve_resolves {n : Nat} (noTasks : s.noTasks) (noWatch : ∀ e ∈ s.slices, e.2.watch = []) (word : s.ev.w = BitVec.ofNat 64 (2 ^ 63 + n))
    (fits : n ≤ recCount l.rec_ (recPlevel l.rec_)) (small : n < 2 ^ 17) (predicted : l.predicted = n) (next : l.next = some l.nextLin)
    (high : l.high = n) (live : (s.time - (l.deadlineTick + 65536)).toInt ≤ 0) (due : l.deadline = true ∨ (s.time - l.deadlineTick).toInt ≤ 0) :
    ∃ t l', exec .launchResolve s = .next t ∧ t.launchAt s.ev.unit s.ev.idx = some l' ∧ l'.spec = false ∧ l'.trueCount = n ∧ l'.tail = false := by
  have run : exec .launchResolve s = execLaunchResolve s := rfl
  have notPast : laterThan s.time (l.deadlineTick + 65536) = false := decide_eq_false (by rw [ahead]; omega)
  have count : shapeCount ⟨s.ev.w, false⟩ = n := by
    rw [shapeCount, word, BitVec.toNat_ofNat]
    omega
  have good : shapeBadFor l.rec_ ⟨s.ev.w, false⟩ = false := by
    have reserved : s.ev.w.extractLsb' 17 46 = 0 := by
      apply BitVec.eq_of_toNat_eq
      rw [BitVec.extractLsb'_toNat, word, BitVec.toNat_ofNat, Nat.shiftRight_eq_div_pow]
      change (2 ^ 63 + n) % 2 ^ 64 / 2 ^ 17 % 2 ^ 46 = 0
      omega
    rw [shapeBadFor, count]
    simp [reserved, fits]
  have onTime : (l.deadline || !laterThan s.time l.deadlineTick) = true := by
    obtain noted | early := due
    · rw [noted]
      rfl
    · have notYet : laterThan s.time l.deadlineTick = false := decide_eq_false (by rw [ahead]; omega)
      rw [notYet]
      exact Bool.or_true _
  unfold execLaunchResolve at run
  rw [found] at run
  dsimp only at run
  rw [shapeReport_outside noWatch word small] at run
  dsimp only at run
  rw [guardEvent, if_pos (by rw [spec, notPast, onTime]; rfl)] at run
  unfold State.resolve at run
  dsimp only at run
  rw [good, if_neg Bool.false_ne_true, count] at run
  obtain ⟨u, hu, launchU, noneU⟩ : ∃ u, u = (s.setSector s.ev.unit { s.sector s.ev.unit with
      sprout := sproutPush (s.sector s.ev.unit).sprout (sproutKey l.addr) n }).unwatch s.ev.unit s.ev.idx ∧
      u.launchAt s.ev.unit s.ev.idx = some l ∧ u.noTasks := by
    refine ⟨_, rfl, ?_, noTasks_setSector noTasks (tasks_of_noTasks noTasks s.ev.unit)⟩
    change (s.setSector _ _).launchAt _ _ = _
    rw [State.launchAt, sector_setSector]
    exact found
  have noSurplus : ∀ f : Nat → Bool, surplusOf [] f = [] := fun _ => rfl
  have launchV := launchAt_modLaunch launchU fun l =>
    { l with spec := false, trueCount := n, high := Nat.min l.high n, tail := decide (l.predicted < n) }
  have noneV := noTasks_modLaunch noneU s.ev.unit s.ev.idx fun l =>
    { l with spec := false, trueCount := n, high := Nat.min l.high n, tail := decide (l.predicted < n) }
  rw [← hu, tasksOf_of_noTasks noneU, noSurplus, List.foldl_nil, tasksOf_of_noTasks noneV, List.foldl_nil] at run
  obtain ⟨x, hx, nextX, blockX, specX, countX, tailX⟩ : ∃ x, x = { l with
      spec := false, trueCount := n, high := Nat.min l.high n, tail := decide (l.predicted < n) } ∧ x.next = l.next ∧ recCtla x.rec_ = 0 ∧ x.spec = false ∧ x.trueCount = n ∧ x.tail = false := by
    refine ⟨_, rfl, ?_, noBlock, rfl, rfl, ?_⟩
    · have least : Nat.min l.high n = l.high := by
        rw [high]
        exact Nat.min_self n
      rw [least]
      rfl
    · rw [predicted]
      exact decide_eq_false (Nat.lt_irrefl n)
  rw [← hx] at launchV
  have launchW := (launchAt_clearMasks _ s.ev.unit s.ev.idx s.ev.unit s.ev.idx).trans launchV
  have moreW : x.ended = true ∨ x.next.isSome = true := .inr (by rw [nextX, next]; rfl)
  rw [writeStatus_none launchW blockX] at run
  obtain ⟨p, f, launchX⟩ := launchAt_endLaunch launchW moreW
  exact ⟨_, _, run, launchX, specX, countX, tailX⟩

end

theorem launchesResolve : Spec.launchesResolve := by
  intro s l
  dsimp only
  refine ⟨fun r only idx done noTasks => renameCommit_commits only idx done noTasks, fun found spec noBlock noTasks => ⟨?_, ?_, ?_⟩⟩
  · intro n noWatch word fits small predicted next _ high live due
    exact launchResolve_resolves found spec noBlock (noTasks_of_allTasks noTasks) noWatch word fits small predicted next high live due
  · exact deadlinePass_notes found spec noBlock
  · exact shapeExpire_fails found spec (noTasks_of_allTasks noTasks)

/-- Settles O39: each event of the task engine, from what it changes in the tables. -/
theorem tasksRun : Obligations.TasksRun := ⟨tasksStart, tasksEnter, tasksEnd, launchesResolve⟩

end Sys2Proof.Machine
end

section
/-! PROOFS (O56). What it is for a state, a core and an outcome to have legal modes, and that the updates of the state keep it. The
layer runs beside `Canon`, in the same order and with the same names: a lemma `….Legal.f` says that `f` keeps the modes legal. -/

namespace Sys2Proof.Machine

/-! ### The invariant, by part -/

/-- A mode that exists on a core: 0 or 1, or 3 on the management core (R98). -/
def ModeExists (mgmt : Bool) (p : BitVec 2) : Prop := (p != 2 && (mgmt || p != 3)) = true

/-- Every context of a core is in a mode that exists there. -/
structure Core.Legal (k : Core) (mgmt : Bool) : Prop where
  ctx : ∀ n, ModeExists mgmt (k.ctx n).tr.priv

/-- Every core that the state lists has legal modes: what O56 states of an instruction. The context `u` whose instruction runs stands
in it because CTXLOAD takes the modes of its own core. -/
structure State.Legal (s : State) (u : Cur) : Prop where
  cur : s.cur = u
  cores : ∀ e ∈ s.cores, e.2.Legal (e.1 == mgmtCore)

/-- An outcome's next state, if it has one, has legal modes. -/
structure Res.Legal (r : Res) (u : Cur) : Prop where
  out : ∀ {t}, r = .next t → t.Legal u

theorem Core.legal_iff (k : Core) (mgmt : Bool) : k.Legal mgmt ↔ k.modesLegal mgmt = true := by
  unfold Core.modesLegal
  rw [List.all_eq_true]
  exact ⟨fun h n _ => h.ctx n, fun h => ⟨fun n => h n (List.mem_finRange n)⟩⟩

theorem State.legal_iff (s : State) {u : Cur} (cur : s.cur = u) : s.Legal u ↔ s.modesLegal = true := by
  unfold State.modesLegal
  rw [List.all_eq_true]
  exact ⟨fun h e he => (Core.legal_iff _ _).1 (h.cores e he), fun h => ⟨cur, fun e he => (Core.legal_iff _ _).2 (h e he)⟩⟩

theorem ModeExists.of_eq {m : Bool} {p q : BitVec 2} (h : ModeExists m p) (eq : q = p) : ModeExists m q := eq ▸ h
theorem modeExists_zero (mgmt : Bool) : ModeExists mgmt 0 := by cases mgmt <;> rfl
theorem modeExists_one (mgmt : Bool) : ModeExists mgmt 1 := by cases mgmt <;> rfl
theorem modeExists_machine : ModeExists true 3 := rfl

/-- A mode read from a register is one that exists: it is the register's own, a free one of 0 and 1, or the highest there is (R98). -/
theorem modeExists_legalPriv (mgmt : Bool) (v : BitVec 2) (k : Nat) : ModeExists mgmt (legalPriv mgmt v k) := by
  unfold legalPriv
  split
  · next named =>
    simp only [Bool.or_eq_true, Bool.and_eq_true, decide_eq_true_eq] at named
    obtain (rfl | rfl) | ⟨rfl, rfl⟩ := named
    · exact modeExists_zero mgmt
    · exact modeExists_one mgmt
    · exact modeExists_machine
  · extract_lets w
    split
    · next low =>
      simp only [Bool.or_eq_true, decide_eq_true_eq] at low
      obtain eq | eq := low <;> rw [eq]
      · exact modeExists_zero mgmt
      · exact modeExists_one mgmt
    · cases mgmt
      · exact modeExists_one false
      · exact modeExists_machine

/-- The moves of a triple leave the mode. -/
theorem Ctx.Moved.tr {x y : Ctx} (h : x.Moved y) : y.tr = x.tr := by
  obtain ⟨_, _, _, _, _, _, _, _, _, rfl⟩ := h
  rfl

@[simp] theorem Ctx.await_tr (x : Ctx) (r : RegName) (n : Nat) : (x.await r n).tr = x.tr := by
  unfold Ctx.await
  split <;> rfl

@[simp] theorem Ctx.setReg_tr (x : Ctx) (r : RegName) (v : PWord) : (x.setReg r v).tr = x.tr := by
  cases r with
  | g d => exact Ctx.setG_tr x d v
  | e _ => rfl
  | v _ => rfl

/-! ### Cores -/

/-- An update of a core that leaves its contexts. -/
theorem Core.Legal.update {k : Core} {m : Bool} (h : k.Legal m)
    {lcn bind last ls inj rx low poolQ tags tagerr tlm tlc tlf tlv guards drops faults work jobs psrc pdst lease point ask coret
      act stop lead} :
    Core.Legal ⟨lcn, bind, last, k.ctxs, ls, inj, rx, low, poolQ, tags, tagerr, tlm, tlc, tlf, tlv, guards, drops, faults, work,
      jobs, psrc, pdst, lease, point, ask, coret, act, stop, lead⟩ m := ⟨h.ctx⟩

theorem Core.reset_legal (c : CoreId) (m : Bool) : (Core.reset c).Legal m := by
  refine ⟨fun n => ?_⟩
  have eq : (Core.reset c).ctx n = Ctx.reset := by simp [Core.reset, Core.ctx]
  rw [eq]
  exact modeExists_zero m

theorem Core.Legal.ite {c : Prop} [Decidable c] {k l : Core} {m : Bool} (hk : k.Legal m) (hl : l.Legal m) :
    (if c then k else l).Legal m := by
  split
  · exact hk
  · exact hl

theorem Core.Legal.foldl {α : Type} {k : Core} {m : Bool} (h : k.Legal m) {l : List α} {f : Core → α → Core}
    (hf : ∀ k a, k.Legal m → (f k a).Legal m) : (l.foldl f k).Legal m :=
  l.foldlRecOn (motive := fun k => k.Legal m) f h fun k hk a _ => hf k a hk

/-- A context of a core takes a state whose mode exists. -/
theorem Core.Legal.setCtx {k : Core} {m : Bool} (h : k.Legal m) {n : CtxId} {x : Ctx} (hx : ModeExists m x.tr.priv) :
    (k.setCtx n x).Legal m := by
  refine ⟨fun i => ?_⟩
  by_cases eq : i = n
  · subst eq
    rw [ctx_setCtx]
    exact hx
  · rw [ctx_setCtx_other k x eq]
    exact h.ctx i

section
variable {k : Core} {m : Bool} (h : k.Legal m)
include h

/-- Every live context changes, and keeps its mode. -/
theorem Core.Legal.modLive {f : Ctx → Ctx} (hf : ∀ x, (f x).tr.priv = x.tr.priv := by intro _; rfl) : (k.modLive f).Legal m :=
  h.foldl fun _ n h1 => .ite (h1.setCtx ((h1.ctx n).of_eq (hf _))) h1

theorem Core.Legal.latchAll {bits} : (k.latchAll bits).Legal m := h.modLive
theorem Core.Legal.stopAll : k.stopAll.Legal m := h.modLive
theorem Core.Legal.noteLow : k.noteLow.Legal m := h.update
theorem Core.Legal.setPort {id} {f : PortEntry → Option PortEntry} : (k.setPort id f).Legal m := h.update
theorem Core.Legal.setGuard {g v} : (k.setGuard g v).Legal m := h.update
theorem Core.Legal.useGuard {g} : (k.useGuard g).Legal m := .ite h.setGuard h
theorem Core.Legal.takeTlv : k.takeTlv.Legal m := h.update
theorem Core.Legal.doneTlv {n} : (k.doneTlv n).Legal m := h.update

/-- All contexts change, and keep their modes. -/
theorem Core.Legal.mapCtx {f : Ctx → Ctx} (hf : ∀ x, (f x).tr.priv = x.tr.priv) : Core.Legal { k with ctxs := k.ctxs.map f } m := by
  refine ⟨fun n => ?_⟩
  have eq : Core.ctx { k with ctxs := k.ctxs.map f } n = f (k.ctx n) := by simp [Core.ctx]
  rw [eq, hf]
  exact h.ctx n

end

/-! ### Updates of the state -/

section
variable {s : State} {u : Cur} (h : s.Legal u)
include h

/-- A core that is not listed is at its reset value. -/
theorem State.Legal.core {c : CoreId} : (s.core c).Legal (c == mgmtCore) := by
  unfold State.core
  cases hf : Table.find s.cores c with
  | none => exact Core.reset_legal c _
  | some k =>
    have hall : s.cores.all (fun e => e.2.modesLegal (e.1 == mgmtCore)) = true := (State.legal_iff s h.cur).1 h
    exact (Core.legal_iff _ _).2 (all_find hall hf)

theorem State.Legal.ctx (c : CoreId) (n : CtxId) : ModeExists (c == mgmtCore) (s.ctx c n).tr.priv := h.core.ctx n

/-- An update of the state that leaves its cores and whose turn it is. -/
theorem State.Legal.update
    {agenda turn ev held fresh seq time hbm wiping wiped fabric routed octets clusters groups sectors slices regions links spine mgmt
      flash host} :
    State.Legal ⟨agenda, turn, s.cur, ev, held, fresh, seq, time, hbm, wiping, wiped, fabric, routed, s.cores, octets, clusters, groups,
      sectors, slices, regions, links, spine, mgmt, flash, host⟩ u := ⟨h.cur, h.cores⟩

/-- A step of the homes leaves the cores. -/
theorem State.Legal.home {t : State} (w : HomeOnly s t) : t.Legal u := ⟨w.cur.trans h.cur, w.cores ▸ h.cores⟩

/-- An update of every core. -/
theorem State.Legal.mapCores {f : Nat × Core → Nat × Core}
    {agenda turn ev held fresh seq time hbm wiping wiped fabric routed octets clusters groups sectors slices regions links spine mgmt
      flash host}
    (hf : ∀ e, e.2.Legal (e.1 == mgmtCore) → (f e).2.Legal ((f e).1 == mgmtCore)) :
    State.Legal ⟨agenda, turn, s.cur, ev, held, fresh, seq, time, hbm, wiping, wiped, fabric, routed, s.cores.map f, octets, clusters,
      groups, sectors, slices, regions, links, spine, mgmt, flash, host⟩ u := by
  refine ⟨h.cur, ?_⟩
  simp only [List.mem_map]
  rintro _ ⟨e, he, rfl⟩
  exact hf e (h.cores e he)

theorem State.Legal.setCore {c : CoreId} {k : Core} (hk : k.Legal (c == mgmtCore)) : (s.setCore c k).Legal u := by
  have hall : s.cores.all (fun e => e.2.modesLegal (e.1 == mgmtCore)) = true := (State.legal_iff s h.cur).1 h
  have hput := all_put (fun e => e.2.modesLegal (e.1 == mgmtCore)) s.cores c k hall ((Core.legal_iff _ _).1 hk)
  exact (State.legal_iff (s.setCore c k) h.cur).2 hput

theorem State.Legal.modCore {c : CoreId} {f : Core → Core} (hf : ∀ k : Core, k.Legal (c == mgmtCore) → (f k).Legal (c == mgmtCore)) :
    (s.modCore c f).Legal u := h.setCore (hf _ h.core)

theorem State.Legal.modMyCore {f : Core → Core}
    (hf : ∀ k : Core, k.Legal (s.cur.core == mgmtCore) → (f k).Legal (s.cur.core == mgmtCore)) : (s.modMyCore f).Legal u := h.modCore hf

theorem State.Legal.setCtx {c n x} (hx : ModeExists (c == mgmtCore) x.tr.priv) : (s.setCtx c n x).Legal u := h.setCore (h.core.setCtx hx)

/-- A context changes and keeps its mode. -/
theorem State.Legal.modCtx {c n} {f : Ctx → Ctx} (hf : ∀ x, (f x).tr.priv = x.tr.priv := by intro _; rfl) : (s.modCtx c n f).Legal u :=
  h.setCtx ((h.ctx c n).of_eq (hf _))

theorem State.Legal.setMe {x : Ctx} (hx : x.tr.priv = s.me.tr.priv) : (s.setMe x).Legal u := h.setCtx ((h.ctx _ _).of_eq hx)
theorem State.Legal.modMe {f : Ctx → Ctx} (hf : ∀ x, (f x).tr.priv = x.tr.priv := by intro _; rfl) : (s.modMe f).Legal u := h.modCtx hf

theorem State.Legal.setOctet {o k} : (s.setOctet o k).Legal u := h.update
theorem State.Legal.setSector {k x} : (s.setSector k x).Legal u := h.update
theorem State.Legal.setSlice {k x} : (s.setSlice k x).Legal u := h.update
theorem State.Legal.setRegion {k x} : (s.setRegion k x).Legal u := h.update
theorem State.Legal.setCluster {c x} : (s.setCluster c x).Legal u := h.update
theorem State.Legal.setMyCluster {x} : (s.setMyCluster x).Legal u := h.update
theorem State.Legal.setMyOctet {x} : (s.setMyOctet x).Legal u := h.update
theorem State.Legal.nextFresh : s.nextFresh.Legal u := h.update
theorem State.Legal.nextSeq : s.nextSeq.Legal u := h.update
theorem State.Legal.setG {r v} : (s.setG r v).Legal u := h.modMe fun _ => by rw [Ctx.setG_tr]
theorem State.Legal.setP {r v} : (s.setP r v).Legal u := h.modMe fun _ => by rw [Ctx.setP_tr]
theorem State.Legal.setE {r v} : (s.setE r v).Legal u := h.modMe
theorem State.Legal.putG {r v} : (s.putG r v).Legal u := h.setG

/-- A register that a later result fills. -/
theorem State.Legal.await {r n} : (s.modMe fun x => x.await r n).Legal u := h.modMe fun _ => by rw [Ctx.await_tr]

theorem State.Legal.setReg {r v} : (s.modMe fun x => x.setReg r v).Legal u := h.modMe fun _ => by rw [Ctx.setReg_tr]

theorem State.Legal.modTask {t} {f : Task → Task} : (s.modTask t f).Legal u := by
  unfold State.modTask
  split
  · exact h.setSector
  · exact h

end

/-! ### Outcomes, branching and folding -/

theorem State.Legal.next {t : State} {u : Cur} (h : t.Legal u) : Res.Legal (.next t) u where
  out := by rintro _ ⟨⟩; exact h

theorem State.Legal.ite {c : Prop} [Decidable c] {s t : State} {u : Cur} (hs : s.Legal u) (ht : t.Legal u) :
    (if c then s else t).Legal u := by
  split
  · exact hs
  · exact ht

theorem Res.Legal.ite {c : Prop} [Decidable c] {r k : Res} {u : Cur} (hr : Res.Legal r u) (hk : Res.Legal k u) :
    Res.Legal (if c then r else k) u := by
  split
  · exact hr
  · exact hk

theorem State.Legal.foldl {α : Type} {s : State} {u : Cur} (h : s.Legal u) {l : List α} {f : State → α → State}
    (hf : ∀ s a, s.Legal u → (f s a).Legal u) : (l.foldl f s).Legal u :=
  l.foldlRecOn f h fun s hs a _ => hf s a hs

end Sys2Proof.Machine
end

section
/-! PROOFS (O56). Homes and the page walk, retiring, lane and pool grants, traps, branches and loops. -/

namespace Sys2Proof.Machine

variable {s : State} {u : Cur} (h : s.Legal u)
include h

/-! ### Homes and the page walk -/

theorem State.Legal.countView {pa} : (s.countView pa).Legal u := by
  unfold State.countView
  split
  · split
    · exact h.setRegion
    · exact h
  · exact h

theorem State.Legal.touchTlb {cl e} : (s.touchTlb cl e).Legal u := h.setCluster
theorem State.Legal.countWalk {t n} : (s.countWalk t n).Legal u := .ite h (h.foldl (fun _ _ h1 => h1.countView))
theorem State.Legal.walked {c t va} : (s.walked c t va).Legal u := .ite h h.countWalk

theorem State.Legal.touch {c t va} : (s.touch c t va).Legal u := by
  unfold State.touch
  split
  · split
    · exact h.touchTlb
    · exact h.walked
  · exact h

theorem State.Legal.settleHome {pa} : (s.settleHome pa).Legal u := h.home (.settleHome ..)
theorem State.Legal.arriveWrite {pa n v x} : (s.arriveWrite pa n v x).Legal u := h.home (.arriveWrite ..)
theorem State.Legal.homeApply {pa n v x} : (s.homeApply pa n v x).Legal u := h.home (.homeApplyBy ..)
theorem State.Legal.homeApplyMask {unit mask v x} : (s.homeApplyMask unit mask v x).Legal u := .ite h h.homeApply

theorem State.Legal.arriveAtom {pa n op v x p} (e : s.arriveAtom pa n op v x = p) : p.2.Legal u :=
  e ▸ .ite h.settleHome h.settleHome.homeApply

theorem State.Legal.arriveTimed {e t p} (he : s.arriveTimed e t = p) : p.2.Legal u := by
  subst he
  unfold State.arriveTimed
  extract_lets _ _ s1 _ s'
  have hs1 : s1.Legal u := .ite h h.settleHome
  have hs' : s'.Legal u := .ite h h.arriveWrite
  split
  · exact h
  · split
    · exact h
    · split
      · exact hs1.setSlice
      · split
        · exact hs'.setSlice
        · exact h.setSlice

/-! ### Retiring, lanes and the pool -/

/-- The advance of a context writes that context, whose triple of registers it leaves. -/
theorem State.Legal.advance {c n f p} (e : s.advance c n f = p) : p.1.Legal u := by
  subst e
  have moved := (advance_moved s c n f).tr
  obtain ⟨y, eq⟩ : ∃ y, (s.advance c n f).1 = s.setCtx c n y := by
    unfold State.advance
    exact ⟨_, rfl⟩
  rw [eq, State.ctx_setCtx] at moved
  rw [eq]
  exact h.setCtx ((h.ctx c n).of_eq (congrArg TrapRegs.priv moved))

theorem State.Legal.giveLanes {q p} (e : s.giveLanes q = p) : p.1.Legal u := by
  subst e
  unfold State.giveLanes
  extract_lets g x
  split
  · exact (h.setCtx ((h.ctx _ _).of_eq (by rw [Ctx.setG_tr]))).advance rfl
  · exact h.setCtx (h.ctx _ _)

theorem State.Legal.renegotiate {c n} : (s.renegotiate c n).Legal u := h.setCtx (h.ctx c n)

theorem State.Legal.settleLanes {n o} : (State.settleLanes n s o).Legal u := by
  induction n generalizing s with
  | zero => exact h
  | succ n ih =>
    unfold State.settleLanes
    split
    · exact h
    · split
      · split
        next s1 _ e =>
        have h1 : s1.Legal u := h.setOctet.giveLanes e
        exact ih (.ite h1.renegotiate h1)
      · exact h

theorem State.Legal.releaseLanes {c n} : (s.releaseLanes c n).Legal u := h.modCtx.settleLanes

theorem State.Legal.retireAt {c n f} : (s.retireAt c n f).Legal u := by
  unfold State.retireAt
  split
  next s1 _ e =>
  have h1 : s1.Legal u := h.advance e
  exact .ite h1.renegotiate.settleLanes h1

theorem State.Legal.retire : s.retire.Legal u := h.retireAt

theorem State.Legal.settlePool {n c} : (State.settlePool n s c).Legal u := by
  induction n generalizing s with
  | zero => exact h
  | succ n ih =>
    unfold State.settlePool
    split
    · exact h
    · next n m rest _ =>
      have h1 : (s.modCore c fun k => ({ k with poolQ := rest }).setCtx n ((k.ctx n).bindPool m)).Legal u :=
        h.modCore fun k hk => Core.Legal.setCtx (k := { k with poolQ := rest }) hk.update (hk.ctx n)
      exact .ite (ih (h1.modCore fun _ hk => hk.noteLow).retireAt) h

theorem State.Legal.givePool {c n} : (s.givePool c n).Legal u := h.modCtx.settlePool

/-! ### What a task gives up, and traps -/

theorem State.Legal.giveUp {c} : (s.giveUp c).Legal u := by
  have h1 : (s.modCore c fun k => { k with ctxs := k.ctxs.map Ctx.giveUp, poolQ := [] }).Legal u :=
    h.modCore fun _ hk => (hk.mapCtx (f := Ctx.giveUp) fun _ => rfl).update
  exact .ite h1 h1.setOctet.settleLanes

theorem State.Legal.leaveFifoBanks {c} {mine : CtxId → Bool} : (s.leaveFifoBanks c mine).Legal u := .ite h.setCluster h

theorem State.Legal.escalate {c cause value} : (s.escalate c cause value).Legal u := by
  unfold State.escalate
  extract_lets k k1 _ _ s2
  have hk : k.Legal (c == mgmtCore) := h.core
  have hk1 : k1.Legal (c == mgmtCore) := by
    unfold k1
    split
    · split
      · exact .ite hk.update hk
      · exact hk
    · exact hk
  have hs2 : s2.Legal u := (h.setCore hk1.stopAll.update).leaveFifoBanks.giveUp
  split
  · exact hs2
  · exact (hs2.modCore fun _ h1 => h1.update).modTask

/-- The management core enters the machine mode, which exists there (R416). -/
theorem State.Legal.machineEntry {n cause value} : (s.machineEntry n cause value).Legal u := by
  unfold State.machineEntry
  split
  exact h.update.setCtx modeExists_machine

theorem State.Legal.machineFault {n cause value} : (s.machineFault n cause value).Legal u := .ite h.machineEntry h.update

/-- A trap enters the supervisor mode, unless it escalates (R103). -/
theorem State.Legal.takeTrap {c n cause value} : (s.takeTrap c n cause value).Legal u := by
  unfold State.takeTrap
  refine .ite h.machineFault (.ite h.escalate ?_)
  split
  exact h.setCtx (modeExists_one _)

theorem State.Legal.trap {cause value} : (trap cause value s).Legal u := h.takeTrap.next
theorem State.Legal.trapAfter {cause value} : (trapAfter cause value s).Legal u := h.retire.trap
theorem State.Legal.done : (done s).Legal u := h.retire.next
theorem State.Legal.illegal {i} : (illegal i s).Legal u := h.trap
theorem State.Legal.hold : (hold s).Legal u := h.update.next

theorem State.Legal.waitIn {i} : (waitIn i s).Legal u := by
  unfold Machine.waitIn
  split
  · exact h.trap
  · exact h.modMe.next

theorem State.Legal.waitForUnit {i} : (waitForUnit i s).Legal u := by
  unfold Machine.waitForUnit
  split
  · next t e =>
    have h1 : t.Legal u := h.waitIn.out e
    exact (State.Legal.ite h1 h1.update).next
  · exact h.waitIn

theorem State.Legal.pred {q} {k : Res} (hk : k.Legal u) : (pred q s k).Legal u := .ite h.trap (.ite hk h.done)
theorem State.Legal.needClean {v num} {k : Res} (hk : k.Legal u) : (needClean v num s k).Legal u := .ite h.trap hk
theorem State.Legal.needE {r} {k : Word → Res} (hk : ∀ a : Word, (k a).Legal u) : (needE r s k).Legal u := .ite h.trap (hk _)

/-! ### Operand forms, branches and loops -/

theorem State.Legal.alu3 {f : Word → Word → Word} {d r b q} : (alu3 f d r b q s).Legal u := h.pred h.setG.done
theorem State.Legal.alu2 {f : Word → Word} {d r q} : (alu2 f d r q s).Legal u := h.pred h.setG.done
theorem State.Legal.aluImm {f : Word → Word → Word} {d r imm q} : (aluImm f d r imm q s).Legal u := h.alu2
theorem State.Legal.unary {f : Word → Word} {d r} : (unary f d r s).Legal u := h.setG.done
theorem State.Legal.addFlags {fl} : (s.addFlags fl).Legal u := h.modMe

theorem State.Legal.onDivide {i d v fl} : (onDivide i d v fl s).Legal u :=
  .ite (h.modMyCore fun _ h1 => h1.update).nextSeq.await.done (State.Legal.ite h (h.modMyCore fun _ h1 => h1.update)).waitForUnit

theorem State.Legal.onRecurrence {i d v fl} : (onRecurrence i d v fl s).Legal u :=
  .ite (h.modMyCore fun _ h1 => h1.update).nextSeq.await.done (State.Legal.ite h (h.modMyCore fun _ h1 => h1.update)).waitForUnit

theorem State.Legal.withAfterSlots {k : Word → Res} (hk : ∀ a : Word, (k a).Legal u) : (withAfterSlots s k).Legal u := by
  unfold Machine.withAfterSlots
  split
  split
  · exact h.trap
  · split
    · exact h.trap
    · split
      · exact h.trap
      · exact hk _

theorem State.Legal.branchNot {sl} : (branchNot sl s).Legal u := by
  cases sl
  case n => exact h.withAfterSlots fun _ => h.retireAt.next
  all_goals exact h.retireAt.next

theorem State.Legal.branchTo {sl t} : (branchTo sl t s).Legal u := by
  cases sl <;> exact h.retireAt.next

theorem State.Legal.withLink {sl} {k : Word → Res} (hk : ∀ a : Word, (k a).Legal u) : (withLink sl s k).Legal u := by
  unfold Machine.withLink
  split
  · split
    · exact h.trap
    · exact hk _
  · exact h.withAfterSlots fun _ => hk _
  · exact h.withAfterSlots fun _ => hk _

theorem State.Legal.callTo {sl t} : (callTo sl t s).Legal u := h.withLink fun _ => h.putG.branchTo

theorem State.Legal.jumpVia {r sl q link} : (jumpVia r sl q link s).Legal u :=
  .ite h.trap (.ite h.branchNot (h.needClean (.ite h.trap (.ite h.callTo h.branchTo))))

theorem State.Legal.execBS {disp} : (execBS disp s).Legal u := h.branchTo
theorem State.Legal.execCallS {disp} : (execCallS disp s).Legal u := h.callTo
theorem State.Legal.execJmpS {r} : (execJmpS r s).Legal u := h.jumpVia
theorem State.Legal.execCalliS {r} : (execCalliS r s).Legal u := h.jumpVia
theorem State.Legal.execRetS : (execRetS s).Legal u := h.jumpVia

theorem State.Legal.startLoop {i n src reneg e} : (startLoop i n src reneg e s).Legal u :=
  .ite h.illegal (h.needClean (.ite h.retireAt.next (h.setMe (by rfl)).done))

theorem State.Legal.execLbrk {p neg sl} : (execLbrk p neg sl s).Legal u := by
  unfold Machine.execLbrk
  refine .ite h.trap (.ite h.branchNot ?_)
  split
  · exact h.illegal
  · exact h.modMe.branchTo

end Sys2Proof.Machine
end

section
/-! PROOFS (O56). The cluster cache, loads and stores. -/

namespace Sys2Proof.Machine

variable {s : State} {u : Cur} (h : s.Legal u)
include h

/-! ### The cluster cache, and the release and acquire actions -/

theorem State.Legal.peerRead {p} (e : s.peerRead = p) : p.2.Legal u := e ▸ h.nextFresh
theorem State.Legal.serveUnit {pa p} (e : s.serveUnit pa = p) : p.2.Legal u := e ▸ h.settleHome.countView

theorem State.Legal.serveOwn {own pa p} (e : s.serveOwn own pa = p) : p.2.Legal u := by
  subst e
  unfold State.serveOwn
  split
  next s1 e1 =>
  have h1 : s1.Legal u := h.serveUnit e1
  exact h1

theorem State.Legal.serveAt {peer pa p} (e : s.serveAt peer pa = p) : p.2.Legal u := by
  subst e
  unfold State.serveAt
  split
  · exact h.serveUnit rfl
  · exact h.peerRead rfl

theorem State.Legal.sendBack {cl l} : (s.sendBack cl l).Legal u := .ite h h.setCluster.nextSeq
theorem State.Legal.applyLine {l} : (s.applyLine l).Legal u := .ite h (h.settleHome.foldl (fun _ _ h1 => h1.homeApplyMask))

theorem State.Legal.landBacks {cl peer line} : (s.landBacks cl peer line).Legal u := by
  unfold State.landBacks
  extract_lets k
  split
  exact .ite h (h.setCluster.foldl (fun _ _ h1 => h1.applyLine))

theorem State.Legal.flushLine {cl peer line} : (s.flushLine cl peer line).Legal u := by
  unfold State.flushLine
  split
  · exact h
  · exact h.setCluster.sendBack

theorem State.Legal.settleLine {cl peer line} : (s.settleLine cl peer line).Legal u := h.flushLine.landBacks

theorem State.Legal.cleanLine {cl peer line} : (s.cleanLine cl peer line).Legal u := by
  unfold State.cleanLine
  extract_lets s1
  have hs1 : s1.Legal u := h.landBacks
  split
  · exact hs1
  · exact hs1.applyLine.setCluster

theorem State.Legal.catchUp {cl pos line} : (s.catchUp cl pos line).Legal u := .ite h.settleLine h

theorem State.Legal.makeRoom {cl line t} (e : s.makeRoom cl line = some t) : t.Legal u := by
  unfold State.makeRoom at e
  extract_lets k set at e
  split at e
  · cases e; exact h
  · split at e
    · cases e
    · cases e; exact h.setCluster.sendBack

theorem State.Legal.fillLine {l p} (e : s.fillLine l = p) : p.2.Legal u := by
  subst e
  unfold State.fillLine
  refine (List.range 8).foldlRecOn (motive := fun a : Line × State => a.2.Legal u) _ h fun _ ha _ _ => ?_
  split
  split
  · exact ha
  · split
    next e => exact State.Legal.serveAt ha e

theorem State.Legal.freshLine {cl peer line timed p} (e : s.freshLine cl peer line timed = p) : p.2.Legal u := e ▸ h.landBacks

theorem State.Legal.cacheLoad {cl peer pa n timed p} (e : s.cacheLoad cl peer pa n timed = p) : p.2.Legal u := by
  subst e
  unfold State.cacheLoad
  extract_lets _ direct _ serve
  have h_direct : ∀ (s : State), s.Legal u → (direct s).2.Legal u := by
    intro s h
    unfold direct
    split
    next s1 e =>
    have h1 : s1.Legal u := h.landBacks.serveAt e
    exact h1
  have h_serve : ∀ (l : Line) (s : State), s.Legal u → (serve l s).2.Legal u := by
    intro l s h
    unfold serve
    split
    next s1 e =>
    have h1 : s1.Legal u := by
      split at e
      · cases e; exact h
      · exact h.fillLine e
    exact h1.setCluster
  split
  · exact h_direct _ h
  · split
    · exact h_serve _ _ h.landBacks
    · split
      · exact h_direct _ h
      · next e =>
        split
        next e1 => exact h_serve _ _ ((h.makeRoom e).freshLine e1)

theorem State.Legal.cacheStore {cl pos peer pa n v timed} : (s.cacheStore cl pos peer pa n v timed).Legal u := by
  unfold State.cacheStore
  extract_lets _ direct put
  have h_direct : ∀ (s : State), s.Legal u → (direct s).Legal u := fun _ h1 => .ite h1.landBacks.arriveWrite h1.landBacks
  have hput : ∀ (l : Line) (s : State), s.Legal u → (put l s).Legal u := fun _ _ h1 => h1.setCluster
  refine .ite (h_direct _ h) ?_
  split
  · exact hput _ _ h
  · split
    · exact h_direct _ h
    · next s1 e1 => exact hput _ _ (h.makeRoom e1)

theorem State.Legal.startMerge {cl e} : (s.startMerge cl e).Legal u := by
  unfold State.startMerge
  extract_lets s1
  have hs1 : s1.Legal u := by
    unfold s1
    split
    · exact h.flushLine
    · exact h
  exact hs1.setCluster

theorem State.Legal.contribute {cl pos p op n v} : (s.contribute cl pos p op n v).Legal u := by
  unfold State.contribute
  extract_lets _ _ s1 _ s2
  have hs1 : s1.Legal u := by
    unfold s1
    split
    · exact .ite h h.startMerge
    · exact h
  have hs2 : s2.Legal u := by
    unfold s2
    split
    · split
      · exact hs1.startMerge
      · exact hs1
    · exact hs1
  split
  · exact hs1.setCluster
  · exact hs2.setCluster.nextSeq

theorem State.Legal.mergeMine {cl pos} : (s.mergeMine cl pos).Legal u := h.foldl (fun _ _ h1 => h1.startMerge)

theorem State.Legal.cleanMine {cl pos} : (s.cleanMine cl pos).Legal u := by
  unfold State.cleanMine
  split
  exact h.foldl (fun _ _ h1 => h1.setCluster.sendBack)

theorem State.Legal.releaseActs {c sc p} (e : s.releaseActs c sc = p) : p.1.Legal u := by
  subst e
  unfold State.releaseActs
  split
  · exact h
  · exact (State.Legal.ite h.cleanMine h).mergeMine

theorem State.Legal.acquireActs {c sc} : (s.acquireActs c sc).Legal u := .ite h h.setCluster

theorem State.Legal.withRelease {sc} {k : State → Res} (hk : ∀ t : State, t.Legal u → (k t).Legal u) :
    (withRelease sc s k).Legal u := by
  unfold Machine.withRelease
  split
  · exact hk _ h
  · refine .ite h.hold ?_
    split
    next s1 _ e =>
    have h1 : s1.Legal u := h.releaseActs e
    exact .ite (hk _ h1) h1.hold

theorem State.Legal.acquired {sc} : (s.acquired sc).Legal u := by
  unfold State.acquired
  split
  · exact h
  · exact h.acquireActs

/-! ### Loads and stores of a core, and the memory instructions -/

theorem State.Legal.switchBank {cl b m} : (s.switchBank cl b m).Legal u := by
  unfold State.switchBank
  split
  · exact h.setCluster.update
  · exact h.setCluster
  · exact h.setCluster

theorem State.Legal.emptyCache {cl} : (s.emptyCache cl).Legal u :=
  ((h.foldl fun _ _ h1 => h1.applyLine).foldl fun _ _ h1 => h1.applyLine).setCluster

theorem State.Legal.serve {c p n r} (e : s.serve c p n = r) : r.2.Legal u := by
  subst e
  unfold State.serve
  split
  · exact h
  · exact h
  · exact h
  · exact h
  · exact h
  · exact h
  · split
    · split
      next s1 e2 =>
      have h1 : s1.Legal u := h.serveUnit e2
      exact h1
    · split
      · split
        next s1 e2 =>
        have h1 : s1.Legal u := h.serveOwn e2
        exact h1
      · exact h.catchUp.cacheLoad rfl
  · split
    · split
      next s1 e2 =>
      have h1 : s1.Legal u := h.peerRead e2
      exact h1
    · exact h.cacheLoad rfl
  · exact h

theorem State.Legal.portWrite {p n v} : (s.portWrite p n v).Legal u := by
  unfold State.portWrite
  split
  · exact h.modCore fun _ h1 => h1.update
  · exact h.modCore fun _ h1 => h1.update
  · exact h.modCore fun _ h1 => h1.update
  · exact h.setCluster
  · exact h

theorem State.Legal.performStore {c n id p bytes v held t} (e : s.performStore c n id p bytes v held = some t) : t.Legal u := by
  unfold State.performStore at e
  split at e
  · cases e; exact h.portWrite
  · cases e; exact h.portWrite
  · split at e
    · cases e
    · cases e; exact h.portWrite
  · split at e
    · cases e
    · cases e; exact h.portWrite
  · split at e
    · cases e; exact h.arriveWrite
    · split at e
      · split at e
        · cases e
        · next e1 => cases e; exact h.arriveTimed e1
      · split at e
        · cases e; exact h.settleLine.arriveWrite
        · cases e; exact h.cacheStore
  · split at e
    · cases e
    · split at e
      · cases e; exact h
      · cases e; exact h.cacheStore
  · cases e; exact h
  · cases e; exact h
  · cases e; exact h

theorem State.Legal.mayAccess {p} {k : Res} (hk : k.Legal u) : (mayAccess p s k).Legal u := .ite h.hold hk
theorem State.Legal.setFifo {cl b f} : (s.setFifo cl b f).Legal u := h.setCluster

theorem State.Legal.latchCluster {cl bits} : (s.latchCluster cl bits).Legal u := by
  unfold State.latchCluster
  refine h.mapCores ?_
  rintro ⟨c, k⟩ hk
  dsimp only at hk ⊢
  split
  · simpa only using hk.latchAll
  · exact hk

theorem State.Legal.push {cl b es} : (s.push cl b es).Legal u := h.setFifo.latchCluster

theorem State.Legal.pull {cl b k p} (e : s.pull cl b k = p) : p.2.Legal u := by
  subst e
  unfold State.pull
  exact h.setFifo.latchCluster

theorem State.Legal.onFifo {i push k cl b} {run : State → Res} (hrun : ∀ t : State, t.Legal u → (run t).Legal u) :
    (onFifo i push k cl b s run).Legal u :=
  .ite (hrun _ h.setFifo) (State.Legal.ite h h.setFifo).waitIn

theorem State.Legal.landNow {dst v acq} : (s.landNow dst v acq).Legal u := h.setReg.acquired

theorem State.Legal.addLoad {dst p n signed acq kind} : (s.addLoad dst p n signed acq kind).Legal u :=
  (h.modMyCore fun _ h1 => h1.update).await.nextSeq

theorem State.Legal.loadPlace {i dst p n signed acq} : (loadPlace i dst p n signed acq s).Legal u := by
  unfold Machine.loadPlace
  refine h.mayAccess (.ite h.hold ?_)
  split
  · refine .ite h.landNow.done (.ite h.hold (.ite h.landNow.done (h.onFifo ?_)))
    intro a h1
    split
    next e1 => exact (h1.pull e1).landNow.done
  · exact .ite h.landNow.done h.addLoad.done

theorem State.Legal.loadAt {i dst b addr n signed acq} : (loadAt i dst b addr n signed acq s).Legal u := by
  unfold Machine.loadAt
  refine .ite h.setReg.done (.ite h.trap ?_)
  split
  · exact h.touch.loadPlace
  · exact .ite h.hold h.walked.landNow.done

theorem State.Legal.doneStored {v addr} : (doneStored v addr s).Legal u := .ite h.trapAfter h.done
theorem State.Legal.toPort {p n v kind} : (s.toPort p n v kind).Legal u := (h.modMyCore fun _ h1 => h1.update).nextSeq

theorem State.Legal.storeStart {ch v addr} : (storeStart ch v addr s).Legal u :=
  .ite h.trap (.ite h.trap (.ite h.toPort.doneStored (h.modMyCore fun _ h1 => h1.update).toPort.doneStored))

theorem State.Legal.storeAperture {ch off v addr} : (storeAperture ch off v addr s).Legal u := by
  unfold Machine.storeAperture
  split
  · exact h.storeStart
  · exact (h.modMyCore fun _ h1 => h1.update).doneStored
  · exact (h.modMyCore fun _ h1 => h1.update).doneStored

theorem State.Legal.storePlace {i p n v addr} : (storePlace i p n v addr s).Legal u := by
  unfold Machine.storePlace
  refine .ite h.hold ?_
  split
  · exact h.storeAperture
  · exact h.portWrite.doneStored
  · exact .ite h.hold h.update.doneStored
  · exact .ite h.toPort.doneStored h.portWrite.doneStored
  · split
    · exact .ite h.hold (h.onFifo (fun _ h1 => h1.push.doneStored))
    · exact h.toPort.doneStored

theorem State.Legal.storeFate {r addr} {k : Place → Res} (hk : ∀ a : Place, (k a).Legal u) : (storeFate r addr s k).Legal u := by
  unfold Machine.storeFate
  split
  · exact hk _
  · exact h.walked.trap
  · exact h.trap
  · exact h.trap

theorem State.Legal.storeAt {i b base addr n v rel} : (storeAt i b base addr n v rel s).Legal u :=
  h.needClean (.ite h.trap (h.storeFate (fun _ => h.mayAccess (h.touch.withRelease (fun _ h1 => h1.storePlace)))))

theorem State.Legal.flushPlace {p} : (s.flushPlace p).Legal u := by
  unfold State.flushPlace
  split
  · exact h.flushLine
  · exact h

theorem State.Legal.execTst {src base sc o e isAbs} : (execTst src base sc o e isAbs s).Legal u := by
  unfold Machine.execTst
  refine h.needE fun _ => h.needClean (.ite h.trap (.ite h.trap (h.storeFate ?_)))
  intro a1
  split
  · exact h.trap
  · exact h.mayAccess (h.touch.flushPlace.withRelease (fun _ h1 => .ite h1.hold h1.toPort.doneStored))

theorem State.Legal.execTld {d base sc o e isAbs} : (execTld d base sc o e isAbs s).Legal u := by
  unfold Machine.execTld
  refine h.needE fun _ => ?_
  extract_lets _ _ _ bad
  have hbad : bad.Legal u := h.touch.setG.done
  refine .ite h.setG.done (.ite h.trap (.ite h.trap ?_))
  split
  · split
    · exact hbad
    · exact h.mayAccess (.ite h.hold h.touch.flushPlace.addLoad.done)
  · exact hbad

theorem State.Legal.atomPort {c p n op v r} (e : s.atomPort c p n op v = r) : r.2.Legal u := e ▸ .ite h h.portWrite

theorem State.Legal.atomAt {op d base src sc o w32} : (atomAt op d base src sc o w32 s).Legal u := by
  unfold Machine.atomAt
  refine h.needClean (.ite h.trap (h.storeFate ?_))
  intro a
  refine h.mayAccess (h.touch.withRelease ?_)
  intro a1 h1
  refine .ite h1.hold ?_
  extract_lets m
  split
  · split
    next e1 => exact (State.Legal.ite h1 (h1.atomPort e1)).landNow.doneStored
  · exact h1.flushPlace.addLoad.doneStored

theorem State.Legal.accumulate {c n id p bytes op v t} (e : s.accumulate c n id p bytes op v = some t) : t.Legal u := by
  unfold State.accumulate at e
  split at e
  · cases e; exact h.atomPort rfl
  · split at e
    · cases e
    · cases e; exact h.atomPort rfl
  · split at e
    · cases e
    · cases e; exact h.atomPort rfl
  · split at e
    · cases e; exact h.arriveAtom rfl
    · split at e
      · split at e
        · cases e
        · next e1 => cases e; exact h.arriveTimed e1
      · cases e; exact h.contribute
  · split at e
    · cases e
    · split at e
      · cases e; exact h
      · cases e; exact h.contribute
  all_goals cases e; exact h

theorem State.Legal.accAt {op base src sc o w32} : (accAt op base src sc o w32 s).Legal u := by
  unfold Machine.accAt
  refine h.needClean (.ite h.trap (h.storeFate fun p => h.mayAccess (h.touch.withRelease fun s h => .ite h.hold ?_)))
  extract_lets free now
  refine .ite h.hold ?_
  split
  · next s1 e =>
    have h1 : s1.Legal u := by
      split at e
      · exact h.accumulate e
      · cases e
    exact h1.nextSeq.doneStored
  · exact h.toPort.doneStored

theorem State.Legal.onLine {r q needR} {none_ : Res} (hnone_ : none_.Legal u) {k : Nat → Nat → Bool → State → Res}
    (hk : ∀ (a : Nat) (b : Nat) (c : Bool) (t : State), t.Legal u → (k a b c t).Legal u) : (onLine r q needR s none_ k).Legal u := by
  unfold Machine.onLine
  refine h.pred (h.needClean ?_)
  split
  · exact hnone_
  · exact .ite h.hold (hk _ _ _ _ h.touch)

theorem State.Legal.execLinewb {r q} : (execLinewb r q s).Legal u := h.onLine h.done fun _ _ _ _ h1 => h1.cleanLine.done
theorem State.Legal.execLineinv {r q} : (execLineinv r q s).Legal u := h.onLine h.done fun _ _ _ _ h1 => h1.settleLine.done

theorem State.Legal.execPin {d r q} : (execPin d r q s).Legal u := by
  unfold Machine.execPin
  refine h.onLine h.putG.done fun _ _ _ _ h1 => ?_
  extract_lets _ _ _ pinIt
  have h_pinIt : ∀ (x : Line) (s : State), s.Legal u → (pinIt x s).Legal u := fun _ _ h2 =>
      h2.setMyCluster.putG.done
  split
  · exact .ite h1.putG.done (.ite h1.putG.done (h_pinIt _ _ h1))
  · refine .ite h1.putG.done ?_
    split
    · exact h1.putG.done
    · next e1 =>
      split
      next s2 e2 => exact h_pinIt _ _ (((h1.makeRoom e1).freshLine e2).fillLine rfl)

theorem State.Legal.execUnpin {r q} : (execUnpin r q s).Legal u :=
  h.onLine h.done (fun _ _ _ _ h1 => h1.setMyCluster.done)

end Sys2Proof.Machine
end

section
/-! PROOFS (O56). Contexts, special registers, tags, packets and launches. -/

namespace Sys2Proof.Machine

/-- No special register is the mode itself (R99). -/
theorem Ctx.writeSr_priv (x : Ctx) (n : Nat) (v : Word) : (x.writeSr n v).tr.priv = x.tr.priv := by
  unfold Ctx.writeSr
  split <;> rfl

variable {s : State} {u : Cur} (h : s.Legal u)
include h

/-! ### Contexts, the register pool, special registers -/

theorem State.Legal.endTask {c} : (s.endTask c).Legal u :=
  (h.modCore fun _ hk => (hk.mapCtx (f := Ctx.freed) fun _ => rfl).update).giveUp

/-- A helper starts in user mode (R92). -/
theorem State.Legal.execStart {d imm} : (execStart d imm s).Legal u := by
  unfold Machine.execStart
  refine .ite h.trap ?_
  split
  · exact h.putG.done
  · exact h.needClean (h.modMyCore fun _ h1 => h1.setCtx (modeExists_zero _)).putG.done

theorem State.Legal.reap {n} : (s.reap n).Legal u := by
  unfold State.reap
  exact (h.modMyCore fun _ hk => hk.setCtx (by exact h.ctx _ n)).modMe

theorem State.Legal.joinVia {i r} : (joinVia i r s).Legal u := by
  unfold Machine.joinVia
  refine .ite h.trap ?_
  extract_lets v n
  refine h.needClean (.ite h.trap ?_)
  split
  · exact h.done
  · exact h.reap.done
  · exact h.waitIn
  · exact h.waitIn
  · exact h.waitIn

theorem State.Legal.exitVia : (exitVia s).Legal u := by
  unfold Machine.exitVia
  extract_lets _ _ s1 s2 _ s'
  have hs1 : s1.Legal u := h.retire.givePool
  have hs2 : s2.Legal u := .ite hs1 hs1.releaseLanes
  have hs' : s'.Legal u := (h.foldl (fun _ _ h1 => .ite h1.reap h1)).retire.endTask
  refine .ite h.trap (.ite h.trap (.ite h.hold (.ite h.trap ?_)))
  refine .ite (hs2.modMe.modMyCore fun _ h1 => h1.setCtx (by exact h1.ctx 0)).next (State.Legal.next ?_)
  split
  · exact hs'.modTask
  · exact hs'

theorem State.Legal.yieldVia : (yieldVia s).Legal u := h.modMe.done

theorem State.Legal.execHint {mask w} : (execHint mask w s).Legal u :=
  .ite (h.foldl (fun _ _ h1 => h1.modCore (fun _ h2 => h2.update))).done
      ((h.foldl (fun _ _ h1 => h1.modCore (fun _ h2 => h2.update))).modMyCore (fun _ h1 => h1.update)).modMe.next

theorem State.Legal.giveVia {i} : (giveVia i s).Legal u := .ite h.done (.ite h.waitIn h.givePool.done)

theorem State.Legal.execClaim {d r q} : (execClaim d r q s).Legal u :=
  h.pred (h.needClean (.ite h.trap (.ite h.waitIn (.ite h.givePool.putG.done (.ite (h.givePool.putG.modMe.modMyCore (fun _ h1 =>
      h1.noteLow)).done (.ite h.waitIn (h.givePool.putG.modMyCore (fun _ h1 => h1.update)).waitIn))))))

theorem State.Legal.returnTo {x0 x1 x2 priv} {k : State → State} (hk : ∀ t : State, t.Legal u → (k t).Legal u) :
    (returnTo x0 x1 x2 priv s k).Legal u :=
  .ite h.trap (hk _ (h.setCtx (modeExists_legalPriv _ priv s.fresh)).nextFresh).next

theorem State.Legal.popAlert {p} (e : s.popAlert = p) : p.2.Legal u := by
  subst e
  unfold State.popAlert
  split
  · exact h
  · exact h.update

theorem State.Legal.takeSr {n p} (e : s.takeSr n = p) : p.2.Legal u := by
  subst e
  unfold State.takeSr
  split
  · exact h.popAlert rfl
  · exact h

theorem State.Legal.execMfs {d sr} : (execMfs d sr s).Legal u := by
  unfold Machine.execMfs
  extract_lets n
  split
  · exact h.illegal
  · exact h.trap
  · refine .ite h.hold ?_
    split
    next s1 e1 => exact (h.takeSr e1).putG.done
  · refine .ite h.hold ?_
    split
    next s1 e1 => exact (h.takeSr e1).putG.done

theorem State.Legal.writeSr {n v} : (s.writeSr n v).Legal u :=
  .ite (h.modMyCore fun _ h1 => h1.update) (.ite h.update (h.modMe fun x => x.writeSr_priv n v))

theorem State.Legal.execMts {d sr} : (execMts d sr s).Legal u := by
  unfold Machine.execMts
  extract_lets n v
  split
  · exact h.illegal
  · exact h.trap
  · exact h.trap
  · exact .ite h.trap (.ite h.hold (.ite h.retire.writeSr.next h.writeSr.done))

theorem State.Legal.withRecord {i d n} {okSt : CtxState → Bool} {k : CtxId → Word → Res}
    (hk : ∀ (a : CtxId) (b : Word), (k a b).Legal u) : (withRecord i d n okSt s k).Legal u :=
  .ite h.trap (.ite h.trap (.ite h.trap (h.needClean (.ite h.trap (hk _ _)))))

theorem State.Legal.withPlaces {a n w} {f : List Place → Res} (hf : ∀ ps, (f ps).Legal u) : (withPlaces a s n w f).Legal u := by
  induction n generalizing w f with
  | zero => exact hf []
  | succ n ih => exact h.storeFate fun p => ih fun ps => hf (p :: ps)

theorem State.Legal.storeWord {p v t} (e : s.storeWord p v = some t) : t.Legal u := by
  unfold State.storeWord at e
  split at e
  · split at e
    · cases e; exact h.push
    · cases e
  · split at e
    · split at e
      · cases e; exact h.modMyCore fun _ hk => hk.update
      · cases e; exact h.modMyCore fun _ hk => hk.update
    · cases e; exact h.update
    · cases e; exact h.toPort
    · split at e
      · cases e; exact h.toPort
      · split at e
        · next e1 => cases e; exact h.performStore e1
        · cases e; exact h.toPort.modMyCore fun _ hk => hk.setPort

theorem State.Legal.storeWords {l t} (e : s.storeWords l = some t) : t.Legal u := by
  induction l generalizing s with
  | nil => cases e; exact h
  | cons a r ih =>
    obtain ⟨s1, e1, e2⟩ := Option.bind_eq_some_iff.1 e
    exact ih (h.storeWord e1).nextSeq e2

theorem State.Legal.execCtxsave {d n} : (execCtxsave d n s).Legal u := by
  unfold Machine.execCtxsave
  refine h.withRecord fun _ _ => h.withPlaces fun _ => .ite h.hold ?_
  split
  · exact h.hold
  · next s1 e => exact (h.storeWords e).done

theorem State.Legal.loadWords {l p} (e : s.loadWords l = p) : p.2.Legal u := by
  induction l generalizing s p with
  | nil => subst e; exact h
  | cons a r ih =>
    unfold State.loadWords at e
    split at e
    next s1 e1 =>
    have h1 : s1.Legal u := by
      split at e1
      · cases e1; exact h
      · split at e1
        · split at e1
          · cases e1; exact h
          · split at e1
            next e2 => cases e1; exact h.pull e2
        · exact h.serve e1
    split at e
    next s2 e2 =>
    have h2 : s2.Legal u := ih h1 e2
    subst e; exact h2

/-- A record brings a mode of the core that loads it (R98, R115). -/
theorem State.Legal.execCtxload {d run n} : (execCtxload d run n s).Legal u := by
  unfold Machine.execCtxload
  refine h.withRecord fun m _ => h.withPlaces fun _ => .ite h.hold ?_
  split
  next ws s1 e =>
  extract_lets c s2 s3 _ _
  have h1 : s1.Legal u := h.loadWords e
  have own : s1.cur = s.cur := h1.cur.trans h.cur.symm
  have hs2 : s2.Legal u := h1.modMyCore fun k h2 =>
    (h2.setCtx (n := m) (x := (k.ctx m).loaded (c == mgmtCore) s1.fresh ws run) (own ▸ modeExists_legalPriv ..)).update
  have hs3 : s3.Legal u := hs2.nextFresh.settlePool
  exact (State.Legal.ite hs3 hs3.setOctet.settleLanes).done

/-! ### Tags, timelines, packets and FIFO banks as a core uses them -/

theorem State.Legal.tnowVia {d isAbs} : (tnowVia d isAbs s).Legal u := h.putG.done
theorem State.Legal.execTwaitu {e isAbs} : (execTwaitu e isAbs s).Legal u := h.needE fun _ => .ite h.done h.waitIn
theorem State.Legal.tlwaitVia {i r c} : (tlwaitVia i r c s).Legal u := h.needClean (.ite h.done h.waitIn)

theorem State.Legal.execGset {x g neg} : (execGset x g neg s).Legal u := by
  unfold Machine.execGset
  refine .ite h.trap ?_
  split
  · exact h.trap
  · exact h.trap
  · exact (h.modMyCore fun _ h1 => h1.setGuard).done
  · exact (h.modMyCore fun _ h1 => h1.setGuard).done

theorem State.Legal.execPko {r e w} : (execPko r e w s).Legal u := by
  unfold Machine.execPko
  refine h.needClean (h.needE ?_)
  intro a
  split
  · exact h.trap
  · exact .ite h.trap (.ite h.trap (.ite h.trap h.modMe.done))

theorem State.Legal.execPka {r nm1} : (execPka r nm1 s).Legal u := by
  unfold Machine.execPka
  refine h.needClean ?_
  split
  · exact h.trap
  · exact .ite h.trap (.ite h.trap h.modMe.done)

theorem State.Legal.execPks : (execPks s).Legal u := by
  unfold Machine.execPks
  split
  · exact h.trap
  · exact .ite h.trap (.ite h.setP.done (h.modMyCore fun _ h1 => h1.update).modMe.setP.done)

theorem State.Legal.execRxpop {d f} : (execRxpop d f s).Legal u := by
  unfold Machine.execRxpop
  refine .ite ((h.modMyCore fun _ h1 => h1.update).putG.done) ?_
  split
  · exact h.waitIn
  · exact (h.modMyCore fun _ h1 => h1.update).putG.done

theorem State.Legal.remote {fetchto d r e g sz} : (remote fetchto d r e g sz s).Legal u := by
  unfold Machine.remote
  refine h.needClean (h.needClean (h.needE ?_))
  intro a
  refine .ite h.trap (.ite h.trap (.ite h.trap (.ite h.trap (.ite h.trap ?_))))
  split
  · exact h.trap
  · exact .ite h.hold (h.modMyCore fun _ h1 => h1.useGuard.update).nextSeq.done

theorem State.Legal.drainBank {cl b m} : (s.drainBank cl b m).Legal u := (State.Legal.ite h.emptyCache h).switchBank

theorem State.Legal.execBankmode {d r b q} : (execBankmode d r b q s).Legal u :=
  h.pred (.ite h.trap (.ite (.ite h.putG.done h.trap) (.ite h.hold (.ite h.putG.done (.ite h.trap (.ite h.trap (.ite h.waitIn
      h.drainBank.putG.done)))))))

/-! ### Launch records, LAUNCH and SPAWN -/

theorem State.Legal.zeroFrame {n} : (s.zeroFrame n).Legal u := h.foldl (fun _ _ h1 => h1.homeApply)

theorem State.Legal.renameRange {sec t writer w} : (s.renameRange sec t writer w).Legal u := by
  unfold State.renameRange
  refine h.foldl fun _ _ h1 => ?_
  extract_lets q old
  split
  · exact h1
  · exact h1.setSector.zeroFrame

theorem State.Legal.enterTable {sec k p} (e : s.enterTable sec k = p) : p.2.Legal u := by
  subst e
  unfold State.enterTable
  split
  exact (h.foldl (fun _ _ h1 => h1.renameRange)).setSector.nextFresh

theorem State.Legal.readPlaces {addr n p} (e : s.readPlaces addr n = p) : p.2.Legal u := by
  induction n generalizing s addr p with
  | zero => subst e; exact h
  | succ n ih =>
    unfold State.readPlaces at e
    split at e
    next s1 e1 =>
    have h1 : s1.Legal u := by
      split at e1
      · exact h.serve e1
      · cases e1; exact h
    split at e
    next s2 e2 =>
    have h2 : s2.Legal u := ih h1 e2
    subst e; exact h2

theorem State.Legal.setP1 {b} : (s.setP1 b).Legal u := h.setP

theorem State.Legal.launchRead {d w rs} {s' : State} (hs : s'.Legal u) : (launchRead d w rs s s').Legal u := by
  unfold Machine.launchRead
  extract_lets r t sec
  split
  next s1 e => exact .ite h.trap (hs.readPlaces e).setSector.putG.setP1.done

theorem State.Legal.execLaunch {d r q} : (execLaunch d r q s).Legal u := by
  unfold Machine.execLaunch
  refine h.pred (h.needClean (.ite h.trap (.ite h.waitIn (h.withRelease ?_))))
  intro s h
  refine .ite h.setP1.done (h.withPlaces ?_)
  intro ps
  refine .ite h.hold ?_
  split
  next e => exact h.launchRead (h.loadWords e)

theorem State.Legal.spawnRead {d w tr k ws} {s' : State} (hs : s'.Legal u) : (spawnRead d w tr k ws s s').Legal u := by
  unfold Machine.spawnRead
  refine .ite h.trap ?_
  split
  next e => exact (hs.enterTable e).putG.setP1.done

theorem State.Legal.execSpawn {d r q} : (execSpawn d r q s).Legal u := by
  unfold Machine.execSpawn
  refine h.pred (h.needClean (.ite h.trap (h.withRelease ?_)))
  intro s h
  split
  · exact h.setP1.done
  · split
    · exact h.setP1.done
    · refine Res.Legal.ite h.setP1.done (h.withPlaces ?_)
      intro ps
      refine .ite h.hold ?_
      split
      next ws s1 e => exact h.spawnRead (h.loadWords e)

theorem State.Legal.addEdge {sec n y kx ky t} (e : s.addEdge sec n y kx ky = some t) : t.Legal u := by
  unfold State.addEdge at e
  extract_lets q after ky' at e
  split at e
  · cases e
  · cases e; exact h.setSector

theorem State.Legal.execTedge {r b q} : (execTedge r b q s).Legal u := by
  unfold Machine.execTedge
  refine h.pred ?_
  extract_lets va vb sec
  refine h.needClean (h.needClean ?_)
  split
  · exact h.setP1.done
  · refine .ite h.setP1.done ?_
    split
    · exact h.setP1.done
    · refine .ite h.setP1.done ?_
      split
      · exact h.trap
      · next s1 e2 => exact (h.addEdge e2).setP1.done

theorem State.Legal.execTinfo {d item q} : (execTinfo d item q s).Legal u := by
  unfold Machine.execTinfo
  refine h.pred ?_
  split
  · exact h.putG.done
  · split
    · exact h.putG.done
    · split
      · exact h.putG.done
      · exact h.putG.done

end Sys2Proof.Machine
end

section
/-! PROOFS (O56). Float, level-index, vector and matrix instructions. -/

namespace Sys2Proof.Machine

variable {s : State} {u : Cur} (h : s.Legal u)
include h

/-! ### Float, level-index and vector instructions -/

theorem State.Legal.putNum {d r} : (putNum d r s).Legal u := h.setG.addFlags.done
theorem State.Legal.putCmp {d poison r} : (putCmp d poison r s).Legal u := .ite h.setP.done h.setP.addFlags.done

theorem State.Legal.execFdiv {d r b f r1 q} : (execFdiv d r b f r1 q s).Legal u := by
  unfold Machine.execFdiv
  refine h.pred ?_
  split
  exact h.onDivide

theorem State.Legal.execFsqrt {d r f r1 q} : (execFsqrt d r f r1 q s).Legal u := by
  unfold Machine.execFsqrt
  refine h.pred ?_
  extract_lets x t
  split
  exact h.onDivide

theorem State.Legal.minmax {isMax d r b f} : (minmax isMax d r b f s).Legal u := h.putNum

theorem State.Legal.execFcvt {d r r1 c q} : (execFcvt d r r1 c q s).Legal u := by
  unfold Machine.execFcvt
  refine h.pred ?_
  extract_lets x
  split
  exact h.putNum

theorem State.Legal.level2 {i} {op : LFmt → Nat → Nat → Nat × Word} {d r b f} : (level2 i op d r b f s).Legal u := by
  unfold Machine.level2
  extract_lets x y
  split
  exact h.onRecurrence

theorem State.Legal.execLcvt {d r r1 c q} : (execLcvt d r r1 c q s).Legal u := by
  unfold Machine.execLcvt
  refine h.pred ?_
  extract_lets x
  split
  exact h.onRecurrence

theorem State.Legal.putElems {d es} : (putElems d es s).Legal u := h.modMe.addFlags.done

theorem State.Legal.onLanes {rs} {k : Res} (hk : k.Legal u) : (onLanes rs s k).Legal u := by
  unfold Machine.onLanes
  split
  · exact h.trap
  · exact hk

theorem State.Legal.vop2 {bad} {f : Nat → Nat → Nat × Word} {d r b q} : (vop2 bad f d r b q s).Legal u :=
  h.pred (h.onLanes h.putElems)

theorem State.Legal.vop1 {bad} {f : Nat → Nat × Word} {d r q} : (vop1 bad f d r q s).Legal u := h.pred (h.onLanes h.putElems)

theorem State.Legal.execVclaim {d r q} : (execVclaim d r q s).Legal u :=
  h.pred (h.needClean (.ite h.trap (.ite h.waitIn (.ite h.releaseLanes.putG.done (.ite (State.Legal.ite h h.releaseLanes).waitIn
      (.ite h.releaseLanes.modMe.putG.done (.ite h.waitIn h.releaseLanes.setOctet.waitIn)))))))

theorem State.Legal.vrelVia {i} : (vrelVia i s).Legal u := .ite h.done (.ite h.waitIn h.releaseLanes.done)

theorem State.Legal.touchAll {as} : (s.touchAll as).Legal u := h.foldl (fun _ _ h1 => h1.touch)
theorem State.Legal.tlvNow : s.tlvNow.Legal u := h.modMyCore (fun _ h1 => h1.takeTlv.doneTlv)
theorem State.Legal.loadDone {d es acq} : (loadDone d es acq s).Legal u := h.tlvNow.acquired.putElems

theorem State.Legal.loadElems {i d places ring acq} : (loadElems i d places ring acq s).Legal u := by
  unfold Machine.loadElems
  refine .ite h.hold ?_
  split
  · refine .ite h.hold (h.onFifo ?_)
    intro a h1
    split
    next e1 => exact (h1.pull e1).loadDone
  · exact .ite h.loadDone (h.modMyCore fun _ h1 => h1.takeTlv.update).modMe.nextSeq.done

theorem State.Legal.vload {i d rs whole contig as acq} : (vload i d rs whole contig as acq s).Legal u := by
  unfold Machine.vload
  refine h.onLanes (.ite h.done ?_)
  split
  · exact h.trap
  · exact h.touchAll.loadElems

theorem State.Legal.portElems {num l} : (s.portElems num l).Legal u := by
  induction l generalizing s with
  | nil => exact h
  | cons a r ih => exact ih (h.modMyCore fun _ hk => hk.update).nextSeq

theorem State.Legal.writeElems {l} : (s.writeElems l).Legal u := by
  induction l generalizing s with
  | nil => exact h
  | cons a r ih => exact ih h.portWrite

theorem State.Legal.storeDone {as es} : (storeDone as es s).Legal u := by
  unfold Machine.storeDone
  split
  · exact h.trapAfter
  · exact h.done

theorem State.Legal.storeElems {i as places es ring} : (storeElems i as places es ring s).Legal u := by
  unfold Machine.storeElems
  refine .ite h.hold ?_
  split
  · exact .ite h.hold (h.onFifo (fun _ h1 => h1.push.tlvNow.storeDone))
  · exact .ite h.writeElems.tlvNow.storeDone (h.modMyCore fun _ h1 => h1.takeTlv.update).nextSeq.portElems.storeDone

theorem State.Legal.vstore {i src rs contig bad as rel} : (vstore i src rs contig bad as rel s).Legal u := by
  unfold Machine.vstore
  refine h.onLanes (.ite h.done ?_)
  split
  · exact h.trap
  · split
    · exact h.trap
    · extract_lets ring
      split
      · split
        · exact h.touchAll.trap
        · exact h.done
      · split
        · exact h.trap
        · exact .ite h.hold (h.touchAll.withRelease (fun _ h1 => h1.storeElems))

/-! ### The lease -/

theorem State.Legal.execBoost {d r q} : (execBoost d r q s).Legal u :=
  h.pred (h.needClean (.ite (h.modMyCore fun _ h1 => h1.update).putG.done (.ite ((h.modMyCore (fun _ h1 =>
      h1.update)).modMyCore (fun _ h1 => h1.update)).putG.done (h.modMyCore fun _ h1 => h1.update).putG.done)))

/-! ### The matrix engine -/

theorem State.Legal.offerJob {i d g arg dsc checks} : (offerJob i d g arg dsc checks s).Legal u := by
  unfold Machine.offerJob
  split
  · exact h.trap
  · exact .ite h.setP.done (h.setMyOctet.modMyCore (fun _ h1 => h1.useGuard.update)).putG.setP.done

theorem State.Legal.withDsc {o} {k : Word → Res} (hk : ∀ a : Word, (k a).Legal u) : (withDsc o s k).Legal u := by
  unfold Machine.withDsc
  split
  · exact hk _
  · exact h.needE (fun _ => hk _)

theorem State.Legal.loadJob {i d r e g} : (loadJob i d r e g s).Legal u := h.needClean (h.needE (fun _ => h.offerJob))
theorem State.Legal.tileJob {i d o g more} : (tileJob i d o g more s).Legal u := h.withDsc (fun _ => h.offerJob)
theorem State.Legal.maskJob {i d r g} : (maskJob i d r g s).Legal u := h.needClean h.offerJob

theorem State.Legal.execMcfgQuery {d g} : (execMcfgQuery d g s).Legal u := h.offerJob

theorem State.Legal.execMrda {d t e g raw} : (execMrda d t e g raw s).Legal u := by
  unfold Machine.execMrda
  refine h.needE fun _ => ?_
  extract_lets v checks
  split
  · exact h.trap
  · split
    · exact h.trap
    · exact h.offerJob

theorem State.Legal.mjwaitVia {i r} : (mjwaitVia i r s).Legal u := h.needClean (.ite h.done h.waitIn)

end Sys2Proof.Machine
end

section
/-! PROOFS (O56). Each encoded instruction, and the obligation. -/

namespace Sys2Proof.Machine

/-- Each encoded instruction keeps the modes of every core legal; what has no encoding is a step that the device takes by itself. -/
theorem State.Legal.exec {s : State} {u : Cur} (h : s.Legal u) : ∀ {i : Instr}, encode i ≠ .event → Res.Legal (exec i s) u
  | .add .., _ | .sub .., _ | .and .., _ | .or .., _ | .xor .., _ | .andn .., _ | .shl .., _ | .shr .., _ | .sar .., _ | .min .., _
  | .max .., _ | .minu .., _ | .maxu .., _ | .mul .., _ | .mulh .., _ | .mulhu .., _ => h.alu3
  | .sel .., _ | .bfi .., _ | .xmovGe .., _ => h.setG.done
  | .clz .., _ | .ctz .., _ | .popc .., _ => h.alu2
  | .addi .., _ | .andi .., _ | .ori .., _ | .xori .., _ => h.aluImm
  | .shli .., _ | .shri .., _ | .sari .., _ | .bfx .., _ | .bfxu .., _ | .shliS .., _ | .shriS .., _ | .sariS .., _ => h.unary
  | .movhi .., _ | .lea .., _ | .rxpeek .., _ | .tlread .., _ => h.putG.done
  | .pcmp .., _ | .pcmpi .., _ | .plog .., _ | .pmovPp .., _ | .pmovPg .., _ => h.pred h.setP.done
  | .pmovGp .., _ => h.pred h.setG.done
  | .div .., _ | .divu .., _ | .mod .., _ | .modu .., _ => h.pred h.onDivide
  | .ldb .., _ | .ldbu .., _ | .ldh .., _ | .ldhu .., _ | .ldw .., _ | .ldwu .., _ | .ldwS .., _ | .ldwuS .., _ | .ldd .., _ | .lddS .., _
  | .xld .., _ => h.loadAt
  | .stb .., _ | .sth .., _ | .stw .., _ | .stwS .., _ | .std .., _ | .stdS .., _ | .xst .., _ => h.storeAt
  | .tld .., _ => h.execTld
  | .tst .., _ => h.execTst
  | .amoAdd .., _ | .amoAnd .., _ | .amoOr .., _ | .amoXor .., _ | .amoMin .., _ | .amoMax .., _ | .amoMinu .., _ | .amoMaxu .., _
  | .amoSwap .., _ | .cas .., _ => h.atomAt
  | .accAdd .., _ | .accMin .., _ | .accMax .., _ | .accOr .., _ | .accFadd32 .., _ | .accLadd32 .., _ => h.accAt
  | .xset .., _ | .xsetSh .., _ | .xmovEg .., _ | .xmovS .., _ => h.setE.done
  | .bankmode .., _ => h.execBankmode
  | .linewb .., _ => h.execLinewb
  | .lineinv .., _ => h.execLineinv
  | .pin .., _ => h.execPin
  | .unpin .., _ => h.execUnpin
  | .bc .., _ => .ite h.trap (.ite h.branchTo h.branchNot)
  | .b .., _ => h.branchTo
  | .call .., _ => h.callTo
  | .jmp .., _ | .calli .., _ | .ret .., _ => h.jumpVia
  | .loop .., _ | .loopi .., _ => h.startLoop
  | .bS .., _ => h.execBS
  | .callS .., _ => h.execCallS
  | .jmpS .., _ => h.execJmpS
  | .calliS .., _ => h.execCalliS
  | .retS, _ => h.execRetS
  | .lbrk .., _ => h.execLbrk
  | .hint .., _ => h.execHint
  | .start .., _ => h.execStart
  | .join .., _ | .joinS .., _ => h.joinVia
  | .sleep .., _ => h.needClean (.ite h.yieldVia (.ite h.waitIn h.modMe.waitIn))
  | .waitev .., _ => h.needClean (.ite h.waitIn h.modMe.putG.done)
  | .trap .., _ => h.trap
  | .mfs .., _ => h.execMfs
  | .mts .., _ => h.execMts
  | .ctxsave .., _ => h.execCtxsave
  | .ctxload .., _ => h.execCtxload
  | .claim .., _ => h.execClaim
  | .give .., _ => h.pred h.giveVia
  | .pquery .., _ => h.pred (h.needClean h.putG.done)
  | .tnow .., _ | .tnowS .., _ => h.tnowVia
  | .twaitu .., _ => h.execTwaitu
  | .pko .., _ => h.execPko
  | .pka .., _ => h.execPka
  | .rxpop .., _ => h.execRxpop
  | .rld .., _ | .fetchto .., _ => h.remote
  | .dropwin .., _ => h.needClean (h.needE (fun _ => .ite h.trap (h.modMyCore (fun _ h1 => h1.update)).putG.done))
  | .twany .., _ | .twall .., _ => h.needClean (.ite h.putG.done h.waitIn)
  | .tffr .., _ | .mjpoll .., _ => h.needClean h.putG.done
  | .tclr .., _ => h.needClean (h.modMyCore (fun _ h1 => h1.update)).done
  | .tlwait .., _ | .tlwaitS .., _ => h.tlwaitVia
  | .gset .., _ => h.execGset
  | .gclr .., _ => .ite h.trap (h.modMyCore (fun _ h1 => h1.setGuard)).putG.done
  | .mlda .., _ | .mldb .., _ => h.loadJob
  | .mmac .., _ | .mmul .., _ | .mmr .., _ | .mzero .., _ | .mscl .., _ => h.tileJob
  | .mcfgOwn .., _ | .mcfgFree .., _ => h.maskJob
  | .mcfgQuery .., _ => h.execMcfgQuery
  | .mrda .., _ => h.execMrda
  | .mjwait .., _ | .mjwaitS .., _ => h.mjwaitVia
  | .vclaim .., _ => h.execVclaim
  | .vrel .., _ => h.pred h.vrelVia
  | .vlen .., _ => h.pred (h.needClean (.ite h.trap h.modMe.putG.done))
  | .vadd .., _ | .vsub .., _ | .vmul .., _ | .vmin .., _ | .vmax .., _ | .vand .., _ | .vor .., _ | .vxor .., _ | .vshl .., _
  | .vshr .., _ | .vfadd .., _ | .vfmul .., _ | .vfmax .., _ | .vfmin .., _ | .vcmp .., _ | .vladd .., _ | .vlmul .., _ | .vfsub .., _ =>
    h.vop2
  | .vfma .., _ | .vsel .., _ | .vperm .., _ | .vbcast .., _ | .vbcastE .., _ | .vslideUp .., _ | .vslideDn .., _ | .vcvt .., _
  | .vrsum .., _ | .vrmax .., _ => h.pred (h.onLanes h.putElems)
  | .vfabs .., _ | .vfneg .., _ | .vlog .., _ | .vrcp .., _ | .vrsq .., _ | .vsig .., _ | .vtanh .., _ | .vlcvt .., _ | .vexp .., _ =>
    h.vop1
  | .vld .., _ | .vlds .., _ | .vgath .., _ => h.vload
  | .vst .., _ | .vsts .., _ | .vscat .., _ => h.vstore
  | .fadd .., _ | .fsub .., _ | .fmul .., _ | .ffma .., _ | .fclass .., _ | .lclass .., _ => h.pred h.putNum
  | .fdiv .., _ => h.execFdiv
  | .fsqrt .., _ => h.execFsqrt
  | .fmin .., _ | .fmax .., _ => h.pred h.minmax
  | .fcmp .., _ | .lcmp .., _ => h.pred h.putCmp
  | .fcvt .., _ => h.execFcvt
  | .ladd .., _ | .lsub .., _ | .lmul .., _ | .ldiv .., _ => h.pred h.level2
  | .lcvt .., _ => h.execLcvt
  | .launch .., _ => h.execLaunch
  | .spawn .., _ => h.execSpawn
  | .tedge .., _ => h.execTedge
  | .tinfo .., _ => h.execTinfo
  | .boost .., _ => h.execBoost
  | .brel .., _ => h.pred (h.modMyCore (fun _ h1 => h1.update)).done
  | .addS .., _ | .subS .., _ | .andS .., _ | .orS .., _ | .xorS .., _ | .andnS .., _ | .shlS .., _ | .shrS .., _ | .sarS .., _
  | .minS .., _ | .maxS .., _ | .mulS .., _ | .minuS .., _ | .maxuS .., _ => h.alu3 (q := always)
  | .clzS .., _ | .ctzS .., _ | .popcS .., _ => h.alu2 (q := always)
  | .addiS .., _ | .andiS .., _ | .oriS .., _ | .xoriS .., _ => h.aluImm (q := always)
  | .aflush, _ => .ite h.done (.ite h.hold (.ite (State.Legal.ite h h.mergeMine).waitIn h.done))
  | .nop, _ | .nopS, _ => h.done
  | .exit, _ | .exitS, _ => h.exitVia
  | .yield, _ | .yieldS, _ => h.yieldVia
  | .rett, _ => .ite h.trap (.ite (h.returnTo (fun _ h1 => h1.update)) (h.returnTo (fun _ h1 => h1)))
  | .halt, _ => .ite h.retire.update.next h.illegal
  | .pks, _ => h.execPks
  | .giveS, _ => h.giveVia
  | .vrelS, _ => h.vrelVia
  | .fusedSoftmax, encoded | .interruptTake, encoded | .mgmtInterruptTake, encoded | .alarmReached, encoded | .contextStop, encoded
  | .displacement, encoded | .resume, encoded | .thermalMigration, encoded | .sleepExpire, encoded | .joinComplete, encoded
  | .waitevWake, encoded | .twaituWake, encoded | .tlwaitWake, encoded | .mjwaitWake, encoded | .twanyWake, encoded | .twallWake, encoded
  | .fifoWaitComplete, encoded | .hintAlignRelease, encoded | .poolGrant, encoded | .laneGrant, encoded | .aflushComplete, encoded
  | .bankDrainComplete, encoded | .loadReplyLand, encoded | .tldServe, encoded | .timedStoreArrive, encoded | .timedStoreAck, encoded
  | .storeRetry, encoded | .plainStoreArrive, encoded | .writebackArrive, encoded | .atomicAtHome, encoded | .mergeArrive, encoded
  | .homeTickApply, encoded | .shadowEntryDiscard, encoded | .tick, encoded | .matrixJobStart, encoded | .matrixJobFinish, encoded
  | .copyStart, encoded | .copyResume, encoded | .copyAbort, encoded | .copyQueueHead, encoded | .copyIterationRelease, encoded
  | .copyDelivered, encoded | .copyComplete, encoded | .copyFreeze, encoded | .forwardedTag, encoded | .heldAccessRelease, encoded
  | .fifoPush, encoded | .fifoPull, encoded | .vectorMemoryComplete, encoded | .packetSend, encoded | .packetArrive, encoded
  | .packetRetry, encoded | .rldReply, encoded | .fetchtoSourceRead, encoded | .fetchtoReplyArrive, encoded | .fetchtoAck, encoded
  | .launchAccept, encoded | .taskEnterTable, encoded | .renameCommit, encoded | .coreChoice, encoded | .footprintLanded, encoded
  | .taskDispatch, encoded | .taskRetireComplete, encoded | .taskFailureComplete, encoded | .launchResolve, encoded
  | .deadlinePass, encoded | .shapeExpire, encoded | .controlIntervalEnd, encoded | .brakeStepEnd, encoded
  | .linkTrainingComplete, encoded | .linkFrameSend, encoded | .linkFrameReceive, encoded | .linkAckReceive, encoded
  | .linkHoldTimeout, encoded | .keygo, encoded | .tlbinv, encoded | .plimWrite, encoded | .evqPop, encoded | .rollbackWrite, encoded
  | .peernoWrite, encoded | .lcstateWrite, encoded | .fcmdRead, encoded | .fcmdProgram, encoded | .fcmdErase, encoded
  | .flashCommandComplete, encoded | .formatRegionEnable, encoded | .huskclr, encoded | .throttleWrite, encoded | .alertqPop, encoded
  | .doorbell, encoded | .reload, encoded | .hevqPop, encoded | .lportSubmit, encoded | .ago, encoded | .reportComplete, encoded
  | .hmemAccess, encoded | .registerWrite, encoded | .coldStart, encoded | .warmStart, encoded | .backgroundWipeGranule, encoded
  | .divideUnitComplete, encoded | .recurrenceUnitComplete, encoded | .migrationSwitch, encoded | .linkRetrain, encoded =>
    absurd rfl encoded

/-- Settles O56: every function that an encoded instruction runs leaves the modes as they are, or sets one that exists. -/
theorem modesStayLegal : Obligations.ModesStayLegal := by
  unfold Obligations.ModesStayLegal
  intro i s t encoded legal run
  have after : t.Legal s.cur := (((State.legal_iff s rfl).2 legal).exec encoded).out run
  exact (State.legal_iff t after.cur).1 after

end Sys2Proof.Machine
end
